-- ==== Sys2Proof/Word.lean ====
section
/-! DEFINITION. The word types of the D9 (R4) and the plainest arithmetic on them. -/

namespace Sys2Proof

/-- A byte, 8 bits (R4). -/
abbrev Byte := BitVec 8

/-- A word, 32 bits (R4): the width of a general register. -/
abbrev Word := BitVec 32

/-- A dword, 64 bits (R4): the width of an instruction word and of a register pair. -/
abbrev Dword := BitVec 64

/-- A 64-bit value from its low and its high word; a pair has its low word in the even register (R238). -/
def joinWords (lo hi : Word) : Dword := hi ++ lo

/-- Bits [31:0] of a 64-bit value. -/
def loWord (x : Dword) : Word := x.truncate 32

/-- Bits [63:32] of a 64-bit value. -/
def hiWord (x : Dword) : Word := (x >>> 32).truncate 32

@[simp] theorem loWord_joinWords (lo hi : Word) : loWord (joinWords lo hi) = lo := by
  apply BitVec.eq_of_getLsbD_eq
  intro i h
  rw [loWord, joinWords, BitVec.truncate_eq_setWidth, BitVec.getLsbD_setWidth]
  rw [show (hi ++ lo : Dword).getLsbD i = (hi ++ lo : BitVec (32 + 32)).getLsbD i from rfl, BitVec.getLsbD_append]
  simp [h]

@[simp] theorem hiWord_joinWords (lo hi : Word) : hiWord (joinWords lo hi) = hi := by
  apply BitVec.eq_of_getLsbD_eq
  intro i h
  rw [hiWord, joinWords, BitVec.truncate_eq_setWidth, BitVec.getLsbD_setWidth, BitVec.getLsbD_ushiftRight]
  rw [show (hi ++ lo : Dword).getLsbD (32 + i) = (hi ++ lo : BitVec (32 + 32)).getLsbD (32 + i) from rfl,
    BitVec.getLsbD_append]
  simp [h]

end Sys2Proof
end

