-- ==== Sys2Proof/Syntax.lean ====
section
/-! DEFINITION. The instructions and events of the D9: one constructor of `Instr` for each row of the opcode table.
A Scarix instruction (09, R220 to R237) carries its decoded fields; a queue-program word (R406, R407) carries its fields;
an event of a unit, of a host or of the network carries the data that names it. -/

namespace Sys2Proof

/-- A field that names a general register: 0 to 254, or 255 for gz (R232). -/
abbrev GReg := BitVec 8

/-- A field that names a group-uniform register: 0 to 63 are legal (R232). -/
abbrev SReg := BitVec 8

/-- A field that names a predicate: 0 to 6, or 7 for pt (R232). -/
abbrev PReg := BitVec 3

/-- One guard of the common header (R221, R222). -/
structure Guard where
  /-- The negate bit. -/
  neg : Bool
  /-- The predicate tested; 7 is always true. -/
  p : PReg
  deriving DecidableEq, Repr

/-- The guards, the lookahead and the cache hint of the common header (R221). -/
structure Hdr where
  g0 : Guard
  g1 : Guard
  /-- Lookahead LA (R223). -/
  la : BitVec 4
  /-- Cache hint CH (R87, R226). -/
  ch : BitVec 2
  deriving DecidableEq, Repr

/-- Rounding modes (R151). -/
inductive Rnd where
  | rn | rz | ru | rd
  deriving DecidableEq, Repr

/-- Element formats by their codes (R141); E8M0 (0x13) is a scale and never an element of an instruction. -/
inductive Fmt where
  | f64 | f32 | bf16 | f16 | e4m3 | e5m2 | e3m2 | e2m3 | e2m1 | i8 | i32
  | bx2 | bx3 | bx4 | bx5 | bx6 | bx7 | bx8
  deriving DecidableEq, Repr

/-- Format tags of registers (R147). -/
inductive Tag where
  | raw | i32 | f32 | bf16x2 | f16x2 | e4m3x4 | e5m2x4 | e2m1x8 | i8x4 | bxp | f64lo | f64hi
  deriving DecidableEq, Repr

/-- The variants of IADD and ISUB (R241). -/
inductive AddSat where
  | wrap | sat | usat
  deriving DecidableEq, Repr

/-- Integer compare conditions (R252). -/
inductive ICond where
  | eq | ne | lt | le | gt | ge | ltu | leu | gtu | geu
  deriving DecidableEq, Repr

/-- Predicate combinations of PSET (R253). -/
inductive PsetOp where
  | and | or | xor
  deriving DecidableEq, Repr

/-- Float compare conditions (R302). -/
inductive FCond where
  | eq | ne | lt | le | gt | ge | un | ord
  deriving DecidableEq, Repr

/-- Packed half-width formats (R303). -/
inductive HFmt where
  | bf16 | f16
  deriving DecidableEq, Repr

/-- Dot-product formats (R304). -/
inductive DotFmt where
  | e4m3 | e5m2 | i8 | e2m1
  deriving DecidableEq, Repr

/-- VOTE operations (R311). -/
inductive VoteOp where
  | every | some | mask | count
  deriving DecidableEq, Repr

/-- SHFL modes (R312). -/
inductive ShflMode where
  | at | rot | xch
  deriving DecidableEq, Repr

/-- REDUCE and SCAN operations (R315). -/
inductive RedOp where
  | add | min | minu | max | maxu | and | or | xor | fadd | fmin | fmax | famax
  deriving DecidableEq, Repr

/-- Access sizes and types of layout M (R231). -/
inductive MSize where
  | b8 | b16 | b32 | b64 | b128 | b256 | f32 | bf16x2 | f16x2 | e4m3x4 | e5m2x4 | e2m1x8 | i8x4 | bxp | f64 | i32
  deriving DecidableEq, Repr

/-- Orders of an access (R121). -/
inductive Ord4 where
  | rlx | acq | rel | ar
  deriving DecidableEq, Repr

/-- Scopes (R120, R121). -/
inductive Scope where
  | core | die | dev | sys
  deriving DecidableEq, Repr

/-- Operations of ATOM and RED (R277). -/
inductive AtomOp where
  | swap | cas | add | min | minu | max | maxu | and | or | xor | fadd | fmin | fmax
  deriving DecidableEq, Repr

/-- Special and system registers (R344). -/
inductive SysReg where
  | lane | slot | core | die | ctx | task | index | count | group | grank | gsize | frag | adopt | time | cycles | tls
  /-- sy.f0 to sy.f15: the words of the trap frame. -/
  | f (i : BitVec 4)
  | tpc | tpred | dbg | bpctl
  /-- sy.bpa0 to sy.bpa3. -/
  | bpa (i : BitVec 2)
  | priv
  deriving DecidableEq, Repr

/-- An agent that executes instruction words: a free thread or a shipped section (both threads of the model), a
fragment of a bound group (R47), or a queue processor. `none`: nobody. -/
inductive Actor where
  | none
  | thread (tid : Nat)
  | frag (gid fid : Nat)
  | queue (q : Nat)
  /-- An engine or another unit of a compute die, in an event of its own. -/
  | unit (die : Nat)
  deriving DecidableEq, Repr

/-- The place that a debug sub-operation names (R354): die, core, lane and slot. -/
structure DbgPlace where
  die : Nat
  core : Nat
  lane : Nat
  slot : Nat
  deriving DecidableEq, Repr

/-- How a section ended on another device (R176): its cause, which is 0 where it ended with SRET, its home, its PC, and the
detail word of its fault record (R178). -/
structure SectionEnd where
  cause : Nat
  lc : Nat
  pc : Dword
  detail : Word := 0
  deriving DecidableEq, Repr

/-- The two queues of a chain between devices (R407): the one that waits, on the device that receives, and the one that has
reached the count. -/
structure ChainRef where
  queue : Nat
  target : Nat
  deriving DecidableEq, Repr

/-- One host access through an aperture or over CXL.mem (R396, R398): its device physical address, its length in
bytes, and the bytes written, or none for a read. -/
structure HostAccess where
  /-- The function that makes the access; 0 or 64 (R395). -/
  func : Nat
  /-- Aperture offset, or physical address for CXL.mem. -/
  off : Nat
  /-- Bytes accessed. -/
  len : Nat
  /-- The value written, little-endian; none for a read. -/
  wr : Option (List Byte)
  deriving DecidableEq, Repr

/-- An entry of an array that carries the ID of the context that wrote it (R432). -/
inductive ArrayEntry where
  /-- A sector at its home slice, or its clean copy in the L2 of another die: its number is its key / 256. -/
  | home (sector : Nat)
  | copy (die sector : Nat)
  /-- A sector in the L1 of a core, by its index, or in that of latency core n, at 1,024 + n. -/
  | l1 (core sector : Nat)
  /-- A sector in the private L2 of a latency core. -/
  | lcL2 (n sector : Nat)
  /-- A register, a cell or a scratchpad entry of a core, or a register of a latency core. -/
  | core (die core : Nat)
  | lc (n : Nat)
  deriving DecidableEq, Repr

/-- The requester of a PFT message: node, context and thread (R413, R419). -/
structure PftPeer where
  node : Nat
  ctx : Nat
  tid : Nat
  /-- Whether the thread waits where a home is full: a section does not (R170). -/
  waits : Bool := true
  deriving DecidableEq, Repr

/-- A sensor and power reading handed to the firmware at a window end (R447, R456). -/
structure WindowReading where
  /-- Package energy of the window, microjoules. -/
  energy : Nat
  /-- Static estimate, microjoules. -/
  static : Nat
  /-- Average package power of the last 10 ms window, mW. -/
  pwr10 : Nat
  /-- Hottest sensor of each die, ten values in degrees Celsius. -/
  temp : List Nat
  tin : Nat
  tout : Nat
  /-- Units of 0.01 L/min. -/
  flow : Nat
  deriving DecidableEq, Repr

/-- One constructor for each row of the opcode table. Scarix words first (their header `h`, then their fields under
the names of the entry), then queue-program words, then events. -/
inductive Instr where
  -- 10: integer, conversion and control
  | iadd (h : Hdr) (v : AddSat) (pd : PReg) (d a b : GReg)
  | isub (h : Hdr) (v : AddSat) (pd : PReg) (d a b : GReg)
  | imul (h : Hdr) (d a b : GReg)
  | imulh (h : Hdr) (uns : Bool) (d a b : GReg)
  | imad (h : Hdr) (d a b c : GReg)
  | iadd64 (h : Hdr) (pd : PReg) (d a b : GReg)
  | isub64 (h : Hdr) (pd : PReg) (d a b : GReg)
  | imin (h : Hdr) (uns : Bool) (d a b : GReg)
  | imax (h : Hdr) (uns : Bool) (d a b : GReg)
  | iabs (h : Hdr) (sat : Bool) (d a : GReg)
  | iaddImm (h : Hdr) (d a : GReg) (imm : BitVec 24)
  | andImm (h : Hdr) (d a : GReg) (imm : BitVec 24)
  | orImm (h : Hdr) (d a : GReg) (imm : BitVec 24)
  | xorImm (h : Hdr) (d a : GReg) (imm : BitVec 24)
  | and (h : Hdr) (d a b : GReg)
  | or (h : Hdr) (d a b : GReg)
  | xor (h : Hdr) (d a b : GReg)
  | andn (h : Hdr) (d a b : GReg)
  | shl (h : Hdr) (d a b : GReg)
  | shr (h : Hdr) (d a b : GReg)
  | sar (h : Hdr) (d a b : GReg)
  | rot (h : Hdr) (d a b : GReg)
  | shlImm (h : Hdr) (d a : GReg) (n : BitVec 5)
  | shrImm (h : Hdr) (d a : GReg) (n : BitVec 5)
  | sarImm (h : Hdr) (d a : GReg) (n : BitVec 5)
  | rotImm (h : Hdr) (d a : GReg) (n : BitVec 5)
  | shl64 (h : Hdr) (d a b : GReg)
  | shr64 (h : Hdr) (arith : Bool) (d a b : GReg)
  | popc (h : Hdr) (d a : GReg)
  | clz (h : Hdr) (d a : GReg)
  | ctz (h : Hdr) (d a : GReg)
  | brev (h : Hdr) (d a : GReg)
  | bfe (h : Hdr) (signed : Bool) (d a b : GReg)
  | bfi (h : Hdr) (d a b c : GReg)
  | perm (h : Hdr) (d a b c : GReg)
  | sel (h : Hdr) (neg : Bool) (d a b : GReg) (pc : PReg)
  | mov (h : Hdr) (b64 : Bool) (d a : GReg)
  | movi (h : Hdr) (d : GReg) (imm : Word)
  | movhi (h : Hdr) (d : GReg) (imm : Word)
  | lea (h : Hdr) (sx : Bool) (sh : BitVec 3) (d a b : GReg)
  | naddr (h : Hdr) (leaf : Bool) (d a b c : GReg)
  | icmp (h : Hdr) (cc : ICond) (pd : PReg) (a b : GReg)
  | icmp64 (h : Hdr) (cc : ICond) (pd : PReg) (a b : GReg)
  | pset (h : Hdr) (op : PsetOp) (na nb : Bool) (pd pa pb : PReg)
  | pmovGet (h : Hdr) (d : GReg)
  | pmovPut (h : Hdr) (a b : GReg)
  | cvt (h : Hdr) (tgt src : Fmt) (rnd : Rnd) (sat : Bool) (d a c : GReg)
  | pack (h : Hdr) (tgt : Fmt) (rnd : Rnd) (sat sc h1 : Bool) (d a c : GReg)
  | unpack (h : Hdr) (src : Fmt) (rnd : Rnd) (sat sc h1 : Bool) (d a c : GReg)
  | qscale (h : Hdr) (tgt : Fmt) (d a : GReg)
  | fmtset (h : Hdr) (tag : Tag) (d a : GReg)
  | fmtget (h : Hdr) (d a : GReg)
  | nop (h : Hdr)
  | bra (h : Hdr) (imm : BitVec 24)
  | brx (h : Hdr) (a : GReg)
  | call (h : Hdr) (imm : BitVec 24)
  | callx (h : Hdr) (a : GReg)
  | ret (h : Hdr)
  | exit (h : Hdr)
  | mset (h : Hdr) (imm : BitVec 24)
  | meet (h : Hdr)
  | yield (h : Hdr)
  -- 12: floating point
  | fadd (h : Hdr) (pr : Bool) (rnd : Rnd) (d a b : GReg)
  | fmul (h : Hdr) (pr : Bool) (rnd : Rnd) (d a b : GReg)
  | ffma (h : Hdr) (pr : Bool) (rnd : Rnd) (d a b c : GReg)
  | fmin (h : Hdr) (pr : Bool) (d a b : GReg)
  | fmax (h : Hdr) (pr : Bool) (d a b : GReg)
  | fcmp (h : Hdr) (cc : FCond) (pd : PReg) (a b : GReg)
  | fadd64 (h : Hdr) (rnd : Rnd) (d a b : GReg)
  | fmul64 (h : Hdr) (rnd : Rnd) (d a b : GReg)
  | ffma64 (h : Hdr) (rnd : Rnd) (d a b c : GReg)
  | fmin64 (h : Hdr) (d a b : GReg)
  | fmax64 (h : Hdr) (d a b : GReg)
  | fcmp64 (h : Hdr) (cc : FCond) (pd : PReg) (a b : GReg)
  | hadd2 (h : Hdr) (fmt : HFmt) (rnd : Rnd) (d a b : GReg)
  | hmul2 (h : Hdr) (fmt : HFmt) (rnd : Rnd) (d a b : GReg)
  | hfma2 (h : Hdr) (fmt : HFmt) (rnd : Rnd) (d a b c : GReg)
  | dot4 (h : Hdr) (fmt : DotFmt) (rnd : Rnd) (d a b c : GReg)
  | dot8 (h : Hdr) (fmt : DotFmt) (rnd : Rnd) (d a b c : GReg)
  | frcp (h : Hdr) (d a : GReg)
  | frsq (h : Hdr) (d a : GReg)
  | fsqrt (h : Hdr) (rnd : Rnd) (d a : GReg)
  | fexp2 (h : Hdr) (d a : GReg)
  | flog2 (h : Hdr) (d a : GReg)
  | fsin (h : Hdr) (d a : GReg)
  | fcos (h : Hdr) (d a : GReg)
  | ftanh (h : Hdr) (d a : GReg)
  /-- The pending long-latency result of register `reg` of thread `tid` is written (R224). -/
  | longLatencyResult (tid reg : Nat)
  -- 12: bound groups
  | bind (h : Hdr) (n1 : BitVec 5) (a : GReg)
  | unbind (h : Hdr)
  | part (h : Hdr) (code : BitVec 3)
  | vote (h : Hdr) (op : VoteOp) (neg : Bool) (pd : PReg) (d : GReg) (q : PReg)
  | shfl (h : Hdr) (mode : ShflMode) (pd : PReg) (d a b : GReg)
  | gshfl (h : Hdr) (d a b : GReg)
  | sbcast (h : Hdr) (b64 : Bool) (d a : GReg) (n : BitVec 5)
  | smovRead (h : Hdr) (d : GReg) (s : SReg)
  | smovWrite (h : Hdr) (s : SReg) (a : GReg) (n : BitVec 5)
  | reduce (h : Hdr) (op : RedOp) (d a : GReg)
  | scan (h : Hdr) (op : RedOp) (excl : Bool) (d a : GReg)
  | gbar (h : Hdr)
  | gfence (h : Hdr) (scope : Scope)
  -- 11: memory
  | ld (h : Hdr) (sz : MSize) (ord : Ord4) (scope : Scope) (d a : GReg) (off : BitVec 8)
  | st (h : Hdr) (sz : MSize) (ord : Ord4) (scope : Scope) (a b : GReg) (off : BitVec 8)
  | lds (h : Hdr) (sz : MSize) (ord : Ord4) (scope : Scope) (d a : GReg) (off : BitVec 8)
  | sts (h : Hdr) (sz : MSize) (ord : Ord4) (scope : Scope) (a b : GReg) (off : BitVec 8)
  | ldl (h : Hdr) (sz : MSize) (ord : Ord4) (scope : Scope) (d a : GReg) (off : BitVec 8)
  | stl (h : Hdr) (sz : MSize) (ord : Ord4) (scope : Scope) (a b : GReg) (off : BitVec 8)
  | lda (h : Hdr) (sz : MSize) (tag : BitVec 3) (d a b : GReg)
  /-- The outstanding LDA copy `id` lands or fails (R106, R108). -/
  | ldaLand (id : Nat)
  | wtag (h : Hdr) (t : BitVec 3) (m : BitVec 6)
  | atom (h : Hdr) (op : AtomOp) (sz : MSize) (ord : Ord4) (scope : Scope) (d a b : GReg)
  | red (h : Hdr) (op : AtomOp) (sz : MSize) (ord : Ord4) (scope : Scope) (a b : GReg)
  | atomScratchpad (h : Hdr) (op : AtomOp) (sz : MSize) (ord : Ord4) (scope : Scope) (d a b : GReg)
  | redScratchpad (h : Hdr) (op : AtomOp) (sz : MSize) (ord : Ord4) (scope : Scope) (a b : GReg)
  | fence (h : Hdr) (ord : Ord4) (scope : Scope)
  | pref (h : Hdr) (line : Bool) (a : GReg) (off : BitVec 8)
  | cwb (h : Hdr) (line : Bool) (a : GReg) (off : BitVec 8)
  | cinv (h : Hdr) (line : Bool) (a : GReg) (off : BitVec 8)
  -- 11: tasks, futures, groups, sections, queue objects
  | spawn (h : Hdr) (nf : Bool) (pd : PReg) (a b c : GReg)
  | wait (h : Hdr) (scope : Scope) (d a b : GReg) (off : BitVec 8)
  | fset (h : Hdr) (scope : Scope) (pd : PReg) (a b : GReg) (off : BitVec 8)
  | fsetFault (h : Hdr) (scope : Scope) (pd : PReg) (a b : GReg) (off : BitVec 8)
  | fsetCancel (h : Hdr) (scope : Scope) (pd : PReg) (a b : GReg) (off : BitVec 8)
  | fnew (h : Hdr) (noOwner : Bool) (a : GReg)
  | join (h : Hdr) (a : GReg)
  | leave (h : Hdr) (a : GReg)
  | bar (h : Hdr) (a : GReg)
  | fsetBit (h : Hdr) (a b : GReg)
  | waitBit (h : Hdr) (a b : GReg)
  | shipW (h : Hdr) (pd : PReg) (m n : BitVec 3) (a b c : GReg)
  | shipC (h : Hdr) (m n : BitVec 3) (d a b c : GReg)
  | shipO (h : Hdr) (n : BitVec 3) (a b c : GReg)
  | sret (h : Hdr)
  | qpush (h : Hdr) (pd : PReg) (a b c : GReg)
  | qpushRsv (h : Hdr) (pd : PReg) (d a b : GReg)
  | qpop (h : Hdr) (pd : PReg) (d a b : GReg)
  | qpopMin (h : Hdr) (pd : PReg) (d a : GReg)
  -- 13: engines
  | accAlloc (h : Hdr) (pd : PReg) (eng : BitVec 2) (mask : BitVec 8)
  | accFree (h : Hdr) (eng : BitVec 2) (mask : BitVec 8)
  | accLend (h : Hdr) (eng : BitVec 2) (mask : BitVec 8) (sa : SReg)
  | accZero (h : Hdr) (eng : BitVec 2) (mask : BitVec 8)
  | accLd (h : Hdr) (eng : BitVec 2) (a b c : GReg)
  | accRd (h : Hdr) (eng : BitVec 2) (f32 i96 : Bool) (d b c : GReg)
  | mma (h : Hdr) (fmt : Fmt) (eng : BitVec 2) (bank : BitVec 3) (sa sb sc : SReg)
  | mmas (h : Hdr) (fmt : Fmt) (eng : BitVec 2) (bank : BitVec 3) (sa sb sc : SReg)
  | accDrain (h : Hdr) (eng : BitVec 2) (bank : BitVec 3) (sa sc : SReg)
  /-- Engine `eng` of the core runs the MMA, MMAS, ACC.ZERO, ACC.LD or ACC.RD command at its head (R21, R325). -/
  | matrixCommandRun (die core eng : Nat)
  /-- Engine `eng` of the core runs the drain at its head (R328). -/
  | drainRun (die core eng : Nat)
  | bcpy (h : Hdr) (nf : Bool) (a c : GReg)
  /-- Bulk copy `id` writes its unwritten sector number `sector`, or completes when none is left (R111, R112). -/
  | bulkCopySector (id sector : Nat)
  /-- Bulk copy `id` takes its next ring entry (R95). -/
  | ringEntryTake (id : Nat)
  | rcfg (h : Hdr) (n : BitVec 4) (a : GReg)
  | rcfgGet (h : Hdr) (n : BitVec 4) (d : GReg)
  | rpush (h : Hdr) (n : BitVec 4)
  | rpop (h : Hdr) (n : BitVec 4) (d : GReg)
  | dscCfg (h : Hdr) (a : GReg)
  | dscRun (h : Hdr) (sa sc : SReg)
  /-- The core's descent engine routes its rows through one level (R186). -/
  | dscLevel (die core : Nat)
  | dscPath (h : Hdr) (d b : GReg)
  | dscGrad (h : Hdr) (sa sb sc : SReg)
  /-- The core's descent engine runs the gradient command at its head (R193). -/
  | dscGradRun (die core : Nat)
  | rfbStart (h : Hdr) (a c : GReg)
  /-- The die's refinement controller starts its oldest waiting block (R194, R197). -/
  | rfbBlockStart (die : Nat)
  /-- The die's refinement controller acts on block `id`, whose step has finished (R197). -/
  | rfbStepDone (die id : Nat)
  | rfbStat (h : Hdr) (d a : GReg)
  | rfbAbort (h : Hdr) (pd : PReg) (a : GReg)
  | rmaPut (h : Hdr) (nf : Bool) (a c : GReg)
  | rmaGet (h : Hdr) (nf : Bool) (a c : GReg)
  | rmaFlag (h : Hdr) (add : Bool) (a b : GReg)
  -- 14: system
  | srd (h : Hdr) (d : GReg) (reg : SysReg)
  | swr (h : Hdr) (reg : SysReg) (a : GReg)
  | trap (h : Hdr) (imm : BitVec 24)
  | tret (h : Hdr) (next : Bool)
  | bpt (h : Hdr) (imm : BitVec 24)
  | icinv (h : Hdr) (a b : GReg)
  | ifence (h : Hdr)
  | clk (h : Hdr) (cyc : Bool) (d : GReg)
  | perfRd (h : Hdr) (d : GReg) (n : BitVec 3)
  | perfCfg (h : Hdr) (n : BitVec 3) (a : GReg)
  /-- A word whose opcode is unassigned or reserved (R237). -/
  | unassignedOpcode (w : Dword)
  -- queue-program words (R406)
  | qpPkt (i : BitVec 16) (a : BitVec 4)
  | qpMovi (imm : BitVec 16) (a : BitVec 4)
  | qpShli (n : BitVec 16) (b a : BitVec 4)
  | qpShri (n : BitVec 16) (b a : BitVec 4)
  | qpAdd (b a : BitVec 4)
  | qpAnd (b a : BitVec 4)
  | qpOr (b a : BitVec 4)
  | qpLdw (w : BitVec 3) (b a : BitVec 4)
  | qpStw (w : BitVec 3) (b a : BitVec 4)
  | qpBeq (k : BitVec 16) (b a : BitVec 4)
  | qpBne (k : BitVec 16) (b a : BitVec 4)
  | qpBltu (k : BitVec 16) (b a : BitVec 4)
  | qpLoop (n : BitVec 16)
  | qpEndl
  | qpStg (i : BitVec 16) (a : BitVec 4)
  | qpEnd
  | actNop
  | actLaunch
  | actSignal
  | actWaitsig
  | actCopy
  | actRfb
  | actChain
  -- events of threads, tasks and the scheduler
  | threadWake (a : Actor)
  | waitTimeout (a : Actor)
  | taskAdmit (die core : Nat)
  | heldAdmission (die core : Nat)
  | gangBoundExpiry (die core : Nat)
  | taskSteal (die core victim : Nat)
  | spillRefill (die core : Nat)
  | taskPlace (die core : Nat)
  | shipArrival (lc : Nat)
  | shipGrant (lc : Nat)
  | sectionStart (lc : Nat)
  | sectionTimeLimit (lc : Nat)
  | preemptSave (die core : Nat)
  | faultRecordWrite (ctx : Nat)
  | routingTimeout (ctx seq : Nat)
  /-- An uncorrectable error: in the sector of HBM at this physical address, or else in this entry, or in one that no context writes. -/
  | scrubUncorrectable (hbm : Option Nat) (entry : Option ArrayEntry)
  -- mailbox operations (R416, R354, R440): the function that writes CMD, then the operands
  | load (func : Nat) (prog ctx : Nat) (va : Dword)
  | free (func : Nat) (prog ctx : Nat)
  | create (func : Nat) (ctx : Nat) (pa : Nat)
  | destroy (func : Nat) (ctx : Nat)
  | setcores (func : Nat) (ctx : Nat) (pa : Nat)
  | preempt (func : Nat) (ctx : Nat) (pa : Nat)
  | tlbinv (func : Nat) (va : Dword) (ctx : Nat) (len : Dword)
  /-- `func` none: the service firmware resolves (R424, R426). -/
  | resolve (func : Option Nat) (fid ctx : Nat) (fail : Bool)
  | fwwrite (func : Nat) (addr len : Nat)
  | fwactivate (func : Nat)
  | exportCtx (func : Nat) (ctx : Nat) (pa : Nat)
  | unexportCtx (func : Nat) (num ctx : Nat)
  | attach (func : Nat) (ctx : Nat) (on : Bool)
  | stopctx (func : Nat) (ctx : Nat) (on : Bool)
  | debugResume (func : Nat) (ctx : Nat) (pl : DbgPlace) (next : Bool)
  | wrbp (func : Nat) (ctx : Nat) (idx : Nat) (val : Dword)
  | rdframe (func : Nat) (ctx : Nat) (pl : DbgPlace) (pa : Nat)
  | rdstate (func : Nat) (ctx : Nat) (pl : DbgPlace) (pa : Nat)
  | wrstate (func : Nat) (ctx : Nat) (pl : DbgPlace) (pa : Nat)
  -- device control; `port` is a port ID of R399
  | semtas (port : Nat)
  | semrel (port : Nat) (val : Dword)
  | semaphoreLeaseExpiry
  | reset (port : Nat) (val : Dword)
  | coldReset
  | functionLevelReset (func : Nat)
  | powerlim (port : Nat) (val : Dword)
  | throttleLevel (level : Nat)
  | thermalTrip
  | eventCounterControl (port : Nat) (off : Nat) (val : Word)
  /-- A write of `val` to the 8-byte register at offset `off` of BAR `bar`, by a function. -/
  | registerWrite (func bar off : Nat) (val : Dword)
  -- hardware queues
  | queueEnable (func q : Nat)
  | queueDisable (func q : Nat)
  | queueResume (func q : Nat)
  | kick (func : Nat) (q : Nat) (val : Dword)
  | packetRead (q : Nat)
  | waitsigSatisfied (q : Nat)
  | chainSatisfied (q : Nat)
  | sigwaitArm (func idx : Nat)
  -- host memory accesses
  | hostCoherentAccess (acc : HostAccess)
  | hostDirectAccess (acc : HostAccess)
  | cxlMemAccess (acc : HostAccess)
  -- PFT messages received (R412 to R415)
  | pftPut (src : PftPeer) (seq : Nat) (exp : Nat) (off : Nat) (data : List Byte)
  | pftGetRequest (src : PftPeer) (seq op : Nat) (exp : Nat) (off len : Nat)
  | pftGetResponse (node seq : Nat) (op : Nat) (off : Nat) (data : List Byte)
  | pftFlag (src : PftPeer) (seq : Nat) (exp : Nat) (off : Nat) (add : Bool) (val : Dword)
  | pftShipRequest (src : PftPeer) (seq op : Nat) (exp : Nat) (off : Nat) (entry lock : Dword) (kind : Nat) (m : Nat)
      (task : Word) (args : List Word)
  | pftShipResult (node seq : Nat) (op : Nat) (ok : Bool) (out : SectionEnd) (results : List Word)
  /-- A WAITSIG registered by a queue of another device on a location of an export, or (`fire`) the notice that the one of
  queue `queue` of this device holds. -/
  | pftSignal (src : PftPeer) (seq : Nat) (exp : Nat) (off queue : Nat) (val : Dword) (cond : Nat) (fire : Bool)
  | pftChainRegister (node seq : Nat) (remoteQueue queue : Nat) (count : Word)
  | pftChainNotify (node seq : Nat) (chain : ChainRef) (count : Word)
  | pftAck (node : Nat) (seqs : List Nat)
  | pftNack (node seq : Nat) (refused : Bool)
  | pftRetransmit (node seq : Nat)
  -- accounting and management
  | reconciliationWindow (r : WindowReading)
  | getUsageHeader
  | getUsage (first count : Nat)
  | getHealth
  | getVersion
  | getCapabilities
  | negotiateAlgorithms
  | getDigests
  | getCertificate (slot off len : Nat)
  | challenge (nonce : List Byte)
  | getMeasurements (index : Nat) (nonce : List Byte)
  | ptpEnable (time : Dword)
  /-- A snoop from the host for the line of host memory at this CX address; `inv` when the host takes it to write. -/
  | hostSnoop (line : Nat) (inv : Bool)
  | ptpMessage (port : Nat) (offset : Int) (best : Bool)
  | activePortChange (port : Nat) (up : Bool)
  | configurationRequest (port : Nat)
  | serviceFirmwareDecline (ctx seq : Nat)
  | powerGoodLoss
  deriving DecidableEq, Repr

end Sys2Proof
end

