-- ==== Sys2Proof/WellFormed.lean ====
section
/-! DEFINITION. Well-formed instructions: the checks of the header, the layout fields and the register numbers that do not
depend on a thread (R223, R231 to R234, and the field values of each entry). A word that fails one raises ILLEGAL_FIELD
at step 3 of R235. -/

namespace Sys2Proof

/-- A register operand: its base field, how many registers it spans, and the multiple its base must be (R233). -/
structure RegUse where
  base : GReg
  span : Nat
  align : Nat
  deriving DecidableEq, Repr

namespace RegUse

/-- One register. -/
def one (r : GReg) : RegUse := ⟨r, 1, 1⟩
/-- A pair, named by its even register (R233). -/
def pair (r : GReg) : RegUse := ⟨r, 2, 2⟩
/-- A group of four. -/
def four (r : GReg) : RegUse := ⟨r, 4, 4⟩
/-- A group of eight. -/
def eight (r : GReg) : RegUse := ⟨r, 8, 8⟩
/-- A span of `n` registers with no alignment (R288). -/
def run (r : GReg) (n : Nat) : RegUse := ⟨r, n, 1⟩

end RegUse

/-- Bytes of an access (R231). -/
def MSize.bytes : MSize → Nat
  | .b8 => 1
  | .b16 => 2
  | .b64 | .f64 => 8
  | .b128 => 16
  | .b256 => 32
  | .b32 | .f32 | .bf16x2 | .f16x2 | .e4m3x4 | .e5m2x4 | .e2m1x8 | .i8x4 | .bxp | .i32 => 4

/-- Registers of a span (R231). -/
def MSize.span : MSize → Nat
  | .b64 | .f64 => 2
  | .b128 => 4
  | .b256 => 8
  | _ => 1

/-- The register operand of a span of the size (R231, R233). -/
def MSize.use (sz : MSize) (r : GReg) : RegUse := ⟨r, sz.span, sz.span⟩

/-- The sizes a store accepts: SZ 0 to 5 (R273). -/
def MSize.untyped : MSize → Bool
  | .b8 | .b16 | .b32 | .b64 | .b128 | .b256 => true
  | _ => false

/-- Elements of a packed register; one for the formats that fill a register or a pair (R255). -/
def Fmt.lanes : Fmt → Nat
  | .f64 | .f32 | .i32 => 1
  | .bf16 | .f16 => 2
  | .e4m3 | .e5m2 | .e3m2 | .e2m3 | .i8 | .bx5 | .bx6 | .bx7 | .bx8 => 4
  | .e2m1 | .bx3 | .bx4 => 8
  | .bx2 => 16

/-- Formats that always take a block scale (R141, R255). -/
def Fmt.scaled : Fmt → Bool
  | .e3m2 | .e2m3 | .e2m1 | .bx2 | .bx3 | .bx4 | .bx5 | .bx6 | .bx7 | .bx8 => true
  | _ => false

/-- PACK targets and UNPACK sources (R255). -/
def Fmt.packs : Fmt → Bool
  | .f64 | .f32 | .i32 => false
  | _ => true

/-- QSCALE targets (R255). -/
def Fmt.qscales : Fmt → Bool
  | .e4m3 | .e5m2 | .e3m2 | .e2m3 | .e2m1 | .bx2 | .bx3 | .bx4 | .bx5 | .bx6 | .bx7 | .bx8 => true
  | _ => false

/-- Formats of CVT and PACK targets that accept .SAT (R256). -/
def Fmt.satTarget : Fmt → Bool
  | .f64 | .f32 | .bf16 | .f16 | .e5m2 => true
  | _ => false

/-- Formats of a matrix operand (R322). -/
def Fmt.matrix : Fmt → Bool
  | .f64 | .f32 | .i32 => false
  | _ => true

/-- The register span of one value of a CVT operand: a pair for F64 (R257). -/
def Fmt.cvtUse (f : Fmt) (r : GReg) : RegUse := if f = .f64 then .pair r else .one r

/-- The span of F32 registers that PACK reads and UNPACK writes: 2, 4 or 8 registers; eight for BX2 (R258). -/
def Fmt.packUse (f : Fmt) (r : GReg) : RegUse :=
  match f with
  | .bx2 => .eight r
  | _ => ⟨r, f.lanes, f.lanes⟩

/-- Whether an operation of ATOM or RED accepts a size (R277). -/
def AtomOp.accepts (op : AtomOp) (sz : MSize) : Bool :=
  match op with
  | .fadd | .fmin | .fmax => sz = .f32 || sz = .bf16x2 || sz = .f16x2 || sz = .f64
  | _ => sz = .b32 || sz = .b64

/-- The data operand of ATOM and RED: .CAS takes new and compare values (R277). -/
def AtomOp.dataUse (op : AtomOp) (sz : MSize) (b : GReg) : RegUse :=
  match op with
  | .cas => if sz = .b64 then .four b else .pair b
  | _ => sz.use b

/-- Operations that RED has (R277). -/
def AtomOp.inRed : AtomOp → Bool
  | .swap | .cas => false
  | _ => true

/-- Registers that hold a DOT operand (R304). -/
def DotFmt.use8 (f : DotFmt) (r : GReg) : RegUse := if f = .e2m1 then .one r else .pair r

/-- A special register of 64 bits needs a pair (R344). -/
def SysReg.wide : SysReg → Bool
  | .index | .frag | .time | .cycles | .tls | .tpc | .bpa _ => true
  | _ => false

/-- Registers with a write column (R344). -/
def SysReg.writable : SysReg → Bool
  | .tpc | .tpred | .bpctl | .bpa _ => true
  | _ => false

/-- Registers that need state H (R344). -/
def SysReg.needsH : SysReg → Bool
  | .f _ | .tpc | .tpred | .bpctl | .bpa _ => true
  | _ => false

/-- The operand of SRD and SWR for a register. -/
def SysReg.use (r : SysReg) (g : GReg) : RegUse := if r.wide then .pair g else .one g

/-- The opcodes assigned in the tables of R236; every other opcode is unassigned or reserved (R237). -/
def opAssigned (op : BitVec 8) : Bool :=
  let n := op.toNat
  (decide (0x01 ≤ n) && decide (n ≤ 0x26)) || (decide (0x30 ≤ n) && decide (n ≤ 0x39))
    || (decide (0x40 ≤ n) && decide (n ≤ 0x58)) || (decide (0x60 ≤ n) && decide (n ≤ 0x6B))
    || (decide (0x70 ≤ n) && decide (n ≤ 0x7F)) || (decide (0x90 ≤ n) && decide (n ≤ 0x9C))
    || (decide (0xA0 ≤ n) && decide (n ≤ 0xB6)) || (decide (0xC0 ≤ n) && decide (n ≤ 0xC8))

namespace Instr

/-- The common header of a Scarix instruction. -/
def hdr? : Instr → Option Hdr
  | iadd h .. | isub h .. | imul h .. | imulh h .. | imad h .. | iadd64 h .. | isub64 h .. | imin h .. | imax h ..
  | iabs h .. | iaddImm h .. | andImm h .. | orImm h .. | xorImm h .. | and h .. | or h .. | xor h .. | andn h ..
  | shl h .. | shr h .. | sar h .. | rot h .. | shlImm h .. | shrImm h .. | sarImm h .. | rotImm h .. | shl64 h ..
  | shr64 h .. | popc h .. | clz h .. | ctz h .. | brev h .. | bfe h .. | bfi h .. | perm h .. | sel h .. | mov h ..
  | movi h .. | movhi h .. | lea h .. | naddr h .. | icmp h .. | icmp64 h .. | pset h .. | pmovGet h .. | pmovPut h ..
  | cvt h .. | pack h .. | unpack h .. | qscale h .. | fmtset h .. | fmtget h .. | nop h | bra h .. | brx h ..
  | call h .. | callx h .. | ret h | exit h | mset h .. | meet h | yield h
  | fadd h .. | fmul h .. | ffma h .. | fmin h .. | fmax h .. | fcmp h .. | fadd64 h .. | fmul64 h .. | ffma64 h ..
  | fmin64 h .. | fmax64 h .. | fcmp64 h .. | hadd2 h .. | hmul2 h .. | hfma2 h .. | dot4 h .. | dot8 h ..
  | frcp h .. | frsq h .. | fsqrt h .. | fexp2 h .. | flog2 h .. | fsin h .. | fcos h .. | ftanh h ..
  | bind h .. | unbind h | part h .. | vote h .. | shfl h .. | gshfl h .. | sbcast h .. | smovRead h ..
  | smovWrite h .. | reduce h .. | scan h .. | gbar h | gfence h ..
  | ld h .. | st h .. | lds h .. | sts h .. | ldl h .. | stl h .. | lda h .. | wtag h .. | atom h .. | red h ..
  | atomScratchpad h .. | redScratchpad h .. | fence h .. | pref h .. | cwb h .. | cinv h ..
  | spawn h .. | wait h .. | fset h .. | fsetFault h .. | fsetCancel h .. | fnew h .. | join h .. | leave h ..
  | bar h .. | fsetBit h .. | waitBit h .. | shipW h .. | shipC h .. | shipO h .. | sret h | qpush h ..
  | qpushRsv h .. | qpop h .. | qpopMin h ..
  | accAlloc h .. | accFree h .. | accLend h .. | accZero h .. | accLd h .. | accRd h .. | mma h .. | mmas h ..
  | accDrain h .. | bcpy h .. | rcfg h .. | rcfgGet h .. | rpush h .. | rpop h .. | dscCfg h .. | dscRun h ..
  | dscPath h .. | dscGrad h .. | rfbStart h .. | rfbStat h .. | rfbAbort h .. | rmaPut h .. | rmaGet h ..
  | rmaFlag h ..
  | srd h .. | swr h .. | trap h .. | tret h .. | bpt h .. | icinv h .. | ifence h | clk h .. | perfRd h ..
  | perfCfg h .. => some h
  | _ => none

/-- The long-latency instructions, on which LA may be non-zero (R223). -/
def longLatency : Instr → Bool
  | ld .. | lds .. | ldl .. | atom .. | atomScratchpad .. | accRd .. | dscPath .. | frcp .. | frsq .. | fsqrt ..
  | fexp2 .. | flog2 .. | fsin .. | fcos .. | ftanh .. => true
  | _ => false

/-- The general-register operands of an instruction (R232, R233). -/
def regUses : Instr → List RegUse
  | iadd _ _ _ d a b | isub _ _ _ d a b | imulh _ _ d a b | imin _ _ d a b | imax _ _ d a b => [.one d, .one a, .one b]
  | imul _ d a b | and _ d a b | or _ d a b | xor _ d a b | andn _ d a b | shl _ d a b | shr _ d a b | sar _ d a b
  | rot _ d a b => [.one d, .one a, .one b]
  | imad _ d a b c | bfi _ d a b c | perm _ d a b c => [.one d, .one a, .one b, .one c]
  | iadd64 _ _ d a b | isub64 _ _ d a b => [.pair d, .pair a, .pair b]
  | iabs _ _ d a | fmtset _ _ d a | qscale _ _ d a => [.one d, .one a]
  | iaddImm _ d a _ | andImm _ d a _ | orImm _ d a _ | xorImm _ d a _ => [.one d, .one a]
  | shlImm _ d a _ | shrImm _ d a _ | sarImm _ d a _ | rotImm _ d a _ => [.one d, .one a]
  | shl64 _ d a b => [.pair d, .pair a, .one b]
  | shr64 _ _ d a b => [.pair d, .pair a, .one b]
  | popc _ d a | clz _ d a | ctz _ d a | brev _ d a | fmtget _ d a => [.one d, .one a]
  | bfe _ _ d a b => [.one d, .one a, .one b]
  | sel _ _ d a b _ => [.one d, .one a, .one b]
  | mov _ b64 d a => if b64 then [.pair d, .pair a] else [.one d, .one a]
  | movi _ d _ => [.one d]
  | movhi _ d _ => [.pair d]
  | lea _ _ _ d a b => [.pair d, .pair a, .one b]
  | naddr _ _ d a b c => [.pair d, .pair a, .one b, .one c]
  | icmp _ _ _ a b => [.one a, .one b]
  | icmp64 _ _ _ a b => [.pair a, .pair b]
  | pmovGet _ d => [.one d]
  | pmovPut _ a b => [.one a, .one b]
  | cvt _ tgt src _ _ d a c => [tgt.cvtUse d, src.cvtUse a, .one c]
  | pack _ tgt _ _ _ _ d a c => [.one d, tgt.packUse a, .one c]
  | unpack _ src _ _ _ _ d a c => [src.packUse d, .one a, .one c]
  | brx _ a | callx _ a => [.pair a]
  | fadd _ pr _ d a b | fmul _ pr _ d a b => if pr then [.pair d, .pair a, .pair b] else [.one d, .one a, .one b]
  | ffma _ pr _ d a b c =>
    if pr then [.pair d, .pair a, .pair b, .pair c] else [.one d, .one a, .one b, .one c]
  | fmin _ pr d a b | fmax _ pr d a b => if pr then [.pair d, .pair a, .pair b] else [.one d, .one a, .one b]
  | fcmp _ _ _ a b => [.one a, .one b]
  | fadd64 _ _ d a b | fmul64 _ _ d a b => [.pair d, .pair a, .pair b]
  | ffma64 _ _ d a b c => [.pair d, .pair a, .pair b, .pair c]
  | fmin64 _ d a b | fmax64 _ d a b => [.pair d, .pair a, .pair b]
  | fcmp64 _ _ _ a b => [.pair a, .pair b]
  | hadd2 _ _ _ d a b | hmul2 _ _ _ d a b => [.one d, .one a, .one b]
  | hfma2 _ _ _ d a b c | dot4 _ _ _ d a b c => [.one d, .one a, .one b, .one c]
  | dot8 _ f _ d a b c => [.one d, f.use8 a, f.use8 b, .one c]
  | frcp _ d a | frsq _ d a | fexp2 _ d a | flog2 _ d a | fsin _ d a | fcos _ d a | ftanh _ d a => [.one d, .one a]
  | fsqrt _ _ d a => [.one d, .one a]
  | bind _ _ a => [.one a]
  | vote _ _ _ _ d _ => [.one d]
  | shfl _ _ _ d a b | gshfl _ d a b => [.one d, .one a, .one b]
  | sbcast _ b64 d a _ => if b64 then [.pair d, .pair a] else [.one d, .one a]
  | smovRead _ d _ => [.one d]
  | smovWrite _ _ a _ => [.one a]
  | reduce _ _ d a => [.one d, .one a]
  | scan _ _ _ d a => [.one d, .one a]
  | ld _ sz _ _ d a _ => [sz.use d, .pair a]
  | st _ sz _ _ a b _ => [.pair a, sz.use b]
  | lds _ sz _ _ d a _ | ldl _ sz _ _ d a _ => [sz.use d, .one a]
  | sts _ sz _ _ a b _ | stl _ sz _ _ a b _ => [.one a, sz.use b]
  | lda _ _ _ d a b => [.one d, .pair a, .one b]
  | atom _ op sz _ _ d a b => [sz.use d, .pair a, op.dataUse sz b]
  | red _ op sz _ _ a b => [.pair a, op.dataUse sz b]
  | atomScratchpad _ op sz _ _ d a b => [sz.use d, .one a, op.dataUse sz b]
  | redScratchpad _ op sz _ _ a b => [.one a, op.dataUse sz b]
  | pref _ _ a _ | cwb _ _ a _ | cinv _ _ a _ => [.pair a]
  | spawn _ nf _ a b c => if nf then [.pair a, .four b] else [.pair a, .four b, .pair c]
  | wait _ _ d a b _ => [.four d, .pair a, .one b]
  | fset _ _ _ a b _ => [.pair a, .pair b]
  | fsetFault _ _ _ a b _ | fsetCancel _ _ _ a b _ => [.pair a, .one b]
  | fnew _ _ a | join _ a | leave _ a | bar _ a => [.pair a]
  | fsetBit _ a b | waitBit _ a b => [.pair a, .one b]
  | shipW _ _ m n a b c => [.pair a, .pair c, .run b (max m.toNat n.toNat)]
  | shipC _ _ n d a b c => [.pair d, .pair a, .pair c, .run b n.toNat]
  | shipO _ n a b c => [.pair a, .pair c, .run b n.toNat]
  | qpush _ _ a b c => [.pair a, .one b, .pair c]
  | qpushRsv _ _ d a b => [.pair d, .pair a, .one b]
  | qpop _ _ d a b => [.four d, .pair a, .one b]
  | qpopMin _ _ d a => [.four d, .pair a]
  | accLd _ _ a b c => [.four a, .one b, .one c]
  | accRd _ _ f32 _ d b c => if f32 then [.one d, .one b, .one c] else [.four d, .one b, .one c]
  | bcpy _ nf a c => if nf then [.pair a] else [.pair a, .pair c]
  | rcfg _ _ a => [.one a]
  | rcfgGet _ _ d => [.pair d]
  | rpop _ _ d => [.one d]
  | dscCfg _ a => [.pair a]
  | dscPath _ d b => [.one d, .one b]
  | rfbStart _ a c => [.pair a, .pair c]
  | rfbStat _ d a => [.four d, .pair a]
  | rfbAbort _ _ a => [.pair a]
  | rmaPut _ nf a c | rmaGet _ nf a c => if nf then [.pair a] else [.pair a, .pair c]
  | rmaFlag _ _ a b => [.pair a, .pair b]
  | srd _ d r => [r.use d]
  | swr _ r a => [r.use a]
  | icinv _ a b => [.pair a, .one b]
  | clk _ _ d => [.pair d]
  | perfRd _ d _ => [.pair d]
  | perfCfg _ _ a => [.one a]
  | _ => []

/-- The group-uniform operands: base field and the multiple it must be (R232, R233, R318). -/
def sregUses : Instr → List (SReg × Nat)
  | smovRead _ _ s => [(s, 1)]
  | smovWrite _ s _ _ => [(s, 1)]
  | accLend _ _ _ sa => [(sa, 1)]
  | mma _ _ _ _ sa sb sc | mmas _ _ _ _ sa sb sc => [(sa, 2), (sb, 2), (sc, 4)]
  | accDrain _ _ _ sa sc => [(sa, 2), (sc, 4)]
  | dscRun _ sa sc => [(sa, 2), (sc, 4)]
  | dscGrad _ sa sb sc => [(sa, 2), (sb, 2), (sc, 4)]
  | _ => []

/-- LA is zero unless the instruction is long-latency (R223). -/
def laOk (i : Instr) : Bool :=
  match i.hdr? with
  | some h => i.longLatency || h.la == 0
  | none => true

/-- Register bases keep their alignment (R233). -/
def regsOk (i : Instr) : Bool := i.regUses.all fun u => u.base.toNat % u.align == 0

/-- Group-uniform fields name s0 to s63, aligned (R232, R233). -/
def sregsOk (i : Instr) : Bool := i.sregUses.all fun u => decide (u.1.toNat < 64) && u.1.toNat % u.2 == 0

/-- Orders an instruction class accepts (R122). -/
def ordOk : Instr → Bool
  | ld _ _ o .. | lds _ _ o .. | ldl _ _ o .. => o = .rlx || o = .acq
  | st _ _ o .. | sts _ _ o .. | stl _ _ o .. => o = .rlx || o = .rel
  | red _ _ _ o .. | redScratchpad _ _ _ o .. => o = .rlx || o = .rel
  | fence _ o _ => o != .rlx
  | _ => true

/-- Accepted sizes (R273, R275, R277). -/
def szOk : Instr → Bool
  | st _ sz .. | sts _ sz .. | stl _ sz .. => sz.untyped
  | lda _ sz .. => sz = .b32 || sz = .b64 || sz = .b128 || sz = .b256
  | atom _ op sz .. | atomScratchpad _ op sz .. => op.accepts sz
  | red _ op sz .. | redScratchpad _ op sz .. => op.accepts sz && op.inRed
  | _ => true

/-- Accepted formats and their controls (R255 to R260, R304, R322). -/
def fmtOk : Instr → Bool
  | cvt _ tgt src _ sat _ _ c =>
    !(tgt.scaled && src.scaled) && (!sat || tgt.satTarget) && (tgt.scaled || src.scaled || c == 0)
  | pack _ tgt _ sat sc h1 _ _ c =>
    tgt.packs && (!sat || tgt.satTarget) && (!sc || tgt == .e4m3 || tgt == .e5m2) && (!h1 || tgt == .bx2)
      && (tgt.scaled || sc || c == 0)
  | unpack _ src _ _ sc h1 _ _ c =>
    src.packs && (!sc || src == .e4m3 || src == .e5m2) && (!h1 || src == .bx2) && (src.scaled || sc || c == 0)
  | qscale _ tgt _ _ => tgt.qscales
  | dot4 _ f .. => f != .e2m1
  | mma _ f .. | mmas _ f .. => f.matrix
  | _ => true

/-- Accepted values of the other coded fields. -/
def valOk : Instr → Bool
  | bind _ n1 _ => n1 != 0
  | part _ c => decide (c.toNat ≤ 5)
  | vote _ op _ pd d _ => (op = .every || op = .some || pd == 7) && (op = .mask || op = .count || d == 0)
  | scan _ op .. => op != .famax
  | accAlloc _ _ e m | accFree _ e m | accZero _ e m => e != 3 && m != 0
  | accLend _ e _ _ => e != 3
  | accLd _ e .. => e != 3
  | accRd _ e f32 i96 .. => e != 3 && (f32 || !i96)
  | mma _ _ e .. | mmas _ _ e .. => e != 3
  | accDrain _ e .. => e != 3
  | shipW _ _ m n _ b _ => decide (m.toNat ≤ 4) && n != 7 && (n != 0 || b == 0)
  | shipC _ m n _ _ b _ => decide (m.toNat ≤ 4) && n != 7 && (n != 0 || b == 0)
  | shipO _ n _ b _ => n != 7 && (n != 0 || b == 0)
  | spawn _ nf _ _ _ c => !nf || c == 0
  | bcpy _ nf _ c | rmaPut _ nf _ c | rmaGet _ nf _ c => !nf || c == 0
  | swr _ r _ => r.writable
  | unassignedOpcode w => !opAssigned (w.extractLsb' 0 8)
  | _ => true

/-- The limits that the verifier puts on the fields of a queue-program word (R406): `nwin` windows, `rw` says which of
them are writable. -/
def qpLimits (nwin : Nat) (rw : Nat → Bool) : Instr → Bool
  | qpPkt i _ => decide (i.toNat ≤ 7)
  | qpShli n _ _ | qpShri n _ _ => decide (n.toNat ≤ 63)
  | qpLdw w _ _ => decide (w.toNat < nwin)
  | qpStw w _ _ => decide (w.toNat < nwin) && rw w.toNat
  | qpBeq k _ _ | qpBne k _ _ | qpBltu k _ _ => decide (1 ≤ k.toNat) && decide (k.toNat ≤ 511)
  | qpLoop n => decide (1 ≤ n.toNat) && decide (n.toNat ≤ 256)
  | qpStg i _ => decide (i.toNat ≤ 15)
  | _ => true

/-- A well-formed instruction: every check of step 3 of R235 that no thread state bears on. -/
def wf (i : Instr) : Bool := i.laOk && i.regsOk && i.sregsOk && i.ordOk && i.szOk && i.fmtOk && i.valOk

end Instr

end Sys2Proof
end

