-- ==== Sys2Proof/Decode.lean ====
section
/-! DEFINITION. The decoder of instruction words (R220 to R237 and the encodings of the entries), total on any word and
rejecting by name, the decoder of queue-program words (R406, R407), and after them the encoders, from the same tables. -/

namespace Sys2Proof

/-- Why a word with an assigned opcode is no instruction (R234). Each raises ILLEGAL_FIELD. -/
inductive DecodeError where
  /-- A one in bits [23:22]. -/
  | headerBits
  /-- A coded field holds a value that its entry does not list, or an unused field is not zero. -/
  | unlistedValue
  /-- A register number, a lookahead or a combination of fields that breaks `Instr.wf`. -/
  | illFormed
  /-- A queue-program word outside the table of R406. -/
  | queueWord
  deriving DecidableEq, Repr

/-! ## Codes of enumerated fields -/

/-- Rounding codes (R151). -/
def Rnd.code : Rnd → BitVec 2
  | .rn => 0 | .rz => 1 | .ru => 2 | .rd => 3

/-- The rounding mode of a code. -/
def Rnd.ofCode (c : BitVec 2) : Option Rnd := [Rnd.rn, .rz, .ru, .rd].find? (·.code == c)

/-- Format codes (R141). -/
def Fmt.code : Fmt → BitVec 5
  | .f64 => 0x00 | .f32 => 0x01 | .bf16 => 0x02 | .f16 => 0x03 | .e4m3 => 0x04 | .e5m2 => 0x05 | .e3m2 => 0x06
  | .e2m3 => 0x07 | .e2m1 => 0x08 | .i8 => 0x09 | .i32 => 0x0A | .bx2 => 0x0C | .bx3 => 0x0D | .bx4 => 0x0E
  | .bx5 => 0x0F | .bx6 => 0x10 | .bx7 => 0x11 | .bx8 => 0x12

/-- Every element format. -/
def Fmt.all : List Fmt :=
  [.f64, .f32, .bf16, .f16, .e4m3, .e5m2, .e3m2, .e2m3, .e2m1, .i8, .i32, .bx2, .bx3, .bx4, .bx5, .bx6, .bx7, .bx8]

/-- The element format of a code; reserved codes and E8M0 have none (R255). -/
def Fmt.ofCode (c : BitVec 5) : Option Fmt := Fmt.all.find? (·.code == c)

/-- Tag codes (R147, R261). -/
def Tag.code : Tag → BitVec 4
  | .raw => 0 | .i32 => 1 | .f32 => 2 | .bf16x2 => 3 | .f16x2 => 4 | .e4m3x4 => 5 | .e5m2x4 => 6 | .e2m1x8 => 7
  | .i8x4 => 8 | .bxp => 9 | .f64lo => 10 | .f64hi => 11

/-- Every tag. -/
def Tag.all : List Tag :=
  [.raw, .i32, .f32, .bf16x2, .f16x2, .e4m3x4, .e5m2x4, .e2m1x8, .i8x4, .bxp, .f64lo, .f64hi]

/-- The tag of a code; 12 to 15 have none (R150). -/
def Tag.ofCode (c : BitVec 4) : Option Tag := Tag.all.find? (·.code == c)

/-- FN of IADD and ISUB (R241). -/
def AddSat.code : AddSat → BitVec 5
  | .wrap => 0 | .sat => 1 | .usat => 2

/-- The variant of a code. -/
def AddSat.ofCode (c : BitVec 5) : Option AddSat := [AddSat.wrap, .sat, .usat].find? (·.code == c)

/-- FN of ICMP (R252). -/
def ICond.code : ICond → BitVec 5
  | .eq => 0 | .ne => 1 | .lt => 2 | .le => 3 | .gt => 4 | .ge => 5 | .ltu => 6 | .leu => 7 | .gtu => 8 | .geu => 9

/-- The condition of a code. -/
def ICond.ofCode (c : BitVec 5) : Option ICond :=
  [ICond.eq, .ne, .lt, .le, .gt, .ge, .ltu, .leu, .gtu, .geu].find? (·.code == c)

/-- FN[1:0] of PSET (R253). -/
def PsetOp.code : PsetOp → BitVec 2
  | .and => 0 | .or => 1 | .xor => 2

/-- The operation of a code. -/
def PsetOp.ofCode (c : BitVec 2) : Option PsetOp := [PsetOp.and, .or, .xor].find? (·.code == c)

/-- FN[2:0] of FCMP (R302). -/
def FCond.code : FCond → BitVec 5
  | .eq => 0 | .ne => 1 | .lt => 2 | .le => 3 | .gt => 4 | .ge => 5 | .un => 6 | .ord => 7

/-- The condition of a code. -/
def FCond.ofCode (c : BitVec 5) : Option FCond :=
  [FCond.eq, .ne, .lt, .le, .gt, .ge, .un, .ord].find? (·.code == c)

/-- FN[2] of the packed half-width instructions (R300). -/
def HFmt.code : HFmt → BitVec 1
  | .bf16 => 0 | .f16 => 1

/-- The format of a code. -/
def HFmt.ofCode (c : BitVec 1) : Option HFmt := [HFmt.bf16, .f16].find? (·.code == c)

/-- FN[4:2] of the dot products (R304). -/
def DotFmt.code : DotFmt → BitVec 3
  | .e4m3 => 0 | .e5m2 => 1 | .i8 => 2 | .e2m1 => 3

/-- The format of a code. -/
def DotFmt.ofCode (c : BitVec 3) : Option DotFmt := [DotFmt.e4m3, .e5m2, .i8, .e2m1].find? (·.code == c)

/-- FN[1:0] of VOTE (R311). -/
def VoteOp.code : VoteOp → BitVec 2
  | .every => 0 | .some => 1 | .mask => 2 | .count => 3

/-- The operation of a code. -/
def VoteOp.ofCode (c : BitVec 2) : Option VoteOp := [VoteOp.every, .some, .mask, .count].find? (·.code == c)

/-- FN[1:0] of SHFL (R312). -/
def ShflMode.code : ShflMode → BitVec 5
  | .at => 0 | .rot => 1 | .xch => 2

/-- The mode of a code. -/
def ShflMode.ofCode (c : BitVec 5) : Option ShflMode := [ShflMode.at, .rot, .xch].find? (·.code == c)

/-- FN[3:0] of REDUCE and SCAN (R315). -/
def RedOp.code : RedOp → BitVec 4
  | .add => 0 | .min => 1 | .minu => 2 | .max => 3 | .maxu => 4 | .and => 5 | .or => 6 | .xor => 7 | .fadd => 8
  | .fmin => 9 | .fmax => 10 | .famax => 11

/-- The operation of a code. -/
def RedOp.ofCode (c : BitVec 4) : Option RedOp :=
  [RedOp.add, .min, .minu, .max, .maxu, .and, .or, .xor, .fadd, .fmin, .fmax, .famax].find? (·.code == c)

/-- SZ codes (R231). -/
def MSize.code : MSize → BitVec 4
  | .b8 => 0 | .b16 => 1 | .b32 => 2 | .b64 => 3 | .b128 => 4 | .b256 => 5 | .f32 => 6 | .bf16x2 => 7 | .f16x2 => 8
  | .e4m3x4 => 9 | .e5m2x4 => 10 | .e2m1x8 => 11 | .i8x4 => 12 | .bxp => 13 | .f64 => 14 | .i32 => 15

/-- The size of a code. -/
def MSize.ofCode (c : BitVec 4) : Option MSize :=
  [MSize.b8, .b16, .b32, .b64, .b128, .b256, .f32, .bf16x2, .f16x2, .e4m3x4, .e5m2x4, .e2m1x8, .i8x4, .bxp, .f64,
    .i32].find? (·.code == c)

/-- SEM order codes (R121). -/
def Ord4.code : Ord4 → BitVec 2
  | .rlx => 0 | .acq => 1 | .rel => 2 | .ar => 3

/-- The order of a code. -/
def Ord4.ofCode (c : BitVec 2) : Option Ord4 := [Ord4.rlx, .acq, .rel, .ar].find? (·.code == c)

/-- SEM scope codes (R121). -/
def Scope.code : Scope → BitVec 2
  | .core => 0 | .die => 1 | .dev => 2 | .sys => 3

/-- The scope of a code. -/
def Scope.ofCode (c : BitVec 2) : Option Scope := [Scope.core, .die, .dev, .sys].find? (·.code == c)

/-- OFF8[7:3] of ATOM and RED (R277). -/
def AtomOp.code : AtomOp → BitVec 5
  | .swap => 0 | .cas => 1 | .add => 2 | .min => 3 | .minu => 4 | .max => 5 | .maxu => 6 | .and => 7 | .or => 8
  | .xor => 9 | .fadd => 10 | .fmin => 11 | .fmax => 12

/-- The operation of a code. -/
def AtomOp.ofCode (c : BitVec 5) : Option AtomOp :=
  [AtomOp.swap, .cas, .add, .min, .minu, .max, .maxu, .and, .or, .xor, .fadd, .fmin, .fmax].find? (·.code == c)

/-- Numbers of the special and system registers (R344). -/
def SysReg.code : SysReg → BitVec 8
  | .lane => 0x00 | .slot => 0x01 | .core => 0x02 | .die => 0x03 | .ctx => 0x04 | .task => 0x05 | .index => 0x06
  | .count => 0x07 | .group => 0x08 | .grank => 0x09 | .gsize => 0x0A | .frag => 0x0B | .adopt => 0x0C | .time => 0x0D
  | .cycles => 0x0E | .tls => 0x0F | .f i => 0x4#4 ++ i | .tpc => 0x50 | .tpred => 0x51 | .dbg => 0x52 | .bpctl => 0x53
  | .bpa 0 => 0x54 | .bpa 1 => 0x56 | .bpa 2 => 0x58 | .bpa _ => 0x5A | .priv => 0x60

/-- Every special and system register. -/
def SysReg.all : List SysReg :=
  [.lane, .slot, .core, .die, .ctx, .task, .index, .count, .group, .grank, .gsize, .frag, .adopt, .time, .cycles, .tls,
    .f 0, .f 1, .f 2, .f 3, .f 4, .f 5, .f 6, .f 7, .f 8, .f 9, .f 10, .f 11, .f 12, .f 13, .f 14, .f 15,
    .tpc, .tpred, .dbg, .bpctl, .bpa 0, .bpa 1, .bpa 2, .bpa 3, .priv]

/-- The register of a number. -/
def SysReg.ofCode (c : BitVec 8) : Option SysReg := SysReg.all.find? (·.code == c)

/-! ## The fields of a word -/

/-- The fields of layout X and the common header (R221, R227); the other layouts are concatenations of them. -/
structure Raw where
  op : BitVec 8
  h : Hdr
  rsv : BitVec 2 := 0
  d : BitVec 8 := 0
  a : BitVec 8 := 0
  b : BitVec 8 := 0
  c : BitVec 8 := 0
  pd : BitVec 3 := 7
  fn : BitVec 5 := 0
  deriving DecidableEq, Repr

/-- A guard from its four bits (R221). -/
def Guard.ofBits (x : BitVec 4) : Guard := ⟨x.getLsbD 3, x.extractLsb' 0 3⟩

/-- The four bits of a guard. -/
def Guard.bits (g : Guard) : BitVec 4 := BitVec.ofBool g.neg ++ g.p

/-- The fields of a word. -/
def Raw.ofWord (w : Dword) : Raw where
  op := w.extractLsb' 0 8
  h := ⟨.ofBits (w.extractLsb' 8 4), .ofBits (w.extractLsb' 12 4), w.extractLsb' 16 4, w.extractLsb' 20 2⟩
  rsv := w.extractLsb' 22 2
  d := w.extractLsb' 24 8
  a := w.extractLsb' 32 8
  b := w.extractLsb' 40 8
  c := w.extractLsb' 48 8
  pd := w.extractLsb' 56 3
  fn := w.extractLsb' 59 5

/-- The word of the fields. -/
def Raw.word (r : Raw) : Dword :=
  r.fn ++ r.pd ++ r.c ++ r.b ++ r.a ++ r.d ++ r.rsv ++ r.h.ch ++ r.h.la ++ r.h.g1.bits ++ r.h.g0.bits ++ r.op

/-- OFF8 of layout M (R230). -/
def Raw.off (r : Raw) : BitVec 8 := r.fn ++ r.pd

/-- IMM24 of layout Y (R228). -/
def Raw.imm24 (r : Raw) : BitVec 24 := r.fn ++ r.pd ++ r.c ++ r.b

/-- IMM32 of layout W (R229). -/
def Raw.imm32 (r : Raw) : BitVec 32 := r.fn ++ r.pd ++ r.c ++ r.b ++ r.a

/-- A raw word of layout X. -/
def layoutX (op : BitVec 8) (h : Hdr) (fn : BitVec 5) (pd : BitVec 3) (c b a d : BitVec 8) : Raw :=
  { op, h, fn, pd, c, b, a, d }

/-- A raw word of layout Y. -/
def layoutY (op : BitVec 8) (h : Hdr) (imm : BitVec 24) (a d : BitVec 8) : Raw :=
  { op, h, a, d, fn := imm.extractLsb' 19 5, pd := imm.extractLsb' 16 3, c := imm.extractLsb' 8 8,
    b := imm.extractLsb' 0 8 }

/-- A raw word of layout W. -/
def layoutW (op : BitVec 8) (h : Hdr) (imm : BitVec 32) (d : BitVec 8) : Raw :=
  { op, h, d, fn := imm.extractLsb' 27 5, pd := imm.extractLsb' 24 3, c := imm.extractLsb' 16 8,
    b := imm.extractLsb' 8 8, a := imm.extractLsb' 0 8 }

/-- A raw word of layout M: displacement, scope, order and size. -/
def layoutM (op : BitVec 8) (h : Hdr) (off : BitVec 8) (sc : Scope) (o : Ord4) (sz : BitVec 4) (b a d : BitVec 8) : Raw :=
  { op, h, b, a, d, fn := off.extractLsb' 3 5, pd := off.extractLsb' 0 3, c := sc.code ++ o.code ++ sz }

/-! ## Decoding -/

/-- What the decoding of the fields answers. -/
abbrev Decoded := Except DecodeError Instr

/-- The instruction where every coded and unused field holds a listed value. -/
def listed (ok : Bool) (i : Instr) : Decoded := if ok then .ok i else .error .unlistedValue

/-- The decoding with the meaning of a coded field. -/
def coded {α : Type} (o : Option α) (k : α → Decoded) : Decoded :=
  match o with
  | some x => k x
  | none => .error .unlistedValue

/-- The order, scope and size of layout M. -/
def Raw.sem (r : Raw) (k : Ord4 → Scope → MSize → Decoded) : Decoded :=
  coded (Ord4.ofCode (r.c.extractLsb' 4 2)) fun o =>
  coded (Scope.ofCode (r.c.extractLsb' 6 2)) fun sc =>
  coded (MSize.ofCode (r.c.extractLsb' 0 4)) fun sz => k o sc sz

/-- The scope of an instruction of layout M whose order is fixed and whose SZ is not a size. -/
def Raw.semFixed (r : Raw) (o : Ord4) (sz : BitVec 4) (k : Scope → Decoded) : Decoded :=
  coded (Scope.ofCode (r.c.extractLsb' 6 2)) fun sc =>
  if r.c.extractLsb' 4 2 == o.code && r.c.extractLsb' 0 4 == sz then k sc else .error .unlistedValue

/-- The rounding field FN[1:0]. -/
def Raw.rnd (r : Raw) (k : Rnd → Decoded) : Decoded := coded (Rnd.ofCode (r.fn.extractLsb' 0 2)) k

/-- Opcodes 0x01 to 0x1B: integer arithmetic, logic, moves, compares (R241 to R254). -/
def fieldsInt (r : Raw) : Decoded :=
  let h := r.h
  let np := r.pd == 7
  match r.op.toNat with
  | 0x01 => coded (AddSat.ofCode r.fn) fun v => listed (r.c == 0) (.iadd h v r.pd r.d r.a r.b)
  | 0x02 => coded (AddSat.ofCode r.fn) fun v => listed (r.c == 0) (.isub h v r.pd r.d r.a r.b)
  | 0x03 => listed (r.fn == 0 && np && r.c == 0) (.imul h r.d r.a r.b)
  | 0x04 => listed (decide (r.fn.toNat ≤ 1) && np && r.c == 0) (.imulh h (r.fn == 1) r.d r.a r.b)
  | 0x05 => listed (r.fn == 0 && np) (.imad h r.d r.a r.b r.c)
  | 0x06 => listed (r.fn == 0 && r.c == 0) (.iadd64 h r.pd r.d r.a r.b)
  | 0x07 => listed (r.fn == 0 && r.c == 0) (.isub64 h r.pd r.d r.a r.b)
  | 0x08 => listed (decide (r.fn.toNat ≤ 1) && np && r.c == 0) (.imin h (r.fn == 1) r.d r.a r.b)
  | 0x09 => listed (decide (r.fn.toNat ≤ 1) && np && r.c == 0) (.imax h (r.fn == 1) r.d r.a r.b)
  | 0x0A => listed (decide (r.fn.toNat ≤ 1) && np && r.c == 0 && r.b == 0) (.iabs h (r.fn == 1) r.d r.a)
  | 0x0B =>
    let ok := np && r.c == 0
    match r.fn.toNat with
    | 0 => listed ok (.and h r.d r.a r.b)
    | 1 => listed ok (.or h r.d r.a r.b)
    | 2 => listed ok (.xor h r.d r.a r.b)
    | 3 => listed ok (.andn h r.d r.a r.b)
    | _ => .error .unlistedValue
  | 0x0C =>
    let ok := np && r.c == 0
    match r.fn.toNat with
    | 0 => listed ok (.shl h r.d r.a r.b)
    | 1 => listed ok (.shr h r.d r.a r.b)
    | 2 => listed ok (.sar h r.d r.a r.b)
    | 3 => listed ok (.rot h r.d r.a r.b)
    | _ => .error .unlistedValue
  | 0x0D =>
    let ok := np && r.c == 0
    match r.fn.toNat with
    | 0 => listed ok (.shl64 h r.d r.a r.b)
    | 1 => listed ok (.shr64 h false r.d r.a r.b)
    | 2 => listed ok (.shr64 h true r.d r.a r.b)
    | _ => .error .unlistedValue
  | 0x0E =>
    let ok := np && r.c == 0 && r.b == 0
    match r.fn.toNat with
    | 0 => listed ok (.popc h r.d r.a)
    | 1 => listed ok (.clz h r.d r.a)
    | 2 => listed ok (.ctz h r.d r.a)
    | 3 => listed ok (.brev h r.d r.a)
    | _ => .error .unlistedValue
  | 0x0F => listed (decide (r.fn.toNat ≤ 1) && np && r.c == 0) (.bfe h (r.fn == 1) r.d r.a r.b)
  | 0x10 => listed (r.fn == 0 && np) (.bfi h r.d r.a r.b r.c)
  | 0x11 => listed (r.fn == 0 && np) (.perm h r.d r.a r.b r.c)
  | 0x12 => listed (decide (r.fn.toNat ≤ 1) && np && decide (r.c.toNat ≤ 7))
      (.sel h (r.fn == 1) r.d r.a r.b (r.c.extractLsb' 0 3))
  | 0x13 => listed (decide (r.fn.toNat ≤ 1) && np && r.c == 0 && r.b == 0) (.mov h (r.fn == 1) r.d r.a)
  | 0x14 => .ok (.movi h r.d r.imm32)
  | 0x15 => .ok (.movhi h r.d r.imm32)
  | 0x16 => listed (decide (r.fn.toNat ≤ 15) && np && r.c == 0)
      (.lea h (r.fn.getLsbD 3) (r.fn.extractLsb' 0 3) r.d r.a r.b)
  | 0x17 => coded (ICond.ofCode r.fn) fun cc => listed (r.c == 0 && r.d == 0) (.icmp h cc r.pd r.a r.b)
  | 0x18 => coded (ICond.ofCode r.fn) fun cc => listed (r.c == 0 && r.d == 0) (.icmp64 h cc r.pd r.a r.b)
  | 0x19 => coded (PsetOp.ofCode (r.fn.extractLsb' 0 2)) fun op =>
      listed (decide (r.fn.toNat ≤ 15) && r.c == 0 && r.d == 0 && decide (r.a.toNat ≤ 7) && decide (r.b.toNat ≤ 7))
        (.pset h op (r.fn.getLsbD 2) (r.fn.getLsbD 3) r.pd (r.a.extractLsb' 0 3) (r.b.extractLsb' 0 3))
  | 0x1A =>
    match r.fn.toNat with
    | 0 => listed (np && r.c == 0 && r.b == 0 && r.a == 0) (.pmovGet h r.d)
    | 1 => listed (np && r.c == 0 && r.d == 0) (.pmovPut h r.a r.b)
    | _ => .error .unlistedValue
  | 0x1B => listed (decide (r.fn.toNat ≤ 1) && np) (.naddr h (r.fn == 1) r.d r.a r.b r.c)
  | _ => .error .unlistedValue

/-- Opcodes 0x1C to 0x39: immediate forms, conversions, control (R242, R244, R255 to R270). -/
def fieldsCtl (r : Raw) : Decoded :=
  let h := r.h
  let np := r.pd == 7
  let none4 := r.fn == 0 && np && r.c == 0 && r.b == 0 && r.a == 0 && r.d == 0
  match r.op.toNat with
  | 0x1C => .ok (.iaddImm h r.d r.a r.imm24)
  | 0x1D => .ok (.andImm h r.d r.a r.imm24)
  | 0x1E => .ok (.orImm h r.d r.a r.imm24)
  | 0x1F => .ok (.xorImm h r.d r.a r.imm24)
  | 0x20 =>
    let ok := r.fn == 0 && r.pd == 0 && decide (r.b.toNat ≤ 31)
    let n := r.b.extractLsb' 0 5
    match r.c.toNat with
    | 0 => listed ok (.shlImm h r.d r.a n)
    | 1 => listed ok (.shrImm h r.d r.a n)
    | 2 => listed ok (.sarImm h r.d r.a n)
    | 3 => listed ok (.rotImm h r.d r.a n)
    | _ => .error .unlistedValue
  | 0x21 =>
    coded (Fmt.ofCode r.fn) fun tgt =>
    coded (Fmt.ofCode (r.b.extractLsb' 0 5)) fun src =>
    coded (Rnd.ofCode (r.b.extractLsb' 5 2)) fun rnd => listed np (.cvt h tgt src rnd (r.b.getLsbD 7) r.d r.a r.c)
  | 0x22 =>
    coded (Fmt.ofCode r.fn) fun tgt =>
    coded (Rnd.ofCode (r.b.extractLsb' 5 2)) fun rnd =>
      listed (np && r.b.extractLsb' 2 3 == 0)
        (.pack h tgt rnd (r.b.getLsbD 7) (r.b.getLsbD 1) (r.b.getLsbD 0) r.d r.a r.c)
  | 0x23 =>
    coded (Fmt.ofCode r.fn) fun src =>
    coded (Rnd.ofCode (r.b.extractLsb' 5 2)) fun rnd =>
      listed (np && r.b.extractLsb' 2 3 == 0)
        (.unpack h src rnd (r.b.getLsbD 7) (r.b.getLsbD 1) (r.b.getLsbD 0) r.d r.a r.c)
  | 0x24 => coded (Fmt.ofCode r.fn) fun tgt => listed (np && r.c == 0 && r.b == 0) (.qscale h tgt r.d r.a)
  | 0x25 => coded (Tag.ofCode (r.fn.extractLsb' 0 4)) fun t =>
      listed (decide (r.fn.toNat ≤ 15) && np && r.c == 0 && r.b == 0) (.fmtset h t r.d r.a)
  | 0x26 => listed (r.fn == 0 && np && r.c == 0 && r.b == 0) (.fmtget h r.d r.a)
  | 0x30 => listed (r.imm32 == 0 && r.d == 0) (.nop h)
  | 0x31 => listed (r.a == 0 && r.d == 0) (.bra h r.imm24)
  | 0x32 => listed (r.fn == 0 && np && r.c == 0 && r.b == 0 && r.d == 0) (.brx h r.a)
  | 0x33 => listed (r.a == 0 && r.d == 0) (.call h r.imm24)
  | 0x34 => listed (r.fn == 0 && np && r.c == 0 && r.b == 0 && r.d == 0) (.callx h r.a)
  | 0x35 => listed none4 (.ret h)
  | 0x36 => listed none4 (.exit h)
  | 0x37 => listed (r.a == 0 && r.d == 0) (.mset h r.imm24)
  | 0x38 => listed none4 (.meet h)
  | 0x39 => listed none4 (.yield h)
  | _ => .error .unlistedValue

/-- Opcodes 0x40 to 0x58: floating point (R298 to R305). -/
def fieldsFloat (r : Raw) : Decoded :=
  let h := r.h
  let np := r.pd == 7
  let pr := r.fn.getLsbD 2
  match r.op.toNat with
  | 0x40 => r.rnd fun m => listed (decide (r.fn.toNat ≤ 7) && np && r.c == 0) (.fadd h pr m r.d r.a r.b)
  | 0x41 => r.rnd fun m => listed (decide (r.fn.toNat ≤ 7) && np && r.c == 0) (.fmul h pr m r.d r.a r.b)
  | 0x42 => r.rnd fun m => listed (decide (r.fn.toNat ≤ 7) && np) (.ffma h pr m r.d r.a r.b r.c)
  | 0x43 => listed ((r.fn == 0 || r.fn == 4) && np && r.c == 0) (.fmin h pr r.d r.a r.b)
  | 0x44 => listed ((r.fn == 0 || r.fn == 4) && np && r.c == 0) (.fmax h pr r.d r.a r.b)
  | 0x45 => coded (FCond.ofCode r.fn) fun cc => listed (r.c == 0 && r.d == 0) (.fcmp h cc r.pd r.a r.b)
  | 0x46 => r.rnd fun m => listed (decide (r.fn.toNat ≤ 3) && np && r.c == 0) (.fadd64 h m r.d r.a r.b)
  | 0x47 => r.rnd fun m => listed (decide (r.fn.toNat ≤ 3) && np && r.c == 0) (.fmul64 h m r.d r.a r.b)
  | 0x48 => r.rnd fun m => listed (decide (r.fn.toNat ≤ 3) && np) (.ffma64 h m r.d r.a r.b r.c)
  | 0x49 => listed (r.fn == 0 && np && r.c == 0) (.fmin64 h r.d r.a r.b)
  | 0x4A => listed (r.fn == 0 && np && r.c == 0) (.fmax64 h r.d r.a r.b)
  | 0x4B => coded (FCond.ofCode r.fn) fun cc => listed (r.c == 0 && r.d == 0) (.fcmp64 h cc r.pd r.a r.b)
  | 0x4C => r.rnd fun m => coded (HFmt.ofCode (r.fn.extractLsb' 2 1)) fun f =>
      listed (decide (r.fn.toNat ≤ 7) && np && r.c == 0) (.hadd2 h f m r.d r.a r.b)
  | 0x4D => r.rnd fun m => coded (HFmt.ofCode (r.fn.extractLsb' 2 1)) fun f =>
      listed (decide (r.fn.toNat ≤ 7) && np && r.c == 0) (.hmul2 h f m r.d r.a r.b)
  | 0x4E => r.rnd fun m => coded (HFmt.ofCode (r.fn.extractLsb' 2 1)) fun f =>
      listed (decide (r.fn.toNat ≤ 7) && np) (.hfma2 h f m r.d r.a r.b r.c)
  | 0x4F => r.rnd fun m => coded (DotFmt.ofCode (r.fn.extractLsb' 2 3)) fun f =>
      listed np (.dot4 h f m r.d r.a r.b r.c)
  | 0x50 => r.rnd fun m => coded (DotFmt.ofCode (r.fn.extractLsb' 2 3)) fun f =>
      listed np (.dot8 h f m r.d r.a r.b r.c)
  | 0x51 => listed (r.fn == 0 && np && r.c == 0 && r.b == 0) (.frcp h r.d r.a)
  | 0x52 => listed (r.fn == 0 && np && r.c == 0 && r.b == 0) (.frsq h r.d r.a)
  | 0x53 => r.rnd fun m => listed (decide (r.fn.toNat ≤ 3) && np && r.c == 0 && r.b == 0) (.fsqrt h m r.d r.a)
  | 0x54 => listed (r.fn == 0 && np && r.c == 0 && r.b == 0) (.fexp2 h r.d r.a)
  | 0x55 => listed (r.fn == 0 && np && r.c == 0 && r.b == 0) (.flog2 h r.d r.a)
  | 0x56 => listed (r.fn == 0 && np && r.c == 0 && r.b == 0) (.fsin h r.d r.a)
  | 0x57 => listed (r.fn == 0 && np && r.c == 0 && r.b == 0) (.fcos h r.d r.a)
  | 0x58 => listed (r.fn == 0 && np && r.c == 0 && r.b == 0) (.ftanh h r.d r.a)
  | _ => .error .unlistedValue

/-- Opcodes 0x60 to 0x6B: bound groups (R306 to R316). -/
def fieldsGroup (r : Raw) : Decoded :=
  let h := r.h
  let np := r.pd == 7
  match r.op.toNat with
  | 0x60 => listed (np && r.c == 0 && r.b == 0 && r.d == 0) (.bind h r.fn r.a)
  | 0x61 => listed (r.fn == 0 && np && r.c == 0 && r.b == 0 && r.a == 0 && r.d == 0) (.unbind h)
  | 0x62 => listed (decide (r.fn.toNat ≤ 7) && np && r.c == 0 && r.b == 0 && r.a == 0 && r.d == 0)
      (.part h (r.fn.extractLsb' 0 3))
  | 0x63 => coded (VoteOp.ofCode (r.fn.extractLsb' 0 2)) fun op =>
      listed (decide (r.fn.toNat ≤ 7) && r.c == 0 && r.b == 0 && decide (r.a.toNat ≤ 7))
        (.vote h op (r.fn.getLsbD 2) r.pd r.d (r.a.extractLsb' 0 3))
  | 0x64 => coded (ShflMode.ofCode r.fn) fun m => listed (r.c == 0) (.shfl h m r.pd r.d r.a r.b)
  | 0x65 => listed (r.fn == 0 && np && r.c == 0) (.gshfl h r.d r.a r.b)
  | 0x66 => coded (RedOp.ofCode (r.fn.extractLsb' 0 4)) fun op =>
      listed (decide (r.fn.toNat ≤ 15) && np && r.c == 0 && r.b == 0) (.reduce h op r.d r.a)
  | 0x67 => coded (RedOp.ofCode (r.fn.extractLsb' 0 4)) fun op =>
      listed (np && r.c == 0 && r.b == 0) (.scan h op (r.fn.getLsbD 4) r.d r.a)
  | 0x68 =>
    match r.fn.toNat with
    | 0 => listed (np && r.c == 0 && r.b == 0) (.smovRead h r.d r.a)
    | 1 => listed (np && r.c == 0 && decide (r.b.toNat ≤ 31)) (.smovWrite h r.d r.a (r.b.extractLsb' 0 5))
    | _ => .error .unlistedValue
  | 0x69 => listed (decide (r.fn.toNat ≤ 1) && np && r.c == 0 && decide (r.b.toNat ≤ 31))
      (.sbcast h (r.fn == 1) r.d r.a (r.b.extractLsb' 0 5))
  | 0x6A => listed (r.fn == 0 && np && r.c == 0 && r.b == 0 && r.a == 0 && r.d == 0) (.gbar h)
  | 0x6B => r.semFixed .ar 0 fun sc => listed (r.off == 0 && r.b == 0 && r.a == 0 && r.d == 0) (.gfence h sc)
  | _ => .error .unlistedValue

/-- The extent of PREF, CWB and CINV (R280): SZ 0 a sector, 1 a line; SEM is zero. -/
def Raw.extent (r : Raw) (k : Bool → Decoded) : Decoded :=
  match r.c.toNat with
  | 0 => k false
  | 1 => k true
  | _ => .error .unlistedValue

/-- Opcodes 0x70 to 0x7F: memory (R271 to R280). -/
def fieldsMem (r : Raw) : Decoded :=
  let h := r.h
  match r.op.toNat with
  | 0x70 => r.sem fun o sc sz => listed (r.b == 0) (.ld h sz o sc r.d r.a r.off)
  | 0x71 => r.sem fun o sc sz => listed (r.d == 0) (.st h sz o sc r.a r.b r.off)
  | 0x72 => r.sem fun o sc sz => listed (r.b == 0) (.lds h sz o sc r.d r.a r.off)
  | 0x73 => r.sem fun o sc sz => listed (r.d == 0) (.sts h sz o sc r.a r.b r.off)
  | 0x74 => r.sem fun o sc sz => listed (r.b == 0) (.ldl h sz o sc r.d r.a r.off)
  | 0x75 => r.sem fun o sc sz => listed (r.d == 0) (.stl h sz o sc r.a r.b r.off)
  | 0x76 => coded (MSize.ofCode (r.c.extractLsb' 0 4)) fun sz =>
      listed (r.c.extractLsb' 4 4 == 0 && r.fn == 0) (.lda h sz r.pd r.d r.a r.b)
  | 0x77 => listed (decide (r.fn.toNat ≤ 7) && r.pd == 7 && r.c == 0 && decide (r.b.toNat ≤ 63) && r.a == 0 && r.d == 0)
      (.wtag h (r.fn.extractLsb' 0 3) (r.b.extractLsb' 0 6))
  | 0x78 => r.sem fun o sc sz => coded (AtomOp.ofCode r.fn) fun op =>
      listed (r.pd == 0) (.atom h op sz o sc r.d r.a r.b)
  | 0x79 => r.sem fun o sc sz => coded (AtomOp.ofCode r.fn) fun op =>
      listed (r.pd == 0 && r.d == 0) (.red h op sz o sc r.a r.b)
  | 0x7A => r.sem fun o sc sz => coded (AtomOp.ofCode r.fn) fun op =>
      listed (r.pd == 0) (.atomScratchpad h op sz o sc r.d r.a r.b)
  | 0x7B => r.sem fun o sc sz => coded (AtomOp.ofCode r.fn) fun op =>
      listed (r.pd == 0 && r.d == 0) (.redScratchpad h op sz o sc r.a r.b)
  | 0x7C => r.sem fun o sc _ =>
      listed (r.c.extractLsb' 0 4 == 0 && r.off == 0 && r.b == 0 && r.a == 0 && r.d == 0) (.fence h o sc)
  | 0x7D => r.extent fun line => listed (r.b == 0 && r.d == 0) (.pref h line r.a r.off)
  | 0x7E => r.extent fun line => listed (r.b == 0 && r.d == 0) (.cwb h line r.a r.off)
  | 0x7F => r.extent fun line => listed (r.b == 0 && r.d == 0) (.cinv h line r.a r.off)
  | _ => .error .unlistedValue

/-- Opcodes 0x90 to 0x9C: tasks, futures, groups, sections, queue objects (R281 to R297). -/
def fieldsTask (r : Raw) : Decoded :=
  let h := r.h
  let np := r.pd == 7
  match r.op.toNat with
  | 0x90 => listed (decide (r.fn.toNat ≤ 1) && r.d == 0) (.spawn h (r.fn == 1) r.pd r.a r.b r.c)
  | 0x91 => r.semFixed .acq 0 fun sc => .ok (.wait h sc r.d r.a r.b r.off)
  | 0x92 =>
    let p := r.d.extractLsb' 0 3
    coded (Scope.ofCode (r.c.extractLsb' 6 2)) fun sc =>
    if r.c.extractLsb' 4 2 == Ord4.rel.code && decide (r.d.toNat ≤ 7) then
      match (r.c.extractLsb' 0 4).toNat with
      | 0 => .ok (.fset h sc p r.a r.b r.off)
      | 1 => .ok (.fsetFault h sc p r.a r.b r.off)
      | 2 => .ok (.fsetCancel h sc p r.a r.b r.off)
      | _ => .error .unlistedValue
    else .error .unlistedValue
  | 0x93 => listed (decide (r.fn.toNat ≤ 1) && np && r.c == 0 && r.b == 0 && r.d == 0) (.fnew h (r.fn == 1) r.a)
  | 0x94 => listed (r.fn == 0 && np && r.c == 0 && r.b == 0 && r.d == 0) (.join h r.a)
  | 0x95 => listed (r.fn == 0 && np && r.c == 0 && r.b == 0 && r.d == 0) (.leave h r.a)
  | 0x96 => listed (r.fn == 0 && np && r.c == 0 && r.b == 0 && r.d == 0) (.bar h r.a)
  | 0x97 =>
    let n := r.fn.extractLsb' 2 3
    match (r.fn.extractLsb' 0 2).toNat with
    | 0 => listed (decide (r.d.toNat ≤ 7)) (.shipW h r.pd (r.d.extractLsb' 0 3) n r.a r.b r.c)
    | 1 => .ok (.shipC h r.pd n r.d r.a r.b r.c)
    | 2 => listed (np && r.d == 0) (.shipO h n r.a r.b r.c)
    | _ => .error .unlistedValue
  | 0x98 => listed (r.fn == 0 && np && r.c == 0 && r.b == 0 && r.a == 0 && r.d == 0) (.sret h)
  | 0x99 =>
    match r.fn.toNat with
    | 0 => listed (r.d == 0) (.qpush h r.pd r.a r.b r.c)
    | 1 => listed (r.c == 0) (.qpushRsv h r.pd r.d r.a r.b)
    | _ => .error .unlistedValue
  | 0x9A =>
    match r.fn.toNat with
    | 0 => listed (r.c == 0) (.qpop h r.pd r.d r.a r.b)
    | 1 => listed (r.c == 0 && r.b == 0) (.qpopMin h r.pd r.d r.a)
    | _ => .error .unlistedValue
  | 0x9B => listed (r.fn == 0 && np && r.c == 0 && r.d == 0) (.waitBit h r.a r.b)
  | 0x9C => listed (r.fn == 0 && np && r.c == 0 && r.d == 0) (.fsetBit h r.a r.b)
  | _ => .error .unlistedValue

/-- Opcodes 0xA0 to 0xB6: engines (R317 to R341). -/
def fieldsEng (r : Raw) : Decoded :=
  let h := r.h
  let np := r.pd == 7
  let eng := r.fn.extractLsb' 0 2
  let teng := r.d.extractLsb' 6 2
  let bank := r.d.extractLsb' 3 3
  match r.op.toNat with
  | 0xA0 => listed (decide (r.fn.toNat ≤ 3) && r.c == 0 && r.a == 0 && r.d == 0) (.accAlloc h r.pd eng r.b)
  | 0xA1 => listed (decide (r.fn.toNat ≤ 3) && np && r.c == 0 && r.a == 0 && r.d == 0) (.accFree h eng r.b)
  | 0xA2 => listed (decide (r.fn.toNat ≤ 3) && np && r.c == 0 && r.d == 0) (.accLend h eng r.b r.a)
  | 0xA3 => listed (decide (r.fn.toNat ≤ 3) && np && r.c == 0 && r.a == 0 && r.d == 0) (.accZero h eng r.b)
  | 0xA4 => listed (decide (r.fn.toNat ≤ 3) && np && r.d == 0) (.accLd h eng r.a r.b r.c)
  | 0xA5 => listed (decide (r.fn.toNat ≤ 15) && np && r.a == 0)
      (.accRd h eng (r.fn.getLsbD 2) (r.fn.getLsbD 3) r.d r.b r.c)
  | 0xA6 => listed (r.fn == 0 && np && r.b == 0 && r.d.extractLsb' 0 3 == 0) (.accDrain h teng bank r.a r.c)
  | 0xA7 => coded (Fmt.ofCode r.fn) fun f => listed (np && r.d.extractLsb' 0 3 == 0) (.mma h f teng bank r.a r.b r.c)
  | 0xA8 => coded (Fmt.ofCode r.fn) fun f => listed (np && r.d.extractLsb' 0 3 == 0) (.mmas h f teng bank r.a r.b r.c)
  | 0xA9 => listed (decide (r.fn.toNat ≤ 1) && np && r.b == 0 && r.d == 0) (.bcpy h (r.fn == 1) r.a r.c)
  | 0xAA =>
    if r.fn.getLsbD 4 then listed (np && r.c == 0 && r.b == 0 && r.a == 0) (.rcfgGet h (r.fn.extractLsb' 0 4) r.d)
    else listed (np && r.c == 0 && r.b == 0 && r.d == 0) (.rcfg h (r.fn.extractLsb' 0 4) r.a)
  | 0xAB => listed (decide (r.fn.toNat ≤ 15) && np && r.c == 0 && r.b == 0 && r.a == 0 && r.d == 0)
      (.rpush h (r.fn.extractLsb' 0 4))
  | 0xAC => listed (decide (r.fn.toNat ≤ 15) && np && r.c == 0 && r.b == 0 && r.a == 0)
      (.rpop h (r.fn.extractLsb' 0 4) r.d)
  | 0xAD => listed (r.fn == 0 && np && r.c == 0 && r.b == 0 && r.d == 0) (.dscCfg h r.a)
  | 0xAE => listed (r.fn == 0 && np && r.b == 0 && r.d == 0) (.dscRun h r.a r.c)
  | 0xAF => listed (r.fn == 0 && np && r.c == 0 && r.a == 0) (.dscPath h r.d r.b)
  | 0xB0 => listed (r.fn == 0 && np && r.d == 0) (.dscGrad h r.a r.b r.c)
  | 0xB1 => listed (r.fn == 0 && np && r.b == 0 && r.d == 0) (.rfbStart h r.a r.c)
  | 0xB2 => listed (r.fn == 0 && np && r.c == 0 && r.b == 0) (.rfbStat h r.d r.a)
  | 0xB3 => listed (r.fn == 0 && r.c == 0 && r.b == 0 && r.d == 0) (.rfbAbort h r.pd r.a)
  | 0xB4 => listed (decide (r.fn.toNat ≤ 1) && np && r.b == 0 && r.d == 0) (.rmaPut h (r.fn == 1) r.a r.c)
  | 0xB5 => listed (decide (r.fn.toNat ≤ 1) && np && r.b == 0 && r.d == 0) (.rmaGet h (r.fn == 1) r.a r.c)
  | 0xB6 => listed (decide (r.fn.toNat ≤ 1) && np && r.c == 0 && r.d == 0) (.rmaFlag h (r.fn == 1) r.a r.b)
  | _ => .error .unlistedValue

/-- Opcodes 0xC0 to 0xC8: system (R344 to R359). -/
def fieldsSys (r : Raw) : Decoded :=
  let h := r.h
  let np := r.pd == 7
  match r.op.toNat with
  | 0xC0 => coded (SysReg.ofCode r.a) fun s => listed (r.fn == 0 && np && r.c == 0 && r.b == 0) (.srd h r.d s)
  | 0xC1 => coded (SysReg.ofCode r.d) fun s => listed (r.fn == 0 && np && r.c == 0 && r.b == 0) (.swr h s r.a)
  | 0xC2 => listed (r.a == 0 && r.d == 0) (.trap h r.imm24)
  | 0xC3 => listed (decide (r.fn.toNat ≤ 1) && np && r.c == 0 && r.b == 0 && r.a == 0 && r.d == 0)
      (.tret h (r.fn == 1))
  | 0xC4 => listed (r.a == 0 && r.d == 0) (.bpt h r.imm24)
  | 0xC5 => listed (r.fn == 0 && np && r.c == 0 && r.d == 0) (.icinv h r.a r.b)
  | 0xC6 => listed (r.fn == 0 && np && r.c == 0 && r.b == 0 && r.a == 0 && r.d == 0) (.ifence h)
  | 0xC7 => listed (decide (r.fn.toNat ≤ 1) && np && r.c == 0 && r.b == 0 && r.a == 0) (.clk h (r.fn == 1) r.d)
  | 0xC8 =>
    match r.fn.toNat with
    | 0 => listed (np && r.c == 0 && r.a == 0 && decide (r.b.toNat ≤ 7)) (.perfRd h r.d (r.b.extractLsb' 0 3))
    | 1 => listed (np && r.c == 0 && r.d == 0 && decide (r.b.toNat ≤ 7)) (.perfCfg h (r.b.extractLsb' 0 3) r.a)
    | _ => .error .unlistedValue
  | _ => .error .unlistedValue

/-- The instruction of the fields, by the class of the opcode (R236). -/
def fields (r : Raw) : Decoded :=
  let n := r.op.toNat
  if n < 0x1C then fieldsInt r
  else if n < 0x40 then fieldsCtl r
  else if n < 0x60 then fieldsFloat r
  else if n < 0x70 then fieldsGroup r
  else if n < 0x80 then fieldsMem r
  else if n < 0xA0 then fieldsTask r
  else if n < 0xC0 then fieldsEng r
  else fieldsSys r

/-- A decoded instruction that is well formed. -/
def checkWf (x : Decoded) : Decoded :=
  match x with
  | .ok i => if i.wf then .ok i else .error .illFormed
  | .error e => .error e

/-- Decoding of an instruction word: steps 2 and 3 of R235, but for the rules that depend on the thread. An opcode that is
unassigned or reserved decodes to the row for it, whose meaning is the trap of step 2 (R237). -/
def decode (w : Dword) : Decoded :=
  let r := Raw.ofWord w
  if opAssigned r.op then
    if r.rsv == 0 then checkWf (fields r) else .error .headerBits
  else .ok (.unassignedOpcode w)

/-! ## Encoding -/

/-- The control byte of CVT, PACK and UNPACK (R256). -/
def ctlByte (sat : Bool) (rnd : Rnd) (low : BitVec 5) : BitVec 8 := BitVec.ofBool sat ++ rnd.code ++ low

/-- A flag as a five-bit FN. -/
def fn1 (v : Bool) : BitVec 5 := if v then 1 else 0

/-- FN of the F32 arithmetic: rounding and .PR (R300). -/
def fnF (pr : Bool) (m : Rnd) : BitVec 5 := 0#2 ++ BitVec.ofBool pr ++ m.code

/-- Field D of MMA, MMAS and ACC.DRAIN (R325). -/
def tgtByte (eng : BitVec 2) (bank : BitVec 3) : BitVec 8 := eng ++ bank ++ 0#3

/-- The fields of an integer, conversion or control instruction. -/
def rawInt : Instr → Option Raw
  | .iadd h v pd d a b => some (layoutX 0x01 h v.code pd 0 b a d)
  | .isub h v pd d a b => some (layoutX 0x02 h v.code pd 0 b a d)
  | .imul h d a b => some (layoutX 0x03 h 0 7 0 b a d)
  | .imulh h u d a b => some (layoutX 0x04 h (fn1 u) 7 0 b a d)
  | .imad h d a b c => some (layoutX 0x05 h 0 7 c b a d)
  | .iadd64 h pd d a b => some (layoutX 0x06 h 0 pd 0 b a d)
  | .isub64 h pd d a b => some (layoutX 0x07 h 0 pd 0 b a d)
  | .imin h u d a b => some (layoutX 0x08 h (fn1 u) 7 0 b a d)
  | .imax h u d a b => some (layoutX 0x09 h (fn1 u) 7 0 b a d)
  | .iabs h s d a => some (layoutX 0x0A h (fn1 s) 7 0 0 a d)
  | .and h d a b => some (layoutX 0x0B h 0 7 0 b a d)
  | .or h d a b => some (layoutX 0x0B h 1 7 0 b a d)
  | .xor h d a b => some (layoutX 0x0B h 2 7 0 b a d)
  | .andn h d a b => some (layoutX 0x0B h 3 7 0 b a d)
  | .shl h d a b => some (layoutX 0x0C h 0 7 0 b a d)
  | .shr h d a b => some (layoutX 0x0C h 1 7 0 b a d)
  | .sar h d a b => some (layoutX 0x0C h 2 7 0 b a d)
  | .rot h d a b => some (layoutX 0x0C h 3 7 0 b a d)
  | .shl64 h d a b => some (layoutX 0x0D h 0 7 0 b a d)
  | .shr64 h ar d a b => some (layoutX 0x0D h (if ar then 2 else 1) 7 0 b a d)
  | .popc h d a => some (layoutX 0x0E h 0 7 0 0 a d)
  | .clz h d a => some (layoutX 0x0E h 1 7 0 0 a d)
  | .ctz h d a => some (layoutX 0x0E h 2 7 0 0 a d)
  | .brev h d a => some (layoutX 0x0E h 3 7 0 0 a d)
  | .bfe h s d a b => some (layoutX 0x0F h (fn1 s) 7 0 b a d)
  | .bfi h d a b c => some (layoutX 0x10 h 0 7 c b a d)
  | .perm h d a b c => some (layoutX 0x11 h 0 7 c b a d)
  | .sel h n d a b pc => some (layoutX 0x12 h (fn1 n) 7 (0#5 ++ pc) b a d)
  | .mov h w d a => some (layoutX 0x13 h (fn1 w) 7 0 0 a d)
  | .movi h d imm => some (layoutW 0x14 h imm d)
  | .movhi h d imm => some (layoutW 0x15 h imm d)
  | .lea h sx sh d a b => some (layoutX 0x16 h (0#1 ++ BitVec.ofBool sx ++ sh) 7 0 b a d)
  | .icmp h cc pd a b => some (layoutX 0x17 h cc.code pd 0 b a 0)
  | .icmp64 h cc pd a b => some (layoutX 0x18 h cc.code pd 0 b a 0)
  | .pset h op na nb pd pa pb =>
    some (layoutX 0x19 h (0#1 ++ BitVec.ofBool nb ++ BitVec.ofBool na ++ op.code) pd 0 (0#5 ++ pb) (0#5 ++ pa) 0)
  | .pmovGet h d => some (layoutX 0x1A h 0 7 0 0 0 d)
  | .pmovPut h a b => some (layoutX 0x1A h 1 7 0 b a 0)
  | .naddr h l d a b c => some (layoutX 0x1B h (fn1 l) 7 c b a d)
  | .iaddImm h d a imm => some (layoutY 0x1C h imm a d)
  | .andImm h d a imm => some (layoutY 0x1D h imm a d)
  | .orImm h d a imm => some (layoutY 0x1E h imm a d)
  | .xorImm h d a imm => some (layoutY 0x1F h imm a d)
  | .shlImm h d a n => some (layoutX 0x20 h 0 0 0 (0#3 ++ n) a d)
  | .shrImm h d a n => some (layoutX 0x20 h 0 0 1 (0#3 ++ n) a d)
  | .sarImm h d a n => some (layoutX 0x20 h 0 0 2 (0#3 ++ n) a d)
  | .rotImm h d a n => some (layoutX 0x20 h 0 0 3 (0#3 ++ n) a d)
  | .cvt h tgt src rnd sat d a c => some (layoutX 0x21 h tgt.code 7 c (ctlByte sat rnd src.code) a d)
  | .pack h tgt rnd sat sc h1 d a c =>
    some (layoutX 0x22 h tgt.code 7 c (ctlByte sat rnd (0#3 ++ BitVec.ofBool sc ++ BitVec.ofBool h1)) a d)
  | .unpack h src rnd sat sc h1 d a c =>
    some (layoutX 0x23 h src.code 7 c (ctlByte sat rnd (0#3 ++ BitVec.ofBool sc ++ BitVec.ofBool h1)) a d)
  | .qscale h tgt d a => some (layoutX 0x24 h tgt.code 7 0 0 a d)
  | .fmtset h t d a => some (layoutX 0x25 h (0#1 ++ t.code) 7 0 0 a d)
  | .fmtget h d a => some (layoutX 0x26 h 0 7 0 0 a d)
  | .nop h => some (layoutX 0x30 h 0 0 0 0 0 0)
  | .bra h imm => some (layoutY 0x31 h imm 0 0)
  | .brx h a => some (layoutX 0x32 h 0 7 0 0 a 0)
  | .call h imm => some (layoutY 0x33 h imm 0 0)
  | .callx h a => some (layoutX 0x34 h 0 7 0 0 a 0)
  | .ret h => some (layoutX 0x35 h 0 7 0 0 0 0)
  | .exit h => some (layoutX 0x36 h 0 7 0 0 0 0)
  | .mset h imm => some (layoutY 0x37 h imm 0 0)
  | .meet h => some (layoutX 0x38 h 0 7 0 0 0 0)
  | .yield h => some (layoutX 0x39 h 0 7 0 0 0 0)
  | _ => none

/-- The fields of a float or bound-group instruction. -/
def rawFloat : Instr → Option Raw
  | .fadd h pr m d a b => some (layoutX 0x40 h (fnF pr m) 7 0 b a d)
  | .fmul h pr m d a b => some (layoutX 0x41 h (fnF pr m) 7 0 b a d)
  | .ffma h pr m d a b c => some (layoutX 0x42 h (fnF pr m) 7 c b a d)
  | .fmin h pr d a b => some (layoutX 0x43 h (fnF pr .rn) 7 0 b a d)
  | .fmax h pr d a b => some (layoutX 0x44 h (fnF pr .rn) 7 0 b a d)
  | .fcmp h cc pd a b => some (layoutX 0x45 h cc.code pd 0 b a 0)
  | .fadd64 h m d a b => some (layoutX 0x46 h (fnF false m) 7 0 b a d)
  | .fmul64 h m d a b => some (layoutX 0x47 h (fnF false m) 7 0 b a d)
  | .ffma64 h m d a b c => some (layoutX 0x48 h (fnF false m) 7 c b a d)
  | .fmin64 h d a b => some (layoutX 0x49 h 0 7 0 b a d)
  | .fmax64 h d a b => some (layoutX 0x4A h 0 7 0 b a d)
  | .fcmp64 h cc pd a b => some (layoutX 0x4B h cc.code pd 0 b a 0)
  | .hadd2 h f m d a b => some (layoutX 0x4C h (0#2 ++ f.code ++ m.code) 7 0 b a d)
  | .hmul2 h f m d a b => some (layoutX 0x4D h (0#2 ++ f.code ++ m.code) 7 0 b a d)
  | .hfma2 h f m d a b c => some (layoutX 0x4E h (0#2 ++ f.code ++ m.code) 7 c b a d)
  | .dot4 h f m d a b c => some (layoutX 0x4F h (f.code ++ m.code) 7 c b a d)
  | .dot8 h f m d a b c => some (layoutX 0x50 h (f.code ++ m.code) 7 c b a d)
  | .frcp h d a => some (layoutX 0x51 h 0 7 0 0 a d)
  | .frsq h d a => some (layoutX 0x52 h 0 7 0 0 a d)
  | .fsqrt h m d a => some (layoutX 0x53 h (fnF false m) 7 0 0 a d)
  | .fexp2 h d a => some (layoutX 0x54 h 0 7 0 0 a d)
  | .flog2 h d a => some (layoutX 0x55 h 0 7 0 0 a d)
  | .fsin h d a => some (layoutX 0x56 h 0 7 0 0 a d)
  | .fcos h d a => some (layoutX 0x57 h 0 7 0 0 a d)
  | .ftanh h d a => some (layoutX 0x58 h 0 7 0 0 a d)
  | .bind h n1 a => some (layoutX 0x60 h n1 7 0 0 a 0)
  | .unbind h => some (layoutX 0x61 h 0 7 0 0 0 0)
  | .part h code => some (layoutX 0x62 h (0#2 ++ code) 7 0 0 0 0)
  | .vote h op neg pd d q => some (layoutX 0x63 h (0#2 ++ BitVec.ofBool neg ++ op.code) pd 0 0 (0#5 ++ q) d)
  | .shfl h m pd d a b => some (layoutX 0x64 h m.code pd 0 b a d)
  | .gshfl h d a b => some (layoutX 0x65 h 0 7 0 b a d)
  | .reduce h op d a => some (layoutX 0x66 h (0#1 ++ op.code) 7 0 0 a d)
  | .scan h op ex d a => some (layoutX 0x67 h (BitVec.ofBool ex ++ op.code) 7 0 0 a d)
  | .smovRead h d s => some (layoutX 0x68 h 0 7 0 0 s d)
  | .smovWrite h s a n => some (layoutX 0x68 h 1 7 0 (0#3 ++ n) a s)
  | .sbcast h w d a n => some (layoutX 0x69 h (fn1 w) 7 0 (0#3 ++ n) a d)
  | .gbar h => some (layoutX 0x6A h 0 7 0 0 0 0)
  | .gfence h sc => some (layoutM 0x6B h 0 sc .ar 0 0 0 0)
  | _ => none

/-- SZ of PREF, CWB and CINV in an otherwise empty field C (R280). -/
def extByte (line : Bool) : BitVec 8 := if line then 1 else 0

/-- A raw word of PREF, CWB or CINV. -/
def layoutExt (op : BitVec 8) (h : Hdr) (off : BitVec 8) (line : Bool) (a : BitVec 8) : Raw :=
  { op, h, a, fn := off.extractLsb' 3 5, pd := off.extractLsb' 0 3, c := extByte line }

/-- The fields of a memory, task or queue-object instruction. -/
def rawMem : Instr → Option Raw
  | .ld h sz o sc d a off => some (layoutM 0x70 h off sc o sz.code 0 a d)
  | .st h sz o sc a b off => some (layoutM 0x71 h off sc o sz.code b a 0)
  | .lds h sz o sc d a off => some (layoutM 0x72 h off sc o sz.code 0 a d)
  | .sts h sz o sc a b off => some (layoutM 0x73 h off sc o sz.code b a 0)
  | .ldl h sz o sc d a off => some (layoutM 0x74 h off sc o sz.code 0 a d)
  | .stl h sz o sc a b off => some (layoutM 0x75 h off sc o sz.code b a 0)
  | .lda h sz t d a b => some (layoutM 0x76 h (0#5 ++ t) .core .rlx sz.code b a d)
  | .wtag h t m => some (layoutX 0x77 h (0#2 ++ t) 7 0 (0#2 ++ m) 0 0)
  | .atom h op sz o sc d a b => some (layoutM 0x78 h (op.code ++ 0#3) sc o sz.code b a d)
  | .red h op sz o sc a b => some (layoutM 0x79 h (op.code ++ 0#3) sc o sz.code b a 0)
  | .atomScratchpad h op sz o sc d a b => some (layoutM 0x7A h (op.code ++ 0#3) sc o sz.code b a d)
  | .redScratchpad h op sz o sc a b => some (layoutM 0x7B h (op.code ++ 0#3) sc o sz.code b a 0)
  | .fence h o sc => some (layoutM 0x7C h 0 sc o 0 0 0 0)
  | .pref h line a off => some (layoutExt 0x7D h off line a)
  | .cwb h line a off => some (layoutExt 0x7E h off line a)
  | .cinv h line a off => some (layoutExt 0x7F h off line a)
  | .spawn h nf pd a b c => some (layoutX 0x90 h (fn1 nf) pd c b a 0)
  | .wait h sc d a b off => some (layoutM 0x91 h off sc .acq 0 b a d)
  | .fset h sc pd a b off => some (layoutM 0x92 h off sc .rel 0 b a (0#5 ++ pd))
  | .fsetFault h sc pd a b off => some (layoutM 0x92 h off sc .rel 1 b a (0#5 ++ pd))
  | .fsetCancel h sc pd a b off => some (layoutM 0x92 h off sc .rel 2 b a (0#5 ++ pd))
  | .fnew h no a => some (layoutX 0x93 h (fn1 no) 7 0 0 a 0)
  | .join h a => some (layoutX 0x94 h 0 7 0 0 a 0)
  | .leave h a => some (layoutX 0x95 h 0 7 0 0 a 0)
  | .bar h a => some (layoutX 0x96 h 0 7 0 0 a 0)
  | .shipW h pd m n a b c => some (layoutX 0x97 h (n ++ 0#2) pd c b a (0#5 ++ m))
  | .shipC h m n d a b c => some (layoutX 0x97 h (n ++ 1#2) m c b a d)
  | .shipO h n a b c => some (layoutX 0x97 h (n ++ 2#2) 7 c b a 0)
  | .sret h => some (layoutX 0x98 h 0 7 0 0 0 0)
  | .qpush h pd a b c => some (layoutX 0x99 h 0 pd c b a 0)
  | .qpushRsv h pd d a b => some (layoutX 0x99 h 1 pd 0 b a d)
  | .qpop h pd d a b => some (layoutX 0x9A h 0 pd 0 b a d)
  | .qpopMin h pd d a => some (layoutX 0x9A h 1 pd 0 0 a d)
  | .waitBit h a b => some (layoutX 0x9B h 0 7 0 b a 0)
  | .fsetBit h a b => some (layoutX 0x9C h 0 7 0 b a 0)
  | _ => none

/-- The fields of an engine or system instruction. -/
def rawEng : Instr → Option Raw
  | .accAlloc h pd e m => some (layoutX 0xA0 h (0#3 ++ e) pd 0 m 0 0)
  | .accFree h e m => some (layoutX 0xA1 h (0#3 ++ e) 7 0 m 0 0)
  | .accLend h e m sa => some (layoutX 0xA2 h (0#3 ++ e) 7 0 m sa 0)
  | .accZero h e m => some (layoutX 0xA3 h (0#3 ++ e) 7 0 m 0 0)
  | .accLd h e a b c => some (layoutX 0xA4 h (0#3 ++ e) 7 c b a 0)
  | .accRd h e f i d b c => some (layoutX 0xA5 h (0#1 ++ BitVec.ofBool i ++ BitVec.ofBool f ++ e) 7 c b 0 d)
  | .accDrain h e k sa sc => some (layoutX 0xA6 h 0 7 sc 0 sa (tgtByte e k))
  | .mma h f e k sa sb sc => some (layoutX 0xA7 h f.code 7 sc sb sa (tgtByte e k))
  | .mmas h f e k sa sb sc => some (layoutX 0xA8 h f.code 7 sc sb sa (tgtByte e k))
  | .bcpy h nf a c => some (layoutX 0xA9 h (fn1 nf) 7 c 0 a 0)
  | .rcfg h n a => some (layoutX 0xAA h (0#1 ++ n) 7 0 0 a 0)
  | .rcfgGet h n d => some (layoutX 0xAA h (1#1 ++ n) 7 0 0 0 d)
  | .rpush h n => some (layoutX 0xAB h (0#1 ++ n) 7 0 0 0 0)
  | .rpop h n d => some (layoutX 0xAC h (0#1 ++ n) 7 0 0 0 d)
  | .dscCfg h a => some (layoutX 0xAD h 0 7 0 0 a 0)
  | .dscRun h sa sc => some (layoutX 0xAE h 0 7 sc 0 sa 0)
  | .dscPath h d b => some (layoutX 0xAF h 0 7 0 b 0 d)
  | .dscGrad h sa sb sc => some (layoutX 0xB0 h 0 7 sc sb sa 0)
  | .rfbStart h a c => some (layoutX 0xB1 h 0 7 c 0 a 0)
  | .rfbStat h d a => some (layoutX 0xB2 h 0 7 0 0 a d)
  | .rfbAbort h pd a => some (layoutX 0xB3 h 0 pd 0 0 a 0)
  | .rmaPut h nf a c => some (layoutX 0xB4 h (fn1 nf) 7 c 0 a 0)
  | .rmaGet h nf a c => some (layoutX 0xB5 h (fn1 nf) 7 c 0 a 0)
  | .rmaFlag h add a b => some (layoutX 0xB6 h (fn1 add) 7 0 b a 0)
  | .srd h d s => some (layoutX 0xC0 h 0 7 0 0 s.code d)
  | .swr h s a => some (layoutX 0xC1 h 0 7 0 0 a s.code)
  | .trap h imm => some (layoutY 0xC2 h imm 0 0)
  | .tret h nx => some (layoutX 0xC3 h (fn1 nx) 7 0 0 0 0)
  | .bpt h imm => some (layoutY 0xC4 h imm 0 0)
  | .icinv h a b => some (layoutX 0xC5 h 0 7 0 b a 0)
  | .ifence h => some (layoutX 0xC6 h 0 7 0 0 0 0)
  | .clk h c d => some (layoutX 0xC7 h (fn1 c) 7 0 0 0 d)
  | .perfRd h d n => some (layoutX 0xC8 h 0 7 0 (0#5 ++ n) 0 d)
  | .perfCfg h n a => some (layoutX 0xC8 h 1 7 0 (0#5 ++ n) a 0)
  | _ => none

/-- The fields of a Scarix instruction; none for a row that is no instruction word. -/
def rawOf (i : Instr) : Option Raw :=
  (rawInt i).orElse fun _ => (rawFloat i).orElse fun _ => (rawMem i).orElse fun _ => rawEng i

/-- The word of an instruction; none for queue-program words and events. -/
def encode (i : Instr) : Option Dword :=
  match i with
  | .unassignedOpcode w => some w
  | i => (rawOf i).map Raw.word

/-- The word of an instruction, 0 where it has none: what a trap frame's IWORD holds (R349). -/
def encodeWord (i : Instr) : Dword := (encode i).getD 0

/-! ## Queue-program words -/

/-- The fields of a queue-program word (R406). -/
def qpWord (imm : BitVec 16) (b a : BitVec 4) (op : BitVec 8) : Word := imm ++ b ++ a ++ op

/-- Decoding of a queue-program word (R406, R407). -/
def decodeQp (w : Word) : Decoded :=
  let imm := w.extractLsb' 16 16
  let b := w.extractLsb' 12 4
  let a := w.extractLsb' 8 4
  let ok (c : Bool) (i : Instr) : Decoded := if c then .ok i else .error .queueWord
  match (w.extractLsb' 0 8).toNat with
  | 0x01 => ok (b == 0) (.qpPkt imm a)
  | 0x02 => ok (b == 0) (.qpMovi imm a)
  | 0x03 => .ok (.qpShli imm b a)
  | 0x04 => .ok (.qpShri imm b a)
  | 0x05 => ok (imm == 0) (.qpAdd b a)
  | 0x06 => ok (imm == 0) (.qpAnd b a)
  | 0x07 => ok (imm == 0) (.qpOr b a)
  | 0x08 => ok (decide (imm.toNat ≤ 7)) (.qpLdw (imm.extractLsb' 0 3) b a)
  | 0x09 => ok (decide (imm.toNat ≤ 7)) (.qpStw (imm.extractLsb' 0 3) b a)
  | 0x0A => .ok (.qpBeq imm b a)
  | 0x0B => .ok (.qpBne imm b a)
  | 0x0C => .ok (.qpBltu imm b a)
  | 0x0D => ok (b == 0 && a == 0) (.qpLoop imm)
  | 0x0E => ok (imm == 0 && b == 0 && a == 0) .qpEndl
  | 0x0F => ok (b == 0) (.qpStg imm a)
  | 0x10 =>
    if b == 0 && a == 0 then
      match imm.toNat with
      | 0 => .ok .actNop
      | 1 => .ok .actLaunch
      | 2 => .ok .actSignal
      | 3 => .ok .actWaitsig
      | 4 => .ok .actCopy
      | 5 => .ok .actRfb
      | 6 => .ok .actChain
      | _ => .error .queueWord
    else .error .queueWord
  | 0x11 => ok (imm == 0 && b == 0 && a == 0) .qpEnd
  | _ => .error .queueWord

/-- The word of a queue-program instruction; none for every other row. -/
def encodeQp : Instr → Option Word
  | .qpPkt i a => some (qpWord i 0 a 0x01)
  | .qpMovi i a => some (qpWord i 0 a 0x02)
  | .qpShli n b a => some (qpWord n b a 0x03)
  | .qpShri n b a => some (qpWord n b a 0x04)
  | .qpAdd b a => some (qpWord 0 b a 0x05)
  | .qpAnd b a => some (qpWord 0 b a 0x06)
  | .qpOr b a => some (qpWord 0 b a 0x07)
  | .qpLdw w b a => some (qpWord (0#13 ++ w) b a 0x08)
  | .qpStw w b a => some (qpWord (0#13 ++ w) b a 0x09)
  | .qpBeq k b a => some (qpWord k b a 0x0A)
  | .qpBne k b a => some (qpWord k b a 0x0B)
  | .qpBltu k b a => some (qpWord k b a 0x0C)
  | .qpLoop n => some (qpWord n 0 0 0x0D)
  | .qpEndl => some (qpWord 0 0 0 0x0E)
  | .qpStg i a => some (qpWord i 0 a 0x0F)
  | .actNop => some (qpWord 0 0 0 0x10)
  | .actLaunch => some (qpWord 1 0 0 0x10)
  | .actSignal => some (qpWord 2 0 0 0x10)
  | .actWaitsig => some (qpWord 3 0 0 0x10)
  | .actCopy => some (qpWord 4 0 0 0x10)
  | .actRfb => some (qpWord 5 0 0 0x10)
  | .actChain => some (qpWord 6 0 0 0x10)
  | .qpEnd => some (qpWord 0 0 0 0x11)
  | _ => none

/-- The instruction that the decoder reads from bits numbered as the opcode table numbers them: the 32-bit rows are
queue-program words, a 64-bit word is an instruction word, and the rows without bits are events. -/
def decodeTableWord (nbits w : Nat) : Option Instr :=
  if nbits = 32 then (decodeQp (BitVec.ofNat 32 w)).toOption
  else if nbits = 64 then (decode (BitVec.ofNat 64 w)).toOption
  else none

end Sys2Proof
end

