-- ==== Sys2Proof/Config.lean ====
section
/-! DEFINITION. What an implementation fixes, and the values the manual leaves open. A constant without a body is a FREE
VALUE: nothing in Lean can evaluate it, so what is proved holds for each of its values. -/

namespace Sys2Proof.Config

/-- Free bits: value number `n` of the values that the manual calls unspecified (R7). The step reads it at the
counter `State.free` and advances the counter. DESIGN CHOICE, log 3. -/
opaque freeBits : Nat → Dword

/-- A free choice among several outcomes that the manual allows, read at `State.free` as `freeBits` is. DESIGN CHOICE, log 3. -/
opaque freeChoice : Nat → Nat

/-- The result that a special function proposes for an F32 source (R164): function 0 FRCP, 1 FRSQ, 2 FEXP2, 3 FLOG2,
4 FSIN, 5 FCOS, 6 FTANH. It is taken where it keeps the error bound of the manual; it is the same on every core.
DESIGN CHOICE, log 10. -/
opaque special : Nat → Word → Word

/-- SHA3-512 (R438, R441, R442): 64 bytes of digest of a byte string. The manual names the standard. DESIGN CHOICE, log 11. -/
opaque sha3Word : List Byte → BitVec 512

/-- The `n` bytes of a word, least significant first. -/
def wordBytes (n : Nat) {w : Nat} (x : BitVec w) : List Byte := (List.range n).map fun i => x.extractLsb' (8 * i) 8

/-- The 64 bytes of a SHA3-512 digest. -/
def sha3 (l : List Byte) : List Byte := wordBytes 64 (sha3Word l)

/-- ML-DSA-87 verification under FIPS 204 (R438): key, message, signature. DESIGN CHOICE, log 11. -/
opaque mldsaVerify : List Byte → List Byte → List Byte → Bool

/-- The public key, of 2,592 bytes, that the key generation of FIPS 204 derives from a seed of 32 bytes (R441). DESIGN CHOICE,
log 11. -/
opaque mldsaPublic : BitVec 256 → BitVec 20736

/-- The ML-DSA-87 signature, of 4,627 bytes, over a byte string with the key of a seed (R441, R442). DESIGN CHOICE, log 11. -/
opaque mldsaSign : BitVec 256 → List Byte → BitVec 37016

/-- The seed of the alias key, derived from a digest (R441): the derivation is not given. DESIGN CHOICE, log 11. -/
opaque aliasDerive : List Byte → BitVec 256

/-- Proenzar's certificate of a public key (R441): a module's own bytes. DESIGN CHOICE, log 11. -/
opaque makerCertificate : BitVec 20736 → List Byte

/-- A certificate of a public key (R441), signed with the key of a seed. DESIGN CHOICE, log 11. -/
opaque certificate : BitVec 256 → BitVec 20736 → List Byte

/-- The four key-hash fuse slots (R438): a module's own values. DESIGN CHOICE, log 7. -/
opaque keyHash : Nat → List Byte

/-- The 32-byte seed in fuses (R441). DESIGN CHOICE, log 7. -/
opaque seed : BitVec 256

/-- PAYDIG, of 64 bytes, of the image that a module holds when it leaves the maker (R438, R442). DESIGN CHOICE, log 7. -/
opaque factoryPaydig : BitVec 512

/-- The boot ROM and program 0 of a module, as byte strings measured under R442. DESIGN CHOICE, log 11. -/
opaque romBytes : List Byte

/-- The loaded image of queue program 0 as bytes, for measurement 3 (R442). DESIGN CHOICE, log 11. -/
opaque programZeroBytes : List Byte

/-- The calibrated coefficients of the activity estimate (R447): a module's own, in the order CORECYC, MEBUSY, DEBUSY,
LCBUSY, BCBYTES, HBMRD, HBMWR, NETTX, NETRX. DESIGN CHOICE, log 12. -/
opaque energyCoeff : Nat → Nat

/-- Fields of an SPDM response that the manual leaves to SPDM 1.3 (R442), by response code and number. DESIGN CHOICE, log
11. -/
opaque spdmField : Nat → Nat → Byte

/-- The four bytes that name an algorithm under Proenzar's vendor identifier in SPDM (R442): 0 ML-DSA-87, 1 SHA3-512. DESIGN
CHOICE, log 11. -/
opaque vendorAlgorithm : Nat → BitVec 32

/-- The I/O die that serves a unit (R452): kind 0 a queue, kind 2 a context's fault queue, kind 3 the port on which a node's
messages come. DESIGN CHOICE, log 14. -/
opaque ioDie : Nat → Nat → Fin 2

/-- Which of the ways to give four of the eight Ethernet ports to IOD0 is the device's (R26). DESIGN CHOICE, log 14. -/
opaque portSplit : Fin 70

/-- The four Ethernet ports of IOD0; the other four are those of IOD1 (R26). -/
def portsOfIod0 : List Nat := (List.sublistsLen 4 (List.range 8)).getD portSplit.val []

/-- The L2 slice that is the home of a line of 1,024 bytes (R24, R85): 32 slices of each of eight compute dies. The manual
gives no hash. DESIGN CHOICE, log 91. -/
opaque homeSlice : Nat → Fin 256

/-- A sentinel key of host memory behind HA in the one physical key space of the model (R420, TGT 1 PORT 0). -/
def haKey : Nat := 2 ^ 52

/-- Host memory behind HB (R420, TGT 1 PORT 1). -/
def hbKey : Nat := 2 * 2 ^ 52

/-- Host memory reached over CX (R420, TGT 2). -/
def cxKey : Nat := 3 * 2 ^ 52

/-- The first key past every space. -/
def endKey : Nat := 4 * 2 ^ 52

/-- Device memory, 768 GiB (R12). -/
def deviceBytes : Nat := 768 * 2 ^ 30

/-- First byte of the usage region: the top 64 MiB of device memory (R12, R443). -/
def usageBase : Nat := deviceBytes - 64 * 2 ^ 20

/-- First byte of the kick pages in device physical space (R420). -/
def kickBase : Nat := 0xFF00000000

/-- Bytes of a core's scratchpad (R14). -/
def scratchBytes : Nat := 256 * 1024

/-- Records of a core's task queue (R57). -/
def queueRecords : Nat := 1024

/-- Commands an engine holds (R21). -/
def engineEntries : Nat := 8

/-- Requests a latency core holds (R169). -/
def lcEntries : Nat := 128

/-- Merge-stack entries (R38). -/
def mergeEntries : Nat := 32

/-- Entries of an owned-future list (R65). -/
def ownedEntries : Nat := 16

end Sys2Proof.Config
end

