-- ==== Sys2Proof/Machine/Flags.lean ====
section
/-! DEFINITION. Every flag that an instruction computes: the predicate results of the integer instructions (R241), the
integer and float conditions (R252, R302), and the exceptions of R152 to R154. -/

namespace Sys2Proof

/-! ## Float exceptions, in the order of R154 and of TRAPEN (R366) -/

/-- A set of float exceptions: invalid, divide-by-zero, overflow, underflow, inexact in bits 0 to 4. -/
abbrev FloatEx := BitVec 5

/-- No exception. -/
def exNone : FloatEx := 0
/-- Invalid. -/
def exInvalid : FloatEx := 1
/-- Divide-by-zero. -/
def exDivZero : FloatEx := 2
/-- Overflow. -/
def exOverflow : FloatEx := 4
/-- Underflow. -/
def exUnderflow : FloatEx := 8
/-- Inexact. -/
def exInexact : FloatEx := 16

/-- An exception that occurs under a condition. -/
def exWhen (c : Bool) (e : FloatEx) : FloatEx := if c then e else exNone

/-! ## Integer flags (R241) -/

/-- Carry out of the top bit of a + b. -/
def carryAdd {w : Nat} (a b : BitVec w) : Bool := decide (2 ^ w ≤ a.toNat + b.toNat)

/-- Borrow of a − b: a below b, unsigned. -/
def borrowSub {w : Nat} (a b : BitVec w) : Bool := decide (a.toNat < b.toNat)

/-- A number clamped to a range. -/
def clampInt (lo hi x : Int) : Int := max lo (min hi x)

/-- A number saturated to signed 32 bits, and whether it was changed. -/
def satSigned (x : Int) : Word × Bool :=
  let y := clampInt (-2147483648) 2147483647 x
  (BitVec.ofInt 32 y, y != x)

/-- A number saturated to unsigned 32 bits, and whether it was changed. -/
def satUnsigned (x : Int) : Word × Bool :=
  let y := clampInt 0 4294967295 x
  (BitVec.ofInt 32 y, y != x)

/-- Result and predicate of IADD (R241). -/
def addFlag (v : AddSat) (a b : Word) : Word × Bool :=
  match v with
  | .wrap => (a + b, carryAdd a b)
  | .sat => satSigned (a.toInt + b.toInt)
  | .usat => satUnsigned (a.toNat + b.toNat : Int)

/-- Result and predicate of ISUB (R241). -/
def subFlag (v : AddSat) (a b : Word) : Word × Bool :=
  match v with
  | .wrap => (a - b, borrowSub a b)
  | .sat => satSigned (a.toInt - b.toInt)
  | .usat => satUnsigned ((a.toNat : Int) - b.toNat)

/-- An integer condition (R252) on values of any width. -/
def ICond.holds {w : Nat} (cc : ICond) (a b : BitVec w) : Bool :=
  match cc with
  | .eq => a == b
  | .ne => a != b
  | .lt => a.slt b
  | .le => a.sle b
  | .gt => b.slt a
  | .ge => b.sle a
  | .ltu => a.ult b
  | .leu => a.ule b
  | .gtu => b.ult a
  | .geu => b.ule a

/-- A combination of two predicates (R253). -/
def PsetOp.apply (op : PsetOp) (a b : Bool) : Bool :=
  match op with
  | .and => a && b
  | .or => a || b
  | .xor => a != b

end Sys2Proof
end

