-- ==== Sys2Proof/Machine/Num.lean ====
section
/-! DEFINITION. The number formats and their arithmetic (R141 to R165): exact values, decoding, rounding, conversion, the
accumulator cells and the special functions. Every sum is exact and every result is rounded once. -/

namespace Sys2Proof

/-! ## Exact values -/

/-- An exact value: a NaN (signalling or quiet), an infinity, or (−1)^neg × mag × 2^exp. -/
inductive Exact where
  | nan (signalling : Bool)
  | inf (neg : Bool)
  | fin (neg : Bool) (mag : Nat) (exp : Int)
  deriving DecidableEq, Repr

/-- The exact value of an integer. -/
def Exact.ofInt (x : Int) : Exact := .fin (decide (x < 0)) x.natAbs 0

/-- +0. -/
def Exact.zero : Exact := .fin false 0 0

/-- Whether the value is a NaN. -/
def Exact.isNan : Exact → Bool
  | .nan _ => true
  | _ => false

/-- Whether the value is a signalling NaN. -/
def Exact.isSnan : Exact → Bool
  | .nan s => s
  | _ => false

/-- Whether the value is an infinity. -/
def Exact.isInf : Exact → Bool
  | .inf _ => true
  | _ => false

/-- Whether the value is a zero. -/
def Exact.isZero : Exact → Bool
  | .fin _ 0 _ => true
  | _ => false

/-- The sign bit; false for a NaN. -/
def Exact.neg : Exact → Bool
  | .nan _ => false
  | .inf n => n
  | .fin n _ _ => n

/-- The magnitude. -/
def Exact.abs : Exact → Exact
  | .nan s => .nan s
  | .inf _ => .inf false
  | .fin _ m e => .fin false m e

/-- The value times 2^k. -/
def Exact.scale (k : Int) : Exact → Exact
  | .fin n m e => .fin n m (e + k)
  | x => x

/-- The number of significant bits of a natural number. -/
def bitLen (n : Nat) : Nat := if n = 0 then 0 else n.log2 + 1

/-- m × 2^e compared with n × 2^f. -/
def cmpMag (m : Nat) (e : Int) (n : Nat) (f : Int) : Ordering :=
  let lo := min e f
  compare (m * 2 ^ (e - lo).toNat) (n * 2 ^ (f - lo).toNat)

/-- The signed integer of a finite value on the grid 2^lo, for lo at or below its exponent. -/
def gridInt (neg : Bool) (m : Nat) (e lo : Int) : Int :=
  let k : Int := m * 2 ^ (e - lo).toNat
  if neg then -k else k

/-- Order of two values that are no NaN; −0 equals +0 (R302). -/
def Exact.cmp : Exact → Exact → Ordering
  | .inf a, .inf b => if a == b then .eq else if a then .lt else .gt
  | .inf a, _ => if a then .lt else .gt
  | _, .inf b => if b then .gt else .lt
  | .fin a m e, .fin b n f =>
    let lo := min e f
    compare (gridInt a m e lo) (gridInt b n f lo)
  | _, _ => .eq

/-- Exact product, and whether it raises invalid (0 × ∞ or a signalling NaN). -/
def Exact.mul : Exact → Exact → Exact × Bool
  | .nan s, y => (.nan false, s || y.isSnan)
  | x, .nan t => (.nan false, t || x.isSnan)
  | .inf a, y => if y.isZero then (.nan false, true) else (.inf (a != y.neg), false)
  | x, .inf b => if x.isZero then (.nan false, true) else (.inf (x.neg != b), false)
  | .fin a m e, .fin b n f => (.fin (a != b) (m * n) (e + f), false)

/-- The running exact sum of R152 and R158: NaN met, invalid met, infinities met, and the finite part on a grid. -/
structure Acc96 where
  nan : Bool := false
  invalid : Bool := false
  posInf : Bool := false
  negInf : Bool := false
  int : Int := 0
  exp : Int := 0
  /-- Every addend so far is −0. -/
  allNegZero : Bool := true
  deriving DecidableEq, Repr

/-- One more addend. -/
def Acc96.add (s : Acc96) : Exact → Acc96
  | .nan sg => { s with nan := true, invalid := s.invalid || sg, allNegZero := false }
  | .inf n => { s with posInf := s.posInf || !n, negInf := s.negInf || n, allNegZero := false }
  | .fin n m e =>
    if m = 0 then { s with allNegZero := s.allNegZero && n }
    else
      let lo := min e s.exp
      { s with int := s.int * 2 ^ (s.exp - lo).toNat + gridInt n m e lo, exp := lo, allNegZero := false }

/-- The value of a running sum; `rd` is the mode toward −∞, in which an exact zero sum is −0 (R152). -/
def Acc96.value (s : Acc96) (rd : Bool) : Exact × Bool :=
  if s.nan then (.nan false, s.invalid)
  else if s.posInf && s.negInf then (.nan false, true)
  else if s.posInf || s.negInf then (.inf s.negInf, s.invalid)
  else if s.int = 0 then (.fin (s.allNegZero || rd) 0 0, s.invalid)
  else (.fin (decide (s.int < 0)) s.int.natAbs s.exp, s.invalid)

/-- Exact sum of a list of addends, and whether it raises invalid. -/
def sumExact (rd : Bool) (l : List Exact) : Exact × Bool := (l.foldl Acc96.add {}).value rd

/-- Exact sum of a first addend and of products, with the invalid of the products. -/
def sumProducts (rd : Bool) (x : Exact) (l : List (Exact × Exact)) : Exact × Bool :=
  let ps := l.map fun p => p.1.mul p.2
  let s := sumExact rd (x :: ps.map (·.1))
  (s.1, s.2 || ps.any (·.2))

/-! ## Float formats -/

/-- How a float format spends its top codes (R142, R143). -/
inductive TopCodes where
  /-- All-ones exponent: infinity and NaNs. -/
  | ieee
  /-- E4M3: S.1111.111 is the NaN, no infinity. -/
  | e4m3
  /-- Every code is finite. -/
  | allFinite
  deriving DecidableEq, Repr

/-- A float format: exponent bits, fraction bits, bias, use of the top codes. -/
structure FloatFmt where
  ebits : Nat
  fbits : Nat
  bias : Nat
  top : TopCodes
  deriving DecidableEq, Repr

/-- The float format of a code; F64 also for the formats that are not floats, which no caller asks for. -/
def Fmt.float : Fmt → FloatFmt
  | .f32 => ⟨8, 23, 127, .ieee⟩
  | .bf16 => ⟨8, 7, 127, .ieee⟩
  | .f16 => ⟨5, 10, 15, .ieee⟩
  | .e4m3 => ⟨4, 3, 7, .e4m3⟩
  | .e5m2 => ⟨5, 2, 15, .ieee⟩
  | .e3m2 => ⟨3, 2, 3, .allFinite⟩
  | .e2m3 => ⟨2, 3, 1, .allFinite⟩
  | .e2m1 => ⟨2, 1, 1, .allFinite⟩
  | _ => ⟨11, 52, 1023, .ieee⟩

namespace FloatFmt

/-- Bits of the format, the sign among them. -/
def width (f : FloatFmt) : Nat := f.ebits + f.fbits + 1

/-- The code of the largest finite magnitude. -/
def maxFinite (f : FloatFmt) : Nat :=
  match f.top with
  | .ieee => (2 ^ f.ebits - 1) * 2 ^ f.fbits - 1
  | .e4m3 => 2 ^ (f.ebits + f.fbits) - 2
  | .allFinite => 2 ^ (f.ebits + f.fbits) - 1

/-- The code of +∞ in a format that has one. -/
def infinity (f : FloatFmt) : Nat := (2 ^ f.ebits - 1) * 2 ^ f.fbits

/-- The canonical NaN (R152); 0 where the format has none. -/
def nanCode (f : FloatFmt) : Nat :=
  match f.top with
  | .ieee => (2 ^ f.ebits - 1) * 2 ^ f.fbits + 2 ^ (f.fbits - 1)
  | .e4m3 => 0x7F
  | .allFinite => 0

/-- Exponent of the last fraction bit of the subnormals. -/
def qmin (f : FloatFmt) : Int := 1 - (f.bias : Int) - f.fbits

/-- A code with a sign. -/
def withSign (f : FloatFmt) (neg : Bool) (code : Nat) : Nat :=
  if neg then code + 2 ^ (f.ebits + f.fbits) else code

/-- The exact value of a code (R142, R143). -/
def decode (f : FloatFmt) (x : Nat) : Exact :=
  let neg := x.testBit (f.ebits + f.fbits)
  let ex : Nat := (x / 2 ^ f.fbits) % 2 ^ f.ebits
  let fr := x % 2 ^ f.fbits
  if f.top = .ieee ∧ ex = 2 ^ f.ebits - 1 then
    if fr = 0 then .inf neg else .nan (!fr.testBit (f.fbits - 1))
  else if f.top = .e4m3 ∧ ex = 15 ∧ fr = 7 then .nan false
  else if ex = 0 then .fin neg fr f.qmin
  else .fin neg (2 ^ f.fbits + fr) (f.qmin + ex - 1)

end FloatFmt

/-! ## Rounding -/

/-- The integer quotient mag × 2^e ÷ 2^q rounded by a mode (R151), and whether it is inexact. -/
def roundAt (rnd : Rnd) (neg : Bool) (mag : Nat) (e q : Int) : Nat × Bool :=
  if q ≤ e then (mag * 2 ^ (e - q).toNat, false)
  else
    let s := (q - e).toNat
    let m := mag / 2 ^ s
    let r := mag % 2 ^ s
    let half := 2 ^ (s - 1)
    let up :=
      match rnd with
      | .rn => decide (half < r) || (r == half && m % 2 == 1)
      | .rz => false
      | .ru => !neg && r != 0
      | .rd => neg && r != 0
    (if up then m + 1 else m, r != 0)

/-- The grid exponent of a magnitude with `p` significant bits. -/
def gridOf (mag : Nat) (e : Int) (p : Nat) : Int := e + bitLen mag - p

/-- A finite magnitude rounded to a format as if its range had no upper end: code, inexact, tiny after rounding. -/
def FloatFmt.roundMag (f : FloatFmt) (rnd : Rnd) (neg : Bool) (mag : Nat) (e : Int) : Nat × Bool × Bool :=
  if mag = 0 then (0, false, false)
  else
    let g := gridOf mag e (f.fbits + 1)
    let q := max f.qmin g
    let r := roundAt rnd neg mag e q
    let u := roundAt rnd neg mag e g
    let tiny := cmpMag u.1 g 1 (f.qmin + f.fbits) == .lt
    ((q - f.qmin).toNat * 2 ^ f.fbits + r.1, r.2, tiny)

/-- Whether an overflow gives the infinity under a mode (R151, R153). -/
def overflowsToInf (rnd : Rnd) (neg : Bool) : Bool :=
  match rnd with
  | .rn => true
  | .rz => false
  | .ru => !neg
  | .rd => neg

/-- Rounding of a value to an IEEE format with the special values of R152: code and exceptions. With `sat`, overflow and
infinities give the largest finite value (R153). -/
def roundTo (f : FloatFmt) (rnd : Rnd) (sat : Bool) (x : Exact) : Nat × FloatEx :=
  match x with
  | .nan s => (f.nanCode, exWhen s exInvalid)
  | .inf n => (f.withSign n (if sat then f.maxFinite else f.infinity), exNone)
  | .fin n m e =>
    let r := f.roundMag rnd n m e
    if f.maxFinite < r.1 then
      (f.withSign n (if !sat && overflowsToInf rnd n then f.infinity else f.maxFinite), exOverflow ||| exInexact)
    else (f.withSign n r.1, exWhen r.2.1 exInexact ||| exWhen (r.2.1 && r.2.2) exUnderflow)

/-- A value rounded to an integer (R153); none for a NaN or an infinity. -/
def roundInt (rnd : Rnd) : Exact → Option (Int × Bool)
  | .fin n m e =>
    let r := roundAt rnd n m e 0
    some (if n then -(r.1 : Int) else r.1, r.2)
  | _ => none

/-- Conversion to an integer of `w` bits in two's complement (R153). -/
def convInt (w : Nat) (rnd : Rnd) (x : Exact) : Int × FloatEx :=
  let hi : Int := 2 ^ (w - 1) - 1
  let lo : Int := -(2 ^ (w - 1))
  match x with
  | .nan _ => (0, exInvalid)
  | .inf n => (if n then lo else hi, exInvalid)
  | x =>
    match roundInt rnd x with
    | some (v, inexact) =>
      if v < lo then (lo, exInvalid) else if hi < v then (hi, exInvalid) else (v, exWhen inexact exInexact)
    | none => (0, exNone)

/-- The bits of an integer in `w` bits. -/
def intBits (w : Nat) (v : Int) : Nat := (v % 2 ^ w).toNat

/-- Bits of a BX element, 0 for another format (R145). -/
def Fmt.bxBits : Fmt → Nat
  | .bx2 => 2 | .bx3 => 3 | .bx4 => 4 | .bx5 => 5 | .bx6 => 6 | .bx7 => 7 | .bx8 => 8
  | _ => 0

/-- Container width of an element in a register (R255). -/
def Fmt.container : Fmt → Nat
  | .f64 => 64
  | .f32 | .i32 => 32
  | .bf16 | .f16 => 16
  | .e2m1 | .bx3 | .bx4 => 4
  | .bx2 => 2
  | _ => 8

/-- The exact value of an element's container bits, before any block scale (R142 to R145). -/
def Fmt.dec (f : Fmt) (x : Nat) : Exact :=
  match f with
  | .i8 => .ofInt (BitVec.ofNat 8 x).toInt
  | .i32 => .ofInt (BitVec.ofNat 32 x).toInt
  | .bx2 | .bx3 | .bx4 | .bx5 | .bx6 | .bx7 | .bx8 =>
    (Exact.ofInt (BitVec.ofNat f.bxBits x).toInt).scale (2 - (f.bxBits : Int))
  | f => f.float.decode (x % 2 ^ f.float.width)

/-- An element times its block scale code; NaN for code 0xFF (R144). -/
def scaleBy (e : Nat) (x : Exact) : Exact := if e = 0xFF then .nan false else x.scale ((e : Int) - 127)

/-- Conversion of an exact value to the container bits of a format (R153); `scaled` says that the target is a scaled
element: E4M3 and E5M2 under .SC, and every format of `Fmt.scaled`. -/
def convert (tgt : Fmt) (rnd : Rnd) (sat scaled : Bool) (x : Exact) : Nat × FloatEx :=
  if scaled && (x.isNan || x.isInf) then (0, exInvalid)
  else
    match tgt with
    | .i8 | .i32 =>
      let r := convInt tgt.container rnd x
      (intBits tgt.container r.1, r.2)
    | .bx2 | .bx3 | .bx4 | .bx5 | .bx6 | .bx7 | .bx8 =>
      let top : Int := 2 ^ (tgt.bxBits - 1) - 1
      match roundInt rnd (x.scale ((tgt.bxBits : Int) - 2)) with
      | some (v, inexact) =>
        let c := clampInt (-top) top v
        (intBits tgt.container c, exWhen (inexact || c != v) exInexact)
      | none => (0, exInvalid)
    | tgt =>
      let f := tgt.float
      match f.top with
      | .ieee =>
        let r := roundTo f rnd sat x
        if scaled then (r.1, r.2 &&& ~~~exOverflow) else r
      | _ =>
        match x with
        | .nan s => (f.nanCode, exWhen s exInvalid)
        | .inf n => (f.withSign n f.maxFinite, exInexact)
        | .fin n m e =>
          let r := f.roundMag rnd n m e
          if f.maxFinite < r.1 then (f.withSign n f.maxFinite, exInexact)
          else (f.withSign n r.1, exWhen r.2.1 exInexact ||| exWhen (r.2.1 && r.2.2) exUnderflow)

/-- Largest finite value of a quantisation target with scale 2^0 (R146), as mag × 2^exp. -/
def Fmt.quantMax (f : Fmt) : Nat × Int :=
  match f with
  | .bx2 | .bx3 | .bx4 | .bx5 | .bx6 | .bx7 | .bx8 => (2 ^ (f.bxBits - 1) - 1, 2 - (f.bxBits : Int))
  | f =>
    match f.float.decode f.float.maxFinite with
    | .fin _ m e => (m, e)
    | _ => (0, 0)

/-- The block scale code for a largest magnitude (R146). -/
def blockScale (f : Fmt) (amax : Exact) : Nat :=
  match amax with
  | .fin _ m e =>
    if m = 0 then 0
    else
      let q := f.quantMax
      -- smallest k with m × 2^e ≤ max × 2^k
      let k0 := e + bitLen m - (q.2 + bitLen q.1)
      let k := if cmpMag m e q.1 (q.2 + k0) == .gt then k0 + 1 else k0
      (clampInt 0 254 (k + 127)).toNat
  | _ => 0xFF

/-! ## F32 and F64 arithmetic -/

/-- The exact value of an F32 pattern. -/
def f32 (w : Word) : Exact := Fmt.f32.float.decode w.toNat

/-- The exact value of an F64 pattern. -/
def f64 (x : Dword) : Exact := Fmt.f64.float.decode x.toNat

/-- a + b rounded once (R301). -/
def fAdd (f : FloatFmt) (rnd : Rnd) (a b : Exact) : Nat × FloatEx :=
  let s := sumExact (rnd == .rd) [a, b]
  let r := roundTo f rnd false s.1
  (r.1, r.2 ||| exWhen s.2 exInvalid)

/-- a × b rounded once (R301). -/
def fMul (f : FloatFmt) (rnd : Rnd) (a b : Exact) : Nat × FloatEx :=
  let p := a.mul b
  let r := roundTo f rnd false p.1
  (r.1, r.2 ||| exWhen p.2 exInvalid)

/-- a × b + c rounded once (R301). -/
def fFma (f : FloatFmt) (rnd : Rnd) (a b c : Exact) : Nat × FloatEx :=
  let s := sumProducts (rnd == .rd) c [(a, b)]
  let r := roundTo f rnd false s.1
  (r.1, r.2 ||| exWhen s.2 exInvalid)

/-- The smaller or larger of two values with their codes (R152): the number when one source is NaN, −0 below +0. -/
def fMinMax (f : FloatFmt) (wantMax : Bool) (a b : Nat) : Nat × FloatEx :=
  let x := f.decode a
  let y := f.decode b
  let ex := exWhen (x.isSnan || y.isSnan) exInvalid
  let less :=
    match x.cmp y with
    | .lt => true
    | .gt => false
    | .eq => x.neg && !y.neg
  if x.isNan && y.isNan then (f.nanCode, ex)
  else if x.isNan then (b, ex)
  else if y.isNan then (a, ex)
  else (if less != wantMax then a else b, ex)

/-- A float condition (R302), and the exceptions that it raises. -/
def fCompare (cc : FCond) (x y : Exact) : Bool × FloatEx :=
  let un := x.isNan || y.isNan
  let quietRaises :=
    match cc with
    | .lt | .le | .gt | .ge => true
    | _ => false
  let o := x.cmp y
  let r :=
    match cc with
    | .eq => !un && o == .eq
    | .ne => un || o != .eq
    | .lt => !un && o == .lt
    | .le => !un && o != .gt
    | .gt => !un && o == .gt
    | .ge => !un && o != .lt
    | .un => un
    | .ord => !un
  (r, exWhen (x.isSnan || y.isSnan || (un && quietRaises)) exInvalid)

/-- A product of integers, as a factor of one (R304): a zero that is an integer has no sign. -/
def intProduct (p : Exact × Exact) : Exact × Exact :=
  match (p.1.mul p.2).1 with
  | .fin n m e => (.fin (n && m != 0) m e, .ofInt 1)
  | x => (x, .ofInt 1)

/-- A dot product with its addend, rounded once to F32 (R304): any NaN makes it raise invalid. -/
def fDot (rnd : Rnd) (c : Exact) (ps : List (Exact × Exact)) : Nat × FloatEx :=
  let s := sumProducts (rnd == .rd) c ps
  let r := roundTo Fmt.f32.float rnd false s.1
  let nanTerm := ps.any fun p => p.1.isNan || p.2.isNan
  (r.1, r.2 ||| exWhen (s.2 || nanTerm) exInvalid)

/-! ## Accumulator cells (R155 to R158) -/

/-- Exponent of the last bit of a subnormal E96 significand. -/
def e96qmin : Int := -16382 - 79

/-- The exact value of a cell as E96 (R155). -/
def e96Value (c : BitVec 96) : Exact :=
  let x := c.toNat
  let neg := x.testBit 95
  let ex : Nat := (x / 2 ^ 80) % 2 ^ 15
  let sig : Nat := x % 2 ^ 80
  if ex = 0x7FFF then (if sig = 2 ^ 79 then .inf neg else .nan false)
  else if ex = 0 then .fin neg sig e96qmin
  else .fin neg sig (e96qmin + ex - 1)

/-- A value rounded to nearest-even into E96 (R155, R158), normalised. -/
def e96Round (x : Exact) : BitVec 96 :=
  match x with
  | .nan _ => 0x7FFFC0000000000000000000#96
  | .inf n => BitVec.ofNat 96 ((if n then 2 ^ 95 else 0) + 0x7FFF * 2 ^ 80 + 2 ^ 79)
  | .fin n m e =>
    let s := if n then 2 ^ 95 else 0
    if m = 0 then BitVec.ofNat 96 s
    else
      let q := max e96qmin (gridOf m e 80)
      let r := (roundAt .rn n m e q).1
      let big := r = 2 ^ 80
      let sig := if big then 2 ^ 79 else r
      let ex := if sig < 2 ^ 79 then 0 else (q - e96qmin).toNat + (if big then 2 else 1)
      if 0x7FFF ≤ ex then BitVec.ofNat 96 (s + 0x7FFF * 2 ^ 80 + 2 ^ 79)
      else BitVec.ofNat 96 (s + ex * 2 ^ 80 + sig)

/-- The exact value of a cell as I96 (R156). -/
def i96Value (c : BitVec 96) : Exact := (Exact.ofInt c.toInt).scale (-48)

/-- A finite value rounded to nearest-even on the grid 2^−48 and saturated (R156); NaN terms have been left out. -/
def i96Round (x : Exact) : BitVec 96 :=
  match roundInt .rn (x.scale 48) with
  | some (v, _) => BitVec.ofInt 96 (clampInt (-(2 ^ 95)) (2 ^ 95 - 1) v)
  | none => 0

/-- The value of a cell under a class (R157). -/
def cellValue (i96 : Bool) (c : BitVec 96) : Exact := if i96 then i96Value c else e96Value c

/-- One K-step: the cell's value and the step's products summed exactly and rounded once (R158). In the integer class a
product with a NaN element adds nothing. -/
def cellStep (i96 : Bool) (c : BitVec 96) (ps : List (Exact × Exact)) : BitVec 96 :=
  if i96 then i96Round (sumProducts false (i96Value c) (ps.filter fun p => !p.1.isNan && !p.2.isNan)).1
  else e96Round (sumProducts false (e96Value c) ps).1

/-- The K-steps of one cell, in ascending k (R158): `steps` is fuel. -/
def cellSteps (i96 : Bool) (kstep : Nat) : Nat → BitVec 96 → List (Exact × Exact) → BitVec 96
  | 0, c, _ => c
  | n + 1, c, ps =>
    match ps with
    | [] => c
    | ps => cellSteps i96 kstep n (cellStep i96 c (ps.take kstep)) (ps.drop kstep)

/-! ## Special functions (R164, R165) -/

/-- Fixed-point numbers of the reference functions: integers on the grid 2^−fx. -/
def fx : Nat := 128

/-- A finite value on the fixed-point grid, rounded down. -/
def toFx : Exact → Int
  | .fin n m e =>
    let k : Int := e + fx
    let v : Int := if 0 ≤ k then (m * 2 ^ k.toNat : Nat) else (m / 2 ^ (-k).toNat : Nat)
    if n then -v else v
  | _ => 0

/-- A fixed-point number as an exact value. -/
def ofFx (x : Int) : Exact := (Exact.ofInt x).scale (-(fx : Int))

/-- Product of fixed-point numbers. -/
def mulFx (a b : Int) : Int := a * b / 2 ^ fx

/-- Σ of a Taylor series: `t` the current term, `k` the index of the next factor, `n` fuel; each term is the last times
`x` divided by the product of the `step` next integers, with its sign changed when `alt`. -/
def taylorFx (x : Int) (step : Nat) (alt : Bool) : Nat → Nat → Int → Int
  | 0, _, _ => 0
  | n + 1, k, t =>
    let d : Int := if step = 1 then k else k * (k + 1)
    let t' := mulFx t x / d
    t + taylorFx x step alt n (k + step) (if alt then -t' else t')

/-- ln 2 on the grid 2^−128. -/
def ln2Fx : Int := 235865763225513294137944142764154484399

/-- 2π on the grid 2^−128. -/
def twoPiFx : Int := 2138057168129933495719360746323741566601

/-- e^x for a fixed-point x of magnitude below 1. -/
def expFx (x : Int) : Int := taylorFx x 1 false 40 1 (2 ^ fx)

/-- 2^x of a finite source, as an exact value close to it. -/
def refExp2 (x : Exact) : Exact :=
  let v := toFx x
  let n := v / 2 ^ fx
  let f := v % 2 ^ fx
  (ofFx (expFx (mulFx f ln2Fx))).scale n

/-- Bits of log2 of a fixed-point m in [1, 2), by squaring. -/
def log2Bits : Nat → Int → Int
  | 0, _ => 0
  | n + 1, m =>
    let q := mulFx m m
    if 2 ^ (fx + 1) ≤ q then 2 ^ n + log2Bits n (q / 2) else log2Bits n q

/-- log2 x of a positive finite source. -/
def refLog2 (m : Nat) (e : Int) : Exact :=
  let l := bitLen m
  let frac := log2Bits 60 ((m : Int) * 2 ^ (fx + 1) / 2 ^ l)
  (Exact.ofInt ((e + l - 1) * 2 ^ 60 + frac)).scale (-60)

/-- sin x, or cos x, of a finite source with |x| ≤ 2^15. -/
def refSinCos (cosine : Bool) (x : Exact) : Exact :=
  let r := toFx x % twoPiFx
  let v := if 2 * r ≤ twoPiFx then r else r - twoPiFx
  let v2 := mulFx v v
  ofFx (if cosine then taylorFx v2 2 true 40 1 (2 ^ fx) else taylorFx v2 2 true 40 2 v)

/-- tanh |x| ÷ |x| for a small source, and tanh |x| otherwise, as an exact value of the magnitude. -/
def refTanh (m : Nat) (e : Int) : Exact :=
  if cmpMag m e 1 (-12) == .lt then
    let x2 := toFx (.fin false (m * m) (2 * e))
    let c : Int := 2 ^ fx - x2 / 3 + 2 * mulFx x2 x2 / 15
    .fin false (m * c.natAbs) (e - fx)
  else if cmpMag m e 20 0 == .gt then .fin false (2 ^ 60 - 1) (-60)
  else
    -- (1 − 2^−y) ÷ (1 + 2^−y) with y = 2x ÷ ln 2
    let y := 2 * toFx (.fin false m e) * 2 ^ fx / ln2Fx
    let t := toFx (refExp2 (ofFx (-y)))
    ofFx ((2 ^ fx - t) * 2 ^ fx / (2 ^ fx + t))

/-- Exponent of the unit in the last place of F32 at a magnitude (R164). -/
def ulp32 (m : Nat) (e : Int) : Int := max Fmt.f32.float.qmin (gridOf m e 24)

/-- The same just below a magnitude: it is smaller where the magnitude is a power of 2. -/
def ulpBelow (m : Nat) (e : Int) : Int := ulp32 (2 * m - 1) (e - 1)

/-- Whether |v − y| ≤ k × 2^u for finite values, where y is reached (`.eq`), or is approached from below (`.lt`) or from above
(`.gt`) closer than any F32 value. -/
def withinUlps (v y : Exact) (k : Nat) (u : Int) (side : Ordering := .eq) : Bool :=
  match v, y with
  | .fin a m e, .fin b n f =>
    let lo := min u (min e f)
    let d := gridInt a m e lo - gridInt b n f lo
    let lim : Int := k * 2 ^ (u - lo).toNat
    decide (d < lim || d == lim && side != .lt) && decide (-lim < d || d == -lim && side != .gt)
  | _, _ => false

/-- Whether a result is subnormal or zero. -/
def isTiny32 (w : Word) : Bool :=
  match f32 w with
  | .fin _ m e => cmpMag m e 1 (-126) == .lt
  | _ => false

/-- The proposed result where it keeps the bound, and otherwise the reference value rounded to nearest. -/
def takeWithin (v : Word) (ok : Bool) (ref : Exact) : Word :=
  if ok then v else BitVec.ofNat 32 (roundTo Fmt.f32.float .rn false ref).1

/-- Exceptions of a special function's finite result (R164, R165). -/
def specialEx (r : Word) (exact : Bool) : FloatEx :=
  match f32 r with
  | .inf _ => exOverflow ||| exInexact
  | .fin _ m e =>
    exWhen (!exact) exInexact ||| exWhen (!exact && cmpMag m e 1 (-126) == .lt) exUnderflow
  | .nan _ => exNone

/-- The canonical F32 NaN. -/
def nan32 : Word := 0x7FC00000

/-- Result of a NaN source: the canonical NaN, with invalid if it signals (R165). -/
def nanResult (s : Bool) : Word × FloatEx := (nan32, exWhen s exInvalid)

/-- ±∞ in F32. -/
def inf32 (neg : Bool) : Word := if neg then 0xFF800000 else 0x7F800000

/-- ±0 in F32. -/
def zero32 (neg : Bool) : Word := if neg then 0x80000000 else 0

/-- A word with its sign bit set to `neg`. -/
def setSign (neg : Bool) (w : Word) : Word := (w &&& 0x7FFFFFFF) ||| zero32 neg

/-- FSQRT, correctly rounded (R164). -/
def fSqrt (rnd : Rnd) (w : Word) : Word × FloatEx :=
  match f32 w with
  | .nan s => nanResult s
  | .inf n => if n then (nan32, exInvalid) else (inf32 false, exNone)
  | .fin n m e =>
    if m = 0 then (w, exNone)
    else if n then (nan32, exInvalid)
    else
      let k := 64 + (e % 2).toNat
      let big := m * 2 ^ k
      let root := Nat.sqrt big
      let sticky := if root * root = big then 0 else 1
      let r := roundTo Fmt.f32.float rnd false (.fin false (2 * root + sticky) ((e - k) / 2 - 1))
      (BitVec.ofNat 32 r.1, r.2)

/-- FRCP: within 1 ulp of 1 ÷ x, and subnormal or zero for |x| > 2^126 (R164, R165). The exact quotient lies between `q` and
`q + 1` units of 2^−g. Where it exceeds every finite F32 value, R164 and R165 name no result: it overflows as R152 has IEEE 754
do, to infinity with overflow and inexact, unless the proposal is a finite value within the bound (DEDUCED, log 102). -/
def fRcp (w : Word) : Word × FloatEx :=
  match f32 w with
  | .nan s => nanResult s
  | .inf n => (zero32 n, exNone)
  | .fin n m e =>
    if m = 0 then (inf32 n, exDivZero)
    else
      let q := 2 ^ 100 / m
      let sticky := if 2 ^ 100 % m = 0 then 0 else 1
      let ref := Exact.fin false (2 * q + sticky) (-e - 101)
      let u := ulp32 (2 * q) (-e - 101)
      let v := Config.special 0 w &&& 0x7FFFFFFF
      -- |v − 1 ÷ x| ≤ 2^u  as  |v × x − 1| ≤ 2^u × x
      let ok :=
        match f32 v with
        | .fin _ a f => withinUlps (.fin false (a * m) (f + e)) (.fin false 1 0) m (u + e)
        | .inf _ => cmpMag 1 (-e) (m * 0xFFFFFF) 104 == .gt
        | .nan _ => false
      let r := takeWithin v (ok && (cmpMag m e 1 126 != .gt || isTiny32 v)) ref
      let exact :=
        match f32 r with
        | .fin _ a f => cmpMag (a * m) (f + e) 1 0 == .eq
        | _ => false
      (setSign n r, specialEx r exact)

/-- FRSQ: within 1 ulp of 1 ÷ √x (R164). -/
def fRsq (w : Word) : Word × FloatEx :=
  match f32 w with
  | .nan s => nanResult s
  | .inf n => if n then (nan32, exInvalid) else (zero32 false, exNone)
  | .fin n m e =>
    if m = 0 then (inf32 n, exDivZero)
    else if n then (nan32, exInvalid)
    else
      let k := 200 + (e % 2).toNat
      let root := Nat.sqrt (2 ^ k / m)
      -- 1 ÷ √x on the grid 2^((−e − k) ÷ 2), rounded down
      let ge : Int := (-e - k) / 2
      let u := ulp32 root ge
      let v := Config.special 1 w &&& 0x7FFFFFFF
      let ok :=
        match f32 v with
        | .fin _ a f =>
          let lo := min f u
          let vi : Int := a * 2 ^ (f - lo).toNat
          let ui : Int := 2 ^ (u - lo).toNat
          let hiN := (vi + ui).natAbs
          let loN := (max 0 (vi - ui)).natAbs
          cmpMag (loN * loN * m) (2 * lo + e) 1 0 != .gt && cmpMag (hiN * hiN * m) (2 * lo + e) 1 0 != .lt
        | _ => false
      let r := takeWithin v ok (.fin false (2 * root + 1) (ge - 1))
      let exact :=
        match f32 r with
        | .fin _ a f => cmpMag (a * a * m) (2 * f + e) 1 0 == .eq
        | _ => false
      (r, specialEx r exact)

/-- FEXP2: within 2 ulp of 2^x (R164), and subnormal or zero for x < −126, where it is exact for an integer x that has an exact
result (R165; that FEXP2(−130) stands for the others is DEDUCED, log 10). -/
def fExp2 (w : Word) : Word × FloatEx :=
  match f32 w with
  | .nan s => nanResult s
  | .inf n => if n then (zero32 false, exNone) else (inf32 false, exNone)
  | .fin n m e =>
    if m = 0 then (0x3F800000, exNone)
    else if !n && cmpMag m e 128 0 != .lt then (inf32 false, exOverflow ||| exInexact)
    else
      -- below −4096 every result within 2 ulp of 2^x is a result within 2 ulp of 2^−4096
      let x := if n && cmpMag m e 4096 0 == .gt then Exact.fin true 4096 0 else .fin n m e
      let ref := refExp2 x
      let v := Config.special 2 w &&& 0x7FFFFFFF
      let whole := (roundInt .rz x).filter fun p => !p.2
      let side : Ordering := if whole.isSome then .eq else if n then .lt else .gt
      let low := n && cmpMag m e 126 0 == .gt
      let ok :=
        match ref with
        | .fin _ a f => withinUlps (f32 v) ref 2 (if side = .lt then ulpBelow a f else ulp32 a f) side
        | _ => false
      let r := takeWithin v (ok && (!low || isTiny32 v && !(whole.any fun p => decide (-149 ≤ p.1)))) ref
      let exact := whole.any fun p => (f32 r).cmp (.fin false 1 p.1) == .eq
      (r, specialEx r exact)

/-- FLOG2: within 2 ulp of log2 x, or within 2^−22 on [0.5, 2] (R164, R165). -/
def fLog2 (w : Word) : Word × FloatEx :=
  match f32 w with
  | .nan s => nanResult s
  | .inf n => if n then (nan32, exInvalid) else (inf32 false, exNone)
  | .fin n m e =>
    if m = 0 then (inf32 true, exDivZero)
    else if n then (nan32, exInvalid)
    else
      let ref := refLog2 m e
      let near := cmpMag m e 1 (-1) != .lt && cmpMag m e 2 0 != .gt
      let v := Config.special 3 w
      let ok :=
        match ref with
        | .fin _ a f => withinUlps (f32 v) ref (if near then 1 else 2) (if near then -22 else ulp32 a f)
        | _ => false
      let r := takeWithin v ok ref
      let pow2 := m = 2 ^ (bitLen m - 1)
      let exact := decide pow2 && (f32 r).cmp (.ofInt (e + bitLen m - 1)) == .eq
      (r, specialEx r exact)

/-- FSIN and FCOS (R164, R165). -/
def fSinCos (cosine : Bool) (w : Word) : Word × FloatEx :=
  match f32 w with
  | .nan s => nanResult s
  | .inf _ => (nan32, exInvalid)
  | .fin n m e =>
    if m = 0 then (if cosine then (0x3F800000, exNone) else (w, exNone))
    else
      let x := Exact.fin n m e
      let v := Config.special (if cosine then 5 else 4) w
      let inDomain := cmpMag m e 1 15 != .gt
      -- below 2^−40 the results lie just inside x and 1, closer than any F32 value
      let small := cmpMag m e 1 (-40) == .lt
      let ref := if small then (if cosine then .fin false 1 0 else x) else if inDomain then refSinCos cosine x else .zero
      let side : Ordering := if !small then .eq else if n && !cosine then .gt else .lt
      let ok :=
        if inDomain then withinUlps (f32 v) ref 1 (-21) side
        else
          match f32 v with
          | .fin _ a f => cmpMag a f 1 0 != .gt
          | _ => false
      let r := takeWithin v ok ref
      (r, specialEx r false)

/-- FTANH: within 2 ulp of tanh x (R164, R165). -/
def fTanh (w : Word) : Word × FloatEx :=
  match f32 w with
  | .nan s => nanResult s
  | .inf n => (if n then 0xBF800000 else 0x3F800000, exNone)
  | .fin n m e =>
    if m = 0 then (w, exNone)
    else
      let ref := refTanh m e
      let v := Config.special 6 w &&& 0x7FFFFFFF
      let ok :=
        match ref with
        | .fin _ a f => withinUlps (f32 v) ref 2 (ulpBelow a f) .lt
        | _ => false
      let r := takeWithin v ok ref
      (setSign n r, specialEx r false)

end Sys2Proof
end

