-- ==== Sys2Proof/Machine/Map.lean ====
section
/-! DEFINITION. Sparse maps from natural-number keys as lists in ONE canonical form: keys strictly rising, and no entry
equal to what an unlisted key reads as. Memory, the scratchpads, the accumulator stores and every table of units are
such maps, so equal contents are equal data. -/

namespace Sys2Proof.Machine

/-- A sparse map as a list of keys and values. -/
abbrev SMap (α : Type) := List (Nat × α)

/-- The value at key `i`; `d` where `i` is not listed. -/
def SMap.get {α : Type} (d : α) : SMap α → Nat → α
  | [], _ => d
  | (k, v) :: t, i => if i = k then v else if i < k then d else SMap.get d t i

/-- The map with `v` at key `i`; storing `d` removes the entry. -/
def SMap.set {α : Type} [DecidableEq α] (d : α) : SMap α → Nat → α → SMap α
  | [], i, v => if v = d then [] else [(i, v)]
  | (k, w) :: t, i, v =>
    if i < k then (if v = d then (k, w) :: t else (i, v) :: (k, w) :: t)
    else if i = k then (if v = d then t else (k, v) :: t)
    else (k, w) :: SMap.set d t i v

/-- The map with the value at key `i` changed by `f`. -/
def SMap.upd {α : Type} [DecidableEq α] (d : α) (m : SMap α) (i : Nat) (f : α → α) : SMap α :=
  SMap.set d m i (f (SMap.get d m i))

/-- The canonical form: keys strictly rising from `lo` on, no entry equal to the default. -/
def SMap.wfFrom {α : Type} [DecidableEq α] (d : α) : Nat → SMap α → Bool
  | _, [] => true
  | lo, (k, v) :: t => decide (lo ≤ k) && decide (v ≠ d) && SMap.wfFrom d (k + 1) t

/-- The canonical form of a sparse map. -/
def SMap.wf {α : Type} [DecidableEq α] (d : α) (m : SMap α) : Bool := SMap.wfFrom d 0 m

/-- The canonical form of a memory: physical bytes, or scratchpad bytes; an unlisted byte reads as zero. -/
def Memory.wf (m : SMap Byte) : Bool := SMap.wf 0 m

/-- Membership in a strictly rising list of keys kept as a set. -/
def keyMem : List Nat → Nat → Bool
  | [], _ => false
  | k :: t, i => if i = k then true else if i < k then false else keyMem t i

/-- A strictly rising list of keys with `i` in it. -/
def keyInsert : List Nat → Nat → List Nat
  | [], i => [i]
  | k :: t, i => if i < k then i :: k :: t else if i = k then k :: t else k :: keyInsert t i

/-- A strictly rising list of keys without `i`. -/
def keyErase : List Nat → Nat → List Nat
  | [], _ => []
  | k :: t, i => if i < k then k :: t else if i = k then t else k :: keyErase t i

end Sys2Proof.Machine
end

