-- ==== Sys2Proof/Machine/State.lean ====
section
/-! DEFINITION. The state of the device as plain data: everything the manual gives it, listed with the rule that names it
in INVENTORY.md, and `State.reset`. Where a field carries a default, that default is its value after a cold reset. -/

namespace Sys2Proof.Machine

/-! ## Faults and refusals -/

/-- Why the model stops with a fault. -/
inductive Fault where
  /-- `exec` of an instruction word while no agent of the right kind executes (`State.cur`). Raised by the shared
  operations that look up the executing agent. Safe: no run of `step` reaches it, because `step` sets `cur`. -/
  | noActor
  deriving DecidableEq, Repr

/-- Why the model gives no meaning. -/
inductive Refusal where
  /-- An instruction of the table without a meaning yet, by its mnemonic. Raised by `exec` only. Safe: nothing is
  claimed of it. -/
  | notModelled (mnemonic : String)
  deriving DecidableEq, Repr

/-! ## Registers and threads -/

/-- A general or group-uniform register: 32 bits and its format tag (R15, R147). -/
structure Reg where
  val : Word := 0
  tag : Tag := .raw
  deriving DecidableEq, Repr

/-- Privilege states (R343). -/
inductive Priv where
  | u | h | f
  deriving DecidableEq, Repr

/-- The trap frame of a thread (R349). -/
structure TrapFrame where
  detail1 : Dword := 0
  detail0 : Dword := 0
  faddr : Dword := 0
  iword : Dword := 0
  tpc : Dword := 0
  sibmask : Word := 0
  ranks : Word := 0
  task : Word := 0
  preds : BitVec 7 := 0
  skid : BitVec 8 := 0
  frank : BitVec 8 := 0
  parent : BitVec 5 := 0
  frag : BitVec 5 := 0
  adopt : BitVec 4 := 0
  state : BitVec 2 := 0
  cause : BitVec 8 := 0
  deriving DecidableEq, Repr

/-- Kinds of access in a fault record (R423). -/
inductive Acc where
  | read | write | rmw | fetch
  deriving DecidableEq, Repr

/-- What a parked thread waits for (R80). -/
inductive Cond where
  /-- WAIT: the future at this address leaves EMPTY, or the deadline (elapsed ns) passes (R68). -/
  | future (va : Dword) (deadline : Option Nat)
  /-- WAIT.BIT: this bit of this dword is 1 (R55). -/
  | bit (va : Dword) (n : Nat)
  /-- BAR: the generation of the object at this address differs from `gen` (R53). -/
  | barrier (va : Dword) (gen : Word)
  /-- BIND: the forming set completes (R37). -/
  | bind
  /-- RPOP: the ring has a filled entry (R95). -/
  | ring (n : Nat)
  /-- WTAG: the counter of tag `t` is at most `m` (R107). -/
  | tag (t m : Nat)
  /-- MEET: the merge-stack entry completes (R45). -/
  | meet
  /-- SHIP: the full queue of its home has refused its request (R170). -/
  | refused (lc : Nat)
  /-- SHIP.W accepted: its section ends (R166). -/
  | shipRun
  /-- EXIT waits for the thread's copies (R109). -/
  | copies
  /-- The thread's own condition is met, or it has none: it waits for the other threads of its fragment (R47). `done`: its
  instruction is complete, and it goes on at PC + 8. -/
  | unit (done : Bool)
  deriving DecidableEq, Repr

/-- The state of a thread (R80). -/
inductive Status where
  | ready
  | parked (c : Cond)
  /-- Its SHIP has been offered to this home, which has not yet accepted or refused it: the thread is not parked, and issues
  nothing (R169, R289). -/
  | offered (lc : Nat)
  /-- Parked on a recoverable page fault with its fault ID and address (R425). -/
  | fault (fid : Nat) (va : Dword)
  /-- A trap was raised; the thread waits to enter its handler, or for the debugger when `dbg` (R347). -/
  | trapped (dbg : Bool)
  /-- The waiter of an adoption: its state is in a frame (R73). -/
  | adopting
  deriving DecidableEq, Repr

/-- Where a thread is (R29). -/
inductive Place where
  | core (die core lane slot : Nat)
  /-- A shipped section on this latency core, 0 to 63. -/
  | lc (n : Nat)
  /-- In an adoption frame, under the slot it returns to (R73). -/
  | frame (die core lane slot : Nat)
  /-- In its task's image, on this lane (R430). -/
  | saved (lane : Nat)
  deriving DecidableEq, Repr

/-- One register of a pending long-latency result (R223, R224). -/
structure Pend where
  reg : Nat
  val : Reg
  /-- False while an engine has not yet produced the value. -/
  known : Bool := true
  /-- Instructions of the window that may still issue (LA > 0); none with LA = 0, where only an instruction that reads the
  register waits. -/
  left : Option Nat
  /-- Sequence number of the engine command that produces it (R321). -/
  src : Nat := 0
  deriving DecidableEq, Repr

/-- How SHIP returns its results (R166). -/
inductive ShipKind where
  | w | c | o
  deriving DecidableEq, Repr

/-- Who sent a request (R166, R168). -/
inductive ShipFrom where
  /-- A thread of this device; a section counts as one. -/
  | thread (tid : Nat)
  /-- Another device: its node, its operation number and the number of its message. -/
  | remote (node op seq : Nat)
  deriving DecidableEq, Repr

/-- A request of a shipped section (R166). -/
structure ShipReq where
  sender : ShipFrom
  /-- The context in which the section runs, which is told of a fault. -/
  ctx : Nat
  entry : Dword
  lock : Dword
  kind : ShipKind
  args : List Word
  /-- Result count. -/
  m : Nat
  /-- First register and span of SHIP.W results and its predicate destination (R288). -/
  reg : Nat := 0
  span : Nat := 0
  pd : Nat := 7
  /-- Token address of SHIP.C. -/
  token : Dword := 0
  /-- The sender's task handle. -/
  task : Word
  /-- Whether its sender waits where the home is full: a section does not (R170). -/
  waits : Bool := true
  deriving DecidableEq, Repr

/-- A running section (R172, R178). -/
structure SectionInfo where
  req : ShipReq
  /-- Elapsed nanoseconds at its first instruction. -/
  start : Nat
  deriving DecidableEq, Repr

/-- What step 1 of a QPUSH or QPOP has decided (R295, R296). -/
structure QClaim where
  /-- Address of the instruction. -/
  pc : Dword
  obj : Dword
  bucket : Nat := 0
  slot : Nat := 0
  /-- Address of the entry: none where the bucket was full, or empty. -/
  entry : Option Dword := none
  deriving DecidableEq, Repr

/-- A thread (R29, R30), or a shipped section on a latency core (R172). -/
structure Thread where
  tid : Nat
  task : Nat
  ctx : Nat
  place : Place
  pc : Dword
  /-- The registers below the register count, in order (R16). -/
  regs : List Reg
  preds : BitVec 7 := 0
  /-- On-chip return stack, newest first, at most 8 entries (R265). -/
  rstack : List Dword := []
  /-- Entries in the spill area (R265). -/
  spilled : Nat := 0
  tlsBase : Dword := 0
  tlsBytes : Nat := 0
  spillBytes : Nat := 0
  prio : Nat := 0
  priv : Priv := .u
  frame : TrapFrame := {}
  status : Status := .ready
  /-- Halted under STOPCTX (R49); its status is kept beside it. -/
  halted : Bool := false
  /-- Instructions issued since STOPCTX took effect, while it halts. -/
  skid : Option Nat := none
  /-- Handler entry of the kernel header, if any (R366). -/
  handler : Option Dword := none
  /-- Trap-enable mask of the kernel header (R154). -/
  trapEn : BitVec 5 := 0
  /-- Bound group and rank (R37). -/
  member : Option (Nat × Nat) := none
  /-- Rank within its task, 0 for a free thread; the role of a gang thread. -/
  rank : Nat := 0
  role : Nat := 0
  pend : List Pend := []
  /-- Prefetched words: address and word, at most 8 (R139). -/
  prefetch : List (Dword × Dword) := []
  /-- Elapsed time at which a WAIT under way began (R68). -/
  waitStart : Option Nat := none
  /-- The claims of QPOPs under way, by the addresses of their instructions: a trap keeps a claim while its handler executes
  QPOPs of its own (R296). -/
  popClaims : List QClaim := []
  /-- The reservation of a QPUSH under way (R295). -/
  pushClaim : Option QClaim := none
  /-- The request of a SHIP that its home had refused when the thread was saved: it is sent again (R170). -/
  resend : Option ShipReq := none
  /-- An adoption ended with the owner saved Trapped; the next WAIT evaluation returns OWNER_FAULTED (R77). -/
  ownerFaulted : Bool := false
  /-- The deadline of the WAIT under way has passed (R68). -/
  timedOut : Bool := false
  section_ : Option SectionInfo := none
  /-- When it last became ready (R33, R34). -/
  age : Nat := 0
  /-- Its next instruction waited for a source or a unit when its core last formed a beam (R32, R80). -/
  stalled : Bool := false
  /-- Its trap or page fault waits for results that are still to come (R225). -/
  trapWait : Bool := false
  deriving DecidableEq, Repr

/-! ## Groups -/

/-- A merge-stack entry (R38, R45). -/
structure Merge where
  pc : Dword
  mask : BitVec 32
  arrived : BitVec 32 := 0
  deriving DecidableEq, Repr

/-- The state of a fragment (R50). -/
inductive FragState where
  | active
  /-- Parked at MEET, at this merge-stack position counted from the bottom. -/
  | atMeet
  | trapped
  deriving DecidableEq, Repr

/-- A fragment (R38, R43). -/
structure Frag where
  id : Nat
  mask : BitVec 32
  parent : Nat
  state : FragState := .active
  /-- Halted beside a trapped sibling (R48); its state is kept beside it. -/
  halted : Bool := false
  /-- Instructions issued since a sibling's trap, while halting (R48). -/
  skid : Option Nat := none
  /-- It halts, or has halted, under STOPCTX: the debugger alone lets it go on (R49, R354). -/
  stop : Bool := false
  deriving DecidableEq, Repr

/-- A bound group (R37, R38). -/
structure Group where
  gid : Nat
  /-- Core-local group number (R308). -/
  num : Nat
  ctx : Nat
  die : Nat
  core : Nat
  /-- Thread of each rank; a rank keeps its place after its thread exits. -/
  members : List Nat
  /-- Ranks whose threads have exited (R41). -/
  exited : BitVec 32 := 0
  sregs : List Reg := List.replicate 64 {}
  /-- The tile size T (R39). -/
  tile : Nat
  /-- Merge stack, bottom first. -/
  merge : List Merge := []
  frags : List Frag
  /-- Saved with its tasks (R78). -/
  saved : Bool := false
  deriving DecidableEq, Repr

/-! ## Tasks and futures -/

/-- A gang role (R368). -/
structure Role where
  entOff : Word := 0
  regs : Nat := 0
  count : Nat := 0
  deriving DecidableEq, Repr

/-- A kernel header (R366). -/
structure KHdr where
  regs : Nat
  bind : Nat := 1
  lspad : Nat := 0
  tls : Nat := 0
  spill : Nat := 0
  trapEn : BitVec 5 := 0
  hasTrap : Bool := false
  trapOff : Word := 0
  gang : Bool := false
  roles : List Role := []
  deriving DecidableEq, Repr

/-- Kinds of a task record (R56). -/
inductive TKind where
  | single | range | gang
  deriving DecidableEq, Repr

/-- A task record (R56), with the header it was read with (R281, R407) and the model's bookkeeping of it. -/
structure QRec where
  /-- Hardware record number (R64). -/
  num : Nat
  ctx : Nat
  kind : TKind := .single
  prio : Nat := 0
  entry : Dword
  args : List Word
  fut : Dword := 0
  baseIdx : Dword := 0
  count : Nat := 1
  hdr : KHdr
  /-- Task set that a range belongs to. -/
  set : Option Nat := none
  /-- First unstarted index and end of the unstarted range. -/
  next : Nat := 0
  stop : Nat := 1
  /-- Elapsed time at which it was first passed over (R58). -/
  passed : Option Nat := none
  /-- Elapsed time at which it put its core into held admission (R58, R61). -/
  heldAt : Option Nat := none
  /-- Refinement block and its step whose task this is (R196). -/
  rfb : Option Nat := none
  /-- Queue and packet that launched it (R405). -/
  launch : Option (Nat × Nat) := none
  /-- Owned futures of an unstarted record (R65). -/
  owned : List Dword := []
  deriving DecidableEq, Repr

/-- A scratchpad allocation of a core (R88): base and size in bytes, and whether its task has ended. -/
structure Alloc where
  base : Nat
  size : Nat
  task : Nat
  ended : Bool := false
  deriving DecidableEq, Repr

/-- A task set under way (R60, R75). -/
structure TaskSet where
  id : Nat
  ctx : Nat
  fut : Dword
  count : Nat
  ended : Nat := 0
  faulted : Nat := 0
  firstCause : BitVec 8 := 0
  /-- Task of the original record that started last (R75). -/
  lastTask : Option Nat := none
  /-- Record number of the original record, while it holds unstarted indices. -/
  orig : Option Nat := none
  launch : Option (Nat × Nat) := none
  deriving DecidableEq, Repr

/-! ## Asynchronous work -/

/-- A decoded operand descriptor (R90). -/
structure OpDesc where
  base : Nat
  /-- Row pitch in bytes. -/
  rowBytes : Nat
  tilePitch : Nat
  rot : Nat
  deriving DecidableEq, Repr

/-- An outstanding or failed asynchronous copy (R106, R108). -/
structure LdaCopy where
  id : Nat
  /-- Issue order among all writers of scratchpads (R115). -/
  seq : Nat
  tid : Nat
  ctx : Nat
  tag : Nat
  /-- Core-wide key of the destination in `State.scratch`. -/
  dst : Nat
  size : Nat
  src : Dword
  n : Nat
  /-- The source bytes, once they have been read: at issue, where the source could be read then (R124). -/
  got : Option (List Byte) := none
  /-- The 8-byte parts of the destination that have landed (R119). -/
  parts : List Nat := []
  /-- Waiting on this fault ID. -/
  fid : Option Nat := none
  /-- Its failure, unreported (R108), and whether a malformed entry of the tables caused it (R421). -/
  failed : Option (BitVec 8) := none
  malformed : Bool := false
  /-- Its cache hint, for the read of its source (R87, R226). -/
  ch : Nat := 0
  deriving DecidableEq, Repr

/-- The operands of an MMA or MMAS command (R324, R325). -/
structure MmaOp where
  afmt : Fmt
  bfmt : Fmt
  /-- 0 dense, 1 is 2:4, 2 is 1:2. -/
  pat : Nat
  row0 : Nat
  rows : Nat
  cols : Nat
  k : Nat
  clr : Bool
  sca : Bool
  scb : Bool
  da : OpDesc
  db : OpDesc
  deriving DecidableEq, Repr

/-- Where one rank's ACC.RD puts its cell (R321). -/
structure RdTarget where
  tid : Nat
  reg : Nat
  row : Nat
  col : Nat
  deriving DecidableEq, Repr

/-- The operands of a drain (R327). -/
structure DrainOp where
  row0 : Nat
  rows : Nat
  cols : Nat
  global : Bool
  addr : Dword
  gpitch : Nat
  desc : OpDesc
  clr : Bool
  add : Bool
  sat : Bool
  rnd : Rnd
  i96 : Bool
  tfmt : Fmt
  /-- Destination sectors written so far (R328). -/
  done : List Nat := []
  deriving DecidableEq, Repr

/-- What a matrix-engine command does. -/
inductive MOp where
  | mma (op : MmaOp)
  | zero (mask : BitVec 8)
  | ld (cells : List (Nat × Nat × BitVec 96))
  | rd (f32 i96 : Bool) (targets : List RdTarget)
  | drain (op : DrainOp)
  deriving DecidableEq, Repr

/-- An accepted command of a matrix engine (R21, R318). -/
structure MCmd where
  op : MOp
  seq : Nat
  ctx : Nat
  gid : Nat
  /-- The task whose allocation its scratchpad operands lie in. -/
  task : Nat
  taskHandle : Word
  /-- Core-wide key and size of the allocation its operands lie in. -/
  base : Nat
  size : Nat
  fut : Dword
  scope : Scope
  /-- Chained by a bulk copy: checked again when it reaches the engine (R113). -/
  chained : Bool := false
  /-- Page faults that it waits for (R328). -/
  fids : List Nat := []
  deriving DecidableEq, Repr

/-- A tree descriptor in force (R183). -/
structure TreeCfg where
  fmt : Fmt
  /-- Dimension D. -/
  dim : Nat
  depth : Nat
  lstride : Nat
  nstride : Nat
  leafBase : Dword
  nodeBase : Dword
  deriving DecidableEq, Repr

/-- A descent command (R185, R193). -/
inductive DOp where
  | run (n : Nat) (input : OpDesc) (out : Nat)
  | grad (n : Nat) (input : OpDesc) (g : Nat) (tree : Dword)
  deriving DecidableEq, Repr

/-- An accepted command of a descent engine. -/
structure DCmd where
  op : DOp
  cfg : TreeCfg
  seq : Nat
  ctx : Nat
  gid : Nat
  task : Nat
  taskHandle : Word
  base : Nat
  size : Nat
  fut : Dword
  scope : Scope
  /-- Levels completed, node index and live flag of each row, of a run under way (R186, R191). -/
  level : Nat := 0
  node : List Nat := []
  live : List Bool := []
  started : Bool := false
  /-- A level, or a gradient, is under way: a page fault has suspended it before its end (R190, R191). -/
  inLevel : Bool := false
  /-- Gradient sectors written so far (R193, R328). -/
  done : List Nat := []
  /-- Page faults that it waits for (R190). -/
  fids : List Nat := []
  deriving DecidableEq, Repr

/-- A descent engine (R22, R182). -/
structure Descent where
  holder : Option Nat := none
  /-- Configuration of the latest DSC.CFG of the holder (R334). -/
  cfg : Option TreeCfg := none
  /-- N of the latest DSC.RUN issued by the holder (R337). -/
  n : Nat := 0
  /-- Path-trace registers, index to word (R187). -/
  path : SMap Word := []
  cmds : List DCmd := []
  deriving DecidableEq, Repr

/-- A ring (R94). -/
structure Ring where
  /-- Owning task; none while unconfigured. -/
  owner : Option Nat := none
  base : Nat := 0
  esize : Nat := 0
  count : Nat := 0
  free : Nat := 0
  filled : Nat := 0
  taken : Nat := 0
  writing : Nat := 0
  /-- Hidden producer, fill and consumer indices. -/
  prod : Nat := 0
  fill : Nat := 0
  cons : Nat := 0
  /-- Entries of WRITING whose last byte has landed: they wait for earlier ones to move (R95). -/
  done : List Nat := []
  deriving DecidableEq, Repr

/-- What a saved task keeps beside its threads (R102, R430). -/
structure Image where
  scratch : List Byte := []
  /-- Cells of owned banks: engine, row, column, bits. -/
  cells : List (Nat × BitVec 96) := []
  /-- Engine and bank numbers owned, with owner and lendee group numbers. -/
  banks : List (Nat × Option Nat × Option Nat) := []
  /-- Owned rings by number. -/
  rings : List (Nat × Ring) := []
  /-- The descent engine that a group of it holds. -/
  descent : Option Descent := none
  deriving DecidableEq, Repr

/-- Where a task is (R62). -/
inductive TaskLoc where
  | core (die core : Nat)
  | saved
  deriving DecidableEq, Repr

/-- A started task (R62). -/
structure Task where
  id : Nat
  ctx : Nat
  kind : TKind
  entry : Dword
  args : List Word
  fut : Dword
  index : Dword := 0
  count : Nat := 1
  prio : Nat := 0
  hdr : KHdr
  set : Option Nat := none
  loc : TaskLoc
  /-- Owner handle: of its slot, or of its record while it is saved (R64). -/
  handle : Word := 0xFFFFFFFF
  /-- Handle of the slot that it holds, or held last (R64, R198). -/
  slotted : Word := 0xFFFFFFFF
  /-- Record number while it is saved (R64). -/
  num : Nat := 0
  alloc : Option (Nat × Nat) := none
  image : Image := {}
  owned : List Dword := []
  adopt : Nat := 0
  /-- Threads of the waiter whose frame it runs over (R73). -/
  adoptedBy : List Nat := []
  /-- Saved as part of this lend set (R102). -/
  lendSet : Option Nat := none
  /-- Cause code once a trap has decided that the task ends faulted (R347, R352). -/
  faulted : Option (BitVec 8) := none
  /-- g0 and g1 of rank 0 at its exit (R60). -/
  result : Dword := 0
  rfb : Option Nat := none
  launch : Option (Nat × Nat) := none
  deriving DecidableEq, Repr

/-- Where one side of a bulk copy lies (R329). -/
inductive CopySide where
  | global (va : Dword)
  | scratch (off : Nat)
  | ring (n : Nat)
  deriving DecidableEq, Repr

/-- A decoded copy descriptor (R329). -/
structure CopyDesc where
  src : CopySide
  dst : CopySide
  srot : Nat
  drot : Nat
  size0 : Nat
  /-- SIZE1 to SIZE4. -/
  sizes : List Nat
  sstride : List Int
  dstride : List Int
  scope : Scope
  deriving DecidableEq, Repr

/-- A part of a bulk copy that travels over PFT: its device, operation, sector, destination and bytes (R117, R330). -/
structure NetRun where
  node : Nat
  op : Nat
  sector : Nat
  dst : Nat
  n : Nat
  /-- Its first address in the remote window. -/
  win : Nat := 0
  deriving DecidableEq, Repr

/-- A bulk copy under way (R110 to R114, R330). -/
structure BulkCopy where
  id : Nat
  seq : Nat
  ctx : Nat
  die : Nat
  /-- Copy engine of the die. -/
  unit : Nat
  desc : CopyDesc
  fut : Dword
  /-- Core and allocation of a scratchpad side: core index, core-wide base, size, task. -/
  core : Nat := 0
  base : Nat := 0
  size : Nat := 0
  task : Nat := 0
  taskHandle : Word := 0xFFFFFFFF
  /-- Destination sectors written. -/
  done : List Nat := []
  /-- Sectors that wait for page faults, with their fault IDs (R111). -/
  fids : List (Nat × Nat) := []
  /-- Parts that travel over PFT. -/
  nets : List NetRun := []
  /-- Ring entries taken so far, in order, and how many of them are FILLED (R95). -/
  slots : List Nat := []
  landed : Nat := 0
  /-- Chained command and its engine (R113). -/
  chain : Option (Nat × MCmd) := none
  /-- Its cache hint, for what it reads (R87, R226). -/
  ch : Nat := 0
  launch : Option (Nat × Nat) := none
  deriving DecidableEq, Repr

/-- Why a command fails: the cause, and the access that failed (R423). -/
structure Failure where
  cause : Nat
  addr : Dword := 0
  acc : Acc := .read
  malformed : Bool := false
  deriving DecidableEq, Repr

/-- What a refinement block does next (R194 to R199). -/
inductive RfbPhase where
  /-- It waits for one of the controller's 16 places. -/
  | waiting
  /-- It has a place, and is read. -/
  | read
  /-- It zeroes its status record. -/
  | zero
  /-- It places the task of its step. -/
  | place
  /-- The record of its step's task has found no room, and is held (R461). -/
  | held
  /-- The task of its step has been placed, and has not ended. -/
  | run
  /-- It writes its status record, and goes on or ends. -/
  | write
  deriving DecidableEq, Repr

/-- The steps of a refinement block (R197). -/
inductive RfbStep where
  | refactor | resid | solve
  deriving DecidableEq, Repr

/-- A refinement block in a controller (R194 to R200). -/
structure Rfb where
  id : Nat
  addr : Dword
  ctx : Nat
  prio : Nat
  fut : Dword
  taskHandle : Word
  phase : RfbPhase := .waiting
  step : RfbStep := .refactor
  iterlim : Nat := 0
  traplim : Bool := false
  traplad : Bool := false
  divact : Bool := false
  stagact : Bool := false
  stagcnt : Nat := 0
  rungs : Nat := 0
  tol : Dword := 0
  bnorm : Dword := 0
  rstag : Dword := 0
  rdiv : Dword := 0
  resid : Dword := 0
  status : Dword := 0
  /-- Solve and refactor entries and format code of each rung. -/
  ladder : List (Dword × Dword × Nat) := []
  rung : Nat := 0
  j : Nat := 0
  total : Nat := 0
  run : Nat := 0
  n : Dword := 0
  nprev : Dword := 0
  tstart : Dword := 0
  /-- FAULT of the status record. -/
  fault : Dword := 0
  exit : Nat := 0
  /-- The status write is followed by an escalation. -/
  escalate : Bool := false
  /-- The status write is followed by the end of the block: state, word 0 and word 1 of its future. -/
  outcome : Option (Nat × Word × Word) := none
  /-- The record number of the step's task. -/
  rec_ : Nat := 0
  /-- The record held for want of room, with the order in which records were held (R461). -/
  heldRec : Option (Nat × QRec) := none
  /-- Outcome of the step's task once it has ended: its value and, if faulted, handle and cause. -/
  ended : Option (Dword × Option (Word × BitVec 8)) := none
  abort : Bool := false
  /-- The poisoned read that has stopped it: its context ends once the block has ended (R196, R432). -/
  lost : Option Failure := none
  fid : Option Nat := none
  launch : Option (Nat × Nat) := none
  deriving DecidableEq, Repr

/-- A part of an RMA: its operation number on the wire, offset and bytes (R412). -/
structure RmaPart where
  op : Nat
  off : Nat
  n : Nat
  deriving DecidableEq, Repr

/-- An RMA operation under way on this device (R340). -/
structure Rma where
  id : Nat
  ctx : Nat
  tid : Nat
  node : Nat
  put : Bool
  /-- First byte in the remote window. -/
  remote : Dword
  /-- LOCAL: a global address, or an offset in the allocation. -/
  loc : Dword
  scratch : Bool
  task : Nat
  taskHandle : Word
  die : Nat
  core : Nat
  /-- Core-wide key of the allocation. -/
  base : Nat := 0
  size : Nat := 0
  bytes : Nat
  /-- Bytes acknowledged or received. -/
  got : Nat := 0
  /-- Offset and length of the parts not yet sent. -/
  todo : List (Nat × Nat)
  /-- Parts sent and not yet acknowledged or answered. -/
  parts : List RmaPart := []
  /-- The page fault that it waits for. -/
  fid : Option Nat := none
  fut : Dword
  scope : Scope
  deriving DecidableEq, Repr

/-! ## Cores and latency cores -/

/-- One bank of the accumulator stores (R97). -/
structure Bank where
  owner : Option Nat := none
  lendee : Option Nat := none
  deriving DecidableEq, Repr

/-- A core event counter (R452). -/
structure Counter where
  ctrl : Word := 0
  value : Dword := 0
  deriving DecidableEq, Repr

/-- A forming set of BIND (R37): one waiting thread. -/
structure Forming where
  key : Word
  n : Nat
  lane : Nat
  tid : Nat
  deriving DecidableEq, Repr

/-- A throughput core (R14, R31, R57, R58). -/
structure Core where
  lastCtx : Option Nat := none
  queue : List QRec := []
  spill : List QRec := []
  forming : List Forming := []
  /-- 24 banks: engine e, bank b at 8e + b. -/
  banks : List Bank := List.replicate 24 {}
  /-- The accepted commands of ME0, ME1 and ME2, oldest first. -/
  engines : List (List MCmd) := [[], [], []]
  rings : List Ring := List.replicate 16 {}
  descent : Descent := {}
  allocs : List Alloc := []
  /-- PREEMPT has stopped it (R429). -/
  stopping : Bool := false
  perf : SMap Counter := []
  deriving DecidableEq, Repr

/-- A latency core (R169 to R171). -/
structure Lc where
  /-- Requests offered and not yet accepted or refused, oldest first. -/
  offers : List ShipReq := []
  /-- Accepted requests, oldest first. -/
  queue : List ShipReq := []
  /-- Refused requests, oldest refusal first. -/
  refused : List ShipReq := []
  /-- Thread of the section that runs. -/
  running : Option Nat := none
  deriving DecidableEq, Repr

/-- A compute die: its refinement controller (R194). -/
structure Die where
  rfbs : List Rfb := []
  deriving DecidableEq, Repr

/-! ## Caches -/

/-- A sector that the L1 data cache of a core holds (R84), which the snoop filter of its die records (R86). -/
structure L1Sector where
  /-- The core's index, or 1,024 + n for latency core n. -/
  core : Nat
  sector : Nat
  /-- Its retention: 0 lowest, 1 normal, 2 highest (R87). -/
  keep : Nat := 1
  /-- The context whose ID it carries (R171, R432). -/
  owner : Option Nat := none
  deriving DecidableEq, Repr

/-- A clean copy of a sector in an L2 slice of a die that is not its home, which the home slice tracks (R85). -/
structure L2Copy where
  die : Nat
  sector : Nat
  keep : Nat := 1
  /-- The context whose ID it carries (R432). -/
  owner : Option Nat := none
  deriving DecidableEq, Repr

/-- A sector that its home slice holds (R85), with its retention (R87) and the context whose ID it carries (R432). -/
structure HomeSector where
  sector : Nat
  keep : Nat := 1
  owner : Option Nat := none
  deriving DecidableEq, Repr

/-! ## Contexts -/

/-- A translation that a TLB still holds (R422). -/
structure TlbEntry where
  /-- Whose TLB: that of the core with this index, or of die d at 512 + d. -/
  unit : Nat
  ctx : Nat
  /-- First virtual address and size of the page. -/
  va : Nat
  size : Nat
  leaf : Dword
  deriving DecidableEq, Repr

/-- A fault record (R423), before it is written or after. -/
structure FaultRec where
  time : Dword
  addr : Dword := 0
  task : Word := 0xFFFFFFFF
  detail : Word := 0
  die : Nat := 0
  agent : Nat := 0
  unit : Nat := 0
  cause : Nat := 0
  kind : Nat := 0
  acc : Acc := .read
  fid : Nat := 0
  deriving DecidableEq, Repr

/-- An outstanding fault ID (R425). -/
structure FidEnt where
  fid : Nat
  page : Nat
  acc : Acc
  die : Nat
  deriving DecidableEq, Repr

/-- A record claimed by the service firmware, not yet resolved or declined (R424). -/
structure Claim where
  seq : Nat
  fid : Nat
  since : Nat
  /-- The record is routed to HOST as well. -/
  host : Bool
  deriving DecidableEq, Repr

/-- An entry of a runnable pool (R429, R461). -/
inductive PoolEnt where
  | task (id : Nat)
  | record (r : QRec)
  deriving DecidableEq, Repr

/-- A device-made update of memory that waits for a page fault (R459). -/
inductive UpdKind where
  /-- Fulfilment: state, words 0 and 1. -/
  | fulfil (st : Nat) (w0 w1 : Word)
  /-- Rewrite of word 2. -/
  | owner (w2 : Word)
  /-- Words 0 and 1 of an EMPTY future (R111). -/
  | progress (w0 w1 : Word)
  deriving DecidableEq, Repr

/-- A waiting device-made update (R459). -/
structure PendUpd where
  ctx : Nat
  va : Dword
  kind : UpdKind
  /-- Who makes it, as a fault record names it (R423). -/
  agent : Nat
  die : Nat
  unit : Nat
  task : Word
  fid : Nat
  deriving DecidableEq, Repr

/-- A loaded queue program (R406). -/
structure Prog where
  num : Nat
  words : List Word
  /-- Windows: base, length, writable. -/
  windows : List (Dword × Nat × Bool)
  deriving DecidableEq, Repr

/-- A context (R416 to R418). -/
structure Ctx where
  func : Nat
  ptroot : Nat
  cmbase : Nat
  /-- Bytes of context memory. -/
  cmsize : Nat
  gangb : Nat := 10000
  tlim : Nat := 1000
  spillrec : Nat := 0
  fvec : Nat := 0
  fqlog2 : Nat := 6
  tlsva : Dword := 0
  /-- Bytes of the thread-local region. -/
  tlssize : Nat := 0
  recov : Bool := false
  /-- Core set: core index 64d + c, strictly rising. -/
  cores : List Nat := []
  /-- Cores ever given by SETCORES (R461). -/
  everCores : List Nat := []
  /-- Cores of the PREEMPT under way (R429). -/
  preempting : List Nat := []
  /-- The function whose mailbox waits for it. -/
  preemptFunc : Nat := 0
  /-- Thread-local areas given out: base offset, bytes, thread (R458). -/
  tls : List (Nat × Nat × Nat) := []
  attached : Bool := false
  stop : Bool := false
  bpctl : Word := 0
  bpa : List Dword := [0, 0, 0, 0]
  pool : List PoolEnt := []
  /-- Records held in order until the fault queue has room (R423). -/
  heldRecs : List FaultRec := []
  fids : List FidEnt := []
  nextFid : Nat := 1
  claims : List Claim := []
  updates : List PendUpd := []
  progs : List Prog := []
  /-- Next record number (R64). -/
  nextRec : Nat := 0
  /-- The queue of the context served last at each priority (R405). -/
  lastQueue : List Nat := [0, 0, 0, 0]
  deriving DecidableEq, Repr

/-- An export (R419). -/
structure Export where
  num : Nat
  ctx : Nat
  base : Dword
  pages : Nat
  node : Nat
  rctx : Nat
  xship : Bool
  xw : Bool
  xr : Bool
  deriving DecidableEq, Repr

/-! ## Host attachment -/

/-- States of a queue (R401). -/
inductive QState where
  | off | idle | running | blocked | faulted
  deriving DecidableEq, Repr

/-- What a queue is blocked on (R405, R407, R408, R411). -/
inductive QBlock where
  | signal (va : Dword) (val : Dword) (cond : Nat)
  | chain (q : Nat) (count : Word)
  /-- A chain on a queue of another device: satisfied when notified. -/
  | remoteChain (node q : Nat) (count : Word)
  /-- A signal of another device, at an offset of an export, with its condition: satisfied when that device says so. -/
  | remoteSignal (node exp off : Nat) (val : Dword) (cond : Nat)
  | barrier
  | fault (fid : Nat)
  deriving DecidableEq, Repr

/-- A packet that is not yet complete (R405): the work without a future that it has created and that is still open, the
futures of its other work, by their contexts and addresses, and whether its program has ended. -/
structure Packet where
  serial : Nat
  left : Nat := 0
  futs : List (Nat × Dword) := []
  ended : Bool := false
  deriving DecidableEq, Repr

/-- A hardware queue and its processor (R401, R405, R406). -/
structure Queue where
  enable : Bool := false
  func : Nat := 0
  prog : Nat := 0
  ctx : Nat := 0
  die : Nat := 0
  prio : Nat := 0
  log2size : Nat := 0
  ringbase : Dword := 0
  ccount : Word := 0
  rdidx : Word := 0
  kickv : Word := 0
  state : QState := .off
  partial_ : Bool := false
  fcode : Nat := 0
  /-- x0 to x15. -/
  x : List Dword := List.replicate 16 0
  staging : List Dword := List.replicate 16 0
  packet : List Dword := List.replicate 8 0
  /-- The program as it was when the queue was created; none for program 0. -/
  image : Option Prog := none
  /-- Index of the next word of the program. -/
  pc : Nat := 0
  /-- Open loops, innermost first: index of the word after LOOP, and runs left. -/
  loops : List (Nat × Nat) := []
  block : Option QBlock := none
  /-- A packet has been read, and its program has not ended. -/
  inPacket : Bool := false
  /-- The packet read last, under a number that no other packet has. -/
  serial : Nat := 0
  /-- The packets read and not yet counted in CCOUNT, in index order. -/
  packets : List Packet := []
  deriving DecidableEq, Repr

/-- A signal-wait entry (R409). -/
structure SigWait where
  armed : Bool := false
  fired : Bool := false
  cond : Nat := 0
  vector : Nat := 0
  ctx : Nat := 0
  addr : Dword := 0
  value : Dword := 0
  /-- The location on which it is registered. -/
  home : Nat := 0
  deriving DecidableEq, Repr

/-- The registers of a function: its mailbox, apertures and signal-wait table (R395, R397, R409, R416). -/
structure Func where
  /-- Mailbox status: 0 idle, 1 busy, 2 done, 3 rejected. -/
  stat : Nat := 0
  reason : Nat := 0
  failWord : Nat := 0
  arg0 : Dword := 0
  arg1 : Dword := 0
  arg2 : Dword := 0
  capbase : Nat := 0
  dapbase : Nat := 0
  sigs : SMap SigWait := []
  /-- A CREATE that waits for the number's ENDED (R446). -/
  pending : Option (Nat × Ctx) := none
  deriving DecidableEq, Repr

/-- The hardware semaphore (R399, R400). -/
structure Sem where
  held : Bool := false
  owner : Nat := 0xF
  /-- Elapsed time at which the lease was last renewed. -/
  since : Nat := 0
  deriving DecidableEq, Repr

/-- Boot states (R436). -/
inductive BootState where
  | booting | ready | recovery | stopped
  deriving DecidableEq, Repr

/-- A firmware image in flash (R438): its verification is kept as the FAILCODE of its checks other than SVN, 0 if none
fails. -/
structure FwImage where
  svn : Nat
  fail : Nat
  keys : List Nat
  digest : List Byte
  deriving DecidableEq, Repr

/-- A FWWRITE under way (R440): its function, address and length. -/
structure FwWrite where
  func : Nat
  addr : Nat
  len : Nat
  deriving DecidableEq, Repr

/-- Boot, flash and fuses (R434 to R441). -/
structure Boot where
  state : BootState := .booting
  stage : Nat := 0
  slot : Nat := 0
  failcode : Nat := 0
  svn : Nat := 0
  /-- False once power-good has dropped (R455). -/
  power : Bool := true
  /-- The two flash slots: an image, or empty. DESIGN CHOICE, log 7. -/
  flash : List (Option FwImage) := [some ⟨0, 0, [0], []⟩, none]
  /-- FWACTIVATE has chosen the other slot for the next reset. -/
  activate : Bool := false
  /-- The slot was made active by FWACTIVATE: a boot that succeeds raises the fuse floor (R440). -/
  raise : Bool := false
  /-- The stacks do not train (R435, FAILCODE 6): a module's own defect. DESIGN CHOICE, log 7. -/
  untrained : Bool := false
  /-- The module's fuses. DESIGN CHOICE, log 7. -/
  svnFloor : Nat := 0
  revoked : List Bool := [false, false, false, false]
  debugLock : Bool := false
  /-- A FWWRITE that is busy. -/
  fw : Option FwWrite := none
  /-- A warm reset is under way: boot keeps the usage region and device time. -/
  warm : Bool := false
  deriving DecidableEq, Repr

/-- An interrupt sent: function and vector. -/
structure Irq where
  func : Nat
  vector : Nat
  deriving DecidableEq, Repr

/-- A record that firmware claimed before the host, of a context that has ended since (R424): whom it still goes to. -/
structure Orphan where
  ctx : Nat
  claim : Claim
  irq : Irq
  deriving DecidableEq, Repr

/-! ## Network -/

/-- What a PFT message carries (R412). -/
inductive NetMsg where
  | put (op exp off : Nat) (ctx tid : Nat) (data : List Byte)
  | getReq (op exp off len : Nat) (ctx tid : Nat)
  | getResp (op off : Nat) (data : List Byte)
  | flag (exp off : Nat) (ctx tid : Nat) (add : Bool) (val : Dword)
  | ship (op exp off : Nat) (ctx tid : Nat) (req : ShipReq)
  /-- The outcome of a section, and how it ended (R176). -/
  | shipResult (op : Nat) (ok : Bool) (out : SectionEnd) (results : List Word)
  /-- A request that its home has refused is taken back (R170). -/
  | shipWithdraw (op : Nat)
  | signal (exp off ctx queue : Nat) (val : Dword) (cond : Nat) (fire : Bool)
  | chainReg (remoteQueue queue : Nat) (count : Word)
  | chainNotify (chain : ChainRef) (count : Word)
  | ack (seqs : List Nat)
  | nack (seq : Nat) (refused : Bool)
  deriving DecidableEq, Repr

/-- The sequence numbers of the flow with a node, and the messages that wait for earlier ones (R413). -/
structure Flow where
  node : Nat
  /-- Number of the next message sent. -/
  next : Nat := 0
  /-- The lowest number not yet received, and those received above it. -/
  expect : Nat := 0
  got : List Nat := []
  /-- FLAG and SHIP requests received before an earlier message, by number. -/
  held : List (Nat × NetMsg) := []
  /-- The numbers of the requests that were refused (R415). -/
  nacked : List Nat := []
  /-- The numbers of the requests of sections that a full home has refused (R170). -/
  full : List Nat := []
  deriving DecidableEq, Repr

/-- A message sent and not yet acknowledged (R413). -/
structure OutMsg where
  node : Nat
  seq : Nat
  msg : NetMsg
  /-- The port on which it was sent last; none while no port is active. -/
  port : Option Nat := none
  tries : Nat := 0
  sent : Nat := 0
  /-- The fault record that a refusal posts, for a message without a future (R415). -/
  refusal : Option FaultRec := none
  deriving DecidableEq, Repr

/-- A peer of the peer table (R412, R414). -/
structure Peer where
  node : Nat
  ip : Nat
  reachable : Bool := true
  deriving DecidableEq, Repr

/-- A remote waiter registered at this device (R407, R409). -/
inductive RemoteWait where
  /-- A queue of another device waits on a location of an export of context `ctx`, at an offset of it. -/
  | signal (node queue : Nat) (ctx exp off : Nat) (home : Nat) (val : Dword) (cond : Nat)
  | chain (node remoteQueue queue : Nat) (count : Word)
  deriving DecidableEq, Repr

/-- The network side of the I/O dies (R412 to R415). -/
structure Net where
  node : Nat := 0
  peers : List Peer := []
  /-- Which of the eight ports are active. -/
  ports : List Bool := List.replicate 8 false
  /-- Retransmit time in ns. -/
  rtx : Nat := 50000
  /-- The UDP destination port of PFT. -/
  udp : Nat := 55776
  flows : List Flow := []
  out : List OutMsg := []
  /-- Messages put on the wire, newest first: the model's output. -/
  wire : List OutMsg := []
  rmas : List Rma := []
  /-- Outstanding SHIPs to other devices: operation number, node, request. -/
  ships : List (Nat × Nat × ShipReq) := []
  waits : List RemoteWait := []
  deriving DecidableEq, Repr

/-! ## Accounting, power, management -/

/-- A usage record (R445). -/
structure Usage where
  corecyc : Nat := 0
  mebusy : Nat := 0
  debusy : Nat := 0
  lcbusy : Nat := 0
  bcbytes : Nat := 0
  hbmrd : Nat := 0
  hbmwr : Nat := 0
  nettx : Nat := 0
  netrx : Nat := 0
  energy : Nat := 0
  updtime : Nat := 0
  gen : Nat := 0
  ended : Bool := false
  valid : Bool := false
  /-- DESTROY has completed and ENDED waits for the window's end (R446). -/
  ending : Bool := false
  /-- The function that created the generation (R449). -/
  creator : Nat := 0
  deriving DecidableEq, Repr

/-- The snapshot (R448, R449). -/
structure Snapshot where
  idleuj : Nat := 0
  pkguj : Nat := 0
  wtime : Nat := 0
  seq : Nat := 0
  records : SMap Usage := []
  deriving DecidableEq, Repr

/-- The health record (R456). -/
structure Health where
  corr : Nat := 0
  uncorr : Nat := 0
  scrubpass : Nat := 0
  pwr10 : Nat := 0
  pwrlim : Nat := 3200
  throttle : Nat := 0
  temp : List Nat := List.replicate 10 0
  tin : Nat := 0
  tout : Nat := 0
  flow : Nat := 0
  htime : Nat := 0
  deriving DecidableEq, Repr

/-- A response of the management port or of the SPDM responder (R442, R450): completion code and bytes. -/
structure Response where
  code : Nat
  bytes : List Byte
  deriving DecidableEq, Repr

/-- IEEE 1588 (R457). -/
structure Ptp where
  enabled : Bool := false
  /-- The port chosen by the best master clock algorithm. -/
  port : Option Nat := none
  /-- PTP time minus device time, ns, as last measured, less what steering has made up since. -/
  offset : Int := 0
  deriving DecidableEq, Repr

/-! ## The agenda -/

/-- What moves next: an input of the model that stands for the timing the manual leaves open. -/
inductive Turn where
  /-- A port of a core forms and issues a beam (R33); `mem` chooses the memory-and-engine port. -/
  | beam (die core : Nat) (mem : Bool)
  /-- The section of a latency core issues an instruction. -/
  | latencyCore (lc : Nat)
  /-- A queue processor runs the next word of its program. -/
  | queue (q : Nat)
  /-- An event of the opcode table. -/
  | event (i : Instr)
  /-- Device time advances by `ns`, and the clocks of the cores with it (R27, R457). -/
  | elapse (ns : Nat)
  /-- A TLB takes up, or drops, its translation of a page: that of core `unit`, or of die d at 512 + d (R422). -/
  | tlbFill (unit ctx : Nat) (va : Dword)
  | tlbDrop (unit ctx : Nat) (va : Dword)
  /-- An instruction cache takes up, or drops, a word (R139). -/
  | icFill (core : Nat) (key : Nat)
  | icDrop (core : Nat) (key : Nat)
  /-- A thread prefetches the word after those it has prefetched (R139). -/
  | prefetch (tid : Nat)
  /-- A home slice fills a sector for a reader of a context (R85, R443). -/
  | l2Fill (ctx sector : Nat)
  /-- A home slice writes back and drops a sector (R85). -/
  | l2Evict (sector : Nat)
  /-- The L1 data cache of a core drops a sector, or that of a latency core n under the number 1,024 + n; the private L2 of a
  latency core does; or a slice that is not the home on a die drops its clean copy (R23, R84, R85). -/
  | l1Evict (core sector : Nat)
  | lcL2Evict (lc sector : Nat)
  | copyEvict (die sector : Nat)
  /-- An 8-byte part of an asynchronous copy lands before the rest (R119). -/
  | landPart (id part : Nat)
  /-- A function reads a register of BAR0 or BAR2 (R6, R395). -/
  | registerRead (func bar off len : Nat)
  /-- A holder that is no physical function writes a global control register (R399). -/
  | globalWrite (port off : Nat) (val : Dword)
  /-- A withdrawn SHIP request of another device is taken out (R170). -/
  | shipWithdraw (node seq op : Nat)
  /-- A usage message with a command byte that no command has (R450). -/
  | usageCommand (cmd : Nat)
  /-- An SPDM request that the responder does not support, by its code (R442). -/
  | spdmRequest (code : Nat)
  /-- The I3C controller gives the management port its dynamic address (R450). -/
  | i3cAddress (addr : Nat)
  /-- Host and remote waiters whose signal satisfies their condition fire (R137, R409). -/
  | signals
  /-- A service core ends the FWWRITE that is busy (R440). -/
  | mailbox
  /-- The next stage of boot (R435). -/
  | boot
  /-- A sibling fragment, or a thread under STOPCTX, stops skidding (R48, R49). -/
  | halt (a : Actor)
  deriving DecidableEq, Repr

/-! ## The state -/

/-- The state of the device. -/
structure State where
  -- time
  /-- Device time in ns (R457). -/
  time : Dword := 0
  /-- Elapsed ns of the device clock, for bounds and timeouts (R457). -/
  elapsed : Nat := 0
  cycles : Dword := 0
  lcCycles : Dword := 0
  -- the model's own fields (logs 1 and 3)
  agenda : List Turn := []
  beamRest : List Actor := []
  cur : Actor := .none
  tick : Nat := 0
  nextId : Nat := 1
  free : Nat := 0
  -- memory
  /-- Physical bytes: device memory at its address, host memory at its key (Config). -/
  mem : SMap Byte := []
  /-- Dirty sectors at home slices (R85). -/
  dirty : List Nat := []
  /-- Bytes written past the L2 that device agents may not see yet (R396). -/
  shadow : List (Nat × Byte) := []
  /-- Poisoned sectors (R432). -/
  poison : List Nat := []
  tlb : List TlbEntry := []
  /-- Words held by instruction caches: core key, address key, word (R139). -/
  icache : List (Nat × Nat × Dword) := []
  l1 : List L1Sector := []
  /-- Bytes of an L1's sectors that memory no longer holds, because they were written past the L2: core, address key, byte
  (R280, R396). -/
  l1Old : List (Nat × Nat × Byte) := []
  l2 : List L2Copy := []
  /-- Sectors of the private L2s of the latency cores: the latency core under `core` (R23). -/
  lcL2 : List L1Sector := []
  /-- Sectors that the home slices hold, dirty ones included (R85). -/
  home : List HomeSector := []
  /-- Scratchpad bytes: 2^18 × core index + offset (R88). -/
  scratch : SMap Byte := []
  /-- Accumulator cells: ((core index × 3 + engine) × 128 + row) × 64 + column (R155). -/
  cells : SMap (BitVec 96) := []
  -- units
  cores : SMap Core := []
  lcs : SMap Lc := []
  dies : SMap Die := []
  threads : List Thread := []
  groups : List Group := []
  tasks : List Task := []
  sets : List TaskSet := []
  ldas : List LdaCopy := []
  copies : List BulkCopy := []
  -- contexts
  ctxs : SMap (Option Ctx) := []
  exports : List Export := []
  -- host attachment
  queues : SMap Queue := []
  funcs : SMap Func := []
  sem : Sem := {}
  semviol : Dword := 0
  boot : Boot := {}
  powerlim : Nat := 3200
  throttle : Nat := 0
  /-- Routing table: HOST and SERVICE of each kind (R424). -/
  routing : List (Bool × Bool) :=
    [(true, false), (true, false), (true, false), (true, false), (true, false), (true, true)]
  /-- Event counters of dies (16 each) and I/O dies (16 each): index 16d + n, and 128 + 16i + n (R452). -/
  dieCounters : SMap Counter := []
  /-- MSI-X interrupts sent, newest first. -/
  irqs : List Irq := []
  /-- Records of ended contexts that firmware has claimed and the host may yet receive (R424). -/
  orphans : List Orphan := []
  /-- Bytes returned by the last host read. -/
  hostRead : List Byte := []
  /-- The range of device memory that the driver exposes as host-managed device memory: first byte and length (R398). -/
  hdm : Nat × Nat := (0, 0)
  -- network
  net : Net := {}
  -- accounting and management
  /-- Usage records (R445), and the counts not yet added to them (R444). -/
  usage : SMap Usage := []
  counts : SMap Usage := []
  /-- The counts of the reconciliation window under way (R447). -/
  windowCounts : SMap Usage := []
  /-- Device time at which the window under way ends, and at which the next one begins (R447, R457). -/
  windowEnd : Nat := 1000000
  windowFrom : Nat := 1000000
  snapshot : Snapshot := {}
  idleuj : Nat := 0
  pkguj : Nat := 0
  health : Health := {}
  /-- Uncorrectable errors since cold reset (R456). -/
  uncorr : Nat := 0
  /-- The dynamic address that the I3C controller gave the management port (R450). -/
  i3c : Option Nat := none
  /-- Last response of the management port, and of the SPDM responder. -/
  mgmt : Option Response := none
  spdm : Option Response := none
  ptp : Ptp := {}
  deriving DecidableEq, Repr

/-- The device right after a cold reset, before boot stage 1: every field at its default above. -/
def State.reset : State := {}

end Sys2Proof.Machine
end

