-- ==== Sys2Proof/Machine/Ops.lean ====
section
/-! DEFINITION. The named operations over the state: units and tables, memory and its translation, fault records, futures
and owner handles, the end of threads, groups and tasks, taking a trap and returning from one, and shipped sections. -/

namespace Sys2Proof.Machine

/-- The outcome type of the model. -/
abbrev Out := Host.Outcome State Fault Refusal

/-! ## Free values -/

/-- A free value of the manual's "unspecified" kind, and the state with the counter advanced (DESIGN CHOICE, log 3). -/
def State.freshBits (s : State) : Dword × State := (Config.freeBits s.free, { s with free := s.free + 1 })

/-- A free choice below `n`. -/
def State.freshBelow (s : State) (n : Nat) : Nat × State :=
  (if n = 0 then 0 else Config.freeChoice s.free % n, { s with free := s.free + 1 })

/-! ## Tables -/

/-- The core with index `k`. -/
def State.core (s : State) (k : Nat) : Core := s.cores.get {} k

/-- The core with index `k` changed. -/
def State.updCore (s : State) (k : Nat) (f : Core → Core) : State := { s with cores := s.cores.upd {} k f }

/-- Latency core `n`. -/
def State.lc (s : State) (n : Nat) : Lc := s.lcs.get {} n

/-- Latency core `n` changed. -/
def State.updLc (s : State) (n : Nat) (f : Lc → Lc) : State := { s with lcs := s.lcs.upd {} n f }

/-- Compute die `d`. -/
def State.die (s : State) (d : Nat) : Die := s.dies.get {} d

/-- Compute die `d` changed. -/
def State.updDie (s : State) (d : Nat) (f : Die → Die) : State := { s with dies := s.dies.upd {} d f }

/-- Queue `q`. -/
def State.queue (s : State) (q : Nat) : Queue := s.queues.get {} q

/-- Queue `q` changed. -/
def State.updQueue (s : State) (q : Nat) (f : Queue → Queue) : State := { s with queues := s.queues.upd {} q f }

/-- The registers of a function. -/
def State.func (s : State) (f : Nat) : Func := s.funcs.get {} f

/-- The registers of a function changed. -/
def State.updFunc (s : State) (n : Nat) (f : Func → Func) : State := { s with funcs := s.funcs.upd {} n f }

/-- Context `c`, if it exists. -/
def State.ctx? (s : State) (c : Nat) : Option Ctx := s.ctxs.get none c

/-- Context `c` changed, if it exists. -/
def State.updCtx (s : State) (c : Nat) (f : Ctx → Ctx) : State := { s with ctxs := s.ctxs.upd none c (·.map f) }

/-- Thread `tid`. -/
def State.thread? (s : State) (tid : Nat) : Option Thread := s.threads.find? (·.tid == tid)

/-- Thread `tid` changed. -/
def State.updThread (s : State) (tid : Nat) (f : Thread → Thread) : State :=
  { s with threads := s.threads.map fun t => if t.tid = tid then f t else t }

/-- Each thread of a list changed. -/
def State.updThreads (s : State) (tids : List Nat) (f : Thread → Thread) : State :=
  { s with threads := s.threads.map fun t => if tids.contains t.tid then f t else t }

/-- Group `gid`. -/
def State.group? (s : State) (gid : Nat) : Option Group := s.groups.find? (·.gid == gid)

/-- Group `gid` changed. -/
def State.updGroup (s : State) (gid : Nat) (f : Group → Group) : State :=
  { s with groups := s.groups.map fun g => if g.gid = gid then f g else g }

/-- Task `id`. -/
def State.task? (s : State) (id : Nat) : Option Task := s.tasks.find? (·.id == id)

/-- Task `id` changed. -/
def State.updTask (s : State) (id : Nat) (f : Task → Task) : State :=
  { s with tasks := s.tasks.map fun t => if t.id = id then f t else t }

/-- A fresh identifier of the model's own tables. -/
def State.freshId (s : State) : Nat × State := (s.nextId, { s with nextId := s.nextId + 1 })

/-- The index of core `c` of die `d`. -/
def coreIdx (d c : Nat) : Nat := 64 * d + c

/-- The usage counts of a context changed: those not yet added to its record (R444), and those of the window (R447). -/
def State.count (s : State) (ctx : Nat) (f : Usage → Usage) : State :=
  { s with counts := s.counts.upd {} ctx f, windowCounts := s.windowCounts.upd {} ctx f }

/-- Counts added to a record. -/
def Usage.add (u n : Usage) : Usage :=
  { u with
    corecyc := u.corecyc + n.corecyc, mebusy := u.mebusy + n.mebusy, debusy := u.debusy + n.debusy
    lcbusy := u.lcbusy + n.lcbusy, bcbytes := u.bcbytes + n.bcbytes, hbmrd := u.hbmrd + n.hbmrd
    hbmwr := u.hbmwr + n.hbmwr, nettx := u.nettx + n.nettx, netrx := u.netrx + n.netrx }

/-- The counts of a context added into its record (R444). -/
def State.addCounts (s : State) (c : Nat) : State :=
  let n := s.counts.get ({} : Usage) c
  if n = {} then s
  else
    { s with
      counts := s.counts.set {} c {}
      usage := s.usage.upd {} c fun u => { u.add n with updtime := s.time.toNat } }

/-! ## Event counters (R452) -/

/-- Whether a counter counts an event of context `c`. -/
def Counter.counts (k : Counter) (src : Nat) (c : Option Nat) : Bool :=
  k.ctrl.getLsbD 31 && (k.ctrl.extractLsb' 0 12).toNat == src
    && (!k.ctrl.getLsbD 30 || c == some (k.ctrl.extractLsb' 20 10).toNat)

/-- A counter with `n` more events. -/
def Counter.bump (k : Counter) (n : Nat) : Counter := { k with value := k.value + BitVec.ofNat 64 n }

/-- Events of a core counted (R452). -/
def State.tallyCore (s : State) (k src n : Nat) : State :=
  if (s.core k).perf.isEmpty then s
  else s.updCore k fun c => { c with perf := c.perf.map fun p => if p.2.counts src c.lastCtx then (p.1, p.2.bump n) else p }

/-- Counters of dies with `n` more events of a die. -/
def bumpDie (d src n : Nat) (c : Option Nat) (l : SMap Counter) : SMap Counter :=
  l.map fun p => if p.1 / 16 = d ∧ p.2.counts src c then (p.1, p.2.bump n) else p

/-- Events of a die, or of an I/O die at index 8 and up, counted (R452). -/
def State.tallyDie (s : State) (d src n : Nat) (c : Option Nat) : State :=
  { s with dieCounters := bumpDie d src n c s.dieCounters }

/-- The I/O die that serves unit `n` of a kind; kind 1 is the Ethernet ports (R26, R452; DESIGN CHOICE, log 14). -/
def ioDieOf (kind n : Nat) : Nat :=
  if kind = 1 then (if Config.portsOfIod0.contains n then 0 else 1) else (Config.ioDie kind n).val

/-- Events of the I/O die that serves unit `n` of a kind counted (R452). -/
def State.tallyIo (s : State) (kind n src : Nat) (c : Option Nat) : State := s.tallyDie (8 + ioDieOf kind n) src 1 c

/-- The sources of the counter of a die, or of I/O die i at index 8 + i, whose events are a matter of timing, of the arrays
themselves or of links: the link CX is that of IOD0 (R26, R452). -/
def openDieSource (die src : Nat) : Bool :=
  if die < 8 then [0x105, 0x116].contains src else [0x206, 0x207, 0x208, 0x20B].contains src || src == 0x209 && die == 8

/-- Cycles withheld at throttle level `t` of the first `x` cycles: `t` of each 64, taken to be the first ones (R453; DESIGN
CHOICE, log 14). -/
def withheld (t x : Nat) : Nat := x / 64 * t + min t (x % 64)

/-- A counter of a core after the cycles from `from_` to `to'`, in which the core ran context `c` at throttle level `t`: cycles
(0x001), cycles withheld on each of the two ports (0x005), and conflict cycles of the scratchpad (0x030), of which there are as
many as an unspecified value says (R452, R453; DESIGN CHOICE, log 14). -/
def Counter.pass (k : Counter) (c : Option Nat) (t from_ to' i : Nat) : Counter :=
  let src := (k.ctrl.extractLsb' 0 12).toNat
  if !k.counts src c then k
  else if src = 0x001 then k.bump (to' - from_)
  else if src = 0x005 then k.bump (2 * (withheld t to' - withheld t from_))
  else if src = 0x030 then k.bump ((Config.freeBits i).toNat % (to' - from_ + 1))
  else k

/-- A counter of a die or of an I/O die after some time: of events that are open as many as an unspecified value says, those of
a context while it lives. -/
def Counter.passDie (k : Counter) (lives : Nat → Bool) (die i : Nat) : Counter :=
  if k.ctrl.getLsbD 31 && openDieSource die (k.ctrl.extractLsb' 0 12).toNat
      && (!k.ctrl.getLsbD 30 || lives (k.ctrl.extractLsb' 20 10).toNat) then k.bump (Config.freeBits i).toNat
  else k

/-- The event counters after the cycles of the arithmetic clock from `from_` to `to'` (R452). -/
def State.passCounters (s : State) (from_ to' : Nat) : State :=
  if to' ≤ from_ ∨ s.cores.all (·.2.perf.isEmpty) ∧ s.dieCounters.isEmpty then s
  else
    { s with
      free := s.free + 4256
      cores := s.cores.map fun p => (p.1, { p.2 with
        perf := p.2.perf.map fun q => (q.1, q.2.pass p.2.lastCtx s.throttle from_ to' (s.free + 8 * p.1 + q.1)) })
      dieCounters := s.dieCounters.map fun q =>
        (q.1, q.2.passDie (fun c => (s.ctx? c).isSome) (q.1 / 16) (s.free + 4096 + q.1)) }

/-! ## Bytes -/

/-- The number of little-endian bytes (R4). -/
def leNat : List Byte → Nat
  | [] => 0
  | b :: t => b.toNat + 256 * leNat t

/-- `n` little-endian bytes of a number. -/
def natLe : Nat → Nat → List Byte
  | 0, _ => []
  | n + 1, x => BitVec.ofNat 8 x :: natLe n (x / 256)

/-- One byte of physical memory. -/
def State.byte (s : State) (key : Nat) : Byte := s.mem.get 0 key

/-- `n` bytes of physical memory from `key` on. -/
def State.bytes (s : State) (key : Nat) : Nat → List Byte
  | 0 => []
  | n + 1 => s.byte key :: s.bytes (key + 1) n

/-- Bytes put into a map from a key on. -/
def putBytes (m : SMap Byte) (key : Nat) : List Byte → SMap Byte
  | [] => m
  | b :: t => putBytes (m.set 0 key b) (key + 1) t

/-- `n` bytes of a map. -/
def takeBytes (m : SMap Byte) (key : Nat) : Nat → List Byte
  | 0 => []
  | n + 1 => m.get 0 key :: takeBytes m (key + 1) n

/-- Sectors of 256 bytes that a range touches. -/
def sectorsOf (key n : Nat) : List Nat :=
  if n = 0 then [] else (List.range ((key + n - 1) / 256 - key / 256 + 1)).map (key / 256 + ·)

/-- Whether a sector lies in a line of 1,024 bytes that a range touches. -/
def inLines (key n sector : Nat) : Bool :=
  n != 0 && decide (key / 1024 ≤ sector / 4) && decide (sector / 4 ≤ (key + n - 1) / 1024)

/-- The context in whose name the executing agent accesses memory: the units of dies, the queue processors, the firmware and
the host act in none, where their operation does not name one. -/
def State.actingCtx (s : State) : Option Nat :=
  match s.cur with
  | .thread tid => (s.thread? tid).map (·.ctx)
  | .frag gid _ => (s.group? gid).map (·.ctx)
  | .queue _ | .unit _ | .none => none

/-- Whether a home slice holds a sector. -/
def State.homeHolds (s : State) (sector : Nat) : Bool := s.home.any (·.sector == sector)

/-- Whether a sector lies in device memory, which is HBM. -/
def inHbm (sector : Nat) : Bool := decide (256 * sector < Config.deviceBytes)

/-- A sector at its home slice: one that it does not hold yet is taken up with a retention; a writer's context becomes its
owner (R85, R432). -/
def homeTake (owner : Option Nat) (keep : Nat) (writes : Bool) (l : List HomeSector) (sector : Nat) : List HomeSector :=
  if l.any (·.sector == sector) then
    (if writes && owner.isSome then l.map fun x => if x.sector = sector then { x with owner } else x else l)
  else l ++ [⟨sector, keep, owner⟩]

/-- Usage counts with `n` sectors filled from HBM for a context, and `m` written back (R443). -/
def hbmCounts (u : SMap Usage) (c : Option Nat) (n m : Nat) : SMap Usage :=
  match c with
  | some c => if n + m = 0 then u else u.upd {} c fun u => { u with hbmrd := u.hbmrd + 256 * n, hbmwr := u.hbmwr + 256 * m }
  | none => u

/-- The sectors of HBM among those of a list that no home slice holds. -/
def State.homeMisses (s : State) (sectors : List Nat) : Nat := (sectors.filter fun x => inHbm x && !s.homeHolds x).length

/-- The compute die whose slice is the home of a sector. -/
def homeDie (sector : Nat) : Nat := (Config.homeSlice (sector / 4)).val / 32

/-- The counters of the dies once home slices have been asked for sectors: hits, misses, and the bytes of HBM that a slice fills
(R452). -/
def State.l2Counted (s : State) (c : Option Nat) (fills : Nat → Bool) (sectors : List Nat) : SMap Counter :=
  if s.dieCounters.isEmpty then s.dieCounters
  else
    sectors.foldl
      (fun m x =>
        if s.homeHolds x then bumpDie (homeDie x) 0x101 1 c m
        else
          let m := bumpDie (homeDie x) 0x102 1 c m
          if fills x && inHbm x then bumpDie (homeDie x) 0x114 256 c m else m) s.dieCounters

/-- The home slices take up the sectors of a range for a read of a context, filled from memory where they do not hold them
(R84, R85, R87, R443, R452). -/
def State.l2Read (s : State) (c : Option Nat) (key n keep : Nat) : State :=
  let l := sectorsOf key n
  { s with
    home := l.foldl (homeTake c keep false) s.home
    counts := hbmCounts s.counts c (s.homeMisses l) 0
    windowCounts := hbmCounts s.windowCounts c (s.homeMisses l) 0
    dieCounters := s.l2Counted c (fun _ => true) l }

/-- The home slices take up the sectors that a context is about to write, with a retention (R85, R87, R432). The first and the
last sector of the range are filled where they are written in part, for the sector is the unit of fill (R85; DESIGN CHOICE, log
91). -/
def State.l2Write (s : State) (c : Option Nat) (key n keep : Nat) : State :=
  let l := sectorsOf key n
  let part := fun x => decide (256 * x < key) || decide (key + n < 256 * x + 256)
  { s with
    home := l.foldl (homeTake c keep true) s.home
    counts := hbmCounts s.counts c (s.homeMisses (l.filter part)) 0
    windowCounts := hbmCounts s.windowCounts c (s.homeMisses (l.filter part)) 0
    dieCounters := s.l2Counted c part l }

/-- Bytes written at their home slice: the sectors become dirty (R85), and a write of a whole sector clears its poison
(R432). The copies of the line in slices of other dies, and those that the snoop filters record in L1s, are invalidated
first (R85, R86). The write is one of a context, with a retention (R87). -/
def State.putMemAs (s : State) (c : Option Nat) (keep key : Nat) (l : List Byte) : State :=
  { s.l2Write c key l.length keep with
    l1 := s.l1.filter fun x => !inLines key l.length x.sector
    l1Old := s.l1Old.filter fun x => !inLines key l.length (x.2.1 / 256)
    lcL2 := s.lcL2.filter fun x => !inLines key l.length x.sector
    l2 := s.l2.filter fun x => !inLines key l.length x.sector
    mem := putBytes s.mem key l
    dirty := (sectorsOf key l.length).foldl keyInsert s.dirty
    shadow := s.shadow.filter fun p => !(decide (key ≤ p.1) && decide (p.1 < key + l.length))
    poison := s.poison.filter fun x => !(decide (key ≤ 256 * x) && decide (256 * x + 256 ≤ key + l.length)) }

/-- Bytes written in the name of the agent that acts. -/
def State.putMem (s : State) (key : Nat) (l : List Byte) : State := s.putMemAs s.actingCtx 1 key l

/-- Bytes written by a thread of a context on core `k`: the sectors that its own caches hold stay there, with the new bytes
(R84). -/
def State.storeMem (s : State) (k c keep key : Nat) (l : List Byte) : State :=
  { s.putMemAs (some c) keep key l with
    l1 := s.l1.filter fun x => x.core == k || !inLines key l.length x.sector
    lcL2 := s.lcL2.filter fun x => 1024 + x.core == k || !inLines key l.length x.sector
    l1Old := s.l1Old.filter fun x =>
      if x.1 = k then decide (x.2.1 < key) || decide (key + l.length ≤ x.2.1) else !inLines key l.length (x.2.1 / 256) }

/-- The cores whose caches hold a sector: an L1, or the private L2 of a latency core, whose number is 1,024 + n. -/
def State.cachesOf (s : State) (sector : Nat) : List Nat :=
  let here := fun (l : List L1Sector) => (l.filter (·.sector == sector)).map (·.core)
  (here s.l1 ++ (here s.lcL2).map (1024 + ·)).eraseDups

/-- A byte of memory that changes behind the L2 (R396): a cache that holds its sector keeps the byte that it read. -/
def State.setBehind (s : State) (key : Nat) (b : Byte) : State :=
  { s with
    mem := s.mem.set 0 key b
    l1Old := s.l1Old ++ ((s.cachesOf (key / 256)).filter fun k => !(s.l1Old.any fun y => y.1 == k && y.2.1 == key)).map
      fun k => (k, key, s.byte key) }

/-- Whether the L1 of a core holds a sector. -/
def State.l1Holds (s : State) (k sector : Nat) : Bool := s.l1.any fun x => x.core == k && x.sector == sector

/-- A byte as the L1 of core `k` gives it. -/
def State.l1Byte (s : State) (k key : Nat) : Byte :=
  if s.l1Old.isEmpty then s.byte key
  else
    match s.l1Old.find? fun x => x.1 == k && x.2.1 == key with
    | some x => x.2.2
    | none => s.byte key

/-- `n` bytes as the L1 of core `k` gives them. -/
def State.l1Bytes (s : State) (k key : Nat) : Nat → List Byte
  | 0 => []
  | n + 1 => s.l1Byte k key :: s.l1Bytes k (key + 1) n

/-- Sectors that the L1 of a core holds no longer (R84, R87, R280), nor the private L2 of a latency core. -/
def State.l1Drop (s : State) (k : Nat) (gone : Nat → Bool) : State :=
  { s with
    l1 := s.l1.filter fun x => !(x.core == k && gone x.sector)
    lcL2 := s.lcL2.filter fun x => !(1024 + x.core == k && gone x.sector)
    l1Old := s.l1Old.filter fun x => !(x.1 == k && gone (x.2.1 / 256)) }

/-- Retention under a cache hint (R87): 0 lowest for .stream, 2 highest for .keep at the L2. -/
def l2Keep (ch : Nat) : Nat := if ch = 1 then 0 else if ch = 2 then 2 else 1

/-- The least of a list of sectors with their retention; of equals, the first. -/
def leastKept : List (Nat × Nat) → Option Nat
  | [] => none
  | (x, k) :: l => if l.any (·.2 < k) then leastKept l else some x

/-- The sectors for which the L1 data cache of a core has room: 128 KiB, or 256 KiB in a latency core (R14, R23). -/
def l1Sectors (k : Nat) : Nat := if k < 1024 then 512 else 1024

/-- The sectors for which the private L2 of a latency core has room: 2 MiB (R23). -/
def lcL2Sectors : Nat := 8192

/-- The die of a core, or of latency core k - 1,024. -/
def cacheDie (k : Nat) : Nat := if k < 1024 then k / 64 else (k - 1024) / 8

/-- A sector taken up by a cache that has room for `room` sectors. A full one drops first the sector that it has held longest
among those of the lowest retention (R87; DESIGN CHOICE, log 91). -/
def cacheTake (room k sector keep : Nat) (owner : Option Nat) (l : List L1Sector) : List L1Sector :=
  if l.any fun x => x.core == k && x.sector == sector then l
  else
    let mine := l.filter (·.core == k)
    let l := if mine.length < room then l else
      match leastKept (mine.map fun x => (x.sector, x.keep)) with
      | some y => l.filter fun x => !(x.core == k && x.sector == y)
      | none => l
    l ++ [{ core := k, sector, keep, owner }]

/-- A sector read by a cache of a die through the L2: its die's slice gives it where it holds a copy, else its home slice does,
and a slice of the die that is not the home takes up a copy (R24, R85, R87). -/
def State.dieRead (s : State) (die : Nat) (c : Option Nat) (sector keep : Nat) : State :=
  let homed := homeDie sector == die
  let held := !homed && s.l2.any fun x => x.die == die && x.sector == sector
  let asked := if homed then s.dieCounters else bumpDie die (if held then 0x101 else 0x102) 1 c s.dieCounters
  let e := ({ s with dieCounters := asked } : State).l2Read c (256 * sector) 256 keep
  { s with
    home := if held then s.home else e.home
    counts := if held then s.counts else e.counts
    windowCounts := if held then s.windowCounts else e.windowCounts
    dieCounters := if held then asked else e.dieCounters
    l2 := if homed || held then s.l2 else s.l2 ++ [⟨die, sector, keep, c⟩] }

/-- A sector asked of the L1 of a core, which counts a hit or a miss (R452). -/
def State.l1Counted (s : State) (k sector : Nat) : State :=
  if k < 512 then s.tallyCore k (if s.l1Holds k sector then 0x010 else 0x011) 1 else s

/-- Whether a cache of a core holds a sector: its L1, or the private L2 of a latency core. -/
def State.cacheHolds (s : State) (k sector : Nat) : Bool :=
  s.l1Holds k sector || s.lcL2.any fun x => 1024 + x.core == k && x.sector == sector

/-- A sector taken up by the L1 of a core, with the retention of its hint, and by the private L2 of a latency core, through the
L2 where neither holds it (R23, R84, R85, R87). Old bytes go with the caches that held them. -/
def State.l1Fill (s : State) (k sector ch : Nat) : State :=
  let s := s.l1Counted k sector
  let c := s.actingCtx
  let s := if s.cacheHolds k sector then s else s.dieRead (cacheDie k) c sector (l2Keep ch)
  let l2 := s.l2
  let l1 := cacheTake (l1Sectors k) k sector (if ch = 1 then 0 else 1) c s.l1
  let lcL2 := if k < 1024 then s.lcL2 else cacheTake lcL2Sectors (k - 1024) sector (l2Keep ch) c s.lcL2
  { s with
    l2, l1, lcL2
    l1Old := s.l1Old.filter fun x => x.1 != k || (l1.any fun y => y.core == k && y.sector == x.2.1 / 256)
      || (lcL2.any fun y => 1024 + y.core == k && y.sector == x.2.1 / 256) }

/-- Whether a range meets a poisoned sector. -/
def State.poisoned (s : State) (key n : Nat) : Bool := (sectorsOf key n).any s.poison.contains

/-- A little-endian number in physical memory. -/
def State.num (s : State) (key n : Nat) : Nat := leNat (s.bytes key n)

/-! ## Why an access does not complete -/

/-- A trap with its detail (R349, R350). -/
structure Trap where
  cause : BitVec 8
  faddr : Dword := 0
  detail0 : Dword := 0
  detail1 : Dword := 0
  /-- The thread whose check failed, in a check that covers several ranks. -/
  tid : Option Nat := none
  /-- The access that failed, for the fault record (R423). -/
  acc : Acc := .read
  /-- A walk has met a malformed entry: the fault record has DETAIL 1 (R421). -/
  malformed : Bool := false
  /-- The failed copies that it reports, or that are not reported any more once it is raised (R108). -/
  reports : List Nat := []
  deriving DecidableEq, Repr

/-- Why an instruction does not complete. -/
inductive Stop where
  /-- A trap (R347). -/
  | trap (t : Trap)
  /-- A recoverable page fault (R425). -/
  | page (va : Dword) (acc : Acc)
  /-- The instruction does not issue now: a unit or a result is not available (R32). -/
  | stall
  deriving DecidableEq, Repr

/-- A cause with an address. -/
def trapAt (cause : BitVec 8) (a : Dword) (acc : Acc := .read) : Stop := .trap { cause, faddr := a, acc }

/-- A cause without details. -/
def trapOf (cause : BitVec 8) : Stop := .trap { cause }

/-- Cause codes (R350). -/
def cIllegalOpcode : BitVec 8 := 0x01
/-- ILLEGAL_FIELD. -/
def cIllegalField : BitVec 8 := 0x02
/-- FORMAT_MISMATCH. -/
def cFormat : BitVec 8 := 0x03
/-- MISALIGNED. -/
def cMisaligned : BitVec 8 := 0x04
/-- PAGE_FAULT. -/
def cPageFault : BitVec 8 := 0x05
/-- ACCESS_VIOLATION. -/
def cAccess : BitVec 8 := 0x06
/-- REMOTE_WINDOW. -/
def cRemote : BitVec 8 := 0x07
/-- SCRATCHPAD_RANGE. -/
def cScratch : BitVec 8 := 0x08
/-- ACC_UNALLOCATED. -/
def cAccUnalloc : BitVec 8 := 0x09
/-- ACC_NOT_OWNER. -/
def cAccOwner : BitVec 8 := 0x0A
/-- DIVERGENT_COLLECTIVE. -/
def cDivergent : BitVec 8 := 0x0B
/-- SHIP_WAIT_IN_SECTION. -/
def cShipWait : BitVec 8 := 0x0C
/-- STACK_OVERFLOW. -/
def cStack : BitVec 8 := 0x0D
/-- FLOAT_EXCEPTION. -/
def cFloat : BitVec 8 := 0x0E
/-- BREAKPOINT. -/
def cBreak : BitVec 8 := 0x0F
/-- SOFTWARE. -/
def cSoftware : BitVec 8 := 0x10
/-- UNCORRECTABLE_DATA. -/
def cUncorrectable : BitVec 8 := 0x11
/-- REFINEMENT_EXIT. -/
def cRefine : BitVec 8 := 0x12
/-- RING_MISUSE. -/
def cRing : BitVec 8 := 0x13
/-- PRIVILEGED. -/
def cPriv : BitVec 8 := 0x14

/-! ## Translation (R420 to R422) -/

/-- Where an address leads. -/
inductive Target where
  /-- A key of the one physical space. -/
  | mem (key : Nat)
  /-- An offset into the kick pages (R403). -/
  | kick (off : Nat)
  /-- A remote window: node, export and byte offset (R117). -/
  | remote (node exp off : Nat)
  deriving DecidableEq, Repr

/-- Canonical form (R83). -/
def canonical (va : Dword) : Bool := va.toNat / 2 ^ 56 = 0 || va.toNat / 2 ^ 56 = 0xFF

/-- Page sizes by SPAN, and the level of their leaves (R421). -/
def spanSize (span : Nat) : Option (Nat × Nat) :=
  match span with
  | 0 => some (4, 2 ^ 12) | 1 => some (4, 2 ^ 14) | 2 => some (4, 2 ^ 16) | 3 => some (4, 2 ^ 18)
  | 4 => some (4, 2 ^ 20) | 5 => some (3, 2 ^ 21) | 6 => some (3, 2 ^ 22) | 7 => some (3, 2 ^ 24)
  | 8 => some (3, 2 ^ 26) | 9 => some (3, 2 ^ 28) | 10 => some (2, 2 ^ 30) | 11 => some (2, 2 ^ 32)
  | _ => none

/-- What a walk finds. -/
inductive Walk where
  | leaf (e : Nat) (size : Nat)
  | invalid
  | malformed
  | poison
  /-- A table that lies where no walk may read (R420). -/
  | denied
  deriving DecidableEq, Repr

/-- Bits [hi:lo] of a number. -/
def bitsOf (x hi lo : Nat) : Nat := (x / 2 ^ lo) % 2 ^ (hi - lo + 1)

/-- A leaf entry with its page size, or malformed (R421). -/
def leafOf (e level : Nat) : Walk :=
  match spanSize (bitsOf e 11 8) with
  | none => .malformed
  | some (lv, size) =>
    let tgt := bitsOf e 6 5
    let bad :=
      lv != level || (tgt != 1 && e.testBit 7)
        || (if tgt = 3 then bitsOf e 31 12 % (size / 2 ^ 12) != 0
            else bitsOf e 63 52 != 0 || (bitsOf e 51 12 * 2 ^ 12) % size != 0)
    if bad then .malformed else .leaf e size

/-- A walk from a table down the levels whose index shifts are listed (R420). -/
def State.walk (s : State) (va : Nat) : Nat → Nat → List Nat → Walk
  | _, _, [] => .malformed
  | table, level, sh :: rest =>
    let key := table + 8 * (va / 2 ^ sh % 512)
    if Config.usageBase ≤ table then .denied
    else if s.poisoned key 8 then .poison
    else
      let e := s.num key 8
      if !e.testBit 0 then .invalid
      else if e.testBit 1 then leafOf e level
      else if bitsOf e 11 2 != 0 || bitsOf e 63 52 != 0 then .malformed
      else s.walk va (bitsOf e 51 12 * 2 ^ 12) (level + 1) rest

/-- Whether a TLB entry covers an address of a context. -/
def TlbEntry.covers (t : TlbEntry) (c : Nat) (va : Dword) : Bool :=
  t.ctx == c && decide (t.va ≤ va.toNat) && decide (va.toNat < t.va + t.size)

/-- The number of the TLB of a die (R422): those of the cores have the cores' indices. -/
def dieTlb (die : Nat) : Nat := 512 + die

/-- The TLBs that serve a place, in the order in which they are asked (R422). -/
def Place.tlbs : Place → List Nat
  | .core d c .. | .frame d c .. => [coreIdx d c, dieTlb d]
  | .lc n => [dieTlb (n / 8)]
  | .saved _ => []

/-- The TLBs that serve the agent that acts (R25, R422): queue processors and the events of no die have none. -/
def State.tlbUnits (s : State) : List Nat :=
  match s.cur with
  | .thread tid => ((s.thread? tid).map (·.place.tlbs)).getD []
  | .frag gid _ => ((s.group? gid).map fun g => [coreIdx g.die g.core, dieTlb g.die]).getD []
  | .unit d => [dieTlb d]
  | .queue _ | .none => []

/-- The translation of an address that one of a list of TLBs holds. -/
def State.tlbFind (s : State) (units : List Nat) (c : Nat) (va : Dword) : Option TlbEntry :=
  if s.tlb.isEmpty then none else units.findSome? fun u => s.tlb.find? fun t => t.unit == u && t.covers c va

/-- The walk of an address in a context's tables as they now stand (R420, R422). -/
def State.walkNow (s : State) (c : Nat) (va : Dword) : Walk :=
  match s.ctx? c with
  | none => .invalid
  | some x => s.walk va.toNat x.ptroot 0 [48, 39, 30, 21, 12]

/-- The keys of the entries that a walk reads: table, level and the index shifts left. -/
def State.walkKeys (s : State) (va : Nat) : Nat → List Nat → List Nat
  | _, [] => []
  | table, sh :: rest =>
    let key := table + 8 * (va / 2 ^ sh % 512)
    let e := s.num key 8
    key :: (if e.testBit 0 && !e.testBit 1 then s.walkKeys va (bitsOf e 51 12 * 2 ^ 12) rest else [])

/-- What a walk leaves in the home slices, for the context that walks (R443): the bytecode of a queue processor counts to none.
The walker's die counts it (R25, R452). -/
def State.walkFill (s : State) (die : Option Nat) (c : Nat) (va : Dword) : State :=
  match s.ctx? c with
  | none => s
  | some x =>
    let walker := match s.cur with
      | .queue _ => none
      | _ => some c
    let s := match die with
      | some d => s.tallyDie d 0x104 1 (some c)
      | none => s
    (s.walkKeys va.toNat x.ptroot [48, 39, 30, 21, 12]).foldl (fun s k => s.l2Read walker k 8 1) s

/-- A TLB misses: the counter of its core, or of its die (R452). -/
def State.tlbMiss (s : State) (c : Nat) (unit : Nat) : State :=
  if unit < 512 then s.tallyCore unit 0x013 1 else s.tallyDie (unit - 512) 0x103 1 (some c)

/-- An address looked up for an access: the TLBs that miss count it, and where none holds it the tables are walked (R422, R443,
R452). -/
def State.lookUp (s : State) (c : Nat) (va : Dword) : State :=
  if !canonical va then s
  else
    let units := s.tlbUnits
    let missed := units.takeWhile fun u => (s.tlbFind [u] c va).isNone
    let s := missed.foldl (fun s u => s.tlbMiss c u) s
    if missed.length < units.length then s else s.walkFill ((units.getLast?).map (· - 512)) c va

/-- The leaf for an address in a context: the entry that a TLB of the acting agent still holds, or the walk's (R422). -/
def State.leaf (s : State) (c : Nat) (va : Dword) : Walk :=
  match s.tlbFind s.tlbUnits c va with
  | some t => .leaf t.leaf.toNat t.size
  | none => s.walkNow c va

/-- Where a leaf leads for an address. -/
def leafTarget (e size : Nat) (va : Dword) : Target :=
  let off := va.toNat % size
  if bitsOf e 6 5 = 3 then .remote (bitsOf e 63 48) (bitsOf e 47 32) (bitsOf e 31 12 * 2 ^ 12 + off)
  else
    let pa := bitsOf e 51 12 * 2 ^ 12 + off
    match bitsOf e 6 5 with
    | 0 => if Config.kickBase ≤ pa ∧ pa < Config.kickBase + 128 * 4096 then .kick (pa - Config.kickBase) else .mem pa
    | 1 => .mem ((if e.testBit 7 then Config.hbKey else Config.haKey) + pa)
    | _ => .mem (Config.cxKey + pa)

/-- Whether a leaf permits an access (R420). -/
def leafAllows (e : Nat) : Acc → Bool
  | .read => e.testBit 2
  | .write => e.testBit 3
  | .rmw => e.testBit 2 && e.testBit 3
  | .fetch => e.testBit 4

/-- Translation without the permissions (R167). -/
def State.locate (s : State) (c : Nat) (va : Dword) (acc : Acc) (test : Bool) : Except Stop Target :=
  if !canonical va then .error (trapAt cAccess va acc)
  else
    match s.leaf c va with
    | .poison => .error (trapAt cUncorrectable va acc)
    | .denied => .error (trapAt cAccess va acc)
    | .malformed => .error (.trap { cause := cPageFault, faddr := va, acc, malformed := true })
    | .invalid =>
      if (s.ctx? c).any (·.recov) then .error (.page va acc) else .error (trapAt cPageFault va acc)
    | .leaf e size =>
      if test && !leafAllows e acc then .error (trapAt cAccess va acc)
      else
        match leafTarget e size va with
        | .mem key =>
          if key < Config.haKey ∧ Config.usageBase ≤ key then .error (trapAt cAccess va acc) else .ok (.mem key)
        | t => .ok t

/-- The physical key of an access that no remote window and no kick page may take. -/
def State.key (s : State) (c : Nat) (va : Dword) (acc : Acc) : Except Stop Nat :=
  match s.locate c va acc true with
  | .error e => .error e
  | .ok (.mem key) => .ok key
  | .ok (.kick _) => .error (trapAt cAccess va acc)
  | .ok (.remote ..) => .error (trapAt cRemote va acc)

/-- A load of up to a page's rest in one translation. -/
def State.loadOne (s : State) (c : Nat) (va : Dword) (n : Nat) (acc : Acc) : Except Stop (List Byte) :=
  match s.key c va acc with
  | .error e => .error e
  | .ok key => if s.poisoned key n then .error (trapAt cUncorrectable va acc) else .ok (s.bytes key n)

/-- A load of `n` bytes, at most 4,096, that may cross into a second page. -/
def State.load (s : State) (c : Nat) (va : Dword) (n : Nat) : Except Stop (List Byte) :=
  let first := 4096 - va.toNat % 4096
  if n ≤ first then s.loadOne c va n .read
  else
    match s.loadOne c va first .read with
    | .error e => .error e
    | .ok l =>
      match s.loadOne c (va + BitVec.ofNat 64 first) (n - first) .read with
      | .error e => .error e
      | .ok r => .ok (l ++ r)

/-- Bytes written at their home slice in the name of a context (R85, R432, R443). -/
def State.putFor (s : State) (c key : Nat) (l : List Byte) : State := s.putMemAs (some c) 1 key l

/-- What a read of a context leaves in the home slices, with the retention of its hint (R85, R87, R226, R443). -/
def State.readFill (s : State) (c : Nat) (va : Dword) (n : Nat) (keep : Nat := 1) : State :=
  match s.key c va .read with
  | .ok key => (s.lookUp c va).l2Read (some c) key n keep
  | .error _ => s.lookUp c va

/-- A store of bytes that lie in one page. -/
def State.store (s : State) (c : Nat) (va : Dword) (l : List Byte) : Except Stop State :=
  match s.key c va .write with
  | .error e => .error e
  | .ok key => .ok ((s.lookUp c va).putFor c key l)

/-- The number at an address. -/
def State.loadNat (s : State) (c : Nat) (va : Dword) (n : Nat) : Except Stop Nat := (s.load c va n).map leNat

/-! ## Context memory (R73, R105, R173, R418, R430) -/

/-- A number of bytes as whole pages of 64 KiB. -/
def pages64 (n : Nat) : Nat := (n + 65535) / 65536 * 65536

/-- Bytes of an adoption frame, and of a thread in a save image, with `r` registers (R73, R430). -/
def frameBytes (r : Nat) : Nat := (4 * r + r / 2 + 256 + 255) / 256 * 256

/-- Where the section stack of a latency core lies (R173): the manual gives no place in context memory, and the model lays
the 64 stacks out behind the fault queue (DESIGN CHOICE, log 13). -/
def Ctx.stackAt (x : Ctx) (lc : Nat) : Nat := x.cmbase + pages64 (64 + 32 * 2 ^ x.fqlog2) + lc * 65536

/-- Bytes of a core's adoption areas (R73): 4 frames of the largest thread for each of its 2,048 slots. -/
def adoptBytes : Nat := 2048 * 4 * frameBytes 248

/-- Bytes of a core's save space, which holds what R430 lists for a full core: 2,048 threads with an owned-future list
and a replay-pending access each, 1,024 groups, the scratchpad, 24 banks, the descent engine and 16 rings (DESIGN CHOICE,
log 18). -/
def saveBytes : Nat := 2048 * (frameBytes 248 + 128 + 32) + 1024 * 1024 + 262144 + 24 * 12288 + 2368 + 16 * 8

/-- Bytes of context memory that a core set of `cores` takes when `ever` cores have stood in it (R418): the fault queue and
the section stacks, for each core of the set its spill area, its adoption areas and its save space, and for each core ever
given its room in the pool (R461). -/
def Ctx.layoutBytes (x : Ctx) (cores ever : Nat) : Nat :=
  pages64 (64 + 32 * 2 ^ x.fqlog2) + 64 * 65536 + cores * (64 * x.spillrec + adoptBytes + saveBytes)
    + ever * (64 * (1024 + x.spillrec))

/-- Whether an address of device memory lies in the part of a context's memory that the device alone writes, in a form that
the manual does not give: spilled and pooled records, frames, images and owned-future lists (R105). The model keeps what they
hold as data of its own (DESIGN CHOICE, log 13). -/
def State.deviceOwned (s : State) (pa : Nat) : Bool :=
  s.ctxs.any fun p => p.2.any fun x =>
    decide (x.stackAt 64 ≤ pa) && decide (pa < x.cmbase + x.layoutBytes x.cores.length x.everCores.length)

/-! ## Fault records (R423 to R425) -/

/-- A record held for a context's fault queue; FAULT_RECORD_WRITE writes it (R423). -/
def State.postRecord (s : State) (c : Nat) (r : FaultRec) : State :=
  s.updCtx c fun x => { x with heldRecs := x.heldRecs ++ [{ r with time := s.time }] }

/-- The code of an access in a record. -/
def Acc.code : Acc → Nat
  | .read => 0 | .write => 1 | .rmw => 2 | .fetch => 3

/-- A fault record as its 32 bytes. -/
def FaultRec.toNat (r : FaultRec) : Nat :=
  r.time.toNat * 2 ^ 192 + r.addr.toNat * 2 ^ 128 + r.task.toNat * 2 ^ 96 + r.detail.toNat * 2 ^ 64 + r.die % 8 * 2 ^ 61
    + r.agent % 32 * 2 ^ 56 + r.unit % 256 * 2 ^ 48 + r.cause % 256 * 2 ^ 40 + r.kind % 16 * 2 ^ 36 + r.acc.code * 2 ^ 32
    + r.fid % 2 ^ 16 * 2 ^ 16

/-- An interrupt sent to a function. -/
def State.interrupt (s : State) (func vector : Nat) : State := { s with irqs := ⟨func, vector⟩ :: s.irqs }

/-- A record that has been written is routed (R424). -/
def State.routeRecord (s : State) (c : Nat) (x : Ctx) (r : FaultRec) (seq : Nat) : State :=
  let e := (s.routing[r.kind]?).getD (false, false)
  if e.2 then s.updCtx c fun x => { x with claims := x.claims ++ [{ seq, fid := r.fid, since := s.elapsed, host := e.1 }] }
  else if e.1 then s.interrupt x.func x.fvec
  else s

/-- The oldest record held for a context written, where its queue has room: TAIL then advances, and the record is routed
(R423, R424). -/
def State.writeRecord (s : State) (c : Nat) : State :=
  match s.ctx? c with
  | none => s
  | some x =>
    match x.heldRecs with
    | [] => s
    | r :: rest =>
      let tail := s.num x.cmbase 4
      let head := s.num (x.cmbase + 8) 4
      if 2 ^ x.fqlog2 ≤ (tail + 2 ^ 32 - head) % 2 ^ 32 then s
      else
        let s := s.putFor c (x.cmbase + 64 + 32 * (tail % 2 ^ x.fqlog2)) (natLe 32 r.toNat)
        let s := s.putFor c x.cmbase (natLe 4 (tail + 1))
        ((s.updCtx c fun x => { x with heldRecs := rest }).routeRecord c x r tail).tallyIo 2 c 0x20A (some c)

/-- Every record held for a context written, as far as its queue has room. -/
def State.writeRecords (s : State) (c : Nat) : State :=
  (List.range (((s.ctx? c).map (·.heldRecs.length)).getD 0)).foldl (fun s _ => s.writeRecord c) s

/-- The next fault ID: non-zero and not outstanding (R425). -/
def Ctx.freshFid (x : Ctx) : Nat → Nat → Nat
  | 0, n => n
  | fuel + 1, n =>
    let n := if n % 65536 = 0 then 1 else n % 65536
    if x.fids.any (·.fid == n) then x.freshFid fuel (n + 1) else n

/-- A recoverable page fault: the fault ID of this page, access and die, opened with a KIND 0 record if none is
outstanding (R425). -/
def State.openFault (s : State) (c : Nat) (va : Dword) (acc : Acc) (r : FaultRec) : Nat × State :=
  match s.ctx? c with
  | none => (0, s)
  | some x =>
    let page := va.toNat / 4096
    match x.fids.find? fun f => f.page == page && f.acc == acc && f.die == r.die with
    | some f => (f.fid, s)
    | none =>
      let fid := x.freshFid 65536 x.nextFid
      let s := s.updCtx c fun x => { x with nextFid := fid + 1, fids := x.fids ++ [⟨fid, page, acc, r.die⟩] }
      (fid, s.postRecord c { r with addr := va, cause := 5, kind := 0, acc, fid })

/-! ## Messages to other devices (R413) -/

/-- The payload bytes of a message (R181, R443). A SHIP request carries its entry address and its lock address, 8 bytes
each, its counts in 4 bytes, and its argument words; its result carries the result words: the manual names these parts
(R166) and gives no sizes (DESIGN CHOICE, log 77). -/
def NetMsg.payload : NetMsg → Nat
  | .put _ _ _ _ _ l | .getResp _ _ l => l.length
  | .flag .. => 8
  | .ship _ _ _ _ _ r => 20 + 4 * r.args.length
  | .shipResult _ _ _ l => 4 * l.length
  | _ => 0

/-- The flow with a node. -/
def Net.flow (x : Net) (node : Nat) : Flow := (x.flows.find? (·.node == node)).getD { node }

/-- The flow with a node replaced. -/
def Net.setFlow (x : Net) (f : Flow) : Net := { x with flows := x.flows.filter (·.node != f.node) ++ [f] }

/-- The numbers of the active ports. -/
def Net.active (x : Net) : List Nat := (List.range x.ports.length).filter fun p => (x.ports[p]?).getD false

/-- The port that a number of a flow goes to: the messages of a flow are spread over the active ports (R413). -/
def Net.portOf (x : Net) (n : Nat) : Option Nat := x.active[n % x.active.length]?

/-- Whether a node is in the peer table and reachable (R412, R414). -/
def Net.reaches (x : Net) (node : Nat) : Bool := (x.peers.find? (·.node == node)).any (·.reachable)

/-- A message put on the wire, on a port that is active; none is sent while no port is, nor to a peer that is not reachable
(R414). -/
def Net.transmit (x : Net) (o : OutMsg) : Net :=
  match if x.reaches o.node then x.portOf o.seq else none with
  | some p => { x with wire := { o with port := some p } :: x.wire }
  | none => x

/-- A message of a context put on the wire to a node counted at the I/O die of its port (R452). -/
def State.tallySent (s : State) (node seq src : Nat) (c : Option Nat) : State :=
  match if s.net.reaches node then s.net.portOf seq else none with
  | some p => s.tallyIo 1 p src c
  | none => s

/-- A message put on the wire to a device and kept until it is acknowledged (R413). -/
def State.send (s : State) (node : Nat) (m : NetMsg) (refusal : Option FaultRec := none) (ctx : Option Nat := none) : State :=
  let f := s.net.flow node
  let x := s.net.setFlow { f with next := (f.next + 1) % 2 ^ 32 }
  let o : OutMsg := { node, seq := f.next, msg := m, port := x.portOf f.next, sent := s.elapsed, refusal }
  ({ s with net := { x with out := x.out ++ [o] }.transmit o } : State).tallySent node f.next 0x203 ctx

/-- An acknowledgement or a refusal, which is neither numbered nor kept (R413). -/
def State.reply (s : State) (node : Nat) (m : NetMsg) : State :=
  ({ s with net := s.net.transmit { node, seq := 0, msg := m, sent := s.elapsed } } : State).tallySent node 0 0x203 none

/-- A message of a context: its payload bytes are counted once (R443). -/
def State.sendFor (s : State) (ctx node : Nat) (m : NetMsg) (refusal : Option FaultRec := none) : State :=
  (s.count ctx fun u => { u with nettx := u.nettx + m.payload }).send node m refusal (some ctx)

/-! ## Packets (R405, R407) -/

/-- Whether a queue's CCOUNT has reached a count (R407). -/
def chainHolds (ccount count : Word) : Bool := decide ((ccount - count).toNat < 2 ^ 31)

/-- The packets at the head of a list that are complete: how many, and the rest. -/
def completeHead : List Packet → Nat × List Packet
  | [] => (0, [])
  | p :: l =>
    if p.ended && p.left == 0 && p.futs.isEmpty then
      let r := completeHead l
      (r.1 + 1, r.2)
    else (0, p :: l)

/-- CCOUNT counts the complete packets in index order (R405), and a packet that waits for every earlier one goes on
(R408). -/
def Queue.settle (x : Queue) : Queue :=
  let r := completeHead x.packets
  let x := { x with ccount := x.ccount + BitVec.ofNat 32 r.1, packets := r.2 }
  if x.block = some .barrier ∧ x.packets.length ≤ 1 then { x with block := none, state := .running } else x

/-- The waiters of other devices on a queue's CCOUNT that it has reached are told (R407). -/
def State.notifyChains (s : State) (q : Nat) : State :=
  let cc := (s.queue q).ccount
  let mine : RemoteWait → Bool := fun w => match w with
    | .chain _ _ q' count => q' == q && chainHolds cc count
    | _ => false
  (s.net.waits.filter mine).foldl
    (fun s w => match w with
      | .chain node rq q' _ => s.send node (.chainNotify ⟨rq, q'⟩ cc)
      | _ => s)
    { s with net := { s.net with waits := s.net.waits.filter fun w => !mine w } }

/-- A queue's packets settled, and its waiters told. -/
def State.settleQueue (s : State) (q : Nat) : State := (s.updQueue q Queue.settle).notifyChains q

/-- Work of a packet ends: the packet completes when none is left and its program has ended (R405). -/
def State.workEnded (s : State) (l : Option (Nat × Nat)) : State :=
  match l with
  | none => s
  | some (q, serial) =>
    (s.updQueue q fun x =>
      { x with packets := x.packets.map fun p => if p.serial = serial then { p with left := p.left - 1 } else p }).settleQueue q

/-- Whether an address of context `k` is the future at a key, which context `c` names by `va`: by the same address, or by any
other that leads to the same place. -/
def State.namesFuture (s : State) (c : Nat) (va : Dword) (key k : Nat) (e : Dword) : Bool :=
  (k == c && e == va) || (match s.locate k e .read false with
    | .ok (.mem x) => x == key
    | _ => false)

/-- The future that a context names by an address, at a key, has been fulfilled: the packets that created it count it
(R405). -/
def State.futureDone (s : State) (c : Nat) (va : Dword) (key : Nat) : State :=
  let is := fun (f : Nat × Dword) => s.namesFuture c va key f.1 f.2
  (s.queues.filter fun p => p.2.packets.any fun k => k.futs.any is).foldl
    (fun s p => (s.updQueue p.1 fun x =>
      { x with packets := x.packets.map fun k => { k with futs := k.futs.filter (!is ·) } }).settleQueue p.1) s

/-! ## Futures (R63 to R67) and device-made updates (R459) -/

/-- Whether a thread waits on the future at a key (R285): the device keeps waiters by location. -/
def State.waitersAt (s : State) (key : Nat) : Bool :=
  s.threads.any fun t =>
    match t.status with
    | .parked (.future va _) =>
      match s.locate t.ctx va .read false with
      | .ok (.mem k) => k == key
      | _ => false
    | _ => false

/-- State bits of the future at a key. -/
def State.futureState (s : State) (key : Nat) : Nat := s.num (key + 12) 4 % 4

/-- A future taken from the owned-future list that holds it, whichever context's (R65). -/
def State.dropOwned (s : State) (c : Nat) (va : Dword) (key : Nat) : State :=
  let rest := fun (k : Nat) (l : List Dword) => l.filter fun e => !s.namesFuture c va key k e
  let rec' := fun (r : QRec) => { r with owned := rest r.ctx r.owned }
  { s with
    tasks := s.tasks.map fun t => { t with owned := rest t.ctx t.owned }
    cores := s.cores.map fun p => (p.1, { p.2 with queue := p.2.queue.map rec', spill := p.2.spill.map rec' })
    ctxs := s.ctxs.map fun p =>
      (p.1, p.2.map fun x =>
        { x with pool := x.pool.map fun
                  | .record r => .record (rec' r)
                  | e => e }) }

/-- The one atomic update of a future at its home (R67): the change, if the state is EMPTY. -/
def State.applyUpd (s : State) (c : Nat) (va : Dword) (key : Nat) (k : UpdKind) : State :=
  if s.futureState key != 0 then s
  else
    match k with
    | .fulfil st w0 w1 =>
      let chain := s.num (key + 12) 4 / 4 * 4
      let s := (s.putFor c key (natLe 4 w0.toNat ++ natLe 4 w1.toNat)).putFor c (key + 12) (natLe 4 (chain + st))
      (s.dropOwned c va key).futureDone c va key
    | .owner w2 => s.putFor c (key + 8) (natLe 4 w2.toNat)
    | .progress w0 w1 => s.putFor c key (natLe 4 w0.toNat ++ natLe 4 w1.toNat)

/-- A device-made update (R459): made, waiting for a page fault, or dropped with a KIND 3 record. -/
def State.devUpdate (s : State) (c : Nat) (va : Dword) (k : UpdKind) (agent die unit : Nat) (task : Word) : State :=
  let s := s.lookUp c va
  match s.key c va .rmw with
  | .ok key =>
    if s.poisoned key 16 then
      s.postRecord c { time := 0, addr := va, task, die, agent, unit, cause := 0x11, kind := 3, acc := .rmw }
    else s.applyUpd c va key k
  | .error (.page ..) =>
    let r := s.openFault c va .rmw { time := 0, task, die, agent, unit }
    r.2.updCtx c fun x => { x with updates := x.updates ++ [{ ctx := c, va, kind := k, agent, die, unit, task, fid := r.1 }] }
  | .error (.trap t) =>
    s.postRecord c { time := 0, addr := va, task, detail := if t.malformed then 1 else 0, die, agent, unit,
                     cause := t.cause.toNat, kind := 3, acc := .rmw }
  | .error .stall => s

/-- Fulfilment of the future at `va`, if the command names one: address 0 names none, also for the token of a SHIP.C (DEDUCED,
log 42). -/
def State.fulfil (s : State) (c : Nat) (va : Dword) (st : Nat) (w0 w1 : Word) (agent die unit : Nat) (task : Word) : State :=
  if va = 0 then s else s.devUpdate c va (.fulfil st w0 w1) agent die unit task

/-- A count of bytes as words 0 and 1. -/
def countWords (n : Nat) : Word × Word := (BitVec.ofNat 32 n, BitVec.ofNat 32 (n / 2 ^ 32))

/-! ## Bulk copies: where their bytes go, and how they fail (R91, R110 to R114, R330) -/

/-- The chunk of an offset permuted by a row's index (R91). -/
def rotate (rot i a : Nat) : Nat :=
  if rot = 0 then a else a / 512 * 512 + 16 * ((a / 16 % 32) ^^^ (i / 2 ^ (rot - 1) % 32)) + a % 16

/-- Index tuples below a list of sizes, the first index fastest. -/
def indexTuples : List Nat → List (List Nat)
  | [] => [[]]
  | n :: l => (indexTuples l).flatMap fun t => (List.range n).map fun i => i :: t

/-- The offset of an index tuple under strides. -/
def strideOff : List Nat → List Int → Int
  | i :: l, d :: m => i * d + strideOff l m
  | _, _ => 0

/-- The address of a byte on one side of a copy: a virtual address, an offset in the allocation, or the position in the
stream of a ring (R330). -/
def CopySide.addr (side : CopySide) (rot : Nat) (off : Int) (i1 pos : Nat) : Nat :=
  match side with
  | .global va => ((va.toNat : Int) + off).emod (2 ^ 64) |>.toNat
  | .scratch o => rotate rot i1 ((o : Int) + off).toNat
  | .ring _ => pos

/-- The source and the destination of every byte of a copy, dimension 0 fastest (R330). -/
def CopyDesc.pairs (d : CopyDesc) : List (Nat × Nat) :=
  (indexTuples d.sizes).zipIdx.flatMap fun q => (List.range d.size0).map fun i0 =>
    let i1 := q.1.headD 0
    let pos := q.2 * d.size0 + i0
    (d.src.addr d.srot (strideOff q.1 d.sstride + i0) i1 pos, d.dst.addr d.drot (strideOff q.1 d.dstride + i0) i1 pos)

/-- The bytes of a copy. -/
def CopyDesc.bytes (d : CopyDesc) : Nat := d.size0 * d.sizes.foldl (· * ·) 1

/-- The destination sectors of a copy (R111). -/
def CopyDesc.sectors (d : CopyDesc) : List Nat := (d.pairs.map (·.2 / 256)).eraseDups

/-- A trap of an access that a command makes, as its failure. -/
def Trap.failure (t : Trap) : Failure := { cause := t.cause.toNat, addr := t.faddr, acc := t.acc, malformed := t.malformed }

/-- A command fails (R112, R113, R190, R328): its future FAULTED with the cause and a count, or else a fault record. A
malformed entry of the tables gives its record with DETAIL 1 in both cases (R421). -/
def State.commandFails (s : State) (ctx : Nat) (fut : Dword) (x : Failure) (n : Nat) (agent die unit : Nat) (task : Word) :
    State :=
  let rec' : FaultRec :=
    { time := 0, addr := x.addr, task, detail := if x.malformed then 1 else BitVec.ofNat 32 n, die, agent, unit
      cause := x.cause % 256, kind := 3, acc := x.acc }
  if fut ≠ 0 then
    (if x.malformed then s.postRecord ctx rec' else s).fulfil ctx fut 2 (BitVec.ofNat 32 x.cause) (BitVec.ofNat 32 n) agent
      die unit task
  else s.postRecord ctx rec'

/-- A byte of memory that now holds a free value. -/
def State.freeByte (s : State) (key : Nat) : State :=
  let r := s.freshBits
  { r.2 with
    mem := r.2.mem.set 0 key (r.1.setWidth 8), dirty := keyInsert r.2.dirty (key / 256)
    home := homeTake none 1 true r.2.home (key / 256) }

/-- Bytes of a block of one page that now hold free values, where the block may be written. -/
def State.freeBlock (s : State) (ctx : Nat) (va : Dword) (n : Nat) : State :=
  match s.key ctx va .write with
  | .ok key => (List.range n).foldl (fun s i => s.freeByte (key + i)) s
  | .error _ => s

/-- Bytes at virtual addresses that now hold unspecified values (R112). -/
def State.scramble (s : State) (ctx : Nat) (vas : List Nat) : State :=
  vas.foldl
    (fun s a =>
      match s.key ctx (BitVec.ofNat 64 a) .write with
      | .ok key => s.freeByte key
      | .error _ => s) s

/-- Bytes of a scratchpad that now hold free values. -/
def State.freeScratch (s : State) (keys : List Nat) : State :=
  keys.foldl (fun s a => let r := s.freshBits; { r.2 with scratch := putBytes r.2.scratch a [r.1.setWidth 8] }) s

/-- In place of the core of a ring copy whose task is saved: it has none (R102). -/
def noCore : Nat := 512

/-- The ring of a side. -/
def CopySide.ring? : CopySide → Option Nat
  | .ring n => some n
  | _ => none

/-- A ring of a core. -/
def State.ring (s : State) (k n : Nat) : Ring := ((s.core k).rings[n]?).getD {}

/-- The bytes of an entry (R94). -/
def Ring.entryBytes (r : Ring) : Nat := 256 * (r.esize + 1)

/-- The entries of a copy into a ring. -/
def BulkCopy.entries (b : BulkCopy) (r : Ring) : Nat := (b.desc.bytes + r.entryBytes - 1) / r.entryBytes

/-- The key of a byte of a copy's stream in the ring entry that it has taken for it (R95, R114). -/
def BulkCopy.ringKey (b : BulkCopy) (r : Ring) (pos : Nat) : Nat :=
  b.base + 512 * r.base + ((b.slots[pos / r.entryBytes]?).getD 0) * r.entryBytes + pos % r.entryBytes

/-- The sectors of a copy's stream that lie in ring entries which it has taken, and which it has not written. -/
def BulkCopy.ringLeft (b : BulkCopy) (r : Ring) : List Nat :=
  b.desc.sectors.filter fun x => !b.done.contains x && decide (256 * x / r.entryBytes < b.slots.length)

/-- The bytes of the sectors that a copy has not written hold unspecified values (R112, R342): for a ring, those of the
entries that it has taken. -/
def State.scrambleCopy (s : State) (b : BulkCopy) : State :=
  let left := (b.desc.pairs.filter fun p => !b.done.contains (p.2 / 256)).map (·.2)
  match b.desc.dst with
  | .global _ => s.scramble b.ctx left
  | .scratch _ => s.freeScratch (left.map (b.base + ·))
  | .ring n =>
    -- a copy whose task is saved stands inside no entry (R102)
    let r := s.ring b.core n
    let open' := if b.core = noCore then [] else b.ringLeft r
    s.freeScratch ((left.filter fun a => open'.contains (a / 256)).map (b.ringKey r))

/-! ## What a context's commands have not written (R342) -/

/-- The offset of byte `j` of row `i` of tile `t` (R90, R91). -/
def OpDesc.addr (d : OpDesc) (t i j : Nat) : Nat := rotate d.rot i (d.base + t * d.tilePitch + i * d.rowBytes + j)

/-- The pairs (i, j) of a rectangle, row by row. -/
def rect (rows cols : Nat) : List (Nat × Nat) := (List.range rows).flatMap fun i => (List.range cols).map fun j => (i, j)

/-- The bytes of an element of a drain's target. -/
def drainBytes : Fmt → Nat
  | .f64 => 8
  | .f32 | .i32 => 4
  | .bf16 | .f16 => 2
  | _ => 1

/-- The destination of a drain's elements: address or key, and cell (R327). -/
def DrainOp.elems (o : DrainOp) (base : Nat) : List (Nat × Nat × Nat) :=
  let n := drainBytes o.tfmt
  (rect o.rows o.cols).map fun p =>
    let at' := if o.global then (o.addr + BitVec.ofNat 64 (16 * p.1 * o.gpitch + p.2 * n)).toNat
      else base + o.desc.addr 0 p.1 (p.2 * n)
    (at', o.row0 + p.1, p.2)

/-- The addresses, or the scratchpad keys, of the bytes that a drain has not written. -/
def DrainOp.left (o : DrainOp) (base : Nat) (done : List Nat) : List Nat :=
  ((o.elems base).filter fun e => !done.contains (e.1 / 256)).flatMap fun e =>
    (List.range (drainBytes o.tfmt)).map (e.1 + ·)

/-- The bytes that a drain has not written hold unspecified values (R112, R342). -/
def State.scrambleDrain (s : State) (m : MCmd) (o : DrainOp) (done : List Nat) : State :=
  if o.global then s.scramble m.ctx (o.left m.base done) else s.freeScratch (o.left m.base done)

/-- The node that a row passes at level `d` of its path (R184, R187). -/
def pathNode (path : Word) (d : Nat) : Nat := 2 ^ d - 1 + path.toNat % 2 ^ 24 / 2 ^ (24 - d)

/-- The contributions to nodes: node, row and level, of every valid row (R193). -/
def gradTerms (n : Nat) (path : SMap Word) : List (Nat × Nat × Nat) :=
  (List.range n).flatMap fun i =>
    let p := path.get 0 i
    if p.getLsbD 31 then (List.range (p.toNat / 2 ^ 24 % 32)).map fun d => (pathNode p d, i, d) else []

/-- The elements of the gradient tree at a list of nodes: address, node and element (R193). -/
def DCmd.nodeElems (m : DCmd) (tree : Dword) (nodes : List Nat) : List (Nat × Nat × Nat) :=
  nodes.flatMap fun nd => (List.range (m.cfg.dim + 1)).map fun j =>
    ((tree + BitVec.ofNat 64 (nd * m.cfg.nstride + 4 * j)).toNat, nd, j)

/-- The elements of the gradient tree that a command touches (R193). -/
def DCmd.gradElems (m : DCmd) (n : Nat) (tree : Dword) (path : SMap Word) : List (Nat × Nat × Nat) :=
  m.nodeElems tree ((gradTerms n path).map (·.1)).eraseDups

/-- Bytes of the gradient tree that a command has not written hold unspecified values (R112, R342). -/
def State.scrambleGrad (s : State) (m : DCmd) (elems : List (Nat × Nat × Nat)) (done : List Nat) : State :=
  s.scramble m.ctx ((elems.filter fun e => !done.contains (e.1 / 256)).flatMap fun e => (List.range 4).map (e.1 + ·))

/-- The elements of the gradient tree that a command of an engine may still write (R342): behind a run, whose paths are not known,
those of every node of a tree of its depth. -/
def Descent.gradLeft (d : Descent) (m : DCmd) (n : Nat) (tree : Dword) : List (Nat × Nat × Nat) :=
  let depths := (d.cmds.takeWhile (·.seq != m.seq)).filterMap fun x => match x.op with
    | .run .. => some x.cfg.depth
    | .grad .. => none
  if depths = [] then m.gradElems n tree d.path else m.nodeElems tree (List.range (2 ^ depths.foldl max 0 - 1))

/-- What a descent command would still write: the entries of its output area, the segment table at its longest, or its part of
the gradient tree. -/
def State.scrambleDescent (s : State) (d : Descent) (m : DCmd) : State :=
  match m.op with
  | .run n _ out =>
    let at' := m.base + out
    s.freeScratch ((List.range (2 * n)).map (at' + ·) ++ (List.range (4 * n)).map (at' + 512 + ·)
      ++ (List.range (16 + 16 * n)).map (at' + 1536 + ·))
  | .grad n _ _ tree => s.scrambleGrad m (d.gradLeft m n tree) m.done

/-- What a saved descent command would still write to memory: its scratchpad has gone with its task. -/
def State.scrambleSaved (s : State) (d : Descent) (m : DCmd) : State :=
  match m.op with
  | .run .. => s
  | .grad n _ _ tree => s.scrambleGrad m (d.gradLeft m n tree) m.done

/-- Whether an operation's allocation lies in its task's image (R342). -/
def State.inImage (s : State) (r : Rma) : Bool := (s.task? r.task).any fun k => k.loc == .saved

/-- The bytes of LOCAL that a RMA.GET has not received: those of an image go with it. -/
def State.scrambleRma (s : State) (r : Rma) : State :=
  if r.put || (r.scratch && s.inImage r) then s
  else
    let offs := (r.todo ++ r.parts.map fun p => (p.off, p.n)).flatMap fun p => (List.range p.2).map (p.1 + ·)
    if r.scratch then s.freeScratch (offs.map fun o => r.base + r.loc.toNat + o)
    else s.scramble r.ctx (offs.map fun o => (r.loc + BitVec.ofNat 64 o).toNat)

/-- The bytes that a context's commands have not written when they stop hold unspecified values (R342). -/
def State.scrambleCtx (s : State) (c : Nat) : State :=
  let s := (s.copies.filter (·.ctx == c)).foldl State.scrambleCopy s
  let s := s.cores.foldl (fun s p =>
    let s := (p.2.engines.flatten.filter (·.ctx == c)).foldl (fun s m => match m.op with
      | .drain o => s.scrambleDrain m o o.done
      | _ => s) s
    (p.2.descent.cmds.filter (·.ctx == c)).foldl (State.scrambleDescent · p.2.descent) s) s
  let s := (s.tasks.filter (·.ctx == c)).foldl (fun s k =>
    (k.image.descent.toList.flatMap fun d => d.cmds.map fun m => (d, m)).foldl (fun s p => s.scrambleSaved p.1 p.2) s) s
  (s.net.rmas.filter (·.ctx == c)).foldl State.scrambleRma s

/-- Whether a task's allocation is still in use by a copy, a command or a drain (R88). -/
def State.allocBusy (s : State) (k : Nat) (a : Alloc) : Bool :=
  let lo := k * 2 ^ 18 + a.base
  let hits := fun (key n : Nat) => decide (key < lo + a.size) && decide (lo < key + n)
  (s.ldas.any fun l => l.failed.isNone && hits l.dst l.size)
    || (s.copies.any fun c => c.core == k && hits c.base c.size)
    || (s.net.rmas.any fun r => !s.inImage r && hits r.base r.size)
    || ((s.core k).engines.any fun e => e.any fun m => hits m.base m.size)
    || ((s.core k).descent.cmds.any fun m => hits m.base m.size)

/-- Allocations of ended tasks whose last user has completed are released (R88). -/
def State.sweepAllocs (s : State) (k : Nat) : State :=
  s.updCore k fun c => { c with allocs := c.allocs.filter fun a => !a.ended || s.allocBusy k a }

/-- A bulk copy ends FAULTED with a cause, and drops its chained command (R112, R113). -/
def State.copyFails (s : State) (b : BulkCopy) (x : Failure) : State :=
  let s := s.scrambleCopy b
  let s : State := { s with copies := s.copies.filter (·.id != b.id) }
  let s := if b.size = 0 ∨ b.core = noCore then s else s.sweepAllocs b.core
  let s := s.commandFails b.ctx b.fut x b.done.length 2 b.die b.unit b.taskHandle
  let s := match b.chain with
    | some (_, m) => s.fulfil b.ctx m.fut 3 6 (BitVec.ofNat 32 (x.cause % 256)) 2 b.die b.unit b.taskHandle
    | none => s
  s.workEnded b.launch

/-- The copies into the rings of a task that ends fail (R96). -/
def State.failRingCopies (s : State) (id : Nat) : State :=
  (s.copies.filter fun b => b.task == id && (match b.desc.dst with
    | .ring _ => true
    | _ => false)).foldl (fun s b => s.copyFails b { cause := 0x13 }) s

/-! ## Owner handles (R64) -/

/-- No owner. -/
def noOwner : Word := 0xFFFFFFFF

/-- The handle of a task that holds a slot. -/
def slotHandle (die core lane slot : Nat) : Word :=
  BitVec.ofNat 32 (die * 2 ^ 29 + core * 2 ^ 23 + lane * 64 + slot)

/-- The handle of a record, or of a saved task: the core that holds or held it, and its record number (DEDUCED, log 20). -/
def recordHandle (die core num : Nat) : Word := BitVec.ofNat 32 (die * 2 ^ 29 + core * 2 ^ 23 + 2 ^ 21 + num % 2 ^ 21)

/-- The handle of a latency core. -/
def lcHandle (n : Nat) : Word := BitVec.ofNat 32 (n / 8 * 2 ^ 29 + 2 * 2 ^ 21 + n % 8)

/-- The owned futures of a task rewritten with a handle (R65), for the task that `task` names (R423, R459). -/
def State.rewriteOwned (s : State) (c : Nat) (owned : List Dword) (h task : Word) (die unit : Nat) : State :=
  owned.foldl (fun s va => s.devUpdate c va (.owner h) 0 die unit task) s

/-- The die, core, lane and slot of a thread on a core or in a frame. -/
def Place.slot? : Place → Option (Nat × Nat × Nat × Nat)
  | .core d c l k | .frame d c l k => some (d, c, l, k)
  | _ => none

/-- Die of a place. -/
def Place.die : Place → Nat
  | .core d .. | .frame d .. => d
  | .lc n => n / 8
  | .saved _ => 0

/-- Core, or latency core, of a place. -/
def Place.unit : Place → Nat
  | .core _ c .. | .frame _ c .. => c
  | .lc n => n % 8
  | .saved _ => 0

/-- Index of the core of a place. -/
def Place.coreIdx? : Place → Option Nat
  | .core d c .. | .frame d c .. => some (coreIdx d c)
  | _ => none

/-- The task handle that a thread reads and passes on (R64, R174). -/
def State.taskHandle (s : State) (t : Thread) : Word :=
  match t.section_ with
  | some x => x.req.task
  | none =>
    match s.task? t.task with
    | some k => k.handle
    | none => noOwner

/-- The handle that an owned future is given (R65): the task's, and no owner where its list is full. An address that stands in
the list is not listed twice. -/
def State.claimOwned (s : State) (t : Thread) (va : Dword) : Word × State :=
  match t.section_, s.task? t.task with
  | none, some k =>
    if Config.ownedEntries ≤ k.owned.length then (noOwner, s)
    else if k.owned.contains va then (k.handle, s)
    else (k.handle, s.updTask k.id fun k => { k with owned := k.owned ++ [va] })
  | _, _ => (noOwner, s)

/-! ## The agent that executes -/

/-- The ranks of a mask, in rank order. -/
def ranksOf (m : BitVec 32) : List Nat := (List.range 32).filter fun r => m.getLsbD r

/-- The fragment `fid` of a group. -/
def Group.frag? (g : Group) (fid : Nat) : Option Frag := g.frags.find? (·.id == fid)

/-- The group with a fragment changed. -/
def Group.updFrag (g : Group) (fid : Nat) (f : Frag → Frag) : Group :=
  { g with frags := g.frags.map fun x => if x.id = fid then f x else x }

/-- The threads of the ranks of a mask, in rank order. -/
def Group.threadsOf (g : Group) (m : BitVec 32) : List Nat :=
  (ranksOf m).filterMap fun r => g.members[r]?

/-- The threads of an agent, in rank order. -/
def State.actorTids (s : State) : Actor → List Nat
  | .thread tid => [tid]
  | .frag gid fid =>
    match s.group? gid with
    | some g =>
      match g.frag? fid with
      | some f => g.threadsOf f.mask
      | none => []
    | none => []
  | _ => []

/-- The agent that a thread belongs to. -/
def State.actorOf (s : State) (t : Thread) : Actor :=
  match t.member with
  | none => .thread t.tid
  | some (gid, r) =>
    match s.group? gid with
    | some g =>
      match g.frags.find? fun f => f.mask.getLsbD r with
      | some f => .frag gid f.id
      | none => .none
    | none => .none

/-- Every rank that has not exited. -/
def Group.live (g : Group) : BitVec 32 := (BitVec.ofNat 32 (2 ^ g.members.length - 1)) &&& ~~~g.exited

/-- A mask that is the whole group: a group that has lost a rank is never whole (R41, R46). -/
def Group.whole (g : Group) (m : BitVec 32) : Bool := m == BitVec.ofNat 32 (2 ^ g.members.length - 1)

/-- The time stamps of becoming ready (R34): every thread of a list takes the next age. -/
def State.refreshAge (s : State) (tids : List Nat) : State :=
  { s.updThreads tids fun t => { t with age := s.tick } with tick := s.tick + 1 }

/-! ## Parking as a unit (R47) -/

/-- Whether a thread has no condition of its own left to wait for. -/
def Thread.met (t : Thread) : Bool :=
  match t.status with
  | .parked (.unit _) => true
  | _ => false

/-- A thread whose fragment goes on. -/
def Thread.released (t : Thread) : Thread :=
  match t.status with
  | .parked (.unit done) => { t with status := .ready, pc := if done then t.pc + 8 else t.pc }
  | _ => t

/-- An agent goes on when the condition of every one of its threads is met, and not before (R47, R80). -/
def State.release (s : State) (a : Actor) : State :=
  let tids := s.actorTids a
  if tids.all fun i => (s.thread? i).all (·.met) then (s.updThreads tids Thread.released).refreshAge tids else s

/-- A thread's own condition is met; `done`: its instruction is complete. -/
def State.condDone (s : State) (tid : Nat) (done : Bool) : State :=
  match s.thread? tid with
  | none => s
  | some t => (s.updThread tid fun t => { t with status := .parked (.unit done) }).release (s.actorOf t)

/-! ## Merging (R45) and the end of threads, groups and tasks -/

/-- Fragments parked at an entry fused into the lowest of them, going on after the MEET. Fragments that were halted there run on,
and the fused one has the furthest skid count: the manual settles neither (R48; DESIGN CHOICE, log 107). -/
def fuseAt (m : Merge) (frags : List Frag) : List Frag × Option Frag :=
  let here := frags.filter fun f => f.state == .atMeet && (f.mask &&& m.arrived) == f.mask && f.mask != 0
  match here.foldl (fun (b : Option Frag) f => if b.all (fun x => decide (f.id < x.id)) then some f else b) none with
  | none => (frags, none)
  | some low =>
    let mask := here.foldl (fun a f => a ||| f.mask) 0
    -- the count of the fragment that has skidded furthest
    let skid := here.foldl (fun (a : Option Nat) f => if f.halted then a else (match a, f.skid with
      | some m, some n => some (max m n)
      | m, n => m.or n)) none
    let fused := { low with mask, state := .active, halted := here.all (·.halted), skid, stop := here.any (·.stop) }
    ((frags.filter fun f => !here.any (·.id == f.id)) ++ [fused], some fused)

/-- Every entry that is complete is popped, and what is parked there goes on after it: the merge stack from the top down
(R45 steps 2 and 4, R41). Answers the entries kept (bottom first), the fragments, and the ranks to resume with their PC. -/
def settleMerge (gone : BitVec 32) :
    List Merge → List Frag → List (BitVec 32 × Dword) → List Merge × List Frag × List (BitVec 32 × Dword)
  | [], frags, res => ([], frags, res)
  | m :: rest, frags, res =>
    let r := settleMerge gone rest frags res
    if m.mask &&& ~~~(m.arrived ||| gone) = 0 then
      match fuseAt m r.2.1 with
      | (frags, some f) => (r.1, frags, r.2.2 ++ [(f.mask, m.pc + 8)])
      | (frags, none) => (r.1, frags, r.2.2)
    else (m :: r.1, r.2.1, r.2.2)

/-- The merge stack of a group settled, and the resumed threads made ready. -/
def State.settle (s : State) (gid : Nat) : State :=
  match s.group? gid with
  | none => s
  | some g =>
    let r := settleMerge g.exited g.merge g.frags []
    let s := s.updGroup gid fun g => { g with merge := r.1, frags := r.2.1 }
    r.2.2.foldl
      (fun s p =>
        let tids := g.threadsOf p.1
        (s.updThreads tids fun t => { t with status := .ready, pc := p.2 }).refreshAge tids) s

/-- The end of a group (R41, R309): its banks and lends are cleared, its hold on the descent engine ends, and its threads
are free. -/
def State.endGroup (s : State) (gid : Nat) : State :=
  match s.group? gid with
  | none => s
  | some g =>
    let k := coreIdx g.die g.core
    let s : State :=
      if g.saved then s
      else
        s.updCore k fun c =>
          { c with
            banks := c.banks.map fun b =>
              if b.owner = some g.num then {} else if b.lendee = some g.num then { b with lendee := none } else b
            descent := if c.descent.holder = some gid then { c.descent with holder := none, cfg := none } else c.descent }
    { s with
      groups := s.groups.filter (·.gid != gid)
      threads := s.threads.map fun t => if t.member.any (·.1 == gid) then { t with member := none } else t }

/-- A group that ends while it is saved: its banks, and every lend that names it, leave the images of the tasks that were saved
with it (R98, R102). -/
def State.dropImageBanks (s : State) (id num : Nat) : State :=
  match s.task? id with
  | none => s
  | some k =>
    let drop := fun (j : Task) =>
      let gone := (j.image.banks.filter (·.2.1 == some num)).map (·.1)
      { j with image := { j.image with
          banks := (j.image.banks.filter fun b => !gone.contains b.1).map fun b => (b.1, b.2.1, b.2.2.filter (· != num))
          cells := j.image.cells.filter fun c => !gone.contains (c.1 / 1024) } }
    { s with tasks := s.tasks.map fun j =>
        (if j.loc = .saved ∧ (j.id = id ∨ (k.lendSet.isSome ∧ j.lendSet = k.lendSet)) then drop j else j) }

/-- Whether a request was sent by one of the threads. -/
def ShipReq.from (r : ShipReq) (tids : List Nat) : Bool :=
  match r.sender with
  | .thread tid => tids.contains tid
  | .remote .. => false

/-- Whether a thread's SHIP has not been accepted by its home: it has been offered, or refused (R169, R170). -/
def Thread.unsent (t : Thread) : Bool :=
  match t.status with
  | .offered _ | .parked (.refused _) => true
  | _ => false

/-- The requests that threads have sent to other devices, and that their homes are not known to have accepted (R168, R170):
operation number, node and request. -/
def State.unaccepted (s : State) (tids : List Nat) : List (Nat × Nat × ShipReq) :=
  s.net.ships.filter fun p => p.2.2.from (tids.filter fun i => (s.thread? i).any (·.unsent))

/-- Whether a device has been asked to give back the request of an operation. -/
def State.asked (s : State) (op : Nat) : Bool := s.net.out.any fun o => o.msg == .shipWithdraw op

/-- The devices that hold requests of threads which no home is known to have accepted are asked to give them back: their
answer tells whether a request had been accepted before (R170; DESIGN CHOICE, log 77). -/
def State.askBack (s : State) (tids : List Nat) : State :=
  ((s.unaccepted tids).filter fun p => !s.asked p.1).foldl (fun s p => s.send p.2.1 (.shipWithdraw p.1)) s

/-- The requests of threads that no home has accepted are taken back, so that none of them ever runs (R170). -/
def State.dropRequests (s : State) (tids : List Nat) : State :=
  let lcs := s.lcs.map fun p =>
    (p.1, { p.2 with refused := p.2.refused.filter (!·.from tids), offers := p.2.offers.filter (!·.from tids) })
  ({ s with lcs := lcs.filter (·.2 != ({} : Lc)) } : State).askBack tids

/-- A thread leaves the machine: its area returns to the region, its forming set, its fragment and its group lose it
(R41, R268, R458). -/
def State.dropThread (s : State) (tid : Nat) : State :=
  match s.thread? tid with
  | none => s
  | some t =>
    let s := if t.unsent then s.dropRequests [tid] else s
    let s : State := { s with threads := s.threads.filter (·.tid != tid) }
    let s := s.updCtx t.ctx fun x => { x with tls := x.tls.filter (·.2.2 != tid) }
    let s : State :=
      match t.place.coreIdx? with
      | some k => s.updCore k fun c => { c with forming := c.forming.filter (·.tid != tid) }
      | none => s
    match t.member with
    | none => s
    | some (gid, r) =>
      let bit : BitVec 32 := 1 <<< r
      let s := s.updGroup gid fun g =>
        { g with
          exited := g.exited ||| bit
          frags := (g.frags.map fun f => { f with mask := f.mask &&& ~~~bit }).filter (·.mask != 0) }
      match s.group? gid with
      | some g =>
        if g.live = 0 then (if g.saved then s.dropImageBanks t.task g.num else s).endGroup gid
        else
          (g.frags.map (·.id)).foldl
            (fun s fid => if s.actorTids (.frag gid fid) = [] then s else s.release (.frag gid fid)) (s.settle gid)
      | none => s

/-- Restoring of adoption frames (R76): the waiters take their slots again and evaluate their WAIT again; those that are saved do
so once they are placed. `faulted`: the owner was saved Trapped (R77). -/
def State.restoreFrames (s : State) (tids : List Nat) (faulted : Bool) : State :=
  (s.updThreads tids fun t =>
    match t.place with
    | .frame d c l k => { t with place := .core d c l k, status := .ready, ownerFaulted := faulted }
    | .saved _ => if t.status = .adopting then { t with status := .ready, ownerFaulted := faulted } else t
    | _ => t).refreshAge tids

/-- One more task of a set has ended (R60, R75): `h` is its handle. -/
def State.setTaskEnded (s : State) (id : Nat) (task : Nat) (fault : Option (BitVec 8)) (die unit : Nat) (h : Word) : State :=
  match s.sets.find? (·.id == id) with
  | none => s
  | some x =>
    let x := { x with
      ended := x.ended + 1
      faulted := x.faulted + (if fault.isSome then 1 else 0)
      firstCause := if x.faulted = 0 then fault.getD 0 else x.firstCause }
    let s : State := { s with sets := s.sets.map fun y => if y.id = id then x else y }
    if x.ended < x.count then
      -- the handle ends with the task that started last
      if x.lastTask = some task ∧ x.orig = none ∧ x.fut ≠ 0 then
        s.devUpdate x.ctx x.fut (.owner noOwner) 0 die unit h
      else s
    else
      let s : State := { s with sets := s.sets.filter (·.id != id) }
      let s : State :=
        if x.faulted = 0 then s.fulfil x.ctx x.fut 1 (BitVec.ofNat 32 x.count) 0 0 die unit h
        else
          s.fulfil x.ctx x.fut 2 1
            (BitVec.ofNat 32 (x.firstCause.toNat + 256 * min x.faulted (2 ^ 24 - 1))) 0 die unit h
      s.workEnded x.launch

/-- The end of a task (R60, R88, R96, R65): `fault` is the cause of a task that ends faulted. Its threads have gone, or go
now; its future is fulfilled, its rings are unconfigured, its allocation is released once nothing uses it, and an adoption
ends. Where a waiter of the task that ends has its frame held by an adopted task, the frame is dropped and the adopted task runs
on in the slot (DESIGN CHOICE, log 108). -/
def State.endTask (s : State) (id : Nat) (fault : Option (BitVec 8)) : State :=
  match s.task? id with
  | none => s
  | some k =>
    let tids := (s.threads.filter (·.task == id)).map (·.tid)
    let s := tids.foldl State.dropThread s
    let die := (k.handle.toNat / 2 ^ 29)
    let unit := (k.handle.toNat / 2 ^ 23 % 64)
    let h := k.handle
    let s : State :=
      match k.set with
      | some sid => s.setTaskEnded sid id fault die unit h
      | none =>
        let s : State :=
          match fault with
          | some c => s.fulfil k.ctx k.fut 2 1 (BitVec.ofNat 32 (c.toNat + 256)) 0 die unit h
          | none =>
            let v : Dword := if k.kind = TKind.gang then 0 else k.result
            s.fulfil k.ctx k.fut 1 (loWord v) (hiWord v) 0 die unit h
        s.workEnded k.launch
    -- the future named at the start is fulfilled above; a start that names none may still own a future at address 0
    let owned := (((s.task? id).map (·.owned)).getD []).filter fun va => k.fut == 0 || va != k.fut
    let s := s.rewriteOwned k.ctx owned noOwner h die unit
    let s : State :=
      match k.rfb with
      | none => s
      | some b =>
        { s with dies := s.dies.map fun p =>
            (p.1, { p.2 with rfbs := p.2.rfbs.map fun x =>
              if x.id = b then { x with ended := some (k.result, fault.map fun c => (k.slotted, c)) } else x }) }
    let s : State := { s with tasks := s.tasks.filter (·.id != id) }
    let s := s.failRingCopies id
    let s : State :=
      match k.loc with
      | .saved => s
      | .core d c =>
        let n := coreIdx d c
        (s.updCore n fun x =>
          { x with
            rings := x.rings.map fun r => if r.owner = some id then {} else r
            allocs := x.allocs.map fun a => if a.task = id then { a with ended := true } else a }).sweepAllocs n
    s.restoreFrames k.adoptedBy false

/-- A thread exits (R268): after its last thread the task ends, faulted when a handler ended it (R352). Where the fragment in its
handler ends so, no waiting Trapped fragment enters its handler and no halted sibling goes on: R348 and R351 name only TRET for
this (DESIGN CHOICE, log 123). -/
def State.exitThread (s : State) (t : Thread) : State :=
  let s : State :=
    if t.rank = 0 ∧ t.role = 0 then
      s.updTask t.task fun k =>
        { k with result := joinWords ((t.regs[0]?).getD ({} : Reg)).val ((t.regs[1]?).getD ({} : Reg)).val }
    else s
  let s : State :=
    if t.priv = .h then
      s.updTask t.task fun k => { k with faulted := if k.faulted.isSome then k.faulted else some t.frame.cause }
    else s
  let s := s.dropThread t.tid
  if s.threads.any (·.task == t.task) then s
  else
    -- a task whose last thread ends in state H ends faulted with its frame's cause
    s.endTask t.task (if t.priv = .h then some t.frame.cause else none)

/-! ## Shipped sections (R168, R172 to R178) -/

/-- The home of a line: the exclusive-or of the 6-bit groups of its line number (R168). -/
def homeOf (pa : Nat) : Nat := (List.range 7).foldl (fun h i => h ^^^ (pa / 2 ^ 10 / 2 ^ (6 * i) % 64)) 0

/-- SHIP.W's outcome in the sender's registers: a list of words over the span, and the predicate (R290). -/
def State.deliverShipW (s : State) (tid : Nat) (req : ShipReq) (words : List Word) (ok : Bool) : State :=
  let n := min req.span words.length
  (s.updThread tid fun t =>
    let regs := (List.range n).foldl
      (fun (r : List Reg) i => if req.reg + i < r.length then r.set (req.reg + i) { val := (words[i]?).getD 0 } else r) t.regs
    let preds := if req.pd < 7 then
        (if ok then t.preds ||| ((1 : BitVec 7) <<< req.pd) else t.preds &&& ~~~((1 : BitVec 7) <<< req.pd)) else t.preds
    -- a pending result of a register of the span never lands after this write (R224)
    { t with regs, preds, pend := t.pend.filter fun p => decide (p.reg < req.reg) || decide (req.reg + n ≤ p.reg) }).condDone
      tid true

/-- The fault record of a section: its home, its PC, its sender's task (R176, R423). -/
def sectionRecord (req : ShipReq) (at' : Place) (pc : Dword) (f : Trap) : FaultRec :=
  { time := 0, addr := pc, task := req.task, detail := if f.malformed then 1 else 0, die := at'.die, agent := 5
    unit := at'.unit, cause := f.cause.toNat, kind := 2, acc := f.acc }

/-- The token's outcome of SHIP.C (R175, R176), for a section that ended at `pc`. On a fault bytes 16 to 23 of a token block,
which R176 leaves unspecified, become free values (DESIGN CHOICE, log 3). With m = 3 there is no result 3, and its place, bytes 20 to
23, is written with 0 (DESIGN CHOICE, log 117). -/
def State.fulfilToken (s : State) (req : ShipReq) (ok : Bool) (cause : BitVec 8) (results : List Word) (lc : Nat)
    (pc : Dword) : State :=
  let w := fun i => (results[i]?).getD 0
  if !ok then
    (if req.m ≤ 2 then s else s.freeBlock req.ctx (req.token + 16) 8).fulfil req.ctx req.token 2 2 (cause.setWidth 32) 5 (lc / 8)
      (lc % 8) req.task
  else if req.m ≤ 2 then s.fulfil req.ctx req.token 1 (w 0) (w 1) 5 (lc / 8) (lc % 8) req.task
  else
    match s.store req.ctx (req.token + 16) (natLe 4 (w 2).toNat ++ natLe 4 (w 3).toNat) with
    | .ok s => s.fulfil req.ctx req.token 1 (w 0) (w 1) 5 (lc / 8) (lc % 8) req.task
    | .error e =>
      let f : Trap := match e with
        | .trap t => t
        | _ => { cause := cPageFault, acc := .write }
      let s := s.postRecord req.ctx (sectionRecord req (.lc lc) pc f)
      s.fulfil req.ctx req.token 2 2 (f.cause.setWidth 32) 5 (lc / 8) (lc % 8) req.task

/-- A section has ended (R175, R176): its results or its fault reach the sender, and its latency core is free. -/
def State.endSection (s : State) (t : Thread) (x : SectionInfo) (fault : Option Trap) : State :=
  let lc := match t.place with
    | .lc n => n
    | _ => 0
  let results := (List.range x.req.m).map fun i => ((t.regs[i]?).getD ({} : Reg)).val
  let s : State := { s with threads := s.threads.filter (·.tid != t.tid) }
  let s := s.updLc lc fun l => { l with running := none }
  match x.req.sender with
  | .remote node op _ =>
    let cause := (fault.map fun (f : Trap) => f.cause).getD 0
    let detail := (fault.map fun (f : Trap) => loWord f.detail0).getD 0
    s.sendFor t.ctx node (.shipResult op fault.isNone { cause := cause.toNat, lc, pc := t.pc, detail } results)
  | .thread tid =>
    match x.req.kind with
    | .o => s
    | .c => s.fulfilToken x.req fault.isNone ((fault.map fun (f : Trap) => f.cause).getD 0) results lc t.pc
    | .w =>
      match fault with
      | none => s.deliverShipW tid x.req results true
      | some c =>
        s.deliverShipW tid x.req
          (0x0002 :: c.cause.setWidth 32 :: List.replicate 6 0) false

/-- A section fault (R176): its record and its end. DETAIL0 is 1 for the time limit (R178). -/
def State.sectionFault (s : State) (t : Thread) (x : SectionInfo) (f : Trap) : State :=
  let s : State :=
    match x.req.sender with
    | .thread _ => s.postRecord t.ctx { sectionRecord x.req t.place t.pc f with detail := loWord f.detail0 }
    | .remote .. => s
  s.endSection t x (some f)

/-! ## The end of a context (R433) -/

/-- Every EMPTY future that a context's tasks and commands own is fulfilled CANCELLED with CONTEXT_ENDED (R66). -/
def State.cancel (s : State) (c : Nat) (va : Dword) : State := s.fulfil c va 3 4 0 0 0 0 noOwner

/-- The futures that a context's work owns: of its tasks and records, their owned lists, its commands and its SHIP.C tokens. -/
def State.futuresOf (s : State) (c : Nat) : List Dword :=
  let recs := s.cores.flatMap fun p => (p.2.queue ++ p.2.spill).filter (·.ctx == c)
  let pool := ((s.ctx? c).map fun x => x.pool.filterMap fun
    | .record r => some r
    | _ => none).getD []
  let tokens := fun (l : List ShipReq) => l.filterMap fun r => if r.ctx = c ∧ r.kind = .c then some r.token else none
  let ships := (s.lcs.flatMap fun p => tokens (p.2.queue ++ p.2.offers ++ p.2.refused)) ++ tokens (s.net.ships.map (·.2.2))
    ++ tokens (s.threads.filterMap (·.resend))
  let running := s.threads.filterMap fun t =>
    match t.section_ with
    | some x => if t.ctx = c ∧ x.req.kind = .c then some x.req.token else none
    | none => none
  ((s.tasks.filter (·.ctx == c)).flatMap fun t => t.fut :: t.owned)
    ++ ((s.sets.filter (·.ctx == c)).map (·.fut))
    ++ ((recs ++ pool).flatMap fun r => r.fut :: r.owned)
    ++ (s.cores.flatMap fun p => p.2.engines.flatMap fun e => (e.filter (·.ctx == c)).map (·.fut))
    ++ (s.cores.flatMap fun p => (p.2.descent.cmds.filter (·.ctx == c)).map (·.fut))
    ++ ((s.tasks.filter (·.ctx == c)).flatMap fun t => t.image.descent.toList.flatMap fun d => d.cmds.map (·.fut))
    ++ ((s.copies.filter (·.ctx == c)).flatMap fun b =>
          b.fut :: (match b.chain with
            | some (_, m) => [m.fut]
            | none => []))
    ++ ((s.net.rmas.filter (·.ctx == c)).map (·.fut))
    ++ (s.dies.flatMap fun p => (p.2.rfbs.filter (·.ctx == c)).map (·.fut))
    ++ ships ++ running

/-- A core emptied of a context's work. -/
def Core.purge (x : Core) (c : Nat) (gids : List Nat) : Core :=
  { x with
    queue := x.queue.filter (·.ctx != c)
    spill := x.spill.filter (·.ctx != c)
    engines := x.engines.map fun e => e.filter (·.ctx != c)
    descent :=
      { (if x.descent.holder.any gids.contains then {} else x.descent) with cmds := x.descent.cmds.filter (·.ctx != c) }
    stopping := x.stopping && x.lastCtx != some c }

/-- A queue stops at a packet boundary (R410): a packet whose program runs is named by RDIDX, and PARTIAL is set. -/
def Queue.destroy (x : Queue) : Queue :=
  { x with
    enable := false, state := .off, block := none, inPacket := false, loops := [], packets := []
    partial_ := x.inPacket, rdidx := if x.inPacket then x.rdidx - 1 else x.rdidx }

/-- The end of a context: DESTROY's steps in their order (R433), also taken on UNCORRECTABLE_DATA (R432). Its queues are
destroyed first (R410); section results to it and its requests are withdrawn (R180); a core that last ran it enters any later
context afresh, also one of the same number (R93); its TLB entries go. A request that another device sent into this
context goes as well, and nothing is sent back for it: the manual does not say what that sender receives (DESIGN CHOICE, log
99). -/
def State.teardown (s : State) (c : Nat) (cancels : Bool) : State :=
  let gids := (s.groups.filter (·.ctx == c)).map (·.gid)
  let nums := s.cores.map fun p => (p.1, (s.groups.filter fun g => g.ctx == c && coreIdx g.die g.core == p.1).map (·.num))
  let s : State :=
    { s with queues := s.queues.map fun p => (p.1, if p.2.enable && p.2.ctx == c then p.2.destroy else p.2) }
  let s := (s.scrambleCtx c).askBack ((s.threads.filter (·.ctx == c)).map (·.tid))
  let s := if cancels then (s.futuresOf c).foldl (fun s va => s.cancel c va) s else s
  let owned := ((s.ctx? c).map (·.cores)).getD []
  { s with
    threads := s.threads.filter (·.ctx != c)
    groups := s.groups.filter (·.ctx != c)
    tasks := s.tasks.filter (·.ctx != c)
    sets := s.sets.filter (·.ctx != c)
    ldas := s.ldas.filter (·.ctx != c)
    copies := s.copies.filter (·.ctx != c)
    cores := (s.cores.map fun p =>
      let x := p.2.purge c gids
      let ns := ((nums.find? (·.1 == p.1)).map (·.2)).getD []
      let x := { x with lastCtx := if x.lastCtx = some c then none else x.lastCtx }
      (p.1,
        if owned.contains p.1 then
          { x with stopping := false
                   banks := x.banks.map fun b => if b.owner.any ns.contains then {} else b
                   rings := List.replicate 16 {}, allocs := [], forming := [] }
        else x)).filter (·.2 != {})
    lcs := (s.lcs.map fun p =>
      (p.1, { p.2 with
        offers := p.2.offers.filter (·.ctx != c)
        queue := p.2.queue.filter (·.ctx != c)
        refused := p.2.refused.filter (·.ctx != c)
        running := match p.2.running with
          | some tid => if (s.thread? tid).any (·.ctx == c) then none else some tid
          | none => none })).filter (·.2 != {})
    dies := (s.dies.map fun p => (p.1, { p.2 with rfbs := p.2.rfbs.filter (·.ctx != c) })).filter (·.2 != {})
    net := { s.net with
      rmas := s.net.rmas.filter (·.ctx != c), ships := s.net.ships.filter (·.2.2.ctx != c)
      waits := s.net.waits.filter fun
        | .signal _ _ x .. => x != c
        | .chain .. => true }
    funcs := ((s.ctx? c).map fun x =>
      if x.preempting.isEmpty then s.funcs else s.funcs.upd {} x.preemptFunc fun f => { f with stat := 2 }).getD s.funcs
    exports := s.exports.filter (·.ctx != c)
    orphans := s.orphans ++ ((s.ctx? c).toList.flatMap fun x =>
      (x.claims.filter (·.host)).map fun k => { ctx := c, claim := k, irq := ⟨x.func, x.fvec⟩ })
    tlb := s.tlb.filter (·.ctx != c)
    ctxs := s.ctxs.set none c none
    usage := s.usage.upd {} c fun u => { u with ending := true } }

/-- DESTROY's steps, with the futures that the context's work owns CANCELLED (R66, R433). -/
def State.endContext (s : State) (c : Nat) : State := s.teardown c true

/-- An uncorrectable error that belongs to no context stops the device (R432, R437): every context ends with its futures
unwritten, FAILCODE is 7, and vector 0 of both PFs is sent. -/
def State.stopDevice (s : State) : State :=
  let s := (s.ctxs.map (·.1)).foldl (fun s c => s.teardown c false) s
  (({ s with boot := { s.boot with state := .stopped, failcode := 7 } } : State).interrupt 0 0).interrupt 64 0

/-- Whether a walk for an address meets a poisoned entry of a table that lies outside every context memory (R432). -/
def State.tableLost (s : State) (c : Nat) (va : Dword) : Bool :=
  canonical va && (s.tlbFind s.tlbUnits c va).isNone
    && (s.ctx? c).any fun x => (s.walkKeys va.toNat x.ptroot [48, 39, 30, 21, 12]).any fun k =>
      s.poisoned k 8 && !(s.ctxs.any fun p => p.2.any fun y => decide (y.cmbase ≤ k) && decide (k < y.cmbase + y.cmsize))

/-- A read of poisoned bytes ends the context that reads: a record of KIND 5 goes to its fault queue, and DESTROY runs (R347,
R432). A walk that meets a poisoned table outside any context memory stops the device. -/
def State.poisonEnds (s : State) (c : Nat) (r : FaultRec) : State :=
  if s.tableLost c r.addr then s.stopDevice
  else ((s.postRecord c { r with cause := cUncorrectable.toNat, kind := 5 }).writeRecords c).endContext c

/-- What a failure of a unit's command does to its context, once the command has ended: a poisoned read ends it (R432). -/
def State.poisonCheck (s : State) (ctx : Nat) (x : Failure) (agent die unit : Nat) (task : Word) : State :=
  if x.cause = cUncorrectable.toNat then
    s.poisonEnds ctx { time := 0, addr := x.addr, task, die, agent, unit, acc := x.acc }
  else s

/-! ## Taking a trap (R346 to R350) -/

/-- The frame that a thread receives (R349). -/
def trapFrame (s : State) (t : Thread) (cause : BitVec 8) (st : BitVec 2) (x : Trap) (iword : Dword) (frank : Nat)
    (skid : Nat) : TrapFrame :=
  let base : TrapFrame :=
    { detail1 := x.detail1, detail0 := x.detail0, faddr := x.faddr, iword, tpc := t.pc, task := s.taskHandle t,
      preds := t.preds, skid := BitVec.ofNat 8 skid, frank := BitVec.ofNat 8 frank,
      adopt := BitVec.ofNat 4 (((s.task? t.task).map (·.adopt)).getD 0), state := st, cause }
  match t.member with
  | none => base
  | some (gid, r) =>
    match s.group? gid with
    | none => base
    | some g =>
      match g.frags.find? fun f => f.mask.getLsbD r with
      | none => base
      | some f =>
        { base with
          sibmask := g.frags.foldl (fun m h => if h.id = f.id then m else m ||| (1 <<< h.id)) 0
          ranks := f.mask, frag := BitVec.ofNat 5 f.id, parent := BitVec.ofNat 5 f.parent }

/-- Whether a pending result may be written now: it is known, and no earlier one of its register is still to come (R224). -/
def Thread.lands (t : Thread) (p : Pend) : Bool :=
  p.known && (t.pend.takeWhile (· != p)).all fun q => q.reg != p.reg || q.known

/-- Every pending long-latency result that may be written is written before state is saved (R225); a result that an engine
has not produced yet keeps the thread from being saved, which `step` sees to, and those of its register behind it wait for it,
so that the later stands (R224). -/
def Thread.commitAll (t : Thread) : Thread :=
  { t with
    regs := t.pend.foldl (fun r p => if t.lands p then r.set p.reg p.val else r) t.regs
    pend := t.pend.filter (!t.lands ·) }

/-- The instruction word at an address, as a frame keeps it: 0 where it cannot be read. -/
def State.wordAt (s : State) (c : Nat) (pc : Dword) : Dword :=
  match s.loadOne c pc 8 .fetch with
  | .ok l => BitVec.ofNat 64 (leNat l)
  | .error _ => 0

/-- A sibling or thread halts (R48): its threads receive frames of STATE 1. -/
def State.haltFrames (s : State) (tids : List Nat) (x : Trap) (frank skid : Nat) : State :=
  s.updThreads tids fun t =>
    let t := t.commitAll
    { t with frame := trapFrame s t x.cause 1 x (s.wordAt t.ctx t.pc) frank skid }

/-- Whether a thread is parked, or waits otherwise, so that it issues nothing while it halts (R48); one whose SHIP has just
been offered is in the middle of its instruction. -/
def Thread.parks (t : Thread) : Bool :=
  match t.status with
  | .ready | .offered _ => false
  | _ => true

/-- The siblings of a fragment begin to halt (R48): parked ones and those at MEET at once with skid 0, the others after at
most 16 further instructions. A fragment in its handler halts only under STOPCTX (`all`). -/
def State.haltSiblings (s : State) (gid fid : Nat) (x : Trap) (frank : Nat) (all : Bool) : State :=
  match s.group? gid with
  | none => s
  | some g =>
    g.frags.foldl
      (fun s f =>
        if f.id = fid || f.state = .trapped then s
        else if f.halted || f.skid.isSome then
          s.updGroup gid fun g => g.updFrag f.id fun f => { f with stop := f.stop || all }
        else
          let tids := g.threadsOf f.mask
          let inHandler := tids.any fun i => (s.thread? i).any (·.priv == .h)
          let parked := f.state = .atMeet || tids.all fun i => (s.thread? i).any (·.parks)
          if inHandler && !all then s
          else if parked then
            (s.haltFrames tids x frank 0).updGroup gid fun g =>
              g.updFrag f.id fun f => { f with halted := true, stop := f.stop || all }
          else s.updGroup gid fun g => g.updFrag f.id fun f => { f with skid := some 0, stop := f.stop || all }) s

/-- Every resident thread of a context begins to halt (R49, R353, R354). -/
def State.haltContext (s : State) (c : Nat) (x : Trap) : State :=
  let s := s.threads.foldl
    (fun s u =>
      let waits : Bool := match u.status with
        | .trapped _ => true
        | _ => false
      if u.ctx ≠ c ∨ u.member.isSome ∨ u.place.coreIdx?.isNone ∨ u.section_.isSome ∨ u.halted ∨ u.skid.isSome ∨ waits
          ∨ u.status = .adopting then s
      else if !u.parks then s.updThread u.tid fun u => { u with skid := some 0 }
      else (s.haltFrames [u.tid] x 0xFF 0).updThread u.tid fun u => { u with halted := true }) s
  (s.groups.filter fun g => g.ctx == c && !g.saved).foldl (fun s g => s.haltSiblings g.gid 32 x 0xFF true) s

/-- Whether a fragment of a group runs its handler: a Trapped fragment that has entered and not returned (R348). -/
def State.handlerRuns (s : State) (g : Group) : Bool :=
  g.frags.any fun f => f.state != .trapped && (g.threadsOf f.mask).any fun i => (s.thread? i).any (·.priv == .h)

/-- Step 3 of R348: state H and the handler's address. -/
def State.enterHandler (s : State) (tids : List Nat) : State :=
  (s.updThreads tids fun t =>
    { t with priv := .h, pc := t.handler.getD 0, status := .ready }).refreshAge tids

/-- The lowest Trapped fragment of a group enters its handler once no other runs it (R348). -/
def State.nextHandler (s : State) (gid : Nat) : State :=
  match s.group? gid with
  | none => s
  | some g =>
    if s.handlerRuns g then s
    else
      let waiting := g.frags.filter fun f =>
        f.state == .trapped && (g.threadsOf f.mask).all fun i => (s.thread? i).any fun t => t.status == .trapped false
      match waiting.foldl (fun (b : Option Frag) f => if b.all (fun x => decide (f.id < x.id)) then some f else b) none with
      | none => s
      | some f =>
        (s.updGroup gid fun g => g.updFrag f.id fun f => { f with state := .active }).enterHandler
          (g.threadsOf f.mask)

/-- Numbers a record in a context (R64). -/
def State.freshRecord (s : State) (c : Nat) : Nat × State :=
  (((s.ctx? c).map (·.nextRec)).getD 0, s.updCtx c fun x => { x with nextRec := (x.nextRec + 1) % 2 ^ 21 })

/-- The data of a task's allocation on a core. -/
def State.allocBytes (s : State) (n : Nat) (a : Option (Nat × Nat)) : List Byte :=
  match a with
  | none => []
  | some (base, size) => takeBytes s.scratch (n * 2 ^ 18 + base) size

/-- The key of a cell (R155). -/
def cellKey (n eng row col : Nat) : Nat := ((n * 3 + eng) * 128 + row) * 64 + col

/-- The groups of a task. -/
def State.groupsOf (s : State) (id : Nat) : List Group :=
  s.groups.filter fun g => g.members.any fun i => (s.thread? i).any (·.task == id)

/-- Whether a task may be saved now: its copies have landed, its commands and the bulk copies of its allocation have ended,
no copy stands inside an entry of its rings, no level of its descent is under way, no result is still to come, and no other
device may still accept a request of it (R102, R109, R170, R191, R225, R342). The save keeps the commands of a
descent engine with the engine: those of a group that holds it no longer are waited for (DEDUCED, log 96). Drains to global memory
are waited for as every matrix command is, where R342 also lets them run on (DEDUCED, log 110). -/
def State.saveReady (s : State) (id : Nat) : Bool :=
  match (s.task? id).map (·.loc) with
  | some (TaskLoc.core d c) =>
    let x := s.core (coreIdx d c)
    let gids := (s.groupsOf id).map (·.gid)
    let tids := (s.threads.filter (·.task == id)).map (·.tid)
    !(s.ldas.any fun l => tids.contains l.tid && l.failed.isNone)
      && !(x.engines.any fun e => e.any fun m => gids.contains m.gid || m.task == id)
      && !(x.descent.cmds.any fun m =>
        (gids.contains m.gid || m.task == id) && (m.inLevel || !(x.descent.holder == some m.gid && gids.contains m.gid)))
      && !(s.copies.any fun b => b.task == id && (b.size != 0 || b.chain.isSome) && (match b.desc.dst with
        | .ring _ => false
        | _ => true))
      && !(s.copies.any fun b => b.task == id && (match b.desc.dst with
        -- one that stands at an entry boundary, with entries still to take, resumes on the new core
        | .ring n => decide (b.landed < b.slots.length) || b.landed == b.entries (s.ring b.core n)
        | _ => false))
      && !(s.threads.any fun t => t.task == id && (t.pend.any (!·.known) || (match t.status with
        | .offered _ => true
        | _ => false)))
      && (s.unaccepted tids).isEmpty
  | _ => false

/-- The refused requests of threads that are saved are withdrawn, and kept by them to be sent again (R170). -/
def State.withdraw (s : State) (tids : List Nat) : State :=
  let here := (s.lcs.flatMap fun p => p.2.refused).filter (·.from tids)
  s.dropRequests tids |>.updThreads tids fun t =>
    match here.find? (·.from [t.tid]) with
    | some r => { t with resend := some r }
    | none => t

/-- The die and the core that an owner handle names (R64), as fault records give them (R423, R459). -/
def handleSite (h : Word) : Nat × Nat := (h.toNat / 2 ^ 29, h.toNat / 2 ^ 23 % 64)

/-- The futures that name a task rewritten: its owned ones, and its set's while it is the task that names the set (R65,
R75). -/
def State.rewriteTask (s : State) (id : Nat) : State :=
  match s.task? id with
  | none => s
  | some k =>
    let at' := handleSite k.handle
    let s := s.rewriteOwned k.ctx k.owned k.handle k.handle at'.1 at'.2
    match k.set.bind fun i => s.sets.find? (·.id == i) with
    | some x =>
      if x.lastTask = some id ∧ x.orig = none ∧ x.fut ≠ 0 then
        s.devUpdate k.ctx x.fut (.owner k.handle) 0 at'.1 at'.2 k.handle
      else s
    | none => s

/-- A task is saved to its image (R76, R102, R430): its threads leave their slots with their state; its allocation's bytes,
its banks' cells, its rings and its descent engine go with it, and the allocation is freed. Pre-emption, which saves a lend set
whole, also keeps the lends of its banks in the image (`lends`), and an adoption's end revokes them. A task that shares a bound
group with a task which stays on the core is saved alone; the group counts as saved, and the saved task is placed again only
once the other is saved too (DESIGN CHOICE, log 113). A thread that stands at BIND leaves its forming set also where an adoption's
end saves its task, of which R308 does not speak (DESIGN CHOICE, log 119). -/
def State.saveTask (s : State) (id : Nat) (lends : Bool) (lendSet : Option Nat) : State :=
  match s.task? id with
  | none => s
  | some k =>
    match k.loc with
    | .saved => s
    | .core d c =>
      let n := coreIdx d c
      let groups := s.groupsOf id
      let nums := groups.map (·.num)
      let banks := (s.core n).banks
      let mine := (List.range 24).filter fun i => (banks[i]?).any fun b => b.owner.any nums.contains
      let cells := mine.flatMap fun i =>
        (List.range 16).flatMap fun r => (List.range 64).filterMap fun col =>
          let v := s.cells.get 0 (cellKey n (i / 8) (16 * (i % 8) + r) col)
          if v = 0 then none else some (((i / 8) * 128 + 16 * (i % 8) + r) * 64 + col, v)
      let kept := mine.map fun i =>
        let b := (banks[i]?).getD {}
        (i, b.owner, if lends then b.lendee else none)
      let num := s.freshRecord k.ctx
      let s := num.2
      let rings := ((s.core n).rings.zipIdx.filter fun r => r.1.owner == some id).map fun r => (r.2, r.1)
      let eng := (s.core n).descent
      let held := eng.holder.any fun gid => groups.any (·.gid == gid)
      let own := fun (m : DCmd) => groups.any (·.gid == m.gid)
      let s := s.withdraw ((s.threads.filter (·.task == id)).map (·.tid))
      let image : Image :=
        { scratch := s.allocBytes n k.alloc, cells, banks := kept, rings
          -- commands of groups that have released the engine, or of other tasks, stay on the core (R191)
          descent := if held then some { eng with cmds := eng.cmds.filter own } else none }
      let s := s.updTask id fun k =>
        { k with
          loc := .saved, num := num.1, handle := recordHandle d c num.1, image, lendSet
          adoptedBy := if lends then k.adoptedBy else [], adopt := if lends then k.adopt else 0 }
      let s : State := { s with threads := s.threads.map fun t =>
        if t.task = id then
          let t := t.commitAll
          match t.place with
          | .core _ _ l _ =>
            -- a thread that leaves its forming set executes BIND again (R308)
            { t with place := .saved l, prefetch := [], status := if t.status = .parked .bind then .ready else t.status }
          | .frame _ _ l _ => { t with place := .saved l, prefetch := [] }
          | _ => t
        else t }
      let s : State := { s with
        groups := s.groups.map fun g => (if groups.any (·.gid == g.gid) then { g with saved := true } else g)
        copies := s.copies.map fun b => if b.task = id ∧ b.desc.dst.ring?.isSome then { b with core := noCore, base := 0 } else b }
      let s := s.updCore n fun x =>
        { x with
          banks := x.banks.map fun b =>
            if b.owner.any nums.contains then {}
            else if !lends && b.lendee.any nums.contains then { b with lendee := none } else b
          rings := x.rings.map fun r => if r.owner = some id then {} else r
          descent := if !held then x.descent else if eng.cmds.all own then {}
            else { path := eng.path, cmds := eng.cmds.filter (!own ·) }
          forming := x.forming.filter fun f => !(s.threads.any fun t => t.tid == f.tid && t.task == id)
          allocs := x.allocs.filter (·.task != id) }
      s.rewriteTask id

/-- A task under adoption is saved at a trap, and the waiters complete with OWNER_FAULTED (R77); a parked one is saved and
the waiters evaluate again (R76). The save waits for the task's copies and commands (R102). -/
def State.endAdoption (s : State) (id : Nat) (faulted : Bool) : State :=
  match s.task? id with
  | none => s
  | some k =>
    if k.adoptedBy.isEmpty then s
    else if !s.saveReady id then s.askBack ((s.threads.filter (·.task == id)).map (·.tid))
    else
      let s := (s.saveTask id false none).updCtx k.ctx fun x => { x with pool := x.pool ++ [.task id] }
      s.restoreFrames k.adoptedBy faulted

/-- The tasks under adoption, those of the deepest frames first (R73): the end of one may let that of its waiters' task end. -/
def State.adopted (s : State) : List Task :=
  (List.range 5).reverse.flatMap fun d => s.tasks.filter fun k => !k.adoptedBy.isEmpty && min k.adopt 4 == d

/-- Adoptions whose task has parked or trapped and may now be saved end (R76, R77): a trap's do not wait for the siblings, but
those of a task whose own thread lies in a frame wait until it is restored. -/
def State.endAdoptions (s : State) : State :=
  s.adopted.foldl
    (fun s k =>
      let mine := s.threads.filter (·.task == k.id)
      let trapped := mine.any fun t => t.status == .trapped false || t.status == .trapped true
      if (mine.any (·.status == .adopting)) || !(trapped || mine.all (·.parks)) then s
      else s.endAdoption k.id trapped) s

/-- The record of a trap in a context's fault queue (R347). -/
def trapRecord (s : State) (t : Thread) (x : Trap) : FaultRec :=
  { time := 0, addr := x.faddr, task := s.taskHandle t, detail := if x.malformed then 1 else loWord x.detail0,
    die := t.place.die, agent := if t.section_.isSome then 5 else 0, unit := t.place.unit, cause := x.cause.toNat, kind := 1
    acc := x.acc }

/-- A trap taken in a thread counted by its core (R452). -/
def State.tallyTrap (s : State) (tid : Nat) : State :=
  match (s.thread? tid).bind (·.place.coreIdx?) with
  | some k => s.tallyCore k 0x040 1
  | none => s

/-- TAKING A TRAP: the one shared operation (R346 to R349). `a` executes, `first` is the first failing thread in rank
order. Route 1 ends the context, a section faults, route 2 goes to the debugger, route 3 ends the task, route 4 enters the
handler: every thread of the fragment gets its frame, state H and the handler's address, and the siblings halt. A saved
thread stays Trapped, and enters its handler where it is placed (R62, R77). A trap that goes to the handler of an adopted owner
posts no fault record, as R347 has it, although R77 speaks of one (DESIGN CHOICE, log 114). Where the threads of the fragment belong
to several tasks, every adopted one of them is saved, and the others enter their handlers only with them (DESIGN CHOICE, log
115). -/
def State.raise (s : State) (a : Actor) (first : Nat) (x : Trap) (iword : Dword) : State :=
  match s.thread? first with
  | none => s
  | some t =>
    if x.cause = cUncorrectable then
      s.poisonEnds t.ctx (trapRecord s t x)
    else
      match t.section_ with
      | some sec => s.sectionFault t sec { x with detail0 := if x.malformed then 1 else x.detail0 }
      | none =>
        let tids := s.actorTids a
        let frank := match t.member with
          | some (_, r) => r
          | none => 0xFF
        let s := s.updThreads tids Thread.commitAll
        let debug := x.cause == cBreak && (s.ctx? t.ctx).any (·.attached)
        let halt := fun (s : State) => if x.cause == cBreak && (s.ctx? t.ctx).any (·.stop) then s.haltContext t.ctx x else s
        let inH := tids.any fun i => (s.thread? i).any (·.priv == .h)
        let ending := if debug then [] else
          ((tids.filterMap s.thread?).filter fun u => inH || u.handler.isNone).foldl
            (fun (l : List Thread) u => if l.any (·.task == u.task) then l else l ++ [u]) []
        let s := ending.foldl
          (fun s u => (s.postRecord u.ctx (trapRecord s u x)).endTask u.task (some x.cause)) s
        let tids := tids.filter fun i => (s.thread? i).isSome
        if tids.isEmpty then (halt s).endAdoptions
        else
          let s := s.updThreads tids fun u =>
            { u with
              frame := trapFrame s u x.cause 0 x iword frank 0, status := .trapped debug
              pushClaim := none, waitStart := none, timedOut := false, ownerFaulted := false }
          let s := if debug || x.malformed then s.postRecord t.ctx (trapRecord s t x) else s
          let s : State :=
            match a with
            | .frag gid fid =>
              let s := s.updGroup gid fun g => g.updFrag fid fun f =>
                { f with state := .trapped, skid := if f.stop then f.skid else none }
              s.haltSiblings gid fid x frank false
            | _ => s
          let s := halt s
          if tids.any fun i => (s.thread? i).any fun u => (s.task? u.task).any fun k => !k.adoptedBy.isEmpty then s.endAdoptions
          else if debug || t.place.slot?.isNone then s
          else
            match a with
            | .frag gid _ => s.nextHandler gid
            | _ => s.enterHandler tids

/-! ## Return from a trap (R351) -/

/-- Every halted fragment of a group goes on when no fragment is Trapped and none runs its handler (R351); one that halts
under STOPCTX waits for the debugger (R354). -/
def State.resumeSiblings (s : State) (gid : Nat) : State :=
  match s.group? gid with
  | none => s
  | some g =>
    if s.handlerRuns g || g.frags.any (·.state == .trapped) then s
    else
      let tids := (g.frags.filter fun f => f.halted && !f.stop).flatMap fun f => g.threadsOf f.mask
      (s.updGroup gid fun g =>
        { g with frags := g.frags.map fun f => if f.stop then f else { f with halted := false, skid := none } }).refreshAge tids

/-- THE RETURN FROM A TRAP: p0 to p6 from PREDS, state U, and TPC or TPC + 8 (R351). -/
def State.trapReturn (s : State) (a : Actor) (next : Bool) : State :=
  let tids := s.actorTids a
  let s := (s.updThreads tids fun t =>
    { t with
      preds := t.frame.preds, priv := .u, status := .ready
      pc := if next then t.frame.tpc + 8 else t.frame.tpc }).refreshAge tids
  match a with
  | .frag gid fid =>
    ((s.updGroup gid fun g => g.updFrag fid fun f => { f with state := .active }).nextHandler gid).resumeSiblings gid
  | _ => s

end Sys2Proof.Machine
end

