-- ==== Sys2Proof/Machine/Sched.lean ====
section
/-! DEFINITION. Kernel headers, task records and their places, the resources of a core, the start and the restoring of
tasks, and adoption (R37, R56 to R62, R71 to R78, R102, R366 to R368, R429 to R431, R458, R461). -/

namespace Sys2Proof.Machine

/-! ## Kernel headers (R366 to R368) -/

/-- Whether a register count is one that a header may give. -/
def regsOkCount (n : Nat) : Bool := decide (8 ≤ n) && decide (n ≤ 248) && n % 8 == 0

/-- A role field, if it is valid. -/
def parseRole (x : Nat) : Option Role :=
  let r : Role := { entOff := BitVec.ofNat 32 (bitsOf x 31 0), regs := bitsOf x 39 32, count := bitsOf x 51 40 }
  if r.count = 0 then (if x % 2 ^ 64 = 0 then some {} else none)
  else if r.count ≤ 2048 ∧ regsOkCount r.regs ∧ bitsOf x 63 52 = 0 ∧ bitsOf x 2 0 = 0 then some r
  else none

/-- The kernel header that 64 bytes hold, if it is valid (R366, R367). -/
def parseHdr (x : Nat) : Option KHdr :=
  match parseRole (bitsOf x 255 192), parseRole (bitsOf x 319 256), parseRole (bitsOf x 383 320) with
  | some a, some b, some c =>
    let roles := [a, b, c].filter (·.count != 0)
    let k : KHdr :=
      { regs := bitsOf x 55 48, bind := bitsOf x 63 56, lspad := bitsOf x 95 64, tls := bitsOf x 119 96
        spill := bitsOf x 143 128, trapEn := BitVec.ofNat 5 (bitsOf x 148 144), hasTrap := x.testBit 152
        trapOff := BitVec.ofNat 32 (bitsOf x 191 160), gang := x.testBit 153, roles }
    let reserved := bitsOf x 511 384 == 0 && bitsOf x 159 154 == 0 && bitsOf x 151 149 == 0 && bitsOf x 127 120 == 0
    let ranges := bitsOf x 31 0 == 0x484B5853 && bitsOf x 47 32 == 1 && regsOkCount k.regs && decide (1 ≤ k.bind)
      && decide (k.bind ≤ 32) && decide (k.lspad ≤ 262144) && k.spill % 8 == 0 && bitsOf x 162 160 == 0
    let gangOk :=
      if k.gang then k.bind == 1 && a.count != 0 && (c.count == 0 || b.count != 0) && roles.all fun r => decide (r.regs ≤ k.regs)
      else roles.isEmpty
    if reserved && ranges && gangOk && (k.hasTrap || k.trapOff == 0) then some k else none
  | _, _, _ => none

/-- The header of a kernel entry read from memory (R281, R367): none where it is not valid. -/
def State.readHdr (s : State) (c : Nat) (entry : Dword) : Except Stop (Option KHdr) :=
  (s.loadNat c (entry - 64) 64).map parseHdr

/-! ## Records and their places (R57, R461) -/

/-- Where a record waits. -/
inductive RecPlace where
  | queue (k : Nat) | spill (k : Nat) | pool
  deriving DecidableEq, Repr

/-- The owner handle of a record that waits in a place (R64). -/
def RecPlace.handle (p : RecPlace) (num : Nat) : Word :=
  match p with
  | .queue k | .spill k => recordHandle (k / 64) (k % 64) num
  | .pool => recordHandle 0 0 num

/-- The futures that name a record rewritten: its owned ones, and its set's while it is the set's original record (R65,
R75). -/
def State.rewriteRecord (s : State) (r : QRec) (h : Word) : State :=
  let at' := handleSite h
  let s := s.rewriteOwned r.ctx r.owned h h at'.1 at'.2
  match r.set.bind fun id => s.sets.find? (·.id == id) with
  | some x => if x.orig = some r.num ∧ x.fut ≠ 0 then s.devUpdate r.ctx x.fut (.owner h) 0 at'.1 at'.2 h else s
  | none => s

/-- Records that wait in a context's pool. -/
def Ctx.poolRecs (x : Ctx) : Nat := (x.pool.filter fun
  | .record _ => true
  | _ => false).length

/-- A record put at the tail of a context's runnable pool, if the pool has room (R461). -/
def State.poolRecord (s : State) (r : QRec) : Option State :=
  match s.ctx? r.ctx with
  | none => none
  | some x =>
    if x.poolRecs < (1024 + x.spillrec) * x.everCores.length then
      some (s.updCtx r.ctx fun x => { x with pool := x.pool ++ [.record r] })
    else none

/-- A record put at the tail of a core's queue, or of its spill area, if there is room (R57). Where in context memory the
spill area lies is not given (R418): spilled records are data of the core (DESIGN CHOICE, log 13). -/
def State.queueRecord (s : State) (k : Nat) (r : QRec) : Option (State × RecPlace) :=
  let x := s.core k
  if x.queue.length < Config.queueRecords ∧ x.spill.isEmpty then
    some (s.updCore k fun c => { c with queue := c.queue ++ [r] }, .queue k)
  else if x.spill.length < ((s.ctx? r.ctx).map (·.spillrec)).getD 0 then
    some (s.updCore k fun c => { c with spill := c.spill ++ [r] }, .spill k)
  else none

/-- A record of SPAWN placed: at its own core, or in the pool while PREEMPT vacates that core (R57, R429). -/
def State.placeSpawn (s : State) (k : Nat) (r : QRec) : Option (State × RecPlace) :=
  if (s.core k).stopping then (s.poolRecord r).map fun s => (s, .pool) else s.queueRecord k r

/-- The core that a launched record goes to (R461): the fewest records, then the lower number. -/
def State.launchCore (s : State) (c : Nat) (die : Option Nat) : Option Nat :=
  let l := (((s.ctx? c).map (·.cores)).getD []).filter fun k => !(s.core k).stopping && die.all (k / 64 == ·)
  l.foldl (fun (b : Option Nat) k =>
    let n := fun i => (s.core i).queue.length + (s.core i).spill.length
    match b with
    | none => some k
    | some j => if n k < n j ∨ (n k = n j ∧ k < j) then some k else some j) none

/-- A launched record placed (R461): on a core of the context, or in its pool. -/
def State.placeLaunch (s : State) (r : QRec) (die : Option Nat) : Option (State × RecPlace) :=
  let toPool := (s.poolRecord r).map fun s => (s, RecPlace.pool)
  match s.launchCore r.ctx die with
  | none => toPool
  | some k =>
    match s.queueRecord k r with
    | some p => some p
    | none => toPool

/-- A record changed in its place, or removed with `none`. -/
def State.setRecord (s : State) (p : RecPlace) (c num : Nat) (f : QRec → Option QRec) : State :=
  let go := fun (l : List QRec) => l.filterMap fun r => if r.ctx = c ∧ r.num = num then f r else some r
  match p with
  | .queue k => s.updCore k fun x => { x with queue := go x.queue }
  | .spill k => s.updCore k fun x => { x with spill := go x.spill }
  | .pool => s.updCtx c fun x => { x with pool := x.pool.filterMap fun
      | .record r => if r.num = num then (f r).map .record else some (.record r)
      | e => some e }

/-- The record of a context with a number, and its place. -/
def State.findRecord (s : State) (c num : Nat) : Option (RecPlace × QRec) :=
  let is := fun (r : QRec) => r.ctx == c && r.num == num
  let inCores := s.cores.findSome? fun p =>
    match p.2.queue.find? is with
    | some r => some (RecPlace.queue p.1, r)
    | none => (p.2.spill.find? is).map fun r => (RecPlace.spill p.1, r)
  match inCores with
  | some x => some x
  | none => ((s.ctx? c).bind fun x => x.pool.findSome? fun
      | .record r => if is r then some r else none
      | _ => none).map fun r => (RecPlace.pool, r)

/-! ## Resources of a core (R16, R58, R88, R458) -/

/-- A window added to the occupied slots of a core: one slot counts once, with the largest of its windows. -/
def addWindow (w : List (Nat × Nat × Nat)) (l k regs : Nat) : List (Nat × Nat × Nat) :=
  if w.any fun x => x.1 == l && x.2.1 == k then
    w.map fun x => if x.1 = l ∧ x.2.1 = k then (l, k, max x.2.2 regs) else x
  else w ++ [(l, k, regs)]

/-- The occupied slots of a core with their register windows: lane, slot, registers. A slot under adoption keeps the window
of its waiters, also after the adopted task's own thread has exited from it (R29, R72, R73). -/
def State.windows (s : State) (d c : Nat) : List (Nat × Nat × Nat) :=
  s.threads.foldl
    (fun w t =>
      match t.place.slot? with
      | some (d', c', l, k) => if d' = d ∧ c' = c then addWindow w l k t.regs.length else w
      | none => w) []

/-- Slots of a lane still free for threads of `regs` registers. -/
def laneRoom (w : List (Nat × Nat × Nat)) (lane regs : Nat) : Nat :=
  let on := w.filter (·.1 == lane)
  min (64 - on.length) ((2048 - on.foldl (fun n x => n + x.2.2) 0) / max regs 1)

/-- The lowest free slot of a lane. -/
def lowSlot (w : List (Nat × Nat × Nat)) (lane : Nat) : Nat :=
  ((List.range 64).find? fun k => !w.any fun x => x.1 == lane && x.2.1 == k).getD 0

/-- The place of a task of bind size 1: the lane with the most free slots, the lower on a tie (R58). -/
def placeOne (w : List (Nat × Nat × Nat)) (regs : Nat) : Option (List (Nat × Nat)) :=
  let best := (List.range 32).foldl (fun b l => if laneRoom w b regs < laneRoom w l regs then l else b) 0
  if laneRoom w best regs = 0 then none else some [(best, lowSlot w best)]

/-- The places of a bound group: the lowest-numbered lanes with a free slot (R37). -/
def placeGroup (w : List (Nat × Nat × Nat)) (n regs : Nat) : Option (List (Nat × Nat)) :=
  let lanes := ((List.range 32).filter fun l => laneRoom w l regs != 0).take n
  if lanes.length < n then none else some (lanes.map fun l => (l, lowSlot w l))

/-- The next lane in round robin from `lane` with room. -/
def nextLane (w : List (Nat × Nat × Nat)) (lane regs : Nat) : Option Nat :=
  ((List.range 32).map fun i => (lane + i) % 32).find? fun l => laneRoom w l regs != 0

/-- The places of a gang's threads, whose register counts are listed in role order (R61). -/
def placeGang : List (Nat × Nat × Nat) → Nat → List Nat → Option (List (Nat × Nat))
  | _, _, [] => some []
  | w, lane, regs :: rest =>
    match nextLane w lane regs with
    | none => none
    | some l =>
      let k := lowSlot w l
      (placeGang ((l, k, regs) :: w) ((l + 1) % 32) rest).map fun p => (l, k) :: p

/-- The threads that a header starts: role, entry offset and registers of each (R61). -/
def KHdr.threads (h : KHdr) : List (Nat × Word × Nat) :=
  if h.gang then (h.roles.zipIdx).flatMap fun r => List.replicate r.1.count (r.2, r.1.entOff, r.1.regs)
  else List.replicate h.bind (0, 0, h.regs)

/-- The places of a kernel's threads on a core, if they fit (R58). -/
def placeThreads (w : List (Nat × Nat × Nat)) (h : KHdr) : Option (List (Nat × Nat)) :=
  if h.gang then placeGang w 0 (h.threads.map (·.2.2))
  else if h.bind = 1 then placeOne w h.regs
  else placeGroup w h.bind h.regs

/-- A multiple of `n` at or above `x`. -/
def roundUp (x n : Nat) : Nat := (x + n - 1) / n * n

/-- A place for `size` units in `limit`, clear of the ranges in use: at or after a start that the device chooses. -/
def carve (size limit align : Nat) (used : List (Nat × Nat)) (start : Nat) : Option Nat :=
  let ends := used.map fun u => roundUp (u.1 + u.2) align
  (start % max limit 1 / align * align :: ends ++ [0]).find? fun o =>
    decide (o + size ≤ limit) && used.all fun u => decide (o + size ≤ u.1) || decide (u.1 + u.2 ≤ o)

/-- Places for areas of several sizes, named by number, in a limit: the first arrangement that lies clear of the ranges in use. Each
place tried is the lowest, or behind a range in use, and every order of the areas is tried; the first argument is how many areas
there are. -/
def packAll (limit align : Nat) : Nat → List (Nat × Nat) → List (Nat × Nat) → Option (List (Nat × Nat × Nat))
  | 0, _, _ => some []
  | n + 1, areas, used =>
    areas.findSome? fun a =>
      ((0 :: used.map fun u => roundUp (u.1 + u.2) align).filter fun o =>
          decide (o + a.2 ≤ limit) && used.all fun u => decide (o + a.2 ≤ u.1) || decide (u.1 + u.2 ≤ o)).findSome? fun o =>
        (packAll limit align n (areas.erase a) ((o, a.2) :: used)).map ((a.1, o, a.2) :: ·)

/-- Places for areas of several sizes, from a start that the device chooses where that leaves room for all. -/
def carveEach (limit align start : Nat) : List (Nat × Nat) → List (Nat × Nat) → Option (List (Nat × Nat × Nat))
  | [], _ => some []
  | a :: l, used =>
    match carve a.2 limit align used start with
    | none => none
    | some o => (carveEach limit align start l ((o, a.2) :: used)).map ((a.1, o, a.2) :: ·)

/-- Places for several areas of one size, from one start. -/
def carveFrom (size limit align start : Nat) : Nat → List (Nat × Nat) → Option (List Nat)
  | 0, _ => some []
  | n + 1, used =>
    match carve size limit align used start with
    | none => none
    | some o => (carveFrom size limit align start n ((o, size) :: used)).map fun l => o :: l

/-- Places for several areas of one size: where those from the start that the device chooses leave no room for all of them,
each takes the first place that is free. -/
def carveAll (size limit align start n : Nat) (used : List (Nat × Nat)) : Option (List Nat) :=
  match carveFrom size limit align start n used with
  | some l => some l
  | none => carveFrom size limit align 0 n used

/-- The scratchpad allocation of a header on a core: none needed, or its base and size (R88, R58). -/
def State.carveScratch (s : State) (k : Nat) (h : KHdr) (start : Nat) : Option (Option (Nat × Nat)) :=
  let size := roundUp h.lspad 512
  if size = 0 then some none
  else (carve size Config.scratchBytes 512 ((s.core k).allocs.map fun a => (a.base, a.size)) start).map fun b => some (b, size)

/-- The scratchpad allocations of tasks that are placed together on a core (R88, R102): task, base and size of each that has
one. -/
def State.carveUnit (s : State) (k start : Nat) (ids : List Nat) : Option (List (Nat × Nat × Nat)) :=
  let areas := (ids.filterMap s.task?).filterMap fun x =>
    let size := roundUp x.hdr.lspad 512
    if size = 0 then none else some (x.id, size)
  let used := (s.core k).allocs.map fun a => (a.base, a.size)
  match carveEach Config.scratchBytes 512 start areas used with
  | some l => some l
  | none => packAll Config.scratchBytes 512 areas.length areas used

/-- Bytes of a thread's thread-local area (R458). -/
def KHdr.area (h : KHdr) : Nat := roundUp (h.tls + h.spill) 256

/-- The thread-local areas of `n` threads in a context's region (R458). -/
def Ctx.carveTls (x : Ctx) (h : KHdr) (n start : Nat) : Option (List Nat) :=
  if h.area = 0 then some (List.replicate n 0)
  else carveAll h.area x.tlssize 256 start n (x.tls.map fun a => (a.1, a.2.1))

/-- The core's stores cleared, and its L1s emptied, at its first admission after a change of context (R93,
R431). -/
def State.enterCtx (s : State) (k c : Nat) : State :=
  if (s.core k).lastCtx = some c then s
  else
    let s := match (s.core k).lastCtx with
      | some old => s.addCounts old
      | none => s
    let s := s.updCore k fun x =>
      { x with lastCtx := some c, rings := List.replicate 16 {}, descent := { x.descent with path := [] } }
    { s.l1Drop k (fun _ => true) with
      icache := s.icache.filter (·.1 != k)
      scratch := s.scratch.filter fun p => p.1 / 2 ^ 18 != k
      cells := s.cells.filter fun p => p.1 / (3 * 128 * 64) != k }

/-! ## The start of a task (R30, R58, R60) -/

/-- The lowest core-local group number not in use (R308): 0 where all 1,024 are in use, as groups over adoption frames could bring
about (DESIGN CHOICE, log 118). -/
def State.freeGroupNum (s : State) (d c : Nat) : Nat :=
  let used := (s.groups.filter fun g => g.die == d && g.core == c && !g.saved).map (·.num)
  ((List.range 1024).find? fun i => !used.contains i).getD 0

/-- A group formed of threads in rank order (R38). -/
def State.formGroup (s : State) (ctx d c : Nat) (tids : List Nat) : State :=
  let n := tids.length
  let gid := s.freshId
  let g : Group :=
    { gid := gid.1, num := s.freeGroupNum d c, ctx, die := d, core := c, members := tids, tile := n
      frags := [{ id := 0, mask := BitVec.ofNat 32 (2 ^ n - 1), parent := 0 }] }
  let s : State := { gid.2 with groups := gid.2.groups ++ [g] }
  tids.zipIdx.foldl (fun s p => s.updThread p.1 fun t => { t with member := some (gid.1, p.2) }) s

/-- The registers of a thread at its start (R30). -/
def startRegs (n : Nat) (args : List Word) : List Reg :=
  (List.range n).map fun i => { val := (args[i]?).getD 0 }

/-- A thread at its start. -/
def startThread (x : Ctx) (r : QRec) (id tid rank k : Nat) (at' : Nat × Nat) (role : Nat × Word × Nat) (tls : Nat)
    (age : Nat) : Thread :=
  { tid, task := id, ctx := r.ctx, place := .core (k / 64) (k % 64) at'.1 at'.2
    pc := r.entry + role.2.1.signExtend 64, regs := startRegs role.2.2 r.args
    tlsBase := x.tlsva + BitVec.ofNat 64 tls, tlsBytes := r.hdr.tls, spillBytes := r.hdr.spill, prio := r.prio
    handler := if r.hdr.hasTrap then some (r.entry + r.hdr.trapOff.signExtend 64) else none
    trapEn := r.hdr.trapEn, rank, role := role.1, age }

/-- Task `idx` of a record starts in the places given: none if its scratchpad or its thread-local areas do not fit. -/
def State.start (s : State) (k : Nat) (r : QRec) (idx : Nat) (slots : List (Nat × Nat)) (depth : Nat)
    (waiters : List Nat) : Option State :=
  match s.ctx? r.ctx with
  | none => none
  | some x =>
    let ch := s.freshBits
    let s := ch.2.enterCtx k r.ctx
    match s.carveScratch k r.hdr ch.1.toNat, x.carveTls r.hdr slots.length ch.1.toNat with
    | some alloc, some areas =>
      let id := s.freshId
      let s := id.2
      let roles := r.hdr.threads
      let mk := slots.zipIdx.map fun p =>
        startThread x r id.1 (s.nextId + p.2) p.2 k p.1 ((roles[p.2]?).getD (0, 0, r.hdr.regs)) ((areas[p.2]?).getD 0) s.tick
      let tids := mk.map (·.tid)
      let first := (slots.head?).getD (0, 0)
      let h := slotHandle (k / 64) (k % 64) first.1 first.2
      let inSet := r.kind = .range
      let t : Task :=
        { id := id.1, ctx := r.ctx, kind := r.kind, entry := r.entry, args := r.args, fut := if inSet then 0 else r.fut
          index := if inSet then r.baseIdx + BitVec.ofNat 64 idx else 0, count := if inSet then r.count else 1
          prio := r.prio, hdr := r.hdr, set := r.set, loc := .core (k / 64) (k % 64), handle := h, slotted := h, alloc
          owned := if inSet then [] else r.owned, adopt := depth, adoptedBy := waiters, rfb := r.rfb
          launch := if inSet then none else r.launch }
      let s : State := { s with
        nextId := s.nextId + slots.length, tick := s.tick + 1, threads := s.threads ++ mk, tasks := s.tasks ++ [t] }
      let s := s.updCtx r.ctx fun x =>
        if r.hdr.area = 0 then x else { x with tls := x.tls ++ (areas.zip tids).map fun p => (p.1, r.hdr.area, p.2) }
      let s := s.updCore k fun c =>
        match alloc with
        | some (b, n) => { c with allocs := c.allocs ++ [{ base := b, size := n, task := id.1 }] }
        | none => c
      let s := if !r.hdr.gang && decide (2 ≤ r.hdr.bind) then s.formGroup r.ctx (k / 64) (k % 64) tids else s
      let s : State := { s with sets := s.sets.map fun y =>
        (if r.set = some y.id ∧ y.orig = some r.num then { y with lastTask := some id.1 } else y) }
      some s
    | _, _ => none

/-- The record with one index taken, and whether it was the last of the set's original record. -/
def State.takeIndex (s : State) (p : RecPlace) (r : QRec) (top : Bool) : State :=
  let last := r.next + 1 = r.stop
  let s := s.setRecord p r.ctx r.num fun r =>
    if last then none else some (if top then { r with stop := r.stop - 1 } else { r with next := r.next + 1 })
  if last then { s with sets := s.sets.map fun y =>
      (if r.set = some y.id ∧ y.orig = some r.num then { y with orig := none } else y) }
  else s

/-- The next task of a record started from its place (R58): its lowest index, or its highest for an adoption (R75). -/
def State.startFrom (s : State) (p : RecPlace) (r : QRec) (k : Nat) (slots : List (Nat × Nat)) (top : Bool) (depth : Nat)
    (waiters : List Nat) : Option State :=
  match s.start k r (if top then r.stop - 1 else r.next) slots depth waiters with
  | none => none
  | some s =>
    let s := s.takeIndex p r top
    some (match s.tasks.getLast? with
      | some t => s.rewriteTask t.id
      | none => s)

/-! ## Saved tasks (R62, R102, R430, R431) -/

/-- Tasks that are tied to those of a list: an adoption over another's thread, a shared group, a lend set. -/
def State.tied (s : State) (ids : List Nat) : List Nat :=
  let tids := (s.threads.filter fun t => ids.contains t.task).map (·.tid)
  let gs := s.groups.filter fun g => g.members.any tids.contains
  let more := s.tasks.filterMap fun k =>
    let mine := (s.threads.filter (·.task == k.id)).map (·.tid)
    if ids.contains k.id then none
    else if k.adoptedBy.any tids.contains
        || (s.tasks.any fun j => ids.contains j.id && j.adoptedBy.any mine.contains)
        || (gs.any fun g => g.members.any mine.contains)
        || (k.lendSet.isSome && s.tasks.any fun j => ids.contains j.id && j.lendSet == k.lendSet)
    then some k.id else none
  ids ++ more

/-- The tasks that are placed together with a task: its adoption stack (R78), its groups, its lend set (R102). -/
def State.unitOf (s : State) (id : Nat) : List Nat := (List.range s.tasks.length).foldl (fun l _ => s.tied l) [id]

/-- The threads of a list of tasks. -/
def State.threadsOf (s : State) (ids : List Nat) : List Thread := s.threads.filter fun t => ids.contains t.task

/-- Whether a task may be placed: one of its threads is ready, is Trapped, for its handler or for the debugger (R62, R77),
or has a SHIP to send again (R170), or it holds a descent under way (R191). -/
def State.runnable (s : State) (ids : List Nat) : Bool :=
  ((s.threadsOf ids).any fun t => t.status == .ready || t.status == .trapped false || t.status == .trapped true
      || t.resend.isSome)
    || (s.tasks.any fun k => ids.contains k.id && k.image.descent.any fun d => d.cmds.any (·.fids.isEmpty))

/-- The lane of a thread that is saved. -/
def Place.lane? : Place → Option Nat
  | .saved l => some l
  | .core _ _ l _ | .frame _ _ l _ => some l
  | .lc _ => none

/-- Slots for threads of fixed lanes: thread, lane and slot of each, if every lane has room. -/
def placeLanes : List (Nat × Nat × Nat) → List Thread → Option (List (Nat × Nat × Nat))
  | _, [] => some []
  | w, t :: rest =>
    match t.place.lane? with
    | none => none
    | some l =>
      if laneRoom w l t.regs.length = 0 then none
      else
        let k := lowSlot w l
        (placeLanes ((l, k, t.regs.length) :: w) rest).map fun p => (t.tid, l, k) :: p

/-- The slot of a thread, through the frames that lie under it (R73): the waiter of its task at its rank. -/
def State.slotUnder (s : State) (placed : List (Nat × Nat × Nat)) : Nat → Thread → Option (Nat × Nat)
  | 0, _ => none
  | n + 1, t =>
    match placed.find? (·.1 == t.tid) with
    | some p => some p.2
    | none =>
      match (s.task? t.task).bind fun k => (k.adoptedBy[t.rank]?).bind s.thread? with
      | some w => s.slotUnder placed n w
      | none => none

/-- Whether a core has what a saved task keeps: its bank, ring and group numbers, and the descent engine (R102). -/
def State.numbersFree (s : State) (n : Nat) (ids : List Nat) : Bool :=
  let x := s.core n
  let used := (s.groups.filter fun g => coreIdx g.die g.core == n && !g.saved).map (·.num)
  (s.tasks.filter fun k => ids.contains k.id).all fun k =>
    (k.image.banks.all fun b => (x.banks[b.1]?).all fun y => y.owner.isNone)
      && (k.image.rings.all fun r => (x.rings[r.1]?).all fun y => y.owner.isNone)
      && (k.image.descent.isNone || (x.descent.holder.isNone && x.descent.cmds.isEmpty))
      && ((s.groupsOf k.id).all fun g => !used.contains g.num)

/-- The commands of an engine whose operands lie in a task's allocation moved with it (R191). -/
def Descent.rebase (d : Descent) (task base : Nat) : Descent :=
  { d with cmds := d.cmds.map fun m => if m.task = task then { m with base } else m }

/-- A saved task's data put back on a core, with its allocation at `alloc`: cells, banks, rings, descent engine, groups and
commands (R102, R431). Commands that the image of another task of a bound group keeps have their operands in this allocation
too, where this is its rank 0's task (R88). -/
def State.restoreImage (s : State) (id n : Nat) (alloc : Option (Nat × Nat)) : State :=
  match s.task? id with
  | none => s
  | some k =>
    let s := s.enterCtx n k.ctx
    let base := n * 2 ^ 18 + ((alloc.map (·.1)).getD 0)
    let s : State := { s with
      scratch := putBytes s.scratch base k.image.scratch
      cells := k.image.cells.foldl (fun m c => m.set 0 (n * (3 * 128 * 64) + c.1) c.2)
        -- a cell that the image does not list was 0
        (s.cells.filter fun p => !(k.image.banks.any fun b => p.1 / 1024 == n * 24 + b.1))
      groups := s.groups.map fun g =>
        (if (s.groupsOf id).any (·.gid == g.gid) then { g with saved := false, die := n / 64, core := n % 64 } else g)
      copies := s.copies.map fun b =>
        let b := { b with chain := b.chain.map fun c => (c.1, if c.2.task = id then { c.2 with base } else c.2) }
        if b.task = id then { b with core := n, base } else b
      tasks := s.tasks.map fun k => { k with image := { k.image with descent := k.image.descent.map (·.rebase id base) } }
      net := { s.net with rmas := s.net.rmas.map fun r => if r.task = id ∧ r.scratch then { r with base } else r } }
    let s := s.updCore n fun c =>
      { c with
        banks := c.banks.zipIdx.map fun b =>
          match k.image.banks.find? (·.1 == b.2) with
          | some y => { owner := y.2.1, lendee := y.2.2 }
          | none => b.1
        rings := c.rings.zipIdx.map fun r =>
          match k.image.rings.find? (·.1 == r.2) with
          | some y => y.2
          | none => r.1
        descent := (k.image.descent.getD c.descent).rebase id base
        allocs := match alloc with
          | some (b, z) => c.allocs ++ [{ base := b, size := z, task := id }]
          | none => c.allocs }
    s.updTask id fun k => { k with loc := .core (n / 64) (n % 64), alloc, image := {}, lendSet := none }

/-- The handler entries that saved traps still wait for (R77, R348). An adopted owner that stands Trapped is saved
instead (R77). -/
def State.enterHandlers (s : State) (ids : List Nat) : State :=
  let ts := (s.threadsOf ids).filter fun t =>
    t.status == .trapped false && t.place.slot?.isSome && (s.task? t.task).all (·.adoptedBy.isEmpty)
  ts.foldl (fun s t =>
    match t.member with
    | none => s.enterHandler [t.tid]
    | some (gid, _) => s.nextHandler gid) s

/-- A saved task's handle after it has taken slots (R64): of its rank-0 thread, or of the lowest rank that has not exited
(DESIGN CHOICE, log 20). -/
def State.slotHandles (s : State) (ids : List Nat) : State :=
  ids.foldl (fun s id =>
    let mine := s.threads.filter (·.task == id)
    match (mine.find? fun t => mine.all fun u => decide (t.rank ≤ u.rank)).bind (·.place.slot?) with
    | some (d, c, l, k) =>
      let h := slotHandle d c l k
      (s.updTask id fun x => { x with handle := h, slotted := h }).rewriteTask id
    | none => s) s

/-! ## Offering a SHIP (R167 to R170, R289) -/

/-- Where the home of a lock address lies. -/
inductive ShipHome where
  /-- A latency core of this device. -/
  | here (lc : Nat)
  /-- The device that a remote window names, with the export and the offset. -/
  | away (node exp off : Nat)
  deriving DecidableEq, Repr

/-- The home of a thread's lock address, without the permissions (R167, R168). -/
def State.shipHome (s : State) (t : Thread) (lock : Dword) : Except Stop ShipHome :=
  (s.locate t.ctx lock .read false).map fun x =>
    match x with
    | .remote node exp off => .away node exp off
    | .mem key => .here (homeOf (key % 2 ^ 52))
    | .kick off => .here (homeOf (Config.kickBase + off))

/-- The status of a sender whose request has been offered to a home. -/
def ShipHome.offered : ShipHome → Status
  | .here lc => .offered lc
  | .away .. => .offered 64

/-- A request offered to its home (R169), or sent to the device that has it (R168). -/
def State.offerShip (s : State) (t : Thread) (r : ShipReq) : ShipHome → State
  | .here lc => s.updLc lc fun l => { l with offers := l.offers ++ [r] }
  | .away node exp off =>
    let op := s.freshId
    let s := op.2.sendFor t.ctx node (.ship op.1 exp off t.ctx t.tid r)
    { s with net := { s.net with ships := s.net.ships ++ [(op.1, node, r)] } }

/-- The token of SHIP.C names its home (R289): the latency core, which is not known for another device (DESIGN CHOICE,
log 24). -/
def State.tokenHome (s : State) : ShipHome → Nat × State
  | .here lc => (lc, s)
  | .away .. => s.freshBelow 64

/-- A thread sends again, on its new core, the request that was withdrawn when it was saved (R170): under the translation
that its lock address has now, and under its new handle. A token of SHIP.C that is still EMPTY names the home. A lock
address that no longer translates stops the thread as the SHIP itself would have been stopped (R167). -/
def State.resendOne (s : State) (tid : Nat) : State :=
  match s.thread? tid with
  | none => s
  | some t =>
    match t.resend with
    | none => s
    | some r =>
      match s.shipHome t r.lock with
      | .ok h =>
        let r := { r with task := s.taskHandle t }
        let lc := s.tokenHome h
        let s := if r.kind = .c then
            lc.2.devUpdate t.ctx r.token (.owner (lcHandle lc.1)) 0 t.place.die t.place.unit r.task else lc.2
        (s.offerShip t r h).updThread tid fun t => { t with resend := none, status := h.offered }
      | .error (.page va acc) =>
        let f := s.openFault t.ctx va acc { time := 0, task := s.taskHandle t, die := t.place.die, unit := t.place.unit }
        f.2.updThread tid fun t => { t with status := .fault f.1 va }
      | .error (.trap x) =>
        ((s.updThread tid fun t => { t with resend := none }).tallyTrap tid).raise (s.actorOf t) tid x (s.wordAt t.ctx t.pc)
      | .error .stall => s

/-- The threads of placed tasks send their withdrawn requests again, in order. -/
def State.resendAll (s : State) (tids : List Nat) : State := tids.foldl State.resendOne s

/-- Saved tasks put on a core, their threads in the slots given by `at'` (R431). -/
def State.restore (s : State) (ids : List Nat) (n : Nat) (at' : Thread → Option (Nat × Nat)) : Option State :=
  let ch := s.freshBits
  match s.carveUnit n ch.1.toNat ids with
  | none => none
  | some areas =>
    let s := ids.foldl (fun s id => s.restoreImage id n ((areas.find? (·.1 == id)).map (·.2))) ch.2
    let mine := s.threadsOf ids
    let s := mine.foldl (fun s t =>
      match at' t with
      | some (l, k) => s.updThread t.tid fun t =>
          { t with place := if t.status = .adopting then .frame (n / 64) (n % 64) l k else .core (n / 64) (n % 64) l k }
      | none => s) s
    let ctxs := (mine.map (·.ctx)).eraseDups
    let s := ctxs.foldl (fun s c => s.updCtx c fun x =>
      { x with pool := x.pool.filter fun
          | .task id => !ids.contains id
          | _ => true }) s
    let tids := mine.map (·.tid)
    some ((((s.slotHandles ids).resendAll tids).refreshAge tids).endAdoptions.enterHandlers ids)

/-- A saved task with all that is placed with it goes to a core of its context, if it has room (R431). -/
def State.placeSaved (s : State) (id n : Nat) : Option State :=
  let ids := s.unitOf id
  let bottom := (s.threadsOf ids).filter fun t => (s.task? t.task).all fun k => k.adoptedBy.isEmpty
  if !s.runnable ids || !s.numbersFree n ids || (s.tasks.any fun k => ids.contains k.id && k.loc != .saved) then none
  else
    match placeLanes (s.windows (n / 64) (n % 64)) bottom with
    | none => none
    | some placed => s.restore ids n (s.slotUnder placed 8)

/-! ## Adoption (R71 to R75) -/

/-- What a WAIT may adopt. -/
inductive Owner where
  | record (p : RecPlace) (r : QRec)
  | saved (id : Nat)
  deriving DecidableEq, Repr

/-- The owner that a handle of kind 0b01 names in a context (R64, R72). -/
def State.findOwner (s : State) (c : Nat) (h : Word) : Option Owner :=
  if h.toNat / 2 ^ 21 % 4 ≠ 1 then none
  else
    let num := h.toNat % 2 ^ 21
    match s.findRecord c num with
    | some (p, r) => some (.record p r)
    | none => (s.tasks.find? fun k => k.ctx == c && k.loc == .saved && k.num == num).map fun k => .saved k.id

/-- The waiters of an agent that all wait on one future: its address and the threads in rank order (R72, R283). -/
def State.waitersOn (s : State) (tids : List Nat) : Option (Dword × List Thread) :=
  let ts := tids.filterMap s.thread?
  let vas := ts.map fun t =>
    match t.status with
    | .parked (.future va _) => some va
    | _ => none
  match vas with
  | some va :: rest => if rest.all (· == some va) then some (va, ts) else none
  | _ => none

/-- Whether the waiters are a free thread, or a whole bound group (R72). -/
def State.wholeWaiters (s : State) (ts : List Thread) : Bool :=
  match ts with
  | [] => false
  | t :: _ =>
    match t.member with
    | none => ts.length == 1
    | some (gid, _) => (s.group? gid).any fun g => g.members == ts.map (·.tid) && g.exited == 0

/-- The waiters go to adoption frames (R73), every pending result written (R225). -/
def State.toFrames (s : State) (tids : List Nat) : State :=
  s.updThreads tids fun t =>
    let t := t.commitAll
    match t.place with
    | .core d c l k => { t with place := .frame d c l k, status := .adopting }
    | _ => t

/-- Whether a saved task is Parked-runnable (R62): one of its threads is not parked, and none is Trapped or in its
handler. -/
def State.adoptable (s : State) (id : Nat) : Bool :=
  let mine := s.threadsOf [id]
  mine.any (·.status == .ready)
    && mine.all fun t => t.priv == .u && t.status != .trapped false && t.status != .trapped true

/-- An adoption by waiters in slots of core `n`, if every condition of R72 holds. A saved owner that must be placed together
with another task, because a frame lies under it or a group joins them, is not adopted: R72's table does not name this case
(DESIGN CHOICE, log 90). Where the waiting ranks belong to tasks of different depths, the largest counts: R73 gives one depth
(DESIGN CHOICE, log 104). -/
def State.adopt (s : State) (ts : List Thread) (n : Nat) (h : Word) : Option State :=
  let tids := ts.map (·.tid)
  let slots := ts.filterMap fun t => t.place.slot?.map (·.2.2)
  let regs := ts.foldl (fun m t => min m t.regs.length) 255
  let depth := ts.foldl (fun m t => max m (((s.task? t.task).map (·.adopt)).getD 0)) 0
  if !s.wholeWaiters ts || decide (4 ≤ depth) || slots.length != ts.length then none
  else
    match (ts.head?).bind fun t => s.findOwner t.ctx h with
    | none => none
    | some (.record p r) =>
      if r.kind = .gang ∨ r.hdr.bind ≠ ts.length ∨ regs < r.hdr.regs then none
      else (s.toFrames tids).startFrom p r n slots true (depth + 1) tids
    | some (.saved id) =>
      match s.task? id with
      | none => none
      | some k =>
        let mine := s.threadsOf [id]
        let lanes := (List.range mine.length).map fun i => (mine.find? (·.rank == i)).bind (·.place.lane?)
        if k.kind = .gang ∨ k.hdr.bind ≠ ts.length ∨ regs < k.hdr.regs ∨ k.lendSet.isSome ∨ s.unitOf id ≠ [id] then none
        else if !s.adoptable id then none
        else if lanes ≠ slots.map (fun p => some p.1) || !s.numbersFree n [id] then none
        else
          ((s.toFrames tids).updTask id fun k => { k with adopt := depth + 1, adoptedBy := tids }).restore [id] n
            fun t => slots[t.rank]?

/-- A WAIT that has just parked adopts the owner of its future, if it may (R68, R72). -/
def State.tryAdopt (s : State) (tids : List Nat) : Option State :=
  match s.waitersOn tids with
  | none => none
  | some (va, ts) =>
    match ts.head? with
    | none => none
    | some t =>
      match t.place, s.key t.ctx va .read with
      | .core d c _ _, .ok key =>
        if s.futureState key != 0 then none
        else (s.adopt ts (coreIdx d c) (BitVec.ofNat 32 (s.num (key + 8) 4))).map fun s => s.tallyCore (coreIdx d c) 0x042 1
      | _, _ => none

/-! ## What a task does when its threads park (R62, R76) -/

/-- After an agent has parked: its WAIT adopts, or an adopted task with every thread parked ends its adoption. -/
def State.parkCheck (s : State) (tids : List Nat) : State :=
  match s.tryAdopt tids with
  | some s => s
  | none => s.endAdoptions

end Sys2Proof.Machine
end

