-- ==== Sys2Proof/Machine/Operands.lean ====
section
/-! DEFINITION. Operand forms: registers, pairs and spans with their tags, predicates and guards, addresses; and the shared
course of an instruction through the steps of R235: checks, guards, effect, retirement, branches and parking. -/

namespace Sys2Proof.Machine

/-! ## Registers (R15, R16, R147, R232, R233) -/

/-- A general register; 255 is gz, which reads zero with tag RAW (R232). -/
def Thread.reg (t : Thread) (n : Nat) : Reg := if n = 255 then {} else (t.regs[n]?).getD {}

/-- A register's value. -/
def Thread.val (t : Thread) (r : GReg) : Word := (t.reg r.toNat).val

/-- A register's tag. -/
def Thread.tag (t : Thread) (r : GReg) : Tag := (t.reg r.toNat).tag

/-- A pair's value: its low word in the even register (R238). -/
def Thread.pair (t : Thread) (r : GReg) : Dword := joinWords (t.reg r.toNat).val (t.reg (r.toNat + 1)).val

/-- A register written: gz discards it, and a pending long-latency result of the register never lands after it (R224). R224
lets a read within the window give the earlier or the later write where the later one is held back: the model gives the later
one (DESIGN CHOICE, log 92). -/
def Thread.setReg (t : Thread) (n : Nat) (v : Reg) : Thread :=
  { t with regs := t.regs.set n v, pend := t.pend.filter (·.reg != n) }

/-- A register written with a value and a tag. -/
def Thread.put (t : Thread) (d : GReg) (v : Word) (tag : Tag) : Thread := t.setReg d.toNat { val := v, tag }

/-- A pair written, both registers with the tags given. -/
def Thread.putPair (t : Thread) (d : GReg) (v : Dword) (lo hi : Tag) : Thread :=
  (t.setReg d.toNat { val := loWord v, tag := lo }).setReg (d.toNat + 1) { val := hiWord v, tag := hi }

/-- A span written from register `n` on. -/
def Thread.putSpan (t : Thread) (n : Nat) : List Reg → Thread
  | [] => t
  | r :: l => (t.setReg n r).putSpan (n + 1) l

/-- The words of a span. -/
def Thread.span (t : Thread) (r : GReg) (n : Nat) : List Word := (List.range n).map fun i => (t.reg (r.toNat + i)).val

/-- A predicate: 7 reads true (R232). -/
def Thread.pred (t : Thread) (p : PReg) : Bool := p == 7 || t.preds.getLsbD p.toNat

/-- A predicate written: a write to 7 is discarded (R232). -/
def Thread.setPred (t : Thread) (p : PReg) (v : Bool) : Thread :=
  if p = 7 then t
  else
    let bit : BitVec 7 := 1 <<< p.toNat
    { t with preds := if v then t.preds ||| bit else t.preds &&& ~~~bit }

/-- A guard's value in a thread (R222). -/
def Thread.guard (t : Thread) (g : Guard) : Bool := t.pred g.p != g.neg

/-- Whether an instruction executes in a thread (R222). -/
def Thread.guards (t : Thread) (h : Hdr) : Bool := t.guard h.g0 && t.guard h.g1

/-- Every register that the operands span, except gz, lies below the register count (R16, R232): a span may end at gz, and
none goes past it (R233). -/
def Thread.regsBelow (t : Thread) (us : List RegUse) : Bool :=
  us.all fun u => (List.range u.span).all fun i =>
    decide (u.base.toNat + i = 255) || decide (u.base.toNat + i < t.regs.length)

/-- FORMAT_MISMATCH of a typed source (R149, R350): field 0 A, 1 B, 2 C. -/
def formatStop (field : Nat) (read : Tag) : Stop :=
  .trap { cause := cFormat, detail0 := BitVec.ofNat 64 (read.code.toNat + 256 * field) }

/-- The tag check of a typed source register: its own tag or RAW (R149). -/
def Thread.typed (t : Thread) (n : Nat) (want : Tag) (field : Nat) : Except Stop Unit :=
  let g := (t.reg n).tag
  if g = want ∨ g = .raw then .ok () else .error (formatStop field g)

/-- The tag check of an F64 pair (R149). -/
def Thread.typedF64 (t : Thread) (r : GReg) (field : Nat) : Except Stop Unit := do
  t.typed r.toNat .f64lo field
  t.typed (r.toNat + 1) .f64hi field

/-- The tag check of a span. -/
def Thread.typedSpan (t : Thread) (want : Tag) (field : Nat) : Nat → Nat → Except Stop Unit
  | _, 0 => .ok ()
  | r, n + 1 => do
    t.typed r want field
    t.typedSpan want field (r + 1) n

/-- A long-latency result: written at once with LA = 0, else pending for its window, after any earlier one of the same
register (R223, R224). -/
def Thread.putLong (t : Thread) (la : BitVec 4) (n : Nat) (l : List Reg) : Thread :=
  if la = 0 then t.putSpan n l
  else
    { t with pend := t.pend ++ (l.zipIdx n).filterMap fun p =>
        if p.2 < t.regs.length then some { reg := p.2, val := p.1, left := some (la.toNat + 1) } else none }

/-- A long-latency destination whose value an engine has still to produce (R321). -/
def Thread.awaitLong (t : Thread) (la : BitVec 4) (n count src : Nat) : Thread :=
  { t with pend := t.pend ++ (List.range count).filterMap fun i =>
      if n + i < t.regs.length then
        some { reg := n + i, val := {}, known := false, left := if la = 0 then none else some (la.toNat + 1), src }
      else none }

/-- Whether a pending result must land before the thread's next instruction, which reads the registers `us`, for its own sake:
its window is used up, or it has LA = 0 and the instruction reads its register (R223). -/
def Thread.dueSelf (t : Thread) (us : List RegUse) (p : Pend) : Bool :=
  match p.left with
  | some n => n == 0
  | none => us.any fun u => decide (u.base.toNat ≤ p.reg) && decide (p.reg < u.base.toNat + u.span) && t.regs.length != 0

/-- The pending results that must land before the thread's next instruction (R223), with those that the same register awaits
from earlier instructions: they land in order, and the later stands (R224). -/
def Thread.due (t : Thread) (us : List RegUse) (p : Pend) : Bool :=
  t.dueSelf us p || (t.pend.dropWhile (· != p)).any fun q => q.reg == p.reg && t.dueSelf us q

/-- The due results written. -/
def Thread.commitDue (t : Thread) (us : List RegUse) : Thread :=
  { t with
    regs := t.pend.foldl (fun r p => if t.due us p && p.known then r.set p.reg p.val else r) t.regs
    pend := t.pend.filter fun p => !(t.due us p && p.known) }

/-! ## What an instruction reads (R223) -/

/-- The instructions whose general-register operands are all sources. -/
def onlyReads : Instr → Bool
  | .icmp .. | .icmp64 .. | .pmovPut .. | .fcmp .. | .fcmp64 .. | .brx .. | .callx .. | .bind .. | .smovWrite .. => true
  | .st .. | .sts .. | .stl .. | .lda .. | .red .. | .redScratchpad .. | .pref .. | .cwb .. | .cinv .. => true
  | .spawn .. | .fset .. | .fsetFault .. | .fsetCancel .. | .fnew .. | .join .. | .leave .. | .bar .. | .fsetBit ..
  | .waitBit .. | .shipC .. | .shipO .. | .qpush .. => true
  | .accLd .. | .bcpy .. | .rcfg .. | .dscCfg .. | .rfbStart .. | .rfbAbort .. | .rmaPut .. | .rmaGet .. | .rmaFlag .. => true
  | .swr .. | .icinv .. | .perfCfg .. => true
  | _ => false

/-- The general registers that an instruction reads: of the others, the first operand is a destination. Conversions read C only for
a scale, and PACK.BX2 reads its destination as well (R257 to R259); SHIP.W reads its arguments (R288), and ACC.LD three registers
(R321). -/
def regReads (i : Instr) : List RegUse :=
  match i with
  | .shipW _ _ _ n a b c => [.pair a, .pair c, .run b n.toNat]
  | .cvt _ tgt src _ _ _ a c => src.cvtUse a :: (if tgt.scaled || src.scaled then [.one c] else [])
  | .pack _ tgt _ _ sc _ d a c =>
    tgt.packUse a :: ((if tgt = .bx2 then [.one d] else []) ++ if sc || tgt.scaled then [.one c] else [])
  | .unpack _ src _ _ sc _ _ a c => .one a :: (if sc || src.scaled then [.one c] else [])
  | .accLd _ _ a b c => [.run a 3, .one b, .one c]
  | _ => if onlyReads i then i.regUses else i.regUses.drop 1

/-- What a rank supplies to a collective in which also ranks whose guards are false do so (R307): its source A, and to SBCAST and
to the write form of SMOV only where it is the rank named. -/
def supplied (t : Thread) : Instr → List RegUse
  | .shfl _ _ _ _ a _ | .gshfl _ _ a _ => [.one a]
  | .sbcast _ b64 _ a n => if t.member.any (·.2 == n.toNat) then [if b64 then .pair a else .one a] else []
  | .smovWrite _ _ a n => if t.member.any (·.2 == n.toNat) then [.one a] else []
  | _ => []

/-- What a rank whose guards are true reads: of SBCAST and of the write form of SMOV, the source only in the rank named. -/
def rankReads (t : Thread) (i : Instr) : List RegUse :=
  match i with
  | .sbcast .. | .smovWrite .. => supplied t i
  | _ => regReads i

/-! ## Group-uniform registers (R38) -/

/-- An s-register. -/
def Group.sreg (g : Group) (n : Nat) : Reg := (g.sregs[n]?).getD {}

/-- An s-pair. -/
def Group.spair (g : Group) (n : Nat) : Dword := joinWords (g.sreg n).val (g.sreg (n + 1)).val

/-! ## Addresses (R228, R230) -/

/-- The target of BRA, CALL and MSET (R228). -/
def relTarget (pc : Dword) (imm : BitVec 24) : Dword := pc + 8 * imm.signExtend 64

/-- The address of a global access (R230). -/
def globalAddr (t : Thread) (a : GReg) (off : BitVec 8) (n : Nat) : Dword :=
  t.pair a + off.signExtend 64 * BitVec.ofNat 64 n

/-- The offset of a scratchpad or thread-local access (R230). -/
def localOff (t : Thread) (a : GReg) (off : BitVec 8) (n : Nat) : Word :=
  t.val a + off.signExtend 32 * BitVec.ofNat 32 n

/-- MISALIGNED unless a multiple (R83). -/
def aligned (a : Dword) (n : Nat) (acc : Acc := .read) : Except Stop Unit :=
  if a.toNat % n = 0 then .ok () else .error (trapAt cMisaligned a acc)

/-- ACCESS_VIOLATION unless canonical (R83). -/
def canon (a : Dword) (acc : Acc := .read) : Except Stop Unit :=
  if canonical a then .ok () else .error (trapAt cAccess a acc)

/-- The checks of a branch target (R220, R263). -/
def branchOk (a : Dword) : Except Stop Unit := do
  aligned a 8
  canon a

/-- A check with a cause. -/
def require (ok : Bool) (cause : BitVec 8) : Except Stop Unit := if ok then .ok () else .error (trapOf cause)

/-! ## Steps 2 to 4 of R235 -/

/-- Step 2: the cause of an opcode that the kind of core does not allow (R174, R175); `fn` are the low bits of FN. -/
def opcodeStop (op fn : Nat) (inSection : Bool) : Option (BitVec 8) :=
  if !inSection then (if op = 0x98 then some cIllegalOpcode else none)
  else if op = 0x36 then some cIllegalOpcode
  else if op ≤ 0x58 then none
  else if op = 0x97 then (if fn % 4 = 0 then some cShipWait else none)
  else if op = 0x91 ∨ op = 0x9B ∨ op = 0x96 ∨ op = 0x9A then some cShipWait
  else if [0x70, 0x71, 0x74, 0x75, 0x78, 0x79, 0x7C, 0x7D, 0x7E, 0x7F, 0x92, 0x93, 0x98, 0x99, 0x9C, 0xC0, 0xC1, 0xC2,
      0xC4, 0xC7, 0xC8].contains op then none
  else some cIllegalOpcode

/-- Step 2 for a word: its opcode is assigned (R237), and allowed on this kind of core. -/
def wordStop (w : Dword) (inSection : Bool) : Option (BitVec 8) :=
  let r := Raw.ofWord w
  if opAssigned r.op then opcodeStop r.op.toNat r.fn.toNat inSection else some cIllegalOpcode

/-- Step 4: the register or counter number of an instruction that the thread's state does not allow (R343, R359). -/
def State.privStop (s : State) (t : Thread) : Instr → Option Nat
  | .srd _ _ r => if r.needsH && t.priv != .h then some r.code.toNat else none
  | .swr _ r _ => if r.needsH && t.priv != .h then some r.code.toNat else none
  | .tret .. => if t.priv != .h then some 0 else none
  | .perfCfg _ n _ => some n.toNat
  | .perfRd _ _ n =>
    let granted :=
      match t.place.coreIdx? with
      | some k =>
        let c := (s.core k).perf.get ({} : Counter) n.toNat
        c.ctrl.getLsbD 30 && (c.ctrl.extractLsb' 20 10).toNat == t.ctx
      | none => false
    if granted then none else some n.toNat
  | _ => none

/-- Byte i of sy.bpctl: the kind and the size of breakpoint i (R355). -/
def Ctx.bp (x : Ctx) (i : Nat) : Nat × Nat :=
  let b := (x.bpctl.extractLsb' (8 * i) 8).toNat
  (b % 4, 2 ^ (b / 4 % 8))

/-- The first address breakpoint that a range of bytes meets, among the kinds given (R355). -/
def State.bpHit (s : State) (c : Nat) (va : Dword) (n : Nat) (kinds : List Nat) : Option Nat :=
  match s.ctx? c with
  | none => none
  | some x =>
    (List.range 4).find? fun i =>
      let b := x.bp i
      let a := ((x.bpa[i]?).getD 0).toNat / b.2 * b.2
      kinds.contains b.1 && decide (va.toNat < a + b.2) && decide (a < va.toNat + n)

/-- A breakpoint trap: bit 31 of DETAIL0 and the index (R350). -/
def bpStop (va : Dword) (i : Nat) : Stop :=
  .trap { cause := cBreak, faddr := va, detail0 := BitVec.ofNat 64 (2 ^ 31 + i) }

/-! ## The course of an instruction -/

/-- What an instruction does next in a thread. -/
inductive Next where
  /-- It is complete: PC + 8. -/
  | seq
  /-- It is complete: the PC given. -/
  | jump (pc : Dword)
  /-- It parks and is executed again when its condition is met. -/
  | retry (c : Cond)
  /-- It waits in the status given, and is complete when its condition is met. -/
  | await (st : Status)
  /-- The thread has gone, or its place and PC have been set. -/
  | gone
  deriving DecidableEq, Repr

/-- The effect of an instruction in one thread. -/
abbrev Body := Nat → State → Except Stop (State × Next)

/-- A sibling fragment, or a thread under STOPCTX, that halts after `n` further instructions (R48, R49): its frames hold
the cause of the fragment that trapped. -/
def State.haltNow (s : State) (a : Actor) (tids : List Nat) (n : Nat) : State :=
  match a with
  | .frag gid fid =>
    let src := (s.group? gid).bind fun g => g.frags.findSome? fun f =>
      (g.threadsOf f.mask).findSome? fun i => (s.thread? i).bind fun t =>
        if (f.state == .trapped || t.priv == .h) && t.frame.state == 0 then some t.frame else none
    let fr := src.getD { cause := cBreak, frank := 0xFF }
    let x : Trap := { cause := fr.cause, faddr := fr.faddr, detail0 := fr.detail0, detail1 := fr.detail1 }
    (s.haltFrames tids x fr.frank.toNat n).updGroup gid fun g =>
      g.updFrag fid fun f => { f with halted := true, skid := none }
  | .thread tid =>
    (s.haltFrames tids { cause := cBreak } 0xFF n).updThread tid fun t => { t with halted := true, skid := none }
  | _ => s

/-- The instructions that an agent has issued while it halts, if it halts (R48, R49). -/
def State.skidOf (s : State) : Actor → Option Nat
  | .frag gid fid => ((s.group? gid).bind (·.frag? fid)).bind (·.skid)
  | .thread tid => (s.thread? tid).bind (·.skid)
  | _ => none

/-- One more instruction issued by an agent while it halts, after `n` others; the sixteenth halts it (R48, R49). -/
def State.skidOne (s : State) (n : Nat) (a : Actor) : State :=
  let n := max n ((s.skidOf a).getD 0) + 1
  if 16 ≤ n then s.haltNow a (s.actorTids a) 16
  else
    match a with
    | .frag gid fid => s.updGroup gid fun g => g.updFrag fid fun f => { f with skid := some n }
    | .thread tid => s.updThread tid fun t => { t with skid := some n }
    | _ => s

/-- The agents that a list of threads belongs to. -/
def State.agentsOf (s : State) (tids : List Nat) : List Actor :=
  (tids.filterMap fun i => (s.thread? i).map s.actorOf).eraseDups

/-- An instruction counted where its agent halts (`skid`: what it had issued before): every fragment that its threads stand
in after it, divided or fused, has issued it (R42, R45, R48). -/
def State.skidAll (s : State) (skid : Option Nat) (tids : List Nat) : State :=
  match skid with
  | none => s
  | some n => (s.agentsOf tids).foldl (fun s a => s.skidOne n a) s

/-- Distinct addresses in ascending order. -/
def insertPc : List Dword → Dword → List Dword
  | [], x => [x]
  | y :: t, x => if x.toNat < y.toNat then x :: y :: t else if x = y then y :: t else y :: insertPc t x

/-- The lowest fragment ID not in use. -/
def freeFragId (used : List Nat) : Nat := ((List.range 32).find? fun i => !used.contains i).getD 0

/-- New fragments for the PCs that leave the parent, in ascending order (R43). -/
def addFrags (f : Frag) (maskAt : Dword → BitVec 32) : List Dword → List Frag → List Frag
  | [], l => l
  | p :: t, l =>
    addFrags f maskAt t (l ++ [{ f with id := freeFragId (l.map (·.id)), mask := maskAt p, parent := f.id }])

/-- A split of a fragment by next PC (R42, R43): the threads at `fall`, or else those with the lowest PC, keep its ID. -/
def State.split (s : State) (gid fid : Nat) (fall : Dword) : State :=
  match s.group? gid with
  | none => s
  | some g =>
    match g.frag? fid with
    | none => s
    | some f =>
      let pcOf := fun r => (((g.members[r]?).bind s.thread?).map (·.pc)).getD 0
      let pcs := (ranksOf f.mask).foldl (fun l r => insertPc l (pcOf r)) []
      match pcs with
      | [] | [_] => s
      | low :: _ =>
        let keep := if pcs.contains fall then fall else low
        let maskAt := fun p => (ranksOf f.mask).foldl (fun (m : BitVec 32) r => if pcOf r = p then m ||| (1 <<< r) else m) 0
        s.updGroup gid fun g =>
          { g with frags := (addFrags f maskAt (pcs.filter (· != keep))
              (g.frags.map fun x => if x.id = fid then { x with mask := maskAt keep } else x)) }

/-- The windows of pending results move on by one issued instruction (R223). -/
def Thread.windowStep (t : Thread) : Thread :=
  { t with pend := t.pend.map fun p => { p with left := p.left.map (· - 1) } }

/-- An agent's instruction has issued: windows, skid and age move on (R34, R48, R223). -/
def State.issued (s : State) (skid : Option Nat) (tids : List Nat) : State :=
  ((s.updThreads tids Thread.windowStep).refreshAge tids).skidAll skid tids

/-- The fault record's agent fields of a thread or a section (R423). -/
def agentRec (s : State) (t : Thread) : FaultRec :=
  { time := 0, task := s.taskHandle t, die := t.place.die, unit := t.place.unit,
    agent := if t.section_.isSome then 5 else 0 }

/-- Whether a result of an agent is still to come: a trap or a page fault waits for it (R225). -/
def State.resultsOpen (s : State) (a : Actor) : Bool :=
  (s.actorTids a).any fun i => (s.thread? i).any fun t => t.pend.any (!·.known)

/-- An agent whose trap or page fault waits for its results (R225). -/
def State.trapWaits (s : State) (a : Actor) : State := s.updThreads (s.actorTids a) fun t => { t with trapWait := true }

/-- The threads of an agent but those of a list: they wait for these (R47). -/
def State.parkRest (s : State) (tids but : List Nat) (done : Bool) : State :=
  s.updThreads (tids.filter fun i => !but.contains i) fun t => { t with status := .parked (.unit done) }

/-- An instruction stops in thread `tid`: a trap is taken by the whole fragment, and a recoverable page fault parks it as one;
a stalled one does not issue (R47, R80, R235). -/
def State.stop (s : State) (a : Actor) (tid : Nat) (iword : Dword) : Stop → State
  | .trap t =>
    if s.resultsOpen a then s.trapWaits a else
    let s : State := { s with ldas := s.ldas.filter fun l => !t.reports.contains l.id }
    (s.tallyTrap tid).raise a (t.tid.getD tid) t iword
  | .page va acc =>
    match s.thread? tid with
    | none => s
    | some t =>
      if s.resultsOpen a then s.trapWaits a else
      let r := s.openFault t.ctx va acc (agentRec s t)
      let tids := s.actorTids a
      let s := ((r.2.updThread tid fun t => { t.commitAll with status := .fault r.1 va }).parkRest tids [tid] false).parkCheck tids
      match t.place.coreIdx? with
      | some k => s.tallyCore k 0x041 1
      | none => s
  | .stall => s

/-- The first thread of a list that fails a check, with what stops it. -/
def firstStop (s : State) (check : Thread → Option Stop) : List Nat → Option (Nat × Stop)
  | [] => none
  | i :: l =>
    match (s.thread? i).bind check with
    | some e => some (i, e)
    | none => firstStop s check l

/-- Steps 2 to 4 of R235 and the execute breakpoints (R355), each for one thread. -/
def State.decodeSteps (s : State) (i : Instr) : List (Thread → Option Stop) :=
  [fun t => (wordStop (encodeWord i) t.section_.isSome).map trapOf,
   fun t => if t.regsBelow i.regUses then none else some (trapOf cIllegalField),
   fun t => (s.privStop t i).map fun n => .trap { cause := cPriv, detail0 := BitVec.ofNat 64 n },
   fun t => (s.bpHit t.ctx t.pc 8 [1]).map fun k => .trap { cause := cBreak, detail0 := BitVec.ofNat 64 (2 ^ 31 + k) }]

/-- The first of these steps that stops a thread. -/
def State.decodeStop (s : State) (i : Instr) (t : Thread) : Option Stop := (s.decodeSteps i).findSome? fun c => c t

/-- The first step that stops any thread of an agent, and the first thread that it stops: a fragment takes each step together
(R235). -/
def State.agentStop (s : State) (i : Instr) (tids : List Nat) : Option (Nat × Stop) :=
  (s.decodeSteps i).findSome? fun c => firstStop s c tids

/-- The threads of an agent whose guards are true. -/
def State.activeTids (s : State) (h : Hdr) (tids : List Nat) : List Nat :=
  tids.filter fun i => (s.thread? i).any (·.guards h)

/-- The effects of the active threads in rank order; the first that stops, stops the agent (R235). Where one rank meets a
recoverable page fault, which parks the fragment (R47), and another a check that traps it, the spec does not say which comes
first: the model takes the lower rank's (DESIGN CHOICE, log 103). -/
def runBodies (body : Body) : List Nat → State → Except (Nat × Stop) (State × List (Nat × Next))
  | [], s => .ok (s, [])
  | i :: l, s =>
    match body i s with
    | .error e => .error (i, e)
    | .ok (s, n) =>
      match runBodies body l s with
      | .error e => .error e
      | .ok (s, ns) => .ok (s, (i, n) :: ns)

/-- What a thread does next, applied to it. -/
def State.applyNext (s : State) (i : Nat) : Next → State
  | .seq => s.updThread i fun t => { t with pc := t.pc + 8 }
  | .jump p => s.updThread i fun t => { t with pc := p }
  | .retry c => s.updThread i fun t => { t with status := .parked c }
  | .await st => s.updThread i fun t => { t with status := st }
  | .gone => s

/-- Whether an instruction is to be executed again. -/
def Next.isRetry : Next → Bool
  | .retry _ => true
  | _ => false

/-- Whether the thread waits for its condition, after its part of the instruction. -/
def Next.isAwait : Next → Bool
  | .await _ => true
  | _ => false

/-- The threads of a list of outcomes that satisfy a test. -/
def tidsWhere (p : Next → Bool) (ns : List (Nat × Next)) : List Nat := (ns.filter fun x => p x.2).map (·.1)

/-- The outcomes of a test applied to their threads. -/
def State.applyWhere (s : State) (p : Next → Bool) (ns : List (Nat × Next)) : State :=
  (ns.filter fun x => p x.2).foldl (fun s x => s.applyNext x.1 x.2) s

/-- Fall-through for the threads whose guards are false. -/
def State.fallThrough (s : State) (tids active : List Nat) : State :=
  s.updThreads (tids.filter fun i => !active.contains i) fun t => { t with pc := t.pc + 8 }

/-- Issue counters of a core: threads issued (R452). -/
def State.tallyIssue (s : State) (tids : List Nat) : State :=
  match (tids.head?.bind s.thread?).bind (·.place.coreIdx?) with
  | some k => s.tallyCore k 0x004 tids.length
  | none => s

/-- The same count where the instruction may have ended its threads: `s` is the state before it. -/
def State.tallyEnded (e s : State) (tids : List Nat) : State :=
  match tids.head?.bind e.thread? with
  | some _ => e.tallyIssue tids
  | none =>
    match (tids.head?.bind s.thread?).bind (·.place.coreIdx?) with
    | some k => e.tallyCore k 0x004 tids.length
    | none => e

/-- The first half of an instruction that acts in two: its effect in each active thread, in rank order; it stands when
the second half parks or stops (R295, R296). -/
def runStage (stage : Nat → State → Except Stop State) : List Nat → State → Except (Nat × Stop) State
  | [], s => .ok s
  | i :: l, s =>
    match stage i s with
    | .error e => .error (i, e)
    | .ok s => runStage stage l s

/-- What an instruction that the threads `tids` execute reads in one of them: nothing where its guards are false, but for the
sources that it supplies to a collective (R222, R307). -/
def State.readsOf (s : State) (i : Instr) (tids : List Nat) (t : Thread) : List RegUse :=
  match i.hdr? with
  | none => regReads i
  | some h => if t.guards h then rankReads t i else if (s.activeTids h tids).isEmpty then [] else supplied t i

/-- Whether an instruction waits for a result that an engine has still to produce (R223). -/
def State.awaits (s : State) (i : Instr) (tids : List Nat) : Bool :=
  tids.any fun j => (s.thread? j).any fun t => t.pend.any fun p => t.due (s.readsOf i tids t) p && !p.known

/-- The results that are due before an instruction written, in each of its threads (R223). -/
def State.landDue (s : State) (i : Instr) (tids : List Nat) : State :=
  s.updThreads tids fun t => t.commitDue (s.readsOf i tids t)

/-- The addresses of global memory that an instruction looks up in a thread, each with the bytes that it reads there for which
its own operation takes no sector up (R82, R84, R443): those of command descriptors are read by the operation. -/
def lookedUp (t : Thread) : Instr → List (Dword × Nat)
  | .ld _ sz _ _ _ a off | .st _ sz _ _ a _ off => [(globalAddr t a off sz.bytes, 0)]
  | .ldl _ sz _ _ _ a off | .stl _ sz _ _ a _ off =>
    if t.section_.isSome then [] else [(t.tlsBase + (localOff t a off sz.bytes).setWidth 64, 0)]
  | .lda _ _ _ _ a b => if t.val b = 0 then [] else [(t.pair a, 0)]
  | .atom _ _ _ _ _ _ a _ | .red _ _ _ _ _ a _ => [(t.pair a, 0)]
  | .pref _ line a off | .cwb _ line a off | .cinv _ line a off => [(globalAddr t a off (if line then 1024 else 256), 0)]
  | .wait _ _ _ a _ off | .fset _ _ _ a _ off | .fsetFault _ _ _ a _ off | .fsetCancel _ _ _ a _ off =>
    [(globalAddr t a off 16, 16)]
  | .fnew _ _ a => [(t.pair a, 0)]
  | .join _ a | .leave _ a | .bar _ a => [(t.pair a, 16)]
  | .fsetBit _ a b | .waitBit _ a b => [(t.pair a + BitVec.ofNat 64 ((t.val b).toNat / 64 * 8), 8)]
  | .qpush _ _ a _ c => [(t.pair a, 64), (t.pair c, 0)]
  | .qpushRsv _ _ _ a _ | .qpop _ _ _ a _ | .qpopMin _ _ _ a => [(t.pair a, 64)]
  | .spawn _ _ _ a _ _ => [(t.pair a - 64, 64)]
  | .shipW _ _ _ _ a _ _ | .shipC _ _ _ _ a _ _ | .shipO _ _ a _ _ => [(t.pair a, 0)]
  | .rmaFlag _ _ a _ => [(t.pair a, 0)]
  | .call .. | .callx .. =>
    if t.section_.isNone && t.rstack.length == 8 then [(t.tlsBase + BitVec.ofNat 64 (t.tlsBytes + 8 * t.spilled), 0)] else []
  | .ret .. =>
    if t.section_.isNone && t.rstack.isEmpty && t.spilled != 0 then
      [(t.tlsBase + BitVec.ofNat 64 (t.tlsBytes + 8 * (t.spilled - 1)), 0)]
    else []
  | _ => []

/-- What the threads of an agent whose guards are true look up for their instruction: TLBs that miss, walks, and sectors taken
up by home slices are counted (R443, R452). -/
def State.lookUps (s : State) (i : Instr) (tids : List Nat) : State :=
  tids.foldl
    (fun s j =>
      match s.thread? j with
      | some t => if i.hdr?.all t.guards then (lookedUp t i).foldl (fun s p => s.readFill t.ctx p.1 p.2) s else s
      | none => s) s

/-- Whether the source read of an LDA that a thread has issued is still to be made (R108, R124). -/
def State.unread (s : State) (tid : Nat) : Bool := s.ldas.any fun l => l.tid == tid && l.got.isNone && l.failed.isNone

/-- Whether the thread still has to read, for an LDA, a byte of a range that it now reads or writes (R123). -/
def State.unreadAt (s : State) (t : Thread) (va : Dword) (n : Nat) : Bool :=
  s.ldas.any fun l => l.tid == t.tid && l.got.isNone && l.failed.isNone
    && decide (l.src.toNat < va.toNat + n) && decide (va.toNat < l.src.toNat + l.n)

/-- An access of a thread follows its earlier LDA that still has to read a byte in common with it (R123). -/
def State.readsDone (s : State) (t : Thread) (va : Dword) (n : Nat) : Except Stop Unit :=
  if s.unreadAt t va n then .error .stall else .ok ()

/-- Whether an order releases what came before. -/
def releases : Ord4 → Bool
  | .rel | .ar => true
  | .rlx | .acq => false

/-- The instructions before whose accesses, or whose issue, every earlier read of the thread stands (R123, R124, R126, R132,
R133, R136, R358): fences, group barriers, releases, commands of engines and units, shipped sections and CLK. -/
def ordersReads : Instr → Bool
  | .fence .. | .gbar .. | .gfence .. | .clk .. | .spawn .. | .fset .. | .fsetFault .. | .fsetCancel .. | .fsetBit .. | .bar ..
  | .shipW .. | .shipC .. | .shipO .. | .sret .. | .qpush .. | .qpushRsv .. | .rpush .. | .accZero .. | .accLd .. | .accRd ..
  | .mma .. | .mmas .. | .accDrain .. | .bcpy .. | .dscCfg .. | .dscRun .. | .dscGrad .. | .rfbStart .. | .rmaPut .. | .rmaGet ..
  | .rmaFlag .. => true
  | .st _ _ ord .. | .sts _ _ ord .. | .stl _ _ ord .. | .atom _ _ _ ord .. | .red _ _ _ ord .. | .atomScratchpad _ _ _ ord ..
  | .redScratchpad _ _ _ ord .. => releases ord
  | _ => false

/-- Whether an instruction waits, for a result (R223) or for an earlier read of its threads (R124). -/
def State.waits (s : State) (i : Instr) (tids : List Nat) : Bool :=
  s.awaits i tids || (ordersReads i && tids.any s.unread)

/-- THE COURSE OF AN INSTRUCTION for the executing agent (R235): results that must land first, steps 2 to 5 in every
thread, then the effect in the threads whose guards are true, then retirement. `stage` is the part of the effect that
stands when the instruction parks to be executed again, or stops (R47, R295, R296). -/
def runStaged (i : Instr) (s : State) (stage : Nat → State → Except Stop State) (body : Body) : Out :=
  match s.actorTids s.cur with
  | [] => .fault .noActor
  | first :: rest =>
    let a := s.cur
    let tids := first :: rest
    if s.waits i tids then .next s
    else
      let skid := s.skidOf a
      let s := s.landDue i tids
      match s.agentStop i tids with
      | some (j, e) => .next (s.stop a j (encodeWord i) e)
      | none =>
        let s := s.lookUps i tids
        let active := match i.hdr? with
          | some h => s.activeTids h tids
          | none => tids
        let fall := match s.thread? first with
          | some t => t.pc + 8
          | none => 0
        match runStage stage active s with
        | .error (j, e) => .next (s.stop a j (encodeWord i) e)
        | .ok s =>
          match runBodies body active s with
          | .error (j, e) => .next (s.stop a j (encodeWord i) e)
          | .ok (s1, ns) =>
            if ns.any (·.2.isRetry) then
              -- the fragment parks as one, and executes the instruction again (R47)
              .next (((s.applyWhere Next.isRetry ns).parkRest tids (tidsWhere Next.isRetry ns) false).parkCheck tids)
            else if ns.any (·.2.isAwait) then
              -- the fragment parks as one, and its threads go on together (R47)
              .next (((((s1.tallyIssue tids).applyWhere Next.isAwait ns).parkRest tids (tidsWhere Next.isAwait ns) true).issued skid
                tids).parkCheck tids)
            else
              let s1 := (ns.foldl (fun s p => s.applyNext p.1 p.2) (s1.tallyEnded s tids)).fallThrough tids active
              let s1 := match a with
                | .frag gid fid => s1.split gid fid fall
                | _ => s1
              let s2 := s1.issued skid tids
              .next (if ns.any (·.2 == .gone) then s2.parkCheck tids else s2)

/-- The course of an instruction whose effect is one. -/
def runThreads (i : Instr) (s : State) (body : Body) : Out := runStaged i s (fun _ s => .ok s) body

/-- The effect of an instruction on its thread's own registers and predicates. -/
def onThread (f : Thread → Except Stop Thread) : Body := fun i s =>
  match s.thread? i with
  | none => .ok (s, .gone)
  | some t =>
    match f t with
    | .error e => .error e
    | .ok t' => .ok (s.updThread i fun _ => t', .seq)

/-- The course of an instruction that works on registers and predicates alone. -/
def runReg (i : Instr) (s : State) (f : Thread → Except Stop Thread) : Out := runThreads i s (onThread f)

/-- The course of an instruction that reads its thread and changes the state. -/
def runState (i : Instr) (s : State) (f : Thread → State → Except Stop State) : Out :=
  runThreads i s fun j s =>
    match s.thread? j with
    | none => .ok (s, .gone)
    | some t =>
      match f t s with
      | .error e => .error e
      | .ok s' => .ok (s', .seq)

/-! ## Collectives (R46, R307, R317) -/

/-- What a collective sees: its group, the executing fragment, its ranks with their threads, and those whose guards are
true. -/
structure Coll where
  g : Group
  f : Frag
  ranks : List (Nat × Thread)
  active : List (Nat × Thread)
  deriving DecidableEq, Repr

/-- The ranks of a fragment with their threads. -/
def State.rankThreads (s : State) (g : Group) (m : BitVec 32) : List (Nat × Thread) :=
  (ranksOf m).filterMap fun r => ((g.members[r]?).bind s.thread?).map fun t => (r, t)

/-- THE COURSE OF AN INSTRUCTION THAT ACTS ONCE for its fragment: steps 1 to 5 of R235 in every thread; with no true guard
it does nothing (R307, R269). `free` is its effect for a free thread or a section; `f` says by its flag that it has set the
PCs itself. -/
def runOnce (i : Instr) (s : State) (free : State → Except Stop State)
    (f : Coll → State → Except Stop (State × Bool)) : Out :=
  match s.actorTids s.cur with
  | [] => .fault .noActor
  | first :: rest =>
    let a := s.cur
    let tids := first :: rest
    if s.waits i tids then .next s
    else
      let skid := s.skidOf a
      let s := s.landDue i tids
      match s.agentStop i tids with
      | some (j, e) => .next (s.stop a j (encodeWord i) e)
      | none =>
        let s := s.lookUps i tids
        let active := match i.hdr? with
          | some h => s.activeTids h tids
          | none => tids
        let done := fun (s : State) (placed : Bool) =>
          let s := s.tallyIssue tids
          let s := if placed then s else s.updThreads tids fun t => { t with pc := t.pc + 8 }
          -- MEET alone is placed: it may have parked the last fragment of an adopted task (R76)
          Host.Outcome.next (if placed then (s.issued skid tids).endAdoptions else s.issued skid tids)
        let acts := active.headD first
        if active.isEmpty then done s false
        else
          match a with
          | .frag gid fid =>
            match (s.group? gid).bind fun g => (g.frag? fid).map fun fr => (g, fr) with
            | none => .fault .noActor
            | some (g, fr) =>
              let ranks := s.rankThreads g fr.mask
              match f { g, f := fr, ranks, active := ranks.filter fun p => active.contains p.2.tid } s with
              | .error e => .next (s.stop a acts (encodeWord i) e)
              | .ok r => done r.1 r.2
          | _ =>
            match free s with
            | .error e => .next (s.stop a acts (encodeWord i) e)
            | .ok s => done s false

/-- THE COURSE OF A COLLECTIVE: a free thread raises ILLEGAL_FIELD (R40). -/
def runColl (i : Instr) (s : State) (f : Coll → State → Except Stop State) : Out :=
  runOnce i s (fun _ => .error (trapOf cIllegalField)) fun c s => (f c s).map fun s => (s, false)

/-- Wholeness of a group collective (R46). -/
def Coll.whole (c : Coll) : Except Stop Unit := require (c.g.whole c.f.mask) cDivergent

/-- Wholeness of a tile collective: the fragment is a union of whole tiles (R307). -/
def Coll.tiles (c : Coll) : Except Stop Unit :=
  require
    (c.g.exited = 0 && (ranksOf c.f.mask).all fun r =>
      (List.range c.g.tile).all fun l => c.f.mask.getLsbD (r / c.g.tile * c.g.tile + l)) cDivergent

/-- The threads of a list of ranks changed. -/
def State.updRanks (s : State) (l : List (Nat × Thread)) (f : Nat → Thread → Thread) : State :=
  l.foldl (fun s p => s.updThread p.2.tid (f p.1)) s

end Sys2Proof.Machine
end

