-- ==== Sys2Proof/Machine/Convert.lean ====
section
/-! DEFINITION. Conversions between formats, packing, block scales and format tags (R255 to R261). -/

namespace Sys2Proof.Machine

/-- The tag of a register, or of the low register of a pair, that holds a format (R147, R255). -/
def fmtTag : Fmt → Tag
  | .f64 => .f64lo | .f32 => .f32 | .bf16 => .bf16x2 | .f16 => .f16x2 | .e4m3 => .e4m3x4 | .e5m2 => .e5m2x4
  | .e3m2 | .e2m3 => .raw
  | .e2m1 => .e2m1x8 | .i8 => .i8x4 | .i32 => .i32
  | .bx2 | .bx3 | .bx4 | .bx5 | .bx6 | .bx7 | .bx8 => .bxp

/-- FLOAT_EXCEPTION when an enabled exception was raised (R154). -/
def floatCheck (t : Thread) (ex : FloatEx) : Except Stop Unit :=
  if ex &&& t.trapEn = 0 then .ok ()
  else .error (.trap { cause := cFloat, detail0 := (ex &&& t.trapEn).setWidth 64 })

/-- Container `i` of a packed register (R145, R255). -/
def elemBits (f : Fmt) (w i : Nat) : Nat := w / 2 ^ (f.container * i) % 2 ^ f.container

/-- The block scale code in bits [7:0] of a register (R255). -/
def scaleCode (c : Word) : Nat := c.toNat % 256

/-- A value converted to an element of a format under its block scale (R257, R258). -/
def toElem (tgt : Fmt) (rnd : Rnd) (sat scaled : Bool) (e : Nat) (x : Exact) : Nat × FloatEx :=
  if !scaled then convert tgt rnd sat false x
  else if x.isNan || x.isInf then (0, exInvalid)
  else if e = 0xFF then (0, exNone)
  else convert tgt rnd sat true (x.scale (127 - (e : Int)))

/-- The value that CVT reads: element 0 of its source, times its block scale (R257). -/
def cvtSource (src : Fmt) (t : Thread) (a c : GReg) : Exact :=
  let x := if src = .f64 then f64 (t.pair a) else src.dec (elemBits src (t.val a).toNat 0)
  if src.scaled then scaleBy (scaleCode (t.val c)) x else x

/-- The effect of CVT on a thread (R257). -/
def cvtThread (tgt src : Fmt) (rnd : Rnd) (sat : Bool) (d a c : GReg) (t : Thread) : Except Stop Thread := do
  if src = .f64 then t.typedF64 a 0 else t.typed a.toNat (fmtTag src) 0
  let r := toElem tgt rnd sat tgt.scaled (scaleCode (t.val c)) (cvtSource src t a c)
  floatCheck t r.2
  return if tgt = .f64 then t.putPair d (BitVec.ofNat 64 r.1) .f64lo .f64hi
    else t.put d (BitVec.ofNat 32 r.1) (fmtTag tgt)

/-- CVT (R257). -/
def execCvt (h : Hdr) (tgt src : Fmt) (rnd : Rnd) (sat : Bool) (d a c : GReg) (s : State) : Out :=
  runReg (.cvt h tgt src rnd sat d a c) s (cvtThread tgt src rnd sat d a c)

/-- Registers of F32 values that PACK reads and UNPACK writes (R258). -/
def packCount (f : Fmt) : Nat := if f = .bx2 then 8 else f.lanes

/-- Elements put into containers `first` on of a register that holds `w`. -/
def putElems (f : Fmt) : Nat → Nat → List Nat → Nat
  | _, w, [] => w
  | i, w, x :: l =>
    let lo := w % 2 ^ (f.container * i)
    let hi := w / 2 ^ (f.container * (i + 1))
    putElems f (i + 1) ((hi * 2 ^ f.container + x % 2 ^ f.container) * 2 ^ (f.container * i) + lo) l

/-- The first container of the half that BX2 names, 0 for the other formats (R258). -/
def firstElem (f : Fmt) (h1 : Bool) : Nat := if f = .bx2 ∧ h1 then 8 else 0

/-- The effect of PACK on a thread (R258). -/
def packThread (tgt : Fmt) (rnd : Rnd) (sat sc h1 : Bool) (d a c : GReg) (t : Thread) : Except Stop Thread := do
  t.typedSpan .f32 0 a.toNat (packCount tgt)
  let rs := (t.span a (packCount tgt)).map fun w => toElem tgt rnd sat (sc || tgt.scaled) (scaleCode (t.val c)) (f32 w)
  floatCheck t (rs.foldl (fun e r => e ||| r.2) exNone)
  let base := if tgt = .bx2 then (t.val d).toNat else 0
  return t.put d (BitVec.ofNat 32 (putElems tgt (firstElem tgt h1) base (rs.map (·.1)))) (fmtTag tgt)

/-- PACK (R258). -/
def execPack (h : Hdr) (tgt : Fmt) (rnd : Rnd) (sat sc h1 : Bool) (d a c : GReg) (s : State) : Out :=
  runReg (.pack h tgt rnd sat sc h1 d a c) s (packThread tgt rnd sat sc h1 d a c)

/-- The effect of UNPACK on a thread (R259). -/
def unpackThread (src : Fmt) (rnd : Rnd) (sat sc h1 : Bool) (d a c : GReg) (t : Thread) : Except Stop Thread := do
  t.typed a.toNat (fmtTag src) 0
  let rs := (List.range (packCount src)).map fun i =>
    let x := src.dec (elemBits src (t.val a).toNat (firstElem src h1 + i))
    convert .f32 rnd sat false (if sc || src.scaled then scaleBy (scaleCode (t.val c)) x else x)
  floatCheck t (rs.foldl (fun e r => e ||| r.2) exNone)
  return t.putSpan d.toNat (rs.map fun r => { val := BitVec.ofNat 32 r.1, tag := .f32 })

/-- UNPACK (R259). -/
def execUnpack (h : Hdr) (src : Fmt) (rnd : Rnd) (sat sc h1 : Bool) (d a c : GReg) (s : State) : Out :=
  runReg (.unpack h src rnd sat sc h1 d a c) s (unpackThread src rnd sat sc h1 d a c)

/-- The effect of QSCALE on a thread (R260). -/
def qscaleThread (tgt : Fmt) (d a : GReg) (t : Thread) : Except Stop Thread := do
  t.typed a.toNat .f32 0
  return t.put d (BitVec.ofNat 32 (blockScale tgt (f32 (t.val a)).abs)) .raw

/-- QSCALE (R260). -/
def execQscale (h : Hdr) (tgt : Fmt) (d a : GReg) (s : State) : Out :=
  runReg (.qscale h tgt d a) s (qscaleThread tgt d a)

/-- FMTSET (R261). -/
def execFmtset (h : Hdr) (tag : Tag) (d a : GReg) (s : State) : Out :=
  runReg (.fmtset h tag d a) s fun t => .ok (t.put d (t.val a) tag)

/-- FMTGET (R261). -/
def execFmtget (h : Hdr) (d a : GReg) (s : State) : Out :=
  runReg (.fmtget h d a) s fun t => .ok (t.put d ((t.tag a).code.setWidth 32) .i32)

end Sys2Proof.Machine
end

