-- ==== Sys2Proof/Machine/Access.lean ====
section
/-! DEFINITION. The accesses of a thread: global, thread-local and scratchpad, kick stores, and the values that a load puts
into registers and an atomic puts into memory (R83, R88, R103, R173, R231, R277, R402, R420). -/

namespace Sys2Proof.Machine

/-! ## Global memory -/

/-- The kinds of data breakpoint that an access meets (R355): none for the read of a spilled return address. -/
def bpKinds (acc : Acc) (tested : Bool) : List Nat := if !tested then [] else if acc = .read then [3] else [2, 3]

/-- The key of a thread's access of `n` bytes, after translation and the data breakpoints (R272, R355). An access waits for a
read of the same bytes that an earlier LDA of the thread has still to make (R123). -/
def State.dataKey (s : State) (t : Thread) (va : Dword) (n : Nat) (acc : Acc) (tested : Bool := true) : Except Stop Nat :=
  match s.key t.ctx va acc with
  | .error e => .error e
  | .ok key =>
    match s.bpHit t.ctx va n (bpKinds acc tested) with
    | some i => .error (bpStop va i)
    | none => if s.unreadAt t va n then .error .stall else .ok key

/-- The bytes at a key, unless they are poisoned (R432). -/
def State.readKey (s : State) (key n : Nat) (va : Dword) (acc : Acc := .read) : Except Stop (List Byte) :=
  if s.poisoned key n then .error (trapAt cUncorrectable va acc) else .ok (s.bytes key n)

/-- The data caches that serve a thread: those of its core, or of latency core n under the number 1,024 + n (R23, R84). -/
def Thread.l1? (t : Thread) : Option Nat :=
  match t.place with
  | .lc n => some (1024 + n)
  | p => p.coreIdx?

/-- The bytes that a load of a thread reads: its L1's, unless the hint bypasses it (R84, R87). -/
def State.threadBytes (s : State) (t : Thread) (key n ch : Nat) : List Byte :=
  match t.l1? with
  | some k => if ch = 3 then s.bytes key n else s.l1Bytes k key n
  | none => s.bytes key n

/-- A thread's load of `n` bytes. -/
def State.dataLoad (s : State) (t : Thread) (va : Dword) (n : Nat) (ch : Nat := 0) (tested : Bool := true) :
    Except Stop (List Byte) :=
  match s.dataKey t va n .read tested with
  | .error e => .error e
  | .ok key => if s.poisoned key n then .error (trapAt cUncorrectable va) else .ok (s.threadBytes t key n ch)

/-- A sector read by a core: it goes into the L1 and the L2, or with a bypass hint into the L2 alone, and the L1 drops it
(R84, R87). -/
def State.readSector (s : State) (k sector ch : Nat) : State :=
  if ch = 3 then ((s.l1Counted k sector).dieRead (cacheDie k) s.actingCtx sector (l2Keep ch)).l1Drop k (· == sector)
  else s.l1Fill k sector ch

/-- What a load leaves in the caches (R84, R87). -/
def State.loadFill (s : State) (t : Thread) (va : Dword) (ch : Nat) : State :=
  match t.l1?, s.key t.ctx va .read with
  | some k, .ok key => s.readSector k (key / 256) ch
  | _, _ => s

/-- What the read of a command's descriptor by a thread leaves in the caches: it does not go into the L1, and with a bypass
hint the L1 drops it (R84, R87, R226). -/
def State.threadFill (s : State) (t : Thread) (va : Dword) (n ch : Nat) : State :=
  let e := s.readFill t.ctx va n (l2Keep ch)
  match if ch = 3 then t.l1? else none, s.key t.ctx va .read with
  | some k, .ok key => e.l1Drop k (sectorsOf key n).contains
  | _, _ => e

/-- The kick register of a queue takes a value that steps forward (R402). -/
def State.kick (s : State) (q : Nat) (w : Word) : State :=
  let step := (w - (s.queue q).kickv).toNat
  if (s.queue q).enable ∧ 1 ≤ step ∧ step ≤ 2 ^ 31 - 1 then
    (s.updQueue q fun x => { x with kickv := w }).tallyIo 0 q 0x202 (some (s.queue q).ctx)
  else s

/-- Where a store of ST goes (R403, R420): a kick page takes stores of 4 or 8 bytes. The data breakpoints are tested after
the translation (R355), and a store waits for a read of the same bytes that an LDA of the thread has still to make (R123). -/
def State.storeTarget (s : State) (t : Thread) (va : Dword) (n : Nat) (kicks : Bool) : Except Stop Target :=
  let tested := fun (x : Target) =>
    match s.bpHit t.ctx va n [2, 3] with
    | some i => .error (bpStop va i)
    | none => if s.unreadAt t va n then .error .stall else .ok x
  match s.locate t.ctx va .write true with
  | .error e => .error e
  | .ok (.remote ..) => .error (trapAt cRemote va .write)
  | .ok (.kick off) => if kicks && (n == 4 || n == 8) then tested (.kick off) else .error (trapAt cAccess va .write)
  | .ok (.mem key) => tested (.mem key)

/-- Bytes stored by a thread: its own L1 keeps what it holds of them (R84), unless the hint bypasses it, and the home slices
take them up with the retention of the hint (R87). -/
def State.threadStore (s : State) (t : Thread) (key : Nat) (l : List Byte) (ch : Nat) : State :=
  match if ch = 3 then none else t.l1? with
  | some k => s.storeMem k t.ctx (l2Keep ch) key l
  | none => s.putMemAs (some t.ctx) (l2Keep ch) key l

/-- A thread's store of bytes. -/
def State.dataStore (s : State) (t : Thread) (va : Dword) (l : List Byte) (kicks : Bool) (ch : Nat := 0) : Except Stop State :=
  match s.storeTarget t va l.length kicks with
  | .error e => .error e
  | .ok (.mem key) => .ok (s.threadStore t key l ch)
  | .ok (.kick off) => .ok (s.kick (off / 8) (BitVec.ofNat 32 (leNat l)))
  | .ok (.remote ..) => .error (trapAt cRemote va .write)

/-! ## Thread-local memory (R103, R173) -/

/-- The key of a section's stack: 64 KiB of each context's memory for each latency core (R173). -/
def State.sectionStack (s : State) (ctx lc : Nat) : Nat := ((s.ctx? ctx).map (·.stackAt lc)).getD 0

/-- Bytes that LDL and STL reach. -/
def Thread.localBytes (t : Thread) : Nat := if t.section_.isSome then t.tlsBytes else t.tlsBytes + t.spillBytes

/-- The hint of a thread-local access: none in the spill area (R87). -/
def Thread.localHint (t : Thread) (off ch : Nat) : Nat := if off < t.tlsBytes then ch else 0

/-- Bytes of thread-local memory at an offset read. -/
def State.localLoad (s : State) (t : Thread) (off n : Nat) (ch : Nat := 0) (tested : Bool := true) : Except Stop (List Byte) :=
  match t.place with
  | .lc c => s.readKey (s.sectionStack t.ctx c + off) n (BitVec.ofNat 64 off)
  | _ => s.dataLoad t (t.tlsBase + BitVec.ofNat 64 off) n (t.localHint off ch) tested

/-- Bytes of thread-local memory at an offset written. -/
def State.localStore (s : State) (t : Thread) (off : Nat) (l : List Byte) (ch : Nat := 0) : Except Stop State :=
  match t.place with
  | .lc c => .ok (s.threadStore t (s.sectionStack t.ctx c + off) l (t.localHint off ch))
  | _ => s.dataStore t (t.tlsBase + BitVec.ofNat 64 off) l false (t.localHint off ch)

/-! ## The scratchpad (R88) -/

/-- What a load of thread-local memory leaves in the caches (R84, R87). -/
def State.localFill (s : State) (t : Thread) (off : Nat) (ch : Nat := 0) : State :=
  match t.place with
  | .lc c => s.readSector (1024 + c) ((s.sectionStack t.ctx c + off) / 256) (t.localHint off ch)
  | _ => s.loadFill t (t.tlsBase + BitVec.ofNat 64 off) (t.localHint off ch)

/-- The core and the allocation of a thread's task: core index, base and size. -/
def State.allocOf (s : State) (t : Thread) : Nat × Nat × Nat :=
  let a := ((s.task? t.task).bind (·.alloc)).getD (0, 0)
  (t.place.coreIdx?.getD 0, a.1, a.2)

/-- The key of a scratchpad range of a thread's task, inside its allocation. -/
def State.scratchKey (s : State) (t : Thread) (off n : Nat) (acc : Acc := .read) : Except Stop Nat :=
  let a := s.allocOf t
  if off + n ≤ a.2.2 then .ok (a.1 * 2 ^ 18 + a.2.1 + off) else .error (trapAt cScratch (BitVec.ofNat 64 off) acc)

/-- Bytes written to scratchpads. -/
def State.putScratch (s : State) (key : Nat) (l : List Byte) : State := { s with scratch := putBytes s.scratch key l }

/-! ## Values of accesses (R231) -/

/-- The tags of a load's span. -/
def sizeTags : MSize → List Tag
  | .f32 => [.f32] | .bf16x2 => [.bf16x2] | .f16x2 => [.f16x2] | .e4m3x4 => [.e4m3x4] | .e5m2x4 => [.e5m2x4]
  | .e2m1x8 => [.e2m1x8] | .i8x4 => [.i8x4] | .bxp => [.bxp] | .f64 => [.f64lo, .f64hi] | .i32 => [.i32]
  | .b8 | .b16 | .b32 => [.raw]
  | .b64 => [.raw, .raw]
  | .b128 => List.replicate 4 .raw
  | .b256 => List.replicate 8 .raw

/-- A number as registers of 32 bits with tags. -/
def regsOf (x : Nat) : List Tag → List Reg
  | [] => []
  | g :: l => { val := BitVec.ofNat 32 x, tag := g } :: regsOf (x / 2 ^ 32) l

/-- The number that the words of a span hold, low word first. -/
def spanNat : List Word → Nat
  | [] => 0
  | w :: l => w.toNat + 2 ^ 32 * spanNat l

/-- The bytes that a store of a size takes from its span. -/
def storeBytes (t : Thread) (b : GReg) (sz : MSize) : List Byte := natLe sz.bytes (spanNat (t.span b sz.span))

/-! ## Atomics (R277) -/

/-- The smaller or larger of two numbers of `w` bits. -/
def pickInt (w : Nat) (uns wantMax : Bool) (a b : Nat) : Nat :=
  let x := BitVec.ofNat w a
  let y := BitVec.ofNat w b
  let less := if uns then x.ult y else x.slt y
  if less != wantMax then a else b

/-- A float operation on each element of a size. -/
def perElem (sz : MSize) (op : FloatFmt → Nat → Nat → Nat) (a b : Nat) : Nat :=
  match sz with
  | .bf16x2 => op Fmt.bf16.float (a % 2 ^ 16) (b % 2 ^ 16) + 2 ^ 16 * op Fmt.bf16.float (a / 2 ^ 16) (b / 2 ^ 16)
  | .f16x2 => op Fmt.f16.float (a % 2 ^ 16) (b % 2 ^ 16) + 2 ^ 16 * op Fmt.f16.float (a / 2 ^ 16) (b / 2 ^ 16)
  | .f64 => op Fmt.f64.float a b
  | _ => op Fmt.f32.float a b

/-- The new value of an atomic: `old` and the operand, with the compare value of .CAS. -/
def atomNew (op : AtomOp) (sz : MSize) (old b cmp : Nat) : Nat :=
  let w := 8 * sz.bytes
  match op with
  | .swap => b
  | .cas => if old = cmp then b else old
  | .add => (old + b) % 2 ^ w
  | .min => pickInt w false false old b
  | .minu => pickInt w true false old b
  | .max => pickInt w false true old b
  | .maxu => pickInt w true true old b
  | .and => (BitVec.ofNat w old &&& BitVec.ofNat w b).toNat
  | .or => (BitVec.ofNat w old ||| BitVec.ofNat w b).toNat
  | .xor => (BitVec.ofNat w old ^^^ BitVec.ofNat w b).toNat
  | .fadd => perElem sz (fun f x y => (fAdd f .rn (f.decode x) (f.decode y)).1) old b
  | .fmin => perElem sz (fun f x y => (fMinMax f false x y).1) old b
  | .fmax => perElem sz (fun f x y => (fMinMax f true x y).1) old b

/-- The tags of ATOM's result. -/
def atomTags (op : AtomOp) (sz : MSize) : List Tag :=
  match op with
  | .swap | .cas | .and | .or | .xor => List.replicate sz.span .raw
  | .add | .min | .minu | .max | .maxu => List.replicate sz.span .i32
  | .fadd | .fmin | .fmax => sizeTags sz

/-- The operand and the compare value of an atomic. -/
def atomOperands (t : Thread) (op : AtomOp) (sz : MSize) (b : GReg) : Nat × Nat :=
  (spanNat (t.span b sz.span),
    if op = .cas then spanNat ((List.range sz.span).map fun i => (t.reg (b.toNat + sz.span + i)).val) else 0)

/-- The tag check of an atomic's operand: only the float operations are typed (R149, R277). -/
def atomTyped (t : Thread) (op : AtomOp) (sz : MSize) (b : GReg) : Except Stop Unit :=
  match op with
  | .fadd | .fmin | .fmax => if sz = .f64 then t.typedF64 b 1 else t.typed b.toNat ((sizeTags sz).headD .raw) 1
  | _ => .ok ()

end Sys2Proof.Machine
end

