-- ==== Sys2Proof/Machine/Control.lean ====
section
/-! DEFINITION. Control instructions: branches, calls and the return stack, EXIT, MSET, MEET and YIELD (R262 to R270). -/

namespace Sys2Proof.Machine

/-- NOP (R262). -/
def execNop (h : Hdr) (s : State) : Out := runReg (.nop h) s .ok

/-- A branch of a thread to a target that is checked first (R263). -/
def branchTo (s : State) (target : Dword) : Except Stop (State × Next) :=
  match branchOk target with
  | .error e => .error e
  | .ok _ => .ok (s, .jump target)

/-- The course of an instruction that reads its thread, changes the state and says what comes next. -/
def runFlow (i : Instr) (s : State) (f : Thread → State → Except Stop (State × Next)) : Out :=
  runThreads i s fun j s =>
    match s.thread? j with
    | none => .ok (s, .gone)
    | some t => f t s

/-- BRA (R263). -/
def execBra (h : Hdr) (imm : BitVec 24) (s : State) : Out :=
  runFlow (.bra h imm) s fun t s => branchTo s (relTarget t.pc imm)

/-- BRX (R263). -/
def execBrx (h : Hdr) (a : GReg) (s : State) : Out :=
  runFlow (.brx h a) s fun t s => branchTo s (t.pair a)

/-- STACK_OVERFLOW with its detail (R267). -/
def stackStop (detail : Nat) : Stop := .trap { cause := cStack, detail0 := BitVec.ofNat 64 detail }

/-- Offset of entry `i` of the spill area: it follows the thread-local bytes (R265, R173). -/
def Thread.spillOff (t : Thread) (i : Nat) : Nat := t.tlsBytes + 8 * i

/-- The address of entry `i` of the spill area, or its offset in the stack of a section: it must be aligned (R83, R265). -/
def Thread.spillAddr (t : Thread) (i : Nat) : Dword :=
  if t.section_.isSome then BitVec.ofNat 64 (t.spillOff i) else t.tlsBase + BitVec.ofNat 64 (t.spillOff i)

/-- A push on the return stack (R265). -/
def State.pushReturn (s : State) (t : Thread) (ret : Dword) : Except Stop State :=
  if t.rstack.length < 8 then .ok (s.updThread t.tid fun t => { t with rstack := ret :: t.rstack })
  else if t.spilled = t.spillBytes / 8 then .error (stackStop 0)
  else if (t.spillAddr t.spilled).toNat % 8 ≠ 0 then .error (trapAt cMisaligned (t.spillAddr t.spilled) .write)
  else
    match s.localStore t (t.spillOff t.spilled) (natLe 8 (t.rstack.getLastD 0).toNat) with
    | .error e => .error e
    | .ok s => .ok (s.updThread t.tid fun t => { t with rstack := ret :: t.rstack.dropLast, spilled := t.spilled + 1 })

/-- A call to a target that is checked first (R264). -/
def callTo (t : Thread) (s : State) (target : Dword) : Except Stop (State × Next) := do
  branchOk target
  let s ← s.pushReturn t (t.pc + 8)
  return (s, .jump target)

/-- CALL (R264). -/
def execCall (h : Hdr) (imm : BitVec 24) (s : State) : Out :=
  runFlow (.call h imm) s fun t s => callTo t s (relTarget t.pc imm)

/-- CALLX (R264). -/
def execCallx (h : Hdr) (a : GReg) (s : State) : Out :=
  runFlow (.callx h a) s fun t s => callTo t s (t.pair a)

/-- The entry that RET pops, and its thread without it (R266). Its read of the spill area meets no breakpoint: R355 names
only the store of a spill. -/
def State.popReturn (s : State) (t : Thread) : Except Stop (Dword × Thread) :=
  match t.rstack with
  | x :: rest => .ok (x, { t with rstack := rest })
  | [] =>
    if t.spilled = 0 then .error (stackStop 1)
    else if (t.spillAddr (t.spilled - 1)).toNat % 8 ≠ 0 then .error (trapAt cMisaligned (t.spillAddr (t.spilled - 1)))
    else
      match s.localLoad t (t.spillOff (t.spilled - 1)) 8 0 false with
      | .error e => .error e
      | .ok l => .ok (BitVec.ofNat 64 (leNat l), { t with spilled := t.spilled - 1 })

/-- RET (R266). -/
def execRet (h : Hdr) (s : State) : Out :=
  runFlow (.ret h) s fun t s => do
    let p ← s.popReturn t
    branchOk p.1
    let s := if t.rstack.isEmpty then s.localFill t (t.spillOff (t.spilled - 1)) else s
    return (s.updThread t.tid fun _ => p.2, .jump p.1)

/-- The oldest of a list of copies by issue order. -/
def oldestCopy : List LdaCopy → Option LdaCopy
  | [] => none
  | c :: l =>
    match oldestCopy l with
    | none => some c
    | some d => if c.seq ≤ d.seq then some c else some d

/-- The trap of a failed copy (R108, R350): source address in FADDR and DETAIL0, tag and bit 63 in DETAIL1. It reports that
copy, and none of the other failures `l` that stand beside it is reported later. -/
def copyStop (c : LdaCopy) (l : List LdaCopy) : Stop :=
  .trap { cause := c.failed.getD 0, faddr := c.src, detail0 := c.src, detail1 := BitVec.ofNat 64 (2 ^ 63 + c.tag)
          malformed := c.malformed, reports := l.map (·.id) }

/-- What EXIT waits for and checks first (R268 step 1): pending results and copies, then unreported failures. -/
def State.exitFirst (s : State) (t : Thread) : Except Stop Bool :=
  let mine := s.ldas.filter (·.tid == t.tid)
  if t.pend.any (!·.known) || mine.any (·.failed.isNone) then .ok false
  else
    match oldestCopy mine with
    | some c => .error (copyStop c mine)
    | none => .ok true

/-- EXIT (R268). -/
def execExit (h : Hdr) (s : State) : Out :=
  runFlow (.exit h) s fun t s => do
    let done ← s.exitFirst t
    return if done then (s.exitThread t.commitAll, .gone) else (s, .retry .copies)

/-- MSET for a fragment (R44). -/
def Coll.mset (c : Coll) (s : State) (pc : Dword) : Except Stop State :=
  if Config.mergeEntries ≤ c.g.merge.length then .error (stackStop 2)
  else .ok (s.updGroup c.g.gid fun g => { g with merge := g.merge ++ [{ pc, mask := c.f.mask }] })

/-- The PC of a fragment. -/
def Coll.pc (c : Coll) : Dword := (c.ranks.head?.map (·.2.pc)).getD 0

/-- MSET (R269). -/
def execMset (h : Hdr) (imm : BitVec 24) (s : State) : Out :=
  runOnce (.mset h imm) s .ok fun c s => (c.mset s (relTarget c.pc imm)).map fun s => (s, false)

/-- The index from the bottom of the topmost merge-stack entry for a PC (R45). -/
def mergeAt (l : List Merge) (pc : Dword) : Option Nat :=
  ((l.zipIdx).filter fun p => p.1.pc == pc).getLast?.map (·.2)

/-- The arrival of a fragment at entry `k`: its ranks leave the entries above (R45 step 2). -/
def Group.arrive (g : Group) (f : Frag) (k : Nat) : Group :=
  { g with
    merge := g.merge.zipIdx.map fun p =>
      if p.2 = k then { p.1 with arrived := p.1.arrived ||| f.mask }
      else if k < p.2 then { p.1 with mask := p.1.mask &&& ~~~f.mask }
      else p.1
    frags := g.frags.map fun x => if x.id = f.id then { x with state := .atMeet } else x }

/-- MEET for a fragment (R45): it parks at the topmost entry that names its address, and every complete entry is popped; a
NOP where none does. -/
def Coll.meet (c : Coll) (s : State) : State × Bool :=
  match mergeAt c.g.merge c.pc with
  | none => (s, false)
  | some k =>
    (((s.updGroup c.g.gid fun g => g.arrive c.f k).updThreads (c.g.threadsOf c.f.mask) fun t =>
      { t with status := .parked .meet }).settle c.g.gid, true)

/-- MEET (R269). -/
def execMeet (h : Hdr) (s : State) : Out :=
  runOnce (.meet h) s .ok fun c s => .ok (c.meet s)

/-- YIELD (R34, R270): the thread becomes the youngest, as every issue makes it. -/
def execYield (h : Hdr) (s : State) : Out := runReg (.yield h) s .ok

end Sys2Proof.Machine
end

