-- ==== Sys2Proof/Machine/Memory.lean ====
section
/-! DEFINITION. Loads, stores, asynchronous copies, atomics, fences and cache control (R271 to R280). -/

namespace Sys2Proof.Machine

/-! ## Loads and stores (R273, R274) -/

/-- A load: the bytes that `read` gives go to the span of `d` with the tags of the size (R231), and the caches take up what
they were read from. -/
def runLoad (i : Instr) (s : State) (h : Hdr) (sz : MSize) (d : GReg) (fill : Thread → State → State)
    (read : Thread → State → Except Stop (List Byte)) : Out :=
  runState i s fun t s =>
    match read t s with
    | .error e => .error e
    | .ok l => .ok ((fill t s).updThread t.tid fun t => t.putLong h.la d.toNat (regsOf (leNat l) (sizeTags sz)))

/-- LD (R273). -/
def execLd (h : Hdr) (sz : MSize) (ord : Ord4) (scope : Scope) (d a : GReg) (off : BitVec 8) (s : State) : Out :=
  runLoad (.ld h sz ord scope d a off) s h sz d (fun t s => s.loadFill t (globalAddr t a off sz.bytes) h.ch.toNat) fun t s => do
    let va := globalAddr t a off sz.bytes
    aligned va sz.bytes
    s.dataLoad t va sz.bytes h.ch.toNat

/-- ST (R273, R403). -/
def execSt (h : Hdr) (sz : MSize) (ord : Ord4) (scope : Scope) (a b : GReg) (off : BitVec 8) (s : State) : Out :=
  runState (.st h sz ord scope a b off) s fun t s => do
    let va := globalAddr t a off sz.bytes
    aligned va sz.bytes .write
    s.dataStore t va (storeBytes t b sz) true h.ch.toNat

/-- A word as an address in a trap. -/
def offAddr (off : Word) : Dword := off.setWidth 64

/-- LDS (R273). -/
def execLds (h : Hdr) (sz : MSize) (ord : Ord4) (scope : Scope) (d a : GReg) (off : BitVec 8) (s : State) : Out :=
  runLoad (.lds h sz ord scope d a off) s h sz d (fun _ s => s) fun t s => do
    let o := localOff t a off sz.bytes
    aligned (offAddr o) sz.bytes
    let key ← s.scratchKey t o.toNat sz.bytes
    return takeBytes s.scratch key sz.bytes

/-- STS (R273). -/
def execSts (h : Hdr) (sz : MSize) (ord : Ord4) (scope : Scope) (a b : GReg) (off : BitVec 8) (s : State) : Out :=
  runState (.sts h sz ord scope a b off) s fun t s => do
    let o := localOff t a off sz.bytes
    aligned (offAddr o) sz.bytes .write
    let key ← s.scratchKey t o.toNat sz.bytes .write
    return s.putScratch key (storeBytes t b sz)

/-- The range check of a thread-local offset (R103, R173). -/
def localRange (t : Thread) (o : Word) (n : Nat) (acc : Acc := .read) : Except Stop Unit :=
  if o.toNat + n ≤ t.localBytes then .ok () else .error (trapAt cAccess (offAddr o) acc)

/-- LDL (R273). -/
def execLdl (h : Hdr) (sz : MSize) (ord : Ord4) (scope : Scope) (d a : GReg) (off : BitVec 8) (s : State) : Out :=
  runLoad (.ldl h sz ord scope d a off) s h sz d (fun t s => s.localFill t (localOff t a off sz.bytes).toNat h.ch.toNat)
    fun t s => do
    let o := localOff t a off sz.bytes
    aligned (offAddr o) sz.bytes
    localRange t o sz.bytes
    s.localLoad t o.toNat sz.bytes h.ch.toNat

/-- STL (R273). -/
def execStl (h : Hdr) (sz : MSize) (ord : Ord4) (scope : Scope) (a b : GReg) (off : BitVec 8) (s : State) : Out :=
  runState (.stl h sz ord scope a b off) s fun t s => do
    let o := localOff t a off sz.bytes
    aligned (offAddr o) sz.bytes .write
    localRange t o sz.bytes .write
    s.localStore t o.toNat (storeBytes t b sz) h.ch.toNat

/-! ## Asynchronous copies (R106 to R109, R275, R276) -/

/-- The outstanding copies of a thread's tag. -/
def State.tagCount (s : State) (tid tag : Nat) : Nat :=
  (s.ldas.filter fun l => l.tid == tid && l.tag == tag && l.failed.isNone).length

/-- The source access of a copy. -/
def State.copySource (s : State) (c : LdaCopy) : Except Stop (List Byte) :=
  if c.n = 0 then .ok []
  else
    match s.key c.ctx c.src .read with
    | .error e => .error e
    | .ok key => s.readKey key c.n c.src

/-- What the source read of a copy leaves in the caches: its sectors in the home slices with the retention of its hint, and with
a bypass hint no longer in the L1 of its core (R87, R226). -/
def State.copyFill (s : State) (k : Option Nat) (c : LdaCopy) : State :=
  match s.key c.ctx c.src .read with
  | .ok key =>
    match k with
    | some k =>
      let s := (sectorsOf key c.n).foldl (fun s x => s.dieRead (cacheDie k) (some c.ctx) x (l2Keep c.ch)) s
      if c.ch = 3 then s.l1Drop k (sectorsOf key c.n).contains else s
    | none => s.l2Read (some c.ctx) key c.n (l2Keep c.ch)
  | .error _ => s

/-- A copy issued: its source is read now, as a relaxed read of its thread (R124), where it can be read; a source that cannot
be read leaves the failure, or the page fault, to the copy's landing (R108). -/
def State.issueCopy (s : State) (k : Option Nat) (c : LdaCopy) : State :=
  match s.copySource c with
  | .ok l =>
    let s := s.copyFill k c
    { s with ldas := s.ldas ++ [{ c with got := some l }] }
  | .error _ => { s with ldas := s.ldas ++ [{ c with got := none }] }

/-- What LDA checks before it issues (R106, R275): the key of its destination, its source and the bytes that it reads. A data
breakpoint on those bytes traps it (R355). A full counter keeps it from issuing, as an earlier LDA of the thread does that still
has to read one of them (R123). -/
def State.ldaSource (s : State) (t : Thread) (sz : MSize) (tag : BitVec 3) (d a b : GReg) :
    Except Stop (Nat × Dword × Nat) := do
  let n := sz.bytes
  let off := t.val d
  let src := t.pair a
  aligned (offAddr off) n
  aligned src n
  let key ← s.scratchKey t off.toNat n
  if t.val b != 0 then canon src
  let m := min (t.val b).toNat n
  match if m = 0 then none else s.bpHit t.ctx src m [3] with
  | some i => throw (bpStop src i)
  | none => pure ()
  s.readsDone t src m
  if 63 ≤ s.tagCount t.tid tag.toNat then throw .stall
  return (key, src, m)

/-- LDA (R106, R275). -/
def execLda (h : Hdr) (sz : MSize) (tag : BitVec 3) (d a b : GReg) (s : State) : Out :=
  runState (.lda h sz tag d a b) s fun t s => do
    let x ← s.ldaSource t sz tag d a b
    let id := s.freshId
    let s := match t.place.coreIdx? with
      | some k => id.2.tallyCore k 0x031 1
      | none => id.2
    return { s with tick := s.tick + 1 }.issueCopy t.l1?
      { id := id.1, seq := s.tick, tid := t.tid, ctx := t.ctx, tag := tag.toNat, dst := x.1, size := sz.bytes, src := x.2.1
        n := x.2.2, ch := h.ch.toNat }

/-- Free bytes: what a failed copy leaves in its destination (R108). -/
def State.freshBytes (s : State) : Nat → List Byte × State
  | 0 => ([], s)
  | n + 1 =>
    let r := s.freshBits
    let l := r.2.freshBytes n
    (r.1.setWidth 8 :: l.1, l.2)

/-- What a copy writes: its bytes and zeros above them (R106). -/
def LdaCopy.image (c : LdaCopy) (l : List Byte) : List Byte := l ++ List.replicate (c.size - l.length) 0

/-- One 8-byte part of a copy's destination written (R119). -/
def State.putPart (s : State) (c : LdaCopy) (l : List Byte) (p : Nat) : State :=
  s.putScratch (c.dst + 8 * p) (((c.image l).drop (8 * p)).take 8)

/-- A copy lands: the parts that have not landed before it are written (R106, R119). -/
def State.landCopy (s : State) (c : LdaCopy) (l : List Byte) : State :=
  let s := if c.parts = [] then s.putScratch c.dst (c.image l)
    else ((List.range ((c.size + 7) / 8)).filter fun p => !c.parts.contains p).foldl (fun s p => s.putPart c l p) s
  let s : State := { s with ldas := s.ldas.filter (·.id != c.id) }
  (s.sweepAllocs (c.dst / 2 ^ 18)).endAdoptions

/-- A copy fails: its destination bytes are unspecified, and it is off the counter until WTAG or EXIT reports it (R108). -/
def State.failCopy (s : State) (c : LdaCopy) (cause : BitVec 8) (malformed : Bool := false) : State :=
  let r := s.freshBytes c.size
  let s := r.2.putScratch c.dst r.1
  let s : State := { s with ldas := s.ldas.map fun x =>
    (if x.id = c.id then { x with failed := some cause, malformed, fid := none } else x) }
  (s.sweepAllocs (c.dst / 2 ^ 18)).endAdoptions

/-- One part of a copy that has read its source lands before the rest (R119, R378). -/
def State.landPart (s : State) (id p : Nat) : State :=
  match s.ldas.find? fun l => l.id == id && l.failed.isNone with
  | none => s
  | some c =>
    match c.got with
    | some l =>
      if 8 * p < c.size ∧ !c.parts.contains p then
        let s := s.putPart c l p
        { s with ldas := s.ldas.map fun x => if x.id = id then { x with parts := x.parts ++ [p] } else x }
      else s
    | none => s

/-- The bytes that a copy lands: those read at its issue, or read now. -/
def State.copyBytes (s : State) (c : LdaCopy) : Except Stop (List Byte) :=
  match c.got with
  | some l => .ok l
  | none => s.copySource c

/-- What the source read of a copy that could not be made at its issue leaves in the caches, when it is made (R87, R226). -/
def State.readLate (s : State) (c : LdaCopy) : State :=
  if c.got.isSome ∨ c.n = 0 then s else s.copyFill ((s.thread? c.tid).bind Thread.l1?) c

/-- A late read looks its address up. -/
def State.lookLate (s : State) (c : LdaCopy) : State := if c.got.isSome ∨ c.n = 0 then s else s.lookUp c.ctx c.src

/-- LDA_LAND: the copy lands, fails, or waits for a page fault with a fault record (R106, R108). -/
def execLdaLand (id : Nat) (s : State) : Out :=
  match s.ldas.find? fun l => l.id == id && l.failed.isNone with
  | none => .next s
  | some c =>
    let s := s.lookLate c
    match s.copyBytes c with
    | .ok l => .next ((s.readLate c).landCopy c l)
    | .error (.page va acc) =>
      let rec' : FaultRec := ((s.thread? c.tid).map (agentRec s)).getD { time := 0 }
      let r := s.openFault c.ctx va acc { rec' with agent := 1 }
      .next { r.2 with ldas := r.2.ldas.map fun x => if x.id = id then { x with fid := some r.1 } else x }
    | .error (.trap t) => .next (s.failCopy c t.cause t.malformed)
    | .error .stall => .next s

/-- WTAG (R107, R276): it parks above its limit, and then reports the first failed copy of the tag (R108). -/
def State.wtag (s : State) (t : Thread) (tag m : Nat) : Except Stop (State × Next) :=
  if m < s.tagCount t.tid tag then .ok (s, .retry (.tag tag m))
  else
    let failed := s.ldas.filter fun l => l.tid == t.tid && l.tag == tag && l.failed.isSome
    match oldestCopy failed with
    | some c => .error (copyStop c failed)
    | none => .ok (s, .seq)

/-- WTAG. -/
def execWtag (h : Hdr) (t : BitVec 3) (m : BitVec 6) (s : State) : Out :=
  runFlow (.wtag h t m) s fun th s => s.wtag th t.toNat m.toNat

/-! ## Atomics (R277, R278) -/

/-- The update of memory by an atomic at an address: the old value, and the state. The home slice takes the sector up with the
retention of the hint (R87, R226); no L1 keeps it (R84). -/
def State.atomGlobal (s : State) (t : Thread) (op : AtomOp) (sz : MSize) (a b : GReg) (ch : Nat := 0) :
    Except Stop (Nat × State) := do
  atomTyped t op sz b
  let va := t.pair a
  aligned va sz.bytes .rmw
  let key ← s.dataKey t va sz.bytes .rmw
  let l ← s.readKey key sz.bytes va .rmw
  let x := atomOperands t op sz b
  return (leNat l, s.putMemAs (some t.ctx) (l2Keep ch) key (natLe sz.bytes (atomNew op sz (leNat l) x.1 x.2)))

/-- The update of the scratchpad by an atomic at an offset (R92). -/
def State.atomScratch (s : State) (t : Thread) (op : AtomOp) (sz : MSize) (a b : GReg) : Except Stop (Nat × State) := do
  atomTyped t op sz b
  let off := t.val a
  aligned (offAddr off) sz.bytes .rmw
  let key ← s.scratchKey t off.toNat sz.bytes .rmw
  let old := leNat (takeBytes s.scratch key sz.bytes)
  let x := atomOperands t op sz b
  return (old, s.putScratch key (natLe sz.bytes (atomNew op sz old x.1 x.2)))

/-- ATOM's result in the span of `d` (R277). -/
def State.atomResult (s : State) (t : Thread) (h : Hdr) (op : AtomOp) (sz : MSize) (d : GReg) (old : Nat) : State :=
  s.updThread t.tid fun t => t.putLong h.la d.toNat (regsOf old (atomTags op sz))

/-- ATOM, global. -/
def execAtom (h : Hdr) (op : AtomOp) (sz : MSize) (ord : Ord4) (scope : Scope) (d a b : GReg) (s : State) : Out :=
  runState (.atom h op sz ord scope d a b) s fun t s => do
    let r ← s.atomGlobal t op sz a b h.ch.toNat
    return r.2.atomResult t h op sz d r.1

/-- RED, global. -/
def execRed (h : Hdr) (op : AtomOp) (sz : MSize) (ord : Ord4) (scope : Scope) (a b : GReg) (s : State) : Out :=
  runState (.red h op sz ord scope a b) s fun t s => do
    let r ← s.atomGlobal t op sz a b h.ch.toNat
    return r.2

/-- ATOM, scratchpad. -/
def execAtomScratchpad (h : Hdr) (op : AtomOp) (sz : MSize) (ord : Ord4) (scope : Scope) (d a b : GReg) (s : State) :
    Out :=
  runState (.atomScratchpad h op sz ord scope d a b) s fun t s => do
    let r ← s.atomScratch t op sz a b
    return r.2.atomResult t h op sz d r.1

/-- RED, scratchpad. -/
def execRedScratchpad (h : Hdr) (op : AtomOp) (sz : MSize) (ord : Ord4) (scope : Scope) (a b : GReg) (s : State) : Out :=
  runState (.redScratchpad h op sz ord scope a b) s fun t s => do
    let r ← s.atomScratch t op sz a b
    return r.2

/-! ## Fences and cache control (R279, R280) -/

/-- FENCE (R279): it waits for the source reads of its thread's LDAs (R124); every other access of the model is performed
when it is made (DESIGN CHOICE, log 8). -/
def execFence (h : Hdr) (ord : Ord4) (scope : Scope) (s : State) : Out := runReg (.fence h ord scope) s .ok

/-- The extent of a cache operation: its address rounded down, and its bytes (R280). -/
def extentOf (t : Thread) (a : GReg) (off : BitVec 8) (line : Bool) : Dword × Nat :=
  let n := if line then 1024 else 256
  let va := globalAddr t a off n
  (BitVec.ofNat 64 (va.toNat / n * n), n)

/-- The dirty sectors of HBM among those of a list, by the context whose ID they carry. -/
def State.dirtyOf (s : State) (sectors : List Nat) : List HomeSector :=
  s.home.filter fun x => sectors.contains x.sector && s.dirty.contains x.sector && inHbm x.sector

/-- Sectors that the home slices no longer hold dirty (R85): what they write back replaces bytes written past the L2, and counts
to the contexts whose IDs the lines carry (R443). -/
def State.writeBack (s : State) (sectors : List Nat) : State :=
  let l := s.dirtyOf sectors
  { s with
    counts := l.foldl (fun u x => hbmCounts u x.owner 0 1) s.counts
    windowCounts := l.foldl (fun u x => hbmCounts u x.owner 0 1) s.windowCounts
    dieCounters := l.foldl (fun m x => bumpDie (homeDie x.sector) 0x115 256 x.owner m) s.dieCounters
    dirty := s.dirty.filter fun x => !sectors.contains x
    shadow := s.shadow.filter fun p => !(sectors.contains (p.1 / 256) && s.dirty.contains (p.1 / 256)) }

/-- What a home slice drops is read from memory again: bytes written past the L2 become visible (R396). -/
def State.dropSectors (s : State) (sectors : List Nat) : State :=
  let mine := s.shadow.filter fun p => sectors.contains (p.1 / 256)
  let s := mine.foldl (fun s p => s.setBehind p.1 p.2) s
  { s with
    shadow := s.shadow.filter fun p => !sectors.contains (p.1 / 256)
    home := s.home.filter fun x => !sectors.contains x.sector
    -- the home slice no longer tracks the clean copies of other slices: they go as well
    l2 := s.l2.filter fun x => !sectors.contains x.sector }

/-- The sectors of a cache operation, none where its address makes it a NOP (R280). -/
def State.extentSectors (s : State) (t : Thread) (a : GReg) (off : BitVec 8) (line : Bool) : List Nat :=
  let x := extentOf t a off line
  match s.key t.ctx x.1 .read with
  | .ok key => sectorsOf key x.2
  | .error _ => []

/-- PREF (R280): the extent goes into the L2 and the L1 of the core, with the retention of its hint, and with a bypass hint into
the L2 alone (R87); no value that any access returns changes. -/
def execPref (h : Hdr) (line : Bool) (a : GReg) (off : BitVec 8) (s : State) : Out :=
  runState (.pref h line a off) s fun t s =>
    .ok (match t.l1? with
      | some k => (s.extentSectors t a off line).foldl (fun s x => s.readSector k x h.ch.toNat) s
      | none => s)

/-- CWB (R280). -/
def execCwb (h : Hdr) (line : Bool) (a : GReg) (off : BitVec 8) (s : State) : Out :=
  runState (.cwb h line a off) s fun t s => .ok (s.writeBack (s.extentSectors t a off line))

/-- Sectors that the L1 of a thread's core holds no longer. -/
def State.threadDrop (s : State) (t : Thread) (l : List Nat) : State :=
  match t.l1? with
  | some k => s.l1Drop k l.contains
  | none => s

/-- CINV (R280): the extent is written back, and dropped from the home slice, from the clean copies and from the L1 of the
core; the L1s of other cores keep what they hold. -/
def execCinv (h : Hdr) (line : Bool) (a : GReg) (off : BitVec 8) (s : State) : Out :=
  runState (.cinv h line a off) s fun t s =>
    let l := s.extentSectors t a off line
    .ok (((s.threadDrop t l).writeBack l).dropSectors l)

end Sys2Proof.Machine
end

