-- ==== Sys2Proof/Machine/Tasks.lean ====
section
/-! DEFINITION. Tasks, futures, membership groups, shipped sections and queue objects (R51 to R55, R281 to R297). -/

namespace Sys2Proof.Machine

/-! ## SPAWN (R57, R281) -/

/-- Word 2 of the future at a key. -/
def State.putOwner (s : State) (key : Nat) (h : Word) : State := s.putMem (key + 8) (natLe 4 h.toNat)

/-- SPAWN in one thread: the record is placed and its predicate set, or nothing is written and it is cleared. -/
def State.spawn (s : State) (t : Thread) (nf : Bool) (pd : PReg) (a b c : GReg) : Except Stop State := do
  let entry := t.pair a
  let fut := if nf then 0 else t.pair c
  aligned entry 8
  aligned fut 16
  canon entry
  canon fut
  let hdr ← s.readHdr t.ctx entry
  match hdr with
  | none => throw (trapOf cIllegalField)
  | some h =>
    if h.gang then throw (trapOf cIllegalField)
    let key ← if nf then pure 0 else s.key t.ctx fut .write
    let num := s.freshRecord t.ctx
    let r : QRec :=
      { num := num.1, ctx := t.ctx, prio := t.prio, entry, args := t.span b 4, fut, hdr := h
        owned := if nf then [] else [fut] }
    let listed := if nf then num.2 else num.2.dropOwned t.ctx fut key
    match listed.placeSpawn (t.place.coreIdx?.getD 0) r with
    | some (s, p) =>
      let s := if nf then s else s.putOwner key (p.handle num.1)
      return s.updThread t.tid fun t => t.setPred pd true
    | none =>
      let s := match t.place.coreIdx? with
        | some k => s.tallyCore k 0x043 1
        | none => s
      return s.updThread t.tid fun t => t.setPred pd false

/-- SPAWN (R281). -/
def execSpawn (h : Hdr) (nf : Bool) (pd : PReg) (a b c : GReg) (s : State) : Out :=
  runState (.spawn h nf pd a b c) s fun t s => s.spawn t nf pd a b c

/-! ## WAIT (R68, R282, R283) -/

/-- The status and the value of the future at an address for a thread that waits on it: none while it must park. -/
def State.waitOn (s : State) (t : Thread) (va : Dword) : Except Stop (Option (Nat × Word × Word)) := do
  if t.ownerFaulted then return some (3, 0, 0)
  s.readsDone t va 16
  let key ← s.key t.ctx va .read
  let l ← s.readKey key 16 va
  let x := leNat l
  let st := x / 2 ^ 96 % 4
  if st ≠ 0 then return some (st - 1, BitVec.ofNat 32 x, BitVec.ofNat 32 (x / 2 ^ 32))
  return if t.timedOut then some (4, 0, 0) else none

/-- A thread whose WAIT has ended. -/
def Thread.waitEnds (t : Thread) : Thread := { t with waitStart := none, timedOut := false, ownerFaulted := false }

/-- The time at which a WAIT with a timeout of `us` microseconds gives up (R68, R69). -/
def waitLimit (s : State) (t : Thread) (us : Nat) : Option Nat :=
  if us = 0 then none else some (t.waitStart.getD s.elapsed + 1000 * us)

/-- WAIT's evaluation in one thread. -/
def State.wait (s : State) (t : Thread) (d : GReg) (va : Dword) (us : Nat) : Except Stop (State × Next) := do
  aligned va 16
  match ← s.waitOn t va with
  | none =>
    -- an adoption saves the thread, and waits for every pending result first (R225)
    if t.pend.any (!·.known) then throw .stall
    return (s, .retry (.future va (waitLimit s t us)))
  | some (st, lo, hi) =>
    if st = 1 ∧ lo.toNat % 256 = 0x12 then
      throw (.trap { cause := cRefine, detail0 := BitVec.ofNat 64 (lo.toNat / 256 % 256) })
    return (s.updThread t.tid fun t =>
        (t.putSpan d.toNat [{ val := lo }, { val := hi }, { val := BitVec.ofNat 32 st, tag := .i32 }, { val := 0, tag := .i32 }]).waitEnds,
      .seq)

/-- The time at which a WAIT begins. -/
def startWait (i : Nat) (s : State) : Except Stop State :=
  .ok (s.updThread i fun t => { t with waitStart := some (t.waitStart.getD s.elapsed) })

/-- WAIT (R282). -/
def execWait (h : Hdr) (scope : Scope) (d a b : GReg) (off : BitVec 8) (s : State) : Out :=
  runStaged (.wait h scope d a b off) s startWait fun i s =>
    match s.thread? i with
    | none => .ok (s, .gone)
    | some t => s.wait t d (globalAddr t a off 16) ((t.val b).toNat % 2 ^ 20)

/-! ## FSET and FNEW (R67, R284, R285) -/

/-- The fulfilment of a future by a thread; the predicate says whether it changed the state. -/
def State.fset (s : State) (t : Thread) (pd : PReg) (va : Dword) (st : Nat) (w0 w1 : Word) : Except Stop State := do
  aligned va 16 .rmw
  let key ← s.key t.ctx va .rmw
  let _ ← s.readKey key 16 va .rmw
  let done := s.futureState key == 0
  return (s.applyUpd t.ctx va key (.fulfil st w0 w1)).updThread t.tid fun t => t.setPred pd done

/-- FSET: the value is a pair. -/
def execFset (h : Hdr) (scope : Scope) (pd : PReg) (a b : GReg) (off : BitVec 8) (s : State) : Out :=
  runState (.fset h scope pd a b off) s fun t s =>
    s.fset t pd (globalAddr t a off 16) 1 (t.reg b.toNat).val (t.reg (b.toNat + 1)).val

/-- FSET.FAULT: reason SOFTWARE, and word 1 from the register. -/
def execFsetFault (h : Hdr) (scope : Scope) (pd : PReg) (a b : GReg) (off : BitVec 8) (s : State) : Out :=
  runState (.fsetFault h scope pd a b off) s fun t s => s.fset t pd (globalAddr t a off 16) 2 5 (t.val b)

/-- FSET.CANCEL: reason SOFTWARE, and word 1 from the register. -/
def execFsetCancel (h : Hdr) (scope : Scope) (pd : PReg) (a b : GReg) (off : BitVec 8) (s : State) : Out :=
  runState (.fsetCancel h scope pd a b off) s fun t s => s.fset t pd (globalAddr t a off 16) 3 5 (t.val b)

/-- The key of a future that may be initialised: one that is EMPTY with waiters may not (R285). -/
def State.newFuture (s : State) (ctx : Nat) (va : Dword) : Except Stop Nat := do
  let key ← s.key ctx va .rmw
  let _ ← s.readKey key 16 va .rmw
  if s.futureState key = 0 && s.waitersAt key then throw (trapAt cAccess va .rmw)
  return key

/-- A future written EMPTY with an owner. -/
def State.putFuture (s : State) (key : Nat) (h : Word) : State :=
  s.putMem key (natLe 8 0 ++ natLe 4 h.toNat ++ natLe 4 0)

/-- FNEW in one thread. -/
def State.fnew (s : State) (t : Thread) (none_ : Bool) (va : Dword) : Except Stop State := do
  aligned va 16 .rmw
  s.readsDone t va 16
  let key ← s.newFuture t.ctx va
  let o := if none_ then (noOwner, s) else s.claimOwned t va
  return o.2.putFuture key o.1

/-- FNEW (R285). -/
def execFnew (h : Hdr) (ownerless : Bool) (a : GReg) (s : State) : Out :=
  runState (.fnew h ownerless a) s fun t s => s.fnew t ownerless (t.pair a)

/-! ## Membership groups (R51 to R55) -/

/-- A membership group object. -/
structure GroupObj where
  members : Word
  arrived : Word
  gen : Word
  scope : Nat
  die : Nat
  dieValid : Bool
  bmap : Dword
  bits : Nat
  deriving DecidableEq, Repr

/-- The object that 64 bytes hold (R51). -/
def parseGroup (x : Nat) : GroupObj :=
  { members := BitVec.ofNat 32 x, arrived := BitVec.ofNat 32 (bitsOf x 63 32), gen := BitVec.ofNat 32 (bitsOf x 95 64)
    scope := bitsOf x 97 96, die := bitsOf x 100 98, dieValid := x.testBit 101
    bmap := BitVec.ofNat 64 (bitsOf x 191 128), bits := bitsOf x 223 192 }

/-- The object at an address, for an access of a thread: its key, its number and its fields (R51). -/
def State.groupObj (s : State) (t : Thread) (va : Dword) (acc : Acc) : Except Stop (Nat × Nat × GroupObj) := do
  aligned va 64 acc
  s.readsDone t va 64
  let key ← s.key t.ctx va acc
  let l ← s.readKey key 64 va acc
  let g := parseGroup (leNat l)
  if g.scope = 0 ∨ g.scope = 3 then throw (trapOf cIllegalField)
  return (key, leNat l, g)

/-- The first 16 bytes of the object written back: MEMBERS, ARRIVED, GEN, and DIE with DIEVALID. Bits [511:256] hold the
hardware's waiter state, whose contents R51 does not give: the model keeps waiters in their threads, and leaves those bytes
as memory holds them (DESIGN CHOICE, log 93). -/
def State.putGroup (s : State) (key x : Nat) (g : GroupObj) : State :=
  let w3 := bitsOf x 127 102 * 64 + (if g.dieValid then 32 else 0) + g.die * 4 + g.scope
  s.putMem key (natLe 4 g.members.toNat ++ natLe 4 g.arrived.toNat ++ natLe 4 g.gen.toNat ++ natLe 4 w3)

/-- A die-scope object accessed from another die (R52, R286). -/
def dieOk (t : Thread) (g : GroupObj) (va : Dword) : Except Stop Unit :=
  if g.scope = 1 ∧ g.dieValid ∧ g.die ≠ t.place.die then .error (trapAt cAccess va .rmw) else .ok ()

/-- The barrier completes once the arrivals equal the members (R53). -/
def GroupObj.settle (g : GroupObj) : GroupObj :=
  if g.arrived = g.members then { g with arrived := 0, gen := g.gen + 1 } else g

/-- JOIN in one thread. -/
def State.join (s : State) (t : Thread) (va : Dword) : Except Stop State := do
  let x ← s.groupObj t va .rmw
  dieOk t x.2.2 va
  let g := { x.2.2 with members := x.2.2.members + 1 }
  let g := if g.scope = 1 ∧ !g.dieValid then { g with dieValid := true, die := t.place.die } else g
  return s.putGroup x.1 x.2.1 g

/-- JOIN (R52). -/
def execJoin (h : Hdr) (a : GReg) (s : State) : Out := runState (.join h a) s fun t s => s.join t (t.pair a)

/-- LEAVE in one thread: an open generation may complete. -/
def State.leave (s : State) (t : Thread) (va : Dword) : Except Stop State := do
  let x ← s.groupObj t va .rmw
  dieOk t x.2.2 va
  if x.2.2.members = 0 then throw (trapAt cAccess va .rmw)
  let g := { x.2.2 with members := x.2.2.members - 1 }
  let g := if g.arrived ≠ 0 then g.settle else g
  let g := if g.members = 0 then { g with dieValid := false } else g
  return s.putGroup x.1 x.2.1 g

/-- LEAVE (R52). -/
def execLeave (h : Hdr) (a : GReg) (s : State) : Out := runState (.leave h a) s fun t s => s.leave t (t.pair a)

/-- BAR in one thread: it arrives, and parks on the generation that it arrived in. -/
def State.bar (s : State) (t : Thread) (va : Dword) : Except Stop (State × Next) := do
  let x ← s.groupObj t va .rmw
  dieOk t x.2.2 va
  let g := ({ x.2.2 with arrived := x.2.2.arrived + 1 } : GroupObj).settle
  return (s.putGroup x.1 x.2.1 g, .await (.parked (.barrier va x.2.2.gen)))

/-- BAR (R53). -/
def execBar (h : Hdr) (a : GReg) (s : State) : Out := runFlow (.bar h a) s fun t s => s.bar t (t.pair a)

/-- The dword of the completion bitmap that holds bit `i`, of an object at an address (R55). -/
def State.bitmapDword (s : State) (t : Thread) (va : Dword) (i : Nat) : Except Stop Dword := do
  let x ← s.groupObj t va .read
  if x.2.2.bits ≤ i then throw (trapAt cAccess va)
  aligned x.2.2.bmap 8
  return x.2.2.bmap + BitVec.ofNat 64 (8 * (i / 64))

/-- FSET.BIT in one thread. -/
def State.fsetBit (s : State) (t : Thread) (va : Dword) (i : Nat) : Except Stop State := do
  let w ← s.bitmapDword t va i
  let key ← s.key t.ctx w .rmw
  let l ← s.readKey key 8 w .rmw
  return s.putMem key (natLe 8 (BitVec.ofNat 64 (leNat l) ||| (1 : Dword) <<< (i % 64)).toNat)

/-- FSET.BIT (R55, R287). -/
def execFsetBit (h : Hdr) (a b : GReg) (s : State) : Out :=
  runState (.fsetBit h a b) s fun t s => s.fsetBit t (t.pair a) (t.val b).toNat

/-- WAIT.BIT in one thread. -/
def State.waitBit (s : State) (t : Thread) (va : Dword) (i : Nat) : Except Stop (State × Next) := do
  let w ← s.bitmapDword t va i
  s.readsDone t w 8
  let key ← s.key t.ctx w .read
  let l ← s.readKey key 8 w
  return (s, if (leNat l).testBit (i % 64) then .seq else .await (.parked (.bit w (i % 64))))

/-- WAIT.BIT (R55, R287). -/
def execWaitBit (h : Hdr) (a b : GReg) (s : State) : Out :=
  runFlow (.waitBit h a b) s fun t s => s.waitBit t (t.pair a) (t.val b).toNat

/-! ## Shipped sections (R166 to R170, R288 to R291) -/

/-- Step 3 of R289: the token of SHIP.C is initialised with the owner handle of its home. -/
def State.initToken (s : State) (t : Thread) (kind : ShipKind) (token : Dword) (lc : Nat) : Except Stop State :=
  match kind with
  | .c => (s.newFuture t.ctx token).map fun key => s.putFuture key (lcHandle lc)
  | _ => .ok s

/-- Step 2 of R289: the token's alignment. -/
def tokenAligned (kind : ShipKind) (token : Dword) (m : Nat) : Except Stop Unit :=
  match kind with
  | .c => aligned token (if 2 < m then 32 else 16) .rmw
  | _ => .ok ()

/-- SHIP in one thread (R289): the request is offered to its home, or sent to the device that homes the lock; the thread
goes on, or parks, when that home answers (R166, R170). -/
def State.ship (s : State) (t : Thread) (r : ShipReq) : Except Stop (State × Next) := do
  let home ← s.shipHome t r.lock
  tokenAligned r.kind r.token r.m
  let lc := s.tokenHome home
  let s ← lc.2.initToken t r.kind r.token lc.1
  return (s.offerShip t r home, .await home.offered)

/-- The request of a thread (R166, R288). -/
def State.shipReq (s : State) (t : Thread) (kind : ShipKind) (a b c : GReg) (m n : Nat) : ShipReq :=
  { sender := .thread t.tid, ctx := t.ctx, entry := t.pair c, lock := t.pair a, kind, args := t.span b n, m
    reg := b.toNat, span := max n m, task := s.taskHandle t, waits := t.section_.isNone }

/-- SHIP.W (R288). -/
def execShipW (h : Hdr) (pd : PReg) (m n : BitVec 3) (a b c : GReg) (s : State) : Out :=
  runFlow (.shipW h pd m n a b c) s fun t s =>
    s.ship t { s.shipReq t .w a b c m.toNat n.toNat with pd := pd.toNat }

/-- SHIP.C (R288). -/
def execShipC (h : Hdr) (m n : BitVec 3) (d a b c : GReg) (s : State) : Out :=
  runFlow (.shipC h m n d a b c) s fun t s =>
    s.ship t { s.shipReq t .c a b c m.toNat n.toNat with token := t.pair d }

/-- SHIP.O (R288). -/
def execShipO (h : Hdr) (n : BitVec 3) (a b c : GReg) (s : State) : Out :=
  runFlow (.shipO h n a b c) s fun t s => s.ship t (s.shipReq t .o a b c 0 n.toNat)

/-- SRET (R175, R291). -/
def execSret (h : Hdr) (s : State) : Out :=
  runFlow (.sret h) s fun t s =>
    match t.section_ with
    | some x => .ok (s.endSection t.commitAll x none, .gone)
    | none => .error (trapOf cIllegalOpcode)

/-! ## Queue objects (R292 to R297) -/

/-- A queue object's header. -/
structure QObj where
  key : Nat
  nb : Nat
  cap : Nat
  entries : Dword
  nonempty : Dword
  deriving DecidableEq, Repr

/-- The checks of a queue object by a thread (R293). -/
def State.queueObj (s : State) (t : Thread) (obj : Dword) : Except Stop QObj := do
  aligned obj 64 .rmw
  s.readsDone t obj 64
  let key ← s.key t.ctx obj .rmw
  let l ← s.readKey key 64 obj .rmw
  let x := leNat l
  let lg := bitsOf x 8 6
  let sc := bitsOf x 13 12
  if lg = 0 ∨ lg = 7 ∨ sc = 0 ∨ sc = 3 ∨ bitsOf x 447 192 ≠ 0 ∨ bitsOf x 127 14 ≠ 0 ∨ bitsOf x 11 9 ≠ 0 then
    throw (trapOf cIllegalField)
  return { key, nb := bitsOf x 5 0 + 1, cap := 2 ^ lg, entries := BitVec.ofNat 64 (bitsOf x 191 128)
           nonempty := BitVec.ofNat 64 (bitsOf x 511 448) }

/-- A bucket's descriptor: its key, FREEMASK, HEAD and TAIL. -/
structure Bucket where
  key : Nat
  free : Dword
  head : Word
  tail : Word
  deriving DecidableEq, Repr

/-- The descriptor of bucket `b`, after the checks of its number and of ENTRIES (R293). -/
def State.bucket (s : State) (t : Thread) (q : QObj) (obj : Dword) (b : Nat) : Except Stop Bucket := do
  if q.nb ≤ b then throw (trapAt cAccess obj .rmw)
  aligned q.entries 16 .rmw
  let va := obj + BitVec.ofNat 64 (64 + 16 * b)
  s.readsDone t va 16
  let key ← s.key t.ctx va .rmw
  let l ← s.readKey key 16 va .rmw
  let x := leNat l
  return { key, free := BitVec.ofNat 64 (bitsOf x 127 64), head := BitVec.ofNat 32 (bitsOf x 63 32), tail := BitVec.ofNat 32 x }

/-- A descriptor written back. -/
def State.putBucket (s : State) (b : Bucket) : State :=
  s.putMem b.key (natLe 4 b.tail.toNat ++ natLe 4 b.head.toNat ++ natLe 8 b.free.toNat)

/-- NONEMPTY written back with bit `b` set or clear. -/
def State.putNonempty (s : State) (q : QObj) (b : Nat) (v : Bool) : State :=
  let bit : Dword := 1 <<< b
  s.putMem (q.key + 56) (natLe 8 (if v then q.nonempty ||| bit else q.nonempty &&& ~~~bit).toNat)

/-- The address of slot `j` of bucket `b`. -/
def QObj.entry (q : QObj) (b j : Nat) : Dword := q.entries + BitVec.ofNat 64 (16 * (b * q.cap + j))

/-- The checks of an entry that step 1 makes before it changes anything (R293). -/
def State.entryOk (s : State) (t : Thread) (e : Dword) : Except Stop Unit :=
  if !canonical e then .error (trapAt cAccess e .rmw)
  else
    match s.locate t.ctx e .rmw false with
    | .ok (.remote ..) => .error (trapAt cRemote e .rmw)
    | _ => .ok ()

/-- Step 1 of QPUSH (R294): it is not done again once it has been made. -/
def State.pushStep (s : State) (t : Thread) (obj : Dword) (b : Nat) : Except Stop State :=
  if t.pushClaim.any fun c => c.pc == t.pc then .ok s
  else do
    let q ← s.queueObj t obj
    let k ← s.bucket t q obj b
    let j := k.tail.toNat % q.cap
    if !k.free.getLsbD j then return s.updThread t.tid fun t => { t with pushClaim := some { pc := t.pc, obj } }
    let e := q.entry b j
    s.entryOk t e
    let s := (s.putBucket { k with free := k.free &&& ~~~((1 : Dword) <<< j), tail := k.tail + 1 }).putNonempty q b true
    return s.updThread t.tid fun t =>
      { t with pushClaim := some { pc := t.pc, obj, bucket := b, slot := j, entry := some e } }

/-- The handle that a finished value names as its owner (R294). -/
def State.pushHandle (s : State) (t : Thread) : Word := if t.section_.isSome then noOwner else s.taskHandle t

/-- Step 2 of QPUSH: the value is published. -/
def State.pushValue (s : State) (t : Thread) (pd : PReg) (v : Dword) : Except Stop (State × Next) :=
  match t.pushClaim.bind (·.entry) with
  | none => .ok (s.updThread t.tid fun t => { t.setPred pd false with pushClaim := none }, .seq)
  | some e => do
    let key ← s.key t.ctx e .rmw
    let l ← s.readKey key 16 e .rmw
    let chain := leNat l / 2 ^ 98 * 4
    let s := (s.putMem key (natLe 8 v.toNat ++ natLe 4 (s.pushHandle t).toNat ++ natLe 4 (chain + 1))).dropOwned t.ctx e key
    return (s.updThread t.tid fun t => { t.setPred pd true with pushClaim := none }, .seq)

/-- QPUSH (R294). -/
def execQpush (h : Hdr) (pd : PReg) (a b c : GReg) (s : State) : Out :=
  runStaged (.qpush h pd a b c) s
    (fun i s => match s.thread? i with
      | none => .ok s
      | some t => s.pushStep t (t.pair a) (t.val b).toNat)
    (fun i s => match s.thread? i with
      | none => .ok (s, .gone)
      | some t => s.pushValue t pd (t.pair c))

/-- Step 2 of QPUSH.RSV: the entry's owner is the executing task, and its address is the result. -/
def State.pushReserve (s : State) (t : Thread) (pd : PReg) (d : GReg) : Except Stop (State × Next) :=
  match t.pushClaim.bind (·.entry) with
  | none => .ok (s.updThread t.tid fun t => { t.setPred pd false with pushClaim := none }, .seq)
  | some e => do
    let key ← s.key t.ctx e .rmw
    let _ ← s.readKey key 16 e .rmw
    let o := s.claimOwned t e
    let s := o.2.putOwner key o.1
    return (s.updThread t.tid fun t => { (t.putPair d e .i32 .i32).setPred pd true with pushClaim := none }, .seq)

/-- QPUSH.RSV (R294). -/
def execQpushRsv (h : Hdr) (pd : PReg) (d a b : GReg) (s : State) : Out :=
  runStaged (.qpushRsv h pd d a b) s
    (fun i s => match s.thread? i with
      | none => .ok s
      | some t => s.pushStep t (t.pair a) (t.val b).toNat)
    (fun i s => match s.thread? i with
      | none => .ok (s, .gone)
      | some t => s.pushReserve t pd d)

/-- The lowest set bit of NONEMPTY below NB (R296). -/
def QObj.lowest (q : QObj) : Option Nat := (List.range q.nb).find? fun i => q.nonempty.getLsbD i

/-- The claim of the QPOP at a thread's PC. -/
def Thread.popClaim (t : Thread) : Option QClaim := t.popClaims.find? (·.pc == t.pc)

/-- A claim recorded in its thread. -/
def Thread.claimPop (t : Thread) (c : QClaim) : Thread := { t with popClaims := t.popClaims.filter (·.pc != c.pc) ++ [c] }

/-- Step 1 of QPOP (R296): the claim of the head of a named bucket, or of the lowest that holds anything. -/
def State.popStep (s : State) (t : Thread) (obj : Dword) (b : Option Nat) : Except Stop State :=
  if t.popClaim.isSome then .ok s
  else do
    let q ← s.queueObj t obj
    let empty := s.updThread t.tid fun t => t.claimPop { pc := t.pc, obj }
    match b.or q.lowest with
    | none =>
      aligned q.entries 16 .rmw
      return empty
    | some b =>
      let k ← s.bucket t q obj b
      if k.head = k.tail then return empty
      let j := k.head.toNat % q.cap
      let e := q.entry b j
      s.entryOk t e
      let s := s.putBucket { k with head := k.head + 1 }
      let s := if k.head + 1 = k.tail then s.putNonempty q b false else s
      return s.updThread t.tid fun t => t.claimPop { pc := t.pc, obj, bucket := b, slot := j, entry := some e }

/-- QPOP's result in its span, its predicate, and the end of its claim. -/
def popResult (pd : PReg) (d : GReg) (v : Dword) (b st : Nat) (ok : Bool) (t : Thread) : Thread :=
  { ((t.putSpan d.toNat
      [{ val := loWord v }, { val := hiWord v }, { val := BitVec.ofNat 32 b, tag := .i32 },
       { val := BitVec.ofNat 32 st, tag := .i32 }]).setPred pd ok).waitEnds with
    popClaims := t.popClaims.filter (·.pc != t.pc) }

/-- Steps 2 and 3 of QPOP (R296). -/
def State.popEntry (s : State) (t : Thread) (pd : PReg) (d : GReg) : Except Stop (State × Next) :=
  match t.popClaim with
  | none => .ok (s, .seq)
  | some c =>
    match c.entry with
    | none => .ok (s.updThread t.tid (popResult pd d 0 0 5 false), .seq)
    | some e => do
      match ← s.waitOn t e with
      | none =>
        if t.pend.any (!·.known) then throw .stall
        return (s, .retry (.future e none))
      | some (3, _, _) => return (s.updThread t.tid (popResult pd d e c.bucket 3 false), .seq)
      | some (st, lo, hi) =>
        let key ← s.key t.ctx e .rmw
        let va := c.obj + BitVec.ofNat 64 (64 + 16 * c.bucket)
        s.readsDone t va 16
        let bk ← s.key t.ctx va .rmw
        let l ← s.readKey bk 16 va .rmw
        let free := BitVec.ofNat 64 (leNat l / 2 ^ 64) ||| (1 : Dword) <<< c.slot
        let s := (s.putFuture key noOwner).putMem (bk + 8) (natLe 8 free.toNat)
        return (s.updThread t.tid (popResult pd d (joinWords lo hi) c.bucket st true), .seq)

/-- QPOP (R296). -/
def execQpop (h : Hdr) (pd : PReg) (d a b : GReg) (s : State) : Out :=
  runStaged (.qpop h pd d a b) s
    (fun i s => match s.thread? i with
      | none => .ok s
      | some t => s.popStep t (t.pair a) (some (t.val b).toNat))
    (fun i s => match s.thread? i with
      | none => .ok (s, .gone)
      | some t => s.popEntry t pd d)

/-- QPOP.MIN (R296). -/
def execQpopMin (h : Hdr) (pd : PReg) (d a : GReg) (s : State) : Out :=
  runStaged (.qpopMin h pd d a) s
    (fun i s => match s.thread? i with
      | none => .ok s
      | some t => s.popStep t (t.pair a) none)
    (fun i s => match s.thread? i with
      | none => .ok (s, .gone)
      | some t => s.popEntry t pd d)

end Sys2Proof.Machine
end

