-- ==== Sys2Proof/Machine/Acc.lean ====
section
/-! DEFINITION. The bank table, engine commands and their futures, the matrix commands of the accumulator cells, and what a
matrix engine reads (R88 to R100, R115, R317 to R326). -/

namespace Sys2Proof.Machine

/-! ## Engine commands (R317, R318) -/

/-- The core of a collective. -/
def Coll.k (c : Coll) : Nat := coreIdx c.g.die c.g.core

/-- The allocation that a group's descriptors are relative to: that of rank 0's task (R88). Answers the task, the core-wide
key of its base, and its size. -/
def State.groupAlloc (s : State) (g : Group) : Nat × Nat × Nat :=
  match (g.members.head?.bind s.thread?).bind fun t => s.task? t.task with
  | some k =>
    let a := k.alloc.getD (0, 0)
    (k.id, coreIdx g.die g.core * 2 ^ 18 + a.1, a.2)
  | none => (0, coreIdx g.die g.core * 2 ^ 18, 0)

/-- Whether a range of an allocation of `size` bytes lies in it (R88). -/
def inAlloc (size lo n : Nat) (acc : Acc := .read) : Except Stop Unit :=
  if lo + n ≤ size then .ok () else .error (trapAt cScratch (BitVec.ofNat 64 lo) acc)

/-- The alignment of a command's future (R318). -/
def futAligned (fut : Dword) : Except Stop Unit := aligned fut 16 .rmw

/-- A command's future initialised at issue, EMPTY with no owner (R318). -/
def State.initFuture (s : State) (ctx : Nat) (fut : Dword) : Except Stop State :=
  if fut = 0 then .ok s else (s.newFuture ctx fut).map fun key => (s.lookUp ctx fut).putFuture key noOwner

/-- The handle of the task whose thread is a group's rank 0. -/
def State.groupHandle (s : State) (g : Group) : Word :=
  match g.members.head?.bind s.thread? with
  | some t => s.taskHandle t
  | none => noOwner

/-- The next issue number among writers of scratchpads (R115). -/
def State.nextSeq (s : State) : Nat × State := (s.tick, { s with tick := s.tick + 1 })

/-! ## The bank table (R97 to R99) -/

/-- The banks of a mask. -/
def bankList (mask : BitVec 8) : List Nat := (List.range 8).filter fun b => mask.getLsbD b

/-- A trap of the bank table: engine and banks touched (R350). -/
def bankStop (cause : BitVec 8) (eng : Nat) (bs : List Nat) : Stop :=
  .trap { cause, detail0 := BitVec.ofNat 64 (eng + 256 * bs.foldl (fun m b => m + 2 ^ b) 0) }

/-- A bank of a core. -/
def State.bank (s : State) (k eng b : Nat) : Bank := ((s.core k).banks[8 * eng + b]?).getD {}

/-- The banks of a list changed. -/
def State.updBanks (s : State) (k eng : Nat) (bs : List Nat) (f : Bank → Bank) : State :=
  s.updCore k fun x => { x with banks := x.banks.zipIdx.map fun p =>
    if p.2 / 8 = eng ∧ bs.contains (p.2 % 8) then f p.1 else p.1 }

/-- The check of an access to banks by the group with a number, which owns them, or to which they are lent where `lend`
(R99). -/
def State.bankCheck (s : State) (k eng num : Nat) (bs : List Nat) (lend : Bool) : Except Stop Unit :=
  let bad := bs.findSome? fun b =>
    let x := s.bank k eng b
    match x.owner with
    | none => some cAccUnalloc
    | some o => if o = num ∨ (lend ∧ x.lendee = some num) then none else some cAccOwner
  match bad with
  | some c => .error (bankStop c eng bs)
  | none => .ok ()

/-- ACC_NOT_OWNER unless the group owns every bank (R98). -/
def State.ownsBanks (s : State) (k eng num : Nat) (bs : List Nat) : Except Stop Unit :=
  if bs.all fun b => (s.bank k eng b).owner == some num then .ok () else .error (bankStop cAccOwner eng bs)

/-- ACC.ALLOC (R98, R320). -/
def execAccAlloc (h : Hdr) (pd : PReg) (eng : BitVec 2) (mask : BitVec 8) (s : State) : Out :=
  runColl (.accAlloc h pd eng mask) s fun c s => do
    c.whole
    let bs := bankList mask
    let ok := bs.all fun b => (s.bank c.k eng.toNat b).owner.isNone
    let s := if ok then s.updBanks c.k eng.toNat bs fun _ => { owner := some c.g.num } else s
    return s.updRanks c.active fun _ t => t.setPred pd ok

/-- ACC.FREE (R98, R320). -/
def execAccFree (h : Hdr) (eng : BitVec 2) (mask : BitVec 8) (s : State) : Out :=
  runColl (.accFree h eng mask) s fun c s => do
    c.whole
    s.ownsBanks c.k eng.toNat c.g.num (bankList mask)
    return s.updBanks c.k eng.toNat (bankList mask) fun _ => {}

/-- ACC.LEND (R98, R320). -/
def execAccLend (h : Hdr) (eng : BitVec 2) (mask : BitVec 8) (sa : SReg) (s : State) : Out :=
  runColl (.accLend h eng mask sa) s fun c s => do
    c.whole
    let n := (c.g.sreg sa.toNat).val.toNat
    require (decide (n < 1024) && s.groups.any fun g => !g.saved && coreIdx g.die g.core == c.k && g.num == n) cIllegalField
    let bs := bankList mask
    s.ownsBanks c.k eng.toNat c.g.num bs
    if n = c.g.num then return s
    let others := (List.range 8).filter fun b =>
      !bs.contains b && s.bank c.k eng.toNat b == { owner := some c.g.num, lendee := some n }
    return (s.updBanks c.k eng.toNat others fun b => { b with lendee := none }).updBanks c.k eng.toNat bs
      fun b => { b with lendee := some n }

/-! ## The order of a matrix engine (R21) -/

/-- A command of a group. -/
def State.groupCmd (s : State) (g : Group) (op : MOp) (fut : Dword) (scope : Scope) : MCmd :=
  let a := s.groupAlloc g
  { op, seq := s.tick, ctx := g.ctx, gid := g.gid, task := a.1, taskHandle := s.groupHandle g, base := a.2.1, size := a.2.2
    fut, scope }

/-- The commands of engine `e` of core `k`, oldest first. -/
def State.engine (s : State) (k e : Nat) : List MCmd := ((s.core k).engines[e]?).getD []

/-- The commands of an engine changed. -/
def State.updEngine (s : State) (k e : Nat) (f : List MCmd → List MCmd) : State :=
  s.updCore k fun x => { x with engines := x.engines.zipIdx.map fun p => if p.2 = e then f p.1 else p.1 }

/-- A command joins the order of its engine, or stalls at a full one (R21). -/
def State.enqueue (s : State) (k e : Nat) (m : MCmd) : Except Stop State :=
  if Config.engineEntries ≤ (s.engine k e).length then .error .stall
  else
    let q := s.nextSeq
    .ok (q.2.updEngine k e fun l => l ++ [{ m with seq := q.1 }])

/-- ACC.ZERO (R320). -/
def execAccZero (h : Hdr) (eng : BitVec 2) (mask : BitVec 8) (s : State) : Out :=
  runColl (.accZero h eng mask) s fun c s => do
    c.whole
    s.bankCheck c.k eng.toNat c.g.num (bankList mask) false
    s.enqueue c.k eng.toNat (s.groupCmd c.g (.zero mask) 0 .core)

/-- The row and the column that a rank's registers name (R321). -/
def cellOf (t : Thread) (b c : GReg) : Except Stop (Nat × Nat) :=
  let r := (t.val b).toNat
  let col := (t.val c).toNat
  if r < 128 ∧ col < 64 then .ok (r, col) else .error (.trap { cause := cIllegalField, tid := some t.tid })

/-- The cells that the active ranks name, in rank order. -/
def cellsOf (b c : GReg) : List (Nat × Thread) → Except Stop (List (Nat × Nat × Thread))
  | [] => .ok []
  | p :: l => do
    let x ← cellOf p.2 b c
    let r ← cellsOf b c l
    return (x.1, x.2, p.2) :: r

/-- The bank check of the cells that ranks name: each rank's cell lies in one bank, and the first rank that fails is named
(R99, R235). -/
def State.cellBanks (s : State) (k eng num : Nat) (lend : Bool) : List (Nat × Nat × Thread) → Except Stop Unit
  | [] => .ok ()
  | c :: l =>
    match s.bankCheck k eng num [c.1 / 16] lend with
    | .error (.trap t) => .error (.trap { t with tid := some c.2.2.tid })
    | .error e => .error e
    | .ok _ => s.cellBanks k eng num lend l

/-- ACC.LD (R321). -/
def execAccLd (h : Hdr) (eng : BitVec 2) (a b c : GReg) (s : State) : Out :=
  runColl (.accLd h eng a b c) s fun x s => do
    x.whole
    let cells ← cellsOf b c x.active
    s.cellBanks x.k eng.toNat x.g.num false cells
    let l := cells.map fun p =>
      (p.1, p.2.1, BitVec.ofNat 96 (spanNat ((List.range 3).map fun i => (p.2.2.reg (a.toNat + i)).val)))
    s.enqueue x.k eng.toNat (s.groupCmd x.g (.ld l) 0 .core)

/-- ACC.RD (R321): its registers are written when its command has run. -/
def execAccRd (h : Hdr) (eng : BitVec 2) (f32 i96 : Bool) (d b c : GReg) (s : State) : Out :=
  runColl (.accRd h eng f32 i96 d b c) s fun x s => do
    x.whole
    let cells ← cellsOf b c x.active
    s.cellBanks x.k eng.toNat x.g.num true cells
    let l := cells.map fun p => { tid := p.2.2.tid, reg := d.toNat, row := p.1, col := p.2.1 : RdTarget }
    let src := s.tick
    let s ← s.enqueue x.k eng.toNat (s.groupCmd x.g (.rd f32 i96 l) 0 .core)
    return s.updRanks x.active fun _ t => t.awaitLong h.la d.toNat (if f32 then 1 else 4) src

/-! ## Operand descriptors (R90, R91) -/

/-- An operand descriptor from its two words. -/
def parseDesc (w0 w1 : Word) : Except Stop OpDesc :=
  let x := w0.toNat
  let y := w1.toNat
  if bitsOf x 3 0 ≠ 0 ∨ bitsOf y 3 0 ≠ 0 ∨ bitsOf y 31 21 ≠ 0 then .error (trapOf cIllegalField)
  else .ok { base := bitsOf x 17 0, rowBytes := 16 * bitsOf x 31 18, tilePitch := bitsOf y 17 0, rot := bitsOf y 20 18 }

/-- The bounding range of `rows` rows of `n` bytes in a tile, in whole 512-byte blocks under a rotation (R88, R91). -/
def OpDesc.range (d : OpDesc) (t rows n : Nat) : Nat × Nat :=
  let lo := d.base + t * d.tilePitch
  let hi := lo + (rows - 1) * d.rowBytes + n
  if n = 0 ∨ rows = 0 then (0, 0)
  else if d.rot = 0 then (lo, hi - lo) else (lo / 512 * 512, (hi + 511) / 512 * 512 - lo / 512 * 512)

/-- A tile of an operand in an allocation of `size` bytes (R88). -/
def OpDesc.fits (d : OpDesc) (size t rows n : Nat) (acc : Acc := .read) : Except Stop Unit :=
  inAlloc size (d.range t rows n).1 (d.range t rows n).2 acc

/-- The granules of 256 bytes that rows of `n` bytes of a tile touch, of an allocation at key `base` (R115). -/
def OpDesc.granules (d : OpDesc) (base t rows n : Nat) : List Nat :=
  ((List.range rows).flatMap fun i => (List.range ((n + 15) / 16)).map fun c => (base + d.addr t i (16 * c)) / 256).eraseDups

/-- Granules that a range of keys touches. -/
def granulesOf (lo n : Nat) : List Nat := if n = 0 then [] else (List.range ((lo + n - 1) / 256 - lo / 256 + 1)).map (lo / 256 + ·)

/-- Element `k` of row `i` of a tile, in container bits of a format (R143, R145, R323). -/
def State.elem (s : State) (base : Nat) (d : OpDesc) (f : Fmt) (t i k : Nat) : Nat :=
  let w := f.container
  let key := base + d.addr t i (k * w / 8)
  leNat (takeBytes s.scratch key (max 1 (w / 8))) / 2 ^ (k * w % 8) % 2 ^ w

/-! ## MMA and MMAS (R322 to R326) -/

/-- The K-step of a matrix format (R322). -/
def kstepOf : Fmt → Nat
  | .bf16 | .f16 => 8
  | .e2m1 | .bx3 | .bx4 => 32
  | .bx2 => 64
  | _ => 16

/-- The integer class of a matrix format (R322). -/
def intClass : Fmt → Bool
  | .i8 | .bx2 | .bx3 | .bx4 | .bx5 | .bx6 | .bx7 | .bx8 => true
  | _ => false

/-- Whether an operand of a format is scaled, and whether its SC bit is allowed (R322, R324). -/
def scaledOperand (f : Fmt) (sc : Bool) : Option Bool :=
  if f = .e4m3 ∨ f = .e5m2 then some sc else if sc then none else some f.scaled

/-- The operands of a matrix command from its block and descriptors (R322 to R324); `sparse` for MMAS. -/
def parseMma (afmt : Fmt) (row0 : Nat) (edge ctrl a0 a1 b0 b1 : Word) (sparse : Bool) : Except Stop (MmaOp × Scope) := do
  let e := edge.toNat
  let x := ctrl.toNat
  let rows := bitsOf e 7 0
  let cols := bitsOf e 15 8
  let k := bitsOf e 23 16
  let pat := bitsOf x 10 9
  match Fmt.ofCode (BitVec.ofNat 5 x), scaledOperand afmt (x.testBit 5) with
  | some bfmt, some sa =>
    match scaledOperand bfmt (x.testBit 6) with
    | none => throw (trapOf cIllegalField)
    | some sb =>
      require (afmt.matrix && bfmt.matrix && intClass afmt == intClass bfmt && kstepOf afmt == kstepOf bfmt) cIllegalField
      require (bitsOf x 31 13 == 0 && !x.testBit 8 && bitsOf e 31 24 == 0) cIllegalField
      require (if sparse then pat == 1 || pat == 2 else pat == 0) cIllegalField
      require (decide (1 ≤ rows ∧ row0 + rows ≤ 128 ∧ 1 ≤ cols ∧ cols ≤ 64 ∧ 1 ≤ k)) cIllegalField
      require ((!(sa || sb) || k % 32 == 0) && (pat != 1 || k % 4 == 0) && (pat != 2 || k % 2 == 0)) cIllegalField
      let da ← parseDesc a0 a1
      let db ← parseDesc b0 b1
      return ({ afmt, bfmt, pat, row0, rows, cols, k, clr := x.testBit 7, sca := sa, scb := sb, da, db },
        (Scope.ofCode (BitVec.ofNat 2 (bitsOf x 12 11))).getD .core)
  | _, _ => throw (trapOf cIllegalField)

/-- The tiles that a matrix command reads: descriptor, tile, rows and bytes of a row (R323, R326). -/
def MmaOp.tiles (m : MmaOp) : List (OpDesc × Nat × Nat × Nat) :=
  let ka := if m.pat = 0 then m.k else m.k / 2
  let bytes := fun (f : Fmt) (n : Nat) => (n * f.container + 7) / 8
  [(m.da, 0, m.rows, bytes m.afmt ka), (m.db, 0, m.cols, bytes m.bfmt m.k),
   (m.da, 1, m.rows, if m.sca then m.k / 32 else 0), (m.db, 1, m.cols, if m.scb then m.k / 32 else 0),
   (m.da, 2, m.rows, if m.pat = 1 then (m.k + 7) / 8 else if m.pat = 2 then (m.k + 15) / 16 else 0)]

/-- The ranges of a list of tiles lie in an allocation. -/
def tilesFit (size : Nat) : List (OpDesc × Nat × Nat × Nat) → Except Stop Unit
  | [] => .ok ()
  | p :: l => do
    p.1.fits size p.2.1 p.2.2.1 p.2.2.2
    tilesFit size l

/-- The banks of a matrix command's rows. -/
def rowsBanks (row0 rows : Nat) : List Nat := (List.range 8).filter fun b => decide (row0 / 16 ≤ b ∧ b ≤ (row0 + rows - 1) / 16)

/-- MMA and MMAS at issue (R325). -/
def Coll.mma (c : Coll) (s : State) (f : Fmt) (eng : BitVec 2) (bank : BitVec 3) (sa sb sc : SReg) (sparse : Bool) :
    Except Stop State := do
  c.whole
  let w := fun (r : SReg) (i : Nat) => (c.g.sreg (r.toNat + i)).val
  let m ← parseMma f (16 * bank.toNat) (w sc 0) (w sc 1) (w sa 0) (w sa 1) (w sb 0) (w sb 1) sparse
  let fut := c.g.spair (sc.toNat + 2)
  futAligned fut
  tilesFit (s.groupAlloc c.g).2.2 m.1.tiles
  s.bankCheck c.k eng.toNat c.g.num (rowsBanks m.1.row0 m.1.rows) false
  let s1 ← s.initFuture c.g.ctx fut
  s1.enqueue c.k eng.toNat (s.groupCmd c.g (.mma m.1) fut m.2)

/-- MMA (R325). -/
def execMma (h : Hdr) (fmt : Fmt) (eng : BitVec 2) (bank : BitVec 3) (sa sb sc : SReg) (s : State) : Out :=
  runColl (.mma h fmt eng bank sa sb sc) s fun c s => c.mma s fmt eng bank sa sb sc false

/-- MMAS (R325, R326). -/
def execMmas (h : Hdr) (fmt : Fmt) (eng : BitVec 2) (bank : BitVec 3) (sa sb sc : SReg) (s : State) : Out :=
  runColl (.mmas h fmt eng bank sa sb sc) s fun c s => c.mma s fmt eng bank sa sb sc true

/-- The dense k of compressed element `c` of row `i` of A (R326). -/
def State.denseK (s : State) (base : Nat) (m : MmaOp) (i c : Nat) : Nat :=
  match m.pat with
  | 0 => c
  | 1 =>
    let g := c / 2
    let nib := s.elem base m.da .e2m1 2 i g
    4 * g + (if c % 2 = 0 then nib % 4 else nib / 4)
  | _ => 2 * c + ((s.scratch.get 0 (base + m.da.addr 2 i (c / 8))).toNat / 2 ^ (c % 8) % 2)

/-- The value of an operand's element, with its block scale (R144, R158). -/
def State.operand (s : State) (base : Nat) (d : OpDesc) (f : Fmt) (sc : Bool) (i k kd : Nat) : Exact :=
  let x := f.dec (s.elem base d f 0 i k)
  if sc then scaleBy (s.scratch.get 0 (base + d.addr 1 i (kd / 32))).toNat x else x

/-- The products of cell (i, j) in ascending k (R158, R326). -/
def State.products (s : State) (base : Nat) (m : MmaOp) (i j : Nat) : List (Exact × Exact) :=
  (List.range (if m.pat = 0 then m.k else m.k / 2)).map fun c =>
    let k := s.denseK base m i c
    (s.operand base m.da m.afmt m.sca i c k, s.operand base m.db m.bfmt m.scb j k k)

/-- An MMA runs (R158, R325). -/
def State.runMma (s : State) (k eng : Nat) (m : MCmd) (op : MmaOp) : State :=
  let one := fun (cells : SMap (BitVec 96)) (p : Nat × Nat) =>
    let key := cellKey k eng (op.row0 + p.1) p.2
    let old := if op.clr then 0 else s.cells.get 0 key
    let ps := s.products m.base op p.1 p.2
    cells.set 0 key (cellSteps (intClass op.afmt) (kstepOf op.afmt) (ps.length + 1) old ps)
  { s with cells := (rect op.rows op.cols).foldl one s.cells }

/-! ## Pending writes (R115) -/

/-- The destination granules of a drain to the scratchpad. -/
def DrainOp.granules (o : DrainOp) (base size : Nat) : List Nat :=
  if o.global then [] else o.desc.granules base 0 o.rows (o.cols * size)

/-- The granules that a descent of `n` rows writes in its output area (R185). -/
def descentGranules (base out n : Nat) : List Nat :=
  granulesOf (base + out) (2 * n) ++ granulesOf (base + out + 512) (4 * n) ++ granulesOf (base + out + 1536) (16 + 16 * n)

/-! ## The value of cells in registers (R321) -/

/-- The registers of one rank's ACC.RD. -/
def rdRegs (f32 i96 : Bool) (c : BitVec 96) : List Reg :=
  if f32 then [{ val := BitVec.ofNat 32 (convert .f32 .rn false false (cellValue i96 c)).1, tag := .f32 }]
  else regsOf c.toNat (List.replicate 4 .raw)

/-- A pending result produced by its command. -/
def Thread.produce (t : Thread) (src reg : Nat) (l : List Reg) : Thread :=
  { t with pend := t.pend.map fun p =>
      (if p.src = src ∧ !p.known ∧ reg ≤ p.reg ∧ p.reg < reg + l.length then
        { p with val := (l[p.reg - reg]?).getD {}, known := true }
      else p) }

/-- ACC.ZERO, ACC.LD or ACC.RD runs (R320, R321). -/
def State.runCells (s : State) (k eng : Nat) (m : MCmd) : State :=
  match m.op with
  | .zero mask =>
    { s with cells := s.cells.filter fun p =>
        !(decide (p.1 / (128 * 64) = k * 3 + eng) && mask.getLsbD (p.1 / 64 % 128 / 16)) }
  | .ld l => { s with cells := l.foldl (fun (m : SMap (BitVec 96)) p => m.set 0 (cellKey k eng p.1 p.2.1) p.2.2) s.cells }
  | .rd f32 i96 l =>
    l.foldl (fun s p => s.updThread p.tid fun t =>
      t.produce m.seq p.reg (rdRegs f32 i96 (s.cells.get 0 (cellKey k eng p.row p.col)))) s
  | .mma op => s.runMma k eng m op
  | .drain _ => s

end Sys2Proof.Machine
end

