-- ==== Sys2Proof/Machine/Matrix.lean ====
section
/-! DEFINITION. Pending writes, drains, and the running of a matrix engine's commands (R115, R327, R328). -/

namespace Sys2Proof.Machine

/-! ## Drains at issue (R327) -/

/-- The targets of a drain, and those of an add-on-store (R161, R162). -/
def drainTarget (f : Fmt) (add : Bool) : Bool :=
  if add then f = .f32 || f = .bf16 || f = .f16 || f = .i32
  else f = .f64 || f = .f32 || f = .bf16 || f = .f16 || f = .e4m3 || f = .e5m2 || f = .i32 || f = .i8

/-- The operands of a drain from its block and its s-pair (R327). -/
def parseDrain (row0 : Nat) (edge ctrl a0 a1 : Word) : Except Stop (DrainOp × Scope) := do
  let e := edge.toNat
  let x := ctrl.toNat
  let rows := bitsOf e 7 0
  let cols := bitsOf e 15 8
  let glob := x.testBit 10
  let add := x.testBit 9
  let sat := x.testBit 8
  match Fmt.ofCode (BitVec.ofNat 5 x), Rnd.ofCode (BitVec.ofNat 2 (bitsOf x 7 6)) with
  | some tfmt, some rnd =>
    require (drainTarget tfmt add && (!sat || tfmt.satTarget)) cIllegalField
    require (decide (1 ≤ rows ∧ row0 + rows ≤ 128 ∧ 1 ≤ cols ∧ cols ≤ 64 ∧ bitsOf e 31 24 = 0)) cIllegalField
    require (glob || bitsOf x 31 14 == 0) cIllegalField
    let desc ← if glob then pure { base := 0, rowBytes := 0, tilePitch := 0, rot := 0 } else parseDesc a0 a1
    return ({ row0, rows, cols, global := glob, addr := joinWords a0 a1, gpitch := bitsOf x 31 14, desc
              clr := x.testBit 11, add, sat, rnd, i96 := x.testBit 5, tfmt },
      (Scope.ofCode (BitVec.ofNat 2 (bitsOf x 13 12))).getD .core)
  | _, _ => throw (trapOf cIllegalField)

/-- ACC.DRAIN (R327). -/
def execAccDrain (h : Hdr) (eng : BitVec 2) (bank : BitVec 3) (sa sc : SReg) (s : State) : Out :=
  runColl (.accDrain h eng bank sa sc) s fun c s => do
    c.whole
    let w := fun (r : SReg) (i : Nat) => (c.g.sreg (r.toNat + i)).val
    let m ← parseDrain (16 * bank.toNat) (w sc 0) (w sc 1) (w sa 0) (w sa 1)
    let o := m.1
    let fut := c.g.spair (sc.toNat + 2)
    let acc : Acc := if o.add then .rmw else .write
    if o.global then aligned o.addr 16 acc
    futAligned fut
    if !o.global then o.desc.fits (s.groupAlloc c.g).2.2 0 o.rows (o.cols * drainBytes o.tfmt) acc
    let bs := rowsBanks o.row0 o.rows
    s.bankCheck c.k eng.toNat c.g.num bs true
    if o.clr then s.ownsBanks c.k eng.toNat c.g.num bs
    if o.global then canon o.addr acc
    let s1 ← s.initFuture c.g.ctx fut
    s1.enqueue c.k eng.toNat (s.groupCmd c.g (.drain o) fut m.2)

/-! ## Pending writes (R115) -/

/-- The granules that a copy has still to write in a scratchpad. Those of a ring entry count from the taking of the entry,
because before it no write of the copy into the entry may happen (R95; DEDUCED, log 49). -/
def State.copyPending (s : State) (b : BulkCopy) : List Nat :=
  match b.desc.dst with
  | .scratch _ => (b.desc.sectors.filter fun x => !b.done.contains x).map (b.base / 256 + ·)
  | .ring n => if b.core = noCore then [] else (b.ringLeft (s.ring b.core n)).map fun x => b.ringKey (s.ring b.core n) (256 * x) / 256
  | .global _ => []

/-- The granules that a matrix command has still to write. -/
def MCmd.pending (m : MCmd) : List Nat :=
  match m.op with
  | .drain o => o.granules m.base (drainBytes o.tfmt)
  | _ => []

/-- The granules that a descent command has still to write. -/
def DCmd.pending (m : DCmd) : List Nat :=
  match m.op with
  | .run n _ out => descentGranules m.base out n
  | .grad .. => []

/-- Whether a granule has a pending write that was issued before number `seq`. -/
def State.pendingAt (s : State) (seq g : Nat) : Bool :=
  (s.ldas.any fun l => decide (l.seq < seq) && l.failed.isNone && (granulesOf l.dst l.size).contains g)
    || (s.copies.any fun b => decide (b.seq < seq) && (s.copyPending b).contains g)
    || (s.cores.any fun p => (p.2.engines.any fun e => e.any fun m => decide (m.seq < seq) && m.pending.contains g)
          || (p.2.descent.cmds.any fun m => decide (m.seq < seq) && m.pending.contains g))

/-- The granules that a matrix command reads. -/
def MCmd.reads (m : MCmd) : List Nat :=
  match m.op with
  | .mma op => op.tiles.flatMap fun t => t.1.granules m.base t.2.1 t.2.2.1 t.2.2.2
  | _ => []

/-! ## Running (R21, R325, R328) -/

/-- Occupancy cycles of a matrix command, without stalls (R319). -/
def MOp.cycles : MOp → Nat
  | .mma o => (o.rows + 15) / 16 * ((o.k + kstepOf o.afmt * (if o.pat = 0 then 1 else 2) - 1)
      / (kstepOf o.afmt * (if o.pat = 0 then 1 else 2)))
  | .zero mask => 2 * ((List.range 8).filter fun b => mask.getLsbD b).length
  | .ld _ | .rd .. => 1
  | .drain o => o.rows * ((o.cols * drainBytes o.tfmt + 255) / 256)

/-- The stall cycles that memory adds to a command's occupancy: the manual leaves them to timing (R319, log 17). -/
def State.stallCycles (s : State) : Nat × State := let r := s.freshBits; (r.1.toNat % 2 ^ 32, r.2)

/-- The occupancy of a matrix command, with the stall cycles of one that reads or writes memory. -/
def State.occupancy (s : State) (m : MCmd) : Nat × State :=
  match m.op with
  | .zero _ | .ld _ | .rd .. => (m.op.cycles, s)
  | _ =>
    let r := s.stallCycles
    (m.op.cycles + r.1, r.2)

/-- The occupancy of a command of engine `e` of core `k` counted, for its context and by the core's counters (R443, R452). -/
def State.countMatrix (s : State) (k e : Nat) (m : MCmd) : State :=
  let n := s.occupancy m
  (n.2.count m.ctx fun u => { u with mebusy := u.mebusy + n.1 }).tallyCore k (0x020 + e) n.1

/-- The head of an engine's order removed, after it has run. -/
def State.dequeue (s : State) (k e : Nat) : State :=
  let s := match s.engine k e with
    | m :: _ => s.countMatrix k e m
    | [] => s
  ((s.updEngine k e List.tail).sweepAllocs k).endAdoptions

/-- MATRIX_COMMAND_RUN (R21): the command at the head of the order runs, once nothing that it reads is pending. It reads all its
operands in this one turn, so that no operand holds 16-byte chunks from before and from after a store (DESIGN CHOICE, log
116). -/
def execMatrixCommandRun (die core eng : Nat) (s : State) : Out :=
  let k := coreIdx die core
  match s.engine k eng with
  | [] => .next s
  | m :: _ =>
    match m.op with
    | .drain _ => .next s
    | _ =>
      if m.reads.any (s.pendingAt m.seq) then .next s
      else
        let s := (s.runCells k eng m).dequeue k eng
        .next (s.fulfil m.ctx m.fut 1 0 0 3 die core m.taskHandle)

/-- The new bits of a drain's element over an old value (R161, R162). -/
def DrainOp.value (o : DrainOp) (old : Nat) (cell : BitVec 96) : Nat :=
  let x := cellValue o.i96 cell
  if o.add then (convert o.tfmt o.rnd o.sat false (sumExact (o.rnd == .rd) [o.tfmt.dec old, x]).1).1
  else (convert o.tfmt o.rnd o.sat false x).1

/-- Whether a list of addresses repeats one: the order in which equal destinations are written is then a free choice. -/
def anyRepeat : List Nat → Bool
  | [] => false
  | a :: l => l.contains a || anyRepeat l

/-- A list in an order that the device chooses, if its order can show. -/
def State.freeOrder {α : Type} (s : State) (dst : α → Nat) (l : List α) : List α × State :=
  if anyRepeat (l.map dst) then
    let r := s.freshBelow l.length
    (l.drop r.1 ++ l.take r.1, r.2)
  else (l, s)

/-- The elements of one destination sector written, and their cells cleared under CLR. -/
def State.drainElems (s : State) (k eng ctx : Nat) (o : DrainOp) (keyOf : Nat → Nat) (l : List (Nat × Nat × Nat)) : State :=
  let n := drainBytes o.tfmt
  l.foldl
    (fun s e =>
      let ck := cellKey k eng e.2.1 e.2.2
      let old := leNat (if o.global then s.bytes (keyOf e.1) n else takeBytes s.scratch (keyOf e.1) n)
      let v := natLe n (o.value old (s.cells.get 0 ck))
      let s := if o.global then s.putFor ctx (keyOf e.1) v else s.putScratch (keyOf e.1) v
      if o.clr then { s with cells := s.cells.set 0 ck 0 } else s) s

/-- A drain's access to a sector of global memory. -/
def State.drainKey (s : State) (ctx : Nat) (o : DrainOp) (va : Nat) : Except Stop Nat :=
  let a := BitVec.ofNat 64 (va / 256 * 256)
  match s.key ctx a (if o.add then .rmw else .write) with
  | .error e => .error e
  | .ok key => if o.add ∧ s.poisoned key 256 then .error (trapAt cUncorrectable a .rmw) else .ok key

/-- What a drain has done so far: its state, its sectors written, its open page faults, and the cause of a failure. -/
structure DrainRun where
  s : State
  done : List Nat
  fids : List Nat := []
  failed : Option Failure := none
  deriving DecidableEq, Repr

/-- One sector of a drain under way. -/
def DrainRun.sector (r : DrainRun) (die core eng : Nat) (m : MCmd) (o : DrainOp) (x : Nat) : DrainRun :=
  if r.failed.isSome ∨ r.done.contains x then r
  else
    let k := coreIdx die core
    let r := if o.global then { r with s := r.s.lookUp m.ctx (BitVec.ofNat 64 (256 * x)) } else r
    let l := r.s.freeOrder (·.1) ((o.elems m.base).filter fun e => e.1 / 256 == x)
    if !o.global then { r with s := l.2.drainElems k eng m.ctx o id l.1, done := r.done ++ [x] }
    else
      match r.s.drainKey m.ctx o (256 * x) with
      | .ok key => { r with s := l.2.drainElems k eng m.ctx o (fun a => key + a % 256) l.1, done := r.done ++ [x] }
      | .error (.page va acc) =>
        let f := r.s.openFault m.ctx va acc { time := 0, task := m.taskHandle, die, agent := 3, unit := core }
        { r with s := f.2, fids := if r.fids.contains f.1 then r.fids else r.fids ++ [f.1] }
      | .error (.trap t) => { r with failed := some t.failure }
      | .error .stall => r

/-- A drain at the head of an engine's order fails (R328): what it has not written is unspecified. -/
def State.drainFails (s : State) (die core eng : Nat) (m : MCmd) (o : DrainOp) (done : List Nat) (x : Failure) : State :=
  (((s.scrambleDrain m o done).dequeue (coreIdx die core) eng).commandFails m.ctx m.fut x done.length 3 die core
    m.taskHandle).poisonCheck m.ctx x 3 die core m.taskHandle

/-- DRAIN_RUN (R328): every sector that no page fault keeps back is written; then the drain completes, waits or fails. The
sectors are separate RMWs (R135), between which the manual lets other agents' accesses fall: the model writes them all in one
turn (DESIGN CHOICE, log 94). -/
def execDrainRun (die core eng : Nat) (s : State) : Out :=
  let k := coreIdx die core
  match s.engine k eng with
  | [] => .next s
  | m :: _ =>
    match m.op with
    | .drain o =>
      if m.fids ≠ [] then .next s
      else
        let n := drainBytes o.tfmt
        let sectors := ((o.elems m.base).map fun e => e.1 / 256).eraseDups
        let r := sectors.foldl (fun r x => r.sector die core eng m o x) { s, done := o.done : DrainRun }
        match r.failed with
        | some x => .next (r.s.drainFails die core eng m o r.done x)
        | none =>
          if r.fids = [] then
            let c := countWords (o.rows * o.cols * n)
            .next ((r.s.dequeue k eng).fulfil m.ctx m.fut 1 c.1 c.2 3 die core m.taskHandle)
          else
            let written := n * ((o.elems m.base).filter fun e => r.done.contains (e.1 / 256)).length
            let c := countWords written
            let s := r.s.updEngine k eng fun l => match l with
              | [] => []
              | x :: l => { x with op := .drain { o with done := r.done }, fids := r.fids } :: l
            .next (if m.fut = 0 then s else s.devUpdate m.ctx m.fut (.progress c.1 c.2) 3 die core m.taskHandle)
    | _ => .next s

end Sys2Proof.Machine
end

