-- ==== Sys2Proof/Machine/Bulk.lean ====
section
/-! DEFINITION. Bulk copies, their sectors and ring entries, and the ring instructions (R94 to R96, R110 to R114, R329 to
R333). -/

namespace Sys2Proof.Machine

/-! ## The copy descriptor (R329) -/

/-- One side of a copy from its space code and its address field. -/
def parseSide (space x : Nat) : Option CopySide :=
  match space with
  | 0 => some (.global (BitVec.ofNat 64 x))
  | 1 => if x < 2 ^ 18 then some (.scratch x) else none
  | 2 => if x < 16 then some (.ring x) else none
  | _ => none

/-- A signed 32-bit field. -/
def sint32 (x : Nat) : Int := (BitVec.ofNat 32 x).toInt

/-- Whether a side lies in global memory. -/
def CopySide.isGlobal : CopySide → Bool
  | .global _ => true
  | _ => false

/-- The first 64 bytes of a copy descriptor (R329), with the CHAIN bit. -/
def parseCopy (x : Nat) : Except Stop (CopyDesc × Bool) :=
  let sizes := (List.range 4).map fun i => bitsOf x (423 + 16 * i) (408 + 16 * i)
  let dst := (List.range 4).map fun i => sint32 (bitsOf x (287 + 32 * i) (256 + 32 * i))
  let src := (List.range 4).map fun i => sint32 (bitsOf x (159 + 32 * i) (128 + 32 * i))
  let size0 := bitsOf x 407 384
  let drot := bitsOf x 484 482
  let srot := bitsOf x 481 479
  match parseSide (bitsOf x 473 472) (bitsOf x 63 0), parseSide (bitsOf x 475 474) (bitsOf x 127 64) with
  | some s, some d =>
    if bitsOf x 511 485 ≠ 0 ∨ size0 = 0 ∨ sizes.contains 0 ∨ s.ring?.isSome
        ∨ (d.ring?.isSome ∧ (drot ≠ 0 ∨ dst.any (· != 0)))
        ∨ (s.isGlobal ∧ srot ≠ 0) ∨ (d.isGlobal ∧ drot ≠ 0) then .error (trapOf cIllegalField)
    else
      .ok ({ src := s, dst := d, srot, drot, size0, sizes, sstride := src, dstride := dst
             scope := (Scope.ofCode (BitVec.ofNat 2 (bitsOf x 477 476))).getD .core }, x.testBit 478)
  | _, _ => .error (trapOf cIllegalField)

/-- The chained command of a descriptor (R329, R331): engine, operands, scope and future. -/
def parseChain (x : Nat) : Except Stop (Nat × MmaOp × Scope × Dword) := do
  let w := fun (lo : Nat) => BitVec.ofNat 32 (bitsOf x (lo + 31) lo)
  let target := bitsOf x 775 768
  require (bitsOf x 1023 782 == 0 && target / 64 != 3 && target % 8 == 0) cIllegalField
  match Fmt.ofCode (BitVec.ofNat 5 (bitsOf x 780 776)) with
  | none => throw (trapOf cIllegalField)
  | some f =>
    let m ← parseMma f (16 * (target / 8 % 8)) (w 640) (w 672) (w 512) (w 544) (w 576) (w 608) (x.testBit 781)
    return (target / 64, m.1, m.2, BitVec.ofNat 64 (bitsOf x 767 704))

/-- The bounding range of a scratchpad side lies in the allocation (R110). -/
def sideFits (side : CopySide) (rot : Nat) (strides : List Int) (d : CopyDesc) (size : Nat) (acc : Acc) : Except Stop Unit :=
  match side with
  | .scratch o =>
    let span := (d.sizes.zip strides).foldl
      (fun (r : Int × Int) p => (r.1 + min 0 (((p.1 : Int) - 1) * p.2), r.2 + max 0 (((p.1 : Int) - 1) * p.2))) ((o : Int), (o : Int))
    let hi := span.2 + d.size0
    let lo := if rot = 0 then span.1 else span.1 / 512 * 512
    let hi := if rot = 0 then hi else (hi + 511) / 512 * 512
    if 0 ≤ lo ∧ hi ≤ size then .ok () else .error (trapAt cScratch (BitVec.ofNat 64 o) acc)
  | _ => .ok ()

/-- RING_MISUSE with its ring (R350). -/
def ringStop (n : Nat) : Stop := .trap { cause := cRing, detail0 := BitVec.ofNat 64 n }

/-- A ring changed. -/
def State.updRing (s : State) (k n : Nat) (f : Ring → Ring) : State :=
  s.updCore k fun x => { x with rings := x.rings.zipIdx.map fun p => if p.2 = n then f p.1 else p.1 }

/-- The task whose rings a thread reaches: its own, or rank 0's in a bound group (R88). -/
def State.ringTask (s : State) (t : Thread) : Nat :=
  let lead := t.member.bind fun m => (s.group? m.1).bind fun g => g.members.head?.bind s.thread?
  (lead.map (·.task)).getD t.task

/-- RING_MISUSE unless the task owns the ring (R96). -/
def State.ownsRing (s : State) (t : Thread) (task n : Nat) : Except Stop Unit :=
  if (s.ring (t.place.coreIdx?.getD 0) n).owner = some task then .ok () else .error (ringStop n)

/-- A global side in canonical form (R329). -/
def sideCanon (acc : Acc) : CopySide → Except Stop Unit
  | .global va => canon va acc
  | _ => .ok ()

/-! ## BCPY (R329, R331) -/

/-- The group of a thread, if it is bound. -/
def State.groupOf (s : State) (t : Thread) : Option Group := t.member.bind fun m => s.group? m.1

/-- The chained command of a copy, checked at issue (R331): its engine and the command. -/
def State.chainCmd (s : State) (t : Thread) (x : Nat) : Except Stop (Nat × MCmd) := do
  let c ← parseChain x
  futAligned c.2.2.2
  let a := s.allocOf t
  let cmd : MCmd := match s.groupOf t with
    | some g => s.groupCmd g (.mma c.2.1) c.2.2.2 c.2.2.1
    | none => { op := .mma c.2.1, seq := 0, ctx := t.ctx, gid := 0, task := t.task, taskHandle := s.taskHandle t
                base := a.1 * 2 ^ 18 + a.2.1, size := a.2.2, fut := c.2.2.2, scope := c.2.2.1 }
  return (c.1, { cmd with chained := true })

/-- A group number that no group has: that of a free thread, which holds no banks. -/
def freeGroup : Nat := 1024

/-- The bank check of a chained command (R99, R113). -/
def State.chainBanks (s : State) (k : Nat) (num : Nat) (e : Nat) (m : MCmd) : Except Stop Unit :=
  match m.op with
  | .mma op => s.bankCheck k e num (rowsBanks op.row0 op.rows) false
  | _ => .ok ()

/-- The scratchpad ranges of a chained command. -/
def chainFits (m : MCmd) : Except Stop Unit :=
  match m.op with
  | .mma op => tilesFit m.size op.tiles
  | _ => .ok ()

/-- A copy handed to one of the eight copy engines of a die, which the device chooses (R25). -/
def State.addCopy (s : State) (b : BulkCopy) : State :=
  let id := s.freshId
  let q := id.2.nextSeq
  let u := q.2.freshBelow 8
  { u.2 with copies := u.2.copies ++ [{ b with id := id.1, seq := q.1, unit := u.1 }] }

/-- BCPY in one thread. -/
def State.bcpy (s : State) (t : Thread) (a : Dword) (fut : Dword) (ch : Nat := 0) : Except Stop State := do
  aligned a 128
  canon a
  let x ← s.loadNat t.ctx a 128
  let d ← parseCopy x
  let chain ← if d.2 then (s.chainCmd t x).map some else pure none
  futAligned fut
  let al := s.allocOf t
  sideFits d.1.src d.1.srot d.1.sstride d.1 al.2.2 .read
  sideFits d.1.dst d.1.drot d.1.dstride d.1 al.2.2 .write
  match chain with
  | some (_, m) => chainFits m
  | none => pure ()
  match d.1.dst with
  | .ring n => s.ownsRing t t.task n
  | _ => pure ()
  match chain with
  | some (e, m) => s.chainBanks al.1 (((s.groupOf t).map (·.num)).getD freeGroup) e m
  | none => pure ()
  sideCanon .read d.1.src
  sideCanon .write d.1.dst
  let s ← (s.threadFill t a 128 ch).initFuture t.ctx fut
  let s ← s.initFuture t.ctx ((chain.map (·.2.fut)).getD 0)
  let inScratch := fun (c : CopySide) => match c with
    | .scratch _ => true
    | _ => false
  return s.addCopy
    { id := 0, seq := 0, ctx := t.ctx, die := t.place.die, unit := 0, desc := d.1, fut, core := al.1
      base := al.1 * 2 ^ 18 + al.2.1
      size := if inScratch d.1.src || inScratch d.1.dst || chain.isSome then al.2.2 else 0
      task := t.task, taskHandle := s.taskHandle t, chain, ch }

/-- BCPY (R329). -/
def execBcpy (h : Hdr) (nf : Bool) (a c : GReg) (s : State) : Out :=
  runState (.bcpy h nf a c) s fun t s => s.bcpy t (t.pair a) (if nf then 0 else t.pair c) h.ch.toNat

/-! ## Ring entries (R95, R114) -/

/-- The copies into a ring of a task, oldest first. -/
def State.ringCopies (s : State) (task n : Nat) : List BulkCopy :=
  s.copies.filter fun b => b.task == task && b.desc.dst.ring? == some n

/-- A copy changed. -/
def State.updCopy (s : State) (id : Nat) (f : BulkCopy → BulkCopy) : State :=
  { s with copies := s.copies.map fun b => if b.id = id then f b else b }

/-- RING_ENTRY_TAKE (R95): the copy takes the entry at the producer index once FREE is above zero, and no copy before it
has entries to take. -/
def execRingEntryTake (id : Nat) (s : State) : Out :=
  match s.copies.find? (·.id == id) with
  | none => .next s
  | some b =>
    match b.desc.dst with
    | .ring n =>
      let r := s.ring b.core n
      let first := (s.ringCopies b.task n).find? fun c => decide (c.slots.length < c.entries r)
      if r.owner = some b.task ∧ 0 < r.free ∧ first.map (·.id) = some id then
        let s := s.updCopy id fun b => { b with slots := b.slots ++ [r.prod] }
        .next (s.updRing b.core n fun r =>
          { r with free := r.free - 1, writing := r.writing + 1, prod := (r.prod + 1) % (r.count + 1) })
      else .next s
    | _ => .next s

/-- Whether entry `e` of a copy has landed. -/
def BulkCopy.entryDone (b : BulkCopy) (r : Ring) (e : Nat) : Bool :=
  (b.desc.sectors.filter fun x => 256 * x / r.entryBytes == e).all b.done.contains

/-- An entry whose last byte has landed is marked in its ring: it stays so when its copy fails at a later one (R95). -/
def State.landEntry (s : State) (b : BulkCopy) (n x : Nat) : State :=
  let r := s.ring b.core n
  let e := 256 * x / r.entryBytes
  match s.copies.find? (·.id == b.id) with
  | some c => if c.entryDone r e then s.updRing b.core n fun r => { r with done := r.done ++ [(c.slots[e]?).getD 0] } else s
  | none => s

/-- Landed entries become FILLED in producer order (R95); the first argument is fuel. The entry at the fill index moves first,
so one that a failed copy had taken, and not filled, stays WRITING, and holds back every later one. -/
def State.fillRing (s : State) (k task n : Nat) : Nat → State
  | 0 => s
  | fuel + 1 =>
    let r := s.ring k n
    if r.owner = some task ∧ r.done.contains r.fill then
      let s : State := { s with copies := s.copies.map fun b =>
        (if b.task = task ∧ b.desc.dst.ring? = some n ∧ b.slots[b.landed]? = some r.fill then { b with landed := b.landed + 1 }
          else b) }
      let s := s.updRing k n fun r =>
        { r with
          writing := r.writing - 1, filled := r.filled + 1, fill := (r.fill + 1) % (r.count + 1), done := r.done.erase r.fill }
      s.fillRing k task n fuel
    else s

/-! ## Sectors (R111, R112, R330) -/

/-- A run of bytes that are consecutive on both sides and lie in one page of each. -/
structure Run where
  src : Nat
  dst : Nat
  n : Nat
  deriving DecidableEq, Repr

/-- Byte pairs as runs. -/
def toRuns : List (Nat × Nat) → List Run
  | [] => []
  | p :: l =>
    match toRuns l with
    | r :: rest =>
      if r.src = p.1 + 1 ∧ r.dst = p.2 + 1 ∧ r.src % 4096 ≠ 0 ∧ r.dst % 4096 ≠ 0 then
        { src := p.1, dst := p.2, n := r.n + 1 } :: rest
      else { src := p.1, dst := p.2, n := 1 } :: r :: rest
    | [] => [{ src := p.1, dst := p.2, n := 1 }]

/-- Where one end of a run leads: a key of physical memory, a key of a scratchpad, or a remote window. -/
inductive End where
  | mem (key : Nat)
  | scratch (key : Nat)
  | remote (node exp off : Nat)
  deriving DecidableEq, Repr

/-- One end of a run (R117, R420). -/
def State.copyEnd (s : State) (b : BulkCopy) (side : CopySide) (addr n : Nat) (acc : Acc) : Except Stop End :=
  match side with
  | .scratch _ => .ok (.scratch (b.base + addr))
  | .ring m => .ok (.scratch (b.ringKey (s.ring b.core m) addr))
  | .global _ =>
    let va := BitVec.ofNat 64 addr
    match s.locate b.ctx va acc true with
    | .error e => .error e
    | .ok (.kick _) => .error (trapAt cAccess va acc)
    | .ok (.remote node e off) => .ok (.remote node e off)
    | .ok (.mem key) => if acc = .read ∧ s.poisoned key n then .error (trapAt cUncorrectable va) else .ok (.mem key)

/-- The bytes at an end on this device. -/
def State.endBytes (s : State) (n : Nat) : End → List Byte
  | .mem key => s.bytes key n
  | .scratch key => takeBytes s.scratch key n
  | .remote .. => []

/-- Bytes written at an end: over PFT where it is remote. -/
def State.putEnd (s : State) (b : BulkCopy) (sector dst : Nat) (l : List Byte) : End → State
  | .mem key => s.putFor b.ctx key l
  | .scratch key => s.putScratch key l
  | .remote node exp off =>
    let op := s.freshId
    let s := op.2.sendFor b.ctx node (.put op.1 exp off b.ctx b.id l)
    s.updCopy b.id fun b => { b with nets := b.nets ++ [{ node, op := op.1, sector, dst, n := l.length, win := dst }] }

/-- What the read of a run leaves in the caches: its sectors in the home slices, and with a bypass hint no longer in the L1 of
the core that issued the copy (R87, R226). -/
def State.endFill (s : State) (b : BulkCopy) (va : Nat) (n : Nat) : End → State
  | .mem key =>
    let s := (s.lookUp b.ctx (BitVec.ofNat 64 va)).l2Read (some b.ctx) key n (l2Keep b.ch)
    if b.ch = 3 then s.l1Drop b.core (sectorsOf key n).contains else s
  | _ => s

/-- What the write of a run looks up. -/
def State.endLook (s : State) (b : BulkCopy) (va : Nat) : End → State
  | .scratch _ => s
  | _ => s.lookUp b.ctx (BitVec.ofNat 64 va)

/-- One run copied, or asked for over PFT where its source is remote. -/
def State.copyRun (s : State) (b : BulkCopy) (sector : Nat) (r : Run) (src dst : End) : State :=
  match src with
  | .remote node exp off =>
    let op := s.freshId
    let s := op.2.send node (.getReq op.1 exp off r.n b.ctx b.id)
    s.updCopy b.id fun b => 
      { b with nets := b.nets ++ [{ node, op := op.1, sector, dst := r.dst, n := r.n, win := r.src }] }
  | e => ((s.endFill b r.src r.n e).endLook b r.dst dst).putEnd b sector r.dst (s.endBytes r.n e) dst

/-- The ends of a list of runs: those of each, the page faults met, or the first failure. -/
def State.runEnds (s : State) (b : BulkCopy) :
    List Run → List (Run × End × End) × List (Dword × Acc) × Option Failure
  | [] => ([], [], none)
  | r :: l =>
    let rest := s.runEnds b l
    match s.copyEnd b b.desc.src r.src r.n .read, s.copyEnd b b.desc.dst r.dst r.n .write with
    | .ok x, .ok y => ((r, x, y) :: rest.1, rest.2.1, rest.2.2)
    | .error (.trap t), _ => (rest.1, rest.2.1, some t.failure)
    | .error (.page va acc), .error (.page vb bcc) => (rest.1, (va, acc) :: (vb, bcc) :: rest.2.1, rest.2.2)
    | .error (.page va acc), .ok _ => (rest.1, (va, acc) :: rest.2.1, rest.2.2)
    | _, .error (.trap t) => (rest.1, rest.2.1, some t.failure)
    | _, .error (.page va acc) => (rest.1, (va, acc) :: rest.2.1, rest.2.2)
    | _, _ => rest

/-- A copy waits: its progress words, once no sector is left that no page fault keeps back (R111). -/
def State.suspendCopy (s : State) (id : Nat) : State :=
  match s.copies.find? (·.id == id) with
  | none => s
  | some b =>
    let open' := b.desc.sectors.filter fun x => !b.done.contains x && !(b.fids.any (·.1 == x))
    if b.fids = [] ∨ open' ≠ [] ∨ b.fut = 0 then s
    else
      let c := countWords (b.desc.pairs.filter fun p => b.done.contains (p.2 / 256)).length
      s.devUpdate b.ctx b.fut (.progress c.1 c.2) 2 b.die b.unit b.taskHandle

/-- A sector has been written: ring entries fill (R95), and a copy whose other sectors all wait suspends (R111). -/
def State.sectorDone (s : State) (b : BulkCopy) (x : Nat) : State :=
  let s := (s.updCopy b.id fun b => { b with done := b.done ++ [x] }).count b.ctx fun u => { u with bcbytes := u.bcbytes + 256 }
  let s := s.tallyDie b.die 0x112 256 (some b.ctx)
  let s := s.suspendCopy b.id
  match b.desc.dst with
  | .ring n => (s.landEntry b n x).fillRing b.core b.task n 257
  | _ => s

/-- A copy meets a failure: it ends FAULTED (R112), and a poisoned source ends its context too (R432). -/
def State.copyStops (s : State) (b : BulkCopy) (x : Failure) : State :=
  ((s.copyFails b x).poisonCheck b.ctx x 2 b.die b.unit b.taskHandle).endAdoptions

/-- A sector of a copy is written, or waits for page faults, or ends the copy. -/
def State.copySector (s : State) (b : BulkCopy) (x : Nat) : State :=
  let o := s.freeOrder (·.2) (b.desc.pairs.filter fun p => p.2 / 256 == x)
  let s := o.2
  let r := s.runEnds b (toRuns o.1)
  match r.2.2 with
  | some x => s.copyStops b x
  | none =>
    if r.2.1 ≠ [] then
      let s := r.2.1.foldl
        (fun s p =>
          let f := s.openFault b.ctx p.1 p.2 { time := 0, task := b.taskHandle, die := b.die, agent := 2, unit := b.unit }
          f.2.updCopy b.id fun b => { b with fids := b.fids ++ [(x, f.1)] }) s
      s.suspendCopy b.id
    else
      let s := r.1.foldl (fun s p => s.copyRun b x p.1 p.2.1 p.2.2) s
      match s.copies.find? (·.id == b.id) with
      | some b' => if b'.nets.any (·.sector == x) then s else s.sectorDone b x
      | none => s

/-- The chained command joins its engine's order, after its second bank check (R113). -/
def State.joinChain (s : State) (b : BulkCopy) (e : Nat) (m : MCmd) : State :=
  let num := ((s.group? m.gid).map (·.num)).getD freeGroup
  match s.chainBanks b.core num e m with
  | .error (.trap t) =>
    s.commandFails m.ctx m.fut t.failure 0 3 (b.core / 64) (b.core % 64) m.taskHandle
  | _ =>
    let q := s.nextSeq
    q.2.updEngine b.core e fun l => l ++ [{ m with seq := q.1 }]

/-- A copy completes (R112): its future is FULL with the byte count, its chained command is issued, and its packet's work
ends. -/
def State.copyDone (s : State) (b : BulkCopy) : State :=
  let s : State := { s with copies := s.copies.filter (·.id != b.id) }
  let c := countWords b.desc.bytes
  let s := s.fulfil b.ctx b.fut 1 c.1 c.2 2 b.die b.unit b.taskHandle
  let s := match b.chain with
    | some (e, m) => s.joinChain b e m
    | none => s
  ((s.workEnded b.launch).sweepAllocs b.core).endAdoptions

/-- Whether a copy has nothing left to do; a chained command must find room in its engine. -/
def State.copyEnds (s : State) (b : BulkCopy) : Bool :=
  b.desc.sectors.all b.done.contains && b.nets.isEmpty
    && (match b.desc.dst with
      | .ring n => b.core != noCore && b.landed == b.entries (s.ring b.core n)
      | _ => true)
    && (match b.chain with
      | some (e, _) => decide ((s.engine b.core e).length < Config.engineEntries)
      | none => true)

/-- The sectors that a copy may write now: those of taken entries, for a ring. -/
def State.openSectors (s : State) (b : BulkCopy) : List Nat :=
  b.desc.sectors.filter fun x =>
    !b.done.contains x && !(b.fids.any (·.1 == x)) && !(b.nets.any (·.sector == x))
      && (match b.desc.dst with
        | .ring n => decide (256 * x / (s.ring b.core n).entryBytes < b.slots.length) && (s.ring b.core n).owner == some b.task
        | _ => true)

/-- BULK_COPY_SECTOR (R111): the copy writes one of the sectors that it may write now, or completes. -/
def execBulkCopySector (id sector : Nat) (s : State) : Out :=
  match s.copies.find? (·.id == id) with
  | none => .next s
  | some b =>
    match (s.openSectors b)[sector]? with
    | some x => .next (s.copySector b x)
    | none => if s.copyEnds b then .next (s.copyDone b) else .next s

/-! ## Ring instructions (R94, R332, R333) -/

/-- RCFG in one thread. -/
def State.rcfg (s : State) (t : Thread) (n : Nat) (x : Nat) : Except Stop State := do
  let task := s.ringTask t
  let k := t.place.coreIdx?.getD 0
  let r := s.ring k n
  let size := 256 * (bitsOf x 17 9 + 1)
  let count := bitsOf x 25 18
  require (bitsOf x 31 26 == 0) cIllegalField
  inAlloc (((s.task? task).bind (·.alloc)).getD (0, 0)).2 (512 * bitsOf x 8 0) (size * (count + 1))
  if (r.owner.isSome ∧ r.owner ≠ some task) ∨ r.writing ≠ 0 ∨ r.filled ≠ 0 ∨ r.taken ≠ 0
      ∨ (r.owner.isSome ∧ s.ringCopies task n ≠ []) then throw (ringStop n)
  return s.updRing k n fun _ =>
    { owner := some task, base := bitsOf x 8 0, esize := bitsOf x 17 9, count, free := count + 1 }

/-- RCFG (R332). -/
def execRcfg (h : Hdr) (n : BitVec 4) (a : GReg) (s : State) : Out :=
  runState (.rcfg h n a) s fun t s => s.rcfg t n.toNat (t.val a).toNat

/-- The 64-bit state of a ring (R94). -/
def Ring.word (r : Ring) : Dword :=
  BitVec.ofNat 64 (r.base + r.esize * 2 ^ 9 + r.count * 2 ^ 18 + r.free * 2 ^ 28 + r.filled * 2 ^ 37 + r.taken * 2 ^ 46
    + r.writing * 2 ^ 55)

/-- RCFG.GET (R332). -/
def execRcfgGet (h : Hdr) (n : BitVec 4) (d : GReg) (s : State) : Out :=
  runState (.rcfgGet h n d) s fun t s => do
    s.ownsRing t (s.ringTask t) n.toNat
    return s.updThread t.tid fun t => t.putPair d (s.ring (t.place.coreIdx?.getD 0) n.toNat).word .i32 .i32

/-- RPUSH for an agent whose first thread is `t` (R95). -/
def State.rpush (s : State) (t : Thread) (n : Nat) : Except Stop State := do
  s.ownsRing t (s.ringTask t) n
  let k := t.place.coreIdx?.getD 0
  if (s.ring k n).taken = 0 then throw (ringStop n)
  return s.updRing k n fun r => { r with taken := r.taken - 1, free := r.free + 1 }

/-- The executing free thread. -/
def State.curThread (s : State) : Option Thread := (s.actorTids s.cur).head?.bind s.thread?

/-- The first thread of an agent whose guards are true. -/
def Coll.firstActive (c : Coll) : Option Thread := c.active.head?.map (·.2)

/-- RPUSH (R95, R333): once for a fragment. -/
def execRpush (h : Hdr) (n : BitVec 4) (s : State) : Out :=
  runOnce (.rpush h n) s
    (fun s => match s.curThread with
      | some t => s.rpush t n.toNat
      | none => .ok s)
    (fun c s => match c.firstActive with
      | some t => (s.rpush t n.toNat).map fun s => (s, false)
      | none => .ok (s, false))

/-- The offset of the entry at the consumer index (R333). -/
def Ring.offset (r : Ring) : Word := BitVec.ofNat 32 (512 * r.base + r.cons * r.entryBytes)

/-- RPOP in one thread: the first of its agent takes the entry, and every other receives the same offset (R95). -/
def State.rpop (s : State) (t : Thread) (n : Nat) (d : GReg) (first : Bool) (off : Word) : Except Stop (State × Next) := do
  s.ownsRing t (s.ringTask t) n
  let k := t.place.coreIdx?.getD 0
  let r := s.ring k n
  if first ∧ r.filled = 0 then return (s, .retry (.ring n))
  let s := if first then s.updRing k n fun r =>
      { r with filled := r.filled - 1, taken := r.taken + 1, cons := (r.cons + 1) % (r.count + 1) } else s
  return (s.updThread t.tid fun t => t.put d off .raw, .seq)

/-- RPOP (R95, R333): one entry for a fragment. -/
def execRpop (h : Hdr) (n : BitVec 4) (d : GReg) (s : State) : Out :=
  let lead := (s.activeTids h (s.actorTids s.cur)).head?
  let off := ((lead.bind s.thread?).map fun t => (s.ring (t.place.coreIdx?.getD 0) n.toNat).offset).getD 0
  runFlow (.rpop h n d) s fun t s => s.rpop t n.toNat d (some t.tid == lead) off

end Sys2Proof.Machine
end

