-- ==== Sys2Proof/Machine/Boot.lean ====
section
/-! DEFINITION. The stages of boot, and the verification of a firmware image (R434 to R440). -/

namespace Sys2Proof.Machine

/-- The FAILCODE that verification of an image gives, 0 when it is accepted: the first check that fails, in the order of
R438. -/
def Boot.verify (b : Boot) (slot : Nat) : Nat :=
  match (b.flash[slot]?).join with
  | none => 5
  | some x =>
    if x.fail = 5 ∨ x.fail = 1 then x.fail
    else if x.keys.all fun k => (b.revoked[k]?).getD true then 2
    else if x.svn < b.svnFloor then 3
    else x.fail

/-- A reset makes the slot that FWACTIVATE chose active (R440), and boot starts again after stage `stage`. The fuse floor is
still to be raised by the next boot that succeeds. -/
def Boot.restart (b : Boot) (stage : Nat) (warm : Bool) : Boot :=
  let b : Boot := if b.activate then { b with slot := 1 - b.slot, activate := false, raise := true } else b
  { b with state := .booting, stage, failcode := 0, svn := 0, warm }

/-- Boot fails and goes to recovery (R435, R437). -/
def Boot.fails (b : Boot) (code : Nat) : Boot := { b with state := .recovery, failcode := code }

/-- The firmware's security version. -/
def Boot.runningSvn (b : Boot) : Nat := (((b.flash[b.slot]?).join).map (·.svn)).getD 0

/-- Bytes below a key, or from one on, dropped from a map. -/
def keepKeys {α : Type} (p : Nat → Bool) (m : SMap α) : SMap α := m.filter fun x => p x.1

/-- Cores with nothing left but their event-counter registers, which a warm reset keeps as it keeps every control
register. -/
def keepPerf (m : SMap Core) : SMap Core :=
  m.foldl (fun (m : SMap Core) p => m.set {} p.1 { perf := p.2.perf }) []

/-- Stage 4: every array is zero; a cold reset also starts device time and zeroes the usage region (R435). -/
def State.zeroArrays (s : State) : State :=
  let s : State := { s with
    mem := keepKeys (fun k => decide (Config.haKey ≤ k) && decide (k < Config.endKey)
      || s.boot.warm && decide (Config.usageBase ≤ k) && decide (k < Config.deviceBytes)) s.mem
    dirty := [], shadow := [], poison := [], tlb := [], icache := [], l1 := [], l1Old := [], l2 := [], lcL2 := [], home := []
    scratch := [], cells := []
    cores := keepPerf s.cores, lcs := [], dies := [], threads := [], groups := [], tasks := [], sets := [], ldas := [], copies := []
    net := { s.net with out := [], rmas := [], ships := [], waits := [], flows := [] } }
  if s.boot.warm then s
  else { s with
    time := 0, usage := [], counts := [], windowCounts := [], snapshot := {}, idleuj := 0, pkguj := 0,
    windowEnd := 1000000, windowFrom := 1000000 }

/-- One stage of boot (R435). -/
def State.bootStage (s : State) : State :=
  let b := s.boot
  match b.stage with
  | 0 => { s with boot := { b with stage := 1 } }
  | 1 =>
    let c := b.verify b.slot
    let d := b.verify (1 - b.slot)
    if c = 0 then { s with boot := { b with stage := 2, svn := b.runningSvn } }
    else if d = 0 then
      let b : Boot := { b with slot := 1 - b.slot, raise := false, failcode := c, stage := 2 }
      { s with boot := { b with svn := b.runningSvn } }
    else { s with boot := { b with stage := 2 }.fails d }
  | 2 =>
    if b.untrained then { s with boot := { b with stage := 3 }.fails 6 } else { s with boot := { b with stage := 3 } }
  | 3 => let s := s.zeroArrays; { s with boot := { s.boot with stage := 4 } }
  | _ =>
    let floor := if b.raise then max b.svnFloor b.runningSvn else b.svnFloor
    { s with boot := { b with stage := 5, state := .ready, svnFloor := floor, raise := false } }

end Sys2Proof.Machine
end

