-- ==== Sys2Proof/Machine/Rma.lean ====
section
/-! DEFINITION. Remote memory access: RMA.PUT, RMA.GET and RMA.FLAG, and the parts in which their bytes travel (R340, R341,
R412 to R415). -/

namespace Sys2Proof.Machine

/-! ## Parts (R412) -/

/-- The parts of a transfer: at most 4,096 bytes each, in one page of either side. The first argument is fuel. -/
def rmaParts (remote loc : Nat) : Nat → Nat → Nat → List (Nat × Nat)
  | 0, _, _ => []
  | fuel + 1, off, left =>
    if left = 0 then []
    else
      let n := min left (min (4096 - (remote + off) % 4096) (4096 - (loc + off) % 4096))
      (off, n) :: rmaParts remote loc fuel (off + n) (left - n)

/-- An operation changed. -/
def State.updRma (s : State) (id : Nat) (f : Rma → Rma) : State :=
  { s with net := { s.net with rmas := s.net.rmas.map fun r => if r.id = id then f r else r } }

/-- Operation `id`. -/
def State.rma? (s : State) (id : Nat) : Option Rma := s.net.rmas.find? (·.id == id)

/-- The end of an operation: its allocation may be released. -/
def State.rmaEnds (s : State) (r : Rma) : State :=
  let s : State := { s with net := { s.net with rmas := s.net.rmas.filter (·.id != r.id) } }
  if r.scratch then s.sweepAllocs (r.base / 2 ^ 18) else s

/-- An operation ends FAULTED: its cause in word 0, with bit 8 for an unreachable peer, and 0 in word 1 (R340, R414). -/
def State.rmaFails (s : State) (r : Rma) (x : Failure) : State :=
  ((s.rmaEnds r).commandFails r.ctx r.fut x 0 8 r.die r.core r.taskHandle).poisonCheck r.ctx x 8 r.die r.core r.taskHandle

/-- An operation whose bytes are all visible at the receiver is FULL with its byte count (R340). -/
def State.rmaCheck (s : State) (id : Nat) : State :=
  match s.rma? id with
  | none => s
  | some r =>
    if r.todo.isEmpty && r.parts.isEmpty then
      (s.rmaEnds r).fulfil r.ctx r.fut 1 (BitVec.ofNat 32 r.bytes) 0 8 r.die r.core r.taskHandle
    else s

/-- The bytes of a saved task's allocation with some replaced. -/
def spliceBytes (l : List Byte) (off : Nat) (x : List Byte) : List Byte := l.take off ++ x ++ l.drop (off + x.length)

/-- Bytes of LOCAL from an offset on read. -/
def State.rmaRead (s : State) (r : Rma) (off n : Nat) : Except Stop (List Byte) :=
  if r.scratch then
    let o := r.loc.toNat + off
    if s.inImage r then .ok (((((s.task? r.task).map (·.image.scratch)).getD []).drop o).take n)
    else .ok (takeBytes s.scratch (r.base + o) n)
  else s.loadOne r.ctx (r.loc + BitVec.ofNat 64 off) n .read

/-- Bytes of LOCAL from an offset on written. -/
def State.rmaWrite (s : State) (r : Rma) (off : Nat) (l : List Byte) : Except Stop State :=
  if r.scratch then
    let o := r.loc.toNat + off
    if s.inImage r then
      .ok (s.updTask r.task fun k => { k with image := { k.image with scratch := spliceBytes k.image.scratch o l } })
    else .ok (s.putScratch (r.base + o) l)
  else s.store r.ctx (r.loc + BitVec.ofNat 64 off) l

/-- An operation meets what stops it: a recoverable page fault of LOCAL suspends it (DEDUCED, log 97), and every other failure
ends it (R340, R425). -/
def State.rmaStops (s : State) (r : Rma) : Stop → State
  | .page va acc =>
    let f := s.openFault r.ctx va acc { time := 0, task := r.taskHandle, die := r.die, agent := 8, unit := r.core }
    f.2.updRma r.id fun r => { r with fid := some f.1 }
  | .trap t => s.rmaFails r t.failure
  | .stall => s

/-- The window that a part of REMOTE lies in, on the device of the operation: a page that is not mapped fails also where page
faults are recoverable (R340). -/
def State.rmaWindow (s : State) (r : Rma) (off : Nat) : Except Stop (Nat × Nat) :=
  let va := r.remote + BitVec.ofNat 64 off
  let acc : Acc := if r.put then .write else .read
  match s.locate r.ctx va acc true with
  | .error (.page va acc) => .error (trapAt cPageFault va acc)
  | .error e => .error e
  | .ok (.remote node e o) => if node = r.node then .ok (e, o) else .error (trapAt cRemote va acc)
  | .ok _ => .error (trapAt cAccess va acc)

/-- The message of a part: its bytes for PUT, a request for GET. -/
def State.rmaMessage (s : State) (r : Rma) (op : Nat) (p : Nat × Nat) : Except Stop NetMsg := do
  let w ← s.rmaWindow r p.1
  if r.put then
    let l ← s.rmaRead r p.1 p.2
    return .put op w.1 w.2 r.ctx r.tid l
  else
    let va := r.loc + BitVec.ofNat 64 p.1
    if !r.scratch then
      let _ ← s.key r.ctx va .write
    return .getReq op w.1 w.2 p.2 r.ctx r.tid

/-- The next part sent. -/
def State.rmaSend (s : State) (id : Nat) : State :=
  match s.rma? id with
  | none => s
  | some r =>
    match r.fid, r.todo with
    | none, p :: rest =>
      let op := s.freshId
      (match op.2.rmaMessage r op.1 p with
        | .error e => op.2.rmaStops r e
        | .ok m =>
          let e := if r.put && !r.scratch then op.2.readFill r.ctx (r.loc + BitVec.ofNat 64 p.1) p.2 else op.2
          (e.sendFor r.ctx r.node m).updRma id fun r =>
            { r with todo := rest, parts := r.parts ++ [{ op := op.1, off := p.1, n := p.2 }] })
    | _, _ => s

/-- Every part sent, up to what stops it. -/
def State.rmaGo (s : State) (id : Nat) : State :=
  let n := ((s.rma? id).map (·.todo.length)).getD 0
  (List.range n).foldl (fun s _ => s.rmaSend id) s

/-- The operation that a part of an operation number belongs to. -/
def State.rmaOf (s : State) (node op : Nat) : Option (Rma × RmaPart) :=
  s.net.rmas.findSome? fun r =>
    if r.node = node then (r.parts.find? (·.op == op)).map fun p => (r, p) else none

/-- A part is done: its bytes count, and the last one completes the operation. -/
def State.rmaPartDone (s : State) (r : Rma) (p : RmaPart) : State :=
  (s.updRma r.id fun r => { r with parts := r.parts.filter (·.op != p.op), got := r.got + p.n }).rmaCheck r.id

/-- The data of a part of RMA.GET: written to LOCAL, or asked for again once a page fault is resolved. -/
def State.rmaData (s : State) (r : Rma) (p : RmaPart) (l : List Byte) : State :=
  match s.rmaWrite r p.off l with
  | .ok s => s.rmaPartDone r p
  | .error e =>
    (s.updRma r.id fun r => { r with parts := r.parts.filter (·.op != p.op), todo := (p.off, p.n) :: r.todo }).rmaStops r e

/-! ## RMA.PUT and RMA.GET (R340) -/

/-- The fields of a descriptor: scope, scratchpad, bytes, REMOTE and LOCAL. -/
structure RmaDesc where
  scope : Scope
  scratch : Bool
  bytes : Nat
  remote : Dword
  loc : Dword
  deriving DecidableEq, Repr

/-- A descriptor read from its 64 bytes. -/
def parseRma (x : Nat) : Except Stop RmaDesc :=
  let space := bitsOf x 163 162
  let loc := bitsOf x 63 0
  match Scope.ofCode (BitVec.ofNat 2 (bitsOf x 165 164)) with
  | none => .error (trapOf cIllegalField)
  | some scope =>
    if bitsOf x 511 166 ≠ 0 ∨ bitsOf x 161 160 ≠ 0 ∨ 2 ≤ space ∨ bitsOf x 159 128 = 0 ∨ (space = 1 ∧ 2 ^ 18 ≤ loc) then
      .error (trapOf cIllegalField)
    else
      .ok { scope, scratch := space == 1, bytes := bitsOf x 159 128, remote := BitVec.ofNat 64 (bitsOf x 127 64)
            loc := BitVec.ofNat 64 loc }

/-- Where a remote address leads; one that does not translate, also for a page fault, is an ACCESS_VIOLATION (R340). -/
def State.windowOf (s : State) (t : Thread) (va : Dword) (acc : Acc) : Except Stop Target :=
  match s.locate t.ctx va acc true with
  | .error (.page ..) => .error (trapAt cAccess va acc)
  | .error (.trap x) => .error (.trap (if x.cause = cPageFault then { x with cause := cAccess } else x))
  | r => r

/-- RMA.PUT and RMA.GET in one thread: the precise checks, the future initialised, and the parts sent. A LOCAL that lies in a remote
window is not checked at issue: the copy ends FAULTED with REMOTE_WINDOW when it comes to it (DESIGN CHOICE, log 121). -/
def State.rma (s : State) (t : Thread) (put : Bool) (a fut : Dword) (ch : Nat := 0) : Except Stop State := do
  aligned a 64
  canon a
  let x ← s.loadNat t.ctx a 64
  let d ← parseRma x
  aligned fut 16 .rmw
  let al := s.allocOf t
  let lacc : Acc := if put then .read else .write
  if d.scratch ∧ al.2.2 < d.loc.toNat + d.bytes then throw (trapAt cScratch d.loc lacc)
  if !d.scratch then canon d.loc lacc
  let target ← s.windowOf t d.remote (if put then .write else .read)
  match target with
  | .remote node _ _ =>
    let s ← (s.threadFill t a 64 ch).initFuture t.ctx fut
    let id := s.freshId
    let key := al.1 * 2 ^ 18 + al.2.1
    let r : Rma :=
      { id := id.1, ctx := t.ctx, tid := t.tid, node, put, remote := d.remote, loc := d.loc, scratch := d.scratch
        task := t.task, taskHandle := s.taskHandle t, die := t.place.die, core := t.place.unit
        base := if d.scratch then key else 0, size := if d.scratch then al.2.2 else 0, bytes := d.bytes
        todo := rmaParts d.remote.toNat (if d.scratch then 0 else d.loc.toNat) (d.bytes / 2048 + 3) 0 d.bytes
        fut, scope := d.scope }
    return ({ id.2 with net := { id.2.net with rmas := id.2.net.rmas ++ [r] } }).rmaGo id.1
  | _ => throw (trapAt cAccess d.remote (if put then .write else .read))

/-- RMA.PUT (R340). -/
def execRmaPut (h : Hdr) (nf : Bool) (a c : GReg) (s : State) : Out :=
  runState (.rmaPut h nf a c) s fun t s => s.rma t true (t.pair a) (if nf then 0 else t.pair c)

/-- RMA.GET (R340). Its hint acts on the read of its descriptor, its one global read on this device: a remote window ignores it
(R87, R226). -/
def execRmaGet (h : Hdr) (nf : Bool) (a c : GReg) (s : State) : Out :=
  runState (.rmaGet h nf a c) s fun t s => s.rma t false (t.pair a) (if nf then 0 else t.pair c) h.ch.toNat

/-! ## RMA.FLAG (R341) -/

/-- RMA.FLAG in one thread: an update sent to the device of the window, behind every byte of the thread's earlier PUTs to that
device. It stalls while one of them has parts still to send (DESIGN CHOICE, log 97). An address that lies in no remote window is an
ACCESS_VIOLATION, as R340 has it for REMOTE (DESIGN CHOICE, log 120). -/
def State.rmaFlag (s : State) (t : Thread) (add : Bool) (va v : Dword) : Except Stop State := do
  let acc : Acc := if add then .rmw else .write
  aligned va 8 acc
  let target ← s.locate t.ctx va acc true
  match target with
  | .remote node e off =>
    if s.net.rmas.any fun r => r.put && r.tid == t.tid && r.node == node && !r.todo.isEmpty then throw .stall
    let refusal : FaultRec :=
      { time := 0, addr := va, task := s.taskHandle t, die := t.place.die, agent := 8, unit := t.place.unit, cause := 5, kind := 3
        acc }
    return s.sendFor t.ctx node (.flag e off t.ctx t.tid add v) (some refusal)
  | _ => throw (trapAt cAccess va acc)

/-- RMA.FLAG (R341). -/
def execRmaFlag (h : Hdr) (add : Bool) (a b : GReg) (s : State) : Out :=
  runState (.rmaFlag h add a b) s fun t s => s.rmaFlag t add (t.pair a) (t.pair b)

end Sys2Proof.Machine
end

