-- ==== Sys2Proof/Machine/System.lean ====
section
/-! DEFINITION. System instructions: special and system registers, traps and the return from them, instruction caches, time
and event counters (R343 to R359). -/

namespace Sys2Proof.Machine

/-! ## The trap frame as words (R349) -/

/-- A frame as its 512 bits. -/
def TrapFrame.toNat (f : TrapFrame) : Nat :=
  f.cause.toNat + f.state.toNat * 2 ^ 26 + f.adopt.toNat * 2 ^ 28 + f.frag.toNat * 2 ^ 32 + f.parent.toNat * 2 ^ 40
    + f.frank.toNat * 2 ^ 48 + f.skid.toNat * 2 ^ 56 + f.preds.toNat * 2 ^ 64 + f.task.toNat * 2 ^ 96
    + f.ranks.toNat * 2 ^ 128 + f.sibmask.toNat * 2 ^ 160 + f.tpc.toNat * 2 ^ 192 + f.iword.toNat * 2 ^ 256
    + f.faddr.toNat * 2 ^ 320 + f.detail0.toNat * 2 ^ 384 + f.detail1.toNat * 2 ^ 448

/-- Word `i` of a frame. -/
def TrapFrame.word (f : TrapFrame) (i : Nat) : Word := BitVec.ofNat 32 (f.toNat / 2 ^ (32 * i))

/-! ## Special and system registers (R344) -/

/-- sr.frag: fragment, parent and rank mask (R43). -/
def fragWord (g : Group) (rank : Nat) : Dword :=
  match g.frags.find? fun f => f.mask.getLsbD rank with
  | some f => BitVec.ofNat 64 (f.id + 256 * f.parent + 2 ^ 32 * f.mask.toNat)
  | none => 0

/-- The cycle count that a thread reads: that of its own core's clock (R27). -/
def State.cyclesOf (s : State) (t : Thread) : Dword := if t.section_.isSome then s.lcCycles else s.cycles

/-- sy.dbg of a context. -/
def Ctx.dbg (x : Ctx) : Dword := (if x.attached then 1 else 0) + (if x.stop then 2 else 0)

/-- The sr registers of a shipped section (R174). -/
def State.srdSection (s : State) (t : Thread) : SysReg → Dword
  | .die => BitVec.ofNat 64 t.place.die
  | .core => BitVec.ofNat 64 t.place.unit
  | .ctx => BitVec.ofNat 64 t.ctx
  | .task => (s.taskHandle t).setWidth 64
  | .time => s.time
  | .cycles => s.lcCycles
  | .dbg => ((s.ctx? t.ctx).map Ctx.dbg).getD 0
  | _ => 0

/-- The sr and sy registers of a thread of a throughput core. -/
def State.srdThread (s : State) (t : Thread) (r : SysReg) : Dword :=
  let at' := (t.place.slot?).getD (0, 0, 0, 0)
  let task := s.task? t.task
  let g := t.member.bind fun m => (s.group? m.1).map fun g => (g, m.2)
  let ctx := s.ctx? t.ctx
  match r with
  | .lane => BitVec.ofNat 64 at'.2.2.1
  | .slot => BitVec.ofNat 64 at'.2.2.2
  | .core => BitVec.ofNat 64 at'.2.1
  | .die => BitVec.ofNat 64 at'.1
  | .ctx => BitVec.ofNat 64 t.ctx
  | .task => (s.taskHandle t).setWidth 64
  | .index => (task.map (·.index)).getD 0
  | .count => BitVec.ofNat 64 ((task.map (·.count)).getD 0)
  | .group => match g with
    | some (g, _) => BitVec.ofNat 64 g.num
    | none => 0xFFFFFFFF
  | .grank => BitVec.ofNat 64 ((g.map (·.2)).getD 0)
  | .gsize => match g with
    | some (g, _) => BitVec.ofNat 64 g.members.length
    | none => 1
  | .frag => match g with
    | some (g, r) => fragWord g r
    | none => 0
  | .adopt => BitVec.ofNat 64 ((task.map (·.adopt)).getD 0)
  | .time => s.time
  | .cycles => s.cycles
  | .tls => t.tlsBase
  | .f i => (t.frame.word i.toNat).setWidth 64
  | .tpc => t.frame.tpc
  | .tpred => t.frame.preds.setWidth 64
  | .dbg => (ctx.map fun (x : Ctx) => x.dbg).getD 0
  | .bpctl => ((ctx.map fun (x : Ctx) => x.bpctl).getD (0 : Word)).setWidth 64
  | .bpa i => (ctx.bind fun (x : Ctx) => x.bpa[i.toNat]?).getD 0
  | .priv => match t.priv with
    | .u => 0
    | .h => 1
    | .f => 2

/-- The value that SRD reads. -/
def State.sysReg (s : State) (t : Thread) (r : SysReg) : Dword :=
  if t.section_.isSome then s.srdSection t r else s.srdThread t r

/-- SRD (R344). -/
def execSrd (h : Hdr) (d : GReg) (r : SysReg) (s : State) : Out :=
  runState (.srd h d r) s fun t s =>
    let v := s.sysReg t r
    .ok (s.updThread t.tid fun t => if r.wide then t.putPair d v .i32 .i32 else t.put d (loWord v) .i32)

/-- SWR in one thread: registers with a write column; sy.bpctl's reserved bits must be zero (R355). -/
def State.swr (s : State) (t : Thread) (r : SysReg) (a : GReg) : Except Stop State :=
  match r with
  | .tpc => .ok (s.updThread t.tid fun t => { t with frame := { t.frame with tpc := t.pair a } })
  | .tpred => .ok (s.updThread t.tid fun t => { t with frame := { t.frame with preds := (t.val a).setWidth 7 } })
  | .bpctl =>
    if t.val a &&& 0xE0E0E0E0 ≠ 0 then .error (trapOf cIllegalField)
    else .ok (s.updCtx t.ctx fun x => { x with bpctl := t.val a })
  | .bpa i => .ok (s.updCtx t.ctx fun x => { x with bpa := x.bpa.set i.toNat (t.pair a) })
  | _ => .error (trapOf cIllegalField)

/-- SWR (R344). -/
def execSwr (h : Hdr) (r : SysReg) (a : GReg) (s : State) : Out :=
  runState (.swr h r a) s fun t s => s.swr t r a

/-! ## Traps (R345, R351) -/

/-- TRAP (R345): SOFTWARE with the code. -/
def execTrap (h : Hdr) (imm : BitVec 24) (s : State) : Out :=
  runState (.trap h imm) s fun _ _ => .error (.trap { cause := cSoftware, detail0 := imm.setWidth 64 })

/-- BPT (R345): BREAKPOINT with the code. -/
def execBpt (h : Hdr) (imm : BitVec 24) (s : State) : Out :=
  runState (.bpt h imm) s fun _ _ => .error (.trap { cause := cBreak, detail0 := imm.setWidth 64 })

/-- Where TRET resumes a thread (R351). -/
def Thread.tretTarget (t : Thread) (next : Bool) : Dword := if next then t.frame.tpc + 8 else t.frame.tpc

/-- The check of TRET's target as a branch (R263, R351). -/
def tretStop (next : Bool) (t : Thread) : Option Stop :=
  match branchOk (t.tretTarget next) with
  | .ok _ => none
  | .error e => some e

/-- A split after TRET, where sy.tpc was written with different addresses (R43). -/
def State.splitAfter (s : State) : Actor → State
  | .frag gid fid => s.split gid fid 1
  | _ => s

/-- TRET and TRET.NEXT (R351): guards are ignored. -/
def execTret (h : Hdr) (next : Bool) (s : State) : Out :=
  match s.actorTids s.cur with
  | [] => .fault .noActor
  | first :: rest =>
    let tids := first :: rest
    let i := Instr.tret h next
    if s.waits i tids then .next s
    else
      let skid := s.skidOf s.cur
      let s := s.landDue i tids
      match (s.agentStop i tids).or (firstStop s (tretStop next) tids) with
      | some (j, e) => .next (s.stop s.cur j (encodeWord i) e)
      | none => .next ((((s.tallyIssue tids).trapReturn s.cur next).splitAfter s.cur).issued skid tids)

/-- A word whose opcode is unassigned or reserved raises ILLEGAL_OPCODE (R237): already at step 2. -/
def execUnassignedOpcode (w : Dword) (s : State) : Out :=
  runState (.unassignedOpcode w) s fun _ _ => .error (trapOf cIllegalOpcode)

/-! ## Code (R139, R356, R357) -/

/-- The physical ranges that a virtual range touches, page by page: pages that do not translate are skipped. -/
def State.rangeKeys (s : State) (c : Nat) (va : Dword) (n : Nat) : List (Nat × Nat) :=
  if n = 0 then []
  else
    let first := va.toNat / 4096
    (List.range ((va.toNat + n - 1) / 4096 - first + 1)).filterMap fun i =>
      let page := 4096 * (first + i)
      let lo := max va.toNat page
      let hi := min (va.toNat + n) (page + 4096)
      match s.locate c (BitVec.ofNat 64 lo) .fetch false with
      | .ok (.mem key) => some (key, hi - lo)
      | _ => none

/-- ICINV (R356): every line of 1,024 bytes that the range touches leaves every instruction cache. -/
def State.icinv (s : State) (c : Nat) (va : Dword) (n : Nat) : State :=
  let ks := s.rangeKeys c va n
  { s with icache := s.icache.filter fun e =>
      !(ks.any fun k => decide (k.1 / 1024 ≤ e.2.1 / 1024) && decide (e.2.1 / 1024 ≤ (k.1 + k.2 - 1) / 1024)) }

/-- ICINV (R356). -/
def execIcinv (h : Hdr) (a b : GReg) (s : State) : Out :=
  runState (.icinv h a b) s fun t s => .ok (s.icinv t.ctx (t.pair a) (t.val b).toNat)

/-- IFENCE (R357): the prefetched words are discarded. -/
def execIfence (h : Hdr) (s : State) : Out := runReg (.ifence h) s fun t => .ok { t with prefetch := [] }

/-! ## Time and event counters (R358, R359, R452) -/

/-- CLK and CLK.CYC (R358): after every earlier result has been written. -/
def execClk (h : Hdr) (cyc : Bool) (d : GReg) (s : State) : Out :=
  runState (.clk h cyc d) s fun t s =>
    if t.pend.any (!·.known) then .error .stall
    else
      let v := if cyc then s.cyclesOf t else s.time
      .ok (s.updThread t.tid fun t => t.commitAll.putPair d v .i32 .i32)

/-- PERF.RD in one thread. -/
def State.perfRd (s : State) (t : Thread) (d : GReg) (n : Nat) : State :=
  let k := (s.core (t.place.coreIdx?.getD 0)).perf.get ({} : Counter) n
  s.updThread t.tid fun t => t.putPair d k.value .i32 .i32

/-- PERF.RD (R359). -/
def execPerfRd (h : Hdr) (d : GReg) (n : BitVec 3) (s : State) : Out :=
  runState (.perfRd h d n) s fun t s => .ok (s.perfRd t d n.toNat)

/-- PERF.CFG (R359): PRIVILEGED on every throughput and latency core. -/
def execPerfCfg (h : Hdr) (n : BitVec 3) (a : GReg) (s : State) : Out :=
  runState (.perfCfg h n a) s fun _ _ => .error (.trap { cause := cPriv, detail0 := n.setWidth 64 })

end Sys2Proof.Machine
end

