-- ==== Sys2Proof/Machine/Ready.lean ====
section
/-! DEFINITION. The fetch of an agent's instruction, and when a thread or a fragment is ready (R17, R32, R139, R220). -/

namespace Sys2Proof.Machine

/-! ## Fetch (R139, R220) -/

/-- The key of the instruction cache that serves a place: a throughput core's index, or 1,024 + a latency core's. -/
def Place.cache : Place → Nat
  | .lc n => 1024 + n
  | p => p.coreIdx?.getD 0

/-- An instruction cache misses (R452). -/
def State.icMiss (s : State) (core : Nat) : State := if core < 512 then s.tallyCore core 0x012 1 else s

/-- The word that a thread fetches at its PC, which is aligned (R220): a prefetched one, one that its instruction cache
holds, or memory's. -/
def State.fetch (s : State) (t : Thread) : Except Stop Dword :=
  if t.pc.toNat % 8 ≠ 0 then .error (trapAt cMisaligned t.pc .fetch) else
  match t.prefetch.find? (·.1 == t.pc) with
  | some p => .ok p.2
  | none =>
    match s.key t.ctx t.pc .fetch with
    | .error e => .error e
    | .ok key =>
      match s.icache.find? fun e => e.1 == t.place.cache && e.2.1 == key with
      | some e => .ok e.2.2
      | none =>
        if s.poisoned key 8 then .error (trapAt cUncorrectable t.pc .fetch)
        else .ok (BitVec.ofNat 64 (leNat (s.bytes key 8)))

/-- What a fetch looks up and leaves in the home slices: nothing for a word that is prefetched, and no sector for one that the
instruction cache holds (R85, R139, R452). -/
def State.fetchFill (s : State) (t : Thread) : State :=
  if t.prefetch.any (·.1 == t.pc) then s
  else
    let e := s.lookUp t.ctx t.pc
    match s.key t.ctx t.pc .fetch with
    | .ok key =>
      if s.icache.any fun e => e.1 == t.place.cache && e.2.1 == key then e
      else (e.icMiss t.place.cache).l2Read (some t.ctx) key 8 1
    | .error _ => e

/-- Whether an instruction word issues on the memory-and-engine port (R17). Opcodes that R17's table does not name, because no
instruction has them, are taken to the arithmetic port (DESIGN CHOICE, log 105). -/
def memoryPort (w : Dword) : Bool :=
  let op := w.toNat % 256
  decide (0x70 ≤ op) && decide (op < 0xD0) || [0x60, 0x61, 0x6A, 0x6B].contains op

/-! ## Ready threads and fragments (R32) -/

/-- Whether every result of a thread is known. -/
def Thread.settled (t : Thread) : Bool := t.pend.all (·.known)

/-- Whether an order of a matrix engine has room for a command of a thread's group (R21). -/
def State.engineTakes (s : State) (t : Thread) (eng : BitVec 2) : Bool :=
  match t.place.coreIdx? with
  | some k => decide ((s.engine k eng.toNat).length < Config.engineEntries)
  | none => true

/-- Whether a part of an instruction would not stall: it has its effect, or it traps. -/
def goesOn {α : Type} (x : Except Stop α) : Bool :=
  match x with
  | .error .stall => false
  | _ => true

/-- Whether both steps of a QPOP would not stall (R296): the second counts once its claim has been made. -/
def State.popGoesOn (s : State) (t : Thread) (pd : PReg) (d : GReg) (obj : Dword) (b : Option Nat) : Bool :=
  goesOn (s.popStep t obj b) && goesOn (s.popEntry t pd d)

/-- Whether a thread-local access at an offset would not stall: it goes on, or its own checks stop it (R103). -/
def Thread.localGoesOn (t : Thread) (o : Word) (n : Nat) (f : Nat → Bool) : Bool :=
  match aligned (offAddr o) n >>= fun _ => localRange t o n with
  | .error _ => true
  | .ok _ => f o.toNat

/-- Whether the unit that an instruction needs accepts it from a thread whose guard is true (R32): engines with room (R21),
the copies of a tag (R106), the engine of DSC.PATH (R192), the earlier results of CLK (R358) and of a thread that parks
(R225), the earlier parts of RMA.FLAG (R341), and the earlier source reads of bytes that the instruction accesses (R123). -/
def State.unitAccepts (s : State) (t : Thread) : Instr → Bool
  | .accZero _ e _ | .accLd _ e .. | .accRd _ e .. | .mma _ _ e .. | .mmas _ _ e .. | .accDrain _ e .. => s.engineTakes t e
  | .lda _ sz tag d a b => goesOn (s.ldaSource t sz tag d a b)
  | .dscPath .. =>
    match t.place.coreIdx? with
    | some k => (s.core k).descent.holder != t.member.map (·.1) || (s.core k).descent.cmds.isEmpty
    | none => true
  | .clk .. => t.settled
  | .wait _ _ d a b off => goesOn (s.wait t d (globalAddr t a off 16) ((t.val b).toNat % 2 ^ 20))
  | .waitBit _ a b => goesOn (s.waitBit t (t.pair a) (t.val b).toNat)
  | .fnew _ o a => goesOn (s.fnew t o (t.pair a))
  | .join _ a => goesOn (s.join t (t.pair a))
  | .leave _ a => goesOn (s.leave t (t.pair a))
  | .qpop _ pd d a b => s.popGoesOn t pd d (t.pair a) (some (t.val b).toNat)
  | .qpopMin _ pd d a => s.popGoesOn t pd d (t.pair a) none
  | .call .. | .callx .. => goesOn (s.pushReturn t (t.pc + 8))
  | .ret .. => goesOn (s.popReturn t)
  | .rmaFlag _ _ a _ =>
    match s.locate t.ctx (t.pair a) .read false with
    | .ok (.remote node ..) => !(s.net.rmas.any fun r => r.put && r.tid == t.tid && r.node == node && !r.todo.isEmpty)
    | _ => true
  | .ld _ sz _ _ _ a off => goesOn (aligned (globalAddr t a off sz.bytes) sz.bytes >>= fun _ =>
      s.dataLoad t (globalAddr t a off sz.bytes) sz.bytes)
  | .st _ sz _ _ a b off => goesOn (aligned (globalAddr t a off sz.bytes) sz.bytes >>= fun _ =>
      s.dataStore t (globalAddr t a off sz.bytes) (storeBytes t b sz) true)
  | .ldl _ sz _ _ _ a off => t.localGoesOn (localOff t a off sz.bytes) sz.bytes fun o => goesOn (s.localLoad t o sz.bytes)
  | .stl _ sz _ _ a b off =>
    t.localGoesOn (localOff t a off sz.bytes) sz.bytes fun o => goesOn (s.localStore t o (storeBytes t b sz))
  | .atom _ op sz _ _ _ a b | .red _ op sz _ _ a b => goesOn (s.atomGlobal t op sz a b)
  | _ => true

/-- Whether an agent may issue: none of its threads is parked, trapped or halted (R32). -/
def State.mayIssue (s : State) (a : Actor) : Bool :=
  let ready := fun (t : Thread) => t.status == .ready && !t.halted
  match a with
  | .thread tid =>
    (s.thread? tid).any fun t => ready t && t.member.isNone &&
      (match t.place with
       | .core d c _ _ => !(s.core (coreIdx d c)).stopping
       | .lc n => (s.lc n).running == some tid
       | _ => false)
  | .frag gid fid =>
    (s.group? gid).any fun g => !g.saved && !(s.core (coreIdx g.die g.core)).stopping &&
      (g.frag? fid).any fun f => f.state == .active && !f.halted &&
        (g.threadsOf f.mask).all fun i => (s.thread? i).any ready
  | .queue q => (s.queue q).state == .running && (s.queue q).block.isNone
  | .unit _ | .none => false

/-- The word that an agent of a core would issue: none where its fetch stops it. -/
def State.nextWord (s : State) (t : Thread) : Option Dword :=
  match s.fetch t with
  | .ok w => some w
  | .error _ => none

/-- Whether an agent is ready (R32): it may issue, its next instruction's sources are available, its unit accepts it, and no
trap of it waits for results (R225). -/
def State.ready (s : State) (a : Actor) : Bool :=
  s.mayIssue a &&
    let ts := (s.actorTids a).filterMap s.thread?
    (ts.all fun t => !t.trapWait || t.settled) &&
      match ts.head?.bind s.nextWord with
      | none => true
      | some w =>
        match decode w with
        | .error _ => true
        | .ok i =>
          !s.waits i (ts.map (·.tid)) && ts.all fun t => !(i.hdr?.all t.guards) || s.unitAccepts t i

/-- The agents of a core: its free threads and the fragments of its groups. -/
def State.agentsOn (s : State) (d c : Nat) : List Actor :=
  (s.threads.filterMap fun t => match t.place with
    | .core d' c' _ _ => if d' = d ∧ c' = c ∧ t.member = none then some (.thread t.tid) else none
    | _ => none)
    ++ (s.groups.filter fun g => g.die == d && g.core == c && !g.saved).flatMap fun g => g.frags.map fun f => .frag g.gid f.id

/-- Whether a core has a ready thread (R59). -/
def State.hasReady (s : State) (k : Nat) : Bool := (s.agentsOn (k / 64) (k % 64)).any s.ready

/-- A ready thread or fragment of a core. -/
structure Ready where
  actor : Actor
  prio : Nat
  age : Nat
  lane : Nat
  slot : Nat
  pc : Dword
  free : Bool
  deriving DecidableEq, Repr

/-- An agent as its core orders it: a fragment became ready with the last of its threads (R34). A fragment of threads of
different priority levels takes the level of its lowest rank, which R33 leaves open (DESIGN CHOICE, log 106). -/
def State.readyOf (s : State) (a : Actor) : Option Ready :=
  let ts := (s.actorTids a).filterMap s.thread?
  ts.head?.map fun t =>
    let at' := (t.place.slot?.map (·.2.2)).getD (0, 0)
    { actor := a, prio := t.prio, age := ts.foldl (fun n t => max n t.age) 0, lane := at'.1, slot := at'.2, pc := t.pc
      free := t.member.isNone }

/-- Whether the next instruction of an agent belongs to a port (R17); a fetch that fails is taken on either port. -/
def State.onPort (s : State) (mem : Bool) (a : Actor) : Bool :=
  match ((s.actorTids a).head?.bind s.thread?).bind s.nextWord with
  | some w => memoryPort w == mem
  | none => true

/-- The ready threads and fragments of a core whose next instruction belongs to a port. -/
def State.readyOn (s : State) (d c : Nat) (mem : Bool) : List Ready :=
  ((s.agentsOn d c).filter fun a => s.onPort mem a && s.ready a).filterMap s.readyOf

/-- The end of a stall, seen when its core next forms a beam (R34; DESIGN CHOICE, log 98): an agent of the core that may issue
and whose source or unit was missing, and now is not, becomes ready now. -/
def State.noteStalls (s : State) (d c : Nat) : State :=
  let l := (s.agentsOn d c).filter s.mayIssue
  let stalled := fun (a : Actor) => (s.actorTids a).any fun i => (s.thread? i).any (·.stalled)
  let begins := l.filter fun a => !s.ready a && !stalled a
  let ends := l.filter fun a => s.ready a && stalled a
  let s1 := s.updThreads (begins.flatMap s.actorTids) fun t => { t with stalled := true }
  if ends.isEmpty then s1
  else { s1.updThreads (ends.flatMap s.actorTids) fun t => { t with stalled := false, age := s.tick } with tick := s.tick + 1 }

end Sys2Proof.Machine
end

