-- ==== Sys2Proof/Machine/Events.lean ====
section
/-! DEFINITION. Events of threads, tasks, the scheduler, the latency cores and the fault machinery (R57 to R61, R69, R169 to
R178, R423, R424, R429 to R432, R461). -/

namespace Sys2Proof.Machine

/-! ## Parked threads (R69, R80) -/

/-- Whether what a thread waits for holds. The conditions that another event completes by itself are not tested here. A saved
task keeps its rings in its image (R62, R102). -/
def State.condMet (s : State) (t : Thread) : Cond → Bool
  | .future va _ =>
    match s.key t.ctx va .read with
    | .ok key => s.futureState key != 0
    | .error _ => false
  | .bit va n =>
    match s.key t.ctx va .read with
    | .ok key => (s.num key 8).testBit n
    | .error _ => false
  | .barrier va gen =>
    match s.key t.ctx va .read with
    | .ok key => BitVec.ofNat 32 (s.num (key + 8) 4) != gen
    | .error _ => false
  | .ring n =>
    match t.place.coreIdx? with
    | some k => decide (0 < (s.ring k n).filled)
    | none => (s.task? t.task).any fun k => k.image.rings.any fun r => r.1 == n && decide (0 < r.2.filled)
  | .tag g m => decide (s.tagCount t.tid g ≤ m)
  | .copies => !(t.pend.any (!·.known)) && !(s.ldas.any fun l => l.tid == t.tid && l.failed.isNone)
  | .bind | .meet | .refused _ | .shipRun | .unit _ => false

/-- Whether an instruction that parks for a condition is complete when it holds. -/
def Cond.completes : Cond → Bool
  | .bit .. | .barrier .. => true
  | _ => false

/-- A thread whose condition holds waits for its fragment no longer (R47). -/
def State.wakeThread (s : State) (tid : Nat) : State :=
  match s.thread? tid with
  | none => s
  | some t =>
    match t.status with
    | .parked c => if s.condMet t c then s.condDone tid c.completes else s
    | _ => s

/-- THREAD_WAKE (R47, R69, R80): the conditions of an agent's parked threads are tested, and it goes on once all of them
hold. -/
def execThreadWake (a : Actor) (s : State) : Out := .next ((s.actorTids a).foldl State.wakeThread s)

/-- Whether a thread's WAIT has reached its deadline with its future EMPTY (R68, R69). -/
def State.waitExpired (s : State) (t : Thread) : Bool :=
  match t.status with
  | .parked (.future va (some limit)) => decide (limit ≤ s.elapsed) && !s.condMet t (.future va none)
  | _ => false

/-- WAIT_TIMEOUT (R68, R69): the threads of an agent whose deadline has passed evaluate their WAIT again. -/
def execWaitTimeout (a : Actor) (s : State) : Out :=
  let tids := (s.actorTids a).filter fun i => (s.thread? i).any s.waitExpired
  .next (tids.foldl (fun s i => s.condDone i false) (s.updThreads tids fun t => { t with timedOut := true }))

/-! ## Admission (R57 to R61, R431, R461) -/

/-- The context that a core runs: the one whose core set holds it. -/
def State.coreCtx (s : State) (k : Nat) : Option Nat :=
  (s.ctxs.find? fun p => p.2.any fun x => x.cores.contains k).map (·.1)

/-- Whether a core admits tasks: it belongs to a context and PREEMPT has not stopped it (R429). -/
def State.admits (s : State) (k : Nat) : Bool := (s.coreCtx k).isSome && !(s.core k).stopping

/-- The record that keeps a core in held admission (R58). -/
def State.heldRecord (s : State) (k : Nat) : Option QRec := (s.core k).queue.find? (·.heldAt.isSome)

/-- One entry of the pool placed on a core, if it fits. -/
def State.placeEntry (s : State) (k : Nat) : PoolEnt → Option State
  | .task id => s.placeSaved id k
  | .record r =>
    match placeThreads (s.windows (k / 64) (k % 64)) r.hdr with
    | some slots => s.startFrom .pool r k slots false 0 []
    | none => none

/-- The oldest entry of the runnable pool that fits a core of the context (R431, R461). -/
def State.placePool (s : State) (k : Nat) : Option State :=
  if !s.admits k || (s.heldRecord k).isSome then none
  else
    match (s.coreCtx k).bind s.ctx? with
    | none => none
    | some x => x.pool.findSome? (s.placeEntry k)

/-- A record of a core's queue started, if it fits: it is no longer passed over. -/
def State.startQueued (s : State) (k : Nat) (r : QRec) : Option State :=
  match placeThreads (s.windows (k / 64) (k % 64)) r.hdr with
  | none => none
  | some slots =>
    (s.startFrom (.queue k) r k slots false 0 []).map fun s =>
      s.setRecord (.queue k) r.ctx r.num fun r => some { r with passed := none, heldAt := none }

/-- A record that did not fit has been passed over (R58, log 15). -/
def State.passOver (s : State) (k : Nat) (r : QRec) : State :=
  s.setRecord (.queue k) r.ctx r.num fun r => some { r with passed := r.passed.or (some s.elapsed) }

/-- The first of a list of records that fits is started; those before it are passed over. -/
def State.admitFrom (s : State) (k : Nat) : List QRec → State
  | [] => s
  | r :: l =>
    match s.startQueued k r with
    | some s => s
    | none => (s.passOver k r).admitFrom k l

/-- TASK_ADMIT (R58): the runnable pool first (R431), then the first of the 8 records nearest the head that fits, or the
held record alone. -/
def execTaskAdmit (die core : Nat) (s : State) : Out :=
  let k := coreIdx die core
  if !s.admits k then .next s
  else
    match s.placePool k with
    | some s => .next s
    | none =>
      match s.heldRecord k with
      | some r => .next ((s.startQueued k r).getD s)
      | none => .next (s.admitFrom k ((s.core k).queue.take 8))

/-- TASK_PLACE (R431): the oldest entry of the runnable pool that the core has room for. -/
def execTaskPlace (die core : Nat) (s : State) : Out := .next ((s.placePool (coreIdx die core)).getD s)

/-- HELD_ADMISSION (R58): a record that has been passed over for 64 µs holds its core. -/
def execHeldAdmission (die core : Nat) (s : State) : Out :=
  let k := coreIdx die core
  let late := fun (r : QRec) => r.passed.any fun t => decide (t + 64000 ≤ s.elapsed)
  match (s.core k).queue.find? late with
  | some r =>
    if (s.heldRecord k).isSome then .next s
    else .next (s.setRecord (.queue k) r.ctx r.num fun r => some { r with heldAt := some s.elapsed })
  | none => .next s

/-- A record dropped: its future CANCELLED with GANG_UNPLACEABLE, and its owned futures without an owner (R61, R65). -/
def State.dropGang (s : State) (k : Nat) (r : QRec) : State :=
  let s := s.setRecord (.queue k) r.ctx r.num fun _ => none
  let s := s.fulfil r.ctx r.fut 3 3 0 0 (k / 64) (k % 64) noOwner
  (s.rewriteOwned r.ctx (r.owned.filter (· != r.fut)) noOwner noOwner (k / 64) (k % 64)).workEnded r.launch

/-- GANG_BOUND_EXPIRY (R61): the held gang record still does not fit at the end of its bound. -/
def execGangBoundExpiry (die core : Nat) (s : State) : Out :=
  let k := coreIdx die core
  match s.heldRecord k with
  | some r =>
    let bound := 1000 * ((s.ctx? r.ctx).map (·.gangb)).getD 0
    if r.kind = .gang ∧ r.heldAt.any (fun t => decide (t + bound ≤ s.elapsed)) ∧ (s.startQueued k r).isNone then
      .next (s.dropGang k r)
    else .next s
  | none => .next s

/-- SPILL_REFILL (R57): a queue of fewer than 512 records takes the head of its spill area. -/
def execSpillRefill (die core : Nat) (s : State) : Out :=
  let k := coreIdx die core
  match (s.core k).spill with
  | r :: rest =>
    if (s.core k).queue.length < 512 then .next (s.updCore k fun c => { c with queue := c.queue ++ [r], spill := rest })
    else .next s
  | [] => .next s

/-! ## Stealing (R59) -/

/-- A record that a thief takes: the whole of it with its handle rewritten, or the upper half of its range as a record of
its own. -/
def State.steal (s : State) (thief victim : Nat) (r : QRec) : State :=
  let n := r.stop - r.next
  if r.kind = .range ∧ 2 ≤ n then
    let num := s.freshRecord r.ctx
    let mid := r.stop - n / 2
    let s := num.2.setRecord (.queue victim) r.ctx r.num fun r => some { r with stop := mid }
    let part : QRec := { r with num := num.1, next := mid, owned := [], passed := none, heldAt := none }
    s.updCore thief fun c => { c with queue := c.queue ++ [part] }
  else
    let s := s.setRecord (.queue victim) r.ctx r.num fun _ => none
    let s := s.updCore thief fun c => { c with queue := c.queue ++ [{ r with passed := none, heldAt := none }] }
    s.rewriteRecord r (recordHandle (thief / 64) (thief % 64) r.num)

/-- TASK_STEAL (R59): a core with no ready thread and an empty queue takes, from another core of its die and context, the
record nearest the tail that is not a gang. -/
def execTaskSteal (die core victim : Nat) (s : State) : Out :=
  let k := coreIdx die core
  let v := coreIdx die victim
  if k = v || !s.admits k || !s.admits v || s.coreCtx k != s.coreCtx v || s.hasReady k || !(s.core k).queue.isEmpty then .next s
  else
    match ((s.core v).queue.filter fun r => r.kind != .gang).getLast? with
    | some r => .next ((s.steal k v r).tallyCore k 0x044 1)
    | none => .next s

/-! ## Pre-emption (R102, R429, R430) -/

/-- The tasks on a core. -/
def State.tasksOn (s : State) (k : Nat) : List Task :=
  s.tasks.filter fun t => match t.loc with
    | .core d c => coreIdx d c == k
    | .saved => false

/-- Tasks tied by a lend to those of a list (R102). -/
def State.lendTied (s : State) (k : Nat) (ids : List Nat) : List Nat :=
  let taskOf := fun (num : Nat) => (s.groups.filter fun g => coreIdx g.die g.core == k && !g.saved && g.num == num).flatMap
    fun g => (g.members.filterMap s.thread?).map (·.task)
  (s.core k).banks.foldl
    (fun l b =>
      match b.owner, b.lendee with
      | some o, some e =>
        let both := taskOf o ++ taskOf e
        if both.any l.contains then both.foldl (fun l i => if l.contains i then l else l ++ [i]) l else l
      | _, _ => l) ids

/-- The lend set of a task, by its lowest task: none where it has no lends (R102). -/
def State.lendSetOf (s : State) (k : Nat) (id : Nat) : Option Nat :=
  let all := (List.range 24).foldl (fun l _ => s.lendTied k l) [id]
  if all = [id] then none else all.foldl (fun (b : Option Nat) i => some (match b with
    | some j => min i j
    | none => i)) none

/-- Steps 3 and 4 of R429: every task of the core is saved and put in the pool, the core's L1s become empty (R86), and the core
leaves the set. -/
def State.vacate (s : State) (c k : Nat) : State :=
  let ts := s.tasksOn k
  let sets := ts.map fun t => (t.id, s.lendSetOf k t.id)
  let s := ((sets.foldl (fun s p => s.saveTask p.1 true p.2) s).addCounts c).l1Drop k fun _ => true
  let s := s.updCore k fun x => { x with stopping := false }
  let s := s.updCtx c fun x =>
    { x with
      pool := x.pool ++ ts.map fun t => .task t.id
      cores := x.cores.filter (· != k), preempting := x.preempting.filter (· != k) }
  match s.ctx? c with
  | some x => if x.preempting.isEmpty then s.updFunc x.preemptFunc fun f => { f with stat := 2 } else s
  | none => s

/-- PREEMPT_SAVE (R429): a core that PREEMPT has stopped is vacated once nothing is left to wait for; the requests of its
threads that other devices hold are asked back (R170). -/
def execPreemptSave (die core : Nat) (s : State) : Out :=
  let k := coreIdx die core
  match s.coreCtx k with
  | some c =>
    if !(s.core k).stopping then .next s
    else if (s.tasksOn k).all fun t => s.saveReady t.id then .next (s.vacate c k)
    else .next (s.askBack ((s.threads.filter fun t => t.place.coreIdx? == some k).map (·.tid)))
  | none => .next s

/-! ## Latency cores (R169 to R178) -/

/-- Whether a request queue has a free entry; the request that runs keeps its entry (DEDUCED, log 16). -/
def Lc.room (l : Lc) : Bool := decide (l.queue.length + (if l.running.isSome then 1 else 0) < Config.lcEntries)

/-- A sender's request has been accepted: it parks until the section ends, or its instruction is complete (R166, R170). -/
def State.shipIssued (s : State) (tid : Nat) (kind : ShipKind) : State :=
  if (s.thread? tid).any (·.unsent) then
    if kind = .w then (s.updThread tid fun t => { t with status := .parked .shipRun }).endAdoptions
    else s.condDone tid true
  else s

/-- A request that a home accepts: its sender learns of it, by an acknowledgement where it is on another device (R413). -/
def State.acceptShip (s : State) (lc : Nat) (r : ShipReq) : State :=
  let s := s.updLc lc fun l => { l with queue := l.queue ++ [r] }
  match r.sender with
  | .remote node _ seq => s.reply node (.ack [seq])
  | .thread tid => s.shipIssued tid r.kind

/-- A sender whose request has been refused parks until it is granted (R170). -/
def State.shipRefused (s : State) (tid lc : Nat) : State :=
  (s.updThread tid fun t => if t.unsent then { t with status := .parked (.refused lc) } else t).endAdoptions

/-- A section whose own request has been refused ends as a section fault, and the token of SHIP.C is FAULTED (R170). -/
def State.shipWaitEnds (s : State) (t : Thread) (x : SectionInfo) (r : ShipReq) : State :=
  let s := if r.kind = .c then s.fulfil r.ctx r.token 2 2 0x0C 5 t.place.die t.place.unit r.task else s
  s.sectionFault t x { cause := cShipWait }

/-- The number of a request that no home keeps is noted, so that the same message is answered in the same way again (R413). -/
def State.noteFull (s : State) (node seq : Nat) : State :=
  let f := s.net.flow node
  { s with net := s.net.setFlow { f with full := f.full ++ [seq] } }

/-- A request that its home refuses: it waits in the order of refusals, and its sender parks; a section's own request ends
the section (R170). One of a section on another device does not wait either: that device learns that the home is full, and the
request is dropped. One whose sender has ended since is dropped, and a token of SHIP.C stays EMPTY (DESIGN CHOICE, log 109). -/
def State.refuseShip (s : State) (lc : Nat) (r : ShipReq) : State :=
  let s := s.tallyDie (lc / 8) 0x111 1 (some r.ctx)
  let wait := s.updLc lc fun l => { l with refused := l.refused ++ [r] }
  match r.sender with
  | .remote node _ seq => (if r.waits then wait else s.noteFull node seq).reply node (.nack seq false)
  | .thread tid =>
    match s.thread? tid with
    | none => s
    | some t =>
      match t.section_ with
      | none => wait.shipRefused tid lc
      | some x => s.shipWaitEnds t x r

/-- SHIP_ARRIVAL (R169, R170): the oldest request offered to a home is accepted, or refused where its queue is full or
others already wait. -/
def execShipArrival (lc : Nat) (s : State) : Out :=
  match (s.lc lc).offers with
  | [] => .next s
  | r :: rest =>
    let s := s.updLc lc fun l => { l with offers := rest }
    if (s.lc lc).room && (s.lc lc).refused.isEmpty then .next (s.acceptShip lc r) else .next (s.refuseShip lc r)

/-- SHIP_GRANT (R170): an entry that is free goes to the oldest refused sender. -/
def execShipGrant (lc : Nat) (s : State) : Out :=
  match (s.lc lc).refused with
  | [] => .next s
  | r :: rest =>
    if (s.lc lc).room then .next ((s.updLc lc fun l => { l with refused := rest }).acceptShip lc r) else .next s

/-- The code of a request's kind in g9 (R172). -/
def ShipKind.code : ShipKind → Nat
  | .w => 0 | .c => 1 | .o => 2

/-- The registers of a section at its entry (R172). -/
def sectionRegs (r : ShipReq) : List Reg :=
  let w := (List.range 6).map (fun i => (r.args[i]?).getD 0)
    ++ [loWord r.lock, hiWord r.lock, r.task, BitVec.ofNat 32 (r.kind.code + 4 * r.m)]
  w.map (fun v => ({ val := v } : Reg)) ++ List.replicate 245 ({} : Reg)

/-- A section at its entry (R172). -/
def sectionThread (s : State) (lc tid : Nat) (r : ShipReq) : Thread :=
  { tid, task := tid, ctx := r.ctx, place := .lc lc, pc := r.entry, regs := sectionRegs r, tlsBytes := 61440
    spillBytes := 4096, section_ := some { req := r, start := s.elapsed }, age := s.tick }

/-- SECTION_START (R171, R172): the request at the head of a queue runs; a misaligned entry faults at once. -/
def execSectionStart (lc : Nat) (s : State) : Out :=
  match (s.lc lc).running, (s.lc lc).queue with
  | none, r :: rest =>
    let id := s.freshId
    let t := sectionThread s lc id.1 r
    let s : State := { id.2 with threads := id.2.threads ++ [t] }
    let s := (s.updLc lc fun l => { l with queue := rest, running := some t.tid }).tallyDie (lc / 8) 0x110 1 (some r.ctx)
    if r.entry.toNat % 8 = 0 then .next s
    else
      match t.section_ with
      | some x => .next (s.sectionFault t x { cause := cMisaligned, acc := .fetch })
      | none => .next s
  | _, _ => .next s

/-- SECTION_TIME_LIMIT (R178): a section that has run its context's limit ends as a section fault. -/
def execSectionTimeLimit (lc : Nat) (s : State) : Out :=
  match (s.lc lc).running.bind s.thread? with
  | some t =>
    (match t.section_ with
    | some x =>
      let limit := 1000 * ((s.ctx? t.ctx).map (·.tlim)).getD 0
      if x.start + limit ≤ s.elapsed then .next (s.sectionFault t x { cause := cSoftware, detail0 := 1 }) else .next s
    | none => .next s)
  | none => .next s

/-! ## Fault records and their routes (R423, R424) -/

/-- FAULT_RECORD_WRITE (R423). -/
def execFaultRecordWrite (c : Nat) (s : State) : Out := .next (s.writeRecord c)

/-- A claimed record of a context that has ended goes to the host (R424). -/
def State.orphanToHost (s : State) (c seq : Nat) : State :=
  match s.orphans.find? fun o => o.ctx == c && o.claim.seq == seq with
  | none => s
  | some o => ({ s with orphans := s.orphans.erase o } : State).interrupt o.irq.func o.irq.vector

/-- A claimed record goes to the host, and leaves the firmware's hands. -/
def State.claimToHost (s : State) (c seq : Nat) : State :=
  match s.ctx? c with
  | none => s.orphanToHost c seq
  | some x =>
    match x.claims.find? (·.seq == seq) with
    | none => s.orphanToHost c seq
    | some k =>
      let s := s.updCtx c fun x => { x with claims := x.claims.filter (·.seq != seq) }
      if k.host then s.interrupt x.func x.fvec else s

/-- ROUTING_TIMEOUT (R424): 100 µs have passed without a RESOLVE of a record that firmware claimed before the host. -/
def execRoutingTimeout (c seq : Nat) (s : State) : Out :=
  let late := ((s.ctx? c).map (·.claims)).getD [] |>.any fun k =>
    k.seq == seq && k.host && decide (k.since + 100000 ≤ s.elapsed)
  let orphan := (s.orphans.find? fun o => o.ctx == c && o.claim.seq == seq).any fun o =>
    decide (o.claim.since + 100000 ≤ s.elapsed)
  if late then .next (s.claimToHost c seq) else if orphan then .next (s.orphanToHost c seq) else .next s

/-- The contexts whose IDs the entries of an array with this place carry (R432): none for an entry that nothing fills. The arrays of a
core hold the context that it last ran (R93), those of a latency core the context of its section. -/
def State.entryOwner (s : State) : ArrayEntry → Option (Option Nat)
  | .home x => (s.home.find? (·.sector == x)).map (·.owner)
  | .copy d x => (s.l2.find? fun c => c.die == d && c.sector == x).map (·.owner)
  | .l1 k x => (s.l1.find? fun c => c.core == k && c.sector == x).map (·.owner)
  | .lcL2 n x => (s.lcL2.find? fun c => c.core == n && c.sector == x).map (·.owner)
  | .core d c => (s.core (coreIdx d c)).lastCtx.map some
  | .lc n => ((s.lc n).running.bind s.thread?).map fun t => some t.ctx

/-- An uncorrectable error in an entry: its context ends, with a record of KIND 5; one of no context stops the device (R432). -/
def State.entryLost (s : State) : Option Nat → State
  | some c => ((s.postRecord c { time := 0, agent := 9, cause := 0x11, kind := 5 }).writeRecords c).endContext c
  | none => s.stopDevice

/-- SCRUB_UNCORRECTABLE (R432): a sector of HBM is poisoned; an entry of a context ends that context; an entry of no context stops
the device; where nothing fills the entry, nothing is lost. UNCORR of the health record follows at the window end (R456). -/
def execScrubUncorrectable (hbm : Option Nat) (entry : Option ArrayEntry) (s : State) : Out :=
  let s : State := { s with uncorr := s.uncorr + 1 }
  match hbm, entry with
  | some pa, _ => .next { s with poison := keyInsert s.poison (pa / 256) }
  | none, some e =>
    (match s.entryOwner e with
    | some o => .next (s.entryLost o)
    | none => .next s)
  | none, none => .next s.stopDevice

end Sys2Proof.Machine
end

