-- ==== Sys2Proof/Machine/Descent.lean ====
section
/-! DEFINITION. The descent engine: tree descriptors, descents, path words and gradients (R182 to R193, R334 to R337). -/

namespace Sys2Proof.Machine

/-! ## The holder and its tree (R182 to R184, R334) -/

/-- The bytes of a node's weights (R184). -/
def weightBytes (f : Fmt) (d : Nat) : Nat :=
  match f with
  | .bf16 => 2 * d
  | .e2m1 => d / 2 + d / 32
  | _ => d

/-- The offset of a node's bias (R184). -/
def biasOff (f : Fmt) (d : Nat) : Nat := roundUp (weightBytes f d) 16

/-- A tree descriptor (R183). -/
def parseTree (x : Nat) : Except Stop TreeCfg :=
  let dim := 64 * (bitsOf x 205 200 + 1)
  let depth := bitsOf x 196 192
  let ns := bitsOf x 159 128
  match Fmt.ofCode (BitVec.ofNat 5 (bitsOf x 212 208)) with
  | none => .error (trapOf cIllegalField)
  | some f =>
    if bitsOf x 511 213 ≠ 0 ∨ bitsOf x 207 206 ≠ 0 ∨ bitsOf x 199 197 ≠ 0 ∨ !(f = .bf16 || f = .e4m3 || f = .e5m2 || f = .e2m1)
        ∨ depth = 0 ∨ 20 < depth ∨ ns % 16 ≠ 0 ∨ ns < biasOff f dim + 4 ∨ bitsOf x 63 0 % 256 ≠ 0 then
      .error (trapOf cIllegalField)
    else
      .ok { fmt := f, dim, depth, lstride := bitsOf x 191 160, nstride := ns, leafBase := BitVec.ofNat 64 (bitsOf x 127 64)
            nodeBase := BitVec.ofNat 64 (bitsOf x 63 0) }

/-- ACC_NOT_OWNER for a group that does not hold the engine (R182). -/
def Coll.holds (c : Coll) (s : State) : Except Stop Unit :=
  require ((s.core c.k).descent.holder == some c.g.gid) cAccOwner

/-- The descent engine of a core changed. -/
def State.updDescent (s : State) (k : Nat) (f : Descent → Descent) : State :=
  s.updCore k fun x => { x with descent := f x.descent }

/-- A pair of the lowest active rank: a whole-group operand (R317). -/
def Coll.pair (c : Coll) (a : GReg) : Dword := (c.firstActive.map fun t => t.pair a).getD 0

/-- DSC.CFG (R182, R334). -/
def execDscCfg (h : Hdr) (a : GReg) (s : State) : Out :=
  runColl (.dscCfg h a) s fun c s => do
    c.whole
    let va := c.pair a
    let holder := (s.core c.k).descent.holder
    if va = 0 then
      if holder.isNone then return s
      c.holds s
      return s.updDescent c.k fun d => { d with holder := none, cfg := none }
    aligned va 64
    canon va
    let x ← s.loadNat c.g.ctx va 64
    let s := s.readFill c.g.ctx va 64
    let cfg ← parseTree x
    if holder.isSome then c.holds s
    canon cfg.nodeBase
    canon cfg.leafBase
    return s.updDescent c.k fun d => { d with holder := some c.g.gid, cfg := some cfg }

/-- The configuration that the holder's commands run with: ILLEGAL_FIELD for a holder without one (R185); none for a group
that does not hold the engine, which a later check stops. -/
def Coll.config (c : Coll) (s : State) : Except Stop (Option TreeCfg) :=
  let d := (s.core c.k).descent
  if d.holder = some c.g.gid then
    match d.cfg with
    | some x => .ok (some x)
    | none => .error (trapOf cIllegalField)
  else .ok none

/-- A descent command joins the engine's order. -/
def Coll.submit (c : Coll) (s : State) (op : DOp) (cfg : TreeCfg) (fut : Dword) (scope : Scope) : State :=
  let a := s.groupAlloc c.g
  let q := s.nextSeq
  q.2.updDescent c.k fun d =>
    { d with cmds := d.cmds ++ [{ op, cfg, seq := q.1, ctx := c.g.ctx, gid := c.g.gid, task := a.1
                                  taskHandle := s.groupHandle c.g, base := a.2.1, size := a.2.2, fut, scope }] }

/-- DSC.RUN (R185, R335). -/
def execDscRun (h : Hdr) (sa sc : SReg) (s : State) : Out :=
  runColl (.dscRun h sa sc) s fun c s => do
    c.whole
    let w := fun (r : SReg) (i : Nat) => (c.g.sreg (r.toNat + i)).val
    let n := (w sc 0).toNat
    let x := (w sc 1).toNat
    let out := bitsOf x 17 0
    let cfg ← c.config s
    require (decide (1 ≤ n ∧ n ≤ 256) && bitsOf x 31 20 == 0) cIllegalField
    let tile ← parseDesc (w sa 0) (w sa 1)
    let fut := c.g.spair (sc.toNat + 2)
    aligned (BitVec.ofNat 64 out) 512 .write
    futAligned fut
    let size := (s.groupAlloc c.g).2.2
    match cfg with
    | some t => tile.fits size 0 n (2 * t.dim)
    | none => pure ()
    inAlloc size out 6144 .write
    c.holds s
    match cfg with
    | none => throw (trapOf cAccOwner)
    | some t =>
      let s ← s.initFuture c.g.ctx fut
      let scope := (Scope.ofCode (BitVec.ofNat 2 (bitsOf x 19 18))).getD .core
      return (c.submit s (.run n tile out) t fut scope).updDescent c.k fun d => { d with n }

/-! ## A descent (R186 to R191) -/

/-- Bytes of global memory over any number of pages; the first argument bounds the pages. -/
def State.loadPages (s : State) (c : Nat) : Nat → Dword → Nat → Except Stop (List Byte)
  | 0, _, _ => .ok []
  | fuel + 1, va, n =>
    let m := min n (4096 - va.toNat % 4096)
    if n = 0 then .ok []
    else
      match s.loadOne c va m .read with
      | .error e => .error e
      | .ok l =>
        match s.loadPages c fuel (va + BitVec.ofNat 64 m) (n - m) with
        | .error e => .error e
        | .ok r => .ok (l ++ r)

/-- The address of a node (R184). -/
def TreeCfg.node (t : TreeCfg) (n : Nat) : Dword := t.nodeBase + BitVec.ofNat 64 (n * t.nstride)

/-- A number of little-endian bytes at an offset of a record. -/
def fieldAt (l : List Byte) (off n : Nat) : Nat := leNat ((l.drop off).take n)

/-- The weights of a node record (R184). -/
def TreeCfg.weights (t : TreeCfg) (l : List Byte) : List Exact :=
  (List.range t.dim).map fun i =>
    match t.fmt with
    | .bf16 => Fmt.bf16.dec (fieldAt l (2 * i) 2)
    | .e2m1 => scaleBy (fieldAt l (t.dim / 2 + i / 32) 1) (Fmt.e2m1.dec (fieldAt l (i / 2) 1 / 16 ^ (i % 2) % 16))
    | f => f.dec (fieldAt l i 1)

/-- A row of the input tile: its BF16 elements (R335). -/
def State.inputRow (s : State) (base : Nat) (d : OpDesc) (dim i : Nat) : List Exact :=
  (List.range dim).map fun k => Fmt.bf16.dec (s.elem base d .bf16 0 i k)

/-- The dot product of a row and a node with its bias (R159). -/
def TreeCfg.dot (t : TreeCfg) (x : List Exact) (node : List Byte) : Exact :=
  let c := cellSteps false 64 (t.dim / 64 + 1) 0 (x.zip (t.weights node))
  e96Value (cellStep false c [(Fmt.f32.dec (fieldAt node (biasOff t.fmt t.dim) 4), Exact.ofInt 1)])

/-- One row of a descent: its node, whether it is live, and its path word. -/
structure Row where
  node : Nat
  live : Bool
  path : Word
  deriving DecidableEq, Repr

/-- A row through level `d` (R186, R187). -/
def Row.step (r : Row) (d : Nat) (v : Exact) : Row :=
  if v.isNan then { r with live := false, path := r.path ||| (1 <<< 29) }
  else
    let b : Nat := if v.isZero ∨ v.neg then 0 else 1
    { r with
      node := 2 * r.node + 1 + b
      path := ((r.path ||| BitVec.ofNat 32 (b * 2 ^ (23 - d))) &&& ~~~(0x1F000000 : Word)) ||| BitVec.ofNat 32 ((d + 1) * 2 ^ 24) }

/-- The rows of a descent through one level, in row order. -/
def State.levelRows (s : State) (m : DCmd) (input : OpDesc) (d : Nat) : Nat → List Row → Except Stop (List Row)
  | _, [] => .ok []
  | i, r :: l => do
    let r' ← if r.live then do
        let rec' ← s.loadPages m.ctx 4 (m.cfg.node r.node) (biasOff m.cfg.fmt m.cfg.dim + 4)
        pure (r.step d (m.cfg.dot (s.inputRow m.base input m.cfg.dim i) rec'))
      else pure r
    let rest ← s.levelRows m input d (i + 1) l
    return r' :: rest

/-- What a level's reads of node records leave in the home slices, and look up. -/
def State.fillNodes (s : State) (m : DCmd) (rows : List Row) : State :=
  ((rows.filter (·.live)).map (·.node)).eraseDups.foldl
    (fun s n => s.readFill m.ctx (m.cfg.node n) (biasOff m.cfg.fmt m.cfg.dim + 4)) s

/-- The leaf of each row (R186). -/
def leavesOf (depth : Nat) (rows : List Row) : List Nat :=
  rows.map fun r => if r.live then r.node - (2 ^ depth - 1) else 0xFFFFFFFF

/-- Rows inserted after those of equal leaf: a stable order (R188). -/
def insertRow (x : Nat × Nat) : List (Nat × Nat) → List (Nat × Nat)
  | [] => [x]
  | y :: l => if x.1 < y.1 then x :: y :: l else y :: insertRow x l

/-- The prism order: leaf and row index of each position (R188). -/
def prism (leaves : List Nat) : List (Nat × Nat) := leaves.zipIdx.foldl (fun l x => insertRow x l) []

/-- The segments of a prism order: leaf, start and count (R188). -/
def segments : Nat → List (Nat × Nat) → List (Nat × Nat × Nat)
  | _, [] => []
  | i, x :: l =>
    match segments (i + 1) l with
    | (leaf, start, n) :: rest => if leaf = x.1 then (leaf, i, n + 1) :: rest else (x.1, i, 1) :: (leaf, start, n) :: rest
    | [] => [(x.1, i, 1)]

/-- A segment entry (R188). -/
def TreeCfg.segment (t : TreeCfg) (g : Nat × Nat × Nat) : List Byte :=
  let laddr : Dword := if g.1 = 0xFFFFFFFF then 0 else t.leafBase + BitVec.ofNat 64 (g.1 * t.lstride)
  natLe 4 g.1 ++ natLe 2 g.2.1 ++ natLe 2 g.2.2 ++ natLe 8 laddr.toNat

/-- The end of a descent: output area, future, and the next command (R185, R189). -/
def State.descentDone (s : State) (die core : Nat) (m : DCmd) (out : Nat) (rows : List Row) : State :=
  let order := prism (leavesOf m.cfg.depth rows)
  let segs := segments 0 order
  let at' := m.base + out
  let s := s.putScratch at' (order.flatMap fun p => natLe 2 p.2)
  let s := s.putScratch (at' + 512) ((leavesOf m.cfg.depth rows).flatMap (natLe 4))
  let s := s.putScratch (at' + 1536) (natLe 16 segs.length)
  let s := s.putScratch (at' + 1552) (segs.flatMap m.cfg.segment)
  let s := s.updDescent (coreIdx die core) fun d => { d with cmds := d.cmds.tail }
  let s := s.fulfil m.ctx m.fut 1 (BitVec.ofNat 32 segs.length) (BitVec.ofNat 32 rows.length) 4 die core m.taskHandle
  (s.sweepAllocs (coreIdx die core)).endAdoptions

/-- A descent command fails (R190, R328): `n` is its count. -/
def State.descentFails (s : State) (die core : Nat) (m : DCmd) (x : Failure) (n : Nat) : State :=
  let s := s.updDescent (coreIdx die core) fun d => { d with cmds := d.cmds.tail }
  let s := (s.commandFails m.ctx m.fut x n 4 die core m.taskHandle).sweepAllocs (coreIdx die core)
  (s.poisonCheck m.ctx x 4 die core m.taskHandle).endAdoptions

/-- The command at the head of a descent engine changed. -/
def State.updDHead (s : State) (k : Nat) (f : DCmd → DCmd) : State :=
  s.updDescent k fun d => { d with cmds := match d.cmds with
    | [] => []
    | m :: l => f m :: l }

/-- The granules that a descent command reads (R115). -/
def DCmd.reads (m : DCmd) (n : Nat) : List Nat :=
  match m.op with
  | .run n input _ => input.granules m.base 0 n (2 * m.cfg.dim)
  | .grad k input g _ => input.granules m.base 0 (min k n) (2 * m.cfg.dim) ++ granulesOf (m.base + g) (80 * k)

/-- The rows of a command at its start (R186), or as they stand. -/
def DCmd.rows (m : DCmd) (n : Nat) (path : SMap Word) : List Row :=
  (List.range n).map fun i =>
    if m.started then { node := (m.node[i]?).getD 0, live := (m.live[i]?).getD false, path := path.get 0 i }
    else { node := 0, live := true, path := 1 <<< 31 }

/-- The occupancy of one level, or of a gradient of `n` rows, counted for the context and by the core's counters (R319, R443,
R452). -/
def State.countDescent (s : State) (k : Nat) (m : DCmd) (n levels : Nat) : State :=
  let r := s.stallCycles
  let cycles := (n + 15) / 16 * levels * m.cfg.dim / 64 + r.1
  (r.2.count m.ctx fun u => { u with debusy := u.debusy + cycles }).tallyCore k 0x023 cycles

/-- DSC_LEVEL (R186): every live row goes through one level; the last level ends the descent. R185 fills the path-trace
registers 0 to N - 1 and R187 makes VALID 0 in the others, whose remaining bits the model sets to 0 as well; and a level that
stops at a page fault or a failure leaves the path words of every row as the levels before it left them, those of rows that
had passed it included (R190; both DESIGN CHOICE, log 95). -/
def execDscLevel (die core : Nat) (s : State) : Out :=
  let k := coreIdx die core
  match (s.core k).descent.cmds with
  | [] => .next s
  | m :: _ =>
    match m.op with
    | .grad .. => .next s
    | .run n input out =>
      if m.fids ≠ [] ∨ (!m.started ∧ (m.reads n).any (s.pendingAt m.seq)) then .next s
      else
        let rows := m.rows n (s.core k).descent.path
        let putPath := fun (s : State) (rows : List Row) =>
          s.updDescent k fun d => { d with path := (rows.map (·.path)).zipIdx.foldl (fun (p : SMap Word) x => p.set 0 x.2 x.1) [] }
        let s := s.fillNodes m rows
        match s.levelRows m input m.level 0 rows with
        | .error (.page va acc) =>
          let f := s.openFault m.ctx va acc { time := 0, task := m.taskHandle, die, agent := 4, unit := core }
          .next ((putPath f.2 rows).updDHead k fun m =>
            { m with started := true, inLevel := true, node := rows.map (·.node), live := rows.map (·.live), fids := [f.1] })
        | .error (.trap t) => .next ((putPath s rows).descentFails die core m t.failure m.level)
        | .error .stall => .next s
        | .ok rows' =>
          let s := (putPath s rows').countDescent k m (rows.filter (·.live)).length 1
          if m.level + 1 = m.cfg.depth then .next (s.descentDone die core m out rows')
          else
            .next (s.updDHead k fun m =>
              { m with started := true, inLevel := false, level := m.level + 1, node := rows'.map (·.node), live := rows'.map (·.live) })

/-! ## Paths and gradients (R192, R193, R336, R337) -/

/-- The path word that a rank reads: ILLEGAL_FIELD beyond 255. -/
def pathIndex (b : GReg) (p : Nat × Thread) : Except Stop Nat :=
  let i := (p.2.val b).toNat + p.1
  if i ≤ 255 then .ok i else .error (.trap { cause := cIllegalField, tid := some p.2.tid })

/-- The path indices of the active ranks. -/
def pathIndices (b : GReg) : List (Nat × Thread) → Except Stop Unit
  | [] => .ok ()
  | p :: l => do
    let _ ← pathIndex b p
    pathIndices b l

/-- DSC.PATH (R192): it waits until the engine's earlier commands have finished. -/
def execDscPath (h : Hdr) (d b : GReg) (s : State) : Out :=
  runColl (.dscPath h d b) s fun c s => do
    c.whole
    pathIndices b c.active
    c.holds s
    if (s.core c.k).descent.cmds ≠ [] then throw .stall
    let path := (s.core c.k).descent.path
    return s.updRanks c.active fun r t =>
      t.putLong h.la d.toNat [{ val := path.get 0 ((t.val b).toNat + r), tag := .i32 }]

/-- DSC.GRAD (R193, R337). -/
def execDscGrad (h : Hdr) (sa sb sc : SReg) (s : State) : Out :=
  runColl (.dscGrad h sa sb sc) s fun c s => do
    c.whole
    let w := fun (r : SReg) (i : Nat) => (c.g.sreg (r.toNat + i)).val
    let x := (w sc 0).toNat
    let y := (w sc 1).toNat
    let n := (s.core c.k).descent.n
    let cfg ← c.config s
    require (bitsOf x 31 18 == 0 && bitsOf y 31 2 == 0 && cfg.all fun t => decide (4 * t.dim + 4 ≤ t.nstride)) cIllegalField
    let tile ← parseDesc (w sa 0) (w sa 1)
    let base := c.g.spair sb.toNat
    let fut := c.g.spair (sc.toNat + 2)
    aligned (BitVec.ofNat 64 x) 16
    aligned base 256 .rmw
    futAligned fut
    let size := (s.groupAlloc c.g).2.2
    match cfg with
    | some t => tile.fits size 0 n (2 * t.dim)
    | none => pure ()
    inAlloc size x (80 * n)
    c.holds s
    canon base .rmw
    match cfg with
    | none => throw (trapOf cAccOwner)
    | some t =>
      let s ← s.initFuture c.g.ctx fut
      return c.submit s (.grad n tile x base) t fut ((Scope.ofCode (BitVec.ofNat 2 y)).getD .core)

/-- The gradient element `j` of a node: the exact sum of its contributions, rounded once to E96 (R193). Element `dim` is the
bias. -/
def State.gradCell (s : State) (m : DCmd) (input : OpDesc) (g : Nat) (terms : List (Nat × Nat × Nat)) (node j : Nat) : Exact :=
  let mine := terms.filter (·.1 == node)
  let up := fun (i d : Nat) => Fmt.f32.dec (leNat (takeBytes s.scratch (m.base + g + 80 * i + 4 * d) 4))
  let ps := mine.map fun t =>
    (up t.2.1 t.2.2).mul (if j = m.cfg.dim then Exact.ofInt 1 else Fmt.bf16.dec (s.elem m.base input .bf16 0 t.2.1 j))
  e96Value (e96Round (sumExact false (ps.map (·.1))).1)

/-- A gradient command fails (R328): what it has not written is unspecified. -/
def State.gradFails (s : State) (die core : Nat) (m : DCmd) (elems : List (Nat × Nat × Nat)) (done : List Nat)
    (x : Failure) : State := (s.scrambleGrad m elems done).descentFails die core m x done.length

/-- DSC_GRAD_RUN (R193, R328): each touched sector of the gradient tree is one add-on-store. The model writes every sector that
no page fault holds back in one turn (DESIGN CHOICE, log 94). -/
def execDscGradRun (die core : Nat) (s : State) : Out :=
  let k := coreIdx die core
  match (s.core k).descent.cmds with
  | [] => .next s
  | m :: _ =>
    match m.op with
    | .run .. => .next s
    | .grad n input g tree =>
      if m.fids ≠ [] ∨ (!m.started ∧ (m.reads n).any (s.pendingAt m.seq)) then .next s
      else
        let terms := gradTerms n (s.core k).descent.path
        let nodes := (terms.map (·.1)).eraseDups
        let elems := m.gradElems n tree (s.core k).descent.path
        let sectors := (elems.map (·.1 / 256)).eraseDups
        let one := fun (r : DrainRun) (x : Nat) =>
          if r.failed.isSome ∨ r.done.contains x then r
          else
            let va := BitVec.ofNat 64 (256 * x)
            let r := { r with s := r.s.lookUp m.ctx va }
            match r.s.key m.ctx va .rmw with
            | .error (.page va acc) =>
              let f := r.s.openFault m.ctx va acc { time := 0, task := m.taskHandle, die, agent := 4, unit := core }
              { r with s := f.2, fids := if r.fids.contains f.1 then r.fids else r.fids ++ [f.1] }
            | .error (.trap t) => { r with failed := some t.failure }
            | .error .stall => r
            | .ok key =>
              if r.s.poisoned key 256 then { r with failed := some { cause := cUncorrectable.toNat, addr := va, acc := .rmw } }
              else
                { r with
                  s := (elems.filter fun e => e.1 / 256 == x).foldl
                    (fun s' e =>
                      let at' := key + e.1 % 256
                      let sum := (sumExact false [Fmt.f32.dec (s'.num at' 4), s.gradCell m input g terms e.2.1 e.2.2]).1
                      s'.putFor m.ctx at' (natLe 4 (convert .f32 .rn false false sum).1)) r.s
                  done := r.done ++ [x] }
        let r := sectors.foldl one { s, done := m.done : DrainRun }
        match r.failed with
        | some x => .next (r.s.gradFails die core m elems r.done x)
        | none =>
          if r.fids = [] then
            let s := r.s.updDescent k fun d => { d with cmds := d.cmds.tail }
            let s := s.countDescent k m n m.cfg.depth
            let s := s.fulfil m.ctx m.fut 1 (BitVec.ofNat 32 nodes.length) 0 4 die core m.taskHandle
            .next (s.sweepAllocs k).endAdoptions
          else
            let c := countWords (4 * (elems.filter fun e => r.done.contains (e.1 / 256)).length)
            let s := r.s.updDHead k fun m => { m with started := true, inLevel := true, done := r.done, fids := r.fids }
            .next (if m.fut = 0 then s else s.devUpdate m.ctx m.fut (.progress c.1 c.2) 4 die core m.taskHandle)

end Sys2Proof.Machine
end

