-- ==== Sys2Proof/Machine/Refine.lean ====
section
/-! DEFINITION. The refinement controller (R194 to R200, R338, R339). -/

namespace Sys2Proof.Machine

/-! ## The block (R195) -/

/-- An F64 field that is finite and at least 0, or above 0. -/
def finiteF64 (x : Nat) (strict : Bool) : Bool :=
  match f64 (BitVec.ofNat 64 x) with
  | .fin n m _ => if strict then !n && m != 0 else !n || m == 0
  | _ => false

/-- The field checks of a block but the alignment of STATUS. -/
def rfbFieldsOk (x : Nat) : Bool :=
  let rungs := bitsOf x 39 32
  bitsOf x 31 0 == 1 && decide (1 ≤ rungs) && decide (rungs ≤ 4) && bitsOf x 47 40 != 0 && bitsOf x 63 52 == 0
    && bitsOf x 95 64 != 0 && bitsOf x 127 96 == 0 && finiteF64 (bitsOf x 191 128) false && finiteF64 (bitsOf x 255 192) true
    && finiteF64 (bitsOf x 319 256) true && finiteF64 (bitsOf x 383 320) false && bitsOf x 767 672 == 0
    && bitsOf x 2047 1280 == 0 && (List.range rungs).all fun i => decide (bitsOf x (647 + 8 * i) (640 + 8 * i) ≤ 5)

/-- The fields of a valid block, put into its entry. -/
def Rfb.fill (b : Rfb) (x : Nat) (now : Dword) : Rfb :=
  let d := fun (lo : Nat) => BitVec.ofNat 64 (bitsOf x (lo + 63) lo)
  { b with
    phase := .zero, rungs := bitsOf x 39 32, stagcnt := bitsOf x 47 40, stagact := x.testBit 48, divact := x.testBit 49
    traplad := x.testBit 50, traplim := x.testBit 51, iterlim := bitsOf x 95 64, tol := d 128, rstag := d 192, rdiv := d 256
    bnorm := d 320, resid := d 512, status := d 576, tstart := now
    ladder := (List.range 4).map fun i => (d (768 + 128 * i), d (832 + 128 * i), bitsOf x (647 + 8 * i) (640 + 8 * i)) }

/-- A rung: solve entry, refactor entry and format code. -/
def Rfb.rungAt (b : Rfb) : Dword × Dword × Nat := (b.ladder[b.rung]?).getD (0, 0, 0)

/-- The status record (R198). -/
def Rfb.record (b : Rfb) (now : Dword) : List Byte :=
  natLe 4 b.exit ++ natLe 1 b.rung ++ natLe 1 b.rungAt.2.2 ++ natLe 2 b.run ++ natLe 4 b.j ++ natLe 4 b.total
    ++ natLe 8 b.n.toNat ++ natLe 8 b.nprev.toNat ++ natLe 8 b.tstart.toNat
    ++ natLe 8 (if b.outcome.isSome then now.toNat else 0) ++ natLe 8 b.fault.toNat ++ natLe 8 0

/-! ## The arithmetic of the test (R197) -/

/-- The quotient of two F64 values, rounded to nearest-even. -/
def f64Div (a b : Dword) : Exact :=
  match f64 a, f64 b with
  | .fin n m e, .fin k l f =>
    if l = 0 then (if m = 0 then .nan false else .inf (n != k))
    else
      let sh := bitLen l + 64
      let q := m * 2 ^ sh / l
      let sticky := if m * 2 ^ sh % l = 0 then 0 else 1
      f64 (BitVec.ofNat 64 (roundTo Fmt.f64.float .rn false (.fin (n != k) (2 * q + sticky) (e - f - sh - 1))).1)
  | .fin n _ _, .inf k => .fin (n != k) 0 0
  | .inf n, .fin k _ _ => .inf (n != k)
  | _, _ => .nan false

/-- The product of two F64 values, rounded to nearest-even. -/
def f64Mul (a b : Dword) : Exact := f64 (BitVec.ofNat 64 (fMul Fmt.f64.float .rn (f64 a) (f64 b)).1)

/-- Whether a value exceeds another; false with a NaN. -/
def exceeds (a b : Exact) : Bool := !a.isNan && !b.isNan && a.cmp b == .gt

/-- The test of a norm: the exit code, 0 for none, and the block with its stagnation run (R197). -/
def Rfb.test (b : Rfb) : Nat × Rfb :=
  let n := f64 b.n
  if n.isNan ∨ n.isInf then (3, b)
  else if !exceeds n (f64Mul b.tol b.bnorm) then (1, b)
  else if b.j = 0 then (0, b)
  else
    let q := f64Div b.n b.nprev
    if exceeds q (f64 b.rdiv) then (3, b)
    else
      let b := { b with run := if exceeds q (f64 b.rstag) then b.run + 1 else 0 }
      if b.run = b.stagcnt then (2, b) else if b.j = b.iterlim then (5, b) else (0, b)

/-- The end of a block with an exit code (R199). -/
def Rfb.finish (b : Rfb) (e : Nat) : Rfb :=
  let traps := (e == 2 && b.stagact) || (e == 3 && b.divact) || (e == 4 && b.traplad) || (e == 5 && b.traplim)
  let rung := BitVec.ofNat 32 b.rung
  { b with
    exit := e, phase := .write
    outcome := some (if traps then (2, BitVec.ofNat 32 (0x12 + 256 * e), rung) else (1, BitVec.ofNat 32 e, rung)) }

/-- A residual task has ended with a norm: the test and what follows it (R197). -/
def Rfb.judge (b : Rfb) : Rfb :=
  let t := b.test
  let e := t.1
  let b := t.2
  if (e = 2 ∧ !b.stagact) ∨ (e = 3 ∧ !b.divact) then
    if b.rung + 1 = b.rungs then b.finish 4 else { b with phase := .write, escalate := true }
  else if e ≠ 0 then b.finish e
  else { b with phase := .write }

/-- The next iteration: its solve task. -/
def Rfb.iterate (b : Rfb) : Rfb := { b with phase := .place, step := .solve, j := b.j + 1, total := b.total + 1 }

/-- After the refactor task of a new rung: j and the stagnation run start again. -/
def Rfb.refactored (b : Rfb) : Rfb := { b with j := 0, run := 0 }.iterate

/-- What follows the write of the status record. -/
def Rfb.afterWrite (b : Rfb) : Rfb :=
  if b.escalate then
    let b := { b with escalate := false, rung := b.rung + 1 }
    if b.rungAt.2.1 = 0 then b.refactored else { b with phase := .place, step := .refactor }
  else b.iterate

/-- What follows the end of a step's task that did not fault. -/
def Rfb.afterTask (b : Rfb) (v : Dword) : Rfb :=
  match b.step with
  | .refactor => if b.rung = 0 then { b with phase := .place, step := .resid } else b.refactored
  | .solve => { b with phase := .place, step := .resid, nprev := b.n }
  | .resid => ({ b with n := v }).judge

/-- A step that cannot be taken, or a faulted task, stops the block (R196, R200). -/
def Rfb.stopped (b : Rfb) (handle : Word) (cause : BitVec 8) (w0 w1 : Word) : Rfb :=
  { b with phase := .write, fault := joinWords handle (cause.setWidth 32), outcome := some (2, w0, w1) }

/-! ## The controller -/

/-- The blocks of a die changed. -/
def State.updRfbs (s : State) (die : Nat) (f : List Rfb → List Rfb) : State := s.updDie die fun d => { d with rfbs := f d.rfbs }

/-- A block replaced. -/
def State.putRfb (s : State) (die : Nat) (b : Rfb) : State :=
  s.updRfbs die fun l => l.map fun x => if x.id = b.id then b else x

/-- A block that a poisoned read has stopped ends its context after its own end (R432; DEDUCED, log 53). -/
def State.rfbLost (s : State) (die : Nat) (b : Rfb) : State :=
  match b.lost with
  | some x => s.poisonCheck b.ctx x 7 die 0 b.taskHandle
  | none => s

/-- The end of a block: its future, and its packet's work. -/
def State.endRfb (s : State) (die : Nat) (b : Rfb) (st : Nat) (w0 w1 : Word) : State :=
  let s := s.updRfbs die fun l => l.filter (·.id != b.id)
  ((s.fulfil b.ctx b.fut st w0 w1 7 die 0 b.taskHandle).workEnded b.launch).rfbLost die b

/-- A block ends because an access of the controller failed (R195): without a future a fault record says so. -/
def State.failRfb (s : State) (die : Nat) (b : Rfb) (x : Failure) (w1 : Nat) : State :=
  let s := s.updRfbs die fun l => l.filter (·.id != b.id)
  let s := (s.commandFails b.ctx b.fut x w1 7 die 0 b.taskHandle).workEnded b.launch
  (s.poisonCheck b.ctx x 7 die 0 b.taskHandle).rfbLost die b

/-- A block waits for a page fault (R195). -/
def State.suspendRfb (s : State) (die : Nat) (b : Rfb) (va : Dword) (acc : Acc) : State :=
  let f := s.openFault b.ctx va acc { time := 0, task := b.taskHandle, die, agent := 7 }
  f.2.putRfb die { b with fid := some f.1 }

/-- The entry of a block's step. -/
def Rfb.entry (b : Rfb) : Dword :=
  match b.step with
  | .refactor => b.rungAt.2.1
  | .solve => b.rungAt.1
  | .resid => b.resid

/-- The record of a step's task (R196). -/
def Rfb.task (b : Rfb) (num : Nat) (h : KHdr) : QRec :=
  { num, ctx := b.ctx, prio := b.prio, entry := b.entry
    args := [loWord b.addr, hiWord b.addr, BitVec.ofNat 32 (b.rung + 256 * b.rungAt.2.2), BitVec.ofNat 32 b.j], hdr := h
    rfb := some b.id }

/-- A block cancelled by RFB.ABORT (R200), also one that waits for a page fault. Its status record is not written then (DEDUCED, log
61). -/
def State.abortRfb (s : State) (die : Nat) (b : Rfb) : State := s.endRfb die b 3 5 0

/-- The header of a step's entry, checked as SPAWN checks it (R196, R281). -/
def State.stepHdr (s : State) (b : Rfb) : Except Stop (Option KHdr) := do
  aligned b.entry 8
  canon b.entry
  s.readHdr b.ctx b.entry

/-- Whether the record that a block holds is the first of those that its controller holds in its context (R461). -/
def State.firstHeld (s : State) (die : Nat) (b : Rfb) : Bool :=
  (s.die die).rfbs.all fun x => x.ctx != b.ctx || match x.heldRec, b.heldRec with
    | some p, some q => decide (q.1 ≤ p.1)
    | _, _ => true

/-- The record of a step's task placed (R196, R461): where nothing has room, it is held, and placed again after those held
before it. -/
def State.placeRec (s : State) (die : Nat) (b : Rfb) (r : QRec) : State :=
  match (if s.firstHeld die b then s.placeLaunch r (some die) else none) with
  | some (s, _) => s.putRfb die { b with phase := .run, rec_ := r.num, heldRec := none, ended := none }
  | none =>
    if b.heldRec.isSome then s
    else { s with tick := s.tick + 1 }.putRfb die { b with phase := .held, heldRec := some (s.tick, r) }

/-- Whether a controller holds a record of a context. -/
def State.holdsRec (s : State) (die ctx : Nat) : Bool := (s.die die).rfbs.any fun x => x.ctx == ctx && x.heldRec.isSome

/-- A step's header that cannot be read stops the block (R196): a malformed entry of the tables has its record (R421). -/
def State.stepLost (s : State) (die : Nat) (b : Rfb) (t : Trap) : State :=
  let rec' : FaultRec :=
    { time := 0, addr := t.faddr, task := b.taskHandle, detail := 1, die, agent := 7, cause := t.cause.toNat, kind := 3, acc := t.acc }
  (if t.malformed then s.postRecord b.ctx rec' else s).putRfb die
    { b.stopped noOwner t.cause (t.cause.setWidth 32) (BitVec.ofNat 32 (256 * b.rung)) with
      lost := if t.cause = cUncorrectable then some t.failure else none }

/-- The step's task placed, or its record held behind others of its context (R196, R461). -/
def State.placeStep (s : State) (die : Nat) (b : Rfb) : State :=
  let s := s.readFill b.ctx (b.entry - 64) 64
  match s.stepHdr b with
  | .error (.page va acc) => s.suspendRfb die b va acc
  | .error (.trap t) => s.stepLost die b t
  | .error .stall => s
  | .ok h =>
    match h with
    | some h =>
      if h.gang then s.putRfb die (b.stopped noOwner cIllegalField 2 (BitVec.ofNat 32 (256 * b.rung)))
      else
        let num := s.freshRecord b.ctx
        let r := b.task num.1 h
        if num.2.holdsRec die b.ctx then
          { num.2 with tick := num.2.tick + 1 }.putRfb die { b with phase := .held, heldRec := some (num.2.tick, r) }
        else num.2.placeRec die b r
    | none => s.putRfb die (b.stopped noOwner cIllegalField 2 (BitVec.ofNat 32 (256 * b.rung)))

/-- The status record written (R195, R198). -/
def State.writeStatus (s : State) (die : Nat) (b : Rfb) (l : List Byte) (k : State → State) : State :=
  match s.store b.ctx b.status l with
  | .ok s => k s
  | .error (.page va acc) => s.suspendRfb die b va acc
  | .error (.trap t) => s.failRfb die b t.failure (256 * b.rung)
  | .error .stall => s

/-- The block read and checked (R195). -/
def State.readRfb (s : State) (die : Nat) (b : Rfb) : State :=
  let s := s.readFill b.ctx b.addr 256
  match (if b.addr.toNat % 256 = 0 then s.loadNat b.ctx b.addr 256 else .error (trapAt cMisaligned b.addr)) with
  | .error (.page va acc) => s.suspendRfb die b va acc
  | .error (.trap t) => s.failRfb die b t.failure 0
  | .error .stall => s
  | .ok x =>
    if !rfbFieldsOk x then s.failRfb die b { cause := cIllegalField.toNat, addr := b.addr } 0
    else if bitsOf x 639 576 % 64 ≠ 0 then s.failRfb die b { cause := cMisaligned.toNat, addr := b.addr } 0
    else s.putRfb die (b.fill x s.time)

/-- One action of the controller on a block (R197). -/
def State.actRfb (s : State) (die : Nat) (b : Rfb) : State :=
  if b.abort ∧ b.phase ≠ .run then s.abortRfb die b
  else if b.fid.isSome then s
  else
    match b.phase with
    | .waiting => s
    | .zero =>
      s.writeStatus die b (natLe 64 0) fun s =>
        s.putRfb die (if b.rungAt.2.1 = 0 then { b with phase := .place, step := .resid }
          else { b with phase := .place, step := .refactor })
    | .read => s.readRfb die b
    | .place => s.placeStep die b
    | .held =>
      match b.heldRec with
      | some p => s.placeRec die b p.2
      | none => s
    | .run =>
      match b.ended with
      | none => s
      | some (v, fault) =>
        if b.abort then s.abortRfb die b
        else
          match fault with
          | some (h, c) =>
            s.putRfb die (b.stopped h c 1 (BitVec.ofNat 32 (c.toNat + 256 * b.rung)))
          | none => s.putRfb die (b.afterTask v)
    | .write =>
      s.writeStatus die b (b.record s.time) fun s =>
        match b.outcome with
        | some (st, w0, w1) => s.endRfb die b st w0 w1
        | none => s.putRfb die b.afterWrite

/-- The actions of the controller on a block until it waits; the first argument is fuel. -/
def State.driveRfb (s : State) (die id : Nat) : Nat → State
  | 0 => s
  | n + 1 =>
    match (s.die die).rfbs.find? (·.id == id) with
    | none => s
    | some b =>
      let s' := s.actRfb die b
      if (s'.die die).rfbs.find? (·.id == id) = some b then s' else s'.driveRfb die id n

/-- RFB_BLOCK_START (R194, R195): the oldest waiting block takes one of the 16 places that is free, and is read and checked. -/
def execRfbBlockStart (die : Nat) (s : State) : Out :=
  let l := (s.die die).rfbs
  match l.find? (·.phase == .waiting) with
  | none => .next s
  | some b =>
    if 16 ≤ (l.filter (·.phase != .waiting)).length then .next s
    else .next ((s.putRfb die { b with phase := .read }).driveRfb die b.id 9)

/-- RFB_STEP_DONE (R197): the controller acts on a block until it waits for a task, a fault or room. -/
def execRfbStepDone (die id : Nat) (s : State) : Out := .next (s.driveRfb die id 8)

/-! ## Instructions (R338, R339) -/

/-- A block put at the end of a controller's arrival order (R194). -/
def State.addRfb (s : State) (die ctx prio : Nat) (addr fut : Dword) (handle : Word) (launch : Option (Nat × Nat)) : State :=
  let id := s.freshId
  id.2.updRfbs die fun l => l ++ [{ id := id.1, addr, ctx, prio, fut, taskHandle := handle, launch }]

/-- RFB.START (R194, R338). -/
def execRfbStart (h : Hdr) (a c : GReg) (s : State) : Out :=
  runColl (.rfbStart h a c) s fun x s => do
    x.whole
    let addr := x.pair a
    let fut := x.pair c
    aligned addr 256
    futAligned fut
    let s1 ← s.initFuture x.g.ctx fut
    let t := x.firstActive
    return s1.addRfb x.g.die x.g.ctx ((t.map (·.prio)).getD 0) addr fut ((t.map s.taskHandle).getD noOwner) none

/-- The block of a context at an address in a controller. -/
def State.rfbAt (s : State) (die ctx : Nat) (addr : Dword) : Option Rfb :=
  (s.die die).rfbs.find? fun b => b.ctx == ctx && b.addr == addr

/-- The view of a block: state, rung with format, j and total (R339). -/
def rfbView (b : Option Rfb) : List Word :=
  match b with
  | none => [2, 0, 0, 0]
  | some b =>
    [if b.phase = .waiting then 0 else 1, BitVec.ofNat 32 (b.rung + 256 * b.rungAt.2.2), BitVec.ofNat 32 b.j,
     BitVec.ofNat 32 b.total]

/-- RFB.STAT (R339). -/
def execRfbStat (h : Hdr) (d a : GReg) (s : State) : Out :=
  runColl (.rfbStat h d a) s fun c s => do
    c.whole
    canon (c.pair a)
    let l := (rfbView (s.rfbAt c.g.die c.g.ctx (c.pair a))).map fun w => { val := w, tag := .i32 : Reg }
    return s.updRanks c.active fun _ t => t.putSpan d.toNat l

/-- RFB.ABORT on a block that a controller holds: its unstarted task is withdrawn (R200). -/
def State.stopRfb (s : State) (die : Nat) (b : Rfb) : State :=
  let s := s.putRfb die { b with abort := true }
  if b.phase = .run then
    match s.findRecord b.ctx b.rec_ with
    | some (p, r) =>
      if r.rfb = some b.id then (s.setRecord p b.ctx b.rec_ fun _ => none).abortRfb die b else s
    | none => s
  else s.driveRfb die b.id 1

/-- RFB.ABORT (R200, R339). -/
def execRfbAbort (h : Hdr) (pd : PReg) (a : GReg) (s : State) : Out :=
  runColl (.rfbAbort h pd a) s fun c s => do
    c.whole
    canon (c.pair a)
    match s.rfbAt c.g.die c.g.ctx (c.pair a) with
    | none => return s.updRanks c.active fun _ t => t.setPred pd false
    | some b => return (s.stopRfb c.g.die b).updRanks c.active fun _ t => t.setPred pd true

end Sys2Proof.Machine
end

