-- ==== Sys2Proof/Machine/Mailbox.lean ====
section
/-! DEFINITION. The operations of the mailbox: queue programs, contexts, core sets, pre-emption, translations, fault
resolution, firmware and exports (R406, R416 to R419, R422, R426 to R429, R433, R440). -/

namespace Sys2Proof.Machine

/-! ## The semaphore's holder and the mailbox (R399, R400, R416) -/

/-- The port ID of a function: the PF of HA or of HB (R399). -/
def portOf (func : Nat) : Option Nat := if func = 0 then some 0 else if func = 64 then some 1 else none

/-- The holder of the semaphore, while its lease of 100 ms runs (R400). -/
def State.holder (s : State) : Option Nat :=
  if s.sem.held ∧ s.elapsed < s.sem.since + 100000000 then some s.sem.owner else none

/-- Whether a function is a PF that holds the semaphore. -/
def State.holdsSem (s : State) (func : Nat) : Bool := (portOf func).any fun p => s.holder == some p

/-- What a mailbox operation does: a rejection with its reason and word index, or a state, and whether the operation stays
busy. -/
abbrev Mailbox := Except (Nat × Nat) (State × Bool)

/-- A mailbox's status set. -/
def State.setStat (s : State) (func stat reason word : Nat) : State :=
  s.updFunc func fun x => { x with stat, reason, failWord := word }

/-- A write of CMD (R416): ignored while the mailbox is busy, or does not respond; in recovery the PF of HA has firmware
operations alone (R437). In the stopped state a command is ignored (DEDUCED, log 71). -/
def State.mailbox (s : State) (func : Nat) (fw : Bool) (r : Mailbox) : State :=
  let recovery := s.boot.state == .recovery && func == 0
  if 128 ≤ func || !(s.boot.state == .ready || recovery) || (s.func func).stat == 1 then s
  else if recovery && !fw then s.setStat func 3 3 0
  else
    match r with
    | .error (reason, word) => s.setStat func 3 reason word
    | .ok (s', busy) => s'.setStat func (if busy then 1 else 2) 0 0

/-- A context that a function created: 0x01 where it does not exist (R416; DEDUCED, log 112), 0x03 where another function
created it. -/
def State.owned (s : State) (func ctx : Nat) : Except (Nat × Nat) Ctx :=
  match s.ctx? ctx with
  | none => .error (1, 0)
  | some x => if x.func = func then .ok x else .error (3, 0)

/-- A test with a reason. -/
def demand (ok : Bool) (reason : Nat) : Except (Nat × Nat) Unit := if ok then .ok () else .error (reason, 0)

/-! ## Queue programs (R406) -/

/-- The instructions of the words of a program, or the index of the first word that is none. -/
def qpWords : Nat → List Word → Except Nat (List Instr)
  | _, [] => .ok []
  | i, w :: l =>
    match decodeQp w with
    | .error _ => .error i
    | .ok x =>
      match qpWords (i + 1) l with
      | .error e => .error e
      | .ok xs => .ok (x :: xs)

/-- Whether a word is LOOP or ENDL. -/
def isLoopWord : Instr → Bool
  | .qpLoop _ | .qpEndl => true
  | _ => false

/-- The words that a word may skip. -/
def skipOf : Instr → Option Nat
  | .qpBeq k .. | .qpBne k .. | .qpBltu k .. => some k.toNat
  | _ => none

/-- A word's own limits, with the words after it (R406): indices, counts and windows, and where it may skip to. -/
def wordOk (windows : List (Dword × Nat × Bool)) (rest : List Instr) : Instr → Bool
  | .qpPkt i _ => decide (i.toNat ≤ 7)
  | .qpShli n .. | .qpShri n .. => decide (n.toNat ≤ 63)
  | .qpLdw w .. => decide (w.toNat < windows.length)
  | .qpStw w .. => (windows[w.toNat]?).any (·.2.2)
  | .qpLoop n => decide (1 ≤ n.toNat) && decide (n.toNat ≤ 256)
  | .qpStg i _ => decide (i.toNat ≤ 15)
  | i =>
    match skipOf i with
    | some k =>
      decide (1 ≤ k) && decide (k ≤ 511) && decide (k < rest.length) && !((rest.take k).any isLoopWord)
    | none => true

/-- The first word of a list that breaks its limits, or the nesting of loops: `depth` loops are open. -/
def firstBad (windows : List (Dword × Nat × Bool)) : Nat → Nat → List Instr → Option Nat
  | _, _, [] => none
  | i, depth, x :: l =>
    if !wordOk windows l x then some i
    else
      match x with
      | .qpLoop _ => if 4 ≤ depth then some i else firstBad windows (i + 1) (depth + 1) l
      | .qpEndl => if depth = 0 then some i else firstBad windows (i + 1) (depth - 1) l
      | _ => firstBad windows (i + 1) depth l

/-- Loops still open at the end of a list. -/
def openLoops (l : List Instr) : Nat :=
  l.foldl (fun n x => match x with
    | .qpLoop _ => n + 1
    | .qpEndl => n - 1
    | _ => n) 0

/-- Paths from a word: the most words up to the end of the enclosing loop's body, the most words up to END, and whether a
path runs past the last word. -/
structure Paths where
  body : Option Nat
  fin : Option Nat
  past : Bool
  deriving DecidableEq, Repr

/-- The larger of two counts that may be absent. -/
def maxOpt (a b : Option Nat) : Option Nat :=
  match a, b with
  | some x, some y => some (max x y)
  | some x, none => some x
  | none, y => y

/-- Paths joined. -/
def Paths.join (a b : Paths) : Paths := { body := maxOpt a.body b.body, fin := maxOpt a.fin b.fin, past := a.past || b.past }

/-- Paths with words before them. -/
def Paths.after (n : Nat) (p : Paths) : Paths := { p with body := p.body.map (n + ·), fin := p.fin.map (n + ·) }

/-- The index, in a list of words, of the ENDL that closes `depth` + 1 open loops. -/
def closing : Nat → List Instr → Option Nat
  | _, [] => none
  | depth, .qpLoop _ :: l => (closing (depth + 1) l).map (· + 1)
  | depth, .qpEndl :: l => if depth = 0 then some 0 else (closing (depth - 1) l).map (· + 1)
  | depth, _ :: l => (closing depth l).map (· + 1)

/-- The paths from each word of a list. -/
def pathTable : List Instr → List Paths
  | [] => []
  | x :: l =>
    let t := pathTable l
    let at' := fun (k : Nat) => (t[k]?).getD { body := none, fin := none, past := true }
    let p : Paths :=
      match x with
      | .qpEnd => { body := none, fin := some 1, past := false }
      | .qpEndl => { body := some 1, fin := none, past := false }
      | .qpLoop n =>
        let b := at' 0
        match b.body with
        | none => b.after 1
        | some w =>
          let inner : Paths := { body := none, fin := b.fin.map (1 + (n.toNat - 1) * w + ·), past := b.past }
          inner.join ((at' (((closing 0 l).getD 0) + 1)).after (1 + n.toNat * w))
      | i =>
        match skipOf i with
        | some k => ((at' 0).join (at' k)).after 1
        | none => (at' 0).after 1
    p :: t

/-- A program that every check accepts: the largest number of words of one packet is at most 512, and every path ends. -/
def wholeOk (l : List Instr) : Bool :=
  openLoops l == 0 &&
    match pathTable l with
    | [] => false
    | p :: _ => !p.past && p.fin.all fun n => decide (n ≤ 512)

/-- The windows of an image's header of 136 bytes: none where one breaks its limits. -/
def parseWindows (x : Nat) : Nat → List Nat → Option (List (Dword × Nat × Bool))
  | _, [] => some []
  | off, _ :: l =>
    let base := bitsOf x (64 * (off + 1) - 1) (64 * off)
    let d := bitsOf x (64 * (off + 2) - 1) (64 * (off + 1))
    let len := d % 2 ^ 24
    if base % 8 ≠ 0 ∨ len % 8 ≠ 0 ∨ 2 ^ 20 < len then none
    else (parseWindows x (off + 2) l).map fun r => (BitVec.ofNat 64 base, len, d.testBit 63) :: r

/-- Verification of an image (R406): the words and windows, or the index of the failing word; none where no one word fails. -/
def verifyImage (head : Nat) (words : List Word) : Except (Option Nat) (List (Dword × Nat × Bool)) :=
  let w := bitsOf head 19 16
  if 8 < w then .error none
  else
    match parseWindows head 1 (List.range w) with
    | none => .error none
    | some ws =>
      match qpWords 0 words with
      | .error i => .error (some i)
      | .ok l =>
        match firstBad ws 0 0 l with
        | some i => .error (some i)
        | none => if wholeOk l then .ok ws else .error none

/-- A rejection whose failing word the manual does not name (R406): its index is unspecified. -/
def State.anyWord (s : State) : Nat := (Config.freeBits s.free).toNat % 2 ^ 16

/-- LOAD's operation (R406). -/
def State.loadProgram (s : State) (func prog ctx : Nat) (va : Dword) : Mailbox := do
  let _ ← s.owned func ctx
  demand (decide (1 ≤ prog) && decide (prog ≤ 4095)) 1
  match s.loadNat ctx va 136 with
  | .error _ => throw (1, s.anyWord)
  | .ok head =>
    let n := bitsOf head 15 0
    if n = 0 ∨ 1024 < n then throw (1, s.anyWord)
    match s.load ctx (va + 136) (4 * n) with
    | .error _ => throw (1, s.anyWord)
    | .ok l =>
      let x := leNat l
      let words := (List.range n).map fun i => BitVec.ofNat 32 (x / 2 ^ (32 * i))
      match verifyImage head words with
      | .error i => throw (1, i.getD s.anyWord)
      | .ok windows =>
        let p : Prog := { num := prog, words, windows }
        return (s.updCtx ctx fun c => { c with progs := c.progs.filter (·.num != prog) ++ [p] }, false)

/-- LOAD (R406). -/
def execLoad (func : Nat) (prog ctx : Nat) (va : Dword) (s : State) : Out :=
  .next (s.mailbox func false ((s.loadProgram func prog ctx va).map fun r => ({ r.1 with free := r.1.free + 1 }, r.2)))

/-- FREE's operation (R406). -/
def State.freeProgram (s : State) (func prog ctx : Nat) : Mailbox := do
  let x ← s.owned func ctx
  demand (decide (1 ≤ prog) && x.progs.any (·.num == prog)) 1
  return (s.updCtx ctx fun c => { c with progs := c.progs.filter (·.num != prog) }, false)

/-- FREE (R406). -/
def execFree (func : Nat) (prog ctx : Nat) (s : State) : Out := .next (s.mailbox func false (s.freeProgram func prog ctx))

/-! ## Contexts (R417, R418, R429, R433, R446) -/

/-- A context from its descriptor of 64 bytes: none where a field is out of range or a reserved bit is set (R417). -/
def parseCtx (func : Nat) (x : Nat) : Option Ctx :=
  let ptroot := bitsOf x 511 448
  let cmbase := bitsOf x 447 384
  let cmsize := bitsOf x 383 352 * 2 ^ 16
  let gangb := bitsOf x 351 320
  let tlim := bitsOf x 319 288
  let fvec := bitsOf x 271 261
  let fq := bitsOf x 260 256
  let tlsva := bitsOf x 255 192
  let ok := bitsOf x 159 1 == 0 && ptroot % 4096 == 0 && decide (ptroot < Config.usageBase) && cmbase % 2 ^ 16 == 0
    && decide (cmbase + cmsize ≤ Config.usageBase) && decide (100 ≤ gangb) && decide (gangb ≤ 10000000)
    && decide (10 ≤ tlim) && decide (tlim ≤ 1000000) && decide (fvec < if (portOf func).isSome then 2048 else 64)
    && decide (6 ≤ fq) && decide (fq ≤ 16) && tlsva % 2 ^ 16 == 0 && canonical (BitVec.ofNat 64 tlsva)
  if ok then
    some { func, ptroot, cmbase, cmsize, gangb, tlim, spillrec := bitsOf x 287 272, fvec, fqlog2 := fq
           tlsva := BitVec.ofNat 64 tlsva, tlssize := bitsOf x 191 160 * 2 ^ 16, recov := x.testBit 0 }
  else none

/-- A context comes into being, and its usage record starts a generation (R446). -/
def State.newContext (s : State) (ctx : Nat) (x : Ctx) : State :=
  let gen := (s.usage.get ({} : Usage) ctx).gen
  { s with
    ctxs := s.ctxs.set none ctx (some x)
    counts := s.counts.set {} ctx {}
    usage := s.usage.set {} ctx { gen := gen + 1, valid := true, creator := x.func } }

/-- CREATE's operation (R417): it stays busy while the number's last generation has not ENDED (R446). -/
def State.createCtx (s : State) (func ctx pa : Nat) : Mailbox := do
  demand (decide (ctx < 1024) && (s.ctx? ctx).isNone && decide (pa + 64 ≤ Config.usageBase)) 1
  match parseCtx func (s.num pa 64) with
  | none => throw (1, 0)
  | some x =>
    if (s.usage.get ({} : Usage) ctx).ending then
      return (s.updFunc func fun f => { f with pending := some (ctx, x) }, true)
    return (s.newContext ctx x, false)

/-- CREATE (R417). -/
def execCreate (func : Nat) (ctx : Nat) (pa : Nat) (s : State) : Out := .next (s.mailbox func false (s.createCtx func ctx pa))

/-- DESTROY's operation (R433), for the creating function or a PF. -/
def State.destroyCtx (s : State) (func ctx : Nat) : Mailbox :=
  match s.ctx? ctx with
  | none => .error (1, 0)
  | some x => if x.func = func ∨ (portOf func).isSome then .ok (s.endContext ctx, false) else .error (3, 0)

/-- DESTROY (R433). -/
def execDestroy (func : Nat) (ctx : Nat) (s : State) : Out := .next (s.mailbox func false (s.destroyCtx func ctx))

/-- A context for a PF that holds the semaphore. -/
def State.forHolder (s : State) (func ctx : Nat) : Except (Nat × Nat) Ctx := do
  demand (s.holdsSem func) 3
  match s.ctx? ctx with
  | none => throw (1, 0)
  | some x => return x

/-- The cores of a mask in memory: bit 64d + c (R416). -/
def State.coreMask (s : State) (pa : Nat) : Except (Nat × Nat) (List Nat) := do
  demand (decide (pa + 64 ≤ Config.usageBase)) 1
  let x := s.num pa 64
  return (List.range 512).filter fun i => x.testBit i

/-- SETCORES's operation (R418). -/
def State.setCores (s : State) (func ctx pa : Nat) : Mailbox := do
  let x ← s.forHolder func ctx
  let mask ← s.coreMask pa
  let new := mask.filter fun k => !x.cores.contains k
  demand (!(new.any fun k => s.ctxs.any fun p => p.2.any fun y => y.cores.contains k)) 7
  let resident := (s.ctxs.filter fun p => p.2.any fun y => !y.cores.isEmpty).length
  demand (new.isEmpty || !x.cores.isEmpty || decide (resident < 64)) 6
  let ever := new.foldl keyInsert x.everCores
  let set := new.foldl keyInsert x.cores
  demand (decide (x.layoutBytes set.length ever.length ≤ x.cmsize)) 4
  return (s.updCtx ctx fun x => { x with cores := new.foldl keyInsert x.cores, everCores := ever }, false)

/-- SETCORES (R418). -/
def execSetcores (func : Nat) (ctx : Nat) (pa : Nat) (s : State) : Out := .next (s.mailbox func false (s.setCores func ctx pa))

/-- Step 1 of R429 on a core: it stops, and its records move to the runnable pool in their order. -/
def State.stopCore (s : State) (ctx k : Nat) : State :=
  let recs := (s.core k).queue ++ (s.core k).spill
  let s := s.updCore k fun c => { c with stopping := true, queue := [], spill := [] }
  let s := s.updCtx ctx fun x =>
    { x with pool := x.pool ++ recs.map fun r => .record { r with passed := none, heldAt := none } }
  recs.foldl (fun s r => s.rewriteRecord r (RecPlace.pool.handle r.num)) s

/-- PREEMPT's operation (R429): it stays busy until every named core is free. -/
def State.preemptCores (s : State) (func ctx pa : Nat) : Mailbox := do
  let x ← s.forHolder func ctx
  let mask ← s.coreMask pa
  demand (mask.all x.cores.contains) 1
  demand x.preempting.isEmpty 2
  let s := mask.foldl (fun s k => s.stopCore ctx k) s
  return (s.updCtx ctx fun x => { x with preempting := mask, preemptFunc := func }, !mask.isEmpty)

/-- PREEMPT (R429). -/
def execPreempt (func : Nat) (ctx : Nat) (pa : Nat) (s : State) : Out :=
  .next (s.mailbox func false (s.preemptCores func ctx pa))

/-- TLBINV's operation (R422): no TLB keeps a translation of the range; a length of 0 means all. -/
def State.tlbInvalidate (s : State) (func ctx : Nat) (va len : Dword) : Mailbox := do
  let _ ← s.owned func ctx
  let lo := va.toNat
  let hi := va.toNat + len.toNat
  return ({ s with tlb := s.tlb.filter fun t =>
      !(t.ctx == ctx && (len == 0 || (decide (t.va < hi) && decide (lo < t.va + t.size)))) }, false)

/-- TLBINV (R422). -/
def execTlbinv (func : Nat) (va : Dword) (ctx : Nat) (len : Dword) (s : State) : Out :=
  .next (s.mailbox func false (s.tlbInvalidate func ctx va len))

/-! ## Resolution of page faults (R425 to R427) -/

/-- The threads parked on a fault ID, with the addresses that they wait for. -/
def State.onFault (s : State) (ctx fid : Nat) : List (Thread × Dword) :=
  s.threads.filterMap fun t =>
    match t.status with
    | .fault f va => if t.ctx = ctx ∧ f = fid then some (t, va) else none
    | _ => none

/-- A fault ID taken from a list. -/
def dropFid (fid : Nat) (l : List Nat) : List Nat := l.filter (· != fid)

/-- A descent engine's commands without a fault ID. -/
def Descent.dropFid (d : Descent) (ctx fid : Nat) : Descent :=
  { d with cmds := d.cmds.map fun m => if m.ctx = ctx then { m with fids := Machine.dropFid fid m.fids } else m }

/-- Outcome 0 for the work of engines, copies and controllers: each may go on (R426). -/
def State.retryWork (s : State) (ctx fid : Nat) : State :=
  { s with
    ldas := s.ldas.map fun l => if l.ctx = ctx ∧ l.fid = some fid then { l with fid := none } else l
    copies := s.copies.map fun b => if b.ctx = ctx then { b with fids := b.fids.filter (·.2 != fid) } else b
    cores := s.cores.map fun p =>
      (p.1, { p.2 with
        engines := p.2.engines.map fun e => e.map fun m =>
          if m.ctx = ctx then { m with fids := dropFid fid m.fids } else m
        descent := p.2.descent.dropFid ctx fid })
    tasks := s.tasks.map fun k =>
      if k.ctx = ctx then { k with image := { k.image with descent := k.image.descent.map fun d => d.dropFid ctx fid } } else k
    dies := s.dies.map fun p =>
      (p.1, { p.2 with rfbs := p.2.rfbs.map fun b => if b.ctx = ctx ∧ b.fid = some fid then { b with fid := none } else b })
    queues := s.queues.map fun p =>
      (p.1, if p.2.ctx = ctx ∧ p.2.block = some (.fault fid) then
        { p.2 with block := none, state := if p.2.inPacket then .running else .idle } else p.2) }

/-- The updates that wait for a fault ID, taken out of their list (R459). -/
def State.takeUpdates (s : State) (ctx fid : Nat) : List PendUpd × State :=
  (((s.ctx? ctx).map fun x => x.updates.filter (·.fid == fid)).getD [],
    s.updCtx ctx fun x => { x with updates := x.updates.filter (·.fid != fid) })

/-- The RMAs that wait for a fault ID. -/
def State.rmasOn (s : State) (ctx fid : Nat) : List Rma := s.net.rmas.filter fun r => r.ctx == ctx && r.fid == some fid

/-- A thread replays its access: it executes its instruction again with the rest of its fragment (R47), or sends a withdrawn
SHIP request again (R170). -/
def State.retryThread (s : State) (t : Thread) : State :=
  if t.resend.isNone then s.condDone t.tid false
  else
    let s := s.updThread t.tid fun t => { t with status := .parked (.refused 64) }
    if t.place.slot?.isSome then s.resendOne t.tid else s

/-- Outcome 0 (R426): every agent attached replays its access from translation. -/
def State.retryFault (s : State) (ctx fid : Nat) : State :=
  let s := (s.onFault ctx fid).foldl (fun s p => s.retryThread p.1) s
  let s := s.retryWork ctx fid
  let ups := s.takeUpdates ctx fid
  let s := ups.1.foldl (fun s u => s.devUpdate u.ctx u.va u.kind u.agent u.die u.unit u.task) ups.2
  (s.rmasOn ctx fid).foldl (fun s r => (s.updRma r.id fun r => { r with fid := none }).rmaGo r.id) s

/-- A refinement block whose access failed by RESOLVE (R195, R196, R427). -/
def State.failRfbFault (s : State) (die : Nat) (b : Rfb) : State :=
  match b.phase with
  | .waiting | .read => s.failRfb die b { cause := cPageFault.toNat, addr := b.addr } 0
  | .place =>
    s.putRfb die { b.stopped noOwner cPageFault (cPageFault.setWidth 32) (BitVec.ofNat 32 (256 * b.rung)) with fid := none }
  | _ => s.failRfb die b { cause := cPageFault.toNat, addr := b.status, acc := .write } (256 * b.rung)

/-- The failure of an access that RESOLVE ends: of the page and kind of a fault ID, at the first of the addresses given that
lies in the page. -/
def FidEnt.failure (f : FidEnt) (vas : List Nat) : Failure :=
  { cause := cPageFault.toNat, acc := f.acc
    addr := BitVec.ofNat 64 ((vas.find? fun a => a / 4096 == f.page).getD (4096 * f.page)) }

/-- The addresses of a bulk copy's bytes in the sectors that wait for a fault ID. -/
def BulkCopy.addrsOn (b : BulkCopy) (fid : Nat) : List Nat :=
  let mine := b.desc.pairs.filter fun p => b.fids.any fun x => x.1 == p.2 / 256 && x.2 == fid
  (if b.desc.src.isGlobal then mine.map (·.1) else []) ++ (if b.desc.dst.isGlobal then mine.map (·.2) else [])

/-- A matrix command at the head of its engine's order fails by RESOLVE (R328, R427). -/
def State.failMatrixFault (s : State) (k e : Nat) (m : MCmd) (f : FidEnt) : State :=
  match m.op with
  | .drain o =>
    let vas := (((o.elems m.base).map fun e => e.1 / 256).filter fun x => !o.done.contains x).map (256 * ·)
    s.drainFails (k / 64) (k % 64) e m o o.done (f.failure vas)
  | _ => s

/-- The addresses of the node records that the live rows of a descent are to read next. -/
def DCmd.nodeAddrs (m : DCmd) : List Nat :=
  let n := biasOff m.cfg.fmt m.cfg.dim + 4
  ((m.node.zip m.live).filter (·.2)).flatMap fun p =>
    let a := (m.cfg.node p.1).toNat
    a :: (List.range ((a % 4096 + n - 1) / 4096)).map fun i => (a / 4096 + i + 1) * 4096

/-- A descent command fails by RESOLVE (R190, R427). -/
def State.failDescentFault (s : State) (k : Nat) (m : DCmd) (f : FidEnt) : State :=
  match m.op with
  | .run .. => s.descentFails (k / 64) (k % 64) m (f.failure m.nodeAddrs) m.level
  | .grad n _ _ tree =>
    let elems := m.gradElems n tree (s.core k).descent.path
    let vas := ((elems.map (·.1 / 256)).filter fun x => !m.done.contains x).map (256 * ·)
    s.gradFails (k / 64) (k % 64) m elems m.done (f.failure vas)

/-- A saved descent command fails by RESOLVE (R191, R427): its task's handle at its issue names its die and core. -/
def State.failSavedDescent (s : State) (k : Task) (m : DCmd) (f : FidEnt) : State :=
  let s := s.updTask k.id fun k =>
    { k with image := { k.image with descent := k.image.descent.map fun d => { d with cmds := d.cmds.tail } } }
  s.commandFails m.ctx m.fut (f.failure m.nodeAddrs) (match m.op with
    | .run .. => m.level
    | .grad .. => m.done.length) 4 (m.taskHandle.toNat / 2 ^ 29) (m.taskHandle.toNat / 2 ^ 23 % 64) m.taskHandle

/-- The engines of the device: core, engine and head command. -/
def State.heads (s : State) : List (Nat × Nat × MCmd) :=
  s.cores.flatMap fun p => p.2.engines.zipIdx.filterMap fun e => e.1.head?.map fun m => (p.1, e.2, m)

/-- The record of a queue's fault (R423, KIND 4). The manual gives no die and unit of a queue processor, and no cause
where no access failed: they are unspecified (DESIGN CHOICE, log 22). -/
def State.queueRecord4 (s : State) (q fcode : Nat) (cause : Option (Nat × Acc)) : State :=
  let x := s.queue q
  let d := s.freshBelow 8
  let u := d.2.freshBelow 256
  let c := match cause with
    | some c => (c.1, u.2)
    | none => u.2.freshBelow 256
  c.2.postRecord x.ctx
    { time := 0, addr := x.ringbase, task := noOwner, detail := BitVec.ofNat 32 (q + fcode * 2 ^ 16), die := d.1, agent := 6,
      unit := u.1, cause := c.1, kind := 4, acc := (cause.map (·.2)).getD .read }

/-- A queue is faulted (R402, R411): it stays so until RESUME, which re-reads the packet at RDIDX. -/
def State.faultQueue (s : State) (q fcode : Nat) (cause : Option (Nat × Acc)) : State :=
  (s.queueRecord4 q fcode cause).updQueue q fun x =>
    { x with
      state := .faulted, fcode, block := none, inPacket := false, loops := []
      rdidx := if x.inPacket then x.rdidx - 1 else x.rdidx
      packets := if x.inPacket then x.packets.filter fun p => p.serial != x.serial else x.packets }

/-- A packet ends at a rejected action or a window error, and counts as complete (R407). -/
def State.rejectPacket (s : State) (q fcode : Nat) (cause : Option (Nat × Acc)) : State :=
  ((s.queueRecord4 q fcode cause).updQueue q fun x =>
    { x with
      state := .idle, fcode, block := none, inPacket := false, loops := []
      packets := x.packets.map fun p => if p.serial = x.serial then { serial := p.serial, ended := true } else p }).settleQueue q

/-- Outcome 1 (R427): every agent attached fails with PAGE_FAULT. -/
def State.failFault (s : State) (ctx : Nat) (f : FidEnt) : State :=
  let fid := f.fid
  let ts := s.onFault ctx fid
  let s := ts.foldl
    (fun s p =>
      match s.thread? p.1.tid with
      | some t =>
        (match t.status with
        | .fault .. =>
          ((s.updThread t.tid fun t => { t with status := .ready, resend := none }).tallyTrap t.tid).raise (s.actorOf t) t.tid
            { cause := cPageFault, faddr := p.2, acc := f.acc } (s.wordAt t.ctx t.pc)
        | _ => s)
      | none => s) s
  let s := (s.ldas.filter fun l => l.ctx == ctx && l.fid == some fid).foldl (fun s l => s.failCopy { l with fid := none } cPageFault) s
  let s := (s.copies.filter fun b => b.ctx == ctx && b.fids.any (·.2 == fid)).foldl
    (fun s b => s.copyFails b (f.failure (b.addrsOn fid))) s
  let s := (s.heads.filter fun h => h.2.2.ctx == ctx && h.2.2.fids.contains fid).foldl
    (fun s h => s.failMatrixFault h.1 h.2.1 h.2.2 f) s
  let s := (s.cores.filterMap fun p => p.2.descent.cmds.head?.map fun m => (p.1, m)).foldl
    (fun s p => if p.2.ctx = ctx ∧ p.2.fids.contains fid then s.failDescentFault p.1 p.2 f else s) s
  let s := s.tasks.foldl
    (fun s k =>
      match k.image.descent.bind fun d => d.cmds.head? with
      | some m => if m.ctx = ctx ∧ m.fids.contains fid then s.failSavedDescent k m f else s
      | none => s) s
  let s := s.dies.foldl
    (fun s p => (p.2.rfbs.filter fun b => b.ctx == ctx && b.fid == some fid).foldl (fun s b => s.failRfbFault p.1 b) s) s
  let s := (s.queues.filter fun p => p.2.ctx == ctx && p.2.block == some (.fault fid)).foldl
    (fun s p => s.faultQueue p.1 2 (some (5, f.acc))) s
  let ups := s.takeUpdates ctx fid
  let s := ups.1.foldl
    (fun s u => s.postRecord u.ctx
      { time := 0, addr := u.va, task := u.task, die := u.die, agent := u.agent, unit := u.unit, cause := 5, kind := 3
        acc := .rmw }) ups.2
  (s.rmasOn ctx fid).foldl (fun s r => s.rmaFails r (f.failure (r.todo.map fun p => r.loc.toNat + p.1))) s

/-- RESOLVE's operation (R426): `func` is none for the service firmware. -/
def State.resolveFault (s : State) (func : Option Nat) (fid ctx : Nat) (fail : Bool) : Mailbox := do
  match s.ctx? ctx with
  -- no fault ID of a context that has ended is outstanding
  | none => throw (5, 0)
  | some x =>
    demand (func.all (· == x.func)) 3
    match x.fids.find? (·.fid == fid) with
    | none => throw (5, 0)
    | some f =>
      let s := s.updCtx ctx fun x =>
        { x with fids := x.fids.filter (·.fid != fid), claims := x.claims.filter fun k => k.fid != fid || k.fid == 0 }
      return ((if fail then s.failFault ctx f else s.retryFault ctx fid).endAdoptions, false)

/-- RESOLVE (R426). -/
def execResolve (func : Option Nat) (fid ctx : Nat) (fail : Bool) (s : State) : Out :=
  match func with
  | some f => .next (s.mailbox f false (s.resolveFault func fid ctx fail))
  | none =>
    match s.resolveFault none fid ctx fail with
    | .ok r => if s.boot.state = .ready then .next r.1 else .next s
    | .error _ => .next s

/-! ## Exports (R419) -/

/-- An export from its descriptor of 32 bytes. -/
def parseExport (ctx x : Nat) : Option Export :=
  let base := bitsOf x 255 192
  let pages := bitsOf x 191 160
  if bitsOf x 143 138 = 0 ∧ bitsOf x 111 4 = 0 ∧ x % 2 = 0 ∧ base % 4096 = 0 ∧ canonical (BitVec.ofNat 64 base) ∧ 1 ≤ pages
      ∧ pages ≤ 2 ^ 20 then
    some { num := bitsOf x 127 112, ctx, base := BitVec.ofNat 64 base, pages, node := bitsOf x 159 144
           rctx := bitsOf x 137 128, xship := x.testBit 3, xw := x.testBit 2, xr := x.testBit 1 }
  else none

/-- EXPORT's operation (R419). -/
def State.addExport (s : State) (func ctx pa : Nat) : Mailbox := do
  let _ ← s.owned func ctx
  demand (decide (pa + 32 ≤ Config.usageBase)) 1
  match parseExport ctx (s.num pa 32) with
  | none => throw (1, 0)
  | some e =>
    demand (decide (s.exports.length < 4096) && !(s.exports.any (·.num == e.num))) 0x0B
    return ({ s with exports := s.exports ++ [e] }, false)

/-- EXPORT (R419). -/
def execExportCtx (func : Nat) (ctx : Nat) (pa : Nat) (s : State) : Out := .next (s.mailbox func false (s.addExport func ctx pa))

/-- UNEXPORT's operation (R419). -/
def State.dropExport (s : State) (func num ctx : Nat) : Mailbox := do
  let _ ← s.owned func ctx
  demand (s.exports.any fun e => e.num == num && e.ctx == ctx) 1
  return ({ s with exports := s.exports.filter (·.num != num) }, false)

/-- UNEXPORT (R419). -/
def execUnexportCtx (func : Nat) (num ctx : Nat) (s : State) : Out := .next (s.mailbox func false (s.dropExport func num ctx))

/-! ## Firmware (R438, R440) -/

/-- The inactive slot of the flash set. -/
def Boot.setInactive (b : Boot) (i : Option FwImage) : Boot :=
  { b with flash := b.flash.set (1 - b.slot) i, activate := b.activate && i.isSome }

/-- The bytes of an image that FWWRITE reads: an image has at most 32 MiB (R438). -/
def fwLen (len : Nat) : Nat := min len (32 * 2 ^ 20)

/-- FWWRITE's operation (R440): it stays busy until a service core has verified and written the image. An image that lies
outside device memory, or in recovery past the bus addresses of a port, is a field out of range (DEDUCED, log 78). -/
def State.fwBegin (s : State) (func addr len : Nat) : Mailbox := do
  demand (s.holdsSem func) 3
  demand (decide (addr + fwLen len ≤ if s.boot.state = .recovery then Config.haKey else Config.usageBase)) 1
  return ({ s with boot := { s.boot with fw := some { func, addr, len } } }, true)

/-- FWWRITE (R440). -/
def execFwwrite (func : Nat) (addr len : Nat) (s : State) : Out := .next (s.mailbox func true (s.fwBegin func addr len))

/-- The FAILCODE of an image's checks other than revocation and SVN, in the order of R438: 0 where all hold; and the key-hash
slots that its key matches. Reserved bits of the header are ignored (R6). -/
def imageChecks (l : List Byte) : Nat × List Nat :=
  let h := leNat (l.take 256)
  let paylen := bitsOf h 127 96
  let keyoff := bitsOf h 95 64
  let payload := (l.drop 256).take paylen
  let key := (payload.drop keyoff).take 2592
  let sig := (l.drop (256 + paylen)).take 4627
  let formatOk := bitsOf h 31 0 == 0x46575853 && bitsOf h 47 32 == 1
    && decide (paylen ≤ 32 * 2 ^ 20 - 4883) && decide (keyoff + 2592 ≤ paylen) && decide (256 + paylen + 4627 ≤ l.length)
  let dig := Config.sha3 key
  let slots := (List.range 4).filter fun i => Config.keyHash i == dig
  if !formatOk then (5, [])
  else if natLe 64 (bitsOf h 1535 1024) ≠ dig ∨ slots = [] then (1, [])
  else if natLe 64 (bitsOf h 2047 1536) ≠ Config.sha3 payload ∨ !Config.mldsaVerify key (Config.sha3 (l.take 256)) sig then
    (4, slots)
  else (0, slots)

/-- An image that every check of R438 accepts. -/
def Boot.acceptImage (b : Boot) (l : List Byte) : Option FwImage :=
  let h := leNat (l.take 256)
  let c := imageChecks l
  let svn := bitsOf h 63 48
  if c.1 = 0 ∧ c.2.any (fun k => b.revoked[k]? == some false) ∧ b.svnFloor ≤ svn then
    some { svn, fail := 0, keys := c.2, digest := natLe 64 (bitsOf h 2047 1536) }
  else none

/-- The bytes that FWWRITE reads: device memory, or host memory over HA in recovery (R440). -/
def State.fwBytes (s : State) (w : FwWrite) : List Byte :=
  s.bytes (if s.boot.state = .recovery then Config.haKey + w.addr else w.addr) (fwLen w.len)

/-- A FWWRITE that is busy ends (R440): the inactive slot holds the image, or is empty and the write is rejected. -/
def State.fwFinish (s : State) : State :=
  match s.boot.fw with
  | none => s
  | some w =>
    let image := if s.holdsSem w.func then s.boot.acceptImage (s.fwBytes w) else none
    let reason := if s.holdsSem w.func then 8 else 0x0A
    let s : State := { s with boot := { s.boot.setInactive image with fw := none } }
    if image.isSome then s.setStat w.func 2 0 0 else s.setStat w.func 3 reason 0

/-- A FWWRITE whose holder has lost the semaphore ends rejected, and the inactive slot is empty (R440). -/
def State.fwLeaseCheck (s : State) : State :=
  match s.boot.fw with
  | some w => if s.holdsSem w.func then s else s.fwFinish
  | none => s

/-- FWACTIVATE's operation (R440). -/
def State.fwActivate (s : State) (func : Nat) : Mailbox := do
  demand (s.holdsSem func) 3
  demand (((s.boot.flash[1 - s.boot.slot]?).join).any fun i => i.fail == 0) 9
  return ({ s with boot := { s.boot with activate := true } }, false)

/-- FWACTIVATE (R440). -/
def execFwactivate (func : Nat) (s : State) : Out := .next (s.mailbox func true (s.fwActivate func))

end Sys2Proof.Machine
end

