-- ==== Sys2Proof/Machine/Debug.lean ====
section
/-! DEFINITION. The sub-operations of the mailbox operation DEBUG (R353 to R355). -/

namespace Sys2Proof.Machine

/-! ## Threads under the debugger -/

/-- The thread of a context in a slot. -/
def State.threadAt (s : State) (ctx : Nat) (pl : DbgPlace) : Option Thread :=
  s.threads.find? fun t => t.ctx == ctx && t.place == .core pl.die pl.core pl.lane pl.slot

/-- Whether a thread waits for the debugger or to enter its handler. -/
def Thread.inTrap (t : Thread) : Bool :=
  match t.status with
  | .trapped _ => true
  | _ => false

/-- Whether a thread is Halted, alone or with its fragment (R50). -/
def State.haltedAt (s : State) (t : Thread) : Bool :=
  t.halted || (t.member.any fun m => (s.group? m.1).any fun g => g.frags.any fun f => f.mask.getLsbD m.2 && f.halted)

/-- Whether a thread is Trapped or Halted: a Trapped fragment stays so until it leaves its handler (R50). -/
def State.stoppedAt (s : State) (t : Thread) : Bool := t.inTrap || t.priv == .h || s.haltedAt t

/-- A context and its thread in a slot, for sub-operations 5 to 7 (R354): 0x0D where there is none, 0x0C where it runs. -/
def State.debugThread (s : State) (func ctx : Nat) (pl : DbgPlace) : Except (Nat × Nat) Thread := do
  let _ ← s.owned func ctx
  match s.threadAt ctx pl with
  | none => throw (0x0D, 0)
  | some t =>
    demand (s.stoppedAt t) 0x0C
    return t

/-! ## ATTACH, STOPCTX, RESUME and WRBP -/

/-- The trap that a frame describes. -/
def TrapFrame.trap (f : TrapFrame) : Trap :=
  { cause := f.cause, faddr := f.faddr, detail0 := f.detail0, detail1 := f.detail1 }

/-- Steps 3 and 4 of R347 for a fragment that stood Trapped to the debugger. -/
def State.leaveDebugger (s : State) (a : Actor) : State :=
  let ts := (s.actorTids a).filterMap s.thread?
  let inH := ts.any (·.priv == .h)
  let ending := (ts.filter fun u => inH || u.handler.isNone).foldl
    (fun (l : List Thread) u => if l.any (·.task == u.task) then l else l ++ [u]) []
  let s := ending.foldl
    (fun s u => (s.postRecord u.ctx (trapRecord s u u.frame.trap)).endTask u.task (some u.frame.cause)) s
  let tids := (ts.map (·.tid)).filter fun i => (s.thread? i).isSome
  let s := s.updThreads tids fun t => { t with status := .trapped false }
  match ts.filter fun t => tids.contains t.tid with
  | [] => s
  | t :: _ =>
    if t.place.slot?.isNone then s
    else
      match a with
      | .frag gid _ => s.nextHandler gid
      | _ => s.enterHandler tids

/-- The fragments of a context that stand Trapped to the debugger, lowest fragment ID first. -/
def State.atDebugger (s : State) (ctx : Nat) : List Actor :=
  let held : Thread → Bool := fun t => t.ctx == ctx && t.status == .trapped true
  let frees := (s.threads.filter fun t => held t && t.member.isNone).map fun t => Actor.thread t.tid
  let frags := s.groups.flatMap fun g => (List.range 32).filterMap fun i =>
    match g.frag? i with
    | some f => if (g.threadsOf f.mask).any fun j => (s.thread? j).any held then some (Actor.frag g.gid i) else none
    | none => none
  frees ++ frags

/-- ATTACH's operation (R354). -/
def State.debugAttach (s : State) (func ctx : Nat) (on : Bool) : Mailbox := do
  let _ ← s.owned func ctx
  let s := s.updCtx ctx fun x => { x with attached := on }
  return (if on then s else ((s.atDebugger ctx).foldl State.leaveDebugger s).endAdoptions, false)

/-- ATTACH (R354). -/
def execAttach (func : Nat) (ctx : Nat) (on : Bool) (s : State) : Out :=
  .next (s.mailbox func false (s.debugAttach func ctx on))

/-- A fragment that STOPCTX no longer halts: beside a Trapped sibling it stays Halted, or goes on to halt (`held`); one that is
Trapped, or runs its handler, does not (R48, R354). -/
def State.unstop (s : State) (g : Group) (held : Bool) (f : Frag) : Frag :=
  let inHandler := (g.threadsOf f.mask).any fun i => (s.thread? i).any (·.priv == .h)
  if held && f.state != .trapped && !inHandler then { f with stop := false }
  else { f with halted := false, skid := none, stop := false }

/-- The threads of a context that halted under STOPCTX go on (R354): a fragment whose group has a Trapped one stays. -/
def State.resumeContext (s : State) (ctx : Nat) : State :=
  let mine : Thread → Bool := fun t => t.ctx == ctx && t.member.isNone
  let held := fun (g : Group) => s.handlerRuns g || g.frags.any (·.state == .trapped)
  let gs := s.groups.filter (·.ctx == ctx)
  let tids := (s.threads.filter fun t => mine t && t.halted).map (·.tid)
    ++ gs.flatMap fun g => (g.frags.filter fun f => f.halted && !(s.unstop g (held g) f).halted).flatMap fun f => g.threadsOf f.mask
  let s : State := { s with
    threads := s.threads.map fun t => if mine t then { t with halted := false, skid := none } else t
    groups := s.groups.map fun g => if g.ctx = ctx then { g with frags := g.frags.map (s.unstop g (held g)) } else g }
  s.refreshAge tids

/-- STOPCTX's operation (R354): what has halted goes on when it is cleared, of which the table does not speak (DESIGN CHOICE, log
122). -/
def State.debugStop (s : State) (func ctx : Nat) (on : Bool) : Mailbox := do
  let _ ← s.owned func ctx
  let s := s.updCtx ctx fun x => { x with stop := on }
  return (if on then s.haltContext ctx { cause := cBreak } else s.resumeContext ctx, false)

/-- STOPCTX (R354). -/
def execStopctx (func : Nat) (ctx : Nat) (on : Bool) (s : State) : Out :=
  .next (s.mailbox func false (s.debugStop func ctx on))

/-- RESUME's operation (R354): the effect of TRET or TRET.NEXT on a fragment that trapped to the debugger. -/
def State.debugResumeAt (s : State) (func ctx : Nat) (pl : DbgPlace) (next : Bool) : Mailbox := do
  let x ← s.owned func ctx
  match s.threadAt ctx pl with
  | none => throw (0x0D, 0)
  | some t =>
    demand (t.status == .trapped true) 0x0C
    let a := s.actorOf t
    -- the target is checked as a branch of the fragment, which traps where it fails (R263, R351)
    match firstStop s (tretStop next) (s.actorTids a) with
    | some (j, .trap e) => return (((s.tallyTrap j).raise a j e (s.wordAt t.ctx t.pc)).endAdoptions, false)
    | _ =>
      let s := (s.trapReturn a next).splitAfter a
      return (if x.stop then s.resumeContext ctx else s, false)

/-- RESUME (R354). -/
def execDebugResume (func : Nat) (ctx : Nat) (pl : DbgPlace) (next : Bool) (s : State) : Out :=
  .next (s.mailbox func false (s.debugResumeAt func ctx pl next))

/-- WRBP's operation (R354, R355). -/
def State.writeBp (s : State) (func ctx idx : Nat) (val : Dword) : Mailbox := do
  let _ ← s.owned func ctx
  demand (decide (idx ≤ 4) && (idx != 0 || loWord val &&& 0xE0E0E0E0 == 0)) 1
  return (s.updCtx ctx fun x =>
    if idx = 0 then { x with bpctl := loWord val } else { x with bpa := x.bpa.set (idx - 1) val }, false)

/-- WRBP (R354). -/
def execWrbp (func : Nat) (ctx : Nat) (idx : Nat) (val : Dword) (s : State) : Out :=
  .next (s.mailbox func false (s.writeBp func ctx idx val))

/-! ## RDFRAME, RDSTATE and WRSTATE -/

/-- Whether bytes of device memory at a physical address may be read or written for the debugger. -/
def devicePa (pa n align : Nat) : Bool := pa % align == 0 && decide (pa + n ≤ Config.usageBase)

/-- RDFRAME's operation (R354). -/
def State.readFrame (s : State) (func ctx : Nat) (pl : DbgPlace) (pa : Nat) : Mailbox := do
  let t ← s.debugThread func ctx pl
  demand (devicePa pa 64 64) 1
  return (s.putMem pa (natLe 64 t.frame.toNat), false)

/-- RDFRAME (R354). -/
def execRdframe (func : Nat) (ctx : Nat) (pl : DbgPlace) (pa : Nat) (s : State) : Out :=
  .next (s.mailbox func false (s.readFrame func ctx pl pa))

/-- What a thread waits for, as two words of its image: the model's own encoding (DESIGN CHOICE, log 21). -/
def Status.words : Status → Nat × Nat
  | .ready => (0, 0)
  | .parked (.future va _) => (1, va.toNat)
  | .parked (.bit va n) => (2, va.toNat + 8 * n)
  | .parked (.barrier va _) => (3, va.toNat)
  | .parked .bind => (4, 0)
  | .parked (.ring n) => (5, n)
  | .parked (.tag t m) => (6, 16 * m + t)
  | .parked .meet => (7, 0)
  | .parked (.refused n) => (8, n)
  | .parked .shipRun => (9, 0)
  | .parked .copies => (10, 0)
  | .fault fid va => (11 + 2 ^ 8 * fid, va.toNat)
  | .trapped dbg => (if dbg then 13 else 12, 0)
  | .adopting => (14, 0)
  | .parked (.unit done) => (15, if done then 1 else 0)
  | .offered lc => (16, lc)

/-- Bytes of a thread's image with a number of registers (R430). -/
def imageBytes (regs : Nat) : Nat := roundUp (4 * regs + regs / 2 + 256) 256

/-- A list's bytes, filled with zeros to a length. -/
def padTo (n : Nat) (l : List Byte) : List Byte := (l ++ List.replicate n 0).take n

/-- The image of a thread (R430): words, tags of 4 bits, and a block of 256 bytes with the rest (DESIGN CHOICE, log 21). -/
def Thread.image (t : Thread) (halted : Bool) : List Byte :=
  let words := t.regs.flatMap fun r => natLe 4 r.val.toNat
  let tags := natLe (t.regs.length / 2) ((t.regs.zipIdx.map fun r => r.1.tag.code.toNat * 2 ^ (4 * r.2)).sum)
  let prv := match t.priv with
    | .u => 0
    | .h => 1
    | .f => 2
  let c := t.status.words
  let block := natLe 8 t.preds.toNat ++ natLe 4 t.rstack.length ++ natLe 4 t.spilled
    ++ padTo 64 (t.rstack.flatMap fun a => natLe 8 a.toNat) ++ natLe 8 t.pc.toNat
    ++ [BitVec.ofNat 8 t.prio, BitVec.ofNat 8 prv, if halted then 1 else 0, 0, 0, 0, 0, 0]
    ++ natLe 8 c.1 ++ natLe 8 c.2 ++ List.replicate 80 0 ++ natLe 64 t.frame.toNat
  padTo (imageBytes t.regs.length) (words ++ tags ++ block)

/-- RDSTATE's operation (R354). -/
def State.readThread (s : State) (func ctx : Nat) (pl : DbgPlace) (pa : Nat) : Mailbox := do
  let t ← s.debugThread func ctx pl
  demand (devicePa pa (imageBytes t.regs.length) 256) 1
  return (s.putMem pa (t.image (s.haltedAt t)), false)

/-- RDSTATE (R354). -/
def execRdstate (func : Nat) (ctx : Nat) (pl : DbgPlace) (pa : Nat) (s : State) : Out :=
  .next (s.mailbox func false (s.readThread func ctx pl pa))

/-- The registers of an image, or none where a tag is reserved. -/
def imageRegs (x n : Nat) : Option (List Reg) :=
  (List.range n).mapM fun i =>
    (Tag.ofCode (BitVec.ofNat 4 (x / 2 ^ (32 * n + 4 * i)))).map fun tag => { val := BitVec.ofNat 32 (x / 2 ^ (32 * i)), tag }

/-- A thread's registers, predicates and PC replaced: also the frame's, from which a Trapped or Halted thread goes on. The PC is
always a multiple of 8 (R220): the three low bits that WRSTATE gives are dropped (DESIGN CHOICE, log 21). -/
def Thread.replace (t : Thread) (regs : List Reg) (preds : BitVec 7) (pc : Dword) (frame : Bool) : Thread :=
  let t := { t with regs, preds, pc }
  if frame then { t with frame := { t.frame with preds, tpc := pc } } else t

/-- WRSTATE's operation (R354). -/
def State.writeThread (s : State) (func ctx : Nat) (pl : DbgPlace) (pa : Nat) : Mailbox := do
  let t ← s.debugThread func ctx pl
  let n := t.regs.length
  demand (devicePa pa (imageBytes n) 256) 1
  let x := s.num pa (imageBytes n)
  match imageRegs x n with
  | none => throw (1, 0)
  | some regs =>
    let block := x / 2 ^ (36 * n)
    let preds := BitVec.ofNat 7 block
    let pc := BitVec.ofNat 64 (block / 2 ^ 643 * 8)
    return (s.updThread t.tid fun t => t.replace regs preds pc (t.inTrap || s.haltedAt t), false)

/-- WRSTATE (R354). -/
def execWrstate (func : Nat) (ctx : Nat) (pl : DbgPlace) (pa : Nat) (s : State) : Out :=
  .next (s.mailbox func false (s.writeThread func ctx pl pa))

end Sys2Proof.Machine
end

