-- ==== Sys2Proof/Machine/Float.lean ====
section
/-! DEFINITION. Floating-point arithmetic, packed and dot products, and the special functions (R298 to R305). -/

namespace Sys2Proof.Machine

/-- An operation on F32 elements of one or two sources and an addend: code and exceptions. -/
abbrev ElemOp := List Nat → Nat × FloatEx

/-- The tag checks of F32 sources, each with its field number, over one register or both of a pair (R299, R301). -/
def checkF32 (t : Thread) (pr : Bool) (srcs : List (GReg × Nat)) : Except Stop Unit :=
  srcs.forM fun p => t.typedSpan .f32 p.2 p.1.toNat (if pr then 2 else 1)

/-- An F32 operation, single or on pairs (R299, R301). -/
def f32Thread (pr : Bool) (d : GReg) (srcs : List (GReg × Nat)) (op : ElemOp) (t : Thread) : Except Stop Thread := do
  checkF32 t pr srcs
  let rs := (List.range (if pr then 2 else 1)).map fun k => op (srcs.map fun p => (t.reg (p.1.toNat + k)).val.toNat)
  floatCheck t (rs.foldl (fun e r => e ||| r.2) exNone)
  return t.putSpan d.toNat (rs.map fun r => { val := BitVec.ofNat 32 r.1, tag := .f32 })

/-- An F64 operation (R299, R301). -/
def f64Thread (d : GReg) (srcs : List (GReg × Nat)) (op : ElemOp) (t : Thread) : Except Stop Thread := do
  srcs.forM fun p => t.typedF64 p.1 p.2
  let r := op (srcs.map fun p => (t.pair p.1).toNat)
  floatCheck t r.2
  return t.putPair d (BitVec.ofNat 64 r.1) .f64lo .f64hi

/-- Element `i` of a list of codes as an exact value. -/
def arg (f : FloatFmt) (l : List Nat) (i : Nat) : Exact := f.decode ((l[i]?).getD 0)

/-- a + b of a format (R301). -/
def addOp (f : FloatFmt) (rnd : Rnd) : ElemOp := fun l => fAdd f rnd (arg f l 0) (arg f l 1)

/-- a × b of a format (R301). -/
def mulOp (f : FloatFmt) (rnd : Rnd) : ElemOp := fun l => fMul f rnd (arg f l 0) (arg f l 1)

/-- a × b + c of a format (R301). -/
def fmaOp (f : FloatFmt) (rnd : Rnd) : ElemOp := fun l => fFma f rnd (arg f l 0) (arg f l 1) (arg f l 2)

/-- The smaller or larger of a and b of a format (R152, R301). -/
def mmOp (f : FloatFmt) (wantMax : Bool) : ElemOp := fun l => fMinMax f wantMax ((l[0]?).getD 0) ((l[1]?).getD 0)

/-- The format F32. -/
def ff32 : FloatFmt := Fmt.f32.float

/-- The format F64. -/
def ff64 : FloatFmt := Fmt.f64.float

/-! ## FP32 and FP64 (R301, R302) -/

/-- FADD and FADD.PR. -/
def execFadd (h : Hdr) (pr : Bool) (rnd : Rnd) (d a b : GReg) (s : State) : Out :=
  runReg (.fadd h pr rnd d a b) s (f32Thread pr d [(a, 0), (b, 1)] (addOp ff32 rnd))

/-- FMUL and FMUL.PR. -/
def execFmul (h : Hdr) (pr : Bool) (rnd : Rnd) (d a b : GReg) (s : State) : Out :=
  runReg (.fmul h pr rnd d a b) s (f32Thread pr d [(a, 0), (b, 1)] (mulOp ff32 rnd))

/-- FFMA and FFMA.PR. -/
def execFfma (h : Hdr) (pr : Bool) (rnd : Rnd) (d a b c : GReg) (s : State) : Out :=
  runReg (.ffma h pr rnd d a b c) s (f32Thread pr d [(a, 0), (b, 1), (c, 2)] (fmaOp ff32 rnd))

/-- FMIN and FMIN.PR. -/
def execFmin (h : Hdr) (pr : Bool) (d a b : GReg) (s : State) : Out :=
  runReg (.fmin h pr d a b) s (f32Thread pr d [(a, 0), (b, 1)] (mmOp ff32 false))

/-- FMAX and FMAX.PR. -/
def execFmax (h : Hdr) (pr : Bool) (d a b : GReg) (s : State) : Out :=
  runReg (.fmax h pr d a b) s (f32Thread pr d [(a, 0), (b, 1)] (mmOp ff32 true))

/-- The effect of FCMP on a thread (R302). -/
def fcmpThread (cc : FCond) (pd : PReg) (a b : GReg) (t : Thread) : Except Stop Thread := do
  checkF32 t false [(a, 0), (b, 1)]
  let r := fCompare cc (f32 (t.val a)) (f32 (t.val b))
  floatCheck t r.2
  return t.setPred pd r.1

/-- FCMP. -/
def execFcmp (h : Hdr) (cc : FCond) (pd : PReg) (a b : GReg) (s : State) : Out :=
  runReg (.fcmp h cc pd a b) s (fcmpThread cc pd a b)

/-- FADD64. -/
def execFadd64 (h : Hdr) (rnd : Rnd) (d a b : GReg) (s : State) : Out :=
  runReg (.fadd64 h rnd d a b) s (f64Thread d [(a, 0), (b, 1)] (addOp ff64 rnd))

/-- FMUL64. -/
def execFmul64 (h : Hdr) (rnd : Rnd) (d a b : GReg) (s : State) : Out :=
  runReg (.fmul64 h rnd d a b) s (f64Thread d [(a, 0), (b, 1)] (mulOp ff64 rnd))

/-- FFMA64. -/
def execFfma64 (h : Hdr) (rnd : Rnd) (d a b c : GReg) (s : State) : Out :=
  runReg (.ffma64 h rnd d a b c) s (f64Thread d [(a, 0), (b, 1), (c, 2)] (fmaOp ff64 rnd))

/-- FMIN64. -/
def execFmin64 (h : Hdr) (d a b : GReg) (s : State) : Out :=
  runReg (.fmin64 h d a b) s (f64Thread d [(a, 0), (b, 1)] (mmOp ff64 false))

/-- FMAX64. -/
def execFmax64 (h : Hdr) (d a b : GReg) (s : State) : Out :=
  runReg (.fmax64 h d a b) s (f64Thread d [(a, 0), (b, 1)] (mmOp ff64 true))

/-- The effect of FCMP64 on a thread (R302). -/
def fcmp64Thread (cc : FCond) (pd : PReg) (a b : GReg) (t : Thread) : Except Stop Thread := do
  t.typedF64 a 0
  t.typedF64 b 1
  let r := fCompare cc (f64 (t.pair a)) (f64 (t.pair b))
  floatCheck t r.2
  return t.setPred pd r.1

/-- FCMP64. -/
def execFcmp64 (h : Hdr) (cc : FCond) (pd : PReg) (a b : GReg) (s : State) : Out :=
  runReg (.fcmp64 h cc pd a b) s (fcmp64Thread cc pd a b)

/-! ## Packed half-width (R303) -/

/-- The format of a packed half-width instruction. -/
def hfFmt : HFmt → Fmt
  | .bf16 => .bf16
  | .f16 => .f16

/-- A packed half-width operation: two independent elements (R303). -/
def halfThread (hf : HFmt) (d : GReg) (srcs : List (GReg × Nat)) (op : ElemOp) (t : Thread) : Except Stop Thread := do
  srcs.forM fun p => t.typed p.1.toNat (fmtTag (hfFmt hf)) p.2
  let rs := [0, 1].map fun k => op (srcs.map fun p => elemBits (hfFmt hf) (t.val p.1).toNat k)
  floatCheck t (rs.foldl (fun e r => e ||| r.2) exNone)
  return t.put d (BitVec.ofNat 32 (putElems (hfFmt hf) 0 0 (rs.map (·.1)))) (fmtTag (hfFmt hf))

/-- HADD2. -/
def execHadd2 (h : Hdr) (fmt : HFmt) (rnd : Rnd) (d a b : GReg) (s : State) : Out :=
  runReg (.hadd2 h fmt rnd d a b) s (halfThread fmt d [(a, 0), (b, 1)] (addOp (hfFmt fmt).float rnd))

/-- HMUL2. -/
def execHmul2 (h : Hdr) (fmt : HFmt) (rnd : Rnd) (d a b : GReg) (s : State) : Out :=
  runReg (.hmul2 h fmt rnd d a b) s (halfThread fmt d [(a, 0), (b, 1)] (mulOp (hfFmt fmt).float rnd))

/-- HFMA2. -/
def execHfma2 (h : Hdr) (fmt : HFmt) (rnd : Rnd) (d a b c : GReg) (s : State) : Out :=
  runReg (.hfma2 h fmt rnd d a b c) s (halfThread fmt d [(a, 0), (b, 1), (c, 2)] (fmaOp (hfFmt fmt).float rnd))

/-! ## Dot products (R304) -/

/-- The element format of a dot product. -/
def dotFmt : DotFmt → Fmt
  | .e4m3 => .e4m3 | .e5m2 => .e5m2 | .i8 => .i8 | .e2m1 => .e2m1

/-- The elements of a span of `n` registers. -/
def dotElems (f : Fmt) (t : Thread) (r : GReg) (n : Nat) : List Exact :=
  (t.span r n).flatMap fun w => (List.range f.lanes).map fun i => f.dec (elemBits f w.toNat i)

/-- A dot product over spans of `n` registers (R304). -/
def dotThread (df : DotFmt) (n : Nat) (rnd : Rnd) (d a b c : GReg) (t : Thread) : Except Stop Thread := do
  t.typedSpan (fmtTag (dotFmt df)) 0 a.toNat n
  t.typedSpan (fmtTag (dotFmt df)) 1 b.toNat n
  t.typed c.toNat .f32 2
  let ps := (dotElems (dotFmt df) t a n).zip (dotElems (dotFmt df) t b n)
  let r := fDot rnd (f32 (t.val c)) (if df = .i8 then ps.map intProduct else ps)
  floatCheck t r.2
  return t.put d (BitVec.ofNat 32 r.1) .f32

/-- DOT4. -/
def execDot4 (h : Hdr) (fmt : DotFmt) (rnd : Rnd) (d a b c : GReg) (s : State) : Out :=
  runReg (.dot4 h fmt rnd d a b c) s (dotThread fmt 1 rnd d a b c)

/-- DOT8: pairs, or one register of E2M1. -/
def execDot8 (h : Hdr) (fmt : DotFmt) (rnd : Rnd) (d a b c : GReg) (s : State) : Out :=
  runReg (.dot8 h fmt rnd d a b c) s (dotThread fmt (if fmt = .e2m1 then 1 else 2) rnd d a b c)

/-! ## Special functions (R164, R165, R305) -/

/-- A special function: its exceptions are decided before its window opens (R305). -/
def specialThread (la : BitVec 4) (d a : GReg) (f : Word → Word × FloatEx) (t : Thread) : Except Stop Thread := do
  t.typed a.toNat .f32 0
  let r := f (t.val a)
  floatCheck t r.2
  return t.putLong la d.toNat [{ val := r.1, tag := .f32 }]

/-- FRCP. -/
def execFrcp (h : Hdr) (d a : GReg) (s : State) : Out := runReg (.frcp h d a) s (specialThread h.la d a fRcp)

/-- FRSQ. -/
def execFrsq (h : Hdr) (d a : GReg) (s : State) : Out := runReg (.frsq h d a) s (specialThread h.la d a fRsq)

/-- FSQRT. -/
def execFsqrt (h : Hdr) (rnd : Rnd) (d a : GReg) (s : State) : Out :=
  runReg (.fsqrt h rnd d a) s (specialThread h.la d a (fSqrt rnd))

/-- FEXP2. -/
def execFexp2 (h : Hdr) (d a : GReg) (s : State) : Out := runReg (.fexp2 h d a) s (specialThread h.la d a fExp2)

/-- FLOG2. -/
def execFlog2 (h : Hdr) (d a : GReg) (s : State) : Out := runReg (.flog2 h d a) s (specialThread h.la d a fLog2)

/-- FSIN. -/
def execFsin (h : Hdr) (d a : GReg) (s : State) : Out := runReg (.fsin h d a) s (specialThread h.la d a (fSinCos false))

/-- FCOS. -/
def execFcos (h : Hdr) (d a : GReg) (s : State) : Out := runReg (.fcos h d a) s (specialThread h.la d a (fSinCos true))

/-- FTANH. -/
def execFtanh (h : Hdr) (d a : GReg) (s : State) : Out := runReg (.ftanh h d a) s (specialThread h.la d a fTanh)

/-- The oldest pending result of a register written, once it is known (R223, R224). -/
def Thread.landFirst (t : Thread) (reg : Nat) : Thread :=
  match t.pend.find? (·.reg == reg) with
  | some p => if p.known then { t with regs := t.regs.set p.reg p.val, pend := t.pend.erase p } else t
  | none => t

/-- A pending long-latency result of a register is written (R224): those of one register in the order of their
instructions. -/
def execLongLatencyResult (tid reg : Nat) (s : State) : Out := .next (s.updThread tid fun t => t.landFirst reg)

end Sys2Proof.Machine
end

