-- ==== Sys2Proof/Machine/IntArith.lean ====
section
/-! DEFINITION. Integer arithmetic, logic, shifts, bits, moves, addresses, compares and predicates (R238 to R254). -/

namespace Sys2Proof.Machine

/-! ## Arithmetic (R241, R242) -/

/-- One register result with tag I32 and no predicate. -/
def runI32 (i : Instr) (s : State) (d : GReg) (f : Thread → Word) : Out :=
  runReg i s fun t => .ok (t.put d (f t) .i32)

/-- One register result with tag I32, and a predicate. -/
def runI32Flag (i : Instr) (s : State) (pd : PReg) (d : GReg) (f : Thread → Word × Bool) : Out :=
  runReg i s fun t => .ok ((t.put d (f t).1 .i32).setPred pd (f t).2)

/-- A pair result with tag I32 on both registers, and a predicate. -/
def runI64Flag (i : Instr) (s : State) (pd : PReg) (d : GReg) (f : Thread → Dword × Bool) : Out :=
  runReg i s fun t => .ok ((t.putPair d (f t).1 .i32 .i32).setPred pd (f t).2)

/-- A pair result with tag I32 on both registers. -/
def runI64 (i : Instr) (s : State) (d : GReg) (f : Thread → Dword) : Out :=
  runReg i s fun t => .ok (t.putPair d (f t) .i32 .i32)

/-- IADD (R241). -/
def execIadd (h : Hdr) (v : AddSat) (pd : PReg) (d a b : GReg) (s : State) : Out :=
  runI32Flag (.iadd h v pd d a b) s pd d fun t => addFlag v (t.val a) (t.val b)

/-- ISUB (R241). -/
def execIsub (h : Hdr) (v : AddSat) (pd : PReg) (d a b : GReg) (s : State) : Out :=
  runI32Flag (.isub h v pd d a b) s pd d fun t => subFlag v (t.val a) (t.val b)

/-- IMUL (R241). -/
def execImul (h : Hdr) (d a b : GReg) (s : State) : Out :=
  runI32 (.imul h d a b) s d fun t => t.val a * t.val b

/-- The high word of a product, signed or unsigned (R241). -/
def mulHigh (uns : Bool) (a b : Word) : Word :=
  if uns then BitVec.ofNat 32 (a.toNat * b.toNat / 2 ^ 32) else BitVec.ofInt 32 (a.toInt * b.toInt / 2 ^ 32)

/-- IMULH (R241). -/
def execImulh (h : Hdr) (uns : Bool) (d a b : GReg) (s : State) : Out :=
  runI32 (.imulh h uns d a b) s d fun t => mulHigh uns (t.val a) (t.val b)

/-- IMAD (R241). -/
def execImad (h : Hdr) (d a b c : GReg) (s : State) : Out :=
  runI32 (.imad h d a b c) s d fun t => t.val a * t.val b + t.val c

/-- IADD64 (R241). -/
def execIadd64 (h : Hdr) (pd : PReg) (d a b : GReg) (s : State) : Out :=
  runI64Flag (.iadd64 h pd d a b) s pd d fun t => (t.pair a + t.pair b, carryAdd (t.pair a) (t.pair b))

/-- ISUB64 (R241). -/
def execIsub64 (h : Hdr) (pd : PReg) (d a b : GReg) (s : State) : Out :=
  runI64Flag (.isub64 h pd d a b) s pd d fun t => (t.pair a - t.pair b, borrowSub (t.pair a) (t.pair b))

/-- The smaller of two words, signed or unsigned. -/
def minWord (uns : Bool) (a b : Word) : Word := if (if uns then b.ult a else b.slt a) then b else a

/-- The larger of two words, signed or unsigned. -/
def maxWord (uns : Bool) (a b : Word) : Word := if (if uns then a.ult b else a.slt b) then b else a

/-- IMIN (R241). -/
def execImin (h : Hdr) (uns : Bool) (d a b : GReg) (s : State) : Out :=
  runI32 (.imin h uns d a b) s d fun t => minWord uns (t.val a) (t.val b)

/-- IMAX (R241). -/
def execImax (h : Hdr) (uns : Bool) (d a b : GReg) (s : State) : Out :=
  runI32 (.imax h uns d a b) s d fun t => maxWord uns (t.val a) (t.val b)

/-- The absolute value, wrapping or saturating at −2^31 (R241). -/
def absWord (sat : Bool) (a : Word) : Word :=
  if sat && a == 0x80000000 then 0x7FFFFFFF else if a.slt 0 then -a else a

/-- IABS (R241). -/
def execIabs (h : Hdr) (sat : Bool) (d a : GReg) (s : State) : Out :=
  runI32 (.iabs h sat d a) s d fun t => absWord sat (t.val a)

/-- IADD, immediate form (R242). -/
def execIaddImm (h : Hdr) (d a : GReg) (imm : BitVec 24) (s : State) : Out :=
  runI32 (.iaddImm h d a imm) s d fun t => t.val a + imm.signExtend 32

/-- AND, immediate form (R242). -/
def execAndImm (h : Hdr) (d a : GReg) (imm : BitVec 24) (s : State) : Out :=
  runI32 (.andImm h d a imm) s d fun t => t.val a &&& imm.signExtend 32

/-- OR, immediate form (R242). -/
def execOrImm (h : Hdr) (d a : GReg) (imm : BitVec 24) (s : State) : Out :=
  runI32 (.orImm h d a imm) s d fun t => t.val a ||| imm.signExtend 32

/-- XOR, immediate form (R242). -/
def execXorImm (h : Hdr) (d a : GReg) (imm : BitVec 24) (s : State) : Out :=
  runI32 (.xorImm h d a imm) s d fun t => t.val a ^^^ imm.signExtend 32

/-! ## Logic, shifts and bits (R243 to R246) -/

/-- AND (R243). -/
def execAnd (h : Hdr) (d a b : GReg) (s : State) : Out :=
  runI32 (.and h d a b) s d fun t => t.val a &&& t.val b

/-- OR (R243). -/
def execOr (h : Hdr) (d a b : GReg) (s : State) : Out :=
  runI32 (.or h d a b) s d fun t => t.val a ||| t.val b

/-- XOR (R243). -/
def execXor (h : Hdr) (d a b : GReg) (s : State) : Out :=
  runI32 (.xor h d a b) s d fun t => t.val a ^^^ t.val b

/-- ANDN (R243). -/
def execAndn (h : Hdr) (d a b : GReg) (s : State) : Out :=
  runI32 (.andn h d a b) s d fun t => t.val a &&& ~~~t.val b

/-- A shift amount: bits [7:0] of a register (R244). -/
def shiftBy (b : Word) : Nat := b.toNat % 256

/-- SHL (R244). -/
def execShl (h : Hdr) (d a b : GReg) (s : State) : Out :=
  runI32 (.shl h d a b) s d fun t => t.val a <<< shiftBy (t.val b)

/-- SHR (R244). -/
def execShr (h : Hdr) (d a b : GReg) (s : State) : Out :=
  runI32 (.shr h d a b) s d fun t => t.val a >>> shiftBy (t.val b)

/-- SAR (R244). -/
def execSar (h : Hdr) (d a b : GReg) (s : State) : Out :=
  runI32 (.sar h d a b) s d fun t => (t.val a).sshiftRight (shiftBy (t.val b))

/-- ROT (R244). -/
def execRot (h : Hdr) (d a b : GReg) (s : State) : Out :=
  runI32 (.rot h d a b) s d fun t => (t.val a).rotateLeft (shiftBy (t.val b))

/-- SHL, immediate form (R244). -/
def execShlImm (h : Hdr) (d a : GReg) (n : BitVec 5) (s : State) : Out :=
  runI32 (.shlImm h d a n) s d fun t => t.val a <<< n.toNat

/-- SHR, immediate form (R244). -/
def execShrImm (h : Hdr) (d a : GReg) (n : BitVec 5) (s : State) : Out :=
  runI32 (.shrImm h d a n) s d fun t => t.val a >>> n.toNat

/-- SAR, immediate form (R244). -/
def execSarImm (h : Hdr) (d a : GReg) (n : BitVec 5) (s : State) : Out :=
  runI32 (.sarImm h d a n) s d fun t => (t.val a).sshiftRight n.toNat

/-- ROT, immediate form (R244). -/
def execRotImm (h : Hdr) (d a : GReg) (n : BitVec 5) (s : State) : Out :=
  runI32 (.rotImm h d a n) s d fun t => (t.val a).rotateLeft n.toNat

/-- SHL64 (R244). -/
def execShl64 (h : Hdr) (d a b : GReg) (s : State) : Out :=
  runI64 (.shl64 h d a b) s d fun t => t.pair a <<< shiftBy (t.val b)

/-- SHR64 and SHR64.A (R244). -/
def execShr64 (h : Hdr) (arith : Bool) (d a b : GReg) (s : State) : Out :=
  runI64 (.shr64 h arith d a b) s d fun t =>
    if arith then (t.pair a).sshiftRight (shiftBy (t.val b)) else t.pair a >>> shiftBy (t.val b)

/-- The number of one bits (R245). -/
def popCount (a : Word) : Nat := ((List.range 32).filter fun i => a.getLsbD i).length

/-- The number of leading zero bits (R245). -/
def leadingZeros (a : Word) : Nat := ((List.range 32).find? fun i => a.getLsbD (31 - i)).getD 32

/-- The number of trailing zero bits (R245). -/
def trailingZeros (a : Word) : Nat := ((List.range 32).find? fun i => a.getLsbD i).getD 32

/-- POPC (R245). -/
def execPopc (h : Hdr) (d a : GReg) (s : State) : Out :=
  runI32 (.popc h d a) s d fun t => BitVec.ofNat 32 (popCount (t.val a))

/-- CLZ (R245). -/
def execClz (h : Hdr) (d a : GReg) (s : State) : Out :=
  runI32 (.clz h d a) s d fun t => BitVec.ofNat 32 (leadingZeros (t.val a))

/-- CTZ (R245). -/
def execCtz (h : Hdr) (d a : GReg) (s : State) : Out :=
  runI32 (.ctz h d a) s d fun t => BitVec.ofNat 32 (trailingZeros (t.val a))

/-- BREV (R245). -/
def execBrev (h : Hdr) (d a : GReg) (s : State) : Out :=
  runI32 (.brev h d a) s d fun t => (t.val a).reverse

/-- Position and width of the field that a descriptor names, cut at bit 31 (R246). -/
def bitField (b : Word) : Nat × Nat :=
  let pos := b.toNat % 256
  let w := min (b.toNat / 256 % 256) 32
  (pos, if 32 ≤ pos then 0 else min w (32 - pos))

/-- A field read, zero- or sign-extended (R246). -/
def fieldGet (signed : Bool) (a b : Word) : Word :=
  let f := bitField b
  let v := a.toNat / 2 ^ f.1 % 2 ^ f.2
  if f.2 = 0 then 0
  else if signed && decide (2 ^ (f.2 - 1) ≤ v) then BitVec.ofInt 32 ((v : Int) - 2 ^ f.2) else BitVec.ofNat 32 v

/-- A field of `c` replaced by the low bits of `a` (R246). -/
def fieldPut (a b c : Word) : Word :=
  let f := bitField b
  let mask : Word := BitVec.ofNat 32 ((2 ^ f.2 - 1) * 2 ^ f.1)
  (c &&& ~~~mask) ||| ((a <<< f.1) &&& mask)

/-- BFE (R246). -/
def execBfe (h : Hdr) (signed : Bool) (d a b : GReg) (s : State) : Out :=
  runI32 (.bfe h signed d a b) s d fun t => fieldGet signed (t.val a) (t.val b)

/-- BFI (R246). -/
def execBfi (h : Hdr) (d a b c : GReg) (s : State) : Out :=
  runI32 (.bfi h d a b c) s d fun t => fieldPut (t.val a) (t.val b) (t.val c)

/-! ## Moves and selection (R247 to R249) -/

/-- Byte `i` of PERM's result (R247). -/
def permByte (ab : Dword) (c : Word) (i : Nat) : Byte :=
  let x : Byte := ab.extractLsb' (8 * (c.toNat / 2 ^ (3 * i) % 8)) 8
  match c.toNat / 2 ^ (12 + 2 * i) % 4 with
  | 0 => x
  | 1 => 0
  | 2 => if x.getLsbD 7 then 0xFF else 0
  | _ => x.reverse

/-- PERM's result (R247). -/
def permWord (a b c : Word) : Word :=
  let p := permByte (joinWords a b) c
  p 3 ++ p 2 ++ p 1 ++ p 0

/-- The tag of PERM's result: that of `a` or of `b` where it copies it whole (R148, R247). -/
def permTag (c : Word) (ta tb : Tag) : Tag :=
  if c.toNat % 2 ^ 20 = 0x00688 then ta else if c.toNat % 2 ^ 20 = 0x00FAC then tb else .raw

/-- PERM (R247). -/
def execPerm (h : Hdr) (d a b c : GReg) (s : State) : Out :=
  runReg (.perm h d a b c) s fun t =>
    .ok (t.put d (permWord (t.val a) (t.val b) (t.val c)) (permTag (t.val c) (t.tag a) (t.tag b)))

/-- SEL (R248). -/
def execSel (h : Hdr) (neg : Bool) (d a b : GReg) (pc : PReg) (s : State) : Out :=
  runReg (.sel h neg d a b pc) s fun t =>
    .ok (t.setReg d.toNat (if t.pred pc != neg then t.reg a.toNat else t.reg b.toNat))

/-- MOV and MOV.B64 (R249). -/
def execMov (h : Hdr) (b64 : Bool) (d a : GReg) (s : State) : Out :=
  runReg (.mov h b64 d a) s fun t =>
    .ok (if b64 then (t.setReg d.toNat (t.reg a.toNat)).setReg (d.toNat + 1) (t.reg (a.toNat + 1))
      else t.setReg d.toNat (t.reg a.toNat))

/-- MOVI (R249). -/
def execMovi (h : Hdr) (d : GReg) (imm : Word) (s : State) : Out :=
  runReg (.movi h d imm) s fun t => .ok (t.put d imm .raw)

/-- MOVHI (R249). -/
def execMovhi (h : Hdr) (d : GReg) (imm : Word) (s : State) : Out :=
  runReg (.movhi h d imm) s fun t => .ok (t.putPair d (imm.signExtend 64) .raw .raw)

/-! ## Addresses (R250, R251) -/

/-- LEA (R250). -/
def execLea (h : Hdr) (sx : Bool) (sh : BitVec 3) (d a b : GReg) (s : State) : Out :=
  runI64 (.lea h sx sh d a b) s d fun t =>
    t.pair a + (if sx then (t.val b).signExtend 64 else (t.val b).setWidth 64) <<< sh.toNat

/-- The index of the node or leaf that a position names (R251). -/
def nodeIndex (leaf : Bool) (c : Word) : Option Nat :=
  let k := c.toNat % 2 ^ 20
  let lvl := c.toNat / 2 ^ 20 % 32
  if c.toNat / 2 ^ 25 ≠ 0 then none
  else if leaf then (if lvl ≠ 0 then none else some k)
  else if 19 < lvl ∨ 2 ^ lvl ≤ k then none
  else some (2 ^ lvl - 1 + k)

/-- NADDR (R251). -/
def execNaddr (h : Hdr) (leaf : Bool) (d a b c : GReg) (s : State) : Out :=
  runReg (.naddr h leaf d a b c) s fun t =>
    match nodeIndex leaf (t.val c) with
    | none => .error (trapOf cIllegalField)
    | some n => .ok (t.putPair d (t.pair a + BitVec.ofNat 64 (n * (t.val b).toNat)) .i32 .i32)

/-! ## Compares and predicates (R252 to R254) -/

/-- ICMP (R252). -/
def execIcmp (h : Hdr) (cc : ICond) (pd : PReg) (a b : GReg) (s : State) : Out :=
  runReg (.icmp h cc pd a b) s fun t => .ok (t.setPred pd (cc.holds (t.val a) (t.val b)))

/-- ICMP64 (R252). -/
def execIcmp64 (h : Hdr) (cc : ICond) (pd : PReg) (a b : GReg) (s : State) : Out :=
  runReg (.icmp64 h cc pd a b) s fun t => .ok (t.setPred pd (cc.holds (t.pair a) (t.pair b)))

/-- PSET (R253). -/
def execPset (h : Hdr) (op : PsetOp) (na nb : Bool) (pd pa pb : PReg) (s : State) : Out :=
  runReg (.pset h op na nb pd pa pb) s fun t =>
    .ok (t.setPred pd (op.apply (t.pred pa != na) (t.pred pb != nb)))

/-- PMOV.GET (R254). -/
def execPmovGet (h : Hdr) (d : GReg) (s : State) : Out :=
  runI32 (.pmovGet h d) s d fun t => t.preds.setWidth 32 ||| 0x80

/-- PMOV.PUT (R254). -/
def execPmovPut (h : Hdr) (a b : GReg) (s : State) : Out :=
  runReg (.pmovPut h a b) s fun t =>
    let m : BitVec 7 := (t.val b).setWidth 7
    .ok { t with preds := (t.preds &&& ~~~m) ||| ((t.val a).setWidth 7 &&& m) }

end Sys2Proof.Machine
end

