-- ==== Sys2Proof/Machine/GroupOps.lean ====
section
/-! DEFINITION. Bound-group instructions (R306 to R317): forming and ending groups, tiles, votes, shuffles, group-uniform
registers, reductions, scans and group order. -/

namespace Sys2Proof.Machine

/-! ## Forming and ending groups (R37, R308, R309) -/

/-- The waiting threads that make up the next set of a key and size: the first of each lane, in lane order (R37). -/
def formingSet (l : List Forming) (key : Word) (n : Nat) : List Forming :=
  (List.range 32).filterMap fun lane => l.find? fun f => f.key == key && f.n == n && f.lane == lane

/-- BIND in a thread (R308). -/
def State.bind (s : State) (t : Thread) (n : Nat) (key : Word) : Except Stop (State × Next) :=
  match t.member, t.place with
  | none, .core d c lane _ =>
    let k := coreIdx d c
    let s := s.updCore k fun x => { x with forming := x.forming.filter (·.tid != t.tid) ++ [⟨key, n, lane, t.tid⟩] }
    let set := formingSet (s.core k).forming key n
    if set.length < n then .ok (s, .await (.parked .bind))
    else
      let tids := set.map (·.tid)
      let s := s.updCore k fun x => { x with forming := x.forming.filter fun f => !tids.contains f.tid }
      let others := tids.filter (· != t.tid)
      let s := (s.updThreads others fun u => { u with status := .ready, pc := u.pc + 8 }).refreshAge others
      .ok (s.formGroup t.ctx d c tids, .seq)
  | _, _ => .error (trapOf cIllegalField)

/-- BIND (R308). -/
def execBind (h : Hdr) (n1 : BitVec 5) (a : GReg) (s : State) : Out :=
  runThreads (.bind h n1 a) s fun i s =>
    match s.thread? i with
    | none => .ok (s, .gone)
    | some t => s.bind t (n1.toNat + 1) (t.val a)

/-- UNBIND (R309). -/
def execUnbind (h : Hdr) (s : State) : Out :=
  runColl (.unbind h) s fun c s => do
    c.whole
    return s.endGroup c.g.gid

/-- The tile size that PART's code names (R310). -/
def partSize (code : BitVec 3) (size : Nat) : Nat := if code = 0 then size else 2 ^ code.toNat

/-- PART (R310). -/
def execPart (h : Hdr) (code : BitVec 3) (s : State) : Out :=
  runColl (.part h code) s fun c s => do
    c.whole
    let n := c.g.members.length
    let t := partSize code n
    require (decide (t ≤ n) && n % t == 0) cIllegalField
    return s.updGroup c.g.gid fun g => { g with tile := t }

/-! ## Votes, shuffles and moves (R311 to R314) -/

/-- The ranks of a list that lie in the tile of rank `r`. -/
def Coll.tileOf (c : Coll) (r : Nat) (l : List (Nat × Thread)) : List (Nat × Thread) :=
  l.filter fun p => p.1 / c.g.tile == r / c.g.tile

/-- The thread of a rank of the fragment. -/
def Coll.rank? (c : Coll) (r : Nat) : Option Thread := (c.ranks.find? (·.1 == r)).map (·.2)

/-- The contributing ranks of a tile in which a vote holds. -/
def Coll.votes (c : Coll) (r : Nat) (neg : Bool) (q : PReg) : List Nat :=
  ((c.tileOf r c.active).filter fun p => p.2.pred q != neg).map (·.1)

/-- The result of a vote in rank `r`: a predicate or a register (R311). -/
def Coll.vote (c : Coll) (op : VoteOp) (neg : Bool) (pd : PReg) (d : GReg) (q : PReg) (r : Nat) (t : Thread) : Thread :=
  let v := c.votes r neg q
  match op with
  | .every => t.setPred pd (v.length == (c.tileOf r c.active).length)
  | .some => t.setPred pd (v.length != 0)
  | .mask => t.put d (v.foldl (fun m i => m ||| ((1 : Word) <<< (i % c.g.tile))) 0) .i32
  | .count => t.put d (BitVec.ofNat 32 v.length) .i32

/-- VOTE (R311). -/
def execVote (h : Hdr) (op : VoteOp) (neg : Bool) (pd : PReg) (d : GReg) (q : PReg) (s : State) : Out :=
  runColl (.vote h op neg pd d q) s fun c s => do
    c.tiles
    return s.updRanks c.active (c.vote op neg pd d q)

/-- The position that a rank at position `l` of a tile of `T` reads, and whether it is in range (R312). -/
def shflPos (mode : ShflMode) (T l : Nat) (b : Word) : Nat × Bool :=
  match mode with
  | .at =>
    let k := b.toNat % 32
    (k % T, decide (k < T))
  | .rot =>
    let k := (l : Int) + (b.extractLsb' 0 6).toInt
    ((k % (T : Int)).toNat, decide (0 ≤ k) && decide (k < T))
  | .xch =>
    let p := l ^^^ (b.toNat % 32)
    (p, decide (p < T))

/-- SHFL in rank `r` (R312). -/
def Coll.shfl (c : Coll) (mode : ShflMode) (pd : PReg) (d a b : GReg) (r : Nat) (t : Thread) : Thread :=
  let T := c.g.tile
  let p := shflPos mode T (r % T) (t.val b)
  let src := if mode = .xch ∧ !p.2 then some t else c.rank? (r / T * T + p.1)
  (t.setReg d.toNat ((src.map (·.reg a.toNat)).getD {})).setPred pd p.2

/-- SHFL (R312). -/
def execShfl (h : Hdr) (mode : ShflMode) (pd : PReg) (d a b : GReg) (s : State) : Out :=
  runColl (.shfl h mode pd d a b) s fun c s => do
    c.tiles
    return s.updRanks c.active (c.shfl mode pd d a b)

/-- GSHFL (R313). -/
def execGshfl (h : Hdr) (d a b : GReg) (s : State) : Out :=
  runColl (.gshfl h d a b) s fun c s => do
    c.whole
    return s.updRanks c.active fun _ t =>
      t.setReg d.toNat (((c.rank? ((t.val b).toNat % 32 % c.g.members.length)).map (·.reg a.toNat)).getD {})

/-- SBCAST (R313). -/
def execSbcast (h : Hdr) (b64 : Bool) (d a : GReg) (n : BitVec 5) (s : State) : Out :=
  runColl (.sbcast h b64 d a n) s fun c s => do
    c.whole
    require (decide (n.toNat < c.g.members.length)) cIllegalField
    let src := c.rank? n.toNat
    let lo := (src.map (·.reg a.toNat)).getD {}
    let hi := (src.map (·.reg (a.toNat + 1))).getD {}
    return s.updRanks c.active fun _ t =>
      if b64 then (t.setReg d.toNat lo).setReg (d.toNat + 1) hi else t.setReg d.toNat lo

/-- SMOV, read form: any fragment (R314). -/
def execSmovRead (h : Hdr) (d : GReg) (r : SReg) (s : State) : Out :=
  runColl (.smovRead h d r) s fun c s =>
    .ok (s.updRanks c.active fun _ t => t.setReg d.toNat (c.g.sreg r.toNat))

/-- SMOV, write form (R314). R307 lets a rank whose guards are false still supply its register, so the register of rank n is read
in any case (`supplied`); R314's table leaves the s-register unchanged there, and the model follows it (DEDUCED, log 101). -/
def execSmovWrite (h : Hdr) (r : SReg) (a : GReg) (n : BitVec 5) (s : State) : Out :=
  runColl (.smovWrite h r a n) s fun c s => do
    c.whole
    require (decide (n.toNat < c.g.members.length)) cIllegalField
    match c.active.find? (·.1 == n.toNat) with
    | none => return s
    | some p => return s.updGroup c.g.gid fun g => { g with sregs := g.sregs.set r.toNat (p.2.reg a.toNat) }

/-! ## Reductions and scans (R315) -/

/-- The identity of a combination. -/
def redIdentity : RedOp → Word
  | .add | .or | .xor | .maxu | .famax => 0
  | .min => 0x7FFFFFFF
  | .minu | .and => 0xFFFFFFFF
  | .max => 0x80000000
  | .fadd => 0x80000000
  | .fmin => 0x7F800000
  | .fmax => 0xFF800000

/-- Whether a combination takes typed F32 sources. -/
def redFloat : RedOp → Bool
  | .fadd | .fmin | .fmax | .famax => true
  | _ => false

/-- A NaN as the canonical NaN (R152). -/
def canonNan (w : Word) : Word := if (f32 w).isNan then nan32 else w

/-- The larger of two magnitudes; a NaN wins. -/
def maxMag (a b : Exact) : Exact :=
  if a.isNan then a else if b.isNan then b else if a.abs.cmp b.abs == .lt then b.abs else a.abs

/-- The combination of a list of words (R315). -/
def redWords (op : RedOp) (l : List Word) : Word :=
  match op with
  | .add => l.foldl (· + ·) 0
  | .min => l.foldl (minWord false) 0x7FFFFFFF
  | .minu => l.foldl (minWord true) 0xFFFFFFFF
  | .max => l.foldl (maxWord false) 0x80000000
  | .maxu => l.foldl (maxWord true) 0
  | .and => l.foldl (· &&& ·) 0xFFFFFFFF
  | .or => l.foldl (· ||| ·) 0
  | .xor => l.foldl (· ^^^ ·) 0
  | .fadd => BitVec.ofNat 32 (roundTo ff32 .rn false (sumExact false (f32 0x80000000 :: l.map f32)).1).1
  | .fmin =>
    match l with
    | [] => redIdentity .fmin
    | x :: l => canonNan (l.foldl (fun a b => BitVec.ofNat 32 (fMinMax ff32 false a.toNat b.toNat).1) x)
  | .fmax =>
    match l with
    | [] => redIdentity .fmax
    | x :: l => canonNan (l.foldl (fun a b => BitVec.ofNat 32 (fMinMax ff32 true a.toNat b.toNat).1) x)
  | .famax => BitVec.ofNat 32 (roundTo ff32 .rn false (l.foldl (fun a w => maxMag a (f32 w)) .zero)).1

/-- What the position `l` of the tile at `base` contributes: its value, or the identity where its guards are false. -/
def Coll.term (c : Coll) (op : RedOp) (a : GReg) (r : Nat) : Word :=
  match c.active.find? (·.1 == r) with
  | some p => p.2.val a
  | none => redIdentity op

/-- The terms of `n` positions of the tile of rank `r`. -/
def Coll.terms (c : Coll) (op : RedOp) (a : GReg) (r n : Nat) : List Word :=
  (List.range n).map fun i => c.term op a (r / c.g.tile * c.g.tile + i)

/-- The tag of a result. -/
def redTag (op : RedOp) : Tag := if redFloat op then .f32 else .i32

/-- The tag check of the contributing ranks. -/
def Coll.redTyped (c : Coll) (op : RedOp) (a : GReg) : Except Stop Unit :=
  if redFloat op then
    match c.active.find? fun p => !(p.2.tag a == .f32 || p.2.tag a == .raw) with
    | some p =>
      .error (.trap { cause := cFormat, detail0 := BitVec.ofNat 64 (p.2.tag a).code.toNat, tid := some p.2.tid })
    | none => .ok ()
  else .ok ()

/-- REDUCE (R315). -/
def execReduce (h : Hdr) (op : RedOp) (d a : GReg) (s : State) : Out :=
  runColl (.reduce h op d a) s fun c s => do
    c.tiles
    c.redTyped op a
    return s.updRanks c.active fun r t => t.put d (redWords op (c.terms op a r c.g.tile)) (redTag op)

/-- SCAN (R315). -/
def execScan (h : Hdr) (op : RedOp) (excl : Bool) (d a : GReg) (s : State) : Out :=
  runColl (.scan h op excl d a) s fun c s => do
    c.tiles
    c.redTyped op a
    return s.updRanks c.active fun r t =>
      let l := r % c.g.tile
      let v := if excl then (if l = 0 then redIdentity op else redWords op (c.terms op a r l))
        else redWords op (c.terms op a r (l + 1))
      t.put d v (redTag op)

/-! ## Group order (R316) -/

/-- GBAR (R316): it waits for the source reads of the group's LDAs (R124); every other access of the model is performed when it
is made (DESIGN CHOICE, log 8). -/
def execGbar (h : Hdr) (s : State) : Out :=
  runColl (.gbar h) s fun c s => do
    c.whole
    return s

/-- GFENCE (R316, log 8). -/
def execGfence (h : Hdr) (scope : Scope) (s : State) : Out :=
  runColl (.gfence h scope) s fun c s => do
    c.whole
    return s

end Sys2Proof.Machine
end

