-- ==== Sys2Proof/Machine/Queues.lean ====
section
/-! DEFINITION. Hardware queues and their processors: creation and destruction, the reading of packets, the words of queue
programs, the actions, and host waiters (R401 to R411). -/

namespace Sys2Proof.Machine

/-! ## Queue entries and kicks (R401, R402, R410, R411) -/

/-- Whether a function reaches a queue's entry: a PF, or the function that FUNC names; BAR0 and BAR2 are open in the stopped
state too (R435, R437). -/
def State.reaches (s : State) (func q : Nat) : Bool :=
  decide (q < 65536) && (s.boot.state == .ready || s.boot.state == .stopped) && ((portOf func).isSome || (s.queue q).func == func)

/-- The conditions under which ENABLE = 1 takes effect. -/
def State.queueReady (s : State) (x : Queue) : Bool :=
  match s.ctx? x.ctx with
  | none => false
  | some c =>
    (x.prog == 0 || c.progs.any (·.num == x.prog)) && decide (x.func < 128) && decide (x.prog < 4096) && decide (4 ≤ x.log2size)
      && decide (x.log2size ≤ 20) && x.ringbase.toNat % 4096 == 0 && canonical x.ringbase

/-- ENABLE = 1 (R401). -/
def execQueueEnable (func q : Nat) (s : State) : Out :=
  let x := s.queue q
  if !s.reaches func q || x.enable then .next s
  else if s.queueReady x then
    .next (s.updQueue q fun x =>
      { x with
        enable := true, rdidx := 0, kickv := 0, ccount := 0, state := .idle, x := List.replicate 16 0
        image := if x.prog = 0 then none else (s.ctx? x.ctx).bind fun c => c.progs.find? (·.num == x.prog) })
  else .next (s.updQueue q fun x => { x with fcode := 1 })

/-- ENABLE = 0 (R410). -/
def execQueueDisable (func q : Nat) (s : State) : Out :=
  if s.reaches func q && (s.queue q).enable then .next (s.updQueue q Queue.destroy) else .next s

/-- RESUME (R411). -/
def execQueueResume (func q : Nat) (s : State) : Out :=
  if s.reaches func q && (s.queue q).state == .faulted then .next (s.updQueue q fun x => { x with state := .idle }) else .next s

/-- A write of a kick register (R402). -/
def execKick (func : Nat) (q : Nat) (val : Dword) (s : State) : Out :=
  if s.reaches func q then .next (s.kick q (loWord val)) else .next s

/-! ## Reading a packet (R402, R405, R408, R411) -/

/-- Whether a queue has a packet that may be read. -/
def Queue.pending (x : Queue) : Bool := x.enable && x.state == .idle && x.rdidx != x.kickv

/-- The queue of a context that is served next (R405): the highest priority, and round robin among equals. -/
def State.nextQueue (s : State) (ctx : Nat) : Option Nat :=
  let mine : List (Nat × Queue) := s.queues.filter fun p => p.2.ctx == ctx && p.2.pending
  let top := mine.foldl (fun n p => min n p.2.prio) 4
  let level := mine.filter (·.2.prio == top)
  let last := ((s.ctx? ctx).bind fun c => c.lastQueue[top]?).getD 0
  match level.find? fun p => decide (last < p.1) with
  | some p => some p.1
  | none => level.head?.map (·.1)

/-- Whether another queue of the context runs a packet. -/
def State.ctxBusy (s : State) (ctx : Nat) : Bool := s.queues.any fun p => p.2.enable && p.2.ctx == ctx && p.2.state == .running

/-- A queue processor's access of poisoned data ends the context (R347, R432): the record's die and unit are free (DESIGN CHOICE,
log 22). -/
def State.queuePoison (s : State) (ctx : Nat) (va : Dword) (acc : Acc) : State :=
  let d := s.freshBelow 8
  let u := d.2.freshBelow 256
  u.2.poisonEnds ctx { time := 0, addr := va, task := noOwner, die := d.1, agent := 6, unit := u.1, acc }

/-- A queue blocked on a recoverable page fault (R411). -/
def State.blockQueue (s : State) (q : Nat) (va : Dword) (acc : Acc) : State :=
  let d := s.freshBelow 8
  let u := d.2.freshBelow 256
  let r := u.2.openFault (s.queue q).ctx va acc { time := 0, task := noOwner, die := d.1, agent := 6, unit := u.1 }
  r.2.updQueue q fun x => { x with state := .blocked, block := some (.fault r.1) }

/-- The action and the number of staging dwords of a TYPE of program 0 (R408). -/
def packetType (t : Nat) : Option (Instr × Nat) :=
  match t with
  | 0 => some (.actNop, 0)
  | 1 => some (.actLaunch, 6)
  | 2 => some (.actSignal, 3)
  | 3 => some (.actWaitsig, 3)
  | 4 => some (.actCopy, 2)
  | 5 => some (.actRfb, 2)
  | 6 => some (.actChain, 2)
  | _ => none

/-- A packet that has been read starts (R405, R406, R408). -/
def State.startPacket (s : State) (q : Nat) (l : List Dword) : State :=
  let s := s.updQueue q fun x =>
    { x with
      state := .running, packet := l, staging := List.replicate 16 0, x := List.replicate 12 0 ++ x.x.drop 12, pc := 0
      loops := [], inPacket := true, serial := x.serial + 1, packets := x.packets ++ [{ serial := x.serial + 1 }]
      rdidx := x.rdidx + 1 }
  let x := s.queue q
  if x.image.isSome then s
  else
    let d0 := (l.headD 0).toNat
    match packetType (d0 % 256) with
    | none => s.rejectPacket q 4 none
    | some (_, n) =>
      if 512 ≤ d0 then s.rejectPacket q 4 none
      else
        s.updQueue q fun x =>
          let x := { x with staging := (l.drop 1).take n ++ List.replicate (16 - n) 0 }
          if d0.testBit 8 ∧ 1 < x.packets.length then { x with state := .blocked, block := some .barrier } else x

/-- A queue processor reads the packet at RDIDX. -/
def State.readPacket (s : State) (q : Nat) : State :=
  let x := s.queue q
  let s := s.updCtx x.ctx fun c => { c with lastQueue := c.lastQueue.set x.prio q }
  if 2 ^ x.log2size < (x.kickv - x.rdidx).toNat then s.faultQueue q 6 none
  else
    let va := x.ringbase + BitVec.ofNat 64 (64 * (x.rdidx.toNat % 2 ^ x.log2size))
    match s.loadOne x.ctx va 64 .read with
    | .ok l =>
      (s.tallyIo 0 q 0x201 (some x.ctx)).startPacket q ((List.range 8).map fun i => BitVec.ofNat 64 (leNat l / 2 ^ (64 * i)))
    | .error (.page va acc) => s.blockQueue q va acc
    | .error (.trap t) => if t.cause = cUncorrectable then s.queuePoison x.ctx va t.acc else s.faultQueue q 2 (some (t.cause.toNat, t.acc))
    | .error .stall => s

/-- PACKET_READ: a queue's turn to read (R405). -/
def execPacketRead (q : Nat) (s : State) : Out :=
  let x := s.queue q
  if s.boot.state = .ready ∧ x.pending ∧ !s.ctxBusy x.ctx ∧ s.nextQueue x.ctx = some q then .next (s.readPacket q) else .next s

/-! ## The words of a program (R406) -/

/-- A word of a program, run by the queue processor that executes. -/
def onQueue (s : State) (f : Nat → Queue → State) : Out :=
  match s.cur with
  | .queue q => .next (f q (s.queue q))
  | _ => .fault .noActor

/-- A word that changes the queue's own registers. -/
def runQueue (s : State) (f : Queue → Queue) : Out := onQueue s fun q _ => s.updQueue q f

/-- Register x`a`. -/
def Queue.reg (x : Queue) (a : BitVec 4) : Dword := (x.x[a.toNat]?).getD 0

/-- The next word, with register x`a` written. -/
def Queue.setReg (x : Queue) (a : BitVec 4) (v : Dword) : Queue := { x with x := x.x.set a.toNat v, pc := x.pc + 1 }

/-- The next word after a conditional skip. -/
def Queue.skip (x : Queue) (k : BitVec 16) (c : Bool) : Queue := { x with pc := x.pc + 1 + (if c then k.toNat else 0) }

/-- PKT. -/
def execQpPkt (i : BitVec 16) (a : BitVec 4) (s : State) : Out :=
  runQueue s fun x => x.setReg a ((x.packet[i.toNat]?).getD 0)

/-- MOVI. -/
def execQpMovi (imm : BitVec 16) (a : BitVec 4) (s : State) : Out := runQueue s fun x => x.setReg a (imm.setWidth 64)

/-- SHLI. -/
def execQpShli (n : BitVec 16) (b a : BitVec 4) (s : State) : Out := runQueue s fun x => x.setReg a (x.reg b <<< n.toNat)

/-- SHRI. -/
def execQpShri (n : BitVec 16) (b a : BitVec 4) (s : State) : Out := runQueue s fun x => x.setReg a (x.reg b >>> n.toNat)

/-- ADD. -/
def execQpAdd (b a : BitVec 4) (s : State) : Out := runQueue s fun x => x.setReg a (x.reg a + x.reg b)

/-- AND. -/
def execQpAnd (b a : BitVec 4) (s : State) : Out := runQueue s fun x => x.setReg a (x.reg a &&& x.reg b)

/-- OR. -/
def execQpOr (b a : BitVec 4) (s : State) : Out := runQueue s fun x => x.setReg a (x.reg a ||| x.reg b)

/-- The address of a dword of a window: none beyond it, or off a dword (R406, R407). -/
def Queue.window (x : Queue) (w : BitVec 3) (off : Dword) : Option Dword :=
  match x.image.bind fun p => p.windows[w.toNat]? with
  | none => none
  | some (base, len, _) =>
    if off.toNat % 8 = 0 ∧ off.toNat + 8 ≤ len then some (base + off) else none

/-- A queue processor's access that stops: it waits for a page fault, or ends the packet with FCODE `fcode` (R407). -/
def State.queueStop (s : State) (q fcode : Nat) : Stop → State
  | .page va acc => s.blockQueue q va acc
  | .trap t =>
    if t.cause = cUncorrectable then s.queuePoison (s.queue q).ctx t.faddr t.acc else
      s.rejectPacket q fcode (some (t.cause.toNat, t.acc))
  | .stall => s

/-- LDW (R406, R407). -/
def execQpLdw (w : BitVec 3) (b a : BitVec 4) (s : State) : Out :=
  onQueue s fun q x =>
    match x.window w (x.reg b) with
    | none => s.rejectPacket q 3 none
    | some va =>
      match s.loadOne x.ctx va 8 .read with
      | .ok l => s.updQueue q fun x => x.setReg a (BitVec.ofNat 64 (leNat l))
      | .error e => s.queueStop q 3 e

/-- STW (R406, R407). -/
def execQpStw (w : BitVec 3) (b a : BitVec 4) (s : State) : Out :=
  onQueue s fun q x =>
    match x.window w (x.reg b) with
    | none => s.rejectPacket q 3 none
    | some va =>
      match s.store x.ctx va (natLe 8 (x.reg a).toNat) with
      | .ok s => s.updQueue q fun x => { x with pc := x.pc + 1 }
      | .error e => s.queueStop q 3 e

/-- BEQ. -/
def execQpBeq (k : BitVec 16) (b a : BitVec 4) (s : State) : Out := runQueue s fun x => x.skip k (x.reg a == x.reg b)

/-- BNE. -/
def execQpBne (k : BitVec 16) (b a : BitVec 4) (s : State) : Out := runQueue s fun x => x.skip k (x.reg a != x.reg b)

/-- BLTU. -/
def execQpBltu (k : BitVec 16) (b a : BitVec 4) (s : State) : Out :=
  runQueue s fun x => x.skip k (decide ((x.reg a).toNat < (x.reg b).toNat))

/-- LOOP. -/
def execQpLoop (n : BitVec 16) (s : State) : Out :=
  runQueue s fun x => { x with pc := x.pc + 1, loops := (x.pc + 1, n.toNat) :: x.loops }

/-- The end of a loop body: the body again while runs are left. -/
def Queue.endLoop (x : Queue) : Queue :=
  match x.loops with
  | (at', n) :: l => if 1 < n then { x with pc := at', loops := (at', n - 1) :: l } else { x with pc := x.pc + 1, loops := l }
  | [] => { x with pc := x.pc + 1 }

/-- ENDL. -/
def execQpEndl (s : State) : Out := runQueue s Queue.endLoop

/-- STG. -/
def execQpStg (i : BitVec 16) (a : BitVec 4) (s : State) : Out :=
  runQueue s fun x => { x with staging := x.staging.set i.toNat (x.reg a), pc := x.pc + 1 }

/-- END (R405): the program has ended; the packet completes once its work has. -/
def execQpEnd (s : State) : Out :=
  onQueue s fun q _ =>
    (s.updQueue q fun x =>
      { x with
        state := .idle, inPacket := false, loops := []
        packets := x.packets.map fun p => if p.serial = x.serial then { p with ended := true } else p }).settleQueue q

/-! ## Actions (R407) -/

/-- What an action comes to. -/
inductive Action where
  | done (s : State)
  /-- The action is rejected: the cause and the kind of an access, if one failed. -/
  | reject (cause : Option (Nat × Acc))
  | stop (e : Stop)
  /-- The queue is blocked. -/
  | block (b : QBlock) (s : State)

/-- An action performed by the queue processor that executes. -/
def onAction (s : State) (f : Nat → Queue → Action) : Out :=
  onQueue s fun q x =>
    match f q x with
    | .done s => s.updQueue q fun x => { x with pc := x.pc + 1 }
    | .reject c => s.rejectPacket q 4 c
    | .stop e => s.queueStop q 4 e
    | .block b s => s.updQueue q fun x => { x with state := .blocked, block := some b }

/-- Staging dword `i`. -/
def Queue.stage (x : Queue) (i : Nat) : Dword := (x.staging[i]?).getD 0

/-- The packet under way creates work: without a future, or with the future of a context at an address, and at a key now. -/
def State.packetWork (s : State) (q : Nat) (fut : Option (Nat × Dword × Nat)) : State :=
  s.updQueue q fun x =>
    { x with packets := x.packets.map fun p =>
        if p.serial ≠ x.serial then p
        else match fut with
          | none => { p with left := p.left + 1 }
          | some (c, va, key) => if s.futureState key = 0 then { p with futs := p.futs ++ [(c, va)] } else p }

/-- NOP. -/
def execActNop (s : State) : Out := onAction s fun _ _ => .done s

/-- The task record of a LAUNCH (R56, R407): none where it is rejected. -/
def launchRecord (x : Queue) (num : Nat) (raw : Nat) (h : KHdr) (tracked : Option (Nat × Nat)) : Option QRec :=
  let kind := bitsOf raw 60 59
  let count := bitsOf raw 351 320
  let entry := (BitVec.ofNat 57 raw).signExtend 64
  let fut := BitVec.ofNat 64 (bitsOf raw 255 192)
  if kind = 3 ∨ count = 0 ∨ (kind = 2) ≠ h.gang then none
  else
    some
      { num, ctx := x.ctx, kind := if kind = 0 then .single else if kind = 1 then .range else .gang, prio := x.prio, entry
        args := (List.range 4).map fun i => BitVec.ofNat 32 (raw / 2 ^ (64 + 32 * i)), fut
        baseIdx := BitVec.ofNat 64 (bitsOf raw 319 256), count, hdr := h, stop := if kind = 1 then count else 1
        launch := tracked, owned := if fut = 0 ∨ kind = 1 then [] else [fut] }

/-- A launched range becomes a task set (R60, R75). -/
def State.addSet (s : State) (r : QRec) : QRec × State :=
  if r.kind = .range then
    let id := s.freshId
    ({ r with set := some id.1 },
      { id.2 with sets := id.2.sets ++
        [{ id := id.1, ctx := r.ctx, fut := r.fut, count := r.count, orig := some r.num, launch := r.launch }] })
  else (r, s)

/-- LAUNCH. -/
def State.launch (s : State) (q : Nat) (x : Queue) : Action :=
  let raw := ((List.range 8).map fun i => (x.stage i).toNat * 2 ^ (64 * i)).sum
  let entry := (BitVec.ofNat 57 raw).signExtend 64
  let fut := BitVec.ofNat 64 (bitsOf raw 255 192)
  if entry.toNat % 8 ≠ 0 ∨ fut.toNat % 16 ≠ 0 then
    .reject (some (4, if entry.toNat % 8 ≠ 0 then .read else .write))
  else
    match s.readHdr x.ctx entry with
    | .error e => .stop e
    | .ok none => .reject none
    | .ok (some h) =>
      let num := s.freshRecord x.ctx
      match launchRecord x num.1 raw h (if fut = 0 then some (q, x.serial) else none) with
      | none => .reject none
      | some r =>
        match (if fut = 0 then .ok 0 else s.key x.ctx fut .write) with
        | .error e => .stop e
        | .ok key =>
          let w := num.2.packetWork q (if fut = 0 then none else some (x.ctx, fut, key))
          let rs := w.addSet r
          match rs.2.placeLaunch rs.1 none with
          | none => .reject none
          | some (s, p) => .done (if fut = 0 then s else s.putFor x.ctx (key + 8) (natLe 4 (p.handle num.1).toNat))

/-- LAUNCH (R407, R461). -/
def execActLaunch (s : State) : Out := onAction s fun q x => s.launch q x

/-- SIGNAL (R137, R407). -/
def execActSignal (s : State) : Out :=
  onAction s fun _ x =>
    let va := x.stage 0
    if va.toNat % 8 ≠ 0 then .reject (some (4, .rmw))
    else
      match s.key x.ctx va .rmw with
      | .error e => .stop e
      | .ok key =>
        if s.poisoned key 8 then .stop (trapAt cUncorrectable va .rmw)
        else
          let v := if (x.stage 2).getLsbD 0 then BitVec.ofNat 64 (s.num key 8) + x.stage 1 else x.stage 1
          .done (s.putFor x.ctx key (natLe 8 v.toNat))

/-- The condition of WAITSIG and of host waiters: unsigned at least, equal, not equal (R407, R409). -/
def sigHolds (cond : Nat) (cur val : Dword) : Bool :=
  match cond with
  | 0 => decide (val.toNat ≤ cur.toNat)
  | 1 => cur == val
  | _ => cur != val

/-- WAITSIG: it blocks the queue until the condition holds; a location in a remote window is watched by its device. -/
def execActWaitsig (s : State) : Out :=
  onAction s fun q x =>
    let va := x.stage 0
    let cond := (x.stage 2).toNat % 4
    if va.toNat % 8 ≠ 0 then .reject (some (4, .read))
    else if cond = 3 then .reject none
    else
      match s.locate x.ctx va .read true with
      | .error e => .stop e
      | .ok (.kick _) => .reject (some (6, .read))
      | .ok (.mem key) =>
        if s.poisoned key 8 then .stop (trapAt cUncorrectable va)
        else if sigHolds cond (BitVec.ofNat 64 (s.num key 8)) (x.stage 1) then .done s
        else .block (.signal va (x.stage 1) cond) s
      | .ok (.remote node exp off) =>
        .block (.remoteSignal node exp off (x.stage 1) cond) (s.sendFor x.ctx node (.signal exp off x.ctx q (x.stage 1) cond false))

/-- WAITSIG_SATISFIED: a blocked queue goes on once its condition holds (R407). -/
def execWaitsigSatisfied (q : Nat) (s : State) : Out :=
  let x := s.queue q
  match x.block with
  | some (.signal va val cond) =>
    match s.key x.ctx va .read with
    | .ok key =>
      if s.poisoned key 8 then .next (s.queuePoison x.ctx va .read)
      else if sigHolds cond (BitVec.ofNat 64 (s.num key 8)) val then
        .next (s.updQueue q fun x => { x with state := .running, block := none, pc := x.pc + 1 })
      else .next s
    | .error e => .next (s.queueStop q 4 e)
  | _ => .next s

/-- A copy between global ranges, as BCPY on die DIE. -/
def State.queueCopy (s : State) (x : Queue) : Except Stop (CopyDesc × State) := do
  let va := x.stage 0
  aligned va 128
  canon va
  let raw ← s.loadNat x.ctx va 128
  let d ← parseCopy raw
  require (d.1.src.isGlobal && d.1.dst.isGlobal && !d.2) cIllegalField
  futAligned (x.stage 1)
  sideCanon .read d.1.src
  sideCanon .write d.1.dst
  let s ← s.initFuture x.ctx (x.stage 1)
  return (d.1, s)

/-- The future of an action, tracked by its address. -/
def State.trackFuture (s : State) (q ctx : Nat) (fut : Dword) : State :=
  if fut = 0 then s.packetWork q none
  else
    match s.key ctx fut .rmw with
    | .ok key => s.packetWork q (some (ctx, fut, key))
    | .error _ => s

/-- COPY (R329, R407). -/
def execActCopy (s : State) : Out :=
  onAction s fun q x =>
    match s.queueCopy x with
    | .error e => .stop e
    | .ok (d, s) =>
      .done ((s.trackFuture q x.ctx (x.stage 1)).addCopy
        { id := 0, seq := 0, ctx := x.ctx, die := x.die, unit := 0, desc := d, fut := x.stage 1
          launch := if x.stage 1 = 0 then some (q, x.serial) else none })

/-- RFB.START on die DIE. -/
def State.queueRfb (s : State) (x : Queue) : Except Stop State := do
  aligned (x.stage 0) 256
  futAligned (x.stage 1)
  s.initFuture x.ctx (x.stage 1)

/-- RFB (R338, R407). -/
def execActRfb (s : State) : Out :=
  onAction s fun q x =>
    match s.queueRfb x with
    | .error e => .stop e
    | .ok s =>
      .done ((s.trackFuture q x.ctx (x.stage 1)).addRfb x.die x.ctx x.prio (x.stage 0) (x.stage 1) noOwner
        (if x.stage 1 = 0 then some (q, x.serial) else none))

/-- CHAIN: it blocks the queue until another's CCOUNT has reached a count (R407). -/
def execActChain (s : State) : Out :=
  onAction s fun q x =>
    let node := (x.stage 0).toNat / 2 ^ 32 % 65536
    let target := (x.stage 0).toNat % 65536
    let count := loWord (x.stage 1)
    if node = 0xFFFF then
      if chainHolds (s.queue target).ccount count then .done s else .block (.chain target count) s
    else .block (.remoteChain node target count) (s.sendFor x.ctx node (.chainReg target q count))

/-- CHAIN_SATISFIED: a chained queue goes on once the count is reached (R407). -/
def execChainSatisfied (q : Nat) (s : State) : Out :=
  match (s.queue q).block with
  | some (.chain target count) =>
    if chainHolds (s.queue target).ccount count then
      .next (s.updQueue q fun x => { x with state := .running, block := none, pc := x.pc + 1 })
    else .next s
  | _ => .next s

/-! ## Host waiters (R409) -/

/-- The condition of an armed entry is tested: it fires with its MSI-X vector where it holds. -/
def State.testSig (s : State) (func idx : Nat) : State :=
  let e := (s.func func).sigs.get ({} : SigWait) idx
  if e.armed && sigHolds e.cond (BitVec.ofNat 64 (s.num e.home 8)) e.value then
    (s.updFunc func fun f => { f with sigs := f.sigs.set {} idx { e with armed := false, fired := true } }).interrupt func e.vector
  else s

/-- ARMED = 1 (R409): refused where COND is reserved, or ADDR is not aligned or does not translate to device memory. -/
def execSigwaitArm (func idx : Nat) (s : State) : Out :=
  let e := (s.func func).sigs.get ({} : SigWait) idx
  if 256 ≤ idx ∨ 128 ≤ func ∨ s.boot.state ≠ .ready ∨ e.cond = 3 ∨ e.addr.toNat % 8 ≠ 0 then .next s
  else
    match s.locate e.ctx e.addr .read true with
    | .ok (.mem key) =>
      if key < Config.deviceBytes then
        .next ((s.updFunc func fun f =>
          { f with sigs := f.sigs.set {} idx { e with armed := true, home := key } }).testSig func idx)
      else .next s
    | _ => .next s

/-- A waiter of another device whose location's value satisfies its condition is told (R407, R409). -/
def State.fireRemote (s : State) : State :=
  let holds : RemoteWait → Bool := fun w => match w with
    | .signal _ _ _ _ _ home val cond => sigHolds cond (BitVec.ofNat 64 (s.num home 8)) val
    | .chain .. => false
  (s.net.waits.filter holds).foldl
    (fun s w => match w with
      | .signal node q ctx exp off _ val cond => s.send node (.signal exp off ctx q val cond true)
      | .chain .. => s)
    { s with net := { s.net with waits := s.net.waits.filter fun w => !holds w } }

/-- Host and remote waiters whose condition holds fire. -/
def State.fireSignals (s : State) : State :=
  (s.funcs.flatMap fun f => f.2.sigs.map fun e => (f.1, e.1)).foldl (fun s p => s.testSig p.1 p.2) s |>.fireRemote

end Sys2Proof.Machine
end

