-- ==== Sys2Proof/Machine/Host.lean ====
section
/-! DEFINITION. The host's side of the device: the energy of a window, resets, the semaphore, power, event-counter controls,
register writes and host accesses to memory (R6, R395 to R402, R409, R424, R434, R435, R444 to R449, R452 to R457). -/

namespace Sys2Proof.Machine

/-! ## Reconciliation windows (R444 to R449, R456) -/

/-- The counts of a context in the order of their coefficients. -/
def Usage.counts (u : Usage) : List Nat :=
  [u.corecyc, u.mebusy, u.debusy, u.lcbusy, u.bcbytes, u.hbmrd, u.hbmwr, u.nettx, u.netrx]

/-- The activity estimate of a context (R447). -/
def Usage.estimate (u : Usage) : Nat := (u.counts.zipIdx.map fun p => p.1 * Config.energyCoeff p.2).sum

/-- A row of a window's posting: context, share and remainder. -/
structure Share where
  ctx : Nat
  share : Nat
  rem : Nat
  deriving DecidableEq, Repr

/-- A row put before those of smaller remainder; ties keep their order. -/
def insertShare (x : Share) : List Share → List Share
  | [] => [x]
  | y :: l => if y.rem < x.rem then x :: y :: l else y :: insertShare x l

/-- The shares of the contexts, in ascending order of their numbers, in the energy `d` above the static estimate (R447). -/
def windowShares (d : Nat) (est : List (Nat × Nat)) : List (Nat × Nat) :=
  let total := (est.map (·.2)).sum
  let rows := est.map fun p => ({ ctx := p.1, share := d * p.2 / total, rem := d * p.2 % total } : Share)
  let k := d - (rows.map (·.share)).sum
  let more := ((rows.foldl (fun l x => insertShare x l) []).take k).map (·.ctx)
  rows.map fun r => (r.ctx, r.share + if more.contains r.ctx then 1 else 0)

/-- The posting of a window with package energy `e` and static estimate `st` (R447). -/
def State.postWindow (s : State) (e st : Nat) : State :=
  let est := s.windowCounts.map fun p => (p.1, p.2.estimate)
  let idle := e ≤ st ∨ (est.map (·.2)).sum = 0
  let rows := if idle then [] else windowShares (e - st) est
  let s : State := { s with idleuj := s.idleuj + (if idle then e else st), pkguj := s.pkguj + e, windowCounts := [] }
  rows.foldl (fun s p =>
    if p.2 = 0 then s
    else { s with usage := s.usage.upd {} p.1 fun u => { u with energy := u.energy + p.2, updtime := s.time.toNat } }) s

/-- A window's posting and the addition of every count (R444, R447), and ENDED in the record of every context that DESTROY
has ended (R446). -/
def State.settleWindow (s : State) (e st : Nat) : State :=
  let s := s.postWindow e st
  let s := (s.counts.map (·.1)).foldl State.addCounts s
  { s with usage := s.usage.map fun p => (p.1, if p.2.ending then { p.2 with ending := false, ended := true } else p.2) }

/-- CREATEs that waited for the last generation of their number to end (R446). -/
def State.createPending (s : State) : State :=
  s.funcs.foldl
    (fun s p =>
      match p.2.pending with
      | some (c, x) =>
        if (s.usage.get ({} : Usage) c).ending then s
        else
          let s := s.updFunc p.1 fun f => { f with pending := none }
          if (s.ctx? c).isSome then s.setStat p.1 3 1 0 else (s.newContext c x).setStat p.1 2 0 0
      | none => s) s

/-- The snapshot of a window end (R448). -/
def State.takeSnapshot (s : State) : State :=
  { s with snapshot :=
      { idleuj := s.idleuj, pkguj := s.pkguj, wtime := s.windowEnd, seq := s.snapshot.seq + 2, records := s.usage } }

/-- The health record of a window end (R456): corrected errors and scrubber passes are the arrays' own. -/
def State.takeHealth (s : State) (r : WindowReading) : State :=
  let a := s.freshBits
  let b := a.2.freshBits
  { b.2 with health :=
      { s.health with
        corr := s.health.corr + a.1.toNat, uncorr := s.uncorr, scrubpass := s.health.scrubpass + b.1.toNat
        pwr10 := r.pwr10, pwrlim := s.powerlim
        throttle := s.throttle, temp := r.temp, tin := r.tin, tout := r.tout, flow := r.flow, htime := s.time.toNat } }

/-- The next window: it ends at the first multiple of 1 ms after the last one, or after a step of time (R447, R457). -/
def State.nextWindow (s : State) : State :=
  let e := (s.windowFrom / 1000000 + 1) * 1000000
  { s with windowEnd := e, windowFrom := e }

/-- RECONCILIATION_WINDOW (R447): once device time has reached the end of the window. -/
def execReconciliationWindow (r : WindowReading) (s : State) : Out :=
  if s.boot.state = .ready ∧ s.windowEnd ≤ s.time.toNat then
    .next ((((s.settleWindow r.energy r.static).createPending.takeSnapshot).takeHealth r).nextWindow)
  else .next s

/-! ## The semaphore (R399, R400) -/

/-- A write dropped because its agent does not hold the semaphore (R399). -/
def State.violate (s : State) : State := { s with semviol := s.semviol + 1 }

/-- Whether a port reaches the global control registers that respond in every state after boot (R437): in recovery, PF HA
alone of the two PFs. -/
def State.portOpen (s : State) (port : Nat) : Bool :=
  decide (port < 4) &&
    match s.boot.state with
    | .booting => false
    | .recovery => port != 1
    | _ => true

/-- The 64 bits of SEMTAS (R399). -/
def State.semWord (s : State) (granted : Bool) : Nat :=
  let left := if s.holder.isSome then (s.sem.since + 100000000 - s.elapsed) / 100000 else 0
  (if granted then 2 ^ 32 else 0) + left * 2 ^ 16 + (if s.holder.isSome then s.sem.owner else 0xF) * 16
    + (if s.holder.isSome then 1 else 0)

/-- SEMTAS (R400): a FWWRITE of a holder whose lease has expired ends first (R440). -/
def execSemtas (port : Nat) (s : State) : Out :=
  if !s.portOpen port then .next { s with hostRead := List.replicate 8 0 }
  else if s.holder.all (· == port) then
    let s : State := { s.fwLeaseCheck with sem := { held := true, owner := port, since := s.elapsed } }
    .next { s with hostRead := natLe 8 (s.semWord true) }
  else .next { s with hostRead := natLe 8 (s.semWord false) }

/-- SEMREL (R400). -/
def execSemrel (port : Nat) (val : Dword) (s : State) : Out :=
  if s.portOpen port && val.getLsbD 0 && s.holder == some port then .next ({ s with sem := {} } : State).fwLeaseCheck
  else .next s

/-- SEMAPHORE_LEASE_EXPIRY (R400). -/
def execSemaphoreLeaseExpiry (s : State) : Out :=
  if s.sem.held ∧ s.sem.since + 100000000 ≤ s.elapsed then .next ({ s with sem := {} } : State).fwLeaseCheck else .next s

/-- A write to a global control register (R399): by the holder of the semaphore, or else dropped and counted. In recovery
these registers respond neither over HA nor over HB (R437), and the other two agents still reach them. -/
def State.holderWrite (s : State) (port : Nat) (f : State → State) : State :=
  if !s.portOpen port || s.boot.state == .recovery && decide (port < 2) then s else if s.holder == some port then f s else s.violate

/-! ## Resets and power (R434, R435, R451, R453, R455) -/

/-- The energy of a window whose reading is not given: posted by a warm reset (R434). -/
def State.postPartial (s : State) : State :=
  let a := s.freshBits
  let b := a.2.freshBits
  b.2.settleWindow a.1.toNat b.1.toNat

/-- A warm reset (R434). -/
def State.warmReset (s : State) : State :=
  let s := s.fwFinish
  let s := (s.ctxs.map (·.1)).foldl State.endContext s
  let s : State := { s with queues := s.queues.map fun p => (p.1, if p.2.enable then p.2.destroy else p.2) }
  let s := s.postPartial
  { s with boot := s.boot.restart 1 true, beamRest := [] }

/-- RESET (R434): the holder writes 1 to bit 0. -/
def execReset (port : Nat) (val : Dword) (s : State) : Out :=
  .next (s.holderWrite port fun s => if val.getLsbD 0 then s.warmReset else s)

/-- What is left when the main rails fall (R455): flash and fuses. Host memory, what has been sent out, and the model's own
fields are no state of the device. -/
def State.loseAll (s : State) : State :=
  { ({} : State) with
    elapsed := s.elapsed, agenda := s.agenda, tick := s.tick, nextId := s.nextId, free := s.free
    mem := keepKeys (fun k => decide (Config.haKey ≤ k) && decide (k < Config.endKey)) s.mem, irqs := s.irqs
    net := { wire := s.net.wire }
    boot :=
      { power := false, flash := s.boot.flash, activate := s.boot.activate, slot := s.boot.slot, raise := s.boot.raise
        untrained := s.boot.untrained, svnFloor := s.boot.svnFloor, revoked := s.boot.revoked, debugLock := s.boot.debugLock } }

/-- COLD_RESET (R434, R435): power-good on the main rails starts boot. -/
def execColdReset (s : State) : Out :=
  let s := s.loseAll
  .next { s with boot := { s.boot.restart 0 false with power := true } }

/-- THERMAL_TRIP (R455). -/
def execThermalTrip (s : State) : Out := .next s.loseAll

/-- POWER_GOOD_LOSS (R451, R455). -/
def execPowerGoodLoss (s : State) : Out := .next { s.loseAll with mgmt := none }

/-- FUNCTION_LEVEL_RESET of a VF (R434): its BAR state and signal-wait entries. -/
def execFunctionLevelReset (func : Nat) (s : State) : Out :=
  if (portOf func).isSome ∨ 128 ≤ func then .next s else .next (s.updFunc func fun _ => {})

/-- POWERLIM (R453). -/
def execPowerlim (port : Nat) (val : Dword) (s : State) : Out :=
  let w := val.toNat % 4096
  .next (s.holderWrite port fun s => if 1800 ≤ w ∧ w ≤ 3200 then { s with powerlim := w } else s)

/-- THROTTLE_LEVEL (R453): a level of 0 to 63. -/
def execThrottleLevel (level : Nat) (s : State) : Out := if level ≤ 63 then .next { s with throttle := level } else .next s

/-! ## Event-counter controls (R452) -/

/-- A control without its reserved bits. -/
def counterControl (val : Word) : Counter := { ctrl := val &&& 0xFFF00FFF }

/-- The counter whose control lies at an offset of BAR0, written: a counter of a core, of a die or of an I/O die. -/
def State.setControl (s : State) (off : Nat) (val : Word) : State :=
  let n := off % 32 / 4
  if off % 4 ≠ 0 then s
  else if 0x4000 ≤ off ∧ off < 0x8000 then
    s.updCore ((off - 0x4000) / 32) fun c => { c with perf := c.perf.set {} n (counterControl val) }
  else if 0xC000 ≤ off ∧ off < 0xC200 then { s with dieCounters := s.dieCounters.set {} ((off - 0xC000) / 4) (counterControl val) }
  else if 0xC200 ≤ off ∧ off < 0xC280 then
    { s with dieCounters := s.dieCounters.set {} (128 + (off - 0xC200) / 4) (counterControl val) }
  else s

/-- EVENT_COUNTER_CONTROL (R452). -/
def execEventCounterControl (port : Nat) (off : Nat) (val : Word) (s : State) : Out :=
  .next (s.holderWrite port fun s => s.setControl off val)

/-! ## Register writes (R6, R395, R397, R401, R409, R416, R424) -/

/-- A field of a register. -/
def fieldOf (v : Dword) (hi lo : Nat) : Nat := bitsOf v.toNat hi lo

/-- Dword `i` of a queue's entry written while ENABLE is 0 (R401): a PF names itself or one of its own VFs in FUNC, and
another function keeps FUNC. -/
def Queue.write (x : Queue) (func i : Nat) (v : Dword) : Queue :=
  if x.enable then x
  else if i = 3 then { x with ringbase := v }
  else if i = 4 then
    let f := fieldOf v 51 44
    { x with
      func := if (portOf func).isSome && f / 64 == func / 64 then f else x.func
      prog := fieldOf v 43 32, ctx := fieldOf v 25 16, die := fieldOf v 15 13, prio := fieldOf v 12 11
      log2size := fieldOf v 4 0 }
  else x

/-- A write to a queue's entry. -/
def State.writeQueue (s : State) (func q i : Nat) (v : Dword) : Out :=
  if !s.reaches func q then .next s
  else if i = 0 then
    if v.getLsbD 0 then
      if (s.queue q).enable then (if v.getLsbD 1 then execQueueResume func q s else .next s) else execQueueEnable func q s
    else execQueueDisable func q s
  else .next (s.updQueue q fun x => x.write func i v)

/-- Dword 0 of a signal-wait entry (R409): FIRED is cleared by a 1; ARMED is written beside the other fields. -/
def SigWait.write0 (e : SigWait) (v : Dword) : SigWait :=
  { e with
    vector := fieldOf v 63 48, cond := fieldOf v 3 2, fired := e.fired && !v.getLsbD 1, armed := e.armed && v.getLsbD 0 }

/-- A write to dword `i` of a signal-wait entry. -/
def State.writeSig (s : State) (func idx i : Nat) (v : Dword) : Out :=
  let upd := fun (f : SigWait → SigWait) => s.updFunc func fun x => { x with sigs := x.sigs.upd {} idx f }
  match i with
  | 0 =>
    let s' := upd fun e => e.write0 v
    if v.getLsbD 0 && !((s.func func).sigs.get ({} : SigWait) idx).armed then execSigwaitArm func idx s' else .next s'
  | 1 => .next (upd fun e => { e with ctx := fieldOf v 9 0 })
  | 2 => .next (upd fun e => { e with addr := v })
  | _ => .next (upd fun e => { e with value := v })

/-- The sub-operation of DEBUG that ARG0 names (R354). -/
def State.debugCommand (s : State) (func ctx : Nat) (a0 a2 : Dword) : Out :=
  let pl : DbgPlace := { die := fieldOf a0 10 8, core := fieldOf a0 16 11, lane := fieldOf a0 21 17, slot := fieldOf a0 27 22 }
  let bad := s.mailbox func false (.error (1, 0))
  if a0.toNat / 2 ^ 32 ≠ 0 then .next bad
  else
    match a0.toNat % 256 with
    | 1 => execAttach func ctx (a2.getLsbD 0) s
    | 2 => execStopctx func ctx (a2.getLsbD 0) s
    | 3 => execDebugResume func ctx pl (a2.getLsbD 0) s
    | 4 => execWrbp func ctx (fieldOf a0 31 28) a2 s
    | 5 => execRdframe func ctx pl a2.toNat s
    | 6 => execRdstate func ctx pl a2.toNat s
    | 7 => execWrstate func ctx pl a2.toNat s
    | _ => .next bad

/-- A write of CMD (R416): the operation that it names, with the operands of ARG0 to ARG2. -/
def State.mailboxCommand (s : State) (func op : Nat) : Out :=
  let f := s.func func
  let ctx := f.arg1.toNat
  let a0 := f.arg0
  let a2 := f.arg2
  match op with
  | 1 => execLoad func a0.toNat ctx a2 s
  | 2 => execFree func a0.toNat ctx s
  | 3 => execCreate func a0.toNat a2.toNat s
  | 4 => execDestroy func ctx s
  | 5 => execSetcores func ctx a2.toNat s
  | 6 => execPreempt func ctx a2.toNat s
  | 7 => execTlbinv func a0 ctx a2 s
  | 8 => if 1 < a2.toNat then .next (s.mailbox func false (.error (1, 0))) else execResolve (some func) a0.toNat ctx (a2 == 1) s
  | 9 => execFwwrite func a0.toNat a2.toNat s
  | 10 => execFwactivate func s
  | 11 => execExportCtx func ctx a2.toNat s
  | 12 => execUnexportCtx func a0.toNat ctx s
  | 13 => s.debugCommand func ctx a0 a2
  | _ => .next (s.mailbox func false (.error (1, 0)))

/-- A write to the mailbox of a function. -/
def State.writeMailbox (s : State) (func off : Nat) (v : Dword) : Out :=
  match off with
  | 0x00 => s.mailboxCommand func (v.toNat % 256)
  | 0x10 => .next (s.updFunc func fun f => { f with arg0 := v })
  | 0x18 => .next (s.updFunc func fun f => { f with arg1 := v })
  | 0x20 => .next (s.updFunc func fun f => { f with arg2 := v })
  | _ => .next s

/-- The routing table as it is written (R424): byte k is the entry of KIND k. -/
def routingOf (v : Dword) : List (Bool × Bool) := (List.range 6).map fun k => (v.getLsbD (8 * k), v.getLsbD (8 * k + 1))

/-- A write to the global control registers of BAR0 by one of the four agents that may hold the semaphore (R399). -/
def State.writeGlobal (s : State) (port off : Nat) (v : Dword) : Out :=
  if off = 0x8 then execSemrel port v s
  else if off = 0x48 then execReset port v s
  else if off = 0x50 then execPowerlim port v s
  else if off = 0x100 then .next (s.holderWrite port fun s => { s with routing := routingOf v })
  else if 0x4000 ≤ off ∧ off < 0xC280 then execEventCounterControl port off (loWord v) s
  else .next s

/-- The flow to a peer begun anew when the driver rewrites the entry of an unreachable peer: the messages still waiting for
it take the first numbers, in their order (DESIGN CHOICE, log 77). -/
def Net.restartFlow (x : Net) (node : Nat) : Net :=
  let mine := x.out.filter (·.node == node)
  let x := x.setFlow { node, next := mine.length }
  { x with out := x.out.filter (·.node != node) ++ mine.zipIdx.map fun p => { p.1 with seq := p.2, tries := 0 } }

/-- The address of a peer with its low or its high 64 bits written: an IPv4 address has no high bits. -/
def Net.setPeer (x : Net) (node : Nat) (high : Bool) (v : Dword) : Net :=
  let old := ((x.peers.find? (·.node == node)).map (·.ip)).getD 0
  let ip := if high then v.toNat * 2 ^ 64 + old % 2 ^ 64 else old / 2 ^ 64 * 2 ^ 64 + v.toNat
  let x : Net := if (x.peers.find? (·.node == node)).any (!·.reachable) then x.restartFlow node else x
  { x with peers := x.peers.filter (·.node != node) ++ [{ node, ip }] }

/-- The registers of the driver whose places the manual does not give (R398, R412 to R414): node ID, retransmit time in ns,
the range exposed as host-managed device memory, the UDP port, and the peer table with 16 bytes for each node (DESIGN CHOICE,
log 23). -/
def State.writeNet (s : State) (off : Nat) (v : Dword) : State :=
  if off = 0 then { s with net := { s.net with node := v.toNat % 65536 } }
  else if off = 8 then
    if 5000 ≤ v.toNat ∧ v.toNat ≤ 10000000 then { s with net := { s.net with rtx := v.toNat } } else s
  else if off = 0x10 then { s with hdm := (v.toNat, s.hdm.2) }
  else if off = 0x18 then { s with hdm := (s.hdm.1, v.toNat) }
  else if off = 0x20 then { s with net := { s.net with udp := v.toNat % 65536 } }
  else if 0x100000 ≤ off ∧ off < 0x200000 ∧ off % 8 = 0 then
    { s with net := s.net.setPeer ((off - 0x100000) / 16) (off % 16 == 8) v }
  else s

/-- REGISTER_WRITE (R6, R395): BAR0, BAR2, and as number 6 the registers whose places the manual does not give. The manual gives
no widths of access: a write is one of 64 bits at a multiple of 8, one anywhere else is dropped, and the 32-bit controls of
event counters take the low word at a multiple of 4 (DESIGN CHOICE, log 111). -/
def execRegisterWrite (func bar off : Nat) (val : Dword) (s : State) : Out :=
  let up := s.boot.state == .ready || s.boot.state == .stopped
  if 128 ≤ func then .next s
  else if bar = 2 then (if off % 8 = 0 then execKick func (off / 8) val s else .next s)
  else if bar = 6 then (if up && (portOf func).isSome then .next (s.writeNet off val) else .next s)
  else if bar ≠ 0 then .next s
  else if off < 0x10000 then
    match portOf func with
    | some p => s.writeGlobal p off val
    | none => .next s
  else if off < 0x11000 then (if up || (s.boot.state == .recovery && func == 0) then s.writeMailbox func (off - 0x10000) val else .next s)
  else if !up then .next s
  else if 0x20000 ≤ off ∧ off < 0x22000 ∧ off % 8 = 0 then s.writeSig func ((off - 0x20000) / 32) (off % 32 / 8) val
  else if (portOf func).isSome ∧ off = 0x30000 then .next (s.updFunc func fun f => { f with capbase := fieldOf val 39 30 })
  else if (portOf func).isSome ∧ off = 0x30008 then .next (s.updFunc func fun f => { f with dapbase := fieldOf val 39 30 })
  else if 0x400000 ≤ off ∧ off < 0x800000 ∧ off % 8 = 0 then s.writeQueue func ((off - 0x400000) / 64) (off % 64 / 8) val
  else .next s

/-! ## Register reads (R6, R395, R397, R399, R401, R402, R409, R416, R424, R436, R449, R452, R453, R456) -/

/-- A usage record as its 128 bytes (R445). -/
def Usage.toNat (u : Usage) : Nat :=
  let w := fun (x : Nat) => x % 2 ^ 64
  (if u.valid then 1 else 0) + (if u.ended then 2 else 0) + u.gen % 2 ^ 32 * 2 ^ 32 + w u.updtime * 2 ^ 320
    + w u.corecyc * 2 ^ 384 + w u.mebusy * 2 ^ 448 + w u.debusy * 2 ^ 512 + w u.lcbusy * 2 ^ 576 + w u.bcbytes * 2 ^ 640
    + w u.hbmrd * 2 ^ 704 + w u.hbmwr * 2 ^ 768 + w u.nettx * 2 ^ 832 + w u.netrx * 2 ^ 896 + w u.energy * 2 ^ 960

/-- The snapshot header as its 64 bytes (R448). -/
def Snapshot.header (x : Snapshot) : Nat :=
  2 ^ 32 + x.seq % 2 ^ 64 * 2 ^ 256 + x.wtime % 2 ^ 64 * 2 ^ 320 + x.pkguj % 2 ^ 64 * 2 ^ 384 + x.idleuj % 2 ^ 64 * 2 ^ 448

/-- The health record as its 64 bytes (R456). -/
def Health.toNat (h : Health) : Nat :=
  h.htime % 2 ^ 64 + h.flow % 2 ^ 16 * 2 ^ 160 + h.tout % 256 * 2 ^ 176 + h.tin % 256 * 2 ^ 184
    + ((h.temp.take 10).zipIdx.map fun p => p.1 % 256 * 2 ^ (192 + 8 * p.2)).sum + h.throttle % 64 * 2 ^ 334
    + h.pwrlim % 4096 * 2 ^ 340 + h.pwr10 % 2 ^ 32 * 2 ^ 352 + h.scrubpass % 2 ^ 32 * 2 ^ 384 + h.uncorr % 2 ^ 32 * 2 ^ 416
    + h.corr % 2 ^ 64 * 2 ^ 448

/-- BOOTSTAT (R436). -/
def Boot.stat (b : Boot) : Nat :=
  b.svn % 2 ^ 16 * 2 ^ 48 + b.failcode % 256 * 2 ^ 40 + (if b.stage = 0 then 0 else b.slot % 2) * 2 ^ 24 + b.stage % 256 * 2 ^ 16
    + match b.state with
      | .booting => 1 | .ready => 2 | .recovery => 3 | .stopped => 4

/-- A routing table as it is read (R424). -/
def routingWord (l : List (Bool × Bool)) : Nat :=
  (l.zipIdx.map fun p => ((if p.1.1 then 1 else 0) + if p.1.2 then 2 else 0) * 2 ^ (8 * p.2)).sum

/-- The two controls in a dword of the event-counter controls (R452). -/
def State.controlPair (s : State) (off : Nat) : Nat :=
  let two := fun (m : SMap Counter) (n : Nat) =>
    (m.get ({} : Counter) n).ctrl.toNat + (m.get ({} : Counter) (n + 1)).ctrl.toNat * 2 ^ 32
  if off < 0x8000 then two (s.core ((off - 0x4000) / 32)).perf (off % 32 / 4)
  else if off < 0xC000 then 0
  else if off < 0xC200 then two s.dieCounters ((off - 0xC000) / 4)
  else if off < 0xC280 then two s.dieCounters (128 + (off - 0xC200) / 4)
  else 0

/-- A dword of the global control registers, which both PFs read. SEMREL and RESET act on a write and read as WO (DEDUCED, log
100). -/
def State.globalDword (s : State) (off : Nat) : Nat :=
  if off = 0x10 then s.semviol.toNat
  else if off = 0x40 then s.boot.stat
  else if off = 0x50 then s.powerlim
  else if off = 0x100 then routingWord s.routing
  else if 0x4000 ≤ off ∧ off < 0xC280 then s.controlPair off
  else 0

/-- A dword of a function's mailbox (R416): CMD reads zero. -/
def Func.mailboxDword (f : Func) (off : Nat) : Nat :=
  if off = 0x08 then f.stat % 4 + f.reason % 256 * 2 ^ 8 + f.failWord % 2 ^ 16 * 2 ^ 16
  else if off = 0x10 then f.arg0.toNat
  else if off = 0x18 then f.arg1.toNat
  else if off = 0x20 then f.arg2.toNat
  else 0

/-- A signal-wait entry as its 32 bytes (R409). -/
def SigWait.toNat (e : SigWait) : Nat :=
  (if e.armed then 1 else 0) + (if e.fired then 2 else 0) + e.cond % 4 * 2 ^ 2 + e.vector % 2 ^ 16 * 2 ^ 48
    + e.ctx % 1024 * 2 ^ 64 + e.addr.toNat * 2 ^ 128 + e.value.toNat * 2 ^ 192

/-- STATE of a queue (R401). -/
def QState.code : QState → Nat
  | .off => 0 | .idle => 1 | .running => 2 | .blocked => 3 | .faulted => 4

/-- A queue's entry as its 64 bytes (R401). -/
def Queue.toNat (x : Queue) : Nat :=
  (if x.enable then 1 else 0) + x.ringbase.toNat * 2 ^ 192 + x.log2size % 32 * 2 ^ 256 + x.prio % 4 * 2 ^ 267
    + x.die % 8 * 2 ^ 269 + x.ctx % 1024 * 2 ^ 272 + x.prog % 4096 * 2 ^ 288 + x.func % 256 * 2 ^ 300
    + (x.state.code + (if x.partial_ then 8 else 0) + x.fcode % 256 * 2 ^ 8) * 2 ^ 352
    + x.kickv.toNat * 2 ^ 384 + x.rdidx.toNat * 2 ^ 416 + x.ccount.toNat * 2 ^ 448

/-- Dword `i` of a wider register. -/
def dwordOf (x i : Nat) : Nat := x / 2 ^ (64 * i) % 2 ^ 64

/-- A dword of the snapshot (R449): the header, and the records of every context for a PF, or of those that it created for a
VF. -/
def State.snapshotDword (s : State) (func off : Nat) : Nat :=
  if off < 0x40 then dwordOf s.snapshot.header (off / 8)
  else
    let c := (off - 0x40) / 128
    let u := s.snapshot.records.get ({} : Usage) c
    if (portOf func).isSome || u.valid && u.creator == func then dwordOf u.toNat ((off - 0x40) % 128 / 8) else 0

/-- The dword at an offset of BAR0 that a function reads once boot has ended: what it may not see, and what is no register,
reads zero. -/
def State.bar0Dword (s : State) (func off : Nat) : Dword × State :=
  let pf := (portOf func).isSome
  let val := fun (n : Nat) => ((BitVec.ofNat 64 n, s) : Dword × State)
  if off < 0x10000 then val (if pf then s.globalDword off else 0)
  else if off < 0x11000 then val ((s.func func).mailboxDword (off - 0x10000))
  else if 0x20000 ≤ off ∧ off < 0x22000 then
    val (dwordOf ((s.func func).sigs.get ({} : SigWait) ((off - 0x20000) / 32)).toNat (off % 32 / 8))
  else if off = 0x30000 then val (if pf then (s.func func).capbase % 1024 * 2 ^ 30 else 0)
  else if off = 0x30008 then val (if pf then (s.func func).dapbase % 1024 * 2 ^ 30 else 0)
  else if pf ∧ 0x80000 ≤ off ∧ off < 0x88000 then
    val ((s.core ((off - 0x80000) / 64)).perf.get ({} : Counter) (off % 64 / 8)).value.toNat
  else if pf ∧ 0x88000 ≤ off ∧ off < 0x88400 then val (s.dieCounters.get ({} : Counter) ((off - 0x88000) / 8)).value.toNat
  else if pf ∧ 0x88400 ≤ off ∧ off < 0x88500 then val (s.dieCounters.get ({} : Counter) (128 + (off - 0x88400) / 8)).value.toNat
  else if pf ∧ 0xF0000 ≤ off ∧ off < 0xF0040 then val (dwordOf s.health.toNat ((off - 0xF0000) / 8))
  else if 0x100000 ≤ off ∧ off < 0x100040 + 1024 * 128 then val (s.snapshotDword func (off - 0x100000))
  else if 0x400000 ≤ off ∧ off < 0x800000 then
    let q := (off - 0x400000) / 64
    val (if s.reaches func q then dwordOf (s.queue q).toNat (off % 64 / 8) else 0)
  else val 0

/-- What a function reads at an aligned dword of BAR0 or BAR2. Before boot has ended only BOOTSTAT answers, and in recovery
BOOTSTAT and the mailbox of the PF of HA (R435, R437). -/
def State.barDword (s : State) (func bar off : Nat) : Dword × State :=
  let none' : Dword × State := (0, s)
  if 128 ≤ func then none'
  else if bar = 2 then
    if (s.boot.state = .ready ∨ s.boot.state = .stopped) ∧ off < 2 ^ 19 ∧ s.reaches func (off / 8) then
      (((s.queue (off / 8)).kickv).setWidth 64, s)
    else none'
  else if bar ≠ 0 then none'
  else
    match s.boot.state with
    | .booting => if (portOf func).isSome ∧ off = 0x40 then s.bar0Dword func off else none'
    | .recovery =>
      if (portOf func).isSome ∧ off = 0x40 ∨ func = 0 ∧ 0x10000 ≤ off ∧ off < 0x11000 then s.bar0Dword func off else none'
    | _ => s.bar0Dword func off

/-- The bytes of a run of dwords, each read once (R449). -/
def State.barBytes (s : State) (func bar off : Nat) : Nat → List Byte × State
  | 0 => ([], s)
  | n + 1 =>
    let d := s.barDword func bar off
    let l := d.2.barBytes func bar (off + 8) n
    (natLe 8 d.1.toNat ++ l.1, l.2)

/-- A read of `len` bytes of BAR0 or BAR2 by a function (R6, R395): one of SEMTAS, at any of its 8 bytes and of any length, is
the test-and-set of R400 and gives all 8 (DESIGN CHOICE, log 111). -/
def State.registerRead (s : State) (func bar off len : Nat) : Out :=
  match portOf func with
  | some p => if bar = 0 ∧ off / 8 = 0 then execSemtas p s else go
  | none => go
where
  /-- A read without an effect. -/
  go : Out :=
    let l := s.barBytes func bar (off / 8 * 8) ((off % 8 + len + 7) / 8)
    .next { l.2 with hostRead := (l.1.drop (off % 8)).take len }

/-! ## Host accesses to device memory (R396 to R398, R432, R443) -/

/-- Whether apertures are open. -/
def State.apertures (s : State) (func : Nat) : Bool :=
  (portOf func).isSome && (s.boot.state == .ready || s.boot.state == .stopped)

/-- An access of BAR4 while it is closed (R435): a read gives zeros, and a write is ignored. -/
def State.closedAccess (s : State) (a : HostAccess) : State :=
  match a.wr with
  | some _ => s
  | none => { s with hostRead := List.replicate a.len 0 }

/-- A byte of device memory as a host reads it at its home: the usage region reads zero, and poisoned data, and what the device
keeps in context memory in a form of its own (R105; DESIGN CHOICE, log 13), reads as some byte. -/
def State.hostByte (s : State) (pa : Nat) : Byte × State :=
  if Config.usageBase ≤ pa then (0, s)
  else if s.poison.contains (pa / 256) ∨ s.deviceOwned pa then
    let r := s.freshBits
    (r.1.setWidth 8, r.2)
  else (s.byte pa, s)

/-- A byte as the memory controllers hold it: what the L2 holds dirty has not reached them. -/
def State.directByte (s : State) (pa : Nat) : Byte × State :=
  match s.shadow.find? (·.1 == pa) with
  | some p => (p.2, s)
  | none =>
    if pa < Config.usageBase ∧ s.dirty.contains (pa / 256) then
      let r := s.freshBits
      (r.1.setWidth 8, r.2)
    else s.hostByte pa

/-- A host read of `n` bytes. -/
def State.readBytes (s : State) (f : State → Nat → Byte × State) (pa : Nat) : Nat → List Byte × State
  | 0 => ([], s)
  | n + 1 =>
    let r := f s pa
    let l := r.2.readBytes f (pa + 1) n
    (r.1 :: l.1, l.2)

/-- A host access at the home slice of its lines. -/
def State.homeAccess (s : State) (pa : Nat) (a : HostAccess) : State :=
  match a.wr with
  | some l => s.putMem pa (l.take (min a.len (Config.usageBase - pa)))
  | none =>
    let r := s.readBytes State.hostByte pa a.len
    { r.2 with hostRead := r.1 }

/-- HOST_COHERENT_ACCESS (R396, R397, R435): offsets of 0 to 32 GiB of BAR4. -/
def execHostCoherentAccess (acc : HostAccess) (s : State) : Out :=
  if !s.apertures acc.func then .next (s.closedAccess acc)
  else if acc.off + acc.len ≤ 2 ^ 35 then
    .next (s.homeAccess ((s.func acc.func).capbase * 2 ^ 30 + acc.off) acc)
  else .next s

/-- HOST_DIRECT_ACCESS (R396, R397, R435): offsets into the direct aperture. A write waits past the L2 until a device agent's
CINV, or the L2's own fill, shows it. -/
def execHostDirectAccess (acc : HostAccess) (s : State) : Out :=
  if !s.apertures acc.func then .next (s.closedAccess acc)
  else if acc.off + acc.len ≤ 2 ^ 35 then
    let pa := (s.func acc.func).dapbase * 2 ^ 30 + acc.off
    match acc.wr with
    | some l =>
      let l := l.take (min acc.len (Config.usageBase - pa))
      .next { s with
        shadow := s.shadow.filter (fun p => !(decide (pa ≤ p.1) && decide (p.1 < pa + l.length)))
          ++ l.zipIdx.map fun p => (pa + p.2, p.1) }
    | none =>
      let r := s.readBytes State.directByte pa acc.len
      .next { r.2 with hostRead := r.1 }
  else .next s

/-- CXL_MEM_ACCESS (R398): by the host behind HA, at the line's home slice, in the range that the driver has exposed. -/
def execCxlMemAccess (acc : HostAccess) (s : State) : Out :=
  if s.apertures 0 ∧ acc.func = 0 ∧ s.hdm.1 ≤ acc.off ∧ acc.off + acc.len ≤ s.hdm.1 + s.hdm.2 then
    .next (s.homeAccess acc.off acc)
  else .next s

/-- HOST_SNOOP (R85): the home slice of a line of host memory answers, and holds no dirty sector of it any more. -/
def execHostSnoop (line : Nat) (inv : Bool) (s : State) : Out :=
  let l := sectorsOf (Config.cxKey + line / 1024 * 1024) 1024
  let s := s.writeBack l
  .next (if inv then s.dropSectors l else s)

/-- CONFIGURATION_REQUEST (R435): Configuration Request Retry Status, no bytes, before boot has ended; else bytes of the
configuration space, which PCIe lays down. -/
def execConfigurationRequest (_port : Nat) (s : State) : Out :=
  if s.boot.state = .booting then .next { s with hostRead := [] }
  else
    let r := s.freshBits
    .next { r.2 with hostRead := natLe 4 (r.1.toNat % 2 ^ 32) }

end Sys2Proof.Machine
end

