-- ==== Sys2Proof/Machine/Manage.lean ====
section
/-! DEFINITION. The management port, the SPDM responder, IEEE 1588 and the service firmware's declines (R424, R439 to R442,
R448 to R451, R456, R457). -/

namespace Sys2Proof.Machine

/-! ## Usage messages (R445, R448, R450, R451, R456) -/

/-- A response of the management port with a completion code in READY: SEQ and WTIME of the snapshot, then what it
returns (R450). No answer comes while the device boots or has no power; in recovery and in the stopped state the code is 0x02,
and what was last written stays readable in the stopped state (R451; DEDUCED, log 83). -/
def State.answer (s : State) (good : Nat) (l : List Byte) : State :=
  let head := natLe 8 s.snapshot.seq ++ natLe 8 s.snapshot.wtime
  if !s.boot.power then { s with mgmt := none }
  else
    match s.boot.state with
    | .booting => { s with mgmt := none }
    | .recovery => { s with mgmt := some { code := 2, bytes := head } }
    | .stopped => { s with mgmt := some { code := 2, bytes := head ++ if good = 0 then l else [] } }
    | .ready => { s with mgmt := some { code := good, bytes := head ++ if good = 0 then l else [] } }

/-- GET_USAGE_HEADER (R450). -/
def execGetUsageHeader (s : State) : Out := .next (s.answer 0 (natLe 64 s.snapshot.header))

/-- GET_USAGE (R450). -/
def execGetUsage (first count : Nat) (s : State) : Out :=
  let ok := decide (first ≤ 1023) && decide (1 ≤ count) && decide (count ≤ 8) && decide (first + count ≤ 1024)
  .next (s.answer (if ok then 0 else 1) ((List.range (min count 8)).flatMap fun i =>
    natLe 128 (s.snapshot.records.get ({} : Usage) (first + i)).toNat))

/-- GET_HEALTH (R450, R456). -/
def execGetHealth (s : State) : Out := .next (s.answer 0 (natLe 64 s.health.toNat))

/-- A usage message with a command byte that no command has (R450). -/
def State.unknownCommand (s : State) : State := s.answer 3 []

/-! ## Identity and attestation (R441, R442) -/

/-- The running firmware image. -/
def State.image? (s : State) : Option FwImage := (s.boot.flash[s.boot.slot]?).join

/-- PAYDIG of an image: that of the image a module is made with is a value of the module (R442; DESIGN CHOICE, log 7). -/
def FwImage.paydig (x : FwImage) : List Byte := if x.digest = [] then Config.wordBytes 64 Config.factoryPaydig else x.digest

/-- A measurement, by its index (R442). -/
def State.measurement (s : State) (i : Nat) : List Byte :=
  match i with
  | 1 => Config.sha3 Config.romBytes
  | 2 => (s.image?.map FwImage.paydig).getD (natLe 64 0)
  | 3 => Config.sha3 Config.programZeroBytes
  | 4 =>
    natLe 2 s.boot.svnFloor
      ++ [BitVec.ofNat 8 ((s.boot.revoked.zipIdx.map fun r => if r.1 then 2 ^ r.2 else 0).sum), if s.boot.debugLock then 1 else 0]
  | _ => [if s.ctxs.any fun p => p.2.any (·.attached) then 1 else 0]

/-- The digest from which the alias key is derived (R441): of the seed and of measurements 1 to 3. -/
def State.aliasDigest (s : State) : List Byte :=
  Config.sha3 (Config.wordBytes 32 Config.seed ++ s.measurement 1 ++ s.measurement 2 ++ s.measurement 3)

/-- The device identity key (R441): that which FIPS 204 derives from the seed in fuses, for ever the same. -/
def identityKey : BitVec 20736 := Config.mldsaPublic Config.seed

/-- The seed of the alias key (R441). -/
def State.aliasSeed (s : State) : BitVec 256 := Config.aliasDerive s.aliasDigest

/-- Certificate chain slot 0 (R441): Proenzar's certificate of the identity key, and the identity key's certificate of the
alias key. -/
def State.certChain (s : State) : List Byte :=
  Config.makerCertificate identityKey ++ Config.certificate Config.seed (Config.mldsaPublic s.aliasSeed)

/-- A signature with the alias key over a digest. -/
def State.sign (s : State) (l : List Byte) : List Byte := Config.wordBytes 4627 (Config.mldsaSign s.aliasSeed (Config.sha3 l))

/-- A response of the SPDM responder, which the service firmware runs: a code, 0 for success and 1 for an error, and bytes. -/
def State.spdmAnswer (s : State) (code : Nat) (l : List Byte) : Out :=
  if s.boot.state = .ready then .next { s with spdm := some { code, bytes := l } } else .next s

/-- A request that the responder does not support, KEY_EXCHANGE (0xE4) among them: it is answered with an error (R442). -/
def State.spdmUnsupported (s : State) : Out := s.spdmAnswer 1 []

/-- Fields of a response that the manual leaves to SPDM. -/
def spdmFields (code from_ n : Nat) : List Byte := (List.range n).map fun i => Config.spdmField code (from_ + i)

/-- GET_VERSION (R442): one version, 1.3. The layout is that of SPDM (PRESUMED, log 11). -/
def execGetVersion (s : State) : Out := s.spdmAnswer 0 [0x10, 0x04, 0, 0, 0, 1, 0, 0x13]

/-- The capability bits (R442): certificates, CHALLENGE, and measurements with a signature; no key exchange, no encryption, no
other session (PRESUMED, log 11). -/
def spdmFlags : Nat := 0x2 + 0x4 + 0x10

/-- GET_CAPABILITIES (R442; PRESUMED, log 11). -/
def execGetCapabilities (s : State) : Out :=
  s.spdmAnswer 0 ([0x13, 0x61, 0, 0, 0] ++ spdmFields 0x61 0 1 ++ [0, 0] ++ natLe 4 spdmFlags ++ spdmFields 0x61 1 8)

/-- NEGOTIATE_ALGORITHMS (R442): no base algorithm, one extended asymmetric algorithm, ML-DSA-87, and one extended hash algorithm,
SHA3-512, both under the vendor's identifier (PRESUMED, log 11). -/
def execNegotiateAlgorithms (s : State) : Out :=
  s.spdmAnswer 0 ([0x13, 0x63, 0, 0] ++ natLe 2 44 ++ spdmFields 0x63 0 6 ++ natLe 4 0 ++ natLe 4 0 ++ List.replicate 12 0
    ++ [1, 1, 0, 0] ++ natLe 4 (Config.vendorAlgorithm 0).toNat ++ natLe 4 (Config.vendorAlgorithm 1).toNat)

/-- GET_DIGESTS (R441, R442): the digest of certificate chain slot 0. -/
def execGetDigests (s : State) : Out := s.spdmAnswer 0 (Config.sha3 s.certChain)

/-- GET_CERTIFICATE (R441, R442): a portion of chain slot 0, the only slot, after its length and the length that remains. -/
def execGetCertificate (slot off len : Nat) (s : State) : Out :=
  let chain := s.certChain
  let part := (chain.drop off).take len
  if slot = 0 ∧ off ≤ chain.length then
    s.spdmAnswer 0 (natLe 2 part.length ++ natLe 2 (chain.length - off - part.length) ++ part)
  else s.spdmAnswer 1 []

/-- CHALLENGE (R442): the chain's digest and a signature over it and the nonce. -/
def execChallenge (nonce : List Byte) (s : State) : Out :=
  let d := Config.sha3 s.certChain
  s.spdmAnswer 0 (d ++ s.sign (d ++ nonce))

/-- GET_MEASUREMENTS (R442): index 0 asks for their number, 0xFF for all, and the response is signed with the nonce. -/
def execGetMeasurements (index : Nat) (nonce : List Byte) (s : State) : Out :=
  let all := if index = 0xFF then [1, 2, 3, 4, 5] else if 1 ≤ index ∧ index ≤ 5 then [index] else []
  let body := if index = 0 then [5] else all.flatMap fun i => (BitVec.ofNat 8 i : Byte) :: s.measurement i
  if index = 0 ∨ all ≠ [] then s.spdmAnswer 0 (body ++ s.sign (body ++ nonce)) else s.spdmAnswer 1 []

/-! ## Time (R457) -/

/-- Device time steps forward: the window under way ends at the step. -/
def State.stepTime (s : State) (t : Dword) : State :=
  { s with time := t, windowEnd := min s.windowEnd s.time.toNat, windowFrom := t.toNat }

/-- PTP_ENABLE (R457): time steps forward once where PTP time is ahead, and is never stepped back. -/
def execPtpEnable (time : Dword) (s : State) : Out :=
  if s.boot.state ≠ .ready ∨ s.ptp.enabled then .next s
  else
    let s : State := { s with ptp := { s.ptp with enabled := true, offset := (time.toNat : Int) - s.time.toNat } }
    if s.time.toNat < time.toNat then .next { s.stepTime time with ptp := { s.ptp with offset := 0 } } else .next s

/-- PTP_MESSAGE (R457): the best master clock algorithm chooses the port that is followed, and a message on it gives the
offset towards which the rate is steered. -/
def execPtpMessage (port : Nat) (offset : Int) (best : Bool) (s : State) : Out :=
  if s.boot.state = .ready ∧ s.ptp.enabled ∧ s.net.ports[port]? = some true then
    let p : Ptp := if best then { s.ptp with port := some port } else s.ptp
    .next { s with ptp := if p.port = some port then { p with offset } else p }
  else .next s

/-- ACTIVE_PORT_CHANGE (R413): the set of ports over which flows are spread. -/
def execActivePortChange (port : Nat) (up : Bool) (s : State) : Out :=
  .next { s with net := { s.net with ports := s.net.ports.set port up } }

/-- SERVICE_FIRMWARE_DECLINE (R424): the host receives FVEC at once. -/
def execServiceFirmwareDecline (ctx seq : Nat) (s : State) : Out := .next (s.claimToHost ctx seq)

end Sys2Proof.Machine
end

