-- ==== Sys2Proof/Machine/Pft.lean ====
section
/-! DEFINITION. Proenzar Fabric Transport: messages received from other devices, acknowledgement and retransmission (R407,
R409, R412 to R415, R419). -/

namespace Sys2Proof.Machine

/-! ## Replies (R413) -/

/-- A request outside an export is refused (R415), and stays refused where it arrives again. -/
def State.refuseMsg (s : State) (node seq : Nat) : State :=
  let f := s.net.flow node
  ({ s with net := s.net.setFlow { f with nacked := f.nacked ++ [seq] } } : State).reply node (.nack seq true)

/-- Payload bytes received for a context (R443). -/
def State.received (s : State) (ctx n : Nat) : State := s.count ctx fun u => { u with netrx := u.netrx + n }

/-! ## Exports (R419) -/

/-- The export that a request names, where its sender and kind are allowed and every page offset lies below PAGES. -/
def State.exportFor (s : State) (node ctx exp off n : Nat) (ok : Export → Bool) : Option Export :=
  (s.exports.find? (·.num == exp)).filter fun e =>
    e.node == node && e.rctx == ctx && ok e && decide (1 ≤ n) && decide (n ≤ 4096) && decide (off + n ≤ 4096 * e.pages)

/-- The ranges of memory that bytes of an export lie in, page by page: none where a page does not translate with the
permissions of the access. -/
def State.exportKeys (s : State) (e : Export) (off n : Nat) (acc : Acc) : Option (List (Nat × Nat)) :=
  let first := min n (4096 - off % 4096)
  match s.key e.ctx (e.base + BitVec.ofNat 64 off) acc with
  | .error _ => none
  | .ok k =>
    if n ≤ first then some [(k, n)]
    else
      match s.key e.ctx (e.base + BitVec.ofNat 64 (off + first)) acc with
      | .error _ => none
      | .ok k2 => some [(k, first), (k2, n - first)]

/-- Bytes of a context stored over ranges of memory. -/
def State.putRanges (s : State) (c : Nat) : List (Nat × Nat) → List Byte → State
  | [], _ => s
  | (k, n) :: l, x => (s.putFor c k (x.take n)).putRanges c l (x.drop n)

/-- The export's pages that an access meets are looked up (R419, R443). -/
def State.exportLook (s : State) (e : Export) (off n : Nat) : State :=
  let s := s.lookUp e.ctx (e.base + BitVec.ofNat 64 off)
  let first := 4096 - off % 4096
  if n ≤ first then s else s.lookUp e.ctx (e.base + BitVec.ofNat 64 (off + first))

/-- A remote read of poisoned data ends the context that exports it (R432): the record's die and unit are free (DESIGN CHOICE, log
22). -/
def State.poisonedExport (s : State) (e : Export) (off : Nat) (acc : Acc) : State :=
  let d := s.freshBelow 8
  let u := d.2.freshBelow 256
  u.2.poisonEnds e.ctx
    { time := 0, addr := e.base + BitVec.ofNat 64 off, task := noOwner, die := d.1, agent := 8, unit := u.1, acc }

/-! ## Requests of other devices -/

/-- PUT applied. -/
def State.applyPut (s : State) (node seq ctx exp off : Nat) (l : List Byte) : State :=
  match s.exportFor node ctx exp off l.length (·.xw) with
  | none => s.refuseMsg node seq
  | some e =>
    let s := s.exportLook e off l.length
    match s.exportKeys e off l.length .write with
    | none => s.refuseMsg node seq
    | some ks => ((s.putRanges e.ctx ks l).received e.ctx l.length).reply node (.ack [seq])

/-- GET answered. -/
def State.applyGet (s : State) (node seq op ctx exp off n : Nat) : State :=
  match s.exportFor node ctx exp off n (·.xr) with
  | none => s.refuseMsg node seq
  | some e =>
    let s := s.exportLook e off n
    match s.exportKeys e off n .read with
    | none => s.refuseMsg node seq
    | some ks =>
      if ks.any fun k => s.poisoned k.1 k.2 then s.poisonedExport e off .read
      else
        let r := ks.foldl (fun s k => s.l2Read (some e.ctx) k.1 k.2 1) s
        (r.reply node (.ack [seq])).sendFor e.ctx node (.getResp op off (ks.flatMap fun k => s.bytes k.1 k.2))

/-- FLAG applied (R341): a release at its home slice. -/
def State.applyFlag (s : State) (node seq ctx exp off : Nat) (add : Bool) (v : Dword) : State :=
  match s.exportFor node ctx exp off 8 (·.xw) with
  | none => s.refuseMsg node seq
  | some e =>
    let s := s.exportLook e off 8
    match s.exportKeys e off 8 (if add then .rmw else .write) with
    | some [(k, _)] =>
      if add && s.poisoned k 8 then s.poisonedExport e off .rmw
      else
        let w := if add then BitVec.ofNat 64 (s.num k 8) + v else v
        ((s.putFor e.ctx k (natLe 8 w.toNat)).received e.ctx 8).reply node (.ack [seq])
    | _ => s.refuseMsg node seq

/-- SHIP offered to the home of the lock's line on this device (R168): its section runs in the exporting context. It is
acknowledged when the home has accepted it (R170; DESIGN CHOICE, log 77). -/
def State.applyShip (s : State) (node seq op ctx exp off : Nat) (r : ShipReq) : State :=
  match s.exportFor node ctx exp off 1 (·.xship) with
  | none => s.refuseMsg node seq
  | some e =>
    let home := match s.locate e.ctx (e.base + BitVec.ofNat 64 off) .read false with
      | .ok (.mem k) => some (homeOf (k % 2 ^ 52))
      | .ok (.kick o) => some (homeOf (Config.kickBase + o))
      | _ => none
    match home with
    | none => s.refuseMsg node seq
    | some lc =>
      let n := (NetMsg.ship op exp off ctx 0 r).payload
      let r : ShipReq := { r with sender := .remote node op seq, ctx := e.ctx }
      (s.updLc lc fun l => { l with offers := l.offers ++ [r] }).received e.ctx n

/-- Whether a request came from an operation of another device. -/
def ShipReq.remoteOp (r : ShipReq) (node op : Nat) : Bool :=
  match r.sender with
  | .remote n o _ => n == node && o == op
  | .thread _ => false

/-- A sender takes back a request that its home has not accepted: it is acknowledged where it is taken out, and refused where
the request has been accepted (R170; DESIGN CHOICE, log 77). -/
def State.applyWithdraw (s : State) (node seq op : Nat) : State :=
  let mine : ShipReq → Bool := (·.remoteOp node op)
  if s.lcs.any fun p => (p.2.offers ++ p.2.refused).any mine then
    let lcs := s.lcs.map fun p =>
      (p.1, { p.2 with refused := p.2.refused.filter (!mine ·), offers := p.2.offers.filter (!mine ·) })
    ({ s with lcs := lcs.filter (·.2 != ({} : Lc)) } : State).reply node (.ack [seq])
  else s.refuseMsg node seq

/-- A waiter of another device registered on a location of an export, or fired at once (R407, R409). -/
def State.applySignal (s : State) (node seq ctx exp off q : Nat) (val : Dword) (cond : Nat) : State :=
  match s.exportFor node ctx exp off 8 (·.xr) with
  | none => s.refuseMsg node seq
  | some e =>
    let s := s.exportLook e off 8
    match s.exportKeys e off 8 .read with
    | some [(k, _)] =>
      let w := RemoteWait.signal node q e.ctx exp off k val cond
      ({ s with net := { s.net with waits := s.net.waits ++ [w] } } : State).fireRemote.reply node (.ack [seq])
    | _ => s.refuseMsg node seq

/-- A chain of another device's queue registered on a queue of this one (R407). -/
def State.applyChain (s : State) (node seq target q : Nat) (count : Word) : State :=
  let w := RemoteWait.chain node q target count
  (({ s with net := { s.net with waits := s.net.waits ++ [w] } } : State).notifyChains target).reply node (.ack [seq])

/-! ## Answers to this device's requests -/

/-- A queue blocked on another device goes on. -/
def State.unblockQueue (s : State) (q : Nat) (b : Queue → Bool) : State :=
  if b (s.queue q) then s.updQueue q fun x => { x with state := .running, block := none, pc := x.pc + 1 } else s

/-- The bulk copy with a part of an operation number. -/
def State.copyOf (s : State) (node op : Nat) : Option (BulkCopy × NetRun) :=
  s.copies.findSome? fun b => (b.nets.find? fun r => r.node == node && r.op == op).map fun r => (b, r)

/-- A part of a copy is done: its sector is, once no part of it is left. -/
def State.netDone (s : State) (b : BulkCopy) (r : NetRun) : State :=
  let s := s.updCopy b.id fun b => { b with nets := b.nets.filter (·.op != r.op) }
  match s.copies.find? (·.id == b.id) with
  | some b' => if b'.nets.any (·.sector == r.sector) then s else s.sectorDone b' r.sector
  | none => s

/-- The data of a copy's part, put where it goes: a page fault makes its sector wait and be copied again. -/
def State.netData (s : State) (b : BulkCopy) (r : NetRun) (l : List Byte) : State :=
  match s.copyEnd b b.desc.dst r.dst r.n .write with
  | .ok e => (s.putEnd b r.sector r.dst l e).netDone b r
  | .error (.trap t) => s.copyStops b t.failure
  | .error (.page va acc) =>
    let f := s.openFault b.ctx va acc { time := 0, task := b.taskHandle, die := b.die, agent := 2, unit := b.unit }
    (f.2.updCopy b.id fun b =>
      { b with nets := b.nets.filter (·.sector != r.sector), fids := b.fids ++ [(r.sector, f.1)] }).suspendCopy b.id
  | .error .stall => s

/-- The data of a GET. -/
def State.applyData (s : State) (node op : Nat) (l : List Byte) : State :=
  match s.rmaOf node op with
  | some (r, p) => (s.received r.ctx l.length).rmaData r p l
  | none =>
    match s.copyOf node op with
    | some (b, r) => (s.received b.ctx l.length).netData b r l
    | none => s

/-- The record of a section fault on another device (R176, R178, R423): the home, the PC and the detail word that its result
names; free values for the home and the PC where no section has run (DESIGN CHOICE, log 24). -/
def State.remoteFault (s : State) (r : ShipReq) (cause : Nat) (out : Option SectionEnd) : State :=
  let rec' : FaultRec := { time := 0, task := r.task, agent := 5, cause, kind := 2 }
  match out with
  | some x => s.postRecord r.ctx { rec' with addr := x.pc, detail := x.detail, die := x.lc / 8, unit := x.lc % 8 }
  | none =>
    let d := s.freshBelow 8
    let u := d.2.freshBelow 8
    let a := u.2.freshBits
    a.2.postRecord r.ctx { rec' with addr := a.1, die := d.1, unit := u.1 }

/-- The outcome of a SHIP to another device reaches its sender (R175, R176): one whose home had not answered has issued. -/
def State.shipOutcome (s : State) (r : ShipReq) (ok : Bool) (cause : Nat) (out : Option SectionEnd)
    (results : List Word) : State :=
  let s := if ok then s else s.remoteFault r cause out
  let lc := (out.map (·.lc)).getD 0
  match r.kind, r.sender with
  | .w, .thread tid =>
    if ok then s.deliverShipW tid r results true
    else s.deliverShipW tid r (0x0002 :: BitVec.ofNat 32 cause :: List.replicate 6 0) false
  | .c, .thread tid =>
    (s.fulfilToken r ok (BitVec.ofNat 8 cause) results lc ((out.map (·.pc)).getD 0)).shipIssued tid .c
  | .o, .thread tid => s.shipIssued tid .o
  | _, _ => s

/-- The messages of an operation that has an answer are retired: the request, and the question whether it was accepted. -/
def State.shipAnswered (s : State) (node op : Nat) : State :=
  { s with net := { s.net with
      ships := s.net.ships.filter fun x => !(x.1 == op && x.2.1 == node)
      out := s.net.out.filter fun o => !(o.node == node && (match o.msg with
        | .ship op' .. => op' == op
        | _ => false)) } }

/-- The result of a SHIP. -/
def State.applyResult (s : State) (node op : Nat) (ok : Bool) (cause : Nat) (out : Option SectionEnd)
    (results : List Word) : State :=
  match s.net.ships.find? fun x => x.1 == op && x.2.1 == node with
  | none => s
  | some (_, _, r) => ((s.shipAnswered node op).received r.ctx (4 * results.length)).shipOutcome r ok cause out results

/-- A message applied (R412 to R415). -/
def State.applyMsg (s : State) (node seq : Nat) (m : NetMsg) : State :=
  match m with
  | .put _ exp off ctx _ l => s.applyPut node seq ctx exp off l
  | .getReq op exp off n ctx _ => s.applyGet node seq op ctx exp off n
  | .flag exp off ctx _ add v => s.applyFlag node seq ctx exp off add v
  | .ship op exp off ctx _ r => s.applyShip node seq op ctx exp off r
  | .signal exp off ctx q val cond fire =>
    if fire then
      (s.unblockQueue q fun x => x.block == some (.remoteSignal node exp off val cond)).reply node (.ack [seq])
    else s.applySignal node seq ctx exp off q val cond
  | .chainReg target q count => s.applyChain node seq target q count
  | .chainNotify c cc =>
    (s.unblockQueue c.queue fun x => match x.block with
      | some (.remoteChain n target count) => n == node && target == c.target && chainHolds cc count
      | _ => false).reply node (.ack [seq])
  | .getResp op _ l => (s.applyData node op l).reply node (.ack [seq])
  | .shipResult op ok out results => (s.applyResult node op ok out.cause (some out) results).reply node (.ack [seq])
  | .shipWithdraw op => s.applyWithdraw node seq op
  | .ack _ | .nack .. => s

/-- Whether a message waits for every earlier one of its flow: FLAG for earlier PUTs of its thread, SHIP for earlier SHIPs
(R341, R413). The flow's numbers alone tell that none is missing. -/
def NetMsg.inOrder : NetMsg → Bool
  | .flag .. | .ship .. | .shipWithdraw _ => true
  | _ => false

/-- The received numbers folded into the lowest one not yet received; the first argument is fuel. -/
def Flow.advance (f : Flow) : Nat → Flow
  | 0 => f
  | fuel + 1 =>
    if f.got.contains f.expect then
      Flow.advance { f with expect := (f.expect + 1) % 2 ^ 32, got := f.got.filter (· != f.expect) } fuel
    else f

/-- Whether a number of a flow has been received: below the lowest one missing, modulo 2^32, or above it and noted. -/
def Flow.seen (f : Flow) (seq : Nat) : Bool :=
  f.got.contains seq || decide (2 ^ 31 ≤ (BitVec.ofNat 32 seq - BitVec.ofNat 32 f.expect).toNat)

/-- Held messages whose earlier ones have all been received, in order. -/
def State.releaseHeld (s : State) (node : Nat) : State :=
  let f := s.net.flow node
  let due := f.held.filter fun p => !f.got.contains p.1
  let s : State := { s with net := s.net.setFlow { f with held := f.held.filter fun p => f.got.contains p.1 } }
  due.foldl (fun s p => s.applyMsg node p.1 p.2) s

/-- A held message in the place of its number. -/
def insertHeld (base : Nat) (x : Nat × NetMsg) : List (Nat × NetMsg) → List (Nat × NetMsg)
  | [] => [x]
  | y :: l =>
    if (BitVec.ofNat 32 x.1 - BitVec.ofNat 32 base).toNat < (BitVec.ofNat 32 y.1 - BitVec.ofNat 32 base).toNat then x :: y :: l
    else y :: insertHeld base x l

/-- Whether a request with a message number waits at a home of this device, and whether it has been refused there. -/
def State.shipWaits (s : State) (node seq : Nat) : Option Bool :=
  let mine : ShipReq → Bool := fun r => match r.sender with
    | .remote n _ q => n == node && q == seq
    | .thread _ => false
  if s.lcs.any fun p => p.2.refused.any mine then some true
  else if s.lcs.any fun p => p.2.offers.any mine then some false
  else none

/-- A message that arrives again (R413, R415): it is answered as it was before; one that has no answer yet gets none. -/
def State.receiveAgain (s : State) (node seq : Nat) : State :=
  let f := s.net.flow node
  if f.nacked.contains seq then s.reply node (.nack seq true)
  else if f.full.contains seq then s.reply node (.nack seq false)
  else if f.held.any (·.1 == seq) then s
  else
    match s.shipWaits node seq with
    | some true => s.reply node (.nack seq false)
    | some false => s
    | none => s.reply node (.ack [seq])

/-- A message arrives (R413): a repeated one is only answered again; one that must keep its order waits for those before
it. -/
def State.receive (s : State) (node seq : Nat) (m : NetMsg) : State :=
  if s.boot.state ≠ .ready then s
  else
    let s := s.tallyIo 3 node 0x204 none
    let f := s.net.flow node
    if f.seen seq then s.receiveAgain node seq
    else
      let g := ({ f with got := f.got ++ [seq] }).advance (f.got.length + 1)
      let wait := m.inOrder && g.got.contains seq
      let g := if wait then { g with held := insertHeld g.expect (seq, m) g.held } else g
      let s : State := { s with net := s.net.setFlow g }
      (if wait then s else s.applyMsg node seq m).releaseHeld node

/-! ## The messages (R412) -/

/-- PFT_PUT. -/
def execPftPut (src : PftPeer) (seq exp off : Nat) (data : List Byte) (s : State) : Out :=
  .next (s.receive src.node seq (.put 0 exp off src.ctx src.tid data))

/-- PFT_GET_REQUEST. -/
def execPftGetRequest (src : PftPeer) (seq op exp off len : Nat) (s : State) : Out :=
  .next (s.receive src.node seq (.getReq op exp off len src.ctx src.tid))

/-- PFT_GET_RESPONSE. -/
def execPftGetResponse (node seq op off : Nat) (data : List Byte) (s : State) : Out :=
  .next (s.receive node seq (.getResp op off data))

/-- PFT_FLAG. -/
def execPftFlag (src : PftPeer) (seq exp off : Nat) (add : Bool) (val : Dword) (s : State) : Out :=
  .next (s.receive src.node seq (.flag exp off src.ctx src.tid add val))

/-- The kind of a request by its code (R172). -/
def shipKindOf (k : Nat) : ShipKind := if k = 0 then .w else if k = 1 then .c else .o

/-- PFT_SHIP_REQUEST. -/
def execPftShipRequest (src : PftPeer) (seq op exp off : Nat) (entry lock : Dword) (kind m : Nat) (task : Word)
    (args : List Word) (s : State) : Out :=
  .next (s.receive src.node seq (.ship op exp off src.ctx src.tid
    { sender := .remote src.node op seq, ctx := src.ctx, entry, lock, kind := shipKindOf kind, args := args.take 6, m := min m 4
      task, waits := src.waits }))

/-- PFT_SHIP_RESULT. -/
def execPftShipResult (node seq op : Nat) (ok : Bool) (out : SectionEnd) (results : List Word) (s : State) : Out :=
  .next (s.receive node seq (.shipResult op ok out results))

/-- PFT_SIGNAL. -/
def execPftSignal (src : PftPeer) (seq exp off queue : Nat) (val : Dword) (cond : Nat) (fire : Bool) (s : State) : Out :=
  .next (s.receive src.node seq (.signal exp off src.ctx queue val cond fire))

/-- PFT_CHAIN_REGISTER. -/
def execPftChainRegister (node seq remoteQueue queue : Nat) (count : Word) (s : State) : Out :=
  .next (s.receive node seq (.chainReg remoteQueue queue count))

/-- PFT_CHAIN_NOTIFY. -/
def execPftChainNotify (node seq : Nat) (chain : ChainRef) (count : Word) (s : State) : Out :=
  .next (s.receive node seq (.chainNotify chain count))

/-! ## Acknowledgement, refusal and retransmission (R413 to R415) -/

/-- The message of a number to a node that is not yet acknowledged. -/
def State.outMsg (s : State) (node seq : Nat) : Option OutMsg := s.net.out.find? fun o => o.node == node && o.seq == seq

/-- A message retired. -/
def State.retire (s : State) (node seq : Nat) : State :=
  { s with net := { s.net with out := s.net.out.filter fun o => !(o.node == node && o.seq == seq) } }

/-- The number of the message that carries an operation's request, while it has no answer. -/
def State.shipSeq (s : State) (node op : Nat) : Option Nat :=
  (s.net.out.find? fun o => o.node == node && (match o.msg with
    | .ship op' .. => op' == op
    | _ => false)).map (·.seq)

/-- A request has been taken back (R170): a thread that is still there sends it again when it is placed, and a section ends. -/
def State.takenBack (s : State) (node op : Nat) : State :=
  match s.net.ships.find? fun x => x.1 == op && x.2.1 == node with
  | some (_, _, r) =>
    let s := s.shipAnswered node op
    match r.sender with
    | .thread tid =>
      (match (s.thread? tid).bind fun t => t.section_.map fun x => (t, x) with
      | some (t, x) => if t.unsent then s.shipWaitEnds t x r else s
      | none =>
        (s.updThread tid fun t =>
          if t.unsent then { t with status := .parked (.refused 64), resend := some r } else t).endAdoptions)
    | .remote .. => s
  | none => s.shipAnswered node op

/-- The home of an operation on another device has accepted it, or has refused it for want of room (R170). A section never
waits for room: the home has dropped its request, and it ends. -/
def State.shipAnswer (s : State) (node op : Nat) (accepted : Bool) : State :=
  match s.net.ships.find? fun x => x.1 == op && x.2.1 == node with
  | some (_, _, { sender := .thread tid, kind, waits, .. }) =>
    if accepted then s.shipIssued tid kind
    else if !waits then s.takenBack node op
    else s.shipRefused tid 64
  | _ => s

/-- A message acknowledged: a part of a PUT is visible at the receiver; a SHIP has been accepted, or taken back. A peer that is
not reachable acknowledges nothing (R414). -/
def State.acked (s : State) (node seq : Nat) : State :=
  match if s.net.reaches node then s.outMsg node seq else none with
  | none => s
  | some o =>
    let s := s.retire node seq
    match o.msg with
    | .put op .. =>
      (match s.rmaOf node op with
      | some (r, p) => s.rmaPartDone r p
      | none =>
        match s.copyOf node op with
        | some (b, r) => s.netDone b r
        | none => s)
    | .ship op .. => s.shipAnswer node op true
    | .shipWithdraw op => if (s.shipSeq node op).isSome then s.takenBack node op else s
    | _ => s

/-- PFT_ACK. -/
def execPftAck (node : Nat) (seqs : List Nat) (s : State) : Out :=
  .next (seqs.foldl (fun s q => s.acked node q) (s.tallyIo 3 node 0x204 none))

/-- The operation of a message that was refused ends as at an unmapped page (R415). -/
def State.msgRefused (s : State) (node : Nat) (o : OutMsg) : State :=
  -- the failing access is that of the remote window: a write for PUT, a read for GET
  let part := fun (op : Nat) (acc : Acc) =>
    match s.rmaOf node op with
    | some (r, p) => s.rmaFails r { cause := 5, addr := r.remote + BitVec.ofNat 64 p.off, acc }
    | none =>
      match s.copyOf node op with
      | some (b, r) => (s.copyFails b { cause := 5, addr := BitVec.ofNat 64 r.win, acc }).endAdoptions
      | none => s
  match o.msg with
  | .put op .. => part op .write
  | .getReq op .. => part op .read
  | .flag _ _ ctx .. =>
    (match o.refusal with
    | some r => s.postRecord ctx r
    | none => s)
  | .ship op .. => s.applyResult node op false 5 none []
  | .shipWithdraw op =>
    -- the home had accepted the request
    match s.shipSeq node op with
    | some q => (s.retire node q).shipAnswer node op true
    | none => s
  | .signal exp off _ q val cond false =>
    if (s.queue q).block = some (.remoteSignal node exp off val cond) then s.rejectPacket q 4 (some (5, .read)) else s
  | _ => s

/-- A message put on the wire again, where a port is active: only then does the retransmission count. -/
def State.resend (s : State) (o : OutMsg) : State :=
  let port := s.net.portOf o.seq
  let o : OutMsg := { o with port, tries := if port.isSome then o.tries + 1 else o.tries, sent := s.elapsed }
  let out := s.net.out.map fun x => if x.node = o.node ∧ x.seq = o.seq then o else x
  ({ s with net := { s.net with out }.transmit o } : State).tallySent o.node o.seq 0x205 none

/-- The retransmissions of a message begin again: its peer has answered. -/
def State.answered (s : State) (o : OutMsg) : State :=
  { s with net := { s.net with out := s.net.out.map fun x =>
      if x.node = o.node ∧ x.seq = o.seq then { x with tries := 0, sent := s.elapsed } else x } }

/-- PFT_NACK: a refusal, or a request to send a message again; for a SHIP, the word that its home is full (DESIGN CHOICE, log
77). -/
def execPftNack (node seq : Nat) (refused : Bool) (s : State) : Out :=
  let s := s.tallyIo 3 node 0x204 none
  match if s.net.reaches node then s.outMsg node seq else none with
  | none => .next s
  | some o =>
    if refused then .next ((s.retire node seq).msgRefused node o)
    else
      match o.msg with
      | .ship op .. => .next ((s.answered o).shipAnswer node op false)
      | _ => .next (s.resend o)

/-- Whether a copy still has bytes to move through a window of a node. -/
def State.copyUses (s : State) (b : BulkCopy) (node : Nat) : Bool :=
  let away := fun (side : CopySide) (acc : Acc) (a : Nat) =>
    match s.copyEnd b side a 1 acc with
    | .ok (.remote n _ _) => n == node
    | _ => false
  b.nets.any (·.node == node) || (b.desc.pairs.filter fun p => !b.done.contains (p.2 / 256)).any fun p =>
    away b.desc.src .read p.1 || away b.desc.dst .write p.2

/-- Whether a queue is blocked on a node. -/
def Queue.waitsOn (x : Queue) (node : Nat) : Bool :=
  match x.block with
  | some (.remoteSignal n ..) => n == node
  | some (.remoteChain n _ _) => n == node
  | _ => false

/-- A peer is unreachable (R414): every RMA, bulk copy, SHIP and queue that depends on it ends or faults. -/
def State.losePeer (s : State) (node : Nat) : State :=
  let s : State := { s with net := { s.net with
    peers := s.net.peers.map fun p => if p.node = node then { p with reachable := false } else p
    out := s.net.out.filter (·.node != node) } }
  let s := (s.net.rmas.filter (·.node == node)).foldl
    (fun s r => s.rmaFails r { cause := 0x107, addr := r.remote, acc := if r.put then .write else .read }) s
  let s := ((s.copies.filter fun b => s.copyUses b node).foldl
    (fun s b => s.copyFails b { cause := 0x107, acc := .write }) s).endAdoptions
  let s := (s.net.ships.filter (·.2.1 == node)).foldl
    (fun s x =>
      let s : State := { s with net := { s.net with ships := s.net.ships.filter fun y => !(y.1 == x.1 && y.2.1 == node) } }
      match x.2.2.kind, x.2.2.sender with
      | .o, .thread tid => s.shipIssued tid .o
      | _, _ => s.shipOutcome x.2.2 false 7 none []) s
  (s.queues.filter fun p => p.2.waitsOn node).foldl (fun s p => s.faultQueue p.1 4 (some (7, .read))) s

/-- PFT_RETRANSMIT (R413, R414): the retransmit time of a message has passed; after 16 retransmissions its peer is lost. -/
def execPftRetransmit (node seq : Nat) (s : State) : Out :=
  match s.outMsg node seq with
  | none => .next s
  | some o =>
    if s.elapsed < o.sent + s.net.rtx then .next s
    else if o.tries < 16 ∧ s.net.reaches node then .next (s.resend o)
    else .next (s.losePeer node)

end Sys2Proof.Machine
end

