-- ==== Sys2Proof/Machine/Dispatch.lean ====
section
/-! DEFINITION. One arm for each instruction and event: the one direct call of its meaning. -/

namespace Sys2Proof.Machine

def exec (i : Instr) (s : State) : Host.Outcome State Fault Refusal :=
  match i with
  | .iadd h v pd d a b => Sys2Proof.Machine.execIadd h v pd d a b s
  | .isub h v pd d a b => Sys2Proof.Machine.execIsub h v pd d a b s
  | .imul h d a b => Sys2Proof.Machine.execImul h d a b s
  | .imulh h uns d a b => Sys2Proof.Machine.execImulh h uns d a b s
  | .imad h d a b c => Sys2Proof.Machine.execImad h d a b c s
  | .iadd64 h pd d a b => Sys2Proof.Machine.execIadd64 h pd d a b s
  | .isub64 h pd d a b => Sys2Proof.Machine.execIsub64 h pd d a b s
  | .imin h uns d a b => Sys2Proof.Machine.execImin h uns d a b s
  | .imax h uns d a b => Sys2Proof.Machine.execImax h uns d a b s
  | .iabs h sat d a => Sys2Proof.Machine.execIabs h sat d a s
  | .iaddImm h d a imm => Sys2Proof.Machine.execIaddImm h d a imm s
  | .andImm h d a imm => Sys2Proof.Machine.execAndImm h d a imm s
  | .orImm h d a imm => Sys2Proof.Machine.execOrImm h d a imm s
  | .xorImm h d a imm => Sys2Proof.Machine.execXorImm h d a imm s
  | .and h d a b => Sys2Proof.Machine.execAnd h d a b s
  | .or h d a b => Sys2Proof.Machine.execOr h d a b s
  | .xor h d a b => Sys2Proof.Machine.execXor h d a b s
  | .andn h d a b => Sys2Proof.Machine.execAndn h d a b s
  | .shl h d a b => Sys2Proof.Machine.execShl h d a b s
  | .shr h d a b => Sys2Proof.Machine.execShr h d a b s
  | .sar h d a b => Sys2Proof.Machine.execSar h d a b s
  | .rot h d a b => Sys2Proof.Machine.execRot h d a b s
  | .shlImm h d a n => Sys2Proof.Machine.execShlImm h d a n s
  | .shrImm h d a n => Sys2Proof.Machine.execShrImm h d a n s
  | .sarImm h d a n => Sys2Proof.Machine.execSarImm h d a n s
  | .rotImm h d a n => Sys2Proof.Machine.execRotImm h d a n s
  | .shl64 h d a b => Sys2Proof.Machine.execShl64 h d a b s
  | .shr64 h arith d a b => Sys2Proof.Machine.execShr64 h arith d a b s
  | .popc h d a => Sys2Proof.Machine.execPopc h d a s
  | .clz h d a => Sys2Proof.Machine.execClz h d a s
  | .ctz h d a => Sys2Proof.Machine.execCtz h d a s
  | .brev h d a => Sys2Proof.Machine.execBrev h d a s
  | .bfe h signed d a b => Sys2Proof.Machine.execBfe h signed d a b s
  | .bfi h d a b c => Sys2Proof.Machine.execBfi h d a b c s
  | .perm h d a b c => Sys2Proof.Machine.execPerm h d a b c s
  | .sel h neg d a b pc => Sys2Proof.Machine.execSel h neg d a b pc s
  | .mov h b64 d a => Sys2Proof.Machine.execMov h b64 d a s
  | .movi h d imm => Sys2Proof.Machine.execMovi h d imm s
  | .movhi h d imm => Sys2Proof.Machine.execMovhi h d imm s
  | .lea h sx sh d a b => Sys2Proof.Machine.execLea h sx sh d a b s
  | .naddr h leaf d a b c => Sys2Proof.Machine.execNaddr h leaf d a b c s
  | .icmp h cc pd a b => Sys2Proof.Machine.execIcmp h cc pd a b s
  | .icmp64 h cc pd a b => Sys2Proof.Machine.execIcmp64 h cc pd a b s
  | .pset h op na nb pd pa pb => Sys2Proof.Machine.execPset h op na nb pd pa pb s
  | .pmovGet h d => Sys2Proof.Machine.execPmovGet h d s
  | .pmovPut h a b => Sys2Proof.Machine.execPmovPut h a b s
  | .cvt h tgt src rnd sat d a c => Sys2Proof.Machine.execCvt h tgt src rnd sat d a c s
  | .pack h tgt rnd sat sc h1 d a c => Sys2Proof.Machine.execPack h tgt rnd sat sc h1 d a c s
  | .unpack h src rnd sat sc h1 d a c => Sys2Proof.Machine.execUnpack h src rnd sat sc h1 d a c s
  | .qscale h tgt d a => Sys2Proof.Machine.execQscale h tgt d a s
  | .fmtset h tag d a => Sys2Proof.Machine.execFmtset h tag d a s
  | .fmtget h d a => Sys2Proof.Machine.execFmtget h d a s
  | .nop h => Sys2Proof.Machine.execNop h s
  | .bra h imm => Sys2Proof.Machine.execBra h imm s
  | .brx h a => Sys2Proof.Machine.execBrx h a s
  | .call h imm => Sys2Proof.Machine.execCall h imm s
  | .callx h a => Sys2Proof.Machine.execCallx h a s
  | .ret h => Sys2Proof.Machine.execRet h s
  | .exit h => Sys2Proof.Machine.execExit h s
  | .mset h imm => Sys2Proof.Machine.execMset h imm s
  | .meet h => Sys2Proof.Machine.execMeet h s
  | .yield h => Sys2Proof.Machine.execYield h s
  | .fadd h pr rnd d a b => Sys2Proof.Machine.execFadd h pr rnd d a b s
  | .fmul h pr rnd d a b => Sys2Proof.Machine.execFmul h pr rnd d a b s
  | .ffma h pr rnd d a b c => Sys2Proof.Machine.execFfma h pr rnd d a b c s
  | .fmin h pr d a b => Sys2Proof.Machine.execFmin h pr d a b s
  | .fmax h pr d a b => Sys2Proof.Machine.execFmax h pr d a b s
  | .fcmp h cc pd a b => Sys2Proof.Machine.execFcmp h cc pd a b s
  | .fadd64 h rnd d a b => Sys2Proof.Machine.execFadd64 h rnd d a b s
  | .fmul64 h rnd d a b => Sys2Proof.Machine.execFmul64 h rnd d a b s
  | .ffma64 h rnd d a b c => Sys2Proof.Machine.execFfma64 h rnd d a b c s
  | .fmin64 h d a b => Sys2Proof.Machine.execFmin64 h d a b s
  | .fmax64 h d a b => Sys2Proof.Machine.execFmax64 h d a b s
  | .fcmp64 h cc pd a b => Sys2Proof.Machine.execFcmp64 h cc pd a b s
  | .hadd2 h fmt rnd d a b => Sys2Proof.Machine.execHadd2 h fmt rnd d a b s
  | .hmul2 h fmt rnd d a b => Sys2Proof.Machine.execHmul2 h fmt rnd d a b s
  | .hfma2 h fmt rnd d a b c => Sys2Proof.Machine.execHfma2 h fmt rnd d a b c s
  | .dot4 h fmt rnd d a b c => Sys2Proof.Machine.execDot4 h fmt rnd d a b c s
  | .dot8 h fmt rnd d a b c => Sys2Proof.Machine.execDot8 h fmt rnd d a b c s
  | .frcp h d a => Sys2Proof.Machine.execFrcp h d a s
  | .frsq h d a => Sys2Proof.Machine.execFrsq h d a s
  | .fsqrt h rnd d a => Sys2Proof.Machine.execFsqrt h rnd d a s
  | .fexp2 h d a => Sys2Proof.Machine.execFexp2 h d a s
  | .flog2 h d a => Sys2Proof.Machine.execFlog2 h d a s
  | .fsin h d a => Sys2Proof.Machine.execFsin h d a s
  | .fcos h d a => Sys2Proof.Machine.execFcos h d a s
  | .ftanh h d a => Sys2Proof.Machine.execFtanh h d a s
  | .longLatencyResult tid reg => Sys2Proof.Machine.execLongLatencyResult tid reg s
  | .bind h n1 a => Sys2Proof.Machine.execBind h n1 a s
  | .unbind h => Sys2Proof.Machine.execUnbind h s
  | .part h code => Sys2Proof.Machine.execPart h code s
  | .vote h op neg pd d q => Sys2Proof.Machine.execVote h op neg pd d q s
  | .shfl h mode pd d a b => Sys2Proof.Machine.execShfl h mode pd d a b s
  | .gshfl h d a b => Sys2Proof.Machine.execGshfl h d a b s
  | .sbcast h b64 d a n => Sys2Proof.Machine.execSbcast h b64 d a n s
  | .smovRead h d sr => Sys2Proof.Machine.execSmovRead h d sr s
  | .smovWrite h sr a n => Sys2Proof.Machine.execSmovWrite h sr a n s
  | .reduce h op d a => Sys2Proof.Machine.execReduce h op d a s
  | .scan h op excl d a => Sys2Proof.Machine.execScan h op excl d a s
  | .gbar h => Sys2Proof.Machine.execGbar h s
  | .gfence h scope => Sys2Proof.Machine.execGfence h scope s
  | .ld h sz ord scope d a off => Sys2Proof.Machine.execLd h sz ord scope d a off s
  | .st h sz ord scope a b off => Sys2Proof.Machine.execSt h sz ord scope a b off s
  | .lds h sz ord scope d a off => Sys2Proof.Machine.execLds h sz ord scope d a off s
  | .sts h sz ord scope a b off => Sys2Proof.Machine.execSts h sz ord scope a b off s
  | .ldl h sz ord scope d a off => Sys2Proof.Machine.execLdl h sz ord scope d a off s
  | .stl h sz ord scope a b off => Sys2Proof.Machine.execStl h sz ord scope a b off s
  | .lda h sz tag d a b => Sys2Proof.Machine.execLda h sz tag d a b s
  | .ldaLand id => Sys2Proof.Machine.execLdaLand id s
  | .wtag h t m => Sys2Proof.Machine.execWtag h t m s
  | .atom h op sz ord scope d a b => Sys2Proof.Machine.execAtom h op sz ord scope d a b s
  | .red h op sz ord scope a b => Sys2Proof.Machine.execRed h op sz ord scope a b s
  | .atomScratchpad h op sz ord scope d a b => Sys2Proof.Machine.execAtomScratchpad h op sz ord scope d a b s
  | .redScratchpad h op sz ord scope a b => Sys2Proof.Machine.execRedScratchpad h op sz ord scope a b s
  | .fence h ord scope => Sys2Proof.Machine.execFence h ord scope s
  | .pref h line a off => Sys2Proof.Machine.execPref h line a off s
  | .cwb h line a off => Sys2Proof.Machine.execCwb h line a off s
  | .cinv h line a off => Sys2Proof.Machine.execCinv h line a off s
  | .spawn h nf pd a b c => Sys2Proof.Machine.execSpawn h nf pd a b c s
  | .wait h scope d a b off => Sys2Proof.Machine.execWait h scope d a b off s
  | .fset h scope pd a b off => Sys2Proof.Machine.execFset h scope pd a b off s
  | .fsetFault h scope pd a b off => Sys2Proof.Machine.execFsetFault h scope pd a b off s
  | .fsetCancel h scope pd a b off => Sys2Proof.Machine.execFsetCancel h scope pd a b off s
  | .fnew h noOwner a => Sys2Proof.Machine.execFnew h noOwner a s
  | .join h a => Sys2Proof.Machine.execJoin h a s
  | .leave h a => Sys2Proof.Machine.execLeave h a s
  | .bar h a => Sys2Proof.Machine.execBar h a s
  | .fsetBit h a b => Sys2Proof.Machine.execFsetBit h a b s
  | .waitBit h a b => Sys2Proof.Machine.execWaitBit h a b s
  | .shipW h pd m n a b c => Sys2Proof.Machine.execShipW h pd m n a b c s
  | .shipC h m n d a b c => Sys2Proof.Machine.execShipC h m n d a b c s
  | .shipO h n a b c => Sys2Proof.Machine.execShipO h n a b c s
  | .sret h => Sys2Proof.Machine.execSret h s
  | .qpush h pd a b c => Sys2Proof.Machine.execQpush h pd a b c s
  | .qpushRsv h pd d a b => Sys2Proof.Machine.execQpushRsv h pd d a b s
  | .qpop h pd d a b => Sys2Proof.Machine.execQpop h pd d a b s
  | .qpopMin h pd d a => Sys2Proof.Machine.execQpopMin h pd d a s
  | .accAlloc h pd eng mask => Sys2Proof.Machine.execAccAlloc h pd eng mask s
  | .accFree h eng mask => Sys2Proof.Machine.execAccFree h eng mask s
  | .accLend h eng mask sa => Sys2Proof.Machine.execAccLend h eng mask sa s
  | .accZero h eng mask => Sys2Proof.Machine.execAccZero h eng mask s
  | .accLd h eng a b c => Sys2Proof.Machine.execAccLd h eng a b c s
  | .accRd h eng f32 i96 d b c => Sys2Proof.Machine.execAccRd h eng f32 i96 d b c s
  | .mma h fmt eng bank sa sb sc => Sys2Proof.Machine.execMma h fmt eng bank sa sb sc s
  | .mmas h fmt eng bank sa sb sc => Sys2Proof.Machine.execMmas h fmt eng bank sa sb sc s
  | .accDrain h eng bank sa sc => Sys2Proof.Machine.execAccDrain h eng bank sa sc s
  | .matrixCommandRun die core eng => Sys2Proof.Machine.execMatrixCommandRun die core eng s
  | .drainRun die core eng => Sys2Proof.Machine.execDrainRun die core eng s
  | .bcpy h nf a c => Sys2Proof.Machine.execBcpy h nf a c s
  | .bulkCopySector id sector => Sys2Proof.Machine.execBulkCopySector id sector s
  | .ringEntryTake id => Sys2Proof.Machine.execRingEntryTake id s
  | .rcfg h n a => Sys2Proof.Machine.execRcfg h n a s
  | .rcfgGet h n d => Sys2Proof.Machine.execRcfgGet h n d s
  | .rpush h n => Sys2Proof.Machine.execRpush h n s
  | .rpop h n d => Sys2Proof.Machine.execRpop h n d s
  | .dscCfg h a => Sys2Proof.Machine.execDscCfg h a s
  | .dscRun h sa sc => Sys2Proof.Machine.execDscRun h sa sc s
  | .dscLevel die core => Sys2Proof.Machine.execDscLevel die core s
  | .dscPath h d b => Sys2Proof.Machine.execDscPath h d b s
  | .dscGrad h sa sb sc => Sys2Proof.Machine.execDscGrad h sa sb sc s
  | .dscGradRun die core => Sys2Proof.Machine.execDscGradRun die core s
  | .rfbStart h a c => Sys2Proof.Machine.execRfbStart h a c s
  | .rfbBlockStart die => Sys2Proof.Machine.execRfbBlockStart die s
  | .rfbStepDone die id => Sys2Proof.Machine.execRfbStepDone die id s
  | .rfbStat h d a => Sys2Proof.Machine.execRfbStat h d a s
  | .rfbAbort h pd a => Sys2Proof.Machine.execRfbAbort h pd a s
  | .rmaPut h nf a c => Sys2Proof.Machine.execRmaPut h nf a c s
  | .rmaGet h nf a c => Sys2Proof.Machine.execRmaGet h nf a c s
  | .rmaFlag h add a b => Sys2Proof.Machine.execRmaFlag h add a b s
  | .srd h d reg => Sys2Proof.Machine.execSrd h d reg s
  | .swr h reg a => Sys2Proof.Machine.execSwr h reg a s
  | .trap h imm => Sys2Proof.Machine.execTrap h imm s
  | .tret h next => Sys2Proof.Machine.execTret h next s
  | .bpt h imm => Sys2Proof.Machine.execBpt h imm s
  | .icinv h a b => Sys2Proof.Machine.execIcinv h a b s
  | .ifence h => Sys2Proof.Machine.execIfence h s
  | .clk h cyc d => Sys2Proof.Machine.execClk h cyc d s
  | .perfRd h d n => Sys2Proof.Machine.execPerfRd h d n s
  | .perfCfg h n a => Sys2Proof.Machine.execPerfCfg h n a s
  | .unassignedOpcode w => Sys2Proof.Machine.execUnassignedOpcode w s
  | .qpPkt idx a => Sys2Proof.Machine.execQpPkt idx a s
  | .qpMovi imm a => Sys2Proof.Machine.execQpMovi imm a s
  | .qpShli n b a => Sys2Proof.Machine.execQpShli n b a s
  | .qpShri n b a => Sys2Proof.Machine.execQpShri n b a s
  | .qpAdd b a => Sys2Proof.Machine.execQpAdd b a s
  | .qpAnd b a => Sys2Proof.Machine.execQpAnd b a s
  | .qpOr b a => Sys2Proof.Machine.execQpOr b a s
  | .qpLdw w b a => Sys2Proof.Machine.execQpLdw w b a s
  | .qpStw w b a => Sys2Proof.Machine.execQpStw w b a s
  | .qpBeq k b a => Sys2Proof.Machine.execQpBeq k b a s
  | .qpBne k b a => Sys2Proof.Machine.execQpBne k b a s
  | .qpBltu k b a => Sys2Proof.Machine.execQpBltu k b a s
  | .qpLoop n => Sys2Proof.Machine.execQpLoop n s
  | .qpEndl => Sys2Proof.Machine.execQpEndl s
  | .qpStg idx a => Sys2Proof.Machine.execQpStg idx a s
  | .qpEnd => Sys2Proof.Machine.execQpEnd s
  | .actNop => Sys2Proof.Machine.execActNop s
  | .actLaunch => Sys2Proof.Machine.execActLaunch s
  | .actSignal => Sys2Proof.Machine.execActSignal s
  | .actWaitsig => Sys2Proof.Machine.execActWaitsig s
  | .actCopy => Sys2Proof.Machine.execActCopy s
  | .actRfb => Sys2Proof.Machine.execActRfb s
  | .actChain => Sys2Proof.Machine.execActChain s
  | .threadWake a => Sys2Proof.Machine.execThreadWake a s
  | .waitTimeout a => Sys2Proof.Machine.execWaitTimeout a s
  | .taskAdmit die core => Sys2Proof.Machine.execTaskAdmit die core s
  | .heldAdmission die core => Sys2Proof.Machine.execHeldAdmission die core s
  | .gangBoundExpiry die core => Sys2Proof.Machine.execGangBoundExpiry die core s
  | .taskSteal die core victim => Sys2Proof.Machine.execTaskSteal die core victim s
  | .spillRefill die core => Sys2Proof.Machine.execSpillRefill die core s
  | .taskPlace die core => Sys2Proof.Machine.execTaskPlace die core s
  | .shipArrival lc => Sys2Proof.Machine.execShipArrival lc s
  | .shipGrant lc => Sys2Proof.Machine.execShipGrant lc s
  | .sectionStart lc => Sys2Proof.Machine.execSectionStart lc s
  | .sectionTimeLimit lc => Sys2Proof.Machine.execSectionTimeLimit lc s
  | .preemptSave die core => Sys2Proof.Machine.execPreemptSave die core s
  | .faultRecordWrite ctx => Sys2Proof.Machine.execFaultRecordWrite ctx s
  | .routingTimeout ctx seq => Sys2Proof.Machine.execRoutingTimeout ctx seq s
  | .scrubUncorrectable hbm owner => Sys2Proof.Machine.execScrubUncorrectable hbm owner s
  | .load func prog ctx va => Sys2Proof.Machine.execLoad func prog ctx va s
  | .free func prog ctx => Sys2Proof.Machine.execFree func prog ctx s
  | .create func ctx pa => Sys2Proof.Machine.execCreate func ctx pa s
  | .destroy func ctx => Sys2Proof.Machine.execDestroy func ctx s
  | .setcores func ctx pa => Sys2Proof.Machine.execSetcores func ctx pa s
  | .preempt func ctx pa => Sys2Proof.Machine.execPreempt func ctx pa s
  | .tlbinv func va ctx len => Sys2Proof.Machine.execTlbinv func va ctx len s
  | .resolve func fid ctx fail => Sys2Proof.Machine.execResolve func fid ctx fail s
  | .fwwrite func addr len => Sys2Proof.Machine.execFwwrite func addr len s
  | .fwactivate func => Sys2Proof.Machine.execFwactivate func s
  | .exportCtx func ctx pa => Sys2Proof.Machine.execExportCtx func ctx pa s
  | .unexportCtx func num ctx => Sys2Proof.Machine.execUnexportCtx func num ctx s
  | .attach func ctx on => Sys2Proof.Machine.execAttach func ctx on s
  | .stopctx func ctx on => Sys2Proof.Machine.execStopctx func ctx on s
  | .debugResume func ctx pl next => Sys2Proof.Machine.execDebugResume func ctx pl next s
  | .wrbp func ctx idx val => Sys2Proof.Machine.execWrbp func ctx idx val s
  | .rdframe func ctx pl pa => Sys2Proof.Machine.execRdframe func ctx pl pa s
  | .rdstate func ctx pl pa => Sys2Proof.Machine.execRdstate func ctx pl pa s
  | .wrstate func ctx pl pa => Sys2Proof.Machine.execWrstate func ctx pl pa s
  | .semtas port => Sys2Proof.Machine.execSemtas port s
  | .semrel port val => Sys2Proof.Machine.execSemrel port val s
  | .semaphoreLeaseExpiry => Sys2Proof.Machine.execSemaphoreLeaseExpiry s
  | .reset port val => Sys2Proof.Machine.execReset port val s
  | .coldReset => Sys2Proof.Machine.execColdReset s
  | .functionLevelReset func => Sys2Proof.Machine.execFunctionLevelReset func s
  | .powerlim port val => Sys2Proof.Machine.execPowerlim port val s
  | .throttleLevel level => Sys2Proof.Machine.execThrottleLevel level s
  | .thermalTrip => Sys2Proof.Machine.execThermalTrip s
  | .eventCounterControl port off val => Sys2Proof.Machine.execEventCounterControl port off val s
  | .registerWrite func bar off val => Sys2Proof.Machine.execRegisterWrite func bar off val s
  | .queueEnable func q => Sys2Proof.Machine.execQueueEnable func q s
  | .queueDisable func q => Sys2Proof.Machine.execQueueDisable func q s
  | .queueResume func q => Sys2Proof.Machine.execQueueResume func q s
  | .kick func q val => Sys2Proof.Machine.execKick func q val s
  | .packetRead q => Sys2Proof.Machine.execPacketRead q s
  | .waitsigSatisfied q => Sys2Proof.Machine.execWaitsigSatisfied q s
  | .chainSatisfied q => Sys2Proof.Machine.execChainSatisfied q s
  | .sigwaitArm func idx => Sys2Proof.Machine.execSigwaitArm func idx s
  | .hostCoherentAccess acc => Sys2Proof.Machine.execHostCoherentAccess acc s
  | .hostDirectAccess acc => Sys2Proof.Machine.execHostDirectAccess acc s
  | .cxlMemAccess acc => Sys2Proof.Machine.execCxlMemAccess acc s
  | .pftPut src seq exp off data => Sys2Proof.Machine.execPftPut src seq exp off data s
  | .pftGetRequest src seq op exp off len => Sys2Proof.Machine.execPftGetRequest src seq op exp off len s
  | .pftGetResponse node seq op off data => Sys2Proof.Machine.execPftGetResponse node seq op off data s
  | .pftFlag src seq exp off add val => Sys2Proof.Machine.execPftFlag src seq exp off add val s
  | .pftShipRequest src seq op exp off entry lock kind m task args => Sys2Proof.Machine.execPftShipRequest src seq op exp off entry lock kind m task args s
  | .pftShipResult node seq op ok out results => Sys2Proof.Machine.execPftShipResult node seq op ok out results s
  | .pftSignal src seq exp off queue val cond fire => Sys2Proof.Machine.execPftSignal src seq exp off queue val cond fire s
  | .pftChainRegister node seq remoteQueue queue count => Sys2Proof.Machine.execPftChainRegister node seq remoteQueue queue count s
  | .pftChainNotify node seq queue count => Sys2Proof.Machine.execPftChainNotify node seq queue count s
  | .pftAck node seqs => Sys2Proof.Machine.execPftAck node seqs s
  | .pftNack node seq refused => Sys2Proof.Machine.execPftNack node seq refused s
  | .pftRetransmit node seq => Sys2Proof.Machine.execPftRetransmit node seq s
  | .reconciliationWindow r => Sys2Proof.Machine.execReconciliationWindow r s
  | .getUsageHeader => Sys2Proof.Machine.execGetUsageHeader s
  | .getUsage first count => Sys2Proof.Machine.execGetUsage first count s
  | .getHealth => Sys2Proof.Machine.execGetHealth s
  | .getVersion => Sys2Proof.Machine.execGetVersion s
  | .getCapabilities => Sys2Proof.Machine.execGetCapabilities s
  | .negotiateAlgorithms => Sys2Proof.Machine.execNegotiateAlgorithms s
  | .getDigests => Sys2Proof.Machine.execGetDigests s
  | .getCertificate slot off len => Sys2Proof.Machine.execGetCertificate slot off len s
  | .challenge nonce => Sys2Proof.Machine.execChallenge nonce s
  | .getMeasurements index nonce => Sys2Proof.Machine.execGetMeasurements index nonce s
  | .ptpEnable time => Sys2Proof.Machine.execPtpEnable time s
  | .hostSnoop line inv => Sys2Proof.Machine.execHostSnoop line inv s
  | .ptpMessage port offset best => Sys2Proof.Machine.execPtpMessage port offset best s
  | .activePortChange port up => Sys2Proof.Machine.execActivePortChange port up s
  | .configurationRequest port => Sys2Proof.Machine.execConfigurationRequest port s
  | .serviceFirmwareDecline ctx seq => Sys2Proof.Machine.execServiceFirmwareDecline ctx seq s
  | .powerGoodLoss => Sys2Proof.Machine.execPowerGoodLoss s

end Sys2Proof.Machine
end

