-- ==== Sys2Proof/Machine/Turns.lean ====
section
/-! DEFINITION. What moves next: an agent's instruction, the beams of a core, the turns of the agenda, and how an instruction is
placed to be fetched. -/

namespace Sys2Proof.Machine

/-! ## An agent moves -/

/-- What a step does: it runs an instruction, or its own effect is the whole of it. -/
inductive Move where
  | run (i : Instr) (s : State)
  | settle (s : State)
  deriving DecidableEq, Repr

/-- Step 3 of R235 for a word that no instruction encodes: step 2 is tested first. -/
def undecodedStop (t : Thread) (w : Dword) : Stop :=
  match wordStop w t.section_.isSome with
  | some c => trapOf c
  | none => trapOf cIllegalField

/-- A queue processor's next word (R405, R406). Program 0 performs the action of its packet's TYPE, and ends (R408). -/
def State.queueMove (s : State) (q : Nat) : Move :=
  let x := s.queue q
  match x.image with
  | none =>
    (match packetType ((x.packet.headD 0).toNat % 256) with
    | some (i, _) => .run (if x.pc = 0 then i else .qpEnd) s
    | none => .settle s)
  | some p =>
    match (p.words[x.pc]?).map decodeQp with
    | some (.ok i) => .run i s
    | _ => .settle s

/-- An agent fetches and runs its next instruction. -/
def State.agentMove (s : State) (a : Actor) : Move :=
  let s := { s with cur := a }
  if !s.mayIssue a then .settle s
  else
    match a with
    | .queue q => s.queueMove q
    | _ =>
      match s.actorTids a with
      | [] => .settle s
      | i :: _ =>
        match s.thread? i with
        | none => .settle s
        | some t =>
          match s.fetch t with
          | .error e => .settle (s.stop a i 0 e)
          | .ok w =>
            let s := (s.fetchFill t).updThreads (s.actorTids a) fun t =>
              { t with prefetch := t.prefetch.filter (·.1 != t.pc), trapWait := false }
            match decode w with
            | .ok i => .run i s
            | .error _ => .settle (s.stop a i w (undecodedStop t w))

/-! ## Beams (R17, R33) -/

/-- Whether `a` goes before `b`: the higher level, the earlier age, the lower lane, the lower slot (R33). -/
def Ready.before (a b : Ready) : Bool :=
  if a.prio ≠ b.prio then decide (a.prio < b.prio)
  else if a.age ≠ b.age then decide (a.age < b.age)
  else if a.lane ≠ b.lane then decide (a.lane < b.lane) else decide (a.slot < b.slot)

/-- The first of a list in an order. -/
def firstBy {α : Type} (lt : α → α → Bool) : List α → Option α
  | [] => none
  | x :: l =>
    match firstBy lt l with
    | none => some x
    | some y => if lt y x then some y else some x

/-- The beam that a port forms (R33), in ascending lane order (R57, R169). -/
def State.beam (s : State) (d c : Nat) (mem : Bool) : List Actor :=
  let l := s.readyOn d c mem
  match firstBy Ready.before l with
  | none => []
  | some x =>
    if !x.free then [x.actor]
    else
      let old := fun (a b : Ready) => { a with prio := 0 }.before { b with prio := 0 }
      (List.range 32).filterMap fun lane =>
        if lane = x.lane then some x.actor
        else (firstBy old (l.filter fun y => y.free && y.lane == lane && y.pc == x.pc)).map (·.actor)

/-! ## Turns -/

/-- Whether an instruction is an event and no word of a program. -/
def isEvent (i : Instr) : Bool := (encode i).isNone && (encodeQp i).isNone

/-- The contexts that hold a thread on a core, once for each core: those whose occupancy cycles count (R443). -/
def State.occupying (s : State) : List (Nat × Nat) :=
  s.threads.foldl (fun (l : List (Nat × Nat)) t =>
    match t.place with
    | .core d c _ _ => if l.contains (coreIdx d c, t.ctx) then l else l ++ [(coreIdx d c, t.ctx)]
    | _ => l) []

/-- The contexts of the sections that run. -/
def State.sectionCtxs (s : State) : List Nat := s.threads.filterMap fun t => if t.section_.isSome then some t.ctx else none

/-- Cycles of the arithmetic clock, 1.05 GHz, in a number of nanoseconds (R27). -/
def arithCycles (ns : Nat) : Nat := 21 * ns / 20

/-- Cycles of the clock of the latency cores, 2.8 GHz, in a number of nanoseconds (R27). -/
def latencyCycles (ns : Nat) : Nat := 14 * ns / 5

/-- What steering makes up of the difference from PTP time in a number of nanoseconds: at most 0.0005 of them (R457). -/
def Ptp.steer (p : Ptp) (elapsed ns : Nat) : Int :=
  let most : Int := ((elapsed + ns) / 2000 - elapsed / 2000 : Nat)
  if p.enabled then max (-most) (min most p.offset) else 0

/-- Time passes (R457) with the clocks of the cores (R27), and occupancy and latency-core cycles count (R443). Device time is
steered towards PTP time, and elapsed time is not. -/
def State.elapse (s : State) (ns : Nat) : State :=
  let cyc := arithCycles (s.elapsed + ns) - arithCycles s.elapsed
  let lc := latencyCycles (s.elapsed + ns) - latencyCycles s.elapsed
  let s := s.occupying.foldl (fun s p => s.count p.2 fun u => { u with corecyc := u.corecyc + cyc }) s
  let s := s.sectionCtxs.foldl (fun s c => s.count c fun u => { u with lcbusy := u.lcbusy + lc }) s
  let made := s.ptp.steer s.elapsed ns
  let s := s.passCounters (arithCycles s.elapsed) (arithCycles (s.elapsed + ns))
  { s with
    time := s.time + BitVec.ofNat 64 ((ns : Int) + made).toNat
    ptp := { s.ptp with offset := s.ptp.offset - made }
    elapsed := s.elapsed + ns
    cycles := s.cycles + BitVec.ofNat 64 cyc
    lcCycles := s.lcCycles + BitVec.ofNat 64 lc }

/-- The entries that a TLB has room for (R422). -/
def tlbEntries (unit : Nat) : Nat := if unit < 512 then 128 else if unit < 520 then 16384 else 0

/-- A TLB that misses, and has room, takes up the translation of its die's TLB, or the one that a walk finds: never one with
V = 0 (R422). The miss and the reads of its walk are counted (R443, R452). -/
def State.tlbFill (s : State) (unit c : Nat) (va : Dword) : State :=
  if (s.tlbFind [unit] c va).isSome ∨ tlbEntries unit ≤ (s.tlb.filter (·.unit == unit)).length then s
  else
    let die := dieTlb (unit / 64)
    let s := s.tlbMiss c unit
    match if unit < 512 then s.tlbFind [die] c va else none with
    | some t => { s with tlb := { t with unit } :: s.tlb }
    | none =>
      let s := (if unit < 512 then s.tlbMiss c die else s).walkFill (some ((if unit < 512 then die else unit) - 512)) c va
      match s.walkNow c va with
      | .leaf e size => { s with tlb := { unit, ctx := c, va := va.toNat / size * size, size, leaf := BitVec.ofNat 64 e } :: s.tlb }
      | _ => s

/-- A TLB drops its translation of an address. -/
def State.tlbDrop (s : State) (unit c : Nat) (va : Dword) : State :=
  { s with tlb := s.tlb.filter fun t => !(t.unit == unit && t.covers c va) }

/-- The words for which an instruction cache has room: 64 KiB (R14, R23). -/
def icWords : Nat := 8192

/-- The context for which a core, or latency core n under 1,024 + n, fetches. -/
def State.cacheCtx (s : State) (core : Nat) : Option Nat :=
  if core < 1024 then (s.core core).lastCtx
  else ((s.lc (core - 1024)).running.bind s.thread?).map (·.ctx)

/-- An instruction cache takes up a word: a full one drops the word that it has held longest (DESIGN CHOICE, log 91). -/
def State.icFill (s : State) (core key : Nat) : State :=
  if key % 8 = 0 ∧ !s.poisoned key 8 then
    let s := (s.icMiss core).l2Read (s.cacheCtx core) key 8 1
    let others := s.icache.filter fun e => !(e.1 == core && e.2.1 == key)
    let mine := others.filter (·.1 == core)
    let kept := if mine.length < icWords then others else
      others.filter fun e => some (e.1, e.2.1) != mine.getLast?.map fun m => (m.1, m.2.1)
    { s with icache := (core, key, BitVec.ofNat 64 (leNat (s.bytes key 8))) :: kept }
  else s

/-- An instruction cache drops a word. -/
def State.icDrop (s : State) (core key : Nat) : State :=
  { s with icache := s.icache.filter fun e => !(e.1 == core && e.2.1 == key) }

/-- Whether a cache may drop a sector: none while it holds one of a lower retention (R87). -/
def mayEvict (l : List L1Sector) (core sector : Nat) : Bool :=
  let mine := l.filter (·.core == core)
  mine.any fun x => x.sector == sector && mine.all fun y => decide (x.keep ≤ y.keep)

/-- Bytes that no cache of a core holds any longer: neither its L1 nor a latency core's private L2. -/
def State.pruneOld (s : State) (core : Nat) : State :=
  { s with l1Old := s.l1Old.filter fun x => x.1 != core || s.l1Holds core (x.2.1 / 256)
      || s.lcL2.any fun y => 1024 + y.core == core && y.sector == x.2.1 / 256 }

/-- The L1 of a core, or of a latency core, drops a sector (R23, R84, R87). -/
def State.l1Evict (s : State) (core sector : Nat) : State :=
  if mayEvict s.l1 core sector then
    ({ s with l1 := s.l1.filter fun x => !(x.core == core && x.sector == sector) } : State).pruneOld core
  else s

/-- The private L2 of a latency core drops a sector (R23, R87). -/
def State.lcL2Evict (s : State) (lc sector : Nat) : State :=
  if mayEvict s.lcL2 lc sector then
    ({ s with lcL2 := s.lcL2.filter fun x => !(x.core == lc && x.sector == sector) } : State).pruneOld (1024 + lc)
  else s

/-- A slice that is not the home drops its clean copy of a sector: none while its die holds one of a lower retention (R85,
R87). -/
def State.copyEvict (s : State) (die sector : Nat) : State :=
  let mine := s.l2.filter (·.die == die)
  if mine.any fun x => x.sector == sector && mine.all fun y => decide (x.keep ≤ y.keep) then
    { s with l2 := s.l2.filter fun x => !(x.die == die && x.sector == sector) }
  else s

/-- A thread prefetches the word after those it holds, up to eight (R139). -/
def State.prefetchNext (s : State) (tid : Nat) : State :=
  let s := { s with cur := .thread tid }
  match s.thread? tid with
  | none => s
  | some t =>
    let pc := match t.prefetch.getLast? with
      | some p => p.1 + 8
      | none => t.pc
    if 8 ≤ t.prefetch.length then s
    else
      let e := s.fetchFill { t with pc, prefetch := [] }
      match s.fetch { t with pc, prefetch := [] } with
      | .ok w => e.updThread tid fun t => { t with prefetch := t.prefetch ++ [(pc, w)] }
      | .error _ => s

/-- Sectors of a slice, with their retention. -/
def State.sliceSectors (s : State) (slice : Nat) : List (Nat × Nat) :=
  (s.home.filter fun x => (Config.homeSlice (x.sector / 4)).val == slice).map fun x => (x.sector, x.keep)

/-- Whether the home slice of a sector may drop it: none while the slice holds one of a lower retention (R87). -/
def State.homeMayEvict (s : State) (sector : Nat) : Bool :=
  (s.home.filter (·.sector == sector)).all fun x =>
    s.home.all fun y => decide (x.keep ≤ y.keep) || Config.homeSlice (y.sector / 4) != Config.homeSlice (sector / 4)

/-- A home slice writes a sector back and drops it: bytes written past the L2 reach every agent (R85, R396). -/
def State.homeDrop (s : State) (sector : Nat) : State := (s.writeBack [sector]).dropSectors [sector]

/-- A home slice drops a sector of its own accord (R85, R87). -/
def State.l2Evict (s : State) (sector : Nat) : State := if s.homeMayEvict sector then s.homeDrop sector else s

/-- The sectors for which an L2 slice has room, 1 MiB, and the slices of a die (R10, R13). -/
def sliceRoom : Nat := 4096

/-- Slices of a die (R13). -/
def dieSlices : Nat := 32

/-- A slice that holds more than it has room for drops the sector that it has held longest among those of the lowest
retention (R13, R87; DESIGN CHOICE, log 91). -/
def State.trimSlice (s : State) (slice : Nat) : State :=
  let l := s.sliceSectors slice
  if l.length ≤ sliceRoom then s
  else
    match leastKept l with
    | some x => s.homeDrop x
    | none => s

/-- A die whose slices hold more clean copies than its own home sectors leave room for drops copies likewise. -/
def State.trimDie (s : State) (die : Nat) : State :=
  let mine := s.l2.filter (·.die == die)
  let own := s.home.filter fun x => (Config.homeSlice (x.sector / 4)).val / dieSlices == die
  if mine.length + own.length ≤ dieSlices * sliceRoom then s
  else
    match leastKept (mine.map fun x => (x.sector, x.keep)) with
    | some y => { s with l2 := s.l2.filter fun x => !(x.die == die && x.sector == y) }
    | none => s

/-- The slices make room for what the last step has taken up (R10, R13). -/
def State.trim (s : State) : State :=
  if s.home.length + s.l2.length ≤ sliceRoom then s
  else
    let s := s.home.foldl (fun s x => s.trimSlice (Config.homeSlice (x.sector / 4)).val) s
    s.l2.foldl (fun s x => s.trimDie x.die) s

/-- Whether an agent that skids can stop: it has not been trapped meanwhile, and no SHIP of it waits for its home's answer. -/
def State.mayStop (s : State) (a : Actor) : Bool :=
  (s.actorTids a).all fun i => (s.thread? i).all fun t => match t.status with
    | .trapped _ | .offered _ => false
    | _ => true

/-- The next stage of boot, while the device boots and has power (R435). -/
def State.bootTurn (s : State) : State := if s.boot.power ∧ s.boot.state = .booting then s.bootStage else s

/-- The outcome of an effect that is no instruction of the table. -/
def Move.ofOut (s : State) : Out → Move
  | .next s' => .settle s'
  | _ => .settle s

/-- A port of a core forms and issues a beam (R33, R452). -/
def State.beamMove (s : State) (d c : Nat) (mem : Bool) : Move :=
  let s := s.noteStalls d c
  match s.beam d c mem with
  | [] => .settle s
  | a :: rest => ({ s with beamRest := rest }.tallyCore (coreIdx d c) (if mem then 3 else 2) 1).agentMove a

/-- The unit of a compute die that makes an event's accesses (R25): those of the I/O dies have none. -/
def State.eventSite (s : State) : Instr → Actor
  | .threadWake a | .waitTimeout a =>
    (((s.actorTids a).head?.bind s.thread?).map fun t => Actor.unit t.place.die).getD .none
  | .ldaLand id =>
    (((s.ldas.find? (·.id == id)).bind fun l => s.thread? l.tid).map fun t => Actor.unit t.place.die).getD .none
  | .bulkCopySector id _ | .ringEntryTake id => ((s.copies.find? (·.id == id)).map fun b => Actor.unit b.die).getD .none
  | .taskAdmit die _ | .heldAdmission die _ | .gangBoundExpiry die _ | .taskSteal die _ _ | .spillRefill die _
  | .taskPlace die _ | .preemptSave die _ | .matrixCommandRun die _ _ | .drainRun die _ _ | .dscLevel die _
  | .dscGradRun die _ | .rfbBlockStart die | .rfbStepDone die _ => .unit die
  | .shipArrival lc | .shipGrant lc | .sectionStart lc | .sectionTimeLimit lc => .unit (lc / 8)
  | _ => .none

/-- A turn of the agenda. -/
def State.turn (s : State) : Turn → Move
  | .beam d c mem => s.beamMove d c mem
  | .latencyCore n =>
    match (s.lc n).running with
    | some tid => s.agentMove (.thread tid)
    | none => .settle s
  | .queue q => s.agentMove (.queue q)
  | .event i => if isEvent i then .run i { s with cur := s.eventSite i } else .settle s
  | .elapse ns => .settle (s.elapse ns)
  | .tlbFill unit c va => .settle (s.tlbFill unit c va)
  | .tlbDrop unit c va => .settle (s.tlbDrop unit c va)
  | .icFill core key => .settle (s.icFill core key)
  | .icDrop core key => .settle (s.icDrop core key)
  | .prefetch tid => .settle (s.prefetchNext tid)
  | .l2Fill c x => .settle (if (s.ctx? c).isSome then s.l2Read (some c) (256 * x) 256 1 else s)
  | .l2Evict x => .settle (s.l2Evict x)
  | .lcL2Evict lc x => .settle (s.lcL2Evict lc x)
  | .l1Evict core x => .settle (s.l1Evict core x)
  | .copyEvict die x => .settle (s.copyEvict die x)
  | .landPart id p => .settle (s.landPart id p)
  | .registerRead func bar off len => .ofOut s (s.registerRead func bar off len)
  | .globalWrite port off val => if port = 2 ∨ port = 3 then .ofOut s (s.writeGlobal port off val) else .settle s
  | .shipWithdraw node seq op => .settle (s.receive node seq (.shipWithdraw op))
  | .usageCommand _ => .settle s.unknownCommand
  | .spdmRequest _ => .ofOut s s.spdmUnsupported
  | .i3cAddress a => .settle { s with i3c := some (a % 128) }
  | .signals => .settle s.fireSignals
  | .mailbox => .settle s.fwFinish
  | .boot => .settle s.bootTurn
  | .halt a =>
    match s.skidOf a with
    | some n => if s.mayStop a then .settle (s.haltNow a (s.actorTids a) n) else .settle s
    | none => .settle s

/-- The cores that hold threads: die and core. -/
def State.busyCores (s : State) : List (Nat × Nat) :=
  s.threads.foldl (fun (l : List (Nat × Nat)) t =>
    match t.place with
    | .core d c _ _ => if l.contains (d, c) then l else l ++ [(d, c)]
    | _ => l) []

/-- The core and the port of the oldest ready thread or fragment, for an agenda that has run out. -/
def State.oldest (s : State) : Option ((Nat × Nat) × Bool) :=
  let on := s.busyCores.flatMap fun p => [false, true].flatMap fun m => (s.readyOn p.1 p.2 m).map fun r => ((p, m), r)
  (firstBy (fun x y => x.2.before y.2) on).map (·.1)

/-- The die of a thread, as the unit that acts for it. -/
def State.siteOf (s : State) (tid : Nat) : Actor := ((s.thread? tid).map fun t => Actor.unit t.place.die).getD .none

/-- An event that may be due: the unit that makes it, and its effect. -/
abbrev Due := Actor × (State → Out)

/-- Events that one unit makes. -/
def dueAt (a : Actor) (l : List (State → Out)) : List Due := l.map fun f => (a, f)

/-- The event of a parked thread that may be due. -/
def State.dueThread (s : State) (t : Thread) : List Due :=
  match t.status with
  | .parked c =>
    dueAt (.unit t.place.die)
      (if s.condMet t c then [execThreadWake (s.actorOf t)]
      else if s.waitExpired t then [execWaitTimeout (s.actorOf t)] else [])
  | _ => []

/-- The event of the oldest command of an order of a matrix engine. -/
def dueCommand (k eng : Nat) (m : MCmd) : List Due :=
  dueAt (.unit (k / 64)) [match m.op with
    | .drain _ => execDrainRun (k / 64) (k % 64) eng
    | _ => execMatrixCommandRun (k / 64) (k % 64) eng]

/-- The event of the oldest command of a descent engine. -/
def dueDescent (k : Nat) (m : DCmd) : List Due :=
  dueAt (.unit (k / 64)) [match m.op with
    | .run .. => execDscLevel (k / 64) (k % 64)
    | .grad .. => execDscGradRun (k / 64) (k % 64)]

/-- Events of threads, copies, engines and controllers that may be due. -/
def State.dueWork (s : State) : List Due :=
  [s.threads.flatMap s.dueThread,
   (s.ldas.filter fun l => l.failed.isNone && l.fid.isNone).flatMap fun l => dueAt (s.siteOf l.tid) [execLdaLand l.id],
   s.copies.flatMap fun b => dueAt (.unit b.die) [execRingEntryTake b.id, execBulkCopySector b.id 0],
   s.heads.flatMap fun h => dueCommand h.1 h.2.1 h.2.2,
   s.cores.flatMap fun p => (p.2.descent.cmds.take 1).flatMap (dueDescent p.1),
   s.dies.flatMap fun p => dueAt (.unit p.1) (execRfbBlockStart p.1 :: p.2.rfbs.map fun b => execRfbStepDone p.1 b.id)].flatten

/-- Events of a context's core that may be due. -/
def State.dueCore (s : State) (x : Ctx) (k : Nat) : List (State → Out) :=
  (if (s.core k).queue.isEmpty && x.pool.isEmpty then []
    else [execTaskAdmit, execHeldAdmission, execGangBoundExpiry].map fun f => f (k / 64) (k % 64))
    ++ (if (s.core k).queue.isEmpty && !s.hasReady k then
        (x.cores.filter fun v => v / 64 == k / 64 && v != k && !(s.core v).queue.isEmpty).map fun v =>
          execTaskSteal (k / 64) (k % 64) (v % 64)
      else [])
    ++ (if (s.core k).spill.isEmpty then [] else [execSpillRefill (k / 64) (k % 64)])
    ++ (if (s.core k).stopping then [execPreemptSave (k / 64) (k % 64)] else [])

/-- Events of a context that may be due. -/
def State.dueCtx (s : State) (c : Nat) (x : Ctx) : List Due :=
  dueAt .none ((if x.heldRecs.isEmpty then [] else [execFaultRecordWrite c]) ++ x.claims.map fun l => execRoutingTimeout c l.seq)
    ++ x.cores.flatMap fun k => dueAt (.unit (k / 64)) (s.dueCore x k)

/-- Events of a latency core that may be due. -/
def dueLc (n : Nat) (x : Lc) : List Due :=
  dueAt (.unit (n / 8))
    ((if x.refused.isEmpty then [] else [execShipGrant n]) ++ (if x.offers.isEmpty then [] else [execShipArrival n])
      ++ (if x.queue.isEmpty then [] else [execSectionStart n]) ++ (if x.running.isSome then [execSectionTimeLimit n] else []))

/-- Events of a queue that may be due. -/
def dueQueue (q : Nat) (x : Queue) : List Due :=
  dueAt .none
    ((if x.pending then [execPacketRead q] else []) ++ match x.block with
      | some (.signal ..) => [execWaitsigSatisfied q]
      | some (.chain ..) => [execChainSatisfied q]
      | _ => [])

/-- Events of contexts, latency cores and queues that may be due. -/
def State.dueService (s : State) : List Due :=
  [s.ctxs.flatMap fun p => (p.2.toList).flatMap (s.dueCtx p.1),
   dueAt .none (s.orphans.map fun o => execRoutingTimeout o.ctx o.claim.seq),
   s.lcs.flatMap fun p => dueLc p.1 p.2,
   s.queues.flatMap fun p => dueQueue p.1 p.2,
   dueAt .none (if s.sem.held then [execSemaphoreLeaseExpiry] else [])].flatten

/-- An event as a turn. -/
def State.due (s : State) (a : Actor) (f : State → Out) : Move :=
  .ofOut s (f { s with cur := a, tick := s.tick + 1 })

/-- The events that may be due, and time, in rotation. -/
def State.dueMove (s : State) : Move :=
  let l := s.dueWork ++ s.dueService
  match l[s.tick / 4 % (l.length + 1)]? with
  | some p => s.due p.1 p.2
  | none => .settle { s.elapse 1 with tick := s.tick + 1 }

/-- The turn taken when the agenda has run out: a stage of boot; else at every fourth tick, and where no agent may run, an
event that may be due or time; else a running queue, a running section, or the oldest agent (DESIGN CHOICE, log 1). -/
def State.defaultMove (s : State) : Move :=
  if s.boot.power ∧ s.boot.state = .booting then .settle s.bootStage
  else if s.tick % 4 = 3 then s.dueMove
  else
    match s.queues.find? fun p => s.mayIssue (.queue p.1) with
    | some p => s.agentMove (.queue p.1)
    | none =>
      match s.lcs.findSome? fun p => p.2.running.filter fun i => s.mayIssue (.thread i) with
      | some tid => s.agentMove (.thread tid)
      | none =>
        let s := s.busyCores.foldl (fun s p => s.noteStalls p.1 p.2) s
        match s.oldest with
        | some (p, mem) => s.beamMove p.1 p.2 mem
        | none => s.dueMove

/-- What a step does (DESIGN CHOICE, log 1): the rest of a beam, the first turn of the agenda, or the default turn. The L2 slices
make room before a turn. -/
def State.move (s : State) : Move :=
  match s.beamRest with
  | a :: rest => { s with beamRest := rest }.agentMove a
  | [] =>
    let s := s.trim
    match s.agenda with
    | t :: rest => { s with agenda := rest }.turn t
    | [] => s.defaultMove

/-! ## Placing an instruction to be fetched -/

/-- Context 0 of a placed instruction: its tables at 0x10000, one page of 4 GiB at address 0. -/
def placedCtx : Ctx :=
  { func := 0, ptroot := 0x10000, cmbase := 0, cmsize := 2 ^ 21, cores := [0], everCores := [0] }

/-- Tables that map the first 4 GiB to device memory with every permission (R420, R421). -/
def placedTables : List (Nat × List Byte) :=
  [(0x10000, natLe 8 0x11001), (0x11000, natLe 8 0x12001), (0x12000, natLe 8 0xB1F), (0x12008, natLe 8 0xB1F),
    (0x12010, natLe 8 0xB1F), (0x12018, natLe 8 0xB1F)]

/-- A free thread of task 0 on lane 0, slot 0 of core 0 with 248 registers, in the context of a placed instruction. -/
def placedThread : Thread :=
  { tid := 0, task := 0, ctx := 0, place := .core 0 0 0 0, pc := 0x20000, regs := List.replicate 248 {} }

/-- Its task. -/
def placedTask : Task :=
  { id := 0, ctx := 0, kind := .single, entry := 0x20000, args := [0, 0, 0, 0], fut := 0, hdr := { regs := 248 },
    loc := .core 0 0, handle := 0 }

/-- The state with a Scarix word stored where thread 0 fetches it. -/
def State.placeWord (s : State) (w : Nat) : State :=
  { s with
    boot := { s.boot with state := .ready, stage := 5 }
    ctxs := s.ctxs.set none 0 (some placedCtx)
    mem := putBytes (placedTables.foldl (fun m p => putBytes m p.1 p.2) s.mem) 0x20000 (natLe 8 w)
    threads := placedThread :: s.threads.filter (·.tid != 0)
    tasks := placedTask :: s.tasks.filter (·.id != 0)
    cores := s.cores.upd {} 0 fun c => { c with lastCtx := some 0 }
    nextId := max 1 s.nextId
    beamRest := [.thread 0] }

/-- The state with a queue-program word loaded as program 1 of context 0, where queue 0 runs it. -/
def State.placeQueueWord (s : State) (w : Nat) : State :=
  { s with
    boot := { s.boot with state := .ready, stage := 5 }
    ctxs := s.ctxs.set none 0 (some { placedCtx with progs := [⟨1, [BitVec.ofNat 32 w, 0x11], [(0x30000, 4096, true)]⟩] })
    mem := placedTables.foldl (fun m p => putBytes m p.1 p.2) s.mem
    queues := s.queues.set {} 0
      { enable := true, prog := 1, state := .running, log2size := 6, ringbase := 0x40000, kickv := 1, rdidx := 1
        image := some ⟨1, [BitVec.ofNat 32 w, 0x11], [(0x30000, 4096, true)]⟩, inPacket := true, serial := 1
        packets := [{ serial := 1 }] }
    beamRest := [.queue 0] }

end Sys2Proof.Machine
end

