-- ==== Sys2Proof/Machine/Step.lean ====
section
/-! DEFINITION. One step of the device, and an instruction placed where the next step fetches it. -/

namespace Sys2Proof.Machine

/-- One step: what moves next (DESIGN CHOICE, log 1), and the meaning of the instruction that it runs. -/
def step (s : State) : Host.Outcome State Fault Refusal :=
  match s.move with
  | .run i s' => exec i s'
  | .settle s' => .next s'

/-- `s` with an instruction of the table stored where `step` fetches its next one: a Scarix word at thread 0's PC, a
queue-program word in queue 0's program. -/
def State.withFetchWord (s : State) (nbits w : Nat) : State :=
  match nbits with
  | 32 => s.placeQueueWord w
  | 64 => s.placeWord w
  | _ => s

end Sys2Proof.Machine
end

