-- ==== Sys2Proof/Safety.lean ====
section
/-! DEFINITION. What a safe run is, and the vocabulary of the statements: when an agent may run an instruction, what its
completion leaves, the canonical form of the memories, and what a queue word leaves. -/

namespace Sys2Proof.Machine

/-- An outcome that is a next state. -/
def completes (o : Out) : Bool :=
  match o with
  | .next _ => true
  | _ => false

/-- A state from which a number of steps all complete. -/
def safeFor : Nat → State → Bool
  | 0, _ => true
  | n + 1, s =>
    match step s with
    | .next s' => safeFor n s'
    | _ => false

/-! ## The memories -/

/-- Physical memory, the scratchpads and the accumulator stores are in canonical form. -/
def State.Inv (s : State) : Prop := Memory.wf s.mem ∧ Memory.wf s.scratch ∧ SMap.wf 0 s.cells

/-! ## The course of an instruction (R235) -/

/-- The threads of a fragment share one PC (R38); of a free thread or a section there is one. -/
def State.inStep (s : State) (a : Actor) : Bool :=
  match a with
  | .frag gid fid =>
    match (s.group? gid).bind fun g => (g.frag? fid).map fun f => (g, f) with
    | none => false
    | some (g, f) =>
      let pcOf := fun r => ((g.members[r]?).bind s.thread?).map (·.pc)
      (ranksOf f.mask).all fun r => (pcOf r).isSome && pcOf r == ((ranksOf f.mask).head?).bind pcOf
  | _ => true

/-- The executing agent may run `i`: `tids` are its threads; it is not halting; every result and every earlier read that `i`
waits for is there (R124, R223); and steps 2 to 4 of R235, with the execute breakpoints, stop none of its threads. -/
def State.issues (s : State) (i : Instr) (tids : List Nat) : Bool :=
  decide (s.actorTids s.cur = tids) && decide (tids ≠ []) && decide tids.Nodup && (s.skidOf s.cur).isNone
    && s.inStep s.cur && !s.waits i tids
    && tids.all fun j => (s.thread? j).any fun t => (s.decodeStop i (t.commitDue (s.readsOf i tids t))).isNone

/-- `s` with the results due before `i` written (R223), and with what `i` looks up in global memory counted (R443). -/
def State.landed (s : State) (i : Instr) (tids : List Nat) : State := (s.landDue i tids).lookUps i tids

/-- The threads in which `i` acts: those whose guards are true (R222). -/
def State.acting (s : State) (i : Instr) (tids : List Nat) : List Nat :=
  match i.hdr? with
  | some h => (s.landed i tids).activeTids h tids
  | none => tids

/-- `s'` is `e` with the instruction retired in `tids`: each goes on at PC + 8 as the youngest, its windows one instruction
older; the issue counter of the core has counted; nothing else differs. -/
def State.retires (e s' : State) (tids : List Nat) : Prop :=
  s' = { e.tallyIssue tids with threads := s'.threads, tick := e.tick + 1 } ∧
  ∀ k, s'.thread? k = (e.thread? k).map fun t =>
    if k ∈ tids then Thread.windowStep { t with pc := t.pc + 8, age := e.tick } else t

/-- `s'` is `e` with the instruction issued in the one thread `tid`, which has parked on `c` at its PC. -/
def State.parks (e s' : State) (tid : Nat) (c : Cond) : Prop :=
  s' = { e.tallyIssue [tid] with threads := s'.threads, tick := e.tick + 1 } ∧
  ∀ k, s'.thread? k = (e.thread? k).map fun t =>
    if k = tid then Thread.windowStep { t with status := .parked c, age := e.tick } else t

/-- The effect `f` of an instruction in each thread of a list, in order; none where it does not complete in one. -/
def State.each (s : State) (f : Thread → State → Option State) : List Nat → Option State
  | [] => some s
  | j :: l =>
    match (s.thread? j).bind fun t => f t s with
    | some s' => s'.each f l
    | none => none

/-- `i` completes with the effect `f` in each thread whose guards are true, in rank order, where `f` completes in each. -/
def State.does (s : State) (i : Instr) (tids : List Nat) (f : Thread → State → Option State) : Prop :=
  ∀ e, (s.landed i tids).each f (s.acting i tids) = some e → ∃ s', exec i s = .next s' ∧ e.retires s' tids

/-- `i` completes, and does `f` to each thread whose guards are true and nothing else. -/
def State.maps (s : State) (i : Instr) (tids : List Nat) (f : Thread → Thread) : Prop :=
  ∃ s', exec i s = .next s' ∧
    ((s.landed i tids).updThreads (s.acting i tids) f).retires s' tids

/-- Wherever an agent may run `i`, it completes and does `f` to each thread whose guards are true, and nothing else. -/
def Runs (i : Instr) (f : Thread → Thread) : Prop := ∀ (s : State) (tids : List Nat), s.issues i tids = true → s.maps i tids f

/-- `Runs`, where each thread whose guards are true has operands that meet `ok`. -/
def RunsIf (i : Instr) (ok : Thread → Prop) (f : Thread → Thread) : Prop :=
  ∀ (s : State) (tids : List Nat), s.issues i tids = true → (∀ j ∈ s.acting i tids, ∀ t, (s.landed i tids).thread? j = some t → ok t) →
    s.maps i tids f

/-- Wherever an agent may run `i`, it completes with the effect `f` in each thread whose guards are true, in rank order,
where `f` completes in each. -/
def Does (i : Instr) (f : Thread → State → Option State) : Prop := ∀ (s : State) (tids : List Nat), s.issues i tids = true → s.does i tids f

/-- The effects of a control instruction in the threads of a list, in order, each with the PC that its thread goes to. -/
def State.eachFlow (s : State) (f : Thread → State → Option (State × Dword)) : List Nat → Option (State × List (Nat × Dword))
  | [] => some (s, [])
  | j :: l =>
    match (s.thread? j).bind fun t => f t s with
    | some (s', pc) => (s'.eachFlow f l).map fun r => (r.1, (j, pc) :: r.2)
    | none => none

/-- `s'` is `e` with a control instruction retired by the agent `a` in `tids`: the threads of `to'` go to their PCs, the
others to PC + 8; a fragment divides by next PC (R42, R43), the threads at `fall` keeping its ID. -/
def State.flows (e s' : State) (a : Actor) (tids : List Nat) (to' : List (Nat × Dword)) (fall : Dword) : Prop :=
  s' = { e.tallyIssue tids with threads := s'.threads, groups := s'.groups, tick := e.tick + 1 } ∧
  (∀ k, s'.thread? k = (e.thread? k).map fun t =>
    if k ∈ tids then Thread.windowStep { t with pc := (to'.lookup k).getD (t.pc + 8), age := e.tick } else t) ∧
  s'.groups = (match a with
    | .frag gid fid => (({ e with threads := s'.threads } : State).split gid fid fall).groups
    | _ => e.groups)

/-- Wherever an agent may run the control instruction `i`, it completes with the effect and the targets of `f`. -/
def Flows (i : Instr) (f : Thread → State → Option (State × Dword)) : Prop :=
  ∀ (s : State) (first : Nat) (rest : List Nat) (t : Thread) (r : State × List (Nat × Dword)),
    s.issues i (first :: rest) = true → s.thread? first = some t →
    (s.landed i (first :: rest)).eachFlow f (s.acting i (first :: rest)) = some r →
    ∃ s', exec i s = .next s' ∧ r.1.flows s' s.cur (first :: rest) r.2 (t.pc + 8)

/-- `Does` of an instruction that acts in two halves: `f` in each thread whose guards are true, then `g` in each (R47, R295,
R296). -/
def DoesInTwo (i : Instr) (f g : Thread → State → Option State) : Prop :=
  ∀ (s : State) (tids : List Nat) (m e : State), s.issues i tids = true →
    (s.landed i tids).each f (s.acting i tids) = some m → m.each g (s.acting i tids) = some e →
    ∃ s', exec i s = .next s' ∧ e.retires s' tids

/-- The effects of an instruction that may park its threads, in the threads of a list, in order, each with the status that
its thread waits in; none where the thread waits for nothing. -/
def State.eachAwait (s : State) (f : Thread → State → Option (State × Option Status)) :
    List Nat → Option (State × List (Nat × Option Status))
  | [] => some (s, [])
  | j :: l =>
    match (s.thread? j).bind fun t => f t s with
    | some (s', c) => (s'.eachAwait f l).map fun r => (r.1, (j, c) :: r.2)
    | none => none

/-- `s'` is `e` with an instruction issued in `tids` that makes the agent wait, as one: a thread with a status waits in it, at
its PC; the others, their part complete, wait for these (R47); nothing divides. -/
def State.parksOn (e s' : State) (tids : List Nat) (conds : List (Nat × Option Status)) : Prop :=
  s' = { e.tallyIssue tids with threads := s'.threads, tick := e.tick + 1 } ∧
  ∀ k, s'.thread? k = (e.thread? k).map fun t =>
    if k ∈ tids then
      Thread.windowStep { t with status := ((conds.lookup k).bind id).getD (.parked (.unit true)), age := e.tick }
    else t

/-- Wherever an agent may run `i`, it issues with the effect of `f` in each thread whose guards are true. Where `f` gives one of
them a status, the agent waits as one; else the instruction retires. No adoption is under way. -/
def Awaits (i : Instr) (f : Thread → State → Option (State × Option Status)) : Prop :=
  ∀ (s : State) (tids : List Nat) (r : State × List (Nat × Option Status)), s.issues i tids = true →
    (s.landed i tids).eachAwait f (s.acting i tids) = some r → (∀ k ∈ r.1.tasks, k.adoptedBy = []) →
    ∃ s', exec i s = .next s' ∧
      if r.2.any (·.2.isSome) then r.1.parksOn s' tids r.2 else r.1.retires s' tids

/-- A typed source: the register carries the tag wanted, or RAW (R149). -/
def Thread.reads (t : Thread) (n : Nat) (want : Tag) : Prop := (t.reg n).tag = want ∨ (t.reg n).tag = .raw

/-- The typed sources of a pair of F64 (R149). -/
def Thread.readsF64 (t : Thread) (r : GReg) : Prop := t.reads r.toNat .f64lo ∧ t.reads (r.toNat + 1) .f64hi

/-- None of a set of exceptions is enabled in the thread's kernel (R154). -/
def Thread.quiet (t : Thread) (ex : FloatEx) : Prop := ex &&& t.trapEn = 0

/-- What a collective of the executing fragment sees (R46): its group, itself, its ranks, and those whose guards are
true. -/
def State.coll (s : State) (i : Instr) (tids : List Nat) : Option Coll :=
  match s.cur with
  | .frag gid fid =>
    (s.group? gid).bind fun g => (g.frag? fid).map fun f =>
      let ranks := (s.landed i tids).rankThreads g f.mask
      { g, f, ranks, active := ranks.filter fun p => (s.acting i tids).contains p.2.tid }
  | _ => none

/-- Wherever a fragment may run `i`, with a guard true in at least one thread, it completes with the one effect `f`, where
`f` completes. -/
def Collects (i : Instr) (f : Coll → State → Option State) : Prop :=
  ∀ (s : State) (tids : List Nat) (c : Coll) (e : State), s.issues i tids = true → s.coll i tids = some c →
    s.acting i tids ≠ [] → f c (s.landed i tids) = some e → ∃ s', exec i s = .next s' ∧ e.retires s' tids

/-- `e`, if a condition holds. -/
def onlyIf (ok : Bool) (e : State) : Option State := if ok then some e else none

/-- The executing agent has come to `i`: `tids` are its threads, and every result and every earlier read that `i` waits for is
there (R124, R223). -/
def State.arrives (s : State) (i : Instr) (tids : List Nat) : Bool :=
  decide (s.actorTids s.cur = tids) && decide (tids ≠ []) && !s.waits i tids

/-- Wherever an agent may run `i`, the first of its threads whose guards are true raises the trap `x`. -/
def Traps (i : Instr) (x : Trap) : Prop :=
  ∀ (s : State) (tids : List Nat) (first : Nat) (rest : List Nat), s.issues i tids = true → s.acting i tids = first :: rest →
    exec i s = .next ((s.landed i tids).stop s.cur first (encodeWord i) (.trap x))

/-- What an operation answers, where it does not stop. -/
def okOf (x : Except Stop State) : Option State :=
  match x with
  | .ok e => some e
  | .error _ => none

/-- A command at the end of a matrix engine's order, where there is room for it (R21). -/
def State.joins (s : State) (k e : Nat) (m : MCmd) : Option State :=
  if (s.engine k e).length < 8 then
    some (({ s with tick := s.tick + 1 } : State).updEngine k e fun l => l ++ [{ m with seq := s.tick }])
  else none

/-- Every bank of a list belongs to the group with a number, or is lent to it where that counts (R98, R99). -/
def State.banksOf (s : State) (k eng num : Nat) (bs : List Nat) (lend : Bool) : Bool :=
  bs.all fun b =>
    let x := s.bank k eng b
    x.owner == some num || (lend && x.owner.isSome && x.lendee == some num)

/-- The whole group executes, and none of its threads has exited (R41, R46). -/
def Coll.isWhole (c : Coll) : Bool := c.f.mask == BitVec.ofNat 32 (2 ^ c.g.members.length - 1)

/-- The fragment is a union of whole tiles of a group that has lost no thread (R41, R307). -/
def Coll.isTiles (c : Coll) : Bool :=
  c.g.exited == 0 && (ranksOf c.f.mask).all fun r =>
    (List.range c.g.tile).all fun l => c.f.mask.getLsbD (r / c.g.tile * c.g.tile + l)

/-- The mailbox of a function takes a command: the device is ready, and no operation of it is busy (R416). -/
def State.takesCommand (s : State) (func : Nat) : Prop := func < 128 ∧ s.boot.state = .ready ∧ (s.func func).stat ≠ 1

/-- A mailbox operation has ended without a rejection. -/
def State.commandDone (e : State) (func : Nat) : Out := .next (e.setStat func 2 0 0)

end Sys2Proof.Machine
end

