-- ==== Sys2Proof/Certificates/Slice0/Obligations.lean ====
section
/-! DEFINITION. The statements for the provers: what each instruction does where it completes, what traps and events do, and
the rules of the whole machine. -/

open Sys2Proof Sys2Proof.Machine

/-! ## Integer, conversion and control instructions (10) -/

/-- Integer arithmetic (R241): the results, tag I32, and the predicates; every other register, predicate and byte stays. -/
def Obligations.IntegerArithmeticResults : Prop :=
  (∀ h pd d a b, Runs (.iadd h .wrap pd d a b) fun t =>
    (t.put d (t.val a + t.val b) .i32).setPred pd (decide (2 ^ 32 ≤ (t.val a).toNat + (t.val b).toNat))) ∧
  (∀ h pd d a b, Runs (.iadd h .sat pd d a b) fun t =>
    let x := (t.val a).toInt + (t.val b).toInt
    let y := max (-2147483648) (min 2147483647 x)
    (t.put d (BitVec.ofInt 32 y) .i32).setPred pd (y != x)) ∧
  (∀ h pd d a b, Runs (.iadd h .usat pd d a b) fun t =>
    let x := (t.val a).toNat + (t.val b).toNat
    let y := min 4294967295 x
    (t.put d (BitVec.ofNat 32 y) .i32).setPred pd (y != x)) ∧
  (∀ h pd d a b, Runs (.isub h .wrap pd d a b) fun t =>
    (t.put d (t.val a - t.val b) .i32).setPred pd (decide ((t.val a).toNat < (t.val b).toNat))) ∧
  (∀ h pd d a b, Runs (.isub h .sat pd d a b) fun t =>
    let x := (t.val a).toInt - (t.val b).toInt
    let y := max (-2147483648) (min 2147483647 x)
    (t.put d (BitVec.ofInt 32 y) .i32).setPred pd (y != x)) ∧
  (∀ h pd d a b, Runs (.isub h .usat pd d a b) fun t =>
    (t.put d (BitVec.ofNat 32 ((t.val a).toNat - (t.val b).toNat)) .i32).setPred pd
      (decide ((t.val a).toNat < (t.val b).toNat))) ∧
  (∀ h d a b, Runs (.imul h d a b) fun t => t.put d (t.val a * t.val b) .i32) ∧
  (∀ h d a b, Runs (.imulh h false d a b) fun t =>
    t.put d (hiWord ((t.val a).signExtend 64 * (t.val b).signExtend 64)) .i32) ∧
  (∀ h d a b, Runs (.imulh h true d a b) fun t =>
    t.put d (hiWord ((t.val a).setWidth 64 * (t.val b).setWidth 64)) .i32) ∧
  (∀ h d a b c, Runs (.imad h d a b c) fun t => t.put d (t.val a * t.val b + t.val c) .i32) ∧
  (∀ h pd d a b, Runs (.iadd64 h pd d a b) fun t =>
    (t.putPair d (t.pair a + t.pair b) .i32 .i32).setPred pd (decide (2 ^ 64 ≤ (t.pair a).toNat + (t.pair b).toNat))) ∧
  (∀ h pd d a b, Runs (.isub64 h pd d a b) fun t =>
    (t.putPair d (t.pair a - t.pair b) .i32 .i32).setPred pd (decide ((t.pair a).toNat < (t.pair b).toNat))) ∧
  (∀ h d a b, Runs (.imin h false d a b) fun t =>
    t.put d (if (t.val b).toInt < (t.val a).toInt then t.val b else t.val a) .i32) ∧
  (∀ h d a b, Runs (.imin h true d a b) fun t =>
    t.put d (if (t.val b).toNat < (t.val a).toNat then t.val b else t.val a) .i32) ∧
  (∀ h d a b, Runs (.imax h false d a b) fun t =>
    t.put d (if (t.val a).toInt < (t.val b).toInt then t.val b else t.val a) .i32) ∧
  (∀ h d a b, Runs (.imax h true d a b) fun t =>
    t.put d (if (t.val a).toNat < (t.val b).toNat then t.val b else t.val a) .i32) ∧
  (∀ h d a, Runs (.iabs h false d a) fun t => t.put d (if (t.val a).toInt < 0 then -t.val a else t.val a) .i32) ∧
  (∀ h d a, Runs (.iabs h true d a) fun t =>
    t.put d (BitVec.ofInt 32 (min 2147483647 (if (t.val a).toInt < 0 then -(t.val a).toInt else (t.val a).toInt))) .i32)

/-- The immediate forms and shifts (R242, R244): shifts of the width or more give zero, or the sign. Bit fields (R246): each
result given bit by bit. -/
def Obligations.ImmediateShiftAndFieldResults : Prop :=
  ((∀ h d a imm, Runs (.iaddImm h d a imm) fun t => t.put d (t.val a + imm.signExtend 32) .i32) ∧
  (∀ h d a imm, Runs (.andImm h d a imm) fun t => t.put d (t.val a &&& imm.signExtend 32) .i32) ∧
  (∀ h d a imm, Runs (.orImm h d a imm) fun t => t.put d (t.val a ||| imm.signExtend 32) .i32) ∧
  (∀ h d a imm, Runs (.xorImm h d a imm) fun t => t.put d (t.val a ^^^ imm.signExtend 32) .i32) ∧
  (∀ h d a b, Runs (.shl h d a b) fun t =>
    let n := (t.val b).toNat % 256
    t.put d (if n < 32 then t.val a <<< n else 0) .i32) ∧
  (∀ h d a b, Runs (.shr h d a b) fun t =>
    let n := (t.val b).toNat % 256
    t.put d (if n < 32 then t.val a >>> n else 0) .i32) ∧
  (∀ h d a b, Runs (.sar h d a b) fun t =>
    let n := (t.val b).toNat % 256
    t.put d ((t.val a).sshiftRight (min n 31)) .i32) ∧
  (∀ h d a b, Runs (.rot h d a b) fun t => t.put d ((t.val a).rotateLeft ((t.val b).toNat % 32)) .i32) ∧
  (∀ h d a n, Runs (.shlImm h d a n) fun t => t.put d (t.val a <<< n.toNat) .i32) ∧
  (∀ h d a n, Runs (.shrImm h d a n) fun t => t.put d (t.val a >>> n.toNat) .i32) ∧
  (∀ h d a n, Runs (.sarImm h d a n) fun t => t.put d ((t.val a).sshiftRight n.toNat) .i32) ∧
  (∀ h d a n, Runs (.rotImm h d a n) fun t => t.put d ((t.val a).rotateLeft n.toNat) .i32) ∧
  (∀ h d a b, Runs (.shl64 h d a b) fun t =>
    let n := (t.val b).toNat % 256
    t.putPair d (if n < 64 then t.pair a <<< n else 0) .i32 .i32) ∧
  (∀ h d a b, Runs (.shr64 h false d a b) fun t =>
    let n := (t.val b).toNat % 256
    t.putPair d (if n < 64 then t.pair a >>> n else 0) .i32 .i32) ∧
  (∀ h d a b, Runs (.shr64 h true d a b) fun t =>
    let n := (t.val b).toNat % 256
    t.putPair d ((t.pair a).sshiftRight (min n 63)) .i32 .i32)) ∧
  ((∀ h sg d a b, Runs (.bfe h sg d a b) fun t => t.put d (fieldGet sg (t.val a) (t.val b)) .i32) ∧
  (∀ h d a b c, Runs (.bfi h d a b c) fun t => t.put d (fieldPut (t.val a) (t.val b) (t.val c)) .i32) ∧
  (∀ b : Word, bitField b = (b.toNat % 256,
    if 32 ≤ b.toNat % 256 then 0 else min (min (b.toNat / 256 % 256) 32) (32 - b.toNat % 256))) ∧
  (∀ (sg : Bool) (a b : Word) i, i < 32 → (fieldGet sg a b).getLsbD i =
    if i < (bitField b).2 then a.getLsbD ((bitField b).1 + i)
    else sg && decide ((bitField b).2 ≠ 0) && a.getLsbD ((bitField b).1 + (bitField b).2 - 1)) ∧
  (∀ (a b c : Word) i, i < 32 → (fieldPut a b c).getLsbD i =
    if (bitField b).1 ≤ i ∧ i < (bitField b).1 + (bitField b).2 then a.getLsbD (i - (bitField b).1) else c.getLsbD i))

/-- Moves, selection, addresses and tags (R247 to R251, R261): values and the tags that go with them. Compares and predicates
(R252 to R254): the predicate named is written, pt discards it, and no register changes but PMOV.GET's destination. -/
def Obligations.MoveAndPredicateResults : Prop :=
  ((∀ h d a b c, Runs (.perm h d a b c) fun t =>
    t.put d (permWord (t.val a) (t.val b) (t.val c)) (permTag (t.val c) (t.tag a) (t.tag b))) ∧
  (∀ (a b c : Word) i, i < 4 → ((permWord a b c) >>> (8 * i)).setWidth 8 =
    (let x : Byte := ((joinWords a b) >>> (8 * (c.toNat / 2 ^ (3 * i) % 8))).setWidth 8
     let m := c.toNat / 2 ^ (12 + 2 * i) % 4
     if m = 0 then x else if m = 1 then 0 else if m = 2 then (if x.getLsbD 7 then 0xFF else 0) else x.reverse)) ∧
  (∀ h neg d a b pc, Runs (.sel h neg d a b pc) fun t =>
    t.setReg d.toNat (if t.pred pc != neg then t.reg a.toNat else t.reg b.toNat)) ∧
  (∀ h d a, Runs (.mov h false d a) fun t => t.setReg d.toNat (t.reg a.toNat)) ∧
  (∀ h d a, Runs (.mov h true d a) fun t =>
    (t.setReg d.toNat (t.reg a.toNat)).setReg (d.toNat + 1) (t.reg (a.toNat + 1))) ∧
  (∀ h d imm, Runs (.movi h d imm) fun t => t.put d imm .raw) ∧
  (∀ h d imm, Runs (.movhi h d imm) fun t =>
    (t.put d imm .raw).setReg (d.toNat + 1) { val := if imm.getLsbD 31 then 0xFFFFFFFF else 0, tag := .raw }) ∧
  (∀ h sx sh d a b, Runs (.lea h sx sh d a b) fun t =>
    t.putPair d (t.pair a + (if sx then (t.val b).signExtend 64 else (t.val b).setWidth 64) <<< sh.toNat) .i32 .i32) ∧
  (∀ h d a b c, RunsIf (.naddr h false d a b c)
    (fun t => (t.val c).toNat / 2 ^ 25 = 0 ∧ (t.val c).toNat / 2 ^ 20 % 32 ≤ 19 ∧
      (t.val c).toNat % 2 ^ 20 < 2 ^ ((t.val c).toNat / 2 ^ 20 % 32)) fun t =>
    t.putPair d (t.pair a + BitVec.ofNat 64
      ((2 ^ ((t.val c).toNat / 2 ^ 20 % 32) - 1 + (t.val c).toNat % 2 ^ 20) * (t.val b).toNat)) .i32 .i32) ∧
  (∀ h d a b c, RunsIf (.naddr h true d a b c) (fun t => (t.val c).toNat / 2 ^ 20 = 0) fun t =>
    t.putPair d (t.pair a + BitVec.ofNat 64 ((t.val c).toNat % 2 ^ 20 * (t.val b).toNat)) .i32 .i32) ∧
  (∀ h tag d a, Runs (.fmtset h tag d a) fun t => t.put d (t.val a) tag) ∧
  (∀ h d a, Runs (.fmtget h d a) fun t => t.put d ((t.tag a).code.setWidth 32) .i32)) ∧
  ((∀ h cc pd a b, Runs (.icmp h cc pd a b) fun t => t.setPred pd (cc.holds (t.val a) (t.val b))) ∧
  (∀ h cc pd a b, Runs (.icmp64 h cc pd a b) fun t => t.setPred pd (cc.holds (t.pair a) (t.pair b))) ∧
  (∀ w (a b : BitVec w),
    ICond.holds .eq a b = decide (a.toNat = b.toNat) ∧ ICond.holds .ne a b = decide (a.toNat ≠ b.toNat) ∧
    ICond.holds .lt a b = decide (a.toInt < b.toInt) ∧ ICond.holds .le a b = decide (a.toInt ≤ b.toInt) ∧
    ICond.holds .gt a b = decide (b.toInt < a.toInt) ∧ ICond.holds .ge a b = decide (b.toInt ≤ a.toInt) ∧
    ICond.holds .ltu a b = decide (a.toNat < b.toNat) ∧ ICond.holds .leu a b = decide (a.toNat ≤ b.toNat) ∧
    ICond.holds .gtu a b = decide (b.toNat < a.toNat) ∧ ICond.holds .geu a b = decide (b.toNat ≤ a.toNat)) ∧
  (∀ h na nb pd pa pb, Runs (.pset h .and na nb pd pa pb) fun t =>
    t.setPred pd ((t.pred pa != na) && (t.pred pb != nb))) ∧
  (∀ h na nb pd pa pb, Runs (.pset h .or na nb pd pa pb) fun t =>
    t.setPred pd ((t.pred pa != na) || (t.pred pb != nb))) ∧
  (∀ h na nb pd pa pb, Runs (.pset h .xor na nb pd pa pb) fun t =>
    t.setPred pd ((t.pred pa != na) != (t.pred pb != nb))) ∧
  (∀ h d, Runs (.pmovGet h d) fun t => t.put d (BitVec.ofNat 32 (t.preds.toNat + 128)) .i32) ∧
  (∀ h a b, Runs (.pmovPut h a b) fun t =>
    { t with preds := (t.preds &&& ~~~(t.val b).setWidth 7) ||| ((t.val a).setWidth 7 &&& (t.val b).setWidth 7) }) ∧
  (∀ (t : Thread) pd v, t.setPred 7 v = t ∧ t.pred 7 = true ∧
    ∀ q : PReg, (t.setPred pd v).pred q = if q = 7 then true else if q = pd then v else t.pred q))

/-- CVT, PACK, UNPACK and QSCALE (R257 to R260), where the typed sources carry their tag or RAW and no exception that the
kernel enables occurs; and where PACK puts its elements. -/
def Obligations.ConversionResults : Prop :=
  (∀ h tgt src rnd sat d a c,
    let r := fun t : Thread => toElem tgt rnd sat tgt.scaled (scaleCode (t.val c)) (cvtSource src t a c)
    RunsIf (.cvt h tgt src rnd sat d a c)
      (fun t => (if src = .f64 then t.readsF64 a else t.reads a.toNat (fmtTag src)) ∧ t.quiet (r t).2)
      fun t => if tgt = .f64 then t.putPair d (BitVec.ofNat 64 (r t).1) .f64lo .f64hi
        else t.put d (BitVec.ofNat 32 (r t).1) (fmtTag tgt)) ∧
  (∀ h tgt rnd sat sc (h1 : Bool) d a c,
    let r := fun t : Thread =>
      (t.span a (packCount tgt)).map fun w => toElem tgt rnd sat (sc || tgt.scaled) (scaleCode (t.val c)) (f32 w)
    RunsIf (.pack h tgt rnd sat sc h1 d a c)
      (fun t => (∀ k < packCount tgt, t.reads (a.toNat + k) .f32) ∧ t.quiet ((r t).foldl (fun e x => e ||| x.2) 0))
      fun t => t.put d (BitVec.ofNat 32 (putElems tgt (if tgt = .bx2 ∧ h1 = true then 8 else 0)
        (if tgt = .bx2 then (t.val d).toNat else 0) ((r t).map (·.1)))) (fmtTag tgt)) ∧
  (∀ (f : Fmt) k w l i, elemBits f (putElems f k w l) i =
    if k ≤ i ∧ i < k + l.length then l.getD (i - k) 0 % 2 ^ f.container else elemBits f w i) ∧
  (∀ h src rnd sat sc (h1 : Bool) d a c,
    let r := fun t : Thread => (List.range (packCount src)).map fun i =>
      let x := src.dec (elemBits src (t.val a).toNat ((if src = .bx2 ∧ h1 = true then 8 else 0) + i))
      convert .f32 rnd sat false (if sc || src.scaled then scaleBy (scaleCode (t.val c)) x else x)
    RunsIf (.unpack h src rnd sat sc h1 d a c)
      (fun t => t.reads a.toNat (fmtTag src) ∧ t.quiet ((r t).foldl (fun e x => e ||| x.2) 0))
      fun t => t.putSpan d.toNat ((r t).map fun x => { val := BitVec.ofNat 32 x.1, tag := .f32 })) ∧
  (∀ h tgt d a, RunsIf (.qscale h tgt d a) (fun t => t.reads a.toNat .f32) fun t =>
    t.put d (BitVec.ofNat 32 (blockScale tgt (f32 (t.val a)).abs)) .raw)

/-! ## Floating point and bound groups (12) -/

/-- FP32 arithmetic, single and on pairs (R299, R301): each element of the result is the operation on the elements of the
sources, and FCMP's predicate is the condition (R302). FP64 arithmetic on pairs (R299, R301, R302). -/
def Obligations.FloatResults : Prop :=
  ((∀ h pr rnd d a b c, ∀ p ∈ [
      (Instr.fadd h pr rnd d a b, [a, b], addOp ff32 rnd), (Instr.fmul h pr rnd d a b, [a, b], mulOp ff32 rnd),
      (Instr.ffma h pr rnd d a b c, [a, b, c], fmaOp ff32 rnd), (Instr.fmin h pr d a b, [a, b], mmOp ff32 false),
      (Instr.fmax h pr d a b, [a, b], mmOp ff32 true)],
    let n := if pr then 2 else 1
    let r := fun t : Thread => (List.range n).map fun k => p.2.2 (p.2.1.map fun g => (t.reg (g.toNat + k)).val.toNat)
    RunsIf p.1
      (fun t => (∀ g ∈ p.2.1, ∀ k < n, t.reads (g.toNat + k) .f32) ∧ t.quiet ((r t).foldl (fun e x => e ||| x.2) 0))
      fun t => t.putSpan d.toNat ((r t).map fun x => { val := BitVec.ofNat 32 x.1, tag := .f32 })) ∧
  (∀ h cc pd a b,
    let r := fun t : Thread => fCompare cc (f32 (t.val a)) (f32 (t.val b))
    RunsIf (.fcmp h cc pd a b) (fun t => t.reads a.toNat .f32 ∧ t.reads b.toNat .f32 ∧ t.quiet (r t).2)
      fun t => t.setPred pd (r t).1)) ∧
  ((∀ h rnd d a b c, ∀ p ∈ [
      (Instr.fadd64 h rnd d a b, [a, b], addOp ff64 rnd), (Instr.fmul64 h rnd d a b, [a, b], mulOp ff64 rnd),
      (Instr.ffma64 h rnd d a b c, [a, b, c], fmaOp ff64 rnd), (Instr.fmin64 h d a b, [a, b], mmOp ff64 false),
      (Instr.fmax64 h d a b, [a, b], mmOp ff64 true)],
    let r := fun t : Thread => p.2.2 (p.2.1.map fun g => (t.pair g).toNat)
    RunsIf p.1 (fun t => (∀ g ∈ p.2.1, t.readsF64 g) ∧ t.quiet (r t).2)
      fun t => t.putPair d (BitVec.ofNat 64 (r t).1) .f64lo .f64hi) ∧
  (∀ h cc pd a b,
    let r := fun t : Thread => fCompare cc (f64 (t.pair a)) (f64 (t.pair b))
    RunsIf (.fcmp64 h cc pd a b) (fun t => t.readsF64 a ∧ t.readsF64 b ∧ t.quiet (r t).2) fun t => t.setPred pd (r t).1))

/-- Packed half-width arithmetic (R303) and dot products (R304): two independent elements; one exact sum, rounded once. -/
def Obligations.PackedAndDotResults : Prop :=
  (∀ h f rnd d a b c, ∀ p ∈ [
      (Instr.hadd2 h f rnd d a b, [a, b], addOp (hfFmt f).float rnd),
      (Instr.hmul2 h f rnd d a b, [a, b], mulOp (hfFmt f).float rnd),
      (Instr.hfma2 h f rnd d a b c, [a, b, c], fmaOp (hfFmt f).float rnd)],
    let r := fun (t : Thread) k => p.2.2 (p.2.1.map fun g => elemBits (hfFmt f) (t.val g).toNat k)
    RunsIf p.1 (fun t => (∀ g ∈ p.2.1, t.reads g.toNat (fmtTag (hfFmt f))) ∧ t.quiet ((r t 0).2 ||| (r t 1).2))
      fun t => t.put d (BitVec.ofNat 32 (putElems (hfFmt f) 0 0 [(r t 0).1, (r t 1).1])) (fmtTag (hfFmt f))) ∧
  (∀ h f rnd d a b c, ∀ p ∈ [(Instr.dot4 h f rnd d a b c, 1), (Instr.dot8 h f rnd d a b c, if f = .e2m1 then 1 else 2)],
    let r := fun t : Thread =>
      let ps := (dotElems (dotFmt f) t a p.2).zip (dotElems (dotFmt f) t b p.2)
      fDot rnd (f32 (t.val c)) (if dotFmt f = .i8 then ps.map intProduct else ps)
    RunsIf p.1
      (fun t => (∀ k < p.2, t.reads (a.toNat + k) (fmtTag (dotFmt f)) ∧ t.reads (b.toNat + k) (fmtTag (dotFmt f))) ∧
        t.reads c.toNat .f32 ∧ t.quiet (r t).2)
      fun t => t.put d (BitVec.ofNat 32 (r t).1) .f32)

/-- The special functions (R164, R305): the result is written at once with LA = 0, and is pending for LA instructions more
otherwise, after any earlier one of its register; the oldest pending result of a register is written first, once it is known
(R223, R224). -/
def Obligations.SpecialFunctionResults : Prop :=
  (∀ h rnd d a, ∀ p ∈ [(Instr.frcp h d a, fRcp), (.frsq h d a, fRsq), (.fsqrt h rnd d a, fSqrt rnd), (.fexp2 h d a, fExp2),
      (.flog2 h d a, fLog2), (.fsin h d a, fSinCos false), (.fcos h d a, fSinCos true), (.ftanh h d a, fTanh)],
    RunsIf p.1 (fun t => t.reads a.toNat .f32 ∧ t.quiet (p.2 (t.val a)).2)
      fun t => if h.la = 0 then t.put d (p.2 (t.val a)).1 .f32
        else { t with pend := t.pend ++
          (if d.toNat < t.regs.length then
            [{ reg := d.toNat, val := ⟨(p.2 (t.val a)).1, .f32⟩, left := some (h.la.toNat + 1) }] else []) }) ∧
  (∀ tid reg s, exec (.longLatencyResult tid reg) s = .next (s.updThread tid fun t =>
    match t.pend.find? (·.reg == reg) with
    | some p => if p.known then { t with regs := t.regs.set reg p.val, pend := t.pend.erase p } else t
    | none => t))

/-- BIND of a free thread on a core (R308): it joins the forming set of its key and size; where it is the last, the set
becomes a group and all its threads go on; where it is not, it waits at its BIND. UNBIND, PART, GBAR and GFENCE (R309, R310,
R316) of a whole group. -/
def Obligations.GroupFormationAndControl : Prop :=
  (∀ h n1 a (s e : State) (t : Thread) die core lane slot, s.cur = .thread t.tid →
    s.issues (.bind h n1 a) [t.tid] = true → (s.landed (.bind h n1 a) [t.tid]).thread? t.tid = some t →
    t.guards h = true → t.member = none → t.place = .core die core lane slot → (∀ k ∈ s.tasks, k.adoptedBy = []) →
    e = (s.landed (.bind h n1 a) [t.tid]).updCore (coreIdx die core) (fun x =>
      { x with forming := x.forming.filter (·.tid != t.tid) ++ [⟨t.val a, n1.toNat + 1, lane, t.tid⟩] }) →
    let tids := (formingSet (e.core (coreIdx die core)).forming (t.val a) (n1.toNat + 1)).map (·.tid)
    let others := tids.filter (· != t.tid)
    (n1.toNat + 1 ≤ tids.length → ∃ s', exec (.bind h n1 a) s = .next s' ∧
      (((((e.updCore (coreIdx die core) fun x =>
          { x with forming := x.forming.filter fun f => !tids.contains f.tid }).updThreads others
            fun u => { u with status := .ready, pc := u.pc + 8 }).refreshAge others).formGroup t.ctx die core tids)).retires
              s' [t.tid]) ∧
    (tids.length < n1.toNat + 1 → ∃ s', exec (.bind h n1 a) s = .next s' ∧ e.parks s' t.tid .bind)) ∧
  ((∀ h, Collects (.unbind h) fun c e => onlyIf c.isWhole (e.endGroup c.g.gid)) ∧
  (∀ h code, Collects (.part h code) fun c e =>
    let n := c.g.members.length
    let t := if code = 0 then n else 2 ^ code.toNat
    onlyIf (c.isWhole && decide (t ≤ n) && n % t == 0) (e.updGroup c.g.gid fun g => { g with tile := t })) ∧
  (∀ h, Collects (.gbar h) fun c e => onlyIf c.isWhole e) ∧
  (∀ h scope, Collects (.gfence h scope) fun c e => onlyIf c.isWhole e))

/-- VOTE and SHFL over the tiles, GSHFL, SBCAST and SMOV over the whole group or fragment (R311 to R314). REDUCE and SCAN
(R315): every active rank receives the combination of the values of its tile, or of the positions up to its own; a rank whose
guards are false contributes the identity. -/
def Obligations.GroupCollectiveResults : Prop :=
  ((∀ h op neg pd d q, Collects (.vote h op neg pd d q) fun c e =>
    onlyIf c.isTiles (e.updRanks c.active fun r t =>
      let tile := c.active.filter fun p => p.1 / c.g.tile == r / c.g.tile
      let yes := (tile.filter fun p => p.2.pred q != neg).map (·.1)
      match op with
      | .every => t.setPred pd (yes.length == tile.length)
      | .some => t.setPred pd (yes.length != 0)
      | .mask => t.put d (yes.foldl (fun m i => m ||| ((1 : Word) <<< (i % c.g.tile))) 0) .i32
      | .count => t.put d (BitVec.ofNat 32 yes.length) .i32)) ∧
  (∀ h mode pd d a b, Collects (.shfl h mode pd d a b) fun c e =>
    onlyIf c.isTiles (e.updRanks c.active fun r t =>
      let p := shflPos mode c.g.tile (r % c.g.tile) (t.val b)
      let from' := (c.ranks.find? (·.1 == r / c.g.tile * c.g.tile + p.1)).map (·.2)
      let src := if mode = .xch ∧ !p.2 then some t else from'
      (t.setReg d.toNat ((src.map (·.reg a.toNat)).getD {})).setPred pd p.2)) ∧
  (∀ h d a b, Collects (.gshfl h d a b) fun c e =>
    onlyIf c.isWhole (e.updRanks c.active fun _ t =>
      t.setReg d.toNat (((c.rank? ((t.val b).toNat % 32 % c.g.members.length)).map (·.reg a.toNat)).getD {}))) ∧
  (∀ h d a n, Collects (.sbcast h false d a n) fun c e =>
    onlyIf (c.isWhole && decide (n.toNat < c.g.members.length)) (e.updRanks c.active fun _ t =>
      t.setReg d.toNat (((c.rank? n.toNat).map (·.reg a.toNat)).getD {}))) ∧
  (∀ h d a n, Collects (.sbcast h true d a n) fun c e =>
    onlyIf (c.isWhole && decide (n.toNat < c.g.members.length)) (e.updRanks c.active fun _ t =>
      (t.setReg d.toNat (((c.rank? n.toNat).map (·.reg a.toNat)).getD {})).setReg (d.toNat + 1)
        (((c.rank? n.toNat).map (·.reg (a.toNat + 1))).getD {}))) ∧
  (∀ h d r, Collects (.smovRead h d r) fun c e =>
    some (e.updRanks c.active fun _ t => t.setReg d.toNat (c.g.sreg r.toNat))) ∧
  (∀ h r a n, Collects (.smovWrite h r a n) fun c e =>
    onlyIf (c.isWhole && decide (n.toNat < c.g.members.length))
      (match c.active.find? (·.1 == n.toNat) with
      | none => e
      | some p => e.updGroup c.g.gid fun g => { g with sregs := g.sregs.set r.toNat (p.2.reg a.toNat) }))) ∧
  ((∀ h op d a, Collects (.reduce h op d a) fun c e =>
    onlyIf (c.isTiles && (!redFloat op || c.active.all fun p => p.2.tag a == .f32 || p.2.tag a == .raw))
      (e.updRanks c.active fun r t =>
        t.put d (redWords op ((List.range c.g.tile).map fun i =>
          match c.active.find? (·.1 == r / c.g.tile * c.g.tile + i) with
          | some p => p.2.val a
          | none => redIdentity op)) (if redFloat op then .f32 else .i32))) ∧
  (∀ h op excl d a, Collects (.scan h op excl d a) fun c e =>
    onlyIf (c.isTiles && (!redFloat op || c.active.all fun p => p.2.tag a == .f32 || p.2.tag a == .raw))
      (e.updRanks c.active fun r t =>
        let n := if excl then r % c.g.tile else r % c.g.tile + 1
        t.put d (if n = 0 then redIdentity op else redWords op ((List.range n).map fun i =>
          match c.active.find? (·.1 == r / c.g.tile * c.g.tile + i) with
          | some p => p.2.val a
          | none => redIdentity op)) (if redFloat op then .f32 else .i32))))

/-! ## Control flow (10) -/

/-- YIELD changes nothing but the course; BRA, BRX, CALL, CALLX and RET go to their targets, and a fragment whose threads
part divides (R42, R43, R263 to R266). The spill area of the return stack (R265, R266): with eight entries on chip CALL
spills the oldest, and RET reads the last entry back when none is left on chip, each at an address that is aligned or else
raises MISALIGNED; so do CALL, CALLX and RET as they are executed. -/
def Obligations.BranchAndReturnResults : Prop :=
  ((∀ h, Runs (.yield h) id) ∧
  (∀ h imm, Flows (.bra h imm) fun t s =>
    let pc := t.pc + 8 * imm.signExtend 64
    if pc.toNat % 8 = 0 ∧ canonical pc then some (s, pc) else none) ∧
  (∀ h a, Flows (.brx h a) fun t s =>
    if (t.pair a).toNat % 8 = 0 ∧ canonical (t.pair a) then some (s, t.pair a) else none) ∧
  (∀ h imm, Flows (.call h imm) fun t s =>
    let pc := t.pc + 8 * imm.signExtend 64
    if pc.toNat % 8 = 0 ∧ canonical pc ∧ t.rstack.length < 8 then
      some (s.updThread t.tid fun t => { t with rstack := (t.pc + 8) :: t.rstack }, pc)
    else none) ∧
  (∀ h a, Flows (.callx h a) fun t s =>
    if (t.pair a).toNat % 8 = 0 ∧ canonical (t.pair a) ∧ t.rstack.length < 8 then
      some (s.updThread t.tid fun t => { t with rstack := (t.pc + 8) :: t.rstack }, t.pair a)
    else none) ∧
  (∀ h, Flows (.ret h) fun t s =>
    match t.rstack with
    | pc :: rest =>
      if pc.toNat % 8 = 0 ∧ canonical pc then some (s.updThread t.tid fun t => { t with rstack := rest }, pc) else none
    | [] => none)) ∧
  ((∀ (s : State) (t : Thread) ret e, 8 ≤ t.rstack.length → t.spilled ≠ t.spillBytes / 8 →
    (t.spillAddr t.spilled).toNat % 8 = 0 →
    s.localStore t (t.tlsBytes + 8 * t.spilled) (natLe 8 (t.rstack.getLastD 0).toNat) = .ok e →
    s.pushReturn t ret = .ok (e.updThread t.tid fun t =>
      { t with rstack := ret :: t.rstack.dropLast, spilled := t.spilled + 1 })) ∧
  (∀ (s : State) (t : Thread) ret, 8 ≤ t.rstack.length → t.spilled = t.spillBytes / 8 →
    s.pushReturn t ret = .error (.trap { cause := 0x0D, detail0 := 0 })) ∧
  (∀ (t : Thread) n, t.spillAddr n = BitVec.ofNat 64 (t.tlsBytes + 8 * n) + if t.section_.isSome then 0 else t.tlsBase) ∧
  (∀ (s : State) (t : Thread) ret, 8 ≤ t.rstack.length → t.spilled ≠ t.spillBytes / 8 →
    (t.spillAddr t.spilled).toNat % 8 ≠ 0 →
    s.pushReturn t ret = .error (.trap { cause := 0x04, faddr := t.spillAddr t.spilled, acc := .write })) ∧
  (∀ (s : State) (t : Thread), t.rstack = [] → t.spilled ≠ 0 → (t.spillAddr (t.spilled - 1)).toNat % 8 ≠ 0 →
    s.popReturn t = .error (.trap { cause := 0x04, faddr := t.spillAddr (t.spilled - 1) })) ∧
  (∀ (s : State) (t : Thread) l, t.rstack = [] → t.spilled ≠ 0 → (t.spillAddr (t.spilled - 1)).toNat % 8 = 0 →
    s.localLoad t (t.tlsBytes + 8 * (t.spilled - 1)) 8 0 false = .ok l →
    s.popReturn t = .ok (BitVec.ofNat 64 (leNat l), { t with spilled := t.spilled - 1 })) ∧
  (∀ (s : State) (t : Thread), t.rstack = [] → t.spilled = 0 →
    s.popReturn t = .error (.trap { cause := 0x0D, detail0 := 1 })) ∧
  (∀ h imm, Flows (.call h imm) fun t s =>
    let pc := t.pc + 8 * imm.signExtend 64
    if pc.toNat % 8 = 0 ∧ canonical pc then (okOf (s.pushReturn t (t.pc + 8))).map fun e => (e, pc) else none) ∧
  (∀ h a, Flows (.callx h a) fun t s =>
    if (t.pair a).toNat % 8 = 0 ∧ canonical (t.pair a) then (okOf (s.pushReturn t (t.pc + 8))).map fun e => (e, t.pair a)
    else none) ∧
  (∀ h, Flows (.ret h) fun t s =>
    match s.popReturn t with
    | .ok (pc, u) =>
      if pc.toNat % 8 = 0 ∧ canonical pc then
        some ((if t.rstack = [] then s.localFill t (t.tlsBytes + 8 * (t.spilled - 1)) else s).updThread t.tid fun _ => u, pc)
      else none
    | .error _ => none))

/-- EXIT with no result and no copy of its own open (R41, R268), of a free thread and of a fragment of a bound group: each thread
leaves the machine; a thread that was the last of its task ends the task, whose future takes the result, whose rings and
allocation are released and whose adoption ends; the ranks that remain stay bound, and a group ends with its last thread.
MSET and MEET (R44, R45, R269): NOPs in a free thread; MSET pushes its target and the fragment's mask; MEET is a NOP where no
entry names its address, and parks its fragment at the topmost entry that does. -/
def Obligations.ExitAndMergeResults : Prop :=
  (∀ h (s : State) (t : Thread), s.cur = .thread t.tid → s.issues (.exit h) [t.tid] = true →
    (s.landed (.exit h) [t.tid]).thread? t.tid = some t → t.guards h = true → (∀ p ∈ t.pend, p.known = true) →
    (∀ l ∈ s.ldas, l.tid ≠ t.tid) →
    let e := (s.landed (.exit h) [t.tid]).exitThread t.commitAll
    let m := match t.place.coreIdx? with
      | some k => e.tallyCore k 0x004 1
      | none => e
    exec (.exit h) s = .next (({ m with tick := m.tick + 1 } : State).endAdoptions) ∧ e.thread? t.tid = none) ∧
  (∀ h (s : State) gid fid first rest t0, s.cur = .frag gid fid → s.issues (.exit h) (first :: rest) = true →
    s.acting (.exit h) (first :: rest) = first :: rest → s.thread? first = some t0 →
    (∀ j ∈ first :: rest, ∀ t, s.thread? j = some t → ∀ p ∈ t.pend, p.known = true) →
    (∀ l ∈ s.ldas, l.tid ∉ first :: rest) →
    let go := fun (e : State) j => match e.thread? j with
      | some t => e.exitThread t.commitAll
      | none => e
    let e := (first :: rest).foldl go (s.landed (.exit h) (first :: rest))
    let m := match t0.place.coreIdx? with
      | some k => e.tallyCore k 0x004 (rest.length + 1)
      | none => e
    exec (.exit h) s = .next (((m.split gid fid (t0.pc + 8)).issued none (first :: rest)).parkCheck (first :: rest))) ∧
  (∀ (s : State) t j, ((s.exitThread t).thread? j).isSome = true → (s.thread? j).isSome = true ∧ j ≠ t.tid) ∧
  (∀ (s : State) (t u : Thread) j, s.thread? j = some u → j ≠ t.tid → u.task ≠ t.task → ((s.exitThread t).thread? j).isSome = true) ∧
  (∀ (s : State) (t : Thread), (∀ u ∈ s.threads, u.task = t.task → u.tid = t.tid) → (s.exitThread t).task? t.task = none) ∧
  (∀ (s : State) id k d c, s.task? id = some k → (∀ u ∈ s.threads, u.task ≠ id) → k.set = none → k.rfb = none → k.owned = [] →
    k.loc = .core d c →
    let v := if k.kind = .gang then 0 else k.result
    let e := (s.fulfil k.ctx k.fut 1 (loWord v) (hiWord v) 0 (k.handle.toNat / 2 ^ 29) (k.handle.toNat / 2 ^ 23 % 64)
      k.handle).workEnded k.launch
    let e := ({ e with tasks := e.tasks.filter (·.id != id) } : State).failRingCopies id
    s.endTask id none = (((e.updCore (coreIdx d c) fun x =>
      { x with rings := x.rings.map fun r => if r.owner = some id then {} else r
               allocs := x.allocs.map fun a => if a.task = id then { a with ended := true } else a }).sweepAllocs
      (coreIdx d c)).restoreFrames k.adoptedBy false)) ∧
  (∀ (s : State) (t : Thread) gid r g, s.thread? t.tid = some t → t.member = some (gid, r) → s.group? gid = some g →
    let m : BitVec 32 := g.exited ||| 1 <<< r
    (BitVec.ofNat 32 (2 ^ g.members.length - 1) &&& ~~~m = 0 → (s.dropThread t.tid).group? gid = none) ∧
    (BitVec.ofNat 32 (2 ^ g.members.length - 1) &&& ~~~m ≠ 0 → ∃ g', (s.dropThread t.tid).group? gid = some g' ∧
      g'.exited = m ∧ g'.members = g.members ∧ g'.tile = g.tile ∧ g'.sregs = g.sregs)) ∧
  ((∀ h imm, ∀ i ∈ [Instr.mset h imm, .meet h], ∀ (s : State) j, s.cur = .thread j → s.issues i [j] = true →
    ∃ s', exec i s = .next s' ∧ (s.landed i [j]).retires s' [j]) ∧
  (∀ h imm, Collects (.mset h imm) fun c e =>
    if c.g.merge.length < 32 then
      some (e.updGroup c.g.gid fun g =>
        { g with merge := g.merge ++ [{ pc := c.pc + 8 * imm.signExtend 64, mask := c.f.mask }] })
    else none) ∧
  (∀ h, Collects (.meet h) fun c e => if (c.g.merge.any fun m => m.pc == c.pc) then none else some e) ∧
  (∀ h (s : State) tids c k, s.issues (.meet h) tids = true → s.coll (.meet h) tids = some c →
    s.acting (.meet h) tids ≠ [] → mergeAt c.g.merge c.pc = some k →
    exec (.meet h) s = .next (((((((s.landed (.meet h) tids).updGroup c.g.gid fun g => g.arrive c.f k).updThreads
      (c.g.threadsOf c.f.mask) fun t => { t with status := .parked .meet }).settle c.g.gid).tallyIssue tids).issued
        none tids).endAdoptions)) ∧
  (∀ (l : List Merge) pc k, mergeAt l pc = some k →
    (∃ m, l[k]? = some m ∧ m.pc = pc) ∧ ∀ j m, k < j → l[j]? = some m → m.pc ≠ pc))

/-! ## Memory, tasks and objects (11) -/

/-- LD, LDS and LDL (R273): the bytes at the address, low byte first, in the registers of the span with the tags of the size;
memory stays, and what a load leaves in the caches changes nothing but the caches and the counts of fills (R84, R443). A load
sees memory, or the byte that the L1 of its core took up before memory changed behind the L2 (R84, R87, R396). -/
def Obligations.LoadResults : Prop :=
  (∀ h sz ord scope d a off, Does (.ld h sz ord scope d a off) fun t s =>
    let va := t.pair a + off.signExtend 64 * BitVec.ofNat 64 sz.bytes
    if va.toNat % sz.bytes ≠ 0 then none
    else match s.dataLoad t va sz.bytes h.ch.toNat with
      | .ok l => some ((s.loadFill t va h.ch.toNat).updThread t.tid fun t =>
          t.putLong h.la d.toNat (regsOf (leNat l) (sizeTags sz)))
      | .error _ => none) ∧
  (∀ (s : State) (t : Thread) va n ch key, s.locate t.ctx va .read true = .ok (.mem key) → s.bpHit t.ctx va n [3] = none →
    s.unreadAt t va n = false → s.poisoned key n = false → s.dataLoad t va n ch = .ok (s.threadBytes t key n ch) ∧
      (s.threadBytes t key n ch).length = n ∧
      ∀ i < n, (s.threadBytes t key n ch).getD i 0 =
        (if ch = 3 then s.byte (key + i)
         else match t.l1? with
          | some k => ((s.l1Old.find? fun x => x.1 == k && x.2.1 == key + i).map (·.2.2)).getD (s.byte (key + i))
          | none => s.byte (key + i))) ∧
  (∀ (s : State) (t : Thread) va off ch, ∀ e ∈ [s.loadFill t va ch, s.localFill t off ch], e = { s with
    l1 := e.l1, l1Old := e.l1Old, l2 := e.l2, lcL2 := e.lcL2, home := e.home, counts := e.counts
    windowCounts := e.windowCounts, dieCounters := e.dieCounters, cores := e.cores }) ∧
  (∀ h sz ord scope d a off, Does (.lds h sz ord scope d a off) fun t s =>
    let o := t.val a + off.signExtend 32 * BitVec.ofNat 32 sz.bytes
    let al := s.allocOf t
    if o.toNat % sz.bytes = 0 ∧ o.toNat + sz.bytes ≤ al.2.2 then
      some (s.updThread t.tid fun t => t.putLong h.la d.toNat
        (regsOf (leNat (takeBytes s.scratch (al.1 * 2 ^ 18 + al.2.1 + o.toNat) sz.bytes)) (sizeTags sz)))
    else none) ∧
  (∀ h sz ord scope d a off, Does (.ldl h sz ord scope d a off) fun t s =>
    let o := t.val a + off.signExtend 32 * BitVec.ofNat 32 sz.bytes
    if o.toNat % sz.bytes = 0 ∧ o.toNat + sz.bytes ≤ t.localBytes then
      match s.localLoad t o.toNat sz.bytes h.ch.toNat with
      | .ok l => some ((s.localFill t o.toNat h.ch.toNat).updThread t.tid fun t =>
          t.putLong h.la d.toNat (regsOf (leNat l) (sizeTags sz)))
      | .error _ => none
    else none) ∧
  (∀ (l : List Byte) tags k i, k < tags.length → i < 4 →
    (((regsOf (leNat l) tags).getD k {}).val >>> (8 * i)).setWidth 8 = l.getD (4 * k + i) 0)

/-- ST, STS and STL (R273): the bytes of the span, low byte first, at the address, and no other byte of memory or of a scratchpad;
no register changes. ST changes the bytes of its size at its address and no other byte of memory, no scratchpad and no register;
LD changes no byte of memory. -/
def Obligations.StoreResultsAndFrame : Prop :=
  ((∀ h sz ord scope a b off, Does (.st h sz ord scope a b off) fun t s =>
    let va := t.pair a + off.signExtend 64 * BitVec.ofNat 64 sz.bytes
    if va.toNat % sz.bytes ≠ 0 then none
    else match s.storeTarget t va sz.bytes true with
      | .ok (.mem key) => some (s.threadStore t key (storeBytes t b sz) h.ch.toNat)
      | .ok (.kick k) => some (s.kick (k / 8) (BitVec.ofNat 32 (leNat (storeBytes t b sz))))
      | _ => none) ∧
  (∀ (s : State) (t : Thread) va n key, s.locate t.ctx va .write true = .ok (.mem key) →
    s.bpHit t.ctx va n [2, 3] = none → s.unreadAt t va n = false → s.storeTarget t va n true = .ok (.mem key)) ∧
  (∀ h sz ord scope a b off, Does (.sts h sz ord scope a b off) fun t s =>
    let o := t.val a + off.signExtend 32 * BitVec.ofNat 32 sz.bytes
    let al := s.allocOf t
    if o.toNat % sz.bytes = 0 ∧ o.toNat + sz.bytes ≤ al.2.2 then
      some (s.putScratch (al.1 * 2 ^ 18 + al.2.1 + o.toNat) (storeBytes t b sz))
    else none) ∧
  (∀ h sz ord scope a b off, Does (.stl h sz ord scope a b off) fun t s =>
    let o := t.val a + off.signExtend 32 * BitVec.ofNat 32 sz.bytes
    if o.toNat % sz.bytes = 0 ∧ o.toNat + sz.bytes ≤ t.localBytes then
      match s.localStore t o.toNat (storeBytes t b sz) h.ch.toNat with
      | .ok e => some e
      | .error _ => none
    else none) ∧
  (∀ (t : Thread) b (sz : MSize), (storeBytes t b sz).length = sz.bytes ∧ ∀ i, i < sz.bytes →
    (storeBytes t b sz).getD i 0 = ((t.reg (b.toNat + i / 4)).val >>> (8 * (i % 4))).setWidth 8) ∧
  (∀ (s : State) key (l : List Byte) x, s.Inv → (s.putScratch key l).mem = s.mem ∧ (s.putScratch key l).scratch.get 0 x =
    if key ≤ x ∧ x < key + l.length then l.getD (x - key) 0 else s.scratch.get 0 x) ∧
  (∀ (s e : State) (t : Thread) off l ch x, s.Inv → s.localStore t off l ch = .ok e → e.scratch = s.scratch ∧
    (∀ c, t.place = .lc c → e.byte x =
      (let key := s.sectionStack t.ctx c + off
       if key ≤ x ∧ x < key + l.length then l.getD (x - key) 0 else s.byte x)) ∧
    (∀ key, (∀ c, t.place ≠ .lc c) → s.storeTarget t (t.tlsBase + BitVec.ofNat 64 off) l.length false = .ok (.mem key) →
      e.byte x = if key ≤ x ∧ x < key + l.length then l.getD (x - key) 0 else s.byte x)) ∧
  (∀ (s : State) (t : Thread) off l ch, (∀ c, t.place ≠ .lc c) → (∀ key,
    s.storeTarget t (t.tlsBase + BitVec.ofNat 64 off) l.length false ≠ .ok (.mem key)) → ∀ e, s.localStore t off l ch ≠ .ok e)) ∧
  ((∀ h sz ord scope a b off (s : State) (t : Thread) key, s.Inv → s.cur = .thread t.tid →
    s.issues (.st h sz ord scope a b off) [t.tid] = true →
    (s.landed (.st h sz ord scope a b off) [t.tid]).thread? t.tid = some t → t.guards h = true →
    (globalAddr t a off sz.bytes).toNat % sz.bytes = 0 →
    s.storeTarget t (globalAddr t a off sz.bytes) sz.bytes true = .ok (.mem key) →
    ∃ s' u, exec (.st h sz ord scope a b off) s = .next s' ∧ s'.thread? t.tid = some u ∧
      u.regs = t.regs ∧ u.preds = t.preds ∧ u.pc = t.pc + 8 ∧ s'.scratch = s.scratch ∧ s'.cells = s.cells ∧
      (∀ k, k ≠ t.tid → s'.thread? k = s.thread? k) ∧
      ∀ x, s'.byte x = if key ≤ x ∧ x < key + sz.bytes then (storeBytes t b sz).getD (x - key) 0 else s.byte x) ∧
  (∀ h sz ord scope d a off (s : State) (t : Thread) l, s.cur = .thread t.tid →
    s.issues (.ld h sz ord scope d a off) [t.tid] = true →
    (s.landed (.ld h sz ord scope d a off) [t.tid]).thread? t.tid = some t → t.guards h = true →
    (globalAddr t a off sz.bytes).toNat % sz.bytes = 0 →
    s.dataLoad t (globalAddr t a off sz.bytes) sz.bytes h.ch.toNat = .ok l →
    ∃ s', exec (.ld h sz ord scope d a off) s = .next s' ∧ s'.mem = s.mem ∧ s'.scratch = s.scratch ∧
      s'.cells = s.cells ∧ ∀ k, k ≠ t.tid → s'.thread? k = s.thread? k))

/-- ATOM and RED, global and scratchpad (R277, R278): the old value goes to the span of ATOM's destination, and the new value
to memory. Each completes for every thread, operand and state with an aligned address in memory or in the allocation, and,
where the operation is on floats, an operand with its tag. -/
def Obligations.AtomicResults : Prop :=
  let typed := fun (t : Thread) (op : AtomOp) (sz : MSize) (b : GReg) =>
    (op = .fadd ∨ op = .fmin ∨ op = .fmax) →
      if sz = .f64 then t.readsF64 b else t.reads b.toNat ((sizeTags sz).headD .raw)
  let fresh := fun (t : Thread) (op : AtomOp) (sz : MSize) (b : GReg) (old : Nat) =>
    natLe sz.bytes (atomNew op sz old (atomOperands t op sz b).1 (atomOperands t op sz b).2)
  (∀ h op sz ord scope d a b (s : State) (t : Thread) key,
    ∀ x ∈ [(Instr.atom h op sz ord scope d a b, true), (.red h op sz ord scope a b, false)],
    s.cur = .thread t.tid → s.issues x.1 [t.tid] = true → (s.landed x.1 [t.tid]).thread? t.tid = some t →
    t.guards h = true → typed t op sz b → (t.pair a).toNat % sz.bytes = 0 →
    s.locate t.ctx (t.pair a) .rmw true = .ok (.mem key) → s.bpHit t.ctx (t.pair a) sz.bytes [2, 3] = none →
    s.unreadAt t (t.pair a) sz.bytes = false → s.poisoned key sz.bytes = false →
    let old := leNat (s.bytes key sz.bytes)
    let m := (s.landed x.1 [t.tid]).putMemAs (some t.ctx) (l2Keep h.ch.toNat) key (fresh t op sz b old)
    ∃ s', exec x.1 s = .next s' ∧
      (if x.2 then m.updThread t.tid fun t => t.putLong h.la d.toNat (regsOf old (atomTags op sz)) else m).retires s' [t.tid]) ∧
  (∀ h op sz ord scope d a b (s : State) (t : Thread),
    ∀ x ∈ [(Instr.atomScratchpad h op sz ord scope d a b, true), (.redScratchpad h op sz ord scope a b, false)],
    s.cur = .thread t.tid → s.issues x.1 [t.tid] = true → (s.landed x.1 [t.tid]).thread? t.tid = some t →
    t.guards h = true → typed t op sz b → (t.val a).toNat % sz.bytes = 0 →
    (t.val a).toNat + sz.bytes ≤ (s.allocOf t).2.2 →
    let key := (s.allocOf t).1 * 2 ^ 18 + (s.allocOf t).2.1 + (t.val a).toNat
    let old := leNat (takeBytes s.scratch key sz.bytes)
    let m := (s.landed x.1 [t.tid]).putScratch key (fresh t op sz b old)
    ∃ s', exec x.1 s = .next s' ∧
      (if x.2 then m.updThread t.tid fun t => t.putLong h.la d.toNat (regsOf old (atomTags op sz)) else m).retires s' [t.tid]) ∧
  (∀ h op sz ord scope d a b, Does (.atom h op sz ord scope d a b) fun t s =>
    match s.atomGlobal t op sz a b h.ch.toNat with
    | .ok (old, e) => some (e.updThread t.tid fun t => t.putLong h.la d.toNat (regsOf old (atomTags op sz)))
    | .error _ => none) ∧
  (∀ h op sz ord scope a b, Does (.red h op sz ord scope a b) fun t s =>
    match s.atomGlobal t op sz a b h.ch.toNat with
    | .ok (_, e) => some e
    | .error _ => none) ∧
  (∀ (s : State) (t : Thread) op sz a b key ch, (op ≠ .fadd ∧ op ≠ .fmin ∧ op ≠ .fmax) → (t.pair a).toNat % sz.bytes = 0 →
    s.locate t.ctx (t.pair a) .rmw true = .ok (.mem key) → s.bpHit t.ctx (t.pair a) sz.bytes [2, 3] = none →
    s.unreadAt t (t.pair a) sz.bytes = false → s.poisoned key sz.bytes = false →
    let old := leNat (s.bytes key sz.bytes)
    let x := atomOperands t op sz b
    s.atomGlobal t op sz a b ch = .ok (old, s.putMemAs (some t.ctx) (l2Keep ch) key
      (natLe sz.bytes (atomNew op sz old x.1 x.2)))) ∧
  (∀ h op sz ord scope d a b, Does (.atomScratchpad h op sz ord scope d a b) fun t s =>
    match s.atomScratch t op sz a b with
    | .ok (old, e) => some (e.updThread t.tid fun t => t.putLong h.la d.toNat (regsOf old (atomTags op sz)))
    | .error _ => none) ∧
  (∀ h op sz ord scope a b, Does (.redScratchpad h op sz ord scope a b) fun t s =>
    match s.atomScratch t op sz a b with
    | .ok (_, e) => some e
    | .error _ => none) ∧
  (∀ (s : State) (t : Thread) op sz a b, (op ≠ .fadd ∧ op ≠ .fmin ∧ op ≠ .fmax) → (t.val a).toNat % sz.bytes = 0 →
    (t.val a).toNat + sz.bytes ≤ (s.allocOf t).2.2 →
    let key := (s.allocOf t).1 * 2 ^ 18 + (s.allocOf t).2.1 + (t.val a).toNat
    let old := leNat (takeBytes s.scratch key sz.bytes)
    let x := atomOperands t op sz b
    s.atomScratch t op sz a b = .ok (old, s.putScratch key (natLe sz.bytes (atomNew op sz old x.1 x.2)))) ∧
  (∀ sz old b cmp, atomNew .swap sz old b cmp = b ∧ atomNew .cas sz old b cmp = (if old = cmp then b else old) ∧
    atomNew .add sz old b cmp = (old + b) % 2 ^ (8 * sz.bytes)) ∧
  (∀ sz ∈ [MSize.b32, .b64], ∀ old b cmp : Nat, let w := 8 * sz.bytes
    old < 2 ^ w → b < 2 ^ w →
      atomNew .minu sz old b cmp = min old b ∧ atomNew .maxu sz old b cmp = max old b ∧
      atomNew .and sz old b cmp = old &&& b ∧ atomNew .or sz old b cmp = old ||| b ∧ atomNew .xor sz old b cmp = old ^^^ b ∧
      atomNew .min sz old b cmp < 2 ^ w ∧ atomNew .max sz old b cmp < 2 ^ w ∧
      (BitVec.ofNat w (atomNew .min sz old b cmp)).toInt = min (BitVec.ofNat w old).toInt (BitVec.ofNat w b).toInt ∧
      (BitVec.ofNat w (atomNew .max sz old b cmp)).toInt = max (BitVec.ofNat w old).toInt (BitVec.ofNat w b).toInt) ∧
  (∀ op f, (op, f) ∈ [(AtomOp.fadd, fun (x : FloatFmt) a b => (fAdd x .rn (x.decode a) (x.decode b)).1),
      (.fmin, fun x a b => (fMinMax x false a b).1), (.fmax, fun x a b => (fMinMax x true a b).1)] → ∀ cmp,
    (∀ old b, atomNew op .f32 old b cmp = f Fmt.f32.float old b ∧ atomNew op .f64 old b cmp = f Fmt.f64.float old b) ∧
    ∀ lo hi lo' hi', lo < 2 ^ 16 → lo' < 2 ^ 16 →
      atomNew op .bf16x2 (lo + 2 ^ 16 * hi) (lo' + 2 ^ 16 * hi') cmp =
        f Fmt.bf16.float lo lo' + 2 ^ 16 * f Fmt.bf16.float hi hi' ∧
      atomNew op .f16x2 (lo + 2 ^ 16 * hi) (lo' + 2 ^ 16 * hi') cmp =
        f Fmt.f16.float lo lo' + 2 ^ 16 * f Fmt.f16.float hi hi')

/-- LDA, WTAG, the fences and the cache operations (R275, R276, R279, R280): LDA issues a copy, which reads its source then,
where it can be read, and lands later (R106, R124); WTAG goes on once its tag is at its limit and none of its copies has
failed; PREF takes its extent up, and CWB and CINV act on the sectors of their extent. -/
def Obligations.CopyFenceCacheResults : Prop :=
  (∀ h sz tag d a b, Does (.lda h sz tag d a b) fun t s =>
    let n := sz.bytes
    let off := (t.val d).toNat
    let al := s.allocOf t
    if off % n = 0 ∧ (t.pair a).toNat % n = 0 ∧ off + n ≤ al.2.2 ∧ (t.val b = 0 ∨ canonical (t.pair a) = true) ∧
        (min (t.val b).toNat n = 0 ∨ s.bpHit t.ctx (t.pair a) (min (t.val b).toNat n) [3] = none) ∧
        s.unreadAt t (t.pair a) (min (t.val b).toNat n) = false ∧ s.tagCount t.tid tag.toNat < 63 then
      let c : LdaCopy :=
        { id := s.nextId, seq := s.tick, tid := t.tid, ctx := t.ctx, tag := tag.toNat
          dst := al.1 * 2 ^ 18 + al.2.1 + off, size := n, src := t.pair a, n := min (t.val b).toNat n, ch := h.ch.toNat }
      let m := match t.place.coreIdx? with
        | some k => s.tallyCore k 0x031 1
        | none => s
      some (({ m with nextId := s.nextId + 1, tick := s.tick + 1 } : State).issueCopy t.l1? c)
    else none) ∧
  (∀ (s : State) k (c : LdaCopy), let e := s.issueCopy k c
    e = { s with ldas := e.ldas, l1 := e.l1, l1Old := e.l1Old, l2 := e.l2, lcL2 := e.lcL2, home := e.home, counts := e.counts
                 windowCounts := e.windowCounts, dieCounters := e.dieCounters } ∧
    e.ldas = s.ldas ++ [{ c with got := match s.copySource c with
                                    | .ok l => some l
                                    | .error _ => none }]) ∧
  (∀ (s : State) (c : LdaCopy) key, c.n ≠ 0 → s.locate c.ctx c.src .read true = .ok (.mem key) → s.poisoned key c.n = false →
    s.copySource c = .ok (s.bytes key c.n)) ∧
  (∀ (s : State) (c : LdaCopy) l, (s.ldas.find? fun x => x.id == c.id && x.failed.isNone) = some c →
    c.got = some l ∨ c.got = none ∧ s.copySource c = .ok l →
    let image := l ++ List.replicate (c.size - l.length) 0
    let e := (s.lookLate c).readLate c
    let m := if c.parts = [] then e.putScratch c.dst image
      else ((List.range ((c.size + 7) / 8)).filter fun p => !c.parts.contains p).foldl
        (fun s p => s.putScratch (c.dst + 8 * p) ((image.drop (8 * p)).take 8)) e
    exec (.ldaLand c.id) s = .next ((({ m with
      ldas := s.ldas.filter (·.id != c.id) } : State).sweepAllocs (c.dst / 2 ^ 18)).endAdoptions)) ∧
  (∀ (s : State) (c : LdaCopy), let e := (s.lookLate c).readLate c
    e = { s with l1 := e.l1, l1Old := e.l1Old, l2 := e.l2, lcL2 := e.lcL2, home := e.home, counts := e.counts
                 windowCounts := e.windowCounts, dieCounters := e.dieCounters, cores := e.cores } ∧
    (c.got.isSome = true → e = s)) ∧
  (∀ h g m, Does (.wtag h g m) fun t s =>
    if s.tagCount t.tid g.toNat ≤ m.toNat ∧
        (∀ l ∈ s.ldas, ¬(l.tid = t.tid ∧ l.tag = g.toNat ∧ l.failed.isSome = true)) then some s else none) ∧
  (∀ h ord scope, Runs (.fence h ord scope) id) ∧
  (∀ h line a off, Does (.pref h line a off) fun t s => some
    (match t.l1? with
    | some k => (s.extentSectors t a off line).foldl (fun s x => s.readSector k x h.ch.toNat) s
    | none => s)) ∧
  (∀ (s : State) k x ch, let e := s.readSector k x ch
    e.l1Holds k x = decide (ch ≠ 3) ∧
    (ch = 3 ∨ s.cacheHolds k x = false → homeDie x = cacheDie k ∨ (∀ y ∈ s.l2, ¬(y.die = cacheDie k ∧ y.sector = x)) →
      e.homeHolds x = true) ∧
    e = { s with l1 := e.l1, l1Old := e.l1Old, l2 := e.l2, lcL2 := e.lcL2, home := e.home, counts := e.counts
                 windowCounts := e.windowCounts, dieCounters := e.dieCounters, cores := e.cores }) ∧
  (∀ h line a off, Does (.cwb h line a off) fun t s => some (s.writeBack (s.extentSectors t a off line))) ∧
  (∀ h line a off, Does (.cinv h line a off) fun t s =>
    some (((s.threadDrop t (s.extentSectors t a off line)).writeBack (s.extentSectors t a off line)).dropSectors
      (s.extentSectors t a off line))) ∧
  (∀ (s : State) (t : Thread) l k x, t.l1? = some k → x ∈ l →
    (((s.threadDrop t l).writeBack l).dropSectors l).l1Holds k x = false) ∧
  (∀ (s : State) l, (s.writeBack l).mem = s.mem ∧ ∀ x, x ∈ (s.writeBack l).dirty ↔ x ∈ s.dirty ∧ x ∉ l)

/-- SPAWN (R281): the record of a task goes to its place and the predicate says so; the future, unless NF, names the record
as its owner. The thread of a task of bind size 1 at its start (R30): its arguments in its first registers and 0 in the
others, tagged RAW; false predicates, an empty return stack, state U and its kernel's entry. -/
def Obligations.SpawnAndTaskStart : Prop :=
  ((∀ h nf pd a b c, Does (.spawn h nf pd a b c) fun t s =>
    let fut := if nf then 0 else t.pair c
    if (t.pair a).toNat % 8 = 0 ∧ fut.toNat % 16 = 0 ∧ canonical (t.pair a) = true ∧ canonical fut = true then
      match s.readHdr t.ctx (t.pair a), (if nf then .ok 0 else s.key t.ctx fut .write) with
      | .ok (some hdr), .ok key =>
        if hdr.gang then none
        else
          let n := ((s.ctx? t.ctx).map (·.nextRec)).getD 0
          let r : QRec :=
            { num := n, ctx := t.ctx, prio := t.prio, entry := t.pair a, args := t.span b 4, fut, hdr
              owned := if nf then [] else [fut] }
          let m := s.updCtx t.ctx fun x => { x with nextRec := (x.nextRec + 1) % 2 ^ 21 }
          match (if nf then m else m.dropOwned t.ctx fut key).placeSpawn (t.place.coreIdx?.getD 0) r with
          | some (e, p) =>
            some ((if nf then e else e.putMem (key + 8) (natLe 4 (p.handle n).toNat)).updThread t.tid fun t => t.setPred pd true)
          | none =>
            some ((match t.place.coreIdx? with
              | some k => s.tallyCore k 0x043 1
              | none => s).updThread t.tid fun t => t.setPred pd false)
      | _, _ => none
    else none) ∧
  (∀ (s : State) k r, (s.core k).stopping = false → (s.core k).queue.length < 1024 → (s.core k).spill = [] →
    s.placeSpawn k r = some (s.updCore k fun c => { c with queue := c.queue ++ [r] }, .queue k)) ∧
  (∀ (s : State) k r, (s.core k).stopping = false → 1024 ≤ (s.core k).queue.length ∨ (s.core k).spill ≠ [] →
    ((s.ctx? r.ctx).map (·.spillrec)).getD 0 ≤ (s.core k).spill.length → s.placeSpawn k r = none)) ∧
  (∀ (s e : State) k r idx at' depth waiters, r.hdr.gang = false → r.hdr.bind = 1 → s.start k r idx [at'] depth waiters = some e →
    ∃ t ∈ e.threads, t.tid = s.nextId + 1 ∧
      t.pc = r.entry ∧ t.regs.length = r.hdr.regs ∧ t.preds = 0 ∧ t.rstack = [] ∧ t.spilled = 0 ∧ t.priv = .u ∧ t.status = .ready ∧
      t.member = none ∧ t.ctx = r.ctx ∧ t.place = .core (k / 64) (k % 64) at'.1 at'.2 ∧
      (∀ i, i < r.hdr.regs → t.regs[i]? = some { val := r.args.getD i 0, tag := .raw }) ∧
      t.handler = if r.hdr.hasTrap then some (r.entry + r.hdr.trapOff.signExtend 64) else none)

/-- WAIT and FSET (R282 to R284): WAIT on a future that is not EMPTY gives its value and its status, one that has timed out or
whose adopted owner was saved Trapped gives its status and zeros (R68, R77), and a WAIT of one thread on an EMPTY future parks, or
adopts the owner's record where R72 lets it; FSET changes an EMPTY future once, and its predicate says whether it did. That FSET
leaves bits [31:2] of word 3, the chain of waiters, as memory holds them is the model's choice (log 26). FNEW (R285) leaves an
EMPTY future that its task owns, or nobody. -/
def Obligations.FutureObjectResults : Prop :=
  ((∀ h scope d a b off, Does (.wait h scope d a b off) fun t s =>
    let va := t.pair a + off.signExtend 64 * 16
    if va.toNat % 16 = 0 ∧ t.ownerFaulted = false ∧ s.unreadAt t va 16 = false then
      match s.key t.ctx va .read with
      | .ok key =>
        let x := s.num key 16
        let st := x / 2 ^ 96 % 4
        if s.poisoned key 16 ∨ st = 0 ∨ (st = 2 ∧ x % 256 = 0x12) then none
        else some (s.updThread t.tid fun t =>
          (t.putSpan d.toNat [{ val := BitVec.ofNat 32 x }, { val := BitVec.ofNat 32 (x / 2 ^ 32) },
            { val := BitVec.ofNat 32 (st - 1), tag := .i32 }, { val := 0, tag := .i32 }]).waitEnds)
      | .error _ => none
    else none) ∧
  (∀ h scope d a b off, Does (.wait h scope d a b off) fun t s =>
    let va := t.pair a + off.signExtend 64 * 16
    let zeros := fun (st : Word) => s.updThread t.tid fun t =>
      (t.putSpan d.toNat [{ val := 0 }, { val := 0 }, { val := st, tag := .i32 }, { val := 0, tag := .i32 }]).waitEnds
    if va.toNat % 16 ≠ 0 then none
    else if t.ownerFaulted = true then some (zeros 3)
    else
      match s.key t.ctx va .read with
      | .ok key =>
        if s.unreadAt t va 16 = true ∨ s.poisoned key 16 = true ∨ s.num key 16 / 2 ^ 96 % 4 ≠ 0 ∨ t.timedOut = false then none
        else some (zeros 4)
      | .error _ => none) ∧
  (∀ (t : Thread), t.waitEnds = { t with waitStart := none, timedOut := false, ownerFaulted := false }) ∧
  (∀ (s : State) tids, (∀ e, s.tryAdopt tids = some e → s.parkCheck tids = e) ∧
    (s.tryAdopt tids = none → s.parkCheck tids = s.endAdoptions)) ∧
  (∀ (s : State) (t : Thread) va limit d c l k key p r e, s.thread? t.tid = some t → t.status = .parked (.future va limit) →
    t.member = none → t.place = .core d c l k → s.key t.ctx va .read = .ok key → s.num (key + 12) 4 % 4 = 0 →
    s.findOwner t.ctx (BitVec.ofNat 32 (s.num (key + 8) 4)) = some (.record p r) →
    let depth := ((s.task? t.task).map (·.adopt)).getD 0
    r.kind ≠ .gang → r.hdr.bind = 1 → r.hdr.regs ≤ t.regs.length → r.hdr.regs ≤ 255 → depth < 4 →
    (s.toFrames [t.tid]).startFrom p r (coreIdx d c) [(l, k)] true (depth + 1) [t.tid] = some e →
    s.tryAdopt [t.tid] = some (e.tallyCore (coreIdx d c) 0x042 1)) ∧
  (∀ h scope d a b off (s : State) (t : Thread) key, s.cur = .thread t.tid →
    s.issues (.wait h scope d a b off) [t.tid] = true →
    (s.landed (.wait h scope d a b off) [t.tid]).thread? t.tid = some t → t.guards h = true → t.ownerFaulted = false →
    t.timedOut = false → t.waitStart = none → (∀ p ∈ t.pend, p.known = true) →
    let va := t.pair a + off.signExtend 64 * 16
    va.toNat % 16 = 0 → s.unreadAt t va 16 = false → s.key t.ctx va .read = .ok key → s.poisoned key 16 = false →
    s.num key 16 / 2 ^ 96 % 4 = 0 →
    let us := (t.val b).toNat % 2 ^ 20
    exec (.wait h scope d a b off) s =
      .next ((((s.landed (.wait h scope d a b off) [t.tid]).updThread t.tid fun t =>
        { t with waitStart := some s.elapsed
                 status := .parked (.future va (if us = 0 then none else some (s.elapsed + 1000 * us))) }).parkCheck [t.tid]))) ∧
  (∀ h scope pd a b off, ∀ x ∈ [(Instr.fset h scope pd a b off, 1), (.fsetFault h scope pd a b off, 2),
      (.fsetCancel h scope pd a b off, 3)], Does x.1 fun t s =>
    let va := t.pair a + off.signExtend 64 * 16
    let w := if x.2 = 1 then ((t.reg b.toNat).val, (t.reg (b.toNat + 1)).val) else (5, t.val b)
    if va.toNat % 16 = 0 then
      match s.key t.ctx va .rmw with
      | .ok key =>
        if s.poisoned key 16 then none
        else if s.num (key + 12) 4 % 4 = 0 then
          some ((s.applyUpd t.ctx va key (.fulfil x.2 w.1 w.2)).updThread t.tid fun t => t.setPred pd true)
        else some (s.updThread t.tid fun t => t.setPred pd false)
      | .error _ => none
    else none) ∧
  (∀ (s : State) c va key st w0 w1, s.num (key + 12) 4 % 4 = 0 →
    s.applyUpd c va key (.fulfil st w0 w1) =
      (((s.putFor c key (natLe 4 w0.toNat ++ natLe 4 w1.toNat)).putFor c (key + 12)
        (natLe 4 (s.num (key + 12) 4 / 4 * 4 + st))).dropOwned c va key).futureDone c va key)) ∧
  ((∀ h a, Does (.fnew h true a) fun t s =>
    match s.newFuture t.ctx (t.pair a) with
    | .ok key =>
      if (t.pair a).toNat % 16 = 0 ∧ s.unreadAt t (t.pair a) 16 = false then
        some (s.putMem key (natLe 8 0 ++ natLe 4 0xFFFFFFFF ++ natLe 4 0))
      else none
    | .error _ => none) ∧
  (∀ h a, Does (.fnew h false a) fun t s =>
    match s.newFuture t.ctx (t.pair a) with
    | .ok key =>
      if (t.pair a).toNat % 16 = 0 ∧ s.unreadAt t (t.pair a) 16 = false then
        let o := s.claimOwned t (t.pair a)
        some (o.2.putMem key (natLe 8 0 ++ natLe 4 o.1.toNat ++ natLe 4 0))
      else none
    | .error _ => none) ∧
  (∀ (s : State) c va key, s.key c va .rmw = .ok key → s.poisoned key 16 = false →
    (s.futureState key ≠ 0 ∨ s.waitersAt key = false) → s.newFuture c va = .ok key) ∧
  (∀ (s : State) c va key, s.key c va .rmw = .ok key → s.poisoned key 16 = false → s.futureState key = 0 →
    s.waitersAt key = true → s.newFuture c va = .error (.trap { cause := 0x06, faddr := va, acc := .rmw })))

/-- JOIN, LEAVE, BAR, FSET.BIT and WAIT.BIT (R52 to R55, R286, R287). -/
def Obligations.MembershipResults : Prop :=
  (∀ h a, Does (.join h a) fun t s =>
    match s.groupObj t (t.pair a) .rmw with
    | .ok (key, x, g) =>
      if g.scope = 1 ∧ g.dieValid = true ∧ g.die ≠ t.place.die then none
      else
        some (s.putGroup key x { g with
          members := g.members + 1
          dieValid := g.dieValid || g.scope == 1
          die := if g.scope = 1 ∧ g.dieValid = false then t.place.die else g.die })
    | .error _ => none) ∧
  (∀ h a, Does (.leave h a) fun t s =>
    match s.groupObj t (t.pair a) .rmw with
    | .ok (key, x, g) =>
      if (g.scope = 1 ∧ g.dieValid = true ∧ g.die ≠ t.place.die) ∨ g.members = 0 then none
      else
        let last := g.members = 1
        let full := g.arrived ≠ 0 ∧ g.arrived = g.members - 1
        some (s.putGroup key x { g with
          members := g.members - 1
          arrived := if full then 0 else g.arrived
          gen := if full then g.gen + 1 else g.gen
          dieValid := if last then false else g.dieValid })
    | .error _ => none) ∧
  (∀ h a, Awaits (.bar h a) fun t s =>
    match s.groupObj t (t.pair a) .rmw with
    | .ok (key, x, g) =>
      if g.scope = 1 ∧ g.dieValid = true ∧ g.die ≠ t.place.die then none
      else
        let full := g.arrived + 1 = g.members
        some (s.putGroup key x { g with
          arrived := if full then 0 else g.arrived + 1
          gen := if full then g.gen + 1 else g.gen }, some (.parked (.barrier (t.pair a) g.gen)))
    | .error _ => none) ∧
  (∀ h a b, Does (.fsetBit h a b) fun t s =>
    match s.groupObj t (t.pair a) .read with
    | .ok (_, _, g) =>
      let i := (t.val b).toNat
      let w := g.bmap + BitVec.ofNat 64 (8 * (i / 64))
      if i < g.bits ∧ g.bmap.toNat % 8 = 0 then
        match s.key t.ctx w .rmw with
        | .ok key => if s.poisoned key 8 then none else
            some (s.putMem key (natLe 8 (BitVec.ofNat 64 (s.num key 8) ||| (1 : Dword) <<< (i % 64)).toNat))
        | .error _ => none
      else none
    | .error _ => none) ∧
  (∀ h a b, Awaits (.waitBit h a b) fun t s =>
    match s.groupObj t (t.pair a) .read with
    | .ok (_, _, g) =>
      let i := (t.val b).toNat
      let w := g.bmap + BitVec.ofNat 64 (8 * (i / 64))
      if i < g.bits ∧ g.bmap.toNat % 8 = 0 then
        match s.key t.ctx w .read with
        | .ok key =>
          if s.poisoned key 8 = true ∨ s.unreadAt t w 8 = true then none
          else some (s, if (s.num key 8).testBit (i % 64) then none else some (.parked (.bit w (i % 64))))
        | .error _ => none
      else none
    | .error _ => none) ∧
  (∀ (s : State) (t : Thread) va acc key, va.toNat % 64 = 0 → s.unreadAt t va 64 = false → s.key t.ctx va acc = .ok key →
    s.poisoned key 64 = false →
    let x := s.num key 64
    x / 2 ^ 96 % 4 = 1 ∨ x / 2 ^ 96 % 4 = 2 → s.groupObj t va acc = .ok (key, x, parseGroup x))

/-- SHIP and SRET (R166 to R168, R175, R288 to R291): a request is offered to the latency core that homes the lock's line, or
sent to the device that the lock's window names, and the sender waits for the answer; SRET hands the results over and frees
the latency core. -/
def Obligations.ShipResults : Prop :=
  (∀ h pd m n d a b c, ∀ x ∈ [(Instr.shipW h pd m n a b c, ShipKind.w), (.shipC h m n d a b c, .c), (.shipO h n a b c, .o)],
    Awaits x.1 fun t s =>
      let r : ShipReq :=
        { sender := .thread t.tid, ctx := t.ctx, entry := t.pair c, lock := t.pair a, kind := x.2, args := t.span b n.toNat
          m := if x.2 = .o then 0 else m.toNat
          reg := b.toNat, span := if x.2 = .o then n.toNat else max n.toNat m.toNat, task := s.taskHandle t
          pd := if x.2 = .w then pd.toNat else 7, token := if x.2 = .c then t.pair d else 0, waits := t.section_.isNone }
      let offer := fun (lc : Nat) =>
        match s.initToken t x.2 r.token lc with
        | .ok e => some (e.updLc lc fun l => { l with offers := l.offers ++ [r] }, some (Status.offered lc))
        | .error _ => none
      if x.2 = .c ∧ (t.pair d).toNat % (if m.toNat ≤ 2 then 16 else 32) ≠ 0 then none
      else
        match s.locate t.ctx (t.pair a) .read false with
        | .ok (.mem key) => offer (homeOf (key % 2 ^ 52))
        | .ok (.kick off) => offer (homeOf (Config.kickBase + off))
        | .ok (.remote node exp off) =>
          let ch := s.freshBelow 64
          (match ch.2.initToken t x.2 r.token ch.1 with
          | .ok e =>
            let op := e.freshId
            let e := op.2.sendFor t.ctx node (.ship op.1 exp off t.ctx t.tid r)
            some ({ e with net := { e.net with ships := e.net.ships ++ [(op.1, node, r)] } }, some (.offered 64))
          | .error _ => none)
        | .error _ => none) ∧
  (∀ (s : State) (t : Thread) token lc key, s.newFuture t.ctx token = .ok key →
    s.initToken t .c token lc =
      .ok (s.putMem key (natLe 8 0 ++ natLe 4 (lc / 8 * 2 ^ 29 + 2 * 2 ^ 21 + lc % 8) ++ natLe 4 0)) ∨ 64 ≤ lc) ∧
  (∀ h (s : State) (t : Thread) x, s.cur = .thread t.tid → s.issues (.sret h) [t.tid] = true →
    (s.landed (.sret h) [t.tid]).thread? t.tid = some t → t.guards h = true → t.section_ = some x →
    let e := (s.landed (.sret h) [t.tid]).endSection t.commitAll x none
    exec (.sret h) s = .next (({ e with tick := e.tick + 1 } : State).endAdoptions)) ∧
  (∀ (s : State) (t : Thread) x n tid, t.place = .lc n → x.req.sender = .thread tid → x.req.kind = .w →
    s.endSection t x none =
      (({ s with threads := s.threads.filter (·.tid != t.tid) } : State).updLc n fun l => { l with running := none }).deliverShipW
        tid x.req ((List.range x.req.m).map fun i => (t.regs.getD i {}).val) true) ∧
  (∀ pa, pa < 2 ^ 52 → homeOf pa < 64)

/-- Queue objects (R292 to R297): QPUSH and QPUSH.RSV take the slot at TAIL while it is free, QPOP and QPOP.MIN the one at
HEAD; a full or empty object clears the predicate and changes no memory. -/
def Obligations.QueueObjectResults : Prop :=
  let claims := fun (t : Thread) (s : State) (obj : Dword) (b : Nat) (q : QObj) (k : Bucket) =>
    let j := k.tail.toNat % q.cap
    let e := q.entry b j
    if k.free.getLsbD j then
      if canonical e ∧ (s.entryOk t e).isOk then
        some (((s.putBucket { k with free := k.free &&& ~~~((1 : Dword) <<< j), tail := k.tail + 1 }).putNonempty q b true).updThread
          t.tid fun t => { t with pushClaim := some { pc := t.pc, obj, bucket := b, slot := j, entry := some e } })
      else none
    else some (s.updThread t.tid fun t => { t with pushClaim := some { pc := t.pc, obj } })
  let pushes := fun (a b : GReg) (t : Thread) (s : State) =>
    let n := (t.val b).toNat
    match t.pushClaim, s.queueObj t (t.pair a) with
    | none, .ok q =>
      (match s.bucket t q (t.pair a) n with
      | .ok k => claims t s (t.pair a) n q k
      | .error _ => none)
    | _, _ => none
  let takes := fun (t : Thread) (s : State) (obj : Dword) (b : Nat) (q : QObj) (k : Bucket) =>
    let e := q.entry b (k.head.toNat % q.cap)
    if k.head = k.tail then some (s.updThread t.tid fun t => t.claimPop { pc := t.pc, obj })
    else if canonical e ∧ (s.entryOk t e).isOk then
      let m := s.putBucket { k with head := k.head + 1 }
      some ((if k.head + 1 = k.tail then m.putNonempty q b false else m).updThread t.tid fun t =>
        t.claimPop { pc := t.pc, obj, bucket := b, slot := k.head.toNat % q.cap, entry := some e })
    else none
  let pops := fun (a : GReg) (n : QObj → Thread → Option Nat) (t : Thread) (s : State) =>
    match t.popClaim, s.queueObj t (t.pair a) with
    | none, .ok q =>
      (match n q t with
      | none =>
        if q.entries.toNat % 16 = 0 then some (s.updThread t.tid fun t => t.claimPop { pc := t.pc, obj := t.pair a })
        else none
      | some b =>
        match s.bucket t q (t.pair a) b with
        | .ok k => takes t s (t.pair a) b q k
        | .error _ => none)
    | _, _ => none
  let result := fun (pd : PReg) (d : GReg) (t : Thread) (s : State) =>
    match t.popClaim with
    | none => none
    | some c =>
      match c.entry with
      | none => some (s.updThread t.tid (popResult pd d 0 0 5 false))
      | some e =>
        let va := c.obj + BitVec.ofNat 64 (64 + 16 * c.bucket)
        match s.key t.ctx e .read, s.key t.ctx e .rmw, s.key t.ctx va .rmw with
        | .ok key, .ok key', .ok bk =>
          let x := s.num key 16
          let st := x / 2 ^ 96 % 4
          if s.poisoned key 16 ∨ s.poisoned bk 16 ∨ st = 0 ∨ t.ownerFaulted = true ∨ s.unreadAt t e 16 = true ∨
              s.unreadAt t va 16 = true then none
          else
            some (((s.putFuture key' noOwner).putMem (bk + 8)
              (natLe 8 (BitVec.ofNat 64 (s.num bk 16 / 2 ^ 64) ||| (1 : Dword) <<< c.slot).toNat)).updThread t.tid
                (popResult pd d (joinWords (BitVec.ofNat 32 x) (BitVec.ofNat 32 (x / 2 ^ 32))) c.bucket (st - 1) true))
        | _, _, _ => none
  (∀ h pd a b c, DoesInTwo (.qpush h pd a b c) (pushes a b) fun t s =>
    match t.pushClaim.bind (·.entry) with
    | none => some (s.updThread t.tid fun t => { t.setPred pd false with pushClaim := none })
    | some e =>
      match s.key t.ctx e .rmw with
      | .ok key =>
        if s.poisoned key 16 then none
        else
          let chain := s.num key 16 / 2 ^ 98 * 4
          let w := if t.section_.isSome then noOwner else s.taskHandle t
          some ((((s.putMem key (natLe 8 (t.pair c).toNat ++ natLe 4 w.toNat ++ natLe 4 (chain + 1))).dropOwned t.ctx e key).updThread
            t.tid fun t => { t.setPred pd true with pushClaim := none }))
      | .error _ => none) ∧
  (∀ h pd d a b, DoesInTwo (.qpushRsv h pd d a b) (pushes a b) fun t s =>
    match t.pushClaim.bind (·.entry) with
    | none => some (s.updThread t.tid fun t => { t.setPred pd false with pushClaim := none })
    | some e =>
      match s.key t.ctx e .rmw with
      | .ok key =>
        if s.poisoned key 16 then none
        else
          let o := s.claimOwned t e
          some ((o.2.putMem (key + 8) (natLe 4 o.1.toNat)).updThread t.tid fun t =>
            { (t.putPair d e .i32 .i32).setPred pd true with pushClaim := none })
      | .error _ => none) ∧
  (∀ h pd d a b, DoesInTwo (.qpop h pd d a b) (pops a fun _ t => some (t.val b).toNat) (result pd d)) ∧
  (∀ h pd d a, DoesInTwo (.qpopMin h pd d a)
    (pops a fun q _ => (List.range q.nb).find? fun i => q.nonempty.getLsbD i) (result pd d))

/-! ## Engines (13) -/

/-- ACC.ALLOC, ACC.FREE and ACC.LEND (R98, R320): the bank table of the core. ACC.ZERO, ACC.LD, ACC.RD, ACC.DRAIN, MMA and
MMAS at issue (R318 to R327): the command joins the order of its matrix engine, and its future, if any, is initialised. -/
def Obligations.BankAndMatrixIssueResults : Prop :=
  ((∀ h pd eng mask, Collects (.accAlloc h pd eng mask) fun c s =>
    let bs := (List.range 8).filter fun b => mask.getLsbD b
    let ok := bs.all fun b => (s.bank c.k eng.toNat b).owner.isNone
    onlyIf c.isWhole ((if ok then s.updBanks c.k eng.toNat bs fun _ => { owner := some c.g.num } else s).updRanks c.active
      fun _ t => t.setPred pd ok)) ∧
  (∀ h eng mask, Collects (.accFree h eng mask) fun c s =>
    let bs := (List.range 8).filter fun b => mask.getLsbD b
    onlyIf (c.isWhole && s.banksOf c.k eng.toNat c.g.num bs false) (s.updBanks c.k eng.toNat bs fun _ => {})) ∧
  (∀ h eng mask sa, Collects (.accLend h eng mask sa) fun c s =>
    let bs := (List.range 8).filter fun b => mask.getLsbD b
    let n := (c.g.sreg sa.toNat).val.toNat
    let others := (List.range 8).filter fun b =>
      !bs.contains b && s.bank c.k eng.toNat b == { owner := some c.g.num, lendee := some n }
    onlyIf (c.isWhole && s.banksOf c.k eng.toNat c.g.num bs false && decide (n < 1024) &&
        s.groups.any fun g => !g.saved && coreIdx g.die g.core == c.k && g.num == n)
      (if n = c.g.num then s
       else (s.updBanks c.k eng.toNat others fun b => { b with lendee := none }).updBanks c.k eng.toNat bs
         fun b => { b with lendee := some n })) ∧
  (∀ (s : State) k eng bs f b, SMap.wf {} s.cores → eng < 3 → b < 8 → (s.core k).banks.length = 24 →
    (s.updBanks k eng bs f).bank k eng b = if b ∈ bs then f (s.bank k eng b) else s.bank k eng b)) ∧
  ((∀ h eng mask, Collects (.accZero h eng mask) fun c s =>
    if c.isWhole && s.banksOf c.k eng.toNat c.g.num ((List.range 8).filter fun b => mask.getLsbD b) false then
      s.joins c.k eng.toNat (s.groupCmd c.g (.zero mask) 0 .core)
    else none) ∧
  (∀ h eng a b c, Collects (.accLd h eng a b c) fun x s =>
    let ok := x.active.all fun p =>
      decide ((p.2.val b).toNat < 128) && decide ((p.2.val c).toNat < 64) &&
        s.banksOf x.k eng.toNat x.g.num [(p.2.val b).toNat / 16] false
    if x.isWhole && ok then
      s.joins x.k eng.toNat (s.groupCmd x.g (.ld (x.active.map fun p =>
        ((p.2.val b).toNat, (p.2.val c).toNat,
          BitVec.ofNat 96 (spanNat ((List.range 3).map fun i => (p.2.reg (a.toNat + i)).val))))) 0 .core)
    else none) ∧
  (∀ h eng f32 i96 d b c, Collects (.accRd h eng f32 i96 d b c) fun x s =>
    let ok := x.active.all fun p =>
      decide ((p.2.val b).toNat < 128) && decide ((p.2.val c).toNat < 64) &&
        s.banksOf x.k eng.toNat x.g.num [(p.2.val b).toNat / 16] true
    if x.isWhole && ok then
      (s.joins x.k eng.toNat (s.groupCmd x.g (.rd f32 i96 (x.active.map fun p =>
        { tid := p.2.tid, reg := d.toNat, row := (p.2.val b).toNat, col := (p.2.val c).toNat })) 0 .core)).map
          fun e => e.updRanks x.active fun _ t => t.awaitLong h.la d.toNat (if f32 then 1 else 4) s.tick
    else none) ∧
  (∀ h eng bank sa sc, Collects (.accDrain h eng bank sa sc) fun c s =>
    let w := fun (r : SReg) (i : Nat) => (c.g.sreg (r.toNat + i)).val
    let fut := c.g.spair (sc.toNat + 2)
    match parseDrain (16 * bank.toNat) (w sc 0) (w sc 1) (w sa 0) (w sa 1), s.initFuture c.g.ctx fut with
    | .ok (o, scope), .ok e =>
      let bs := rowsBanks o.row0 o.rows
      let place := if o.global then o.addr.toNat % 16 = 0 ∧ canonical o.addr = true
        else (o.desc.fits (s.groupAlloc c.g).2.2 0 o.rows (o.cols * drainBytes o.tfmt)).isOk = true
      if c.isWhole = true ∧ fut.toNat % 16 = 0 ∧ place ∧ s.banksOf c.k eng.toNat c.g.num bs true = true ∧
          (o.clr = true → s.banksOf c.k eng.toNat c.g.num bs false = true) then
        e.joins c.k eng.toNat (s.groupCmd c.g (.drain o) fut scope)
      else none
    | _, _ => none) ∧
  (∀ h fmt eng bank sa sb sc, ∀ x ∈ [(Instr.mma h fmt eng bank sa sb sc, false), (.mmas h fmt eng bank sa sb sc, true)],
    Collects x.1 fun c s =>
      let w := fun (r : SReg) (i : Nat) => (c.g.sreg (r.toNat + i)).val
      let fut := c.g.spair (sc.toNat + 2)
      match parseMma fmt (16 * bank.toNat) (w sc 0) (w sc 1) (w sa 0) (w sa 1) (w sb 0) (w sb 1) x.2, s.initFuture c.g.ctx fut with
      | .ok (m, scope), .ok e =>
        if c.isWhole = true ∧ fut.toNat % 16 = 0 ∧ (tilesFit (s.groupAlloc c.g).2.2 m.tiles).isOk = true ∧
            s.banksOf c.k eng.toNat c.g.num (rowsBanks m.row0 m.rows) false = true then
          e.joins c.k eng.toNat (s.groupCmd c.g (.mma m) fut scope)
        else none
      | _, _ => none) ∧
  (∀ f row0 (edge ctrl a0 a1 b0 b1 : Word) sparse m scope, parseMma f row0 edge ctrl a0 a1 b0 b1 sparse = .ok (m, scope) →
    m.rows = edge.toNat % 256 ∧ m.cols = edge.toNat / 2 ^ 8 % 256 ∧ m.k = edge.toNat / 2 ^ 16 % 256 ∧
    m.clr = ctrl.getLsbD 7 ∧ m.pat = ctrl.toNat / 2 ^ 9 % 4 ∧ 1 ≤ m.rows ∧ row0 + m.rows ≤ 128 ∧ 1 ≤ m.cols ∧ m.cols ≤ 64 ∧
    1 ≤ m.k ∧ kstepOf m.afmt = kstepOf m.bfmt ∧ intClass m.afmt = intClass m.bfmt))

/-- A matrix command runs once it is the first of its engine and nothing that it reads is pending (R21, R115): ACC.ZERO and
ACC.LD write their cells, MMA adds its products to every cell of its rectangle, and no other cell changes. A drain into a
scratchpad whose elements do not overlap (R161, R327, R328): each element is the value of its cell, added to what stood there
for an add-on-store, and the drain completes with its byte count. -/
def Obligations.MatrixAndDrainRunResults : Prop :=
  ((∀ (s : State) die core eng m rest, s.engine (coreIdx die core) eng = m :: rest → (∀ o, m.op ≠ .drain o) →
    (m.reads.any (s.pendingAt m.seq)) = false →
    exec (.matrixCommandRun die core eng) s =
      .next (((s.runCells (coreIdx die core) eng m).dequeue (coreIdx die core) eng).fulfil m.ctx m.fut 1 0 0 3 die core
        m.taskHandle)) ∧
  (∀ (s : State) k eng (m : MCmd) mask row col, m.op = .zero mask → SMap.wf 0 s.cells → eng < 3 → row < 128 → col < 64 →
    (s.runCells k eng m).cells.get 0 (cellKey k eng row col) =
      if mask.getLsbD (row / 16) then 0 else s.cells.get 0 (cellKey k eng row col)) ∧
  (∀ (s : State) k eng (m : MCmd) l, m.op = .ld l → SMap.wf 0 s.cells →
    (l.map fun p => cellKey k eng p.1 p.2.1).Nodup → ∀ key,
    (s.runCells k eng m).cells.get 0 key =
      match l.find? fun p => cellKey k eng p.1 p.2.1 == key with
      | some p => p.2.2
      | none => s.cells.get 0 key) ∧
  (∀ (s : State) k eng (m : MCmd) (op : MmaOp) i j, m.op = .mma op → SMap.wf 0 s.cells → op.row0 + op.rows ≤ 128 → op.cols ≤ 64 →
    i < op.rows → j < op.cols →
    (s.runCells k eng m).cells.get 0 (cellKey k eng (op.row0 + i) j) =
      cellSteps (intClass op.afmt) (kstepOf op.afmt) ((s.products m.base op i j).length + 1)
        (if op.clr then 0 else s.cells.get 0 (cellKey k eng (op.row0 + i) j)) (s.products m.base op i j)) ∧
  (∀ (s : State) k eng (m : MCmd) (op : MmaOp) key, m.op = .mma op → SMap.wf 0 s.cells →
    (∀ i j, i < op.rows → j < op.cols → key ≠ cellKey k eng (op.row0 + i) j) →
    (s.runCells k eng m).cells.get 0 key = s.cells.get 0 key)) ∧
  (∀ (s : State) die core eng (m : MCmd) rest o, s.Inv → s.engine (coreIdx die core) eng = m :: rest → m.op = .drain o →
    m.fids = [] → o.global = false → o.done = [] → o.row0 + o.rows ≤ 128 → o.cols ≤ 64 → eng < 3 →
    let n := drainBytes o.tfmt
    (o.elems m.base).Pairwise (fun x y => x.1 + n ≤ y.1 ∨ y.1 + n ≤ x.1) →
    ∃ e : State, exec (.drainRun die core eng) s =
        .next ((e.dequeue (coreIdx die core) eng).fulfil m.ctx m.fut 1 (countWords (o.rows * o.cols * n)).1
          (countWords (o.rows * o.cols * n)).2 3 die core m.taskHandle) ∧
      e.mem = s.mem ∧ e.threads = s.threads ∧
      (∀ x ∈ o.elems m.base, takeBytes e.scratch x.1 n =
        natLe n (o.value (leNat (takeBytes s.scratch x.1 n)) (s.cells.get 0 (cellKey (coreIdx die core) eng x.2.1 x.2.2)))) ∧
      (∀ a, (∀ x ∈ o.elems m.base, a < x.1 ∨ x.1 + n ≤ a) → e.scratch.get 0 a = s.scratch.get 0 a) ∧
      (∀ x ∈ o.elems m.base, e.cells.get 0 (cellKey (coreIdx die core) eng x.2.1 x.2.2) =
        if o.clr then 0 else s.cells.get 0 (cellKey (coreIdx die core) eng x.2.1 x.2.2)))

/-- BCPY and its copy (R110 to R112, R329, R330): the command is checked and handed to a copy engine; its sectors are then
written one at a time, and it ends once all are; the bytes of a sector are those of the source. RCFG, RCFG.GET, RPUSH and
RPOP (R94 to R96, R332, R333). -/
def Obligations.BulkCopyAndRingResults : Prop :=
  ((∀ h nf a c, Does (.bcpy h nf a c) fun t s => okOf (s.bcpy t (t.pair a) (if nf then 0 else t.pair c) h.ch.toNat)) ∧
  (∀ (s : State) (t : Thread) a fut ch x d e, a.toNat % 128 = 0 → canonical a = true → s.loadNat t.ctx a 128 = .ok x →
    parseCopy x = .ok (d, false) → fut.toNat % 16 = 0 →
    let al := s.allocOf t
    sideFits d.src d.srot d.sstride d al.2.2 .read = .ok () → sideFits d.dst d.drot d.dstride d al.2.2 .write = .ok () →
    (∀ n, d.dst = .ring n → (s.ring (t.place.coreIdx?.getD 0) n).owner = some t.task) → sideCanon .read d.src = .ok () →
    sideCanon .write d.dst = .ok () → (s.threadFill t a 128 ch).initFuture t.ctx fut = .ok e →
    ∃ size, s.bcpy t a fut ch = .ok (e.addCopy
      { id := 0, seq := 0, ctx := t.ctx, die := t.place.die, unit := 0, desc := d, fut, core := al.1
        base := al.1 * 2 ^ 18 + al.2.1, size, task := t.task, taskHandle := e.taskHandle t, chain := none, ch })) ∧
  (∀ (s : State) (t : Thread) va n ch, let e := s.threadFill t va n ch
    e = { s with l1 := e.l1, l1Old := e.l1Old, lcL2 := e.lcL2, home := e.home, counts := e.counts
                 windowCounts := e.windowCounts, dieCounters := e.dieCounters, cores := e.cores }) ∧
  (∀ (s : State) id b k x, s.copies.find? (·.id == id) = some b → (s.openSectors b)[k]? = some x →
    exec (.bulkCopySector id k) s = .next (s.copySector b x)) ∧
  (∀ (s : State) id b k, s.copies.find? (·.id == id) = some b → (s.openSectors b)[k]? = none → s.copyEnds b = true →
    exec (.bulkCopySector id k) s = .next (s.copyDone b)) ∧
  (∀ (s : State) (b : BulkCopy) x o p, s.Inv → b.desc.src = .scratch o → b.desc.dst = .scratch p →
    let l := b.desc.pairs.filter fun q => q.2 / 256 == x
    (l.map (·.2)).Nodup → (∀ q ∈ l, ∀ r ∈ l, q.1 ≠ r.2) →
    ∀ q ∈ l, (s.copySector b x).scratch.get 0 (b.base + q.2) = s.scratch.get 0 (b.base + q.1)) ∧
  (∀ (s : State) id b n, s.copies.find? (·.id == id) = some b → b.desc.dst = .ring n →
    (s.ring b.core n).owner = some b.task → 0 < (s.ring b.core n).free →
    (((s.ringCopies b.task n).find? fun c => decide (c.slots.length < c.entries (s.ring b.core n))).map (·.id)) = some id →
    exec (.ringEntryTake id) s =
      .next ((s.updCopy id fun b => { b with slots := b.slots ++ [(s.ring b.core n).prod] }).updRing b.core n fun r =>
        { r with free := r.free - 1, writing := r.writing + 1, prod := (r.prod + 1) % (r.count + 1) }))) ∧
  ((∀ h n a, Does (.rcfg h n a) fun t s =>
    let x := (t.val a).toNat
    let task := s.ringTask t
    let k := t.place.coreIdx?.getD 0
    let r := s.ring k n.toNat
    let base := x % 2 ^ 9
    let esize := x / 2 ^ 9 % 2 ^ 9
    let count := x / 2 ^ 18 % 2 ^ 8
    let size := (((s.task? task).bind (·.alloc)).getD (0, 0)).2
    if x < 2 ^ 26 ∧ 512 * base + 256 * (esize + 1) * (count + 1) ≤ size ∧ (r.owner = none ∨ r.owner = some task) ∧
        r.writing = 0 ∧ r.filled = 0 ∧ r.taken = 0 ∧ (r.owner = none ∨ s.ringCopies task n.toNat = []) then
      some (s.updRing k n.toNat fun _ => { owner := some task, base, esize, count, free := count + 1 })
    else none) ∧
  (∀ h n d, Does (.rcfgGet h n d) fun t s =>
    let r := s.ring (t.place.coreIdx?.getD 0) n.toNat
    if r.owner = some (s.ringTask t) then
      some (s.updThread t.tid fun t => t.putPair d (BitVec.ofNat 64 (r.base + r.esize * 2 ^ 9 + r.count * 2 ^ 18 +
        r.free * 2 ^ 28 + r.filled * 2 ^ 37 + r.taken * 2 ^ 46 + r.writing * 2 ^ 55)) .i32 .i32)
    else none) ∧
  (∀ h n, ∀ (s : State) j (t : Thread), s.cur = .thread j → s.issues (.rpush h n) [j] = true →
    (s.landed (.rpush h n) [j]).thread? j = some t → t.guards h = true →
    (s.ring (t.place.coreIdx?.getD 0) n.toNat).owner = some (s.ringTask t) →
    (s.ring (t.place.coreIdx?.getD 0) n.toNat).taken ≠ 0 →
    ∃ s', exec (.rpush h n) s = .next s' ∧
      ((s.landed (.rpush h n) [j]).updRing (t.place.coreIdx?.getD 0) n.toNat fun r =>
        { r with taken := r.taken - 1, free := r.free + 1 }).retires s' [j]) ∧
  (∀ h n, Collects (.rpush h n) fun c s =>
    match c.active with
    | p :: _ =>
      let k := p.2.place.coreIdx?.getD 0
      if (s.ring k n.toNat).owner = some (s.ringTask p.2) ∧ (s.ring k n.toNat).taken ≠ 0 then
        some (s.updRing k n.toNat fun r => { r with taken := r.taken - 1, free := r.free + 1 })
      else none
    | [] => none) ∧
  (∀ h n d (s : State) tids lead rest (t : Thread), s.issues (.rpop h n d) tids = true → s.acting (.rpop h n d) tids = lead :: rest →
    s.thread? lead = some t →
    let e := s.landed (.rpop h n d) tids
    let k := t.place.coreIdx?.getD 0
    let r := s.ring k n.toNat
    (∀ j ∈ lead :: rest, ∀ u, e.thread? j = some u → (s.ring (u.place.coreIdx?.getD 0) n.toNat).owner = some (e.ringTask u)) →
    r.filled ≠ 0 →
    ∃ s', exec (.rpop h n d) s = .next s' ∧
      ((e.updRing k n.toNat fun r =>
        { r with filled := r.filled - 1, taken := r.taken + 1, cons := (r.cons + 1) % (r.count + 1) }).updThreads (lead :: rest)
          fun t => t.put d (BitVec.ofNat 32 (512 * r.base + r.cons * (256 * (r.esize + 1)))) .raw).retires s' tids))

/-- The descent engine (R182 to R193, R334 to R337): DSC.CFG, DSC.RUN, DSC.PATH and DSC.GRAD at issue. A descent (R186 to
R189) goes one level at a time, each live row to its left child unless its dot product is above 0; a gradient (R193) adds the
sum of its contributions to every element, in the sector of the gradient tree that it has yet to write, of the nodes that the
rows passed. -/
def Obligations.DescentResults : Prop :=
  ((∀ h a, Collects (.dscCfg h a) fun c s =>
    let va := c.pair a
    let d := (s.core c.k).descent
    if va = 0 then
      if d.holder = none then onlyIf c.isWhole s
      else onlyIf (c.isWhole && d.holder == some c.g.gid) (s.updDescent c.k fun d => { d with holder := none, cfg := none })
    else
      match (s.loadNat c.g.ctx va 64).bind parseTree with
      | .ok cfg =>
        onlyIf (c.isWhole && decide (va.toNat % 64 = 0) && canonical va && (d.holder.isNone || d.holder == some c.g.gid) &&
            canonical cfg.nodeBase && canonical cfg.leafBase)
          ((s.readFill c.g.ctx va 64).updDescent c.k fun d => { d with holder := some c.g.gid, cfg := some cfg })
      | .error _ => none) ∧
  (∀ (s : State) c va n, let e := s.readFill c va n
    e = { s with home := e.home, counts := e.counts, windowCounts := e.windowCounts, dieCounters := e.dieCounters
                 cores := e.cores }) ∧
  (∀ x t, parseTree x = .ok t → t.dim = 64 * (x / 2 ^ 200 % 64 + 1) ∧ t.depth = x / 2 ^ 192 % 32 ∧ 1 ≤ t.depth ∧ t.depth ≤ 20 ∧
    t.nstride = x / 2 ^ 128 % 2 ^ 32 ∧ t.lstride = x / 2 ^ 160 % 2 ^ 32 ∧ t.nstride % 16 = 0 ∧ t.nodeBase.toNat % 256 = 0) ∧
  (∀ h sa sc, Collects (.dscRun h sa sc) fun c s =>
    let w := fun (r : SReg) (i : Nat) => (c.g.sreg (r.toNat + i)).val
    let n := (w sc 0).toNat
    let x := (w sc 1).toNat
    let out := x % 2 ^ 18
    let d := (s.core c.k).descent
    let fut := c.g.spair (sc.toNat + 2)
    let size := (s.groupAlloc c.g).2.2
    match d.cfg, parseDesc (w sa 0) (w sa 1), s.initFuture c.g.ctx fut with
    | some t, .ok tile, .ok e =>
      if c.isWhole = true ∧ d.holder = some c.g.gid ∧ 1 ≤ n ∧ n ≤ 256 ∧ x < 2 ^ 20 ∧ out % 512 = 0 ∧ fut.toNat % 16 = 0 ∧
          (tile.fits size 0 n (2 * t.dim)).isOk = true ∧ out + 6144 ≤ size then
        some ((c.submit e (.run n tile out) t fut ((Scope.ofCode (BitVec.ofNat 2 (x / 2 ^ 18))).getD .core)).updDescent c.k
          fun d => { d with n })
      else none
    | _, _, _ => none) ∧
  (∀ h d b, Collects (.dscPath h d b) fun c s =>
    let x := (s.core c.k).descent
    onlyIf (c.isWhole && x.holder == some c.g.gid && x.cmds.isEmpty && c.active.all fun p => decide ((p.2.val b).toNat + p.1 ≤ 255))
      (s.updRanks c.active fun r t =>
        t.putLong h.la d.toNat [{ val := x.path.get 0 ((t.val b).toNat + r), tag := .i32 }])) ∧
  (∀ h sa sb sc, Collects (.dscGrad h sa sb sc) fun c s =>
    let w := fun (r : SReg) (i : Nat) => (c.g.sreg (r.toNat + i)).val
    let x := (w sc 0).toNat
    let y := (w sc 1).toNat
    let d := (s.core c.k).descent
    let base := c.g.spair sb.toNat
    let fut := c.g.spair (sc.toNat + 2)
    let size := (s.groupAlloc c.g).2.2
    match d.cfg, parseDesc (w sa 0) (w sa 1), s.initFuture c.g.ctx fut with
    | some t, .ok tile, .ok e =>
      if c.isWhole = true ∧ d.holder = some c.g.gid ∧ x < 2 ^ 18 ∧ y < 4 ∧ 4 * t.dim + 4 ≤ t.nstride ∧ x % 16 = 0 ∧
          base.toNat % 256 = 0 ∧ fut.toNat % 16 = 0 ∧ (tile.fits size 0 d.n (2 * t.dim)).isOk = true ∧ x + 80 * d.n ≤ size ∧
          canonical base = true then
        some (c.submit e (.grad d.n tile x base) t fut ((Scope.ofCode (BitVec.ofNat 2 y)).getD .core))
      else none
    | _, _, _ => none)) ∧
  ((∀ (s : State) die core (m : DCmd) rest n input out rows, SMap.wf {} s.cores →
    (s.core (coreIdx die core)).descent.cmds = m :: rest → m.op = .run n input out → m.fids = [] →
    (m.started = true ∨ (m.reads n).any (s.pendingAt m.seq) = false) →
    s.levelRows m input m.level 0 (m.rows n (s.core (coreIdx die core)).descent.path) = .ok rows →
    ∃ e : State, e.mem = s.mem ∧ e.scratch = s.scratch ∧ e.threads = s.threads ∧
      (∀ i r, rows[i]? = some r → (e.core (coreIdx die core)).descent.path.get 0 i = r.path) ∧
      exec (.dscLevel die core) s = .next (if m.level + 1 = m.cfg.depth then e.descentDone die core m out rows
        else e.updDHead (coreIdx die core) fun m =>
          { m with started := true, inLevel := false, level := m.level + 1, node := rows.map (·.node), live := rows.map (·.live) })) ∧
  (∀ (r : Row) d v, (r.step d v).node = (if v.isNan then r.node else if v.isZero ∨ v.neg then 2 * r.node + 1 else 2 * r.node + 2) ∧
    (r.step d v).live = (r.live && !v.isNan)) ∧
  (∀ leaves, (prism leaves).Pairwise fun x y => x.1 < y.1 ∨ (x.1 = y.1 ∧ x.2 < y.2)) ∧
  (∀ (s : State) die core (m : DCmd) rest n input g tree x key, s.Inv →
    (s.core (coreIdx die core)).descent.cmds = m :: rest → m.op = .grad n input g tree → m.fids = [] →
    (m.started = true ∨ (m.reads n).any (s.pendingAt m.seq) = false) →
    let terms := gradTerms n (s.core (coreIdx die core)).descent.path
    let elems := m.gradElems n tree (s.core (coreIdx die core)).descent.path
    ((elems.map (·.1 / 256)).eraseDups.filter fun y => !m.done.contains y) = [x] → (∀ y ∈ elems, y.1 % 4 = 0) →
    (elems.map (·.1)).Nodup →
    s.key m.ctx (BitVec.ofNat 64 (256 * x)) .rmw = .ok key → s.poisoned key 256 = false →
    ∃ e : State, e.scratch = s.scratch ∧ e.threads = s.threads ∧
      (∀ y ∈ elems, y.1 / 256 = x → e.num (key + y.1 % 256) 4 = (convert .f32 .rn false false
        (sumExact false [Fmt.f32.dec (s.num (key + y.1 % 256) 4), s.gradCell m input g terms y.2.1 y.2.2]).1).1) ∧
      (∀ a, (∀ y ∈ elems, y.1 / 256 = x → a < key + y.1 % 256 ∨ key + y.1 % 256 + 4 ≤ a) → e.byte a = s.byte a) ∧
      exec (.dscGradRun die core) s = .next ((((((e.updDescent (coreIdx die core) fun d => { d with cmds := d.cmds.tail }).countDescent
        (coreIdx die core) m n m.cfg.depth).fulfil m.ctx m.fut 1 (BitVec.ofNat 32 ((terms.map (·.1)).eraseDups).length) 0 4 die core
          m.taskHandle).sweepAllocs (coreIdx die core))).endAdoptions)))

/-- The refinement controller (R194 to R200, R338, R339): RFB.START puts a block into the arrival order, RFB.STAT views it and
RFB.ABORT cancels it. A block that takes a place is acted upon until nothing changes: it is read and checked, its status record
zeroed, and then each step's task is placed, and its end leads to the next step; a residual's norm is tested, the record written
(R198), and the block goes on, moves to the next rung, or ends (R199). The model's readings here: TEND is written at every end but
an abort, which writes no record (log 61), the last write and the end of the block are one turn (log 62), and a block that has not
been taken up is withdrawn at once (log 63). -/
def Obligations.RefineResults : Prop :=
  (∀ h a c, Collects (.rfbStart h a c) fun x s =>
    match s.initFuture x.g.ctx (x.pair c) with
    | .ok e =>
      onlyIf (x.isWhole && decide ((x.pair a).toNat % 256 = 0) && decide ((x.pair c).toNat % 16 = 0))
        (e.addRfb x.g.die x.g.ctx ((x.firstActive.map (·.prio)).getD 0) (x.pair a) (x.pair c)
          ((x.firstActive.map e.taskHandle).getD noOwner) none)
    | .error _ => none) ∧
  (∀ h d a, Collects (.rfbStat h d a) fun c s =>
    let l := match s.rfbAt c.g.die c.g.ctx (c.pair a) with
      | none => [2, 0, 0, 0]
      | some b => [if b.phase = RfbPhase.waiting then 0 else 1, BitVec.ofNat 32 (b.rung + 256 * b.rungAt.2.2), BitVec.ofNat 32 b.j,
          BitVec.ofNat 32 b.total]
    onlyIf (c.isWhole && canonical (c.pair a))
      (s.updRanks c.active fun _ t => t.putSpan d.toNat (l.map fun w => { val := w, tag := .i32 }))) ∧
  (∀ h pd a, Collects (.rfbAbort h pd a) fun c s =>
    match s.rfbAt c.g.die c.g.ctx (c.pair a) with
    | none => onlyIf (c.isWhole && canonical (c.pair a)) (s.updRanks c.active fun _ t => t.setPred pd false)
    | some b => onlyIf (c.isWhole && canonical (c.pair a)) ((s.stopRfb c.g.die b).updRanks c.active fun _ t => t.setPred pd true)) ∧
  (∀ (s : State) die b, ((s.die die).rfbs.find? fun b => b.phase == RfbPhase.waiting) = some b →
    ((s.die die).rfbs.filter fun b => b.phase != RfbPhase.waiting).length < 16 →
    exec (.rfbBlockStart die) s = .next ((s.putRfb die { b with phase := .read }).driveRfb die b.id 9)) ∧
  (∀ (s : State) die, ((s.die die).rfbs.find? fun b => b.phase == RfbPhase.waiting) = none ∨
    16 ≤ ((s.die die).rfbs.filter fun b => b.phase != RfbPhase.waiting).length → exec (.rfbBlockStart die) s = .next s) ∧
  (∀ (s : State) die id, exec (.rfbStepDone die id) s = .next (s.driveRfb die id 8)) ∧
  -- the loop of the controller's actions
  (∀ (s : State) die id, s.driveRfb die id 0 = s ∧ ∀ n, (((s.die die).rfbs.find? fun b => b.id == id) = none →
      s.driveRfb die id (n + 1) = s) ∧
    (∀ b, ((s.die die).rfbs.find? fun b => b.id == id) = some b → let e := s.actRfb die b
      (((e.die die).rfbs.find? fun b => b.id == id) = some b → s.driveRfb die id (n + 1) = e) ∧
      (((e.die die).rfbs.find? fun b => b.id == id) ≠ some b → s.driveRfb die id (n + 1) = e.driveRfb die id n))) ∧
  -- an abort (R200)
  (∀ (s : State) die (b : Rfb), b.abort = true → (b.phase ≠ .run ∨ ∃ v, b.ended = some v ∧ b.fid = none) →
    s.actRfb die b = s.endRfb die b 3 5 0) ∧
  (∀ (s : State) die (b : Rfb), let e := s.putRfb die { b with abort := true }
    (b.phase ≠ .run → s.stopRfb die b = e.driveRfb die b.id 1) ∧
    (b.phase = .run → e.findRecord b.ctx b.rec_ = none → s.stopRfb die b = e) ∧
    (∀ p r, b.phase = .run → e.findRecord b.ctx b.rec_ = some (p, r) → r.rfb = some b.id →
      s.stopRfb die b = (e.setRecord p b.ctx b.rec_ fun _ => none).endRfb die b 3 5 0)) ∧
  -- one action, by phase (R195 to R198)
  (∀ (s : State) die (b : Rfb), b.fid = none → b.abort = false →
    (b.phase = .waiting ∨ (b.phase = .run ∧ b.ended = none) → s.actRfb die b = s) ∧
    (∀ x, b.phase = .read → b.addr.toNat % 256 = 0 → s.loadNat b.ctx b.addr 256 = .ok x →
      let e := s.readFill b.ctx b.addr 256
      (rfbFieldsOk x = false → s.actRfb die b = e.failRfb die b { cause := 2, addr := b.addr } 0) ∧
      (rfbFieldsOk x = true → x / 2 ^ 576 % 64 ≠ 0 → s.actRfb die b = e.failRfb die b { cause := 4, addr := b.addr } 0) ∧
      (rfbFieldsOk x = true → x / 2 ^ 576 % 64 = 0 → s.actRfb die b = e.putRfb die (b.fill x s.time))) ∧
    (∀ e, b.phase = .zero → s.store b.ctx b.status (natLe 64 0) = .ok e → s.actRfb die b =
      e.putRfb die { b with phase := .place, step := if b.rungAt.2.1 = 0 then .resid else .refactor }) ∧
    (∀ h, b.phase = .place → s.stepHdr b = .ok (some h) →
      let u := (s.readFill b.ctx (b.entry - 64) 64).freshRecord b.ctx
      (h.gang = true → s.actRfb die b = (s.readFill b.ctx (b.entry - 64) 64).putRfb die
        { b with phase := .write, fault := 0x2FFFFFFFF, outcome := some (2, 2, BitVec.ofNat 32 (256 * b.rung)) }) ∧
      (∀ e p, h.gang = false → b.heldRec = none → s.holdsRec die b.ctx = false →
        u.2.placeLaunch (b.task u.1 h) (some die) = some (e, p) →
        s.actRfb die b = e.putRfb die { b with phase := .run, rec_ := u.1, ended := none })) ∧
    (∀ v, b.phase = .run → b.ended = some (v, none) → s.actRfb die b = s.putRfb die (b.afterTask v)) ∧
    (∀ v hd c, b.phase = .run → b.ended = some (v, some (hd, c)) → s.actRfb die b = s.putRfb die
      { b with phase := .write, fault := joinWords hd (c.setWidth 32)
               outcome := some (2, 1, BitVec.ofNat 32 (c.toNat + 256 * b.rung)) }) ∧
    (∀ e, b.phase = .write → s.store b.ctx b.status (b.record s.time) = .ok e →
      (∀ st w0 w1, b.outcome = some (st, w0, w1) → s.actRfb die b = e.endRfb die b st w0 w1) ∧
      (b.outcome = none → s.actRfb die b = e.putRfb die b.afterWrite))) ∧
  (∀ (s : State) die (b : Rfb) st w0 w1, b.launch = none → b.lost = none → s.endRfb die b st w0 w1 =
    (s.updRfbs die fun l => l.filter (·.id != b.id)).fulfil b.ctx b.fut st w0 w1 7 die 0 b.taskHandle) ∧
  (∀ (s : State) die (b : Rfb) c, b.launch = none → b.lost = none → b.fut ≠ 0 → c ≠ 0x11 →
    s.failRfb die b { cause := c, addr := b.addr } 0 = (s.updRfbs die fun l => l.filter (·.id != b.id)).fulfil b.ctx b.fut 2
      (BitVec.ofNat 32 c) 0 7 die 0 b.taskHandle) ∧
  (∀ (b : Rfb) now, leNat (b.record now) = b.exit % 2 ^ 32 + b.rung % 2 ^ 8 * 2 ^ 32 + b.rungAt.2.2 % 2 ^ 8 * 2 ^ 40
    + b.run % 2 ^ 16 * 2 ^ 48 + b.j % 2 ^ 32 * 2 ^ 64 + b.total % 2 ^ 32 * 2 ^ 96 + b.n.toNat * 2 ^ 128 + b.nprev.toNat * 2 ^ 192
    + b.tstart.toNat * 2 ^ 256 + (if b.outcome.isSome then now.toNat else 0) * 2 ^ 320 + b.fault.toNat * 2 ^ 384) ∧
  -- what follows a task (R197)
  (∀ (b : Rfb) v,
    (b.step = .refactor → b.rung = 0 → b.afterTask v = { b with phase := .place, step := .resid }) ∧
    (b.step = .refactor → b.rung ≠ 0 → b.afterTask v =
      { b with phase := .place, step := .solve, j := 1, run := 0, total := b.total + 1 }) ∧
    (b.step = .solve → b.afterTask v = { b with phase := .place, step := .resid, nprev := b.n }) ∧
    (b.step = .resid → b.afterTask v = ({ b with n := v } : Rfb).judge)) ∧
  -- the test of a norm (R197)
  (∀ b : Rfb, let n := f64 b.n
    let q := f64Div b.n b.nprev
    let x : Rfb := { b with run := if exceeds q (f64 b.rstag) then b.run + 1 else 0 }
    (n.isNan = true ∨ n.isInf = true → b.test = (3, b)) ∧
    (n.isNan = false → n.isInf = false → (exceeds n (f64Mul b.tol b.bnorm) = false → b.test = (1, b)) ∧
      (exceeds n (f64Mul b.tol b.bnorm) = true → (b.j = 0 → b.test = (0, b)) ∧
        (b.j ≠ 0 → (exceeds q (f64 b.rdiv) = true → b.test = (3, b)) ∧
          (exceeds q (f64 b.rdiv) = false → (x.run = b.stagcnt → b.test = (2, x)) ∧
            (x.run ≠ b.stagcnt → b.j = b.iterlim → b.test = (5, x)) ∧
            (x.run ≠ b.stagcnt → b.j ≠ b.iterlim → b.test = (0, x))))))) ∧
  -- its consequence: another iteration, the next rung, or the end (R197, R199)
  (∀ b : Rfb, let e := b.test.1
    let x := b.test.2
    let escalates := (e = 2 ∧ b.stagact = false) ∨ (e = 3 ∧ b.divact = false);
    (e = 0 → b.judge = { x with phase := .write }) ∧
    (escalates → b.rung + 1 ≠ b.rungs → b.judge = { x with phase := .write, escalate := true }) ∧
    (escalates → b.rung + 1 = b.rungs → b.judge = x.finish 4) ∧ (e ≠ 0 → ¬escalates → b.judge = x.finish e)) ∧
  (∀ (b : Rfb) e, let traps := (e = 2 ∧ b.stagact = true) ∨ (e = 3 ∧ b.divact = true) ∨ (e = 4 ∧ b.traplad = true) ∨
      (e = 5 ∧ b.traplim = true);
    (traps → b.finish e = { b with
      exit := e, phase := .write, outcome := some (2, BitVec.ofNat 32 (0x12 + 256 * e), BitVec.ofNat 32 b.rung) }) ∧
    (¬traps → b.finish e = { b with
      exit := e, phase := .write, outcome := some (1, BitVec.ofNat 32 e, BitVec.ofNat 32 b.rung) })) ∧
  (∀ b : Rfb, let x : Rfb := { b with escalate := false, rung := b.rung + 1 }
    (b.escalate = false → b.afterWrite = { b with phase := .place, step := .solve, j := b.j + 1, total := b.total + 1 }) ∧
    (b.escalate = true → x.rungAt.2.1 ≠ 0 → b.afterWrite = { x with phase := .place, step := .refactor }) ∧
    (b.escalate = true → x.rungAt.2.1 = 0 → b.afterWrite =
      { x with phase := .place, step := .solve, j := 1, run := 0, total := b.total + 1 })) ∧
  (∀ (s : State) die ctx prio addr fut handle l, SMap.wf {} s.dies → (s.addRfb die ctx prio addr fut handle l).die die = { s.die die with
    rfbs := (s.die die).rfbs ++ [{ id := s.nextId, addr, ctx, prio, fut, taskHandle := handle, launch := l }] })

/-- RMA.PUT, RMA.GET and RMA.FLAG (R340, R341, R412): the operation is checked, its future initialised and its parts sent to
the device of its window, from LOCAL in memory or in the scratchpad; a flag goes behind the parts of the thread's earlier PUTs to
its device. That the parts are sent, and a PUT's bytes read, in the step that issues (log 64), and that a flag keeps a record of
KIND 3 and cause 5 for its refusal (log 76), are the model's readings. -/
def Obligations.RemoteAccessResults : Prop :=
  (∀ h nf a c, ∀ x ∈ [(Instr.rmaPut h nf a c, true), (.rmaGet h nf a c, false)],
    Does x.1 fun t s => okOf (s.rma t x.2 (t.pair a) (if nf then 0 else t.pair c) (if x.2 then 0 else h.ch.toNat))) ∧
  (∀ (s : State) (t : Thread) put a fut ch x d node w off e, a.toNat % 64 = 0 → canonical a = true → s.loadNat t.ctx a 64 = .ok x →
    parseRma x = .ok d → fut.toNat % 16 = 0 → let al := s.allocOf t
    (if d.scratch then d.loc.toNat + d.bytes ≤ al.2.2 else canonical d.loc = true) →
    s.locate t.ctx d.remote (if put then .write else .read) true = .ok (.remote node w off) →
    (s.threadFill t a 64 ch).initFuture t.ctx fut = .ok e →
    let id := e.freshId
    let r : Rma :=
      { id := id.1, ctx := t.ctx, tid := t.tid, node, put, remote := d.remote, loc := d.loc, scratch := d.scratch
        task := t.task, taskHandle := e.taskHandle t, die := t.place.die, core := t.place.unit
        base := if d.scratch then al.1 * 2 ^ 18 + al.2.1 else 0, size := if d.scratch then al.2.2 else 0, bytes := d.bytes
        todo := rmaParts d.remote.toNat (if d.scratch then 0 else d.loc.toNat) (d.bytes / 2048 + 3) 0 d.bytes
        fut, scope := d.scope }
    s.rma t put a fut ch = .ok (({ id.2 with net := { id.2.net with rmas := id.2.net.rmas ++ [r] } } : State).rmaGo id.1)) ∧
  (∀ (s : State) id, s.rmaGo id =
    (List.range (((s.rma? id).map (·.todo.length)).getD 0)).foldl (fun (e : State) _ => e.rmaSend id) s) ∧
  (∀ (s : State) id (r : Rma) p rest w off, s.rma? id = some r → r.fid = none → r.todo = p :: rest →
    s.locate r.ctx (r.remote + BitVec.ofNat 64 p.1) (if r.put then .write else .read) true = .ok (.remote r.node w off) →
    let u : State := { s with nextId := s.nextId + 1 }
    let here := r.loc + BitVec.ofNat 64 p.1
    let sent := fun (e : State) m => (e.sendFor r.ctx r.node m).updRma id fun r =>
      { r with todo := rest, parts := r.parts ++ [{ op := s.nextId, off := p.1, n := p.2 }] }
    (r.put = true → r.scratch = true → s.inImage r = false → s.rmaSend id = sent u (.put s.nextId w off r.ctx r.tid
      (takeBytes s.scratch (r.base + (r.loc.toNat + p.1)) p.2))) ∧
    (∀ l, r.put = true → r.scratch = false → s.loadOne r.ctx here p.2 .read = .ok l →
      s.rmaSend id = sent (u.readFill r.ctx here p.2) (.put s.nextId w off r.ctx r.tid l)) ∧
    (r.put = false → (r.scratch = true ∨ ∃ k, s.key r.ctx here .write = .ok k) →
      s.rmaSend id = sent u (.getReq s.nextId w off p.2 r.ctx r.tid))) ∧
  (∀ remote loc n, ((rmaParts remote loc (n / 2048 + 3) 0 n).map (·.2)).sum = n) ∧
  (∀ remote loc n, ∀ p ∈ rmaParts remote loc (n / 2048 + 3) 0 n, 0 < p.2 ∧ (remote + p.1) % 4096 + p.2 ≤ 4096 ∧
    (loc + p.1) % 4096 + p.2 ≤ 4096) ∧
  (∀ h add a b, Does (.rmaFlag h add a b) fun t s =>
    match s.locate t.ctx (t.pair a) (if add then .rmw else .write) true with
    | .ok (.remote node w off) =>
      if (t.pair a).toNat % 8 = 0 ∧
          (∀ r ∈ s.net.rmas, r.put = true → r.tid = t.tid → r.node = node → r.todo = []) then
        let refusal : FaultRec :=
          { time := 0, addr := t.pair a, task := s.taskHandle t, die := t.place.die, agent := 8, unit := t.place.unit, cause := 5
            kind := 3, acc := if add then .rmw else .write }
        some (s.sendFor t.ctx node (.flag w off t.ctx t.tid add (t.pair b)) (some refusal))
      else none
    | _ => none)

/-! ## System instructions and traps (14) -/

/-- SRD, SWR, ICINV, IFENCE, CLK and PERF.RD (R343, R344, R355 to R359). TRAP, BPT and PERF.CFG (R345, R359) raise their
traps. -/
def Obligations.SystemAndTrapInstructions : Prop :=
  ((∀ h d r, Does (.srd h d r) fun t s =>
    some (s.updThread t.tid fun t => if r.wide then t.putPair d (s.sysReg t r) .i32 .i32 else t.put d (loWord (s.sysReg t r)) .i32)) ∧
  (∀ (s : State) (t : Thread), t.section_ = none →
    s.sysReg t .time = s.time ∧ s.sysReg t .cycles = s.cycles ∧ s.sysReg t .tpc = t.frame.tpc ∧ s.sysReg t .tls = t.tlsBase ∧
    s.sysReg t .ctx = BitVec.ofNat 64 t.ctx ∧ s.sysReg t .task = (s.taskHandle t).setWidth 64 ∧
    (t.member = none → s.sysReg t .group = 0xFFFFFFFF ∧ s.sysReg t .grank = 0 ∧ s.sysReg t .gsize = 1 ∧ s.sysReg t .frag = 0) ∧
    s.sysReg t .priv = (match t.priv with
      | .u => 0
      | .h => 1
      | .f => 2)) ∧
  (∀ h r a, r.writable = true → Does (.swr h r a) fun t s =>
    match r with
    | .tpc => some (s.updThread t.tid fun t => { t with frame := { t.frame with tpc := t.pair a } })
    | .tpred => some (s.updThread t.tid fun t => { t with frame := { t.frame with preds := (t.val a).setWidth 7 } })
    | .bpctl => if t.val a &&& 0xE0E0E0E0 = 0 then some (s.updCtx t.ctx fun x => { x with bpctl := t.val a }) else none
    | .bpa i => some (s.updCtx t.ctx fun x => { x with bpa := x.bpa.set i.toNat (t.pair a) })
    | _ => none) ∧
  (∀ h a b, Does (.icinv h a b) fun t s => some (s.icinv t.ctx (t.pair a) (t.val b).toNat)) ∧
  (∀ (s : State) c va n e, e ∈ (s.icinv c va n).icache ↔ e ∈ s.icache ∧ ∀ k ∈ s.rangeKeys c va n,
    ¬(k.1 / 1024 ≤ e.2.1 / 1024 ∧ e.2.1 / 1024 ≤ (k.1 + k.2 - 1) / 1024)) ∧
  (∀ h, Runs (.ifence h) fun t => { t with prefetch := [] }) ∧
  (∀ h cyc d, Does (.clk h cyc d) fun t s =>
    if t.pend.all (·.known) then
      some (s.updThread t.tid fun t =>
        t.commitAll.putPair d (if cyc then (if t.section_.isSome then s.lcCycles else s.cycles) else s.time) .i32 .i32)
    else none) ∧
  (∀ h d n, Does (.perfRd h d n) fun t s =>
    let k := (s.core (t.place.coreIdx?.getD 0)).perf.get ({} : Counter) n.toNat
    some (s.updThread t.tid fun t => t.putPair d k.value .i32 .i32))) ∧
  ((∀ h imm, Traps (.trap h imm) { cause := 0x10, detail0 := imm.setWidth 64 }) ∧
  (∀ h imm, Traps (.bpt h imm) { cause := 0x0F, detail0 := imm.setWidth 64 }) ∧
  (∀ h n a (s : State) (t : Thread) first rest, let i := Instr.perfCfg h n a
    s.arrives i (first :: rest) = true → (s.landDue i (first :: rest)).thread? first = some t →
    (∀ j ∈ first :: rest, ∀ u, (s.landDue i (first :: rest)).thread? j = some u →
      wordStop (encodeWord i) u.section_.isSome = none ∧ u.regsBelow i.regUses = true) →
    exec i s = .next ((s.landDue i (first :: rest)).stop s.cur first (encodeWord i)
      (.trap { cause := 0x14, detail0 := n.setWidth 64 }))))

/-- Taking a trap in a free thread with a handler (R346 to R349): the thread has its frame, state H and the handler's
address; its registers with their landed results, its predicates and its return stack, memory and every other thread keep
their values. The words of the trap frame, read through sy.f0 to sy.f15 (R349). -/
def Obligations.TrapEntryAndFrame : Prop :=
  (∀ (s : State) (t : Thread) (x : Trap) iword pc, s.cur = .thread t.tid → s.thread? t.tid = some t → t.section_ = none →
    t.member = none → t.place.slot?.isSome = true → t.priv ≠ .h → t.handler = some pc → (∀ p ∈ t.pend, p.known = true) →
    x.cause ≠ 0x11 → x.tid = none →
    (x.cause = 0x0F → (s.ctx? t.ctx).all (fun (c : Ctx) => !c.attached && !c.stop) = true) → (∀ k ∈ s.tasks, k.adoptedBy = []) →
    let e := s.stop s.cur t.tid iword (.trap x)
    e.mem = s.mem ∧ e.scratch = s.scratch ∧ e.cells = s.cells ∧ e.groups = s.groups ∧ e.tasks = s.tasks ∧
    (∀ k, k ≠ t.tid → e.thread? k = s.thread? k) ∧
    ∃ u, e.thread? t.tid = some u ∧ u.priv = .h ∧ u.pc = pc ∧ u.status = .ready ∧ u.regs = t.commitAll.regs ∧ u.preds = t.preds ∧
      u.rstack = t.rstack ∧ u.spilled = t.spilled ∧
      u.frame = { cause := x.cause, detail0 := x.detail0, detail1 := x.detail1, faddr := x.faddr, iword, tpc := t.pc
                  preds := t.preds, task := s.taskHandle t, frank := 0xFF, state := 0
                  adopt := BitVec.ofNat 4 (((s.task? t.task).map (·.adopt)).getD 0) }) ∧
  (∀ f : TrapFrame,
    (f.word 0).extractLsb' 0 8 = f.cause ∧ (f.word 0).extractLsb' 26 2 = f.state ∧ (f.word 0).extractLsb' 28 4 = f.adopt ∧
    (f.word 1).extractLsb' 0 5 = f.frag ∧ (f.word 1).extractLsb' 8 5 = f.parent ∧ (f.word 1).extractLsb' 16 8 = f.frank ∧
    (f.word 1).extractLsb' 24 8 = f.skid ∧ (f.word 2).extractLsb' 0 7 = f.preds ∧ f.word 3 = f.task ∧ f.word 4 = f.ranks ∧
    f.word 5 = f.sibmask ∧ joinWords (f.word 6) (f.word 7) = f.tpc ∧ joinWords (f.word 8) (f.word 9) = f.iword ∧
    joinWords (f.word 10) (f.word 11) = f.faddr ∧ joinWords (f.word 12) (f.word 13) = f.detail0 ∧
    joinWords (f.word 14) (f.word 15) = f.detail1)

/-- TRET and TRET.NEXT (R351): every thread of the agent goes back to U at its frame's address, or 8 bytes on, with the
frame's predicates; a free thread keeps everything else. -/
def Obligations.TrapReturnResults : Prop :=
  (∀ h next (s : State) tids, s.issues (.tret h next) tids = true →
    (∀ j ∈ tids, ∀ t, (s.landed (.tret h next) tids).thread? j = some t → (t.tretTarget next).toNat % 8 = 0 ∧
      canonical (t.tretTarget next) = true) →
    exec (.tret h next) s = .next (((((s.landed (.tret h next) tids).tallyIssue tids).trapReturn s.cur next).splitAfter
      s.cur).issued none tids)) ∧
  (∀ h next (s : State) (t : Thread), s.cur = .thread t.tid → s.issues (.tret h next) [t.tid] = true →
    (s.landed (.tret h next) [t.tid]).thread? t.tid = some t →
    (t.frame.tpc + if next then 8 else 0).toNat % 8 = 0 → canonical (t.frame.tpc + if next then 8 else 0) = true →
    ∃ s' u, exec (.tret h next) s = .next s' ∧ s'.mem = s.mem ∧ s'.scratch = s.scratch ∧ s'.groups = s.groups ∧
      (∀ k, k ≠ t.tid → s'.thread? k = s.thread? k) ∧ s'.thread? t.tid = some u ∧ u.priv = .u ∧ u.preds = t.frame.preds ∧
      u.pc = t.frame.tpc + (if next then 8 else 0) ∧ u.status = .ready ∧ u.regs = t.regs ∧ u.frame = t.frame)

/-- Steps 2 to 4 of R235, for every instruction of the processor: a fragment takes each step together, and the first thread that
the first failing step stops, stops its agent. An instruction whose guards are false in every thread has no effect and
completes (R222), whichever it is; TRET ignores guards. -/
def Obligations.DecodeStopsAndGuards : Prop :=
  ((∀ (i : Instr) (s : State) tids j e, i.hdr?.isSome = true → s.arrives i tids = true →
    (s.landDue i tids).agentStop i tids = some (j, e) →
    exec i s = .next ((s.landDue i tids).stop s.cur j (encodeWord i) e)) ∧
  (∀ (i : Instr) (s : State) j t e, i.hdr?.isSome = true → s.arrives i [j] = true →
    (s.landDue i [j]).thread? j = some t → (s.landDue i [j]).decodeStop i t = some e →
    exec i s = .next ((s.landDue i [j]).stop s.cur j (encodeWord i) e)) ∧
  (∀ (i : Instr) (s : State) tids, s.agentStop i tids = none ↔
    ∀ j ∈ tids, ∀ t, s.thread? j = some t → s.decodeStop i t = none) ∧
  (∀ (i : Instr) (s : State) tids j e, s.agentStop i tids = some (j, e) →
    ∃ (n : Nat) (c : Thread → Option Stop) (k : Nat) (t : Thread),
      (s.decodeSteps i)[n]? = some c ∧ tids[k]? = some j ∧ s.thread? j = some t ∧ c t = some e ∧
      (∀ m d, m < n → (s.decodeSteps i)[m]? = some d → ∀ j' ∈ tids, ∀ u, s.thread? j' = some u → d u = none) ∧
      (∀ m j', m < k → tids[m]? = some j' → ∀ u, s.thread? j' = some u → c u = none)) ∧
  (∀ (i : Instr) (s : State) (t : Thread), s.decodeStop i t = none ↔
    wordStop (encodeWord i) t.section_.isSome = none ∧ t.regsBelow i.regUses = true ∧ s.privStop t i = none ∧
      s.bpHit t.ctx t.pc 8 [1] = none) ∧
  (∀ (s : State) (t : Thread) h d r, s.privStop t (.srd h d r) = none ↔ r.needsH = false ∨ t.priv = .h) ∧
  (∀ (s : State) (t : Thread) h a r, s.privStop t (.swr h r a) = none ↔ r.needsH = false ∨ t.priv = .h) ∧
  (∀ (s : State) (t : Thread) h next, s.privStop t (.tret h next) = none ↔ t.priv = .h)) ∧
  (∀ (i : Instr) (s : State) tids, i.hdr?.isSome = true → (∀ h next, i ≠ .tret h next) → s.issues i tids = true →
    s.acting i tids = [] → ∃ s', exec i s = .next s' ∧ (s.landed i tids).retires s' tids)

/-! ## Hardware queues (19) -/

/-- The words of a queue program (R406) that the queue processor `q` runs on its own registers. LDW and STW (R406, R407): the
eight bytes at an offset of one of the program's windows. R406 and R407 end the packet with FCODE 3 at an offset beyond the
window; that a misaligned offset does so too is the model's reading (log 73). -/
def Obligations.QueueWordResults : Prop :=
  (∀ (s : State) q, s.cur = .queue q →
    (∀ (i imm n k : BitVec 16) (a b : BitVec 4),
      let put : Dword → Queue → Queue := fun v x => { x with x := x.x.set a.toNat v, pc := x.pc + 1 }
      let at' : Queue → BitVec 4 → Dword := fun x r => x.x.getD r.toNat 0
      ∀ p ∈ ([(.qpPkt i a, fun x => put (x.packet.getD i.toNat 0) x), (.qpMovi imm a, put (imm.setWidth 64)),
          (.qpShli n b a, fun x => put (at' x b <<< n.toNat) x), (.qpShri n b a, fun x => put (at' x b >>> n.toNat) x),
          (.qpAdd b a, fun x => put (at' x a + at' x b) x), (.qpAnd b a, fun x => put (at' x a &&& at' x b) x),
          (.qpOr b a, fun x => put (at' x a ||| at' x b) x),
          (.qpBeq k b a, fun x => { x with pc := x.pc + 1 + if at' x a = at' x b then k.toNat else 0 }),
          (.qpBne k b a, fun x => { x with pc := x.pc + 1 + if at' x a ≠ at' x b then k.toNat else 0 }),
          (.qpBltu k b a, fun x => { x with pc := x.pc + 1 + if (at' x a).toNat < (at' x b).toNat then k.toNat else 0 }),
          (.qpLoop n, fun x => { x with loops := (x.pc + 1, n.toNat) :: x.loops, pc := x.pc + 1 }),
          (.qpStg i a, fun x => { x with staging := x.staging.set i.toNat (at' x a), pc := x.pc + 1 })] :
          List (Instr × (Queue → Queue))), exec p.1 s = .next (s.updQueue q p.2)) ∧
    exec .qpEndl s = .next (s.updQueue q fun x => match x.loops with
      | (first, n) :: l => if 1 < n then { x with pc := first, loops := (first, n - 1) :: l } else { x with pc := x.pc + 1, loops := l }
      | [] => { x with pc := x.pc + 1 }) ∧
    exec .qpEnd s = .next ((s.updQueue q fun x => { x with
      state := .idle, inPacket := false, loops := []
      packets := x.packets.map fun p => if p.serial = x.serial then { p with ended := true } else p }).settleQueue q)) ∧
  ((∀ (s : State) q w b a va l, s.cur = .queue q → (s.queue q).window w ((s.queue q).reg b) = some va →
    s.loadOne (s.queue q).ctx va 8 .read = .ok l →
    exec (.qpLdw w b a) s = .next (s.updQueue q fun x =>
      { x with x := x.x.set a.toNat (BitVec.ofNat 64 (leNat l)), pc := x.pc + 1 })) ∧
  (∀ (s : State) q w b a va e, s.cur = .queue q → (s.queue q).window w ((s.queue q).reg b) = some va →
    s.store (s.queue q).ctx va (natLe 8 ((s.queue q).reg a).toNat) = .ok e →
    exec (.qpStw w b a) s = .next (e.updQueue q fun x => { x with pc := x.pc + 1 })) ∧
  (∀ (x : Queue) p w off base len z, x.image = some p → p.windows[w.toNat]? = some (base, len, z) →
    x.window w off = if off.toNat % 8 = 0 ∧ off.toNat + 8 ≤ len then some (base + off) else none) ∧
  (∀ (s : State) q w b a, s.cur = .queue q → (s.queue q).window w ((s.queue q).reg b) = none →
    exec (.qpLdw w b a) s = .next (s.rejectPacket q 3 none) ∧ exec (.qpStw w b a) s = .next (s.rejectPacket q 3 none)))

/-- The actions of a queue program (R407) that the queue processor `q` runs. LAUNCH of a task that names no future and is no
range (R56, R407, R461): its record goes to a core or to the pool of its context, and the packet waits for its end. -/
def Obligations.QueueActionResults : Prop :=
  (let goesOn := fun (q : Nat) (e : State) => e.updQueue q fun x => { x with pc := x.pc + 1 }
  let blocks := fun (q : Nat) (b : QBlock) (e : State) => e.updQueue q fun x => { x with state := .blocked, block := some b }
  ∀ (s : State) q, s.cur = .queue q → let x := s.queue q
    exec .actNop s = .next (goesOn q s) ∧
    (∀ e, s.launch q x = .done e → exec .actLaunch s = .next (goesOn q e)) ∧
    (∀ key, (x.stage 0).toNat % 8 = 0 → s.key x.ctx (x.stage 0) .rmw = .ok key → s.poisoned key 8 = false →
      exec .actSignal s = .next (goesOn q (s.putFor x.ctx key (natLe 8
        (if (x.stage 2).getLsbD 0 then BitVec.ofNat 64 (s.num key 8) + x.stage 1 else x.stage 1).toNat)))) ∧
    (∀ key, (x.stage 0).toNat % 8 = 0 → (x.stage 2).toNat % 4 ≠ 3 → s.locate x.ctx (x.stage 0) .read true = .ok (.mem key) →
      s.poisoned key 8 = false → let cond := (x.stage 2).toNat % 4
      exec .actWaitsig s = .next (if sigHolds cond (BitVec.ofNat 64 (s.num key 8)) (x.stage 1) then goesOn q s
        else blocks q (.signal (x.stage 0) (x.stage 1) cond) s)) ∧
    (∀ node exp off, (x.stage 0).toNat % 8 = 0 → (x.stage 2).toNat % 4 ≠ 3 →
      s.locate x.ctx (x.stage 0) .read true = .ok (.remote node exp off) →
      exec .actWaitsig s = .next (blocks q (.remoteSignal node exp off (x.stage 1) ((x.stage 2).toNat % 4))
        (s.sendFor x.ctx node (.signal exp off x.ctx q (x.stage 1) ((x.stage 2).toNat % 4) false)))) ∧
    (∀ d e, s.queueCopy x = .ok (d, e) → exec .actCopy s = .next (goesOn q ((e.trackFuture q x.ctx (x.stage 1)).addCopy
      { id := 0, seq := 0, ctx := x.ctx, die := x.die, unit := 0, desc := d, fut := x.stage 1
        launch := if x.stage 1 = 0 then some (q, x.serial) else none }))) ∧
    (∀ e, (x.stage 0).toNat % 256 = 0 → (x.stage 1).toNat % 16 = 0 → s.initFuture x.ctx (x.stage 1) = .ok e →
      exec .actRfb s = .next (goesOn q ((e.trackFuture q x.ctx (x.stage 1)).addRfb x.die x.ctx x.prio (x.stage 0) (x.stage 1)
        noOwner (if x.stage 1 = 0 then some (q, x.serial) else none)))) ∧
    (let node := (x.stage 0).toNat / 2 ^ 32 % 65536
      let target := (x.stage 0).toNat % 65536
      let count := (x.stage 1).setWidth 32
      exec .actChain s = .next (
        if node = 0xFFFF then
          (if ((s.queue target).ccount - count).toNat < 2 ^ 31 then goesOn q s else blocks q (.chain target count) s)
        else blocks q (.remoteChain node target count) (s.sendFor x.ctx node (.chainReg target q count)))) ∧
    (∀ cur val, sigHolds 0 cur val = decide (val.toNat ≤ cur.toNat) ∧ sigHolds 1 cur val = (cur == val) ∧
      sigHolds 2 cur val = (cur != val))) ∧
  (∀ (s : State) q (x : Queue) h r e p, let raw := ((List.range 8).map fun i => (x.stage i).toNat * 2 ^ (64 * i)).sum
    let entry : Dword := (BitVec.ofNat 57 raw).signExtend 64
    raw / 2 ^ 192 % 2 ^ 64 = 0 → raw / 2 ^ 59 % 4 = 0 → raw / 2 ^ 320 % 2 ^ 32 ≠ 0 → entry.toNat % 8 = 0 →
    s.readHdr x.ctx entry = .ok (some h) → h.gang = false →
    r = { num := ((s.ctx? x.ctx).map (·.nextRec)).getD 0, ctx := x.ctx, kind := .single, prio := x.prio, entry
          args := (List.range 4).map fun i => BitVec.ofNat 32 (raw / 2 ^ (64 + 32 * i)), fut := 0
          baseIdx := BitVec.ofNat 64 (raw / 2 ^ 256), count := raw / 2 ^ 320 % 2 ^ 32, hdr := h, stop := 1
          launch := some (q, x.serial) } →
    (((s.updCtx x.ctx fun c => { c with nextRec := (c.nextRec + 1) % 2 ^ 21 }).packetWork q none).placeLaunch r none) = some (e, p) →
    s.launch q x = .done e)

/-- The registers of a queue (R401, R402, R410, R411): ENABLE, the kick register, RESUME and ENABLE = 0. The queue processor
reads the packet at RDIDX (R402, R405, R408), and a blocked queue goes on once what it waits for holds (R407); ARMED
registers a host waiter (R409). That ENABLE keeps FCODE and PARTIAL, and that the queues of a context and priority take turns
after the one served last, is the model's reading (log 74). -/
def Obligations.QueueRegisterAndEventResults : Prop :=
  ((∀ (s : State) func q, s.reaches func q = true → (s.queue q).enable = false → s.queueReady (s.queue q) = true →
    exec (.queueEnable func q) s = .next (s.updQueue q fun x =>
      { x with
        enable := true, rdidx := 0, kickv := 0, ccount := 0, state := .idle, x := List.replicate 16 0
        image := if x.prog = 0 then none else (s.ctx? x.ctx).bind fun c => c.progs.find? (·.num == x.prog) })) ∧
  (∀ (s : State) func q, s.reaches func q = true → (s.queue q).enable = false → s.queueReady (s.queue q) = false →
    exec (.queueEnable func q) s = .next (s.updQueue q fun x => { x with fcode := 1 })) ∧
  (∀ (s : State) func q, s.reaches func q = true → (s.queue q).enable = true →
    exec (.queueDisable func q) s = .next (s.updQueue q fun x =>
      { x with
        enable := false, state := .off, block := none, inPacket := false, loops := [], packets := []
        partial_ := x.inPacket, rdidx := if x.inPacket then x.rdidx - 1 else x.rdidx })) ∧
  (∀ (s : State) func q, s.reaches func q = true → (s.queue q).state = .faulted →
    exec (.queueResume func q) s = .next (s.updQueue q fun x => { x with state := .idle })) ∧
  (∀ (s : State) func q val, s.reaches func q = true → exec (.kick func q val) s =
    .next (if (s.queue q).enable = true ∧ 1 ≤ (val.setWidth 32 - (s.queue q).kickv).toNat ∧
        (val.setWidth 32 - (s.queue q).kickv).toNat ≤ 2 ^ 31 - 1
      then (s.updQueue q fun x => { x with kickv := val.setWidth 32 }).tallyIo 0 q 0x202 (some (s.queue q).ctx) else s)) ∧
  (∀ (s : State) func q, s.reaches func q = false → ∀ i ∈ [Instr.queueEnable func q, .queueDisable func q, .queueResume func q,
    .kick func q 0], exec i s = .next s)) ∧
  ((∀ (s : State) q l, let x := s.queue q
    s.boot.state = .ready → x.enable = true → x.state = .idle → x.rdidx ≠ x.kickv → s.ctxBusy x.ctx = false →
    s.nextQueue x.ctx = some q → (x.kickv - x.rdidx).toNat ≤ 2 ^ x.log2size →
    s.loadOne x.ctx (x.ringbase + BitVec.ofNat 64 (64 * (x.rdidx.toNat % 2 ^ x.log2size))) 64 .read = .ok l →
    exec (.packetRead q) s = .next (((s.updCtx x.ctx fun c => { c with lastQueue := c.lastQueue.set x.prio q }).tallyIo 0 q 0x201
      (some x.ctx)).startPacket q ((List.range 8).map fun i => BitVec.ofNat 64 (leNat l / 2 ^ (64 * i))))) ∧
  (∀ (s : State) q l p, SMap.wf {} s.queues → (s.queue q).image = some p →
    let y := (s.startPacket q l).queue q
    y.state = .running ∧ y.packet = l ∧ y.pc = 0 ∧ y.rdidx = (s.queue q).rdidx + 1 ∧ y.staging = List.replicate 16 0 ∧
      y.x = List.replicate 12 0 ++ (s.queue q).x.drop 12) ∧
  (∀ (s : State) q va val cond key, (s.queue q).block = some (.signal va val cond) → s.key (s.queue q).ctx va .read = .ok key →
    s.poisoned key 8 = false → sigHolds cond (BitVec.ofNat 64 (s.num key 8)) val = true →
    exec (.waitsigSatisfied q) s = .next (s.updQueue q fun x => { x with state := .running, block := none, pc := x.pc + 1 })) ∧
  (∀ (s : State) q target count, (s.queue q).block = some (.chain target count) →
    ((s.queue target).ccount - count).toNat < 2 ^ 31 →
    exec (.chainSatisfied q) s = .next (s.updQueue q fun x => { x with state := .running, block := none, pc := x.pc + 1 })) ∧
  (∀ (s : State) func idx key, let e := (s.func func).sigs.get ({} : SigWait) idx
    idx < 256 → func < 128 → s.boot.state = .ready → e.cond ≠ 3 → e.addr.toNat % 8 = 0 →
    s.locate e.ctx e.addr .read true = .ok (.mem key) → key < Config.deviceBytes →
    exec (.sigwaitArm func idx) s = .next ((s.updFunc func fun f =>
      { f with sigs := f.sigs.set {} idx { e with armed := true, home := key } }).testSig func idx)))

/-! ## The scheduler, latency cores and faults (02, 06, 20) -/

/-- THREAD_WAKE and WAIT_TIMEOUT (R53, R55, R68, R69, R80): a parked thread whose condition holds becomes ready, at the next
instruction where the condition completes the one it parked at; in a fragment it goes on only when the condition of every one
of its threads is met (R47). Admission, placing, stealing, refill and the bound of gangs (R57 to R61, R431). -/
def Obligations.WakeAndSchedulerResults : Prop :=
  ((∀ (s : State) (t : Thread) c, s.thread? t.tid = some t → t.status = .parked c → s.condMet t c = true →
    t.member = none → exec (.threadWake (.thread t.tid)) s = .next ((s.updThread t.tid fun t =>
      { t with status := .ready, pc := if c.completes then t.pc + 8 else t.pc }).refreshAge [t.tid])) ∧
  (∀ (s : State) (t : Thread) gid r c, s.thread? t.tid = some t → t.member = some (gid, r) → t.status = .parked c →
    s.condMet t c = true →
    let m := s.updThread t.tid fun t => { t with status := .parked (.unit c.completes) }
    let tids := m.actorTids (m.actorOf t)
    exec (.threadWake (.thread t.tid)) s = .next (if tids.all fun i => (m.thread? i).all (·.met)
      then (m.updThreads tids Thread.released).refreshAge tids else m)) ∧
  (∀ (t : Thread), (t.met = true ↔ ∃ done, t.status = .parked (.unit done)) ∧
    (∀ done, t.status = .parked (.unit done) →
      t.released = { t with status := .ready, pc := if done then t.pc + 8 else t.pc }) ∧
    (t.met = false → t.released = t)) ∧
  (∀ (s : State) (t : Thread), s.thread? t.tid = some t → (∀ c, t.status = .parked c → s.condMet t c = false) →
    exec (.threadWake (.thread t.tid)) s = .next s) ∧
  (∀ (s : State) (a : Actor), exec (.threadWake a) s = .next ((s.actorTids a).foldl State.wakeThread s)) ∧
  (∀ (s : State) (t : Thread) va limit key, s.thread? t.tid = some t → t.member = none →
    t.status = .parked (.future va (some limit)) → limit ≤ s.elapsed → s.key t.ctx va .read = .ok key → s.num (key + 12) 4 % 4 = 0 →
    exec (.waitTimeout (.thread t.tid)) s = .next ((s.updThreads [t.tid] fun t =>
      { t with status := .ready, timedOut := true }).refreshAge [t.tid])) ∧
  (∀ (s : State) (t : Thread) va key, s.key t.ctx va .read = .ok key →
    (∀ limit, s.condMet t (.future va limit) = (s.num (key + 12) 4 % 4 != 0)) ∧
    (∀ gen, s.condMet t (.barrier va gen) = (BitVec.ofNat 32 (s.num (key + 8) 4) != gen)) ∧
    (∀ n, s.condMet t (.bit va n) = (s.num key 8).testBit n))) ∧
  ((∀ (s : State) die core r rest e, let k := coreIdx die core
    s.admits k = true → s.placePool k = none → s.heldRecord k = none → (s.core k).queue = r :: rest →
    s.startQueued k r = some e → exec (.taskAdmit die core) s = .next e) ∧
  (∀ (s : State) die core e, s.placePool (coreIdx die core) = some e →
    exec (.taskPlace die core) s = .next e ∧ (s.admits (coreIdx die core) = true → exec (.taskAdmit die core) s = .next e)) ∧
  (∀ (s : State) die core r, let k := coreIdx die core
    ((s.core k).queue.find? fun r => r.passed.any fun t => decide (t + 64000 ≤ s.elapsed)) = some r → s.heldRecord k = none →
    exec (.heldAdmission die core) s =
      .next (s.setRecord (.queue k) r.ctx r.num fun r => some { r with heldAt := some s.elapsed })) ∧
  (∀ (s : State) die core r at', let k := coreIdx die core
    s.heldRecord k = some r → r.kind = .gang → r.heldAt = some at' →
    at' + 1000 * ((s.ctx? r.ctx).map (·.gangb)).getD 0 ≤ s.elapsed → s.startQueued k r = none →
    exec (.gangBoundExpiry die core) s = .next (s.dropGang k r)) ∧
  (∀ (s : State) die core r rest, let k := coreIdx die core
    (s.core k).spill = r :: rest → (s.core k).queue.length < 512 →
    exec (.spillRefill die core) s = .next (s.updCore k fun c => { c with queue := c.queue ++ [r], spill := rest })) ∧
  (∀ (s : State) die core victim r, let k := coreIdx die core
    let v := coreIdx die victim
    k ≠ v → s.admits k = true → s.admits v = true → s.coreCtx k = s.coreCtx v → s.hasReady k = false → (s.core k).queue = [] →
    (((s.core v).queue.filter fun r => r.kind != .gang).getLast?) = some r →
    exec (.taskSteal die core victim) s = .next ((s.steal k v r).tallyCore k 0x044 1)) ∧
  (∀ (s : State) die core c, s.coreCtx (coreIdx die core) = some c → (s.core (coreIdx die core)).stopping = true →
    (∀ t ∈ s.tasksOn (coreIdx die core), s.saveReady t.id = true) →
    exec (.preemptSave die core) s = .next (s.vacate c (coreIdx die core))))

/-- The latency cores (R169 to R172, R178): a request is accepted where its home has room and nobody waits, or refused; the
oldest refused one takes a free entry; the head of the queue starts with the registers of R172. -/
def Obligations.LatencyCoreResults : Prop :=
  (∀ (s : State) lc r rest, SMap.wf {} s.lcs → (s.lc lc).offers = r :: rest →
    exec (.shipArrival lc) s = .next (let e := s.updLc lc fun l => { l with offers := rest }
      if (s.lc lc).room && (s.lc lc).refused.isEmpty then e.acceptShip lc r else e.refuseShip lc r)) ∧
  (∀ (s : State) lc r rest, (s.lc lc).refused = r :: rest → (s.lc lc).room = true →
    exec (.shipGrant lc) s = .next ((s.updLc lc fun l => { l with refused := rest }).acceptShip lc r)) ∧
  (∀ (s : State) lc r (t : Thread), r.sender = .thread t.tid → s.thread? t.tid = some t → t.member = none → t.unsent = true →
    let q := s.updLc lc fun l => { l with queue := l.queue ++ [r] }
    (r.kind ≠ .w → s.acceptShip lc r =
      (q.updThread t.tid fun t => { t with status := .ready, pc := t.pc + 8 }).refreshAge [t.tid]) ∧
    (r.kind = .w → s.acceptShip lc r = (q.updThread t.tid fun t => { t with status := .parked .shipRun }).endAdoptions)) ∧
  (∀ (s : State) lc r (t : Thread), r.sender = .thread t.tid → s.thread? t.tid = some t → t.section_ = none → t.unsent = true →
    s.refuseShip lc r = (((s.tallyDie (lc / 8) 0x111 1 (some r.ctx)).updLc lc fun l => { l with refused := l.refused ++ [r] }).updThread
      t.tid fun t => if t.unsent then { t with status := .parked (.refused lc) } else t).endAdoptions) ∧
  (∀ (s : State) lc r rest, (s.lc lc).running = none → (s.lc lc).queue = r :: rest → r.entry.toNat % 8 = 0 →
    s.thread? s.nextId = none →
    ∃ e t, exec (.sectionStart lc) s = .next e ∧ e.thread? s.nextId = some t ∧ e.mem = s.mem ∧
      (∀ k, k ≠ s.nextId → e.thread? k = s.thread? k) ∧ t.pc = r.entry ∧ t.place = .lc lc ∧ t.ctx = r.ctx ∧ t.preds = 0 ∧
      t.section_ = some { req := r, start := s.elapsed } ∧ t.regs.length = 255 ∧
      (∀ i, i < 6 → (t.reg i).val = r.args.getD i 0) ∧ t.pair 6 = r.lock ∧ (t.reg 8).val = r.task ∧
      (t.reg 9).val = BitVec.ofNat 32 (r.kind.code + 4 * r.m)) ∧
  (∀ (s : State) lc tid t x, (s.lc lc).running = some tid → s.thread? tid = some t → t.section_ = some x →
    x.start + 1000 * ((s.ctx? t.ctx).map (·.tlim)).getD 0 ≤ s.elapsed →
    exec (.sectionTimeLimit lc) s = .next (s.sectionFault t x { cause := 0x10, detail0 := 1 }))

/-- Fault records (R423, R424) and uncorrectable errors (R432). -/
def Obligations.FaultEventResults : Prop :=
  (∀ (s : State) c, exec (.faultRecordWrite c) s = .next (s.writeRecord c)) ∧
  (∀ (s : State) c x r rest, s.ctx? c = some x → x.heldRecs = r :: rest →
    let tail := s.num x.cmbase 4
    (tail + 2 ^ 32 - s.num (x.cmbase + 8) 4) % 2 ^ 32 < 2 ^ x.fqlog2 →
    s.writeRecord c = (((((s.putFor c (x.cmbase + 64 + 32 * (tail % 2 ^ x.fqlog2)) (natLe 32 r.toNat)).putFor c x.cmbase
      (natLe 4 (tail + 1))).updCtx c fun x => { x with heldRecs := rest }).routeRecord c x r tail).tallyIo 2 c 0x20A (some c))) ∧
  (∀ (s : State) c x k seq, s.ctx? c = some x → (x.claims.find? fun y => y.seq == seq) = some k → k.host = true →
    k.since + 100000 ≤ s.elapsed → exec (.routingTimeout c seq) s =
      .next ((s.updCtx c fun x => { x with claims := x.claims.filter (·.seq != seq) }).interrupt x.func x.fvec)) ∧
  (∀ (s : State) pa o, exec (.scrubUncorrectable (some pa) o) s =
    .next { s with uncorr := s.uncorr + 1, poison := keyInsert s.poison (pa / 256) }) ∧
  (∀ (s : State) r, (s.takeHealth r).health.uncorr = s.uncorr) ∧
  (∀ (s : State) x c, s.entryOwner x = some (some c) → let e : State := { s with uncorr := s.uncorr + 1 }
    exec (.scrubUncorrectable none (some x)) s =
      .next (((e.postRecord c { time := 0, agent := 9, cause := 0x11, kind := 5 }).writeRecords c).endContext c)) ∧
  (∀ (s : State) x, s.entryOwner x = none →
    exec (.scrubUncorrectable none (some x)) s = .next { s with uncorr := s.uncorr + 1 }) ∧
  (∀ (s : State) o, (∀ x, o = some x → s.entryOwner x = some none) →
    ∃ e, exec (.scrubUncorrectable none o) s = .next e ∧ e.boot.state = .stopped ∧ e.boot.failcode = 7) ∧
  (∀ (s : State) x h, (s.home.find? fun y => y.sector == x) = some h → s.entryOwner (.home x) = some h.owner) ∧
  (∀ (s : State) k x h, (s.l1.find? fun y => y.core == k && y.sector == x) = some h → s.entryOwner (.l1 k x) = some h.owner) ∧
  (∀ (s : State) d k, s.entryOwner (.core d k) = (s.core (coreIdx d k)).lastCtx.map some)

/-! ## Mailbox and debugger (14, 19, 20, 21) -/

/-- LOAD, FREE, CREATE, DESTROY, SETCORES, PREEMPT and TLBINV (R406, R417, R418, R422, R429, R433) where the mailbox takes
the command and its operands pass every check: the whole effect, with STAT 2; PREEMPT and a CREATE that waits for its number
stay busy. -/
def Obligations.MailboxContextResults : Prop :=
  ∀ (s : State) func ctx, s.takesCommand func →
    (∀ x prog va head l ws, s.ctx? ctx = some x → x.func = func → 1 ≤ prog → prog ≤ 4095 →
      s.loadNat ctx va 136 = .ok head → let n := head % 2 ^ 16
      1 ≤ n → n ≤ 1024 → s.load ctx (va + 136) (4 * n) = .ok l →
      let words := (List.range n).map fun i => BitVec.ofNat 32 (leNat l / 2 ^ (32 * i))
      verifyImage head words = .ok ws →
      exec (.load func prog ctx va) s = (let e := s.updCtx ctx fun c =>
          { c with progs := c.progs.filter (·.num != prog) ++ [{ num := prog, words, windows := ws }] }
        ({ e with free := e.free + 1 } : State)).commandDone func) ∧
    (∀ x prog, s.ctx? ctx = some x → x.func = func → 1 ≤ prog → x.progs.any (·.num == prog) = true →
      exec (.free func prog ctx) s =
        (s.updCtx ctx fun c => { c with progs := c.progs.filter (·.num != prog) }).commandDone func) ∧
    (∀ x pa, ctx < 1024 → s.ctx? ctx = none → pa + 64 ≤ Config.usageBase → parseCtx func (s.num pa 64) = some x →
      exec (.create func ctx pa) s =
        if (s.usage.get ({} : Usage) ctx).ending then
          .next ((s.updFunc func fun f => { f with pending := some (ctx, x) }).setStat func 1 0 0)
        else (s.newContext ctx x).commandDone func) ∧
    (∀ x, s.ctx? ctx = some x → x.func = func ∨ func = 0 ∨ func = 64 →
      exec (.destroy func ctx) s = (s.endContext ctx).commandDone func) ∧
    (∀ x pa, s.holdsSem func = true → s.ctx? ctx = some x → pa + 64 ≤ Config.usageBase →
      let mask := (List.range 512).filter fun i => (s.num pa 64).testBit i
      let new := mask.filter fun k => !x.cores.contains k
      (∀ k ∈ new, ∀ p ∈ s.ctxs, ∀ y, p.2 = some y → k ∉ y.cores) →
      (new = [] ∨ x.cores ≠ [] ∨ (s.ctxs.filter fun p => p.2.any fun y => !y.cores.isEmpty).length < 64) →
      x.layoutBytes (new.foldl keyInsert x.cores).length (new.foldl keyInsert x.everCores).length ≤ x.cmsize →
      exec (.setcores func ctx pa) s = (s.updCtx ctx fun c =>
        { c with cores := new.foldl keyInsert c.cores, everCores := new.foldl keyInsert x.everCores }).commandDone func) ∧
    (∀ x pa, s.holdsSem func = true → s.ctx? ctx = some x → pa + 64 ≤ Config.usageBase →
      let mask := (List.range 512).filter fun i => (s.num pa 64).testBit i
      mask ≠ [] → (∀ k ∈ mask, k ∈ x.cores) → x.preempting = [] →
      exec (.preempt func ctx pa) s = .next (((mask.foldl (fun s k => s.stopCore ctx k) s).updCtx ctx fun x =>
        { x with preempting := mask, preemptFunc := func }).setStat func 1 0 0)) ∧
    (∀ x (va len : Dword), s.ctx? ctx = some x → x.func = func →
      exec (.tlbinv func va ctx len) s = ({ s with tlb := s.tlb.filter fun t =>
        !(t.ctx == ctx && (len == 0 || (decide (t.va < va.toNat + len.toNat) && decide (va.toNat < t.va + t.size)))) } :
          State).commandDone func)

/-- RESOLVE, EXPORT, UNEXPORT, FWWRITE and FWACTIVATE (R419, R426, R427, R440) where the mailbox takes the command and its
operands pass every check; RESOLVE by the service firmware has no mailbox. -/
def Obligations.MailboxServiceResults : Prop :=
  (∀ (s : State) ctx x fid f fail, s.ctx? ctx = some x → (x.fids.find? fun f => f.fid == fid) = some f →
    let freed := s.updCtx ctx fun x =>
      { x with fids := x.fids.filter (·.fid != fid), claims := x.claims.filter fun k => k.fid != fid || k.fid == 0 }
    let e := (if fail then freed.failFault ctx f else freed.retryFault ctx fid).endAdoptions
    (s.boot.state = .ready → exec (.resolve none fid ctx fail) s = .next e) ∧
    (s.takesCommand x.func → exec (.resolve (some x.func) fid ctx fail) s = e.commandDone x.func)) ∧
  (∀ (s : State) func, s.takesCommand func →
    (∀ ctx x pa e, s.ctx? ctx = some x → x.func = func → pa + 32 ≤ Config.usageBase → parseExport ctx (s.num pa 32) = some e →
      s.exports.length < 4096 → (∀ y ∈ s.exports, y.num ≠ e.num) →
      exec (.exportCtx func ctx pa) s = ({ s with exports := s.exports ++ [e] } : State).commandDone func) ∧
    (∀ ctx x num y, s.ctx? ctx = some x → x.func = func → y ∈ s.exports → y.num = num → y.ctx = ctx →
      exec (.unexportCtx func num ctx) s = ({ s with exports := s.exports.filter (·.num != num) } : State).commandDone func) ∧
    (∀ addr len, s.holdsSem func = true → addr + min len (32 * 2 ^ 20) ≤ Config.usageBase →
      exec (.fwwrite func addr len) s =
        .next (({ s with boot := { s.boot with fw := some { func, addr, len } } } : State).setStat func 1 0 0)) ∧
    (∀ i, s.holdsSem func = true → (s.boot.flash[1 - s.boot.slot]?).join = some i → i.fail = 0 →
      exec (.fwactivate func) s = ({ s with boot := { s.boot with activate := true } } : State).commandDone func))

/-- The sub-operations of DEBUG (R354, R355), for the function that created the context. -/
def Obligations.DebugResults : Prop :=
  ∀ (s : State) ctx (x : Ctx), s.ctx? ctx = some x → let func := x.func
    s.takesCommand func →
    exec (.attach func ctx true) s = (s.updCtx ctx fun x => { x with attached := true }).commandDone func ∧
    exec (.attach func ctx false) s = (let e := s.updCtx ctx fun x => { x with attached := false }
      ((e.atDebugger ctx).foldl State.leaveDebugger e).endAdoptions).commandDone func ∧
    exec (.stopctx func ctx true) s =
      ((s.updCtx ctx fun x => { x with stop := true }).haltContext ctx { cause := cBreak }).commandDone func ∧
    exec (.stopctx func ctx false) s = ((s.updCtx ctx fun x => { x with stop := false }).resumeContext ctx).commandDone func ∧
    (∀ pl t next, s.threadAt ctx pl = some t → t.status = .trapped true →
      (∀ i ∈ s.actorTids (s.actorOf t), ∀ u, s.thread? i = some u →
        (u.tretTarget next).toNat % 8 = 0 ∧ canonical (u.tretTarget next) = true) → exec (.debugResume func ctx pl next) s =
      (let e := (s.trapReturn (s.actorOf t) next).splitAfter (s.actorOf t)
        if x.stop then e.resumeContext ctx else e).commandDone func) ∧
    (∀ val : Dword, val.setWidth 32 &&& (0xE0E0E0E0 : Word) = 0 → exec (.wrbp func ctx 0 val) s =
      (s.updCtx ctx fun x => { x with bpctl := val.setWidth 32 }).commandDone func) ∧
    (∀ idx val, 1 ≤ idx → idx ≤ 4 → exec (.wrbp func ctx idx val) s =
      (s.updCtx ctx fun x => { x with bpa := x.bpa.set (idx - 1) val }).commandDone func) ∧
    (∀ pl t pa, s.threadAt ctx pl = some t → s.stoppedAt t = true →
      (pa % 64 = 0 → pa + 64 ≤ Config.usageBase →
        exec (.rdframe func ctx pl pa) s = (s.putMem pa (natLe 64 t.frame.toNat)).commandDone func) ∧
      (pa % 256 = 0 → pa + imageBytes t.regs.length ≤ Config.usageBase →
        exec (.rdstate func ctx pl pa) s = (s.putMem pa (t.image (s.haltedAt t))).commandDone func ∧
        ∀ regs, let n := t.regs.length
          let raw := s.num pa (imageBytes n)
          imageRegs raw n = some regs → exec (.wrstate func ctx pl pa) s = (s.updThread t.tid fun t =>
            t.replace regs (BitVec.ofNat 7 (raw / 2 ^ (36 * n))) (BitVec.ofNat 64 (raw / 2 ^ (36 * n) / 2 ^ 643 * 8))
              (t.inTrap || s.haltedAt t)).commandDone func))

/-- Commands of a mailbox turned away (R416, R399): nothing but the status changes. A busy mailbox ignores the write; an
operation on a context that does not exist gives reason 1, or 5 where it names a fault ID, one on another function's context 3,
one that needs the semaphore without it 3, and one on an empty slot or a running thread 0x0D or 0x0C. R416 has no reason of its
own for a context that does not exist: that it is reason 1 is the model's reading (log 112). -/
def Obligations.MailboxRejections : Prop :=
  ∀ (s : State) func ctx, func < 128 → s.boot.state = .ready →
    let named := fun (i : Instr) => ∃ prog va pa num pl next idx val on len, i ∈ [.load func prog ctx va, .free func prog ctx,
      .tlbinv func va ctx len, .exportCtx func ctx pa, .unexportCtx func num ctx, .attach func ctx on, .stopctx func ctx on,
      .debugResume func ctx pl next, .wrbp func ctx idx val, .rdframe func ctx pl pa, .rdstate func ctx pl pa,
      .wrstate func ctx pl pa]
    let plain := fun (i : Instr) => named i ∨ ∃ fid fail, i = .resolve (some func) fid ctx fail
    let held := fun (i : Instr) => ∃ pa len, i ∈ [.setcores func ctx pa, .preempt func ctx pa, .fwwrite func pa len, .fwactivate func]
    ((s.func func).stat = 1 → ∀ i, plain i ∨ held i ∨ (∃ pa, i = .create func ctx pa) ∨ i = .destroy func ctx → exec i s = .next s) ∧
    ((s.func func).stat ≠ 1 → (s.ctx? ctx = none → ∀ i, named i ∨ i = .destroy func ctx →
      exec i s = .next (s.setStat func 3 1 0)) ∧
      (s.ctx? ctx = none → ∀ fid fail, exec (.resolve (some func) fid ctx fail) s = .next (s.setStat func 3 5 0)) ∧
      (∀ x, s.ctx? ctx = some x → x.func ≠ func → ∀ i, plain i →
        exec i s = .next (s.setStat func 3 3 0)) ∧
      (s.holdsSem func = false → ∀ i, held i → exec i s = .next (s.setStat func 3 3 0)) ∧
      (∀ x, s.ctx? ctx = some x → x.func = func → ∀ pl pa,
        ∀ i ∈ [Instr.rdframe func ctx pl pa, .rdstate func ctx pl pa, .wrstate func ctx pl pa],
        (s.threadAt ctx pl = none → exec i s = .next (s.setStat func 3 0x0D 0)) ∧
        (∀ t, s.threadAt ctx pl = some t → s.stoppedAt t = false → exec i s = .next (s.setStat func 3 0x0C 0))))

/-! ## The host's controls and accesses (19, 21, 22) -/

/-- The semaphore (R399, R400): SEMTAS of a free or own semaphore takes it for 100 ms and answers GRANTED; of another's
answers its holder; the holder's SEMREL and the end of the lease free it; no writer but the holder changes a global control
register. Controls and resets by the holder of the semaphore, power and the management of time's loss (R434, R451 to R455):
POWERLIM takes 1,800 to 3,200 W, EVENT_COUNTER_CONTROL writes a control without its reserved bits, and RESET, COLD_RESET, a
thermal trip, a loss of power and a function-level reset leave the states named. What a warm reset keeps beside the usage
region (log 79), and that a function-level reset of a physical function has no effect (log 82), are the model's readings. -/
def Obligations.SemaphoreAndControlResults : Prop :=
  (∀ (s : State) port, s.boot.state = .ready → port < 4 →
    (s.holder = none ∨ s.holder = some port → exec (.semtas port) s = .next { s.fwLeaseCheck with
      sem := { held := true, owner := port, since := s.elapsed }
      hostRead := natLe 8 (2 ^ 32 + 1000 * 2 ^ 16 + port * 16 + 1) }) ∧
    (∀ p, s.holder = some p → p ≠ port → exec (.semtas port) s = .next { s with
      hostRead := natLe 8 ((s.sem.since + 100000000 - s.elapsed) / 100000 * 2 ^ 16 + p * 16 + 1) }) ∧
    (∀ val : Dword, val.getLsbD 0 = true → s.holder = some port →
      exec (.semrel port val) s = .next ({ s with sem := {} } : State).fwLeaseCheck) ∧
    (∀ val : Dword, val.getLsbD 0 = false ∨ s.holder ≠ some port → exec (.semrel port val) s = .next s) ∧
    (s.sem.held = true → exec .semaphoreLeaseExpiry s =
      .next (if s.sem.since + 100000000 ≤ s.elapsed then ({ s with sem := {} } : State).fwLeaseCheck else s)) ∧
    (s.boot.fw = none → s.fwLeaseCheck = s) ∧
    (∀ w, s.boot.fw = some w → s.fwLeaseCheck = if s.holdsSem w.func then s else s.fwFinish) ∧
    (s.holder ≠ some port → ∀ (off : Nat) (val : Dword) (c : Word), ∀ i ∈ [Instr.reset port val, .powerlim port val,
      .eventCounterControl port off c], exec i s = .next { s with semviol := s.semviol + 1 })) ∧
  ((∀ (s : State) port (val : Dword), s.boot.state = .ready → port < 4 → s.holder = some port →
    exec (.powerlim port val) s = .next (if 1800 ≤ val.toNat % 4096 ∧ val.toNat % 4096 ≤ 3200
      then { s with powerlim := val.toNat % 4096 } else s) ∧
    (val.getLsbD 0 = false → exec (.reset port val) s = .next s) ∧
    (val.getLsbD 0 = true → ∃ e, exec (.reset port val) s = .next e ∧ e.boot.state = .booting ∧ e.boot.stage = 1 ∧
      e.boot.warm = true ∧ e.boot.failcode = 0 ∧ e.beamRest = []) ∧
    (∀ k n (c : Word), k < 512 → n < 8 → exec (.eventCounterControl port (0x4000 + 32 * k + 4 * n) c) s =
      .next (s.updCore k fun x => { x with perf := x.perf.set {} n { ctrl := c &&& 0xFFF00FFF } })) ∧
    (∀ n (c : Word), n < 160 → exec (.eventCounterControl port (0xC000 + 4 * n) c) s =
      .next { s with dieCounters := s.dieCounters.set {} n { ctrl := c &&& 0xFFF00FFF } })) ∧
  (∀ (s : State) level, level ≤ 63 → exec (.throttleLevel level) s = .next { s with throttle := level }) ∧
  (∀ (s : State), exec .coldReset s = .next { s.loseAll with boot := { s.loseAll.boot.restart 0 false with power := true } } ∧
    exec .thermalTrip s = .next s.loseAll ∧ exec .powerGoodLoss s = .next { s.loseAll with mgmt := none }) ∧
  (∀ (s : State), let e := s.loseAll
    e.threads = [] ∧ e.tasks = [] ∧ e.groups = [] ∧ e.cores = [] ∧ e.ctxs = [] ∧ e.queues = [] ∧ e.funcs = [] ∧ e.exports = [] ∧
      e.usage = [] ∧ e.sem.held = false ∧ e.boot.power = false ∧ e.boot.flash = s.boot.flash ∧ e.boot.svnFloor = s.boot.svnFloor ∧
      e.boot.revoked = s.boot.revoked ∧ e.boot.debugLock = s.boot.debugLock) ∧
  (∀ (s : State) func, exec (.functionLevelReset func) s =
    .next (if func = 0 ∨ func = 64 ∨ 128 ≤ func then s else s.updFunc func fun _ => {})) ∧
  (∀ (s : State) ctx x seq k, s.ctx? ctx = some x → (x.claims.find? fun k => k.seq == seq) = some k →
    exec (.serviceFirmwareDecline ctx seq) s = .next (let e := s.updCtx ctx fun x => { x with claims := x.claims.filter (·.seq != seq) }
      if k.host then e.interrupt x.func x.fvec else e)))

/-- REGISTER_WRITE (R6, R395 to R401, R409, R416, R424): the mailbox operands, a command of the mailbox, the apertures'
bases, a queue's ring and configuration, a signal-wait entry's fields, the routing table and a kick; and what reads of these
registers, of BOOTSTAT, SEMVIOL, the kick register and the usage snapshot return (R402, R436, R449), none of which changes
them but SEMTAS. The model's readings and choices here: RESET reads zero (log 100), every access is one of 64 bits at a multiple of
8 (log 111), and the registers are read and written in the stopped state as in the running one, where only the commands of the
mailbox are ignored (log 71). -/
def Obligations.RegisterWriteResults : Prop :=
  ∀ (s : State) func (v : Dword), func < 128 → s.boot.state = .ready ∨ s.boot.state = .stopped →
    exec (.registerWrite func 0 0x10010 v) s = .next (s.updFunc func fun f => { f with arg0 := v }) ∧
    exec (.registerWrite func 0 0x10018 v) s = .next (s.updFunc func fun f => { f with arg1 := v }) ∧
    exec (.registerWrite func 0 0x10020 v) s = .next (s.updFunc func fun f => { f with arg2 := v }) ∧
    (let a0 := (s.func func).arg0
      let ctx := (s.func func).arg1.toNat
      let a2 := (s.func func).arg2
      let n := a0.toNat
      let pl : DbgPlace := { die := n / 2 ^ 8 % 8, core := n / 2 ^ 11 % 64, lane := n / 2 ^ 17 % 32, slot := n / 2 ^ 22 % 64 }
      let op := v.toNat % 256;
      (∀ p ∈ [(1, Instr.load func n ctx a2), (2, .free func n ctx), (3, .create func n a2.toNat), (4, .destroy func ctx),
          (5, .setcores func ctx a2.toNat), (6, .preempt func ctx a2.toNat), (7, .tlbinv func a0 ctx a2),
          (9, .fwwrite func n a2.toNat), (10, .fwactivate func), (11, .exportCtx func ctx a2.toNat),
          (12, .unexportCtx func n ctx)], op = p.1 → exec (.registerWrite func 0 0x10000 v) s = exec p.2 s) ∧
      (op = 8 → a2.toNat ≤ 1 → exec (.registerWrite func 0 0x10000 v) s = exec (.resolve (some func) n ctx (a2 == 1)) s) ∧
      (op = 13 → n < 2 ^ 32 →
        ∀ p ∈ [(1, Instr.attach func ctx (a2.getLsbD 0)), (2, .stopctx func ctx (a2.getLsbD 0)),
          (3, .debugResume func ctx pl (a2.getLsbD 0)), (4, .wrbp func ctx (n / 2 ^ 28 % 16) a2),
          (5, .rdframe func ctx pl a2.toNat), (6, .rdstate func ctx pl a2.toNat), (7, .wrstate func ctx pl a2.toNat)],
        n % 256 = p.1 → exec (.registerWrite func 0 0x10000 v) s = exec p.2 s) ∧
      (s.boot.state = .ready → (s.func func).stat ≠ 1 → op = 0 ∨ 13 < op ∨ (op = 8 ∧ 1 < a2.toNat) ∨
          (op = 13 ∧ (2 ^ 32 ≤ n ∨ n % 256 = 0 ∨ 7 < n % 256)) →
        exec (.registerWrite func 0 0x10000 v) s = .next (s.setStat func 3 1 0))) ∧
    (∀ q, q < 2 ^ 16 → exec (.registerWrite func 2 (8 * q) v) s = exec (.kick func q v) s) ∧
    (func = 0 ∨ func = 64 →
      exec (.registerWrite func 0 0x30000 v) s = .next (s.updFunc func fun f => { f with capbase := v.toNat / 2 ^ 30 % 2 ^ 10 }) ∧
      exec (.registerWrite func 0 0x30008 v) s = .next (s.updFunc func fun f => { f with dapbase := v.toNat / 2 ^ 30 % 2 ^ 10 }) ∧
      exec (.registerWrite func 0 0x48 v) s = exec (.reset (func / 64) v) s ∧
      exec (.registerWrite func 0 0x50 v) s = exec (.powerlim (func / 64) v) s ∧
      (s.holder = some (func / 64) → exec (.registerWrite func 0 0x100 v) s = .next { s with
        routing := (List.range 6).map fun k => (v.getLsbD (8 * k), v.getLsbD (8 * k + 1)) })) ∧
    (∀ q, q < 2 ^ 16 → s.reaches func q = true → (s.queue q).enable = false →
      exec (.registerWrite func 0 (0x400000 + 64 * q + 24) v) s = .next (s.updQueue q fun x =>
        if x.enable then x else { x with ringbase := v })) ∧
    (∀ q, q < 2 ^ 16 → s.reaches func q = true →
      exec (.registerWrite func 0 (0x400000 + 64 * q) v) s =
        (if v.getLsbD 0 = false then exec (.queueDisable func q) s
        else if (s.queue q).enable = false then exec (.queueEnable func q) s
        else if v.getLsbD 1 = true then exec (.queueResume func q) s else .next s) ∧
      ((s.queue q).enable = false → let w := v.toNat
        let to' := w / 2 ^ 44 % 256
        exec (.registerWrite func 0 (0x400000 + 64 * q + 32) v) s = .next (s.updQueue q fun x => if x.enable then x else
          { x with
            func := if (func = 0 ∨ func = 64) ∧ to' / 64 = func / 64 then to' else x.func
            prog := w / 2 ^ 32 % 2 ^ 12, ctx := w / 2 ^ 16 % 2 ^ 10, die := w / 2 ^ 13 % 8, prio := w / 2 ^ 11 % 4
            log2size := w % 32 })) ∧
      ((s.queue q).enable = true → ∀ i, 1 ≤ i → i < 8 → exec (.registerWrite func 0 (0x400000 + 64 * q + 8 * i) v) s =
        .next (s.updQueue q id))) ∧
    (∀ q i, q < 2 ^ 16 → i < 8 → s.reaches func q = false →
      exec (.registerWrite func 0 (0x400000 + 64 * q + 8 * i) v) s = .next s) ∧
    (∀ idx, idx < 256 →
      (let e := (s.func func).sigs.get ({} : SigWait) idx
        let m := s.updFunc func fun f => { f with sigs := f.sigs.upd {} idx fun e =>
          { e with
            vector := v.toNat / 2 ^ 48 % 2 ^ 16, cond := v.toNat / 4 % 4, fired := e.fired && !v.getLsbD 1
            armed := e.armed && v.getLsbD 0 } };
        exec (.registerWrite func 0 (0x20000 + 32 * idx) v) s =
          if v.getLsbD 0 = true ∧ e.armed = false then exec (.sigwaitArm func idx) m else .next m) ∧
      exec (.registerWrite func 0 (0x20000 + 32 * idx + 16) v) s = .next (s.updFunc func fun f =>
        { f with sigs := f.sigs.upd {} idx fun e => { e with addr := v } }) ∧
      exec (.registerWrite func 0 (0x20000 + 32 * idx + 24) v) s = .next (s.updFunc func fun f =>
        { f with sigs := f.sigs.upd {} idx fun e => { e with value := v } }) ∧
      exec (.registerWrite func 0 (0x20000 + 32 * idx + 8) v) s = .next (s.updFunc func fun f =>
        { f with sigs := f.sigs.upd {} idx fun e => { e with ctx := v.toNat % 1024 } })) ∧
    let reads := fun bar off (x : Nat) => s.registerRead func bar off 8 = .next { s with hostRead := natLe 8 (x % 2 ^ 64) }
    reads 0 0x10000 0 ∧ reads 0 0x10010 (s.func func).arg0.toNat ∧ reads 0 0x10018 (s.func func).arg1.toNat ∧
    reads 0 0x10020 (s.func func).arg2.toNat ∧
    reads 0 0x10008 ((s.func func).stat % 4 + (s.func func).reason % 256 * 2 ^ 8 + (s.func func).failWord % 2 ^ 16 * 2 ^ 16) ∧
    (∀ q, q < 2 ^ 16 → reads 2 (8 * q) (if s.reaches func q then (s.queue q).kickv.toNat else 0) ∧
      (s.reaches func q = true → reads 0 (0x400000 + 64 * q + 24) (s.queue q).ringbase.toNat)) ∧
    (∀ idx, idx < 256 → reads 0 (0x20000 + 32 * idx + 16) ((s.func func).sigs.get ({} : SigWait) idx).addr.toNat ∧
      reads 0 (0x20000 + 32 * idx + 24) ((s.func func).sigs.get ({} : SigWait) idx).value.toNat) ∧
    (func = 0 ∨ func = 64 → reads 0 0x10 s.semviol.toNat ∧ reads 0 0x48 0 ∧ reads 0 0x50 s.powerlim ∧
      reads 0 0x40 ((if s.boot.state = .ready then 2 else 4) + s.boot.stage % 256 * 2 ^ 16
        + (if s.boot.stage = 0 then 0 else s.boot.slot % 2 * 2 ^ 24)
        + s.boot.failcode % 256 * 2 ^ 40 + s.boot.svn % 2 ^ 16 * 2 ^ 48) ∧
      s.registerRead func 0 0 8 = exec (.semtas (func / 64)) s) ∧
    (func ≠ 0 → func ≠ 64 → ∀ off, off % 8 = 0 → off < 0x10000 → reads 0 off 0) ∧
    (∀ i c, i < 16 → c < 1024 → reads 0 (0x100000 + 8 * (i % 8)) (s.snapshot.header / 2 ^ (64 * (i % 8))) ∧
      let u := s.snapshot.records.get ({} : Usage) c
      reads 0 (0x100040 + 128 * c + 8 * i)
        (if func = 0 ∨ func = 64 ∨ (u.valid = true ∧ u.creator = func) then u.toNat / 2 ^ (64 * i) else 0))

/-- Host accesses (R85, R396 to R398): through the coherent aperture and CXL.mem a read gives the bytes at their home and a
write stores them; a snoop writes back the line's dirty sectors. R396 asks for a CINV before device agents read a direct write:
that they read the earlier bytes until the L2 drops the sector (log 32), and that the part of context memory which the device
writes in a form of its own reads as free bytes (log 13), are the model's choices. -/
def Obligations.HostAccessResults : Prop :=
  (∀ (s : State) (a : HostAccess), s.boot.state = .ready → a.func = 0 ∨ a.func = 64 → a.off + a.len ≤ 2 ^ 35 →
    let pa := (s.func a.func).capbase * 2 ^ 30 + a.off
    let da := (s.func a.func).dapbase * 2 ^ 30 + a.off
    (∀ l, a.wr = some l → pa + a.len ≤ Config.usageBase → exec (.hostCoherentAccess a) s = .next (s.putMem pa (l.take a.len))) ∧
    (a.wr = none → pa + a.len ≤ Config.usageBase →
      (∀ i, i < a.len → (pa + i) / 256 ∉ s.poison ∧ s.deviceOwned (pa + i) = false) →
      exec (.hostCoherentAccess a) s = .next { s with hostRead := (List.range a.len).map fun i => s.byte (pa + i) }) ∧
    (∀ l, a.wr = some l → da + a.len ≤ Config.usageBase → ∃ e, exec (.hostDirectAccess a) s = .next e ∧
      e = { s with shadow := e.shadow } ∧ (∀ i b, i < a.len → l[i]? = some b → (e.directByte (da + i)).1 = b) ∧
      (∀ p ∈ s.shadow, p.1 < da ∨ da + a.len ≤ p.1 → p ∈ e.shadow)) ∧
    (a.wr = none → ∃ e, exec (.hostDirectAccess a) s = .next e ∧ e.hostRead.length = a.len ∧
      e = { s with hostRead := e.hostRead, free := e.free })) ∧
  (∀ (s : State) (a : HostAccess), s.boot.state = .booting ∨ s.boot.state = .recovery →
    ∀ i ∈ [Instr.hostCoherentAccess a, .hostDirectAccess a], (a.wr.isSome = true → exec i s = .next s) ∧
      (a.wr = none → exec i s = .next { s with hostRead := List.replicate a.len 0 })) ∧
  (∀ (s : State) (a : HostAccess), s.boot.state = .ready → a.func = 0 → a.off + a.len ≤ Config.usageBase →
    (a.off < s.hdm.1 ∨ s.hdm.1 + s.hdm.2 < a.off + a.len → exec (.cxlMemAccess a) s = .next s)) ∧
  (∀ (s : State) (a : HostAccess), s.boot.state = .ready → a.func = 0 → a.off + a.len ≤ Config.usageBase →
    s.hdm.1 ≤ a.off → a.off + a.len ≤ s.hdm.1 + s.hdm.2 →
    (∀ l, a.wr = some l → exec (.cxlMemAccess a) s = .next (s.putMem a.off (l.take a.len))) ∧
    (a.wr = none → (∀ i, i < a.len → (a.off + i) / 256 ∉ s.poison ∧ s.deviceOwned (a.off + i) = false) →
      exec (.cxlMemAccess a) s = .next { s with hostRead := (List.range a.len).map fun i => s.byte (a.off + i) })) ∧
  (∀ (s : State) line inv, s.Inv → let l := sectorsOf (Config.cxKey + line / 1024 * 1024) 1024
    ∃ e, exec (.hostSnoop line inv) s = .next e ∧ e =
        { s with dirty := e.dirty, shadow := e.shadow, mem := e.mem, l1Old := e.l1Old, l2 := e.l2, home := e.home } ∧
      (∀ x, x ∈ e.dirty ↔ x ∈ s.dirty ∧ x ∉ l) ∧
      (inv = false → e.mem = s.mem ∧ e.l1Old = s.l1Old ∧ e.l2 = s.l2 ∧ e.home = s.home) ∧
      (inv = true → (∀ x ∈ e.l2, x ∈ s.l2 ∧ x.sector ∉ l) ∧ ∀ x, x ∈ e.home ↔ x ∈ s.home ∧ x.sector ∉ l) ∧
      (∀ k, k / 256 ∉ l → e.byte k = s.byte k))

/-! ## Messages of other devices (19) -/

/-- A message received (R412 to R415): in its flow's order it is applied, one seen before is only answered again, and a FLAG or
SHIP before its turn is held. What the answer is, of a SHIP above all (a NACK while its home refuses it, none while it is offered,
an ACK once it is accepted) and of a refused message that comes again, a section's SHIP among them, is the model's choice (log 77). -/
def Obligations.PftReceiptResults : Prop :=
  ∀ (s : State) (src : PftPeer) seq op exp off len add val entry lock kind m task args ok (out : SectionEnd) results queue cond fire
      target (chain : ChainRef) (count : Word) data, s.boot.state = .ready →
    let node := src.node
    let z := s.tallyIo 3 node 0x204 none
    let f := s.net.flow node
    let req : ShipReq := { sender := .remote node op seq, ctx := src.ctx, entry, lock, args := args.take 6, m := min m 4, task
                           kind := if kind = 0 then .w else if kind = 1 then .c else .o, waits := src.waits }
    ∀ p ∈ ([(.pftPut src seq exp off data, .put 0 exp off src.ctx src.tid data),
        (.pftGetRequest src seq op exp off len, .getReq op exp off len src.ctx src.tid),
        (.pftGetResponse node seq op off data, .getResp op off data),
        (.pftFlag src seq exp off add val, .flag exp off src.ctx src.tid add val),
        (.pftShipRequest src seq op exp off entry lock kind m task args, .ship op exp off src.ctx src.tid req),
        (.pftShipResult node seq op ok out results, .shipResult op ok out results),
        (.pftSignal src seq exp off queue val cond fire, .signal exp off src.ctx queue val cond fire),
        (.pftChainRegister node seq target queue count, .chainReg target queue count),
        (.pftChainNotify node seq chain count, .chainNotify chain count)] : List (Instr × NetMsg)),
      (f.expect = seq → f.got = [] → exec p.1 s = .next
        ((({ z with net := s.net.setFlow { f with expect := (seq + 1) % 2 ^ 32 } } : State).applyMsg node seq p.2).releaseHeld node)) ∧
      (f.seen seq = true → seq ∈ f.nacked → exec p.1 s = .next (z.reply node (.nack seq true))) ∧
      (f.seen seq = true → seq ∉ f.nacked → seq ∈ f.full → exec p.1 s = .next (z.reply node (.nack seq false))) ∧
      (f.seen seq = true → seq ∉ f.nacked → seq ∉ f.full → (∀ h ∈ f.held, h.1 ≠ seq) → exec p.1 s = .next (match s.shipWaits node seq with
        | some true => z.reply node (.nack seq false)
        | some false => z
        | none => z.reply node (.ack [seq]))) ∧
      (f.seen seq = true → seq ∉ f.nacked → seq ∉ f.full → (∃ h ∈ f.held, h.1 = seq) → exec p.1 s = .next z) ∧
      (f.seen seq = false → f.expect ≠ seq → f.got = [] → f.held = [] → p.2.inOrder = true → ∃ e, exec p.1 s = .next e ∧
        e = { z with net := e.net } ∧ (e.net.flow node).held = [(seq, p.2)] ∧ (e.net.flow node).expect = f.expect)

/-- What a message does (R170, R341, R407, R413, R419): a request within an export whose pages translate is done and
acknowledged, a SHIP once its home has accepted it; one outside it is refused and changes nothing else; a notice lets a blocked
queue go on; a request that its home holds can be taken back; and an export that admits a request names its node and context
and holds all of its bytes. -/
def Obligations.PftRequestEffects : Prop :=
  (∀ (s : State) node ctx exp off (ok : Export → Bool) e n, s.exportFor node ctx exp off n ok = some e →
    e ∈ s.exports ∧ e.num = exp ∧ e.node = node ∧ e.rctx = ctx ∧ ok e = true ∧ 1 ≤ n ∧ n ≤ 4096 ∧ off + n ≤ 4096 * e.pages) ∧
  (∀ (s : State) node seq ctx exp off tid op (l : List Byte) e ks, s.exportFor node ctx exp off l.length (·.xw) = some e →
    s.exportKeys e off l.length .write = some ks → s.applyMsg node seq (.put op exp off ctx tid l) =
      (((s.exportLook e off l.length).putRanges e.ctx ks l).received e.ctx l.length).reply node (.ack [seq])) ∧
  (∀ (s : State) (e : Export) off n, let u := s.exportLook e off n
    u = { s with home := u.home, counts := u.counts, windowCounts := u.windowCounts, dieCounters := u.dieCounters
                 cores := u.cores }) ∧
  (∀ (s : State) node seq ctx exp off tid op n e ks, s.exportFor node ctx exp off n (·.xr) = some e →
    s.exportKeys e off n .read = some ks → (∀ k ∈ ks, s.poisoned k.1 k.2 = false) →
    s.applyMsg node seq (.getReq op exp off n ctx tid) =
      ((ks.foldl (fun s k => s.l2Read (some e.ctx) k.1 k.2 1) (s.exportLook e off n)).reply node (.ack [seq])).sendFor e.ctx node
        (.getResp op off (ks.flatMap fun k => s.bytes k.1 k.2))) ∧
  (∀ (s : State) node seq ctx exp off tid v e k, s.exportFor node ctx exp off 8 (·.xw) = some e →
    (s.exportKeys e off 8 .write = some [(k, 8)] → s.applyMsg node seq (.flag exp off ctx tid false v) =
      (((s.exportLook e off 8).putFor e.ctx k (natLe 8 v.toNat)).received e.ctx 8).reply node (.ack [seq])) ∧
    (s.exportKeys e off 8 .rmw = some [(k, 8)] → s.poisoned k 8 = false → s.applyMsg node seq (.flag exp off ctx tid true v) =
      (((s.exportLook e off 8).putFor e.ctx k (natLe 8 (BitVec.ofNat 64 (s.num k 8) + v).toNat)).received e.ctx 8).reply
        node (.ack [seq]))) ∧
  (∀ (s : State) node seq op ctx exp off tid r e k, s.exportFor node ctx exp off 1 (·.xship) = some e →
    s.locate e.ctx (e.base + BitVec.ofNat 64 off) .read false = .ok (.mem k) →
    s.applyMsg node seq (.ship op exp off ctx tid r) = (s.updLc (homeOf (k % 2 ^ 52)) fun l =>
      { l with offers := l.offers ++ [{ r with sender := .remote node op seq, ctx := e.ctx }] }).received e.ctx
        (20 + 4 * r.args.length)) ∧
  (∀ (s : State) node seq op lc r, r.sender = .remote node op seq →
    s.acceptShip lc r = (s.updLc lc fun l => { l with queue := l.queue ++ [r] }).reply node (.ack [seq]) ∧
    s.refuseShip lc r = (let e := s.tallyDie (lc / 8) 0x111 1 (some r.ctx)
      if r.waits then e.updLc lc fun l => { l with refused := l.refused ++ [r] }
      else { e with net := s.net.setFlow { s.net.flow node with full := (s.net.flow node).full ++ [seq] } }).reply node
        (.nack seq false)) ∧
  (∀ (s : State) node seq op,
    ((∃ p ∈ s.lcs, ∃ r ∈ p.2.offers ++ p.2.refused, r.remoteOp node op = true) → ∃ e : State,
      s.applyMsg node seq (.shipWithdraw op) = e.reply node (.ack [seq]) ∧ e = { s with lcs := e.lcs } ∧
        ∀ p ∈ e.lcs, ∀ r ∈ p.2.offers ++ p.2.refused, r.remoteOp node op = false) ∧
    ((∀ p ∈ s.lcs, ∀ r ∈ p.2.offers ++ p.2.refused, r.remoteOp node op = false) →
      s.applyMsg node seq (.shipWithdraw op) = s.refuseMsg node seq)) ∧
  (∀ (s : State) node seq ctx exp off q val cond e k, s.exportFor node ctx exp off 8 (·.xr) = some e →
    s.exportKeys e off 8 .read = some [(k, 8)] → s.applyMsg node seq (.signal exp off ctx q val cond false) =
      (({ s.exportLook e off 8 with
        net := { s.net with waits := s.net.waits ++ [.signal node q e.ctx exp off k val cond] } } : State).fireRemote).reply
          node (.ack [seq])) ∧
  (∀ (s : State) node seq target q count, s.applyMsg node seq (.chainReg target q count) =
    (({ s with net := { s.net with waits := s.net.waits ++ [.chain node q target count] } } : State).notifyChains target).reply
      node (.ack [seq])) ∧
  (∀ (s : State) node seq ctx exp off q val cond, (s.queue q).block = some (.remoteSignal node exp off val cond) →
    s.applyMsg node seq (.signal exp off ctx q val cond true) =
      (s.updQueue q fun x => { x with state := .running, block := none, pc := x.pc + 1 }).reply node (.ack [seq])) ∧
  (∀ (s : State) node seq q cc target count, (s.queue q).block = some (.remoteChain node target count) →
    (cc - count : Word).toNat < 2 ^ 31 → s.applyMsg node seq (.chainNotify ⟨q, target⟩ cc) =
      (s.updQueue q fun x => { x with state := .running, block := none, pc := x.pc + 1 }).reply node (.ack [seq])) ∧
  (∀ (s : State) node seq ctx exp off val cond cc (c : ChainRef) m, m = NetMsg.signal exp off ctx c.queue val cond true ∨
      m = .chainNotify c cc →
    (s.queue c.queue).block ≠ some (.remoteSignal node exp off val cond) →
    (∀ count, (s.queue c.queue).block ≠ some (.remoteChain node c.target count)) →
    s.applyMsg node seq m = s.reply node (.ack [seq])) ∧
  (∀ (s : State) node seq op off l r p, s.rmaOf node op = some (r, p) →
    s.applyMsg node seq (.getResp op off l) = ((s.received r.ctx l.length).rmaData r p l).reply node (.ack [seq])) ∧
  (∀ (s : State) node seq op ok (out : SectionEnd) results r,
    (s.net.ships.find? fun x => x.1 == op && x.2.1 == node) = some (op, node, r) → ∃ e : State,
    s.applyMsg node seq (.shipResult op ok out results) =
      ((e.received r.ctx (4 * results.length)).shipOutcome r ok out.cause (some out) results).reply node (.ack [seq]) ∧
    e = { s with net := { s.net with
      ships := s.net.ships.filter fun x => !(x.1 == op && x.2.1 == node), out := e.net.out } } ∧
    ∀ o, o ∈ e.net.out ↔ o ∈ s.net.out ∧ ¬(o.node = node ∧ ∃ exp off c t q, o.msg = .ship op exp off c t q)) ∧
  (∀ (s : State) node seq ctx exp off op tid add val r q cond (l : List Byte) n, (s.exports.find? (·.num == exp)) = none →
    ∀ m ∈ [NetMsg.put op exp off ctx tid l, .getReq op exp off n ctx tid, .flag exp off ctx tid add val,
      .ship op exp off ctx tid r, .signal exp off ctx q val cond false], s.applyMsg node seq m = s.refuseMsg node seq) ∧
  (∀ (s : State) node seq, s.refuseMsg node seq = ({ s with net := s.net.setFlow { s.net.flow node with
    nacked := (s.net.flow node).nacked ++ [seq] } } : State).reply node (.nack seq true))

/-- Acknowledgement, refusal and retransmission (R170, R413 to R415): an acknowledged message is kept no longer, its part of an
RMA.PUT is done, and a SHIP has been accepted; a refused operation ends as at an unmapped page, and a SHIP whose home is full
parks its sender; a message is sent again once its time has passed, and after 16 times its peer is lost. What is sent goes out
on an active port, and on none while no port is active. The record of KIND 3 of a refused FLAG is the model's reading (log 76);
that a SHIP is acknowledged when its home accepts it, that a full home's NACK does not end it, and that nothing is sent to an
unreachable peer are its choices (log 77). -/
def Obligations.PftDeliveryResults : Prop :=
  (∀ (s : State) node seqs, exec (.pftAck node seqs) s =
    .next (seqs.foldl (fun s q => s.acked node q) (s.tallyIo 3 node 0x204 none))) ∧
  (∀ (s : State) node seq refused, s.net.reaches node = false → let z := s.tallyIo 3 node 0x204 none
    exec (.pftAck node [seq]) s = .next z ∧ exec (.pftNack node seq refused) s = .next z) ∧
  (∀ (s : State) node seq o, s.outMsg node seq = some o → s.net.reaches node = true →
    let z := s.tallyIo 3 node 0x204 none
    let e : State := { z with net := { s.net with out := s.net.out.filter fun o => !(o.node == node && o.seq == seq) } }
    (∀ op exp off ctx tid l r p, o.msg = .put op exp off ctx tid l → e.rmaOf node op = some (r, p) →
      exec (.pftAck node [seq]) s = .next (e.rmaPartDone r p)) ∧
    ((∀ op exp off ctx tid l, o.msg ≠ .put op exp off ctx tid l) → (∀ op exp off ctx tid r, o.msg ≠ .ship op exp off ctx tid r) →
      (∀ op, o.msg ≠ .shipWithdraw op) → exec (.pftAck node [seq]) s = .next e) ∧
    (∀ op exp off ctx tid r q sender, o.msg = .ship op exp off ctx tid r →
      (s.net.ships.find? fun x => x.1 == op && x.2.1 == node) = some (op, node, q) → q.sender = .thread sender →
      exec (.pftAck node [seq]) s = .next (e.shipIssued sender q.kind) ∧
      ∃ u, exec (.pftNack node seq false) s = .next
          (if q.waits then u.shipRefused sender 64 else u.takenBack node op) ∧
        u = { z with net := { s.net with out := s.net.out.map fun (x : OutMsg) =>
          if x.node = o.node ∧ x.seq = o.seq then { x with tries := 0, sent := s.elapsed } else x } }) ∧
    (∀ op exp off n ctx tid r p, o.msg = .getReq op exp off n ctx tid → e.rmaOf node op = some (r, p) →
      exec (.pftNack node seq true) s = .next (e.rmaFails r
        { cause := 5, addr := r.remote + BitVec.ofNat 64 p.off, acc := .read })) ∧
    (∀ op exp off ctx tid l r p, o.msg = .put op exp off ctx tid l → e.rmaOf node op = some (r, p) →
      exec (.pftNack node seq true) s = .next (e.rmaFails r
        { cause := 5, addr := r.remote + BitVec.ofNat 64 p.off, acc := .write })) ∧
    (∀ exp off ctx tid add val r, o.msg = .flag exp off ctx tid add val → o.refusal = some r →
      exec (.pftNack node seq true) s = .next (e.postRecord ctx r)) ∧
    ((∀ op exp off ctx tid r, o.msg ≠ .ship op exp off ctx tid r) → exec (.pftNack node seq false) s = .next (z.resend o)) ∧
    (s.elapsed < o.sent + s.net.rtx → exec (.pftRetransmit node seq) s = .next s) ∧
    (o.sent + s.net.rtx ≤ s.elapsed → o.tries < 16 → exec (.pftRetransmit node seq) s = .next (s.resend o)) ∧
    (o.sent + s.net.rtx ≤ s.elapsed → 16 ≤ o.tries → exec (.pftRetransmit node seq) s = .next (s.losePeer node))) ∧
  (∀ (s : State) node m r c, ∃ o : OutMsg, (s.send node m r c).net.out = s.net.out ++ [o] ∧
    o.node = node ∧ o.seq = (s.net.flow node).next ∧ o.msg = m ∧ o.refusal = r ∧ o.tries = 0 ∧ o.sent = s.elapsed) ∧
  (∀ (s : State) (o : OutMsg) p, s.net.reaches o.node = true → s.net.portOf o.seq = some p → s.resend o =
    (let o' : OutMsg := { o with port := some p, tries := o.tries + 1, sent := s.elapsed }
    ({ s with net := { s.net with
      out := s.net.out.map fun x => if x.node = o'.node ∧ x.seq = o'.seq then o' else x
      wire := o' :: s.net.wire } } : State).tallyIo 1 p 0x205 none)) ∧
  (∀ (s : State) kind n src c, let e := s.tallyIo kind n src c
    e = { s with dieCounters := e.dieCounters }) ∧
  (∀ (x : Net) n, (∀ p, x.portOf n = some p → x.ports[p]? = some true) ∧
    ((∃ p : Nat, x.ports[p]? = some true) → (x.portOf n).isSome = true)) ∧
  (∀ (x : Net) (o : OutMsg), (∀ p, x.reaches o.node = true → x.portOf o.seq = some p →
      x.transmit o = { x with wire := { o with port := some p } :: x.wire }) ∧
    (x.portOf o.seq = none ∨ x.reaches o.node = false → x.transmit o = x)) ∧
  (∀ (s : State) node m, let e := s.reply node m
    e = { s with net := s.net.transmit { node, seq := 0, msg := m, sent := s.elapsed }, dieCounters := e.dieCounters })

/-! ## Accounting, management, attestation and time (21, 22) -/

/-- A reconciliation window (R444 to R449, R456) is settled once device time has reached its end; its shares sum to the
energy above the static estimate, and an idle window's energy goes to IDLEUJ whole. The management port (R450, R451): every
answer of a running device has code 0 and the snapshot's SEQ and WTIME before what was asked for; a request out of range has
code 1; in recovery and in the stopped state the code is 2; and while the device boots there is none. R450 and R451 together
give the stopped state's answer only by inference: code 2 with the data is the model's reading (log 83). -/
def Obligations.AccountingAndManagementResults : Prop :=
  ((∀ (s : State) (r : WindowReading), s.boot.state = .ready → s.windowEnd ≤ s.time.toNat →
    exec (.reconciliationWindow r) s =
      .next ((((s.settleWindow r.energy r.static).createPending.takeSnapshot).takeHealth r).nextWindow)) ∧
  (∀ (s : State) (r : WindowReading), s.boot.state ≠ .ready ∨ s.time.toNat < s.windowEnd →
    exec (.reconciliationWindow r) s = .next s) ∧
  (∀ (s : State), s.takeSnapshot = { s with snapshot :=
    { idleuj := s.idleuj, pkguj := s.pkguj, wtime := s.windowEnd, seq := s.snapshot.seq + 2, records := s.usage } }) ∧
  (∀ d (est : List (Nat × Nat)), (est.map (·.1)).Nodup → 0 < (est.map (·.2)).sum →
    ((windowShares d est).map (·.2)).sum = d ∧ (windowShares d est).map (·.1) = est.map (·.1)) ∧
  (∀ (s : State) e st, let t := s.postWindow e st
    t.pkguj = s.pkguj + e ∧ t.windowCounts = [] ∧ (e ≤ st → t.idleuj = s.idleuj + e ∧ t.usage = s.usage) ∧
      (st < e → (s.windowCounts.map fun p => p.2.estimate).sum ≠ 0 → t.idleuj = s.idleuj + st))) ∧
  (∀ (s : State) first count, s.boot.power = true →
    let head := natLe 8 s.snapshot.seq ++ natLe 8 s.snapshot.wtime
    let usage := (List.range count).flatMap fun i => natLe 128 (s.snapshot.records.get ({} : Usage) (first + i)).toNat
    let pairs := [(Instr.getUsageHeader, natLe 64 s.snapshot.header), (.getHealth, natLe 64 s.health.toNat)]
    (s.boot.state = .ready → (∀ p ∈ pairs, exec p.1 s = .next { s with mgmt := some { code := 0, bytes := head ++ p.2 } }) ∧
      (1 ≤ count → count ≤ 8 → first + count ≤ 1024 →
        exec (.getUsage first count) s = .next { s with mgmt := some { code := 0, bytes := head ++ usage } }) ∧
      (count = 0 ∨ 8 < count ∨ 1024 < first + count →
        exec (.getUsage first count) s = .next { s with mgmt := some { code := 1, bytes := head } }) ∧
      s.unknownCommand = { s with mgmt := some { code := 3, bytes := head } }) ∧
    (s.boot.state = .recovery → ∀ i ∈ [Instr.getUsageHeader, .getHealth, .getUsage first count],
      exec i s = .next { s with mgmt := some { code := 2, bytes := head } }) ∧
    (s.boot.state = .stopped → ∀ p ∈ pairs, exec p.1 s = .next { s with mgmt := some { code := 2, bytes := head ++ p.2 } }) ∧
    (s.boot.state = .booting → ∀ i ∈ [Instr.getUsageHeader, .getHealth, .getUsage first count],
      exec i s = .next { s with mgmt := none }))

/-- The SPDM responder (R441, R442) of a running device: its answers, and that a request for a slot or measurement that it
has not is an error. That it gives no answer unless the device is ready (log 83), and the order of the bytes of the answers,
which R442 leaves to SPDM 1.3 (log 11), are the model's. -/
def Obligations.AttestationResults : Prop :=
  ∀ (s : State) (nonce : List Byte), let chain := s.certChain
    let tells := fun (code : Nat) (l : List Byte) => (.next { s with spdm := some { code, bytes := l } } : Out)
    let sign := fun (l : List Byte) => Config.wordBytes 4627 (Config.mldsaSign s.aliasSeed (Config.sha3 l))
    chain = Config.makerCertificate (Config.mldsaPublic Config.seed)
      ++ Config.certificate Config.seed (Config.mldsaPublic s.aliasSeed) ∧
    s.aliasSeed = Config.aliasDerive (Config.sha3 (Config.wordBytes 32 Config.seed ++ s.measurement 1 ++ s.measurement 2
      ++ s.measurement 3)) ∧
    (s.boot.state = .ready →
      exec .getVersion s = tells 0 [0x10, 0x04, 0, 0, 0, 1, 0, 0x13] ∧
      exec .getCapabilities s = tells 0 ([0x13, 0x61, 0, 0, 0] ++ spdmFields 0x61 0 1 ++ [0, 0] ++ [0x16, 0, 0, 0]
        ++ spdmFields 0x61 1 8) ∧
      exec .negotiateAlgorithms s = tells 0 ([0x13, 0x63, 0, 0, 44, 0] ++ spdmFields 0x63 0 6 ++ List.replicate 20 0
        ++ [1, 1, 0, 0] ++ natLe 4 (Config.vendorAlgorithm 0).toNat ++ natLe 4 (Config.vendorAlgorithm 1).toNat) ∧
      s.spdmUnsupported = tells 1 [] ∧
      exec .getDigests s = tells 0 (Config.sha3 chain) ∧
      (∀ off len, off ≤ chain.length → let part := (chain.drop off).take len
        exec (.getCertificate 0 off len) s =
          tells 0 (natLe 2 part.length ++ natLe 2 (chain.length - off - part.length) ++ part)) ∧
      (∀ slot off len, slot ≠ 0 ∨ chain.length < off → exec (.getCertificate slot off len) s = tells 1 []) ∧
      exec (.challenge nonce) s = tells 0 (Config.sha3 chain ++ sign (Config.sha3 chain ++ nonce)) ∧
      exec (.getMeasurements 0 nonce) s = tells 0 ([5] ++ sign ([5] ++ nonce)) ∧
      (∀ i, 1 ≤ i → i ≤ 5 → let body := (BitVec.ofNat 8 i : Byte) :: s.measurement i
        exec (.getMeasurements i nonce) s = tells 0 (body ++ sign (body ++ nonce))) ∧
      (let body := [1, 2, 3, 4, 5].flatMap fun i => (BitVec.ofNat 8 i : Byte) :: s.measurement i;
        exec (.getMeasurements 0xFF nonce) s = tells 0 (body ++ sign (body ++ nonce))) ∧
      (∀ i, 6 ≤ i → i ≠ 0xFF → exec (.getMeasurements i nonce) s = tells 1 [])) ∧
    (s.boot.state ≠ .ready → ∀ i ∈ [Instr.getVersion, .getCapabilities, .negotiateAlgorithms, .getDigests, .getCertificate 0 0 1,
      .challenge nonce, .getMeasurements 0 nonce], exec i s = .next s)

/-- Device time and the ports (R413, R435, R457): PTP steps time forward once and never back; a message on the port followed
gives the offset, which steering takes down within its bound; a configuration request before boot's end has no answer. Which
part of the offset steering makes up (log 84), and that a configuration request of every later state, recovery among them, has
an answer of four free bytes (log 82), are the model's. -/
def Obligations.TimeAndPortResults : Prop :=
  (∀ (s : State) (t : Dword), s.boot.state = .ready → s.ptp.enabled = false →
    (t.toNat ≤ s.time.toNat → exec (.ptpEnable t) s =
      .next { s with ptp := { s.ptp with enabled := true, offset := (t.toNat : Int) - s.time.toNat } }) ∧
    (s.time.toNat < t.toNat → exec (.ptpEnable t) s = .next { s with
      time := t, windowEnd := min s.windowEnd s.time.toNat, windowFrom := t.toNat
      ptp := { s.ptp with enabled := true, offset := 0 } })) ∧
  (∀ (s : State) t, s.ptp.enabled = true → exec (.ptpEnable t) s = .next s) ∧
  (∀ (s : State) port offset, s.boot.state = .ready → s.ptp.enabled = true → s.net.ports[port]? = some true →
    exec (.ptpMessage port offset true) s = .next { s with ptp := { s.ptp with port := some port, offset } } ∧
    exec (.ptpMessage port offset false) s =
      .next (if s.ptp.port = some port then { s with ptp := { s.ptp with offset } } else s)) ∧
  (∀ (p : Ptp) e n, (p.enabled = false → p.steer e n = 0) ∧ (p.steer e n).natAbs ≤ (e + n) / 2000 - e / 2000 ∧
    (p.steer e n).natAbs ≤ p.offset.natAbs ∧ (0 ≤ p.offset → 0 ≤ p.steer e n) ∧ (p.offset ≤ 0 → p.steer e n ≤ 0)) ∧
  (∀ (s : State) n, (s.elapse n).elapsed = s.elapsed + n ∧
    (s.elapse n).time = s.time + BitVec.ofNat 64 ((n : Int) + s.ptp.steer s.elapsed n).toNat ∧
    (s.elapse n).ptp.offset = s.ptp.offset - s.ptp.steer s.elapsed n) ∧
  (∀ (s : State) port up, exec (.activePortChange port up) s =
    .next { s with net := { s.net with ports := s.net.ports.set port up } }) ∧
  (∀ (s : State) port, (s.boot.state = .booting → exec (.configurationRequest port) s = .next { s with hostRead := [] }) ∧
    (s.boot.state ≠ .booting → ∃ e, exec (.configurationRequest port) s = .next e ∧ e.hostRead.length = 4 ∧
      e = { s with hostRead := e.hostRead, free := e.free }))

/-! ## Rules of the manual, each stated whole (09, 10) -/

/-- R237: the opcodes that R236 leaves unassigned, and 0xD0 to 0xFF, raise ILLEGAL_OPCODE at step 2 of R235, in every thread
that comes to one, in any place, privilege state and header, and have no other effect. -/
def Obligations.ReservedOpcodesTrap : Prop :=
  (∀ n, n < 256 → (opAssigned (BitVec.ofNat 8 n) = false ↔ n = 0 ∨ (0x27 ≤ n ∧ n ≤ 0x2F) ∨ (0x3A ≤ n ∧ n ≤ 0x3F) ∨
    (0x59 ≤ n ∧ n ≤ 0x5F) ∨ (0x6C ≤ n ∧ n ≤ 0x6F) ∨ (0x80 ≤ n ∧ n ≤ 0x8F) ∨ (0x9D ≤ n ∧ n ≤ 0x9F) ∨ (0xB7 ≤ n ∧ n ≤ 0xBF) ∨
    (0xC9 ≤ n ∧ n ≤ 0xCF) ∨ 0xD0 ≤ n)) ∧
  (∀ w : Dword, opAssigned (w.extractLsb' 0 8) = false → decode w = .ok (.unassignedOpcode w) ∧
    ∀ (s : State) first rest, s.arrives (.unassignedOpcode w) (first :: rest) = true → (s.thread? first).isSome = true →
      exec (.unassignedOpcode w) s =
        .next ((s.landDue (.unassignedOpcode w) (first :: rest)).stop s.cur first w (.trap { cause := 0x01 }))) ∧
  decode 0xFFFFFFFFFFFFFFFF = .ok (.unassignedOpcode 0xFFFFFFFFFFFFFFFF) ∧ decode 0 = .ok (.unassignedOpcode 0)

/-- R262: NOP has bits [63:24] zero, any one of them raises ILLEGAL_FIELD, and under any guards it does nothing. -/
def Obligations.NopDoesNothing : Prop :=
  (∀ h w, encode (.nop h) = some w → w.extractLsb' 0 8 = 0x30 ∧ w.extractLsb' 24 40 = 0) ∧
  (∀ w : Dword, w.extractLsb' 0 8 = 0x30 → w.extractLsb' 24 40 ≠ 0 →
    (∃ e, decode w = .error e) ∧ ∀ t, undecodedStop t w = .trap { cause := 0x02 }) ∧
  (∀ h, h.la = 0 → ∃ w, encode (.nop h) = some w ∧ decode w = .ok (.nop h)) ∧
  (∀ h, Runs (.nop h) id)

/-- R243: opcode 0x0B in layout X, FN 0 to 3: AND, OR, XOR and ANDN, with tag I32. -/
def Obligations.LogicOpcode : Prop :=
  (∀ h (d a b : GReg),
    let word := fun fn : BitVec 5 => some ({ op := 0x0B, h, fn, b, a, d } : Raw).word
    encode (.and h d a b) = word 0 ∧ encode (.or h d a b) = word 1 ∧ encode (.xor h d a b) = word 2 ∧
      encode (.andn h d a b) = word 3) ∧
  (∀ h d a b, h.la = 0 → ∀ i ∈ [Instr.and h d a b, .or h d a b, .xor h d a b, .andn h d a b],
    ∃ w, encode i = some w ∧ decode w = .ok i) ∧
  (∀ h d a b, Runs (.and h d a b) fun t => t.put d (t.val a &&& t.val b) .i32) ∧
  (∀ h d a b, Runs (.or h d a b) fun t => t.put d (t.val a ||| t.val b) .i32) ∧
  (∀ h d a b, Runs (.xor h d a b) fun t => t.put d (t.val a ^^^ t.val b) .i32) ∧
  (∀ h d a b, Runs (.andn h d a b) fun t => t.put d (t.val a &&& ~~~t.val b) .i32)

/-- R245: opcode 0x0E in layout X, FN 0 to 3: POPC, CLZ, CTZ and BREV, with tag I32. -/
def Obligations.BitCountOpcode : Prop :=
  (∀ h (d a : GReg),
    let word := fun fn : BitVec 5 => some ({ op := 0x0E, h, fn, a, d } : Raw).word
    encode (.popc h d a) = word 0 ∧ encode (.clz h d a) = word 1 ∧ encode (.ctz h d a) = word 2 ∧ encode (.brev h d a) = word 3) ∧
  (∀ h d a, h.la = 0 → ∀ i ∈ [Instr.popc h d a, .clz h d a, .ctz h d a, .brev h d a],
    ∃ w, encode i = some w ∧ decode w = .ok i) ∧
  (∀ h d a, Runs (.popc h d a) fun t =>
    t.put d (BitVec.ofNat 32 ((List.range 32).countP fun i => (t.val a).getLsbD i)) .i32) ∧
  (∀ h d a, Runs (.clz h d a) fun t => t.put d (BitVec.ofNat 32 (leadingZeros (t.val a))) .i32) ∧
  (∀ a : Word, leadingZeros a ≤ 32 ∧ (∀ j, j < leadingZeros a → a.getLsbD (31 - j) = false) ∧
    (leadingZeros a < 32 → a.getLsbD (31 - leadingZeros a) = true)) ∧
  (∀ h d a, Runs (.ctz h d a) fun t => t.put d (BitVec.ofNat 32 (trailingZeros (t.val a))) .i32) ∧
  (∀ a : Word, trailingZeros a ≤ 32 ∧ (∀ j, j < trailingZeros a → a.getLsbD j = false) ∧
    (trailingZeros a < 32 → a.getLsbD (trailingZeros a) = true)) ∧
  (∀ h d a, Runs (.brev h d a) fun t => t.put d ((t.val a).reverse) .i32) ∧
  (∀ (a : Word) i, i < 32 → a.reverse.getLsbD i = a.getLsbD (31 - i))

/-- Words that the manual encodes field by field, and words that it says are none (09, 10, 11, 12, 13). -/
def Obligations.ManualWordsDecode : Prop :=
  (∀ p ∈ ([(0x049200080A027A70, .ld ⟨⟨true, 2⟩, ⟨false, 7⟩, 2, 0⟩ .b32 .acq .dev 10 8 4),
    (0x0700050404007701, .iadd ⟨⟨false, 7⟩, ⟨false, 7⟩, 0, 0⟩ .wrap 7 4 4 5),
    (0x0000030000007131, .bra ⟨⟨false, 1⟩, ⟨false, 7⟩, 0, 0⟩ 3), (0x0000000105007714, .movi ⟨⟨false, 7⟩, ⟨false, 7⟩, 0, 0⟩ 5 1),
    (0x1100050400007717, .icmp ⟨⟨false, 7⟩, ⟨false, 7⟩, 0, 0⟩ .lt 1 4 5),
    (0x0707060504007742, .ffma ⟨⟨false, 7⟩, ⟨false, 7⟩, 0, 0⟩ false .rn 4 5 6 7),
    (0x3F00000400007760, .bind ⟨⟨false, 7⟩, ⟨false, 7⟩, 0, 0⟩ 7 4),
    (0x01A2040000007771, .st ⟨⟨false, 7⟩, ⟨false, 7⟩, 0, 0⟩ .b32 .rel .dev 0 4 1),
    (0x02100C0A00007790, .spawn ⟨⟨false, 7⟩, ⟨false, 7⟩, 0, 0⟩ false 2 10 12 16),
    (0x17040200500077A7, .mma ⟨⟨false, 7⟩, ⟨false, 7⟩, 0, 0⟩ .bf16 1 2 0 2 4)] : List (Dword × Instr)), decode p.1 = .ok p.2) ∧
  (decode 0x0700050404407701).toOption = none ∧ (decode 0x0700050404017701).toOption = none ∧
  (decode 0x008300080B007770).toOption = none ∧
  decode 0x00000000000077D4 = .ok (.unassignedOpcode 0x00000000000077D4)

/-! ## The whole machine -/

/-- For every instruction: the decoder reads from a well-formed instruction's word that instruction, with every field, and a
word that it reads as an instruction is that instruction's word and no other. -/
def Obligations.InstructionWordsRoundTrip : Prop :=
  (∀ i w, i.wf = true → encode i = some w → decode w = .ok i) ∧
  (∀ i, i.wf = true → i.hdr?.isSome = true → (encode i).isSome = true) ∧
  (∀ w i, decode w = .ok i → encode i = some w ∧ i.wf = true)

/-- The same for the words of queue programs (R406, R407). -/
def Obligations.QueueWordsRoundTrip : Prop :=
  (∀ i w, encodeQp i = some w → decodeQp w = .ok i) ∧ (∀ w i, decodeQp w = .ok i → encodeQp i = some w)

/-- A step runs the decoded instruction: a thread's or fragment's, a queue processor's and a host's or device's event; and
what a thread fetches, with no word of its own or of its instruction cache, is memory's at its PC (R139, R220). Which agent
moves next is the model's choice (log 1). -/
def Obligations.StepRunsDecodedInstruction : Prop :=
  (∀ (s : State) a rest first others (t : Thread) w, s.beamRest = a :: rest → (∀ q, a ≠ .queue q) →
    let u : State := { s with beamRest := rest, cur := a }
    u.mayIssue a = true → u.actorTids a = first :: others → u.thread? first = some t → u.fetch t = .ok w →
    let v := (u.fetchFill t).updThreads (first :: others) (fun t =>
      { t with prefetch := t.prefetch.filter (·.1 != t.pc), trapWait := false })
    (∀ i, decode w = .ok i → step s = exec i v) ∧
    (∀ e, decode w = .error e → step s = .next (v.stop a first w (undecodedStop t w)))) ∧
  (∀ (s : State) (t : Thread) key, t.pc.toNat % 8 = 0 → t.prefetch = [] → s.key t.ctx t.pc .fetch = .ok key →
    (∀ e ∈ s.icache, ¬(e.1 = t.place.cache ∧ e.2.1 = key)) → s.poisoned key 8 = false →
    s.fetch t = .ok (BitVec.ofNat 64 (leNat (s.bytes key 8)))) ∧
  (∀ (s : State) q rest p w i, s.beamRest = .queue q :: rest → (s.queue q).state = .running → (s.queue q).block = none →
    (s.queue q).image = some p → p.words[(s.queue q).pc]? = some w → decodeQp w = .ok i →
    step s = exec i { s with beamRest := rest, cur := .queue q }) ∧
  (∀ (s : State) i rest, s.beamRest = [] → s.agenda = .event i :: rest → isEvent i = true →
    step s = exec i { s.trim with agenda := rest, cur := s.trim.eventSite i }) ∧
  (∀ (s : State) rest n tid, s.beamRest = [] → s.agenda = .latencyCore n :: rest → (s.lc n).running = some tid →
    step s = step { s.trim with agenda := rest, beamRest := [.thread tid] }) ∧
  (∀ (s : State) rest d c m a more, s.beamRest = [] → s.agenda = .beam d c m :: rest →
    let u := ({ s.trim with agenda := rest } : State).noteStalls d c
    u.beam d c m = a :: more →
    step s = step (({ u with beamRest := a :: more } : State).tallyCore (coreIdx d c) (if m then 3 else 2) 1)) ∧
  (∀ (s : State) rest func bar off len, s.beamRest = [] → s.agenda = .registerRead func bar off len :: rest →
    step s = match ({ s.trim with agenda := rest } : State).registerRead func bar off len with
      | .next t => .next t
      | _ => .next { s.trim with agenda := rest }) ∧
  (∀ (s : State), let e := s.trim
    e = { s with home := e.home, l2 := e.l2, dirty := e.dirty, shadow := e.shadow, mem := e.mem, l1Old := e.l1Old
                 counts := e.counts, windowCounts := e.windowCounts, dieCounters := e.dieCounters } ∧
    (s.home.length + s.l2.length ≤ 4096 → e = s)) ∧
  (∀ (s : State) (t : Thread), let e := s.fetchFill t
    e = { s with home := e.home, counts := e.counts, windowCounts := e.windowCounts, dieCounters := e.dieCounters
                 cores := e.cores })

/-- The state after reset (R397, R399, R401, R416, R424, R435, R436, R453), and the stages of boot, which a module with a
good image in slot 0 passes in five steps (the image and the fuses are the model's choice, log 7). -/
def Obligations.ResetAndBoot : Prop :=
  (∀ b : Boot, b = State.reset.boot → b.state = .booting ∧ b.stage = 0 ∧ b.slot = 0 ∧ b.failcode = 0 ∧ b.svn = 0) ∧
  State.reset.sem.held = false ∧ State.reset.sem.owner = 0xF ∧ State.reset.semviol = 0 ∧ State.reset.powerlim = 3200 ∧
  State.reset.routing = [(true, false), (true, false), (true, false), (true, false), (true, false), (true, true)] ∧
  State.reset.time = 0 ∧ State.reset.threads = [] ∧ State.reset.exports = [] ∧
  (∀ f, let x := State.reset.func f
    x.stat = 0 ∧ x.arg0 = 0 ∧ x.arg1 = 0 ∧ x.arg2 = 0 ∧ x.capbase = 0 ∧ x.dapbase = 0) ∧
  (∀ q, let x := State.reset.queue q
    x.enable = false ∧ x.state = .off ∧ x.kickv = 0 ∧ x.rdidx = 0 ∧ x.ccount = 0 ∧ x.fcode = 0) ∧
  (∀ c, State.reset.ctx? c = none) ∧
  (∃ a b c d e, step State.reset = .next a ∧ step a = .next b ∧ step b = .next c ∧ step c = .next d ∧ step d = .next e ∧
    a.boot.stage = 1 ∧ b.boot.stage = 2 ∧ c.boot.stage = 3 ∧ d.boot.stage = 4 ∧ e.boot.stage = 5 ∧ e.boot.state = .ready)

/-- The memories of the reset state are in canonical form; a store to device memory is read back, byte by byte, with every other
byte as it was; and no clean copy of its lines stays in the slices of other dies, nor in an L1 that is not the writer's (R85,
R86). -/
def Obligations.MemoriesAtResetAndAfterStore : Prop :=
  State.reset.Inv ∧
  (∀ (s : State) key l, s.Inv → (s.putMem key l).Inv ∧ ∀ k, (s.putMem key l).byte k =
    if key ≤ k ∧ k < key + l.length then l.getD (k - key) 0 else s.byte k) ∧
  (∀ (s : State) key l, (∀ x ∈ (s.putMem key l).l1, x ∈ s.l1 ∧ ∀ i, i < l.length → (key + i) / 1024 ≠ x.sector / 4) ∧
    (∀ x ∈ (s.putMem key l).lcL2, x ∈ s.lcL2 ∧ ∀ i, i < l.length → (key + i) / 1024 ≠ x.sector / 4) ∧
    (∀ x ∈ (s.putMem key l).l2, x ∈ s.l2 ∧ ∀ i, i < l.length → (key + i) / 1024 ≠ x.sector / 4) ∧
    (∀ x ∈ s.l1, (∀ i, i < l.length → (key + i) / 1024 ≠ x.sector / 4) → x ∈ (s.putMem key l).l1)) ∧
  (∀ (s : State) k c keep key l, ∀ x ∈ (s.storeMem k c keep key l).l1,
    x ∈ s.l1 ∧ (x.core = k ∨ ∀ i, i < l.length → (key + i) / 1024 ≠ x.sector / 4))

/-- Every step keeps the canonical form of physical memory, the scratchpads and the accumulator stores: whatever runs, equal
contents stay equal data. -/
def Obligations.EveryStepKeepsMemoriesCanonical : Prop := ∀ s s', s.Inv → step s = .next s' → s'.Inv
end

