-- ==== Sys2Proof/Laws/State.lean ====
section
/-! SUPPORT. What each update of the state leaves in each field that it does not write. -/

namespace Sys2Proof.Machine

@[simp] theorem State.updThread_time (s : State) (j : Nat) (f : Thread → Thread) : (s.updThread j f).time = s.time := rfl
@[simp] theorem State.updThread_elapsed (s : State) (j : Nat) (f : Thread → Thread) : (s.updThread j f).elapsed = s.elapsed := rfl
@[simp] theorem State.updThread_cycles (s : State) (j : Nat) (f : Thread → Thread) : (s.updThread j f).cycles = s.cycles := rfl
@[simp] theorem State.updThread_lcCycles (s : State) (j : Nat) (f : Thread → Thread) : (s.updThread j f).lcCycles = s.lcCycles := rfl
@[simp] theorem State.updThread_agenda (s : State) (j : Nat) (f : Thread → Thread) : (s.updThread j f).agenda = s.agenda := rfl
@[simp] theorem State.updThread_beamRest (s : State) (j : Nat) (f : Thread → Thread) : (s.updThread j f).beamRest = s.beamRest := rfl
@[simp] theorem State.updThread_cur (s : State) (j : Nat) (f : Thread → Thread) : (s.updThread j f).cur = s.cur := rfl
@[simp] theorem State.updThread_tick (s : State) (j : Nat) (f : Thread → Thread) : (s.updThread j f).tick = s.tick := rfl
@[simp] theorem State.updThread_nextId (s : State) (j : Nat) (f : Thread → Thread) : (s.updThread j f).nextId = s.nextId := rfl
@[simp] theorem State.updThread_free (s : State) (j : Nat) (f : Thread → Thread) : (s.updThread j f).free = s.free := rfl
@[simp] theorem State.updThread_mem (s : State) (j : Nat) (f : Thread → Thread) : (s.updThread j f).mem = s.mem := rfl
@[simp] theorem State.updThread_dirty (s : State) (j : Nat) (f : Thread → Thread) : (s.updThread j f).dirty = s.dirty := rfl
@[simp] theorem State.updThread_shadow (s : State) (j : Nat) (f : Thread → Thread) : (s.updThread j f).shadow = s.shadow := rfl
@[simp] theorem State.updThread_poison (s : State) (j : Nat) (f : Thread → Thread) : (s.updThread j f).poison = s.poison := rfl
@[simp] theorem State.updThread_tlb (s : State) (j : Nat) (f : Thread → Thread) : (s.updThread j f).tlb = s.tlb := rfl
@[simp] theorem State.updThread_icache (s : State) (j : Nat) (f : Thread → Thread) : (s.updThread j f).icache = s.icache := rfl
@[simp] theorem State.updThread_l1 (s : State) (j : Nat) (f : Thread → Thread) : (s.updThread j f).l1 = s.l1 := rfl
@[simp] theorem State.updThread_l1Old (s : State) (j : Nat) (f : Thread → Thread) : (s.updThread j f).l1Old = s.l1Old := rfl
@[simp] theorem State.updThread_l2 (s : State) (j : Nat) (f : Thread → Thread) : (s.updThread j f).l2 = s.l2 := rfl
@[simp] theorem State.updThread_lcL2 (s : State) (j : Nat) (f : Thread → Thread) : (s.updThread j f).lcL2 = s.lcL2 := rfl
@[simp] theorem State.updThread_home (s : State) (j : Nat) (f : Thread → Thread) : (s.updThread j f).home = s.home := rfl
@[simp] theorem State.updThread_scratch (s : State) (j : Nat) (f : Thread → Thread) : (s.updThread j f).scratch = s.scratch := rfl
@[simp] theorem State.updThread_cells (s : State) (j : Nat) (f : Thread → Thread) : (s.updThread j f).cells = s.cells := rfl
@[simp] theorem State.updThread_cores (s : State) (j : Nat) (f : Thread → Thread) : (s.updThread j f).cores = s.cores := rfl
@[simp] theorem State.updThread_lcs (s : State) (j : Nat) (f : Thread → Thread) : (s.updThread j f).lcs = s.lcs := rfl
@[simp] theorem State.updThread_dies (s : State) (j : Nat) (f : Thread → Thread) : (s.updThread j f).dies = s.dies := rfl
@[simp] theorem State.updThread_groups (s : State) (j : Nat) (f : Thread → Thread) : (s.updThread j f).groups = s.groups := rfl
@[simp] theorem State.updThread_tasks (s : State) (j : Nat) (f : Thread → Thread) : (s.updThread j f).tasks = s.tasks := rfl
@[simp] theorem State.updThread_sets (s : State) (j : Nat) (f : Thread → Thread) : (s.updThread j f).sets = s.sets := rfl
@[simp] theorem State.updThread_ldas (s : State) (j : Nat) (f : Thread → Thread) : (s.updThread j f).ldas = s.ldas := rfl
@[simp] theorem State.updThread_copies (s : State) (j : Nat) (f : Thread → Thread) : (s.updThread j f).copies = s.copies := rfl
@[simp] theorem State.updThread_ctxs (s : State) (j : Nat) (f : Thread → Thread) : (s.updThread j f).ctxs = s.ctxs := rfl
@[simp] theorem State.updThread_exports (s : State) (j : Nat) (f : Thread → Thread) : (s.updThread j f).exports = s.exports := rfl
@[simp] theorem State.updThread_queues (s : State) (j : Nat) (f : Thread → Thread) : (s.updThread j f).queues = s.queues := rfl
@[simp] theorem State.updThread_funcs (s : State) (j : Nat) (f : Thread → Thread) : (s.updThread j f).funcs = s.funcs := rfl
@[simp] theorem State.updThread_sem (s : State) (j : Nat) (f : Thread → Thread) : (s.updThread j f).sem = s.sem := rfl
@[simp] theorem State.updThread_boot (s : State) (j : Nat) (f : Thread → Thread) : (s.updThread j f).boot = s.boot := rfl
@[simp] theorem State.updThread_routing (s : State) (j : Nat) (f : Thread → Thread) : (s.updThread j f).routing = s.routing := rfl
@[simp] theorem State.updThread_irqs (s : State) (j : Nat) (f : Thread → Thread) : (s.updThread j f).irqs = s.irqs := rfl
@[simp] theorem State.updThread_net (s : State) (j : Nat) (f : Thread → Thread) : (s.updThread j f).net = s.net := rfl
@[simp] theorem State.updThread_hdm (s : State) (j : Nat) (f : Thread → Thread) : (s.updThread j f).hdm = s.hdm := rfl
@[simp] theorem State.updThread_usage (s : State) (j : Nat) (f : Thread → Thread) : (s.updThread j f).usage = s.usage := rfl
@[simp] theorem State.updThread_dieCounters (s : State) (j : Nat) (f : Thread → Thread) : (s.updThread j f).dieCounters = s.dieCounters := rfl
@[simp] theorem State.updThread_health (s : State) (j : Nat) (f : Thread → Thread) : (s.updThread j f).health = s.health := rfl
@[simp] theorem State.updThread_uncorr (s : State) (j : Nat) (f : Thread → Thread) : (s.updThread j f).uncorr = s.uncorr := rfl
@[simp] theorem State.updThread_i3c (s : State) (j : Nat) (f : Thread → Thread) : (s.updThread j f).i3c = s.i3c := rfl
@[simp] theorem State.updThread_ptp (s : State) (j : Nat) (f : Thread → Thread) : (s.updThread j f).ptp = s.ptp := rfl
@[simp] theorem State.updThread_counts (s : State) (j : Nat) (f : Thread → Thread) : (s.updThread j f).counts = s.counts := rfl

@[simp] theorem State.updThreads_time (s : State) (l : List Nat) (f : Thread → Thread) : (s.updThreads l f).time = s.time := rfl
@[simp] theorem State.updThreads_elapsed (s : State) (l : List Nat) (f : Thread → Thread) : (s.updThreads l f).elapsed = s.elapsed := rfl
@[simp] theorem State.updThreads_cycles (s : State) (l : List Nat) (f : Thread → Thread) : (s.updThreads l f).cycles = s.cycles := rfl
@[simp] theorem State.updThreads_lcCycles (s : State) (l : List Nat) (f : Thread → Thread) : (s.updThreads l f).lcCycles = s.lcCycles := rfl
@[simp] theorem State.updThreads_agenda (s : State) (l : List Nat) (f : Thread → Thread) : (s.updThreads l f).agenda = s.agenda := rfl
@[simp] theorem State.updThreads_beamRest (s : State) (l : List Nat) (f : Thread → Thread) : (s.updThreads l f).beamRest = s.beamRest := rfl
@[simp] theorem State.updThreads_cur (s : State) (l : List Nat) (f : Thread → Thread) : (s.updThreads l f).cur = s.cur := rfl
@[simp] theorem State.updThreads_tick (s : State) (l : List Nat) (f : Thread → Thread) : (s.updThreads l f).tick = s.tick := rfl
@[simp] theorem State.updThreads_nextId (s : State) (l : List Nat) (f : Thread → Thread) : (s.updThreads l f).nextId = s.nextId := rfl
@[simp] theorem State.updThreads_free (s : State) (l : List Nat) (f : Thread → Thread) : (s.updThreads l f).free = s.free := rfl
@[simp] theorem State.updThreads_mem (s : State) (l : List Nat) (f : Thread → Thread) : (s.updThreads l f).mem = s.mem := rfl
@[simp] theorem State.updThreads_dirty (s : State) (l : List Nat) (f : Thread → Thread) : (s.updThreads l f).dirty = s.dirty := rfl
@[simp] theorem State.updThreads_shadow (s : State) (l : List Nat) (f : Thread → Thread) : (s.updThreads l f).shadow = s.shadow := rfl
@[simp] theorem State.updThreads_poison (s : State) (l : List Nat) (f : Thread → Thread) : (s.updThreads l f).poison = s.poison := rfl
@[simp] theorem State.updThreads_tlb (s : State) (l : List Nat) (f : Thread → Thread) : (s.updThreads l f).tlb = s.tlb := rfl
@[simp] theorem State.updThreads_icache (s : State) (l : List Nat) (f : Thread → Thread) : (s.updThreads l f).icache = s.icache := rfl
@[simp] theorem State.updThreads_l1 (s : State) (l : List Nat) (f : Thread → Thread) : (s.updThreads l f).l1 = s.l1 := rfl
@[simp] theorem State.updThreads_l1Old (s : State) (l : List Nat) (f : Thread → Thread) : (s.updThreads l f).l1Old = s.l1Old := rfl
@[simp] theorem State.updThreads_l2 (s : State) (l : List Nat) (f : Thread → Thread) : (s.updThreads l f).l2 = s.l2 := rfl
@[simp] theorem State.updThreads_lcL2 (s : State) (l : List Nat) (f : Thread → Thread) : (s.updThreads l f).lcL2 = s.lcL2 := rfl
@[simp] theorem State.updThreads_home (s : State) (l : List Nat) (f : Thread → Thread) : (s.updThreads l f).home = s.home := rfl
@[simp] theorem State.updThreads_scratch (s : State) (l : List Nat) (f : Thread → Thread) : (s.updThreads l f).scratch = s.scratch := rfl
@[simp] theorem State.updThreads_cells (s : State) (l : List Nat) (f : Thread → Thread) : (s.updThreads l f).cells = s.cells := rfl
@[simp] theorem State.updThreads_cores (s : State) (l : List Nat) (f : Thread → Thread) : (s.updThreads l f).cores = s.cores := rfl
@[simp] theorem State.updThreads_lcs (s : State) (l : List Nat) (f : Thread → Thread) : (s.updThreads l f).lcs = s.lcs := rfl
@[simp] theorem State.updThreads_dies (s : State) (l : List Nat) (f : Thread → Thread) : (s.updThreads l f).dies = s.dies := rfl
@[simp] theorem State.updThreads_groups (s : State) (l : List Nat) (f : Thread → Thread) : (s.updThreads l f).groups = s.groups := rfl
@[simp] theorem State.updThreads_tasks (s : State) (l : List Nat) (f : Thread → Thread) : (s.updThreads l f).tasks = s.tasks := rfl
@[simp] theorem State.updThreads_sets (s : State) (l : List Nat) (f : Thread → Thread) : (s.updThreads l f).sets = s.sets := rfl
@[simp] theorem State.updThreads_ldas (s : State) (l : List Nat) (f : Thread → Thread) : (s.updThreads l f).ldas = s.ldas := rfl
@[simp] theorem State.updThreads_copies (s : State) (l : List Nat) (f : Thread → Thread) : (s.updThreads l f).copies = s.copies := rfl
@[simp] theorem State.updThreads_ctxs (s : State) (l : List Nat) (f : Thread → Thread) : (s.updThreads l f).ctxs = s.ctxs := rfl
@[simp] theorem State.updThreads_exports (s : State) (l : List Nat) (f : Thread → Thread) : (s.updThreads l f).exports = s.exports := rfl
@[simp] theorem State.updThreads_queues (s : State) (l : List Nat) (f : Thread → Thread) : (s.updThreads l f).queues = s.queues := rfl
@[simp] theorem State.updThreads_funcs (s : State) (l : List Nat) (f : Thread → Thread) : (s.updThreads l f).funcs = s.funcs := rfl
@[simp] theorem State.updThreads_sem (s : State) (l : List Nat) (f : Thread → Thread) : (s.updThreads l f).sem = s.sem := rfl
@[simp] theorem State.updThreads_boot (s : State) (l : List Nat) (f : Thread → Thread) : (s.updThreads l f).boot = s.boot := rfl
@[simp] theorem State.updThreads_routing (s : State) (l : List Nat) (f : Thread → Thread) : (s.updThreads l f).routing = s.routing := rfl
@[simp] theorem State.updThreads_irqs (s : State) (l : List Nat) (f : Thread → Thread) : (s.updThreads l f).irqs = s.irqs := rfl
@[simp] theorem State.updThreads_net (s : State) (l : List Nat) (f : Thread → Thread) : (s.updThreads l f).net = s.net := rfl
@[simp] theorem State.updThreads_hdm (s : State) (l : List Nat) (f : Thread → Thread) : (s.updThreads l f).hdm = s.hdm := rfl
@[simp] theorem State.updThreads_usage (s : State) (l : List Nat) (f : Thread → Thread) : (s.updThreads l f).usage = s.usage := rfl
@[simp] theorem State.updThreads_dieCounters (s : State) (l : List Nat) (f : Thread → Thread) : (s.updThreads l f).dieCounters = s.dieCounters := rfl
@[simp] theorem State.updThreads_health (s : State) (l : List Nat) (f : Thread → Thread) : (s.updThreads l f).health = s.health := rfl
@[simp] theorem State.updThreads_uncorr (s : State) (l : List Nat) (f : Thread → Thread) : (s.updThreads l f).uncorr = s.uncorr := rfl
@[simp] theorem State.updThreads_i3c (s : State) (l : List Nat) (f : Thread → Thread) : (s.updThreads l f).i3c = s.i3c := rfl
@[simp] theorem State.updThreads_ptp (s : State) (l : List Nat) (f : Thread → Thread) : (s.updThreads l f).ptp = s.ptp := rfl
@[simp] theorem State.updThreads_counts (s : State) (l : List Nat) (f : Thread → Thread) : (s.updThreads l f).counts = s.counts := rfl

@[simp] theorem State.updGroup_time (s : State) (j : Nat) (f : Group → Group) : (s.updGroup j f).time = s.time := rfl
@[simp] theorem State.updGroup_elapsed (s : State) (j : Nat) (f : Group → Group) : (s.updGroup j f).elapsed = s.elapsed := rfl
@[simp] theorem State.updGroup_cycles (s : State) (j : Nat) (f : Group → Group) : (s.updGroup j f).cycles = s.cycles := rfl
@[simp] theorem State.updGroup_lcCycles (s : State) (j : Nat) (f : Group → Group) : (s.updGroup j f).lcCycles = s.lcCycles := rfl
@[simp] theorem State.updGroup_agenda (s : State) (j : Nat) (f : Group → Group) : (s.updGroup j f).agenda = s.agenda := rfl
@[simp] theorem State.updGroup_beamRest (s : State) (j : Nat) (f : Group → Group) : (s.updGroup j f).beamRest = s.beamRest := rfl
@[simp] theorem State.updGroup_cur (s : State) (j : Nat) (f : Group → Group) : (s.updGroup j f).cur = s.cur := rfl
@[simp] theorem State.updGroup_tick (s : State) (j : Nat) (f : Group → Group) : (s.updGroup j f).tick = s.tick := rfl
@[simp] theorem State.updGroup_nextId (s : State) (j : Nat) (f : Group → Group) : (s.updGroup j f).nextId = s.nextId := rfl
@[simp] theorem State.updGroup_free (s : State) (j : Nat) (f : Group → Group) : (s.updGroup j f).free = s.free := rfl
@[simp] theorem State.updGroup_mem (s : State) (j : Nat) (f : Group → Group) : (s.updGroup j f).mem = s.mem := rfl
@[simp] theorem State.updGroup_dirty (s : State) (j : Nat) (f : Group → Group) : (s.updGroup j f).dirty = s.dirty := rfl
@[simp] theorem State.updGroup_shadow (s : State) (j : Nat) (f : Group → Group) : (s.updGroup j f).shadow = s.shadow := rfl
@[simp] theorem State.updGroup_poison (s : State) (j : Nat) (f : Group → Group) : (s.updGroup j f).poison = s.poison := rfl
@[simp] theorem State.updGroup_tlb (s : State) (j : Nat) (f : Group → Group) : (s.updGroup j f).tlb = s.tlb := rfl
@[simp] theorem State.updGroup_icache (s : State) (j : Nat) (f : Group → Group) : (s.updGroup j f).icache = s.icache := rfl
@[simp] theorem State.updGroup_l1 (s : State) (j : Nat) (f : Group → Group) : (s.updGroup j f).l1 = s.l1 := rfl
@[simp] theorem State.updGroup_l1Old (s : State) (j : Nat) (f : Group → Group) : (s.updGroup j f).l1Old = s.l1Old := rfl
@[simp] theorem State.updGroup_l2 (s : State) (j : Nat) (f : Group → Group) : (s.updGroup j f).l2 = s.l2 := rfl
@[simp] theorem State.updGroup_lcL2 (s : State) (j : Nat) (f : Group → Group) : (s.updGroup j f).lcL2 = s.lcL2 := rfl
@[simp] theorem State.updGroup_home (s : State) (j : Nat) (f : Group → Group) : (s.updGroup j f).home = s.home := rfl
@[simp] theorem State.updGroup_scratch (s : State) (j : Nat) (f : Group → Group) : (s.updGroup j f).scratch = s.scratch := rfl
@[simp] theorem State.updGroup_cells (s : State) (j : Nat) (f : Group → Group) : (s.updGroup j f).cells = s.cells := rfl
@[simp] theorem State.updGroup_cores (s : State) (j : Nat) (f : Group → Group) : (s.updGroup j f).cores = s.cores := rfl
@[simp] theorem State.updGroup_lcs (s : State) (j : Nat) (f : Group → Group) : (s.updGroup j f).lcs = s.lcs := rfl
@[simp] theorem State.updGroup_dies (s : State) (j : Nat) (f : Group → Group) : (s.updGroup j f).dies = s.dies := rfl
@[simp] theorem State.updGroup_threads (s : State) (j : Nat) (f : Group → Group) : (s.updGroup j f).threads = s.threads := rfl
@[simp] theorem State.updGroup_tasks (s : State) (j : Nat) (f : Group → Group) : (s.updGroup j f).tasks = s.tasks := rfl
@[simp] theorem State.updGroup_sets (s : State) (j : Nat) (f : Group → Group) : (s.updGroup j f).sets = s.sets := rfl
@[simp] theorem State.updGroup_ldas (s : State) (j : Nat) (f : Group → Group) : (s.updGroup j f).ldas = s.ldas := rfl
@[simp] theorem State.updGroup_copies (s : State) (j : Nat) (f : Group → Group) : (s.updGroup j f).copies = s.copies := rfl
@[simp] theorem State.updGroup_ctxs (s : State) (j : Nat) (f : Group → Group) : (s.updGroup j f).ctxs = s.ctxs := rfl
@[simp] theorem State.updGroup_exports (s : State) (j : Nat) (f : Group → Group) : (s.updGroup j f).exports = s.exports := rfl
@[simp] theorem State.updGroup_queues (s : State) (j : Nat) (f : Group → Group) : (s.updGroup j f).queues = s.queues := rfl
@[simp] theorem State.updGroup_funcs (s : State) (j : Nat) (f : Group → Group) : (s.updGroup j f).funcs = s.funcs := rfl
@[simp] theorem State.updGroup_sem (s : State) (j : Nat) (f : Group → Group) : (s.updGroup j f).sem = s.sem := rfl
@[simp] theorem State.updGroup_boot (s : State) (j : Nat) (f : Group → Group) : (s.updGroup j f).boot = s.boot := rfl
@[simp] theorem State.updGroup_routing (s : State) (j : Nat) (f : Group → Group) : (s.updGroup j f).routing = s.routing := rfl
@[simp] theorem State.updGroup_irqs (s : State) (j : Nat) (f : Group → Group) : (s.updGroup j f).irqs = s.irqs := rfl
@[simp] theorem State.updGroup_net (s : State) (j : Nat) (f : Group → Group) : (s.updGroup j f).net = s.net := rfl
@[simp] theorem State.updGroup_hdm (s : State) (j : Nat) (f : Group → Group) : (s.updGroup j f).hdm = s.hdm := rfl
@[simp] theorem State.updGroup_usage (s : State) (j : Nat) (f : Group → Group) : (s.updGroup j f).usage = s.usage := rfl
@[simp] theorem State.updGroup_dieCounters (s : State) (j : Nat) (f : Group → Group) : (s.updGroup j f).dieCounters = s.dieCounters := rfl
@[simp] theorem State.updGroup_health (s : State) (j : Nat) (f : Group → Group) : (s.updGroup j f).health = s.health := rfl
@[simp] theorem State.updGroup_uncorr (s : State) (j : Nat) (f : Group → Group) : (s.updGroup j f).uncorr = s.uncorr := rfl
@[simp] theorem State.updGroup_i3c (s : State) (j : Nat) (f : Group → Group) : (s.updGroup j f).i3c = s.i3c := rfl
@[simp] theorem State.updGroup_ptp (s : State) (j : Nat) (f : Group → Group) : (s.updGroup j f).ptp = s.ptp := rfl
@[simp] theorem State.updGroup_counts (s : State) (j : Nat) (f : Group → Group) : (s.updGroup j f).counts = s.counts := rfl

@[simp] theorem State.updTask_time (s : State) (j : Nat) (f : Task → Task) : (s.updTask j f).time = s.time := rfl
@[simp] theorem State.updTask_elapsed (s : State) (j : Nat) (f : Task → Task) : (s.updTask j f).elapsed = s.elapsed := rfl
@[simp] theorem State.updTask_cycles (s : State) (j : Nat) (f : Task → Task) : (s.updTask j f).cycles = s.cycles := rfl
@[simp] theorem State.updTask_lcCycles (s : State) (j : Nat) (f : Task → Task) : (s.updTask j f).lcCycles = s.lcCycles := rfl
@[simp] theorem State.updTask_agenda (s : State) (j : Nat) (f : Task → Task) : (s.updTask j f).agenda = s.agenda := rfl
@[simp] theorem State.updTask_beamRest (s : State) (j : Nat) (f : Task → Task) : (s.updTask j f).beamRest = s.beamRest := rfl
@[simp] theorem State.updTask_cur (s : State) (j : Nat) (f : Task → Task) : (s.updTask j f).cur = s.cur := rfl
@[simp] theorem State.updTask_tick (s : State) (j : Nat) (f : Task → Task) : (s.updTask j f).tick = s.tick := rfl
@[simp] theorem State.updTask_nextId (s : State) (j : Nat) (f : Task → Task) : (s.updTask j f).nextId = s.nextId := rfl
@[simp] theorem State.updTask_free (s : State) (j : Nat) (f : Task → Task) : (s.updTask j f).free = s.free := rfl
@[simp] theorem State.updTask_mem (s : State) (j : Nat) (f : Task → Task) : (s.updTask j f).mem = s.mem := rfl
@[simp] theorem State.updTask_dirty (s : State) (j : Nat) (f : Task → Task) : (s.updTask j f).dirty = s.dirty := rfl
@[simp] theorem State.updTask_shadow (s : State) (j : Nat) (f : Task → Task) : (s.updTask j f).shadow = s.shadow := rfl
@[simp] theorem State.updTask_poison (s : State) (j : Nat) (f : Task → Task) : (s.updTask j f).poison = s.poison := rfl
@[simp] theorem State.updTask_tlb (s : State) (j : Nat) (f : Task → Task) : (s.updTask j f).tlb = s.tlb := rfl
@[simp] theorem State.updTask_icache (s : State) (j : Nat) (f : Task → Task) : (s.updTask j f).icache = s.icache := rfl
@[simp] theorem State.updTask_l1 (s : State) (j : Nat) (f : Task → Task) : (s.updTask j f).l1 = s.l1 := rfl
@[simp] theorem State.updTask_l1Old (s : State) (j : Nat) (f : Task → Task) : (s.updTask j f).l1Old = s.l1Old := rfl
@[simp] theorem State.updTask_l2 (s : State) (j : Nat) (f : Task → Task) : (s.updTask j f).l2 = s.l2 := rfl
@[simp] theorem State.updTask_lcL2 (s : State) (j : Nat) (f : Task → Task) : (s.updTask j f).lcL2 = s.lcL2 := rfl
@[simp] theorem State.updTask_home (s : State) (j : Nat) (f : Task → Task) : (s.updTask j f).home = s.home := rfl
@[simp] theorem State.updTask_scratch (s : State) (j : Nat) (f : Task → Task) : (s.updTask j f).scratch = s.scratch := rfl
@[simp] theorem State.updTask_cells (s : State) (j : Nat) (f : Task → Task) : (s.updTask j f).cells = s.cells := rfl
@[simp] theorem State.updTask_cores (s : State) (j : Nat) (f : Task → Task) : (s.updTask j f).cores = s.cores := rfl
@[simp] theorem State.updTask_lcs (s : State) (j : Nat) (f : Task → Task) : (s.updTask j f).lcs = s.lcs := rfl
@[simp] theorem State.updTask_dies (s : State) (j : Nat) (f : Task → Task) : (s.updTask j f).dies = s.dies := rfl
@[simp] theorem State.updTask_threads (s : State) (j : Nat) (f : Task → Task) : (s.updTask j f).threads = s.threads := rfl
@[simp] theorem State.updTask_groups (s : State) (j : Nat) (f : Task → Task) : (s.updTask j f).groups = s.groups := rfl
@[simp] theorem State.updTask_sets (s : State) (j : Nat) (f : Task → Task) : (s.updTask j f).sets = s.sets := rfl
@[simp] theorem State.updTask_ldas (s : State) (j : Nat) (f : Task → Task) : (s.updTask j f).ldas = s.ldas := rfl
@[simp] theorem State.updTask_copies (s : State) (j : Nat) (f : Task → Task) : (s.updTask j f).copies = s.copies := rfl
@[simp] theorem State.updTask_ctxs (s : State) (j : Nat) (f : Task → Task) : (s.updTask j f).ctxs = s.ctxs := rfl
@[simp] theorem State.updTask_exports (s : State) (j : Nat) (f : Task → Task) : (s.updTask j f).exports = s.exports := rfl
@[simp] theorem State.updTask_queues (s : State) (j : Nat) (f : Task → Task) : (s.updTask j f).queues = s.queues := rfl
@[simp] theorem State.updTask_funcs (s : State) (j : Nat) (f : Task → Task) : (s.updTask j f).funcs = s.funcs := rfl
@[simp] theorem State.updTask_sem (s : State) (j : Nat) (f : Task → Task) : (s.updTask j f).sem = s.sem := rfl
@[simp] theorem State.updTask_boot (s : State) (j : Nat) (f : Task → Task) : (s.updTask j f).boot = s.boot := rfl
@[simp] theorem State.updTask_routing (s : State) (j : Nat) (f : Task → Task) : (s.updTask j f).routing = s.routing := rfl
@[simp] theorem State.updTask_irqs (s : State) (j : Nat) (f : Task → Task) : (s.updTask j f).irqs = s.irqs := rfl
@[simp] theorem State.updTask_net (s : State) (j : Nat) (f : Task → Task) : (s.updTask j f).net = s.net := rfl
@[simp] theorem State.updTask_hdm (s : State) (j : Nat) (f : Task → Task) : (s.updTask j f).hdm = s.hdm := rfl
@[simp] theorem State.updTask_usage (s : State) (j : Nat) (f : Task → Task) : (s.updTask j f).usage = s.usage := rfl
@[simp] theorem State.updTask_dieCounters (s : State) (j : Nat) (f : Task → Task) : (s.updTask j f).dieCounters = s.dieCounters := rfl
@[simp] theorem State.updTask_health (s : State) (j : Nat) (f : Task → Task) : (s.updTask j f).health = s.health := rfl
@[simp] theorem State.updTask_uncorr (s : State) (j : Nat) (f : Task → Task) : (s.updTask j f).uncorr = s.uncorr := rfl
@[simp] theorem State.updTask_i3c (s : State) (j : Nat) (f : Task → Task) : (s.updTask j f).i3c = s.i3c := rfl
@[simp] theorem State.updTask_ptp (s : State) (j : Nat) (f : Task → Task) : (s.updTask j f).ptp = s.ptp := rfl
@[simp] theorem State.updTask_counts (s : State) (j : Nat) (f : Task → Task) : (s.updTask j f).counts = s.counts := rfl

@[simp] theorem State.updCore_time (s : State) (j : Nat) (f : Core → Core) : (s.updCore j f).time = s.time := rfl
@[simp] theorem State.updCore_elapsed (s : State) (j : Nat) (f : Core → Core) : (s.updCore j f).elapsed = s.elapsed := rfl
@[simp] theorem State.updCore_cycles (s : State) (j : Nat) (f : Core → Core) : (s.updCore j f).cycles = s.cycles := rfl
@[simp] theorem State.updCore_lcCycles (s : State) (j : Nat) (f : Core → Core) : (s.updCore j f).lcCycles = s.lcCycles := rfl
@[simp] theorem State.updCore_agenda (s : State) (j : Nat) (f : Core → Core) : (s.updCore j f).agenda = s.agenda := rfl
@[simp] theorem State.updCore_beamRest (s : State) (j : Nat) (f : Core → Core) : (s.updCore j f).beamRest = s.beamRest := rfl
@[simp] theorem State.updCore_cur (s : State) (j : Nat) (f : Core → Core) : (s.updCore j f).cur = s.cur := rfl
@[simp] theorem State.updCore_tick (s : State) (j : Nat) (f : Core → Core) : (s.updCore j f).tick = s.tick := rfl
@[simp] theorem State.updCore_nextId (s : State) (j : Nat) (f : Core → Core) : (s.updCore j f).nextId = s.nextId := rfl
@[simp] theorem State.updCore_free (s : State) (j : Nat) (f : Core → Core) : (s.updCore j f).free = s.free := rfl
@[simp] theorem State.updCore_mem (s : State) (j : Nat) (f : Core → Core) : (s.updCore j f).mem = s.mem := rfl
@[simp] theorem State.updCore_dirty (s : State) (j : Nat) (f : Core → Core) : (s.updCore j f).dirty = s.dirty := rfl
@[simp] theorem State.updCore_shadow (s : State) (j : Nat) (f : Core → Core) : (s.updCore j f).shadow = s.shadow := rfl
@[simp] theorem State.updCore_poison (s : State) (j : Nat) (f : Core → Core) : (s.updCore j f).poison = s.poison := rfl
@[simp] theorem State.updCore_tlb (s : State) (j : Nat) (f : Core → Core) : (s.updCore j f).tlb = s.tlb := rfl
@[simp] theorem State.updCore_icache (s : State) (j : Nat) (f : Core → Core) : (s.updCore j f).icache = s.icache := rfl
@[simp] theorem State.updCore_l1 (s : State) (j : Nat) (f : Core → Core) : (s.updCore j f).l1 = s.l1 := rfl
@[simp] theorem State.updCore_l1Old (s : State) (j : Nat) (f : Core → Core) : (s.updCore j f).l1Old = s.l1Old := rfl
@[simp] theorem State.updCore_l2 (s : State) (j : Nat) (f : Core → Core) : (s.updCore j f).l2 = s.l2 := rfl
@[simp] theorem State.updCore_lcL2 (s : State) (j : Nat) (f : Core → Core) : (s.updCore j f).lcL2 = s.lcL2 := rfl
@[simp] theorem State.updCore_home (s : State) (j : Nat) (f : Core → Core) : (s.updCore j f).home = s.home := rfl
@[simp] theorem State.updCore_scratch (s : State) (j : Nat) (f : Core → Core) : (s.updCore j f).scratch = s.scratch := rfl
@[simp] theorem State.updCore_cells (s : State) (j : Nat) (f : Core → Core) : (s.updCore j f).cells = s.cells := rfl
@[simp] theorem State.updCore_lcs (s : State) (j : Nat) (f : Core → Core) : (s.updCore j f).lcs = s.lcs := rfl
@[simp] theorem State.updCore_dies (s : State) (j : Nat) (f : Core → Core) : (s.updCore j f).dies = s.dies := rfl
@[simp] theorem State.updCore_threads (s : State) (j : Nat) (f : Core → Core) : (s.updCore j f).threads = s.threads := rfl
@[simp] theorem State.updCore_groups (s : State) (j : Nat) (f : Core → Core) : (s.updCore j f).groups = s.groups := rfl
@[simp] theorem State.updCore_tasks (s : State) (j : Nat) (f : Core → Core) : (s.updCore j f).tasks = s.tasks := rfl
@[simp] theorem State.updCore_sets (s : State) (j : Nat) (f : Core → Core) : (s.updCore j f).sets = s.sets := rfl
@[simp] theorem State.updCore_ldas (s : State) (j : Nat) (f : Core → Core) : (s.updCore j f).ldas = s.ldas := rfl
@[simp] theorem State.updCore_copies (s : State) (j : Nat) (f : Core → Core) : (s.updCore j f).copies = s.copies := rfl
@[simp] theorem State.updCore_ctxs (s : State) (j : Nat) (f : Core → Core) : (s.updCore j f).ctxs = s.ctxs := rfl
@[simp] theorem State.updCore_exports (s : State) (j : Nat) (f : Core → Core) : (s.updCore j f).exports = s.exports := rfl
@[simp] theorem State.updCore_queues (s : State) (j : Nat) (f : Core → Core) : (s.updCore j f).queues = s.queues := rfl
@[simp] theorem State.updCore_funcs (s : State) (j : Nat) (f : Core → Core) : (s.updCore j f).funcs = s.funcs := rfl
@[simp] theorem State.updCore_sem (s : State) (j : Nat) (f : Core → Core) : (s.updCore j f).sem = s.sem := rfl
@[simp] theorem State.updCore_boot (s : State) (j : Nat) (f : Core → Core) : (s.updCore j f).boot = s.boot := rfl
@[simp] theorem State.updCore_routing (s : State) (j : Nat) (f : Core → Core) : (s.updCore j f).routing = s.routing := rfl
@[simp] theorem State.updCore_irqs (s : State) (j : Nat) (f : Core → Core) : (s.updCore j f).irqs = s.irqs := rfl
@[simp] theorem State.updCore_net (s : State) (j : Nat) (f : Core → Core) : (s.updCore j f).net = s.net := rfl
@[simp] theorem State.updCore_hdm (s : State) (j : Nat) (f : Core → Core) : (s.updCore j f).hdm = s.hdm := rfl
@[simp] theorem State.updCore_usage (s : State) (j : Nat) (f : Core → Core) : (s.updCore j f).usage = s.usage := rfl
@[simp] theorem State.updCore_dieCounters (s : State) (j : Nat) (f : Core → Core) : (s.updCore j f).dieCounters = s.dieCounters := rfl
@[simp] theorem State.updCore_health (s : State) (j : Nat) (f : Core → Core) : (s.updCore j f).health = s.health := rfl
@[simp] theorem State.updCore_uncorr (s : State) (j : Nat) (f : Core → Core) : (s.updCore j f).uncorr = s.uncorr := rfl
@[simp] theorem State.updCore_i3c (s : State) (j : Nat) (f : Core → Core) : (s.updCore j f).i3c = s.i3c := rfl
@[simp] theorem State.updCore_ptp (s : State) (j : Nat) (f : Core → Core) : (s.updCore j f).ptp = s.ptp := rfl
@[simp] theorem State.updCore_counts (s : State) (j : Nat) (f : Core → Core) : (s.updCore j f).counts = s.counts := rfl

@[simp] theorem State.updLc_time (s : State) (j : Nat) (f : Lc → Lc) : (s.updLc j f).time = s.time := rfl
@[simp] theorem State.updLc_elapsed (s : State) (j : Nat) (f : Lc → Lc) : (s.updLc j f).elapsed = s.elapsed := rfl
@[simp] theorem State.updLc_cycles (s : State) (j : Nat) (f : Lc → Lc) : (s.updLc j f).cycles = s.cycles := rfl
@[simp] theorem State.updLc_lcCycles (s : State) (j : Nat) (f : Lc → Lc) : (s.updLc j f).lcCycles = s.lcCycles := rfl
@[simp] theorem State.updLc_agenda (s : State) (j : Nat) (f : Lc → Lc) : (s.updLc j f).agenda = s.agenda := rfl
@[simp] theorem State.updLc_beamRest (s : State) (j : Nat) (f : Lc → Lc) : (s.updLc j f).beamRest = s.beamRest := rfl
@[simp] theorem State.updLc_cur (s : State) (j : Nat) (f : Lc → Lc) : (s.updLc j f).cur = s.cur := rfl
@[simp] theorem State.updLc_tick (s : State) (j : Nat) (f : Lc → Lc) : (s.updLc j f).tick = s.tick := rfl
@[simp] theorem State.updLc_nextId (s : State) (j : Nat) (f : Lc → Lc) : (s.updLc j f).nextId = s.nextId := rfl
@[simp] theorem State.updLc_free (s : State) (j : Nat) (f : Lc → Lc) : (s.updLc j f).free = s.free := rfl
@[simp] theorem State.updLc_mem (s : State) (j : Nat) (f : Lc → Lc) : (s.updLc j f).mem = s.mem := rfl
@[simp] theorem State.updLc_dirty (s : State) (j : Nat) (f : Lc → Lc) : (s.updLc j f).dirty = s.dirty := rfl
@[simp] theorem State.updLc_shadow (s : State) (j : Nat) (f : Lc → Lc) : (s.updLc j f).shadow = s.shadow := rfl
@[simp] theorem State.updLc_poison (s : State) (j : Nat) (f : Lc → Lc) : (s.updLc j f).poison = s.poison := rfl
@[simp] theorem State.updLc_tlb (s : State) (j : Nat) (f : Lc → Lc) : (s.updLc j f).tlb = s.tlb := rfl
@[simp] theorem State.updLc_icache (s : State) (j : Nat) (f : Lc → Lc) : (s.updLc j f).icache = s.icache := rfl
@[simp] theorem State.updLc_l1 (s : State) (j : Nat) (f : Lc → Lc) : (s.updLc j f).l1 = s.l1 := rfl
@[simp] theorem State.updLc_l1Old (s : State) (j : Nat) (f : Lc → Lc) : (s.updLc j f).l1Old = s.l1Old := rfl
@[simp] theorem State.updLc_l2 (s : State) (j : Nat) (f : Lc → Lc) : (s.updLc j f).l2 = s.l2 := rfl
@[simp] theorem State.updLc_lcL2 (s : State) (j : Nat) (f : Lc → Lc) : (s.updLc j f).lcL2 = s.lcL2 := rfl
@[simp] theorem State.updLc_home (s : State) (j : Nat) (f : Lc → Lc) : (s.updLc j f).home = s.home := rfl
@[simp] theorem State.updLc_scratch (s : State) (j : Nat) (f : Lc → Lc) : (s.updLc j f).scratch = s.scratch := rfl
@[simp] theorem State.updLc_cells (s : State) (j : Nat) (f : Lc → Lc) : (s.updLc j f).cells = s.cells := rfl
@[simp] theorem State.updLc_cores (s : State) (j : Nat) (f : Lc → Lc) : (s.updLc j f).cores = s.cores := rfl
@[simp] theorem State.updLc_dies (s : State) (j : Nat) (f : Lc → Lc) : (s.updLc j f).dies = s.dies := rfl
@[simp] theorem State.updLc_threads (s : State) (j : Nat) (f : Lc → Lc) : (s.updLc j f).threads = s.threads := rfl
@[simp] theorem State.updLc_groups (s : State) (j : Nat) (f : Lc → Lc) : (s.updLc j f).groups = s.groups := rfl
@[simp] theorem State.updLc_tasks (s : State) (j : Nat) (f : Lc → Lc) : (s.updLc j f).tasks = s.tasks := rfl
@[simp] theorem State.updLc_sets (s : State) (j : Nat) (f : Lc → Lc) : (s.updLc j f).sets = s.sets := rfl
@[simp] theorem State.updLc_ldas (s : State) (j : Nat) (f : Lc → Lc) : (s.updLc j f).ldas = s.ldas := rfl
@[simp] theorem State.updLc_copies (s : State) (j : Nat) (f : Lc → Lc) : (s.updLc j f).copies = s.copies := rfl
@[simp] theorem State.updLc_ctxs (s : State) (j : Nat) (f : Lc → Lc) : (s.updLc j f).ctxs = s.ctxs := rfl
@[simp] theorem State.updLc_exports (s : State) (j : Nat) (f : Lc → Lc) : (s.updLc j f).exports = s.exports := rfl
@[simp] theorem State.updLc_queues (s : State) (j : Nat) (f : Lc → Lc) : (s.updLc j f).queues = s.queues := rfl
@[simp] theorem State.updLc_funcs (s : State) (j : Nat) (f : Lc → Lc) : (s.updLc j f).funcs = s.funcs := rfl
@[simp] theorem State.updLc_sem (s : State) (j : Nat) (f : Lc → Lc) : (s.updLc j f).sem = s.sem := rfl
@[simp] theorem State.updLc_boot (s : State) (j : Nat) (f : Lc → Lc) : (s.updLc j f).boot = s.boot := rfl
@[simp] theorem State.updLc_routing (s : State) (j : Nat) (f : Lc → Lc) : (s.updLc j f).routing = s.routing := rfl
@[simp] theorem State.updLc_irqs (s : State) (j : Nat) (f : Lc → Lc) : (s.updLc j f).irqs = s.irqs := rfl
@[simp] theorem State.updLc_net (s : State) (j : Nat) (f : Lc → Lc) : (s.updLc j f).net = s.net := rfl
@[simp] theorem State.updLc_hdm (s : State) (j : Nat) (f : Lc → Lc) : (s.updLc j f).hdm = s.hdm := rfl
@[simp] theorem State.updLc_usage (s : State) (j : Nat) (f : Lc → Lc) : (s.updLc j f).usage = s.usage := rfl
@[simp] theorem State.updLc_dieCounters (s : State) (j : Nat) (f : Lc → Lc) : (s.updLc j f).dieCounters = s.dieCounters := rfl
@[simp] theorem State.updLc_health (s : State) (j : Nat) (f : Lc → Lc) : (s.updLc j f).health = s.health := rfl
@[simp] theorem State.updLc_uncorr (s : State) (j : Nat) (f : Lc → Lc) : (s.updLc j f).uncorr = s.uncorr := rfl
@[simp] theorem State.updLc_i3c (s : State) (j : Nat) (f : Lc → Lc) : (s.updLc j f).i3c = s.i3c := rfl
@[simp] theorem State.updLc_ptp (s : State) (j : Nat) (f : Lc → Lc) : (s.updLc j f).ptp = s.ptp := rfl
@[simp] theorem State.updLc_counts (s : State) (j : Nat) (f : Lc → Lc) : (s.updLc j f).counts = s.counts := rfl

@[simp] theorem State.updDie_time (s : State) (j : Nat) (f : Die → Die) : (s.updDie j f).time = s.time := rfl
@[simp] theorem State.updDie_elapsed (s : State) (j : Nat) (f : Die → Die) : (s.updDie j f).elapsed = s.elapsed := rfl
@[simp] theorem State.updDie_cycles (s : State) (j : Nat) (f : Die → Die) : (s.updDie j f).cycles = s.cycles := rfl
@[simp] theorem State.updDie_lcCycles (s : State) (j : Nat) (f : Die → Die) : (s.updDie j f).lcCycles = s.lcCycles := rfl
@[simp] theorem State.updDie_agenda (s : State) (j : Nat) (f : Die → Die) : (s.updDie j f).agenda = s.agenda := rfl
@[simp] theorem State.updDie_beamRest (s : State) (j : Nat) (f : Die → Die) : (s.updDie j f).beamRest = s.beamRest := rfl
@[simp] theorem State.updDie_cur (s : State) (j : Nat) (f : Die → Die) : (s.updDie j f).cur = s.cur := rfl
@[simp] theorem State.updDie_tick (s : State) (j : Nat) (f : Die → Die) : (s.updDie j f).tick = s.tick := rfl
@[simp] theorem State.updDie_nextId (s : State) (j : Nat) (f : Die → Die) : (s.updDie j f).nextId = s.nextId := rfl
@[simp] theorem State.updDie_free (s : State) (j : Nat) (f : Die → Die) : (s.updDie j f).free = s.free := rfl
@[simp] theorem State.updDie_mem (s : State) (j : Nat) (f : Die → Die) : (s.updDie j f).mem = s.mem := rfl
@[simp] theorem State.updDie_dirty (s : State) (j : Nat) (f : Die → Die) : (s.updDie j f).dirty = s.dirty := rfl
@[simp] theorem State.updDie_shadow (s : State) (j : Nat) (f : Die → Die) : (s.updDie j f).shadow = s.shadow := rfl
@[simp] theorem State.updDie_poison (s : State) (j : Nat) (f : Die → Die) : (s.updDie j f).poison = s.poison := rfl
@[simp] theorem State.updDie_tlb (s : State) (j : Nat) (f : Die → Die) : (s.updDie j f).tlb = s.tlb := rfl
@[simp] theorem State.updDie_icache (s : State) (j : Nat) (f : Die → Die) : (s.updDie j f).icache = s.icache := rfl
@[simp] theorem State.updDie_l1 (s : State) (j : Nat) (f : Die → Die) : (s.updDie j f).l1 = s.l1 := rfl
@[simp] theorem State.updDie_l1Old (s : State) (j : Nat) (f : Die → Die) : (s.updDie j f).l1Old = s.l1Old := rfl
@[simp] theorem State.updDie_l2 (s : State) (j : Nat) (f : Die → Die) : (s.updDie j f).l2 = s.l2 := rfl
@[simp] theorem State.updDie_lcL2 (s : State) (j : Nat) (f : Die → Die) : (s.updDie j f).lcL2 = s.lcL2 := rfl
@[simp] theorem State.updDie_home (s : State) (j : Nat) (f : Die → Die) : (s.updDie j f).home = s.home := rfl
@[simp] theorem State.updDie_scratch (s : State) (j : Nat) (f : Die → Die) : (s.updDie j f).scratch = s.scratch := rfl
@[simp] theorem State.updDie_cells (s : State) (j : Nat) (f : Die → Die) : (s.updDie j f).cells = s.cells := rfl
@[simp] theorem State.updDie_cores (s : State) (j : Nat) (f : Die → Die) : (s.updDie j f).cores = s.cores := rfl
@[simp] theorem State.updDie_lcs (s : State) (j : Nat) (f : Die → Die) : (s.updDie j f).lcs = s.lcs := rfl
@[simp] theorem State.updDie_threads (s : State) (j : Nat) (f : Die → Die) : (s.updDie j f).threads = s.threads := rfl
@[simp] theorem State.updDie_groups (s : State) (j : Nat) (f : Die → Die) : (s.updDie j f).groups = s.groups := rfl
@[simp] theorem State.updDie_tasks (s : State) (j : Nat) (f : Die → Die) : (s.updDie j f).tasks = s.tasks := rfl
@[simp] theorem State.updDie_sets (s : State) (j : Nat) (f : Die → Die) : (s.updDie j f).sets = s.sets := rfl
@[simp] theorem State.updDie_ldas (s : State) (j : Nat) (f : Die → Die) : (s.updDie j f).ldas = s.ldas := rfl
@[simp] theorem State.updDie_copies (s : State) (j : Nat) (f : Die → Die) : (s.updDie j f).copies = s.copies := rfl
@[simp] theorem State.updDie_ctxs (s : State) (j : Nat) (f : Die → Die) : (s.updDie j f).ctxs = s.ctxs := rfl
@[simp] theorem State.updDie_exports (s : State) (j : Nat) (f : Die → Die) : (s.updDie j f).exports = s.exports := rfl
@[simp] theorem State.updDie_queues (s : State) (j : Nat) (f : Die → Die) : (s.updDie j f).queues = s.queues := rfl
@[simp] theorem State.updDie_funcs (s : State) (j : Nat) (f : Die → Die) : (s.updDie j f).funcs = s.funcs := rfl
@[simp] theorem State.updDie_sem (s : State) (j : Nat) (f : Die → Die) : (s.updDie j f).sem = s.sem := rfl
@[simp] theorem State.updDie_boot (s : State) (j : Nat) (f : Die → Die) : (s.updDie j f).boot = s.boot := rfl
@[simp] theorem State.updDie_routing (s : State) (j : Nat) (f : Die → Die) : (s.updDie j f).routing = s.routing := rfl
@[simp] theorem State.updDie_irqs (s : State) (j : Nat) (f : Die → Die) : (s.updDie j f).irqs = s.irqs := rfl
@[simp] theorem State.updDie_net (s : State) (j : Nat) (f : Die → Die) : (s.updDie j f).net = s.net := rfl
@[simp] theorem State.updDie_hdm (s : State) (j : Nat) (f : Die → Die) : (s.updDie j f).hdm = s.hdm := rfl
@[simp] theorem State.updDie_usage (s : State) (j : Nat) (f : Die → Die) : (s.updDie j f).usage = s.usage := rfl
@[simp] theorem State.updDie_dieCounters (s : State) (j : Nat) (f : Die → Die) : (s.updDie j f).dieCounters = s.dieCounters := rfl
@[simp] theorem State.updDie_health (s : State) (j : Nat) (f : Die → Die) : (s.updDie j f).health = s.health := rfl
@[simp] theorem State.updDie_uncorr (s : State) (j : Nat) (f : Die → Die) : (s.updDie j f).uncorr = s.uncorr := rfl
@[simp] theorem State.updDie_i3c (s : State) (j : Nat) (f : Die → Die) : (s.updDie j f).i3c = s.i3c := rfl
@[simp] theorem State.updDie_ptp (s : State) (j : Nat) (f : Die → Die) : (s.updDie j f).ptp = s.ptp := rfl
@[simp] theorem State.updDie_counts (s : State) (j : Nat) (f : Die → Die) : (s.updDie j f).counts = s.counts := rfl

@[simp] theorem State.updQueue_time (s : State) (j : Nat) (f : Queue → Queue) : (s.updQueue j f).time = s.time := rfl
@[simp] theorem State.updQueue_elapsed (s : State) (j : Nat) (f : Queue → Queue) : (s.updQueue j f).elapsed = s.elapsed := rfl
@[simp] theorem State.updQueue_cycles (s : State) (j : Nat) (f : Queue → Queue) : (s.updQueue j f).cycles = s.cycles := rfl
@[simp] theorem State.updQueue_lcCycles (s : State) (j : Nat) (f : Queue → Queue) : (s.updQueue j f).lcCycles = s.lcCycles := rfl
@[simp] theorem State.updQueue_agenda (s : State) (j : Nat) (f : Queue → Queue) : (s.updQueue j f).agenda = s.agenda := rfl
@[simp] theorem State.updQueue_beamRest (s : State) (j : Nat) (f : Queue → Queue) : (s.updQueue j f).beamRest = s.beamRest := rfl
@[simp] theorem State.updQueue_cur (s : State) (j : Nat) (f : Queue → Queue) : (s.updQueue j f).cur = s.cur := rfl
@[simp] theorem State.updQueue_tick (s : State) (j : Nat) (f : Queue → Queue) : (s.updQueue j f).tick = s.tick := rfl
@[simp] theorem State.updQueue_nextId (s : State) (j : Nat) (f : Queue → Queue) : (s.updQueue j f).nextId = s.nextId := rfl
@[simp] theorem State.updQueue_free (s : State) (j : Nat) (f : Queue → Queue) : (s.updQueue j f).free = s.free := rfl
@[simp] theorem State.updQueue_mem (s : State) (j : Nat) (f : Queue → Queue) : (s.updQueue j f).mem = s.mem := rfl
@[simp] theorem State.updQueue_dirty (s : State) (j : Nat) (f : Queue → Queue) : (s.updQueue j f).dirty = s.dirty := rfl
@[simp] theorem State.updQueue_shadow (s : State) (j : Nat) (f : Queue → Queue) : (s.updQueue j f).shadow = s.shadow := rfl
@[simp] theorem State.updQueue_poison (s : State) (j : Nat) (f : Queue → Queue) : (s.updQueue j f).poison = s.poison := rfl
@[simp] theorem State.updQueue_tlb (s : State) (j : Nat) (f : Queue → Queue) : (s.updQueue j f).tlb = s.tlb := rfl
@[simp] theorem State.updQueue_icache (s : State) (j : Nat) (f : Queue → Queue) : (s.updQueue j f).icache = s.icache := rfl
@[simp] theorem State.updQueue_l1 (s : State) (j : Nat) (f : Queue → Queue) : (s.updQueue j f).l1 = s.l1 := rfl
@[simp] theorem State.updQueue_l1Old (s : State) (j : Nat) (f : Queue → Queue) : (s.updQueue j f).l1Old = s.l1Old := rfl
@[simp] theorem State.updQueue_l2 (s : State) (j : Nat) (f : Queue → Queue) : (s.updQueue j f).l2 = s.l2 := rfl
@[simp] theorem State.updQueue_lcL2 (s : State) (j : Nat) (f : Queue → Queue) : (s.updQueue j f).lcL2 = s.lcL2 := rfl
@[simp] theorem State.updQueue_home (s : State) (j : Nat) (f : Queue → Queue) : (s.updQueue j f).home = s.home := rfl
@[simp] theorem State.updQueue_scratch (s : State) (j : Nat) (f : Queue → Queue) : (s.updQueue j f).scratch = s.scratch := rfl
@[simp] theorem State.updQueue_cells (s : State) (j : Nat) (f : Queue → Queue) : (s.updQueue j f).cells = s.cells := rfl
@[simp] theorem State.updQueue_cores (s : State) (j : Nat) (f : Queue → Queue) : (s.updQueue j f).cores = s.cores := rfl
@[simp] theorem State.updQueue_lcs (s : State) (j : Nat) (f : Queue → Queue) : (s.updQueue j f).lcs = s.lcs := rfl
@[simp] theorem State.updQueue_dies (s : State) (j : Nat) (f : Queue → Queue) : (s.updQueue j f).dies = s.dies := rfl
@[simp] theorem State.updQueue_threads (s : State) (j : Nat) (f : Queue → Queue) : (s.updQueue j f).threads = s.threads := rfl
@[simp] theorem State.updQueue_groups (s : State) (j : Nat) (f : Queue → Queue) : (s.updQueue j f).groups = s.groups := rfl
@[simp] theorem State.updQueue_tasks (s : State) (j : Nat) (f : Queue → Queue) : (s.updQueue j f).tasks = s.tasks := rfl
@[simp] theorem State.updQueue_sets (s : State) (j : Nat) (f : Queue → Queue) : (s.updQueue j f).sets = s.sets := rfl
@[simp] theorem State.updQueue_ldas (s : State) (j : Nat) (f : Queue → Queue) : (s.updQueue j f).ldas = s.ldas := rfl
@[simp] theorem State.updQueue_copies (s : State) (j : Nat) (f : Queue → Queue) : (s.updQueue j f).copies = s.copies := rfl
@[simp] theorem State.updQueue_ctxs (s : State) (j : Nat) (f : Queue → Queue) : (s.updQueue j f).ctxs = s.ctxs := rfl
@[simp] theorem State.updQueue_exports (s : State) (j : Nat) (f : Queue → Queue) : (s.updQueue j f).exports = s.exports := rfl
@[simp] theorem State.updQueue_funcs (s : State) (j : Nat) (f : Queue → Queue) : (s.updQueue j f).funcs = s.funcs := rfl
@[simp] theorem State.updQueue_sem (s : State) (j : Nat) (f : Queue → Queue) : (s.updQueue j f).sem = s.sem := rfl
@[simp] theorem State.updQueue_boot (s : State) (j : Nat) (f : Queue → Queue) : (s.updQueue j f).boot = s.boot := rfl
@[simp] theorem State.updQueue_routing (s : State) (j : Nat) (f : Queue → Queue) : (s.updQueue j f).routing = s.routing := rfl
@[simp] theorem State.updQueue_irqs (s : State) (j : Nat) (f : Queue → Queue) : (s.updQueue j f).irqs = s.irqs := rfl
@[simp] theorem State.updQueue_net (s : State) (j : Nat) (f : Queue → Queue) : (s.updQueue j f).net = s.net := rfl
@[simp] theorem State.updQueue_hdm (s : State) (j : Nat) (f : Queue → Queue) : (s.updQueue j f).hdm = s.hdm := rfl
@[simp] theorem State.updQueue_usage (s : State) (j : Nat) (f : Queue → Queue) : (s.updQueue j f).usage = s.usage := rfl
@[simp] theorem State.updQueue_dieCounters (s : State) (j : Nat) (f : Queue → Queue) : (s.updQueue j f).dieCounters = s.dieCounters := rfl
@[simp] theorem State.updQueue_health (s : State) (j : Nat) (f : Queue → Queue) : (s.updQueue j f).health = s.health := rfl
@[simp] theorem State.updQueue_uncorr (s : State) (j : Nat) (f : Queue → Queue) : (s.updQueue j f).uncorr = s.uncorr := rfl
@[simp] theorem State.updQueue_i3c (s : State) (j : Nat) (f : Queue → Queue) : (s.updQueue j f).i3c = s.i3c := rfl
@[simp] theorem State.updQueue_ptp (s : State) (j : Nat) (f : Queue → Queue) : (s.updQueue j f).ptp = s.ptp := rfl
@[simp] theorem State.updQueue_counts (s : State) (j : Nat) (f : Queue → Queue) : (s.updQueue j f).counts = s.counts := rfl

@[simp] theorem State.updFunc_time (s : State) (j : Nat) (f : Func → Func) : (s.updFunc j f).time = s.time := rfl
@[simp] theorem State.updFunc_elapsed (s : State) (j : Nat) (f : Func → Func) : (s.updFunc j f).elapsed = s.elapsed := rfl
@[simp] theorem State.updFunc_cycles (s : State) (j : Nat) (f : Func → Func) : (s.updFunc j f).cycles = s.cycles := rfl
@[simp] theorem State.updFunc_lcCycles (s : State) (j : Nat) (f : Func → Func) : (s.updFunc j f).lcCycles = s.lcCycles := rfl
@[simp] theorem State.updFunc_agenda (s : State) (j : Nat) (f : Func → Func) : (s.updFunc j f).agenda = s.agenda := rfl
@[simp] theorem State.updFunc_beamRest (s : State) (j : Nat) (f : Func → Func) : (s.updFunc j f).beamRest = s.beamRest := rfl
@[simp] theorem State.updFunc_cur (s : State) (j : Nat) (f : Func → Func) : (s.updFunc j f).cur = s.cur := rfl
@[simp] theorem State.updFunc_tick (s : State) (j : Nat) (f : Func → Func) : (s.updFunc j f).tick = s.tick := rfl
@[simp] theorem State.updFunc_nextId (s : State) (j : Nat) (f : Func → Func) : (s.updFunc j f).nextId = s.nextId := rfl
@[simp] theorem State.updFunc_free (s : State) (j : Nat) (f : Func → Func) : (s.updFunc j f).free = s.free := rfl
@[simp] theorem State.updFunc_mem (s : State) (j : Nat) (f : Func → Func) : (s.updFunc j f).mem = s.mem := rfl
@[simp] theorem State.updFunc_dirty (s : State) (j : Nat) (f : Func → Func) : (s.updFunc j f).dirty = s.dirty := rfl
@[simp] theorem State.updFunc_shadow (s : State) (j : Nat) (f : Func → Func) : (s.updFunc j f).shadow = s.shadow := rfl
@[simp] theorem State.updFunc_poison (s : State) (j : Nat) (f : Func → Func) : (s.updFunc j f).poison = s.poison := rfl
@[simp] theorem State.updFunc_tlb (s : State) (j : Nat) (f : Func → Func) : (s.updFunc j f).tlb = s.tlb := rfl
@[simp] theorem State.updFunc_icache (s : State) (j : Nat) (f : Func → Func) : (s.updFunc j f).icache = s.icache := rfl
@[simp] theorem State.updFunc_l1 (s : State) (j : Nat) (f : Func → Func) : (s.updFunc j f).l1 = s.l1 := rfl
@[simp] theorem State.updFunc_l1Old (s : State) (j : Nat) (f : Func → Func) : (s.updFunc j f).l1Old = s.l1Old := rfl
@[simp] theorem State.updFunc_l2 (s : State) (j : Nat) (f : Func → Func) : (s.updFunc j f).l2 = s.l2 := rfl
@[simp] theorem State.updFunc_lcL2 (s : State) (j : Nat) (f : Func → Func) : (s.updFunc j f).lcL2 = s.lcL2 := rfl
@[simp] theorem State.updFunc_home (s : State) (j : Nat) (f : Func → Func) : (s.updFunc j f).home = s.home := rfl
@[simp] theorem State.updFunc_scratch (s : State) (j : Nat) (f : Func → Func) : (s.updFunc j f).scratch = s.scratch := rfl
@[simp] theorem State.updFunc_cells (s : State) (j : Nat) (f : Func → Func) : (s.updFunc j f).cells = s.cells := rfl
@[simp] theorem State.updFunc_cores (s : State) (j : Nat) (f : Func → Func) : (s.updFunc j f).cores = s.cores := rfl
@[simp] theorem State.updFunc_lcs (s : State) (j : Nat) (f : Func → Func) : (s.updFunc j f).lcs = s.lcs := rfl
@[simp] theorem State.updFunc_dies (s : State) (j : Nat) (f : Func → Func) : (s.updFunc j f).dies = s.dies := rfl
@[simp] theorem State.updFunc_threads (s : State) (j : Nat) (f : Func → Func) : (s.updFunc j f).threads = s.threads := rfl
@[simp] theorem State.updFunc_groups (s : State) (j : Nat) (f : Func → Func) : (s.updFunc j f).groups = s.groups := rfl
@[simp] theorem State.updFunc_tasks (s : State) (j : Nat) (f : Func → Func) : (s.updFunc j f).tasks = s.tasks := rfl
@[simp] theorem State.updFunc_sets (s : State) (j : Nat) (f : Func → Func) : (s.updFunc j f).sets = s.sets := rfl
@[simp] theorem State.updFunc_ldas (s : State) (j : Nat) (f : Func → Func) : (s.updFunc j f).ldas = s.ldas := rfl
@[simp] theorem State.updFunc_copies (s : State) (j : Nat) (f : Func → Func) : (s.updFunc j f).copies = s.copies := rfl
@[simp] theorem State.updFunc_ctxs (s : State) (j : Nat) (f : Func → Func) : (s.updFunc j f).ctxs = s.ctxs := rfl
@[simp] theorem State.updFunc_exports (s : State) (j : Nat) (f : Func → Func) : (s.updFunc j f).exports = s.exports := rfl
@[simp] theorem State.updFunc_queues (s : State) (j : Nat) (f : Func → Func) : (s.updFunc j f).queues = s.queues := rfl
@[simp] theorem State.updFunc_sem (s : State) (j : Nat) (f : Func → Func) : (s.updFunc j f).sem = s.sem := rfl
@[simp] theorem State.updFunc_boot (s : State) (j : Nat) (f : Func → Func) : (s.updFunc j f).boot = s.boot := rfl
@[simp] theorem State.updFunc_routing (s : State) (j : Nat) (f : Func → Func) : (s.updFunc j f).routing = s.routing := rfl
@[simp] theorem State.updFunc_irqs (s : State) (j : Nat) (f : Func → Func) : (s.updFunc j f).irqs = s.irqs := rfl
@[simp] theorem State.updFunc_net (s : State) (j : Nat) (f : Func → Func) : (s.updFunc j f).net = s.net := rfl
@[simp] theorem State.updFunc_hdm (s : State) (j : Nat) (f : Func → Func) : (s.updFunc j f).hdm = s.hdm := rfl
@[simp] theorem State.updFunc_usage (s : State) (j : Nat) (f : Func → Func) : (s.updFunc j f).usage = s.usage := rfl
@[simp] theorem State.updFunc_dieCounters (s : State) (j : Nat) (f : Func → Func) : (s.updFunc j f).dieCounters = s.dieCounters := rfl
@[simp] theorem State.updFunc_health (s : State) (j : Nat) (f : Func → Func) : (s.updFunc j f).health = s.health := rfl
@[simp] theorem State.updFunc_uncorr (s : State) (j : Nat) (f : Func → Func) : (s.updFunc j f).uncorr = s.uncorr := rfl
@[simp] theorem State.updFunc_i3c (s : State) (j : Nat) (f : Func → Func) : (s.updFunc j f).i3c = s.i3c := rfl
@[simp] theorem State.updFunc_ptp (s : State) (j : Nat) (f : Func → Func) : (s.updFunc j f).ptp = s.ptp := rfl
@[simp] theorem State.updFunc_counts (s : State) (j : Nat) (f : Func → Func) : (s.updFunc j f).counts = s.counts := rfl

@[simp] theorem State.updCtx_time (s : State) (j : Nat) (f : Ctx → Ctx) : (s.updCtx j f).time = s.time := rfl
@[simp] theorem State.updCtx_elapsed (s : State) (j : Nat) (f : Ctx → Ctx) : (s.updCtx j f).elapsed = s.elapsed := rfl
@[simp] theorem State.updCtx_cycles (s : State) (j : Nat) (f : Ctx → Ctx) : (s.updCtx j f).cycles = s.cycles := rfl
@[simp] theorem State.updCtx_lcCycles (s : State) (j : Nat) (f : Ctx → Ctx) : (s.updCtx j f).lcCycles = s.lcCycles := rfl
@[simp] theorem State.updCtx_agenda (s : State) (j : Nat) (f : Ctx → Ctx) : (s.updCtx j f).agenda = s.agenda := rfl
@[simp] theorem State.updCtx_beamRest (s : State) (j : Nat) (f : Ctx → Ctx) : (s.updCtx j f).beamRest = s.beamRest := rfl
@[simp] theorem State.updCtx_cur (s : State) (j : Nat) (f : Ctx → Ctx) : (s.updCtx j f).cur = s.cur := rfl
@[simp] theorem State.updCtx_tick (s : State) (j : Nat) (f : Ctx → Ctx) : (s.updCtx j f).tick = s.tick := rfl
@[simp] theorem State.updCtx_nextId (s : State) (j : Nat) (f : Ctx → Ctx) : (s.updCtx j f).nextId = s.nextId := rfl
@[simp] theorem State.updCtx_free (s : State) (j : Nat) (f : Ctx → Ctx) : (s.updCtx j f).free = s.free := rfl
@[simp] theorem State.updCtx_mem (s : State) (j : Nat) (f : Ctx → Ctx) : (s.updCtx j f).mem = s.mem := rfl
@[simp] theorem State.updCtx_dirty (s : State) (j : Nat) (f : Ctx → Ctx) : (s.updCtx j f).dirty = s.dirty := rfl
@[simp] theorem State.updCtx_shadow (s : State) (j : Nat) (f : Ctx → Ctx) : (s.updCtx j f).shadow = s.shadow := rfl
@[simp] theorem State.updCtx_poison (s : State) (j : Nat) (f : Ctx → Ctx) : (s.updCtx j f).poison = s.poison := rfl
@[simp] theorem State.updCtx_tlb (s : State) (j : Nat) (f : Ctx → Ctx) : (s.updCtx j f).tlb = s.tlb := rfl
@[simp] theorem State.updCtx_icache (s : State) (j : Nat) (f : Ctx → Ctx) : (s.updCtx j f).icache = s.icache := rfl
@[simp] theorem State.updCtx_l1 (s : State) (j : Nat) (f : Ctx → Ctx) : (s.updCtx j f).l1 = s.l1 := rfl
@[simp] theorem State.updCtx_l1Old (s : State) (j : Nat) (f : Ctx → Ctx) : (s.updCtx j f).l1Old = s.l1Old := rfl
@[simp] theorem State.updCtx_l2 (s : State) (j : Nat) (f : Ctx → Ctx) : (s.updCtx j f).l2 = s.l2 := rfl
@[simp] theorem State.updCtx_lcL2 (s : State) (j : Nat) (f : Ctx → Ctx) : (s.updCtx j f).lcL2 = s.lcL2 := rfl
@[simp] theorem State.updCtx_home (s : State) (j : Nat) (f : Ctx → Ctx) : (s.updCtx j f).home = s.home := rfl
@[simp] theorem State.updCtx_scratch (s : State) (j : Nat) (f : Ctx → Ctx) : (s.updCtx j f).scratch = s.scratch := rfl
@[simp] theorem State.updCtx_cells (s : State) (j : Nat) (f : Ctx → Ctx) : (s.updCtx j f).cells = s.cells := rfl
@[simp] theorem State.updCtx_cores (s : State) (j : Nat) (f : Ctx → Ctx) : (s.updCtx j f).cores = s.cores := rfl
@[simp] theorem State.updCtx_lcs (s : State) (j : Nat) (f : Ctx → Ctx) : (s.updCtx j f).lcs = s.lcs := rfl
@[simp] theorem State.updCtx_dies (s : State) (j : Nat) (f : Ctx → Ctx) : (s.updCtx j f).dies = s.dies := rfl
@[simp] theorem State.updCtx_threads (s : State) (j : Nat) (f : Ctx → Ctx) : (s.updCtx j f).threads = s.threads := rfl
@[simp] theorem State.updCtx_groups (s : State) (j : Nat) (f : Ctx → Ctx) : (s.updCtx j f).groups = s.groups := rfl
@[simp] theorem State.updCtx_tasks (s : State) (j : Nat) (f : Ctx → Ctx) : (s.updCtx j f).tasks = s.tasks := rfl
@[simp] theorem State.updCtx_sets (s : State) (j : Nat) (f : Ctx → Ctx) : (s.updCtx j f).sets = s.sets := rfl
@[simp] theorem State.updCtx_ldas (s : State) (j : Nat) (f : Ctx → Ctx) : (s.updCtx j f).ldas = s.ldas := rfl
@[simp] theorem State.updCtx_copies (s : State) (j : Nat) (f : Ctx → Ctx) : (s.updCtx j f).copies = s.copies := rfl
@[simp] theorem State.updCtx_exports (s : State) (j : Nat) (f : Ctx → Ctx) : (s.updCtx j f).exports = s.exports := rfl
@[simp] theorem State.updCtx_queues (s : State) (j : Nat) (f : Ctx → Ctx) : (s.updCtx j f).queues = s.queues := rfl
@[simp] theorem State.updCtx_funcs (s : State) (j : Nat) (f : Ctx → Ctx) : (s.updCtx j f).funcs = s.funcs := rfl
@[simp] theorem State.updCtx_sem (s : State) (j : Nat) (f : Ctx → Ctx) : (s.updCtx j f).sem = s.sem := rfl
@[simp] theorem State.updCtx_boot (s : State) (j : Nat) (f : Ctx → Ctx) : (s.updCtx j f).boot = s.boot := rfl
@[simp] theorem State.updCtx_routing (s : State) (j : Nat) (f : Ctx → Ctx) : (s.updCtx j f).routing = s.routing := rfl
@[simp] theorem State.updCtx_irqs (s : State) (j : Nat) (f : Ctx → Ctx) : (s.updCtx j f).irqs = s.irqs := rfl
@[simp] theorem State.updCtx_net (s : State) (j : Nat) (f : Ctx → Ctx) : (s.updCtx j f).net = s.net := rfl
@[simp] theorem State.updCtx_hdm (s : State) (j : Nat) (f : Ctx → Ctx) : (s.updCtx j f).hdm = s.hdm := rfl
@[simp] theorem State.updCtx_usage (s : State) (j : Nat) (f : Ctx → Ctx) : (s.updCtx j f).usage = s.usage := rfl
@[simp] theorem State.updCtx_dieCounters (s : State) (j : Nat) (f : Ctx → Ctx) : (s.updCtx j f).dieCounters = s.dieCounters := rfl
@[simp] theorem State.updCtx_health (s : State) (j : Nat) (f : Ctx → Ctx) : (s.updCtx j f).health = s.health := rfl
@[simp] theorem State.updCtx_uncorr (s : State) (j : Nat) (f : Ctx → Ctx) : (s.updCtx j f).uncorr = s.uncorr := rfl
@[simp] theorem State.updCtx_i3c (s : State) (j : Nat) (f : Ctx → Ctx) : (s.updCtx j f).i3c = s.i3c := rfl
@[simp] theorem State.updCtx_ptp (s : State) (j : Nat) (f : Ctx → Ctx) : (s.updCtx j f).ptp = s.ptp := rfl
@[simp] theorem State.updCtx_counts (s : State) (j : Nat) (f : Ctx → Ctx) : (s.updCtx j f).counts = s.counts := rfl

@[simp] theorem State.count_time (s : State) (j : Nat) (f : Usage → Usage) : (s.count j f).time = s.time := rfl
@[simp] theorem State.count_elapsed (s : State) (j : Nat) (f : Usage → Usage) : (s.count j f).elapsed = s.elapsed := rfl
@[simp] theorem State.count_cycles (s : State) (j : Nat) (f : Usage → Usage) : (s.count j f).cycles = s.cycles := rfl
@[simp] theorem State.count_lcCycles (s : State) (j : Nat) (f : Usage → Usage) : (s.count j f).lcCycles = s.lcCycles := rfl
@[simp] theorem State.count_agenda (s : State) (j : Nat) (f : Usage → Usage) : (s.count j f).agenda = s.agenda := rfl
@[simp] theorem State.count_beamRest (s : State) (j : Nat) (f : Usage → Usage) : (s.count j f).beamRest = s.beamRest := rfl
@[simp] theorem State.count_cur (s : State) (j : Nat) (f : Usage → Usage) : (s.count j f).cur = s.cur := rfl
@[simp] theorem State.count_tick (s : State) (j : Nat) (f : Usage → Usage) : (s.count j f).tick = s.tick := rfl
@[simp] theorem State.count_nextId (s : State) (j : Nat) (f : Usage → Usage) : (s.count j f).nextId = s.nextId := rfl
@[simp] theorem State.count_free (s : State) (j : Nat) (f : Usage → Usage) : (s.count j f).free = s.free := rfl
@[simp] theorem State.count_mem (s : State) (j : Nat) (f : Usage → Usage) : (s.count j f).mem = s.mem := rfl
@[simp] theorem State.count_dirty (s : State) (j : Nat) (f : Usage → Usage) : (s.count j f).dirty = s.dirty := rfl
@[simp] theorem State.count_shadow (s : State) (j : Nat) (f : Usage → Usage) : (s.count j f).shadow = s.shadow := rfl
@[simp] theorem State.count_poison (s : State) (j : Nat) (f : Usage → Usage) : (s.count j f).poison = s.poison := rfl
@[simp] theorem State.count_tlb (s : State) (j : Nat) (f : Usage → Usage) : (s.count j f).tlb = s.tlb := rfl
@[simp] theorem State.count_icache (s : State) (j : Nat) (f : Usage → Usage) : (s.count j f).icache = s.icache := rfl
@[simp] theorem State.count_l1 (s : State) (j : Nat) (f : Usage → Usage) : (s.count j f).l1 = s.l1 := rfl
@[simp] theorem State.count_l1Old (s : State) (j : Nat) (f : Usage → Usage) : (s.count j f).l1Old = s.l1Old := rfl
@[simp] theorem State.count_l2 (s : State) (j : Nat) (f : Usage → Usage) : (s.count j f).l2 = s.l2 := rfl
@[simp] theorem State.count_lcL2 (s : State) (j : Nat) (f : Usage → Usage) : (s.count j f).lcL2 = s.lcL2 := rfl
@[simp] theorem State.count_home (s : State) (j : Nat) (f : Usage → Usage) : (s.count j f).home = s.home := rfl
@[simp] theorem State.count_scratch (s : State) (j : Nat) (f : Usage → Usage) : (s.count j f).scratch = s.scratch := rfl
@[simp] theorem State.count_cells (s : State) (j : Nat) (f : Usage → Usage) : (s.count j f).cells = s.cells := rfl
@[simp] theorem State.count_cores (s : State) (j : Nat) (f : Usage → Usage) : (s.count j f).cores = s.cores := rfl
@[simp] theorem State.count_lcs (s : State) (j : Nat) (f : Usage → Usage) : (s.count j f).lcs = s.lcs := rfl
@[simp] theorem State.count_dies (s : State) (j : Nat) (f : Usage → Usage) : (s.count j f).dies = s.dies := rfl
@[simp] theorem State.count_threads (s : State) (j : Nat) (f : Usage → Usage) : (s.count j f).threads = s.threads := rfl
@[simp] theorem State.count_groups (s : State) (j : Nat) (f : Usage → Usage) : (s.count j f).groups = s.groups := rfl
@[simp] theorem State.count_tasks (s : State) (j : Nat) (f : Usage → Usage) : (s.count j f).tasks = s.tasks := rfl
@[simp] theorem State.count_sets (s : State) (j : Nat) (f : Usage → Usage) : (s.count j f).sets = s.sets := rfl
@[simp] theorem State.count_ldas (s : State) (j : Nat) (f : Usage → Usage) : (s.count j f).ldas = s.ldas := rfl
@[simp] theorem State.count_copies (s : State) (j : Nat) (f : Usage → Usage) : (s.count j f).copies = s.copies := rfl
@[simp] theorem State.count_ctxs (s : State) (j : Nat) (f : Usage → Usage) : (s.count j f).ctxs = s.ctxs := rfl
@[simp] theorem State.count_exports (s : State) (j : Nat) (f : Usage → Usage) : (s.count j f).exports = s.exports := rfl
@[simp] theorem State.count_queues (s : State) (j : Nat) (f : Usage → Usage) : (s.count j f).queues = s.queues := rfl
@[simp] theorem State.count_funcs (s : State) (j : Nat) (f : Usage → Usage) : (s.count j f).funcs = s.funcs := rfl
@[simp] theorem State.count_sem (s : State) (j : Nat) (f : Usage → Usage) : (s.count j f).sem = s.sem := rfl
@[simp] theorem State.count_boot (s : State) (j : Nat) (f : Usage → Usage) : (s.count j f).boot = s.boot := rfl
@[simp] theorem State.count_routing (s : State) (j : Nat) (f : Usage → Usage) : (s.count j f).routing = s.routing := rfl
@[simp] theorem State.count_irqs (s : State) (j : Nat) (f : Usage → Usage) : (s.count j f).irqs = s.irqs := rfl
@[simp] theorem State.count_net (s : State) (j : Nat) (f : Usage → Usage) : (s.count j f).net = s.net := rfl
@[simp] theorem State.count_hdm (s : State) (j : Nat) (f : Usage → Usage) : (s.count j f).hdm = s.hdm := rfl
@[simp] theorem State.count_usage (s : State) (j : Nat) (f : Usage → Usage) : (s.count j f).usage = s.usage := rfl
@[simp] theorem State.count_dieCounters (s : State) (j : Nat) (f : Usage → Usage) : (s.count j f).dieCounters = s.dieCounters := rfl
@[simp] theorem State.count_health (s : State) (j : Nat) (f : Usage → Usage) : (s.count j f).health = s.health := rfl
@[simp] theorem State.count_uncorr (s : State) (j : Nat) (f : Usage → Usage) : (s.count j f).uncorr = s.uncorr := rfl
@[simp] theorem State.count_i3c (s : State) (j : Nat) (f : Usage → Usage) : (s.count j f).i3c = s.i3c := rfl
@[simp] theorem State.count_ptp (s : State) (j : Nat) (f : Usage → Usage) : (s.count j f).ptp = s.ptp := rfl

@[simp] theorem State.refreshAge_time (s : State) (l : List Nat) : (s.refreshAge l).time = s.time := rfl
@[simp] theorem State.refreshAge_elapsed (s : State) (l : List Nat) : (s.refreshAge l).elapsed = s.elapsed := rfl
@[simp] theorem State.refreshAge_cycles (s : State) (l : List Nat) : (s.refreshAge l).cycles = s.cycles := rfl
@[simp] theorem State.refreshAge_lcCycles (s : State) (l : List Nat) : (s.refreshAge l).lcCycles = s.lcCycles := rfl
@[simp] theorem State.refreshAge_agenda (s : State) (l : List Nat) : (s.refreshAge l).agenda = s.agenda := rfl
@[simp] theorem State.refreshAge_beamRest (s : State) (l : List Nat) : (s.refreshAge l).beamRest = s.beamRest := rfl
@[simp] theorem State.refreshAge_cur (s : State) (l : List Nat) : (s.refreshAge l).cur = s.cur := rfl
@[simp] theorem State.refreshAge_nextId (s : State) (l : List Nat) : (s.refreshAge l).nextId = s.nextId := rfl
@[simp] theorem State.refreshAge_free (s : State) (l : List Nat) : (s.refreshAge l).free = s.free := rfl
@[simp] theorem State.refreshAge_mem (s : State) (l : List Nat) : (s.refreshAge l).mem = s.mem := rfl
@[simp] theorem State.refreshAge_dirty (s : State) (l : List Nat) : (s.refreshAge l).dirty = s.dirty := rfl
@[simp] theorem State.refreshAge_shadow (s : State) (l : List Nat) : (s.refreshAge l).shadow = s.shadow := rfl
@[simp] theorem State.refreshAge_poison (s : State) (l : List Nat) : (s.refreshAge l).poison = s.poison := rfl
@[simp] theorem State.refreshAge_tlb (s : State) (l : List Nat) : (s.refreshAge l).tlb = s.tlb := rfl
@[simp] theorem State.refreshAge_icache (s : State) (l : List Nat) : (s.refreshAge l).icache = s.icache := rfl
@[simp] theorem State.refreshAge_l1 (s : State) (l : List Nat) : (s.refreshAge l).l1 = s.l1 := rfl
@[simp] theorem State.refreshAge_l1Old (s : State) (l : List Nat) : (s.refreshAge l).l1Old = s.l1Old := rfl
@[simp] theorem State.refreshAge_l2 (s : State) (l : List Nat) : (s.refreshAge l).l2 = s.l2 := rfl
@[simp] theorem State.refreshAge_lcL2 (s : State) (l : List Nat) : (s.refreshAge l).lcL2 = s.lcL2 := rfl
@[simp] theorem State.refreshAge_home (s : State) (l : List Nat) : (s.refreshAge l).home = s.home := rfl
@[simp] theorem State.refreshAge_scratch (s : State) (l : List Nat) : (s.refreshAge l).scratch = s.scratch := rfl
@[simp] theorem State.refreshAge_cells (s : State) (l : List Nat) : (s.refreshAge l).cells = s.cells := rfl
@[simp] theorem State.refreshAge_cores (s : State) (l : List Nat) : (s.refreshAge l).cores = s.cores := rfl
@[simp] theorem State.refreshAge_lcs (s : State) (l : List Nat) : (s.refreshAge l).lcs = s.lcs := rfl
@[simp] theorem State.refreshAge_dies (s : State) (l : List Nat) : (s.refreshAge l).dies = s.dies := rfl
@[simp] theorem State.refreshAge_groups (s : State) (l : List Nat) : (s.refreshAge l).groups = s.groups := rfl
@[simp] theorem State.refreshAge_tasks (s : State) (l : List Nat) : (s.refreshAge l).tasks = s.tasks := rfl
@[simp] theorem State.refreshAge_sets (s : State) (l : List Nat) : (s.refreshAge l).sets = s.sets := rfl
@[simp] theorem State.refreshAge_ldas (s : State) (l : List Nat) : (s.refreshAge l).ldas = s.ldas := rfl
@[simp] theorem State.refreshAge_copies (s : State) (l : List Nat) : (s.refreshAge l).copies = s.copies := rfl
@[simp] theorem State.refreshAge_ctxs (s : State) (l : List Nat) : (s.refreshAge l).ctxs = s.ctxs := rfl
@[simp] theorem State.refreshAge_exports (s : State) (l : List Nat) : (s.refreshAge l).exports = s.exports := rfl
@[simp] theorem State.refreshAge_queues (s : State) (l : List Nat) : (s.refreshAge l).queues = s.queues := rfl
@[simp] theorem State.refreshAge_funcs (s : State) (l : List Nat) : (s.refreshAge l).funcs = s.funcs := rfl
@[simp] theorem State.refreshAge_sem (s : State) (l : List Nat) : (s.refreshAge l).sem = s.sem := rfl
@[simp] theorem State.refreshAge_boot (s : State) (l : List Nat) : (s.refreshAge l).boot = s.boot := rfl
@[simp] theorem State.refreshAge_routing (s : State) (l : List Nat) : (s.refreshAge l).routing = s.routing := rfl
@[simp] theorem State.refreshAge_irqs (s : State) (l : List Nat) : (s.refreshAge l).irqs = s.irqs := rfl
@[simp] theorem State.refreshAge_net (s : State) (l : List Nat) : (s.refreshAge l).net = s.net := rfl
@[simp] theorem State.refreshAge_hdm (s : State) (l : List Nat) : (s.refreshAge l).hdm = s.hdm := rfl
@[simp] theorem State.refreshAge_usage (s : State) (l : List Nat) : (s.refreshAge l).usage = s.usage := rfl
@[simp] theorem State.refreshAge_dieCounters (s : State) (l : List Nat) : (s.refreshAge l).dieCounters = s.dieCounters := rfl
@[simp] theorem State.refreshAge_health (s : State) (l : List Nat) : (s.refreshAge l).health = s.health := rfl
@[simp] theorem State.refreshAge_uncorr (s : State) (l : List Nat) : (s.refreshAge l).uncorr = s.uncorr := rfl
@[simp] theorem State.refreshAge_i3c (s : State) (l : List Nat) : (s.refreshAge l).i3c = s.i3c := rfl
@[simp] theorem State.refreshAge_ptp (s : State) (l : List Nat) : (s.refreshAge l).ptp = s.ptp := rfl
@[simp] theorem State.refreshAge_counts (s : State) (l : List Nat) : (s.refreshAge l).counts = s.counts := rfl

@[simp] theorem State.putMem_time (s : State) (k : Nat) (l : List Byte) : (s.putMem k l).time = s.time := rfl
@[simp] theorem State.putMem_elapsed (s : State) (k : Nat) (l : List Byte) : (s.putMem k l).elapsed = s.elapsed := rfl
@[simp] theorem State.putMem_cycles (s : State) (k : Nat) (l : List Byte) : (s.putMem k l).cycles = s.cycles := rfl
@[simp] theorem State.putMem_lcCycles (s : State) (k : Nat) (l : List Byte) : (s.putMem k l).lcCycles = s.lcCycles := rfl
@[simp] theorem State.putMem_agenda (s : State) (k : Nat) (l : List Byte) : (s.putMem k l).agenda = s.agenda := rfl
@[simp] theorem State.putMem_beamRest (s : State) (k : Nat) (l : List Byte) : (s.putMem k l).beamRest = s.beamRest := rfl
@[simp] theorem State.putMem_cur (s : State) (k : Nat) (l : List Byte) : (s.putMem k l).cur = s.cur := rfl
@[simp] theorem State.putMem_tick (s : State) (k : Nat) (l : List Byte) : (s.putMem k l).tick = s.tick := rfl
@[simp] theorem State.putMem_nextId (s : State) (k : Nat) (l : List Byte) : (s.putMem k l).nextId = s.nextId := rfl
@[simp] theorem State.putMem_free (s : State) (k : Nat) (l : List Byte) : (s.putMem k l).free = s.free := rfl
@[simp] theorem State.putMem_tlb (s : State) (k : Nat) (l : List Byte) : (s.putMem k l).tlb = s.tlb := rfl
@[simp] theorem State.putMem_icache (s : State) (k : Nat) (l : List Byte) : (s.putMem k l).icache = s.icache := rfl
@[simp] theorem State.putMem_scratch (s : State) (k : Nat) (l : List Byte) : (s.putMem k l).scratch = s.scratch := rfl
@[simp] theorem State.putMem_cells (s : State) (k : Nat) (l : List Byte) : (s.putMem k l).cells = s.cells := rfl
@[simp] theorem State.putMem_cores (s : State) (k : Nat) (l : List Byte) : (s.putMem k l).cores = s.cores := rfl
@[simp] theorem State.putMem_lcs (s : State) (k : Nat) (l : List Byte) : (s.putMem k l).lcs = s.lcs := rfl
@[simp] theorem State.putMem_dies (s : State) (k : Nat) (l : List Byte) : (s.putMem k l).dies = s.dies := rfl
@[simp] theorem State.putMem_threads (s : State) (k : Nat) (l : List Byte) : (s.putMem k l).threads = s.threads := rfl
@[simp] theorem State.putMem_groups (s : State) (k : Nat) (l : List Byte) : (s.putMem k l).groups = s.groups := rfl
@[simp] theorem State.putMem_tasks (s : State) (k : Nat) (l : List Byte) : (s.putMem k l).tasks = s.tasks := rfl
@[simp] theorem State.putMem_sets (s : State) (k : Nat) (l : List Byte) : (s.putMem k l).sets = s.sets := rfl
@[simp] theorem State.putMem_ldas (s : State) (k : Nat) (l : List Byte) : (s.putMem k l).ldas = s.ldas := rfl
@[simp] theorem State.putMem_copies (s : State) (k : Nat) (l : List Byte) : (s.putMem k l).copies = s.copies := rfl
@[simp] theorem State.putMem_ctxs (s : State) (k : Nat) (l : List Byte) : (s.putMem k l).ctxs = s.ctxs := rfl
@[simp] theorem State.putMem_exports (s : State) (k : Nat) (l : List Byte) : (s.putMem k l).exports = s.exports := rfl
@[simp] theorem State.putMem_queues (s : State) (k : Nat) (l : List Byte) : (s.putMem k l).queues = s.queues := rfl
@[simp] theorem State.putMem_funcs (s : State) (k : Nat) (l : List Byte) : (s.putMem k l).funcs = s.funcs := rfl
@[simp] theorem State.putMem_sem (s : State) (k : Nat) (l : List Byte) : (s.putMem k l).sem = s.sem := rfl
@[simp] theorem State.putMem_boot (s : State) (k : Nat) (l : List Byte) : (s.putMem k l).boot = s.boot := rfl
@[simp] theorem State.putMem_routing (s : State) (k : Nat) (l : List Byte) : (s.putMem k l).routing = s.routing := rfl
@[simp] theorem State.putMem_irqs (s : State) (k : Nat) (l : List Byte) : (s.putMem k l).irqs = s.irqs := rfl
@[simp] theorem State.putMem_net (s : State) (k : Nat) (l : List Byte) : (s.putMem k l).net = s.net := rfl
@[simp] theorem State.putMem_hdm (s : State) (k : Nat) (l : List Byte) : (s.putMem k l).hdm = s.hdm := rfl
@[simp] theorem State.putMem_usage (s : State) (k : Nat) (l : List Byte) : (s.putMem k l).usage = s.usage := rfl
@[simp] theorem State.putMem_health (s : State) (k : Nat) (l : List Byte) : (s.putMem k l).health = s.health := rfl
@[simp] theorem State.putMem_uncorr (s : State) (k : Nat) (l : List Byte) : (s.putMem k l).uncorr = s.uncorr := rfl
@[simp] theorem State.putMem_i3c (s : State) (k : Nat) (l : List Byte) : (s.putMem k l).i3c = s.i3c := rfl
@[simp] theorem State.putMem_ptp (s : State) (k : Nat) (l : List Byte) : (s.putMem k l).ptp = s.ptp := rfl

@[simp] theorem State.putScratch_time (s : State) (k : Nat) (l : List Byte) : (s.putScratch k l).time = s.time := rfl
@[simp] theorem State.putScratch_elapsed (s : State) (k : Nat) (l : List Byte) : (s.putScratch k l).elapsed = s.elapsed := rfl
@[simp] theorem State.putScratch_cycles (s : State) (k : Nat) (l : List Byte) : (s.putScratch k l).cycles = s.cycles := rfl
@[simp] theorem State.putScratch_lcCycles (s : State) (k : Nat) (l : List Byte) : (s.putScratch k l).lcCycles = s.lcCycles := rfl
@[simp] theorem State.putScratch_agenda (s : State) (k : Nat) (l : List Byte) : (s.putScratch k l).agenda = s.agenda := rfl
@[simp] theorem State.putScratch_beamRest (s : State) (k : Nat) (l : List Byte) : (s.putScratch k l).beamRest = s.beamRest := rfl
@[simp] theorem State.putScratch_cur (s : State) (k : Nat) (l : List Byte) : (s.putScratch k l).cur = s.cur := rfl
@[simp] theorem State.putScratch_tick (s : State) (k : Nat) (l : List Byte) : (s.putScratch k l).tick = s.tick := rfl
@[simp] theorem State.putScratch_nextId (s : State) (k : Nat) (l : List Byte) : (s.putScratch k l).nextId = s.nextId := rfl
@[simp] theorem State.putScratch_free (s : State) (k : Nat) (l : List Byte) : (s.putScratch k l).free = s.free := rfl
@[simp] theorem State.putScratch_mem (s : State) (k : Nat) (l : List Byte) : (s.putScratch k l).mem = s.mem := rfl
@[simp] theorem State.putScratch_dirty (s : State) (k : Nat) (l : List Byte) : (s.putScratch k l).dirty = s.dirty := rfl
@[simp] theorem State.putScratch_shadow (s : State) (k : Nat) (l : List Byte) : (s.putScratch k l).shadow = s.shadow := rfl
@[simp] theorem State.putScratch_poison (s : State) (k : Nat) (l : List Byte) : (s.putScratch k l).poison = s.poison := rfl
@[simp] theorem State.putScratch_tlb (s : State) (k : Nat) (l : List Byte) : (s.putScratch k l).tlb = s.tlb := rfl
@[simp] theorem State.putScratch_icache (s : State) (k : Nat) (l : List Byte) : (s.putScratch k l).icache = s.icache := rfl
@[simp] theorem State.putScratch_l1 (s : State) (k : Nat) (l : List Byte) : (s.putScratch k l).l1 = s.l1 := rfl
@[simp] theorem State.putScratch_l1Old (s : State) (k : Nat) (l : List Byte) : (s.putScratch k l).l1Old = s.l1Old := rfl
@[simp] theorem State.putScratch_l2 (s : State) (k : Nat) (l : List Byte) : (s.putScratch k l).l2 = s.l2 := rfl
@[simp] theorem State.putScratch_lcL2 (s : State) (k : Nat) (l : List Byte) : (s.putScratch k l).lcL2 = s.lcL2 := rfl
@[simp] theorem State.putScratch_home (s : State) (k : Nat) (l : List Byte) : (s.putScratch k l).home = s.home := rfl
@[simp] theorem State.putScratch_cells (s : State) (k : Nat) (l : List Byte) : (s.putScratch k l).cells = s.cells := rfl
@[simp] theorem State.putScratch_cores (s : State) (k : Nat) (l : List Byte) : (s.putScratch k l).cores = s.cores := rfl
@[simp] theorem State.putScratch_lcs (s : State) (k : Nat) (l : List Byte) : (s.putScratch k l).lcs = s.lcs := rfl
@[simp] theorem State.putScratch_dies (s : State) (k : Nat) (l : List Byte) : (s.putScratch k l).dies = s.dies := rfl
@[simp] theorem State.putScratch_threads (s : State) (k : Nat) (l : List Byte) : (s.putScratch k l).threads = s.threads := rfl
@[simp] theorem State.putScratch_groups (s : State) (k : Nat) (l : List Byte) : (s.putScratch k l).groups = s.groups := rfl
@[simp] theorem State.putScratch_tasks (s : State) (k : Nat) (l : List Byte) : (s.putScratch k l).tasks = s.tasks := rfl
@[simp] theorem State.putScratch_sets (s : State) (k : Nat) (l : List Byte) : (s.putScratch k l).sets = s.sets := rfl
@[simp] theorem State.putScratch_ldas (s : State) (k : Nat) (l : List Byte) : (s.putScratch k l).ldas = s.ldas := rfl
@[simp] theorem State.putScratch_copies (s : State) (k : Nat) (l : List Byte) : (s.putScratch k l).copies = s.copies := rfl
@[simp] theorem State.putScratch_ctxs (s : State) (k : Nat) (l : List Byte) : (s.putScratch k l).ctxs = s.ctxs := rfl
@[simp] theorem State.putScratch_exports (s : State) (k : Nat) (l : List Byte) : (s.putScratch k l).exports = s.exports := rfl
@[simp] theorem State.putScratch_queues (s : State) (k : Nat) (l : List Byte) : (s.putScratch k l).queues = s.queues := rfl
@[simp] theorem State.putScratch_funcs (s : State) (k : Nat) (l : List Byte) : (s.putScratch k l).funcs = s.funcs := rfl
@[simp] theorem State.putScratch_sem (s : State) (k : Nat) (l : List Byte) : (s.putScratch k l).sem = s.sem := rfl
@[simp] theorem State.putScratch_boot (s : State) (k : Nat) (l : List Byte) : (s.putScratch k l).boot = s.boot := rfl
@[simp] theorem State.putScratch_routing (s : State) (k : Nat) (l : List Byte) : (s.putScratch k l).routing = s.routing := rfl
@[simp] theorem State.putScratch_irqs (s : State) (k : Nat) (l : List Byte) : (s.putScratch k l).irqs = s.irqs := rfl
@[simp] theorem State.putScratch_net (s : State) (k : Nat) (l : List Byte) : (s.putScratch k l).net = s.net := rfl
@[simp] theorem State.putScratch_hdm (s : State) (k : Nat) (l : List Byte) : (s.putScratch k l).hdm = s.hdm := rfl
@[simp] theorem State.putScratch_usage (s : State) (k : Nat) (l : List Byte) : (s.putScratch k l).usage = s.usage := rfl
@[simp] theorem State.putScratch_dieCounters (s : State) (k : Nat) (l : List Byte) : (s.putScratch k l).dieCounters = s.dieCounters := rfl
@[simp] theorem State.putScratch_health (s : State) (k : Nat) (l : List Byte) : (s.putScratch k l).health = s.health := rfl
@[simp] theorem State.putScratch_uncorr (s : State) (k : Nat) (l : List Byte) : (s.putScratch k l).uncorr = s.uncorr := rfl
@[simp] theorem State.putScratch_i3c (s : State) (k : Nat) (l : List Byte) : (s.putScratch k l).i3c = s.i3c := rfl
@[simp] theorem State.putScratch_ptp (s : State) (k : Nat) (l : List Byte) : (s.putScratch k l).ptp = s.ptp := rfl
@[simp] theorem State.putScratch_counts (s : State) (k : Nat) (l : List Byte) : (s.putScratch k l).counts = s.counts := rfl

@[simp] theorem State.postRecord_time (s : State) (c : Nat) (r : FaultRec) : (s.postRecord c r).time = s.time := rfl
@[simp] theorem State.postRecord_elapsed (s : State) (c : Nat) (r : FaultRec) : (s.postRecord c r).elapsed = s.elapsed := rfl
@[simp] theorem State.postRecord_cycles (s : State) (c : Nat) (r : FaultRec) : (s.postRecord c r).cycles = s.cycles := rfl
@[simp] theorem State.postRecord_lcCycles (s : State) (c : Nat) (r : FaultRec) : (s.postRecord c r).lcCycles = s.lcCycles := rfl
@[simp] theorem State.postRecord_agenda (s : State) (c : Nat) (r : FaultRec) : (s.postRecord c r).agenda = s.agenda := rfl
@[simp] theorem State.postRecord_beamRest (s : State) (c : Nat) (r : FaultRec) : (s.postRecord c r).beamRest = s.beamRest := rfl
@[simp] theorem State.postRecord_cur (s : State) (c : Nat) (r : FaultRec) : (s.postRecord c r).cur = s.cur := rfl
@[simp] theorem State.postRecord_tick (s : State) (c : Nat) (r : FaultRec) : (s.postRecord c r).tick = s.tick := rfl
@[simp] theorem State.postRecord_nextId (s : State) (c : Nat) (r : FaultRec) : (s.postRecord c r).nextId = s.nextId := rfl
@[simp] theorem State.postRecord_free (s : State) (c : Nat) (r : FaultRec) : (s.postRecord c r).free = s.free := rfl
@[simp] theorem State.postRecord_mem (s : State) (c : Nat) (r : FaultRec) : (s.postRecord c r).mem = s.mem := rfl
@[simp] theorem State.postRecord_dirty (s : State) (c : Nat) (r : FaultRec) : (s.postRecord c r).dirty = s.dirty := rfl
@[simp] theorem State.postRecord_shadow (s : State) (c : Nat) (r : FaultRec) : (s.postRecord c r).shadow = s.shadow := rfl
@[simp] theorem State.postRecord_poison (s : State) (c : Nat) (r : FaultRec) : (s.postRecord c r).poison = s.poison := rfl
@[simp] theorem State.postRecord_tlb (s : State) (c : Nat) (r : FaultRec) : (s.postRecord c r).tlb = s.tlb := rfl
@[simp] theorem State.postRecord_icache (s : State) (c : Nat) (r : FaultRec) : (s.postRecord c r).icache = s.icache := rfl
@[simp] theorem State.postRecord_l1 (s : State) (c : Nat) (r : FaultRec) : (s.postRecord c r).l1 = s.l1 := rfl
@[simp] theorem State.postRecord_l1Old (s : State) (c : Nat) (r : FaultRec) : (s.postRecord c r).l1Old = s.l1Old := rfl
@[simp] theorem State.postRecord_l2 (s : State) (c : Nat) (r : FaultRec) : (s.postRecord c r).l2 = s.l2 := rfl
@[simp] theorem State.postRecord_lcL2 (s : State) (c : Nat) (r : FaultRec) : (s.postRecord c r).lcL2 = s.lcL2 := rfl
@[simp] theorem State.postRecord_home (s : State) (c : Nat) (r : FaultRec) : (s.postRecord c r).home = s.home := rfl
@[simp] theorem State.postRecord_scratch (s : State) (c : Nat) (r : FaultRec) : (s.postRecord c r).scratch = s.scratch := rfl
@[simp] theorem State.postRecord_cells (s : State) (c : Nat) (r : FaultRec) : (s.postRecord c r).cells = s.cells := rfl
@[simp] theorem State.postRecord_cores (s : State) (c : Nat) (r : FaultRec) : (s.postRecord c r).cores = s.cores := rfl
@[simp] theorem State.postRecord_lcs (s : State) (c : Nat) (r : FaultRec) : (s.postRecord c r).lcs = s.lcs := rfl
@[simp] theorem State.postRecord_dies (s : State) (c : Nat) (r : FaultRec) : (s.postRecord c r).dies = s.dies := rfl
@[simp] theorem State.postRecord_threads (s : State) (c : Nat) (r : FaultRec) : (s.postRecord c r).threads = s.threads := rfl
@[simp] theorem State.postRecord_groups (s : State) (c : Nat) (r : FaultRec) : (s.postRecord c r).groups = s.groups := rfl
@[simp] theorem State.postRecord_tasks (s : State) (c : Nat) (r : FaultRec) : (s.postRecord c r).tasks = s.tasks := rfl
@[simp] theorem State.postRecord_sets (s : State) (c : Nat) (r : FaultRec) : (s.postRecord c r).sets = s.sets := rfl
@[simp] theorem State.postRecord_ldas (s : State) (c : Nat) (r : FaultRec) : (s.postRecord c r).ldas = s.ldas := rfl
@[simp] theorem State.postRecord_copies (s : State) (c : Nat) (r : FaultRec) : (s.postRecord c r).copies = s.copies := rfl
@[simp] theorem State.postRecord_exports (s : State) (c : Nat) (r : FaultRec) : (s.postRecord c r).exports = s.exports := rfl
@[simp] theorem State.postRecord_queues (s : State) (c : Nat) (r : FaultRec) : (s.postRecord c r).queues = s.queues := rfl
@[simp] theorem State.postRecord_funcs (s : State) (c : Nat) (r : FaultRec) : (s.postRecord c r).funcs = s.funcs := rfl
@[simp] theorem State.postRecord_sem (s : State) (c : Nat) (r : FaultRec) : (s.postRecord c r).sem = s.sem := rfl
@[simp] theorem State.postRecord_boot (s : State) (c : Nat) (r : FaultRec) : (s.postRecord c r).boot = s.boot := rfl
@[simp] theorem State.postRecord_routing (s : State) (c : Nat) (r : FaultRec) : (s.postRecord c r).routing = s.routing := rfl
@[simp] theorem State.postRecord_irqs (s : State) (c : Nat) (r : FaultRec) : (s.postRecord c r).irqs = s.irqs := rfl
@[simp] theorem State.postRecord_net (s : State) (c : Nat) (r : FaultRec) : (s.postRecord c r).net = s.net := rfl
@[simp] theorem State.postRecord_hdm (s : State) (c : Nat) (r : FaultRec) : (s.postRecord c r).hdm = s.hdm := rfl
@[simp] theorem State.postRecord_usage (s : State) (c : Nat) (r : FaultRec) : (s.postRecord c r).usage = s.usage := rfl
@[simp] theorem State.postRecord_dieCounters (s : State) (c : Nat) (r : FaultRec) : (s.postRecord c r).dieCounters = s.dieCounters := rfl
@[simp] theorem State.postRecord_health (s : State) (c : Nat) (r : FaultRec) : (s.postRecord c r).health = s.health := rfl
@[simp] theorem State.postRecord_uncorr (s : State) (c : Nat) (r : FaultRec) : (s.postRecord c r).uncorr = s.uncorr := rfl
@[simp] theorem State.postRecord_i3c (s : State) (c : Nat) (r : FaultRec) : (s.postRecord c r).i3c = s.i3c := rfl
@[simp] theorem State.postRecord_ptp (s : State) (c : Nat) (r : FaultRec) : (s.postRecord c r).ptp = s.ptp := rfl
@[simp] theorem State.postRecord_counts (s : State) (c : Nat) (r : FaultRec) : (s.postRecord c r).counts = s.counts := rfl

@[simp] theorem State.interrupt_time (s : State) (f v : Nat) : (s.interrupt f v).time = s.time := rfl
@[simp] theorem State.interrupt_elapsed (s : State) (f v : Nat) : (s.interrupt f v).elapsed = s.elapsed := rfl
@[simp] theorem State.interrupt_cycles (s : State) (f v : Nat) : (s.interrupt f v).cycles = s.cycles := rfl
@[simp] theorem State.interrupt_lcCycles (s : State) (f v : Nat) : (s.interrupt f v).lcCycles = s.lcCycles := rfl
@[simp] theorem State.interrupt_agenda (s : State) (f v : Nat) : (s.interrupt f v).agenda = s.agenda := rfl
@[simp] theorem State.interrupt_beamRest (s : State) (f v : Nat) : (s.interrupt f v).beamRest = s.beamRest := rfl
@[simp] theorem State.interrupt_cur (s : State) (f v : Nat) : (s.interrupt f v).cur = s.cur := rfl
@[simp] theorem State.interrupt_tick (s : State) (f v : Nat) : (s.interrupt f v).tick = s.tick := rfl
@[simp] theorem State.interrupt_nextId (s : State) (f v : Nat) : (s.interrupt f v).nextId = s.nextId := rfl
@[simp] theorem State.interrupt_free (s : State) (f v : Nat) : (s.interrupt f v).free = s.free := rfl
@[simp] theorem State.interrupt_mem (s : State) (f v : Nat) : (s.interrupt f v).mem = s.mem := rfl
@[simp] theorem State.interrupt_dirty (s : State) (f v : Nat) : (s.interrupt f v).dirty = s.dirty := rfl
@[simp] theorem State.interrupt_shadow (s : State) (f v : Nat) : (s.interrupt f v).shadow = s.shadow := rfl
@[simp] theorem State.interrupt_poison (s : State) (f v : Nat) : (s.interrupt f v).poison = s.poison := rfl
@[simp] theorem State.interrupt_tlb (s : State) (f v : Nat) : (s.interrupt f v).tlb = s.tlb := rfl
@[simp] theorem State.interrupt_icache (s : State) (f v : Nat) : (s.interrupt f v).icache = s.icache := rfl
@[simp] theorem State.interrupt_l1 (s : State) (f v : Nat) : (s.interrupt f v).l1 = s.l1 := rfl
@[simp] theorem State.interrupt_l1Old (s : State) (f v : Nat) : (s.interrupt f v).l1Old = s.l1Old := rfl
@[simp] theorem State.interrupt_l2 (s : State) (f v : Nat) : (s.interrupt f v).l2 = s.l2 := rfl
@[simp] theorem State.interrupt_lcL2 (s : State) (f v : Nat) : (s.interrupt f v).lcL2 = s.lcL2 := rfl
@[simp] theorem State.interrupt_home (s : State) (f v : Nat) : (s.interrupt f v).home = s.home := rfl
@[simp] theorem State.interrupt_scratch (s : State) (f v : Nat) : (s.interrupt f v).scratch = s.scratch := rfl
@[simp] theorem State.interrupt_cells (s : State) (f v : Nat) : (s.interrupt f v).cells = s.cells := rfl
@[simp] theorem State.interrupt_cores (s : State) (f v : Nat) : (s.interrupt f v).cores = s.cores := rfl
@[simp] theorem State.interrupt_lcs (s : State) (f v : Nat) : (s.interrupt f v).lcs = s.lcs := rfl
@[simp] theorem State.interrupt_dies (s : State) (f v : Nat) : (s.interrupt f v).dies = s.dies := rfl
@[simp] theorem State.interrupt_threads (s : State) (f v : Nat) : (s.interrupt f v).threads = s.threads := rfl
@[simp] theorem State.interrupt_groups (s : State) (f v : Nat) : (s.interrupt f v).groups = s.groups := rfl
@[simp] theorem State.interrupt_tasks (s : State) (f v : Nat) : (s.interrupt f v).tasks = s.tasks := rfl
@[simp] theorem State.interrupt_sets (s : State) (f v : Nat) : (s.interrupt f v).sets = s.sets := rfl
@[simp] theorem State.interrupt_ldas (s : State) (f v : Nat) : (s.interrupt f v).ldas = s.ldas := rfl
@[simp] theorem State.interrupt_copies (s : State) (f v : Nat) : (s.interrupt f v).copies = s.copies := rfl
@[simp] theorem State.interrupt_ctxs (s : State) (f v : Nat) : (s.interrupt f v).ctxs = s.ctxs := rfl
@[simp] theorem State.interrupt_exports (s : State) (f v : Nat) : (s.interrupt f v).exports = s.exports := rfl
@[simp] theorem State.interrupt_queues (s : State) (f v : Nat) : (s.interrupt f v).queues = s.queues := rfl
@[simp] theorem State.interrupt_funcs (s : State) (f v : Nat) : (s.interrupt f v).funcs = s.funcs := rfl
@[simp] theorem State.interrupt_sem (s : State) (f v : Nat) : (s.interrupt f v).sem = s.sem := rfl
@[simp] theorem State.interrupt_boot (s : State) (f v : Nat) : (s.interrupt f v).boot = s.boot := rfl
@[simp] theorem State.interrupt_routing (s : State) (f v : Nat) : (s.interrupt f v).routing = s.routing := rfl
@[simp] theorem State.interrupt_net (s : State) (f v : Nat) : (s.interrupt f v).net = s.net := rfl
@[simp] theorem State.interrupt_hdm (s : State) (f v : Nat) : (s.interrupt f v).hdm = s.hdm := rfl
@[simp] theorem State.interrupt_usage (s : State) (f v : Nat) : (s.interrupt f v).usage = s.usage := rfl
@[simp] theorem State.interrupt_dieCounters (s : State) (f v : Nat) : (s.interrupt f v).dieCounters = s.dieCounters := rfl
@[simp] theorem State.interrupt_health (s : State) (f v : Nat) : (s.interrupt f v).health = s.health := rfl
@[simp] theorem State.interrupt_uncorr (s : State) (f v : Nat) : (s.interrupt f v).uncorr = s.uncorr := rfl
@[simp] theorem State.interrupt_i3c (s : State) (f v : Nat) : (s.interrupt f v).i3c = s.i3c := rfl
@[simp] theorem State.interrupt_ptp (s : State) (f v : Nat) : (s.interrupt f v).ptp = s.ptp := rfl
@[simp] theorem State.interrupt_counts (s : State) (f v : Nat) : (s.interrupt f v).counts = s.counts := rfl

end Sys2Proof.Machine
end

