-- ==== Sys2Proof/Laws/Course.lean ====
section
/-! SUPPORT. The course of an instruction, said once: where steps 1 to 4 of R235 stop nothing and the effect completes in
each thread whose guards are true, the instruction completes with those effects, and retires. -/

namespace Sys2Proof.Machine

/-! ## Threads by number -/

theorem find_map_tid (l : List Thread) (g : Thread → Thread) (hg : ∀ t, (g t).tid = t.tid) (j : Nat) :
    (l.map g).find? (·.tid == j) = (l.find? (·.tid == j)).map g := by
  induction l with
  | nil => rfl
  | cons t r ih =>
    simp only [List.map_cons, List.find?_cons, hg t]
    by_cases h : (t.tid == j) = true
    · simp [h]
    · simp [h, ih]

theorem State.thread?_tid {s : State} {j : Nat} {t : Thread} (h : s.thread? j = some t) : t.tid = j := by
  have := List.find?_some h
  simpa using this

theorem State.thread?_updThreads (s : State) (l : List Nat) (f : Thread → Thread) (hf : ∀ t, (f t).tid = t.tid) (j : Nat) :
    (s.updThreads l f).thread? j = (s.thread? j).map fun t => if j ∈ l then f t else t := by
  show (s.threads.map fun t => if l.contains t.tid then f t else t).find? (·.tid == j) = _
  rw [find_map_tid _ _ (by intro t; split <;> simp [hf])]
  show Option.map _ (s.thread? j) = _
  cases h : s.thread? j with
  | none => rfl
  | some t => simp [State.thread?_tid h]

theorem State.thread?_updThread (s : State) (i : Nat) (f : Thread → Thread) (hf : ∀ t, t.tid = i → (f t).tid = t.tid) (j : Nat) :
    (s.updThread i f).thread? j = (s.thread? j).map fun t => if j = i then f t else t := by
  show (s.threads.map fun t => if t.tid = i then f t else t).find? (·.tid == j) = _
  rw [find_map_tid _ _ (by intro t; split <;> simp_all)]
  show Option.map _ (s.thread? j) = _
  cases h : s.thread? j with
  | none => rfl
  | some t => simp [State.thread?_tid h]

theorem State.thread?_of_threads {s s' : State} (h : s'.threads = s.threads) (j : Nat) : s'.thread? j = s.thread? j := by
  unfold State.thread?; rw [h]

/-! ## What looking an address up changes -/

/-- `t` is `s` with other contents of the home slices and other counts: what looking addresses up may change (R443, R452). -/
def State.Looked (s t : State) : Prop :=
  ∃ home counts windowCounts dieCounters cores, t = { s with home, counts, windowCounts, dieCounters, cores }

theorem State.Looked.refl (s : State) : s.Looked s := ⟨_, _, _, _, _, rfl⟩

theorem State.Looked.trans {a b c : State} (h : a.Looked b) (g : b.Looked c) : a.Looked c := by
  obtain ⟨_, _, _, _, _, rfl⟩ := h
  obtain ⟨_, _, _, _, _, rfl⟩ := g
  exact ⟨_, _, _, _, _, rfl⟩

theorem State.looked_foldl {α : Type} (f : State → α → State) (hf : ∀ (s : State) a, s.Looked (f s a)) (l : List α) (s : State) :
    s.Looked (l.foldl f s) := by
  induction l generalizing s with
  | nil => exact .refl s
  | cons a l ih => exact (hf s a).trans (ih _)

theorem State.tallyCore_looked (s : State) (k src n : Nat) : s.Looked (s.tallyCore k src n) := by
  unfold State.tallyCore
  split
  · exact .refl s
  · exact ⟨_, _, _, _, _, rfl⟩

theorem State.walkFill_looked (s : State) (die : Option Nat) (c : Nat) (va : Dword) : s.Looked (s.walkFill die c va) := by
  unfold State.walkFill
  split
  · exact .refl s
  · refine .trans ?_ (State.looked_foldl _ (fun s k => ⟨_, _, _, _, _, rfl⟩) _ _)
    cases die <;> exact ⟨_, _, _, _, _, rfl⟩

/-- A look-up changes the home slices and the counts alone. -/
theorem State.lookUp_looked (s : State) (c : Nat) (va : Dword) : s.Looked (s.lookUp c va) := by
  unfold State.lookUp
  split
  · exact .refl s
  · have h : ∀ (l : List Nat), s.Looked (l.foldl (fun s u => s.tlbMiss c u) s) := fun l =>
      State.looked_foldl _ (fun s u => by
        unfold State.tlbMiss
        split
        · exact State.tallyCore_looked s ..
        · exact ⟨_, _, _, _, _, rfl⟩) l s
    dsimp only
    split
    · exact h _
    · exact (h _).trans (State.walkFill_looked ..)

theorem State.readFill_looked (s : State) (c : Nat) (va : Dword) (n keep : Nat) : s.Looked (s.readFill c va n keep) := by
  unfold State.readFill
  split
  · exact (State.lookUp_looked s c va).trans ⟨_, _, _, _, _, rfl⟩
  · exact State.lookUp_looked s c va

/-- What the threads of an agent look up for an instruction changes the home slices and the counts alone. -/
theorem State.lookUps_looked (s : State) (i : Instr) (tids : List Nat) : s.Looked (s.lookUps i tids) := by
  refine State.looked_foldl _ (fun s j => ?_) tids s
  split
  · split
    · exact State.looked_foldl _ (fun s p => State.readFill_looked ..) _ s
    · exact .refl s
  · exact .refl s

theorem State.landed_threads (s : State) (i : Instr) (tids : List Nat) :
    (s.landed i tids).threads = (s.landDue i tids).threads := by
  obtain ⟨_, _, _, _, _, h⟩ := State.lookUps_looked (s.landDue i tids) i tids
  rw [State.landed, h]

theorem State.landed_groups (s : State) (i : Instr) (tids : List Nat) : (s.landed i tids).groups = s.groups := by
  obtain ⟨_, _, _, _, _, h⟩ := State.lookUps_looked (s.landDue i tids) i tids
  rw [State.landed, h]
  rfl

theorem State.landed_cur (s : State) (i : Instr) (tids : List Nat) : (s.landed i tids).cur = s.cur := by
  obtain ⟨_, _, _, _, _, h⟩ := State.lookUps_looked (s.landDue i tids) i tids
  rw [State.landed, h]
  rfl

/-! ## What an effect keeps, so that the instruction retires -/

/-- An effect that leaves the groups, and the PC of every thread. -/
def State.Keeps (s s' : State) : Prop :=
  s'.groups = s.groups ∧ ∀ k, (s'.thread? k).map (·.pc) = (s.thread? k).map (·.pc)

theorem State.Keeps.refl (s : State) : s.Keeps s := ⟨rfl, fun _ => rfl⟩

theorem State.Keeps.trans {a b c : State} (h : a.Keeps b) (g : b.Keeps c) : a.Keeps c :=
  ⟨g.1.trans h.1, fun k => (g.2 k).trans (h.2 k)⟩

theorem State.Keeps.of_threads {s s' : State} (h : s'.threads = s.threads) (g : s'.groups = s.groups) : s.Keeps s' :=
  ⟨g, fun k => by rw [State.thread?_of_threads h]⟩

theorem State.keeps_updThread (s : State) (i : Nat) (f : Thread → Thread)
    (hf : ∀ t, s.thread? i = some t → (f t).pc = t.pc) (hd : ∀ t, t.tid = i → (f t).tid = t.tid) :
    s.Keeps (s.updThread i f) := by
  refine ⟨rfl, fun k => ?_⟩
  rw [State.thread?_updThread _ _ _ hd]
  by_cases hk : k = i
  · subst hk
    cases h : s.thread? k with
    | none => rfl
    | some t => simp [hf t h]
  · simp [hk]

/-! ## The issue counter -/

/-- The issue counter changes the cores alone. -/
theorem State.tallyIssue_eq (s : State) (tids : List Nat) : s.tallyIssue tids = { s with cores := (s.tallyIssue tids).cores } := by
  unfold State.tallyIssue State.tallyCore
  split
  · split <;> rfl
  · rfl

@[simp] theorem State.tallyIssue_threads (s : State) (l : List Nat) : (s.tallyIssue l).threads = s.threads := by
  rw [State.tallyIssue_eq]

@[simp] theorem State.tallyIssue_groups (s : State) (l : List Nat) : (s.tallyIssue l).groups = s.groups := by
  rw [State.tallyIssue_eq]

@[simp] theorem State.tallyIssue_tick (s : State) (l : List Nat) : (s.tallyIssue l).tick = s.tick := by
  rw [State.tallyIssue_eq]

@[simp] theorem State.tallyIssue_thread? (s : State) (l : List Nat) (j : Nat) : (s.tallyIssue l).thread? j = s.thread? j :=
  State.thread?_of_threads (by simp) j
/-! ## The parts of the course -/

/-- What `issues` gives of the agent. -/
theorem State.issues_agent {s : State} {i : Instr} {tids : List Nat} (hi : s.issues i tids = true) :
    s.actorTids s.cur = tids ∧ tids ≠ [] ∧ tids.Nodup ∧ s.skidOf s.cur = none ∧ s.inStep s.cur = true ∧
      s.waits i tids = false := by
  simp only [State.issues, Bool.and_eq_true, decide_eq_true_eq, Option.isNone_iff_eq_none, Bool.not_eq_true'] at hi
  obtain ⟨⟨⟨⟨⟨⟨h1, h2⟩, h3⟩, h4⟩, h5⟩, h6⟩, -⟩ := hi
  exact ⟨h1, h2, h3, h4, h5, h6⟩

/-- What `issues` gives of each thread. -/
theorem State.issues_thread {s : State} {i : Instr} {tids : List Nat} (hi : s.issues i tids = true) {j : Nat}
    (hj : j ∈ tids) : ∃ t, s.thread? j = some t ∧ s.decodeStop i (t.commitDue (s.readsOf i tids t)) = none := by
  simp only [State.issues, Bool.and_eq_true, List.all_eq_true] at hi
  have h := hi.2 j hj
  rw [Option.any_eq_true] at h
  obtain ⟨t, ht, h⟩ := h
  exact ⟨t, ht, Option.isNone_iff_eq_none.1 h⟩

theorem State.landDue_thread? (s : State) (i : Instr) (tids : List Nat) (j : Nat) :
    (s.landDue i tids).thread? j = (s.thread? j).map fun t => if j ∈ tids then t.commitDue (s.readsOf i tids t) else t :=
  State.thread?_updThreads s tids (fun t => t.commitDue (s.readsOf i tids t)) (fun _ => rfl) j

theorem State.landed_thread? (s : State) (i : Instr) (tids : List Nat) (j : Nat) :
    (s.landed i tids).thread? j = (s.thread? j).map fun t => if j ∈ tids then t.commitDue (s.readsOf i tids t) else t :=
  (State.thread?_of_threads (s.landed_threads i tids) j).trans (s.landDue_thread? i tids j)

theorem firstStop_none (s : State) (check : Thread → Option Stop) (l : List Nat)
    (h : ∀ j ∈ l, (s.thread? j).bind check = none) : firstStop s check l = none := by
  induction l with
  | nil => rfl
  | cons j l ih =>
    simp only [firstStop, h j (by simp)]
    exact ih fun k hk => h k (by simp [hk])

/-- Where `issues` holds, no step before the effect stops a thread. -/
theorem State.issues_agentStop {s : State} {i : Instr} {tids : List Nat} (hi : s.issues i tids = true) :
    (s.landDue i tids).agentStop i tids = none := by
  unfold State.agentStop
  rw [List.findSome?_eq_none_iff]
  intro c hc
  apply firstStop_none
  intro j hj
  obtain ⟨t, ht, hd⟩ := State.issues_thread hi hj
  rw [State.landDue_thread?, ht]
  simp only [Option.map_some, hj, if_true, Option.bind_some]
  exact List.findSome?_eq_none_iff.1 hd c hc

theorem runStage_ok (l : List Nat) (s : State) : runStage (fun _ s => .ok s) l s = .ok s := by
  induction l with
  | nil => rfl
  | cons j l ih => simpa [runStage] using ih

theorem runBodies_each {f : Thread → State → Option State} {body : Body}
    (hb : ∀ j t s1 s2, s1.thread? j = some t → f t s1 = some s2 → body j s1 = .ok (s2, .seq)) :
    ∀ (l : List Nat) (s e : State), s.each f l = some e → runBodies body l s = .ok (e, l.map fun j => (j, Next.seq)) := by
  intro l
  induction l with
  | nil => intro s e h; simp only [State.each, Option.some.injEq] at h; subst h; rfl
  | cons j l ih =>
    intro s e h
    simp only [State.each] at h
    split at h
    · next s' hs =>
      obtain ⟨t, ht, hf⟩ := Option.bind_eq_some_iff.1 hs
      simp only [runBodies, hb j t s s' ht hf, ih s' e h, List.map_cons]
    · cases h

theorem State.each_keeps {f : Thread → State → Option State} (hp : ∀ t s1 s2, s1.thread? t.tid = some t → f t s1 = some s2 → s1.Keeps s2) :
    ∀ (l : List Nat) (s e : State), s.each f l = some e → s.Keeps e := by
  intro l
  induction l with
  | nil => intro s e h; simp only [State.each, Option.some.injEq] at h; subst h; exact .refl _
  | cons j l ih =>
    intro s e h
    simp only [State.each] at h
    split at h
    · next s' hs =>
      obtain ⟨t, ht, hf⟩ := Option.bind_eq_some_iff.1 hs
      exact (hp t s s' (by rw [State.thread?_tid ht]; exact ht) hf).trans (ih s' e h)
    · cases h

theorem State.acting_sublist (s : State) (i : Instr) (tids : List Nat) : (s.acting i tids).Sublist tids := by
  unfold State.acting
  split
  · exact List.filter_sublist
  · exact List.Sublist.refl _

/-- Going on at PC + 8. -/
def Thread.stepPc (t : Thread) : Thread := { t with pc := t.pc + 8 }

theorem State.applySeq_eq (l : List Nat) (s : State) :
    ∃ T, (l.map fun j => (j, Next.seq)).foldl (fun s p => s.applyNext p.1 p.2) s = { s with threads := T } := by
  induction l generalizing s with
  | nil => exact ⟨s.threads, rfl⟩
  | cons j l ih => exact ih (s.updThread j fun t => { t with pc := t.pc + 8 })

theorem State.applySeq_thread? (l : List Nat) (hl : l.Nodup) (s : State) (k : Nat) :
    ((l.map fun j => (j, Next.seq)).foldl (fun s p => s.applyNext p.1 p.2) s).thread? k
      = (s.thread? k).map fun t => if k ∈ l then t.stepPc else t := by
  induction l generalizing s with
  | nil => simp
  | cons j l ih =>
    rw [List.nodup_cons] at hl
    simp only [List.map_cons, List.foldl_cons]
    rw [ih hl.2, show s.applyNext j Next.seq = s.updThread j Thread.stepPc from rfl,
      State.thread?_updThread _ _ Thread.stepPc (fun _ _ => rfl), Option.map_map]
    congr 1
    funext t
    by_cases h : k = j
    · subst h; simp [hl.1]
    · simp [h]

theorem insertPc_all (p : Dword) (l : List Nat) (pcOf : Nat → Dword) (h : ∀ r ∈ l, pcOf r = p) :
    ∀ acc, (acc = [] ∨ acc = [p]) → l.foldl (fun a r => insertPc a (pcOf r)) acc = [] ∨
      l.foldl (fun a r => insertPc a (pcOf r)) acc = [p] := by
  induction l with
  | nil => intro acc h; exact h
  | cons r l ih =>
    intro acc ha
    simp only [List.foldl_cons]
    apply ih fun q hq => h q (by simp [hq])
    right
    rw [h r (by simp)]
    rcases ha with rfl | rfl <;> simp [insertPc]

/-- A fragment whose threads agree on their PC does not split. -/
theorem State.split_same (s : State) (gid fid : Nat) (fall p : Dword)
    (h : ∀ g f, s.group? gid = some g → g.frag? fid = some f → ∀ r ∈ ranksOf f.mask,
      (((g.members[r]?).bind s.thread?).map (·.pc)).getD 0 = p) : s.split gid fid fall = s := by
  unfold State.split
  split
  · rfl
  · next g hg =>
    split
    · rfl
    · next f hf =>
      have := insertPc_all p (ranksOf f.mask) (fun r => (((g.members[r]?).bind s.thread?).map (·.pc)).getD 0) (h g f hg hf)
        [] (.inl rfl)
      rcases this with h' | h' <;> simp only [h']
/-! ## Retirement -/

/-- The threads after an instruction has issued. -/
theorem State.issued_thread? (s : State) (l : List Nat) (k : Nat) :
    (s.issued none l).thread? k = (s.thread? k).map fun t => if k ∈ l then Thread.windowStep { t with age := s.tick } else t := by
  show State.thread? (State.updThreads _ _ _) k = _
  rw [State.thread?_updThreads _ _ _ (by intro t; rfl), State.thread?_updThreads _ _ _ (by intro t; rfl), Option.map_map]
  congr 1
  funext t
  by_cases h : k ∈ l
  · simp only [Function.comp, h, if_true]; rfl
  · simp only [Function.comp, h, if_false]

/-- What issuing writes of the state. -/
theorem State.issued_eq (s : State) (l : List Nat) :
    s.issued none l = { s with threads := (s.issued none l).threads, tick := s.tick + 1 } := rfl

/-- The PC of each thread of an agent in step is the first one's. -/
theorem State.inStep_pc {s : State} {gid fid first : Nat} {rest : List Nat} {g : Group} {f : Frag} {t0 : Thread}
    (hc : s.cur = .frag gid fid) (ha : s.actorTids s.cur = first :: rest) (hs : s.inStep s.cur = true)
    (hg : s.group? gid = some g) (hf : g.frag? fid = some f) (h0 : s.thread? first = some t0) {r : Nat}
    (hr : r ∈ ranksOf f.mask) : ∃ j t, g.members[r]? = some j ∧ s.thread? j = some t ∧ t.pc = t0.pc ∧ j ∈ first :: rest := by
  simp only [hc, State.inStep, hg, hf, Option.bind_some, Option.map_some, List.all_eq_true, Bool.and_eq_true, beq_iff_eq] at hs
  rw [hc] at ha
  simp only [State.actorTids, hg, hf, Group.threadsOf] at ha
  have hr2 := hs r hr
  obtain ⟨pc, hpc⟩ := Option.isSome_iff_exists.1 hr2.1
  obtain ⟨t, ht, htpc⟩ := Option.map_eq_some_iff.1 hpc
  obtain ⟨j, hj, htj⟩ := Option.bind_eq_some_iff.1 ht
  refine ⟨j, t, hj, htj, ?_, by rw [← ha]; exact List.mem_filterMap.2 ⟨r, hr, hj⟩⟩
  have hfirst : ((ranksOf f.mask).head?).bind (fun r => ((g.members[r]?).bind s.thread?).map (·.pc)) = some t0.pc := by
    cases hm : ranksOf f.mask with
    | nil => rw [hm] at hr; cases hr
    | cons r0 rs =>
      rw [hm] at ha hs
      obtain ⟨x, hx⟩ := Option.isSome_iff_exists.1 (hs r0 (by simp)).1
      obtain ⟨u, hu, -⟩ := Option.map_eq_some_iff.1 hx
      obtain ⟨j0, hj0, -⟩ := Option.bind_eq_some_iff.1 hu
      simp only [List.filterMap_cons, hj0] at ha
      simp only [List.head?_cons, Option.bind_some, hj0, (List.cons.inj ha).1, h0, Option.map_some]
  have := hr2.2
  rw [hpc, hfirst] at this
  rw [htpc]
  exact Option.some.inj this

/-- Where every outcome is the next instruction, the instruction retires. -/
theorem State.retires_seq {s e : State} {i : Instr} {first : Nat} {rest : List Nat} {t0 : Thread}
    (hi : s.issues i (first :: rest) = true) (h0 : s.thread? first = some t0)
    (hk : (s.landed i (first :: rest)).Keeps e) {X : State}
    (hX : X = (((s.acting i (first :: rest)).map fun j => (j, Next.seq)).foldl (fun s p => s.applyNext p.1 p.2)
      (e.tallyIssue (first :: rest))).fallThrough (first :: rest) (s.acting i (first :: rest))) :
    e.retires ((match s.cur with
      | .frag gid fid => X.split gid fid (t0.pc + 8)
      | _ => X).issued none (first :: rest)) (first :: rest) := by
  obtain ⟨ha, -, hnd, -, hstep, -⟩ := State.issues_agent hi
  have hsub := s.acting_sublist i (first :: rest)
  have hXt : ∀ k, X.thread? k = (e.thread? k).map fun t => if k ∈ first :: rest then t.stepPc else t := by
    intro k
    rw [hX, State.fallThrough, State.thread?_updThreads _ _ _ (by intro t; rfl),
      State.applySeq_thread? _ (hsub.nodup hnd), State.tallyIssue_thread?, Option.map_map]
    congr 1
    funext t
    simp only [Function.comp, List.mem_filter]
    by_cases h1 : k ∈ s.acting i (first :: rest)
    · have h2 := hsub.subset h1
      simp [h1, h2, Thread.stepPc]
    · by_cases h2 : k ∈ first :: rest
      · simp only [h1, if_false, h2, true_and, if_true]
        simp [h1, Thread.stepPc]
      · simp only [h1, h2, if_false, false_and]
  obtain ⟨T, hT⟩ : ∃ T, X = { e.tallyIssue (first :: rest) with threads := T } := by
    obtain ⟨T, hT⟩ := State.applySeq_eq (s.acting i (first :: rest)) (e.tallyIssue (first :: rest))
    exact ⟨_, by rw [hX, hT]; rfl⟩
  have hXg : X.groups = s.groups := by rw [hT]; simp [hk.1, State.landed_groups]
  -- no split
  have hns : (match s.cur with
      | .frag gid fid => X.split gid fid (t0.pc + 8)
      | _ => X) = X := by
    split
    · next gid fid hc =>
      apply State.split_same (p := t0.pc + 8)
      intro g f hg hf r hr
      have hg' : s.group? gid = some g := by rw [← hg]; simp only [State.group?, hXg]
      obtain ⟨j, t, hj, ht, hpc, hjm⟩ := State.inStep_pc hc ha hstep hg' hf h0 hr
      have hek := hk.2 j
      rw [State.landed_thread?, ht] at hek
      rw [hj, Option.bind_some, hXt j]
      cases h1 : e.thread? j with
      | none => rw [h1] at hek; simp at hek
      | some u =>
        rw [h1] at hek
        simp only [Option.map_some, hjm, if_true, Option.some.injEq] at hek
        simp only [Option.map_some, hjm, if_true, Option.getD_some, Thread.stepPc, hek, Thread.commitDue, hpc]
    · rfl
  rw [hns]
  have htick : X.tick = e.tick := by rw [hT]; simp
  refine ⟨?_, fun k => ?_⟩
  · rw [State.issued_eq, htick]
    show ({ X with threads := _, tick := e.tick + 1 } : State) = _
    rw [hT]
  · rw [State.issued_thread?, hXt k, Option.map_map, htick]
    congr 1
    funext t
    by_cases hm : k ∈ first :: rest
    · simp only [Function.comp, hm, if_true]; rfl
    · simp only [Function.comp, hm, if_false]

/-! ## The course -/

/-- An instruction that keeps its first thread counts as any other. -/
theorem State.tallyEnded_keeps {s m e : State} {i : Instr} {first : Nat} {rest : List Nat} {t0 : Thread}
    (h0 : s.thread? first = some t0) (hk : (s.landed i (first :: rest)).Keeps e) :
    e.tallyEnded m (first :: rest) = e.tallyIssue (first :: rest) := by
  have h := hk.2 first
  rw [State.landed_thread?, h0] at h
  cases hx : e.thread? first with
  | none => rw [hx] at h; cases h
  | some t => simp only [State.tallyEnded, List.head?_cons, Option.bind_some, hx]

/-- THE COURSE of an instruction that an agent may run, where its halves complete and none of its threads is to execute it
again: what is left is what comes next in each thread. -/
theorem runStaged_course {i : Instr} {h : Hdr} (hh : i.hdr? = some h) {s m e : State} {first : Nat} {rest : List Nat}
    {t0 : Thread} {stage : Nat → State → Except Stop State} {body : Body} {ns : List (Nat × Next)}
    (hi : s.issues i (first :: rest) = true) (h0 : s.thread? first = some t0)
    (hst : runStage stage (s.acting i (first :: rest)) (s.landed i (first :: rest)) = .ok m)
    (hrun : runBodies body (s.acting i (first :: rest)) m = .ok (e, ns)) (hr : (ns.any fun x => x.2.isRetry) = false) :
    runStaged i s stage body =
      if ns.any (·.2.isAwait) then
        .next (((((e.tallyIssue (first :: rest)).applyWhere Next.isAwait ns).parkRest (first :: rest)
          (tidsWhere Next.isAwait ns) true).issued none (first :: rest)).parkCheck (first :: rest))
      else
        let X := (ns.foldl (fun s p => s.applyNext p.1 p.2) (e.tallyEnded m (first :: rest))).fallThrough (first :: rest)
          (s.acting i (first :: rest))
        let Y := (match s.cur with
          | .frag gid fid => X.split gid fid (t0.pc + 8)
          | _ => X).issued none (first :: rest)
        .next (if ns.any (·.2 == .gone) then Y.parkCheck (first :: rest) else Y) := by
  obtain ⟨ha, -, hnd, hsk, hstep, hw⟩ := State.issues_agent hi
  have hact : (s.landed i (first :: rest)).activeTids h (first :: rest) = s.acting i (first :: rest) := by
    simp only [State.acting, hh]
  have hfall : (s.landed i (first :: rest)).thread? first = some (t0.commitDue (s.readsOf i (first :: rest) t0)) := by
    rw [State.landed_thread?, h0]; simp
  unfold runStaged
  rw [ha]
  simp only [hw, Bool.false_eq_true, if_false]
  rw [State.issues_agentStop hi]
  dsimp only
  rw [show (s.landDue i (first :: rest)).lookUps i (first :: rest) = s.landed i (first :: rest) from rfl]
  simp only [hh, hact, hst, hrun, hr, Bool.false_eq_true, if_false, hfall, hsk]
  rfl

/-- Where the first halves of the active threads lead to `m` and the second ones complete, the instruction completes. -/
theorem runStaged_does {i : Instr} {h : Hdr} (hh : i.hdr? = some h) {s m : State} {tids : List Nat}
    {stage : Nat → State → Except Stop State} {f : Thread → State → Option State} {body : Body}
    (hi : s.issues i tids = true) (hst : runStage stage (s.acting i tids) (s.landed i tids) = .ok m)
    (hm : (s.landed i tids).Keeps m)
    (hb : ∀ j t s1 s2, s1.thread? j = some t → f t s1 = some s2 → body j s1 = .ok (s2, .seq))
    (hp : ∀ t s1 s2, s1.thread? t.tid = some t → f t s1 = some s2 → s1.Keeps s2) {e : State}
    (he : m.each f (s.acting i tids) = some e) :
    ∃ s', runStaged i s stage body = .next s' ∧ e.retires s' tids := by
  obtain ⟨-, hne, -⟩ := State.issues_agent hi
  obtain ⟨first, rest, rfl⟩ : ∃ a l, tids = a :: l := by cases tids with
    | nil => exact absurd rfl hne
    | cons a l => exact ⟨a, l, rfl⟩
  obtain ⟨t0, h0, -⟩ := State.issues_thread hi (j := first) (by simp)
  rw [runStaged_course hh hi h0 hst (runBodies_each hb _ _ _ he) (by simp [Next.isRetry]),
    if_neg (by simp [Next.isAwait])]
  dsimp only
  rw [if_neg (by simp), State.tallyEnded_keeps h0 (hm.trans (State.each_keeps hp _ _ _ he))]
  exact ⟨_, rfl, State.retires_seq hi h0 (hm.trans (State.each_keeps hp _ _ _ he)) rfl⟩

theorem runThreads_does {i : Instr} {h : Hdr} (hh : i.hdr? = some h) {s : State} {tids : List Nat} {f : Thread → State → Option State} {body : Body}
    (hi : s.issues i tids = true)
    (hb : ∀ j t s1 s2, s1.thread? j = some t → f t s1 = some s2 → body j s1 = .ok (s2, .seq))
    (hp : ∀ t s1 s2, s1.thread? t.tid = some t → f t s1 = some s2 → s1.Keeps s2) {e : State}
    (he : (s.landed i tids).each f (s.acting i tids) = some e) :
    ∃ s', runThreads i s body = .next s' ∧ e.retires s' tids :=
  runStaged_does hh hi (runStage_ok _ _) (.refl _) hb hp he

theorem runStage_each {f : Thread → State → Option State} {stage : Nat → State → Except Stop State}
    (hb : ∀ j t s1 s2, s1.thread? j = some t → f t s1 = some s2 → stage j s1 = .ok s2) :
    ∀ (l : List Nat) (s e : State), s.each f l = some e → runStage stage l s = .ok e := by
  intro l
  induction l with
  | nil => intro s e h; simp only [State.each, Option.some.injEq] at h; subst h; rfl
  | cons j l ih =>
    intro s e h
    simp only [State.each] at h
    split at h
    · next s' hs =>
      obtain ⟨t, ht, hf⟩ := Option.bind_eq_some_iff.1 hs
      simp only [runStage, hb j t s s' ht hf, ih s' e h]
    · cases h

/-- An instruction that acts in two halves completes with both. -/
theorem doesInTwo_of {i : Instr} {h : Hdr} (hh : i.hdr? = some h) {f g : Thread → State → Option State}
    {stage : Nat → State → Except Stop State} {body : Body} (hx : ∀ s, exec i s = runStaged i s stage body)
    (hs : ∀ j t s1 s2, s1.thread? j = some t → f t s1 = some s2 → stage j s1 = .ok s2)
    (hb : ∀ j t s1 s2, s1.thread? j = some t → g t s1 = some s2 → body j s1 = .ok (s2, .seq))
    (hf : ∀ t s e, s.thread? t.tid = some t → f t s = some e → s.Keeps e)
    (hg : ∀ t s e, s.thread? t.tid = some t → g t s = some e → s.Keeps e) : DoesInTwo i f g := by
  intro s tids m e hi hm he
  rw [hx]
  exact runStaged_does hh hi (runStage_each hs _ _ _ hm) (State.each_keeps hf _ _ _ hm) hb hg he
/-! ## Control instructions -/

theorem runBodies_flow {f : Thread → State → Option (State × Dword)} {body : Body}
    (hb : ∀ j t s1 s2 pc, s1.thread? j = some t → f t s1 = some (s2, pc) → body j s1 = .ok (s2, .jump pc)) :
    ∀ (l : List Nat) (s e : State) (r : List (Nat × Dword)), s.eachFlow f l = some (e, r) →
      runBodies body l s = .ok (e, r.map fun p => (p.1, Next.jump p.2)) ∧ r.map (·.1) = l := by
  intro l
  induction l with
  | nil => intro s e r h; simp only [State.eachFlow, Option.some.injEq, Prod.mk.injEq] at h; obtain ⟨rfl, rfl⟩ := h; exact ⟨rfl, rfl⟩
  | cons j l ih =>
    intro s e r h
    simp only [State.eachFlow] at h
    split at h
    · next s' pc hs =>
      obtain ⟨t, ht, hf⟩ := Option.bind_eq_some_iff.1 hs
      obtain ⟨r', hr', h⟩ := Option.map_eq_some_iff.1 h
      obtain ⟨rfl, rfl⟩ := Prod.mk.inj h
      obtain ⟨h1, h2⟩ := ih s' r'.1 r'.2 hr'
      exact ⟨by simp only [runBodies, hb j t s s' pc ht hf, h1, List.map_cons], by simp [h2]⟩
    · cases h

theorem State.eachFlow_keeps {f : Thread → State → Option (State × Dword)}
    (hp : ∀ t s1 s2 pc, s1.thread? t.tid = some t → f t s1 = some (s2, pc) → s1.Keeps s2) :
    ∀ (l : List Nat) (s e : State) (r : List (Nat × Dword)), s.eachFlow f l = some (e, r) → s.Keeps e := by
  intro l
  induction l with
  | nil => intro s e r h; simp only [State.eachFlow, Option.some.injEq, Prod.mk.injEq] at h; obtain ⟨rfl, rfl⟩ := h; exact .refl _
  | cons j l ih =>
    intro s e r h
    simp only [State.eachFlow] at h
    split at h
    · next s' pc hs =>
      obtain ⟨t, ht, hf⟩ := Option.bind_eq_some_iff.1 hs
      obtain ⟨r', hr', h⟩ := Option.map_eq_some_iff.1 h
      obtain ⟨rfl, rfl⟩ := Prod.mk.inj h
      exact (hp t s s' pc (by rw [State.thread?_tid ht]; exact ht) hf).trans (ih s' r'.1 r'.2 hr')
    · cases h

theorem State.applyJump_eq (l : List (Nat × Dword)) (s : State) :
    ∃ T, (l.map fun p => (p.1, Next.jump p.2)).foldl (fun s p => s.applyNext p.1 p.2) s = { s with threads := T } := by
  induction l generalizing s with
  | nil => exact ⟨s.threads, rfl⟩
  | cons j l ih => exact ih (s.updThread j.1 fun t => { t with pc := j.2 })

theorem State.applyJump_thread? (l : List (Nat × Dword)) (hl : (l.map (·.1)).Nodup) (s : State) (k : Nat) :
    ((l.map fun p => (p.1, Next.jump p.2)).foldl (fun s p => s.applyNext p.1 p.2) s).thread? k
      = (s.thread? k).map fun t => { t with pc := (l.lookup k).getD t.pc } := by
  induction l generalizing s with
  | nil => simp
  | cons p l ih =>
    rw [List.map_cons, List.nodup_cons] at hl
    simp only [List.map_cons, List.foldl_cons]
    rw [ih hl.2, show s.applyNext p.1 (Next.jump p.2) = s.updThread p.1 fun t => { t with pc := p.2 } from rfl,
      State.thread?_updThread _ _ _ (by intro t _; rfl), Option.map_map]
    congr 1
    funext t
    obtain ⟨j, pc⟩ := p
    simp only [Function.comp, List.lookup]
    by_cases h : k = j
    · subst h
      have : l.lookup k = none := by
        rw [List.lookup_eq_none_iff]
        intro q hq
        exact bne_iff_ne.2 fun hb => hl.1 (List.mem_map.2 ⟨q, hq, hb.symm⟩)
      simp [this]
    · have : (k == j) = false := by simpa using h
      simp [h, this]
/-- The groups of a split depend on the groups and the PCs alone. -/
theorem State.split_groups (x y : State) (gid fid : Nat) (fall : Dword) (hg : x.groups = y.groups)
    (hpc : ∀ k, (x.thread? k).map (·.pc) = (y.thread? k).map (·.pc)) :
    (x.split gid fid fall).groups = (y.split gid fid fall).groups := by
  unfold State.split
  have hgr : x.group? gid = y.group? gid := by simp only [State.group?, hg]
  rw [hgr]
  cases y.group? gid with
  | none => exact hg
  | some g =>
    simp only []
    cases g.frag? fid with
    | none => exact hg
    | some fr =>
      simp only []
      have hp' : ∀ r : Nat, (((g.members[r]?).bind x.thread?).map (·.pc)).getD 0
          = (((g.members[r]?).bind y.thread?).map (·.pc)).getD 0 := by
        intro r
        cases g.members[r]? with
        | none => rfl
        | some k => simp only [Option.bind_some]; rw [hpc]
      simp only [hp']
      split
      · exact hg
      · exact hg
      · simp only [State.updGroup, hg]

/-- A split changes the groups alone. -/
theorem State.split_eq (x : State) (gid fid : Nat) (fall : Dword) :
    x.split gid fid fall = { x with groups := (x.split gid fid fall).groups } := by
  unfold State.split
  split
  · rfl
  · split
    · rfl
    · dsimp only; split <;> rfl

theorem lookup_none_of_not_mem {α : Type} {l : List (Nat × α)} {k : Nat} (h : k ∉ l.map (·.1)) : l.lookup k = none := by
  rw [List.lookup_eq_none_iff]
  intro q hq
  exact bne_iff_ne.2 fun hb => h (List.mem_map.2 ⟨q, hq, hb.symm⟩)

theorem lookup_some_of_mem {α : Type} {l : List (Nat × α)} {k : Nat} (h : k ∈ l.map (·.1)) : ∃ x, l.lookup k = some x := by
  cases hr : l.lookup k with
  | some x => exact ⟨x, rfl⟩
  | none =>
    obtain ⟨q, hq, hqk⟩ := List.mem_map.1 h
    exact absurd hqk.symm (bne_iff_ne.1 (List.lookup_eq_none_iff.1 hr q hq))

/-- A control instruction completes with its effects and its targets. -/
theorem runThreads_flows {i : Instr} {h : Hdr} (hh : i.hdr? = some h) {f : Thread → State → Option (State × Dword)} {body : Body}
    (hx : ∀ s, exec i s = runThreads i s body)
    (hb : ∀ j t s1 s2 pc, s1.thread? j = some t → f t s1 = some (s2, pc) → body j s1 = .ok (s2, .jump pc))
    (hp : ∀ t s1 s2 pc, s1.thread? t.tid = some t → f t s1 = some (s2, pc) → s1.Keeps s2) : Flows i f := by
  rintro s first rest t0 ⟨e, r⟩ hi ht0 he
  obtain ⟨-, -, hnd, -, -, -⟩ := State.issues_agent hi
  have hk : (s.landed i (first :: rest)).Keeps e := State.eachFlow_keeps hp _ _ _ _ he
  obtain ⟨hrun, hl⟩ := runBodies_flow hb _ _ _ _ he
  rw [hx, runThreads, runStaged_course hh hi ht0 (runStage_ok _ _) hrun (by simp [Next.isRetry]), if_neg (by simp [Next.isAwait])]
  dsimp only
  rw [if_neg (by simp), State.tallyEnded_keeps ht0 hk]
  generalize hX : State.fallThrough _ _ _ = X
  have hsub := s.acting_sublist i (first :: rest)
  have hndl : (r.map (·.1)).Nodup := by rw [hl]; exact hsub.nodup hnd
  have hXt : ∀ k, X.thread? k = (e.thread? k).map fun t =>
      if k ∈ first :: rest then { t with pc := (r.lookup k).getD (t.pc + 8) } else t := by
    intro k
    rw [← hX, State.fallThrough, State.thread?_updThreads _ _ _ (by intro t; rfl), State.applyJump_thread? _ hndl,
      State.tallyIssue_thread?, Option.map_map]
    congr 1
    funext t
    simp only [Function.comp, List.mem_filter]
    by_cases h1 : k ∈ s.acting i (first :: rest)
    · obtain ⟨pc, hpc⟩ := lookup_some_of_mem (show k ∈ r.map (·.1) by rw [hl]; exact h1)
      simp [h1, hsub.subset h1, hpc]
    · have h3 : r.lookup k = none := lookup_none_of_not_mem (by rw [hl]; exact h1)
      by_cases h2 : k ∈ first :: rest
      · simp only [h2, true_and, if_true, h3]; simp [h1]
      · simp only [h2, false_and, if_false, h3]; simp
  obtain ⟨T, hT⟩ : ∃ T, X = { e.tallyIssue (first :: rest) with threads := T } := by
    obtain ⟨T, hT⟩ := State.applyJump_eq r (e.tallyIssue (first :: rest))
    exact ⟨_, by rw [← hX, hT]; rfl⟩
  generalize hY : (match s.cur with
    | .frag gid fid => X.split gid fid (t0.pc + 8)
    | _ => X) = Y
  obtain ⟨G, hG⟩ : ∃ G, Y = { X with groups := G } := by
    rw [← hY]
    split
    · exact ⟨_, State.split_eq _ _ _ _⟩
    · exact ⟨X.groups, rfl⟩
  have htick : Y.tick = e.tick := by rw [hG, hT]; simp
  have hYt : ∀ k, Y.thread? k = X.thread? k := fun k => by rw [hG]; rfl
  have hfinal : ∀ k, (Y.issued none (first :: rest)).thread? k = (e.thread? k).map fun t => if k ∈ first :: rest then
      Thread.windowStep { t with pc := (r.lookup k).getD (t.pc + 8), age := e.tick } else t := by
    intro k
    rw [State.issued_thread?, hYt, hXt k, Option.map_map, htick]
    congr 1
    funext t
    by_cases hm : k ∈ first :: rest
    · simp only [Function.comp, hm, if_true]
    · simp only [Function.comp, hm, if_false]
  refine ⟨_, rfl, ?_, hfinal, ?_⟩
  · rw [State.issued_eq, htick, hG, hT]
  · show Y.groups = _
    have hXg : X.groups = e.groups := by rw [hT]; simp
    cases hc : s.cur with
    | frag gid fid =>
      rw [hc] at hY
      rw [show Y.groups = (X.split gid fid (t0.pc + 8)).groups by rw [← hY]]
      apply State.split_groups
      · exact hXg
      · intro k
        rw [show ({ e with threads := (Y.issued none (first :: rest)).threads } : State).thread? k
          = (Y.issued none (first :: rest)).thread? k from rfl, hfinal, hXt, Option.map_map, Option.map_map]
        congr 1
        funext t
        by_cases hm : k ∈ first :: rest
        · simp only [Function.comp, hm, if_true]; rfl
        · simp only [Function.comp, hm, if_false]
    | none => rw [hc] at hY; rw [← hY]; exact hXg
    | unit => rw [hc] at hY; rw [← hY]; exact hXg
    | thread j => rw [hc] at hY; rw [← hY]; exact hXg
    | queue j => rw [hc] at hY; rw [← hY]; exact hXg

/-! ## Instructions that may park -/

/-- What comes next for a thread with a status to wait in, or none. -/
def awaitNext (c : Option Status) : Next :=
  match c with
  | some c => .await c
  | none => .seq

/-- The threads that wait, each with its status. -/
def waiting (r : List (Nat × Option Status)) : List (Nat × Status) := r.filterMap fun p => p.2.map fun c => (p.1, c)

theorem runBodies_await {f : Thread → State → Option (State × Option Status)} {body : Body}
    (hb : ∀ j t s1 s2 c, s1.thread? j = some t → f t s1 = some (s2, c) → body j s1 = .ok (s2, awaitNext c)) :
    ∀ (l : List Nat) (s e : State) (r : List (Nat × Option Status)), s.eachAwait f l = some (e, r) →
      runBodies body l s = .ok (e, r.map fun p => (p.1, awaitNext p.2)) ∧ r.map (·.1) = l := by
  intro l
  induction l with
  | nil => intro s e r h; simp only [State.eachAwait, Option.some.injEq, Prod.mk.injEq] at h; obtain ⟨rfl, rfl⟩ := h; exact ⟨rfl, rfl⟩
  | cons j l ih =>
    intro s e r h
    simp only [State.eachAwait] at h
    split at h
    · next s' c hs =>
      obtain ⟨t, ht, hf⟩ := Option.bind_eq_some_iff.1 hs
      obtain ⟨r', hr', h⟩ := Option.map_eq_some_iff.1 h
      obtain ⟨rfl, rfl⟩ := Prod.mk.inj h
      obtain ⟨h1, h2⟩ := ih s' r'.1 r'.2 hr'
      exact ⟨by simp only [runBodies, hb j t s s' c ht hf, h1, List.map_cons], by simp [h2]⟩
    · cases h

theorem State.eachAwait_keeps {f : Thread → State → Option (State × Option Status)}
    (hp : ∀ t s1 s2 c, s1.thread? t.tid = some t → f t s1 = some (s2, c) → s1.Keeps s2) :
    ∀ (l : List Nat) (s e : State) (r : List (Nat × Option Status)), s.eachAwait f l = some (e, r) → s.Keeps e := by
  intro l
  induction l with
  | nil => intro s e r h; simp only [State.eachAwait, Option.some.injEq, Prod.mk.injEq] at h; obtain ⟨rfl, rfl⟩ := h; exact .refl _
  | cons j l ih =>
    intro s e r h
    simp only [State.eachAwait] at h
    split at h
    · next s' c hs =>
      obtain ⟨t, ht, hf⟩ := Option.bind_eq_some_iff.1 hs
      obtain ⟨r', hr', h⟩ := Option.map_eq_some_iff.1 h
      obtain ⟨rfl, rfl⟩ := Prod.mk.inj h
      exact (hp t s s' c (by rw [State.thread?_tid ht]; exact ht) hf).trans (ih s' r'.1 r'.2 hr')
    · cases h

theorem State.eachAwait_from {f : Thread → State → Option (State × Option Status)} :
    ∀ (l : List Nat) (s e : State) (r : List (Nat × Option Status)), s.eachAwait f l = some (e, r) →
      ∀ p ∈ r, ∃ t s1 s2, f t s1 = some (s2, p.2) := by
  intro l
  induction l with
  | nil => intro s e r h p hp; simp only [State.eachAwait, Option.some.injEq, Prod.mk.injEq] at h; rw [← h.2] at hp; cases hp
  | cons j l ih =>
    intro s e r h p hp
    simp only [State.eachAwait] at h
    split at h
    · next s' c hs =>
      obtain ⟨t, ht, hf⟩ := Option.bind_eq_some_iff.1 hs
      obtain ⟨r', hr', h⟩ := Option.map_eq_some_iff.1 h
      obtain ⟨rfl, rfl⟩ := Prod.mk.inj h
      rcases List.mem_cons.1 hp with rfl | hp
      · exact ⟨t, s, s', hf⟩
      · exact ih s' r'.1 r'.2 hr' p hp
    · cases h

theorem waiting_eq (r : List (Nat × Option Status)) :
    ((r.map fun p => (p.1, awaitNext p.2)).filter fun x => x.2.isAwait) = (waiting r).map fun p => (p.1, Next.await p.2) := by
  induction r with
  | nil => rfl
  | cons p r ih =>
    obtain ⟨j, c⟩ := p
    cases c with
    | none => simpa [waiting, awaitNext, Next.isAwait] using ih
    | some c => simpa [waiting, awaitNext, Next.isAwait] using ih

theorem waiting_sublist (r : List (Nat × Option Status)) : ((waiting r).map (·.1)).Sublist (r.map (·.1)) := by
  induction r with
  | nil => exact .slnil
  | cons p r ih =>
    obtain ⟨j, c⟩ := p
    cases c with
    | none => exact .cons _ ih
    | some c => exact .cons_cons _ ih

theorem waiting_lookup {r : List (Nat × Option Status)} (hr : (r.map (·.1)).Nodup) (k : Nat) :
    (waiting r).lookup k = (r.lookup k).bind id := by
  induction r with
  | nil => rfl
  | cons p r ih =>
    obtain ⟨j, c⟩ := p
    rw [List.map_cons, List.nodup_cons] at hr
    have hw := ih hr.2
    by_cases h : k = j
    · subst h
      cases c with
      | none =>
        rw [show waiting ((k, none) :: r) = waiting r from rfl, hw, lookup_none_of_not_mem hr.1]
        simp [List.lookup]
      | some c => rw [show waiting ((k, some c) :: r) = (k, c) :: waiting r from rfl]; simp [List.lookup]
    · have hb : (k == j) = false := by simpa using h
      cases c with
      | none => rw [show waiting ((j, none) :: r) = waiting r from rfl, hw]; simp [List.lookup, hb]
      | some c => rw [show waiting ((j, some c) :: r) = (j, c) :: waiting r from rfl]; simp [List.lookup, hb, hw]

theorem State.applyAwait_eq (l : List (Nat × Status)) (s : State) :
    ∃ T, (l.map fun p => (p.1, Next.await p.2)).foldl (fun s p => s.applyNext p.1 p.2) s = { s with threads := T } := by
  induction l generalizing s with
  | nil => exact ⟨s.threads, rfl⟩
  | cons j l ih => exact ih (s.updThread j.1 fun t => { t with status := j.2 })

theorem State.applyAwait_thread? (l : List (Nat × Status)) (hl : (l.map (·.1)).Nodup) (s : State) (k : Nat) :
    ((l.map fun p => (p.1, Next.await p.2)).foldl (fun s p => s.applyNext p.1 p.2) s).thread? k
      = (s.thread? k).map fun t => { t with status := (l.lookup k).getD t.status } := by
  induction l generalizing s with
  | nil => simp
  | cons p l ih =>
    rw [List.map_cons, List.nodup_cons] at hl
    simp only [List.map_cons, List.foldl_cons]
    rw [ih hl.2, show s.applyNext p.1 (Next.await p.2) = s.updThread p.1 fun t => { t with status := p.2 } from rfl,
      State.thread?_updThread _ _ _ (by intro t _; rfl), Option.map_map]
    congr 1
    funext t
    obtain ⟨j, c⟩ := p
    simp only [Function.comp, List.lookup]
    by_cases h : k = j
    · subst h
      simp [lookup_none_of_not_mem hl.1]
    · have : (k == j) = false := by simpa using h
      simp [h, this]

theorem lookup_of_mem {l : List (Nat × Option Status)} (hl : (l.map (·.1)).Nodup) {p : Nat × Option Status} (hp : p ∈ l) :
    l.lookup p.1 = some p.2 := by
  induction l with
  | nil => cases hp
  | cons q l ih =>
    rw [List.map_cons, List.nodup_cons] at hl
    rcases List.mem_cons.1 hp with rfl | hp
    · rw [List.lookup_cons, beq_self_eq_true]
    · have : (p.1 == q.1) = false := by
        rw [beq_eq_false_iff_ne]
        intro he
        exact hl.1 (List.mem_map.2 ⟨p, hp, he⟩)
      rw [List.lookup_cons, this]
      exact ih hl.2 hp

/-- An agent with a thread that has parked on anything but a future adopts nothing (R68). -/
theorem State.tryAdopt_none {s : State} {tids : List Nat} (h : ∃ j ∈ tids, ∃ t, s.thread? j = some t ∧
    ∀ va l, t.status ≠ .parked (.future va l)) : s.tryAdopt tids = none := by
  obtain ⟨j, hj, t, ht, hst⟩ := h
  have hw : s.waitersOn tids = none := by
    unfold State.waitersOn
    dsimp only
    split
    · next va rest hv =>
      have hmem : (none : Option Dword) ∈ some va :: rest := by
        rw [← hv]
        refine List.mem_map.2 ⟨t, List.mem_filterMap.2 ⟨j, hj, ht⟩, ?_⟩
        split
        · next va l he => exact absurd he (hst va l)
        · rfl
      rw [if_neg]
      intro hall
      rcases List.mem_cons.1 hmem with h | h
      · cases h
      · have := List.all_eq_true.1 hall _ h
        cases this
    · rfl
  unfold State.tryAdopt
  rw [hw]

/-- Where no adoption is under way, none ends. -/
theorem State.endAdoptions_none {s : State} (h : ∀ k ∈ s.tasks, k.adoptedBy = []) : s.endAdoptions = s := by
  unfold State.endAdoptions
  rw [show s.adopted = [] from List.flatMap_eq_nil_iff.2 fun d _ => List.filter_eq_nil_iff.2 (by intro k hk; simp [h k hk])]
  rfl
/-- An instruction that may park its threads issues with its effects, and its agent waits as one, or goes on. -/
theorem runThreads_awaits {i : Instr} {h : Hdr} (hh : i.hdr? = some h) {f : Thread → State → Option (State × Option Status)} {body : Body}
    (hx : ∀ s, exec i s = runThreads i s body)
    (hb : ∀ j t s1 s2 c, s1.thread? j = some t → f t s1 = some (s2, c) → body j s1 = .ok (s2, awaitNext c))
    (hp : ∀ t s1 s2 c, s1.thread? t.tid = some t → f t s1 = some (s2, c) → s1.Keeps s2)
    (hc : ∀ t s1 s2 va l, f t s1 ≠ some (s2, some (.parked (.future va l)))) : Awaits i f := by
  rintro s tids ⟨e, r⟩ hi he had
  obtain ⟨-, hne, hnd, -⟩ := State.issues_agent hi
  obtain ⟨first, rest, rfl⟩ : ∃ a l, tids = a :: l := by cases tids with
    | nil => exact absurd rfl hne
    | cons a l => exact ⟨a, l, rfl⟩
  obtain ⟨t0, ht0, -⟩ := State.issues_thread hi (j := first) (by simp)
  have hk : (s.landed i (first :: rest)).Keeps e := State.eachAwait_keeps hp _ _ _ _ he
  obtain ⟨hrun, hl⟩ := runBodies_await hb _ _ _ _ he
  have hsub := s.acting_sublist i (first :: rest)
  have hndl : (r.map (·.1)).Nodup := by rw [hl]; exact hsub.nodup hnd
  have hany : ((r.map fun p => (p.1, awaitNext p.2)).any fun x => x.2.isAwait) = r.any (·.2.isSome) := by
    rw [List.any_map]
    congr 1
    funext p
    obtain ⟨j, c⟩ := p
    cases c <;> rfl
  rw [hx, runThreads, runStaged_course hh hi ht0 (runStage_ok _ _) hrun (by
    simp only [List.any_map, List.any_eq_false, Function.comp]
    rintro ⟨j, c⟩ -
    cases c <;> simp [awaitNext, Next.isRetry]), hany]
  dsimp only
  by_cases hw : (r.any (·.2.isSome)) = true
  swap
  · -- none waits
    simp only [if_neg hw]
    have hns : (r.map fun p => (p.1, awaitNext p.2)) = (s.acting i (first :: rest)).map fun j => (j, Next.seq) := by
      rw [← hl, List.map_map]
      apply List.map_congr_left
      rintro ⟨j, c⟩ hj
      cases c with
      | none => rfl
      | some c => exact absurd (List.any_eq_true.2 ⟨(j, some c), hj, rfl⟩) hw
    rw [hns, if_neg (by simp)]
    exact ⟨_, rfl, State.retires_seq hi ht0 hk (by rw [State.tallyEnded_keeps ht0 hk])⟩
  simp only [if_pos hw]
  have hwl := waiting_eq r
  rw [State.applyWhere, tidsWhere, hwl, List.map_map,
    show ((fun x : Nat × Next => x.1) ∘ fun p : Nat × Status => (p.1, Next.await p.2)) = Prod.fst from rfl]
  generalize hX : State.parkRest _ _ _ _ = X
  have hndw : ((waiting r).map (·.1)).Nodup := (waiting_sublist r).nodup hndl
  have hXt : ∀ k, X.thread? k = (e.thread? k).map fun t =>
      if k ∈ first :: rest then { t with status := ((r.lookup k).bind id).getD (.parked (.unit true)) } else t := by
    intro k
    rw [← hX, State.parkRest, State.thread?_updThreads _ _ _ (by intro t; rfl), State.applyAwait_thread? _ hndw,
      State.tallyIssue_thread?, Option.map_map]
    congr 1
    funext t
    simp only [Function.comp, List.mem_filter, Bool.not_eq_true', List.contains_eq_mem, decide_eq_false_iff_not]
    rw [← waiting_lookup hndl]
    by_cases h1 : k ∈ (waiting r).map Prod.fst
    · obtain ⟨c, hc1⟩ := lookup_some_of_mem h1
      have h2 : k ∈ first :: rest := hsub.subset (hl ▸ (waiting_sublist r).subset h1)
      rw [if_neg (fun h => h.2 h1), if_pos h2, hc1]
      rfl
    · rw [lookup_none_of_not_mem h1]
      by_cases h2 : k ∈ first :: rest
      · rw [if_pos ⟨h2, h1⟩, if_pos h2]; rfl
      · rw [if_neg (fun h => h2 h.1), if_neg h2]; rfl
  obtain ⟨T, hT⟩ : ∃ T, X = { e.tallyIssue (first :: rest) with threads := T } := by
    obtain ⟨T, hT⟩ := State.applyAwait_eq (waiting r) (e.tallyIssue (first :: rest))
    exact ⟨_, by rw [← hX, hT]; rfl⟩
  have htick : X.tick = e.tick := by rw [hT]; simp
  have hfinal : ∀ k, (X.issued none (first :: rest)).thread? k = (e.thread? k).map fun t => if k ∈ first :: rest then
      Thread.windowStep { t with status := ((r.lookup k).bind id).getD (.parked (.unit true)), age := e.tick } else t := by
    intro k
    rw [State.issued_thread?, hXt k, Option.map_map, htick]
    congr 1
    funext t
    by_cases hm : k ∈ first :: rest
    · simp only [Function.comp, hm, if_true]
    · simp only [Function.comp, hm, if_false]
  have hpark : (X.issued none (first :: rest)).parkCheck (first :: rest) = X.issued none (first :: rest) := by
    obtain ⟨⟨j, c⟩, hp1, hp2⟩ := List.any_eq_true.1 hw
    obtain ⟨c, rfl⟩ := Option.isSome_iff_exists.1 hp2
    have hja : j ∈ s.acting i (first :: rest) := by rw [← hl]; exact List.mem_map.2 ⟨_, hp1, rfl⟩
    have hjm := hsub.subset hja
    obtain ⟨u, hu⟩ : ∃ u, e.thread? j = some u := by
      obtain ⟨t, ht, -⟩ := State.issues_thread hi hjm
      have hek := hk.2 j
      rw [State.landed_thread?, ht] at hek
      cases h1 : e.thread? j with
      | some u => exact ⟨u, rfl⟩
      | none => rw [h1] at hek; simp at hek
    obtain ⟨t1, s1, s2, hf1⟩ := State.eachAwait_from _ _ _ _ he _ hp1
    rw [State.parkCheck, State.tryAdopt_none]
    · apply State.endAdoptions_none
      intro k hk'
      apply had k
      rw [show (X.issued none (first :: rest)).tasks = X.tasks from rfl, hT, State.tallyIssue_eq] at hk'
      exact hk'
    · refine ⟨j, hjm, _, by rw [hfinal j, hu]; rfl, ?_⟩
      intro va l
      have hlook : r.lookup j = some (some c) := lookup_of_mem hndl hp1
      simp only [hjm, if_true, hlook, Option.bind_some, id]
      intro hst
      have : c = .parked (.future va l) := hst
      subst this
      exact hc t1 s1 s2 va l hf1
  rw [hpark]
  refine ⟨_, rfl, ?_, hfinal⟩
  rw [State.issued_eq, htick, hT]

/-! ## Instructions that act on the state -/

theorem does_of_body {i : Instr} {h : Hdr} (hh : i.hdr? = some h) {f : Thread → State → Option State} {body : Body}
    (hx : ∀ s, exec i s = runThreads i s body)
    (hb : ∀ j t s1 s2, s1.thread? j = some t → f t s1 = some s2 → body j s1 = .ok (s2, .seq))
    (hk : ∀ t s e, s.thread? t.tid = some t → f t s = some e → s.Keeps e) : Does i f := by
  intro s tids hi e he
  rw [hx]
  exact runThreads_does hh hi hb hk he

/-- An instruction that reads its thread and changes the state completes with its effect. -/
theorem does_of {i : Instr} {h : Hdr} (hh : i.hdr? = some h) {f : Thread → State → Option State}
    {g : Thread → State → Except Stop State} (hx : ∀ s, exec i s = runState i s g)
    (hg : ∀ t s e, f t s = some e → g t s = .ok e) (hk : ∀ t s e, s.thread? t.tid = some t → f t s = some e → s.Keeps e) :
    Does i f :=
  does_of_body hh hx (fun j t s1 s2 ht hf => by simp only [ht, hg t s1 s2 hf]) hk

/-- The same of an instruction that says what comes next. -/
theorem does_of_flow {i : Instr} {h : Hdr} (hh : i.hdr? = some h) {f : Thread → State → Option State}
    {g : Thread → State → Except Stop (State × Next)} (hx : ∀ s, exec i s = runFlow i s g)
    (hg : ∀ t s e, f t s = some e → g t s = .ok (e, .seq))
    (hk : ∀ t s e, s.thread? t.tid = some t → f t s = some e → s.Keeps e) : Does i f :=
  does_of_body hh hx (fun j t s1 s2 ht hf => by simp only [ht, hg t s1 s2 hf]) hk
/-! ## Collectives -/

theorem runOnce_does {i : Instr} {h : Hdr} (hh : i.hdr? = some h) {s : State} {tids : List Nat} {c : Coll} {e : State}
    {free : State → Except Stop State} {f : Coll → State → Except Stop (State × Bool)} (hi : s.issues i tids = true)
    (hc : s.coll i tids = some c) (ha : s.acting i tids ≠ []) (hf : f c (s.landed i tids) = .ok (e, false)) :
    ∃ s', runOnce i s free f = .next s' ∧ e.retires s' tids := by
  obtain ⟨hat, hne, -, hsk, -, hw⟩ := State.issues_agent hi
  obtain ⟨first, rest, rfl⟩ : ∃ a l, tids = a :: l := by cases tids with
    | nil => exact absurd rfl hne
    | cons a l => exact ⟨a, l, rfl⟩
  have hact : (s.landed i (first :: rest)).activeTids h (first :: rest) = s.acting i (first :: rest) := by
    simp only [State.acting, hh]
  unfold State.coll at hc
  split at hc
  · next gid fid hcur =>
    obtain ⟨g, hg, hc⟩ := Option.bind_eq_some_iff.1 hc
    obtain ⟨fr, hfr, hc⟩ := Option.map_eq_some_iff.1 hc
    have hg' : (s.landed i (first :: rest)).group? gid = some g := by
      rw [State.group?, State.landed_groups]; exact hg
    unfold runOnce
    rw [hat]
    simp only [hw, Bool.false_eq_true, if_false]
    rw [State.issues_agentStop hi]
    dsimp only
    rw [show (s.landDue i (first :: rest)).lookUps i (first :: rest) = s.landed i (first :: rest) from rfl]
    simp only [hh, hact]
    rw [if_neg (by simpa using ha), hsk, hcur]
    simp only [hg', Option.bind_some, hfr, Option.map_some]
    rw [hc, hf]
    simp only [Bool.false_eq_true, if_false]
    refine ⟨_, rfl, ?_, fun k => ?_⟩
    · rw [State.issued_eq, State.updThreads_tick, State.tallyIssue_tick]
      rfl
    · rw [State.issued_thread?, State.thread?_updThreads _ _ _ (by intro t; rfl), State.tallyIssue_thread?, Option.map_map,
        State.updThreads_tick, State.tallyIssue_tick]
      congr 1
      funext t
      by_cases hm : k ∈ first :: rest
      · simp only [Function.comp, hm, if_true]
      · simp only [Function.comp, hm, if_false]
  · cases hc

/-- A collective completes with its effect. -/
theorem runColl_collects {i : Instr} {h : Hdr} (hh : i.hdr? = some h) {g : Coll → State → Except Stop State}
    {f : Coll → State → Option State} (he : ∀ s, exec i s = runColl i s g)
    (hg : ∀ c s e, f c s = some e → g c s = .ok e) : Collects i f := by
  intro s tids c e hi hc ha hf
  rw [he]
  exact runOnce_does hh hi hc ha (by rw [hg c _ e hf]; rfl)

/-! ## Instructions that work on registers and predicates alone -/

/-- What a register instruction leaves of a thread: its number, place and PC. -/
def Thread.Stays (f : Thread → Thread) : Prop :=
  ∀ t, (f t).tid = t.tid ∧ (f t).place = t.place ∧ (f t).pc = t.pc

open Classical in
/-- The effect of a register instruction as one on the state, where `g` completes with `f`. -/
noncomputable def regEffect (g : Thread → Except Stop Thread) (f : Thread → Thread) (t : Thread) (s : State) : Option State :=
  if g t = .ok (f t) then some (s.updThread t.tid fun _ => f t) else none

theorem each_reg {g : Thread → Except Stop Thread} {f : Thread → Thread} (hf : Thread.Stays f) :
    ∀ (l : List Nat) (_ : l.Nodup) (s : State), (∀ j ∈ l, ∃ t, s.thread? j = some t ∧ g t = .ok (f t)) →
      ∃ T, s.each (regEffect g f) l = some { s with threads := T } ∧
        ∀ k, ({ s with threads := T } : State).thread? k = (s.thread? k).map fun t => if k ∈ l then f t else t := by
  intro l
  induction l with
  | nil => intro _ s _; exact ⟨s.threads, rfl, fun k => by simp [State.thread?]⟩
  | cons j l ih =>
    intro hl s hs
    rw [List.nodup_cons] at hl
    obtain ⟨t, ht, hg⟩ := hs j (by simp)
    have htid := State.thread?_tid ht
    have hsame : ∀ k, (s.updThread t.tid fun _ => f t).thread? k = (s.thread? k).map fun u => if k = j then f u else u := by
      intro k
      rw [State.thread?_updThread _ _ _ (by intro u hu; rw [(hf t).1, hu])]
      by_cases h : k = j
      · subst h; rw [ht]; simp [htid]
      · simp [h, htid]
    obtain ⟨T, hT, hk⟩ := ih hl.2 (s.updThread t.tid fun _ => f t) (by
      intro k hk
      obtain ⟨u, hu, hgu⟩ := hs k (by simp [hk])
      exact ⟨u, by rw [hsame, hu]; simp [show k ≠ j from fun h => hl.1 (h ▸ hk)], hgu⟩)
    refine ⟨T, ?_, fun k => ?_⟩
    · simp only [State.each, ht, Option.bind_some, regEffect, hg, if_true]
      exact hT
    · have := hk k
      rw [hsame] at this
      rw [show ({ s with threads := T } : State).thread? k = ({ s.updThread t.tid fun _ => f t with threads := T } : State).thread? k from rfl, this,
        Option.map_map]
      congr 1
      funext u
      by_cases h : k = j
      · subst h; simp [hl.1]
      · simp [h]

theorem keeps_regEffect {g : Thread → Except Stop Thread} {f : Thread → Thread} (hf : Thread.Stays f)
    (t : Thread) (s1 s2 : State) (h1 : s1.thread? t.tid = some t) (h : regEffect g f t s1 = some s2) : s1.Keeps s2 := by
  unfold regEffect at h
  split at h
  · cases h
    exact State.keeps_updThread s1 t.tid _ (fun u hu => by
      rw [h1] at hu; cases hu; exact (hf t).2.2) (fun u hu => by rw [(hf t).1, hu])
  · cases h

/-- A register instruction completes: it does `f` to each thread whose guards are true, and nothing else. -/
theorem runReg_maps {i : Instr} {h : Hdr} (hh : i.hdr? = some h) {s : State} {tids : List Nat}
    {g : Thread → Except Stop Thread} {f : Thread → Thread} (he : exec i s = runReg i s g) (hi : s.issues i tids = true)
    (hf : Thread.Stays f)
    (hg : ∀ j ∈ s.acting i tids, ∀ t, (s.landed i tids).thread? j = some t → g t = .ok (f t)) :
    s.maps i tids f := by
  have hnd : tids.Nodup := (State.issues_agent hi).2.2.1
  have hact : (s.acting i tids).Nodup := (s.acting_sublist i tids).nodup hnd
  obtain ⟨T, hT, hk⟩ := each_reg (g := g) hf (s.acting i tids) hact (s.landed i tids) (by
    intro j hj
    obtain ⟨t, ht, -⟩ := State.issues_thread hi ((s.acting_sublist i tids).subset hj)
    have h1 : (s.landed i tids).thread? j = some (if j ∈ tids then t.commitDue (s.readsOf i tids t) else t) := by
      rw [State.landed_thread?, ht]; rfl
    exact ⟨_, h1, hg j hj _ h1⟩)
  obtain ⟨s', hs', hr⟩ := runThreads_does (f := regEffect g f) (body := onThread g) hh hi (by
    intro j t s1 s2 h1 h2
    unfold regEffect at h2
    unfold onThread
    rw [h1]
    split at h2
    · next hgt =>
      cases h2
      simp only [hgt, State.thread?_tid h1]
    · cases h2) (keeps_regEffect hf) hT
  refine ⟨s', by rw [he]; exact hs', ?_⟩
  have hk' : ∀ k, ((s.landed i tids).updThreads (s.acting i tids) f).thread? k
      = ({ s.landed i tids with threads := T } : State).thread? k := by
    intro k
    rw [hk k, State.thread?_updThreads _ _ _ (fun t => (hf t).1)]
  have ht : (State.tallyIssue { s.landed i tids with threads := T } tids).cores
      = (((s.landed i tids).updThreads (s.acting i tids) f).tallyIssue tids).cores := by
    have hplace : (tids.head?.bind (State.thread? { s.landed i tids with threads := T })).bind (·.place.coreIdx?)
        = (tids.head?.bind (State.thread? ((s.landed i tids).updThreads (s.acting i tids) f))).bind (·.place.coreIdx?) := by
      cases tids with
      | nil => rfl
      | cons j l => simp only [List.head?_cons, Option.bind_some]; rw [← hk']
    unfold State.tallyIssue
    rw [hplace]
    cases (tids.head?.bind (State.thread? ((s.landed i tids).updThreads (s.acting i tids) f))).bind (·.place.coreIdx?) with
    | none => rfl
    | some k =>
      simp only [State.tallyCore]
      split <;> (split <;> first | rfl | contradiction)
  refine ⟨?_, fun k => ?_⟩
  · rw [State.tallyIssue_eq, ← ht]
    have h1 := hr.1
    rw [State.tallyIssue_eq] at h1
    exact h1
  · rw [hk']; exact hr.2 k

/-- `runReg_maps` where the effect completes in every thread. -/
theorem runReg_maps_all {i : Instr} {h : Hdr} (hh : i.hdr? = some h) {s : State} {tids : List Nat}
    {g : Thread → Except Stop Thread} {f : Thread → Thread} (he : exec i s = runReg i s g) (hi : s.issues i tids = true)
    (hf : Thread.Stays f) (hg : ∀ t, g t = .ok (f t)) : s.maps i tids f :=
  runReg_maps hh he hi hf fun _ _ t _ => hg t

end Sys2Proof.Machine
end

