-- ==== Sys2Proof/Laws/Memory.lean ====
section
/-! SUPPORT. The laws of sparse maps and of the memories built of them: a read after a write, and the canonical form kept. -/

namespace Sys2Proof.Machine

variable {α : Type} [DecidableEq α]

/-! ## Maps -/

theorem SMap.wfFrom_mono {d : α} {m : SMap α} {lo hi : Nat} (h : lo ≤ hi) (w : SMap.wfFrom d hi m) :
    SMap.wfFrom d lo m := by
  cases m with
  | nil => rfl
  | cons p t => simp only [SMap.wfFrom, Bool.and_eq_true, decide_eq_true_eq] at w ⊢; exact ⟨⟨by omega, w.1.2⟩, w.2⟩

theorem SMap.set_wfFrom {d : α} {m : SMap α} {lo i : Nat} (v : α) (hi : lo ≤ i) (w : SMap.wfFrom d lo m) :
    SMap.wfFrom d lo (SMap.set d m i v) := by
  induction m generalizing lo with
  | nil => simp only [SMap.set]; split <;> simp_all [SMap.wfFrom]
  | cons p t ih =>
    obtain ⟨k, x⟩ := p
    have w' := w
    simp only [SMap.wfFrom, Bool.and_eq_true, decide_eq_true_eq] at w
    simp only [SMap.set]
    split
    · split
      · exact w'
      · next h1 h2 =>
        simp only [SMap.wfFrom, Bool.and_eq_true, decide_eq_true_eq]
        exact ⟨⟨hi, h2⟩, ⟨by omega, w.1.2⟩, w.2⟩
    · split
      · next h1 h2 =>
        split
        · exact SMap.wfFrom_mono (by omega) w.2
        · next h3 => simp only [SMap.wfFrom, Bool.and_eq_true, decide_eq_true_eq]; exact ⟨⟨w.1.1, h3⟩, w.2⟩
      · simp only [SMap.wfFrom, Bool.and_eq_true, decide_eq_true_eq]
        exact ⟨w.1, ih (by omega) w.2⟩

/-- Storing keeps the canonical form. -/
theorem SMap.set_wf {d : α} {m : SMap α} (i : Nat) (v : α) (w : SMap.wf d m) : SMap.wf d (SMap.set d m i v) :=
  SMap.set_wfFrom v (Nat.zero_le i) w

/-- Changing a value keeps the canonical form. -/
theorem SMap.upd_wf {d : α} {m : SMap α} (i : Nat) (f : α → α) (w : SMap.wf d m) : SMap.wf d (SMap.upd d m i f) :=
  SMap.set_wf i _ w

theorem SMap.filter_wfFrom {d : α} {m : SMap α} (p : Nat × α → Bool) {lo : Nat} (w : SMap.wfFrom d lo m) :
    SMap.wfFrom d lo (List.filter p m) := by
  induction m generalizing lo with
  | nil => rfl
  | cons q t ih =>
    simp only [SMap.wfFrom, Bool.and_eq_true, decide_eq_true_eq] at w
    simp only [List.filter]
    split
    · simp only [SMap.wfFrom, Bool.and_eq_true, decide_eq_true_eq]; exact ⟨w.1, ih w.2⟩
    · exact SMap.wfFrom_mono (by omega) (ih w.2)

/-- Entries taken out keep the canonical form. -/
theorem SMap.filter_wf {d : α} {m : SMap α} (p : Nat × α → Bool) (w : SMap.wf d m) :
    SMap.wf d (List.filter p m : SMap α) := SMap.filter_wfFrom p w

/-- Below every key of a canonical map, a read gives the default. -/
theorem SMap.get_below {d : α} {m : SMap α} {lo i : Nat} (w : SMap.wfFrom d lo m) (h : i < lo) : SMap.get d m i = d := by
  cases m with
  | nil => rfl
  | cons p t =>
    simp only [SMap.wfFrom, Bool.and_eq_true, decide_eq_true_eq] at w
    simp only [SMap.get]
    rw [if_neg (by omega), if_pos (by omega)]

theorem SMap.get_setFrom {d : α} {m : SMap α} {lo : Nat} (i j : Nat) (v : α) (w : SMap.wfFrom d lo m) :
    SMap.get d (SMap.set d m i v) j = if j = i then v else SMap.get d m j := by
  induction m generalizing lo with
  | nil => simp only [SMap.set]; split <;> simp only [SMap.get] <;> split <;> simp_all
  | cons p t ih =>
    obtain ⟨k, x⟩ := p
    simp only [SMap.wfFrom, Bool.and_eq_true, decide_eq_true_eq] at w
    simp only [SMap.set]
    have hb := fun (h : j < k + 1) => SMap.get_below w.2 h
    rcases Nat.lt_trichotomy i k with h1 | h1 | h1
    · rw [if_pos h1]
      by_cases h2 : v = d
      · rw [if_pos h2]
        by_cases h3 : j = i
        · subst h3; simp only [SMap.get, if_true]; rw [if_neg (by omega), if_pos h1, h2]
        · rw [if_neg h3]
      · rw [if_neg h2]
        by_cases h3 : j = i
        · simp only [SMap.get, if_pos h3]
        · rw [if_neg h3]
          show (if j = i then v else if j < i then d else SMap.get d ((k, x) :: t) j) = _
          rw [if_neg h3]
          split
          · simp only [SMap.get]; rw [if_neg (by omega), if_pos (by omega)]
          · rfl
    · subst h1
      rw [if_neg (by omega), if_pos rfl]
      by_cases h2 : v = d
      · rw [if_pos h2]
        by_cases h3 : j = i
        · rw [if_pos h3, hb (by omega), h2]
        · rw [if_neg h3]; simp only [SMap.get, if_neg h3]
          split
          · exact hb (by omega)
          · rfl
      · rw [if_neg h2]
        by_cases h3 : j = i
        · simp only [SMap.get, if_pos h3]
        · simp only [SMap.get, if_neg h3]
    · rw [if_neg (by omega), if_neg (by omega)]
      simp only [SMap.get]
      by_cases h3 : j = k
      · rw [if_pos h3, if_pos h3, if_neg (by omega)]
      · rw [if_neg h3, if_neg h3]
        by_cases h4 : j < k
        · rw [if_pos h4, if_pos h4, if_neg (by omega)]
        · rw [if_neg h4, if_neg h4]; exact ih w.2

/-- A read after a write: the value written at its key, the value before at every other. -/
theorem SMap.get_set {d : α} {m : SMap α} (i j : Nat) (v : α) (w : SMap.wf d m) :
    SMap.get d (SMap.set d m i v) j = if j = i then v else SMap.get d m j := SMap.get_setFrom i j v w

/-! ## Bytes -/

/-- Bytes put into a memory keep its canonical form. -/
theorem putBytes_wf (l : List Byte) {m : SMap Byte} (k : Nat) (w : Memory.wf m) : Memory.wf (putBytes m k l) := by
  induction l generalizing m k with
  | nil => exact w
  | cons b t ih => exact ih (k + 1) (SMap.set_wf k b w)

/-- A byte read after bytes were put: the byte put there, or the byte before. -/
theorem get_putBytes (l : List Byte) {m : SMap Byte} (k a : Nat) (w : Memory.wf m) :
    SMap.get 0 (putBytes m k l) a = if k ≤ a ∧ a < k + l.length then l.getD (a - k) 0 else SMap.get 0 m a := by
  induction l generalizing m k with
  | nil => simp only [putBytes, List.length_nil]; rw [if_neg (by omega)]
  | cons b t ih =>
    rw [putBytes, ih (k + 1) (SMap.set_wf k b w)]
    by_cases h : a = k
    · subst h
      rw [if_neg (by omega), SMap.get_set _ _ _ w, if_pos rfl, if_pos (by simp)]
      simp
    · rw [SMap.get_set _ _ _ w, if_neg h]
      by_cases h2 : k + 1 ≤ a ∧ a < k + 1 + t.length
      · rw [if_pos h2, if_pos (by simp; omega)]
        obtain ⟨n, hn⟩ : ∃ n, a - k = n + 1 := ⟨a - k - 1, by omega⟩
        rw [hn, show a - (k + 1) = n by omega]
        rfl
      · rw [if_neg h2, if_neg (by simp; omega)]

/-! ## The memories of the state -/

/-- A store keeps the canonical form of the memories. -/
theorem State.putMem_inv {s : State} (k : Nat) (l : List Byte) (h : s.Inv) : (s.putMem k l).Inv :=
  ⟨putBytes_wf l k h.1, h.2⟩

/-- A scratchpad store keeps the canonical form of the memories. -/
theorem State.putScratch_inv {s : State} (k : Nat) (l : List Byte) (h : s.Inv) : (s.putScratch k l).Inv :=
  ⟨h.1, putBytes_wf l k h.2.1, h.2.2⟩

/-- The canonical form is a property of the memories alone. -/
theorem State.Inv.of_eq {s t : State} (h : s.Inv) (h1 : t.mem = s.mem) (h2 : t.scratch = s.scratch)
    (h3 : t.cells = s.cells) : t.Inv := by
  unfold State.Inv; rw [h1, h2, h3]; exact h

/-- A byte of memory after a store. -/
theorem State.byte_putMem {s : State} (k : Nat) (l : List Byte) (a : Nat) (w : Memory.wf s.mem) :
    (s.putMem k l).byte a = if k ≤ a ∧ a < k + l.length then l.getD (a - k) 0 else s.byte a := get_putBytes l k a w

end Sys2Proof.Machine
end

