-- ==== Sys2Proof/Laws/PerInstr.lean ====
section
/-! SUPPORT. A law of every instruction as syntax, one lemma for each: the words that it has. -/

namespace Sys2Proof.Laws.OneKindOfWord

/-- An instruction has the common header exactly where it has the fields of an instruction word; and no instruction has both an
instruction word and a queue-program word. -/
def Statement (i : Instr) : Prop :=
  (i.hdr?.isSome = true ↔ (rawOf i).isSome = true) ∧ ((encodeQp i).isSome = true → encode i = none)

theorem iadd : ∀ x0 x1 x2 x3 x4 x5, Statement (.iadd x0 x1 x2 x3 x4 x5) := fun _ _ _ _ _ _ => ⟨Iff.rfl, fun h => nomatch h⟩
theorem isub : ∀ x0 x1 x2 x3 x4 x5, Statement (.isub x0 x1 x2 x3 x4 x5) := fun _ _ _ _ _ _ => ⟨Iff.rfl, fun h => nomatch h⟩
theorem imul : ∀ x0 x1 x2 x3, Statement (.imul x0 x1 x2 x3) := fun _ _ _ _ => ⟨Iff.rfl, fun h => nomatch h⟩
theorem imulh : ∀ x0 x1 x2 x3 x4, Statement (.imulh x0 x1 x2 x3 x4) := fun _ _ _ _ _ => ⟨Iff.rfl, fun h => nomatch h⟩
theorem imad : ∀ x0 x1 x2 x3 x4, Statement (.imad x0 x1 x2 x3 x4) := fun _ _ _ _ _ => ⟨Iff.rfl, fun h => nomatch h⟩
theorem iadd64 : ∀ x0 x1 x2 x3 x4, Statement (.iadd64 x0 x1 x2 x3 x4) := fun _ _ _ _ _ => ⟨Iff.rfl, fun h => nomatch h⟩
theorem isub64 : ∀ x0 x1 x2 x3 x4, Statement (.isub64 x0 x1 x2 x3 x4) := fun _ _ _ _ _ => ⟨Iff.rfl, fun h => nomatch h⟩
theorem imin : ∀ x0 x1 x2 x3 x4, Statement (.imin x0 x1 x2 x3 x4) := fun _ _ _ _ _ => ⟨Iff.rfl, fun h => nomatch h⟩
theorem imax : ∀ x0 x1 x2 x3 x4, Statement (.imax x0 x1 x2 x3 x4) := fun _ _ _ _ _ => ⟨Iff.rfl, fun h => nomatch h⟩
theorem iabs : ∀ x0 x1 x2 x3, Statement (.iabs x0 x1 x2 x3) := fun _ _ _ _ => ⟨Iff.rfl, fun h => nomatch h⟩
theorem iaddImm : ∀ x0 x1 x2 x3, Statement (.iaddImm x0 x1 x2 x3) := fun _ _ _ _ => ⟨Iff.rfl, fun h => nomatch h⟩
theorem andImm : ∀ x0 x1 x2 x3, Statement (.andImm x0 x1 x2 x3) := fun _ _ _ _ => ⟨Iff.rfl, fun h => nomatch h⟩
theorem orImm : ∀ x0 x1 x2 x3, Statement (.orImm x0 x1 x2 x3) := fun _ _ _ _ => ⟨Iff.rfl, fun h => nomatch h⟩
theorem xorImm : ∀ x0 x1 x2 x3, Statement (.xorImm x0 x1 x2 x3) := fun _ _ _ _ => ⟨Iff.rfl, fun h => nomatch h⟩
theorem and : ∀ x0 x1 x2 x3, Statement (.and x0 x1 x2 x3) := fun _ _ _ _ => ⟨Iff.rfl, fun h => nomatch h⟩
theorem or : ∀ x0 x1 x2 x3, Statement (.or x0 x1 x2 x3) := fun _ _ _ _ => ⟨Iff.rfl, fun h => nomatch h⟩
theorem xor : ∀ x0 x1 x2 x3, Statement (.xor x0 x1 x2 x3) := fun _ _ _ _ => ⟨Iff.rfl, fun h => nomatch h⟩
theorem andn : ∀ x0 x1 x2 x3, Statement (.andn x0 x1 x2 x3) := fun _ _ _ _ => ⟨Iff.rfl, fun h => nomatch h⟩
theorem shl : ∀ x0 x1 x2 x3, Statement (.shl x0 x1 x2 x3) := fun _ _ _ _ => ⟨Iff.rfl, fun h => nomatch h⟩
theorem shr : ∀ x0 x1 x2 x3, Statement (.shr x0 x1 x2 x3) := fun _ _ _ _ => ⟨Iff.rfl, fun h => nomatch h⟩
theorem sar : ∀ x0 x1 x2 x3, Statement (.sar x0 x1 x2 x3) := fun _ _ _ _ => ⟨Iff.rfl, fun h => nomatch h⟩
theorem rot : ∀ x0 x1 x2 x3, Statement (.rot x0 x1 x2 x3) := fun _ _ _ _ => ⟨Iff.rfl, fun h => nomatch h⟩
theorem shlImm : ∀ x0 x1 x2 x3, Statement (.shlImm x0 x1 x2 x3) := fun _ _ _ _ => ⟨Iff.rfl, fun h => nomatch h⟩
theorem shrImm : ∀ x0 x1 x2 x3, Statement (.shrImm x0 x1 x2 x3) := fun _ _ _ _ => ⟨Iff.rfl, fun h => nomatch h⟩
theorem sarImm : ∀ x0 x1 x2 x3, Statement (.sarImm x0 x1 x2 x3) := fun _ _ _ _ => ⟨Iff.rfl, fun h => nomatch h⟩
theorem rotImm : ∀ x0 x1 x2 x3, Statement (.rotImm x0 x1 x2 x3) := fun _ _ _ _ => ⟨Iff.rfl, fun h => nomatch h⟩
theorem shl64 : ∀ x0 x1 x2 x3, Statement (.shl64 x0 x1 x2 x3) := fun _ _ _ _ => ⟨Iff.rfl, fun h => nomatch h⟩
theorem shr64 : ∀ x0 x1 x2 x3 x4, Statement (.shr64 x0 x1 x2 x3 x4) := fun _ _ _ _ _ => ⟨Iff.rfl, fun h => nomatch h⟩
theorem popc : ∀ x0 x1 x2, Statement (.popc x0 x1 x2) := fun _ _ _ => ⟨Iff.rfl, fun h => nomatch h⟩
theorem clz : ∀ x0 x1 x2, Statement (.clz x0 x1 x2) := fun _ _ _ => ⟨Iff.rfl, fun h => nomatch h⟩
theorem ctz : ∀ x0 x1 x2, Statement (.ctz x0 x1 x2) := fun _ _ _ => ⟨Iff.rfl, fun h => nomatch h⟩
theorem brev : ∀ x0 x1 x2, Statement (.brev x0 x1 x2) := fun _ _ _ => ⟨Iff.rfl, fun h => nomatch h⟩
theorem bfe : ∀ x0 x1 x2 x3 x4, Statement (.bfe x0 x1 x2 x3 x4) := fun _ _ _ _ _ => ⟨Iff.rfl, fun h => nomatch h⟩
theorem bfi : ∀ x0 x1 x2 x3 x4, Statement (.bfi x0 x1 x2 x3 x4) := fun _ _ _ _ _ => ⟨Iff.rfl, fun h => nomatch h⟩
theorem perm : ∀ x0 x1 x2 x3 x4, Statement (.perm x0 x1 x2 x3 x4) := fun _ _ _ _ _ => ⟨Iff.rfl, fun h => nomatch h⟩
theorem sel : ∀ x0 x1 x2 x3 x4 x5, Statement (.sel x0 x1 x2 x3 x4 x5) := fun _ _ _ _ _ _ => ⟨Iff.rfl, fun h => nomatch h⟩
theorem mov : ∀ x0 x1 x2 x3, Statement (.mov x0 x1 x2 x3) := fun _ _ _ _ => ⟨Iff.rfl, fun h => nomatch h⟩
theorem movi : ∀ x0 x1 x2, Statement (.movi x0 x1 x2) := fun _ _ _ => ⟨Iff.rfl, fun h => nomatch h⟩
theorem movhi : ∀ x0 x1 x2, Statement (.movhi x0 x1 x2) := fun _ _ _ => ⟨Iff.rfl, fun h => nomatch h⟩
theorem lea : ∀ x0 x1 x2 x3 x4 x5, Statement (.lea x0 x1 x2 x3 x4 x5) := fun _ _ _ _ _ _ => ⟨Iff.rfl, fun h => nomatch h⟩
theorem naddr : ∀ x0 x1 x2 x3 x4 x5, Statement (.naddr x0 x1 x2 x3 x4 x5) := fun _ _ _ _ _ _ => ⟨Iff.rfl, fun h => nomatch h⟩
theorem icmp : ∀ x0 x1 x2 x3 x4, Statement (.icmp x0 x1 x2 x3 x4) := fun _ _ _ _ _ => ⟨Iff.rfl, fun h => nomatch h⟩
theorem icmp64 : ∀ x0 x1 x2 x3 x4, Statement (.icmp64 x0 x1 x2 x3 x4) := fun _ _ _ _ _ => ⟨Iff.rfl, fun h => nomatch h⟩
theorem pset : ∀ x0 x1 x2 x3 x4 x5 x6, Statement (.pset x0 x1 x2 x3 x4 x5 x6) := fun _ _ _ _ _ _ _ => ⟨Iff.rfl, fun h => nomatch h⟩
theorem pmovGet : ∀ x0 x1, Statement (.pmovGet x0 x1) := fun _ _ => ⟨Iff.rfl, fun h => nomatch h⟩
theorem pmovPut : ∀ x0 x1 x2, Statement (.pmovPut x0 x1 x2) := fun _ _ _ => ⟨Iff.rfl, fun h => nomatch h⟩
theorem cvt : ∀ x0 x1 x2 x3 x4 x5 x6 x7, Statement (.cvt x0 x1 x2 x3 x4 x5 x6 x7) := fun _ _ _ _ _ _ _ _ => ⟨Iff.rfl, fun h => nomatch h⟩
theorem pack : ∀ x0 x1 x2 x3 x4 x5 x6 x7 x8, Statement (.pack x0 x1 x2 x3 x4 x5 x6 x7 x8) := fun _ _ _ _ _ _ _ _ _ => ⟨Iff.rfl, fun h => nomatch h⟩
theorem unpack : ∀ x0 x1 x2 x3 x4 x5 x6 x7 x8, Statement (.unpack x0 x1 x2 x3 x4 x5 x6 x7 x8) := fun _ _ _ _ _ _ _ _ _ => ⟨Iff.rfl, fun h => nomatch h⟩
theorem qscale : ∀ x0 x1 x2 x3, Statement (.qscale x0 x1 x2 x3) := fun _ _ _ _ => ⟨Iff.rfl, fun h => nomatch h⟩
theorem fmtset : ∀ x0 x1 x2 x3, Statement (.fmtset x0 x1 x2 x3) := fun _ _ _ _ => ⟨Iff.rfl, fun h => nomatch h⟩
theorem fmtget : ∀ x0 x1 x2, Statement (.fmtget x0 x1 x2) := fun _ _ _ => ⟨Iff.rfl, fun h => nomatch h⟩
theorem nop : ∀ x0, Statement (.nop x0) := fun _ => ⟨Iff.rfl, fun h => nomatch h⟩
theorem bra : ∀ x0 x1, Statement (.bra x0 x1) := fun _ _ => ⟨Iff.rfl, fun h => nomatch h⟩
theorem brx : ∀ x0 x1, Statement (.brx x0 x1) := fun _ _ => ⟨Iff.rfl, fun h => nomatch h⟩
theorem call : ∀ x0 x1, Statement (.call x0 x1) := fun _ _ => ⟨Iff.rfl, fun h => nomatch h⟩
theorem callx : ∀ x0 x1, Statement (.callx x0 x1) := fun _ _ => ⟨Iff.rfl, fun h => nomatch h⟩
theorem ret : ∀ x0, Statement (.ret x0) := fun _ => ⟨Iff.rfl, fun h => nomatch h⟩
theorem exit : ∀ x0, Statement (.exit x0) := fun _ => ⟨Iff.rfl, fun h => nomatch h⟩
theorem mset : ∀ x0 x1, Statement (.mset x0 x1) := fun _ _ => ⟨Iff.rfl, fun h => nomatch h⟩
theorem meet : ∀ x0, Statement (.meet x0) := fun _ => ⟨Iff.rfl, fun h => nomatch h⟩
theorem yield : ∀ x0, Statement (.yield x0) := fun _ => ⟨Iff.rfl, fun h => nomatch h⟩
theorem fadd : ∀ x0 x1 x2 x3 x4 x5, Statement (.fadd x0 x1 x2 x3 x4 x5) := fun _ _ _ _ _ _ => ⟨Iff.rfl, fun h => nomatch h⟩
theorem fmul : ∀ x0 x1 x2 x3 x4 x5, Statement (.fmul x0 x1 x2 x3 x4 x5) := fun _ _ _ _ _ _ => ⟨Iff.rfl, fun h => nomatch h⟩
theorem ffma : ∀ x0 x1 x2 x3 x4 x5 x6, Statement (.ffma x0 x1 x2 x3 x4 x5 x6) := fun _ _ _ _ _ _ _ => ⟨Iff.rfl, fun h => nomatch h⟩
theorem fmin : ∀ x0 x1 x2 x3 x4, Statement (.fmin x0 x1 x2 x3 x4) := fun _ _ _ _ _ => ⟨Iff.rfl, fun h => nomatch h⟩
theorem fmax : ∀ x0 x1 x2 x3 x4, Statement (.fmax x0 x1 x2 x3 x4) := fun _ _ _ _ _ => ⟨Iff.rfl, fun h => nomatch h⟩
theorem fcmp : ∀ x0 x1 x2 x3 x4, Statement (.fcmp x0 x1 x2 x3 x4) := fun _ _ _ _ _ => ⟨Iff.rfl, fun h => nomatch h⟩
theorem fadd64 : ∀ x0 x1 x2 x3 x4, Statement (.fadd64 x0 x1 x2 x3 x4) := fun _ _ _ _ _ => ⟨Iff.rfl, fun h => nomatch h⟩
theorem fmul64 : ∀ x0 x1 x2 x3 x4, Statement (.fmul64 x0 x1 x2 x3 x4) := fun _ _ _ _ _ => ⟨Iff.rfl, fun h => nomatch h⟩
theorem ffma64 : ∀ x0 x1 x2 x3 x4 x5, Statement (.ffma64 x0 x1 x2 x3 x4 x5) := fun _ _ _ _ _ _ => ⟨Iff.rfl, fun h => nomatch h⟩
theorem fmin64 : ∀ x0 x1 x2 x3, Statement (.fmin64 x0 x1 x2 x3) := fun _ _ _ _ => ⟨Iff.rfl, fun h => nomatch h⟩
theorem fmax64 : ∀ x0 x1 x2 x3, Statement (.fmax64 x0 x1 x2 x3) := fun _ _ _ _ => ⟨Iff.rfl, fun h => nomatch h⟩
theorem fcmp64 : ∀ x0 x1 x2 x3 x4, Statement (.fcmp64 x0 x1 x2 x3 x4) := fun _ _ _ _ _ => ⟨Iff.rfl, fun h => nomatch h⟩
theorem hadd2 : ∀ x0 x1 x2 x3 x4 x5, Statement (.hadd2 x0 x1 x2 x3 x4 x5) := fun _ _ _ _ _ _ => ⟨Iff.rfl, fun h => nomatch h⟩
theorem hmul2 : ∀ x0 x1 x2 x3 x4 x5, Statement (.hmul2 x0 x1 x2 x3 x4 x5) := fun _ _ _ _ _ _ => ⟨Iff.rfl, fun h => nomatch h⟩
theorem hfma2 : ∀ x0 x1 x2 x3 x4 x5 x6, Statement (.hfma2 x0 x1 x2 x3 x4 x5 x6) := fun _ _ _ _ _ _ _ => ⟨Iff.rfl, fun h => nomatch h⟩
theorem dot4 : ∀ x0 x1 x2 x3 x4 x5 x6, Statement (.dot4 x0 x1 x2 x3 x4 x5 x6) := fun _ _ _ _ _ _ _ => ⟨Iff.rfl, fun h => nomatch h⟩
theorem dot8 : ∀ x0 x1 x2 x3 x4 x5 x6, Statement (.dot8 x0 x1 x2 x3 x4 x5 x6) := fun _ _ _ _ _ _ _ => ⟨Iff.rfl, fun h => nomatch h⟩
theorem frcp : ∀ x0 x1 x2, Statement (.frcp x0 x1 x2) := fun _ _ _ => ⟨Iff.rfl, fun h => nomatch h⟩
theorem frsq : ∀ x0 x1 x2, Statement (.frsq x0 x1 x2) := fun _ _ _ => ⟨Iff.rfl, fun h => nomatch h⟩
theorem fsqrt : ∀ x0 x1 x2 x3, Statement (.fsqrt x0 x1 x2 x3) := fun _ _ _ _ => ⟨Iff.rfl, fun h => nomatch h⟩
theorem fexp2 : ∀ x0 x1 x2, Statement (.fexp2 x0 x1 x2) := fun _ _ _ => ⟨Iff.rfl, fun h => nomatch h⟩
theorem flog2 : ∀ x0 x1 x2, Statement (.flog2 x0 x1 x2) := fun _ _ _ => ⟨Iff.rfl, fun h => nomatch h⟩
theorem fsin : ∀ x0 x1 x2, Statement (.fsin x0 x1 x2) := fun _ _ _ => ⟨Iff.rfl, fun h => nomatch h⟩
theorem fcos : ∀ x0 x1 x2, Statement (.fcos x0 x1 x2) := fun _ _ _ => ⟨Iff.rfl, fun h => nomatch h⟩
theorem ftanh : ∀ x0 x1 x2, Statement (.ftanh x0 x1 x2) := fun _ _ _ => ⟨Iff.rfl, fun h => nomatch h⟩
theorem longLatencyResult : ∀ x0 x1, Statement (.longLatencyResult x0 x1) := fun _ _ => ⟨Iff.rfl, fun _ => rfl⟩
theorem bind : ∀ x0 x1 x2, Statement (.bind x0 x1 x2) := fun _ _ _ => ⟨Iff.rfl, fun h => nomatch h⟩
theorem unbind : ∀ x0, Statement (.unbind x0) := fun _ => ⟨Iff.rfl, fun h => nomatch h⟩
theorem part : ∀ x0 x1, Statement (.part x0 x1) := fun _ _ => ⟨Iff.rfl, fun h => nomatch h⟩
theorem vote : ∀ x0 x1 x2 x3 x4 x5, Statement (.vote x0 x1 x2 x3 x4 x5) := fun _ _ _ _ _ _ => ⟨Iff.rfl, fun h => nomatch h⟩
theorem shfl : ∀ x0 x1 x2 x3 x4 x5, Statement (.shfl x0 x1 x2 x3 x4 x5) := fun _ _ _ _ _ _ => ⟨Iff.rfl, fun h => nomatch h⟩
theorem gshfl : ∀ x0 x1 x2 x3, Statement (.gshfl x0 x1 x2 x3) := fun _ _ _ _ => ⟨Iff.rfl, fun h => nomatch h⟩
theorem sbcast : ∀ x0 x1 x2 x3 x4, Statement (.sbcast x0 x1 x2 x3 x4) := fun _ _ _ _ _ => ⟨Iff.rfl, fun h => nomatch h⟩
theorem smovRead : ∀ x0 x1 x2, Statement (.smovRead x0 x1 x2) := fun _ _ _ => ⟨Iff.rfl, fun h => nomatch h⟩
theorem smovWrite : ∀ x0 x1 x2 x3, Statement (.smovWrite x0 x1 x2 x3) := fun _ _ _ _ => ⟨Iff.rfl, fun h => nomatch h⟩
theorem reduce : ∀ x0 x1 x2 x3, Statement (.reduce x0 x1 x2 x3) := fun _ _ _ _ => ⟨Iff.rfl, fun h => nomatch h⟩
theorem scan : ∀ x0 x1 x2 x3 x4, Statement (.scan x0 x1 x2 x3 x4) := fun _ _ _ _ _ => ⟨Iff.rfl, fun h => nomatch h⟩
theorem gbar : ∀ x0, Statement (.gbar x0) := fun _ => ⟨Iff.rfl, fun h => nomatch h⟩
theorem gfence : ∀ x0 x1, Statement (.gfence x0 x1) := fun _ _ => ⟨Iff.rfl, fun h => nomatch h⟩
theorem ld : ∀ x0 x1 x2 x3 x4 x5 x6, Statement (.ld x0 x1 x2 x3 x4 x5 x6) := fun _ _ _ _ _ _ _ => ⟨Iff.rfl, fun h => nomatch h⟩
theorem st : ∀ x0 x1 x2 x3 x4 x5 x6, Statement (.st x0 x1 x2 x3 x4 x5 x6) := fun _ _ _ _ _ _ _ => ⟨Iff.rfl, fun h => nomatch h⟩
theorem lds : ∀ x0 x1 x2 x3 x4 x5 x6, Statement (.lds x0 x1 x2 x3 x4 x5 x6) := fun _ _ _ _ _ _ _ => ⟨Iff.rfl, fun h => nomatch h⟩
theorem sts : ∀ x0 x1 x2 x3 x4 x5 x6, Statement (.sts x0 x1 x2 x3 x4 x5 x6) := fun _ _ _ _ _ _ _ => ⟨Iff.rfl, fun h => nomatch h⟩
theorem ldl : ∀ x0 x1 x2 x3 x4 x5 x6, Statement (.ldl x0 x1 x2 x3 x4 x5 x6) := fun _ _ _ _ _ _ _ => ⟨Iff.rfl, fun h => nomatch h⟩
theorem stl : ∀ x0 x1 x2 x3 x4 x5 x6, Statement (.stl x0 x1 x2 x3 x4 x5 x6) := fun _ _ _ _ _ _ _ => ⟨Iff.rfl, fun h => nomatch h⟩
theorem lda : ∀ x0 x1 x2 x3 x4 x5, Statement (.lda x0 x1 x2 x3 x4 x5) := fun _ _ _ _ _ _ => ⟨Iff.rfl, fun h => nomatch h⟩
theorem ldaLand : ∀ x0, Statement (.ldaLand x0) := fun _ => ⟨Iff.rfl, fun _ => rfl⟩
theorem wtag : ∀ x0 x1 x2, Statement (.wtag x0 x1 x2) := fun _ _ _ => ⟨Iff.rfl, fun h => nomatch h⟩
theorem atom : ∀ x0 x1 x2 x3 x4 x5 x6 x7, Statement (.atom x0 x1 x2 x3 x4 x5 x6 x7) := fun _ _ _ _ _ _ _ _ => ⟨Iff.rfl, fun h => nomatch h⟩
theorem red : ∀ x0 x1 x2 x3 x4 x5 x6, Statement (.red x0 x1 x2 x3 x4 x5 x6) := fun _ _ _ _ _ _ _ => ⟨Iff.rfl, fun h => nomatch h⟩
theorem atomScratchpad : ∀ x0 x1 x2 x3 x4 x5 x6 x7, Statement (.atomScratchpad x0 x1 x2 x3 x4 x5 x6 x7) := fun _ _ _ _ _ _ _ _ => ⟨Iff.rfl, fun h => nomatch h⟩
theorem redScratchpad : ∀ x0 x1 x2 x3 x4 x5 x6, Statement (.redScratchpad x0 x1 x2 x3 x4 x5 x6) := fun _ _ _ _ _ _ _ => ⟨Iff.rfl, fun h => nomatch h⟩
theorem fence : ∀ x0 x1 x2, Statement (.fence x0 x1 x2) := fun _ _ _ => ⟨Iff.rfl, fun h => nomatch h⟩
theorem pref : ∀ x0 x1 x2 x3, Statement (.pref x0 x1 x2 x3) := fun _ _ _ _ => ⟨Iff.rfl, fun h => nomatch h⟩
theorem cwb : ∀ x0 x1 x2 x3, Statement (.cwb x0 x1 x2 x3) := fun _ _ _ _ => ⟨Iff.rfl, fun h => nomatch h⟩
theorem cinv : ∀ x0 x1 x2 x3, Statement (.cinv x0 x1 x2 x3) := fun _ _ _ _ => ⟨Iff.rfl, fun h => nomatch h⟩
theorem spawn : ∀ x0 x1 x2 x3 x4 x5, Statement (.spawn x0 x1 x2 x3 x4 x5) := fun _ _ _ _ _ _ => ⟨Iff.rfl, fun h => nomatch h⟩
theorem wait : ∀ x0 x1 x2 x3 x4 x5, Statement (.wait x0 x1 x2 x3 x4 x5) := fun _ _ _ _ _ _ => ⟨Iff.rfl, fun h => nomatch h⟩
theorem fset : ∀ x0 x1 x2 x3 x4 x5, Statement (.fset x0 x1 x2 x3 x4 x5) := fun _ _ _ _ _ _ => ⟨Iff.rfl, fun h => nomatch h⟩
theorem fsetFault : ∀ x0 x1 x2 x3 x4 x5, Statement (.fsetFault x0 x1 x2 x3 x4 x5) := fun _ _ _ _ _ _ => ⟨Iff.rfl, fun h => nomatch h⟩
theorem fsetCancel : ∀ x0 x1 x2 x3 x4 x5, Statement (.fsetCancel x0 x1 x2 x3 x4 x5) := fun _ _ _ _ _ _ => ⟨Iff.rfl, fun h => nomatch h⟩
theorem fnew : ∀ x0 x1 x2, Statement (.fnew x0 x1 x2) := fun _ _ _ => ⟨Iff.rfl, fun h => nomatch h⟩
theorem join : ∀ x0 x1, Statement (.join x0 x1) := fun _ _ => ⟨Iff.rfl, fun h => nomatch h⟩
theorem leave : ∀ x0 x1, Statement (.leave x0 x1) := fun _ _ => ⟨Iff.rfl, fun h => nomatch h⟩
theorem bar : ∀ x0 x1, Statement (.bar x0 x1) := fun _ _ => ⟨Iff.rfl, fun h => nomatch h⟩
theorem fsetBit : ∀ x0 x1 x2, Statement (.fsetBit x0 x1 x2) := fun _ _ _ => ⟨Iff.rfl, fun h => nomatch h⟩
theorem waitBit : ∀ x0 x1 x2, Statement (.waitBit x0 x1 x2) := fun _ _ _ => ⟨Iff.rfl, fun h => nomatch h⟩
theorem shipW : ∀ x0 x1 x2 x3 x4 x5 x6, Statement (.shipW x0 x1 x2 x3 x4 x5 x6) := fun _ _ _ _ _ _ _ => ⟨Iff.rfl, fun h => nomatch h⟩
theorem shipC : ∀ x0 x1 x2 x3 x4 x5 x6, Statement (.shipC x0 x1 x2 x3 x4 x5 x6) := fun _ _ _ _ _ _ _ => ⟨Iff.rfl, fun h => nomatch h⟩
theorem shipO : ∀ x0 x1 x2 x3 x4, Statement (.shipO x0 x1 x2 x3 x4) := fun _ _ _ _ _ => ⟨Iff.rfl, fun h => nomatch h⟩
theorem sret : ∀ x0, Statement (.sret x0) := fun _ => ⟨Iff.rfl, fun h => nomatch h⟩
theorem qpush : ∀ x0 x1 x2 x3 x4, Statement (.qpush x0 x1 x2 x3 x4) := fun _ _ _ _ _ => ⟨Iff.rfl, fun h => nomatch h⟩
theorem qpushRsv : ∀ x0 x1 x2 x3 x4, Statement (.qpushRsv x0 x1 x2 x3 x4) := fun _ _ _ _ _ => ⟨Iff.rfl, fun h => nomatch h⟩
theorem qpop : ∀ x0 x1 x2 x3 x4, Statement (.qpop x0 x1 x2 x3 x4) := fun _ _ _ _ _ => ⟨Iff.rfl, fun h => nomatch h⟩
theorem qpopMin : ∀ x0 x1 x2 x3, Statement (.qpopMin x0 x1 x2 x3) := fun _ _ _ _ => ⟨Iff.rfl, fun h => nomatch h⟩
theorem accAlloc : ∀ x0 x1 x2 x3, Statement (.accAlloc x0 x1 x2 x3) := fun _ _ _ _ => ⟨Iff.rfl, fun h => nomatch h⟩
theorem accFree : ∀ x0 x1 x2, Statement (.accFree x0 x1 x2) := fun _ _ _ => ⟨Iff.rfl, fun h => nomatch h⟩
theorem accLend : ∀ x0 x1 x2 x3, Statement (.accLend x0 x1 x2 x3) := fun _ _ _ _ => ⟨Iff.rfl, fun h => nomatch h⟩
theorem accZero : ∀ x0 x1 x2, Statement (.accZero x0 x1 x2) := fun _ _ _ => ⟨Iff.rfl, fun h => nomatch h⟩
theorem accLd : ∀ x0 x1 x2 x3 x4, Statement (.accLd x0 x1 x2 x3 x4) := fun _ _ _ _ _ => ⟨Iff.rfl, fun h => nomatch h⟩
theorem accRd : ∀ x0 x1 x2 x3 x4 x5 x6, Statement (.accRd x0 x1 x2 x3 x4 x5 x6) := fun _ _ _ _ _ _ _ => ⟨Iff.rfl, fun h => nomatch h⟩
theorem mma : ∀ x0 x1 x2 x3 x4 x5 x6, Statement (.mma x0 x1 x2 x3 x4 x5 x6) := fun _ _ _ _ _ _ _ => ⟨Iff.rfl, fun h => nomatch h⟩
theorem mmas : ∀ x0 x1 x2 x3 x4 x5 x6, Statement (.mmas x0 x1 x2 x3 x4 x5 x6) := fun _ _ _ _ _ _ _ => ⟨Iff.rfl, fun h => nomatch h⟩
theorem accDrain : ∀ x0 x1 x2 x3 x4, Statement (.accDrain x0 x1 x2 x3 x4) := fun _ _ _ _ _ => ⟨Iff.rfl, fun h => nomatch h⟩
theorem matrixCommandRun : ∀ x0 x1 x2, Statement (.matrixCommandRun x0 x1 x2) := fun _ _ _ => ⟨Iff.rfl, fun _ => rfl⟩
theorem drainRun : ∀ x0 x1 x2, Statement (.drainRun x0 x1 x2) := fun _ _ _ => ⟨Iff.rfl, fun _ => rfl⟩
theorem bcpy : ∀ x0 x1 x2 x3, Statement (.bcpy x0 x1 x2 x3) := fun _ _ _ _ => ⟨Iff.rfl, fun h => nomatch h⟩
theorem bulkCopySector : ∀ x0 x1, Statement (.bulkCopySector x0 x1) := fun _ _ => ⟨Iff.rfl, fun _ => rfl⟩
theorem ringEntryTake : ∀ x0, Statement (.ringEntryTake x0) := fun _ => ⟨Iff.rfl, fun _ => rfl⟩
theorem rcfg : ∀ x0 x1 x2, Statement (.rcfg x0 x1 x2) := fun _ _ _ => ⟨Iff.rfl, fun h => nomatch h⟩
theorem rcfgGet : ∀ x0 x1 x2, Statement (.rcfgGet x0 x1 x2) := fun _ _ _ => ⟨Iff.rfl, fun h => nomatch h⟩
theorem rpush : ∀ x0 x1, Statement (.rpush x0 x1) := fun _ _ => ⟨Iff.rfl, fun h => nomatch h⟩
theorem rpop : ∀ x0 x1 x2, Statement (.rpop x0 x1 x2) := fun _ _ _ => ⟨Iff.rfl, fun h => nomatch h⟩
theorem dscCfg : ∀ x0 x1, Statement (.dscCfg x0 x1) := fun _ _ => ⟨Iff.rfl, fun h => nomatch h⟩
theorem dscRun : ∀ x0 x1 x2, Statement (.dscRun x0 x1 x2) := fun _ _ _ => ⟨Iff.rfl, fun h => nomatch h⟩
theorem dscLevel : ∀ x0 x1, Statement (.dscLevel x0 x1) := fun _ _ => ⟨Iff.rfl, fun _ => rfl⟩
theorem dscPath : ∀ x0 x1 x2, Statement (.dscPath x0 x1 x2) := fun _ _ _ => ⟨Iff.rfl, fun h => nomatch h⟩
theorem dscGrad : ∀ x0 x1 x2 x3, Statement (.dscGrad x0 x1 x2 x3) := fun _ _ _ _ => ⟨Iff.rfl, fun h => nomatch h⟩
theorem dscGradRun : ∀ x0 x1, Statement (.dscGradRun x0 x1) := fun _ _ => ⟨Iff.rfl, fun _ => rfl⟩
theorem rfbStart : ∀ x0 x1 x2, Statement (.rfbStart x0 x1 x2) := fun _ _ _ => ⟨Iff.rfl, fun h => nomatch h⟩
theorem rfbBlockStart : ∀ x0, Statement (.rfbBlockStart x0) := fun _ => ⟨Iff.rfl, fun _ => rfl⟩
theorem rfbStepDone : ∀ x0 x1, Statement (.rfbStepDone x0 x1) := fun _ _ => ⟨Iff.rfl, fun _ => rfl⟩
theorem rfbStat : ∀ x0 x1 x2, Statement (.rfbStat x0 x1 x2) := fun _ _ _ => ⟨Iff.rfl, fun h => nomatch h⟩
theorem rfbAbort : ∀ x0 x1 x2, Statement (.rfbAbort x0 x1 x2) := fun _ _ _ => ⟨Iff.rfl, fun h => nomatch h⟩
theorem rmaPut : ∀ x0 x1 x2 x3, Statement (.rmaPut x0 x1 x2 x3) := fun _ _ _ _ => ⟨Iff.rfl, fun h => nomatch h⟩
theorem rmaGet : ∀ x0 x1 x2 x3, Statement (.rmaGet x0 x1 x2 x3) := fun _ _ _ _ => ⟨Iff.rfl, fun h => nomatch h⟩
theorem rmaFlag : ∀ x0 x1 x2 x3, Statement (.rmaFlag x0 x1 x2 x3) := fun _ _ _ _ => ⟨Iff.rfl, fun h => nomatch h⟩
theorem srd : ∀ x0 x1 x2, Statement (.srd x0 x1 x2) := fun _ _ _ => ⟨Iff.rfl, fun h => nomatch h⟩
theorem swr : ∀ x0 x1 x2, Statement (.swr x0 x1 x2) := fun _ _ _ => ⟨Iff.rfl, fun h => nomatch h⟩
theorem trap : ∀ x0 x1, Statement (.trap x0 x1) := fun _ _ => ⟨Iff.rfl, fun h => nomatch h⟩
theorem tret : ∀ x0 x1, Statement (.tret x0 x1) := fun _ _ => ⟨Iff.rfl, fun h => nomatch h⟩
theorem bpt : ∀ x0 x1, Statement (.bpt x0 x1) := fun _ _ => ⟨Iff.rfl, fun h => nomatch h⟩
theorem icinv : ∀ x0 x1 x2, Statement (.icinv x0 x1 x2) := fun _ _ _ => ⟨Iff.rfl, fun h => nomatch h⟩
theorem ifence : ∀ x0, Statement (.ifence x0) := fun _ => ⟨Iff.rfl, fun h => nomatch h⟩
theorem clk : ∀ x0 x1 x2, Statement (.clk x0 x1 x2) := fun _ _ _ => ⟨Iff.rfl, fun h => nomatch h⟩
theorem perfRd : ∀ x0 x1 x2, Statement (.perfRd x0 x1 x2) := fun _ _ _ => ⟨Iff.rfl, fun h => nomatch h⟩
theorem perfCfg : ∀ x0 x1 x2, Statement (.perfCfg x0 x1 x2) := fun _ _ _ => ⟨Iff.rfl, fun h => nomatch h⟩
theorem unassignedOpcode : ∀ x0, Statement (.unassignedOpcode x0) := fun _ => ⟨Iff.rfl, fun h => nomatch h⟩
theorem qpPkt : ∀ x0 x1, Statement (.qpPkt x0 x1) := fun _ _ => ⟨Iff.rfl, fun _ => rfl⟩
theorem qpMovi : ∀ x0 x1, Statement (.qpMovi x0 x1) := fun _ _ => ⟨Iff.rfl, fun _ => rfl⟩
theorem qpShli : ∀ x0 x1 x2, Statement (.qpShli x0 x1 x2) := fun _ _ _ => ⟨Iff.rfl, fun _ => rfl⟩
theorem qpShri : ∀ x0 x1 x2, Statement (.qpShri x0 x1 x2) := fun _ _ _ => ⟨Iff.rfl, fun _ => rfl⟩
theorem qpAdd : ∀ x0 x1, Statement (.qpAdd x0 x1) := fun _ _ => ⟨Iff.rfl, fun _ => rfl⟩
theorem qpAnd : ∀ x0 x1, Statement (.qpAnd x0 x1) := fun _ _ => ⟨Iff.rfl, fun _ => rfl⟩
theorem qpOr : ∀ x0 x1, Statement (.qpOr x0 x1) := fun _ _ => ⟨Iff.rfl, fun _ => rfl⟩
theorem qpLdw : ∀ x0 x1 x2, Statement (.qpLdw x0 x1 x2) := fun _ _ _ => ⟨Iff.rfl, fun _ => rfl⟩
theorem qpStw : ∀ x0 x1 x2, Statement (.qpStw x0 x1 x2) := fun _ _ _ => ⟨Iff.rfl, fun _ => rfl⟩
theorem qpBeq : ∀ x0 x1 x2, Statement (.qpBeq x0 x1 x2) := fun _ _ _ => ⟨Iff.rfl, fun _ => rfl⟩
theorem qpBne : ∀ x0 x1 x2, Statement (.qpBne x0 x1 x2) := fun _ _ _ => ⟨Iff.rfl, fun _ => rfl⟩
theorem qpBltu : ∀ x0 x1 x2, Statement (.qpBltu x0 x1 x2) := fun _ _ _ => ⟨Iff.rfl, fun _ => rfl⟩
theorem qpLoop : ∀ x0, Statement (.qpLoop x0) := fun _ => ⟨Iff.rfl, fun _ => rfl⟩
theorem qpEndl : Statement (.qpEndl) := ⟨Iff.rfl, fun _ => rfl⟩
theorem qpStg : ∀ x0 x1, Statement (.qpStg x0 x1) := fun _ _ => ⟨Iff.rfl, fun _ => rfl⟩
theorem qpEnd : Statement (.qpEnd) := ⟨Iff.rfl, fun _ => rfl⟩
theorem actNop : Statement (.actNop) := ⟨Iff.rfl, fun _ => rfl⟩
theorem actLaunch : Statement (.actLaunch) := ⟨Iff.rfl, fun _ => rfl⟩
theorem actSignal : Statement (.actSignal) := ⟨Iff.rfl, fun _ => rfl⟩
theorem actWaitsig : Statement (.actWaitsig) := ⟨Iff.rfl, fun _ => rfl⟩
theorem actCopy : Statement (.actCopy) := ⟨Iff.rfl, fun _ => rfl⟩
theorem actRfb : Statement (.actRfb) := ⟨Iff.rfl, fun _ => rfl⟩
theorem actChain : Statement (.actChain) := ⟨Iff.rfl, fun _ => rfl⟩
theorem threadWake : ∀ x0, Statement (.threadWake x0) := fun _ => ⟨Iff.rfl, fun _ => rfl⟩
theorem waitTimeout : ∀ x0, Statement (.waitTimeout x0) := fun _ => ⟨Iff.rfl, fun _ => rfl⟩
theorem taskAdmit : ∀ x0 x1, Statement (.taskAdmit x0 x1) := fun _ _ => ⟨Iff.rfl, fun _ => rfl⟩
theorem heldAdmission : ∀ x0 x1, Statement (.heldAdmission x0 x1) := fun _ _ => ⟨Iff.rfl, fun _ => rfl⟩
theorem gangBoundExpiry : ∀ x0 x1, Statement (.gangBoundExpiry x0 x1) := fun _ _ => ⟨Iff.rfl, fun _ => rfl⟩
theorem taskSteal : ∀ x0 x1 x2, Statement (.taskSteal x0 x1 x2) := fun _ _ _ => ⟨Iff.rfl, fun _ => rfl⟩
theorem spillRefill : ∀ x0 x1, Statement (.spillRefill x0 x1) := fun _ _ => ⟨Iff.rfl, fun _ => rfl⟩
theorem taskPlace : ∀ x0 x1, Statement (.taskPlace x0 x1) := fun _ _ => ⟨Iff.rfl, fun _ => rfl⟩
theorem shipArrival : ∀ x0, Statement (.shipArrival x0) := fun _ => ⟨Iff.rfl, fun _ => rfl⟩
theorem shipGrant : ∀ x0, Statement (.shipGrant x0) := fun _ => ⟨Iff.rfl, fun _ => rfl⟩
theorem sectionStart : ∀ x0, Statement (.sectionStart x0) := fun _ => ⟨Iff.rfl, fun _ => rfl⟩
theorem sectionTimeLimit : ∀ x0, Statement (.sectionTimeLimit x0) := fun _ => ⟨Iff.rfl, fun _ => rfl⟩
theorem preemptSave : ∀ x0 x1, Statement (.preemptSave x0 x1) := fun _ _ => ⟨Iff.rfl, fun _ => rfl⟩
theorem faultRecordWrite : ∀ x0, Statement (.faultRecordWrite x0) := fun _ => ⟨Iff.rfl, fun _ => rfl⟩
theorem routingTimeout : ∀ x0 x1, Statement (.routingTimeout x0 x1) := fun _ _ => ⟨Iff.rfl, fun _ => rfl⟩
theorem scrubUncorrectable : ∀ x0 x1, Statement (.scrubUncorrectable x0 x1) := fun _ _ => ⟨Iff.rfl, fun _ => rfl⟩
theorem load : ∀ x0 x1 x2 x3, Statement (.load x0 x1 x2 x3) := fun _ _ _ _ => ⟨Iff.rfl, fun _ => rfl⟩
theorem free : ∀ x0 x1 x2, Statement (.free x0 x1 x2) := fun _ _ _ => ⟨Iff.rfl, fun _ => rfl⟩
theorem create : ∀ x0 x1 x2, Statement (.create x0 x1 x2) := fun _ _ _ => ⟨Iff.rfl, fun _ => rfl⟩
theorem destroy : ∀ x0 x1, Statement (.destroy x0 x1) := fun _ _ => ⟨Iff.rfl, fun _ => rfl⟩
theorem setcores : ∀ x0 x1 x2, Statement (.setcores x0 x1 x2) := fun _ _ _ => ⟨Iff.rfl, fun _ => rfl⟩
theorem preempt : ∀ x0 x1 x2, Statement (.preempt x0 x1 x2) := fun _ _ _ => ⟨Iff.rfl, fun _ => rfl⟩
theorem tlbinv : ∀ x0 x1 x2 x3, Statement (.tlbinv x0 x1 x2 x3) := fun _ _ _ _ => ⟨Iff.rfl, fun _ => rfl⟩
theorem resolve : ∀ x0 x1 x2 x3, Statement (.resolve x0 x1 x2 x3) := fun _ _ _ _ => ⟨Iff.rfl, fun _ => rfl⟩
theorem fwwrite : ∀ x0 x1 x2, Statement (.fwwrite x0 x1 x2) := fun _ _ _ => ⟨Iff.rfl, fun _ => rfl⟩
theorem fwactivate : ∀ x0, Statement (.fwactivate x0) := fun _ => ⟨Iff.rfl, fun _ => rfl⟩
theorem exportCtx : ∀ x0 x1 x2, Statement (.exportCtx x0 x1 x2) := fun _ _ _ => ⟨Iff.rfl, fun _ => rfl⟩
theorem unexportCtx : ∀ x0 x1 x2, Statement (.unexportCtx x0 x1 x2) := fun _ _ _ => ⟨Iff.rfl, fun _ => rfl⟩
theorem attach : ∀ x0 x1 x2, Statement (.attach x0 x1 x2) := fun _ _ _ => ⟨Iff.rfl, fun _ => rfl⟩
theorem stopctx : ∀ x0 x1 x2, Statement (.stopctx x0 x1 x2) := fun _ _ _ => ⟨Iff.rfl, fun _ => rfl⟩
theorem debugResume : ∀ x0 x1 x2 x3, Statement (.debugResume x0 x1 x2 x3) := fun _ _ _ _ => ⟨Iff.rfl, fun _ => rfl⟩
theorem wrbp : ∀ x0 x1 x2 x3, Statement (.wrbp x0 x1 x2 x3) := fun _ _ _ _ => ⟨Iff.rfl, fun _ => rfl⟩
theorem rdframe : ∀ x0 x1 x2 x3, Statement (.rdframe x0 x1 x2 x3) := fun _ _ _ _ => ⟨Iff.rfl, fun _ => rfl⟩
theorem rdstate : ∀ x0 x1 x2 x3, Statement (.rdstate x0 x1 x2 x3) := fun _ _ _ _ => ⟨Iff.rfl, fun _ => rfl⟩
theorem wrstate : ∀ x0 x1 x2 x3, Statement (.wrstate x0 x1 x2 x3) := fun _ _ _ _ => ⟨Iff.rfl, fun _ => rfl⟩
theorem semtas : ∀ x0, Statement (.semtas x0) := fun _ => ⟨Iff.rfl, fun _ => rfl⟩
theorem semrel : ∀ x0 x1, Statement (.semrel x0 x1) := fun _ _ => ⟨Iff.rfl, fun _ => rfl⟩
theorem semaphoreLeaseExpiry : Statement (.semaphoreLeaseExpiry) := ⟨Iff.rfl, fun _ => rfl⟩
theorem reset : ∀ x0 x1, Statement (.reset x0 x1) := fun _ _ => ⟨Iff.rfl, fun _ => rfl⟩
theorem coldReset : Statement (.coldReset) := ⟨Iff.rfl, fun _ => rfl⟩
theorem functionLevelReset : ∀ x0, Statement (.functionLevelReset x0) := fun _ => ⟨Iff.rfl, fun _ => rfl⟩
theorem powerlim : ∀ x0 x1, Statement (.powerlim x0 x1) := fun _ _ => ⟨Iff.rfl, fun _ => rfl⟩
theorem throttleLevel : ∀ x0, Statement (.throttleLevel x0) := fun _ => ⟨Iff.rfl, fun _ => rfl⟩
theorem thermalTrip : Statement (.thermalTrip) := ⟨Iff.rfl, fun _ => rfl⟩
theorem eventCounterControl : ∀ x0 x1 x2, Statement (.eventCounterControl x0 x1 x2) := fun _ _ _ => ⟨Iff.rfl, fun _ => rfl⟩
theorem registerWrite : ∀ x0 x1 x2 x3, Statement (.registerWrite x0 x1 x2 x3) := fun _ _ _ _ => ⟨Iff.rfl, fun _ => rfl⟩
theorem queueEnable : ∀ x0 x1, Statement (.queueEnable x0 x1) := fun _ _ => ⟨Iff.rfl, fun _ => rfl⟩
theorem queueDisable : ∀ x0 x1, Statement (.queueDisable x0 x1) := fun _ _ => ⟨Iff.rfl, fun _ => rfl⟩
theorem queueResume : ∀ x0 x1, Statement (.queueResume x0 x1) := fun _ _ => ⟨Iff.rfl, fun _ => rfl⟩
theorem kick : ∀ x0 x1 x2, Statement (.kick x0 x1 x2) := fun _ _ _ => ⟨Iff.rfl, fun _ => rfl⟩
theorem packetRead : ∀ x0, Statement (.packetRead x0) := fun _ => ⟨Iff.rfl, fun _ => rfl⟩
theorem waitsigSatisfied : ∀ x0, Statement (.waitsigSatisfied x0) := fun _ => ⟨Iff.rfl, fun _ => rfl⟩
theorem chainSatisfied : ∀ x0, Statement (.chainSatisfied x0) := fun _ => ⟨Iff.rfl, fun _ => rfl⟩
theorem sigwaitArm : ∀ x0 x1, Statement (.sigwaitArm x0 x1) := fun _ _ => ⟨Iff.rfl, fun _ => rfl⟩
theorem hostCoherentAccess : ∀ x0, Statement (.hostCoherentAccess x0) := fun _ => ⟨Iff.rfl, fun _ => rfl⟩
theorem hostDirectAccess : ∀ x0, Statement (.hostDirectAccess x0) := fun _ => ⟨Iff.rfl, fun _ => rfl⟩
theorem cxlMemAccess : ∀ x0, Statement (.cxlMemAccess x0) := fun _ => ⟨Iff.rfl, fun _ => rfl⟩
theorem pftPut : ∀ x0 x1 x2 x3 x4, Statement (.pftPut x0 x1 x2 x3 x4) := fun _ _ _ _ _ => ⟨Iff.rfl, fun _ => rfl⟩
theorem pftGetRequest : ∀ x0 x1 x2 x3 x4 x5, Statement (.pftGetRequest x0 x1 x2 x3 x4 x5) := fun _ _ _ _ _ _ => ⟨Iff.rfl, fun _ => rfl⟩
theorem pftGetResponse : ∀ x0 x1 x2 x3 x4, Statement (.pftGetResponse x0 x1 x2 x3 x4) := fun _ _ _ _ _ => ⟨Iff.rfl, fun _ => rfl⟩
theorem pftFlag : ∀ x0 x1 x2 x3 x4 x5, Statement (.pftFlag x0 x1 x2 x3 x4 x5) := fun _ _ _ _ _ _ => ⟨Iff.rfl, fun _ => rfl⟩
theorem pftShipRequest : ∀ x0 x1 x2 x3 x4 x5 x6 x7 x8 x9 x10, Statement (.pftShipRequest x0 x1 x2 x3 x4 x5 x6 x7 x8 x9 x10) := fun _ _ _ _ _ _ _ _ _ _ _ => ⟨Iff.rfl, fun _ => rfl⟩
theorem pftShipResult : ∀ x0 x1 x2 x3 x4 x5, Statement (.pftShipResult x0 x1 x2 x3 x4 x5) := fun _ _ _ _ _ _ => ⟨Iff.rfl, fun _ => rfl⟩
theorem pftSignal : ∀ x0 x1 x2 x3 x4 x5 x6 x7, Statement (.pftSignal x0 x1 x2 x3 x4 x5 x6 x7) := fun _ _ _ _ _ _ _ _ => ⟨Iff.rfl, fun _ => rfl⟩
theorem pftChainRegister : ∀ x0 x1 x2 x3 x4, Statement (.pftChainRegister x0 x1 x2 x3 x4) := fun _ _ _ _ _ => ⟨Iff.rfl, fun _ => rfl⟩
theorem pftChainNotify : ∀ x0 x1 x2 x3, Statement (.pftChainNotify x0 x1 x2 x3) := fun _ _ _ _ => ⟨Iff.rfl, fun _ => rfl⟩
theorem pftAck : ∀ x0 x1, Statement (.pftAck x0 x1) := fun _ _ => ⟨Iff.rfl, fun _ => rfl⟩
theorem pftNack : ∀ x0 x1 x2, Statement (.pftNack x0 x1 x2) := fun _ _ _ => ⟨Iff.rfl, fun _ => rfl⟩
theorem pftRetransmit : ∀ x0 x1, Statement (.pftRetransmit x0 x1) := fun _ _ => ⟨Iff.rfl, fun _ => rfl⟩
theorem reconciliationWindow : ∀ x0, Statement (.reconciliationWindow x0) := fun _ => ⟨Iff.rfl, fun _ => rfl⟩
theorem getUsageHeader : Statement (.getUsageHeader) := ⟨Iff.rfl, fun _ => rfl⟩
theorem getUsage : ∀ x0 x1, Statement (.getUsage x0 x1) := fun _ _ => ⟨Iff.rfl, fun _ => rfl⟩
theorem getHealth : Statement (.getHealth) := ⟨Iff.rfl, fun _ => rfl⟩
theorem getVersion : Statement (.getVersion) := ⟨Iff.rfl, fun _ => rfl⟩
theorem getCapabilities : Statement (.getCapabilities) := ⟨Iff.rfl, fun _ => rfl⟩
theorem negotiateAlgorithms : Statement (.negotiateAlgorithms) := ⟨Iff.rfl, fun _ => rfl⟩
theorem getDigests : Statement (.getDigests) := ⟨Iff.rfl, fun _ => rfl⟩
theorem getCertificate : ∀ x0 x1 x2, Statement (.getCertificate x0 x1 x2) := fun _ _ _ => ⟨Iff.rfl, fun _ => rfl⟩
theorem challenge : ∀ x0, Statement (.challenge x0) := fun _ => ⟨Iff.rfl, fun _ => rfl⟩
theorem getMeasurements : ∀ x0 x1, Statement (.getMeasurements x0 x1) := fun _ _ => ⟨Iff.rfl, fun _ => rfl⟩
theorem ptpEnable : ∀ x0, Statement (.ptpEnable x0) := fun _ => ⟨Iff.rfl, fun _ => rfl⟩
theorem hostSnoop : ∀ x0 x1, Statement (.hostSnoop x0 x1) := fun _ _ => ⟨Iff.rfl, fun _ => rfl⟩
theorem ptpMessage : ∀ x0 x1 x2, Statement (.ptpMessage x0 x1 x2) := fun _ _ _ => ⟨Iff.rfl, fun _ => rfl⟩
theorem activePortChange : ∀ x0 x1, Statement (.activePortChange x0 x1) := fun _ _ => ⟨Iff.rfl, fun _ => rfl⟩
theorem configurationRequest : ∀ x0, Statement (.configurationRequest x0) := fun _ => ⟨Iff.rfl, fun _ => rfl⟩
theorem serviceFirmwareDecline : ∀ x0 x1, Statement (.serviceFirmwareDecline x0 x1) := fun _ _ => ⟨Iff.rfl, fun _ => rfl⟩
theorem powerGoodLoss : Statement (.powerGoodLoss) := ⟨Iff.rfl, fun _ => rfl⟩

end Sys2Proof.Laws.OneKindOfWord
end

