-- ==== Sys2Proof/Laws/Registers.lean ====
section
/-! SUPPORT. What writing registers and predicates of a thread leaves, and what it makes them read as. -/

namespace Sys2Proof.Machine

/-! ## What a write leaves -/

theorem Thread.putSpan_keeps {α : Type} (p : Thread → α) (hp : ∀ t n v, p (Thread.setReg t n v) = p t) (l : List Reg) :
    ∀ (t : Thread) (n : Nat), p (t.putSpan n l) = p t := by
  induction l with
  | nil => intro t n; rfl
  | cons r l ih => intro t n; rw [Thread.putSpan, ih, hp]

theorem Thread.setPred_keeps {α : Type} (p : Thread → α) (hp : ∀ (t : Thread) x, p { t with preds := x } = p t) (t : Thread)
    (q : PReg) (v : Bool) : p (t.setPred q v) = p t := by
  unfold Thread.setPred
  split
  · rfl
  · exact hp t _

theorem Thread.putLong_keeps {α : Type} (p : Thread → α) (hp : ∀ t n v, p (Thread.setReg t n v) = p t)
    (hq : ∀ (t : Thread) x, p { t with pend := x } = p t) (t : Thread) (la : BitVec 4) (n : Nat) (l : List Reg) :
    p (t.putLong la n l) = p t := by
  unfold Thread.putLong
  split
  · exact Thread.putSpan_keeps p hp l t n
  · exact hq _ _

/-- A function of a thread that writes general registers and predicates alone keeps what `Stays` lists. -/
theorem Thread.stays_setReg (n : Thread → Nat) (v : Thread → Reg) : Thread.Stays fun t => t.setReg (n t) (v t) :=
  fun _ => ⟨rfl, rfl, rfl⟩

theorem Thread.stays_setPred (q : Thread → PReg) (v : Thread → Bool) : Thread.Stays fun t => t.setPred (q t) (v t) :=
  fun t => ⟨Thread.setPred_keeps _ (fun _ _ => rfl) t _ _, Thread.setPred_keeps _ (fun _ _ => rfl) t _ _,
    Thread.setPred_keeps _ (fun _ _ => rfl) t _ _⟩

theorem Thread.stays_putSpan (n : Thread → Nat) (l : Thread → List Reg) : Thread.Stays fun t => t.putSpan (n t) (l t) :=
  fun t => ⟨Thread.putSpan_keeps _ (fun _ _ _ => rfl) _ t _, Thread.putSpan_keeps _ (fun _ _ _ => rfl) _ t _,
    Thread.putSpan_keeps _ (fun _ _ _ => rfl) _ t _⟩

theorem Thread.stays_putLong (la : BitVec 4) (n : Thread → Nat) (l : Thread → List Reg) :
    Thread.Stays fun t => t.putLong la (n t) (l t) :=
  fun t => ⟨Thread.putLong_keeps _ (fun _ _ _ => rfl) (fun _ _ => rfl) t _ _ _,
    Thread.putLong_keeps _ (fun _ _ _ => rfl) (fun _ _ => rfl) t _ _ _,
    Thread.putLong_keeps _ (fun _ _ _ => rfl) (fun _ _ => rfl) t _ _ _⟩

theorem Thread.stays_put (d : GReg) (v : Thread → Word) (g : Thread → Tag) : Thread.Stays fun t => t.put d (v t) (g t) :=
  fun _ => ⟨rfl, rfl, rfl⟩

theorem Thread.stays_putPair (d : GReg) (v : Thread → Dword) (x y : Tag) :
    Thread.Stays fun t => t.putPair d (v t) x y := fun _ => ⟨rfl, rfl, rfl⟩

theorem Thread.Stays.comp {f g : Thread → Thread} (hf : Thread.Stays f) (hg : Thread.Stays g) :
    Thread.Stays fun t => g (f t) := fun t =>
  ⟨(hg _).1.trans (hf t).1, (hg _).2.1.trans (hf t).2.1, (hg _).2.2.trans (hf t).2.2⟩

/-- A result and a predicate. -/
theorem Thread.Stays.thenPred {f : Thread → Thread} (hf : Thread.Stays f) (q : PReg) (v : Thread → Bool) :
    Thread.Stays fun t => (f t).setPred q (v t) := fun t =>
  ⟨(Thread.setPred_keeps _ (fun _ _ => rfl) _ _ _).trans (hf t).1, (Thread.setPred_keeps _ (fun _ _ => rfl) _ _ _).trans (hf t).2.1,
    (Thread.setPred_keeps _ (fun _ _ => rfl) _ _ _).trans (hf t).2.2⟩

/-! ## What a write makes a register read as -/

/-- A register after a write: the value written at its own number, if the thread has it, else the value before. -/
theorem Thread.reg_setReg (t : Thread) (n m : Nat) (v : Reg) (hn : n < t.regs.length) (hm : m ≠ 255) :
    (t.setReg n v).reg m = if m = n then v else t.reg m := by
  unfold Thread.reg Thread.setReg
  rw [if_neg hm, if_neg hm]
  by_cases h : m = n
  · subst h; rw [if_pos rfl, List.getElem?_set_self hn]; rfl
  · rw [if_neg h, List.getElem?_set_ne (Ne.symm h)]

/-- gz reads zero whatever is written (R232). -/
theorem Thread.reg_gz (t : Thread) : t.reg 255 = {} := rfl

/-- gz discards what is written, where the thread has fewer than 256 registers (R232). -/
theorem Thread.setReg_gz (t : Thread) (v : Reg) (hn : t.regs.length ≤ 255) : (t.setReg 255 v).regs = t.regs := by
  unfold Thread.setReg
  exact List.set_eq_of_length_le hn

/-! ## Register instructions -/

theorem runs_of {i : Instr} {h : Hdr} {g : Thread → Except Stop Thread} {f : Thread → Thread} (hh : i.hdr? = some h)
    (he : ∀ s, exec i s = runReg i s g) (hf : Thread.Stays f) (hg : ∀ t, g t = .ok (f t)) : Runs i f :=
  fun s _ hi => runReg_maps_all hh (he s) hi hf hg

theorem runsIf_of {i : Instr} {h : Hdr} {g : Thread → Except Stop Thread} {f : Thread → Thread} {ok : Thread → Prop}
    (hh : i.hdr? = some h) (he : ∀ s, exec i s = runReg i s g) (hf : Thread.Stays f) (hg : ∀ t, ok t → g t = .ok (f t)) :
    RunsIf i ok f :=
  fun s _ hi hok => runReg_maps hh (he s) hi hf fun j hj t ht => hg t (hok j hj t ht)

end Sys2Proof.Machine
end

