-- ==== Sys2Proof/Tests/Slice0.lean ====
section
/-! SUPPORT. Tests: the well-formedness checks refuse an ill-formed term each; words that the manual encodes decode to their
instructions; results that the manual states; and, for the statements, concrete states and operands that meet all their
hypotheses together. A witness applies its statement: each hypothesis is shown of the state that the term names. -/

namespace Sys2Proof.Tests

open Sys2Proof Sys2Proof.Machine

set_option Elab.async false

/-! ## Well-formedness -/

/-- A header with guards pt and pt, LA 0 and CH 0. -/
def hdr : Hdr := ⟨⟨false, 7⟩, ⟨false, 7⟩, 0, 0⟩

/-- The same with LA 3. -/
def hdrLa : Hdr := ⟨⟨false, 7⟩, ⟨false, 7⟩, 3, 0⟩

/-- LA is for long-latency instructions alone (R223). -/
theorem test_wf_lookahead : (Instr.iadd hdrLa .wrap 7 4 4 5).laOk = false ∧ (Instr.ld hdrLa .b32 .rlx .core 4 6 0).laOk = true := by
  decide

/-- A pair starts at an even register, and a span of four at a multiple of four (R233). -/
theorem test_wf_registers : (Instr.iadd64 hdr 7 5 4 6).regsOk = false ∧ (Instr.ld hdr .b128 .rlx .core 6 8 0).regsOk = false ∧
    (Instr.iadd64 hdr 7 4 4 6).regsOk = true := by decide

/-- s0 to s63 alone, with the control operand at a multiple of four (R232, R318). -/
theorem test_wf_uniform : (Instr.smovRead hdr 4 64).sregsOk = false ∧ (Instr.dscRun hdr 2 6).sregsOk = false ∧
    (Instr.dscRun hdr 2 8).sregsOk = true := by decide

/-- A load releases nothing, a store acquires nothing, and a fence is not relaxed (R122). -/
theorem test_wf_orders : (Instr.ld hdr .b32 .rel .core 4 6 0).ordOk = false ∧ (Instr.st hdr .b32 .acq .core 6 4 0).ordOk = false ∧
    (Instr.fence hdr .rlx .dev).ordOk = false ∧ (Instr.fence hdr .ar .dev).ordOk = true := by decide

/-- A store is untyped; LDA copies 4 bytes or more; RED has no SWAP; FADD is of a float size (R273, R275, R277). -/
theorem test_wf_sizes : (Instr.st hdr .f32 .rlx .core 6 4 0).szOk = false ∧ (Instr.lda hdr .b16 0 4 6 8).szOk = false ∧
    (Instr.red hdr .swap .b32 .rlx .core 6 4).szOk = false ∧ (Instr.atom hdr .fadd .b32 .rlx .core 4 6 8).szOk = false := by decide

/-- CVT converts one block-scaled side at most, PACK packs no F32, DOT4 takes no E2M1, MMA no F64 (R257, R258, R304, R322). -/
theorem test_wf_formats : (Instr.cvt hdr .e2m1 .bx4 .rn false 4 5 6).fmtOk = false ∧
    (Instr.pack hdr .f32 .rn false false false 4 6 0).fmtOk = false ∧ (Instr.dot4 hdr .e2m1 .rn 4 5 6 7).fmtOk = false ∧
    (Instr.mma hdr .f64 0 0 0 2 4).fmtOk = false ∧ (Instr.qscale hdr .i8 4 5).fmtOk = false := by decide

/-- Coded fields that an entry refuses (R308, R315, R319, R288, R281, R344). -/
theorem test_wf_values : (Instr.bind hdr 0 4).valOk = false ∧ (Instr.scan hdr .famax false 4 5).valOk = false ∧
    (Instr.accZero hdr 3 1).valOk = false ∧ (Instr.shipW hdr 0 5 1 8 12 10).valOk = false ∧
    (Instr.spawn hdr true 7 4 8 6).valOk = false ∧ (Instr.swr hdr .time 4).valOk = false := by decide

/-- The verifier's limits on queue-program words, each at its edge (R406). -/
theorem test_wf_queue_limits :
    (Instr.qpPkt 7 0).qpLimits 0 (fun _ => false) = true ∧ (Instr.qpPkt 8 0).qpLimits 0 (fun _ => false) = false ∧
    (Instr.qpShli 63 0 0).qpLimits 0 (fun _ => false) = true ∧ (Instr.qpShli 64 0 0).qpLimits 0 (fun _ => false) = false ∧
    (Instr.qpStw 1 0 0).qpLimits 2 (fun _ => false) = false ∧ (Instr.qpLdw 2 0 0).qpLimits 2 (fun _ => true) = false ∧
    (Instr.qpBeq 511 0 0).qpLimits 0 (fun _ => false) = true ∧ (Instr.qpBeq 512 0 0).qpLimits 0 (fun _ => false) = false ∧
    (Instr.qpLoop 256).qpLimits 0 (fun _ => false) = true ∧ (Instr.qpLoop 0).qpLimits 0 (fun _ => false) = false ∧
    (Instr.qpStg 15 0).qpLimits 0 (fun _ => false) = true ∧ (Instr.qpStg 16 0).qpLimits 0 (fun _ => false) = false := by decide

/-! ## Decoding: the words that 09 to 13 encode field by field, and a queue word of each layout (R406) -/

/-- Integer, conversion and control words (10). -/
theorem test_decode_integer : ∀ p ∈ ([(0x0700050404007701, .iadd hdr .wrap 7 4 4 5),
    (0xFFFFF8040400771C, .iaddImm hdr 4 4 0xFFFFF8),
    (0x0000030506007720, .shlImm hdr 6 5 3),
    (0x1100050400007717, .icmp hdr .lt 1 4 5),
    (0x2200FF0C00007717, .icmp hdr .gt 2 12 255),
    (0x0000000105007714, .movi hdr 5 1),
    (0x1700040206007716, .lea hdr false 2 6 2 4),
    (0x070B0A080C00771B, .naddr hdr false 12 8 10 11),
    (0x0F2412102600771B, .naddr hdr true 38 16 18 36)] : List (Dword × Instr)), decode p.1 = .ok p.2 := by decide +kernel

/-- Conversion words (10, 18). -/
theorem test_decode_conversion : ∀ p ∈ ([(0x1700210506007721, .cvt hdr .bf16 .f32 .rz false 6 5 0),
    (0x0F00000810007721, .cvt hdr .f32 .f64 .rn false 16 8 0),
    (0x4706001018007722, .pack hdr .e2m1 .rn false false false 24 16 6),
    (0x2705021018007722, .pack hdr .e4m3 .rn false true false 24 16 5),
    (0x2705021814007723, .unpack hdr .e4m3 .rn false true false 20 24 5),
    (0x4700000506007724, .qscale hdr .e2m1 6 5)] : List (Dword × Instr)), decode p.1 = .ok p.2 := by decide +kernel

/-- Control words (09, 10). -/
theorem test_decode_control : ∀ p ∈ ([(0x0000030000007131, .bra ⟨⟨false, 1⟩, ⟨false, 7⟩, 0, 0⟩ 3),
    (0x0700000000007736, .exit hdr),
    (0x0000000000007730, .nop hdr)] : List (Dword × Instr)), decode p.1 = .ok p.2 := by decide +kernel

/-- Memory words (09, 11, 16, 18). -/
theorem test_decode_memory : ∀ p ∈ ([(0x049200080A027A70, .ld ⟨⟨true, 2⟩, ⟨false, 7⟩, 2, 0⟩ .b32 .acq .dev 10 8 4),
    (0x0082000610007770, .ld hdr .b32 .rlx .dev 16 6 0),
    (0x01A2040000007771, .st hdr .b32 .rel .dev 0 4 1),
    (0x0285181400007271, .st ⟨⟨false, 2⟩, ⟨false, 7⟩, 0, 0⟩ .b256 .rlx .dev 20 24 2),
    (0x0085000E18007172, .lds ⟨⟨false, 1⟩, ⟨false, 7⟩, 0, 0⟩ .b256 .rlx .dev 24 14 0),
    (0x0102050804007776, .lda hdr .b32 1 4 8 5),
    (0x01050B100E007176, .lda ⟨⟨false, 1⟩, ⟨false, 7⟩, 0, 0⟩ .b256 1 14 16 11),
    (0x0F00000000007777, .wtag hdr 1 0),
    (0x00B000000000777C, .fence hdr .ar .dev),
    (0x1882050806007778, .atom hdr .min .b32 .rlx .dev 6 8 5),
    (0x20821B1E20007178, .atom ⟨⟨false, 1⟩, ⟨false, 7⟩, 0, 0⟩ .minu .b32 .rlx .dev 32 30 27),
    (0x10820F0000007679, .red ⟨⟨false, 6⟩, ⟨false, 7⟩, 0, 0⟩ .add .b32 .rlx .dev 0 15)] : List (Dword × Instr)), decode p.1 = .ok p.2 := by decide +kernel

/-- Task, section and queue-object words (11, 16, 17, 18). -/
theorem test_decode_tasks : ∀ p ∈ ([(0x02100C0A00007790, .spawn hdr false 2 10 12 16),
    (0x0324282C00007290, .spawn ⟨⟨false, 2⟩, ⟨false, 7⟩, 0, 0⟩ false 3 44 40 36),
    (0x0090050814007791, .wait hdr .dev 20 8 5 0),
    (0x0700000400007796, .bar hdr 4),
    (0x610A140801007797, .shipW hdr 1 1 3 8 20 10),
    (0x2108100001007797, .shipW hdr 1 1 1 0 16 8),
    (0x0700000000007798, .sret hdr),
    (0x0B00210824007299, .qpushRsv ⟨⟨false, 2⟩, ⟨false, 7⟩, 0, 0⟩ 3 36 8 33),
    (0x0B0000081800779A, .qpopMin hdr 3 24 8)] : List (Dword × Instr)), decode p.1 = .ok p.2 := by decide +kernel

/-- Floating-point words (12, 18). -/
theorem test_decode_float : ∀ p ∈ ([(0x0707060504007742, .ffma hdr false .rn 4 5 6 7),
    (0x270A080604007742, .ffma hdr true .rn 4 6 8 10),
    (0x0F00060504007740, .fadd hdr false .rz 4 5 6),
    (0x1100060500007745, .fcmp hdr .lt 1 5 6),
    (0x2700181018007744, .fmax hdr true 24 16 24),
    (0x07140C1614007748, .ffma64 hdr .rn 20 22 12 20),
    (0x270706050400774E, .hfma2 hdr .f16 .rn 4 5 6 7),
    (0x6707060508007750, .dot8 hdr .e2m1 .rn 8 5 6 7),
    (0x1700000504037753, .fsqrt hdrLa .ru 4 5)] : List (Dword × Instr)), decode p.1 = .ok p.2 := by decide +kernel

/-- Group words (12, 17, 18). -/
theorem test_decode_group : ∀ p ∈ ([(0x3F00000400007760, .bind hdr 7 4),
    (0x7F00001400007760, .bind hdr 15 20),
    (0x1700000000007762, .part hdr 2),
    (0x1700000107007763, .vote hdr .mask false 7 7 1),
    (0x17000D040C007764, .shfl hdr .xch 7 12 4 13),
    (0x5F0000040A007766, .reduce hdr .famax 10 4),
    (0x870000050B007767, .scan hdr .add true 11 5),
    (0x0F00000403007768, .smovWrite hdr 3 4 0),
    (0x0F00001010007769, .sbcast hdr true 16 16 0),
    (0x00B000000000776B, .gfence hdr .dev)] : List (Dword × Instr)), decode p.1 = .ok p.2 := by decide +kernel

/-- Accumulator and matrix words (13, 17). -/
theorem test_decode_matrix : ∀ p ∈ ([(0x09003F00000077A0, .accAlloc hdr 1 1 0x3F),
    (0x0A003F00000073A0, .accAlloc ⟨⟨false, 3⟩, ⟨false, 7⟩, 0, 0⟩ 2 1 0x3F),
    (0x0F000C02000077A2, .accLend hdr 1 0x0C 2),
    (0x17040200500077A7, .mma hdr .bf16 1 2 0 2 4),
    (0x17040200000077A8, .mmas hdr .bf16 0 0 0 2 4),
    (0x0710000C500077A6, .accDrain hdr 1 2 12 16),
    (0x07080004600075A6, .accDrain ⟨⟨false, 5⟩, ⟨false, 7⟩, 0, 0⟩ 1 4 4 8),
    (0x07050400080077A5, .accRd hdr 0 false false 8 4 5),
    (0x0FFF2000240075A5, .accRd ⟨⟨false, 5⟩, ⟨false, 7⟩, 0, 0⟩ 1 false false 36 32 255)] : List (Dword × Instr)), decode p.1 = .ok p.2 := by decide +kernel

/-- Copy, ring, descent and refinement words (13, 17, 18). -/
theorem test_decode_engines : ∀ p ∈ ([(0x070A0008000077A9, .bcpy hdr false 8 10),
    (0x0F000000000003A9, .bcpy ⟨⟨false, 3⟩, ⟨false, 0⟩, 0, 0⟩ true 0 0),
    (0x1F000000060077AC, .rpop hdr 3 6),
    (0x07000000000077AD, .dscCfg hdr 0),
    (0x07140010000077AE, .dscRun hdr 16 20),
    (0x07001500140277AF, .dscPath ⟨⟨false, 7⟩, ⟨false, 7⟩, 2, 0⟩ 20 21),
    (0x07181210000077B0, .dscGrad hdr 16 18 24),
    (0x07020000000077B1, .rfbStart hdr 0 2)] : List (Dword × Instr)), decode p.1 = .ok p.2 := by decide +kernel

/-- System words (14, 16). -/
theorem test_decode_system : ∀ p ∈ ([(0x07000009050077C0, .srd hdr 5 .grank),
    (0x07000006040077C0, .srd hdr 4 .index),
    (0x00002100000077C2, .trap hdr 0x21),
    (0x0F000000000077C3, .tret hdr true),
    (0x00000500000077C4, .bpt hdr 5),
    (0x07000A08000077C5, .icinv hdr 8 10),
    (0x07000000000077C6, .ifence hdr),
    (0x07000000140077C7, .clk hdr false 20)] : List (Dword × Instr)), decode p.1 = .ok p.2 := by decide +kernel

/-- Words that the manual says are none: a reserved bit, a lookahead where there is none, an odd pair, a reserved opcode (09). -/
theorem test_decode_refused : (decode 0x0700050404407701).toOption = none ∧ (decode 0x0700050404017701).toOption = none ∧
    (decode 0x008300080B007770).toOption = none ∧
    decode 0x00000000000077D4 = .ok (.unassignedOpcode 0x00000000000077D4) ∧ decode 0 = .ok (.unassignedOpcode 0) := by decide +kernel

/-- Queue-program words, built from the fields of R406: PKT x1, 3; MOVI x2, 0x1234; SHLI x3, x1, 8; LDW x4, x2, w 1; BNE x1, x2,
skipping 5; LOOP 2; STG x4, 9; ACT 1 (LAUNCH); END. And words that no form has. -/
theorem test_decode_queue : ∀ p ∈ ([(0x00030101, .qpPkt 3 1), (0x12340202, .qpMovi 0x1234 2), (0x00081303, .qpShli 8 1 3),
    (0x00012408, .qpLdw 1 2 4), (0x0005210B, .qpBne 5 2 1), (0x0002000D, .qpLoop 2), (0x0009040F, .qpStg 9 4),
    (0x00010010, .actLaunch), (0x00000011, .qpEnd)] : List (Word × Instr)), decodeQp p.1 = .ok p.2 := by decide +kernel

/-- A queue-program word with a field that its form does not use, an opcode that is none, and an action that is none (R406). -/
theorem test_decode_queue_refused : (decodeQp 0x00010011).toOption = none ∧ (decodeQp 0x00000012).toOption = none ∧
    (decodeQp 0x00070010).toOption = none ∧ (decodeQp 0x00090008).toOption = none := by decide +kernel

/-! ## Witnesses: instructions of one thread -/

/-- `i` as the next instruction of thread 0, which executes it; the registers of `l` hold its values. -/
def here (i : Instr) (l : List (Nat × Reg) := []) : State :=
  ({ State.reset.placeWord (encodeWord i).toNat with cur := .thread 0, beamRest := [] } : State).updThread 0 fun t =>
    l.foldl (fun t p => t.setReg p.1 p.2) t

/-- What `RunsIf` asks of the thread that acts, from the one thread of `s`. -/
theorem ok_of {s : State} {i : Instr} {ok : Thread → Prop} (t : Thread) (h : (s.landed i [0]).thread? 0 = some t)
    (hok : ok t) (hs : ∀ j ∈ s.acting i [0], j = 0) :
    ∀ j ∈ s.acting i [0], ∀ t, (s.landed i [0]).thread? j = some t → ok t := by
  intro j hj u hu
  rw [hs j hj, h] at hu
  exact Option.some.inj hu ▸ hok

/-- Instructions of O1 to O3 that thread 0 may run, each with a register at a boundary of its range (R233, R255). -/
theorem witness_issues_integer : ([.iadd hdr .wrap 6 247 4 5, .iadd hdr .sat 7 4 4 5, .iadd hdr .usat 0 4 4 5, .isub hdr .wrap 1 4 4 5,
    .isub hdr .sat 1 4 4 5, .isub hdr .usat 1 4 4 5, .imul hdr 4 5 6, .imulh hdr false 4 5 6, .imulh hdr true 4 5 6,
    .imad hdr 4 5 6 7, .iadd64 hdr 1 246 4 6, .isub64 hdr 1 4 4 6, .imin hdr false 4 5 6, .imin hdr true 4 5 6,
    .imax hdr false 4 5 6, .imax hdr true 4 5 6, .iabs hdr false 4 5, .iabs hdr true 4 5, .iaddImm hdr 4 5 0x800000,
    .andImm hdr 4 5 0x7FFFFF, .orImm hdr 4 5 1, .xorImm hdr 4 5 0xFFFFFF, .shl hdr 4 5 6, .shr hdr 4 5 6, .sar hdr 4 5 6,
    .rot hdr 4 5 6, .shlImm hdr 4 5 31, .shrImm hdr 4 5 31, .sarImm hdr 4 5 31, .rotImm hdr 4 5 31, .shl64 hdr 4 6 5,
    .shr64 hdr false 4 6 5, .shr64 hdr true 4 6 5, .bfe hdr true 4 5 6, .bfi hdr 4 5 6 7] : List Instr).all
      (fun i => (here i).issues i [0]) = true := by decide +kernel

theorem witness_issues_moves : ([.perm hdr 4 5 6 7, .sel hdr true 4 5 6 0, .mov hdr false 4 255, .mov hdr true 4 6, .movi hdr 255 7,
    .movhi hdr 4 0x80000000, .lea hdr true 7 4 6 5, .fmtset hdr .bxp 4 5, .fmtget hdr 4 5, .icmp hdr .geu 7 4 5,
    .icmp64 hdr .lt 0 4 6, .pset hdr .xor true false 6 7 0, .pmovGet hdr 4, .pmovPut hdr 4 5, .and hdr 4 5 6, .or hdr 4 5 6,
    .xor hdr 4 5 6, .andn hdr 4 5 6, .popc hdr 4 5, .clz hdr 4 5, .ctz hdr 4 5, .brev hdr 4 5, .yield hdr, .nop hdr, .ifence hdr,
    .fence hdr .ar .sys, .pref hdr true 4 0] : List Instr).all (fun i => (here i).issues i [0]) = true := by decide +kernel

/-- NADDR at the deepest level, 19, and at its last node; NADDR.LEAF at the last leaf (R184, R250). -/
theorem witness_MoveAndPredicateResults (h : Obligations.MoveAndPredicateResults) :
    (∃ s', exec (.naddr hdr false 4 6 8 9) (here (.naddr hdr false 4 6 8 9) [(9, ⟨0x137FFFF, .raw⟩)]) = .next s') ∧
    (∃ s', exec (.naddr hdr true 4 6 8 9) (here (.naddr hdr true 4 6 8 9) [(9, ⟨0xFFFFF, .raw⟩)]) = .next s') :=
  ⟨(h.1.2.2.2.2.2.2.2.2.1 hdr 4 6 8 9 _ [0] (by decide +kernel)
      (ok_of _ rfl (by decide +kernel) (by decide +kernel))).imp fun _ x => x.1,
   (h.1.2.2.2.2.2.2.2.2.2.1 hdr 4 6 8 9 _ [0] (by decide +kernel)
      (ok_of _ rfl (by decide +kernel) (by decide +kernel))).imp fun _ x => x.1⟩

/-- A pair of 0xFFFF in F32 to E4M3, PACK of eight RAW zeros to E2M1, UNPACK and QSCALE of RAW sources (R257 to R260). -/
theorem witness_ConversionResults (h : Obligations.ConversionResults) :
    (∃ s', exec (.cvt hdr .e4m3 .f32 .rz false 6 5 0) (here (.cvt hdr .e4m3 .f32 .rz false 6 5 0) [(5, ⟨0x7F7FFFFF, .f32⟩)]) =
      .next s') ∧
    (∃ s', exec (.cvt hdr .f64 .f32 .rn false 6 5 0) (here (.cvt hdr .f64 .f32 .rn false 6 5 0) [(5, ⟨1, .f32⟩)]) = .next s') ∧
    (∃ s', exec (.pack hdr .e2m1 .rn false false false 24 16 6) (here (.pack hdr .e2m1 .rn false false false 24 16 6)) = .next s') ∧
    (∃ s', exec (.unpack hdr .bx2 .rn false false true 24 16 6) (here (.unpack hdr .bx2 .rn false false true 24 16 6)) = .next s') ∧
    (∃ s', exec (.qscale hdr .e2m1 6 5) (here (.qscale hdr .e2m1 6 5) [(5, ⟨0xFF7FFFFF, .f32⟩)]) = .next s') :=
  ⟨(h.1 _ _ _ _ _ _ _ _ _ [0] (by decide +kernel)
      (ok_of _ rfl (by simp only [Thread.reads, Thread.quiet, Thread.readsF64]; decide +kernel) (by decide +kernel))).imp fun _ x => x.1,
   (h.1 _ _ _ _ _ _ _ _ _ [0] (by decide +kernel)
      (ok_of _ rfl (by simp only [Thread.reads, Thread.quiet, Thread.readsF64]; decide +kernel) (by decide +kernel))).imp fun _ x => x.1,
   (h.2.1 _ _ _ _ _ _ _ _ _ _ [0] (by decide +kernel)
      (ok_of _ rfl (by simp only [Thread.reads, Thread.quiet]; decide +kernel) (by decide +kernel))).imp fun _ x => x.1,
   (h.2.2.2.1 _ _ _ _ _ _ _ _ _ _ [0] (by decide +kernel)
      (ok_of _ rfl (by simp only [Thread.reads, Thread.quiet]; decide +kernel) (by decide +kernel))).imp fun _ x => x.1,
   (h.2.2.2.2 _ _ _ _ _ [0] (by decide +kernel)
      (ok_of _ rfl (by simp only [Thread.reads]; decide +kernel) (by decide +kernel))).imp fun _ x => x.1⟩

/-- The largest finite numbers, of one element and of a pair, of F64, and a compare of each (R299, R301, R302). -/
theorem witness_FloatResults (h : Obligations.FloatResults) :
    (∃ s', exec (.fadd hdr false .ru 4 5 6) (here (.fadd hdr false .ru 4 5 6) [(5, ⟨0x7F7FFFFF, .f32⟩), (6, ⟨1, .raw⟩)]) = .next s') ∧
    (∃ s', exec (.fadd hdr true .rn 4 6 8) (here (.fadd hdr true .rn 4 6 8) [(7, ⟨0x7F800000, .f32⟩)]) = .next s') ∧
    (∃ s', exec (.fcmp hdr .un 6 4 5) (here (.fcmp hdr .un 6 4 5) [(5, ⟨0x7FC00000, .f32⟩)]) = .next s') ∧
    (∃ s', exec (.fadd64 hdr .rn 4 6 8) (here (.fadd64 hdr .rn 4 6 8) [(6, ⟨1, .f64lo⟩), (7, ⟨0x7FEFFFFF, .f64hi⟩)]) = .next s') ∧
    (∃ s', exec (.fcmp64 hdr .le 0 4 6) (here (.fcmp64 hdr .le 0 4 6)) = .next s') :=
  ⟨(h.1.1 hdr false .ru 4 5 6 0 _ (.head _) _ [0] (by decide +kernel)
      (ok_of _ rfl (by simp only [Thread.reads, Thread.quiet]; decide +kernel) (by decide +kernel))).imp fun _ x => x.1,
   (h.1.1 hdr true .rn 4 6 8 0 _ (.head _) _ [0] (by decide +kernel)
      (ok_of _ rfl (by simp only [Thread.reads, Thread.quiet]; decide +kernel) (by decide +kernel))).imp fun _ x => x.1,
   (h.1.2 _ _ _ _ _ _ [0] (by decide +kernel)
      (ok_of _ rfl (by simp only [Thread.reads, Thread.quiet]; decide +kernel) (by decide +kernel))).imp fun _ x => x.1,
   (h.2.1 hdr .rn 4 6 8 0 _ (.head _) _ [0] (by decide +kernel)
      (ok_of _ rfl (by simp only [Thread.reads, Thread.readsF64, Thread.quiet]; decide +kernel) (by decide +kernel))).imp fun _ x => x.1,
   (h.2.2 _ _ _ _ _ _ [0] (by decide +kernel)
      (ok_of _ rfl (by simp only [Thread.reads, Thread.readsF64, Thread.quiet]; decide +kernel) (by decide +kernel))).imp fun _ x => x.1⟩

/-- Infinity of F16 in the upper element; a dot product of E2M1 with an F32 addend (R303, R304). -/
theorem witness_PackedAndDotResults (h : Obligations.PackedAndDotResults) :
    (∃ s', exec (.hadd2 hdr .f16 .rn 4 5 6) (here (.hadd2 hdr .f16 .rn 4 5 6) [(5, ⟨0x7C000001, .f16x2⟩)]) = .next s') ∧
    (∃ s', exec (.dot4 hdr .i8 .rn 4 5 6 7) (here (.dot4 hdr .i8 .rn 4 5 6 7) [(5, ⟨0x80808080, .i8x4⟩), (6, ⟨0x80, .i8x4⟩)]) =
      .next s') :=
  ⟨(h.1 hdr .f16 .rn 4 5 6 0 _ (.head _) _ [0] (by decide +kernel)
      (ok_of _ rfl (by simp only [Thread.reads, Thread.quiet]; decide +kernel) (by decide +kernel))).imp fun _ x => x.1,
   (h.2 hdr .i8 .rn 4 5 6 7 _ (.head _) _ [0] (by decide +kernel)
      (ok_of _ rfl (by simp only [Thread.reads, Thread.quiet]; decide +kernel) (by decide +kernel))).imp fun _ x => x.1⟩

/-- FSQRT of 4 with LA 0 and with LA 15, and FRCP of 0 (R164, R305). -/
theorem witness_SpecialFunctionResults (h : Obligations.SpecialFunctionResults) :
    (∃ s', exec (.frcp hdr 4 5) (here (.frcp hdr 4 5)) = .next s') ∧
    (∃ s', exec (.fsqrt ⟨⟨false, 7⟩, ⟨false, 7⟩, 15, 0⟩ .ru 4 5) (here (.fsqrt ⟨⟨false, 7⟩, ⟨false, 7⟩, 15, 0⟩ .ru 4 5)
      [(5, ⟨0x40800000, .f32⟩)]) = .next s') :=
  ⟨(h.1 hdr .rn 4 5 _ (.head _) _ [0] (by decide +kernel)
      (ok_of _ rfl (by simp only [Thread.reads, Thread.quiet]; decide +kernel) (by decide +kernel))).imp fun _ x => x.1,
   (h.1 ⟨⟨false, 7⟩, ⟨false, 7⟩, 15, 0⟩ .ru 4 5 _ (.tail _ (.tail _ (.head _))) _ [0] (by decide +kernel)
      (ok_of _ rfl (by simp only [Thread.reads, Thread.quiet]; decide +kernel) (by decide +kernel))).imp fun _ x => x.1⟩

/-! ## Witnesses: bound groups and control flow -/

/-- `i` as the next instruction of a bound group of `n` threads in lanes 0 to n − 1, whose task has 64 KiB of scratchpad. -/
def together (i : Instr) (n : Nat := 2) : State :=
  { here i with
    cur := .frag 5 0
    threads := (List.range n).map fun k =>
      { placedThread with tid := k, place := .core 0 0 k 0, member := some (5, k), rank := k }
    groups := [{ gid := 5, num := 3, ctx := 0, die := 0, core := 0, members := List.range n, tile := n
                 frags := [{ id := 0, mask := BitVec.ofNat 32 (2 ^ n - 1), parent := 0 }] }]
    tasks := [{ placedTask with alloc := some (0, 65536) }] }

/-- Whether an operation answers. -/
def isOk {α β : Type} : Except β α → Bool
  | .ok _ => true
  | .error _ => false

/-- Its answer. -/
def answer {α β : Type} : (x : Except β α) → isOk x = true → α
  | .ok a, _ => a

theorem getOk {α β : Type} : {x : Except β α} → (h : isOk x = true) → x = .ok (answer x h)
  | .ok _, _ => rfl

theorem notOk {α β : Type} {a : α} : {x : Except β α} → isOk x = false → x ≠ .ok a
  | .error _, _ => nofun

theorem collects {i : Instr} {f : Coll → State → Option State} (h : Collects i f) (s : State) (tids : List Nat)
    (hi : s.issues i tids = true) (hc : (s.coll i tids).isSome = true) (ha : s.acting i tids ≠ [])
    (hf : (f ((s.coll i tids).get hc) (s.landed i tids)).isSome = true) : ∃ s', exec i s = .next s' :=
  (h s tids _ _ hi (Option.some_get hc).symm ha (Option.some_get hf).symm).imp fun _ x => x.1

theorem does {i : Instr} {f : Thread → State → Option State} (h : Does i f) (s : State) (tids : List Nat)
    (hi : s.issues i tids = true) (hf : ((s.landed i tids).each f (s.acting i tids)).isSome = true) :
    ∃ s', exec i s = .next s' :=
  (h s tids hi _ (Option.some_get hf).symm).imp fun _ x => x.1

theorem flows {i : Instr} {f : Thread → State → Option (State × Dword)} (h : Flows i f) (s : State) (first : Nat) (rest : List Nat)
    (hi : s.issues i (first :: rest) = true) (ht : (s.thread? first).isSome = true)
    (hf : ((s.landed i (first :: rest)).eachFlow f (s.acting i (first :: rest))).isSome = true) : ∃ s', exec i s = .next s' :=
  (h s first rest _ _ hi (Option.some_get ht).symm (Option.some_get hf).symm).imp fun _ x => x.1

theorem awaits {i : Instr} {f : Thread → State → Option (State × Option Status)} (h : Awaits i f) (s : State) (tids : List Nat)
    (hi : s.issues i tids = true) (hf : ((s.landed i tids).eachAwait f (s.acting i tids)).isSome = true)
    (ha : ∀ k ∈ (((s.landed i tids).eachAwait f (s.acting i tids)).get hf).1.tasks, k.adoptedBy = []) :
    ∃ s', exec i s = .next s' :=
  (h s tids _ hi (Option.some_get hf).symm ha).imp fun _ x => x.1

/-- BIND of two threads as the next instruction of thread 0, after thread 1 has come to it. -/
def bindsLast : State :=
  let i := Instr.bind hdr 1 4
  let s := here i
  ({ s with threads := s.threads ++ [{ placedThread with tid := 1, place := .core 0 0 1 0, status := .parked .bind }] } : State).updCore 0
    fun c => { c with forming := [⟨0, 2, 1, 1⟩] }

/-- BIND of the last of two, which makes a group, and of the first of 32, which waits; the group instructions of a whole group of two; GBAR
of a group of 32 (R308 to R316). -/
theorem witness_GroupFormationAndControl (h : Obligations.GroupFormationAndControl) :
    (∃ s', exec (.bind hdr 1 4) bindsLast = .next s') ∧ (∃ s', exec (.bind hdr 31 4) (here (.bind hdr 31 4)) = .next s') ∧
    (∃ s', exec (.unbind hdr) (together (.unbind hdr)) = .next s') ∧
    (∃ s', exec (.part hdr 0) (together (.part hdr 0)) = .next s') ∧ (∃ s', exec (.part hdr 1) (together (.part hdr 1)) = .next s') ∧
    (∃ s', exec (.gbar hdr) (together (.gbar hdr) 32) = .next s') ∧
    (∃ s', exec (.gfence hdr .dev) (together (.gfence hdr .dev)) = .next s') :=
  ⟨((h.1 hdr 1 4 _ _ placedThread 0 0 0 0 rfl (by decide +kernel) (by decide +kernel) (by decide +kernel) rfl rfl (by decide +kernel)
      rfl).1 (by decide +kernel)).imp fun _ x => x.1,
   ((h.1 hdr 31 4 _ _ placedThread 0 0 0 0 rfl (by decide +kernel) (by decide +kernel) (by decide +kernel) rfl rfl (by decide +kernel)
      rfl).2 (by decide +kernel)).imp fun _ x => x.1,
   collects (h.2.1 hdr) _ [0, 1] (by decide +kernel) (by decide +kernel) (by decide +kernel) (by decide +kernel),
   collects (h.2.2.1 hdr 0) _ [0, 1] (by decide +kernel) (by decide +kernel) (by decide +kernel) (by decide +kernel),
   collects (h.2.2.1 hdr 1) _ [0, 1] (by decide +kernel) (by decide +kernel) (by decide +kernel) (by decide +kernel),
   collects (h.2.2.2.1 hdr) _ (List.range 32) (by decide +kernel) (by decide +kernel) (by decide +kernel) (by decide +kernel),
   collects (h.2.2.2.2 hdr .dev) _ [0, 1] (by decide +kernel) (by decide +kernel) (by decide +kernel) (by decide +kernel)⟩

/-- VOTE, SHFL of a source position outside its tile, GSHFL, SBCAST of the last rank, SMOV of s63, REDUCE and SCAN of F32 in a
group of two (R311 to R315). -/
theorem witness_GroupCollectiveResults (h : Obligations.GroupCollectiveResults) :
    (∃ s', exec (.vote hdr .mask false 7 7 1) (together (.vote hdr .mask false 7 7 1)) = .next s') ∧
    (∃ s', exec (.shfl hdr .xch 7 12 4 13) (together (.shfl hdr .xch 7 12 4 13)) = .next s') ∧
    (∃ s', exec (.gshfl hdr 4 5 6) (together (.gshfl hdr 4 5 6)) = .next s') ∧
    (∃ s', exec (.sbcast hdr false 4 5 1) (together (.sbcast hdr false 4 5 1)) = .next s') ∧
    (∃ s', exec (.sbcast hdr true 4 6 0) (together (.sbcast hdr true 4 6 0)) = .next s') ∧
    (∃ s', exec (.smovRead hdr 4 63) (together (.smovRead hdr 4 63)) = .next s') ∧
    (∃ s', exec (.smovWrite hdr 63 4 1) (together (.smovWrite hdr 63 4 1)) = .next s') ∧
    (∃ s', exec (.reduce hdr .famax 4 5) (together (.reduce hdr .famax 4 5)) = .next s') ∧
    (∃ s', exec (.scan hdr .add true 4 5) (together (.scan hdr .add true 4 5)) = .next s') :=
  ⟨collects (h.1.1 _ _ _ _ _ _) _ [0, 1] (by decide +kernel) (by decide +kernel) (by decide +kernel) (by decide +kernel),
   collects (h.1.2.1 _ _ _ _ _ _) _ [0, 1] (by decide +kernel) (by decide +kernel) (by decide +kernel) (by decide +kernel),
   collects (h.1.2.2.1 _ _ _ _) _ [0, 1] (by decide +kernel) (by decide +kernel) (by decide +kernel) (by decide +kernel),
   collects (h.1.2.2.2.1 _ _ _ _) _ [0, 1] (by decide +kernel) (by decide +kernel) (by decide +kernel) (by decide +kernel),
   collects (h.1.2.2.2.2.1 _ _ _ _) _ [0, 1] (by decide +kernel) (by decide +kernel) (by decide +kernel) (by decide +kernel),
   collects (h.1.2.2.2.2.2.1 _ _ _) _ [0, 1] (by decide +kernel) (by decide +kernel) (by decide +kernel) (by decide +kernel),
   collects (h.1.2.2.2.2.2.2 _ _ _ _) _ [0, 1] (by decide +kernel) (by decide +kernel) (by decide +kernel) (by decide +kernel),
   collects (h.2.1 _ _ _ _) _ [0, 1] (by decide +kernel) (by decide +kernel) (by decide +kernel) (by decide +kernel),
   collects (h.2.2 _ _ _ _ _) _ [0, 1] (by decide +kernel) (by decide +kernel) (by decide +kernel) (by decide +kernel)⟩

/-- `i` as the next instruction of thread 0, with `n` entries of its return stack on chip and `m` in its spill area of two. -/
def deep (i : Instr) (n m : Nat) : State :=
  (here i).updThread 0 fun t => { t with rstack := List.replicate n 8, spillBytes := 16, spilled := m, tlsBase := 0x50000 }

/-- BRA by the least immediate that stays canonical and by the greatest; BRX to address 0; CALL with 7 entries; CALLX; RET of the
one entry; CALL with 8 entries and with the spill area full, RET with all entries spilled and with none; CALL, CALLX and RET
that so reach the spill area (R263 to R266). -/
theorem witness_BranchAndReturnResults (h : Obligations.BranchAndReturnResults) :
    (∃ s', exec (.bra hdr 0xFFC000) (here (.bra hdr 0xFFC000)) = .next s') ∧
    (∃ s', exec (.bra hdr 0x7FFFFF) (here (.bra hdr 0x7FFFFF)) = .next s') ∧
    (∃ s', exec (.brx hdr 4) (here (.brx hdr 4)) = .next s') ∧
    (let s := (here (.call hdr 2)).updThread 0 fun t => { t with rstack := List.replicate 7 8 }
      ∃ s', exec (.call hdr 2) s = .next s') ∧
    (∃ s', exec (.callx hdr 4) (here (.callx hdr 4)) = .next s') ∧
    (let s := (here (.ret hdr)).updThread 0 fun t => { t with rstack := [8] }
      ∃ s', exec (.ret hdr) s = .next s') ∧
    (let t : Thread := { placedThread with rstack := List.replicate 8 8, spillBytes := 8, tlsBase := 0x50000, tlsBytes := 0 }
      ∃ x, (here (.call hdr 2)).pushReturn t 16 = .ok x) ∧
    (let t : Thread := { placedThread with rstack := List.replicate 8 8, spillBytes := 8, spilled := 1 }
      ∃ x, (here (.call hdr 2)).pushReturn t 16 = .error x) ∧
    (let t : Thread := { placedThread with spillBytes := 8, spilled := 1, tlsBase := 0x50000 }
      ∃ x, (here (.ret hdr)).popReturn t = .ok x) ∧ (∃ x, (here (.ret hdr)).popReturn placedThread = .error x) ∧
    (let t : Thread := { placedThread with rstack := List.replicate 8 8, spillBytes := 16, spilled := 1, tlsBytes := 4 }
      ∃ x, (here (.ret hdr)).pushReturn t 16 = .error x) ∧
    (let t : Thread := { placedThread with spillBytes := 16, spilled := 1, tlsBytes := 4 }
      ∃ x, (here (.ret hdr)).popReturn t = .error x) ∧
    (∃ s', exec (.call hdr 2) (deep (.call hdr 2) 8 0) = .next s') ∧ (∃ s', exec (.callx hdr 4) (deep (.callx hdr 4) 8 0) = .next s') ∧
    (∃ s', exec (.ret hdr) (deep (.ret hdr) 0 1) = .next s') :=
  ⟨flows (h.1.2.1 _ _) _ 0 [] (by decide +kernel) (by decide +kernel) (by decide +kernel),
   flows (h.1.2.1 _ _) _ 0 [] (by decide +kernel) (by decide +kernel) (by decide +kernel),
   flows (h.1.2.2.1 _ _) _ 0 [] (by decide +kernel) (by decide +kernel) (by decide +kernel),
   flows (h.1.2.2.2.1 _ _) _ 0 [] (by decide +kernel) (by decide +kernel) (by decide +kernel),
   flows (h.1.2.2.2.2.1 _ _) _ 0 [] (by decide +kernel) (by decide +kernel) (by decide +kernel),
   flows (h.1.2.2.2.2.2 _) _ 0 [] (by decide +kernel) (by decide +kernel) (by decide +kernel),
   ⟨_, h.2.1 _ _ _ _ (by decide) (by decide) (by decide) (getOk (by decide +kernel))⟩,
   ⟨_, h.2.2.1 _ _ _ (by decide) (by decide)⟩,
   ⟨_, h.2.2.2.2.2.2.1 _ _ _ (by decide) (by decide) (by decide) (getOk (by decide +kernel))⟩,
   ⟨_, h.2.2.2.2.2.2.2.1 _ _ (by decide) (by decide)⟩,
   ⟨_, h.2.2.2.2.1 _ _ _ (by decide) (by decide) (by decide)⟩, ⟨_, h.2.2.2.2.2.1 _ _ (by decide) (by decide) (by decide)⟩,
   flows (h.2.2.2.2.2.2.2.2.1 _ _) _ 0 [] (by decide +kernel) (by decide +kernel) (by decide +kernel),
   flows (h.2.2.2.2.2.2.2.2.2.1 _ _) _ 0 [] (by decide +kernel) (by decide +kernel) (by decide +kernel),
   flows (h.2.2.2.2.2.2.2.2.2.2 _) _ 0 [] (by decide +kernel) (by decide +kernel) (by decide +kernel)⟩

/-- No thread of `s` awaits a result. -/
theorem pend_of {s : State} {l : List Nat} (h : s.threads.all (·.pend.isEmpty) = true) :
    ∀ j ∈ l, ∀ t, s.thread? j = some t → ∀ p ∈ t.pend, p.known = true := by
  intro j _ t ht p hp
  have := List.all_eq_true.mp h t (List.mem_of_find?_eq_some ht)
  rw [List.isEmpty_iff.mp this] at hp
  cases hp

/-- EXIT of the one thread of a task, and of both threads of a bound group; the ends that these lead to; MSET and MEET of a free thread, of a group with a full merge stack but one, and MEET at the
address of the topmost entry (R44, R45, R268, R269). -/
theorem witness_ExitAndMergeResults (h : Obligations.ExitAndMergeResults) :
    (∃ s', exec (.exit hdr) (here (.exit hdr)) = .next s') ∧ (∃ s', exec (.exit hdr) (together (.exit hdr)) = .next s') ∧
    ((here (.exit hdr)).exitThread placedThread).task? placedThread.task = none ∧
    (∃ e, ({ together (.nop hdr) with threads := [] } : State).endTask 0 none = e) ∧
    (∃ g, ((together (.exit hdr)).dropThread 0).group? 5 = some g) ∧
    (((together (.exit hdr)).dropThread 0).dropThread 1).group? 5 = none ∧
    (∃ s', exec (.mset hdr 0) (here (.mset hdr 0)) = .next s') ∧ (∃ s', exec (.meet hdr) (here (.meet hdr)) = .next s') ∧
    (let s := (together (.mset hdr 1)).updGroup 5 fun g => { g with merge := List.replicate 31 { pc := 8, mask := 3 } }
      ∃ s', exec (.mset hdr 1) s = .next s') ∧
    (∃ s', exec (.meet hdr) (together (.meet hdr)) = .next s') ∧
    (let s := (together (.meet hdr)).updGroup 5 fun g => { g with merge := [{ pc := 0x20000, mask := 3 }, { pc := 0x20000, mask := 3 }] }
      ∃ s', exec (.meet hdr) s = .next s') :=
  ⟨⟨_, (h.1 hdr (here (.exit hdr)) placedThread rfl (by decide +kernel) (by decide +kernel) (by decide +kernel) (by decide +kernel)
      (by decide +kernel)).1⟩,
   ⟨_, h.2.1 hdr (together (.exit hdr)) 5 0 0 [1] _ rfl (by decide +kernel) (by decide +kernel)
      (Option.some_get (by decide +kernel)).symm (pend_of (by decide +kernel)) (by decide +kernel)⟩,
   h.2.2.2.2.1 _ _ (by decide +kernel),
   ⟨_, h.2.2.2.2.2.1 _ 0 { placedTask with alloc := some (0, 65536) } 0 0 (by decide +kernel) (by decide +kernel) rfl rfl rfl rfl⟩,
   ((h.2.2.2.2.2.2.1 _ ((together (.exit hdr)).threads.head (by decide)) 5 0 _ rfl rfl rfl).2 (by decide +kernel)).imp fun _ x => x.1,
   (h.2.2.2.2.2.2.1 _ ((together (.exit hdr)).threads.getLast (by decide)) 5 1 _ (by decide +kernel) rfl
      (Option.some_get (by decide +kernel)).symm).1 (by decide +kernel),
   (h.2.2.2.2.2.2.2.1 hdr 0 _ (.head _) _ 0 rfl (by decide +kernel)).imp fun _ x => x.1,
   (h.2.2.2.2.2.2.2.1 hdr 0 _ (.tail _ (.head _)) _ 0 rfl (by decide +kernel)).imp fun _ x => x.1,
   collects (h.2.2.2.2.2.2.2.2.1 _ _) _ [0, 1] (by decide +kernel) (by decide +kernel) (by decide +kernel) (by decide +kernel),
   collects (h.2.2.2.2.2.2.2.2.2.1 _) _ [0, 1] (by decide +kernel) (by decide +kernel) (by decide +kernel) (by decide +kernel),
   ⟨_, h.2.2.2.2.2.2.2.2.2.2.1 hdr _ [0, 1] _ 1 (by decide +kernel) (Option.some_get (by decide +kernel)).symm (by decide +kernel)
      (by decide +kernel)⟩⟩

/-! ## Witnesses: memory, tasks and objects -/

/-- `here` where the task has 64 KiB of scratchpad, the thread 64 bytes of thread-local memory, and device memory from
0x30000 holds the bytes of `m`. -/
def held (i : Instr) (l : List (Nat × Reg) := []) (m : List Byte := []) : State :=
  (({ here i l with tasks := [{ placedTask with alloc := some (0, 65536) }] } : State).updThread 0 fun t =>
    { t with tlsBase := 0x50000, tlsBytes := 64 }).putMem 0x30000 m

/-- The last bytes of the mapped memory, of the scratchpad allocation and of the thread-local memory, and a negative offset from
address 8 (R273). -/
theorem witness_LoadResults (h : Obligations.LoadResults) :
    (∃ s', exec (.ld hdr .b64 .acq .dev 4 6 0) (held (.ld hdr .b64 .acq .dev 4 6 0) [(6, ⟨0xFFFFFFF8, .raw⟩)]) = .next s') ∧
    (∃ s', exec (.ld hdr .b8 .rlx .core 4 6 0xFF) (held (.ld hdr .b8 .rlx .core 4 6 0xFF) [(6, ⟨8, .raw⟩)]) = .next s') ∧
    (∃ s', exec (.lds hdr .b32 .rlx .core 4 6 0) (held (.lds hdr .b32 .rlx .core 4 6 0) [(6, ⟨65532, .raw⟩)]) = .next s') ∧
    (∃ s', exec (.ldl hdr .b256 .rlx .core 8 6 1) (held (.ldl hdr .b256 .rlx .core 8 6 1)) = .next s') ∧
    (∃ l, (here (.nop hdr)).dataLoad placedThread 0x30000 4 0 = .ok l) :=
  ⟨does (h.1 _ _ _ _ _ _ _) _ [0] (by decide +kernel) (by decide +kernel),
   does (h.1 _ _ _ _ _ _ _) _ [0] (by decide +kernel) (by decide +kernel),
   does (h.2.2.2.1 _ _ _ _ _ _ _) _ [0] (by decide +kernel) (by decide +kernel),
   does (h.2.2.2.2.1 _ _ _ _ _ _ _) _ [0] (by decide +kernel) (by decide +kernel),
   ⟨_, (h.2.1 _ placedThread 0x30000 4 0 0x30000 (by decide +kernel) (by decide +kernel) (by decide +kernel) (by decide +kernel)).1⟩⟩

/-- The same places stored to (R273); the frames of ST and LD at one address; and an access that no breakpoint, poison or
device stops, of a thread. -/
theorem witness_StoreResultsAndFrame (h : Obligations.StoreResultsAndFrame) :
    (∃ s', exec (.st hdr .b64 .rel .dev 6 4 0) (held (.st hdr .b64 .rel .dev 6 4 0) [(6, ⟨0xFFFFFFF8, .raw⟩)]) = .next s') ∧
    (∃ s', exec (.sts hdr .b32 .rlx .core 6 4 0) (held (.sts hdr .b32 .rlx .core 6 4 0) [(6, ⟨65532, .raw⟩)]) = .next s') ∧
    (∃ s', exec (.stl hdr .b256 .rlx .core 6 8 1) (held (.stl hdr .b256 .rlx .core 6 8 1)) = .next s') ∧
    (let s := here (.st hdr .b16 .rlx .core 6 4 1) [(4, ⟨0xABCD, .raw⟩)]
      ∃ s', exec (.st hdr .b16 .rlx .core 6 4 1) s = .next s') ∧
    (∃ s', exec (.ld hdr .b16 .rlx .core 4 6 1) (here (.ld hdr .b16 .rlx .core 4 6 1)) = .next s') ∧
    (∃ x, (here (.nop hdr)).storeTarget placedThread 0x30000 4 true = .ok x) ∧
    ((State.reset).putScratch 8 [1]).mem = State.reset.mem ∧
    (∃ e, (held (.nop hdr)).localStore placedThread 0 [1, 2] 0 = .ok e ∧ e.scratch = (held (.nop hdr)).scratch) ∧
    (∀ e, (held (.nop hdr)).localStore { placedThread with tlsBase := 0x8000000000000000 } 0 [1] 0 ≠ .ok e) :=
  ⟨does (h.1.1 _ _ _ _ _ _ _) _ [0] (by decide +kernel) (by decide +kernel),
   does (h.1.2.2.1 _ _ _ _ _ _ _) _ [0] (by decide +kernel) (by decide +kernel),
   does (h.1.2.2.2.1 _ _ _ _ _ _ _) _ [0] (by decide +kernel) (by decide +kernel),
   (h.2.1 hdr .b16 .rlx .core 6 4 1 _ ((here (.st hdr .b16 .rlx .core 6 4 1) [(4, ⟨0xABCD, .raw⟩)]).threads.head (by decide +kernel)) 2
      (by unfold State.Inv; decide +kernel) rfl (by decide +kernel) (by decide +kernel) (by decide +kernel) (by decide +kernel)
      (by decide +kernel)).imp fun _ x => x.choose_spec.1,
   (h.2.2 hdr .b16 .rlx .core 4 6 1 _ placedThread _ rfl (by decide +kernel) (by decide +kernel) (by decide +kernel)
      (by decide +kernel) (getOk (by decide +kernel))).imp fun _ x => x.1,
   ⟨_, h.1.2.1 _ _ _ _ 0x30000 (by decide +kernel) (by decide +kernel) (by decide +kernel)⟩,
   (h.1.2.2.2.2.2.1 _ 8 [1] 8 (by unfold State.Inv; decide +kernel)).1,
   ⟨_, getOk (by decide +kernel), (h.1.2.2.2.2.2.2.1 _ _ _ 0 [1, 2] 0 0 (by unfold State.Inv; decide +kernel)
      (getOk (by decide +kernel))).1⟩,
   h.1.2.2.2.2.2.2.2 _ _ 0 [1] 0 (fun _ e => Place.noConfusion e) (fun _ => notOk (by decide +kernel))⟩

/-- ATOM.CAS of 64 bits, RED.FADD, and both on the scratchpad at its last word, each where `Does` holds; ATOM.FMIN of F64, RED.XOR
at the last mapped word, and both on the scratchpad at the last and the first word of the allocation; a plain access that
nothing stops (R277, R278). -/
theorem witness_AtomicResults (h : Obligations.AtomicResults) :
    (∃ s', exec (.atom hdr .cas .b64 .ar .sys 4 6 8) (held (.atom hdr .cas .b64 .ar .sys 4 6 8)) = .next s') ∧
    (∃ s', exec (.red hdr .fadd .f32 .rlx .core 6 8) (held (.red hdr .fadd .f32 .rlx .core 6 8)) = .next s') ∧
    (∃ s', exec (.atomScratchpad hdr .max .b32 .rlx .core 4 6 8) (held (.atomScratchpad hdr .max .b32 .rlx .core 4 6 8)
      [(6, ⟨65532, .raw⟩)]) = .next s') ∧
    (∃ s', exec (.redScratchpad hdr .add .b64 .rlx .core 6 8) (held (.redScratchpad hdr .add .b64 .rlx .core 6 8)) = .next s') ∧
    (∃ x, (held (.nop hdr)).atomGlobal placedThread .add .b32 6 8 = .ok x) ∧
    (∃ x, (held (.nop hdr)).atomScratch placedThread .add .b32 6 8 = .ok x) :=
  ⟨does (h.2.2.1 _ _ _ _ _ _ _ _) _ [0] (by decide +kernel) (by decide +kernel),
   does (h.2.2.2.1 _ _ _ _ _ _ _) _ [0] (by decide +kernel) (by decide +kernel),
   does (h.2.2.2.2.2.1 _ _ _ _ _ _ _ _) _ [0] (by decide +kernel) (by decide +kernel),
   does (h.2.2.2.2.2.2.1 _ _ _ _ _ _ _) _ [0] (by decide +kernel) (by decide +kernel),
   ⟨_, h.2.2.2.2.1 _ _ .add .b32 6 8 0 0 (by decide) (by decide +kernel) (by decide +kernel) (by decide +kernel)
      (by decide +kernel) (by decide +kernel)⟩,
   ⟨_, h.2.2.2.2.2.2.2.1 _ _ .add .b32 6 8 (by decide) (by decide +kernel) (by decide +kernel)⟩⟩

/-- The one thread of `held`, as an instruction finds it. -/
def heldThread (i : Instr) (l : List (Nat × Reg)) : Thread :=
  ((((held i l).landed i [0]).thread? 0)).getD placedThread

theorem witness_atomics_complete (h : Obligations.AtomicResults) :
    (let i := Instr.atom hdr .fmin .f64 .rlx .core 4 6 8
      ∃ s', exec i (held i [(6, ⟨0xFFFFFFF8, .raw⟩), (8, ⟨0, .f64lo⟩), (9, ⟨0, .f64hi⟩)]) = .next s') ∧
    (let i := Instr.red hdr .xor .b32 .rlx .core 6 8
      ∃ s', exec i (held i [(6, ⟨0xFFFFFFFC, .raw⟩)]) = .next s') ∧
    (let i := Instr.atomScratchpad hdr .fmax .f32 .rlx .core 4 6 8
      ∃ s', exec i (held i [(6, ⟨65532, .raw⟩), (8, ⟨0x7FC00000, .f32⟩)]) = .next s') ∧
    (let i := Instr.redScratchpad hdr .swap .b64 .rlx .core 6 8
      ∃ s', exec i (held i) = .next s') := by
  refine ⟨?_, ?_, ?_, ?_⟩
  · exact (h.1 hdr .fmin .f64 .rlx .core 4 6 8 _ (heldThread (.atom hdr .fmin .f64 .rlx .core 4 6 8)
      [(6, ⟨0xFFFFFFF8, .raw⟩), (8, ⟨0, .f64lo⟩), (9, ⟨0, .f64hi⟩)]) 0xFFFFFFF8 _ (.head _) (by decide +kernel) (by decide +kernel)
      (by decide +kernel) (by decide +kernel) (fun _ => by simp only [if_pos, Thread.readsF64, Thread.reads]; decide +kernel)
      (by decide +kernel) (by decide +kernel) (by decide +kernel) (by decide +kernel) (by decide +kernel)).imp fun _ x => x.1
  · exact (h.1 hdr .xor .b32 .rlx .core 4 6 8 _ (heldThread (.red hdr .xor .b32 .rlx .core 6 8) [(6, ⟨0xFFFFFFFC, .raw⟩)])
      0xFFFFFFFC _ (.tail _ (.head _)) (by decide +kernel) (by decide +kernel) (by decide +kernel) (by decide +kernel) (by simp)
      (by decide +kernel) (by decide +kernel) (by decide +kernel) (by decide +kernel) (by decide +kernel)).imp fun _ x => x.1
  · exact (h.2.1 hdr .fmax .f32 .rlx .core 4 6 8 _ (heldThread (.atomScratchpad hdr .fmax .f32 .rlx .core 4 6 8)
      [(6, ⟨65532, .raw⟩), (8, ⟨0x7FC00000, .f32⟩)]) _ (.head _) (by decide +kernel) (by decide +kernel) (by decide +kernel)
      (by decide +kernel) (fun _ => by rw [if_neg (by decide)]; simp only [Thread.reads]; decide +kernel)
      (by decide +kernel) (by decide +kernel)).imp fun _ x => x.1
  · exact (h.2.1 hdr .swap .b64 .rlx .core 4 6 8 _ (heldThread (.redScratchpad hdr .swap .b64 .rlx .core 6 8) []) _
      (.tail _ (.head _)) (by decide +kernel) (by decide +kernel) (by decide +kernel) (by decide +kernel) (by simp)
      (by decide +kernel) (by decide +kernel)).imp fun _ x => x.1

/-- LDA of 32 bytes of which 20 are read, to the last place of the allocation; LDA that reads none; its landing; WTAG of a tag
with one copy, at limit 1; PREF, CWB and CINV (R275, R276, R280). -/
theorem witness_CopyFenceCacheResults (h : Obligations.CopyFenceCacheResults) :
    (∃ s', exec (.lda hdr .b256 7 4 6 8) (held (.lda hdr .b256 7 4 6 8) [(4, ⟨65504, .raw⟩), (8, ⟨20, .raw⟩)]) = .next s') ∧
    (∃ s', exec (.lda hdr .b32 0 4 6 8) (held (.lda hdr .b32 0 4 6 8) [(7, ⟨0x80000000, .raw⟩)]) = .next s') ∧
    (let c : LdaCopy := { id := 3, seq := 0, tid := 0, ctx := 0, tag := 0, dst := 0, size := 32, src := 0x30000, n := 20 }
      ∃ s', exec (.ldaLand 3) { held (.nop hdr) with ldas := [c] } = .next s') ∧
    (let c : LdaCopy := { id := 3, seq := 0, tid := 0, ctx := 0, tag := 2, dst := 0, size := 32, src := 0x30000, n := 20 }
      ∃ s', exec (.wtag hdr 2 1) { held (.wtag hdr 2 1) with ldas := [c] } = .next s') ∧
    (∃ s', exec (.pref hdr true 4 0) (held (.pref hdr true 4 0)) = .next s') ∧
    (∃ s', exec (.cwb hdr true 4 0) (held (.cwb hdr true 4 0)) = .next s') ∧
    (∃ s', exec (.cinv hdr false 4 0) (held (.cinv hdr false 4 0)) = .next s') ∧
    (let c : LdaCopy := { id := 3, seq := 0, tid := 0, ctx := 0, tag := 0, dst := 0, size := 32, src := 0x30000, n := 20 }
      ∃ l, (held (.nop hdr)).copySource c = .ok l) :=
  ⟨does (h.1 _ _ _ _ _ _) _ [0] (by decide +kernel) (by decide +kernel),
   does (h.1 _ _ _ _ _ _) _ [0] (by decide +kernel) (by decide +kernel),
   ⟨_, h.2.2.2.1 _ { id := 3, seq := 0, tid := 0, ctx := 0, tag := 0, dst := 0, size := 32, src := 0x30000, n := 20 } _ rfl
      (.inr ⟨rfl, getOk (by decide +kernel)⟩)⟩,
   does (h.2.2.2.2.2.1 _ _ _) _ [0] (by decide +kernel) (by decide +kernel),
   does (h.2.2.2.2.2.2.2.1 _ _ _ _) _ [0] (by decide +kernel) (by decide +kernel),
   does (h.2.2.2.2.2.2.2.2.2.1 _ _ _ _) _ [0] (by decide +kernel) (by decide +kernel),
   does (h.2.2.2.2.2.2.2.2.2.2.1 _ _ _ _) _ [0] (by decide +kernel) (by decide +kernel),
   ⟨_, h.2.2.1 _ _ 0x30000 (by decide) (by decide +kernel) (by decide +kernel)⟩⟩

/-- A kernel header of 248 registers and bind size 1 (R366). -/
def header : List Byte := natLe 64 (0x484B5853 + 2 ^ 32 + 248 * 2 ^ 48 + 2 ^ 56)

/-- SPAWN with a future, with none, and into a queue that is full; the task's start (R281, R30). -/
theorem witness_SpawnAndTaskStart (h : Obligations.SpawnAndTaskStart) :
    (let i := Instr.spawn hdr false 2 4 8 6
      ∃ s', exec i (held i [(4, ⟨0x30040, .raw⟩), (6, ⟨0x40000, .raw⟩)] header) = .next s') ∧
    (let i := Instr.spawn hdr true 2 4 8 0
      ∃ s', exec i (held i [(4, ⟨0x30040, .raw⟩)] header) = .next s') ∧
    (let r : QRec := { num := 0, ctx := 0, entry := 8, args := [1, 2, 3, 4], hdr := { regs := 248 } }
      let s := (held (.nop hdr)).updCore 0 fun c => { c with queue := List.replicate 1024 r }
      s.placeSpawn 0 r = none) :=
  ⟨does (h.1.1 _ _ _ _ _ _) _ [0] (by decide +kernel) (by decide +kernel),
   does (h.1.1 _ _ _ _ _ _) _ [0] (by decide +kernel) (by decide +kernel),
   h.1.2.2 _ _ _ (by decide +kernel) (.inl (by decide +kernel)) (by decide +kernel)⟩

theorem witness_task_start (h : Obligations.SpawnAndTaskStart) :
    let r : QRec := { num := 0, ctx := 0, entry := 8, args := [1, 2, 3, 4], hdr := { regs := 248 } }
    ∀ e, (held (.nop hdr)).start 0 r 0 [(1, 3)] 0 [] = some e → ∃ t ∈ e.threads, t.pc = 8 := by
  intro r e he
  exact (h.2 _ e 0 r 0 (1, 3) 0 [] rfl rfl he).imp fun _ x => ⟨x.1, x.2.2.1⟩

theorem witness_task_starts : let r : QRec := { num := 0, ctx := 0, entry := 8, args := [1, 2, 3, 4], hdr := { regs := 248 } }
    ((held (.nop hdr)).start 0 r 0 [(1, 3)] 0 []).isSome = true := by decide +kernel

/-- A future's 16 bytes at 0x30000: EMPTY, and DONE with the value 7 (R63). -/
def empty : List Byte := natLe 16 (0xFFFFFFFF * 2 ^ 64)
def done : List Byte := natLe 16 (7 + 0xFFFFFFFF * 2 ^ 64 + 2 ^ 96)

/-- WAIT on a future with a value, on an EMPTY one with the longest limit, on one whose time has passed and on one whose owner was
saved Trapped; FSET of an EMPTY future and of one with a value; FNEW of both kinds (R282 to R285). -/
theorem witness_FutureObjectResults (h : Obligations.FutureObjectResults) :
    (let i := Instr.wait hdr .dev 8 4 7 0
      ∃ s', exec i (held i [(4, ⟨0x30000, .raw⟩)] done) = .next s') ∧
    (let i := Instr.wait hdr .dev 8 4 7 0xFF
      ∃ s', exec i (held i [(4, ⟨0x30010, .raw⟩), (7, ⟨0xFFFFF, .raw⟩)] empty) = .next s') ∧
    (let i := Instr.wait hdr .dev 8 4 7 0
      ∃ s', exec i ((held i [(4, ⟨0x30000, .raw⟩)] empty).updThread 0 fun t => { t with timedOut := true }) = .next s') ∧
    (let i := Instr.wait hdr .dev 8 4 7 0
      ∃ s', exec i ((held i [(4, ⟨0x30000, .raw⟩)] empty).updThread 0 fun t => { t with ownerFaulted := true }) = .next s') ∧
    (let i := Instr.fset hdr .dev 2 4 6 0
      ∃ s', exec i (held i [(4, ⟨0x30000, .raw⟩)] empty) = .next s') ∧
    (let i := Instr.fsetCancel hdr .dev 2 4 6 0
      ∃ s', exec i (held i [(4, ⟨0x30000, .raw⟩)] done) = .next s') ∧
    (let i := Instr.fnew hdr true 4
      ∃ s', exec i (held i [(4, ⟨0x30000, .raw⟩)] done) = .next s') ∧
    (let i := Instr.fnew hdr false 4
      ∃ s', exec i (held i [(4, ⟨0x30000, .raw⟩)] empty) = .next s') :=
  ⟨does (h.1.1 _ _ _ _ _ _) _ [0] (by decide +kernel) (by decide +kernel),
   ⟨_, by
      refine h.1.2.2.2.2.2.1 hdr .dev 8 4 7 0xFF _ (heldThread (.wait hdr .dev 8 4 7 0xFF) [(4, ⟨0x30010, .raw⟩), (7, ⟨0xFFFFF, .raw⟩)])
        0x30000 ?_ ?_ ?_ ?_ ?_ ?_ ?_ ?_ ?_ ?_ ?_ ?_ ?_ <;> decide +kernel⟩,
   does (h.1.2.1 _ _ _ _ _ _) _ [0] (by decide +kernel) (by decide +kernel),
   does (h.1.2.1 _ _ _ _ _ _) _ [0] (by decide +kernel) (by decide +kernel),
   does (h.1.2.2.2.2.2.2.1 _ _ _ _ _ _ _ (.head _)) _ [0] (by decide +kernel) (by decide +kernel),
   does (h.1.2.2.2.2.2.2.1 _ _ _ _ _ _ _ (.tail _ (.tail _ (.head _)))) _ [0] (by decide +kernel) (by decide +kernel),
   does (h.2.1 _ _) _ [0] (by decide +kernel) (by decide +kernel),
   does (h.2.2.1 _ _) _ [0] (by decide +kernel) (by decide +kernel)⟩

/-- Thread 0 waits for the future at 0x30000, whose owner is the record of core 0's queue (R72). -/
def owedRecord : QRec := { num := 0, ctx := 0, entry := 8, args := [1, 2, 3, 4], hdr := { regs := 248 } }
def owing : State :=
  ((held (.nop hdr) [] (natLe 16 (2 ^ 21 * 2 ^ 64))).updCore 0 fun c => { c with queue := [owedRecord] }).updThread 0 fun t =>
    { t with status := .parked (.future 0x30000 none) }

/-- A free thread that waits adopts the record that owns its future (R72). -/
theorem witness_adoption (h : Obligations.FutureObjectResults) : ∃ e, owing.tryAdopt [0] = some e :=
  ⟨_, h.1.2.2.2.2.1 owing (owing.threads.head (by decide +kernel)) 0x30000 none 0 0 0 0 0x30000 (.queue 0) owedRecord _ (by decide +kernel)
    (by decide +kernel) (by decide +kernel) (by decide +kernel) ((getOk (by decide +kernel)).trans (congrArg _ (by decide +kernel)))
    (by decide +kernel) (by decide +kernel) (by decide +kernel) rfl
    (by decide +kernel) (by decide +kernel) (by decide +kernel) (Option.some_get (by decide +kernel)).symm⟩

/-- A membership group of two at 0x30000, of scope 2, one arrived, with 64 bits at 0x30040; and one of scope 1 with one member
(R51). -/
def members : List Byte := natLe 64 (2 + 2 ^ 32 + 2 * 2 ^ 96 + 0x30040 * 2 ^ 128 + 64 * 2 ^ 192)
def member : List Byte := natLe 64 (1 + 2 ^ 96 + 2 ^ 101)

/-- JOIN, LEAVE of the last member, BAR of the last to arrive, FSET.BIT and WAIT.BIT of the last bit (R52 to R55). -/
theorem witness_MembershipResults (h : Obligations.MembershipResults) :
    (∃ s', exec (.join hdr 4) (held (.join hdr 4) [(4, ⟨0x30000, .raw⟩)] members) = .next s') ∧
    (∃ s', exec (.leave hdr 4) (held (.leave hdr 4) [(4, ⟨0x30000, .raw⟩)] member) = .next s') ∧
    (∃ s', exec (.bar hdr 4) (held (.bar hdr 4) [(4, ⟨0x30000, .raw⟩)] members) = .next s') ∧
    (∃ s', exec (.fsetBit hdr 4 6) (held (.fsetBit hdr 4 6) [(4, ⟨0x30000, .raw⟩), (6, ⟨63, .raw⟩)] members) = .next s') ∧
    (∃ s', exec (.waitBit hdr 4 6) (held (.waitBit hdr 4 6) [(4, ⟨0x30000, .raw⟩), (6, ⟨63, .raw⟩)] members) = .next s') :=
  ⟨does (h.1 _ _) _ [0] (by decide +kernel) (by decide +kernel),
   does (h.2.1 _ _) _ [0] (by decide +kernel) (by decide +kernel),
   awaits (h.2.2.1 _ _) _ [0] (by decide +kernel) (by decide +kernel) (by decide +kernel),
   does (h.2.2.2.1 _ _ _) _ [0] (by decide +kernel) (by decide +kernel),
   awaits (h.2.2.2.2.1 _ _ _) _ [0] (by decide +kernel) (by decide +kernel) (by decide +kernel)⟩

/-- A section that runs on latency core 9 for the SHIP.W of thread 7, and comes to `i`. -/
def inSection (i : Instr) : State :=
  let r : ShipReq := { sender := .thread 7, ctx := 0, entry := 0x20000, lock := 0, kind := .w, args := [], m := 2, reg := 0, span := 2
                       task := 0, pd := 7, token := 0 }
  let s := here i
  { s with
    threads := [{ placedThread with place := .lc 9, section_ := some { req := r, start := 0 } },
      { placedThread with tid := 7, place := .core 0 0 3 0, status := .parked .shipRun }]
    lcs := [(9, { running := some 0 })] }

/-- SHIP.W of no words, SHIP.C with its token and SHIP.O, each on a lock of this device; SRET of a section (R288 to R291). -/
theorem witness_ShipResults (h : Obligations.ShipResults) :
    (∃ s', exec (.shipW hdr 0 0 0 4 0 8) (held (.shipW hdr 0 0 0 4 0 8)) = .next s') ∧
    (∃ s', exec (.shipC hdr 4 6 10 4 0 8) (held (.shipC hdr 4 6 10 4 0 8) [(10, ⟨0x30000, .raw⟩)]) = .next s') ∧
    (∃ s', exec (.shipO hdr 6 4 0 8) (held (.shipO hdr 6 4 0 8)) = .next s') ∧
    (∃ s', exec (.sret hdr) (inSection (.sret hdr)) = .next s') :=
  ⟨awaits (h.1 hdr 0 0 0 0 4 0 8 _ (.head _)) _ [0] (by decide +kernel) (by decide +kernel) (by decide +kernel),
   awaits (h.1 hdr 0 4 6 10 4 0 8 _ (.tail _ (.head _))) _ [0] (by decide +kernel) (by decide +kernel) (by decide +kernel),
   awaits (h.1 hdr 0 0 6 0 4 0 8 _ (.tail _ (.tail _ (.head _)))) _ [0] (by decide +kernel) (by decide +kernel) (by decide +kernel),
   ⟨_, h.2.2.1 hdr _ ((inSection (.sret hdr)).threads.head (by decide +kernel)) _ (by decide +kernel) (by decide +kernel)
      (by decide +kernel) (by decide +kernel) rfl⟩⟩

/-- A queue object at 0x30000 of 2 buckets of 2 entries from 0x31000, of scope 2: bucket 1 holds one entry, in slot 0, which is DONE
with the value 7; the other slots are free (R292, R293). -/
def queueObject (i : Instr) : State :=
  ((held i [(4, ⟨0x30000, .raw⟩), (6, ⟨1, .raw⟩)]
    (natLe 64 (1 + 2 ^ 6 + 2 * 2 ^ 12 + 0x31000 * 2 ^ 128 + 2 * 2 ^ 448) ++ natLe 16 (3 * 2 ^ 64) ++ natLe 16 (1 + 2 * 2 ^ 64))).putMem
      0x31020 done)

theorem inTwo {i : Instr} {f g : Thread → State → Option State} (h : DoesInTwo i f g) (s : State) (tids : List Nat)
    (hi : s.issues i tids = true) (hf : ((s.landed i tids).each f (s.acting i tids)).isSome = true)
    (hg : ((((s.landed i tids).each f (s.acting i tids)).get hf).each g (s.acting i tids)).isSome = true) :
    ∃ s', exec i s = .next s' :=
  (h s tids _ _ hi (Option.some_get hf).symm (Option.some_get hg).symm).imp fun _ x => x.1

/-- QPUSH and QPUSH.RSV of a free slot, QPOP and QPOP.MIN of an entry with a value, and QPOP of an empty bucket (R292 to R297). -/
theorem witness_QueueObjectResults (h : Obligations.QueueObjectResults) :
    (∃ s', exec (.qpush hdr 1 4 6 8) (queueObject (.qpush hdr 1 4 6 8)) = .next s') ∧
    (∃ s', exec (.qpushRsv hdr 1 10 4 6) (queueObject (.qpushRsv hdr 1 10 4 6)) = .next s') ∧
    (∃ s', exec (.qpop hdr 1 12 4 6) (queueObject (.qpop hdr 1 12 4 6)) = .next s') ∧
    (∃ s', exec (.qpop hdr 1 12 4 7) (queueObject (.qpop hdr 1 12 4 7)) = .next s') ∧
    (∃ s', exec (.qpopMin hdr 1 12 4) (queueObject (.qpopMin hdr 1 12 4)) = .next s') :=
  ⟨inTwo (h.1 _ _ _ _ _) _ [0] (by decide +kernel) (by decide +kernel) (by decide +kernel),
   inTwo (h.2.1 _ _ _ _ _) _ [0] (by decide +kernel) (by decide +kernel) (by decide +kernel),
   inTwo (h.2.2.1 _ _ _ _ _) _ [0] (by decide +kernel) (by decide +kernel) (by decide +kernel),
   inTwo (h.2.2.1 _ _ _ _ _) _ [0] (by decide +kernel) (by decide +kernel) (by decide +kernel),
   inTwo (h.2.2.2 _ _ _ _) _ [0] (by decide +kernel) (by decide +kernel) (by decide +kernel)⟩

/-! ## Witnesses: engines -/

/-- `together` where group 3 of core 0 owns every bank, and s-registers hold the values of `l`. -/
def owning (i : Instr) (l : List (Nat × Word) := []) : State :=
  ((together i).updBanks 0 0 (List.range 8) fun _ => { owner := some 3 }).updGroup 5 fun g =>
    { g with sregs := l.foldl (fun r p => r.set p.1 ⟨p.2, .i32⟩) g.sregs }

/-- ACC.ALLOC of all banks, ACC.FREE, ACC.LEND to the group itself, ACC.ZERO, ACC.LD and ACC.RD, a drain of the last row to the
scratchpad, and an MMA of one cell (R98, R318 to R327). -/
theorem witness_BankAndMatrixIssueResults (h : Obligations.BankAndMatrixIssueResults) :
    (∃ s', exec (.accAlloc hdr 1 2 255) (together (.accAlloc hdr 1 2 255)) = .next s') ∧
    (∃ s', exec (.accFree hdr 0 128) (owning (.accFree hdr 0 128)) = .next s') ∧
    (∃ s', exec (.accLend hdr 0 1 2) (owning (.accLend hdr 0 1 2) [(2, 3)]) = .next s') ∧
    (∃ s', exec (.accZero hdr 0 255) (owning (.accZero hdr 0 255)) = .next s') ∧
    (∃ s', exec (.accLd hdr 0 8 4 5) (owning (.accLd hdr 0 8 4 5)) = .next s') ∧
    (∃ s', exec (.accRd hdr 0 true false 8 4 5) (owning (.accRd hdr 0 true false 8 4 5)) = .next s') ∧
    (let i := Instr.accDrain hdr 0 7 12 16
      ∃ s', exec i (owning i [(16, 64 * 2 ^ 8 + 16), (17, 1), (12, 64 * 2 ^ 18), (18, 0x30000)]) = .next s') ∧
    (let i := Instr.mma hdr .bf16 0 0 0 2 4
      ∃ s', exec i (owning i [(4, 2 ^ 16 + 2 ^ 8 + 1), (5, 2), (0, 2 ^ 18), (2, 2 ^ 18)]) = .next s') :=
  ⟨collects (h.1.1 _ _ _ _) _ [0, 1] (by decide +kernel) (by decide +kernel) (by decide +kernel) (by decide +kernel),
   collects (h.1.2.1 _ _ _) _ [0, 1] (by decide +kernel) (by decide +kernel) (by decide +kernel) (by decide +kernel),
   collects (h.1.2.2.1 _ _ _ _) _ [0, 1] (by decide +kernel) (by decide +kernel) (by decide +kernel) (by decide +kernel),
   collects (h.2.1 _ _ _) _ [0, 1] (by decide +kernel) (by decide +kernel) (by decide +kernel) (by decide +kernel),
   collects (h.2.2.1 _ _ _ _ _) _ [0, 1] (by decide +kernel) (by decide +kernel) (by decide +kernel) (by decide +kernel),
   collects (h.2.2.2.1 _ _ _ _ _ _ _) _ [0, 1] (by decide +kernel) (by decide +kernel) (by decide +kernel) (by decide +kernel),
   collects (h.2.2.2.2.1 _ _ _ _ _) _ [0, 1] (by decide +kernel) (by decide +kernel) (by decide +kernel) (by decide +kernel),
   collects (h.2.2.2.2.2.1 _ _ _ _ _ _ _ _ (.head _)) _ [0, 1] (by decide +kernel) (by decide +kernel) (by decide +kernel)
      (by decide +kernel)⟩

/-- An MMA of one cell with one product (R324). -/
def oneCell : MmaOp :=
  { afmt := .bf16, bfmt := .bf16, pat := 0, row0 := 0, rows := 1, cols := 1, k := 1, clr := true, sca := false, scb := false
    da := ⟨0, 16, 0, 0⟩, db := ⟨512, 16, 0, 0⟩ }

/-- A drain of the two elements of the last row to F32, clearing their cells (R327). -/
def twoElements : DrainOp :=
  { row0 := 127, rows := 1, cols := 2, global := false, addr := 0, gpitch := 0, desc := ⟨0, 16, 0, 0⟩, clr := true, add := true
    sat := false, rnd := .rn, i96 := false, tfmt := .f32 }

/-- An ACC.LD of the first and the last cell (R321). -/
def twoCells : MCmd :=
  { op := .ld [(127, 63, 5), (0, 0, 6)], seq := 0, ctx := 0, gid := 5, task := 0, taskHandle := 0, base := 0, size := 0, fut := 0
    scope := .core }

/-- A command of group 3 at the head of matrix engine 0 of core 0. -/
def heading (op : MOp) : State :=
  (owning (.nop hdr)).updEngine 0 0 fun _ =>
    [{ op, seq := 0, ctx := 0, gid := 5, task := 0, taskHandle := 0, base := 0, size := 65536, fut := 0, scope := .core }]

/-- ACC.ZERO, an MMA and a drain at the head of an engine; the cells of each; and two elements that do not overlap (R21, R115,
R327). -/
theorem witness_MatrixAndDrainRunResults (h : Obligations.MatrixAndDrainRunResults) :
    (∃ s', exec (.matrixCommandRun 0 0 0) (heading (.zero 128)) = .next s') ∧
    (∃ s', exec (.matrixCommandRun 0 0 0) (heading (.mma oneCell)) = .next s') ∧
    ((owning (.nop hdr)).runCells 0 0 twoCells).cells.get 0 (cellKey 0 0 127 63) = 5 ∧
    (∃ s', exec (.drainRun 0 0 0) (heading (.drain twoElements)) = .next s') := by
  refine ⟨⟨_, h.1.1 (heading (.zero 128)) 0 0 0 _ [] rfl (fun o ho => by simp at ho) (by decide +kernel)⟩,
    ⟨_, h.1.1 (heading (.mma oneCell)) 0 0 0 _ [] rfl (fun o ho => by simp at ho) (by decide +kernel)⟩, ?_, ?_⟩
  · exact h.1.2.2.1 (owning (.nop hdr)) 0 0 twoCells _ rfl (by decide +kernel) (by decide +kernel) (cellKey 0 0 127 63)
  · exact (h.2 (heading (.drain twoElements)) 0 0 0 _ [] twoElements (by unfold State.Inv; decide +kernel) rfl rfl rfl rfl rfl
      (by decide) (by decide) (by decide) (by decide +kernel)).elim fun e x => ⟨_, x.1⟩

/-- A BCPY descriptor of 300 bytes from 0x40000 to offset 0 of the scratchpad (R329). -/
def copyWords : Nat := 0x40000 + 300 * 2 ^ 384 + (1 + 2 ^ 16 + 2 ^ 32 + 2 ^ 48) * 2 ^ 408 + 2 ^ 474

def copyDesc : CopyDesc :=
  { src := .global 0x40000, dst := .scratch 0, srot := 0, drot := 0, size0 := 300, sizes := [1, 1, 1, 1], sstride := [0, 0, 0, 0]
    dstride := [0, 0, 0, 0], scope := .core }

/-- A copy into ring 2 of task 0, and one within the scratchpad. -/
def ringCopy : BulkCopy :=
  { id := 1, seq := 0, ctx := 0, die := 0, unit := 0, desc := { copyDesc with dst := .ring 2 }, fut := 0, size := 65536 }
def scratchCopy : BulkCopy :=
  { id := 1, seq := 0, ctx := 0, die := 0, unit := 0, desc := { copyDesc with src := .scratch 512 }, fut := 0, size := 65536 }

/-- Ring 2 of core 0, owned by task 0, with one entry free, one filled and one taken. -/
def ringed (s : State) : State :=
  s.updRing 0 2 fun _ => { owner := some 0, base := 0, esize := 0, count := 2, free := 1, filled := 1, taken := 1 }

/-- BCPY; a sector of its copy, and its end; an entry of a ring taken; RCFG of the whole allocation, RCFG.GET, RPUSH and RPOP (R94
to R96, R110 to R112, R329 to R333). -/
theorem witness_BulkCopyAndRingResults (h : Obligations.BulkCopyAndRingResults) :
    (let i := Instr.bcpy hdr true 4 0
      ∃ s', exec i (held i [(4, ⟨0x30000, .raw⟩)] (natLe 128 copyWords)) = .next s') ∧
    (∃ s', exec (.bulkCopySector 1 1) { held (.nop hdr) with copies := [scratchCopy] } = .next s') ∧
    (∃ s', exec (.bulkCopySector 1 0) { held (.nop hdr) with copies := [{ scratchCopy with done := [0, 1] }] } = .next s') ∧
    (∃ s', exec (.ringEntryTake 1) { ringed (held (.nop hdr)) with copies := [ringCopy] } = .next s') ∧
    (∃ s', exec (.rcfg hdr 7 4) (held (.rcfg hdr 7 4) [(4, ⟨255 * 2 ^ 18, .raw⟩)]) = .next s') ∧
    (∃ s', exec (.rcfgGet hdr 2 4) (ringed (held (.rcfgGet hdr 2 4))) = .next s') ∧
    (∃ s', exec (.rpush hdr 2) (ringed (held (.rpush hdr 2))) = .next s') ∧
    (∃ s', exec (.rpush hdr 2) (ringed (together (.rpush hdr 2))) = .next s') :=
  ⟨does (h.1.1 _ _ _ _) _ [0] (by decide +kernel) (by decide +kernel),
   ⟨_, h.1.2.2.2.1 _ 1 scratchCopy 1 1 rfl (by decide +kernel)⟩,
   ⟨_, h.1.2.2.2.2.1 _ 1 { scratchCopy with done := [0, 1] } 0 rfl (by decide +kernel) (by decide +kernel)⟩,
   ⟨_, h.1.2.2.2.2.2.2 _ 1 ringCopy 2 rfl rfl (by decide +kernel) (by decide +kernel) (by decide +kernel)⟩,
   does (h.2.1 _ _ _) _ [0] (by decide +kernel) (by decide +kernel),
   does (h.2.2.1 _ _ _) _ [0] (by decide +kernel) (by decide +kernel),
   (h.2.2.2.1 hdr 2 _ 0 ((ringed (held (.rpush hdr 2))).threads.head (by decide +kernel)) (by decide +kernel) (by decide +kernel)
      (by decide +kernel) (by decide +kernel) (by decide +kernel) (by decide +kernel)).imp fun _ x => x.1,
   collects (h.2.2.2.2.1 _ _) _ [0, 1] (by decide +kernel) (by decide +kernel) (by decide +kernel) (by decide +kernel)⟩

/-- The checks that lead to a copy, met by that descriptor; and an RPOP of one thread (R329, R333). -/
theorem witness_copy_and_pop (h : Obligations.BulkCopyAndRingResults) :
    (∃ x, (held (.nop hdr) [] (natLe 128 copyWords)).bcpy placedThread 0x30000 0 = .ok x) ∧
    (∃ s', exec (.rpop hdr 2 4) (ringed (held (.rpop hdr 2 4))) = .next s') := by
  refine ⟨(h.1.2.1 (held (.nop hdr) [] (natLe 128 copyWords)) placedThread 0x30000 0 0 copyWords copyDesc _ (by decide +kernel)
      (by decide +kernel) ((getOk (by decide +kernel)).trans (congrArg _ (by decide +kernel)))
      ((getOk (by decide +kernel)).trans (congrArg _ (by decide +kernel))) (by decide +kernel) (getOk (by decide +kernel))
      (getOk (by decide +kernel)) (fun n hn => by simp [copyDesc] at hn) (getOk (by decide +kernel)) (getOk (by decide +kernel))
      (getOk (by decide +kernel))).imp' _ fun _ x => x,
    (h.2.2.2.2.2 hdr 2 4 (ringed (held (.rpop hdr 2 4))) [0] 0 [] _ (by decide +kernel) (by decide +kernel) rfl ?_ ?_).imp
      fun _ x => x.1⟩
  · intro j hj u hu
    rcases hj with _ | ⟨_, ⟨⟩⟩
    obtain rfl := Option.some.inj hu
    decide +kernel
  · decide +kernel

/-- A tree descriptor of depth 1 and dimension 64 in BF16, and a group that holds it (R183). -/
def treeWords : Nat := 0x40000 + 0x50000 * 2 ^ 64 + 272 * 2 ^ 128 + 256 * 2 ^ 160 + 2 ^ 192 + 2 * 2 ^ 208
def tree : TreeCfg :=
  { fmt := .bf16, dim := 64, depth := 1, lstride := 256, nstride := 272, leafBase := 0x50000, nodeBase := 0x40000 }
def descending (i : Instr) (l : List (Nat × Word) := []) : State :=
  (owning i l).updDescent 0 fun d => { d with holder := some 5, cfg := some tree, n := 1 }

def descentCmd (op : DOp) : DCmd :=
  { op, cfg := tree, seq := 0, ctx := 0, gid := 5, task := 0, taskHandle := 0, base := 0, size := 65536, fut := 0, scope := .core }

/-- DSC.CFG of a descriptor and of none, DSC.RUN of one row, DSC.PATH of the last register, DSC.GRAD, and the last level of a
descent (R182 to R193, R334 to R337). -/
theorem witness_DescentResults (h : Obligations.DescentResults) :
    (∃ s', exec (.dscCfg hdr 4) (((together (.dscCfg hdr 4)).putMem 0x30000 (natLe 64 treeWords)).updThreads [0, 1] fun t =>
      t.setReg 4 ⟨0x30000, .raw⟩) = .next s') ∧
    (∃ s', exec (.dscCfg hdr 4) (descending (.dscCfg hdr 4)) = .next s') ∧
    (∃ s', exec (.dscRun hdr 2 8) (descending (.dscRun hdr 2 8) [(8, 1), (9, 512), (2, 8 * 2 ^ 18), (10, 0x30000)]) = .next s') ∧
    (∃ s', exec (.dscPath hdr 4 6) ((descending (.dscPath hdr 4 6)).updThreads [0, 1] fun t => t.setReg 6 ⟨254, .raw⟩) = .next s') ∧
    (∃ s', exec (.dscGrad hdr 2 4 8) (descending (.dscGrad hdr 2 4 8) [(8, 1024), (2, 8 * 2 ^ 18), (4, 0x60000)]) = .next s') ∧
    (∃ s', exec (.dscLevel 0 0) ((descending (.nop hdr)).updDescent 0 fun d =>
      { d with cmds := [{ descentCmd (.run 1 ⟨0, 128, 0, 0⟩ 512) with started := true, node := [0], live := [true] }] }) = .next s') := by
  refine ⟨collects (h.1.1 _ _) _ [0, 1] (by decide +kernel) (by decide +kernel) (by decide +kernel) (by decide +kernel),
   collects (h.1.1 _ _) _ [0, 1] (by decide +kernel) (by decide +kernel) (by decide +kernel) (by decide +kernel),
   collects (h.1.2.2.2.1 _ _ _) _ [0, 1] (by decide +kernel) (by decide +kernel) (by decide +kernel) (by decide +kernel),
   collects (h.1.2.2.2.2.1 _ _ _) _ [0, 1] (by decide +kernel) (by decide +kernel) (by decide +kernel) (by decide +kernel),
   collects (h.1.2.2.2.2.2 _ _ _ _) _ [0, 1] (by decide +kernel) (by decide +kernel) (by decide +kernel) (by decide +kernel), ?_⟩
  exact (h.2.1 _ 0 0 _ [] 1 ⟨0, 128, 0, 0⟩ 512 _ (by decide +kernel) rfl rfl rfl (.inl rfl) (getOk (by decide +kernel))).elim
    fun e x => ⟨_, x.2.2.2.2⟩

/-- A gradient of one row that passed node 0, with the first of its two sectors written: the bias is left (R193). -/
theorem witness_gradient (h : Obligations.DescentResults) :
    ∃ s', exec (.dscGradRun 0 0) ((descending (.nop hdr)).updDescent 0 fun d => { d with
      path := [(0, 0x81000000)]
      cmds := [{ descentCmd (.grad 1 ⟨0, 128, 0, 0⟩ 1024 0x60000) with started := true, done := [0x600] }] }) = .next s' :=
  (h.2.2.2.2 ((descending (.nop hdr)).updDescent 0 fun d => { d with
      path := [(0, 0x81000000)]
      cmds := [{ descentCmd (.grad 1 ⟨0, 128, 0, 0⟩ 1024 0x60000) with started := true, done := [0x600] }] })
    0 0 _ [] 1 ⟨0, 128, 0, 0⟩ 1024 0x60000 0x601 0x60100 (by unfold State.Inv; decide +kernel) rfl rfl rfl (.inl rfl)
    (by decide +kernel) (by decide +kernel) (by decide +kernel) ((getOk (by decide +kernel)).trans (congrArg _ (by decide +kernel)))
    (by decide +kernel)).elim fun _ x => ⟨_, x.2.2.2.2⟩

/-- A refinement block of one rung at 0x30000 (R194), and one that waits for its place. -/
def blockWords : Nat :=
  1 + 2 ^ 32 + 2 ^ 40 + 50 * 2 ^ 64 + (0x3D70000000000000 + 0x3FE0000000000000 * 2 ^ 64 + 0x4010000000000000 * 2 ^ 128) * 2 ^ 128 +
    0x4010000000000000 * 2 ^ 320
def waitingBlock : Rfb := { id := 1, addr := 0x30000, ctx := 0, prio := 0, fut := 0, taskHandle := 0 }

/-- A block of two rungs in its second iteration of the first, with the parameters of the example of R200, and its state with the
norm `v` next. -/
def exampleBlock (v : Dword) : Rfb :=
  { waitingBlock with
    phase := .run, step := .resid, rungs := 2, stagcnt := 2, iterlim := 50, tol := 0x3D70000000000000
    bnorm := 0x3FF0000000000000, rstag := 0x3FE0000000000000, rdiv := 0x4010000000000000, j := 2, total := 2, run := 0
    nprev := 0x3FC0000000000000, ended := some (v, none), ladder := [(8, 16, 0), (24, 0, 2), (0, 0, 0), (0, 0, 0)] }

/-- Each exit of the test at its edge (R197): a norm of infinity, one of just TOL × BNORM, a first norm above it, a ratio above
RDIV, one above RSTAG for the second time and for the first, and the last iteration. -/
theorem witness_refine_tests (h : Obligations.RefineResults) :
    (let b : Rfb := { exampleBlock 0 with n := 0x7FF0000000000000 };
      b.test = (3, b)) ∧
    (let b : Rfb := { exampleBlock 0 with n := 0x3D70000000000000 };
      b.test = (1, b)) ∧
    (let b : Rfb := { exampleBlock 0 with n := 0x3FD0000000000000, j := 0 };
      b.test = (0, b)) ∧
    (let b : Rfb := { exampleBlock 0 with n := 0x3FF0000000000000 };
      b.test = (3, b)) ∧
    (let b : Rfb := { exampleBlock 0 with n := 0x3FB8000000000000, run := 1 };
      b.test.1 = 2) ∧
    (let b : Rfb := { exampleBlock 0 with n := 0x3FB0000000000000, j := 50 };
      b.test.1 = 5) ∧
    (let b : Rfb := { exampleBlock 0 with n := 0x3FB8000000000000 };
      b.test = (0, { b with run := 1 })) := by
  have t := h.2.2.2.2.2.2.2.2.2.2.2.2.2.2.1
  refine ⟨(t _).1 (by decide +kernel), ((t _).2 ?_ ?_).1 ?_, (((t _).2 ?_ ?_).2 ?_).1 rfl, ((((t _).2 ?_ ?_).2 ?_).2 ?_).1 ?_,
    congrArg (·.1) (((((t _).2 ?_ ?_).2 ?_).2 ?_).2 ?_ |>.1 ?_), congrArg (·.1) (((((t _).2 ?_ ?_).2 ?_).2 ?_).2 ?_ |>.2.1 ?_ ?_),
    (((((t _).2 ?_ ?_).2 ?_).2 ?_).2 ?_).2.2 ?_ ?_⟩ <;> decide +kernel

/-- RFB.START of a block that the instruction does not read, RFB.STAT and RFB.ABORT of a block under way and of none, and the
start of a block that waits, and its read (R194, R338, R339). -/
theorem witness_RefineResults (h : Obligations.RefineResults) :
    (∃ s', exec (.rfbStart hdr 4 6) (together (.rfbStart hdr 4 6)) = .next s') ∧
    (∃ s', exec (.rfbStat hdr 8 4) ((together (.rfbStat hdr 8 4)).updDie 0 fun d =>
      { d with rfbs := [{ waitingBlock with addr := 0 }] }) = .next s') ∧
    (∃ s', exec (.rfbAbort hdr 2 4) (together (.rfbAbort hdr 2 4)) = .next s') ∧
    (∃ s', exec (.rfbAbort hdr 2 4) ((together (.rfbAbort hdr 2 4)).updDie 0 fun d =>
      { d with rfbs := [{ waitingBlock with addr := 0 }] }) = .next s') ∧
    (∃ s', exec (.rfbBlockStart 0) ((held (.nop hdr) [] (natLe 256 blockWords)).updDie 0 fun d =>
      { d with rfbs := [waitingBlock] }) = .next s') ∧
    (let b : Rfb := { waitingBlock with phase := .read };
      let s := held (.nop hdr) [] (natLe 256 blockWords)
      s.actRfb 0 b = (s.readFill 0 0x30000 256).putRfb 0 (b.fill blockWords s.time)) :=
  ⟨collects (h.1 _ _ _) _ [0, 1] (by decide +kernel) (by decide +kernel) (by decide +kernel) (by decide +kernel),
   collects (h.2.1 _ _ _) _ [0, 1] (by decide +kernel) (by decide +kernel) (by decide +kernel) (by decide +kernel),
   (h.2.2.1 hdr 2 4 (together (.rfbAbort hdr 2 4)) [0, 1] _ _ (by decide +kernel) (Option.some_get (by decide +kernel)).symm
      (by decide +kernel) (by rfl)).imp fun _ x => x.1,
   collects (h.2.2.1 _ _ _) _ [0, 1] (by decide +kernel) (by decide +kernel) (by decide +kernel) (by decide +kernel),
   ⟨_, h.2.2.2.1 _ 0 waitingBlock (by decide +kernel) (by decide +kernel)⟩,
   ((h.2.2.2.2.2.2.2.2.2.1 _ 0 { waitingBlock with phase := .read } rfl rfl).2.1 blockWords rfl (by decide +kernel)
      ((getOk (by decide +kernel)).trans (congrArg _ (by decide +kernel)))).2.2 (by decide +kernel) (by decide +kernel)⟩

/-- What the controller does in each phase, for that block and for a step's task that faulted or is done (R195 to R199): the
conditions of each clause hold together. -/
theorem witness_refine_actions (h : Obligations.RefineResults) :
    (let s := (held (.nop hdr)).updDie 0 fun d => { d with rfbs := [exampleBlock 0] };
      s.driveRfb 0 1 8 = (s.actRfb 0 (exampleBlock 0)).driveRfb 0 1 7) ∧
    (held (.nop hdr)).driveRfb 0 1 8 = held (.nop hdr) ∧
    (let b : Rfb := { exampleBlock 0 with abort := true, phase := .write };
      (held (.nop hdr)).actRfb 0 b = (held (.nop hdr)).endRfb 0 b 3 5 0) ∧
    (∃ s', (held (.nop hdr)).stopRfb 0 { exampleBlock 0 with rec_ := 3 } = s') ∧
    (∃ s', (held (.nop hdr)).actRfb 0 { waitingBlock with phase := .zero, status := 0x40000 } = s') ∧
    (∃ s', (held (.nop hdr)).actRfb 0 { exampleBlock 0 with phase := .write, status := 0x40000 } = s') ∧
    (held (.nop hdr)).actRfb 0 (exampleBlock 5) = (held (.nop hdr)).putRfb 0 ((exampleBlock 5).afterTask 5) ∧
    (∃ s', (held (.nop hdr)).actRfb 0 { exampleBlock 0 with ended := some (0, some (7, 5)) } = s') ∧
    (exampleBlock 5).afterTask 5 = ({ exampleBlock 5 with n := 5 } : Rfb).judge ∧
    (let b : Rfb := { exampleBlock 0 with n := 0x3FB8000000000000, run := 1 };
      b.judge = { b.test.2 with phase := .write, escalate := true }) ∧
    (let b : Rfb := { exampleBlock 0 with n := 0x3FB8000000000000, run := 1, rung := 1 };
      b.judge = b.test.2.finish 4) ∧
    (let b : Rfb := { exampleBlock 0 with n := 0x3FB8000000000000, run := 1, stagact := true };
      b.judge = b.test.2.finish 2) := by
  have go := h.2.2.2.2.2.2.1
  have act := fun b : Rfb => h.2.2.2.2.2.2.2.2.2.1 (held (.nop hdr)) 0 b
  have after := h.2.2.2.2.2.2.2.2.2.2.2.2.2.1
  have judge := h.2.2.2.2.2.2.2.2.2.2.2.2.2.2.2.1
  refine ⟨((go _ 0 1).2 7).2 (exampleBlock 0) ?_ |>.2 ?_, ((go _ 0 1).2 7).1 ?_, h.2.2.2.2.2.2.2.1 _ 0 _ rfl (.inl ?_),
    ⟨_, (h.2.2.2.2.2.2.2.2.1 _ 0 _).2.1 rfl ?_⟩, ⟨_, (act _ rfl rfl).2.2.1 _ rfl (getOk ?_)⟩,
    ⟨_, ((act _ rfl rfl).2.2.2.2.2.2 _ rfl (getOk ?_)).2 rfl⟩, (act (exampleBlock 5) rfl rfl).2.2.2.2.1 5 rfl rfl,
    ⟨_, (act _ rfl rfl).2.2.2.2.2.1 0 7 5 rfl rfl⟩, (after (exampleBlock 5) 5).2.2.2 rfl, (judge _).2.1 ?_ ?_, (judge _).2.2.1 ?_ ?_,
    (judge _).2.2.2 ?_ ?_⟩ <;> decide +kernel

/-- A window on export 7 of node 5 at 4 GiB (R117). -/
def windowed (i : Instr) (l : List (Nat × Reg)) (m : List Byte := []) : State :=
  (held i l m).putMem 0x12020 (natLe 8 (5 * 2 ^ 48 + 7 * 2 ^ 32 + 0xA6F))

/-- RMA.PUT of 16 bytes from 0x40000, and RMA.FLAG, to the window (R340, R341). -/
theorem witness_RemoteAccessResults (h : Obligations.RemoteAccessResults) :
    (let i := Instr.rmaPut hdr true 4 0
      ∃ s', exec i (windowed i [(4, ⟨0x30000, .raw⟩)] (natLe 64 (0x40000 + 2 ^ 96 + 16 * 2 ^ 128))) = .next s') ∧
    (let i := Instr.rmaFlag hdr true 4 6
      ∃ s', exec i (windowed i [(5, ⟨1, .raw⟩)]) = .next s') ∧
    (∃ x, (windowed (.nop hdr) [] (natLe 64 (0x40000 + 2 ^ 96 + 16 * 2 ^ 128))).rma placedThread false 0x30000 0 0 = .ok x) :=
  ⟨does (h.1 hdr true 4 0 _ (.head _)) _ [0] (by decide +kernel) (by decide +kernel),
   does (h.2.2.2.2.2.2 _ _ _ _) _ [0] (by decide +kernel) (by decide +kernel),
   ⟨_, h.2.1 _ _ _ _ _ _ (0x40000 + 2 ^ 96 + 16 * 2 ^ 128) _ 5 7 0 _ (by decide +kernel) (by decide +kernel)
      ((getOk (by decide +kernel)).trans (congrArg _ (by decide +kernel))) (getOk (by decide +kernel)) (by decide +kernel)
      (by decide +kernel) ((getOk (by decide +kernel)).trans (congrArg _ (by decide +kernel))) (getOk (by decide +kernel))⟩⟩

/-- A PUT and a GET under way to the window, of 16 bytes in memory and in the scratchpad. -/
def moving (put scratch : Bool) : State :=
  let s := windowed (.nop hdr) [] (natLe 16 7)
  { s with net := { s.net with rmas := [{
      id := 9, ctx := 0, tid := 0, node := 5, put, remote := 0x100000000, loc := if scratch then 0 else 0x30000, scratch, task := 0, taskHandle := 0, die := 0, core := 0
      base := 0, size := 64, bytes := 16, todo := [(0, 16)], fut := 0, scope := .dev }] } }

/-- The next part of each is sent (R340). -/
theorem witness_parts (h : Obligations.RemoteAccessResults) :
    (∃ e, (moving true true).rmaSend 9 = e) ∧ (∃ e, (moving true false).rmaSend 9 = e) ∧ (∃ e, (moving false false).rmaSend 9 = e) := by
  have go := fun (s : State) r w off => h.2.2.2.1 s 9 r (0, 16) [] w off
  refine ⟨⟨_, (go (moving true true) ((moving true true).net.rmas.head (by decide +kernel)) 7 0 ?_ ?_ ?_ ?_).1 ?_ ?_ ?_⟩,
    ⟨_, (go (moving true false) ((moving true false).net.rmas.head (by decide +kernel)) 7 0 ?_ ?_ ?_ ?_).2.1 _ ?_ ?_ (getOk ?_)⟩,
    ⟨_, (go (moving false false) ((moving false false).net.rmas.head (by decide +kernel)) 7 0 ?_ ?_ ?_ ?_).2.2 ?_ (.inr ⟨_, getOk ?_⟩)⟩⟩
  all_goals decide +kernel

/-! ## Witnesses: system instructions and traps -/

/-- `here` in state H with a frame for 0x20100 (R346, R351). -/
def handling (i : Instr) : State :=
  (here i).updThread 0 fun t => { t with priv := .h, frame := { t.frame with tpc := 0x20100, preds := 5 } }

/-- SRD of a 64-bit register and of a frame word, SWR of each writable kind, ICINV, CLK and PERF.RD; TRAP, BPT and PERF.CFG (R343
to R345, R355 to R359). -/
theorem witness_SystemAndTrapInstructions (h : Obligations.SystemAndTrapInstructions) :
    (∃ s', exec (.srd hdr 4 .time) (here (.srd hdr 4 .time)) = .next s') ∧
    (∃ s', exec (.srd hdr 4 (.f 15)) (handling (.srd hdr 4 (.f 15))) = .next s') ∧
    (∃ s', exec (.swr hdr .tpc 4) (handling (.swr hdr .tpc 4)) = .next s') ∧
    (∃ s', exec (.swr hdr (.bpa 3) 4) (handling (.swr hdr (.bpa 3) 4)) = .next s') ∧
    (∃ s', exec (.swr hdr .bpctl 4) (handling (.swr hdr .bpctl 4)) = .next s') ∧
    (∃ s', exec (.icinv hdr 4 6) (here (.icinv hdr 4 6)) = .next s') ∧
    (∃ s', exec (.clk hdr true 4) (here (.clk hdr true 4)) = .next s') ∧
    (∃ s', exec (.perfRd hdr 4 7) ((here (.perfRd hdr 4 7)).updCore 0 fun c => { c with perf := c.perf.set {} 7 { ctrl := 0x40000001 } }) =
      .next s') ∧
    (∃ s', exec (.trap hdr 0xFFFFFF) (here (.trap hdr 0xFFFFFF)) = .next s') ∧
    (∃ s', exec (.bpt hdr 0) (here (.bpt hdr 0)) = .next s') ∧
    (∃ s', exec (.perfCfg hdr 7 4) (here (.perfCfg hdr 7 4)) = .next s') :=
  ⟨does (h.1.1 _ _ _) _ [0] (by decide +kernel) (by decide +kernel),
   does (h.1.1 _ _ _) _ [0] (by decide +kernel) (by decide +kernel),
   does (h.1.2.2.1 _ _ _ rfl) _ [0] (by decide +kernel) (by decide +kernel),
   does (h.1.2.2.1 _ _ _ rfl) _ [0] (by decide +kernel) (by decide +kernel),
   does (h.1.2.2.1 _ _ _ rfl) _ [0] (by decide +kernel) (by decide +kernel),
   does (h.1.2.2.2.1 _ _ _) _ [0] (by decide +kernel) (by decide +kernel),
   does (h.1.2.2.2.2.2.2.1 _ _ _) _ [0] (by decide +kernel) (by decide +kernel),
   does (h.1.2.2.2.2.2.2.2 _ _ _) _ [0] (by decide +kernel) (by decide +kernel),
   ⟨_, h.2.1 hdr 0xFFFFFF _ [0] 0 [] (by decide +kernel) (by decide +kernel)⟩,
   ⟨_, h.2.2.1 hdr 0 _ [0] 0 [] (by decide +kernel) (by decide +kernel)⟩,
   ⟨_, h.2.2.2 hdr 7 4 _ placedThread 0 [] (by decide +kernel) (by decide +kernel) (by
      intro j hj u hu
      rcases hj with _ | ⟨_, ⟨⟩⟩
      obtain rfl := Option.some.inj hu
      decide +kernel)⟩⟩

/-- A divide-by-nothing of the manual: TRAP 1 in a thread with a handler at 0x20200 (R346 to R349). -/
theorem witness_TrapEntryAndFrame (h : Obligations.TrapEntryAndFrame) :
    let s := (here (.trap hdr 1)).updThread 0 fun t => { t with handler := some 0x20200 }
    ∃ u, (s.stop s.cur 0 0 (.trap { cause := 0x10, detail0 := 1 })).thread? 0 = some u ∧ u.priv = .h ∧ u.pc = 0x20200 := by
  intro s
  have x := h.1 s { placedThread with handler := some 0x20200 } { cause := 0x10, detail0 := 1 } 0 0x20200 rfl (by decide +kernel)
    rfl rfl rfl (by decide) rfl (by decide +kernel) (by decide) rfl (by decide) (by decide +kernel)
  exact x.2.2.2.2.2.2.imp fun _ y => ⟨y.1, y.2.1, y.2.2.1⟩

/-- TRET and TRET.NEXT at an aligned canonical address; with the frame's predicates (R351). -/
theorem witness_TrapReturnResults (h : Obligations.TrapReturnResults) :
    (∃ s', exec (.tret hdr true) (handling (.tret hdr true)) = .next s') ∧
    (∃ s', exec (.tret hdr false) (handling (.tret hdr false)) = .next s') :=
  ⟨⟨_, h.1 hdr true (handling (.tret hdr true)) [0] (by decide +kernel) (by
      intro j hj t ht
      rcases hj with _ | ⟨_, ⟨⟩⟩
      obtain rfl := Option.some.inj ht
      decide +kernel)⟩,
   (h.2 hdr false _ ((handling (.tret hdr false)).threads.head (by decide +kernel)) (by decide +kernel) (by decide +kernel)
      (by decide +kernel) (by decide +kernel) (by decide +kernel)).elim fun s' x => ⟨s', x.choose_spec.1⟩⟩

/-- A register out of range, SWR in state U, and an instruction under a false guard (R235, R222). -/
theorem witness_DecodeStopsAndGuards (h : Obligations.DecodeStopsAndGuards) :
    (∃ s', exec (.popc hdr 4 248) (here (.popc hdr 4 248)) = .next s') ∧
    (∃ s', exec (.swr hdr .tpc 4) (here (.swr hdr .tpc 4)) = .next s') ∧
    (∃ s', exec (.trap ⟨⟨false, 0⟩, ⟨false, 7⟩, 0, 0⟩ 1) (here (.trap ⟨⟨false, 0⟩, ⟨false, 7⟩, 0, 0⟩ 1)) = .next s') :=
  ⟨⟨_, h.1.1 _ _ [0] 0 ((here (.popc hdr 4 248)).decodeStop (.popc hdr 4 248) placedThread |>.get (by decide +kernel))
      rfl (by decide +kernel) (by decide +kernel)⟩,
   ⟨_, h.1.2.1 _ _ 0 placedThread ((here (.swr hdr .tpc 4)).decodeStop (.swr hdr .tpc 4) placedThread |>.get (by decide +kernel))
      rfl (by decide +kernel) (by decide +kernel) (by decide +kernel)⟩,
   (h.2 _ _ [0] rfl (by intro h n; exact Instr.noConfusion) (by decide +kernel) (by decide +kernel)).imp fun _ x => x.1⟩

/-! ## Witnesses: hardware queues -/

/-- Queue 0 of context 0 runs a program that comes to `i`, on registers x1 = 2, x2 = 2, and staging dwords `st`. -/
def queued (i : Instr) (st : List Dword := []) : State :=
  ({ State.reset.placeQueueWord ((encodeQp i).getD 0).toNat with cur := .queue 0, beamRest := [] } : State).updQueue 0 fun x =>
    { x with x := (x.x.set 1 2).set 2 2, staging := st ++ List.replicate (16 - st.length) 0 }

/-- The words of a queue program, LDW of the last dword of its window and beyond it (R406). -/
theorem witness_QueueWordResults (h : Obligations.QueueWordResults) :
    (∃ s', exec (.qpPkt 7 15) (queued (.qpPkt 7 15)) = .next s') ∧ (∃ s', exec (.qpBeq 511 1 2) (queued (.qpBeq 511 1 2)) = .next s') ∧
    (∃ s', exec .qpEndl (queued .qpEndl) = .next s') ∧ (∃ s', exec .qpEnd (queued .qpEnd) = .next s') ∧
    (let s := (queued (.qpLdw 0 1 3)).updQueue 0 fun x => { x with x := x.x.set 1 4088 }
      ∃ s', exec (.qpLdw 0 1 3) s = .next s') ∧
    (let s := (queued (.qpStw 0 1 3)).updQueue 0 fun x => { x with x := x.x.set 1 0 }
      ∃ s', exec (.qpStw 0 1 3) s = .next s') ∧
    (let s := (queued (.qpLdw 0 1 3)).updQueue 0 fun x => { x with x := x.x.set 1 4096 }
      ∃ s', exec (.qpLdw 0 1 3) s = .next s') :=
  ⟨⟨_, (h.1 _ 0 rfl).1 7 0 0 0 15 0 (.qpPkt 7 15, _) (.head _)⟩,
   ⟨_, (h.1 _ 0 rfl).1 0 0 0 511 2 1 (.qpBeq 511 1 2, _) (.tail _ (.tail _ (.tail _ (.tail _ (.tail _ (.tail _ (.tail _ (.head _))))))))⟩,
   ⟨_, (h.1 _ 0 rfl).2.1⟩, ⟨_, (h.1 _ 0 rfl).2.2⟩,
   ⟨_, h.2.1 _ 0 0 1 3 0x30FF8 _ rfl (by decide +kernel) (getOk (by decide +kernel))⟩,
   ⟨_, h.2.2.1 _ 0 0 1 3 0x30000 _ rfl (by decide +kernel) (getOk (by decide +kernel))⟩,
   ⟨_, (h.2.2.2.2 _ 0 0 1 3 rfl (by decide +kernel)).1⟩⟩

/-- A window on export 7 of node 5 at 4 GiB, for a queue's context. -/
def queuedWindow (i : Instr) (st : List Dword) : State :=
  (queued i st).putMem 0x12020 (natLe 8 (5 * 2 ^ 48 + 7 * 2 ^ 32 + 0xA6F))

/-- The staging dwords of a LAUNCH of the kernel at 0x30040, with COUNT 1 (R56). -/
def launched : List Dword := [0x30040, 0, 0, 0, 0, 1, 0, 0]

/-- NOP, LAUNCH, SIGNAL by addition, WAITSIG of a value here and in a window, COPY, RFB and CHAIN (R407). -/
theorem witness_QueueActionResults (h : Obligations.QueueActionResults) :
    (∃ s', exec .actNop (queued .actNop) = .next s') ∧
    (∃ s', exec .actSignal (queued .actSignal [0x30008, 1, 1]) = .next s') ∧
    (∃ s', exec .actWaitsig (queued .actWaitsig [0x30000, 1, 0]) = .next s') ∧
    (∃ s', exec .actWaitsig (queued .actWaitsig [0x30000, 0, 1]) = .next s') ∧
    (∃ s', exec .actWaitsig (queuedWindow .actWaitsig [0x100000008, 1, 2]) = .next s') ∧
    (∃ s', exec .actRfb (queued .actRfb [0x30000, 0]) = .next s') ∧
    (∃ s', exec .actChain (queued .actChain [0xFFFF00000001, 1]) = .next s') ∧
    (∃ s', exec .actChain (queued .actChain [0x500000001, 1]) = .next s') :=
  ⟨⟨_, (h.1 _ 0 rfl).1⟩,
   ⟨_, (h.1 _ 0 rfl).2.2.1 0x30008 (by decide +kernel) ((getOk (by decide +kernel)).trans (congrArg _ (by decide +kernel)))
      (by decide +kernel)⟩,
   ⟨_, (h.1 _ 0 rfl).2.2.2.1 0x30000 (by decide +kernel) (by decide +kernel)
      ((getOk (by decide +kernel)).trans (congrArg _ (by decide +kernel))) (by decide +kernel)⟩,
   ⟨_, (h.1 _ 0 rfl).2.2.2.1 0x30000 (by decide +kernel) (by decide +kernel)
      ((getOk (by decide +kernel)).trans (congrArg _ (by decide +kernel))) (by decide +kernel)⟩,
   ⟨_, (h.1 _ 0 rfl).2.2.2.2.1 5 7 8 (by decide +kernel) (by decide +kernel)
      ((getOk (by decide +kernel)).trans (congrArg _ (by decide +kernel)))⟩,
   ⟨_, (h.1 _ 0 rfl).2.2.2.2.2.2.1 _ (by decide +kernel) (by decide +kernel) (getOk (by decide +kernel))⟩,
   ⟨_, (h.1 _ 0 rfl).2.2.2.2.2.2.2.1⟩, ⟨_, (h.1 _ 0 rfl).2.2.2.2.2.2.2.1⟩⟩

def launching : State := (queued .actLaunch launched).putMem 0x30000 header

/-- LAUNCH of a kernel whose header is at 0x30000 (R407, R461). -/
theorem witness_launch (h : Obligations.QueueActionResults) : ∃ e, launching.launch 0 (launching.queue 0) = .done e :=
  ⟨_, h.2 launching 0 (launching.queue 0) { regs := 248 } _ _ _ (by decide +kernel) (by decide +kernel) (by decide +kernel)
    (by decide +kernel) ((getOk (by decide +kernel)).trans (congrArg Except.ok (by decide +kernel))) rfl rfl
    (Option.some_get (by decide +kernel)).symm⟩

def copying : State :=
  (queued .actCopy [0x30000, 0]).putMem 0x30000 (natLe 128 (0x40000 + 0x50000 * 2 ^ 64 + 300 * 2 ^ 384 +
    (1 + 2 ^ 16 + 2 ^ 32 + 2 ^ 48) * 2 ^ 408))

theorem copying_copies : isOk (copying.queueCopy (copying.queue 0)) = true := by decide +kernel

theorem pairOk {α β γ : Type} {x : Except γ (α × β)} (h : isOk x = true) : ∃ d e, x = .ok (d, e) :=
  match x, h with
  | .ok (d, e), _ => ⟨d, e, rfl⟩

/-- COPY of 300 bytes between global addresses (R407). -/
theorem witness_copy (h : Obligations.QueueActionResults) : ∃ s', exec .actCopy copying = .next s' := by
  obtain ⟨d, e, x⟩ := pairOk copying_copies
  exact ⟨_, (h.1 copying 0 rfl).2.2.2.2.2.1 d e x⟩

/-- Queue 0 of function 0, off, with a ring and no program; the device is ready. -/
def queueOff : State :=
  (queued .qpEnd).updQueue 0 fun x => { x with enable := false, state := .off, prog := 0, inPacket := false, packets := [] }

/-- ENABLE of a queue that is ready and of one whose ring is too small, ENABLE = 0, RESUME, kicks by 1 and by 2^31 − 1, and a function
that does not reach the queue (R401, R402, R410). -/
theorem witness_QueueRegisterResults (h : Obligations.QueueRegisterAndEventResults) :
    (∃ s', exec (.queueEnable 0 0) queueOff = .next s') ∧
    (∃ s', exec (.queueEnable 0 0) (queueOff.updQueue 0 fun x => { x with log2size := 3 }) = .next s') ∧
    (∃ s', exec (.queueDisable 0 0) (queued .qpEnd) = .next s') ∧
    (∃ s', exec (.queueResume 0 0) ((queued .qpEnd).updQueue 0 fun x => { x with state := .faulted }) = .next s') ∧
    (∃ s', exec (.kick 0 0 0x80000000) (queued .qpEnd) = .next s') ∧
    (exec (.kick 1 0 0) (queued .qpEnd) = .next (queued .qpEnd)) :=
  ⟨⟨_, h.1.1 _ 0 0 (by decide +kernel) (by decide +kernel) (by decide +kernel)⟩,
   ⟨_, h.1.2.1 _ 0 0 (by decide +kernel) (by decide +kernel) (by decide +kernel)⟩,
   ⟨_, h.1.2.2.1 _ 0 0 (by decide +kernel) (by decide +kernel)⟩, ⟨_, h.1.2.2.2.1 _ 0 0 (by decide +kernel) (by decide +kernel)⟩,
   ⟨_, h.1.2.2.2.2.1 _ 0 0 0x80000000 (by decide +kernel)⟩,
   h.1.2.2.2.2.2 _ 1 0 (by decide +kernel) _ (.tail _ (.tail _ (.tail _ (.head _))))⟩

/-- Queue 0 with a full ring of unread packets, idle. -/
def kicked : State :=
  (queued .qpEnd).updQueue 0 fun x =>
    { x with state := .idle, inPacket := false, packets := [], kickv := 0x41, rdidx := 1, ringbase := 0x40000 }

/-- A packet read with the ring full, the conditions of a blocked queue, and ARMED (R402, R405, R407, R409). -/
theorem witness_QueueEventResults (h : Obligations.QueueRegisterAndEventResults) :
    (∃ s', exec (.packetRead 0) kicked = .next s') ∧
    (∃ s', exec (.waitsigSatisfied 0) ((queued .qpEnd).updQueue 0 fun x =>
      { x with state := .blocked, block := some (.signal 0x30000 0 0) }) = .next s') ∧
    (∃ s', exec (.chainSatisfied 0) ((queued .qpEnd).updQueue 0 fun x =>
      { x with state := .blocked, block := some (.chain 5 0x80000001) }) = .next s') ∧
    (∃ s', exec (.sigwaitArm 0 255) ((queued .qpEnd).updFunc 0 fun f => { f with sigs := f.sigs.set {} 255 { addr := 0x30000 } }) =
      .next s') :=
  ⟨⟨_, h.2.1 _ 0 _ (by decide +kernel) (by decide +kernel) (by decide +kernel) (by decide +kernel) (by decide +kernel)
      (by decide +kernel) (by decide +kernel) (getOk (by decide +kernel))⟩,
   ⟨_, h.2.2.2.1 _ 0 0x30000 0 0 0x30000 (by decide +kernel) ((getOk (by decide +kernel)).trans (congrArg _ (by decide +kernel)))
      (by decide +kernel) (by decide +kernel)⟩,
   ⟨_, h.2.2.2.2.1 _ 0 5 0x80000001 (by decide +kernel) (by decide +kernel)⟩,
   ⟨_, h.2.2.2.2.2 _ 0 255 0x30000 (by decide) (by decide) (by decide +kernel) (by decide +kernel) (by decide +kernel)
      ((getOk (by decide +kernel)).trans (congrArg _ (by decide +kernel))) (by decide +kernel)⟩⟩

/-! ## Witnesses: the scheduler, latency cores and faults -/

/-- Thread 0 parked on `c`. -/
def parked (c : Cond) (m : List Byte := []) : State := (held (.nop hdr) [] m).updThread 0 fun t => { t with status := .parked c }

/-- A record of a task of context 0. -/
def recordOf : QRec := { num := 1, ctx := 0, entry := 0x30040, args := [1, 2, 3, 4], hdr := { regs := 248 } }

/-- A group of two, of which one waits for the future at 0x30000, which has a value, and the other for the first; or for another
future, which is EMPTY (R47). -/
def parkedPair (other : Cond) : State :=
  let s := (together (.nop hdr)).putMem 0x30000 (done ++ empty)
  (s.updThread 0 fun t => { t with status := .parked (.future 0x30000 none) }).updThread 1 fun t => { t with status := .parked other }

/-- A future with a value, a bit that is set, and a future still EMPTY at its limit (R53, R55, R68, R69, R80). -/
theorem witness_wakes (h : Obligations.WakeAndSchedulerResults) :
    (∃ s', exec (.threadWake (.thread 0)) (parked (.future 0x30000 none) done) = .next s') ∧
    (∃ s', exec (.threadWake (.thread 0)) (parked (.bit 0x30000 63) (natLe 8 (2 ^ 63))) = .next s') ∧
    (exec (.threadWake (.thread 0)) (held (.nop hdr)) = .next (held (.nop hdr))) ∧
    (∃ s', exec (.waitTimeout (.thread 0)) (parked (.future 0x30000 (some 0)) empty) = .next s') ∧
    (∃ s', exec (.threadWake (.thread 0)) (parkedPair (.unit true)) = .next s') ∧
    (∃ s', exec (.threadWake (.thread 0)) (parkedPair (.future 0x30010 none)) = .next s') :=
  ⟨⟨_, h.1.1 (parked (.future 0x30000 none) done) ((parked (.future 0x30000 none) done).threads.head (by decide +kernel)) _
      (by decide +kernel) rfl (by decide +kernel) (by decide +kernel)⟩,
   ⟨_, h.1.1 (parked (.bit 0x30000 63) (natLe 8 (2 ^ 63))) ((parked (.bit 0x30000 63) (natLe 8 (2 ^ 63))).threads.head (by decide +kernel)) _
      (by decide +kernel) rfl (by decide +kernel) (by decide +kernel)⟩,
   h.1.2.2.2.1 (held (.nop hdr)) ((held (.nop hdr)).threads.head (by decide +kernel)) (by decide +kernel)
      (fun c hc => Status.noConfusion (hc.symm.trans (show _ = Status.ready by decide +kernel))),
   ⟨_, h.1.2.2.2.2.2.1 (parked (.future 0x30000 (some 0)) empty)
      ((parked (.future 0x30000 (some 0)) empty).threads.head (by decide +kernel)) 0x30000 0 0x30000 (by decide +kernel)
      (by decide +kernel) rfl (by decide +kernel) ((getOk (by decide +kernel)).trans (congrArg _ (by decide +kernel)))
      (by decide +kernel)⟩,
   ⟨_, h.1.2.1 (parkedPair (.unit true)) ((parkedPair (.unit true)).threads.head (by decide +kernel)) 5 0 _ (by decide +kernel)
      (by decide +kernel) rfl (by decide +kernel)⟩,
   ⟨_, h.1.2.1 (parkedPair (.future 0x30010 none)) ((parkedPair (.future 0x30010 none)).threads.head (by decide +kernel)) 5 0 _
      (by decide +kernel) (by decide +kernel) rfl (by decide +kernel)⟩⟩

/-- The pair goes on where the other waits for nothing of its own, and stays parked where it does. -/
theorem test_pair_wakes_together :
    ((((parkedPair (.unit true)).wakeThread 0).threads.map (·.pc)) = [0x20000, 0x20008]) ∧
    (((parkedPair (.future 0x30010 none)).wakeThread 0).threads.map (·.status)) =
      [.parked (.unit false), .parked (.future 0x30010 none)] := by decide +kernel

/-- Core 0 with the records of `q` in its queue and no thread. -/
def idleCore (q : List QRec) : State :=
  ({ held (.nop hdr) with threads := [], tasks := [] } : State).updCore 0 fun c => { c with queue := q }

/-- A record admitted, and one placed from the pool (R57, R461). -/
theorem witness_admits (h : Obligations.WakeAndSchedulerResults) :
    (∃ s', exec (.taskAdmit 0 0) (idleCore [recordOf]) = .next s') ∧
    (∃ s', exec (.taskPlace 0 0) ((idleCore []).updCtx 0 fun x => { x with pool := [.record recordOf] }) = .next s') :=
  ⟨⟨_, h.2.1 _ 0 0 recordOf [] _ (by decide +kernel) (by decide +kernel) (by decide +kernel) (by decide +kernel)
      (Option.some_get (by decide +kernel)).symm⟩,
   ⟨_, (h.2.2.1 _ 0 0 _ (Option.some_get (by decide +kernel)).symm).1⟩⟩

/-- A gang of one thread more than a core holds, in held admission (R61). -/
def bigGang : QRec :=
  { recordOf with kind := .gang, heldAt := some 0, hdr := { regs := 248, gang := true, roles := [{ regs := 248, count := 257 }] } }

/-- Held admission at 64 µs, and a gang's bound (R58, R61). -/
theorem witness_held_admission (h : Obligations.WakeAndSchedulerResults) :
    (∃ s', exec (.heldAdmission 0 0) { idleCore [{ recordOf with passed := some 0 }] with elapsed := 64000 } = .next s') ∧
    (∃ s', exec (.gangBoundExpiry 0 0) { idleCore [bigGang] with elapsed := 10000000 } = .next s') :=
  ⟨⟨_, h.2.2.2.1 _ 0 0 { recordOf with passed := some 0 } (by decide +kernel) (by decide +kernel)⟩,
   ⟨_, h.2.2.2.2.1 _ 0 0 bigGang 0 (by decide +kernel) (by decide +kernel) (by decide +kernel) (by decide +kernel)
      (by decide +kernel)⟩⟩

/-- A refill of a queue of 511 records, a steal and a saving (R57, R59, R431). -/
theorem witness_moves (h : Obligations.WakeAndSchedulerResults) :
    (∃ s', exec (.spillRefill 0 0) ((idleCore (List.replicate 511 recordOf)).updCore 0 fun c => { c with spill := [recordOf] }) =
      .next s') ∧
    (∃ s', exec (.taskSteal 0 1 0) ((idleCore [recordOf]).updCtx 0 fun x => { x with cores := [0, 1] }) = .next s') ∧
    (∃ s', exec (.preemptSave 0 0) ((held (.nop hdr)).updCore 0 fun c => { c with stopping := true }) = .next s') :=
  ⟨⟨_, h.2.2.2.2.2.1 _ 0 0 recordOf [] (by decide +kernel) (by decide +kernel)⟩,
   ⟨_, h.2.2.2.2.2.2.1 _ 0 1 0 recordOf (by decide) (by decide +kernel) (by decide +kernel) (by decide +kernel) (by decide +kernel)
      (by decide +kernel) (by decide +kernel)⟩,
   ⟨_, h.2.2.2.2.2.2.2 _ 0 0 0 (by decide +kernel) (by decide +kernel) (by decide +kernel)⟩⟩

/-- A request of thread 7 to latency core 9. -/
def request : ShipReq :=
  { sender := .thread 7, ctx := 0, entry := 0x20000, lock := 0x30000, kind := .w, args := [1, 2], m := 2, reg := 0, span := 2, task := 0
    pd := 7, token := 0 }

def latency (l : Lc) : State := { held (.nop hdr) with lcs := [(9, l)] }

/-- Thread 0 has offered a request of a kind to latency core 9. -/
def offering (kind : ShipKind) : State :=
  (latency { offers := [{ request with sender := .thread 0, kind }] }).updThread 0 fun t => { t with status := .offered 9 }

/-- A request offered to an idle home and to one with 127 entries and a refused one, a grant, a start, and the time limit (R169 to
R178). -/
theorem witness_LatencyCoreResults (h : Obligations.LatencyCoreResults) :
    (∃ s', exec (.shipArrival 9) (latency { offers := [request] }) = .next s') ∧
    (∃ s', exec (.shipGrant 9) (latency { queue := List.replicate 127 request, refused := [request] }) = .next s') ∧
    (∃ s', exec (.sectionStart 9) (latency { queue := [request] }) = .next s') ∧
    (∃ s', exec (.sectionTimeLimit 9) { inSection (.nop hdr) with elapsed := 1000000 } = .next s') ∧
    (∃ s', (offering .o).acceptShip 9 { request with sender := .thread 0, kind := .o } = s') ∧
    (∃ s', (offering .w).acceptShip 9 { request with sender := .thread 0 } = s') ∧
    (∃ s', (offering .w).refuseShip 9 { request with sender := .thread 0 } = s') :=
  ⟨⟨_, h.1 _ 9 request [] (by decide +kernel) (by decide +kernel)⟩, ⟨_, h.2.1 _ 9 request [] (by decide +kernel) (by decide +kernel)⟩,
   (h.2.2.2.2.1 _ 9 request [] (by decide +kernel) (by decide +kernel) (by decide) (by decide +kernel)).elim fun e x => ⟨e, x.choose_spec.1⟩,
   ⟨_, h.2.2.2.2.2 _ 9 0 ((inSection (.nop hdr)).threads.head (by decide +kernel)) _ rfl (by decide +kernel) rfl (by decide +kernel)⟩,
   ⟨_, (h.2.2.1 (offering .o) 9 _ ((offering .o).threads.head (by decide +kernel)) (by decide +kernel) (by decide +kernel) (by decide +kernel)
      (by decide +kernel)).1 (by decide)⟩,
   ⟨_, (h.2.2.1 (offering .w) 9 _ ((offering .w).threads.head (by decide +kernel)) (by decide +kernel) (by decide +kernel) (by decide +kernel)
      (by decide +kernel)).2 (by decide)⟩,
   ⟨_, h.2.2.2.1 (offering .w) 9 _ ((offering .w).threads.head (by decide +kernel)) (by decide +kernel) (by decide +kernel) (by decide +kernel)
      (by decide +kernel)⟩⟩

/-- A record held by a context with a fault queue, a claim of 100 µs, and the three uncorrectable errors (R423, R424, R432). -/
theorem witness_FaultEventResults (h : Obligations.FaultEventResults) :
    (let s := (held (.nop hdr)).updCtx 0 fun x => { x with cmbase := 0x100000, heldRecs := [{ time := 0 }] }
      ∃ s', exec (.faultRecordWrite 0) s = .next s') ∧
    (let s := ({ held (.nop hdr) with elapsed := 100000 } : State).updCtx 0 fun x => { x with claims := [{ seq := 4, fid := 0, since := 0, host := true }] }
      ∃ s', exec (.routingTimeout 0 4) s = .next s') ∧
    (∃ s', exec (.scrubUncorrectable (some 0x30000) none) (held (.nop hdr)) = .next s') ∧
    (∃ s', exec (.scrubUncorrectable none (some (.core 0 0))) ((held (.nop hdr)).updCore 0 fun c => { c with lastCtx := some 0 }) =
      .next s') ∧
    (∃ s', exec (.scrubUncorrectable none (some (.home 0x300))) { held (.nop hdr) with home := [] } = .next s') ∧
    (∃ s', exec (.scrubUncorrectable none (some (.home 0x300))) { held (.nop hdr) with home := [⟨0x300, 1, none⟩] } = .next s') ∧
    (∃ s', exec (.scrubUncorrectable none none) (held (.nop hdr)) = .next s') := by
  refine ⟨⟨_, h.1 _ 0⟩, ⟨_, h.2.2.1 _ 0 _ { seq := 4, fid := 0, since := 0, host := true } 4 (Option.some_get (by decide +kernel)).symm
    (by decide +kernel) rfl (by decide +kernel)⟩, ⟨_, h.2.2.2.1 _ _ _⟩,
    ⟨_, h.2.2.2.2.2.1 _ (.core 0 0) 0 (by decide +kernel)⟩, ⟨_, h.2.2.2.2.2.2.1 _ (.home 0x300) (by decide +kernel)⟩, ?_, ?_⟩
  · exact (h.2.2.2.2.2.2.2.1 _ (some (.home 0x300)) fun x hx => by cases hx; decide +kernel).imp fun _ x => x.1
  · exact (h.2.2.2.2.2.2.2.1 _ none fun x hx => nomatch hx).imp fun _ x => x.1

/-! ## Witnesses: the mailbox and the debugger -/

/-- A running device whose context 0 is of function 0, whose semaphore port 0 holds, and whose device memory from 0x30000 holds
`m`. -/
def service (m : List Byte := []) : State := { held (.nop hdr) [] m with sem := { held := true, owner := 0, since := 0 } }

/-- What a mailbox operation answers is a next state. -/
theorem commanded {o : Out} {e : State} {func : Nat} (h : o = e.commandDone func) : ∃ s', o = .next s' := ⟨_, h⟩

/-- A program image of one word, END, with no window (R406). -/
def imageOf : List Byte := natLe 136 1 ++ natLe 4 0x11

/-- A context descriptor with its tables at 0x10000 and 64 KiB of memory at 0x200000 (R417). -/
def contextOf : List Byte :=
  natLe 64 (6 * 2 ^ 256 + 1000 * 2 ^ 288 + 100 * 2 ^ 320 + 2 ^ 352 + 0x200000 * 2 ^ 384 + 0x10000 * 2 ^ 448)

/-- A set of cores 0 and 511 at 0x30000, and context memory of just the size that two cores need (R418); what a saved core needs
is an implementation's own. -/
def roomy : State := (service (natLe 64 (2 ^ 511 + 1))).updCtx 0 fun x => { x with cmsize := placedCtx.layoutBytes 2 2 }

theorem layout_of_size (x : Ctx) (m n e : Nat) : ({ x with cmsize := m } : Ctx).layoutBytes n e = x.layoutBytes n e := rfl

theorem ctx_of_size (s : State) (x : Ctx) (m : Nat) (w : SMap.wf none s.ctxs) (h : s.ctx? 0 = some x) :
    (s.updCtx 0 fun x => { x with cmsize := m }).ctx? 0 = some { x with cmsize := m } :=
  (SMap.get_set 0 0 _ w).trans ((if_pos rfl).trans (congrArg (Option.map fun x : Ctx => { x with cmsize := m }) h))

/-- LOAD of the highest program number, FREE, CREATE of the highest context number, DESTROY, SETCORES, PREEMPT and TLBINV. -/
theorem witness_MailboxContextResults (h : Obligations.MailboxContextResults) :
    (∃ s', exec (.load 0 4095 0 0x30000) (service imageOf) = .next s') ∧
    (∃ s', exec (.free 0 1 0) ((service).updCtx 0 fun x => { x with progs := [⟨1, [0x11], []⟩] }) = .next s') ∧
    (∃ s', exec (.create 0 1023 0x30000) (service contextOf) = .next s') ∧
    (∃ s', exec (.destroy 0 0) service = .next s') ∧
    (∃ s', exec (.setcores 0 0 0x30000) roomy = .next s') ∧
    (∃ s', exec (.preempt 0 0 0x30000) (service (natLe 64 1)) = .next s') ∧
    (∃ s', exec (.tlbinv 0 0 0 0) service = .next s') :=
  ⟨commanded ((h (service imageOf) 0 0 (by unfold State.takesCommand; decide +kernel)).1 _ 4095 0x30000 1 (natLe 4 0x11) []
      (Option.some_get (by decide +kernel)).symm (by decide +kernel) (by decide) (by decide)
      ((getOk (by decide +kernel)).trans (congrArg _ (by decide +kernel))) (by decide) (by decide)
      ((getOk (by decide +kernel)).trans (congrArg _ (by decide +kernel)))
      ((getOk (by decide +kernel)).trans (congrArg _ (by decide +kernel)))),
   commanded ((h _ 0 0 (by unfold State.takesCommand; decide +kernel)).2.1 _ 1 (Option.some_get (by decide +kernel)).symm
      (by decide +kernel) (by decide) (by decide +kernel)),
   ⟨_, (h _ 0 1023 (by unfold State.takesCommand; decide +kernel)).2.2.1 _ 0x30000 (by decide) (by decide +kernel) (by decide +kernel)
      (Option.some_get (by decide +kernel)).symm⟩,
   commanded ((h _ 0 0 (by unfold State.takesCommand; decide +kernel)).2.2.2.1 _ (Option.some_get (by decide +kernel)).symm
      (by decide +kernel)),
   commanded ((h roomy 0 0 (by unfold State.takesCommand; decide +kernel)).2.2.2.2.1 { placedCtx with cmsize := placedCtx.layoutBytes 2 2 }
      0x30000 (by decide +kernel) (ctx_of_size _ placedCtx _ (by decide +kernel) (by decide +kernel)) (by decide +kernel) (by decide +kernel)
      (.inr (.inl (by decide))) (Nat.le_of_eq ((layout_of_size placedCtx _ _ _).trans (congrArg₂ placedCtx.layoutBytes (by decide +kernel) (by decide +kernel))))),
   ⟨_, (h _ 0 0 (by unfold State.takesCommand; decide +kernel)).2.2.2.2.2.1 _ 0x30000 (by decide +kernel)
      (Option.some_get (by decide +kernel)).symm (by decide +kernel) (by decide +kernel) (by decide +kernel) (by decide +kernel)⟩,
   commanded ((h _ 0 0 (by unfold State.takesCommand; decide +kernel)).2.2.2.2.2.2 _ 0 0 (Option.some_get (by decide +kernel)).symm
      (by decide +kernel))⟩

/-- An export of the page at 0x30000 to context 9 of node 5 (R419). -/
def exportOf : List Byte := natLe 32 (0x30000 * 2 ^ 192 + 2 ^ 160 + 5 * 2 ^ 144 + 9 * 2 ^ 128 + 7 * 2 ^ 112 + 14)
def anExport : Export :=
  { num := 7, ctx := 0, base := 0x30000, pages := 1, node := 5, rctx := 9, xship := true, xw := true, xr := true }

/-- RESOLVE of both senders, EXPORT, UNEXPORT, FWWRITE and FWACTIVATE (R419, R426, R427, R440). -/
theorem witness_MailboxServiceResults (h : Obligations.MailboxServiceResults) :
    (∃ s', exec (.resolve (some 0) 3 0 true) ((service).updCtx 0 fun x => { x with fids := [⟨3, 0x40, .read, 0⟩] }) = .next s') ∧
    (∃ s', exec (.resolve none 3 0 false) ((service).updCtx 0 fun x => { x with fids := [⟨3, 0x40, .read, 0⟩] }) = .next s') ∧
    (∃ s', exec (.exportCtx 0 0 0x30000) (service exportOf) = .next s') ∧
    (∃ s', exec (.unexportCtx 0 7 0) { service with exports := [anExport] } = .next s') ∧
    (∃ s', exec (.fwwrite 0 0x30000 4096) service = .next s') ∧
    (∃ s', exec (.fwactivate 0) { service with boot := { (service).boot with flash := [some ⟨0, 0, [], []⟩, some ⟨1, 0, [], []⟩] } } =
      .next s') :=
  ⟨commanded ((h.1 _ 0 _ 3 ⟨3, 0x40, .read, 0⟩ true (Option.some_get (by decide +kernel)).symm (by decide +kernel)).2
      (by unfold State.takesCommand; decide +kernel)),
   ⟨_, (h.1 _ 0 _ 3 ⟨3, 0x40, .read, 0⟩ false (Option.some_get (by decide +kernel)).symm (by decide +kernel)).1 (by decide +kernel)⟩,
   commanded ((h.2 _ 0 (by unfold State.takesCommand; decide +kernel)).1 0 _ 0x30000 anExport (Option.some_get (by decide +kernel)).symm
      (by decide +kernel) (by decide +kernel) (by decide +kernel) (by decide +kernel) (by decide +kernel)),
   commanded ((h.2 _ 0 (by unfold State.takesCommand; decide +kernel)).2.1 0 _ 7 anExport (Option.some_get (by decide +kernel)).symm
      (by decide +kernel) (by decide +kernel) rfl rfl),
   ⟨_, (h.2 _ 0 (by unfold State.takesCommand; decide +kernel)).2.2.1 0x30000 4096 (by decide +kernel) (by decide +kernel)⟩,
   commanded ((h.2 _ 0 (by unfold State.takesCommand; decide +kernel)).2.2.2 ⟨1, 0, [], []⟩ (by decide +kernel) (by decide +kernel) rfl)⟩

/-- Thread 0 stopped for the debugger, with 16 registers. -/
def stopped : State :=
  (service).updThread 0 fun t => { t with status := .trapped true, regs := List.replicate 16 {} }

/-- Each kind of sub-operation on a thread stopped for the debugger (R354). -/
theorem witness_DebugResults (h : Obligations.DebugResults) :
    (∃ s', exec (.attach 0 0 true) stopped = .next s') ∧ (∃ s', exec (.stopctx 0 0 false) stopped = .next s') ∧
    (∃ s', exec (.debugResume 0 0 ⟨0, 0, 0, 0⟩ true) stopped = .next s') ∧ (∃ s', exec (.wrbp 0 0 4 8) stopped = .next s') ∧
    (∃ s', exec (.rdframe 0 0 ⟨0, 0, 0, 0⟩ 0x30000) stopped = .next s') ∧
    (∃ s', exec (.rdstate 0 0 ⟨0, 0, 0, 0⟩ 0x30000) stopped = .next s') ∧
    (∃ s', exec (.wrstate 0 0 ⟨0, 0, 0, 0⟩ 0x30000) stopped = .next s') := by
  have x := h stopped 0 _ (Option.some_get (by decide +kernel)).symm (by unfold State.takesCommand; decide +kernel)
  have f := (x.2.2.2.2.2.2.2 ⟨0, 0, 0, 0⟩ (stopped.threads.head (by decide +kernel)) 0x30000 (by decide +kernel) (by decide +kernel))
  have g := f.2 (by decide) (by decide +kernel)
  have one : stopped.actorTids (stopped.actorOf (stopped.threads.head (by decide +kernel))) = [0] := by decide +kernel
  exact ⟨commanded x.1, commanded x.2.2.2.1,
    commanded (x.2.2.2.2.1 ⟨0, 0, 0, 0⟩ (stopped.threads.head (by decide +kernel)) true (by decide +kernel) (by decide +kernel) (by
      intro i hi u hu
      rw [one] at hi
      obtain rfl := List.mem_singleton.1 hi
      obtain rfl := Option.some.inj hu
      decide +kernel)),
    commanded (x.2.2.2.2.2.2.1 4 8 (by decide) (by decide)), commanded (f.1 (by decide) (by decide +kernel)), commanded g.1,
    commanded (g.2 _ (Option.some_get (by decide +kernel)).symm)⟩

/-- A busy mailbox, and each reason of a rejection (R416, R399, R354). -/
theorem witness_MailboxRejections (h : Obligations.MailboxRejections) :
    (exec (.destroy 0 0) ((service).setStat 0 1 0 0) = .next ((service).setStat 0 1 0 0)) ∧
    (exec (.attach 0 9 true) service = .next ((service).setStat 0 3 1 0)) ∧
    (exec (.resolve (some 0) 7 9 false) service = .next ((service).setStat 0 3 5 0)) ∧
    (exec (.attach 64 0 true) service = .next ((service).setStat 64 3 3 0)) ∧
    (exec (.fwactivate 64) service = .next ((service).setStat 64 3 3 0)) ∧
    (exec (.rdframe 0 0 ⟨0, 0, 1, 0⟩ 0) service = .next ((service).setStat 0 3 0x0D 0)) ∧
    (exec (.rdframe 0 0 ⟨0, 0, 0, 0⟩ 0) service = .next ((service).setStat 0 3 0x0C 0)) := by
  refine ⟨(h _ 0 0 (by decide) (by decide +kernel)).1 (by decide +kernel) _ (.inr (.inr (.inr rfl))), ?_,
    ((h service 0 9 (by decide) (by decide +kernel)).2 (by decide +kernel)).2.1 (by decide +kernel) 7 false, ?_, ?_, ?_, ?_⟩
  · exact ((h service 0 9 (by decide) (by decide +kernel)).2 (by decide +kernel)).1 (by decide +kernel) _
      (.inl ⟨0, 0, 0, 0, ⟨0, 0, 0, 0⟩, true, 0, 0, true, 0, .tail _ (.tail _ (.tail _ (.tail _ (.tail _ (.head _)))))⟩)
  · exact ((h service 64 0 (by decide) (by decide +kernel)).2 (by decide +kernel)).2.2.1 _ (Option.some_get (by decide +kernel)).symm
      (by decide +kernel) _
      (.inl ⟨0, 0, 0, 0, ⟨0, 0, 0, 0⟩, true, 0, 0, true, 0, .tail _ (.tail _ (.tail _ (.tail _ (.tail _ (.head _)))))⟩)
  · exact ((h service 64 0 (by decide) (by decide +kernel)).2 (by decide +kernel)).2.2.2.1 (by decide +kernel) _
      ⟨0, 0, .tail _ (.tail _ (.tail _ (.head _)))⟩
  · exact (((h service 0 0 (by decide) (by decide +kernel)).2 (by decide +kernel)).2.2.2.2 _ (Option.some_get (by decide +kernel)).symm
      (by decide +kernel) ⟨0, 0, 1, 0⟩ 0 _ (.head _)).1 (by decide +kernel)
  · exact (((h service 0 0 (by decide) (by decide +kernel)).2 (by decide +kernel)).2.2.2.2 _ (Option.some_get (by decide +kernel)).symm
      (by decide +kernel) ⟨0, 0, 0, 0⟩ 0 _ (.head _)).2 ((service).threads.head (by decide +kernel)) (by decide +kernel)
      (by decide +kernel)

/-! ## Witnesses: the host, the network, accounting and time -/

/-- The semaphore free, held and asked for again, held by another port, and its end; each control by its holder and by none; a reset
(R399, R400, R434, R451 to R455). -/
theorem witness_SemaphoreAndControlResults (h : Obligations.SemaphoreAndControlResults) :
    (∃ s', exec (.semtas 3) (held (.nop hdr)) = .next s') ∧ (∃ s', exec (.semtas 0) service = .next s') ∧
    (∃ s', exec (.semtas 1) service = .next s') ∧ (exec (.semrel 0 1) service = .next ({ service with sem := {} } : State).fwLeaseCheck) ∧ ((service).fwLeaseCheck = service) ∧
    (let s := { service with sem := {}, boot := { (service).boot with fw := some ⟨0, 0x30000, 4096⟩ } };
      s.fwLeaseCheck = s.fwFinish) ∧
    (exec (.semrel 1 1) service = .next service) ∧ (∃ s', exec .semaphoreLeaseExpiry service = .next s') ∧
    (exec (.powerlim 1 1800) service = .next { service with semviol := (service).semviol + 1 }) ∧
    (∃ s', exec (.powerlim 0 3200) service = .next s') ∧ (∃ s', exec (.reset 0 1) service = .next s') ∧
    (∃ s', exec (.eventCounterControl 0 (0x4000 + 32 * 511 + 4 * 7) 0xFFFFFFFF) service = .next s') ∧
    (∃ s', exec (.eventCounterControl 0 (0xC000 + 4 * 159) 1) service = .next s') ∧
    (∃ s', exec (.throttleLevel 63) service = .next s') ∧
    (∃ s', exec (.serviceFirmwareDecline 0 4) ((service).updCtx 0 fun x => { x with claims := [{ seq := 4, fid := 0, since := 0, host := true }] }) =
      .next s') := by
  have a := h.1 (held (.nop hdr)) 3 (by decide +kernel) (by decide)
  have b := h.1 service 0 (by decide +kernel) (by decide)
  have c := h.1 service 1 (by decide +kernel) (by decide)
  have d := h.2.1 service 0 0 (by decide +kernel) (by decide) (by decide +kernel)
  refine ⟨⟨_, a.1 (.inl (by decide +kernel))⟩, ⟨_, b.1 (.inr (by decide +kernel))⟩, ⟨_, c.2.1 0 (by decide +kernel) (by decide)⟩,
    b.2.2.1 1 (by decide) (by decide +kernel), b.2.2.2.2.2.1 (by decide +kernel),
    ((h.1 { service with sem := {}, boot := { (service).boot with fw := some ⟨0, 0x30000, 4096⟩ } } 0 (by decide +kernel)
      (by decide)).2.2.2.2.2.2.1 ⟨0, 0x30000, 4096⟩ rfl).trans (if_neg (by decide +kernel)), c.2.2.2.1 1 (.inr (by decide +kernel)), ⟨_, b.2.2.2.2.1 (by decide +kernel)⟩,
    c.2.2.2.2.2.2.2 (by decide +kernel) 0 1800 0 _ (.tail _ (.head _)), ⟨_, (h.2.1 service 0 3200 (by decide +kernel) (by decide) (by decide +kernel)).1⟩,
    ((h.2.1 service 0 1 (by decide +kernel) (by decide) (by decide +kernel)).2.2.1 (by decide)).imp fun _ x => x.1,
    ⟨_, d.2.2.2.1 511 7 0xFFFFFFFF (by decide) (by decide)⟩, ⟨_, d.2.2.2.2 159 1 (by decide)⟩, ⟨_, h.2.2.1 service 63 (by decide)⟩,
    ⟨_, h.2.2.2.2.2.2 _ 0 _ 4 { seq := 4, fid := 0, since := 0, host := true } (Option.some_get (by decide +kernel)).symm
      (by decide +kernel)⟩⟩

/-- A mailbox operand and an operation, a kick of the last queue, the routing table, a ring base and the last signal-wait entry; and
reads of the last queue, entry and record, of BOOTSTAT, and of what a VF does not see (R395 to R402, R409, R416, R424, R449). -/
theorem witness_RegisterWriteResults (h : Obligations.RegisterWriteResults) :
    (∃ s', exec (.registerWrite 127 0 0x10010 5) service = .next s') ∧
    (∃ s', exec (.registerWrite 0 0 0x10000 4) service = exec (.destroy 0 s') service) ∧
    (exec (.registerWrite 127 2 (8 * 65535) 5) service = exec (.kick 127 65535 5) service) ∧
    (∃ s', exec (.registerWrite 0 0 0x100 0) service = .next s') ∧
    (∃ s', exec (.registerWrite 0 0 (0x400000 + 64 * 0 + 24) 0x40000) queueOff = .next s') ∧
    (∃ s', exec (.registerWrite 127 0 (0x20000 + 32 * 255 + 16) 8) service = .next s') ∧
    (∃ s', (service).registerRead 127 2 (8 * 65535) 8 = .next s') ∧
    (∃ s', queueOff.registerRead 0 0 (0x400000 + 64 * 0 + 24) 8 = .next s') ∧
    (∃ s', (service).registerRead 127 0 (0x20000 + 32 * 255 + 24) 8 = .next s') ∧
    (∃ s', (service).registerRead 64 0 0x40 8 = .next s') ∧ (∃ s', (service).registerRead 127 0 0xFFF8 8 = .next s') ∧
    (∃ s', (service).registerRead 127 0 (0x100040 + 128 * 1023 + 8 * 15) 8 = .next s') := by
  have a := h service 127 5 (by decide) (.inl (by decide +kernel))
  exact ⟨⟨_, a.1⟩, ⟨_, (h service 0 4 (by decide) (.inl (by decide +kernel))).2.2.2.1.1 (4, _) (.tail _ (.tail _ (.tail _ (.head _)))) (by decide)⟩,
    a.2.2.2.2.1 65535 (by decide),
    ⟨_, ((h service 0 0 (by decide) (.inl (by decide +kernel))).2.2.2.2.2.1 (.inl rfl)).2.2.2.2 (by decide +kernel)⟩,
    ⟨_, (h queueOff 0 0x40000 (by decide) (.inl (by decide +kernel))).2.2.2.2.2.2.1 0 (by decide) (by decide +kernel) (by decide +kernel)⟩,
    ⟨_, ((h service 127 8 (by decide) (.inl (by decide +kernel))).2.2.2.2.2.2.2.2.2.1 255 (by decide)).2.1⟩,
    ⟨_, (a.2.2.2.2.2.2.2.2.2.2.2.2.2.2.2.1 65535 (by decide)).1⟩,
    ⟨_, ((h queueOff 0 0 (by decide) (.inl (by decide +kernel))).2.2.2.2.2.2.2.2.2.2.2.2.2.2.2.1 0 (by decide)).2 (by decide +kernel)⟩,
    ⟨_, (a.2.2.2.2.2.2.2.2.2.2.2.2.2.2.2.2.1 255 (by decide)).2⟩,
    ⟨_, ((h service 64 0 (by decide) (.inl (by decide +kernel))).2.2.2.2.2.2.2.2.2.2.2.2.2.2.2.2.2.1 (.inr rfl)).2.2.2.1⟩,
    ⟨_, a.2.2.2.2.2.2.2.2.2.2.2.2.2.2.2.2.2.2.1 (by decide) (by decide) 0xFFF8 (by decide) (by decide)⟩,
    ⟨_, (a.2.2.2.2.2.2.2.2.2.2.2.2.2.2.2.2.2.2.2 15 1023 (by decide) (by decide)).2⟩⟩

/-- `service` with a range of 4 bytes exposed as memory (R398). -/
def exposed : State := { service with hdm := (0x30000, 4) }

/-- Reads and writes of 4 bytes up to the end of an aperture and of the range exposed, one beyond it, and a snoop (R85, R396 to
R398). -/
theorem witness_HostAccessResults (h : Obligations.HostAccessResults) :
    (∃ s', exec (.hostCoherentAccess ⟨0, 2 ^ 35 - 4, 4, some [1, 2, 3, 4]⟩) service = .next s') ∧
    (∃ s', exec (.hostCoherentAccess ⟨64, 2 ^ 35 - 4, 4, none⟩) service = .next s') ∧
    (∃ s', exec (.hostDirectAccess ⟨0, 0x30000, 4, some [1, 2, 3, 4]⟩) service = .next s') ∧
    (∃ s', exec (.hostDirectAccess ⟨0, 0x30000, 4, none⟩) service = .next s') ∧
    (∃ s', exec (.cxlMemAccess ⟨0, 0x30000, 4, some [1, 2, 3, 4]⟩) exposed = .next s') ∧
    (∃ s', exec (.cxlMemAccess ⟨0, 0x30000, 4, none⟩) exposed = .next s') ∧
    (exec (.cxlMemAccess ⟨0, 0x30001, 4, none⟩) exposed = .next exposed) ∧ (∃ s', exec (.hostSnoop 0 true) service = .next s') ∧
    (let s : State := { service with boot := { (service).boot with state := .booting } };
      exec (.hostCoherentAccess ⟨0, 0, 4, none⟩) s = .next { s with hostRead := [0, 0, 0, 0] }) := by
  refine ⟨⟨_, (h.1 service ⟨0, 2 ^ 35 - 4, 4, some [1, 2, 3, 4]⟩ (by decide +kernel) (.inl rfl) (by decide)).1 _ rfl (by decide +kernel)⟩,
    ⟨_, (h.1 service ⟨64, 2 ^ 35 - 4, 4, none⟩ (by decide +kernel) (.inr rfl) (by decide)).2.1 rfl (by decide +kernel) (by decide +kernel)⟩,
    ((h.1 service ⟨0, 0x30000, 4, some [1, 2, 3, 4]⟩ (by decide +kernel) (.inl rfl) (by decide)).2.2.1 _ rfl (by decide +kernel)).imp
      fun _ x => x.1,
    ((h.1 service ⟨0, 0x30000, 4, none⟩ (by decide +kernel) (.inl rfl) (by decide)).2.2.2 rfl).imp fun _ x => x.1,
    ⟨_, (h.2.2.2.1 exposed ⟨0, 0x30000, 4, some [1, 2, 3, 4]⟩ (by decide +kernel) rfl (by decide +kernel) (by decide) (by decide)).1 _
      rfl⟩,
    ⟨_, (h.2.2.2.1 exposed ⟨0, 0x30000, 4, none⟩ (by decide +kernel) rfl (by decide +kernel) (by decide) (by decide)).2 rfl
      (by decide +kernel)⟩,
    h.2.2.1 exposed ⟨0, 0x30001, 4, none⟩ (by decide +kernel) rfl (by decide +kernel) (.inr (by decide)),
    (h.2.2.2.2 service 0 true (by unfold State.Inv; decide +kernel)).imp fun _ x => x.1,
    (h.2.1 { service with boot := { (service).boot with state := .booting } } ⟨0, 0, 4, none⟩ (.inl rfl) _ (.head _)).2 rfl⟩

/-- The device with the export of anExport and a peer, node 5. -/
def networked : State :=
  { service with exports := [anExport], net := { (service).net with peers := [{ node := 5, ip := 0 }] } }

/-- The flow with node 5 where message 0xFFFFFFFF has come, was refused, or waits for an earlier one. -/
def flowing (f : Flow) : State := { networked with net := networked.net.setFlow f }

/-- A message in its order, one seen before that was done, refused or held, and a FLAG before its turn (R412, R413). -/
theorem witness_PftReceiptResults (h : Obligations.PftReceiptResults) :
    (∃ s', exec (.pftPut ⟨5, 9, 0, true⟩ 0 7 4092 [1, 2, 3, 4]) networked = .next s') ∧
    (∃ s', exec (.pftPut ⟨5, 9, 0, true⟩ 0xFFFFFFFF 7 0 [1]) (flowing { node := 5, nacked := [0xFFFFFFFF] }) = .next s') ∧
    (∃ s', exec (.pftPut ⟨5, 9, 0, true⟩ 0xFFFFFFFF 7 0 [1]) networked = .next s') ∧
    (let s := flowing { node := 5, got := [7], held := [(7, .flag 7 0 9 0 true 1)] };
      exec (.pftPut ⟨5, 9, 0, true⟩ 7 7 0 [1]) s = .next (s.tallyIo 3 5 0x204 none)) ∧
    (∃ s', exec (.pftPut ⟨5, 9, 0, true⟩ 0xFFFFFFFF 7 0 [1]) (flowing { node := 5, full := [0xFFFFFFFF] }) = .next s') ∧
    (∃ s', exec (.pftFlag ⟨5, 9, 0, true⟩ 1 7 0 true 1) networked = .next s') :=
  ⟨⟨_, (h networked ⟨5, 9, 0, true⟩ 0 0 7 4092 0 false 0 0 0 0 0 0 [] true ⟨0, 0, 0, 0⟩ [] 0 0 false 0 ⟨0, 0⟩ 0 [1, 2, 3, 4] (by decide +kernel) _
      (.head _)).1 (by decide +kernel) (by decide +kernel)⟩,
   ⟨_, (h (flowing { node := 5, nacked := [0xFFFFFFFF] }) ⟨5, 9, 0, true⟩ 0xFFFFFFFF 0 7 0 0 false 0 0 0 0 0 0 [] true ⟨0, 0, 0, 0⟩ [] 0 0 false 0 ⟨0, 0⟩ 0
      [1] (by decide +kernel) _ (.head _)).2.1 (by decide +kernel) (by decide +kernel)⟩,
   ⟨_, (h networked ⟨5, 9, 0, true⟩ 0xFFFFFFFF 0 7 0 0 false 0 0 0 0 0 0 [] true ⟨0, 0, 0, 0⟩ [] 0 0 false 0 ⟨0, 0⟩ 0 [1] (by decide +kernel) _
      (.head _)).2.2.2.1 (by decide +kernel) (by decide +kernel) (by decide +kernel) (by decide +kernel)⟩,
   (h (flowing { node := 5, got := [7], held := [(7, .flag 7 0 9 0 true 1)] }) ⟨5, 9, 0, true⟩ 7 0 7 0 0 false 0 0 0 0 0 0 [] true ⟨0, 0, 0, 0⟩ []
      0 0 false 0 ⟨0, 0⟩ 0 [1] (by decide +kernel) _ (.head _)).2.2.2.2.1 (by decide +kernel) (by decide +kernel) (by decide +kernel)
      (by decide +kernel),
   ⟨_, (h (flowing { node := 5, full := [0xFFFFFFFF] }) ⟨5, 9, 0, true⟩ 0xFFFFFFFF 0 7 0 0 false 0 0 0 0 0 0 [] true ⟨0, 0, 0, 0⟩ [] 0 0 false
      0 ⟨0, 0⟩ 0 [1] (by decide +kernel) _ (.head _)).2.2.1 (by decide +kernel) (by decide +kernel) (by decide +kernel)⟩,
   ((h networked ⟨5, 9, 0, true⟩ 1 0 7 0 0 true 1 0 0 0 0 0 [] true ⟨0, 0, 0, 0⟩ [] 0 0 false 0 ⟨0, 0⟩ 0 [] (by decide +kernel) _
      (.tail _ (.tail _ (.tail _ (.head _))))).2.2.2.2.2 (by decide +kernel) (by decide +kernel) (by decide +kernel) (by decide +kernel)
      (by decide +kernel)).imp fun _ x => x.1⟩

/-- Requests within the export up to its last byte, and one outside every export; the answers to a GET and a SHIP; the notices of a
signal and a chain (R341, R407, R413, R419). -/
theorem witness_PftRequestEffects (h : Obligations.PftRequestEffects) :
    (∃ s', networked.applyMsg 5 0 (.put 0 7 4092 9 0 [1, 2, 3, 4]) = State.reply s' 5 (.ack [0])) ∧ (∃ s' l, networked.applyMsg 5 0 (.getReq 0 7 4092 4 9 0) = State.sendFor s' 0 5 (.getResp 0 4092 l)) ∧
    (∃ s', networked.applyMsg 5 0 (.flag 7 8 9 0 false 1) = State.reply s' 5 (.ack [0])) ∧ (∃ s', networked.applyMsg 5 0 (.flag 7 8 9 0 true 1) = State.reply s' 5 (.ack [0])) ∧
    (∃ s', networked.applyMsg 5 0 (.ship 3 7 0 9 0 request) = State.received s' 0 28) ∧ (∃ s', networked.applyMsg 5 0 (.signal 7 0 9 1 5 0 false) = State.reply s' 5 (.ack [0])) ∧
    (networked.applyMsg 5 4 (.getReq 0 8 0 1 9 0) = networked.refuseMsg 5 4) ∧
    (∃ s', networked.acceptShip 9 { request with sender := .remote 5 3 0 } = State.reply s' 5 (.ack [0])) ∧
    (∃ s', ({ networked with lcs := [(9, { offers := [{ request with sender := .remote 5 3 0 }] })] } : State).applyMsg 5 1
      (.shipWithdraw 3) = State.reply s' 5 (.ack [1])) ∧
    (networked.applyMsg 5 1 (.shipWithdraw 3) = networked.refuseMsg 5 1) :=
  ⟨⟨_, h.2.1 networked 5 0 9 7 4092 0 0 [1, 2, 3, 4] anExport _ (by decide +kernel) (Option.some_get (by decide +kernel)).symm⟩,
   ⟨_, _, h.2.2.2.1 networked 5 0 9 7 4092 0 0 4 anExport _ (by decide +kernel) (Option.some_get (by decide +kernel)).symm (by decide +kernel)⟩,
   ⟨_, (h.2.2.2.2.1 networked 5 0 9 7 8 0 1 anExport 0x30008 (by decide +kernel)).1 (by decide +kernel)⟩,
   ⟨_, (h.2.2.2.2.1 networked 5 0 9 7 8 0 1 anExport 0x30008 (by decide +kernel)).2 (by decide +kernel) (by decide +kernel)⟩,
   ⟨_, h.2.2.2.2.2.1 networked 5 0 3 9 7 0 0 request anExport 0x30000 (by decide +kernel)
      ((getOk (by decide +kernel)).trans (congrArg _ (by decide +kernel)))⟩,
   ⟨_, h.2.2.2.2.2.2.2.2.1 networked 5 0 9 7 0 1 5 0 anExport 0x30000 (by decide +kernel) (by decide +kernel)⟩,
   h.2.2.2.2.2.2.2.2.2.2.2.2.2.2.2.1 networked 5 4 9 8 0 0 0 false 0 request 0 0 [] 1 (by decide +kernel) _ (.tail _ (.head _)),
   ⟨_, (h.2.2.2.2.2.2.1 networked 5 0 3 9 _ rfl).1⟩,
   ((h.2.2.2.2.2.2.2.1 _ 5 1 3).1 ⟨_, .head _, _, .head _, by decide⟩).imp fun _ x => x.1,
   (h.2.2.2.2.2.2.2.1 networked 5 1 3).2 (by intro p hp; cases hp)⟩

/-- An RMA.GET of 4 bytes from node 5, under way as operation 6. -/
def getting : Rma :=
  { id := 2, ctx := 0, tid := 0, node := 5, put := false, remote := 2 ^ 32, loc := 0x30000, scratch := false, task := 0, taskHandle := 0
    die := 0, core := 0, bytes := 4, todo := [], parts := [⟨6, 0, 4⟩], fut := 0, scope := .core }

theorem noBlock {b : Option QBlock} {node q : Nat} (h : b = none) (n : Word) : b ≠ some (.remoteChain node q n) :=
  fun x => nomatch h.symm.trans x

theorem witness_pft_answers (h : Obligations.PftRequestEffects) :
    (∃ s', ({ networked with net := { networked.net with rmas := [getting] } } : State).applyMsg 5 0 (.getResp 6 0 [1, 2, 3, 4]) = State.reply s' 5 (.ack [0])) ∧
    (∃ s', ({ networked with net := { networked.net with ships := [(6, 5, request)] } } : State).applyMsg 5 0
      (.shipResult 6 true ⟨0, 63, 0x20000, 0⟩ [1, 2]) = State.reply s' 5 (.ack [0])) ∧
    (∃ s', (networked.updQueue 1 fun x => { x with block := some (.remoteSignal 5 7 8 1 0) }).applyMsg 5 0 (.signal 7 8 0 1 1 0 true) = State.reply s' 5 (.ack [0])) ∧
    (∃ s', (networked.updQueue 1 fun x => { x with block := some (.remoteChain 5 2 3) }).applyMsg 5 0 (.chainNotify ⟨1, 2⟩ 3) = State.reply s' 5 (.ack [0])) ∧
    (networked.applyMsg 5 0 (.chainNotify ⟨1, 2⟩ 3) = networked.reply 5 (.ack [0])) :=
  ⟨⟨_, h.2.2.2.2.2.2.2.2.2.2.2.2.2.1 _ 5 0 6 0 [1, 2, 3, 4] getting ⟨6, 0, 4⟩ (by decide +kernel)⟩,
   (h.2.2.2.2.2.2.2.2.2.2.2.2.2.2.1 _ 5 0 6 true ⟨0, 63, 0x20000, 0⟩ [1, 2] request (by decide +kernel)).elim fun _ x => ⟨_, x.1⟩,
   ⟨_, h.2.2.2.2.2.2.2.2.2.2.1 _ 5 0 0 7 8 1 1 0 (by decide +kernel)⟩,
   ⟨_, h.2.2.2.2.2.2.2.2.2.2.2.1 _ 5 0 1 3 2 3 (by decide +kernel) (by decide)⟩,
   h.2.2.2.2.2.2.2.2.2.2.2.2.1 networked 5 0 0 0 0 0 0 3 ⟨1, 2⟩ _ (.inr rfl) (by decide +kernel) (noBlock (by decide +kernel))⟩

/-- A section's request from another device that a full home turns away (R170). -/
theorem witness_turned_away (h : Obligations.PftRequestEffects) :
    ∃ e : State, (latency {}).refuseShip 9 { request with sender := .remote 5 6 0, waits := false } = e.reply 5 (.nack 0 false) :=
  ⟨_, (h.2.2.2.2.2.2.1 (latency {}) 5 0 6 9 { request with sender := .remote 5 6 0, waits := false } rfl).2⟩

/-- The network with one message sent to node 5, number 4, sent `n` times before. -/
def sending (m : NetMsg) (n : Nat) : State :=
  { networked with net := { networked.net with out := [{ node := 5, seq := 4, msg := m, tries := n, refusal := some { time := 0 } }], rmas := [getting] } }

/-- That message, and a FLAG. -/
def sent (m : NetMsg) (n : Nat) : OutMsg := { node := 5, seq := 4, msg := m, tries := n, refusal := some { time := 0 } }
def aFlag : NetMsg := .flag 7 0 0 0 true 1

/-- Acknowledgement of a PUT's part and of a SHIP, refusal of a GET and a FLAG, a second time and the last, and a message sent
again on the one active port (R413 to R415). -/
theorem witness_PftDeliveryResults (h : Obligations.PftDeliveryResults) :
    (∃ s', exec (.pftAck 5 [4]) (sending (.put 6 7 0 9 0 [1]) 0) = .next s') ∧
    (∃ s', exec (.pftAck 5 [4]) (sending aFlag 0) = .next s') ∧
    (∃ s', exec (.pftNack 5 4 true) (sending (.getReq 6 7 0 4 9 0) 0) = .next s') ∧
    (∃ s', exec (.pftNack 5 4 true) (sending (.put 6 7 0 9 0 [1]) 0) = .next s') ∧
    (∃ s', exec (.pftNack 5 4 true) (sending aFlag 0) = .next s') ∧ (∃ s', exec (.pftNack 5 4 false) (sending aFlag 0) = .next s') ∧
    (exec (.pftRetransmit 5 4) (sending aFlag 0) = .next (sending aFlag 0)) ∧
    (∃ s', exec (.pftRetransmit 5 4) { sending aFlag 15 with elapsed := 50000 } = .next s') ∧
    (∃ s', exec (.pftRetransmit 5 4) { sending aFlag 16 with elapsed := 50000 } = .next s') ∧
    (let s := sending (.ship 3 7 0 9 0 request) 0
      ∃ s', exec (.pftAck 5 [4]) { s with net := { s.net with ships := [(3, 5, request)] } } = .next s') ∧
    (∃ s', ({ networked with net := { networked.net with ports := [false, true] } } : State).resend (sent aFlag 0) = s') ∧
    (let s := { networked with net := { networked.net with peers := [] } };
      exec (.pftAck 5 [4]) s = .next (s.tallyIo 3 5 0x204 none)) :=
  ⟨⟨_, (h.2.2.1 _ 5 4 (sent (.put 6 7 0 9 0 [1]) 0) (by decide +kernel) (by decide +kernel)).1 6 7 0 9 0 [1] getting ⟨6, 0, 4⟩ rfl
      (by decide +kernel)⟩,
   ⟨_, (h.2.2.1 _ 5 4 (sent aFlag 0) (by decide +kernel) (by decide +kernel)).2.1 (fun _ _ _ _ _ _ x => NetMsg.noConfusion x)
      (fun _ _ _ _ _ _ x => NetMsg.noConfusion x) (fun _ x => NetMsg.noConfusion x)⟩,
   ⟨_, (h.2.2.1 _ 5 4 (sent (.getReq 6 7 0 4 9 0) 0) (by decide +kernel) (by decide +kernel)).2.2.2.1 6 7 0 4 9 0 getting ⟨6, 0, 4⟩ rfl
      (by decide +kernel)⟩,
   ⟨_, (h.2.2.1 _ 5 4 (sent (.put 6 7 0 9 0 [1]) 0) (by decide +kernel) (by decide +kernel)).2.2.2.2.1 6 7 0 9 0 [1] getting ⟨6, 0, 4⟩
      rfl (by decide +kernel)⟩,
   ⟨_, (h.2.2.1 _ 5 4 (sent aFlag 0) (by decide +kernel) (by decide +kernel)).2.2.2.2.2.1 7 0 0 0 true 1 _ rfl rfl⟩,
   ⟨_, (h.2.2.1 _ 5 4 (sent aFlag 0) (by decide +kernel) (by decide +kernel)).2.2.2.2.2.2.1 (fun _ _ _ _ _ _ x => NetMsg.noConfusion x)⟩,
   (h.2.2.1 _ 5 4 (sent aFlag 0) (by decide +kernel) (by decide +kernel)).2.2.2.2.2.2.2.1 (by decide +kernel),
   ⟨_, (h.2.2.1 _ 5 4 (sent aFlag 15) (by decide +kernel) (by decide +kernel)).2.2.2.2.2.2.2.2.1 (by decide +kernel) (by decide)⟩,
   ⟨_, (h.2.2.1 _ 5 4 (sent aFlag 16) (by decide +kernel) (by decide +kernel)).2.2.2.2.2.2.2.2.2 (by decide +kernel) (by decide)⟩,
   ⟨_, ((h.2.2.1 _ 5 4 (sent (.ship 3 7 0 9 0 request) 0) (by decide +kernel) (by decide +kernel)).2.2.1 3 7 0 9 0 request request 7 rfl
      (by decide +kernel) rfl).1⟩,
   ⟨_, h.2.2.2.2.1 _ (sent aFlag 0) 1 (by decide +kernel) (by decide +kernel)⟩,
   (h.2.1 { networked with net := { networked.net with peers := [] } } 5 4 true (by decide +kernel)).1⟩

/-- A device that runs, in recovery, stopped and booting. -/
def inState (b : BootState) : State := { service with boot := { (service).boot with state := b } }

/-- A window at its end and before it; the snapshot's readers in every state of the device, at the edges of GET_USAGE's range (R444
to R451). -/
theorem witness_AccountingAndManagementResults (h : Obligations.AccountingAndManagementResults) (r : WindowReading) :
    (∃ s', exec (.reconciliationWindow r) { service with time := 0xFFFFFFFF } = .next s') ∧
    (exec (.reconciliationWindow r) (inState .stopped) = .next (inState .stopped)) ∧
    (∃ s', exec .getHealth service = .next s') ∧ (∃ s', exec (.getUsage 1016 8) service = .next s') ∧
    (∃ s', exec (.getUsage 1017 8) service = .next s') ∧ (∃ s', exec (.getUsage 0 0) service = .next s') ∧
    (∃ s', exec (.getUsage 0 1) (inState .recovery) = .next s') ∧ (∃ s', exec .getUsageHeader (inState .stopped) = .next s') ∧
    (∃ s', exec .getUsageHeader (inState .booting) = .next s') :=
  ⟨⟨_, h.1.1 _ r (by decide +kernel) (by decide +kernel)⟩, h.1.2.1 _ r (.inl (by decide +kernel)),
   ⟨_, ((h.2 service 0 0 (by decide +kernel)).1 (by decide +kernel)).1 _ (.tail _ (.head _))⟩,
   ⟨_, ((h.2 service 1016 8 (by decide +kernel)).1 (by decide +kernel)).2.1 (by decide) (by decide) (by decide)⟩,
   ⟨_, ((h.2 service 1017 8 (by decide +kernel)).1 (by decide +kernel)).2.2.1 (.inr (.inr (by decide)))⟩,
   ⟨_, ((h.2 service 0 0 (by decide +kernel)).1 (by decide +kernel)).2.2.1 (.inl rfl)⟩,
   ⟨_, (h.2 (inState .recovery) 0 1 (by decide +kernel)).2.1 (by decide +kernel) _ (.tail _ (.tail _ (.head _)))⟩,
   ⟨_, (h.2 (inState .stopped) 0 0 (by decide +kernel)).2.2.1 (by decide +kernel) _ (.head _)⟩,
   ⟨_, (h.2 (inState .booting) 0 0 (by decide +kernel)).2.2.2 (by decide +kernel) _ (.head _)⟩⟩

/-- The responder of a device that runs, at the edges of its measurements, and of one that does not (R441, R442). -/
theorem witness_AttestationResults (h : Obligations.AttestationResults) :
    (∃ s', exec .getDigests service = .next s') ∧ (∃ s', exec (.getMeasurements 5 []) service = .next s') ∧
    (∃ s', exec (.getMeasurements 6 []) service = .next s') ∧ (∃ s', exec (.getCertificate 1 0 0) service = .next s') ∧
    (∃ s', exec (.getCertificate 0 0 0xFFFF) service = .next s') ∧
    (exec .getVersion (inState .recovery) = .next (inState .recovery)) := by
  have x := (h service []).2.2.1 (by decide +kernel)
  exact ⟨⟨_, x.2.2.2.2.1⟩, ⟨_, x.2.2.2.2.2.2.2.2.2.1 5 (by decide) (by decide)⟩, ⟨_, x.2.2.2.2.2.2.2.2.2.2.2 6 (by decide) (by decide)⟩,
    ⟨_, x.2.2.2.2.2.2.1 1 0 0 (.inl (by decide))⟩, ⟨_, x.2.2.2.2.2.1 0 0xFFFF (Nat.zero_le _)⟩,
    (h (inState .recovery) []).2.2.2 (by decide +kernel) _ (.head _)⟩

/-- PTP started ahead of device time and behind it, a message on an active port, and a configuration request (R413, R435, R457). -/
theorem witness_TimeAndPortResults (h : Obligations.TimeAndPortResults) :
    (∃ s', exec (.ptpEnable 1) service = .next s') ∧ (∃ s', exec (.ptpEnable 0) service = .next s') ∧
    (∃ s', exec (.ptpMessage 7 (-5) true)
      { service with ptp := { enabled := true }, net := { (service).net with ports := List.replicate 8 true } } = .next s') ∧
    (∃ s', exec (.configurationRequest 0) (inState .booting) = .next s') ∧ (∃ s', exec (.configurationRequest 0) service = .next s') :=
  ⟨⟨_, (h.1 service 1 (by decide +kernel) (by decide +kernel)).2 (by decide +kernel)⟩,
   ⟨_, (h.1 service 0 (by decide +kernel) (by decide +kernel)).1 (by decide +kernel)⟩,
   ⟨_, (h.2.2.1 _ 7 (-5) (by decide +kernel) (by decide +kernel) (by decide +kernel)).1⟩,
   ⟨_, (h.2.2.2.2.2.2 _ 0).1 (by decide +kernel)⟩, ((h.2.2.2.2.2.2 service 0).2 (by decide +kernel)).imp fun _ x => x.1⟩

/-! ## Witnesses: the rules of the manual and the whole machine -/

/-- The highest reserved opcode and the unassigned opcode 0 (R237). -/
theorem witness_ReservedOpcodesTrap (h : Obligations.ReservedOpcodesTrap) :
    (∃ s', exec (.unassignedOpcode 0xFF) (here (.unassignedOpcode 0xFF)) = .next s') ∧
    (∃ s', exec (.unassignedOpcode 0) (here (.unassignedOpcode 0)) = .next s') :=
  ⟨⟨_, (h.2.1 0xFF (by decide)).2 _ 0 [] (by decide +kernel) (by decide +kernel)⟩,
   ⟨_, (h.2.1 0 (by decide)).2 _ 0 [] (by decide +kernel) (by decide +kernel)⟩⟩

/-- NOP with each edge of its header, and NOP words with bit 24 and with bit 63 (R262). -/
theorem witness_NopDoesNothing (h : Obligations.NopDoesNothing) :
    (∃ s', exec (.nop ⟨⟨true, 0⟩, ⟨true, 7⟩, 0, 3⟩) (here (.nop ⟨⟨true, 0⟩, ⟨true, 7⟩, 0, 3⟩)) = .next s') ∧
    (∃ e, decode 0x1007730 = .error e) ∧ (∃ e, decode 0x8000000000007730 = .error e) :=
  ⟨(h.2.2.2 _ _ [0] (by decide +kernel)).imp fun _ x => x.1, (h.2.1 0x1007730 (by decide) (by decide)).1,
    (h.2.1 0x8000000000007730 (by decide) (by decide)).1⟩

/-- A register file's edge for the logic and the bit counts (R243, R245). -/
theorem witness_LogicOpcode (h : Obligations.LogicOpcode) :
    (∃ s', exec (.andn hdr 247 255 0) (here (.andn hdr 247 255 0)) = .next s') ∧ (∃ w, encode (.andn hdr 247 255 0) = some w) :=
  ⟨(h.2.2.2.2.2 _ _ _ _ _ [0] (by decide +kernel)).imp fun _ x => x.1,
    (h.2.1 hdr 247 255 0 rfl _ (.tail _ (.tail _ (.tail _ (.head _))))).imp fun _ x => x.1⟩

theorem witness_BitCountOpcode (h : Obligations.BitCountOpcode) :
    (∃ s', exec (.brev hdr 247 255) (here (.brev hdr 247 255)) = .next s') ∧ (∃ w, encode (.popc hdr 247 255) = some w) :=
  ⟨(h.2.2.2.2.2.2.2.1 _ _ _ _ [0] (by decide +kernel)).imp fun _ x => x.1, (h.2.1 hdr 247 255 rfl _ (.head _)).imp fun _ x => x.1⟩

/-- A well-formed instruction of every header bit and its word; a queue word of every field. -/
theorem witness_round_trips (h : Obligations.InstructionWordsRoundTrip) (g : Obligations.QueueWordsRoundTrip) :
    decode 0xFFFFF804043F8F1C = .error .illFormed ∧ decode 0x7F83000E14FF8F70 = .error .headerBits ∧
    encode (.ld ⟨⟨true, 7⟩, ⟨true, 0⟩, 15, 3⟩ .b128 .acq .sys 252 254 0x80) = some 0x80D400FEFC3F8F70 ∧
    decode 0x80D400FEFC3F8F70 = .ok (.ld ⟨⟨true, 7⟩, ⟨true, 0⟩, 15, 3⟩ .b128 .acq .sys 252 254 0x80) ∧
    decodeQp 0xFFFFFF03 = .ok (.qpShli 0xFFFF 0xF 0xF) := by
  refine ⟨by decide +kernel, by decide +kernel, by decide +kernel, h.1 _ _ (by decide +kernel) (by decide +kernel), g.1 _ _ (by decide +kernel)⟩

/-- A placed word, a placed queue word, and an event of the agenda; and what the step reads at the PC (R139, R220). -/
theorem witness_StepRunsDecodedInstruction (h : Obligations.StepRunsDecodedInstruction) :
    (∃ s', step (State.reset.placeWord 0x7730) = exec (.nop hdr) s') ∧
    (∃ s', step (State.reset.placeWord 0x1007730) = .next s') ∧
    (step (State.reset.placeQueueWord 0x00010010) =
      exec .actLaunch { State.reset.placeQueueWord 0x00010010 with beamRest := [], cur := .queue 0 }) ∧
    (∃ s', step { service with agenda := [.event .coldReset] } = exec .coldReset s') ∧
    (∃ x, (State.reset.placeWord 0x7730).fetch placedThread = .ok x) :=
  ⟨⟨_, (h.1 (State.reset.placeWord 0x7730) (.thread 0) [] 0 [] placedThread 0x7730 (by decide +kernel) (fun _ x => Actor.noConfusion x)
      (by decide +kernel) (by decide +kernel) (by decide +kernel) ((getOk (by decide +kernel)).trans (congrArg _ (by decide +kernel)))).1 (.nop hdr)
      (by decide +kernel)⟩,
   ⟨_, (h.1 (State.reset.placeWord 0x1007730) (.thread 0) [] 0 [] placedThread 0x1007730 (by decide +kernel) (fun _ x => Actor.noConfusion x)
      (by decide +kernel) (by decide +kernel) (by decide +kernel) ((getOk (by decide +kernel)).trans (congrArg _ (by decide +kernel)))).2 .unlistedValue
      (by decide +kernel)⟩,
   h.2.2.1 (State.reset.placeQueueWord 0x00010010) 0 [] ⟨1, [0x00010010, 0x11], [(0x30000, 4096, true)]⟩ 0x00010010 .actLaunch
      (by decide +kernel) (by decide +kernel) (by decide +kernel) (by decide +kernel) (by decide +kernel) (by decide +kernel),
   ⟨_, h.2.2.2.1 _ .coldReset [] (by decide +kernel) (by decide +kernel) (by decide +kernel)⟩,
   ⟨_, h.2.1 _ placedThread 0x20000 (by decide +kernel) (by decide) ((getOk (by decide +kernel)).trans (congrArg _ (by decide +kernel)))
      (by decide +kernel) (by decide +kernel)⟩⟩

/-- A store of two bytes next to the reset state's empty memory; and a step that stores a word. -/
theorem witness_MemoriesAtResetAndAfterStore (h : Obligations.MemoriesAtResetAndAfterStore) : (State.reset.putMem 7 [1, 0]).byte 7 = 1 := by
  rw [((h.2.1 State.reset 7 [1, 0] h.1).2 7)]
  decide

theorem witness_EveryStepKeepsMemoriesCanonical (h : Obligations.EveryStepKeepsMemoriesCanonical) :
    ∃ s', step (State.reset.placeWord 0x01A2040000007771) = .next s' ∧ s'.Inv := by
  have hs : completes (step (State.reset.placeWord 0x01A2040000007771)) = true := by decide +kernel
  match hx : step (State.reset.placeWord 0x01A2040000007771) with
  | .next s' => exact ⟨s', rfl, h _ _ (by unfold State.Inv; decide +kernel) hx⟩
  | .fault f => rw [hx] at hs; exact absurd hs Bool.false_ne_true
  | .refused r => rw [hx] at hs; exact absurd hs Bool.false_ne_true

/-! ## Results that the manual states -/

/-- What `f` reads of the state after `i` runs in `s`. -/
def after {α : Type} (i : Instr) (s : State) (f : State → α) : Option α :=
  match exec i s with
  | .next e => some (f e)
  | _ => none

/-- Register `r` of thread `k`. -/
def regOf (k r : Nat) (s : State) : Option Reg := (s.thread? k).map fun t => t.reg r

/-- The registers of "Worked values" (10). -/
def worked : List (Nat × Reg) :=
  [(1, ⟨0xABCD, .i32⟩), (2, ⟨0x804, .i32⟩), (3, ⟨0xFFFF0000, .i32⟩), (4, ⟨0x44332211, .i32⟩), (5, ⟨0x88776655, .i32⟩),
    (6, ⟨0x80E32, .i32⟩), (7, ⟨0x5A, .i32⟩), (9, ⟨0x80000000, .i32⟩)]

/-- "Worked values" (10): BFE, BFE.S, BFI, PERM, IABS and CLZ. -/
theorem test_worked_values : ∀ p ∈ ([(.bfe hdr false 10 1 2, 10, ⟨0xBC, .i32⟩), (.bfe hdr true 11 1 2, 11, ⟨0xFFFFFFBC, .i32⟩),
    (.bfi hdr 12 7 2 3, 12, ⟨0xFFFF05A0, .i32⟩), (.perm hdr 13 4 5 6, 13, ⟨0xFF117733, .raw⟩), (.iabs hdr false 15 9, 15, ⟨0x80000000, .i32⟩),
    (.clz hdr 16 255, 16, ⟨32, .i32⟩)] : List (Instr × Nat × Reg)), after p.1 (here p.1 worked) (regOf 0 p.2.1) = some (some p.2.2) := by
  decide +kernel

/-- "Worked values" (10): IADD.SAT of −2^31 twice saturates, and sets p1. -/
theorem test_iadd_sat : let i := Instr.iadd hdr .sat 1 14 9 9
    after i (here i worked) (fun s => (regOf 0 14 s, (s.thread? 0).map (·.pred 1))) =
      some (some ⟨0x80000000, .i32⟩, some true) := by decide +kernel

/-- R184's example (10): NADDR of level 2, k 3, in nodes of 256 bytes. -/
theorem test_naddr : let i := Instr.naddr hdr false 12 8 10 11
    after i (here i [(9, ⟨0x20, .i32⟩), (10, ⟨256, .i32⟩), (11, ⟨0x200003, .i32⟩)]) (fun s => (regOf 0 12 s, regOf 0 13 s)) =
      some (some ⟨0x600, .i32⟩, some ⟨0x20, .i32⟩) := by decide +kernel

/-- The MXFP4 block of R146 (10, R260): QSCALE, PACK and UNPACK. -/
theorem test_qscale : let i := Instr.qscale hdr .e2m1 6 5
    after i (here i [(5, ⟨0x41400000, .f32⟩)]) (regOf 0 6) = some (some ⟨0x80, .raw⟩) := by decide +kernel

theorem test_pack : let i := Instr.pack hdr .e2m1 .rn false false false 24 16 6
    after i (here i [(6, ⟨0x80, .raw⟩), (16, ⟨0x40A00000, .f32⟩), (17, ⟨0xBFA66666, .f32⟩), (18, ⟨0x3E4CCCCD, .f32⟩),
      (19, ⟨0x41400000, .f32⟩)]) (regOf 0 24) = some (some ⟨0x7094, .e2m1x8⟩) := by decide +kernel

theorem test_unpack : let i := Instr.unpack hdr .e2m1 .rn false false false 32 24 6
    after i (here i [(6, ⟨0x80, .raw⟩), (24, ⟨0x7094, .e2m1x8⟩)]) (fun s => (List.range 8).map fun k => ((regOf 0 (32 + k) s).map (·.val))) =
      some ([0x40800000, 0xBF800000, 0, 0x41400000, 0, 0, 0, 0].map some) := by decide +kernel

/-- "Worked encodings" (05): −448 and 2^−9 in E4M3, −3 in E5M2, 65,504 in F16 and −1 in BF16. -/
theorem test_worked_encodings : ∀ p ∈ ([(.e4m3, 0xC3E00000, 0xFE), (.e4m3, 0x3B000000, 0x01), (.e5m2, 0xC0400000, 0xC2),
    (.f16, 0x477FE000, 0x7BFF), (.bf16, 0xBF800000, 0xBF80)] : List (Fmt × Word × Nat)),
    (toElem p.1 .rn false false 0 (f32 p.2.1)).1 = p.2.2 := by decide +kernel

/-- The bound group of eight ranks of 12: g4 of each rank, and g5 its rank. -/
def eight (i : Instr) : State :=
  ((together i 8).updGroup 5 fun g => { g with tile := 4 }).updThreads (List.range 8) fun t =>
    ((t.setReg 4 ⟨[0x3F800000, 0xC0400000, 0x33800000, 0x3F000000].getD t.tid 0, .f32⟩).setReg 5 ⟨BitVec.ofNat 32 t.tid, .i32⟩).setPred 1
      (t.tid % 2 == 1)

/-- That group's VOTE.MASK, REDUCE.FADD and FAMAX, SCAN.ADD.EXCL and SHFL.XCH, in ranks 0 and 3 (12). -/
theorem test_vote : let i := Instr.vote hdr .mask false 7 7 1
    after i (eight i) (regOf 0 7) = some (some ⟨0xA, .i32⟩) := by decide +kernel

theorem test_reduce : let i := Instr.reduce hdr .fadd 8 4
    let j := Instr.reduce hdr .famax 10 4
    after i (eight i) (regOf 0 8) = some (some ⟨0xBFC00000, .f32⟩) ∧ after j (eight j) (regOf 3 10) = some (some ⟨0x40400000, .f32⟩) := by
  decide +kernel

theorem test_scan : let i := Instr.scan hdr .add true 11 5
    after i (eight i) (fun s => (regOf 0 11 s, regOf 2 11 s)) = some (some ⟨0, .i32⟩, some ⟨1, .i32⟩) := by decide +kernel

theorem test_shfl : let i := Instr.shfl hdr .xch 7 12 4 13
    after i ((eight i).updThreads (List.range 8) fun t => t.setReg 13 ⟨1, .raw⟩) (fun s => (regOf 0 12 s, regOf 1 12 s)) =
      some (some ⟨0xC0400000, .f32⟩, some ⟨0x3F800000, .f32⟩) := by decide +kernel

/-- REDUCE.ADD under ?p1: the odd ranks' sum, and the even ranks untouched (12). -/
theorem test_reduce_guarded : let i := Instr.reduce ⟨⟨false, 1⟩, ⟨false, 7⟩, 0, 0⟩ .add 14 5
    after i (eight i) (fun s => (regOf 1 14 s, regOf 0 14 s)) = some (some ⟨4, .i32⟩, some ⟨0, .raw⟩) := by decide +kernel

/-- "A sparse row, end to end" (13): the group, its allocation of 2,048 bytes, A, its metadata and B. -/
def sparse (i : Instr) : State :=
  ((({ owning i [(0, 0x40000), (1, 0x100), (2, 0x40400), (4, 0x80101), (5, 0x282), (8, 0x40600), (12, 0x101), (13, 2), (14, 0x30000)] with
    tasks := [{ placedTask with alloc := some (0, 2048) }] } : State).putScratch 0
      [0x80, 0x3F, 0, 0x40, 0x80, 0xBF, 0, 0x3F]).putScratch 0x200 [0x8D]).putScratch 0x400
      [0x80, 0x3F, 0, 0x40, 0x40, 0x40, 0x80, 0x40, 0xA0, 0x40, 0xC0, 0x40, 0xE0, 0x40, 0, 0x41]

/-- Its MMAS, once issued, leaves 8.5 in the cell, in E96; the drain of that cell puts 8.5 in BF16 at 0x600 (13). -/
theorem test_mmas : let i := Instr.mmas hdr .bf16 0 0 0 2 4
    (after i (sparse i) id).bind (fun s => after (.matrixCommandRun 0 0 0) s fun e => e.cells.get 0 (cellKey 0 0 0 0)) =
      some 0x400288000000000000000000 := by decide +kernel

theorem test_drain : let i := Instr.accDrain hdr 0 0 8 12
    (after i { sparse i with cells := [(cellKey 0 0 0 0, 0x400288000000000000000000)] } id).bind (fun s =>
      after (.drainRun 0 0 0) s fun e => (takeBytes e.scratch 0x600 2, e.num 0x30000 16 % 2 ^ 64, e.num 0x3000C 4 % 4)) =
        some ([0x08, 0x41], 2, 1) := by decide +kernel

/-- "A return stack that spills" (10): CALL 9 spills ret_1 at offset 16 of thread-local memory. -/
theorem test_call_spills : let i := Instr.call hdr 2
    let s := (here i).updThread 0 fun t => { t with
      tlsBase := 0x50000, tlsBytes := 16, spillBytes := 32
      rstack := [0x2808, 0x2708, 0x2608, 0x2508, 0x2408, 0x2308, 0x2208, 0x2108] }
    after i s (fun e => (e.num 0x50010 8, (e.thread? 0).map fun t => (t.spilled, t.rstack.length, t.rstack.getLastD 0, t.pc))) =
      some (0x2108, some (1, 8, 0x2208, 0x20010)) := by decide +kernel

/-- CALL 13 and the RET after the last: STACK_OVERFLOW with details 0 and 1, here with no handler, so that the task ends (10, R348). -/
theorem test_stack_overflow : let t : Thread := { placedThread with rstack := List.replicate 8 8, spillBytes := 32, spilled := 4 }
    let s := here (.ret hdr)
    s.pushReturn t 8 = .error (.trap { cause := 0x0D, detail0 := 0 }) ∧
    s.popReturn placedThread = .error (.trap { cause := 0x0D, detail0 := 1 }) := by decide +kernel

/-- "A handler that resumes" (14): TRAP 0x21 goes to the handler in state H with CAUSE 0x10, DETAIL0 0x21 and TPC the TRAP's
address; SRD of sy.f0 there; TRET.NEXT goes on after the TRAP in state U. -/
theorem test_trap : let i := Instr.trap hdr 0x21
    after i ((here i).updThread 0 fun t => { t with handler := some 0x20200 }) (fun e => (e.thread? 0).map fun t =>
      (t.pc, t.priv, t.frame.cause, t.frame.detail0, t.frame.tpc)) = some (some (0x20200, .h, 0x10, 0x21, 0x20000)) := by decide +kernel

theorem test_tret : let i := Instr.tret hdr true
    after i (handling i) (fun e => (e.thread? 0).map fun t => (t.pc, t.priv, t.preds)) = some (some (0x20108, .u, 5)) := by
  decide +kernel

/-- "A popper that helps its producer" (11), t7: QPOP.MIN of bucket 1's last entry, which is FULL with the value 7. -/
theorem test_qpop_min : let i := Instr.qpopMin hdr 3 24 4
    after i (queueObject i) (fun e => (regOf 0 24 e, regOf 0 26 e, regOf 0 27 e, e.num 0x30038 8, e.num 0x30050 16)) =
      some (some ⟨7, .raw⟩, some ⟨1, .i32⟩, some ⟨0, .i32⟩, 0, 1 + 2 ^ 32 + 3 * 2 ^ 64) := by decide +kernel

/-- t8: no bucket set: g24 to g26 are 0, g27 is 5, and p3 is cleared. -/
theorem test_qpop_min_empty : let i := Instr.qpopMin hdr 3 24 4
    after i ((queueObject i).putMem 0x30038 (natLe 8 0)) (fun e => (regOf 0 24 e, regOf 0 27 e, (e.thread? 0).map (·.pred 3))) =
      some (some ⟨0, .raw⟩, some ⟨5, .i32⟩, some false) := by decide +kernel

/-- List L of 16: the line of 0x0004_0008_0400 is homed at latency core 0 of die 1, device index 8 (R168). -/
theorem test_home : homeOf 0x000400080400 = 8 := by decide

/-- A load of the last byte below an unmapped page, and one beyond it (R273, R421). -/
theorem test_ld_unmapped : let i := Instr.ld hdr .b8 .rlx .core 4 6 0
    after i (here i [(6, ⟨0xFFFFFFFF, .raw⟩)]) (fun e => (e.thread? 0).map (·.pc)) = some (some 0x20008) ∧
    ((here i).dataLoad placedThread 0x100000000 1 0).toOption = none := by decide +kernel

/-- A store puts its low byte first, and LD.B16 zero-extends (R273). -/
theorem test_st_order : let i := Instr.st hdr .b32 .rlx .core 6 4 0
    after i (here i [(6, ⟨0x30000, .raw⟩), (4, ⟨0x11223344, .raw⟩)]) (fun e => (e.byte 0x30000, e.byte 0x30003)) = some (0x44, 0x11) := by
  decide +kernel

theorem test_ld_b16 : let i := Instr.ld hdr .b16 .rlx .core 4 6 0
    after i (held i [(6, ⟨0x30000, .raw⟩)] [0xFE, 0xFF, 0xFF]) (fun e => (regOf 0 4 e).map (·.val)) = some (some 0xFFFE) := by
  decide +kernel

end Sys2Proof.Tests
end

section
/-! Words whose opcode is unassigned or reserved: their decoding, and the trap of step 2 of R235 (R236, R237). -/

namespace Sys2Proof

/-- The opcodes outside the ranges of R236. -/
theorem opAssigned_eq_false_iff (op : BitVec 8) :
    opAssigned op = false ↔ op.toNat = 0 ∨ (0x27 ≤ op.toNat ∧ op.toNat ≤ 0x2F) ∨ (0x3A ≤ op.toNat ∧ op.toNat ≤ 0x3F) ∨
      (0x59 ≤ op.toNat ∧ op.toNat ≤ 0x5F) ∨ (0x6C ≤ op.toNat ∧ op.toNat ≤ 0x6F) ∨ (0x80 ≤ op.toNat ∧ op.toNat ≤ 0x8F) ∨
      (0x9D ≤ op.toNat ∧ op.toNat ≤ 0x9F) ∨ (0xB7 ≤ op.toNat ∧ op.toNat ≤ 0xBF) ∨ (0xC9 ≤ op.toNat ∧ op.toNat ≤ 0xCF) ∨
      0xD0 ≤ op.toNat := by
  simp only [opAssigned, Bool.or_eq_false_iff, Bool.and_eq_false_iff, decide_eq_false_iff_not]
  omega

/-- No field of a word but its opcode is looked at before the opcode is found unassigned. -/
theorem decode_of_unassigned {w : Dword} (hw : opAssigned (w.extractLsb' 0 8) = false) :
    decode w = .ok (.unassignedOpcode w) :=
  if_neg (ne_true_of_eq_false hw)

@[simp] theorem encodeWord_unassignedOpcode (w : Dword) : encodeWord (.unassignedOpcode w) = w := rfl

end Sys2Proof

namespace Sys2Proof.Machine

/-- What `arrives` gives of the agent. -/
theorem State.arrives_agent {s : State} {i : Instr} {tids : List Nat} (h : s.arrives i tids = true) :
    s.actorTids s.cur = tids ∧ tids ≠ [] ∧ s.waits i tids = false := by
  simp only [State.arrives, Bool.and_eq_true, decide_eq_true_eq, Bool.not_eq_true'] at h
  obtain ⟨⟨hat, hne⟩, hw⟩ := h
  exact ⟨hat, hne, hw⟩

/-- An agent that a step before the effect stops, stops with its due results written and nothing else done (R235). -/
theorem runThreads_stops {i : Instr} {s : State} {tids : List Nat} {j : Nat} {e : Stop} (body : Body)
    (ha : s.arrives i tids = true) (hs : (s.landDue i tids).agentStop i tids = some (j, e)) :
    runThreads i s body = .next ((s.landDue i tids).stop s.cur j (encodeWord i) e) := by
  obtain ⟨hat, hne, hw⟩ := State.arrives_agent ha
  obtain ⟨first, rest, rfl⟩ := List.exists_cons_of_ne_nil hne
  simp only [runThreads, runStaged, hat, hw, hs, Bool.false_eq_true, if_false]

/-- The thread that comes first stops its agent, where the check stops it. -/
theorem firstStop_head {s : State} {check : Thread → Option Stop} {j : Nat} {l : List Nat} {t : Thread} {e : Stop}
    (ht : s.thread? j = some t) (he : check t = some e) : firstStop s check (j :: l) = some (j, e) := by
  simp only [firstStop, ht, Option.bind_some, he]

/-- Step 2 of R235 comes before the other steps, in every thread: where it stops the first thread, that is the agent's stop. -/
theorem State.agentStop_of_wordStop {s : State} {i : Instr} {first : Nat} {rest : List Nat} {t : Thread} {c : BitVec 8}
    (ht : s.thread? first = some t) (hc : wordStop (encodeWord i) t.section_.isSome = some c) :
    s.agentStop i (first :: rest) = some (first, trapOf c) := by
  have hstop := firstStop_head (l := rest) (check := fun t => (wordStop (encodeWord i) t.section_.isSome).map trapOf) ht
    (congrArg (Option.map trapOf) hc)
  simp only [State.agentStop, State.decodeSteps, List.findSome?_cons, hstop]

/-- An unassigned opcode fails step 2 on throughput and latency cores alike (R237). -/
theorem wordStop_of_unassigned {w : Dword} (hw : opAssigned (w.extractLsb' 0 8) = false) (inSection : Bool) :
    wordStop w inSection = some cIllegalOpcode :=
  if_neg (ne_true_of_eq_false hw)

/-- Writing the due results leaves every thread in place. -/
theorem State.landDue_thread?_isSome (s : State) (i : Instr) (tids : List Nat) (j : Nat) :
    ((s.landDue i tids).thread? j).isSome = (s.thread? j).isSome := by
  rw [State.landDue_thread?, Option.isSome_map]

/-- An agent that comes to an unassigned opcode raises ILLEGAL_OPCODE in its first thread, and does nothing else (R237). -/
theorem exec_unassignedOpcode {w : Dword} (hw : opAssigned (w.extractLsb' 0 8) = false) {s : State} {first : Nat}
    {rest : List Nat} (ha : s.arrives (.unassignedOpcode w) (first :: rest) = true) (ht : (s.thread? first).isSome = true) :
    exec (.unassignedOpcode w) s =
      .next ((s.landDue (.unassignedOpcode w) (first :: rest)).stop s.cur first w (trapOf cIllegalOpcode)) := by
  obtain ⟨t, ht'⟩ := Option.isSome_iff_exists.1
    ((s.landDue_thread?_isSome (.unassignedOpcode w) (first :: rest) first).trans ht)
  have hstop := State.agentStop_of_wordStop (i := .unassignedOpcode w) (rest := rest) ht' (wordStop_of_unassigned hw _)
  exact runThreads_stops _ ha hstop

/-- Settles O50: an unassigned opcode stops at decoding, and the agent at step 2 of R235, before any other field or step. -/
theorem reservedOpcodesTrap : Obligations.ReservedOpcodesTrap := by
  unfold Obligations.ReservedOpcodesTrap
  refine ⟨fun n hn => ?_, fun w hw => ⟨decode_of_unassigned hw, fun s first rest ha ht => exec_unassignedOpcode hw ha ht⟩,
    decode_of_unassigned (by decide), decode_of_unassigned (by decide)⟩
  have hop := opAssigned_eq_false_iff (BitVec.ofNat 8 n)
  rwa [BitVec.toNat_ofNat, Nat.mod_eq_of_lt hn] at hop

end Sys2Proof.Machine
end

section
/-! Words and their fields: a word made of fields has these fields, and where they are an instruction's, the word decodes to it
(R221, R227, R234); the words of the logic, of the bit counts and of NOP (R243, R245, R262). -/

namespace Sys2Proof

/-! ## The fields of a word (R221, R227) -/

@[simp] theorem Guard.ofBits_bits (g : Guard) : Guard.ofBits g.bits = g := by
  obtain ⟨neg, p⟩ := g
  have hneg : (BitVec.ofBool neg ++ p : BitVec (1 + 3)).getLsbD 3 = neg := by
    rw [BitVec.getLsbD_append, if_neg (by omega), BitVec.getLsbD_ofBool]
    rfl
  have hp : (BitVec.ofBool neg ++ p : BitVec (1 + 3)).extractLsb' 0 3 = p := by
    rw [BitVec.extractLsb'_append_eq_of_add_le (by omega), BitVec.extractLsb'_eq_self]
  exact congrArg₂ Guard.mk hneg hp

/-- A part of a word made of fields; the width is written as the sum of the fields'. -/
theorem Raw.extract_word (r : Raw) (start len : Nat) :
    r.word.extractLsb' start len =
      (r.fn ++ r.pd ++ r.c ++ r.b ++ r.a ++ r.d ++ r.rsv ++ r.h.ch ++ r.h.la ++ r.h.g1.bits ++ r.h.g0.bits ++ r.op :
        BitVec (5 + 3 + 8 + 8 + 8 + 8 + 2 + 2 + 4 + 4 + 4 + 8)).extractLsb' start len := rfl

/-- Reading the fields of a word gives back the fields that it was made of. -/
@[simp] theorem Raw.ofWord_word (r : Raw) : Raw.ofWord r.word = r := by
  simp (disch := omega) only [Raw.ofWord, Raw.extract_word, BitVec.extractLsb'_append_eq_of_add_le,
    BitVec.extractLsb'_append_eq_of_le, Nat.reduceSub, BitVec.extractLsb'_eq_self, Guard.ofBits_bits]

/-- IMM32 is bits [63:32] (R229). -/
theorem Raw.imm32_ofWord (w : Dword) : (Raw.ofWord w).imm32 = w.extractLsb' 32 32 := by
  show (w.extractLsb' 59 5 ++ w.extractLsb' 56 3 ++ w.extractLsb' 48 8 ++ w.extractLsb' 40 8 ++ w.extractLsb' 32 8 :
    BitVec (5 + 3 + 8 + 8 + 8)) = w.extractLsb' 32 (5 + 3 + 8 + 8 + 8)
  iterate 4 rw [BitVec.extractLsb'_append_extractLsb'_eq_extractLsb' (by rfl)]

/-- Bits [63:24] are IMM32 and field D (R229). -/
theorem extract_above_header (w : Dword) : w.extractLsb' 24 40 = (Raw.ofWord w).imm32 ++ (Raw.ofWord w).d := by
  have h := BitVec.extractLsb'_append_extractLsb'_eq_extractLsb' (x := w) (start₁ := 24) (len₁ := 8) (len₂ := 32) rfl
  rw [Raw.imm32_ofWord]
  exact h.symm

theorem above_header_eq_zero {w : Dword} (himm : (Raw.ofWord w).imm32 = 0) (hd : (Raw.ofWord w).d = 0) :
    w.extractLsb' 24 40 = 0 := by
  rw [extract_above_header, himm, hd]
  rfl

/-! ## From an instruction's fields to its word and back (R234) -/

/-- An instruction with fields has the word that they make. -/
theorem encode_of_rawOf {i : Instr} {r : Raw} (hr : rawOf i = some r) : encode i = some r.word := by
  unfold encode
  split
  · cases hr
  · rw [hr]; rfl

/-- A word made of the fields of a well-formed instruction decodes to it. -/
theorem decode_word {r : Raw} {i : Instr} (hop : opAssigned r.op = true) (hrsv : r.rsv = 0) (hf : fields r = .ok i)
    (hwf : i.wf = true) : decode r.word = .ok i := by
  simp only [decode, Raw.ofWord_word, hop, hrsv, hf, checkWf, hwf, if_true, beq_self_eq_true]

/-- A well-formed instruction has a word, from which it is decoded, where its fields are decoded to it. -/
theorem encode_decodes {i : Instr} {r : Raw} (hr : rawOf i = some r) (hop : opAssigned r.op = true) (hrsv : r.rsv = 0)
    (hf : fields r = .ok i) (hwf : i.wf = true) : ∃ w, encode i = some w ∧ decode w = .ok i :=
  ⟨r.word, encode_of_rawOf hr, decode_word hop hrsv hf hwf⟩

/-! ## Instructions that name single registers alone -/

/-- LA zero is right for every instruction (R223). -/
theorem Instr.laOk_of_la {i : Instr} {h : Hdr} (hh : i.hdr? = some h) (hla : h.la = 0) : i.laOk = true := by
  simp only [Instr.laOk, hh, hla, beq_self_eq_true, Bool.or_true]

/-- Operands of one register each keep their alignment, whatever registers they name (R233). -/
theorem Instr.regsOk_of_ones {i : Instr} {l : List GReg} (hi : i.regUses = l.map RegUse.one) : i.regsOk = true := by
  rw [Instr.regsOk, hi, List.all_map, List.all_eq_true]
  intro r _
  exact beq_iff_eq.2 (Nat.mod_one _)

/-- An instruction with LA zero that names single registers is well formed where the limits on its other fields are kept. -/
theorem Instr.wf_of_ones {i : Instr} {h : Hdr} {l : List GReg} (hh : i.hdr? = some h) (hla : h.la = 0)
    (hregs : i.regUses = l.map RegUse.one) (hrest : (i.sregsOk && i.ordOk && i.szOk && i.fmtOk && i.valOk) = true) :
    i.wf = true := by
  simpa only [Instr.wf, Instr.laOk_of_la hh hla, Instr.regsOk_of_ones hregs, Bool.true_and] using hrest

/-! ## Logic and bit counts (R243, R245) -/

/-- The fields of FN 0 to 3 of opcode 0x0B are listed with PD 7 and C 0 (R243). -/
theorem fields_logic (h : Hdr) (d a b : GReg) :
    fields (layoutX 0x0B h 0 7 0 b a d) = .ok (.and h d a b) ∧ fields (layoutX 0x0B h 1 7 0 b a d) = .ok (.or h d a b) ∧
      fields (layoutX 0x0B h 2 7 0 b a d) = .ok (.xor h d a b) ∧ fields (layoutX 0x0B h 3 7 0 b a d) = .ok (.andn h d a b) :=
  ⟨rfl, rfl, rfl, rfl⟩

/-- The fields of FN 0 to 3 of opcode 0x0E are listed with PD 7 and B and C 0 (R245). -/
theorem fields_bitCount (h : Hdr) (d a : GReg) :
    fields (layoutX 0x0E h 0 7 0 0 a d) = .ok (.popc h d a) ∧ fields (layoutX 0x0E h 1 7 0 0 a d) = .ok (.clz h d a) ∧
      fields (layoutX 0x0E h 2 7 0 0 a d) = .ok (.ctz h d a) ∧ fields (layoutX 0x0E h 3 7 0 0 a d) = .ok (.brev h d a) :=
  ⟨rfl, rfl, rfl, rfl⟩

theorem encode_decodes_logic {h : Hdr} (hla : h.la = 0) (d a b : GReg) :
    ∀ i ∈ [Instr.and h d a b, .or h d a b, .xor h d a b, .andn h d a b], ∃ w, encode i = some w ∧ decode w = .ok i := by
  obtain ⟨hand, hor, hxor, handn⟩ := fields_logic h d a b
  simp only [List.forall_mem_cons]
  refine ⟨encode_decodes rfl rfl rfl hand ?_, encode_decodes rfl rfl rfl hor ?_, encode_decodes rfl rfl rfl hxor ?_,
    encode_decodes rfl rfl rfl handn ?_, List.forall_mem_nil _⟩
  all_goals exact Instr.wf_of_ones (l := [d, a, b]) rfl hla rfl rfl

theorem encode_decodes_bitCount {h : Hdr} (hla : h.la = 0) (d a : GReg) :
    ∀ i ∈ [Instr.popc h d a, .clz h d a, .ctz h d a, .brev h d a], ∃ w, encode i = some w ∧ decode w = .ok i := by
  obtain ⟨hpopc, hclz, hctz, hbrev⟩ := fields_bitCount h d a
  simp only [List.forall_mem_cons]
  refine ⟨encode_decodes rfl rfl rfl hpopc ?_, encode_decodes rfl rfl rfl hclz ?_, encode_decodes rfl rfl rfl hctz ?_,
    encode_decodes rfl rfl rfl hbrev ?_, List.forall_mem_nil _⟩
  all_goals exact Instr.wf_of_ones (l := [d, a]) rfl hla rfl rfl

/-! ## NOP (R262) -/

/-- IMM32 of a word whose upper fields are zero. -/
@[simp] theorem layoutX_zero_imm32 (op : BitVec 8) (h : Hdr) (d : BitVec 8) : (layoutX op h 0 0 0 0 0 d).imm32 = 0 := by
  simp only [layoutX, Raw.imm32, BitVec.ofNat_eq_ofNat, BitVec.zero_append_zero]

theorem fields_of_nopOpcode {r : Raw} (hop : r.op = 0x30) : fields r = listed (r.imm32 == 0 && r.d == 0) (.nop r.h) := by
  obtain ⟨op, h, rsv, d, a, b, c, pd, fn⟩ := r
  cases hop
  rfl

/-- A word of NOP's opcode with a one in bits [63:24] is no instruction. -/
theorem decode_of_nopOpcode_bits {w : Dword} (hop : w.extractLsb' 0 8 = 0x30) (hbits : w.extractLsb' 24 40 ≠ 0) :
    ∃ e, decode w = .error e := by
  have hop' : (Raw.ofWord w).op = 0x30 := hop
  have hunlisted : ((Raw.ofWord w).imm32 == 0 && (Raw.ofWord w).d == 0) = false := by
    rw [Bool.and_eq_false_imp]
    intro himm
    exact beq_false_of_ne fun hd => hbits (above_header_eq_zero (beq_iff_eq.1 himm) hd)
  have hfields : fields (Raw.ofWord w) = .error .unlistedValue := by
    rw [fields_of_nopOpcode hop', hunlisted]; rfl
  have hassigned : opAssigned (Raw.ofWord w).op = true := by rw [hop']; decide
  simp only [decode, hassigned, if_true, hfields]
  split
  · exact ⟨.unlistedValue, rfl⟩
  · exact ⟨.headerBits, rfl⟩

/-- A NOP's word has its opcode, and bits [63:24] zero. -/
theorem encode_nop_bits {h : Hdr} {w : Dword} (hw : encode (.nop h) = some w) :
    w.extractLsb' 0 8 = 0x30 ∧ w.extractLsb' 24 40 = 0 := by
  obtain rfl : (layoutX 0x30 h 0 0 0 0 0 0).word = w := Option.some.inj hw
  have hr := Raw.ofWord_word (layoutX 0x30 h 0 0 0 0 0 0)
  exact ⟨congrArg Raw.op hr, above_header_eq_zero ((congrArg Raw.imm32 hr).trans (layoutX_zero_imm32 ..)) (congrArg Raw.d hr)⟩

theorem encode_decodes_nop {h : Hdr} (hla : h.la = 0) : ∃ w, encode (.nop h) = some w ∧ decode w = .ok (.nop h) := by
  have hf : fields (layoutX 0x30 h 0 0 0 0 0 0) = .ok (.nop h) := by
    rw [fields_of_nopOpcode rfl, layoutX_zero_imm32]
    rfl
  exact encode_decodes rfl rfl rfl hf (Instr.wf_of_ones (l := []) rfl hla rfl rfl)

end Sys2Proof
end

section
/-! What the logic, the bit counts and NOP do, and the trap of a NOP's word with a one in bits [63:24] (R235, R243, R245, R262). -/

namespace Sys2Proof.Machine

/-- An instruction with one result of tag I32 writes it in each thread whose guards are true, and nothing else. -/
theorem runs_i32 {i : Instr} {h : Hdr} {d : GReg} {f : Thread → Word} (hh : i.hdr? = some h)
    (he : ∀ s, exec i s = runI32 i s d f) : Runs i fun t => t.put d (f t) .i32 :=
  runs_of hh he (Thread.stays_put d f fun _ => .i32) fun _ => rfl

/-! ## Counts of bits (R245) -/

/-- The first number below `n` that meets a test, or `n`: below it none meets the test, and below `n` it meets it itself. -/
theorem find_range_getD (p : Nat → Bool) (n : Nat) :
    ((List.range n).find? p).getD n ≤ n ∧ (∀ j, j < ((List.range n).find? p).getD n → p j = false) ∧
      (((List.range n).find? p).getD n < n → p (((List.range n).find? p).getD n) = true) := by
  cases hfind : (List.range n).find? p with
  | none =>
    have hnone := List.find?_range_eq_none.1 hfind
    exact ⟨Nat.le_refl n, fun j hj => (Bool.not_eq_true' _).mp (hnone j hj), fun hlt => absurd hlt (Nat.lt_irrefl n)⟩
  | some k =>
    obtain ⟨hk, hmem, hbelow⟩ := List.find?_range_eq_some.1 hfind
    exact ⟨(List.mem_range.1 hmem).le, fun j hj => (Bool.not_eq_true' _).mp (hbelow j hj), fun _ => hk⟩

theorem leadingZeros_spec (a : Word) : leadingZeros a ≤ 32 ∧ (∀ j, j < leadingZeros a → a.getLsbD (31 - j) = false) ∧
    (leadingZeros a < 32 → a.getLsbD (31 - leadingZeros a) = true) :=
  find_range_getD (fun i => a.getLsbD (31 - i)) 32

theorem trailingZeros_spec (a : Word) : trailingZeros a ≤ 32 ∧ (∀ j, j < trailingZeros a → a.getLsbD j = false) ∧
    (trailingZeros a < 32 → a.getLsbD (trailingZeros a) = true) :=
  find_range_getD (fun i => a.getLsbD i) 32

theorem popCount_eq_countP (a : Word) : popCount a = (List.range 32).countP fun i => a.getLsbD i :=
  List.countP_eq_length_filter.symm

theorem getLsbD_reverse_word (a : Word) {i : Nat} (hi : i < 32) : a.reverse.getLsbD i = a.getLsbD (31 - i) := by
  rw [BitVec.getLsbD_reverse, BitVec.getMsbD_eq_getLsbD, decide_eq_true hi, Bool.true_and]

/-! ## NOP (R262) -/

/-- Opcodes up to 0x58, but for EXIT, are allowed on throughput and latency cores alike (R174). -/
theorem opcodeStop_of_scalar {op : Nat} (hle : op ≤ 0x58) (hexit : op ≠ 0x36) (fn : Nat) (inSection : Bool) :
    opcodeStop op fn inSection = none := by
  have hship : op ≠ 0x98 := by omega
  cases inSection with
  | false => simp only [opcodeStop, Bool.not_false, if_true, if_neg hship]
  | true => simp only [opcodeStop, Bool.not_true, Bool.false_eq_true, if_false, if_neg hexit, if_pos hle]

theorem wordStop_of_nopOpcode {w : Dword} (hop : w.extractLsb' 0 8 = 0x30) (inSection : Bool) : wordStop w inSection = none := by
  have hop' : (Raw.ofWord w).op = 0x30 := hop
  simp only [wordStop, hop']
  exact opcodeStop_of_scalar (by decide) (by decide) _ _

/-- Step 2 of R235 passes a word of NOP's opcode, so that one that is no instruction stops at step 3. -/
theorem undecodedStop_of_nopOpcode {w : Dword} (hop : w.extractLsb' 0 8 = 0x30) (t : Thread) :
    undecodedStop t w = trapOf cIllegalField := by
  simp only [undecodedStop, wordStop_of_nopOpcode hop]

/-! ## The rules -/

/-- Settles O51: the fields of a NOP's word, and a register instruction whose effect is none. -/
theorem nopDoesNothing : Obligations.NopDoesNothing := by
  unfold Obligations.NopDoesNothing
  refine ⟨fun _ _ hw => encode_nop_bits hw,
    fun w hop hbits => ⟨decode_of_nopOpcode_bits hop hbits, fun t => undecodedStop_of_nopOpcode hop t⟩,
    fun _ hla => encode_decodes_nop hla, fun h => ?_⟩
  exact runs_of rfl (fun _ => rfl) (fun _ => ⟨rfl, rfl, rfl⟩) (fun _ => rfl)

/-- Settles O52: the words and their fields, and four results of tag I32. -/
theorem logicOpcode : Obligations.LogicOpcode := by
  unfold Obligations.LogicOpcode
  refine ⟨fun _ _ _ _ => ⟨rfl, rfl, rfl, rfl⟩, fun _ d a b hla => encode_decodes_logic hla d a b, ?_, ?_, ?_, ?_⟩ <;>
    exact fun _ _ _ _ => runs_i32 rfl fun _ => rfl

/-- Settles O53: the words and their fields, four results of tag I32, and what the counts and the reversal are bit by bit. -/
theorem bitCountOpcode : Obligations.BitCountOpcode := by
  unfold Obligations.BitCountOpcode
  refine ⟨fun _ _ _ => ⟨rfl, rfl, rfl, rfl⟩, fun _ d a hla => encode_decodes_bitCount hla d a, fun h d a => ?_,
    fun _ _ _ => runs_i32 rfl fun _ => rfl, leadingZeros_spec, fun _ _ _ => runs_i32 rfl fun _ => rfl, trailingZeros_spec,
    fun _ _ _ => runs_i32 rfl fun _ => rfl, fun a _ hi => getLsbD_reverse_word a hi⟩
  simp only [← popCount_eq_countP]
  exact runs_i32 rfl fun _ => rfl

end Sys2Proof.Machine
end

section
/-! The fields of a word and the instruction that they encode determine each other, for instruction words (R220 to R237) and for
the words of queue programs (R406, R407); the words of the manual. -/

namespace Sys2Proof

/-! ## Coded fields: a code has one meaning (R234) -/

/-- A code is looked up in a list of all the values of its type, where no two have the same code. -/
theorem find?_code_iff {α β : Type} [DecidableEq β] {l : List α} {code : α → β} (hl : ∀ x, x ∈ l)
    (hc : (l.map code).Nodup) (c : β) (x : α) : l.find? (fun y => code y == c) = some x ↔ code x = c := by
  constructor
  · intro h
    have hcode := List.find?_some h
    exact beq_iff_eq.1 hcode
  · intro h
    obtain ⟨y, hy⟩ : ∃ y, l.find? (fun y => code y == c) = some y :=
      Option.isSome_iff_exists.1 (List.find?_isSome.2 ⟨x, hl x, beq_iff_eq.2 h⟩)
    have hcode := List.find?_some hy
    rw [hy, List.inj_on_of_nodup_map hc (hl y) (hl x) ((beq_iff_eq.1 hcode).trans h.symm)]

theorem Rnd.ofCode_iff {c : BitVec 2} {x : Rnd} : Rnd.ofCode c = some x ↔ x.code = c :=
  find?_code_iff (fun x => by cases x <;> decide) (by decide) c x

theorem Fmt.ofCode_iff {c : BitVec 5} {x : Fmt} : Fmt.ofCode c = some x ↔ x.code = c :=
  find?_code_iff (fun x => by cases x <;> decide) (by decide) c x

theorem Tag.ofCode_iff {c : BitVec 4} {x : Tag} : Tag.ofCode c = some x ↔ x.code = c :=
  find?_code_iff (fun x => by cases x <;> decide) (by decide) c x

theorem AddSat.ofCode_iff {c : BitVec 5} {x : AddSat} : AddSat.ofCode c = some x ↔ x.code = c :=
  find?_code_iff (fun x => by cases x <;> decide) (by decide) c x

theorem ICond.ofCode_iff {c : BitVec 5} {x : ICond} : ICond.ofCode c = some x ↔ x.code = c :=
  find?_code_iff (fun x => by cases x <;> decide) (by decide) c x

theorem PsetOp.ofCode_iff {c : BitVec 2} {x : PsetOp} : PsetOp.ofCode c = some x ↔ x.code = c :=
  find?_code_iff (fun x => by cases x <;> decide) (by decide) c x

theorem FCond.ofCode_iff {c : BitVec 5} {x : FCond} : FCond.ofCode c = some x ↔ x.code = c :=
  find?_code_iff (fun x => by cases x <;> decide) (by decide) c x

theorem HFmt.ofCode_iff {c : BitVec 1} {x : HFmt} : HFmt.ofCode c = some x ↔ x.code = c :=
  find?_code_iff (fun x => by cases x <;> decide) (by decide) c x

theorem DotFmt.ofCode_iff {c : BitVec 3} {x : DotFmt} : DotFmt.ofCode c = some x ↔ x.code = c :=
  find?_code_iff (fun x => by cases x <;> decide) (by decide) c x

theorem VoteOp.ofCode_iff {c : BitVec 2} {x : VoteOp} : VoteOp.ofCode c = Option.some x ↔ x.code = c :=
  find?_code_iff (fun x => by cases x <;> decide) (by decide) c x

theorem ShflMode.ofCode_iff {c : BitVec 5} {x : ShflMode} : ShflMode.ofCode c = some x ↔ x.code = c :=
  find?_code_iff (fun x => by cases x <;> decide) (by decide) c x

theorem RedOp.ofCode_iff {c : BitVec 4} {x : RedOp} : RedOp.ofCode c = some x ↔ x.code = c :=
  find?_code_iff (fun x => by cases x <;> decide) (by decide) c x

theorem MSize.ofCode_iff {c : BitVec 4} {x : MSize} : MSize.ofCode c = some x ↔ x.code = c :=
  find?_code_iff (fun x => by cases x <;> decide) (by decide) c x

theorem Ord4.ofCode_iff {c : BitVec 2} {x : Ord4} : Ord4.ofCode c = some x ↔ x.code = c :=
  find?_code_iff (fun x => by cases x <;> decide) (by decide) c x

theorem Scope.ofCode_iff {c : BitVec 2} {x : Scope} : Scope.ofCode c = some x ↔ x.code = c :=
  find?_code_iff (fun x => by cases x <;> decide) (by decide) c x

theorem AtomOp.ofCode_iff {c : BitVec 5} {x : AtomOp} : AtomOp.ofCode c = some x ↔ x.code = c :=
  find?_code_iff (fun x => by cases x <;> decide) (by decide) c x

theorem SysReg.mem_all (x : SysReg) : x ∈ SysReg.all := by
  cases x with
  | f i => revert i; decide
  | bpa i => revert i; decide
  | _ => decide

theorem SysReg.ofCode_iff {c : BitVec 8} {x : SysReg} : SysReg.ofCode c = some x ↔ x.code = c :=
  find?_code_iff SysReg.mem_all (by decide) c x

@[simp] theorem Rnd.ofCode_code (x : Rnd) : Rnd.ofCode x.code = some x := Rnd.ofCode_iff.2 rfl
@[simp] theorem Fmt.ofCode_code (x : Fmt) : Fmt.ofCode x.code = some x := Fmt.ofCode_iff.2 rfl
@[simp] theorem Tag.ofCode_code (x : Tag) : Tag.ofCode x.code = some x := Tag.ofCode_iff.2 rfl
@[simp] theorem AddSat.ofCode_code (x : AddSat) : AddSat.ofCode x.code = some x := AddSat.ofCode_iff.2 rfl
@[simp] theorem ICond.ofCode_code (x : ICond) : ICond.ofCode x.code = some x := ICond.ofCode_iff.2 rfl
@[simp] theorem PsetOp.ofCode_code (x : PsetOp) : PsetOp.ofCode x.code = some x := PsetOp.ofCode_iff.2 rfl
@[simp] theorem FCond.ofCode_code (x : FCond) : FCond.ofCode x.code = some x := FCond.ofCode_iff.2 rfl
@[simp] theorem HFmt.ofCode_code (x : HFmt) : HFmt.ofCode x.code = some x := HFmt.ofCode_iff.2 rfl
@[simp] theorem DotFmt.ofCode_code (x : DotFmt) : DotFmt.ofCode x.code = some x := DotFmt.ofCode_iff.2 rfl
@[simp] theorem VoteOp.ofCode_code (x : VoteOp) : VoteOp.ofCode x.code = Option.some x := VoteOp.ofCode_iff.2 rfl
@[simp] theorem ShflMode.ofCode_code (x : ShflMode) : ShflMode.ofCode x.code = some x := ShflMode.ofCode_iff.2 rfl
@[simp] theorem RedOp.ofCode_code (x : RedOp) : RedOp.ofCode x.code = some x := RedOp.ofCode_iff.2 rfl
@[simp] theorem MSize.ofCode_code (x : MSize) : MSize.ofCode x.code = some x := MSize.ofCode_iff.2 rfl
@[simp] theorem Ord4.ofCode_code (x : Ord4) : Ord4.ofCode x.code = some x := Ord4.ofCode_iff.2 rfl
@[simp] theorem Scope.ofCode_code (x : Scope) : Scope.ofCode x.code = some x := Scope.ofCode_iff.2 rfl
@[simp] theorem AtomOp.ofCode_code (x : AtomOp) : AtomOp.ofCode x.code = some x := AtomOp.ofCode_iff.2 rfl
@[simp] theorem SysReg.ofCode_code (x : SysReg) : SysReg.ofCode x.code = some x := SysReg.ofCode_iff.2 rfl

/-! ## What a decoded instruction says of its fields -/

theorem listed_eq_ok {ok : Bool} {i j : Instr} : listed ok i = .ok j ↔ ok = true ∧ i = j := by
  cases ok <;> simp [listed]

theorem coded_eq_ok {α : Type} {o : Option α} {k : α → Decoded} {j : Instr} :
    coded o k = .ok j ↔ ∃ x, o = some x ∧ k x = .ok j := by
  cases o <;> simp [coded]

theorem eq_ofNat_of_toNat_eq {n k : Nat} {x : BitVec n} (h : x.toNat = k) : x = BitVec.ofNat n k := by
  rw [← h, BitVec.ofNat_toNat, BitVec.setWidth_eq]

/-- A check before a decoding, and the decoding. -/
theorem checked_eq_ok {p : Prop} [Decidable p] {x : Decoded} {e : DecodeError} {i : Instr} :
    (if p then x else .error e) = .ok i ↔ p ∧ x = .ok i := by
  split <;> simp [*]

/-! ## Fields made of parts: taken apart, and put together again -/

theorem fn1_fields : ∀ v, (fn1 v).toNat ≤ 1 ∧ (fn1 v == 1#5) = v := by decide
theorem fn1_of_fields : ∀ fn : BitVec 5, fn.toNat ≤ 1 → fn1 (fn == 1#5) = fn := by decide

theorem low2_of_fn : ∀ e : BitVec 2, (0#3 ++ e).toNat ≤ 3 ∧ (0#3 ++ e).extractLsb' 0 2 = e := by decide
theorem fn_of_low2 : ∀ fn : BitVec 5, fn.toNat ≤ 3 → 0#3 ++ fn.extractLsb' 0 2 = fn := by decide
theorem low3_of_fn : ∀ t : BitVec 3, (0#2 ++ t).toNat ≤ 7 ∧ (0#2 ++ t).extractLsb' 0 3 = t := by decide
theorem fn_of_low3 : ∀ fn : BitVec 5, fn.toNat ≤ 7 → 0#2 ++ fn.extractLsb' 0 3 = fn := by decide
theorem low4_of_fn : ∀ n : BitVec 4, (0#1 ++ n).toNat ≤ 15 ∧ (0#1 ++ n).extractLsb' 0 4 = n ∧ (0#1 ++ n).getLsbD 4 = false ∧
    (1#1 ++ n).extractLsb' 0 4 = n ∧ (1#1 ++ n).getLsbD 4 = true := by decide
theorem fn_of_low4 : ∀ fn : BitVec 5, fn.toNat ≤ 15 → 0#1 ++ fn.extractLsb' 0 4 = fn := by decide
theorem fn_of_bit4 : ∀ fn : BitVec 5, (fn.getLsbD 4 = false → 0#1 ++ fn.extractLsb' 0 4 = fn) ∧
    (fn.getLsbD 4 = true → 1#1 ++ fn.extractLsb' 0 4 = fn) := by decide

theorem leaFn_fields : ∀ v (n : BitVec 3), (0#1 ++ BitVec.ofBool v ++ n).toNat ≤ 15 ∧
    (0#1 ++ BitVec.ofBool v ++ n).getLsbD 3 = v ∧ (0#1 ++ BitVec.ofBool v ++ n).extractLsb' 0 3 = n := by decide
theorem leaFn_of_fields : ∀ fn : BitVec 5, fn.toNat ≤ 15 →
    0#1 ++ BitVec.ofBool (fn.getLsbD 3) ++ fn.extractLsb' 0 3 = fn := by decide

theorem twoFlags_fields : ∀ v u (e : BitVec 2), (0#1 ++ BitVec.ofBool v ++ BitVec.ofBool u ++ e).toNat ≤ 15 ∧
    (0#1 ++ BitVec.ofBool v ++ BitVec.ofBool u ++ e).getLsbD 3 = v ∧
    (0#1 ++ BitVec.ofBool v ++ BitVec.ofBool u ++ e).getLsbD 2 = u ∧
    (0#1 ++ BitVec.ofBool v ++ BitVec.ofBool u ++ e).extractLsb' 0 2 = e := by decide
theorem twoFlags_of_fields : ∀ fn : BitVec 5, fn.toNat ≤ 15 →
    0#1 ++ BitVec.ofBool (fn.getLsbD 3) ++ BitVec.ofBool (fn.getLsbD 2) ++ fn.extractLsb' 0 2 = fn := by decide

theorem oneFlag_fields : ∀ v (e : BitVec 2), (0#2 ++ BitVec.ofBool v ++ e).toNat ≤ 7 ∧
    (0#2 ++ BitVec.ofBool v ++ e).getLsbD 2 = v ∧ (0#2 ++ BitVec.ofBool v ++ e).extractLsb' 0 2 = e := by decide
theorem oneFlag_of_fields : ∀ fn : BitVec 5, fn.toNat ≤ 7 →
    0#2 ++ BitVec.ofBool (fn.getLsbD 2) ++ fn.extractLsb' 0 2 = fn := by decide

theorem fnF_fields : ∀ e : BitVec 2, (0#2 ++ BitVec.ofBool false ++ e).toNat ≤ 3 := by decide
theorem fnF_of_fields : ∀ fn : BitVec 5, fn.toNat ≤ 3 → 0#2 ++ BitVec.ofBool false ++ fn.extractLsb' 0 2 = fn := by decide
theorem fnF_rn_fields : ∀ v, (0#2 ++ BitVec.ofBool v ++ Rnd.rn.code == 0#5 || 0#2 ++ BitVec.ofBool v ++ Rnd.rn.code == 4#5) = true := by
  decide
theorem fnF_rn_of_fields : ∀ fn : BitVec 5, fn = 0#5 ∨ fn = 4#5 → 0#2 ++ BitVec.ofBool (fn.getLsbD 2) ++ Rnd.rn.code = fn := by
  decide

theorem halfFn_fields : ∀ (f : BitVec 1) (e : BitVec 2), (0#2 ++ f ++ e).toNat ≤ 7 ∧ (0#2 ++ f ++ e).extractLsb' 2 1 = f ∧
    (0#2 ++ f ++ e).extractLsb' 0 2 = e := by decide
theorem halfFn_of_fields : ∀ fn : BitVec 5, fn.toNat ≤ 7 → 0#2 ++ fn.extractLsb' 2 1 ++ fn.extractLsb' 0 2 = fn := by decide

theorem dotFn_fields : ∀ (f : BitVec 3) (e : BitVec 2), (f ++ e).extractLsb' 2 3 = f ∧ (f ++ e).extractLsb' 0 2 = e := by decide
theorem dotFn_of_fields : ∀ fn : BitVec 5, fn.extractLsb' 2 3 ++ fn.extractLsb' 0 2 = fn := by decide

theorem scanFn_fields : ∀ v (e : BitVec 4), (BitVec.ofBool v ++ e).getLsbD 4 = v ∧ (BitVec.ofBool v ++ e).extractLsb' 0 4 = e := by
  decide
theorem scanFn_of_fields : ∀ fn : BitVec 5, BitVec.ofBool (fn.getLsbD 4) ++ fn.extractLsb' 0 4 = fn := by decide

theorem low3_of_byte : ∀ q : BitVec 3, (0#5 ++ q).toNat ≤ 7 ∧ (0#5 ++ q).extractLsb' 0 3 = q := by decide
theorem byte_of_low3 : ∀ b : BitVec 8, b.toNat ≤ 7 → 0#5 ++ b.extractLsb' 0 3 = b := by decide
theorem low5_of_byte : ∀ n : BitVec 5, (0#3 ++ n).toNat ≤ 31 ∧ (0#3 ++ n).extractLsb' 0 5 = n := by decide
theorem byte_of_low5 : ∀ b : BitVec 8, b.toNat ≤ 31 → 0#3 ++ b.extractLsb' 0 5 = b := by decide
theorem low6_of_byte : ∀ n : BitVec 6, (0#2 ++ n).toNat ≤ 63 ∧ (0#2 ++ n).extractLsb' 0 6 = n := by decide
theorem byte_of_low6 : ∀ b : BitVec 8, b.toNat ≤ 63 → 0#2 ++ b.extractLsb' 0 6 = b := by decide

theorem ctlByte_fields : ∀ v (m : BitVec 2) (x : BitVec 5), (BitVec.ofBool v ++ m ++ x).getLsbD 7 = v ∧
    (BitVec.ofBool v ++ m ++ x).extractLsb' 5 2 = m ∧ (BitVec.ofBool v ++ m ++ x).extractLsb' 0 5 = x := by decide
theorem ctlByte_of_fields : ∀ b : BitVec 8,
    BitVec.ofBool (b.getLsbD 7) ++ b.extractLsb' 5 2 ++ b.extractLsb' 0 5 = b := by decide
theorem packByte_fields : ∀ v (m : BitVec 2) u x,
    (BitVec.ofBool v ++ m ++ (0#3 ++ BitVec.ofBool u ++ BitVec.ofBool x)).extractLsb' 2 3 = 0 ∧
    (BitVec.ofBool v ++ m ++ (0#3 ++ BitVec.ofBool u ++ BitVec.ofBool x)).getLsbD 1 = u ∧
    (BitVec.ofBool v ++ m ++ (0#3 ++ BitVec.ofBool u ++ BitVec.ofBool x)).getLsbD 0 = x := by decide
theorem packByte_of_fields : ∀ b : BitVec 8, b.extractLsb' 2 3 = 0 →
    BitVec.ofBool (b.getLsbD 7) ++ b.extractLsb' 5 2 ++ (0#3 ++ BitVec.ofBool (b.getLsbD 1) ++ BitVec.ofBool (b.getLsbD 0)) = b := by
  decide

theorem tgtByte_fields : ∀ (e : BitVec 2) (k : BitVec 3), (tgtByte e k).extractLsb' 6 2 = e ∧
    (tgtByte e k).extractLsb' 3 3 = k ∧ (tgtByte e k).extractLsb' 0 3 = 0 := by decide
theorem tgtByte_of_fields : ∀ d : BitVec 8, d.extractLsb' 0 3 = 0 → tgtByte (d.extractLsb' 6 2) (d.extractLsb' 3 3) = d := by
  decide

theorem sem_fields : ∀ (sc o : BitVec 2) (sz : BitVec 4), (sc ++ o ++ sz).extractLsb' 6 2 = sc ∧
    (sc ++ o ++ sz).extractLsb' 4 2 = o ∧ (sc ++ o ++ sz).extractLsb' 0 4 = sz := by decide
theorem sem_of_fields : ∀ c : BitVec 8, c.extractLsb' 6 2 ++ c.extractLsb' 4 2 ++ c.extractLsb' 0 4 = c := by decide
theorem sem_of_fixed {c : BitVec 8} {o : BitVec 2} {sz : BitVec 4} (ho : c.extractLsb' 4 2 = o) (hsz : c.extractLsb' 0 4 = sz) :
    c.extractLsb' 6 2 ++ o ++ sz = c := by
  rw [← ho, ← hsz, sem_of_fields]
theorem sem_high_fields : ∀ sz : BitVec 4, (Scope.core.code ++ Ord4.rlx.code ++ sz).extractLsb' 4 4 = 0 := by decide
theorem sem_of_high_fields : ∀ c : BitVec 8, c.extractLsb' 4 4 = 0 →
    Scope.core.code ++ Ord4.rlx.code ++ c.extractLsb' 0 4 = c := by decide

theorem off_fields : ∀ off : BitVec 8, off.extractLsb' 3 5 ++ off.extractLsb' 0 3 = off := by decide
theorem off_of_fields : ∀ (fn : BitVec 5) (pd : BitVec 3), (fn ++ pd).extractLsb' 3 5 = fn ∧ (fn ++ pd).extractLsb' 0 3 = pd := by
  decide
theorem append_eq_zero : ∀ (fn : BitVec 5) (pd : BitVec 3), fn ++ pd = 0 ↔ fn = 0 ∧ pd = 0 := by decide
theorem Raw.off_eq_zero {r : Raw} : r.off = 0 ↔ r.fn = 0 ∧ r.pd = 0 := append_eq_zero r.fn r.pd

theorem imm24_fields (imm : BitVec 24) : imm.extractLsb' 19 5 ++ imm.extractLsb' 16 3 ++ imm.extractLsb' 8 8 ++
    imm.extractLsb' 0 8 = imm := by
  iterate 3 rw [BitVec.extractLsb'_append_extractLsb'_eq_extractLsb' (by rfl)]
  exact BitVec.extractLsb'_eq_self
theorem imm32_fields (imm : BitVec 32) : imm.extractLsb' 27 5 ++ imm.extractLsb' 24 3 ++ imm.extractLsb' 16 8 ++
    imm.extractLsb' 8 8 ++ imm.extractLsb' 0 8 = imm := by
  iterate 4 rw [BitVec.extractLsb'_append_extractLsb'_eq_extractLsb' (by rfl)]
  exact BitVec.extractLsb'_eq_self
theorem imm24_of_fields (fn : BitVec 5) (pd : BitVec 3) (c b : BitVec 8) :
    (fn ++ pd ++ c ++ b).extractLsb' 19 5 = fn ∧ (fn ++ pd ++ c ++ b).extractLsb' 16 3 = pd ∧
      (fn ++ pd ++ c ++ b).extractLsb' 8 8 = c ∧ (fn ++ pd ++ c ++ b).extractLsb' 0 8 = b := by
  simp (disch := omega) only [BitVec.extractLsb'_append_eq_of_add_le, BitVec.extractLsb'_append_eq_of_le, Nat.reduceSub,
    BitVec.extractLsb'_eq_self, and_self]
theorem imm32_of_fields (fn : BitVec 5) (pd : BitVec 3) (c b a : BitVec 8) :
    (fn ++ pd ++ c ++ b ++ a).extractLsb' 27 5 = fn ∧ (fn ++ pd ++ c ++ b ++ a).extractLsb' 24 3 = pd ∧
      (fn ++ pd ++ c ++ b ++ a).extractLsb' 16 8 = c ∧ (fn ++ pd ++ c ++ b ++ a).extractLsb' 8 8 = b ∧
      (fn ++ pd ++ c ++ b ++ a).extractLsb' 0 8 = a := by
  simp (disch := omega) only [BitVec.extractLsb'_append_eq_of_add_le, BitVec.extractLsb'_append_eq_of_le, Nat.reduceSub,
    BitVec.extractLsb'_eq_self, and_self]
theorem Raw.imm32_eq_zero {r : Raw} : r.imm32 = 0 ↔ r.fn = 0 ∧ r.pd = 0 ∧ r.c = 0 ∧ r.b = 0 ∧ r.a = 0 := by
  obtain ⟨hfn, hpd, hc, hb, ha⟩ := imm32_of_fields r.fn r.pd r.c r.b r.a
  constructor
  · intro (h : r.fn ++ r.pd ++ r.c ++ r.b ++ r.a = 0)
    rw [h] at hfn hpd hc hb ha
    exact ⟨hfn.symm, hpd.symm, hc.symm, hb.symm, ha.symm⟩
  · rintro ⟨h1, h2, h3, h4, h5⟩
    rw [Raw.imm32, h1, h2, h3, h4, h5]
    rfl
theorem shipFn_of_fields {fn : BitVec 5} {k : BitVec 2} (hk : fn.extractLsb' 0 2 = k) : fn.extractLsb' 2 3 ++ k = fn := by
  rw [← hk, dotFn_of_fields]

theorem MSize.ofCode_zero : MSize.ofCode 0#4 = some .b8 := rfl
theorem Raw.extent_extByte (op d a b : BitVec 8) (h : Hdr) (rsv : BitVec 2) (pd : BitVec 3) (fn : BitVec 5) (line : Bool)
    (k : Bool → Decoded) : Raw.extent ⟨op, h, rsv, d, a, b, extByte line, pd, fn⟩ k = k line := by
  cases line <;> rfl

/-! ## The fields that decode to an instruction are its fields -/

theorem raw_of_fieldsInt {r : Raw} {i : Instr} (hf : fieldsInt r = .ok i) (hr : r.rsv = 0) : rawOf i = some r := by
  obtain ⟨op, h, rsv, d, a, b, c, pd, fn⟩ := r
  replace hf := And.intro hr hf
  simp only [fieldsInt] at hf
  split at hf
  case' h_11 | h_12 | h_13 | h_14 | h_26 =>
    split at hf
    all_goals simp only [listed_eq_ok, reduceCtorEq, and_false] at hf
    all_goals obtain rfl := eq_ofNat_of_toNat_eq ‹fn.toNat = _›
  all_goals
    simp only [listed_eq_ok, coded_eq_ok, AddSat.ofCode_iff, ICond.ofCode_iff, PsetOp.ofCode_iff, Except.ok.injEq,
      Bool.and_eq_true, beq_iff_eq, decide_eq_true_eq, and_assoc, reduceCtorEq, and_false] at hf
  all_goals
    obtain rfl := eq_ofNat_of_toNat_eq ‹op.toNat = _›
    cases_type* And Exists
    subst_vars
    refine congrArg some ?_
    simp only [layoutX, layoutW, Raw.imm32, imm32_of_fields, fn1_of_fields, byte_of_low3, leaFn_of_fields,
      twoFlags_of_fields, Bool.false_eq_true, if_true, if_false, BitVec.ofNat_eq_ofNat, *]

theorem raw_of_fieldsCtl {r : Raw} {i : Instr} (hf : fieldsCtl r = .ok i) (hr : r.rsv = 0) : rawOf i = some r := by
  obtain ⟨op, h, rsv, d, a, b, c, pd, fn⟩ := r
  replace hf := And.intro hr hf
  simp only [fieldsCtl] at hf
  split at hf
  case' h_5 =>
    split at hf
    all_goals simp only [listed_eq_ok, reduceCtorEq, and_false] at hf
    all_goals obtain rfl := eq_ofNat_of_toNat_eq ‹c.toNat = _›
  all_goals
    simp only [listed_eq_ok, coded_eq_ok, Fmt.ofCode_iff, Rnd.ofCode_iff, Tag.ofCode_iff, Raw.imm32_eq_zero,
      Except.ok.injEq, Bool.and_eq_true, beq_iff_eq, decide_eq_true_eq, and_assoc, reduceCtorEq, and_false] at hf
  all_goals
    obtain rfl := eq_ofNat_of_toNat_eq ‹op.toNat = _›
    cases_type* And Exists
    subst_vars
    refine congrArg some ?_
    simp only [layoutX, layoutY, Raw.imm24, imm24_of_fields, byte_of_low5, ctlByte, ctlByte_of_fields, packByte_of_fields,
      fn_of_low4, BitVec.ofNat_eq_ofNat, *]

theorem raw_of_fieldsFloat {r : Raw} {i : Instr} (hf : fieldsFloat r = .ok i) (hr : r.rsv = 0) : rawOf i = some r := by
  obtain ⟨op, h, rsv, d, a, b, c, pd, fn⟩ := r
  replace hf := And.intro hr hf
  simp only [fieldsFloat, Raw.rnd] at hf
  split at hf
  all_goals
    simp only [listed_eq_ok, coded_eq_ok, Rnd.ofCode_iff, FCond.ofCode_iff, HFmt.ofCode_iff, DotFmt.ofCode_iff,
      BitVec.ofNat_eq_ofNat, Bool.and_eq_true, Bool.or_eq_true, beq_iff_eq, decide_eq_true_eq, and_assoc, reduceCtorEq, and_false] at hf
  all_goals
    obtain rfl := eq_ofNat_of_toNat_eq ‹op.toNat = _›
    cases_type* And Exists
    subst_vars
    refine congrArg some ?_
    simp only [layoutX, fnF, oneFlag_of_fields, fnF_of_fields, fnF_rn_of_fields, halfFn_of_fields, dotFn_of_fields,
      BitVec.ofNat_eq_ofNat, *]

theorem raw_of_fieldsGroup {r : Raw} {i : Instr} (hf : fieldsGroup r = .ok i) (hr : r.rsv = 0) : rawOf i = some r := by
  obtain ⟨op, h, rsv, d, a, b, c, pd, fn⟩ := r
  replace hf := And.intro hr hf
  simp only [fieldsGroup, Raw.semFixed] at hf
  split at hf
  case' h_9 =>
    split at hf
    all_goals simp only [listed_eq_ok, reduceCtorEq, and_false] at hf
    all_goals obtain rfl := eq_ofNat_of_toNat_eq ‹fn.toNat = _›
  all_goals
    simp only [listed_eq_ok, coded_eq_ok, checked_eq_ok, VoteOp.ofCode_iff, ShflMode.ofCode_iff, RedOp.ofCode_iff,
      Scope.ofCode_iff, Raw.off_eq_zero, Bool.and_eq_true, beq_iff_eq, decide_eq_true_eq, and_assoc, reduceCtorEq,
      and_false] at hf
  all_goals
    obtain rfl := eq_ofNat_of_toNat_eq ‹op.toNat = _›
    cases_type* And Exists
    subst_vars
    refine congrArg some ?_
    simp only [layoutX, layoutM, fn1_of_fields, fn_of_low3, oneFlag_of_fields, byte_of_low3, byte_of_low5, fn_of_low4,
      scanFn_of_fields, sem_of_fixed, BitVec.ofNat_eq_ofNat, BitVec.reduceExtractLsb', *]

theorem raw_of_fieldsMem {r : Raw} {i : Instr} (hf : fieldsMem r = .ok i) (hr : r.rsv = 0) : rawOf i = some r := by
  obtain ⟨op, h, rsv, d, a, b, c, pd, fn⟩ := r
  replace hf := And.intro hr hf
  simp only [fieldsMem, Raw.sem, Raw.extent] at hf
  split at hf
  case' h_14 | h_15 | h_16 =>
    split at hf
    all_goals simp only [listed_eq_ok, reduceCtorEq, and_false] at hf
    all_goals obtain rfl := eq_ofNat_of_toNat_eq ‹c.toNat = _›
  all_goals
    simp only [listed_eq_ok, coded_eq_ok, Ord4.ofCode_iff, Scope.ofCode_iff, MSize.ofCode_iff, AtomOp.ofCode_iff,
      Raw.off_eq_zero, Bool.and_eq_true, beq_iff_eq, decide_eq_true_eq, and_assoc, reduceCtorEq, and_false] at hf
  all_goals
    obtain rfl := eq_ofNat_of_toNat_eq ‹op.toNat = _›
    cases_type* And Exists
    subst_vars
    refine congrArg some ?_
    simp only [layoutX, layoutM, layoutExt, extByte, Raw.off, off_of_fields, fn_of_low3, byte_of_low6, sem_of_fixed,
      sem_of_high_fields, Bool.false_eq_true, if_true, if_false, BitVec.ofNat_eq_ofNat, BitVec.reduceExtractLsb', *]

theorem raw_of_fieldsTask {r : Raw} {i : Instr} (hf : fieldsTask r = .ok i) (hr : r.rsv = 0) : rawOf i = some r := by
  obtain ⟨op, h, rsv, d, a, b, c, pd, fn⟩ := r
  replace hf := And.intro hr hf
  simp only [fieldsTask, Raw.semFixed] at hf
  split at hf
  case' h_3 =>
    simp only [coded_eq_ok, checked_eq_ok] at hf
    obtain ⟨hr, sc, hsc, hsem, hf⟩ := hf
    replace hf := And.intro hsc (And.intro hsem (And.intro hr hf))
    split at hf
    all_goals simp only [reduceCtorEq, and_false, Bool.and_eq_true] at hf
    all_goals have := eq_ofNat_of_toNat_eq ‹(c.extractLsb' 0 4).toNat = _›
  case' h_8 =>
    split at hf
    all_goals try simp only [reduceCtorEq, and_false] at hf
    all_goals have := eq_ofNat_of_toNat_eq ‹(fn.extractLsb' 0 2).toNat = _›
  case' h_10 | h_11 =>
    split at hf
    all_goals try simp only [reduceCtorEq, and_false] at hf
    all_goals obtain rfl := eq_ofNat_of_toNat_eq ‹fn.toNat = _›
  all_goals
    simp only [listed_eq_ok, coded_eq_ok, checked_eq_ok, Except.ok.injEq,
      Scope.ofCode_iff, Bool.and_eq_true, beq_iff_eq, decide_eq_true_eq, and_assoc, reduceCtorEq, and_false] at hf
  all_goals
    obtain rfl := eq_ofNat_of_toNat_eq ‹op.toNat = _›
    cases_type* And Exists
    subst_vars
    refine congrArg some ?_
    simp only [layoutX, layoutM, fn1_of_fields, Raw.off, off_of_fields, byte_of_low3, sem_of_fixed, shipFn_of_fields,
      BitVec.ofNat_eq_ofNat, *]
theorem raw_of_fieldsEng {r : Raw} {i : Instr} (hf : fieldsEng r = .ok i) (hr : r.rsv = 0) : rawOf i = some r := by
  obtain ⟨op, h, rsv, d, a, b, c, pd, fn⟩ := r
  replace hf := And.intro hr hf
  simp only [fieldsEng] at hf
  split at hf
  case' h_11 => split at hf
  all_goals
    simp only [listed_eq_ok, coded_eq_ok, Fmt.ofCode_iff,
       Bool.and_eq_true, beq_iff_eq, decide_eq_true_eq, and_assoc, reduceCtorEq, and_false] at hf
  all_goals
    obtain rfl := eq_ofNat_of_toNat_eq ‹op.toNat = _›
    cases_type* And Exists
    subst_vars
    refine congrArg some ?_
    simp only [layoutX, fn1_of_fields, fn_of_low2, fn_of_low4, fn_of_bit4, twoFlags_of_fields, tgtByte_of_fields,
      BitVec.ofNat_eq_ofNat, *]

theorem raw_of_fieldsSys {r : Raw} {i : Instr} (hf : fieldsSys r = .ok i) (hr : r.rsv = 0) : rawOf i = some r := by
  obtain ⟨op, h, rsv, d, a, b, c, pd, fn⟩ := r
  replace hf := And.intro hr hf
  simp only [fieldsSys] at hf
  split at hf
  case' h_9 =>
    split at hf
    all_goals simp only [listed_eq_ok, reduceCtorEq, and_false] at hf
    all_goals obtain rfl := eq_ofNat_of_toNat_eq ‹fn.toNat = _›
  all_goals
    simp only [listed_eq_ok, coded_eq_ok, SysReg.ofCode_iff,
       Bool.and_eq_true, beq_iff_eq, decide_eq_true_eq, and_assoc, reduceCtorEq, and_false] at hf
  all_goals
    obtain rfl := eq_ofNat_of_toNat_eq ‹op.toNat = _›
    cases_type* And Exists
    subst_vars
    refine congrArg some ?_
    simp only [layoutX, layoutY, Raw.imm24, imm24_of_fields, fn1_of_fields, byte_of_low3,
      BitVec.ofNat_eq_ofNat, *]

/-- Fields that decode to an instruction are that instruction's fields. -/
theorem raw_of_fields {r : Raw} {i : Instr} (hf : fields r = .ok i) (hr : r.rsv = 0) : rawOf i = some r := by
  simp only [fields] at hf
  split_ifs at hf
  · exact raw_of_fieldsInt hf hr
  · exact raw_of_fieldsCtl hf hr
  · exact raw_of_fieldsFloat hf hr
  · exact raw_of_fieldsGroup hf hr
  · exact raw_of_fieldsMem hf hr
  · exact raw_of_fieldsTask hf hr
  · exact raw_of_fieldsEng hf hr
  · exact raw_of_fieldsSys hf hr

@[simp] theorem Guard.bits_ofBits : ∀ x : BitVec 4, (Guard.ofBits x).bits = x := by decide

/-- Putting the fields of a word together gives back the word. -/
theorem Raw.word_ofWord (w : Dword) : (Raw.ofWord w).word = w := by
  simp only [Raw.word, Raw.ofWord, Guard.bits_ofBits]
  iterate 11 rw [BitVec.extractLsb'_append_extractLsb'_eq_extractLsb' (by rfl)]
  exact BitVec.extractLsb'_eq_self

/-! ## The fields of an instruction decode to it -/

theorem fields_of_rawInt_arith {r : Raw} {i : Instr} (h : rawInt i = some r) (hop : r.op.toNat < 0x1C) : fields r = .ok i := by
  rw [fields, if_pos hop]
  unfold rawInt at h
  split at h
  all_goals cases h
  case h_20.refl ar _ _ _ => cases ar <;> rfl
  all_goals simp only [layoutX, layoutY, layoutW, BitVec.ofNat_eq_ofNat, BitVec.reduceToNat, Nat.reduceLT] at hop
  all_goals simp only [layoutX, layoutW, BitVec.ofNat_eq_ofNat, BitVec.reduceToNat, fieldsInt,
    Raw.imm32, fn1_fields, leaFn_fields, twoFlags_fields, low3_of_byte, imm32_fields, listed, coded, beq_self_eq_true,
    AddSat.ofCode_code, ICond.ofCode_code, PsetOp.ofCode_code, Bool.and_true, decide_true, if_true]

theorem fields_of_rawInt_control {r : Raw} {i : Instr} (h : rawInt i = some r) (hop : ¬ r.op.toNat < 0x1C) : fields r = .ok i := by
  rw [fields, if_neg hop]
  unfold rawInt at h
  split at h
  all_goals cases h
  all_goals simp only [layoutX, layoutY, layoutW, BitVec.ofNat_eq_ofNat, BitVec.reduceToNat, Nat.reduceLT, not_true_eq_false] at hop
  all_goals simp only [layoutX, layoutY, BitVec.ofNat_eq_ofNat, BitVec.reduceToNat, Nat.reduceLT, fieldsCtl,
    Raw.imm24, Raw.imm32, low4_of_fn, low5_of_byte, ctlByte, ctlByte_fields, packByte_fields, imm24_fields, BitVec.reduceAppend, listed, coded,
    beq_self_eq_true, Fmt.ofCode_code, Tag.ofCode_code, Rnd.ofCode_code, Bool.and_true, decide_true, if_true]

theorem fields_of_rawFloat_float {r : Raw} {i : Instr} (h : rawFloat i = some r) (hop : r.op.toNat < 0x60) : fields r = .ok i := by
  unfold rawFloat at h
  split at h
  all_goals cases h
  all_goals simp only [layoutX, layoutM, BitVec.ofNat_eq_ofNat, BitVec.reduceToNat, Nat.reduceLT] at hop
  all_goals simp only [fields, layoutX, BitVec.ofNat_eq_ofNat, BitVec.reduceToNat, Nat.reduceLT, fieldsFloat, Raw.rnd, fnF,
    oneFlag_fields, fnF_fields, fnF_rn_fields, halfFn_fields, dotFn_fields, listed, coded, beq_self_eq_true, Rnd.ofCode_code,
    FCond.ofCode_code, HFmt.ofCode_code, DotFmt.ofCode_code, Bool.and_true, decide_true, if_true, if_false]

theorem fields_of_rawFloat_group {r : Raw} {i : Instr} (h : rawFloat i = some r) (hop : ¬ r.op.toNat < 0x60) : fields r = .ok i := by
  unfold rawFloat at h
  split at h
  all_goals cases h
  all_goals simp only [layoutX, layoutM, BitVec.ofNat_eq_ofNat, BitVec.reduceToNat, Nat.reduceLT, not_true_eq_false] at hop
  all_goals simp only [fields, layoutX, layoutM, BitVec.ofNat_eq_ofNat, BitVec.reduceToNat, Nat.reduceLT, fieldsGroup, Raw.semFixed,
    Raw.off, BitVec.reduceExtractLsb', BitVec.reduceAppend, fn1_fields, low3_of_fn, low4_of_fn, oneFlag_fields, scanFn_fields, low3_of_byte,
    low5_of_byte, sem_fields, listed, coded, beq_self_eq_true, VoteOp.ofCode_code,
    ShflMode.ofCode_code, RedOp.ofCode_code, Scope.ofCode_code, Bool.and_true, decide_true, if_true, if_false]

theorem fields_of_rawMem_memory {r : Raw} {i : Instr} (h : rawMem i = some r) (hop : r.op.toNat < 0x80) : fields r = .ok i := by
  unfold rawMem at h
  split at h
  all_goals cases h
  all_goals simp only [layoutX, layoutM, layoutExt, BitVec.ofNat_eq_ofNat, BitVec.reduceToNat, Nat.reduceLT] at hop
  all_goals simp only [fields, layoutX, layoutM, layoutExt, BitVec.ofNat_eq_ofNat, BitVec.reduceToNat, Nat.reduceLT, fieldsMem, Raw.sem,
    Raw.extent_extByte, Raw.off, BitVec.reduceExtractLsb', BitVec.reduceAppend, low3_of_fn, low6_of_byte, sem_fields, sem_high_fields, off_fields, off_of_fields, MSize.ofCode_zero,
    listed, coded, beq_self_eq_true, Ord4.ofCode_code, Scope.ofCode_code, MSize.ofCode_code, AtomOp.ofCode_code,
    Bool.and_true, decide_true, if_true, if_false]

theorem fields_of_rawMem_task {r : Raw} {i : Instr} (h : rawMem i = some r) (hop : ¬ r.op.toNat < 0x80) : fields r = .ok i := by
  unfold rawMem at h
  split at h
  all_goals cases h
  all_goals simp only [layoutX, layoutM, layoutExt, BitVec.ofNat_eq_ofNat, BitVec.reduceToNat, Nat.reduceLT, not_true_eq_false] at hop
  all_goals simp only [fields, layoutX, layoutM, BitVec.ofNat_eq_ofNat, BitVec.reduceToNat, Nat.reduceLT, fieldsTask, Raw.semFixed, Raw.off,
    fn1_fields, low3_of_byte, sem_fields, off_fields, dotFn_fields, listed, coded, beq_self_eq_true, Scope.ofCode_code,
    Bool.and_true, decide_true, if_true, if_false]

theorem fields_of_rawEng_engine {r : Raw} {i : Instr} (h : rawEng i = some r) (hop : r.op.toNat < 0xC0) : fields r = .ok i := by
  unfold rawEng at h
  split at h
  all_goals cases h
  all_goals simp only [layoutX, layoutY, BitVec.ofNat_eq_ofNat, BitVec.reduceToNat, Nat.reduceLT] at hop
  all_goals simp only [fields, layoutX, BitVec.ofNat_eq_ofNat, BitVec.reduceToNat, Nat.reduceLT, fieldsEng, fn1_fields, low2_of_fn, low4_of_fn,
    twoFlags_fields, tgtByte_fields, listed, coded, beq_self_eq_true, Fmt.ofCode_code, Bool.false_eq_true,
    Bool.and_true, decide_true, if_true, if_false]

theorem fields_of_rawEng_system {r : Raw} {i : Instr} (h : rawEng i = some r) (hop : ¬ r.op.toNat < 0xC0) : fields r = .ok i := by
  unfold rawEng at h
  split at h
  all_goals cases h
  all_goals simp only [layoutX, layoutY, BitVec.ofNat_eq_ofNat, BitVec.reduceToNat, Nat.reduceLT, not_true_eq_false] at hop
  all_goals simp only [fields, layoutX, layoutY, BitVec.ofNat_eq_ofNat, BitVec.reduceToNat, Nat.reduceLT, fieldsSys, Raw.imm24, imm24_fields, fn1_fields,
    low3_of_byte, listed, coded, beq_self_eq_true, SysReg.ofCode_code, Bool.and_true, decide_true, if_true, if_false]

/-- The opcode of the fields of an instruction is assigned, and its reserved bits are zero. -/
def Raw.legal (r : Raw) : Prop := opAssigned r.op = true ∧ r.rsv = 0

theorem legal_of_rawInt {r : Raw} {i : Instr} (h : rawInt i = some r) : r.legal := by
  unfold rawInt at h
  split at h <;> cases h <;> exact ⟨rfl, rfl⟩

theorem legal_of_rawFloat {r : Raw} {i : Instr} (h : rawFloat i = some r) : r.legal := by
  unfold rawFloat at h
  split at h <;> cases h <;> exact ⟨rfl, rfl⟩

theorem legal_of_rawMem {r : Raw} {i : Instr} (h : rawMem i = some r) : r.legal := by
  unfold rawMem at h
  split at h <;> cases h <;> exact ⟨rfl, rfl⟩

theorem legal_of_rawEng {r : Raw} {i : Instr} (h : rawEng i = some r) : r.legal := by
  unfold rawEng at h
  split at h <;> cases h <;> exact ⟨rfl, rfl⟩

/-- The fields of an instruction stand in one of the four tables. -/
theorem rawOf_cases {r : Raw} {i : Instr} (h : rawOf i = some r) :
    rawInt i = some r ∨ rawFloat i = some r ∨ rawMem i = some r ∨ rawEng i = some r := by
  unfold rawOf at h
  cases hint : rawInt i with
  | some r' => exact .inl (by rwa [hint] at h)
  | none =>
    rw [hint, Option.orElse_none] at h
    cases hfloat : rawFloat i with
    | some r' => exact .inr (.inl (by rwa [hfloat] at h))
    | none =>
      rw [hfloat, Option.orElse_none] at h
      cases hmem : rawMem i with
      | some r' => exact .inr (.inr (.inl (by rwa [hmem] at h)))
      | none => exact .inr (.inr (.inr (by rwa [hmem, Option.orElse_none] at h)))

/-- The fields of an instruction decode to it, whatever they are. -/
theorem fields_of_raw {r : Raw} {i : Instr} (h : rawOf i = some r) : fields r = .ok i ∧ r.legal := by
  rcases rawOf_cases h with h | h | h | h
  · refine ⟨?_, legal_of_rawInt h⟩
    by_cases hop : r.op.toNat < 0x1C
    · exact fields_of_rawInt_arith h hop
    · exact fields_of_rawInt_control h hop
  · refine ⟨?_, legal_of_rawFloat h⟩
    by_cases hop : r.op.toNat < 0x60
    · exact fields_of_rawFloat_float h hop
    · exact fields_of_rawFloat_group h hop
  · refine ⟨?_, legal_of_rawMem h⟩
    by_cases hop : r.op.toNat < 0x80
    · exact fields_of_rawMem_memory h hop
    · exact fields_of_rawMem_task h hop
  · refine ⟨?_, legal_of_rawEng h⟩
    by_cases hop : r.op.toNat < 0xC0
    · exact fields_of_rawEng_engine h hop
    · exact fields_of_rawEng_system h hop

/-! ## Words and instructions -/

theorem checkWf_eq_ok {x : Decoded} {i : Instr} : checkWf x = .ok i ↔ x = .ok i ∧ i.wf = true := by
  cases x with
  | error e => simp [checkWf]
  | ok j =>
    simp only [checkWf, checked_eq_ok, Except.ok.injEq]
    constructor
    · rintro ⟨hwf, rfl⟩
      exact ⟨rfl, hwf⟩
    · rintro ⟨rfl, hwf⟩
      exact ⟨hwf, rfl⟩

/-- An opcode outside the tables makes the row for it well formed. -/
theorem Instr.wf_unassignedOpcode (w : Dword) : (Instr.unassignedOpcode w).wf = !opAssigned (w.extractLsb' 0 8) := rfl

/-- A word is the word of a row without a header, or it is made of an instruction's fields. -/
theorem encode_cases {i : Instr} {w : Dword} (h : encode i = some w) :
    i = .unassignedOpcode w ∨ ∃ r, rawOf i = some r ∧ r.word = w := by
  unfold encode at h
  split at h
  · cases h
    exact .inl rfl
  · exact .inr (Option.map_eq_some_iff.1 h)

/-- What decodes to an instruction with an assigned opcode has legal fields, which decode to it. -/
theorem decode_cases {w : Dword} {i : Instr} (h : decode w = .ok i) :
    (opAssigned (w.extractLsb' 0 8) = false ∧ i = .unassignedOpcode w) ∨
      ((Raw.ofWord w).rsv = 0 ∧ fields (Raw.ofWord w) = .ok i ∧ i.wf = true) := by
  simp only [decode] at h
  split at h
  · obtain ⟨hrsv, h⟩ := checked_eq_ok.1 h
    exact .inr ⟨beq_iff_eq.1 hrsv, checkWf_eq_ok.1 h⟩
  · next hop =>
    cases h
    exact .inl ⟨eq_false_of_ne_true hop, rfl⟩

theorem decode_of_encode {i : Instr} {w : Dword} (hwf : i.wf = true) (h : encode i = some w) : decode w = .ok i := by
  rcases encode_cases h with rfl | ⟨r, hr, rfl⟩
  · rw [Instr.wf_unassignedOpcode, Bool.not_eq_true'] at hwf
    exact decode_of_unassigned hwf
  · obtain ⟨hf, hop, hrsv⟩ := fields_of_raw hr
    exact decode_word hop hrsv hf hwf

theorem encode_of_decode {w : Dword} {i : Instr} (h : decode w = .ok i) : encode i = some w ∧ i.wf = true := by
  rcases decode_cases h with ⟨hop, rfl⟩ | ⟨hrsv, hf, hwf⟩
  · exact ⟨rfl, by rw [Instr.wf_unassignedOpcode, hop]; rfl⟩
  · refine ⟨?_, hwf⟩
    rw [encode_of_rawOf (raw_of_fields hf hrsv), Raw.word_ofWord]

/-- Every row with a header has fields. -/
theorem hdr_imp_encode (i : Instr) : (!i.hdr?.isSome || (encode i).isSome) = true := by
  cases i <;> rfl

theorem encode_isSome_of_hdr {i : Instr} (h : i.hdr?.isSome = true) : (encode i).isSome = true := by
  simpa only [h, Bool.not_true, Bool.false_or] using hdr_imp_encode i

/-- Settles O55: the fields of a word and of an instruction determine each other, and a word is its fields. -/
theorem instructionWordsRoundTrip : Obligations.InstructionWordsRoundTrip := by
  unfold Obligations.InstructionWordsRoundTrip
  exact ⟨fun _ _ hwf h => decode_of_encode hwf h, fun _ _ h => encode_isSome_of_hdr h, fun _ _ h => encode_of_decode h⟩

/-! ## Queue-program words (R406, R407) -/

theorem qpWord_fields (imm : BitVec 16) (b a : BitVec 4) (op : BitVec 8) :
    (qpWord imm b a op).extractLsb' 16 16 = imm ∧ (qpWord imm b a op).extractLsb' 12 4 = b ∧
      (qpWord imm b a op).extractLsb' 8 4 = a ∧ (qpWord imm b a op).extractLsb' 0 8 = op := by
  simp (disch := omega) only [qpWord, BitVec.extractLsb'_append_eq_of_add_le, BitVec.extractLsb'_append_eq_of_le,
    Nat.reduceSub, BitVec.extractLsb'_eq_self, and_self]

theorem qpWord_of_fields (w : Word) :
    qpWord (w.extractLsb' 16 16) (w.extractLsb' 12 4) (w.extractLsb' 8 4) (w.extractLsb' 0 8) = w := by
  rw [qpWord]
  iterate 3 rw [BitVec.extractLsb'_append_extractLsb'_eq_extractLsb' (by rfl)]
  exact BitVec.extractLsb'_eq_self

/-- A window number in an otherwise zero immediate. -/
theorem qpWindow_fields (n : BitVec 3) : (0#13 ++ n).toNat ≤ 7 ∧ (0#13 ++ n).extractLsb' 0 3 = n := by
  revert n; decide

theorem qpWindow_of_fields {imm : BitVec 16} (h : imm.toNat ≤ 7) : 0#13 ++ imm.extractLsb' 0 3 = imm := by
  apply BitVec.eq_of_toNat_eq
  rw [BitVec.toNat_append]
  simp
  omega

theorem decodeQp_of_encodeQp {i : Instr} {w : Word} (h : encodeQp i = some w) : decodeQp w = .ok i := by
  cases i
  all_goals cases h
  all_goals simp only [decodeQp, qpWord_fields, qpWindow_fields, BitVec.ofNat_eq_ofNat, BitVec.reduceToNat, beq_self_eq_true,
    Bool.and_self, decide_true, if_true]

theorem encodeQp_of_decodeQp {w : Word} {i : Instr} (h : decodeQp w = .ok i) : encodeQp i = some w := by
  replace h := And.intro (qpWord_of_fields w) h
  simp only [decodeQp] at h
  generalize w.extractLsb' 16 16 = imm, w.extractLsb' 12 4 = b, w.extractLsb' 8 4 = a, w.extractLsb' 0 8 = op at h
  split at h
  case' h_16 =>
    rw [checked_eq_ok, ← and_assoc] at h
    split at h
    all_goals try simp only [reduceCtorEq, and_false] at h
    all_goals obtain rfl := eq_ofNat_of_toNat_eq ‹imm.toNat = _›
  all_goals simp only [checked_eq_ok, Bool.and_eq_true, beq_iff_eq, decide_eq_true_eq, and_assoc, Except.ok.injEq,
    reduceCtorEq, and_false] at h
  all_goals
    obtain rfl := eq_ofNat_of_toNat_eq ‹op.toNat = _›
    cases_type* And
    subst_vars
    refine congrArg some ?_
    simp only [qpWindow_of_fields, BitVec.ofNat_eq_ofNat, *]

/-- Settles O56: the fields of a queue-program word and of its instruction determine each other. -/
theorem queueWordsRoundTrip : Obligations.QueueWordsRoundTrip := by
  unfold Obligations.QueueWordsRoundTrip
  exact ⟨fun _ _ h => decodeQp_of_encodeQp h, fun _ _ h => encodeQp_of_decodeQp h⟩

/-! ## Words of the manual -/

/-- Settles O54: each word of the manual decodes by computation to the instruction that its text gives. -/
theorem manualWordsDecode : Obligations.ManualWordsDecode := by
  unfold Obligations.ManualWordsDecode
  refine ⟨?_, ?_, ?_, ?_, ?_⟩
  · simp only [List.forall_mem_cons]
    refine ⟨?_, ?_, ?_, ?_, ?_, ?_, ?_, ?_, ?_, ?_, List.forall_mem_nil _⟩ <;> decide
  all_goals decide

end Sys2Proof
end

section
/-! Integer arithmetic, shifts and bit fields: the value of each result, and the instructions that write it (R241 to R246). -/

namespace Sys2Proof

/-! ## Saturation and signs (R241) -/

theorem addFlag_wrap (a b : Word) : addFlag .wrap a b = (a + b, decide (2 ^ 32 ≤ a.toNat + b.toNat)) := rfl

theorem subFlag_wrap (a b : Word) : subFlag .wrap a b = (a - b, decide (a.toNat < b.toNat)) := rfl

/-- Unsigned saturation of a sum: nothing is below 0. -/
theorem satUnsigned_natCast (x : Nat) :
    satUnsigned x = (BitVec.ofNat 32 (min 4294967295 x), min 4294967295 x != x) := by
  have hclamp : clampInt 0 4294967295 (x : Int) = ((min 4294967295 x : Nat) : Int) := by
    rw [clampInt]; omega
  rw [satUnsigned, hclamp]
  refine Prod.ext (BitVec.ofInt_natCast ..) ?_
  exact Bool.eq_iff_iff.2 (by simp only [bne_iff_ne, ne_eq, Nat.cast_inj])

/-- Unsigned saturation of a difference: it changes the difference where that is negative, to 0. -/
theorem satUnsigned_sub (a b : Word) :
    satUnsigned ((a.toNat : Int) - b.toNat) = (BitVec.ofNat 32 (a.toNat - b.toNat), decide (a.toNat < b.toNat)) := by
  have ha := a.isLt
  have hclamp : clampInt 0 4294967295 ((a.toNat : Int) - b.toNat) = ((a.toNat - b.toNat : Nat) : Int) := by
    rw [clampInt]; omega
  rw [satUnsigned, hclamp]
  refine Prod.ext (BitVec.ofInt_natCast ..) (Bool.eq_iff_iff.2 ?_)
  simp only [bne_iff_ne, ne_eq, decide_eq_true_eq]
  omega

namespace Machine

theorem minWord_signed (a b : Word) : minWord false a b = if b.toInt < a.toInt then b else a := by
  simp only [minWord, BitVec.slt_eq_decide, Bool.false_eq_true, if_false, decide_eq_true_eq]

theorem minWord_unsigned (a b : Word) : minWord true a b = if b.toNat < a.toNat then b else a := by
  simp only [minWord, BitVec.ult, if_true, decide_eq_true_eq]

theorem maxWord_signed (a b : Word) : maxWord false a b = if a.toInt < b.toInt then b else a := by
  simp only [maxWord, BitVec.slt_eq_decide, Bool.false_eq_true, if_false, decide_eq_true_eq]

theorem maxWord_unsigned (a b : Word) : maxWord true a b = if a.toNat < b.toNat then b else a := by
  simp only [maxWord, BitVec.ult, if_true, decide_eq_true_eq]

theorem absWord_wrap (a : Word) : absWord false a = if a.toInt < 0 then -a else a := by
  simp only [absWord, BitVec.slt_eq_decide, Bool.false_and, Bool.false_eq_true, if_false, decide_eq_true_eq,
    BitVec.ofNat_eq_ofNat, BitVec.toInt_zero]

/-- The one value whose absolute value has no word is -2 ^ 31. -/
theorem absWord_sat (a : Word) :
    absWord true a = BitVec.ofInt 32 (min 2147483647 (if a.toInt < 0 then -a.toInt else a.toInt)) := by
  by_cases hmin : a = 2147483648#32
  · subst hmin; rfl
  · have hne : a.toInt ≠ -2147483648 := fun h => hmin (BitVec.eq_of_toInt_eq h)
    have hlo := BitVec.le_toInt a
    have hhi := BitVec.toInt_lt (x := a)
    have habs : min 2147483647 (if a.toInt < 0 then -a.toInt else a.toInt) = if a.toInt < 0 then -a.toInt else a.toInt := by
      split <;> omega
    rw [habs]
    simp only [absWord, Bool.true_and, beq_iff_eq, hmin, if_false, BitVec.slt_eq_decide, decide_eq_true_eq,
      BitVec.ofNat_eq_ofNat, BitVec.toInt_zero]
    split
    · rw [BitVec.ofInt_neg, BitVec.ofInt_toInt]
    · rw [BitVec.ofInt_toInt]

/-! ## Products (R241) -/

theorem hiWord_ofNat (x : Nat) : hiWord (BitVec.ofNat 64 x) = BitVec.ofNat 32 (x / 2 ^ 32) := by
  apply BitVec.eq_of_toNat_eq
  simp only [hiWord, BitVec.truncate_eq_setWidth, BitVec.toNat_setWidth, BitVec.toNat_ushiftRight, BitVec.toNat_ofNat,
    Nat.shiftRight_eq_div_pow]
  omega

theorem hiWord_ofInt (x : Int) : hiWord (BitVec.ofInt 64 x) = BitVec.ofInt 32 (x / 2 ^ 32) := by
  apply BitVec.eq_of_toNat_eq
  simp only [hiWord, BitVec.truncate_eq_setWidth, BitVec.toNat_setWidth, BitVec.toNat_ushiftRight, BitVec.toNat_ofInt,
    Nat.shiftRight_eq_div_pow]
  omega

theorem mulHigh_signed (a b : Word) : mulHigh false a b = hiWord (a.signExtend 64 * b.signExtend 64) := by
  simp only [mulHigh, Bool.false_eq_true, if_false, BitVec.signExtend, ← BitVec.ofInt_mul, hiWord_ofInt]

theorem mulHigh_unsigned (a b : Word) : mulHigh true a b = hiWord (a.setWidth 64 * b.setWidth 64) := by
  have hprod : a.setWidth 64 * b.setWidth 64 = BitVec.ofNat 64 (a.toNat * b.toNat) := by
    rw [BitVec.ofNat_mul, BitVec.ofNat_toNat, BitVec.ofNat_toNat]
  rw [mulHigh, if_pos rfl, hprod, hiWord_ofNat]

/-! ## Instructions with one result, and a predicate (R241) -/

section
variable {i : Instr} {h : Hdr}

/-- An instruction with one result of tag I32, given by another expression. -/
theorem runs_i32_eq {d : GReg} {g f : Thread → Word} (hh : i.hdr? = some h) (he : ∀ s, exec i s = runI32 i s d g)
    (hgf : ∀ t, g t = f t) : Runs i fun t => t.put d (f t) .i32 := by
  obtain rfl : g = f := funext hgf
  exact runs_i32 hh he

theorem runs_i32Flag {pd : PReg} {d : GReg} {g : Thread → Word × Bool} {f : Thread → Word} {p : Thread → Bool}
    (hh : i.hdr? = some h) (he : ∀ s, exec i s = runI32Flag i s pd d g) (hg : ∀ t, g t = (f t, p t)) :
    Runs i fun t => (t.put d (f t) .i32).setPred pd (p t) :=
  runs_of hh he ((Thread.stays_put d f fun _ => .i32).thenPred pd p) fun t => by rw [hg]

theorem runs_i64Flag {pd : PReg} {d : GReg} {g : Thread → Dword × Bool} {f : Thread → Dword} {p : Thread → Bool}
    (hh : i.hdr? = some h) (he : ∀ s, exec i s = runI64Flag i s pd d g) (hg : ∀ t, g t = (f t, p t)) :
    Runs i fun t => (t.putPair d (f t) .i32 .i32).setPred pd (p t) :=
  runs_of hh he ((Thread.stays_putPair d f .i32 .i32).thenPred pd p) fun t => by rw [hg]

theorem runs_i64 {d : GReg} {g f : Thread → Dword} (hh : i.hdr? = some h) (he : ∀ s, exec i s = runI64 i s d g)
    (hgf : ∀ t, g t = f t) : Runs i fun t => t.putPair d (f t) .i32 .i32 :=
  runs_of hh he (Thread.stays_putPair d f .i32 .i32) fun t => by rw [hgf]
end

/-- Settles O1: each result and predicate is the arithmetic of its instruction. -/
theorem integerArithmeticResults : Obligations.IntegerArithmeticResults := by
  unfold Obligations.IntegerArithmeticResults
  refine ⟨?_, ?_, ?_, ?_, ?_, ?_, ?_, ?_, ?_, ?_, ?_, ?_, ?_, ?_, ?_, ?_, ?_, ?_⟩
  · exact fun _ _ _ _ _ => runs_i32Flag rfl (fun _ => rfl) fun _ => addFlag_wrap _ _
  · exact fun _ _ _ _ _ => runs_i32Flag rfl (fun _ => rfl) fun _ => rfl
  · exact fun _ _ _ _ _ => runs_i32Flag rfl (fun _ => rfl) fun _ => satUnsigned_natCast _
  · exact fun _ _ _ _ _ => runs_i32Flag rfl (fun _ => rfl) fun _ => subFlag_wrap _ _
  · exact fun _ _ _ _ _ => runs_i32Flag rfl (fun _ => rfl) fun _ => rfl
  · exact fun _ _ _ _ _ => runs_i32Flag rfl (fun _ => rfl) fun _ => satUnsigned_sub _ _
  · exact fun _ _ _ _ => runs_i32 rfl fun _ => rfl
  · exact fun _ _ _ _ => runs_i32_eq rfl (fun _ => rfl) fun _ => mulHigh_signed _ _
  · exact fun _ _ _ _ => runs_i32_eq rfl (fun _ => rfl) fun _ => mulHigh_unsigned _ _
  · exact fun _ _ _ _ _ => runs_i32 rfl fun _ => rfl
  · exact fun _ _ _ _ _ => runs_i64Flag rfl (fun _ => rfl) fun _ => rfl
  · exact fun _ _ _ _ _ => runs_i64Flag rfl (fun _ => rfl) fun _ => rfl
  · exact fun _ _ _ _ => runs_i32_eq rfl (fun _ => rfl) fun _ => minWord_signed _ _
  · exact fun _ _ _ _ => runs_i32_eq rfl (fun _ => rfl) fun _ => minWord_unsigned _ _
  · exact fun _ _ _ _ => runs_i32_eq rfl (fun _ => rfl) fun _ => maxWord_signed _ _
  · exact fun _ _ _ _ => runs_i32_eq rfl (fun _ => rfl) fun _ => maxWord_unsigned _ _
  · exact fun _ _ _ => runs_i32_eq rfl (fun _ => rfl) fun _ => absWord_wrap _
  · exact fun _ _ _ => runs_i32_eq rfl (fun _ => rfl) fun _ => absWord_sat _

end Machine
end Sys2Proof
end

section
/-! Immediate forms, shifts and bit fields: the value of each result (R242, R244, R246). -/

namespace Sys2Proof.Machine

/-! ## Shifts (R244) -/

theorem shl_by {w : Nat} (a : BitVec w) (n : Nat) : a <<< n = if n < w then a <<< n else 0 := by
  split
  · rfl
  · next h => exact BitVec.shiftLeft_eq_zero (Nat.le_of_not_lt h)

theorem shr_by {w : Nat} (a : BitVec w) (n : Nat) : a >>> n = if n < w then a >>> n else 0 := by
  split
  · rfl
  · next h => exact BitVec.ushiftRight_eq_zero (Nat.le_of_not_lt h)

/-- An arithmetic shift by the width or more leaves the sign in every bit. -/
theorem sar_by {w : Nat} (a : BitVec (w + 1)) (n : Nat) : a.sshiftRight n = a.sshiftRight (min n w) := by
  by_cases h : n ≤ w
  · rw [Nat.min_eq_left h]
  · rw [Nat.min_eq_right (Nat.le_of_not_le h)]
    apply BitVec.eq_of_getLsbD_eq
    intro i hi
    have hlast : w + 0 < w + 1 := Nat.lt_succ_self w
    simp only [BitVec.getLsbD_sshiftRight]
    have hn : ¬ n + i < w + 1 := by omega
    rw [if_neg hn]
    by_cases hi0 : i = 0
    · subst hi0
      rw [if_pos hlast, BitVec.msb_eq_getLsbD_last]
      rfl
    · rw [if_neg (by omega)]

theorem rot_by (a : Word) (n : Nat) : a.rotateLeft (n % 256) = a.rotateLeft (n % 32) := by
  rw [← BitVec.rotateLeft_mod_eq_rotateLeft, Nat.mod_mod_of_dvd n (by decide)]

/-! ## Bit fields (R246) -/

theorem bitField_eq (b : Word) : bitField b = (b.toNat % 256,
    if 32 ≤ b.toNat % 256 then 0 else min (min (b.toNat / 256 % 256) 32) (32 - b.toNat % 256)) := rfl

/-- A field lies within the word. -/
theorem bitField_le (b : Word) : (bitField b).2 = 0 ∨ (bitField b).1 + (bitField b).2 ≤ 32 := by
  simp only [bitField]
  split <;> omega

/-- The bits of a field of `n` bits from `p` on. -/
theorem testBit_field (x p n i : Nat) : (x / 2 ^ p % 2 ^ n).testBit i = (decide (i < n) && x.testBit (p + i)) := by
  rw [Nat.testBit_mod_two_pow, Nat.testBit_div_two_pow, Nat.add_comm]

theorem testBit_top {v n : Nat} (hn : n ≠ 0) (hv : v < 2 ^ n) : v.testBit (n - 1) = decide (2 ^ (n - 1) ≤ v) := by
  obtain ⟨k, rfl⟩ := Nat.exists_eq_succ_of_ne_zero hn
  rw [Nat.succ_sub_one, Bool.eq_iff_iff, decide_eq_true_eq]
  constructor
  · exact Nat.ge_two_pow_of_testBit
  · intro h
    have hdiv : v / 2 ^ k = 1 := Nat.div_eq_of_lt_le (by omega) (by rw [Nat.pow_succ] at hv; omega)
    rw [Nat.testBit_eq_decide_div_mod_eq, hdiv]
    rfl

/-- Sign extension of a field of `n` bits whose top bit is one. -/
theorem getLsbD_signExtended {v n i : Nat} (hn : n ≤ 32) (hv : v < 2 ^ n) (hi : i < 32) :
    (BitVec.ofInt 32 ((v : Int) - 2 ^ n)).getLsbD i = if i < n then v.testBit i else true := by
  have hsplit : 2 ^ n * 2 ^ (32 - n) = 2 ^ 32 := by rw [← Nat.pow_add, Nat.add_sub_cancel' hn]
  have hle : 2 ^ n ≤ 2 ^ 32 := Nat.pow_le_pow_right (by decide) hn
  have hwrap : ((2 ^ n * (2 ^ (32 - n) - 1) + v : Nat) : Int) = ((v : Int) - 2 ^ n) + 2 ^ 32 := by
    rw [Nat.mul_sub, hsplit, Nat.mul_one, Nat.cast_add, Nat.cast_sub hle, Nat.cast_pow, Nat.cast_pow, Nat.cast_ofNat]
    ring
  have hnat : BitVec.ofInt 32 ((v : Int) - 2 ^ n) = BitVec.ofNat 32 (2 ^ n * (2 ^ (32 - n) - 1) + v) := by
    rw [← BitVec.ofInt_natCast, hwrap, BitVec.ofInt_add]
    exact (BitVec.add_zero _).symm
  rw [hnat, BitVec.getLsbD_ofNat, decide_eq_true hi, Bool.true_and, Nat.testBit_two_pow_mul_add _ hv]
  split
  · rfl
  · rw [Nat.testBit_two_pow_sub_one]
    exact decide_eq_true (by omega)

/-- BFE's result bit by bit: the field, and above it zeros or the field's sign. -/
theorem getLsbD_fieldGet (sg : Bool) (a b : Word) {i : Nat} (hi : i < 32) : (fieldGet sg a b).getLsbD i =
    if i < (bitField b).2 then a.getLsbD ((bitField b).1 + i)
    else sg && decide ((bitField b).2 ≠ 0) && a.getLsbD ((bitField b).1 + (bitField b).2 - 1) := by
  have hle := bitField_le b
  generalize hf : bitField b = f at *
  obtain ⟨p, n⟩ := f
  simp only [fieldGet, hf]
  by_cases hn : n = 0
  · subst hn
    simp
  · have hv : a.toNat / 2 ^ p % 2 ^ n < 2 ^ n := Nat.mod_lt _ (Nat.two_pow_pos n)
    have hbit : ∀ j, (a.toNat / 2 ^ p % 2 ^ n).testBit j = (decide (j < n) && a.getLsbD (p + j)) := testBit_field _ _ _
    have htop : decide (2 ^ (n - 1) ≤ a.toNat / 2 ^ p % 2 ^ n) = a.getLsbD (p + n - 1) := by
      rw [← testBit_top hn hv, hbit, decide_eq_true (by omega), Bool.true_and, Nat.add_sub_assoc (by omega)]
    have hwidth : n ≤ 32 := by omega
    rw [if_neg hn, htop, decide_eq_true hn, Bool.and_true]
    split
    · next hs =>
      rw [getLsbD_signExtended hwidth hv hi, hbit, hs]
      split <;> simp [*]
    · next hs =>
      rw [BitVec.getLsbD_ofNat, hbit, decide_eq_true hi, Bool.eq_false_of_not_eq_true hs]
      split <;> simp [*]

/-- BFI's result bit by bit: the field from the low bits of `a`, the rest from `c`. -/
theorem getLsbD_fieldPut (a b c : Word) {i : Nat} (hi : i < 32) : (fieldPut a b c).getLsbD i =
    if (bitField b).1 ≤ i ∧ i < (bitField b).1 + (bitField b).2 then a.getLsbD (i - (bitField b).1) else c.getLsbD i := by
  generalize hf : bitField b = f
  obtain ⟨p, n⟩ := f
  have hmask : (BitVec.ofNat 32 ((2 ^ n - 1) * 2 ^ p)).getLsbD i = decide (p ≤ i ∧ i < p + n) := by
    rw [← Nat.shiftLeft_eq, BitVec.getLsbD_ofNat, decide_eq_true hi, Bool.true_and, Nat.testBit_shiftLeft,
      Nat.testBit_two_pow_sub_one, Bool.eq_iff_iff]
    simp only [Bool.and_eq_true, decide_eq_true_eq]
    omega
  simp only [fieldPut, hf, BitVec.getLsbD_or, BitVec.getLsbD_and, BitVec.getLsbD_not, hmask, BitVec.getLsbD_shiftLeft,
    decide_eq_true hi, Bool.true_and]
  split
  · next h => simp [h, Nat.not_lt.2 h.1]
  · next h => simp [h]

/-- Settles O2: shifts by the width or more, fields bit by bit, and instructions with one result. -/
theorem immediateShiftAndFieldResults : Obligations.ImmediateShiftAndFieldResults := by
  unfold Obligations.ImmediateShiftAndFieldResults
  refine ⟨⟨?_, ?_, ?_, ?_, ?_, ?_, ?_, ?_, ?_, ?_, ?_, ?_, ?_, ?_, ?_⟩, ?_, ?_, bitField_eq,
    fun sg a b _ hi => getLsbD_fieldGet sg a b hi, fun a b c _ hi => getLsbD_fieldPut a b c hi⟩
  · exact fun _ _ _ _ => runs_i32 rfl fun _ => rfl
  · exact fun _ _ _ _ => runs_i32 rfl fun _ => rfl
  · exact fun _ _ _ _ => runs_i32 rfl fun _ => rfl
  · exact fun _ _ _ _ => runs_i32 rfl fun _ => rfl
  · exact fun _ _ _ _ => runs_i32_eq rfl (fun _ => rfl) fun _ => shl_by _ _
  · exact fun _ _ _ _ => runs_i32_eq rfl (fun _ => rfl) fun _ => shr_by _ _
  · exact fun _ _ _ _ => runs_i32_eq rfl (fun _ => rfl) fun _ => sar_by _ _
  · exact fun _ _ _ _ => runs_i32_eq rfl (fun _ => rfl) fun _ => rot_by _ _
  · exact fun _ _ _ _ => runs_i32 rfl fun _ => rfl
  · exact fun _ _ _ _ => runs_i32 rfl fun _ => rfl
  · exact fun _ _ _ _ => runs_i32 rfl fun _ => rfl
  · exact fun _ _ _ _ => runs_i32 rfl fun _ => rfl
  · exact fun _ _ _ _ => runs_i64 rfl (fun _ => rfl) fun _ => shl_by _ _
  · exact fun _ _ _ _ => runs_i64 rfl (fun _ => rfl) fun _ => shr_by _ _
  · exact fun _ _ _ _ => runs_i64 rfl (fun _ => rfl) fun _ => sar_by _ _
  · exact fun _ _ _ _ _ => runs_i32 rfl fun _ => rfl
  · exact fun _ _ _ _ _ => runs_i32 rfl fun _ => rfl

end Sys2Proof.Machine
end

section
/-! Moves, selection, addresses, tags, compares and predicates (R247 to R254, R261). -/

namespace Sys2Proof

/-! ## Values (R238, R247, R249) -/

theorem extractLsb'_eq_shift {w : Nat} (x : BitVec w) (k n : Nat) : x.extractLsb' k n = (x >>> k).setWidth n := by
  apply BitVec.eq_of_getLsbD_eq
  intro i hi
  simp only [BitVec.getLsbD_extractLsb', BitVec.getLsbD_setWidth, BitVec.getLsbD_ushiftRight, hi, decide_true, Bool.true_and]

theorem loWord_signExtend (x : Word) : loWord (x.signExtend 64) = x := by
  apply BitVec.eq_of_getLsbD_eq
  intro i hi
  simp only [loWord, BitVec.truncate_eq_setWidth, BitVec.getLsbD_setWidth, BitVec.getLsbD_signExtend, hi, decide_true,
    Bool.true_and, if_true, decide_eq_true (show i < 64 by omega)]

theorem hiWord_signExtend (x : Word) : hiWord (x.signExtend 64) = if x.getLsbD 31 then 0xFFFFFFFF else 0 := by
  have hbit : ∀ i, i < 32 → (hiWord (x.signExtend 64)).getLsbD i = x.getLsbD 31 := by
    intro i hi
    simp only [hiWord, BitVec.truncate_eq_setWidth, BitVec.getLsbD_setWidth, BitVec.getLsbD_ushiftRight,
      BitVec.getLsbD_signExtend, hi, decide_true, Bool.true_and, decide_eq_true (show 32 + i < 64 by omega),
      if_neg (show ¬ 32 + i < 32 by omega), BitVec.msb_eq_getLsbD_last]
  apply BitVec.eq_of_getLsbD_eq
  intro i hi
  rw [hbit i hi]
  cases x.getLsbD 31
  · exact (BitVec.getLsbD_zero).symm
  · have hones : (0xFFFFFFFF : Word).getLsbD i = true := by
      rw [show (0xFFFFFFFF : Word) = BitVec.allOnes 32 from rfl, BitVec.getLsbD_allOnes, decide_eq_true hi]
    exact hones.symm

/-- A byte of a word that is four bytes. -/
theorem byte_of_append (p : Nat → Byte) {i : Nat} (hi : i < 4) :
    ((p 3 ++ p 2 ++ p 1 ++ p 0 : Word) >>> (8 * i)).setWidth 8 = p i := by
  rw [← extractLsb'_eq_shift]
  show ((p 3 ++ p 2 ++ p 1 ++ p 0 : BitVec (8 + 8 + 8 + 8)).extractLsb' (8 * i) 8) = p i
  interval_cases i <;>
    simp (disch := omega) only [BitVec.extractLsb'_append_eq_of_add_le, BitVec.extractLsb'_append_eq_of_le, Nat.reduceSub,
      Nat.reduceMul, BitVec.extractLsb'_eq_self]

/-! ## Conditions (R252) -/

theorem icond_holds {w : Nat} (a b : BitVec w) :
    ICond.holds .eq a b = decide (a.toNat = b.toNat) ∧ ICond.holds .ne a b = decide (a.toNat ≠ b.toNat) ∧
    ICond.holds .lt a b = decide (a.toInt < b.toInt) ∧ ICond.holds .le a b = decide (a.toInt ≤ b.toInt) ∧
    ICond.holds .gt a b = decide (b.toInt < a.toInt) ∧ ICond.holds .ge a b = decide (b.toInt ≤ a.toInt) ∧
    ICond.holds .ltu a b = decide (a.toNat < b.toNat) ∧ ICond.holds .leu a b = decide (a.toNat ≤ b.toNat) ∧
    ICond.holds .gtu a b = decide (b.toNat < a.toNat) ∧ ICond.holds .geu a b = decide (b.toNat ≤ a.toNat) := by
  refine ⟨?_, ?_, BitVec.slt_eq_decide, BitVec.sle_eq_decide, BitVec.slt_eq_decide, BitVec.sle_eq_decide, rfl, rfl, rfl, rfl⟩
  · rw [ICond.holds, Bool.eq_iff_iff, beq_iff_eq, decide_eq_true_eq, BitVec.toNat_inj]
  · rw [ICond.holds, Bool.eq_iff_iff, bne_iff_ne, decide_eq_true_eq, ne_eq, ne_eq, BitVec.toNat_inj]

namespace Machine

theorem permWord_byte (a b c : Word) {i : Nat} (hi : i < 4) : ((permWord a b c) >>> (8 * i)).setWidth 8 =
    (let x : Byte := ((joinWords a b) >>> (8 * (c.toNat / 2 ^ (3 * i) % 8))).setWidth 8
     let m := c.toNat / 2 ^ (12 + 2 * i) % 4
     if m = 0 then x else if m = 1 then 0 else if m = 2 then (if x.getLsbD 7 then 0xFF else 0) else x.reverse) := by
  rw [permWord, byte_of_append _ hi, permByte, extractLsb'_eq_shift]
  have hm : c.toNat / 2 ^ (12 + 2 * i) % 4 < 4 := Nat.mod_lt _ (by decide)
  generalize c.toNat / 2 ^ (12 + 2 * i) % 4 = m at hm ⊢
  interval_cases m <;> rfl

/-! ## Addresses of nodes (R251) -/

theorem nodeIndex_node {c : Word} (hhigh : c.toNat / 2 ^ 25 = 0) (hlevel : c.toNat / 2 ^ 20 % 32 ≤ 19)
    (hindex : c.toNat % 2 ^ 20 < 2 ^ (c.toNat / 2 ^ 20 % 32)) :
    nodeIndex false c = some (2 ^ (c.toNat / 2 ^ 20 % 32) - 1 + c.toNat % 2 ^ 20) := by
  have hin : ¬ (19 < c.toNat / 2 ^ 20 % 32 ∨ 2 ^ (c.toNat / 2 ^ 20 % 32) ≤ c.toNat % 2 ^ 20) := by
    rintro (h | h)
    · exact absurd hlevel (Nat.not_le.2 h)
    · exact absurd hindex (Nat.not_lt.2 h)
  simp only [nodeIndex, hhigh, ne_eq, not_true_eq_false, if_false, Bool.false_eq_true, hin]

theorem nodeIndex_leaf {c : Word} (hhigh : c.toNat / 2 ^ 20 = 0) : nodeIndex true c = some (c.toNat % 2 ^ 20) := by
  have hpos : c.toNat / 2 ^ 25 = 0 := by omega
  have hlevel : c.toNat / 2 ^ 20 % 32 = 0 := by omega
  simp only [nodeIndex, hpos, hlevel, ne_eq, not_true_eq_false, if_false, if_true]

/-! ## Predicates (R253, R254) -/

/-- PMOV.GET shows the predicates with pt above them. -/
theorem preds_with_pt (x : BitVec 7) : x.setWidth 32 ||| 0x80 = BitVec.ofNat 32 (x.toNat + 128) := by
  revert x; decide

theorem Thread.setPred_pt (t : Thread) (v : Bool) : t.setPred 7 v = t := rfl

theorem Thread.pred_pt (t : Thread) : t.pred 7 = true := rfl

theorem getLsbD_predBit : ∀ p q : PReg, q ≠ 7 → ((1 <<< p.toNat : Nat) : BitVec 7).getLsbD q.toNat = decide (q = p) := by decide

/-- What a predicate reads as after a write: pt reads true, the one written its value, any other as before. -/
theorem Thread.pred_setPred (t : Thread) (pd : PReg) (v : Bool) (q : PReg) :
    (t.setPred pd v).pred q = if q = 7 then true else if q = pd then v else t.pred q := by
  by_cases hq : q = 7
  · subst hq; rfl
  · rw [if_neg hq]
    unfold Thread.setPred
    by_cases hpd : pd = 7
    · subst hpd
      rw [if_pos rfl, if_neg hq]
    · rw [if_neg hpd]
      have hbit := getLsbD_predBit pd q hq
      have hlt : q.toNat < 7 := by
        have hne : q.toNat ≠ 7 := fun h => hq (BitVec.eq_of_toNat_eq h)
        omega
      simp only [Thread.pred, beq_eq_false_iff_ne.2 hq, Bool.false_or]
      cases v with
      | true =>
        rw [if_pos rfl, BitVec.getLsbD_or, hbit]
        by_cases hqp : q = pd <;> simp [hqp]
      | false =>
        rw [if_neg Bool.false_ne_true, BitVec.getLsbD_and, BitVec.getLsbD_not, hbit, decide_eq_true hlt]
        by_cases hqp : q = pd <;> simp [hqp]

/-- Settles O3: the value, tag or predicate of each entry. -/
theorem moveAndPredicateResults : Obligations.MoveAndPredicateResults := by
  unfold Obligations.MoveAndPredicateResults
  refine ⟨⟨?_, fun a b c _ hi => permWord_byte a b c hi, ?_, ?_, ?_, ?_, ?_, ?_, ?_, ?_, ?_, ?_⟩,
    ?_, ?_, fun _ => icond_holds, ?_, ?_, ?_, ?_, ?_, fun t pd v => ⟨t.setPred_pt v, t.pred_pt, t.pred_setPred pd v⟩⟩
  · exact fun _ _ _ _ _ => runs_of rfl (fun _ => rfl) (Thread.stays_put _ _ _) fun _ => rfl
  · exact fun _ _ _ _ _ _ => runs_of rfl (fun _ => rfl) (Thread.stays_setReg _ _) fun _ => rfl
  · exact fun _ _ _ => runs_of rfl (fun _ => rfl) (Thread.stays_setReg _ _) fun _ => rfl
  · exact fun _ _ _ => runs_of rfl (fun _ => rfl) (fun _ => ⟨rfl, rfl, rfl⟩) fun _ => rfl
  · exact fun _ _ _ => runs_of rfl (fun _ => rfl) (fun _ => ⟨rfl, rfl, rfl⟩) fun _ => rfl
  · refine fun h d imm => runs_of rfl (fun _ => rfl) (fun _ => ⟨rfl, rfl, rfl⟩) fun t => ?_
    rw [Thread.putPair, loWord_signExtend, hiWord_signExtend]
    rfl
  · exact fun _ _ _ _ _ _ => runs_i64 rfl (fun _ => rfl) fun _ => rfl
  · refine fun h d a b c => runsIf_of rfl (fun _ => rfl) (Thread.stays_putPair _ _ _ _) fun t ⟨hhigh, hlevel, hindex⟩ => ?_
    rw [nodeIndex_node hhigh hlevel hindex]
  · refine fun h d a b c => runsIf_of rfl (fun _ => rfl) (Thread.stays_putPair _ _ _ _) fun t hhigh => ?_
    rw [nodeIndex_leaf hhigh]
  · exact fun _ _ _ _ => runs_of rfl (fun _ => rfl) (Thread.stays_put _ _ _) fun _ => rfl
  · exact fun _ _ _ => runs_i32 rfl fun _ => rfl
  · exact fun _ _ _ _ _ => runs_of rfl (fun _ => rfl) (Thread.stays_setPred _ _) fun _ => rfl
  · exact fun _ _ _ _ _ => runs_of rfl (fun _ => rfl) (Thread.stays_setPred _ _) fun _ => rfl
  · exact fun _ _ _ _ _ _ => runs_of rfl (fun _ => rfl) (Thread.stays_setPred _ _) fun _ => rfl
  · exact fun _ _ _ _ _ _ => runs_of rfl (fun _ => rfl) (Thread.stays_setPred _ _) fun _ => rfl
  · exact fun _ _ _ _ _ _ => runs_of rfl (fun _ => rfl) (Thread.stays_setPred _ _) fun _ => rfl
  · exact fun _ _ => runs_i32_eq rfl (fun _ => rfl) fun t => preds_with_pt t.preds
  · exact fun _ _ _ => runs_of rfl (fun _ => rfl) (fun _ => ⟨rfl, rfl, rfl⟩) fun _ => rfl

end Machine
end Sys2Proof
end

section
/-! Conversions, floating point, packed and dot products, and the special functions (R257 to R260, R299 to R305): a typed
source that carries its tag passes its check, and what is written is then the result of the entry. -/

namespace Sys2Proof.Machine

/-! ## Typed sources and exceptions (R149, R154) -/

theorem Thread.typed_ok {t : Thread} {n : Nat} {want : Tag} {field : Nat} (h : t.reads n want) :
    t.typed n want field = .ok () := if_pos h

theorem Thread.typedF64_ok {t : Thread} {r : GReg} {field : Nat} (h : t.readsF64 r) : t.typedF64 r field = .ok () := by
  rw [Thread.typedF64, Thread.typed_ok h.1]
  exact Thread.typed_ok h.2

theorem Thread.typedSpan_ok {t : Thread} {want : Tag} {field : Nat} (n : Nat) :
    ∀ {r : Nat}, (∀ k < n, t.reads (r + k) want) → t.typedSpan want field r n = .ok () := by
  induction n with
  | zero => intro r _; rfl
  | succ n ih =>
    intro r h
    have hfirst : t.typed r want field = .ok () := Thread.typed_ok (h 0 (Nat.succ_pos n))
    rw [Thread.typedSpan, hfirst]
    exact ih fun k hk => by rw [Nat.add_assoc, Nat.add_comm 1 k]; exact h (k + 1) (Nat.succ_lt_succ hk)

/-- Every check of a list of sources passes, so they all do. -/
theorem forM_ok {α : Type} {f : α → Except Stop Unit} {l : List α} (h : ∀ x ∈ l, f x = .ok ()) : l.forM f = .ok () := by
  induction l with
  | nil => rfl
  | cons x l ih =>
    rw [List.forM_eq_forM, List.forM_cons, h x List.mem_cons_self]
    exact ih fun y hy => h y (List.mem_cons_of_mem _ hy)

theorem checkF32_ok {t : Thread} {pr : Bool} {srcs : List (GReg × Nat)}
    (h : ∀ g ∈ srcs.map Prod.fst, ∀ k < (if pr then 2 else 1), t.reads (g.toNat + k) .f32) : checkF32 t pr srcs = .ok () :=
  forM_ok fun p hp => Thread.typedSpan_ok _ (h p.1 (List.mem_map_of_mem hp))

theorem floatCheck_ok {t : Thread} {ex : FloatEx} (h : t.quiet ex) : floatCheck t ex = .ok () := if_pos h

/-! ## The conversions (R257 to R260) -/

theorem stays_cvt (tgt : Fmt) (d : GReg) (v : Thread → Dword) (w : Thread → Word) (x y g : Tag) :
    Thread.Stays fun t => if tgt = .f64 then t.putPair d (v t) x y else t.put d (w t) g := by
  by_cases ht : tgt = .f64
  · simp only [if_pos ht]; exact Thread.stays_putPair d v x y
  · simp only [if_neg ht]; exact Thread.stays_put d w fun _ => g

theorem runsIf_cvt (h : Hdr) (tgt src : Fmt) (rnd : Rnd) (sat : Bool) (d a c : GReg) :
    RunsIf (.cvt h tgt src rnd sat d a c)
      (fun t => (if src = .f64 then t.readsF64 a else t.reads a.toNat (fmtTag src)) ∧
        t.quiet (toElem tgt rnd sat tgt.scaled (scaleCode (t.val c)) (cvtSource src t a c)).2)
      fun t => if tgt = .f64 then
          t.putPair d (BitVec.ofNat 64 (toElem tgt rnd sat tgt.scaled (scaleCode (t.val c)) (cvtSource src t a c)).1) .f64lo .f64hi
        else t.put d (BitVec.ofNat 32 (toElem tgt rnd sat tgt.scaled (scaleCode (t.val c)) (cvtSource src t a c)).1) (fmtTag tgt) := by
  refine runsIf_of (g := cvtThread tgt src rnd sat d a c) rfl (fun _ => rfl) (stays_cvt tgt d _ _ _ _ _) ?_
  rintro t ⟨hread, hquiet⟩
  unfold cvtThread
  by_cases hs : src = .f64
  · rw [if_pos hs] at hread ⊢
    rw [Thread.typedF64_ok hread]
    simp only [Except.bind, bind, floatCheck_ok hquiet]
    rfl
  · rw [if_neg hs] at hread ⊢
    rw [Thread.typed_ok hread]
    simp only [Except.bind, bind, floatCheck_ok hquiet]
    rfl

theorem runsIf_pack (h : Hdr) (tgt : Fmt) (rnd : Rnd) (sat sc h1 : Bool) (d a c : GReg) :
    let r := fun t : Thread =>
      (t.span a (packCount tgt)).map fun w => toElem tgt rnd sat (sc || tgt.scaled) (scaleCode (t.val c)) (f32 w)
    RunsIf (.pack h tgt rnd sat sc h1 d a c)
      (fun t => (∀ k < packCount tgt, t.reads (a.toNat + k) .f32) ∧ t.quiet ((r t).foldl (fun e x => e ||| x.2) 0))
      fun t => t.put d (BitVec.ofNat 32 (putElems tgt (firstElem tgt h1)
        (if tgt = .bx2 then (t.val d).toNat else 0) ((r t).map (·.1)))) (fmtTag tgt) := by
  refine runsIf_of (g := packThread tgt rnd sat sc h1 d a c) rfl (fun _ => rfl) (Thread.stays_put d _ _) ?_
  rintro t ⟨hread, hquiet⟩
  rw [packThread, Thread.typedSpan_ok _ hread]
  simp only [Except.bind, bind]
  erw [floatCheck_ok hquiet]
  rfl

theorem runsIf_unpack (h : Hdr) (src : Fmt) (rnd : Rnd) (sat sc h1 : Bool) (d a c : GReg) :
    let r := fun t : Thread => (List.range (packCount src)).map fun i =>
      let x := src.dec (elemBits src (t.val a).toNat (firstElem src h1 + i))
      convert .f32 rnd sat false (if sc || src.scaled then scaleBy (scaleCode (t.val c)) x else x)
    RunsIf (.unpack h src rnd sat sc h1 d a c)
      (fun t => t.reads a.toNat (fmtTag src) ∧ t.quiet ((r t).foldl (fun e x => e ||| x.2) 0))
      fun t => t.putSpan d.toNat ((r t).map fun x => { val := BitVec.ofNat 32 x.1, tag := .f32 }) := by
  refine runsIf_of (g := unpackThread src rnd sat sc h1 d a c) rfl (fun _ => rfl) (Thread.stays_putSpan _ _) ?_
  rintro t ⟨hread, hquiet⟩
  rw [unpackThread, Thread.typed_ok hread]
  simp only [Except.bind, bind]
  erw [floatCheck_ok hquiet]
  rfl

theorem runsIf_qscale (h : Hdr) (tgt : Fmt) (d a : GReg) :
    RunsIf (.qscale h tgt d a) (fun t => t.reads a.toNat .f32) fun t =>
      t.put d (BitVec.ofNat 32 (blockScale tgt (f32 (t.val a)).abs)) .raw := by
  refine runsIf_of (g := qscaleThread tgt d a) rfl (fun _ => rfl) (Thread.stays_put d _ _) fun t hread => ?_
  rw [qscaleThread, Thread.typed_ok hread]
  rfl

/-! ## Where PACK puts its elements (R258) -/

/-- Container `i` of a number made of a low part of `k` containers, container `k`, and a high part. -/
theorem container_of_parts (c k w x i : Nat) :
    (w % 2 ^ (c * k) + 2 ^ (c * k) * (x % 2 ^ c + 2 ^ c * (w / 2 ^ (c * (k + 1))))) / 2 ^ (c * i) % 2 ^ c =
      if i = k then x % 2 ^ c else w / 2 ^ (c * i) % 2 ^ c := by
  have hlo : w % 2 ^ (c * k) < 2 ^ (c * k) := Nat.mod_lt _ (Nat.two_pow_pos _)
  have hx : x % 2 ^ c < 2 ^ c := Nat.mod_lt _ (Nat.two_pow_pos _)
  obtain hik | rfl | hki := Nat.lt_trichotomy i k
  · obtain ⟨m, rfl⟩ := Nat.exists_eq_add_of_lt hik
    have hk : 2 ^ (c * (i + m + 1)) = 2 ^ (c * i) * (2 ^ c * 2 ^ (c * m)) := by ring
    rw [if_neg (Nat.ne_of_lt hik), hk, Nat.mul_assoc, Nat.add_mul_div_left _ _ (Nat.two_pow_pos _),
      Nat.mod_mul_right_div_self, Nat.mul_assoc, Nat.add_mul_mod_self_left, Nat.mod_mul_right_mod]
  · rw [if_pos rfl, Nat.add_mul_div_left _ _ (Nat.two_pow_pos _), Nat.div_eq_of_lt hlo, Nat.zero_add,
      Nat.add_mul_mod_self_left, Nat.mod_mod]
  · obtain ⟨m, rfl⟩ := Nat.exists_eq_add_of_lt hki
    have hi : 2 ^ (c * (k + m + 1)) = 2 ^ (c * k) * (2 ^ c * 2 ^ (c * m)) := by ring
    have hi' : 2 ^ (c * (k + m + 1)) = 2 ^ (c * (k + 1)) * 2 ^ (c * m) := by ring
    rw [if_neg (Nat.ne_of_gt hki)]
    calc (w % 2 ^ (c * k) + 2 ^ (c * k) * (x % 2 ^ c + 2 ^ c * (w / 2 ^ (c * (k + 1))))) / 2 ^ (c * (k + m + 1)) % 2 ^ c
      _ = w / 2 ^ (c * (k + 1)) / 2 ^ (c * m) % 2 ^ c := by
        rw [hi, ← Nat.div_div_eq_div_mul, Nat.add_mul_div_left _ _ (Nat.two_pow_pos _), Nat.div_eq_of_lt hlo, Nat.zero_add,
          ← Nat.div_div_eq_div_mul, Nat.add_mul_div_left _ _ (Nat.two_pow_pos _), Nat.div_eq_of_lt hx, Nat.zero_add]
      _ = w / 2 ^ (c * (k + m + 1)) % 2 ^ c := by rw [hi', Nat.div_div_eq_div_mul]

/-- Container `i` after the elements of `l` have been put into the containers from `k` on. -/
theorem elemBits_putElems (f : Fmt) (l : List Nat) : ∀ (k w i : Nat), elemBits f (putElems f k w l) i =
    if k ≤ i ∧ i < k + l.length then l.getD (i - k) 0 % 2 ^ f.container else elemBits f w i := by
  induction l with
  | nil => intro k w i; rw [putElems, if_neg (by rw [List.length_nil]; omega)]
  | cons x l ih =>
    intro k w i
    have hparts : (w / 2 ^ (f.container * (k + 1)) * 2 ^ f.container + x % 2 ^ f.container) * 2 ^ (f.container * k) +
        w % 2 ^ (f.container * k) = w % 2 ^ (f.container * k) +
          2 ^ (f.container * k) * (x % 2 ^ f.container + 2 ^ f.container * (w / 2 ^ (f.container * (k + 1)))) := by ring
    have hfirst : elemBits f ((w / 2 ^ (f.container * (k + 1)) * 2 ^ f.container + x % 2 ^ f.container) *
        2 ^ (f.container * k) + w % 2 ^ (f.container * k)) i =
        if i = k then x % 2 ^ f.container else elemBits f w i := by
      rw [elemBits, hparts, container_of_parts]; rfl
    rw [putElems, ih, hfirst, List.length_cons]
    by_cases hik : i = k
    · subst hik
      rw [if_neg (by omega), if_pos rfl, if_pos (by omega), Nat.sub_self, List.getD_cons_zero]
    · rw [if_neg hik]
      by_cases hin : k + 1 ≤ i ∧ i < k + 1 + l.length
      · have hsub : i - k = i - (k + 1) + 1 := by omega
        rw [if_pos hin, if_pos (by omega), hsub, List.getD_cons_succ]
      · rw [if_neg hin, if_neg (by omega)]

/-- Settles O4: the checks pass where the sources carry their tags and no exception is enabled; PACK's containers by
induction on the elements put. -/
theorem conversionResults : Obligations.ConversionResults :=
  ⟨runsIf_cvt, runsIf_pack, fun f k w l i => elemBits_putElems f l k w i, runsIf_unpack, runsIf_qscale⟩

/-! ## F32, F64 (R299 to R302) -/

theorem f32Thread_ok {pr : Bool} {d : GReg} {srcs : List (GReg × Nat)} {op : ElemOp} {t : Thread}
    (hread : ∀ g ∈ srcs.map Prod.fst, ∀ k < (if pr then 2 else 1), t.reads (g.toNat + k) .f32)
    (hquiet : t.quiet (((List.range (if pr then 2 else 1)).map fun k =>
      op ((srcs.map Prod.fst).map fun g => (t.reg (g.toNat + k)).val.toNat)).foldl (fun e x => e ||| x.2) 0)) :
    f32Thread pr d srcs op t = .ok (t.putSpan d.toNat (((List.range (if pr then 2 else 1)).map fun k =>
      op ((srcs.map Prod.fst).map fun g => (t.reg (g.toNat + k)).val.toNat)).map
        fun x => { val := BitVec.ofNat 32 x.1, tag := .f32 })) := by
  simp only [List.map_map, Function.comp_def] at hquiet ⊢
  rw [f32Thread, checkF32_ok hread]
  simp only [Except.bind, bind, List.map_map, Function.comp_def]
  erw [floatCheck_ok hquiet]
  rfl

theorem f64Thread_ok {d : GReg} {srcs : List (GReg × Nat)} {op : ElemOp} {t : Thread}
    (hread : ∀ g ∈ srcs.map Prod.fst, t.readsF64 g)
    (hquiet : t.quiet (op ((srcs.map Prod.fst).map fun g => (t.pair g).toNat)).2) :
    f64Thread d srcs op t =
      .ok (t.putPair d (BitVec.ofNat 64 (op ((srcs.map Prod.fst).map fun g => (t.pair g).toNat)).1) .f64lo .f64hi) := by
  simp only [List.map_map, Function.comp_def] at hquiet ⊢
  rw [f64Thread, forM_ok fun p hp => Thread.typedF64_ok (hread p.1 (List.mem_map_of_mem hp))]
  simp only [Except.bind, bind]
  rw [floatCheck_ok hquiet]
  rfl

/-- An instruction of F32 that runs `f32Thread` on its sources (R299, R301). -/
theorem runsIf_f32 {i : Instr} {h : Hdr} {pr : Bool} {d : GReg} (srcs : List (GReg × Nat)) {op : ElemOp} (hh : i.hdr? = some h)
    (he : ∀ s, exec i s = runReg i s (f32Thread pr d srcs op)) :
    let r := fun t : Thread => (List.range (if pr then 2 else 1)).map fun k =>
      op ((srcs.map Prod.fst).map fun g => (t.reg (g.toNat + k)).val.toNat)
    RunsIf i (fun t => (∀ g ∈ srcs.map Prod.fst, ∀ k < (if pr then 2 else 1), t.reads (g.toNat + k) .f32) ∧
        t.quiet ((r t).foldl (fun e x => e ||| x.2) 0))
      fun t => t.putSpan d.toNat ((r t).map fun x => { val := BitVec.ofNat 32 x.1, tag := .f32 }) :=
  runsIf_of hh he (Thread.stays_putSpan _ _) fun _ hok => f32Thread_ok hok.1 hok.2

/-- An instruction of F64 that runs `f64Thread` on its sources (R299, R301). -/
theorem runsIf_f64 {i : Instr} {h : Hdr} {d : GReg} (srcs : List (GReg × Nat)) {op : ElemOp} (hh : i.hdr? = some h)
    (he : ∀ s, exec i s = runReg i s (f64Thread d srcs op)) :
    let r := fun t : Thread => op ((srcs.map Prod.fst).map fun g => (t.pair g).toNat)
    RunsIf i (fun t => (∀ g ∈ srcs.map Prod.fst, t.readsF64 g) ∧ t.quiet (r t).2)
      fun t => t.putPair d (BitVec.ofNat 64 (r t).1) .f64lo .f64hi :=
  runsIf_of hh he (Thread.stays_putPair d _ _ _) fun _ hok => f64Thread_ok hok.1 hok.2

theorem runsIf_fcmp (h : Hdr) (cc : FCond) (pd : PReg) (a b : GReg) :
    let r := fun t : Thread => fCompare cc (f32 (t.val a)) (f32 (t.val b))
    RunsIf (.fcmp h cc pd a b) (fun t => t.reads a.toNat .f32 ∧ t.reads b.toNat .f32 ∧ t.quiet (r t).2)
      fun t => t.setPred pd (r t).1 := by
  refine runsIf_of (g := fcmpThread cc pd a b) rfl (fun _ => rfl) (Thread.stays_setPred _ _) ?_
  rintro t ⟨ha, hb, hquiet⟩
  have hsrc : checkF32 t false [(a, 0), (b, 1)] = .ok () := by
    unfold checkF32
    refine forM_ok fun p hp => Thread.typedSpan_ok _ fun k hk => ?_
    obtain rfl : k = 0 := Nat.lt_one_iff.1 hk
    simp only [List.mem_cons, List.not_mem_nil, or_false] at hp
    obtain rfl | rfl := hp
    · exact ha
    · exact hb
  rw [fcmpThread, hsrc]
  simp only [Except.bind, bind, floatCheck_ok hquiet]
  rfl

theorem runsIf_fcmp64 (h : Hdr) (cc : FCond) (pd : PReg) (a b : GReg) :
    let r := fun t : Thread => fCompare cc (f64 (t.pair a)) (f64 (t.pair b))
    RunsIf (.fcmp64 h cc pd a b) (fun t => t.readsF64 a ∧ t.readsF64 b ∧ t.quiet (r t).2) fun t => t.setPred pd (r t).1 := by
  refine runsIf_of (g := fcmp64Thread cc pd a b) rfl (fun _ => rfl) (Thread.stays_setPred _ _) ?_
  rintro t ⟨ha, hb, hquiet⟩
  rw [fcmp64Thread, Thread.typedF64_ok ha]
  simp only [Except.bind, bind, Thread.typedF64_ok hb, floatCheck_ok hquiet]
  rfl

/-- Settles O5: each instruction runs its operation on the elements of its sources, which pass their checks. -/
theorem floatResults : Obligations.FloatResults := by
  refine ⟨⟨fun h pr rnd d a b c => ?_, runsIf_fcmp⟩, fun h rnd d a b c => ?_, runsIf_fcmp64⟩
  · intro p hp
    simp only [List.mem_cons, List.not_mem_nil, or_false] at hp
    obtain rfl | rfl | rfl | rfl | rfl := hp
    · exact runsIf_f32 [(a, 0), (b, 1)] rfl fun _ => rfl
    · exact runsIf_f32 [(a, 0), (b, 1)] rfl fun _ => rfl
    · exact runsIf_f32 [(a, 0), (b, 1), (c, 2)] rfl fun _ => rfl
    · exact runsIf_f32 [(a, 0), (b, 1)] rfl fun _ => rfl
    · exact runsIf_f32 [(a, 0), (b, 1)] rfl fun _ => rfl
  · intro p hp
    simp only [List.mem_cons, List.not_mem_nil, or_false] at hp
    obtain rfl | rfl | rfl | rfl | rfl := hp
    · exact runsIf_f64 [(a, 0), (b, 1)] rfl fun _ => rfl
    · exact runsIf_f64 [(a, 0), (b, 1)] rfl fun _ => rfl
    · exact runsIf_f64 [(a, 0), (b, 1), (c, 2)] rfl fun _ => rfl
    · exact runsIf_f64 [(a, 0), (b, 1)] rfl fun _ => rfl
    · exact runsIf_f64 [(a, 0), (b, 1)] rfl fun _ => rfl

/-! ## Packed half-width and dot products (R303, R304) -/

/-- A packed instruction that runs `halfThread` on its sources (R303). -/
theorem runsIf_half {i : Instr} {h : Hdr} {f : HFmt} {d : GReg} (srcs : List (GReg × Nat)) {op : ElemOp} (hh : i.hdr? = some h)
    (he : ∀ s, exec i s = runReg i s (halfThread f d srcs op)) :
    let r := fun (t : Thread) k => op ((srcs.map Prod.fst).map fun g => elemBits (hfFmt f) (t.val g).toNat k)
    RunsIf i (fun t => (∀ g ∈ srcs.map Prod.fst, t.reads g.toNat (fmtTag (hfFmt f))) ∧ t.quiet ((r t 0).2 ||| (r t 1).2))
      fun t => t.put d (BitVec.ofNat 32 (putElems (hfFmt f) 0 0 [(r t 0).1, (r t 1).1])) (fmtTag (hfFmt f)) := by
  refine runsIf_of hh he (Thread.stays_put d _ _) ?_
  rintro t ⟨hread, hquiet⟩
  have hex : ∀ x y : FloatEx, (exNone ||| x) ||| y = x ||| y := fun x y => congrArg (· ||| y) (BitVec.zero_or (x := x))
  simp only [List.map_map, Function.comp_def] at hquiet ⊢
  rw [halfThread, forM_ok fun p hp => Thread.typed_ok (hread p.1 (List.mem_map_of_mem hp))]
  simp only [Except.bind, bind, List.map_cons, List.map_nil, List.foldl_cons, List.foldl_nil, hex, floatCheck_ok hquiet]
  rfl

/-- A dot product over spans of `n` registers (R304). -/
theorem runsIf_dot {i : Instr} {h : Hdr} {f : DotFmt} {n : Nat} {rnd : Rnd} {d a b c : GReg} (hh : i.hdr? = some h)
    (he : ∀ s, exec i s = runReg i s (dotThread f n rnd d a b c)) :
    let r := fun t : Thread =>
      let ps := (dotElems (dotFmt f) t a n).zip (dotElems (dotFmt f) t b n)
      fDot rnd (f32 (t.val c)) (if dotFmt f = .i8 then ps.map intProduct else ps)
    RunsIf i
      (fun t => (∀ k < n, t.reads (a.toNat + k) (fmtTag (dotFmt f)) ∧ t.reads (b.toNat + k) (fmtTag (dotFmt f))) ∧
        t.reads c.toNat .f32 ∧ t.quiet (r t).2)
      fun t => t.put d (BitVec.ofNat 32 (r t).1) .f32 := by
  have hi8 : (dotFmt f = .i8) = (f = .i8) := by cases f <;> decide
  refine runsIf_of hh he (Thread.stays_put d _ _) ?_
  rintro t ⟨hread, hc, hquiet⟩
  simp only [hi8] at hquiet ⊢
  rw [dotThread, Thread.typedSpan_ok _ fun k hk => (hread k hk).1]
  simp only [Except.bind, bind, Thread.typedSpan_ok _ fun k hk => (hread k hk).2, Thread.typed_ok hc, floatCheck_ok hquiet]
  rfl

/-- Settles O6: two independent elements, or one exact sum, of sources that pass their checks. -/
theorem packedAndDotResults : Obligations.PackedAndDotResults := by
  refine ⟨fun h f rnd d a b c => ?_, fun h f rnd d a b c => ?_⟩
  · intro p hp
    simp only [List.mem_cons, List.not_mem_nil, or_false] at hp
    obtain rfl | rfl | rfl := hp
    · exact runsIf_half [(a, 0), (b, 1)] rfl fun _ => rfl
    · exact runsIf_half [(a, 0), (b, 1)] rfl fun _ => rfl
    · exact runsIf_half [(a, 0), (b, 1), (c, 2)] rfl fun _ => rfl
  · intro p hp
    simp only [List.mem_cons, List.not_mem_nil, or_false] at hp
    obtain rfl | rfl := hp
    · exact runsIf_dot rfl fun _ => rfl
    · exact runsIf_dot rfl fun _ => rfl

/-! ## Special functions (R305) -/

/-- One register written under LA: at once with LA = 0, else pending after any earlier result of the thread (R223). -/
theorem Thread.putLong_one (t : Thread) (la : BitVec 4) (n : Nat) (v : Reg) :
    t.putLong la n [v] = if la = 0 then t.setReg n v
      else { t with pend := t.pend ++
        (if n < t.regs.length then [{ reg := n, val := v, left := some (la.toNat + 1) }] else []) } := by
  unfold Thread.putLong
  split
  · rfl
  · by_cases hn : n < t.regs.length
    · simp only [List.zipIdx_cons, List.zipIdx_nil, List.filterMap_cons, List.filterMap_nil, if_pos hn]
    · simp only [List.zipIdx_cons, List.zipIdx_nil, List.filterMap_cons, List.filterMap_nil, if_neg hn]

/-- A special function: its source passes its check and its exceptions are not enabled (R305). -/
theorem runsIf_special {i : Instr} {h : Hdr} {d a : GReg} {f : Word → Word × FloatEx} (hh : i.hdr? = some h)
    (he : ∀ s, exec i s = runReg i s (specialThread h.la d a f)) :
    RunsIf i (fun t => t.reads a.toNat .f32 ∧ t.quiet (f (t.val a)).2)
      fun t => if h.la = 0 then t.put d (f (t.val a)).1 .f32
        else { t with pend := t.pend ++
          (if d.toNat < t.regs.length then
            [{ reg := d.toNat, val := ⟨(f (t.val a)).1, .f32⟩, left := some (h.la.toNat + 1) }] else []) } := by
  have hput : ∀ t : Thread, (if h.la = 0 then t.put d (f (t.val a)).1 .f32
      else { t with pend := t.pend ++
        (if d.toNat < t.regs.length then
          [{ reg := d.toNat, val := ⟨(f (t.val a)).1, .f32⟩, left := some (h.la.toNat + 1) }] else []) }) =
      t.putLong h.la d.toNat [{ val := (f (t.val a)).1, tag := .f32 }] := fun t => (Thread.putLong_one t _ _ _).symm
  simp only [hput]
  refine runsIf_of hh he (Thread.stays_putLong _ _ _) ?_
  rintro t ⟨hread, hquiet⟩
  rw [specialThread, Thread.typed_ok hread]
  simp only [Except.bind, bind, floatCheck_ok hquiet]
  rfl

/-- The oldest pending result of a register is the first that names it. -/
theorem Thread.landFirst_eq (t : Thread) (reg : Nat) :
    t.landFirst reg = match t.pend.find? (·.reg == reg) with
      | some p => if p.known then { t with regs := t.regs.set reg p.val, pend := t.pend.erase p } else t
      | none => t := by
  unfold Thread.landFirst
  cases hfind : t.pend.find? (·.reg == reg) with
  | none => rfl
  | some p =>
    have hreg : p.reg = reg := by simpa only [beq_iff_eq] using List.find?_some hfind
    simp only [hreg]

/-- Settles O7: the result is written or pending by LA, and the oldest one of a register lands first. -/
theorem specialFunctionResults : Obligations.SpecialFunctionResults := by
  refine ⟨fun h rnd d a => ?_, fun tid reg s => ?_⟩
  · intro p hp
    simp only [List.mem_cons, List.not_mem_nil, or_false] at hp
    obtain rfl | rfl | rfl | rfl | rfl | rfl | rfl | rfl := hp
    · exact runsIf_special rfl fun _ => rfl
    · exact runsIf_special rfl fun _ => rfl
    · exact runsIf_special rfl fun _ => rfl
    · exact runsIf_special rfl fun _ => rfl
    · exact runsIf_special rfl fun _ => rfl
    · exact runsIf_special rfl fun _ => rfl
    · exact runsIf_special rfl fun _ => rfl
    · exact runsIf_special rfl fun _ => rfl
  · exact congrArg (fun f => Host.Outcome.next (s.updThread tid f)) (funext fun t => Thread.landFirst_eq t reg)

end Sys2Proof.Machine
end

section
/-! What a step runs: the instruction at the PC, a queue program's word, or an event; and what taking a turn leaves (R139, R220,
R235, R405). -/

namespace Sys2Proof.Machine

/-! ## What making room and fetching leave -/

/-- What the home slices change when they make room: themselves, the sectors that they write back, and the counts. -/
def State.Trimmed (s e : State) : Prop :=
  ∃ home l2 dirty shadow mem l1Old counts windowCounts dieCounters,
    e = { s with home, l2, dirty, shadow, mem, l1Old, counts, windowCounts, dieCounters }

theorem State.Trimmed.refl (s : State) : s.Trimmed s := ⟨_, _, _, _, _, _, _, _, _, rfl⟩

theorem State.Trimmed.trans {a b c : State} (h : a.Trimmed b) (g : b.Trimmed c) : a.Trimmed c := by
  obtain ⟨_, _, _, _, _, _, _, _, _, rfl⟩ := h
  obtain ⟨_, _, _, _, _, _, _, _, _, rfl⟩ := g
  exact ⟨_, _, _, _, _, _, _, _, _, rfl⟩

theorem State.trimmed_foldl {α : Type} (f : State → α → State) (hf : ∀ (s : State) a, s.Trimmed (f s a)) (l : List α) (s : State) :
    s.Trimmed (l.foldl f s) := by
  induction l generalizing s with
  | nil => exact .refl s
  | cons a l ih => exact (hf s a).trans (ih _)

theorem State.homeDrop_trimmed (s : State) (sector : Nat) : s.Trimmed (s.homeDrop sector) := by
  have hdrop : ∀ u : State, u.Trimmed (u.dropSectors [sector]) := fun u =>
    (State.trimmed_foldl _ (fun _ _ => ⟨_, _, _, _, _, _, _, _, _, rfl⟩) _ u).trans ⟨_, _, _, _, _, _, _, _, _, rfl⟩
  exact .trans ⟨_, _, _, _, _, _, _, _, _, rfl⟩ (hdrop _)

theorem State.trimSlice_trimmed (s : State) (slice : Nat) : s.Trimmed (s.trimSlice slice) := by
  unfold State.trimSlice
  dsimp only
  split
  · exact .refl s
  · split
    · exact s.homeDrop_trimmed _
    · exact .refl s

theorem State.trimDie_trimmed (s : State) (die : Nat) : s.Trimmed (s.trimDie die) := by
  unfold State.trimDie
  dsimp only
  split
  · exact .refl s
  · split
    · exact ⟨_, _, _, _, _, _, _, _, _, rfl⟩
    · exact .refl s

theorem State.trim_of_room {s : State} (h : s.home.length + s.l2.length ≤ 4096) : s.trim = s := if_pos h

theorem State.trim_trimmed (s : State) : s.Trimmed s.trim := by
  unfold State.trim
  split
  · exact .refl s
  · exact (State.trimmed_foldl _ (fun s _ => s.trimSlice_trimmed _) _ s).trans
      (State.trimmed_foldl _ (fun s _ => s.trimDie_trimmed _) _ _)

theorem State.trim_eq (s : State) : s.trim = { s with
    home := s.trim.home, l2 := s.trim.l2, dirty := s.trim.dirty, shadow := s.trim.shadow, mem := s.trim.mem
    l1Old := s.trim.l1Old, counts := s.trim.counts, windowCounts := s.trim.windowCounts
    dieCounters := s.trim.dieCounters } := by
  obtain ⟨_, _, _, _, _, _, _, _, _, h⟩ := s.trim_trimmed
  rw [h]

@[simp] theorem State.trim_beamRest (s : State) : s.trim.beamRest = s.beamRest := by rw [State.trim_eq]

@[simp] theorem State.trim_agenda (s : State) : s.trim.agenda = s.agenda := by rw [State.trim_eq]

@[simp] theorem State.trim_lcs (s : State) : s.trim.lcs = s.lcs := by rw [State.trim_eq]

theorem State.fetchFill_looked (s : State) (t : Thread) : s.Looked (s.fetchFill t) := by
  have hmiss : ∀ (u : State) k, u.Looked (u.icMiss k) := fun u k => by
    unfold State.icMiss
    split
    · exact u.tallyCore_looked ..
    · exact .refl u
  unfold State.fetchFill
  split
  · exact .refl s
  · split
    · split
      · exact s.lookUp_looked ..
      · exact ((s.lookUp_looked ..).trans (hmiss ..)).trans ⟨_, _, _, _, _, rfl⟩
    · exact s.lookUp_looked ..

theorem State.fetchFill_eq (s : State) (t : Thread) : s.fetchFill t = { s with
    home := (s.fetchFill t).home, counts := (s.fetchFill t).counts, windowCounts := (s.fetchFill t).windowCounts
    dieCounters := (s.fetchFill t).dieCounters, cores := (s.fetchFill t).cores } := by
  obtain ⟨_, _, _, _, _, h⟩ := s.fetchFill_looked t
  rw [h]

@[simp] theorem State.fetchFill_thread? (s : State) (t : Thread) (k : Nat) : (s.fetchFill t).thread? k = s.thread? k := by
  rw [State.fetchFill_eq]; rfl

@[simp] theorem State.fetchFill_groups (s : State) (t : Thread) : (s.fetchFill t).groups = s.groups := by
  rw [State.fetchFill_eq]

/-! ## The moves -/

theorem State.move_beamRest {s : State} {a : Actor} {rest : List Actor} (h : s.beamRest = a :: rest) :
    s.move = ({ s with beamRest := rest } : State).agentMove a := by
  unfold State.move; rw [h]

theorem State.move_agenda {s : State} {t : Turn} {rest : List Turn} (hb : s.beamRest = []) (h : s.agenda = t :: rest) :
    s.move = ({ s.trim with agenda := rest } : State).turn t := by
  unfold State.move
  rw [hb]
  dsimp only
  rw [State.trim_agenda, h]

theorem step_of_run {s u : State} {i : Instr} (h : s.move = .run i u) : step s = exec i u := by rw [step, h]

theorem step_of_settle {s u : State} (h : s.move = .settle u) : step s = .next u := by rw [step, h]

theorem step_of_move_eq {s u : State} (h : s.move = u.move) : step s = step u := by rw [step, h]; rfl

/-- An agent that may issue, and whose fetch gives a word, runs it, or is stopped by it (R235). -/
theorem State.agentMove_of_fetch {s : State} {a : Actor} {first : Nat} {others : List Nat} {t : Thread} {w : Dword}
    (hq : ∀ q, a ≠ .queue q) (hmay : ({ s with cur := a } : State).mayIssue a = true)
    (htids : ({ s with cur := a } : State).actorTids a = first :: others)
    (ht : ({ s with cur := a } : State).thread? first = some t) (hw : ({ s with cur := a } : State).fetch t = .ok w) :
    s.agentMove a =
      let v := (({ s with cur := a } : State).fetchFill t).updThreads (first :: others) fun t =>
        { t with prefetch := t.prefetch.filter (·.1 != t.pc), trapWait := false }
      match decode w with
      | .ok i => .run i v
      | .error _ => .settle (v.stop a first w (undecodedStop t w)) := by
  unfold State.agentMove
  dsimp only
  rw [hmay]
  cases a with
  | queue q => exact absurd rfl (hq q)
  | _ => simp only [htids, ht, hw]; rfl

/-- A queue processor in a program runs the program's word at its PC (R405, R406). -/
theorem State.agentMove_queue {s : State} {q : Nat} {p : Prog} {w : Word} {i : Instr} (hrun : (s.queue q).state = .running)
    (hblock : (s.queue q).block = none) (himage : (s.queue q).image = some p) (hword : p.words[(s.queue q).pc]? = some w)
    (hdec : decodeQp w = .ok i) : s.agentMove (.queue q) = .run i { s with cur := .queue q } := by
  have hqueue : ({ s with cur := .queue q } : State).queue q = s.queue q := rfl
  have hmay : ({ s with cur := .queue q } : State).mayIssue (.queue q) = true := by
    simp only [State.mayIssue, hqueue, hrun, hblock]; rfl
  unfold State.agentMove
  dsimp only
  rw [hmay]
  simp only [State.queueMove, hqueue, himage, hword, Option.map_some, hdec]
  rfl

/-- A word in memory, at a PC that no prefetch and no instruction cache holds (R139, R220). -/
theorem State.fetch_memory {s : State} {t : Thread} {key : Nat} (halign : t.pc.toNat % 8 = 0) (hpre : t.prefetch = [])
    (hkey : s.key t.ctx t.pc .fetch = .ok key) (hic : ∀ e ∈ s.icache, ¬(e.1 = t.place.cache ∧ e.2.1 = key))
    (hpoison : s.poisoned key 8 = false) : s.fetch t = .ok (BitVec.ofNat 64 (leNat (s.bytes key 8))) := by
  have hmiss : s.icache.find? (fun e => e.1 == t.place.cache && e.2.1 == key) = none :=
    List.find?_eq_none.2 fun e he => by simpa only [Bool.and_eq_true, beq_iff_eq] using hic e he
  unfold State.fetch
  rw [if_neg (not_not.2 halign), hpre]
  simp only [List.find?_nil, hkey, hmiss, hpoison, Bool.false_eq_true, if_false]

theorem State.lc_trim (s : State) (rest : List Turn) (n : Nat) : ({ s.trim with agenda := rest } : State).lc n = s.lc n := by
  show s.trim.lcs.get ({} : Lc) n = _
  rw [State.trim_lcs]; rfl

/-- Counting does not look at the rest of a beam. -/
theorem State.tallyCore_with_beamRest (s : State) (k src n : Nat) (l : List Actor) :
    ({ s with beamRest := l } : State).tallyCore k src n = { s.tallyCore k src n with beamRest := l } := by
  unfold State.tallyCore
  by_cases h : (s.core k).perf.isEmpty = true
  · rw [if_pos h, if_pos (show (({ s with beamRest := l } : State).core k).perf.isEmpty = true from h)]
  · rw [if_neg h, if_neg (show ¬ (({ s with beamRest := l } : State).core k).perf.isEmpty = true from h)]
    rfl

theorem State.beamMove_of_beam {s : State} {d c : Nat} {mem : Bool} {a : Actor} {rest : List Actor}
    (h : (s.noteStalls d c).beam d c mem = a :: rest) :
    s.beamMove d c mem =
      (({ s.noteStalls d c with beamRest := rest } : State).tallyCore (coreIdx d c) (if mem then 3 else 2) 1).agentMove a := by
  unfold State.beamMove
  dsimp only
  rw [h]

theorem step_registerRead {s : State} {rest : List Turn} {func bar off len : Nat} (hb : s.beamRest = [])
    (ha : s.agenda = .registerRead func bar off len :: rest) :
    step s = match ({ s.trim with agenda := rest } : State).registerRead func bar off len with
      | .next t => .next t
      | _ => .next { s.trim with agenda := rest } := by
  rw [step, State.move_agenda hb ha, State.turn]
  generalize ({ s.trim with agenda := rest } : State).registerRead func bar off len = o
  cases o <;> rfl

/-- Settles O57: each clause is the branch of `State.move` that its hypotheses choose. -/
theorem stepRunsDecodedInstruction : Obligations.StepRunsDecodedInstruction := by
  refine ⟨?_, fun s t key => State.fetch_memory, ?_, ?_, ?_, ?_, fun s rest func bar off len => step_registerRead,
    fun s => ⟨s.trim_eq, State.trim_of_room⟩, State.fetchFill_eq⟩
  · intro s a rest first others t w hb hq u hmay htids ht hw v
    have hmove := (State.move_beamRest hb).trans (State.agentMove_of_fetch hq hmay htids ht hw)
    constructor
    · intro i hi
      exact step_of_run (hmove.trans (by rw [hi]))
    · intro e he
      exact step_of_settle (hmove.trans (by rw [he]))
  · intro s q rest p w i hb hrun hblock himage hword hdec
    exact step_of_run ((State.move_beamRest hb).trans (State.agentMove_queue hrun hblock himage hword hdec))
  · intro s i rest hb ha hi
    exact step_of_run ((State.move_agenda hb ha).trans (by rw [State.turn, if_pos hi]; rfl))
  · intro s rest n tid hb ha hlc
    refine step_of_move_eq ((State.move_agenda hb ha).trans ?_)
    rw [State.turn, State.lc_trim, hlc, State.move_beamRest rfl]
    dsimp only
    congr 1
    rw [State.trim_eq, hb]
  · intro s rest d c m a more hb ha u hbeam
    refine step_of_move_eq ((State.move_agenda hb ha).trans ?_)
    have hrest := State.tallyCore_with_beamRest u (coreIdx d c) (if m then 3 else 2) 1
    rw [State.turn, State.beamMove_of_beam hbeam, State.move_beamRest (a := a) (rest := more) (by rw [hrest])]
    exact congrArg (State.agentMove · a) ((hrest more).trans (by rw [hrest (a :: more)]))

end Sys2Proof.Machine
end

section
/-! The state after reset, its boot, and the canonical form of the memories with what a store leaves (R85, R86, R397 to R453). -/

namespace Sys2Proof.Machine

/-! ## Boot (R435) -/

/-- A device that boots, with nothing to run and room in its slices, goes through the next stage. -/
theorem step_of_booting {s : State} (hb : s.beamRest = []) (ha : s.agenda = []) (hroom : s.home.length + s.l2.length ≤ 4096)
    (hpower : s.boot.power = true) (hstate : s.boot.state = .booting) : step s = .next s.bootStage := by
  refine step_of_settle ?_
  unfold State.move
  rw [hb]
  dsimp only
  rw [State.trim_of_room hroom, ha]
  exact if_pos ⟨hpower, hstate⟩

/-- The reset state after a number of stages of boot. -/
def State.bootedTo : Nat → State
  | 0 => .reset
  | n + 1 => (State.bootedTo n).bootStage

theorem step_bootedTo (n : Nat) (h : (State.bootedTo n).beamRest = [] ∧ (State.bootedTo n).agenda = [] ∧
    (State.bootedTo n).home.length + (State.bootedTo n).l2.length = 0 ∧ (State.bootedTo n).boot.power = true ∧
    (State.bootedTo n).boot.state = .booting) : step (State.bootedTo n) = .next (State.bootedTo (n + 1)) := by
  obtain ⟨hb, ha, hroom, hpower, hstate⟩ := h
  exact step_of_booting hb ha (by omega) hpower hstate

/-- Settles O58: the registers by their reset values; each stage of boot by `step_bootedTo`. -/
theorem resetAndBoot : Obligations.ResetAndBoot := by
  refine ⟨?_, rfl, rfl, rfl, rfl, rfl, rfl, rfl, rfl, fun _ => ⟨rfl, rfl, rfl, rfl, rfl, rfl⟩,
    fun _ => ⟨rfl, rfl, rfl, rfl, rfl, rfl⟩, fun _ => rfl, ?_⟩
  · rintro b rfl
    exact ⟨rfl, rfl, rfl, rfl, rfl⟩
  · exact ⟨_, _, _, _, _, step_bootedTo 0 ⟨rfl, rfl, rfl, rfl, rfl⟩, step_bootedTo 1 ⟨rfl, rfl, rfl, rfl, rfl⟩,
      step_bootedTo 2 ⟨rfl, rfl, rfl, rfl, rfl⟩, step_bootedTo 3 ⟨rfl, rfl, rfl, rfl, rfl⟩,
      step_bootedTo 4 ⟨rfl, rfl, rfl, rfl, rfl⟩, rfl, rfl, rfl, rfl, rfl, rfl⟩

/-! ## The memories after a store (R85, R86) -/

/-- A sector lies in the lines of a range iff a byte of the range lies in its line. -/
theorem inLines_eq_false_iff (key n x : Nat) : inLines key n x = false ↔ ∀ i < n, (key + i) / 1024 ≠ x / 4 := by
  simp only [inLines, Bool.and_eq_false_iff, bne_eq_false_iff_eq, decide_eq_false_iff_not]
  constructor
  · intro h i hi
    omega
  · intro h
    by_contra hin
    have hmid := h (1024 * (x / 4) - key)
    have hfirst := h 0
    omega

theorem mem_filter_not_inLines {α : Type} {l : List α} {key n : Nat} {sector : α → Nat} {x : α} :
    x ∈ l.filter (fun x => !inLines key n (sector x)) ↔ x ∈ l ∧ ∀ i < n, (key + i) / 1024 ≠ sector x / 4 := by
  rw [List.mem_filter, Bool.not_eq_true', inLines_eq_false_iff]

theorem State.mem_putMem_l1 {s : State} {key : Nat} {l : List Byte} {x : L1Sector} :
    x ∈ (s.putMem key l).l1 ↔ x ∈ s.l1 ∧ ∀ i < l.length, (key + i) / 1024 ≠ x.sector / 4 := mem_filter_not_inLines

theorem State.mem_storeMem_l1 {s : State} {k c keep key : Nat} {l : List Byte} {x : L1Sector} :
    x ∈ (s.storeMem k c keep key l).l1 ↔
      x ∈ s.l1 ∧ (x.core = k ∨ ∀ i < l.length, (key + i) / 1024 ≠ x.sector / 4) := by
  unfold State.storeMem
  rw [List.mem_filter, Bool.or_eq_true, beq_iff_eq, Bool.not_eq_true', inLines_eq_false_iff]

/-- Settles O59: a store keeps the form (`putMem_inv`), reads back (`byte_putMem`), and its filters drop the copies of its
lines. -/
theorem memoriesAtResetAndAfterStore : Obligations.MemoriesAtResetAndAfterStore := by
  refine ⟨⟨rfl, rfl, rfl⟩, fun s key l hinv => ⟨s.putMem_inv key l hinv, fun k => s.byte_putMem key l k hinv.1⟩,
    fun s key l => ⟨fun x => State.mem_putMem_l1.1, fun x => mem_filter_not_inLines.1, fun x => mem_filter_not_inLines.1,
      fun x hx hlines => State.mem_putMem_l1.2 ⟨hx, hlines⟩⟩, fun s k c keep key l x => State.mem_storeMem_l1.1⟩

end Sys2Proof.Machine
end

section
/-! Steps 2 to 4 of R235 for every instruction of the processor, and an instruction whose guards are false (R222, R235). -/

namespace Sys2Proof.Machine

/-! ## The course of every instruction -/

/-- The outcome `o` of `i` in `s` is the course of R235 for some effect: in each thread, or once for the fragment. -/
inductive CourseOf (i : Instr) (s : State) : Out → Prop
  | staged (stage : Nat → State → Except Stop State) (body : Body) : CourseOf i s (runStaged i s stage body)
  | once (free : State → Except Stop State) (f : Coll → State → Except Stop (State × Bool)) : CourseOf i s (runOnce i s free f)

theorem CourseOf.coll {i : Instr} {s : State} (f : Coll → State → Except Stop State) : CourseOf i s (runColl i s f) :=
  .once _ _

/-- Every instruction with a header but TRET takes the course of R235: its arm of `exec` says which. -/
theorem exec_course {i : Instr} (hh : i.hdr?.isSome = true) (htret : ∀ h next, i ≠ .tret h next) (s : State) :
    CourseOf i s (exec i s) := by
  cases i with
  | tret h next => exact absurd rfl (htret h next)
  | mset | meet | rpush => unfold exec; exact .once _ _
  | unbind | part | vote | shfl | gshfl | sbcast | smovRead | smovWrite | reduce | scan | gbar | gfence | accAlloc |
  accFree | accLend | accZero | accLd | accRd | mma | mmas | accDrain | dscCfg | dscRun | dscPath | dscGrad | rfbStart
  | rfbStat | rfbAbort => unfold exec; exact .coll _
  | longLatencyResult | ldaLand | matrixCommandRun | drainRun | bulkCopySector | ringEntryTake | dscLevel | dscGradRun
  | rfbBlockStart | rfbStepDone | unassignedOpcode | qpPkt | qpMovi | qpShli | qpShri | qpAdd | qpAnd | qpOr | qpLdw |
  qpStw | qpBeq | qpBne | qpBltu | qpLoop | qpEndl | qpStg | qpEnd | actNop | actLaunch | actSignal | actWaitsig |
  actCopy | actRfb | actChain | threadWake | waitTimeout | taskAdmit | heldAdmission | gangBoundExpiry | taskSteal |
  spillRefill | taskPlace | shipArrival | shipGrant | sectionStart | sectionTimeLimit | preemptSave | faultRecordWrite
  | routingTimeout | scrubUncorrectable | load | free | create | destroy | setcores | preempt | tlbinv | resolve |
  fwwrite | fwactivate | exportCtx | unexportCtx | attach | stopctx | debugResume | wrbp | rdframe | rdstate | wrstate
  | semtas | semrel | semaphoreLeaseExpiry | reset | coldReset | functionLevelReset | powerlim | throttleLevel |
  thermalTrip | eventCounterControl | registerWrite | queueEnable | queueDisable | queueResume | kick | packetRead |
  waitsigSatisfied | chainSatisfied | sigwaitArm | hostCoherentAccess | hostDirectAccess | cxlMemAccess | pftPut |
  pftGetRequest | pftGetResponse | pftFlag | pftShipRequest | pftShipResult | pftSignal | pftChainRegister |
  pftChainNotify | pftAck | pftNack | pftRetransmit | reconciliationWindow | getUsageHeader | getUsage | getHealth |
  getVersion | getCapabilities | negotiateAlgorithms | getDigests | getCertificate | challenge | getMeasurements |
  ptpEnable | hostSnoop | ptpMessage | activePortChange | configurationRequest | serviceFirmwareDecline |
  powerGoodLoss => cases hh
  | iadd | isub | imul | imulh | imad | iadd64 | isub64 | imin | imax | iabs | iaddImm | andImm | orImm | xorImm | and
  | or | xor | andn | shl | shr | sar | rot | shlImm | shrImm | sarImm | rotImm | shl64 | shr64 | popc | clz | ctz |
  brev | bfe | bfi | perm | sel | mov | movi | movhi | lea | naddr | icmp | icmp64 | pset | pmovGet | pmovPut | cvt |
  pack | unpack | qscale | fmtset | fmtget | nop | bra | brx | call | callx | ret | exit | yield | fadd | fmul | ffma
  | fmin | fmax | fcmp | fadd64 | fmul64 | ffma64 | fmin64 | fmax64 | fcmp64 | hadd2 | hmul2 | hfma2 | dot4 | dot8 |
  frcp | frsq | fsqrt | fexp2 | flog2 | fsin | fcos | ftanh | bind | ld | st | lds | sts | ldl | stl | lda | wtag |
  atom | red | atomScratchpad | redScratchpad | fence | pref | cwb | cinv | spawn | wait | fset | fsetFault |
  fsetCancel | fnew | join | leave | bar | fsetBit | waitBit | shipW | shipC | shipO | sret | qpush | qpushRsv | qpop
  | qpopMin | bcpy | rcfg | rcfgGet | rpop | rmaPut | rmaGet | rmaFlag | srd | swr | trap | bpt | icinv | ifence | clk
  | perfRd | perfCfg => exact .staged _ _

/-- The agent that a step before the effect stops. -/
theorem CourseOf.stops {i : Instr} {s : State} {o : Out} (hc : CourseOf i s o) {tids : List Nat} {j : Nat} {e : Stop}
    (ha : s.arrives i tids = true) (hs : (s.landDue i tids).agentStop i tids = some (j, e)) :
    o = .next ((s.landDue i tids).stop s.cur j (encodeWord i) e) := by
  obtain ⟨hat, hne, hw⟩ := State.arrives_agent ha
  obtain ⟨first, rest, rfl⟩ := List.exists_cons_of_ne_nil hne
  cases hc with
  | staged stage body => simp only [runStaged, hat, hw, hs, Bool.false_eq_true, if_false]
  | once free f => simp only [runOnce, hat, hw, hs, Bool.false_eq_true, if_false]

/-- TRET is stopped alike: its target is looked at later (R351). -/
theorem execTret_stops {h : Hdr} {next : Bool} {s : State} {tids : List Nat} {j : Nat} {e : Stop}
    (ha : s.arrives (.tret h next) tids = true) (hs : (s.landDue (.tret h next) tids).agentStop (.tret h next) tids = some (j, e)) :
    execTret h next s = .next ((s.landDue (.tret h next) tids).stop s.cur j (encodeWord (.tret h next)) e) := by
  obtain ⟨hat, hne, hw⟩ := State.arrives_agent ha
  obtain ⟨first, rest, rfl⟩ := List.exists_cons_of_ne_nil hne
  simp only [execTret, hat, hw, hs, Bool.false_eq_true, if_false]
  rfl

theorem exec_stops {i : Instr} {s : State} {tids : List Nat} {j : Nat} {e : Stop} (hh : i.hdr?.isSome = true)
    (ha : s.arrives i tids = true) (hs : (s.landDue i tids).agentStop i tids = some (j, e)) :
    exec i s = .next ((s.landDue i tids).stop s.cur j (encodeWord i) e) := by
  by_cases htret : ∃ h next, i = .tret h next
  · obtain ⟨h, next, rfl⟩ := htret
    exact execTret_stops ha hs
  · exact (exec_course hh (fun h next hi => htret ⟨h, next, hi⟩) s).stops ha hs

/-! ## Steps 2 to 4 (R235) -/

/-- Of one thread the agent's stop is the thread's. -/
theorem State.agentStop_singleton {s : State} {i : Instr} {j : Nat} {t : Thread} {e : Stop} (ht : s.thread? j = some t)
    (he : s.decodeStop i t = some e) : s.agentStop i [j] = some (j, e) := by
  have hone : ∀ c : Thread → Option Stop, firstStop s c [j] = (c t).map fun e => (j, e) := fun c => by
    simp only [firstStop, ht, Option.bind_some]
    cases c t <;> rfl
  rw [State.agentStop, funext hone, ← Option.map_some (f := fun e => (j, e)), ← he, State.decodeStop, List.map_findSome?]
  rfl

theorem firstStop_eq_none_iff {s : State} {check : Thread → Option Stop} {l : List Nat} :
    firstStop s check l = none ↔ ∀ j ∈ l, ∀ t, s.thread? j = some t → check t = none := by
  induction l with
  | nil => simp only [firstStop, List.not_mem_nil, false_imp_iff, implies_true]
  | cons j l ih =>
    rw [List.forall_mem_cons, ← ih, firstStop]
    cases hb : (s.thread? j).bind check with
    | none => simp only [iff_and_self]; exact fun _ t ht => by rwa [ht] at hb
    | some e =>
      obtain ⟨t, ht, hc⟩ := Option.bind_eq_some_iff.1 hb
      simp only [false_iff, reduceCtorEq, not_and]
      exact fun h => absurd (h t ht) (by rw [hc]; exact nofun)

/-- The first thread that a check stops. -/
theorem firstStop_eq_some {s : State} {check : Thread → Option Stop} {l : List Nat} {j : Nat} {e : Stop}
    (h : firstStop s check l = some (j, e)) :
    ∃ (k : Nat) (t : Thread), l[k]? = some j ∧ s.thread? j = some t ∧ check t = some e ∧
      ∀ m j', m < k → l[m]? = some j' → ∀ u, s.thread? j' = some u → check u = none := by
  induction l with
  | nil => cases h
  | cons a l ih =>
    rw [firstStop] at h
    cases hb : (s.thread? a).bind check with
    | some x =>
      rw [hb] at h
      obtain ⟨rfl, rfl⟩ := Prod.mk.inj (Option.some.inj h)
      obtain ⟨t, ht, hc⟩ := Option.bind_eq_some_iff.1 hb
      exact ⟨0, t, rfl, ht, hc, fun m j' hm => absurd hm (Nat.not_lt_zero m)⟩
    | none =>
      rw [hb] at h
      obtain ⟨k, t, hk, ht, hc, hbefore⟩ := ih h
      refine ⟨k + 1, t, hk, ht, hc, fun m j' hm hj' u hu => ?_⟩
      cases m with
      | zero => obtain rfl : a = j' := Option.some.inj hj'; rwa [hu] at hb
      | succ m => exact hbefore m j' (Nat.lt_of_succ_lt_succ hm) hj' u hu

theorem State.agentStop_eq_none_iff {s : State} {i : Instr} {tids : List Nat} :
    s.agentStop i tids = none ↔ ∀ j ∈ tids, ∀ t, s.thread? j = some t → s.decodeStop i t = none := by
  simp only [State.agentStop, State.decodeStop, List.findSome?_eq_none_iff, firstStop_eq_none_iff]
  exact ⟨fun h j hj t ht c hc => h c hc j hj t ht, fun h c hc j hj t ht => h j hj t ht c hc⟩

/-- A fragment takes each step together: the first step that stops a thread, and the first thread that it stops. -/
theorem State.agentStop_eq_some {s : State} {i : Instr} {tids : List Nat} {j : Nat} {e : Stop}
    (h : s.agentStop i tids = some (j, e)) :
    ∃ (n : Nat) (c : Thread → Option Stop) (k : Nat) (t : Thread),
      (s.decodeSteps i)[n]? = some c ∧ tids[k]? = some j ∧ s.thread? j = some t ∧ c t = some e ∧
      (∀ m d, m < n → (s.decodeSteps i)[m]? = some d → ∀ j' ∈ tids, ∀ u, s.thread? j' = some u → d u = none) ∧
      (∀ m j', m < k → tids[m]? = some j' → ∀ u, s.thread? j' = some u → c u = none) := by
  obtain ⟨l1, c, l2, hsteps, hc, hbefore⟩ := List.findSome?_eq_some_iff.1 h
  obtain ⟨k, t, hk, ht, hct, hfirst⟩ := firstStop_eq_some hc
  refine ⟨l1.length, c, k, t, ?_, hk, ht, hct, fun m d hm hd => ?_, hfirst⟩
  · rw [hsteps, List.getElem?_append_right (Nat.le_refl _), Nat.sub_self]; rfl
  · rw [hsteps, List.getElem?_append_left hm] at hd
    exact firstStop_eq_none_iff.1 (hbefore d (List.mem_of_getElem? hd))

theorem State.decodeStop_eq_none_iff {s : State} {i : Instr} {t : Thread} :
    s.decodeStop i t = none ↔ wordStop (encodeWord i) t.section_.isSome = none ∧ t.regsBelow i.regUses = true ∧
      s.privStop t i = none ∧ s.bpHit t.ctx t.pc 8 [1] = none := by
  simp only [State.decodeStop, State.decodeSteps, List.findSome?_eq_none_iff, List.forall_mem_cons, List.not_mem_nil,
    false_imp_iff, implies_true, and_true, Option.map_eq_none_iff, ite_eq_left_iff, reduceCtorEq, imp_false, Bool.not_eq_true,
    Bool.not_eq_false]

/-- What state H alone may do (R344, R351). -/
theorem if_needsH_none {α : Type} {x : α} {b : Bool} {p : Priv} :
    (if b && p != .h then some x else none) = none ↔ b = false ∨ p = .h := by
  rw [ite_eq_right_iff, Bool.and_eq_true, bne_iff_ne]
  simp only [reduceCtorEq, imp_false, not_and, not_not]
  cases b <;> simp only [Bool.false_eq_true, false_imp_iff, true_imp_iff, reduceCtorEq, false_or, true_or]

theorem if_bne_h_none {α : Type} {x : α} {p : Priv} : (if p != .h then some x else none) = none ↔ p = .h := by
  rw [ite_eq_right_iff, bne_iff_ne]
  simp only [reduceCtorEq, imp_false, not_not]

/-! ## False guards (R222) -/

/-- Every thread of an agent goes on at PC + 8, and the issue counter has counted: the instruction retires with no effect. -/
theorem State.retires_idle (e : State) (tids : List Nat) :
    e.retires (((e.tallyIssue tids).updThreads tids fun t => { t with pc := t.pc + 8 }).issued none tids) tids := by
  refine ⟨?_, fun k => ?_⟩
  · rw [State.issued_eq, State.updThreads_tick, State.tallyIssue_tick]
    rfl
  · rw [State.issued_thread?, State.thread?_updThreads _ _ _ (by intro t; rfl), State.tallyIssue_thread?, Option.map_map,
      State.updThreads_tick, State.tallyIssue_tick]
    congr 1
    funext t
    by_cases hk : k ∈ tids
    · simp only [Function.comp, if_pos hk]
    · simp only [Function.comp, if_neg hk]

/-- An instruction that acts once does nothing where no guard is true (R269, R307). -/
theorem runOnce_of_idle {i : Instr} {h : Hdr} (hh : i.hdr? = some h) {s : State} {first : Nat} {rest : List Nat}
    {free : State → Except Stop State} {f : Coll → State → Except Stop (State × Bool)} (hi : s.issues i (first :: rest) = true)
    (ha : s.acting i (first :: rest) = []) :
    runOnce i s free f = .next ((((s.landed i (first :: rest)).tallyIssue (first :: rest)).updThreads (first :: rest)
      fun t => { t with pc := t.pc + 8 }).issued none (first :: rest)) := by
  obtain ⟨hat, -, -, hsk, -, hw⟩ := State.issues_agent hi
  have hact : ((s.landDue i (first :: rest)).lookUps i (first :: rest)).activeTids h (first :: rest) = [] := by
    rw [State.acting, hh] at ha; exact ha
  unfold runOnce
  rw [hat]
  simp only [hw, Bool.false_eq_true, if_false, State.issues_agentStop hi, hh, hact, List.isEmpty_nil, if_true, hsk]
  rfl

theorem exec_idle {i : Instr} {s : State} {tids : List Nat} (hh : i.hdr?.isSome = true) (htret : ∀ h next, i ≠ .tret h next)
    (hi : s.issues i tids = true) (ha : s.acting i tids = []) :
    ∃ s', exec i s = .next s' ∧ (s.landed i tids).retires s' tids := by
  have hcourse := exec_course hh htret s
  obtain ⟨h, hh⟩ := Option.isSome_iff_exists.1 hh
  generalize exec i s = o at hcourse ⊢
  cases hcourse with
  | staged stage body =>
    have hstage : runStage stage (s.acting i tids) (s.landed i tids) = .ok (s.landed i tids) := by rw [ha]; rfl
    have heach : (s.landed i tids).each (fun _ _ => none) (s.acting i tids) = some (s.landed i tids) := by rw [ha]; rfl
    exact runStaged_does hh hi hstage (.refl _) (fun _ _ _ _ _ hf => absurd hf.symm (Option.some_ne_none _))
      (fun _ _ _ _ hf => absurd hf.symm (Option.some_ne_none _)) heach
  | once free f =>
    obtain ⟨-, hne, -⟩ := State.issues_agent hi
    obtain ⟨first, rest, rfl⟩ := List.exists_cons_of_ne_nil hne
    exact ⟨_, runOnce_of_idle hh hi ha, State.retires_idle _ _⟩

/-- Settles O30: the course of every instruction stops at steps 2 to 4, and does nothing where no guard is true. -/
theorem decodeStopsAndGuards : Obligations.DecodeStopsAndGuards := by
  refine ⟨⟨fun i s tids j e => exec_stops, fun i s j t e hh ha ht he => exec_stops hh ha (State.agentStop_singleton ht he),
    fun i s tids => State.agentStop_eq_none_iff, fun i s tids j e => State.agentStop_eq_some,
    fun i s t => State.decodeStop_eq_none_iff, fun s t h d r => ?_, fun s t h a r => ?_, fun s t h next => ?_⟩,
    fun i s tids => exec_idle⟩
  · unfold State.privStop; exact if_needsH_none
  · unfold State.privStop; exact if_needsH_none
  · unfold State.privStop; exact if_bne_h_none

end Sys2Proof.Machine
end

section
/-! TRET and TRET.NEXT (R351). -/

namespace Sys2Proof.Machine

/-! ## Branch targets (R220, R263) -/

theorem aligned_ok {a : Dword} {n : Nat} {acc : Acc} (h : a.toNat % n = 0) : aligned a n acc = .ok () := if_pos h

theorem canon_ok {a : Dword} {acc : Acc} (h : canonical a = true) : canon a acc = .ok () := if_pos h

theorem branchOk_ok {a : Dword} (halign : a.toNat % 8 = 0) (hcanon : canonical a = true) : branchOk a = .ok () := by
  rw [branchOk, aligned_ok halign, canon_ok hcanon]; rfl

/-! ## What the results that land and the look-ups leave -/

theorem State.landed_mem (s : State) (i : Instr) (tids : List Nat) : (s.landed i tids).mem = s.mem := by
  obtain ⟨_, _, _, _, _, h⟩ := (s.landDue i tids).lookUps_looked i tids
  rw [State.landed, h]
  rfl

theorem State.landed_scratch (s : State) (i : Instr) (tids : List Nat) : (s.landed i tids).scratch = s.scratch := by
  obtain ⟨_, _, _, _, _, h⟩ := (s.landDue i tids).lookUps_looked i tids
  rw [State.landed, h]
  rfl

/-! ## TRET (R351) -/

/-- An instruction that looks up nothing in global memory leaves the home slices and the counts. -/
theorem State.lookUps_of_none {s : State} {i : Instr} {tids : List Nat} (h : ∀ t, lookedUp t i = []) : s.lookUps i tids = s := by
  refine List.foldl_fixed' (fun j => ?_) tids
  split
  · rw [h]; exact ite_self _
  · rfl

theorem State.landed_tret (h : Hdr) (next : Bool) (s : State) (tids : List Nat) :
    s.landed (.tret h next) tids = s.landDue (.tret h next) tids := State.lookUps_of_none fun _ => rfl

theorem exec_tret {h : Hdr} {next : Bool} {s : State} {tids : List Nat} (hi : s.issues (.tret h next) tids = true)
    (hok : ∀ j ∈ tids, ∀ t, (s.landed (.tret h next) tids).thread? j = some t → (t.tretTarget next).toNat % 8 = 0 ∧
      canonical (t.tretTarget next) = true) :
    exec (.tret h next) s = .next (((((s.landed (.tret h next) tids).tallyIssue tids).trapReturn s.cur next).splitAfter
      s.cur).issued none tids) := by
  obtain ⟨hat, hne, -, hskid, -, hw⟩ := State.issues_agent hi
  obtain ⟨first, rest, rfl⟩ := List.exists_cons_of_ne_nil hne
  rw [State.landed_tret] at hok ⊢
  have htarget : firstStop (s.landDue (.tret h next) (first :: rest)) (tretStop next) (first :: rest) = none :=
    firstStop_eq_none_iff.2 fun j hj t ht => by
      obtain ⟨halign, hcanon⟩ := hok j hj t ht
      rw [tretStop, branchOk_ok halign hcanon]
  show execTret h next s = _
  simp only [execTret, hat, hw, Bool.false_eq_true, if_false, State.issues_agentStop hi, htarget, Option.or_none, hskid]
  rfl

/-- A thread back in state U at the frame's address. -/
def Thread.returned (next : Bool) (t : Thread) : Thread :=
  { t with preds := t.frame.preds, priv := .u, status := .ready, pc := t.tretTarget next }

theorem Thread.tretTarget_eq (t : Thread) (next : Bool) : t.tretTarget next = t.frame.tpc + if next then 8 else 0 := by
  cases next
  · exact (BitVec.add_zero _).symm
  · rfl

theorem State.refreshAge_thread? (s : State) (l : List Nat) (k : Nat) :
    (s.refreshAge l).thread? k = (s.thread? k).map fun t => if k ∈ l then { t with age := s.tick } else t := by
  show (s.updThreads l fun t => { t with age := s.tick }).thread? k = _
  rw [State.thread?_updThreads _ _ _ (by intro t; rfl)]

theorem State.refreshAge_tick (s : State) (l : List Nat) : (s.refreshAge l).tick = s.tick + 1 := rfl

theorem State.trapReturn_thread (s : State) (tid : Nat) (next : Bool) :
    ((s.tallyIssue [tid]).trapReturn (.thread tid) next).splitAfter (.thread tid) =
      ((s.tallyIssue [tid]).updThreads [tid] (Thread.returned next)).refreshAge [tid] := rfl

/-- The threads after a free thread's TRET: its own is back, the others are as before. -/
theorem State.trapReturn_thread? (s : State) (tid k : Nat) (next : Bool) :
    ((((s.tallyIssue [tid]).trapReturn (.thread tid) next).splitAfter (.thread tid)).issued none [tid]).thread? k =
      (s.thread? k).map fun t =>
        if k = tid then Thread.windowStep { t.returned next with age := s.tick + 1 } else t := by
  rw [State.trapReturn_thread, State.issued_thread?, State.refreshAge_thread?, State.thread?_updThreads _ _ _ (by intro t; rfl),
    State.tallyIssue_thread?, Option.map_map, Option.map_map, State.refreshAge_tick, State.updThreads_tick,
    State.tallyIssue_tick]
  congr 1
  funext t
  by_cases hk : k = tid
  · simp only [Function.comp, List.mem_singleton, if_pos hk]
  · simp only [Function.comp, List.mem_singleton, if_neg hk]

theorem State.tallyIssue_mem (s : State) (l : List Nat) : (s.tallyIssue l).mem = s.mem := by rw [State.tallyIssue_eq]

theorem State.tallyIssue_scratch (s : State) (l : List Nat) : (s.tallyIssue l).scratch = s.scratch := by
  rw [State.tallyIssue_eq]

theorem State.issued_frame (s : State) (l : List Nat) :
    (s.issued none l).mem = s.mem ∧ (s.issued none l).scratch = s.scratch ∧ (s.issued none l).groups = s.groups :=
  ⟨rfl, rfl, rfl⟩

theorem State.trapReturn_frame (s : State) (tid : Nat) (next : Bool) :
    ((((s.tallyIssue [tid]).trapReturn (.thread tid) next).splitAfter (.thread tid)).issued none [tid]).mem = s.mem ∧
    ((((s.tallyIssue [tid]).trapReturn (.thread tid) next).splitAfter (.thread tid)).issued none [tid]).scratch = s.scratch ∧
    ((((s.tallyIssue [tid]).trapReturn (.thread tid) next).splitAfter (.thread tid)).issued none [tid]).groups = s.groups := by
  obtain ⟨hmem, hscratch, hgroups⟩ :=
    State.issued_frame (((s.tallyIssue [tid]).updThreads [tid] (Thread.returned next)).refreshAge [tid]) [tid]
  rw [State.trapReturn_thread]
  exact ⟨hmem.trans (s.tallyIssue_mem _), hscratch.trans (s.tallyIssue_scratch _), hgroups.trans (s.tallyIssue_groups _)⟩

/-- TRET of a free thread changes that thread alone. -/
theorem exec_tret_free {h : Hdr} {next : Bool} {s : State} {t : Thread} (hcur : s.cur = .thread t.tid)
    (hi : s.issues (.tret h next) [t.tid] = true) (ht : (s.landed (.tret h next) [t.tid]).thread? t.tid = some t)
    (halign : (t.tretTarget next).toNat % 8 = 0) (hcanon : canonical (t.tretTarget next) = true) :
    ∃ s' age, exec (.tret h next) s = .next s' ∧ s'.mem = s.mem ∧ s'.scratch = s.scratch ∧ s'.groups = s.groups ∧
      (∀ k, k ≠ t.tid → s'.thread? k = s.thread? k) ∧
      s'.thread? t.tid = some (Thread.windowStep { t.returned next with age }) := by
  have hexec := exec_tret hi fun j hj u hu => by
    obtain rfl := List.mem_singleton.1 hj
    obtain rfl := Option.some.inj (ht.symm.trans hu)
    exact ⟨halign, hcanon⟩
  rw [hcur] at hexec
  obtain ⟨hmem, hscratch, hgroups⟩ := (s.landed (.tret h next) [t.tid]).trapReturn_frame t.tid next
  refine ⟨_, (s.landed (.tret h next) [t.tid]).tick + 1, hexec, hmem.trans (s.landed_mem _ _), hscratch.trans (s.landed_scratch _ _),
    hgroups.trans (s.landed_groups _ _), fun k hk => ?_, ?_⟩
  · rw [State.trapReturn_thread?, State.landed_thread?]
    simp only [List.mem_singleton, if_neg hk, Option.map_id']
  · rw [State.trapReturn_thread?, ht, Option.map_some, if_pos rfl]

/-- Settles O29: TRET's course ends in `trapReturn`, which in a free thread changes that thread alone. -/
theorem trapReturnResults : Obligations.TrapReturnResults := by
  refine ⟨fun h next s tids => exec_tret, fun h next s t hcur hi ht halign hcanon => ?_⟩
  rw [← t.tretTarget_eq next] at halign hcanon ⊢
  obtain ⟨s', age, hexec, hmem, hscratch, hgroups, hother, hback⟩ := exec_tret_free hcur hi ht halign hcanon
  exact ⟨s', _, hexec, hmem, hscratch, hgroups, hother, hback, rfl, rfl, rfl, rfl, rfl, rfl⟩

end Sys2Proof.Machine
end

section
/-! The special registers, code, time, and the instructions that raise their traps (R344, R345, R355 to R359). -/

namespace Sys2Proof.Machine

/-! ## States with the same threads

A thread of a state is the first of its list with its number, so two lists may give the same threads. -/

/-- `s'` differs from `s` in its list of threads alone, and gives the same threads. -/
def State.Alike (s s' : State) : Prop := ∃ l, s' = { s with threads := l } ∧ ∀ k, s'.thread? k = s.thread? k

theorem State.Alike.refl (s : State) : s.Alike s := ⟨s.threads, rfl, fun _ => rfl⟩

/-- One thread changed in two ways that agree on it. -/
theorem State.Alike.updThread {s s' : State} (h : s.Alike s') {i : Nat} {f g : Thread → Thread}
    (hf : ∀ t, t.tid = i → (f t).tid = t.tid) (hg : ∀ t, t.tid = i → (g t).tid = t.tid)
    (hfg : ∀ t, s.thread? i = some t → g t = f t) : (s.updThread i f).Alike (s'.updThread i g) := by
  obtain ⟨l, rfl, hthread⟩ := h
  refine ⟨_, rfl, fun k => ?_⟩
  have hleft : (({ s with threads := l } : State).updThread i g).thread? k = (s.thread? k).map fun t => if k = i then g t else t := by
    rw [State.thread?_updThread _ _ _ hg, hthread]
  have hright : (s.updThread i f).thread? k = (s.thread? k).map fun t => if k = i then f t else t :=
    State.thread?_updThread _ _ _ hf k
  refine hleft.trans (Eq.trans ?_ hright.symm)
  by_cases hk : k = i
  · subst hk
    simp only [if_true]
    cases ht : s.thread? k with
    | none => rfl
    | some t => rw [Option.map_some, Option.map_some, hfg t ht]
  · simp only [if_neg hk]

/-- Counting does not look at the threads. -/
theorem State.tallyCore_with_threads (s : State) (k src n : Nat) (l : List Thread) :
    ({ s with threads := l } : State).tallyCore k src n = { s.tallyCore k src n with threads := l } := by
  unfold State.tallyCore
  by_cases h : (s.core k).perf.isEmpty = true
  · rw [if_pos h, if_pos (show (({ s with threads := l } : State).core k).perf.isEmpty = true from h)]
  · rw [if_neg h, if_neg (show ¬ (({ s with threads := l } : State).core k).perf.isEmpty = true from h)]
    rfl

theorem State.Alike.tallyIssue {s s' : State} (h : s.Alike s') (tids : List Nat) :
    s'.tallyIssue tids = { s.tallyIssue tids with threads := s'.threads } := by
  obtain ⟨l, rfl, hthread⟩ := h
  have hfun : ({ s with threads := l } : State).thread? = s.thread? := funext hthread
  unfold State.tallyIssue
  rw [hfun]
  cases (tids.head?.bind s.thread?).bind (·.place.coreIdx?) with
  | none => rfl
  | some k => exact s.tallyCore_with_threads k _ _ l

theorem State.Alike.retires {e e' s' : State} {tids : List Nat} (h : e.Alike e') (hr : e'.retires s' tids) :
    e.retires s' tids := by
  have htally := h.tallyIssue tids
  obtain ⟨l, rfl, hthread⟩ := h
  obtain ⟨hs, ht⟩ := hr
  refine ⟨hs.trans ?_, fun k => (ht k).trans (by rw [hthread])⟩
  rw [htally]

theorem State.each_alike {f g : Thread → State → Option State}
    (hfg : ∀ t s s' e, s.Alike s' → s.thread? t.tid = some t → f t s = some e → ∃ e', g t s' = some e' ∧ e.Alike e') (l : List Nat) :
    ∀ s s' e : State, s.Alike s' → s.each f l = some e → ∃ e', s'.each g l = some e' ∧ e.Alike e' := by
  induction l with
  | nil =>
    intro s s' e ha he
    obtain rfl := Option.some.inj he
    exact ⟨s', rfl, ha⟩
  | cons j l ih =>
    intro s s' e ha he
    rw [State.each] at he
    split at he
    · next m hm =>
      obtain ⟨t, ht, hf⟩ := Option.bind_eq_some_iff.1 hm
      obtain ⟨m', hg, hm'⟩ := hfg t s s' m ha (by rw [State.thread?_tid ht]; exact ht) hf
      obtain ⟨l', rfl, hthread⟩ := ha
      have hbind : (({ s with threads := l' } : State).thread? j).bind (fun t => g t { s with threads := l' }) = some m' := by
        rw [hthread, ht, Option.bind_some, hg]
      rw [State.each, hbind]
      exact ih m m' e hm' he
    · cases he

/-- An effect that agrees with another one up to the list of threads. -/
theorem Does.of_alike {i : Instr} {f g : Thread → State → Option State} (h : Does i g)
    (hfg : ∀ t s s' e, s.Alike s' → s.thread? t.tid = some t → f t s = some e → ∃ e', g t s' = some e' ∧ e.Alike e') :
    Does i f := by
  intro s tids hi e he
  obtain ⟨e', he', ha⟩ := State.each_alike hfg _ _ _ _ (.refl _) he
  obtain ⟨s', hs', hr⟩ := h s tids hi e' he'
  exact ⟨s', hs', ha.retires hr⟩

/-! ## The special registers, code and time (R344, R355 to R359) -/

theorem runState_stops {i : Instr} {h : Hdr} (hh : i.hdr? = some h) {s : State} {tids : List Nat} {first : Nat} {rest : List Nat}
    {f : Thread → State → Except Stop State} {e : Stop} (hi : s.issues i tids = true) (ha : s.acting i tids = first :: rest)
    (hf : ∀ t u, f t u = .error e) : runState i s f = .next ((s.landed i tids).stop s.cur first (encodeWord i) e) := by
  obtain ⟨hat, hne, -, -, -, hw⟩ := State.issues_agent hi
  obtain ⟨a, l, rfl⟩ := List.exists_cons_of_ne_nil hne
  have hact : ((s.landDue i (a :: l)).lookUps i (a :: l)).activeTids h (a :: l) = first :: rest := by
    rw [State.acting, hh] at ha; exact ha
  obtain ⟨t, ht⟩ : ∃ t, ((s.landDue i (a :: l)).lookUps i (a :: l)).thread? first = some t := by
    have hmem : first ∈ s.acting i (a :: l) := by rw [ha]; exact List.mem_cons_self
    obtain ⟨u, hu, -⟩ := State.issues_thread hi ((s.acting_sublist i (a :: l)).subset hmem)
    exact ⟨_, (s.landed_thread? i (a :: l) first).trans (by rw [hu]; rfl)⟩
  unfold runState runThreads runStaged
  rw [hat]
  simp only [hw, Bool.false_eq_true, if_false, State.issues_agentStop hi, hh, hact, runStage_ok, runBodies, ht, hf]
  rfl

theorem traps_of {i : Instr} {h : Hdr} (hh : i.hdr? = some h) {x : Trap} {f : Thread → State → Except Stop State}
    (he : ∀ s, exec i s = runState i s f) (hf : ∀ t u, f t u = .error (.trap x)) : Traps i x :=
  fun s _ _ _ hi ha => (he s).trans (runState_stops hh hi ha hf)

theorem State.keeps_updThread_of {s : State} {i : Nat} {f : Thread → Thread} (hpc : ∀ t, (f t).pc = t.pc)
    (htid : ∀ t : Thread, (f t).tid = t.tid) : s.Keeps (s.updThread i f) :=
  State.keeps_updThread _ _ _ (fun t _ => hpc t) fun t _ => htid t

/-- An instruction that changes its thread, by a function that may read what the threads are not part of. -/
theorem does_thread {i : Instr} {h : Hdr} (hh : i.hdr? = some h) {g : Thread → State → Except Stop State}
    {ok : Thread → State → Bool} {f f' : Thread → State → Thread → Thread} (he : ∀ s, exec i s = runState i s g)
    (hg : ∀ t s, ok t s = true → g t s = .ok (s.updThread t.tid (f' t s)))
    (hstays : ∀ t s u, (f t s u).tid = u.tid ∧ (f' t s u).tid = u.tid ∧ (f' t s u).pc = u.pc)
    (hsame : ∀ (t : Thread) (s : State) l, (∀ k, ({ s with threads := l } : State).thread? k = s.thread? k) →
      f' t { s with threads := l } t = f t s t ∧ ok t { s with threads := l } = ok t s) :
    Does i fun t s => if ok t s then some (s.updThread t.tid (f t s)) else none := by
  have hdoes : Does i fun t s => if ok t s then some (s.updThread t.tid (f' t s)) else none := by
    refine does_of hh he (fun t s e hf => ?_) (fun t s e _ hf => ?_)
    · split at hf
      · next hok => rw [hg t s hok]; exact congrArg _ (Option.some.inj hf)
      · cases hf
    · split at hf
      · obtain rfl := Option.some.inj hf
        exact State.keeps_updThread_of (fun u => (hstays t s u).2.2) fun u => (hstays t s u).2.1
      · cases hf
  refine hdoes.of_alike fun t s s' e ha ht hf => ?_
  split at hf
  · next hok =>
    obtain rfl := Option.some.inj hf
    have hupd := fun x => ha.updThread (i := t.tid) (f := f t s) (g := f' t s') (fun u _ => (hstays t s u).1)
      (fun u _ => (hstays t s' u).2.1) x
    obtain ⟨l, rfl, hthread⟩ := ha
    obtain ⟨hval, hok'⟩ := hsame t s l hthread
    refine ⟨_, if_pos (hok'.trans hok), hupd fun u hu => ?_⟩
    obtain rfl := Option.some.inj (ht.symm.trans hu)
    exact hval
  · cases hf

theorem State.sysReg_with_threads (s : State) (l : List Thread) (t : Thread) (r : SysReg) :
    ({ s with threads := l } : State).sysReg t r = s.sysReg t r := by
  cases r <;> rfl

theorem does_srd (h : Hdr) (d : GReg) (r : SysReg) : Does (.srd h d r) fun t s =>
    some (s.updThread t.tid fun t =>
      if r.wide then t.putPair d (s.sysReg t r) .i32 .i32 else t.put d (loWord (s.sysReg t r)) .i32) := by
  refine does_thread (ok := fun _ _ => true) (f := fun _ s t =>
    if r.wide then t.putPair d (s.sysReg t r) .i32 .i32 else t.put d (loWord (s.sysReg t r)) .i32)
    (f' := fun t s u => if r.wide then u.putPair d (s.sysReg t r) .i32 .i32 else u.put d (loWord (s.sysReg t r)) .i32) rfl
    (fun _ => rfl) (fun _ _ _ => rfl) (fun t s u => ?_) fun t s l _ => ⟨?_, rfl⟩
  · cases r.wide <;> exact ⟨rfl, rfl, rfl⟩
  · rw [State.sysReg_with_threads]

theorem State.sysReg_of_thread {s : State} {t : Thread} (hsec : t.section_ = none) (r : SysReg) :
    s.sysReg t r = s.srdThread t r := by
  rw [State.sysReg, hsec]; exact if_neg Bool.false_ne_true

/-- A free thread's group registers: it belongs to none. -/
theorem State.srdThread_free {s : State} {t : Thread} (hm : t.member = none) :
    s.srdThread t .group = 0xFFFFFFFF ∧ s.srdThread t .grank = 0 ∧ s.srdThread t .gsize = 1 ∧ s.srdThread t .frag = 0 := by
  unfold State.srdThread
  rw [hm]
  exact ⟨rfl, rfl, rfl, rfl⟩

/-- What SWR makes of a state, for the registers that can be written. -/
theorem State.swr_eq {s e : State} {t : Thread} {r : SysReg} {a : GReg}
    (h : (match r with
      | .tpc => some (s.updThread t.tid fun t => { t with frame := { t.frame with tpc := t.pair a } })
      | .tpred => some (s.updThread t.tid fun t => { t with frame := { t.frame with preds := (t.val a).setWidth 7 } })
      | .bpctl => if t.val a &&& 0xE0E0E0E0 = 0 then some (s.updCtx t.ctx fun x => { x with bpctl := t.val a }) else none
      | .bpa i => some (s.updCtx t.ctx fun x => { x with bpa := x.bpa.set i.toNat (t.pair a) })
      | _ => none) = some e) : s.swr t r a = .ok e ∧ s.Keeps e := by
  cases r with
  | tpc | tpred =>
    obtain rfl := Option.some.inj h
    exact ⟨rfl, State.keeps_updThread_of (fun _ => rfl) fun _ => rfl⟩
  | bpctl =>
    dsimp only at h
    split at h
    · next hzero =>
      obtain rfl := Option.some.inj h
      exact ⟨if_neg (not_not.2 hzero), .of_threads rfl rfl⟩
    · cases h
  | bpa i =>
    obtain rfl := Option.some.inj h
    exact ⟨rfl, .of_threads rfl rfl⟩
  | _ => cases h

theorem does_swr (h : Hdr) (r : SysReg) (a : GReg) : Does (.swr h r a) fun t s =>
    match r with
    | .tpc => some (s.updThread t.tid fun t => { t with frame := { t.frame with tpc := t.pair a } })
    | .tpred => some (s.updThread t.tid fun t => { t with frame := { t.frame with preds := (t.val a).setWidth 7 } })
    | .bpctl => if t.val a &&& 0xE0E0E0E0 = 0 then some (s.updCtx t.ctx fun x => { x with bpctl := t.val a }) else none
    | .bpa i => some (s.updCtx t.ctx fun x => { x with bpa := x.bpa.set i.toNat (t.pair a) })
    | _ => none :=
  does_of rfl (fun _ => rfl) (fun _ _ _ hf => (State.swr_eq hf).1) fun _ _ _ _ hf => (State.swr_eq hf).2

theorem does_icinv (h : Hdr) (a b : GReg) :
    Does (.icinv h a b) fun t s => some (s.icinv t.ctx (t.pair a) (t.val b).toNat) := by
  refine does_of rfl (fun _ => rfl) (fun t s e hf => congrArg _ (Option.some.inj hf)) fun t s e _ hf => ?_
  obtain rfl := Option.some.inj hf
  exact .of_threads rfl rfl

theorem State.mem_icinv {s : State} {c : Nat} {va : Dword} {n : Nat} {e : Nat × Nat × Dword} :
    e ∈ (s.icinv c va n).icache ↔ e ∈ s.icache ∧ ∀ k ∈ s.rangeKeys c va n,
      ¬(k.1 / 1024 ≤ e.2.1 / 1024 ∧ e.2.1 / 1024 ≤ (k.1 + k.2 - 1) / 1024) := by
  simp only [State.icinv, List.mem_filter, Bool.not_eq_true', List.any_eq_false, Bool.and_eq_true, decide_eq_true_eq]

theorem does_clk (h : Hdr) (cyc : Bool) (d : GReg) : Does (.clk h cyc d) fun t s =>
    if t.pend.all (·.known) then
      some (s.updThread t.tid fun t =>
        t.commitAll.putPair d (if cyc then (if t.section_.isSome then s.lcCycles else s.cycles) else s.time) .i32 .i32)
    else none := by
  refine does_thread (ok := fun t _ => t.pend.all (·.known))
    (f := fun _ s t => t.commitAll.putPair d (if cyc then (if t.section_.isSome then s.lcCycles else s.cycles) else s.time)
      .i32 .i32)
    (f' := fun t s u => u.commitAll.putPair d (if cyc then s.cyclesOf t else s.time) .i32 .i32) rfl (fun _ => rfl)
    (fun t s hok => ?_) (fun t s u => ⟨rfl, rfl, rfl⟩) fun t s l _ => ⟨rfl, rfl⟩
  have hknown : t.pend.any (!·.known) = false := by
    rw [List.any_eq_false]
    intro p hp
    rw [List.all_eq_true.1 hok p hp]
    exact Bool.false_ne_true
  simp only [hknown, Bool.false_eq_true, if_false]

theorem does_perfRd (h : Hdr) (d : GReg) (n : BitVec 3) : Does (.perfRd h d n) fun t s =>
    let k := (s.core (t.place.coreIdx?.getD 0)).perf.get ({} : Counter) n.toNat
    some (s.updThread t.tid fun t => t.putPair d k.value .i32 .i32) := by
  refine does_of rfl (fun _ => rfl) (fun t s e hf => congrArg _ (Option.some.inj hf)) fun t s e _ hf => ?_
  obtain rfl := Option.some.inj hf
  exact State.keeps_updThread_of (fun _ => rfl) fun _ => rfl

/-- PERF.CFG is privileged in every thread of a core (R359). -/
theorem exec_perfCfg {h : Hdr} {n : BitVec 3} {a : GReg} {s : State} {t : Thread} {first : Nat} {rest : List Nat}
    (harr : s.arrives (.perfCfg h n a) (first :: rest) = true)
    (ht : (s.landDue (.perfCfg h n a) (first :: rest)).thread? first = some t)
    (hok : ∀ j ∈ first :: rest, ∀ u, (s.landDue (.perfCfg h n a) (first :: rest)).thread? j = some u →
      wordStop (encodeWord (.perfCfg h n a)) u.section_.isSome = none ∧ u.regsBelow (Instr.perfCfg h n a).regUses = true) :
    exec (.perfCfg h n a) s = .next ((s.landDue (.perfCfg h n a) (first :: rest)).stop s.cur first
      (encodeWord (.perfCfg h n a)) (.trap { cause := cPriv, detail0 := n.setWidth 64 })) := by
  have hword : firstStop (s.landDue (.perfCfg h n a) (first :: rest))
      (fun t => (wordStop (encodeWord (.perfCfg h n a)) t.section_.isSome).map trapOf) (first :: rest) = none :=
    firstStop_eq_none_iff.2 fun j hj u hu => by rw [(hok j hj u hu).1]; rfl
  have hregs : firstStop (s.landDue (.perfCfg h n a) (first :: rest))
      (fun t => if t.regsBelow (Instr.perfCfg h n a).regUses then none else some (trapOf cIllegalField)) (first :: rest) = none :=
    firstStop_eq_none_iff.2 fun j hj u hu => if_pos (hok j hj u hu).2
  have hpriv : firstStop (s.landDue (.perfCfg h n a) (first :: rest))
      (fun t => ((s.landDue (.perfCfg h n a) (first :: rest)).privStop t (.perfCfg h n a)).map fun n =>
        .trap { cause := cPriv, detail0 := BitVec.ofNat 64 n }) (first :: rest) =
      some (first, .trap { cause := cPriv, detail0 := n.setWidth 64 }) := by
    refine firstStop_head ht ?_
    unfold State.privStop
    exact congrArg (fun x => some (Stop.trap { cause := cPriv, detail0 := x })) (BitVec.ofNat_toNat 64 n)
  refine exec_stops rfl harr ?_
  simp only [State.agentStop, State.decodeSteps, List.findSome?_cons, hword, hregs, hpriv]

/-- Settles O27: each instruction by its rule; PERF.CFG stops at step 4 of R235. -/
theorem systemAndTrapInstructions : Obligations.SystemAndTrapInstructions := by
  refine ⟨⟨does_srd, fun s t hsec => ?_, fun h r a _ => does_swr h r a, does_icinv, fun s c va n e => State.mem_icinv,
    fun h => runs_of rfl (fun _ => rfl) (fun _ => ⟨rfl, rfl, rfl⟩) fun _ => rfl, does_clk, does_perfRd⟩,
    fun h imm => traps_of rfl (fun _ => rfl) fun _ _ => rfl, fun h imm => traps_of rfl (fun _ => rfl) fun _ _ => rfl,
    fun h n a s t first rest => exec_perfCfg⟩
  simp only [State.sysReg_of_thread hsec]
  exact ⟨rfl, rfl, rfl, rfl, rfl, rfl, State.srdThread_free, rfl⟩

end Sys2Proof.Machine
end

section
/-! What accesses of memory leave: a load changes the caches and the counts alone, a store memory with them (R84, R85, R273). -/

namespace Sys2Proof.Machine

/-! ## Loads -/

/-- `e` differs from `s` in the caches, the home slices and the counts alone. -/
def State.Cached (s e : State) : Prop :=
  ∃ l1 l1Old l2 lcL2 home counts windowCounts dieCounters cores,
    e = { s with l1, l1Old, l2, lcL2, home, counts, windowCounts, dieCounters, cores }

theorem State.Cached.refl (s : State) : s.Cached s := ⟨_, _, _, _, _, _, _, _, _, rfl⟩

theorem State.Cached.trans {a b c : State} (h : a.Cached b) (g : b.Cached c) : a.Cached c := by
  obtain ⟨_, _, _, _, _, _, _, _, _, rfl⟩ := h
  obtain ⟨_, _, _, _, _, _, _, _, _, rfl⟩ := g
  exact ⟨_, _, _, _, _, _, _, _, _, rfl⟩

theorem State.Cached.eq {s e : State} (h : s.Cached e) : e = { s with
    l1 := e.l1, l1Old := e.l1Old, l2 := e.l2, lcL2 := e.lcL2, home := e.home, counts := e.counts
    windowCounts := e.windowCounts, dieCounters := e.dieCounters, cores := e.cores } := by
  obtain ⟨_, _, _, _, _, _, _, _, _, rfl⟩ := h
  rfl

theorem State.Looked.cached {s e : State} (h : s.Looked e) : s.Cached e := by
  obtain ⟨_, _, _, _, _, rfl⟩ := h
  exact ⟨_, _, _, _, _, _, _, _, _, rfl⟩

theorem State.cached_foldl {α : Type} (f : State → α → State) (hf : ∀ (s : State) a, s.Cached (f s a)) (l : List α) (s : State) :
    s.Cached (l.foldl f s) := by
  induction l generalizing s with
  | nil => exact .refl s
  | cons a l ih => exact (hf s a).trans (ih _)

theorem State.l1Counted_cached (s : State) (k sector : Nat) : s.Cached (s.l1Counted k sector) := by
  unfold State.l1Counted
  split
  · exact (s.tallyCore_looked ..).cached
  · exact .refl s

theorem State.l2Read_cached (s : State) (c : Option Nat) (key n keep : Nat) : s.Cached (s.l2Read c key n keep) :=
  ⟨_, _, _, _, _, _, _, _, _, rfl⟩

theorem State.dieRead_cached (s : State) (die : Nat) (c : Option Nat) (sector keep : Nat) : s.Cached (s.dieRead die c sector keep) :=
  ⟨_, _, _, _, _, _, _, _, _, rfl⟩

theorem State.l1Drop_cached (s : State) (k : Nat) (gone : Nat → Bool) : s.Cached (s.l1Drop k gone) :=
  ⟨_, _, _, _, _, _, _, _, _, rfl⟩

theorem State.l1Fill_cached (s : State) (k sector ch : Nat) : s.Cached (s.l1Fill k sector ch) := by
  have hread : s.Cached (if (s.l1Counted k sector).cacheHolds k sector then s.l1Counted k sector
      else (s.l1Counted k sector).dieRead (cacheDie k) (s.l1Counted k sector).actingCtx sector (l2Keep ch)) := by
    split
    · exact s.l1Counted_cached ..
    · exact (s.l1Counted_cached ..).trans (State.dieRead_cached ..)
  exact hread.trans ⟨_, _, _, _, _, _, _, _, _, rfl⟩

theorem State.readSector_cached (s : State) (k sector ch : Nat) : s.Cached (s.readSector k sector ch) := by
  unfold State.readSector
  split
  · exact ((s.l1Counted_cached ..).trans (State.dieRead_cached ..)).trans (State.l1Drop_cached ..)
  · exact s.l1Fill_cached ..

theorem State.loadFill_cached (s : State) (t : Thread) (va : Dword) (ch : Nat) : s.Cached (s.loadFill t va ch) := by
  unfold State.loadFill
  split
  · exact s.readSector_cached ..
  · exact .refl s

theorem State.localFill_cached (s : State) (t : Thread) (off ch : Nat) : s.Cached (s.localFill t off ch) := by
  unfold State.localFill
  split
  · exact s.readSector_cached ..
  · exact s.loadFill_cached ..

/-! ## Stores -/

/-- `e` differs from `s` in memory, its caches and home slices, the counts and the kick registers alone. -/
def State.Stored (s e : State) : Prop :=
  ∃ mem dirty shadow poison l1 l1Old l2 lcL2 home counts windowCounts dieCounters cores queues,
    e = { s with mem, dirty, shadow, poison, l1, l1Old, l2, lcL2, home, counts, windowCounts, dieCounters, cores, queues }

theorem State.Stored.refl (s : State) : s.Stored s := ⟨_, _, _, _, _, _, _, _, _, _, _, _, _, _, rfl⟩

theorem State.Stored.trans {a b c : State} (h : a.Stored b) (g : b.Stored c) : a.Stored c := by
  obtain ⟨_, _, _, _, _, _, _, _, _, _, _, _, _, _, rfl⟩ := h
  obtain ⟨_, _, _, _, _, _, _, _, _, _, _, _, _, _, rfl⟩ := g
  exact ⟨_, _, _, _, _, _, _, _, _, _, _, _, _, _, rfl⟩

theorem State.Cached.stored {s e : State} (h : s.Cached e) : s.Stored e := by
  obtain ⟨_, _, _, _, _, _, _, _, _, rfl⟩ := h
  exact ⟨_, _, _, _, _, _, _, _, _, _, _, _, _, _, rfl⟩

theorem State.Looked.stored {s e : State} (h : s.Looked e) : s.Stored e := h.cached.stored

theorem State.Stored.threads {s e : State} (h : s.Stored e) : e.threads = s.threads := by
  obtain ⟨_, _, _, _, _, _, _, _, _, _, _, _, _, _, rfl⟩ := h
  rfl

theorem State.Stored.groups {s e : State} (h : s.Stored e) : e.groups = s.groups := by
  obtain ⟨_, _, _, _, _, _, _, _, _, _, _, _, _, _, rfl⟩ := h
  rfl

theorem State.Stored.scratch {s e : State} (h : s.Stored e) : e.scratch = s.scratch := by
  obtain ⟨_, _, _, _, _, _, _, _, _, _, _, _, _, _, rfl⟩ := h
  rfl

theorem State.Stored.cells {s e : State} (h : s.Stored e) : e.cells = s.cells := by
  obtain ⟨_, _, _, _, _, _, _, _, _, _, _, _, _, _, rfl⟩ := h
  rfl

theorem State.Stored.keeps {s e : State} (h : s.Stored e) : s.Keeps e := .of_threads h.threads h.groups

theorem State.Stored.thread? {s e : State} (h : s.Stored e) (k : Nat) : e.thread? k = s.thread? k :=
  State.thread?_of_threads h.threads k

theorem State.Cached.mem {s e : State} (h : s.Cached e) : e.mem = s.mem := by
  obtain ⟨_, _, _, _, _, _, _, _, _, rfl⟩ := h
  rfl

theorem State.putMemAs_stored (s : State) (c : Option Nat) (keep key : Nat) (l : List Byte) :
    s.Stored (s.putMemAs c keep key l) := ⟨_, _, _, _, _, _, _, _, _, _, _, _, _, _, rfl⟩

theorem State.storeMem_stored (s : State) (k c keep key : Nat) (l : List Byte) : s.Stored (s.storeMem k c keep key l) :=
  ⟨_, _, _, _, _, _, _, _, _, _, _, _, _, _, rfl⟩

theorem State.threadStore_stored (s : State) (t : Thread) (key : Nat) (l : List Byte) (ch : Nat) :
    s.Stored (s.threadStore t key l ch) := by
  unfold State.threadStore
  split
  · exact s.storeMem_stored ..
  · exact s.putMemAs_stored ..

theorem State.kick_stored (s : State) (q : Nat) (w : Word) : s.Stored (s.kick q w) := by
  unfold State.kick
  dsimp only
  split
  · exact ⟨_, _, _, _, _, _, _, _, _, _, _, _, _, _, rfl⟩
  · exact .refl s

/-- Memory after a thread's store: the bytes at their place. -/
theorem State.threadStore_mem (s : State) (t : Thread) (key : Nat) (l : List Byte) (ch : Nat) :
    (s.threadStore t key l ch).mem = putBytes s.mem key l := by
  unfold State.threadStore
  split <;> rfl

theorem State.kick_mem (s : State) (q : Nat) (w : Word) : (s.kick q w).mem = s.mem := by
  unfold State.kick
  dsimp only
  split <;> rfl

theorem State.dataStore_stored {s e : State} {t : Thread} {va : Dword} {l : List Byte} {kicks : Bool} {ch : Nat}
    (h : s.dataStore t va l kicks ch = .ok e) : s.Stored e := by
  unfold State.dataStore at h
  split at h
  · cases h
  · obtain rfl := Except.ok.inj h; exact s.threadStore_stored ..
  · obtain rfl := Except.ok.inj h; exact s.kick_stored ..
  · cases h

theorem State.localStore_stored {s e : State} {t : Thread} {off : Nat} {l : List Byte} {ch : Nat}
    (h : s.localStore t off l ch = .ok e) : s.Stored e := by
  unfold State.localStore at h
  split at h
  · obtain rfl := Except.ok.inj h; exact s.threadStore_stored ..
  · exact State.dataStore_stored h

end Sys2Proof.Machine
end

section
/-! Branches, calls and returns, and the spill area of the return stack (R263 to R267). -/

namespace Sys2Proof.Machine

/-! ## Effects that agree up to the list of threads -/

theorem State.Alike.flows {e e' s' : State} {a : Actor} {tids : List Nat} {l : List (Nat × Dword)} {fall : Dword}
    (h : e.Alike e') (hf : e'.flows s' a tids l fall) : e.flows s' a tids l fall := by
  have htally := h.tallyIssue tids
  obtain ⟨th, rfl, hthread⟩ := h
  obtain ⟨hs, ht, hg⟩ := hf
  exact ⟨hs.trans (by rw [htally]), fun k => (ht k).trans (by rw [hthread]), hg⟩

theorem State.eachFlow_alike {f g : Thread → State → Option (State × Dword)}
    (hfg : ∀ t s s' e pc, s.Alike s' → s.thread? t.tid = some t → f t s = some (e, pc) →
      ∃ e', g t s' = some (e', pc) ∧ e.Alike e') (l : List Nat) :
    ∀ (s s' : State) r, s.Alike s' → s.eachFlow f l = some r → ∃ e', s'.eachFlow g l = some (e', r.2) ∧ r.1.Alike e' := by
  induction l with
  | nil =>
    intro s s' r ha he
    obtain rfl := Option.some.inj he
    exact ⟨s', rfl, ha⟩
  | cons j l ih =>
    intro s s' r ha he
    rw [State.eachFlow] at he
    split at he
    · next m pc hm =>
      obtain ⟨q, hq, rfl⟩ := Option.map_eq_some_iff.1 he
      obtain ⟨t, ht, hf⟩ := Option.bind_eq_some_iff.1 hm
      obtain ⟨m', hg, hm'⟩ := hfg t s s' m pc ha (by rw [State.thread?_tid ht]; exact ht) hf
      obtain ⟨th, rfl, hthread⟩ := ha
      have hbind : (({ s with threads := th } : State).thread? j).bind (fun t => g t { s with threads := th }) = some (m', pc) := by
        rw [hthread, ht, Option.bind_some, hg]
      obtain ⟨e', he', hae⟩ := ih m m' q hm' hq
      exact ⟨e', by rw [State.eachFlow, hbind]; simp only [he', Option.map_some], hae⟩
    · cases he

/-- A control instruction whose effect agrees with another one up to the list of threads. -/
theorem Flows.of_alike {i : Instr} {f g : Thread → State → Option (State × Dword)} (h : Flows i g)
    (hfg : ∀ t s s' e pc, s.Alike s' → s.thread? t.tid = some t → f t s = some (e, pc) →
      ∃ e', g t s' = some (e', pc) ∧ e.Alike e') : Flows i f := by
  intro s first rest t r hi ht he
  obtain ⟨e', he', ha⟩ := State.eachFlow_alike hfg _ _ _ _ (.refl _) he
  obtain ⟨s', hs', hf⟩ := h s first rest t (e', r.2) hi ht he'
  exact ⟨s', hs', ha.flows hf⟩

/-- A control instruction that reads its thread and says where it goes. -/
theorem flows_of {i : Instr} {h : Hdr} (hh : i.hdr? = some h) {f : Thread → State → Option (State × Dword)}
    {g : Thread → State → Except Stop (State × Next)} (he : ∀ s, exec i s = runFlow i s g)
    (hg : ∀ t s e pc, f t s = some (e, pc) → g t s = .ok (e, .jump pc) ∧ s.Keeps e) : Flows i f :=
  runThreads_flows hh he (fun j t s1 s2 pc ht hf => by simp only [ht, (hg t s1 s2 pc hf).1])
    fun t s1 s2 pc _ hf => (hg t s1 s2 pc hf).2

/-! ## Branches (R263) -/

theorem branchTo_of_ok {s e : State} {a pc : Dword}
    (h : (if a.toNat % 8 = 0 ∧ canonical a = true then some (s, a) else none) = some (e, pc)) :
    branchTo s a = .ok (e, .jump pc) ∧ s.Keeps e := by
  split at h
  · next hok =>
    obtain ⟨rfl, rfl⟩ := Prod.mk.inj (Option.some.inj h)
    exact ⟨by rw [branchTo, branchOk_ok hok.1 hok.2], .refl s⟩
  · cases h

/-! ## The return stack (R265, R266) -/

theorem State.pushReturn_of_room {s : State} {t : Thread} {ret : Dword} (h : t.rstack.length < 8) :
    s.pushReturn t ret = .ok (s.updThread t.tid fun t => { t with rstack := ret :: t.rstack }) := if_pos h

theorem State.pushReturn_keeps {s e : State} {t : Thread} {ret : Dword} (h : s.pushReturn t ret = .ok e) : s.Keeps e := by
  unfold State.pushReturn at h
  split at h
  · obtain rfl := Except.ok.inj h; exact State.keeps_updThread_of (fun _ => rfl) fun _ => rfl
  · split at h
    · cases h
    · split at h
      · cases h
      · split at h
        · cases h
        · next hstore =>
          obtain rfl := Except.ok.inj h
          exact (State.localStore_stored hstore).keeps.trans (State.keeps_updThread_of (fun _ => rfl) fun _ => rfl)

theorem State.pushReturn_spills {s e : State} {t : Thread} {ret : Dword} (hfull : 8 ≤ t.rstack.length)
    (hroom : t.spilled ≠ t.spillBytes / 8) (halign : (t.spillAddr t.spilled).toNat % 8 = 0)
    (hstore : s.localStore t (t.tlsBytes + 8 * t.spilled) (natLe 8 (t.rstack.getLastD 0).toNat) = .ok e) :
    s.pushReturn t ret = .ok (e.updThread t.tid fun t =>
      { t with rstack := ret :: t.rstack.dropLast, spilled := t.spilled + 1 }) := by
  unfold State.pushReturn
  rw [if_neg (Nat.not_lt.2 hfull), if_neg hroom, if_neg (not_not.2 halign)]
  simp only [Thread.spillOff, hstore]

theorem State.pushReturn_full {s : State} {t : Thread} {ret : Dword} (hfull : 8 ≤ t.rstack.length)
    (hroom : t.spilled = t.spillBytes / 8) : s.pushReturn t ret = .error (.trap { cause := 0x0D, detail0 := 0 }) := by
  unfold State.pushReturn
  rw [if_neg (Nat.not_lt.2 hfull), if_pos hroom]
  rfl

theorem State.pushReturn_misaligned {s : State} {t : Thread} {ret : Dword} (hfull : 8 ≤ t.rstack.length)
    (hroom : t.spilled ≠ t.spillBytes / 8) (halign : (t.spillAddr t.spilled).toNat % 8 ≠ 0) :
    s.pushReturn t ret = .error (.trap { cause := 0x04, faddr := t.spillAddr t.spilled, acc := .write }) := by
  unfold State.pushReturn
  rw [if_neg (Nat.not_lt.2 hfull), if_neg hroom, if_pos halign]
  rfl

theorem Thread.spillAddr_eq (t : Thread) (n : Nat) :
    t.spillAddr n = BitVec.ofNat 64 (t.tlsBytes + 8 * n) + if t.section_.isSome then 0 else t.tlsBase := by
  unfold Thread.spillAddr
  split
  · exact (BitVec.add_zero _).symm
  · exact BitVec.add_comm _ _

theorem State.popReturn_onChip {s : State} {t : Thread} {pc : Dword} {rest : List Dword} (h : t.rstack = pc :: rest) :
    s.popReturn t = .ok (pc, { t with rstack := rest }) := by
  unfold State.popReturn; rw [h]

theorem State.popReturn_misaligned {s : State} {t : Thread} (hempty : t.rstack = []) (hspill : t.spilled ≠ 0)
    (halign : (t.spillAddr (t.spilled - 1)).toNat % 8 ≠ 0) :
    s.popReturn t = .error (.trap { cause := 0x04, faddr := t.spillAddr (t.spilled - 1) }) := by
  unfold State.popReturn
  rw [hempty]
  simp only [if_neg hspill, if_pos halign]
  rfl

theorem State.popReturn_spilled {s : State} {t : Thread} {l : List Byte} (hempty : t.rstack = []) (hspill : t.spilled ≠ 0)
    (halign : (t.spillAddr (t.spilled - 1)).toNat % 8 = 0)
    (hload : s.localLoad t (t.tlsBytes + 8 * (t.spilled - 1)) 8 0 false = .ok l) :
    s.popReturn t = .ok (BitVec.ofNat 64 (leNat l), { t with spilled := t.spilled - 1 }) := by
  unfold State.popReturn
  rw [hempty]
  simp only [if_neg hspill, if_neg (not_not.2 halign), Thread.spillOff, hload]

theorem State.popReturn_empty {s : State} {t : Thread} (hempty : t.rstack = []) (hspill : t.spilled = 0) :
    s.popReturn t = .error (.trap { cause := 0x0D, detail0 := 1 }) := by
  unfold State.popReturn
  rw [hempty]
  exact if_pos hspill

/-- A pop leaves the thread's number and PC. -/
theorem State.popReturn_stays {s : State} {t u : Thread} {pc : Dword} (h : s.popReturn t = .ok (pc, u)) :
    u.tid = t.tid ∧ u.pc = t.pc := by
  unfold State.popReturn at h
  split at h
  · obtain ⟨-, rfl⟩ := Prod.mk.inj (Except.ok.inj h); exact ⟨rfl, rfl⟩
  · split at h
    · cases h
    · split at h
      · cases h
      · split at h
        · cases h
        · obtain ⟨-, rfl⟩ := Prod.mk.inj (Except.ok.inj h); exact ⟨rfl, rfl⟩

/-! ## Calls and returns (R264 to R266) -/

/-- A call pushes its return address and goes to its target. -/
theorem callTo_of_ok {t : Thread} {s e : State} {a pc : Dword}
    (h : (if a.toNat % 8 = 0 ∧ canonical a = true then (okOf (s.pushReturn t (t.pc + 8))).map fun e => (e, a) else none) =
      some (e, pc)) : callTo t s a = .ok (e, .jump pc) ∧ s.Keeps e := by
  split at h
  · next hok =>
    obtain ⟨m, hm, heq⟩ := Option.map_eq_some_iff.1 h
    obtain ⟨rfl, rfl⟩ := Prod.mk.inj heq
    cases hpush : s.pushReturn t (t.pc + 8) with
    | error x => rw [hpush] at hm; cases hm
    | ok y =>
      rw [hpush] at hm
      obtain rfl := Option.some.inj hm
      refine ⟨?_, State.pushReturn_keeps hpush⟩
      rw [callTo, branchOk_ok hok.1 hok.2, hpush]
      rfl
  · cases h

theorem flows_call (h : Hdr) (imm : BitVec 24) : Flows (.call h imm) fun t s =>
    let pc := t.pc + 8 * imm.signExtend 64
    if pc.toNat % 8 = 0 ∧ canonical pc then (okOf (s.pushReturn t (t.pc + 8))).map fun e => (e, pc) else none :=
  flows_of rfl (fun _ => rfl) fun _ _ _ _ => callTo_of_ok

theorem flows_callx (h : Hdr) (a : GReg) : Flows (.callx h a) fun t s =>
    if (t.pair a).toNat % 8 = 0 ∧ canonical (t.pair a) then (okOf (s.pushReturn t (t.pc + 8))).map fun e => (e, t.pair a)
    else none :=
  flows_of rfl (fun _ => rfl) fun _ _ _ _ => callTo_of_ok

/-- With room on chip a call pushes its return address there. -/
theorem Flows.call_onChip {i : Instr} {target : Thread → Dword}
    (h : Flows i fun t s =>
      if (target t).toNat % 8 = 0 ∧ canonical (target t) then (okOf (s.pushReturn t (t.pc + 8))).map fun e => (e, target t)
      else none) :
    Flows i fun t s =>
      if (target t).toNat % 8 = 0 ∧ canonical (target t) ∧ t.rstack.length < 8 then
        some (s.updThread t.tid fun t => { t with rstack := (t.pc + 8) :: t.rstack }, target t)
      else none := by
  refine h.of_alike fun t s s' e pc ha ht hf => ?_
  split at hf
  · next hok =>
    obtain ⟨halign, hcanon, hroom⟩ := hok
    obtain ⟨rfl, rfl⟩ := Prod.mk.inj (Option.some.inj hf)
    refine ⟨s'.updThread t.tid fun u => { u with rstack := (t.pc + 8) :: u.rstack }, ?_,
      ha.updThread (fun _ _ => rfl) (fun _ _ => rfl) fun u hu => ?_⟩
    · rw [if_pos ⟨halign, hcanon⟩, State.pushReturn_of_room hroom]; rfl
    · obtain rfl := Option.some.inj (ht.symm.trans hu); rfl
  · cases hf

theorem flows_ret (h : Hdr) : Flows (.ret h) fun t s =>
    match s.popReturn t with
    | .ok (pc, u) =>
      if pc.toNat % 8 = 0 ∧ canonical pc then
        some ((if t.rstack = [] then s.localFill t (t.tlsBytes + 8 * (t.spilled - 1)) else s).updThread t.tid fun _ => u, pc)
      else none
    | .error _ => none := by
  refine runThreads_flows (h := h) rfl (fun _ => rfl) (fun j t s e pc ht hf => ?_) fun t s e pc ht hf => ?_
  · simp only [ht]
    cases hpop : s.popReturn t with
    | error x => rw [hpop] at hf; cases hf
    | ok r =>
      obtain ⟨a, u⟩ := r
      rw [hpop] at hf
      dsimp only at hf
      split at hf
      · next hok =>
        obtain ⟨rfl, rfl⟩ := Prod.mk.inj (Option.some.inj hf)
        simp only [Except.bind, bind, branchOk_ok hok.1 hok.2, List.isEmpty_iff]
        rfl
      · cases hf
  · cases hpop : s.popReturn t with
    | error x => rw [hpop] at hf; cases hf
    | ok r =>
      obtain ⟨a, u⟩ := r
      obtain ⟨htid, hpc⟩ := State.popReturn_stays hpop
      rw [hpop] at hf
      dsimp only at hf
      split at hf
      · obtain ⟨rfl, rfl⟩ := Prod.mk.inj (Option.some.inj hf)
        have hfill : s.Stored (if t.rstack = [] then s.localFill t (t.tlsBytes + 8 * (t.spilled - 1)) else s) := by
          split
          · exact (s.localFill_cached ..).stored
          · exact .refl s
        refine hfill.keeps.trans (State.keeps_updThread _ _ _ (fun v hv => ?_) fun v hv => htid.trans hv.symm)
        obtain rfl := Option.some.inj (ht.symm.trans ((hfill.thread? t.tid).symm.trans hv))
        exact hpc
      · cases hf

/-- With an entry on chip RET pops it. -/
theorem flows_ret_onChip (h : Hdr) : Flows (.ret h) fun t s =>
    match t.rstack with
    | pc :: rest =>
      if pc.toNat % 8 = 0 ∧ canonical pc then some (s.updThread t.tid fun t => { t with rstack := rest }, pc) else none
    | [] => none := by
  refine (flows_ret h).of_alike fun t s s' e pc ha ht hf => ?_
  cases hstack : t.rstack with
  | nil => rw [hstack] at hf; cases hf
  | cons a rest =>
    rw [hstack] at hf
    dsimp only at hf
    split at hf
    · next hok =>
      obtain ⟨rfl, rfl⟩ := Prod.mk.inj (Option.some.inj hf)
      refine ⟨s'.updThread t.tid fun _ => { t with rstack := rest }, ?_,
        ha.updThread (fun _ _ => rfl) (fun _ hu => hu.symm) fun u hu => ?_⟩
      · simp only [State.popReturn_onChip hstack, if_pos hok, List.cons_ne_nil, if_false]
      · obtain rfl := Option.some.inj (ht.symm.trans hu); rfl
    · cases hf

/-- Settles O10: the flows of the control instructions, and the cases of the return stack's push and pop. -/
theorem branchAndReturnResults : Obligations.BranchAndReturnResults :=
  ⟨⟨fun _ => runs_of rfl (fun _ => rfl) (fun _ => ⟨rfl, rfl, rfl⟩) fun _ => rfl,
    fun _ _ => flows_of rfl (fun _ => rfl) fun _ _ _ _ => branchTo_of_ok,
    fun _ _ => flows_of rfl (fun _ => rfl) fun _ _ _ _ => branchTo_of_ok,
    fun h imm => (flows_call h imm).call_onChip (target := fun t => t.pc + 8 * imm.signExtend 64),
    fun h a => (flows_callx h a).call_onChip (target := fun t => t.pair a), flows_ret_onChip⟩,
    fun _ _ _ _ => State.pushReturn_spills, fun _ _ _ => State.pushReturn_full, Thread.spillAddr_eq,
    fun _ _ _ => State.pushReturn_misaligned, fun _ _ => State.popReturn_misaligned, fun _ _ _ => State.popReturn_spilled,
    fun _ _ => State.popReturn_empty, flows_call, flows_callx, flows_ret⟩

end Sys2Proof.Machine
end

section
/-! What the device does by itself for futures, records, packets and failed commands leaves: every thread, group and copy, each task
but for what it owns, and the canonical form of the memories (R65 to R67, R110 to R114, R405, R423, R459). -/

namespace Sys2Proof.Machine

/-- A task of whose owned futures some have gone. -/
def Task.Narrowed (t u : Task) : Prop := ∃ l, l.Sublist t.owned ∧ u = { t with owned := l }

theorem Task.Narrowed.refl (t : Task) : t.Narrowed t := ⟨_, .refl _, rfl⟩

theorem Task.Narrowed.trans {t u v : Task} (h : t.Narrowed u) (g : u.Narrowed v) : t.Narrowed v := by
  obtain ⟨l, hl, rfl⟩ := h
  obtain ⟨m, hm, rfl⟩ := g
  exact ⟨m, hm.trans hl, rfl⟩

theorem forall₂_narrowed_refl (l : List Task) : List.Forall₂ Task.Narrowed l l := List.forall₂_same.2 fun t _ => .refl t

theorem forall₂_narrowed_trans {a b c : List Task} (h : List.Forall₂ Task.Narrowed a b) :
    List.Forall₂ Task.Narrowed b c → List.Forall₂ Task.Narrowed a c := by
  induction h generalizing c with
  | nil => exact id
  | cons hd _ ih =>
    rintro (_ | ⟨hd', tl'⟩)
    exact .cons (hd.trans hd') (ih tl')

/-- `e` comes from `s` by what the device does by itself. -/
structure State.Serves (s e : State) : Prop where
  threads : e.threads = s.threads
  groups : e.groups = s.groups
  ldas : e.ldas = s.ldas
  tasks : List.Forall₂ Task.Narrowed s.tasks e.tasks
  inv : s.Inv → e.Inv

namespace State.Serves

variable {s e : State}

theorem refl (s : State) : s.Serves s := ⟨rfl, rfl, rfl, forall₂_narrowed_refl _, id⟩

theorem trans {a b c : State} (h : a.Serves b) (g : b.Serves c) : a.Serves c :=
  ⟨g.threads.trans h.threads, g.groups.trans h.groups, g.ldas.trans h.ldas, forall₂_narrowed_trans h.tasks g.tasks,
    fun x => g.inv (h.inv x)⟩

/-- A change of other fields than these. -/
theorem of_same (threads : e.threads = s.threads) (groups : e.groups = s.groups) (ldas : e.ldas = s.ldas)
    (tasks : e.tasks = s.tasks) (inv : s.Inv → e.Inv) : s.Serves e :=
  ⟨threads, groups, ldas, tasks ▸ forall₂_narrowed_refl _, inv⟩

theorem ite {c : Prop} [Decidable c] {a b : State} (ha : s.Serves a) (hb : s.Serves b) : s.Serves (if c then a else b) := by
  split
  · exact ha
  · exact hb

theorem foldl {α : Type} {f : State → α → State} (hf : ∀ (s : State) a, s.Serves (f s a)) (l : List α) (s : State) :
    s.Serves (l.foldl f s) := by
  induction l generalizing s with
  | nil => exact .refl s
  | cons a l ih => exact (hf s a).trans (ih _)

/-- What follows a change of other fields than these. -/
theorem after {s' : State} (h : s'.Serves e) (threads : s'.threads = s.threads) (groups : s'.groups = s.groups)
    (ldas : s'.ldas = s.ldas) (tasks : s'.tasks = s.tasks) (inv : s.Inv → s'.Inv) : s.Serves e :=
  .trans (.of_same threads groups ldas tasks inv) h

theorem of_cached (h : s.Cached e) : s.Serves e := by
  obtain ⟨_, _, _, _, _, _, _, _, _, rfl⟩ := h
  exact of_same rfl rfl rfl rfl id

theorem keeps (h : s.Serves e) : s.Keeps e := .of_threads h.threads h.groups

theorem thread? (h : s.Serves e) (k : Nat) : e.thread? k = s.thread? k := State.thread?_of_threads h.threads k

end State.Serves

/-! ## Counts, messages and packets -/

theorem State.tallyCore_serves (s : State) (k src n : Nat) : s.Serves (s.tallyCore k src n) :=
  .of_cached (s.tallyCore_looked k src n).cached

theorem State.tallyDie_serves (s : State) (d src n : Nat) (c : Option Nat) : s.Serves (s.tallyDie d src n c) :=
  .of_same rfl rfl rfl rfl id

theorem State.tallyIo_serves (s : State) (kind n src : Nat) (c : Option Nat) : s.Serves (s.tallyIo kind n src c) :=
  s.tallyDie_serves ..

theorem State.lookUp_serves (s : State) (c : Nat) (va : Dword) : s.Serves (s.lookUp c va) :=
  .of_cached (s.lookUp_looked c va).cached

theorem State.readFill_serves (s : State) (c : Nat) (va : Dword) (n keep : Nat) : s.Serves (s.readFill c va n keep) :=
  .of_cached (s.readFill_looked c va n keep).cached

theorem State.updCtx_serves (s : State) (c : Nat) (f : Ctx → Ctx) : s.Serves (s.updCtx c f) := .of_same rfl rfl rfl rfl id

theorem State.updQueue_serves (s : State) (q : Nat) (f : Queue → Queue) : s.Serves (s.updQueue q f) :=
  .of_same rfl rfl rfl rfl id

theorem State.updCore_serves (s : State) (k : Nat) (f : Core → Core) : s.Serves (s.updCore k f) :=
  .of_same rfl rfl rfl rfl id

theorem State.tallySent_serves (s : State) (node seq src : Nat) (c : Option Nat) : s.Serves (s.tallySent node seq src c) := by
  unfold State.tallySent
  split
  · exact s.tallyIo_serves ..
  · exact .refl s

theorem State.send_serves (s : State) (node : Nat) (m : NetMsg) (refusal : Option FaultRec) (ctx : Option Nat) :
    s.Serves (s.send node m refusal ctx) := by
  unfold State.send
  exact .after (State.tallySent_serves ..) rfl rfl rfl rfl id

theorem State.reply_serves (s : State) (node : Nat) (m : NetMsg) : s.Serves (s.reply node m) := by
  unfold State.reply
  exact .after (State.tallySent_serves ..) rfl rfl rfl rfl id

theorem State.sendFor_serves (s : State) (ctx node : Nat) (m : NetMsg) (refusal : Option FaultRec) :
    s.Serves (s.sendFor ctx node m refusal) := by
  unfold State.sendFor
  exact .after (State.send_serves ..) rfl rfl rfl rfl id

theorem State.notifyChains_serves (s : State) (q : Nat) : s.Serves (s.notifyChains q) := by
  unfold State.notifyChains
  refine .after (State.Serves.foldl (fun s w => ?_) _ _) rfl rfl rfl rfl id
  split
  · exact s.send_serves ..
  · exact .refl s

theorem State.settleQueue_serves (s : State) (q : Nat) : s.Serves (s.settleQueue q) :=
  (s.updQueue_serves ..).trans (State.notifyChains_serves ..)

theorem State.workEnded_serves (s : State) (l : Option (Nat × Nat)) : s.Serves (s.workEnded l) := by
  unfold State.workEnded
  split
  · exact .refl s
  · exact (s.updQueue_serves ..).trans (State.settleQueue_serves ..)

/-! ## Futures and records -/

theorem State.putMemAs_serves (s : State) (c : Option Nat) (keep key : Nat) (l : List Byte) :
    s.Serves (s.putMemAs c keep key l) :=
  .of_same rfl rfl rfl rfl fun h => ⟨putBytes_wf l key h.1, h.2⟩

theorem State.putFor_serves (s : State) (c key : Nat) (l : List Byte) : s.Serves (s.putFor c key l) := s.putMemAs_serves ..

theorem State.postRecord_serves (s : State) (c : Nat) (r : FaultRec) : s.Serves (s.postRecord c r) := s.updCtx_serves ..

theorem State.openFault_serves (s : State) (c : Nat) (va : Dword) (acc : Acc) (r : FaultRec) :
    s.Serves (s.openFault c va acc r).2 := by
  unfold State.openFault
  split
  · exact .refl s
  · dsimp only
    split
    · exact .refl s
    · exact (s.updCtx_serves ..).trans (State.postRecord_serves ..)

theorem State.futureDone_serves (s : State) (c : Nat) (va : Dword) (key : Nat) : s.Serves (s.futureDone c va key) :=
  State.Serves.foldl (fun s _ => (s.updQueue_serves ..).trans (State.settleQueue_serves ..)) _ s

/-- An owned-future list loses a future: its task owns the rest. -/
theorem State.dropOwned_serves (s : State) (c : Nat) (va : Dword) (key : Nat) : s.Serves (s.dropOwned c va key) :=
  ⟨rfl, rfl, rfl, List.forall₂_map_right_iff.2 (List.forall₂_same.2 fun _ _ => ⟨_, List.filter_sublist, rfl⟩), id⟩

theorem State.applyUpd_serves (s : State) (c : Nat) (va : Dword) (key : Nat) (k : UpdKind) : s.Serves (s.applyUpd c va key k) := by
  unfold State.applyUpd
  split
  · exact .refl s
  · cases k with
    | fulfil st w0 w1 =>
      exact (((s.putFor_serves ..).trans (State.putFor_serves ..)).trans (State.dropOwned_serves ..)).trans
        (State.futureDone_serves ..)
    | owner w2 => exact s.putFor_serves ..
    | progress w0 w1 => exact s.putFor_serves ..

theorem State.devUpdate_serves (s : State) (c : Nat) (va : Dword) (k : UpdKind) (agent die unit : Nat) (task : Word) :
    s.Serves (s.devUpdate c va k agent die unit task) := by
  unfold State.devUpdate
  refine (s.lookUp_serves c va).trans ?_
  generalize s.lookUp c va = s
  dsimp only
  split
  · split
    · exact s.postRecord_serves ..
    · exact s.applyUpd_serves ..
  · exact (s.openFault_serves ..).trans (State.updCtx_serves ..)
  · exact s.postRecord_serves ..
  · exact .refl s

theorem State.fulfil_serves (s : State) (c : Nat) (va : Dword) (st : Nat) (w0 w1 : Word) (agent die unit : Nat) (task : Word) :
    s.Serves (s.fulfil c va st w0 w1 agent die unit task) := by
  unfold State.fulfil
  split
  · exact .refl s
  · exact s.devUpdate_serves ..

theorem State.rewriteOwned_serves (s : State) (c : Nat) (owned : List Dword) (h task : Word) (die unit : Nat) :
    s.Serves (s.rewriteOwned c owned h task die unit) := State.Serves.foldl (fun s _ => s.devUpdate_serves ..) _ s

/-! ## Commands that fail (R112, R113) -/

theorem State.freeByte_serves (s : State) (key : Nat) : s.Serves (s.freeByte key) :=
  .of_same rfl rfl rfl rfl fun h => ⟨SMap.set_wf _ _ h.1, h.2⟩

theorem State.scramble_serves (s : State) (ctx : Nat) (vas : List Nat) : s.Serves (s.scramble ctx vas) := by
  refine State.Serves.foldl (fun s a => ?_) _ s
  split
  · exact s.freeByte_serves _
  · exact .refl s

theorem State.freeScratch_serves (s : State) (keys : List Nat) : s.Serves (s.freeScratch keys) :=
  State.Serves.foldl (f := fun s a => { s.freshBits.2 with scratch := putBytes s.freshBits.2.scratch a [s.freshBits.1.setWidth 8] })
    (fun _ _ => .of_same rfl rfl rfl rfl fun h => ⟨h.1, putBytes_wf _ _ h.2.1, h.2.2⟩) keys s

theorem State.scrambleCopy_serves (s : State) (b : BulkCopy) : s.Serves (s.scrambleCopy b) := by
  unfold State.scrambleCopy
  dsimp only
  split
  · exact s.scramble_serves ..
  · exact s.freeScratch_serves ..
  · exact s.freeScratch_serves ..

theorem State.sweepAllocs_serves (s : State) (k : Nat) : s.Serves (s.sweepAllocs k) := s.updCore_serves ..

theorem State.commandFails_serves (s : State) (ctx : Nat) (fut : Dword) (x : Failure) (n agent die unit : Nat) (task : Word) :
    s.Serves (s.commandFails ctx fut x n agent die unit task) := by
  unfold State.commandFails
  dsimp only
  split
  · refine .trans ?_ (State.fulfil_serves ..)
    split
    · exact s.postRecord_serves ..
    · exact .refl s
  · exact s.postRecord_serves ..

theorem State.copyFails_serves (s : State) (b : BulkCopy) (x : Failure) : s.Serves (s.copyFails b x) := by
  unfold State.copyFails
  refine (s.scrambleCopy_serves b).trans ?_
  generalize s.scrambleCopy b = s
  dsimp only
  refine .after (s' := { s with copies := s.copies.filter (·.id != b.id) }) ?_ rfl rfl rfl rfl id
  generalize ({ s with copies := s.copies.filter (·.id != b.id) } : State) = s
  refine .trans (b := if b.size = 0 ∨ b.core = noCore then s else s.sweepAllocs b.core) ?_ ?_
  · split
    · exact .refl s
    · exact s.sweepAllocs_serves _
  generalize (if b.size = 0 ∨ b.core = noCore then s else s.sweepAllocs b.core) = s
  split
  · exact ((s.commandFails_serves ..).trans (State.fulfil_serves ..)).trans (State.workEnded_serves ..)
  · exact (s.commandFails_serves ..).trans (State.workEnded_serves ..)

theorem State.failRingCopies_serves (s : State) (id : Nat) : s.Serves (s.failRingCopies id) :=
  State.Serves.foldl (fun s _ => s.copyFails_serves ..) _ s

/-! ## The end of a task of a set, and requests taken back (R60, R75, R170) -/

theorem State.setTaskEnded_serves (s : State) (n task : Nat) (fault : Option (BitVec 8)) (die unit : Nat) (h : Word) :
    s.Serves (s.setTaskEnded n task fault die unit h) := by
  unfold State.setTaskEnded
  split
  · exact .refl s
  · dsimp only
    split
    · split
      · exact .after (State.devUpdate_serves ..) rfl rfl rfl rfl id
      · exact .of_same rfl rfl rfl rfl id
    · refine .trans (.ite ?_ ?_) (State.workEnded_serves _ _)
      · exact .after (State.fulfil_serves ..) rfl rfl rfl rfl id
      · exact .after (State.fulfil_serves ..) rfl rfl rfl rfl id

theorem State.askBack_serves (s : State) (tids : List Nat) : s.Serves (s.askBack tids) :=
  State.Serves.foldl (fun s _ => s.send_serves ..) _ s

theorem State.dropRequests_serves (s : State) (tids : List Nat) : s.Serves (s.dropRequests tids) :=
by
  unfold State.dropRequests
  exact .after (State.askBack_serves ..) rfl rfl rfl rfl id

end Sys2Proof.Machine
end

section
/-! The end of threads, groups and tasks, and the merge stack (R41, R44, R45, R60, R268, R269). -/

namespace Sys2Proof.Machine

/-- Each thread's number, task and pending results, in the order of the table. -/
def State.who (s : State) : List (Nat × Nat × List Pend) := s.threads.map fun t => (t.tid, t.task, t.pend)

theorem State.thread?_who (s : State) (j : Nat) :
    (s.thread? j).map (fun t => (t.tid, t.task, t.pend)) = s.who.find? (·.1 == j) := by
  rw [State.who, List.find?_map]
  rfl

theorem who_map {l : List Thread} {f : Thread → Thread} (hf : ∀ t, (f t).tid = t.tid ∧ (f t).task = t.task ∧ (f t).pend = t.pend) :
    (l.map f).map (fun t => (t.tid, t.task, t.pend)) = l.map fun t => (t.tid, t.task, t.pend) := by
  rw [List.map_map]
  refine List.map_congr_left fun t _ => ?_
  obtain ⟨h1, h2, h3⟩ := hf t
  simp only [Function.comp, h1, h2, h3]

theorem ids_map {l : List Task} {f : Task → Task} (hf : ∀ k, (f k).id = k.id) : ((l.map f).map (·.id)).Sublist (l.map (·.id)) := by
  have h : (l.map f).map (·.id) = l.map (·.id) := by rw [List.map_map]; exact List.map_congr_left fun k _ => hf k
  rw [h]

/-- `e` has the threads of `s` but those of `l`, no copy and no task more, and its memories in canonical form. -/
structure State.Sheds (l : List Nat) (s e : State) : Prop where
  who : e.who = s.who.filter fun p => decide (p.1 ∉ l)
  ldas : e.ldas = s.ldas
  tasks : (e.tasks.map (·.id)).Sublist (s.tasks.map (·.id))
  inv : s.Inv → e.Inv

theorem narrowed_ids {a b : List Task} (h : List.Forall₂ Task.Narrowed a b) : b.map (·.id) = a.map (·.id) := by
  induction h with
  | nil => rfl
  | cons hd _ ih => obtain ⟨_, -, rfl⟩ := hd; rw [List.map_cons, List.map_cons, ih]

namespace State.Sheds

variable {l m : List Nat} {s e : State}

/-- A change that keeps number, task and results of every thread, and every copy. -/
theorem of_who (who : e.who = s.who) (ldas : e.ldas = s.ldas) (tasks : (e.tasks.map (·.id)).Sublist (s.tasks.map (·.id)))
    (inv : s.Inv → e.Inv) : Sheds [] s e :=
  ⟨by simp [who], ldas, tasks, inv⟩

theorem refl (s : State) : Sheds [] s s := of_who rfl rfl (.refl _) id

theorem trans {a b c : State} (h : Sheds l a b) (g : Sheds m b c) : Sheds (m ++ l) a c := by
  refine ⟨?_, g.ldas.trans h.ldas, g.tasks.trans h.tasks, fun x => g.inv (h.inv x)⟩
  rw [g.who, h.who, List.filter_filter]
  refine List.filter_congr fun p _ => ?_
  simp [List.mem_append, not_or]

theorem of_serves (h : s.Serves e) : Sheds [] s e :=
  of_who (by rw [State.who, h.threads]; rfl) h.ldas (narrowed_ids h.tasks ▸ .refl _) h.inv

theorem ite {c : Prop} [Decidable c] {a b : State} (ha : Sheds l s a) (hb : Sheds l s b) : Sheds l s (if c then a else b) := by
  split
  · exact ha
  · exact hb

theorem foldl {α : Type} {f : State → α → State} (hf : ∀ (s : State) a, Sheds [] s (f s a)) (l : List α) (s : State) :
    Sheds [] s (l.foldl f s) := by
  induction l generalizing s with
  | nil => exact refl s
  | cons a l ih => exact (hf s a).trans (ih _)

/-- A thread that is left is as it was, in number, task and results. -/
theorem thread? (h : Sheds l s e) {j : Nat} (hj : j ∉ l) :
    (e.thread? j).map (fun t => (t.tid, t.task, t.pend)) = (s.thread? j).map fun t => (t.tid, t.task, t.pend) := by
  rw [State.thread?_who, State.thread?_who, h.who, List.find?_filter]
  congr 1
  funext p
  by_cases hp : p.1 = j
  · simp [hp, hj]
  · simp [hp]

/-- A thread of the list has gone. -/
theorem gone (h : Sheds l s e) {j : Nat} (hj : j ∈ l) : e.thread? j = none := by
  have hnone : (e.thread? j).map (fun t => (t.tid, t.task, t.pend)) = none := by
    rw [State.thread?_who, h.who, List.find?_filter, List.find?_eq_none]
    intro p _ hp
    simp only [decide_eq_true_eq, beq_iff_eq] at hp
    exact hp.1 (hp.2 ▸ hj)
  exact Option.map_eq_none_iff.1 hnone

theorem isSome (h : Sheds l s e) {j : Nat} : (e.thread? j).isSome = true ↔ (s.thread? j).isSome = true ∧ j ∉ l := by
  by_cases hj : j ∈ l
  · simp [h.gone hj, hj]
  · have ht := congrArg Option.isSome (h.thread? hj)
    simp only [Option.isSome_map] at ht
    simp [ht, hj]

/-- No thread of a task is left once the list names them all. -/
theorem any_task (h : Sheds l s e) (task : Nat) : e.threads.any (·.task == task) = s.threads.any fun t => t.task == task && t.tid ∉ l := by
  have hw : ∀ s : State, s.threads.any (·.task == task) = s.who.any (·.2.1 == task) := fun s => by
    rw [State.who, List.any_map]; rfl
  rw [hw, h.who, List.any_filter, State.who, List.any_map]
  congr 1
  funext t
  exact Bool.and_comm _ _

theorem task?_none (h : Sheds l s e) {id : Nat} (hs : s.task? id = none) : e.task? id = none := by
  rw [State.task?, List.find?_eq_none] at hs ⊢
  intro k hk hid
  obtain ⟨k', hk', he⟩ := List.mem_map.1 (h.tasks.subset (List.mem_map_of_mem hk))
  exact hs k' hk' (by rw [he]; exact hid)

end State.Sheds

/-! ## Rules -/

theorem State.updThreads_sheds (s : State) (l : List Nat) {f : Thread → Thread}
    (hf : ∀ t, (f t).tid = t.tid ∧ (f t).task = t.task ∧ (f t).pend = t.pend) : Sheds [] s (s.updThreads l f) :=
  .of_who (who_map fun t => by split; exacts [hf t, ⟨rfl, rfl, rfl⟩]) rfl (.refl _) id

theorem State.refreshAge_sheds (s : State) (l : List Nat) : Sheds [] s (s.refreshAge l) :=
  .of_who (who_map fun t => by split <;> exact ⟨rfl, rfl, rfl⟩) rfl (.refl _) id

theorem State.updTask_sheds (s : State) (id : Nat) {f : Task → Task} (hf : ∀ k, (f k).id = k.id) : Sheds [] s (s.updTask id f) := by
  refine .of_who rfl rfl ?_ fun h => h
  refine ids_map fun k => ?_
  split
  · exact hf k
  · rfl

theorem State.updGroup_sheds (s : State) (gid : Nat) (f : Group → Group) : Sheds [] s (s.updGroup gid f) :=
  .of_who rfl rfl (.refl _) id

theorem Thread.released_who (t : Thread) : t.released.tid = t.tid ∧ t.released.task = t.task ∧ t.released.pend = t.pend := by
  unfold Thread.released
  split
  · exact ⟨rfl, rfl, rfl⟩
  · exact ⟨rfl, rfl, rfl⟩

theorem State.release_sheds (s : State) (a : Actor) : Sheds [] s (s.release a) := by
  unfold State.release
  exact .ite ((s.updThreads_sheds _ Thread.released_who).trans (State.refreshAge_sheds ..)) (.refl s)

theorem State.settle_sheds (s : State) (gid : Nat) : Sheds [] s (s.settle gid) := by
  unfold State.settle
  split
  · exact .refl s
  · dsimp only
    refine State.Sheds.trans (l := []) (m := []) (s.updGroup_sheds ..) (State.Sheds.foldl (fun s p => ?_) _ _)
    exact (s.updThreads_sheds (f := fun t => { t with status := .ready, pc := p.2 }) _ fun _ => ⟨rfl, rfl, rfl⟩).trans
      (State.refreshAge_sheds ..)

theorem State.endGroup_sheds (s : State) (gid : Nat) : Sheds [] s (s.endGroup gid) := by
  unfold State.endGroup
  split
  · exact .refl s
  · dsimp only
    have hfree : ∀ e : State, Sheds [] e { e with
        groups := e.groups.filter (·.gid != gid)
        threads := e.threads.map fun t => if t.member.any (·.1 == gid) then { t with member := none } else t } := fun e =>
      .of_who (who_map fun t => by split <;> exact ⟨rfl, rfl, rfl⟩) rfl (.refl _) id
    split
    · exact hfree s
    · exact State.Sheds.trans (l := []) (m := []) (.of_serves (s.updCore_serves ..)) (hfree _)

theorem State.dropImageBanks_sheds (s : State) (id num : Nat) : Sheds [] s (s.dropImageBanks id num) := by
  unfold State.dropImageBanks
  split
  · exact .refl s
  · refine .of_who rfl rfl ?_ fun h => h
    refine ids_map fun k => ?_
    split <;> rfl

theorem State.restoreFrames_sheds (s : State) (l : List Nat) (faulted : Bool) : Sheds [] s (s.restoreFrames l faulted) := by
  refine (s.updThreads_sheds l fun t => ?_).trans (State.refreshAge_sheds ..)
  split
  · exact ⟨rfl, rfl, rfl⟩
  · split <;> exact ⟨rfl, rfl, rfl⟩
  · exact ⟨rfl, rfl, rfl⟩

/-- A thread out of the tables of threads, of its context and of its core. -/
def State.unlist (s : State) (t : Thread) (tid : Nat) : State :=
  let s := if t.unsent then s.dropRequests [tid] else s
  let s : State := { s with threads := s.threads.filter (·.tid != tid) }
  let s := s.updCtx t.ctx fun x => { x with tls := x.tls.filter (·.2.2 != tid) }
  match t.place.coreIdx? with
  | some k => s.updCore k fun c => { c with forming := c.forming.filter (·.tid != tid) }
  | none => s

/-- A group without one of its ranks. -/
def Group.without (g : Group) (r : Nat) : Group :=
  let bit : BitVec 32 := 1 <<< r
  { g with
    exited := g.exited ||| bit
    frags := (g.frags.map fun f => { f with mask := f.mask &&& ~~~bit }).filter (·.mask != 0) }

/-- What the loss of a rank does to a group: it ends with its last thread, else its merge stack is settled (R41, R45). -/
def State.regroup (s : State) (task gid : Nat) : State :=
  match s.group? gid with
  | some g =>
    if g.live = 0 then (if g.saved then s.dropImageBanks task g.num else s).endGroup gid
    else
      (g.frags.map (·.id)).foldl
        (fun s fid => if s.actorTids (.frag gid fid) = [] then s else s.release (.frag gid fid)) (s.settle gid)
  | none => s

theorem State.dropThread_of_none {s : State} {j : Nat} (h : s.thread? j = none) : s.dropThread j = s := by
  unfold State.dropThread; rw [h]

theorem State.dropThread_free {s : State} {j : Nat} {t : Thread} (h : s.thread? j = some t) (hm : t.member = none) :
    s.dropThread j = s.unlist t j := by
  unfold State.dropThread; rw [h]; dsimp only; rw [hm]; rfl

theorem State.dropThread_member {s : State} {j gid r : Nat} {t : Thread} (h : s.thread? j = some t) (hm : t.member = some (gid, r)) :
    s.dropThread j = ((s.unlist t j).updGroup gid fun g => g.without r).regroup t.task gid := by
  unfold State.dropThread; rw [h]; dsimp only; rw [hm]; rfl

theorem State.unlist_sheds (s : State) (t : Thread) (j : Nat) : Sheds [j] s (s.unlist t j) := by
  unfold State.unlist
  generalize hasked : (if t.unsent = true then s.dropRequests [j] else s) = e
  have he : Sheds [] s e := hasked ▸ .ite (.of_serves (s.dropRequests_serves _)) (.refl s)
  have hgone : Sheds [j] e { e with threads := e.threads.filter (·.tid != j) } := by
    refine ⟨?_, rfl, .refl _, fun h => h⟩
    rw [State.who, State.who, List.filter_map]
    congr 1
    refine List.filter_congr fun t _ => ?_
    simp [bne, beq_eq_decide]
  refine (he.trans hgone).trans (m := []) ?_
  dsimp only
  split
  · exact .of_serves ((State.updCtx_serves ..).trans (State.updCore_serves ..))
  · exact .of_serves (State.updCtx_serves ..)

theorem State.regroup_sheds (s : State) (task gid : Nat) : Sheds [] s (s.regroup task gid) := by
  unfold State.regroup
  split
  · refine .ite ?_ ?_
    · refine State.Sheds.trans (l := []) (m := []) (.ite ?_ (.refl s)) (State.endGroup_sheds ..)
      exact s.dropImageBanks_sheds ..
    · exact (s.settle_sheds gid).trans (State.Sheds.foldl (fun s fid => .ite (.refl s) (s.release_sheds _)) _ _)
  · exact .refl s

/-- A thread of the table leaves, and nobody else (R41). -/
theorem State.dropThread_sheds (s : State) (j : Nat) : Sheds [j] s (s.dropThread j) := by
  cases hj : s.thread? j with
  | none =>
    rw [State.dropThread_of_none hj]
    refine ⟨(List.filter_eq_self.2 fun p hp => ?_).symm, rfl, .refl _, id⟩
    obtain ⟨t, ht, rfl⟩ := List.mem_map.1 hp
    simpa using List.find?_eq_none.1 hj t ht
  | some t =>
    cases hm : t.member with
    | none => rw [State.dropThread_free hj hm]; exact s.unlist_sheds t j
    | some p =>
      rw [State.dropThread_member hj hm]
      exact ((s.unlist_sheds t j).trans (State.updGroup_sheds ..)).trans (State.regroup_sheds ..)

/-! ## The end of a task (R60, R65, R88, R96) -/

/-- The outcome of a task that ends, to its future or to its set, and to the launch that it came from (R60, R65). -/
def State.concludeTask (s : State) (k : Task) (id : Nat) (fault : Option (BitVec 8)) : State :=
  let die := k.handle.toNat / 2 ^ 29
  let unit := k.handle.toNat / 2 ^ 23 % 64
  match k.set with
  | some sid => s.setTaskEnded sid id fault die unit k.handle
  | none =>
    let s : State :=
      match fault with
      | some c => s.fulfil k.ctx k.fut 2 1 (BitVec.ofNat 32 (c.toNat + 256)) 0 die unit k.handle
      | none =>
        let v : Dword := if k.kind = TKind.gang then 0 else k.result
        s.fulfil k.ctx k.fut 1 (loWord v) (hiWord v) 0 die unit k.handle
    s.workEnded k.launch

/-- The futures that a task still owns lose their owner (R65). -/
def State.disown (s : State) (k : Task) (id : Nat) : State :=
  s.rewriteOwned k.ctx ((((s.task? id).map (·.owned)).getD []).filter fun va => k.fut == 0 || va != k.fut) noOwner k.handle
    (k.handle.toNat / 2 ^ 29) (k.handle.toNat / 2 ^ 23 % 64)

/-- The refinement block of a task that ends has its step's outcome. -/
def State.noteBlock (s : State) (k : Task) (fault : Option (BitVec 8)) : State :=
  match k.rfb with
  | none => s
  | some b =>
    { s with dies := s.dies.map fun p =>
        (p.1, { p.2 with rfbs := p.2.rfbs.map fun x =>
          if x.id = b then { x with ended := some (k.result, fault.map fun c => (k.slotted, c)) } else x }) }

/-- The rings and the allocation of a task that ends (R88, R96). -/
def State.quitCore (s : State) (k : Task) (id : Nat) : State :=
  match k.loc with
  | .saved => s
  | .core d c =>
    let n := coreIdx d c
    (s.updCore n fun x =>
      { x with
        rings := x.rings.map fun r => if r.owner = some id then {} else r
        allocs := x.allocs.map fun a => if a.task = id then { a with ended := true } else a }).sweepAllocs n

/-- The table of tasks without one of them. -/
def State.removeTask (s : State) (id : Nat) : State := { s with tasks := s.tasks.filter (·.id != id) }

theorem State.removeTask_sheds (s : State) (id : Nat) : Sheds [] s (s.removeTask id) :=
  .of_who rfl rfl (List.Sublist.map _ List.filter_sublist) fun h => h

theorem State.endTask_of_none {s : State} {id : Nat} {fault : Option (BitVec 8)} (h : s.task? id = none) :
    s.endTask id fault = s := by
  unfold State.endTask; rw [h]

theorem State.endTask_eq {s : State} {id : Nat} {k : Task} (h : s.task? id = some k) (fault : Option (BitVec 8)) :
    s.endTask id fault =
      (((((((((s.threads.filter (·.task == id)).map (·.tid)).foldl State.dropThread s).concludeTask k id fault).disown k
        id).noteBlock k fault).removeTask id).failRingCopies id).quitCore k id).restoreFrames k.adoptedBy false := by
  unfold State.endTask; rw [h]; rfl

theorem State.concludeTask_serves (s : State) (k : Task) (id : Nat) (fault : Option (BitVec 8)) :
    s.Serves (s.concludeTask k id fault) := by
  unfold State.concludeTask
  dsimp only
  split
  · exact s.setTaskEnded_serves ..
  · split
    · exact (s.fulfil_serves ..).trans (State.workEnded_serves ..)
    · exact (s.fulfil_serves ..).trans (State.workEnded_serves ..)

theorem State.noteBlock_serves (s : State) (k : Task) (fault : Option (BitVec 8)) : s.Serves (s.noteBlock k fault) := by
  unfold State.noteBlock
  split
  · exact .refl s
  · exact .of_same rfl rfl rfl rfl fun h => h

theorem State.quitCore_serves (s : State) (k : Task) (id : Nat) : s.Serves (s.quitCore k id) := by
  unfold State.quitCore
  split
  · exact .refl s
  · exact (s.updCore_serves ..).trans (State.sweepAllocs_serves ..)

theorem State.dropThreads_sheds (l : List Nat) (s : State) : Sheds l.reverse s (l.foldl State.dropThread s) := by
  induction l generalizing s with
  | nil => exact .refl s
  | cons j l ih => rw [List.reverse_cons]; exact (s.dropThread_sheds j).trans (ih _)

/-- A task that ends takes its threads with it, and no other. -/
theorem State.endTask_sheds {s : State} {id : Nat} {k : Task} (h : s.task? id = some k) (fault : Option (BitVec 8)) :
    Sheds ((s.threads.filter (·.task == id)).map (·.tid)).reverse s (s.endTask id fault) := by
  rw [State.endTask_eq h]
  generalize (s.threads.filter (·.task == id)).map (·.tid) = l
  have hleft := State.dropThreads_sheds l s
  generalize l.foldl State.dropThread s = e at hleft ⊢
  have hdone : e.Serves (((e.concludeTask k id fault).disown k id).noteBlock k fault) :=
    ((e.concludeTask_serves ..).trans (State.rewriteOwned_serves ..)).trans (State.noteBlock_serves ..)
  generalize ((e.concludeTask k id fault).disown k id).noteBlock k fault = e' at hdone ⊢
  refine .trans (m := []) (.trans (m := []) (.trans (m := []) hleft (.of_serves hdone)) ?_) (State.restoreFrames_sheds ..)
  exact (e'.removeTask_sheds id).trans (.of_serves ((State.failRingCopies_serves ..).trans (State.quitCore_serves ..)))

theorem State.endTask_task? (s : State) (id : Nat) (fault : Option (BitVec 8)) : (s.endTask id fault).task? id = none := by
  cases h : s.task? id with
  | none => rw [State.endTask_of_none h]; exact h
  | some k =>
    rw [State.endTask_eq h]
    generalize State.noteBlock _ k fault = e
    refine (State.restoreFrames_sheds ..).task?_none ((State.Sheds.of_serves (State.quitCore_serves ..)).task?_none
      ((State.Sheds.of_serves (State.failRingCopies_serves ..)).task?_none ?_))
    rw [State.task?, State.removeTask, List.find?_filter, List.find?_eq_none]
    simp

/-! ## The end of a thread (R268) -/

/-- The task of a thread that exits, with its result, and faulted where a handler ended it (R268, R352). -/
def State.noteExit (s : State) (t : Thread) : State :=
  let s : State :=
    if t.rank = 0 ∧ t.role = 0 then
      s.updTask t.task fun k =>
        { k with result := joinWords ((t.regs[0]?).getD ({} : Reg)).val ((t.regs[1]?).getD ({} : Reg)).val }
    else s
  if t.priv = .h then
    s.updTask t.task fun k => { k with faulted := if k.faulted.isSome then k.faulted else some t.frame.cause }
  else s

theorem State.exitThread_eq (s : State) (t : Thread) :
    s.exitThread t =
      let e := (s.noteExit t).dropThread t.tid
      if e.threads.any (·.task == t.task) then e
      else e.endTask t.task (if t.priv = .h then some t.frame.cause else none) := rfl

theorem State.noteExit_sheds (s : State) (t : Thread) : Sheds [] s (s.noteExit t) := by
  unfold State.noteExit
  have he : Sheds [] s (if t.rank = 0 ∧ t.role = 0 then s.updTask t.task fun k =>
      { k with result := joinWords ((t.regs[0]?).getD ({} : Reg)).val ((t.regs[1]?).getD ({} : Reg)).val } else s) :=
    .ite (s.updTask_sheds _ fun _ => rfl) (.refl s)
  dsimp only
  split
  · refine he.trans (State.updTask_sheds _ _ ?_)
    exact fun _ => rfl
  · exact he

/-- Only the thread that exits leaves the machine: its task has no other when it ends. -/
theorem State.exitThread_sheds (s : State) (t : Thread) : Sheds [t.tid] s (s.exitThread t) := by
  rw [State.exitThread_eq]
  have hleft : Sheds [t.tid] s ((s.noteExit t).dropThread t.tid) := (s.noteExit_sheds t).trans (State.dropThread_sheds ..)
  generalize (s.noteExit t).dropThread t.tid = e at hleft ⊢
  dsimp only
  split
  · exact hleft
  · next hlast =>
    cases hk : e.task? t.task with
    | none => rw [State.endTask_of_none hk]; exact hleft
    | some k =>
      have hnone : e.threads.filter (·.task == t.task) = [] := by
        rw [List.filter_eq_nil_iff]
        exact fun u hu hut => hlast (List.any_eq_true.2 ⟨u, hu, hut⟩)
      have hend := State.endTask_sheds hk (if t.priv = .h then some t.frame.cause else none)
      rw [hnone] at hend
      exact hleft.trans hend

theorem State.exitThread_task? {s : State} {t : Thread} (h : ∀ u ∈ s.threads, u.task = t.task → u.tid = t.tid) :
    (s.exitThread t).task? t.task = none := by
  rw [State.exitThread_eq]
  have hleft : Sheds [t.tid] s ((s.noteExit t).dropThread t.tid) := (s.noteExit_sheds t).trans (State.dropThread_sheds ..)
  generalize (s.noteExit t).dropThread t.tid = e at hleft ⊢
  dsimp only
  rw [if_neg]
  · exact e.endTask_task? ..
  · rw [hleft.any_task]
    simp only [List.any_eq_true, not_exists, not_and, Bool.and_eq_true, decide_eq_true_eq, beq_iff_eq, List.mem_singleton]
    exact fun u hu hut => not_not.2 (h u hu hut)

theorem find_narrowed {a b : List Task} (h : List.Forall₂ Task.Narrowed a b) {id : Nat} {k : Task}
    (hk : a.find? (·.id == id) = some k) : ∃ k', b.find? (·.id == id) = some k' ∧ k.Narrowed k' := by
  induction h with
  | nil => cases hk
  | cons hd _ ih =>
    obtain ⟨l, hl, rfl⟩ := hd
    rw [List.find?_cons] at hk ⊢
    dsimp only
    split at hk
    · obtain rfl := Option.some.inj hk
      exact ⟨_, rfl, l, hl, rfl⟩
    · exact ih hk

theorem State.disown_none {s : State} {k u : Task} {id : Nat} (hu : s.task? id = some u) (howned : u.owned = []) :
    s.disown k id = s := by
  unfold State.disown
  rw [hu, Option.map_some, Option.getD_some, howned]
  rfl

/-- The end of a task of one future, without a thread left, an owned future, or a block. -/
theorem State.endTask_simple {s : State} {id d c : Nat} {k : Task} (hk : s.task? id = some k)
    (hlast : ∀ u ∈ s.threads, u.task ≠ id) (hset : k.set = none) (hrfb : k.rfb = none) (howned : k.owned = [])
    (hloc : k.loc = .core d c) :
    let v := if k.kind = .gang then 0 else k.result
    let e := (s.fulfil k.ctx k.fut 1 (loWord v) (hiWord v) 0 (k.handle.toNat / 2 ^ 29) (k.handle.toNat / 2 ^ 23 % 64)
      k.handle).workEnded k.launch
    let e := ({ e with tasks := e.tasks.filter (·.id != id) } : State).failRingCopies id
    s.endTask id none = (((e.updCore (coreIdx d c) fun x =>
      { x with rings := x.rings.map fun r => if r.owner = some id then {} else r
               allocs := x.allocs.map fun a => if a.task = id then { a with ended := true } else a }).sweepAllocs
      (coreIdx d c)).restoreFrames k.adoptedBy false) := by
  have hnone : s.threads.filter (·.task == id) = [] := List.filter_eq_nil_iff.2 fun u hu => by simpa using hlast u hu
  obtain ⟨u, hu, l, hl, rfl⟩ := find_narrowed (s.concludeTask_serves k id none).tasks hk
  rw [State.endTask_eq hk, hnone]
  rw [List.map_nil, List.foldl_nil, State.disown_none hu (by rw [howned] at hl; exact List.sublist_nil.1 hl)]
  simp only [State.concludeTask, State.noteBlock, State.quitCore, State.removeTask, hset, hrfb, hloc]

/-! ## EXIT of an agent (R41, R268) -/

/-- EXIT of the threads of a list, in order. -/
def State.exitAll (s : State) (l : List Nat) : State :=
  l.foldl (fun e j => match e.thread? j with
    | some t => e.exitThread t.commitAll
    | none => e) s

theorem State.exit_step_sheds (s : State) (j : Nat) :
    Sheds [j] s (match s.thread? j with
      | some t => s.exitThread t.commitAll
      | none => s) := by
  cases hj : s.thread? j with
  | none => have h := s.dropThread_sheds j; rw [State.dropThread_of_none hj] at h; exact h
  | some t => have h := s.exitThread_sheds t.commitAll; rw [show t.commitAll.tid = j from State.thread?_tid (t := t) hj] at h; exact h

theorem State.exitAll_sheds (l : List Nat) (s : State) : Sheds l.reverse s (s.exitAll l) := by
  induction l generalizing s with
  | nil => exact .refl s
  | cons j l ih => rw [List.reverse_cons]; exact (s.exit_step_sheds j).trans (ih _)

theorem State.exitFirst_ok {s : State} {t : Thread} (hpend : ∀ p ∈ t.pend, p.known = true) (hcopies : ∀ l ∈ s.ldas, l.tid ≠ t.tid) :
    s.exitFirst t = .ok true := by
  have hnone : s.ldas.filter (·.tid == t.tid) = [] := List.filter_eq_nil_iff.2 fun l hl => by simpa using hcopies l hl
  have hknown : t.pend.any (!·.known) = false := List.any_eq_false.2 fun p hp => by simp [hpend p hp]
  unfold State.exitFirst
  simp only [hnone, hknown]
  rfl

/-- The body of EXIT. -/
def exitBody (f : Thread → State → Except Stop (State × Next)) : Body := fun j s =>
  match s.thread? j with
  | none => .ok (s, .gone)
  | some t => f t s

/-- The effect of EXIT in a thread (R268). -/
def exitEffect (t : Thread) (s : State) : Except Stop (State × Next) := do
  let done ← s.exitFirst t
  return if done then (s.exitThread t.commitAll, .gone) else (s, .retry .copies)

theorem exec_exit (h : Hdr) (s : State) : exec (.exit h) s = runThreads (.exit h) s (exitBody exitEffect) := rfl

/-- Threads with nothing open exit one after another. -/
theorem runBodies_exit (l : List Nat) (s : State)
    (hpend : ∀ j ∈ l, ∀ t, s.thread? j = some t → ∀ p ∈ t.pend, p.known = true) (hcopies : ∀ c ∈ s.ldas, c.tid ∉ l) :
    runBodies (exitBody exitEffect) l s = .ok (s.exitAll l, l.map fun j => (j, .gone)) := by
  induction l generalizing s with
  | nil => rfl
  | cons j l ih =>
    have hstep : exitBody exitEffect j s = .ok ((match s.thread? j with
        | some t => s.exitThread t.commitAll
        | none => s), .gone) := by
      unfold exitBody
      cases hj : s.thread? j with
      | none => rfl
      | some t =>
        have htid := State.thread?_tid hj
        simp only [exitEffect, State.exitFirst_ok (hpend j (.head _) t hj) fun c hc h => hcopies c hc (h.trans htid ▸ .head _)]
        rfl
    have hsheds := s.exit_step_sheds j
    rw [runBodies, hstep]
    dsimp only
    rw [ih _ (fun i hi t ht p hp => ?_) fun c hc hm => hcopies c (hsheds.ldas ▸ hc) (.tail _ hm)]
    · rfl
    · have hij : i ∉ [j] := fun h => absurd (hsheds.gone h) (by rw [ht]; exact Option.some_ne_none _)
      have hwho := hsheds.thread? hij
      rw [ht] at hwho
      obtain ⟨u, hu, he⟩ := Option.map_eq_some_iff.1 hwho.symm
      exact hpend i (.tail _ hi) u hu p ((Prod.mk.inj (Prod.mk.inj he).2).2 ▸ hp)

theorem map_of_absent {l : List Thread} {tids : List Nat} {f : Thread → Thread} (h : ∀ j ∈ tids, l.find? (·.tid == j) = none) :
    (l.map fun t => if tids.contains t.tid then f t else t) = l := by
  conv_rhs => rw [← List.map_id l]
  refine List.map_congr_left fun t ht => if_neg fun hc => ?_
  exact List.find?_eq_none.1 (h t.tid (List.contains_iff_mem.1 hc)) t ht (beq_self_eq_true _)

theorem State.updThreads_absent {s : State} {l : List Nat} (f : Thread → Thread) (h : ∀ j ∈ l, s.thread? j = none) :
    s.updThreads l f = s := by
  rw [State.updThreads, map_of_absent h]

/-- Where its threads have gone, the retirement of an instruction only passes the time. -/
theorem State.issued_absent {s : State} {l : List Nat} (h : ∀ j ∈ l, s.thread? j = none) :
    s.issued none l = { s with tick := s.tick + 1 } := by
  rw [State.issued, State.updThreads_absent _ h, State.refreshAge, State.updThreads_absent _ h]
  rfl

theorem foldl_gone (l : List Nat) (s : State) :
    (l.map fun j => (j, Next.gone)).foldl (fun s p => s.applyNext p.1 p.2) s = s := by
  induction l with
  | nil => rfl
  | cons j l ih => exact ih

theorem State.fallThrough_self (s : State) (l : List Nat) : s.fallThrough l l = s := by
  rw [State.fallThrough, List.filter_eq_nil_iff.2 fun j hj => by simpa using hj]
  exact State.updThreads_absent _ fun j hj => absurd hj List.not_mem_nil

/-- The issue count of an agent whose threads have gone: the core is that of the place where they ran. -/
def State.tallyGone (e : State) (p : Place) (n : Nat) : State :=
  match p.coreIdx? with
  | some k => e.tallyCore k 0x004 n
  | none => e

theorem State.tallyGone_thread? (e : State) (p : Place) (n j : Nat) : (e.tallyGone p n).thread? j = e.thread? j := by
  unfold State.tallyGone
  split
  · exact (e.tallyCore_serves ..).thread? j
  · rfl

theorem State.tallyEnded_gone {e s : State} {first : Nat} {rest : List Nat} {t : Thread} (hgone : e.thread? first = none)
    (ht : s.thread? first = some t) : e.tallyEnded s (first :: rest) = e.tallyGone t.place (rest.length + 1) := by
  unfold State.tallyEnded
  simp only [List.head?_cons, Option.bind_some, hgone, ht, List.length_cons]
  rfl

/-- EXIT of all the threads of an agent that has nothing open. -/
theorem exec_exit_all {h : Hdr} {s : State} {first : Nat} {rest : List Nat} {t0 t : Thread}
    (hi : s.issues (.exit h) (first :: rest) = true) (hact : s.acting (.exit h) (first :: rest) = first :: rest)
    (h0 : s.thread? first = some t0) (ht : (s.landed (.exit h) (first :: rest)).thread? first = some t)
    (hpend : ∀ j ∈ first :: rest, ∀ t, (s.landed (.exit h) (first :: rest)).thread? j = some t → ∀ p ∈ t.pend, p.known = true)
    (hcopies : ∀ c ∈ s.ldas, c.tid ∉ first :: rest) {m : State}
    (hm : m = ((s.landed (.exit h) (first :: rest)).exitAll (first :: rest)).tallyGone t.place (rest.length + 1)) :
    exec (.exit h) s = .next (((match s.cur with
      | .frag gid fid => m.split gid fid (t0.pc + 8)
      | _ => m).issued none (first :: rest)).parkCheck (first :: rest)) := by
  have hldas : (s.landed (.exit h) (first :: rest)).ldas = s.ldas := by
    obtain ⟨_, _, _, _, _, he⟩ := (s.landDue (.exit h) (first :: rest)).lookUps_looked (.exit h) (first :: rest)
    rw [State.landed, he]
    rfl
  have hrun := runBodies_exit (first :: rest) (s.landed (.exit h) (first :: rest)) hpend (by rw [hldas]; exact hcopies)
  rw [exec_exit, runThreads, runStaged_course rfl hi h0 (runStage_ok _ _) (by rw [hact]; exact hrun) (by simp [Next.isRetry]),
    if_neg (by simp [Next.isAwait]), hact]
  dsimp only
  rw [foldl_gone, State.fallThrough_self,
    State.tallyEnded_gone ((State.exitAll_sheds (first :: rest) _).gone (List.mem_reverse.2 (.head _))) ht, if_pos (by simp), hm] <;> rfl

/-- An agent of which no thread is left adopts nothing. -/
theorem State.parkCheck_absent {s : State} {l : List Nat} (h : ∀ j ∈ l, s.thread? j = none) : s.parkCheck l = s.endAdoptions := by
  have hnone : s.tryAdopt l = none := by
    unfold State.tryAdopt State.waitersOn
    rw [List.filterMap_eq_nil_iff.2 h]
    rfl
  rw [State.parkCheck, hnone]

/-- EXIT of a free thread. -/
theorem exec_exit_free {h : Hdr} {s : State} {t : Thread} (hcur : s.cur = .thread t.tid) (hi : s.issues (.exit h) [t.tid] = true)
    (ht : (s.landed (.exit h) [t.tid]).thread? t.tid = some t) (hg : t.guards h = true) (hpend : ∀ p ∈ t.pend, p.known = true)
    (hcopies : ∀ l ∈ s.ldas, l.tid ≠ t.tid) {m : State}
    (hm : m = ((s.landed (.exit h) [t.tid]).exitThread t.commitAll).tallyGone t.place 1) :
    exec (.exit h) s = .next (({ m with tick := m.tick + 1 } : State).endAdoptions) := by
  obtain ⟨t0, h0, -⟩ := State.issues_thread hi (j := t.tid) (by simp)
  have hact : s.acting (.exit h) [t.tid] = [t.tid] := by
    show (s.landed (.exit h) [t.tid]).activeTids h [t.tid] = [t.tid]
    simp only [State.activeTids, List.filter_cons, ht, Option.any_some, hg, if_true, List.filter_nil]
  have hall : (s.landed (.exit h) [t.tid]).exitAll [t.tid] = (s.landed (.exit h) [t.tid]).exitThread t.commitAll := by
    simp only [State.exitAll, List.foldl_cons, List.foldl_nil, ht]
  have hexit := exec_exit_all hi hact h0 ht (fun j hj u hu => by
    rw [List.mem_singleton.1 hj, ht] at hu
    exact Option.some.inj hu ▸ hpend) (fun c hc hm => hcopies c hc (List.mem_singleton.1 hm)) (m := m) (by rw [hm, hall, List.length_nil])
  have hgone : ∀ j ∈ [t.tid], m.thread? j = none := by
    intro j hj
    rw [hm, State.tallyGone_thread?]
    exact (State.exitThread_sheds _ t.commitAll).gone hj
  rw [hexit, hcur]
  dsimp only
  rw [State.issued_absent hgone]
  exact congrArg _ (State.parkCheck_absent hgone)

theorem exec_exit_frag {h : Hdr} {s : State} {gid fid first : Nat} {rest : List Nat} {t0 : Thread} (hcur : s.cur = .frag gid fid)
    (hi : s.issues (.exit h) (first :: rest) = true) (hact : s.acting (.exit h) (first :: rest) = first :: rest)
    (h0 : s.thread? first = some t0)
    (hpend : ∀ j ∈ first :: rest, ∀ t, s.thread? j = some t → ∀ p ∈ t.pend, p.known = true)
    (hcopies : ∀ c ∈ s.ldas, c.tid ∉ first :: rest) {m : State}
    (hm : m = ((s.landed (.exit h) (first :: rest)).exitAll (first :: rest)).tallyGone t0.place (rest.length + 1)) :
    exec (.exit h) s = .next (((m.split gid fid (t0.pc + 8)).issued none (first :: rest)).parkCheck (first :: rest)) := by
  have hland : ∀ j ∈ first :: rest, (s.landed (.exit h) (first :: rest)).thread? j =
      (s.thread? j).map fun t => t.commitDue (s.readsOf (.exit h) (first :: rest) t) := by
    intro j hj
    rw [State.landed_thread?]
    simp only [hj, if_true]
  have hexit := exec_exit_all hi hact h0 (t := t0.commitDue (s.readsOf (.exit h) (first :: rest) t0))
    (by rw [hland first (.head _), h0, Option.map_some]) (fun j hj u hu p hp => by
    rw [hland j hj] at hu
    obtain ⟨t, ht, rfl⟩ := Option.map_eq_some_iff.1 hu
    exact hpend j hj t ht p (List.mem_of_mem_filter hp)) hcopies (m := m) hm
  rw [hexit, hcur]

/-! ## The group of a thread that leaves (R41) -/

theorem State.find?_mapGroup {l : List Group} {gid k : Nat} {f : Group → Group} (hf : ∀ g, (f g).gid = g.gid) :
    (l.map fun g => if g.gid = gid then f g else g).find? (·.gid == k) =
      (l.find? (·.gid == k)).map fun g => if g.gid = gid then f g else g := by
  rw [List.find?_map]
  congr 2
  funext g
  simp only [Function.comp]
  split
  · rw [hf]
  · rfl

theorem State.group?_updGroup (s : State) (gid k : Nat) {f : Group → Group} (hf : ∀ g, (f g).gid = g.gid) :
    (s.updGroup gid f).group? k = (s.group? k).map fun g => if g.gid = gid then f g else g := State.find?_mapGroup hf

theorem State.group?_gid {s : State} {gid : Nat} {g : Group} (h : s.group? gid = some g) : g.gid = gid := by
  simpa using List.find?_some h

theorem State.group?_updGroup_same {s : State} {gid : Nat} {g : Group} (h : s.group? gid = some g) {f : Group → Group}
    (hf : ∀ g, (f g).gid = g.gid) : (s.updGroup gid f).group? gid = some (f g) := by
  rw [State.group?_updGroup _ _ _ hf, h, Option.map_some, if_pos (State.group?_gid h)]

theorem State.unlist_groups (s : State) (t : Thread) (j : Nat) : (s.unlist t j).groups = s.groups := by
  have hask : (if t.unsent = true then s.dropRequests [j] else s).groups = s.groups := by
    split
    · exact (s.dropRequests_serves _).groups
    · rfl
  unfold State.unlist
  dsimp only
  split
  · exact hask
  · exact hask

theorem State.release_groups (s : State) (a : Actor) : (s.release a).groups = s.groups := by
  unfold State.release
  dsimp only
  split <;> rfl

theorem State.foldl_groups {α : Type} {f : State → α → State} (hf : ∀ s a, (f s a).groups = s.groups) (l : List α) (s : State) :
    (l.foldl f s).groups = s.groups := by
  induction l generalizing s with
  | nil => rfl
  | cons a l ih => exact (ih _).trans (hf s a)

theorem State.settle_groups {s : State} {gid : Nat} {g : Group} (h : s.group? gid = some g) :
    (s.settle gid).groups = (s.updGroup gid fun x =>
      { x with merge := (settleMerge g.exited g.merge g.frags []).1, frags := (settleMerge g.exited g.merge g.frags []).2.1 }).groups := by
  unfold State.settle
  rw [h]
  refine State.foldl_groups (fun s p => ?_) _ _
  rfl

theorem State.endGroup_group? (s : State) (gid : Nat) : (s.endGroup gid).group? gid = none := by
  unfold State.endGroup
  split
  · assumption
  · rw [State.group?, List.find?_filter, List.find?_eq_none]
    simp

theorem State.dropThread_group {s : State} {t : Thread} {gid r : Nat} {g : Group} (ht : s.thread? t.tid = some t)
    (hm : t.member = some (gid, r)) (hg : s.group? gid = some g) :
    let m : BitVec 32 := g.exited ||| 1 <<< r
    (BitVec.ofNat 32 (2 ^ g.members.length - 1) &&& ~~~m = 0 → (s.dropThread t.tid).group? gid = none) ∧
    (BitVec.ofNat 32 (2 ^ g.members.length - 1) &&& ~~~m ≠ 0 → ∃ g', (s.dropThread t.tid).group? gid = some g' ∧
      g'.exited = m ∧ g'.members = g.members ∧ g'.tile = g.tile ∧ g'.sregs = g.sregs) := by
  have hleft : ((s.unlist t t.tid).updGroup gid fun g => g.without r).group? gid = some (g.without r) :=
    State.group?_updGroup_same (by rw [State.group?, State.unlist_groups]; exact hg) fun _ => rfl
  rw [State.dropThread_member ht hm]
  generalize (s.unlist t t.tid).updGroup gid (fun g => g.without r) = e at hleft ⊢
  unfold State.regroup
  rw [hleft]
  dsimp only
  refine ⟨fun hlast => ?_, fun hlive => ?_⟩
  · rw [if_pos (show (g.without r).live = 0 from hlast)]
    exact State.endGroup_group? ..
  · rw [if_neg (show ¬ (g.without r).live = 0 from hlive)]
    refine ⟨{ g.without r with
      merge := (settleMerge (g.without r).exited (g.without r).merge (g.without r).frags []).1
      frags := (settleMerge (g.without r).exited (g.without r).merge (g.without r).frags []).2.1 }, ?_, rfl, rfl, rfl, rfl⟩
    rw [State.group?, State.foldl_groups (fun s fid => by split; exacts [rfl, s.release_groups _]), State.settle_groups hleft]
    exact State.group?_updGroup_same hleft (f := fun x => { x with
      merge := (settleMerge (g.without r).exited (g.without r).merge (g.without r).frags []).1
      frags := (settleMerge (g.without r).exited (g.without r).merge (g.without r).frags []).2.1 }) fun _ => rfl

/-! ## MSET and MEET (R44, R45, R269) -/

/-- An instruction that acts once and lets a free thread go on is a NOP there. -/
theorem runOnce_free {i : Instr} {h : Hdr} (hh : i.hdr? = some h) {s : State} {j : Nat} {f : Coll → State → Except Stop (State × Bool)}
    (hcur : s.cur = .thread j) (hi : s.issues i [j] = true) :
    ∃ s', runOnce i s .ok f = .next s' ∧ (s.landed i [j]).retires s' [j] := by
  by_cases ha : s.acting i [j] = []
  · exact ⟨_, runOnce_of_idle hh hi ha, State.retires_idle _ _⟩
  · obtain ⟨hat, -, -, hsk, -, hw⟩ := State.issues_agent hi
    have hact : ((s.landDue i [j]).lookUps i [j]).activeTids h [j] = s.acting i [j] := by
      rw [State.acting, hh]; rfl
    refine ⟨_, ?_, State.retires_idle _ _⟩
    unfold runOnce
    rw [hat]
    simp only [hw, Bool.false_eq_true, if_false, State.issues_agentStop hi, hh, hact, hsk, hcur]
    rw [hcur] at hsk
    rw [if_neg (by simpa using ha), hsk]
    rfl

theorem exec_mset (h : Hdr) (imm : BitVec 24) (s : State) : exec (.mset h imm) s =
    runOnce (.mset h imm) s .ok fun c s => (c.mset s (relTarget c.pc imm)).map fun s => (s, false) := rfl

theorem exec_meet (h : Hdr) (s : State) : exec (.meet h) s = runOnce (.meet h) s .ok fun c s => .ok (c.meet s) := rfl

theorem Coll.mset_ok {c : Coll} {e e' : State} {pc : Dword}
    (h : (if c.g.merge.length < 32 then some (e.updGroup c.g.gid fun g => { g with merge := g.merge ++ [{ pc, mask := c.f.mask }] })
      else none) = some e') : c.mset e pc = .ok e' := by
  split at h
  · next hroom =>
    obtain rfl := Option.some.inj h
    exact if_neg (Nat.not_le.2 hroom)
  · cases h

theorem mergeAt_eq_none {l : List Merge} {pc : Dword} (h : (l.any fun m => m.pc == pc) = false) : mergeAt l pc = none := by
  have hnone : (l.zipIdx).filter (fun p => p.1.pc == pc) = [] := by
    rw [List.filter_eq_nil_iff]
    intro p hp hpc
    exact List.any_eq_false.1 h p.1 (List.fst_mem_of_mem_zipIdx hp) hpc
  rw [mergeAt, hnone]
  rfl

theorem mergeAt_append (l : List Merge) (m : Merge) (pc : Dword) :
    mergeAt (l ++ [m]) pc = if m.pc = pc then some l.length else mergeAt l pc := by
  unfold mergeAt
  rw [List.zipIdx_append, List.filter_append]
  simp only [List.zipIdx_singleton, List.filter_cons, List.filter_nil, beq_iff_eq]
  split
  · rw [List.getLast?_append]
    simp
  · rw [List.append_nil]

/-- The topmost entry for a PC names it, and none above it does. -/
theorem mergeAt_spec {l : List Merge} {pc : Dword} {k : Nat} (h : mergeAt l pc = some k) :
    (∃ m, l[k]? = some m ∧ m.pc = pc) ∧ ∀ j m, k < j → l[j]? = some m → m.pc ≠ pc := by
  induction l using List.reverseRecOn with
  | nil => cases h
  | append_singleton l a ih =>
    rw [mergeAt_append] at h
    split at h
    · next hpc =>
      obtain rfl := Option.some.inj h
      refine ⟨⟨a, List.getElem?_concat_length, hpc⟩, fun j m hj hm => ?_⟩
      rw [List.getElem?_eq_none (by simpa using hj)] at hm
      cases hm
    · next hpc =>
      obtain ⟨⟨m, hm, he⟩, habove⟩ := ih h
      have hk : k < l.length := (List.getElem?_eq_some_iff.1 hm).1
      refine ⟨⟨m, by rw [List.getElem?_append_left hk, hm], he⟩, fun j m hj hm => ?_⟩
      obtain hlt | hge := Nat.lt_or_ge j l.length
      · exact habove j m hj (by rwa [List.getElem?_append_left hlt] at hm)
      · rw [List.getElem?_append_right hge] at hm
        obtain rfl : m = a := by
          have hmem := List.mem_of_getElem? hm
          simpa using hmem
        exact hpc

/-- MEET at an entry parks its fragment there (R45). -/
theorem exec_meet_parks {h : Hdr} {s : State} {tids : List Nat} {c : Coll} {k : Nat} (hi : s.issues (.meet h) tids = true)
    (hc : s.coll (.meet h) tids = some c) (ha : s.acting (.meet h) tids ≠ []) (hk : mergeAt c.g.merge c.pc = some k) :
    exec (.meet h) s = .next (((((((s.landed (.meet h) tids).updGroup c.g.gid fun g => g.arrive c.f k).updThreads
      (c.g.threadsOf c.f.mask) fun t => { t with status := .parked .meet }).settle c.g.gid).tallyIssue tids).issued
        none tids).endAdoptions) := by
  obtain ⟨hat, hne, -, hsk, -, hw⟩ := State.issues_agent hi
  obtain ⟨first, rest, rfl⟩ := List.exists_cons_of_ne_nil hne
  have hact : (s.landed (.meet h) (first :: rest)).activeTids h (first :: rest) = s.acting (.meet h) (first :: rest) := rfl
  have hmeet : c.meet (s.landed (.meet h) (first :: rest)) = (((((s.landed (.meet h) (first :: rest)).updGroup c.g.gid fun g =>
      g.arrive c.f k).updThreads (c.g.threadsOf c.f.mask) fun t => { t with status := .parked .meet }).settle c.g.gid), true) := by
    rw [Coll.meet, hk]
  generalize ((((s.landed (.meet h) (first :: rest)).updGroup c.g.gid _).updThreads _ _).settle c.g.gid) = e at hmeet ⊢
  unfold State.coll at hc
  split at hc
  · next gid fid hcur =>
    obtain ⟨g, hg, hc⟩ := Option.bind_eq_some_iff.1 hc
    obtain ⟨fr, hfr, hc⟩ := Option.map_eq_some_iff.1 hc
    have hg' : (s.landed (.meet h) (first :: rest)).group? gid = some g := by
      rw [State.group?, State.landed_groups]; exact hg
    rw [exec_meet]
    unfold runOnce
    rw [hat]
    simp only [hw, Bool.false_eq_true, if_false]
    rw [State.issues_agentStop hi]
    dsimp only
    rw [show (s.landDue (.meet h) (first :: rest)).lookUps (.meet h) (first :: rest) = s.landed (.meet h) (first :: rest) from rfl,
      show (Instr.meet h).hdr? = some h from rfl]
    simp only [hact]
    rw [if_neg (by simpa using ha), hsk, hcur]
    simp only [hg', Option.bind_some, hfr, Option.map_some, hc, hmeet]
    rfl
  · cases hc

/-- Settles O11: EXIT sheds exactly its threads, and the last one ends its task and its group; MSET and MEET act on the merge
stack of the fragment's group. -/
theorem exitAndMergeResults : Obligations.ExitAndMergeResults := by
  refine ⟨fun h s t hcur hi ht hg hpend hcopies => ⟨exec_exit_free hcur hi ht hg hpend hcopies rfl,
      (State.exitThread_sheds _ t.commitAll).gone (.head _)⟩,
    fun h s gid fid first rest t0 hcur hi hact h0 hpend hcopies => exec_exit_frag hcur hi hact h0 hpend hcopies rfl,
    fun s t j hj => ?_, fun s t u j hu hj _ => ?_, fun s t => State.exitThread_task?,
    fun s id k d c => State.endTask_simple, fun s t gid r g => State.dropThread_group, ?_, fun h imm => ?_, fun h => ?_,
    fun h s tids c k => exec_meet_parks, fun l pc k => mergeAt_spec⟩
  · obtain ⟨hs, hne⟩ := (s.exitThread_sheds t).isSome.1 hj
    exact ⟨hs, fun he => hne (he ▸ .head _)⟩
  · exact (s.exitThread_sheds t).isSome.2 ⟨by rw [hu]; rfl, fun h => hj (List.mem_singleton.1 h)⟩
  · intro h imm i hi s j hcur his
    simp only [List.mem_cons, List.not_mem_nil, or_false] at hi
    obtain rfl | rfl := hi
    · rw [exec_mset]; exact runOnce_free rfl hcur his
    · rw [exec_meet]; exact runOnce_free rfl hcur his
  · intro s tids c e hi hc ha hf
    rw [exec_mset]
    exact runOnce_does rfl hi hc ha (by rw [relTarget, Coll.mset_ok hf]; rfl)
  · intro s tids c e hi hc ha hf
    dsimp only at hf
    split at hf
    · cases hf
    · next hnone =>
      obtain rfl := Option.some.inj hf
      rw [exec_meet]
      exact runOnce_does rfl hi hc ha (by rw [Coll.meet, mergeAt_eq_none (Bool.eq_false_iff.2 hnone)])

end Sys2Proof.Machine
end

section
/-! What an access is translated and checked by (R272, R420, R422): two states that agree on it answer alike. -/

namespace Sys2Proof.Machine

/-- A check that passes: the computation goes on with its answer. -/
theorem ok_bind {α β : Type} (a : α) (f : α → Except Stop β) : (Except.ok a >>= f) = f a := rfl

theorem bind_eq_ok {α β : Type} {x : Except Stop α} {f : α → Except Stop β} {b : β} (h : (x >>= f) = .ok b) :
    ∃ a, x = .ok a ∧ f a = .ok b := by
  cases x with
  | error e => cases h
  | ok a => exact ⟨a, rfl, h⟩

theorem State.bytes_congr {s e : State} (h : e.mem = s.mem) (key n : Nat) : e.bytes key n = s.bytes key n := by
  induction n generalizing key with
  | zero => rfl
  | succ n ih => rw [State.bytes, State.bytes, ih, State.byte, State.byte, h]

/-- `e` translates as `s` does: the tables in memory, the contexts and the TLBs of the agent that acts are the same. -/
structure State.Sees (s e : State) : Prop where
  mem : e.mem = s.mem
  poison : e.poison = s.poison
  ctxs : e.ctxs = s.ctxs
  tlb : e.tlb = s.tlb
  units : e.tlbUnits = s.tlbUnits

namespace State.Sees

variable {s e : State}

theorem refl (s : State) : s.Sees s := ⟨rfl, rfl, rfl, rfl, rfl⟩

theorem trans {a b c : State} (h : a.Sees b) (g : b.Sees c) : a.Sees c :=
  ⟨g.mem.trans h.mem, g.poison.trans h.poison, g.ctxs.trans h.ctxs, g.tlb.trans h.tlb, g.units.trans h.units⟩

/-- Where the agent, its threads and its group are the same, its TLBs are. -/
theorem of_same (mem : e.mem = s.mem) (poison : e.poison = s.poison) (ctxs : e.ctxs = s.ctxs) (tlb : e.tlb = s.tlb)
    (cur : e.cur = s.cur) (threads : e.threads = s.threads) (groups : e.groups = s.groups) : s.Sees e := by
  refine ⟨mem, poison, ctxs, tlb, ?_⟩
  unfold State.tlbUnits State.thread? State.group?
  rw [cur, threads, groups]

theorem of_cached (h : s.Cached e) : s.Sees e := by
  obtain ⟨_, _, _, _, _, _, _, _, _, rfl⟩ := h
  exact of_same rfl rfl rfl rfl rfl rfl rfl

theorem num (h : s.Sees e) (key n : Nat) : e.num key n = s.num key n := by
  rw [State.num, State.num, State.bytes_congr h.mem]

theorem poisoned (h : s.Sees e) (key n : Nat) : e.poisoned key n = s.poisoned key n := by
  rw [State.poisoned, State.poisoned, h.poison]

theorem walk (h : s.Sees e) (va : Nat) (l : List Nat) (table level : Nat) : e.walk va table level l = s.walk va table level l := by
  induction l generalizing table level with
  | nil => rfl
  | cons sh l ih =>
    rw [State.walk, State.walk]
    simp only [h.num, h.poisoned, ih]

theorem ctx? (h : s.Sees e) (c : Nat) : e.ctx? c = s.ctx? c := by rw [State.ctx?, State.ctx?, h.ctxs]

theorem leaf (h : s.Sees e) (c : Nat) (va : Dword) : e.leaf c va = s.leaf c va := by
  have hfind : e.tlbFind e.tlbUnits c va = s.tlbFind s.tlbUnits c va := by
    rw [State.tlbFind, State.tlbFind, h.tlb, h.units]
  have hwalk : e.walkNow c va = s.walkNow c va := by
    unfold State.walkNow
    rw [h.ctx?]
    split
    · rfl
    · exact h.walk ..
  rw [State.leaf, State.leaf, hfind, hwalk]

theorem locate (h : s.Sees e) (c : Nat) (va : Dword) (acc : Acc) (test : Bool) : e.locate c va acc test = s.locate c va acc test := by
  unfold State.locate
  rw [h.leaf, h.ctx?]

theorem key (h : s.Sees e) (c : Nat) (va : Dword) (acc : Acc) : e.key c va acc = s.key c va acc := by
  unfold State.key
  rw [h.locate]

theorem bpHit (h : s.Sees e) (c : Nat) (va : Dword) (n : Nat) (kinds : List Nat) : e.bpHit c va n kinds = s.bpHit c va n kinds := by
  unfold State.bpHit
  rw [h.ctx?]

end State.Sees

/-! ## Before an instruction -/

/-- The results that land and what is looked up before an instruction. -/
theorem State.landed_eq (s : State) (i : Instr) (tids : List Nat) : ∃ threads home counts windowCounts dieCounters cores,
    s.landed i tids = { s with threads, home, counts, windowCounts, dieCounters, cores } := by
  obtain ⟨_, _, _, _, _, he⟩ := (s.landDue i tids).lookUps_looked i tids
  exact ⟨_, _, _, _, _, _, he⟩

theorem State.landed_place (s : State) (i : Instr) (tids : List Nat) (j : Nat) :
    ((s.landed i tids).thread? j).map (·.place) = (s.thread? j).map (·.place) := by
  rw [State.landed_thread?, Option.map_map]
  congr 1
  funext t
  simp only [Function.comp]
  split <;> rfl

theorem State.landed_sees (s : State) (i : Instr) (tids : List Nat) : s.Sees (s.landed i tids) := by
  have hunits : (s.landed i tids).tlbUnits = s.tlbUnits := by
    unfold State.tlbUnits State.group?
    rw [State.landed_cur, State.landed_groups]
    have hplace := fun j => congrArg (fun x => (x.map Place.tlbs).getD []) (s.landed_place i tids j)
    simp only [Option.map_map] at hplace
    split
    · next j _ => exact hplace j
    all_goals rfl
  obtain ⟨_, _, _, _, _, _, he⟩ := s.landed_eq i tids
  exact ⟨by rw [he], by rw [he], by rw [he], by rw [he], hunits⟩

theorem State.landed_ldas (s : State) (i : Instr) (tids : List Nat) : (s.landed i tids).ldas = s.ldas := by
  obtain ⟨_, _, _, _, _, _, he⟩ := s.landed_eq i tids
  rw [he]

theorem State.landed_cells (s : State) (i : Instr) (tids : List Nat) : (s.landed i tids).cells = s.cells := by
  obtain ⟨_, _, _, _, _, _, he⟩ := s.landed_eq i tids
  rw [he]

theorem State.landed_unreadAt (s : State) (i : Instr) (tids : List Nat) (t : Thread) (va : Dword) (n : Nat) :
    (s.landed i tids).unreadAt t va n = s.unreadAt t va n := by
  rw [State.unreadAt, State.unreadAt, State.landed_ldas]

theorem State.landed_allocOf (s : State) (i : Instr) (tids : List Nat) (t : Thread) : (s.landed i tids).allocOf t = s.allocOf t := by
  obtain ⟨_, _, _, _, _, _, he⟩ := s.landed_eq i tids
  rw [he]
  rfl

end Sys2Proof.Machine
end

section
/-! Loads and stores, and the bytes of their spans (R273). -/

namespace Sys2Proof.Machine

/-! ## Bytes of numbers and words -/

theorem natLe_length (n x : Nat) : (natLe n x).length = n := by
  induction n generalizing x with
  | zero => rfl
  | succ n ih => rw [natLe, List.length_cons, ih]

theorem natLe_getD {n i : Nat} (x : Nat) (h : i < n) : (natLe n x).getD i 0 = BitVec.ofNat 8 (x / 256 ^ i) := by
  induction n generalizing x i with
  | zero => exact absurd h (Nat.not_lt_zero _)
  | succ n ih =>
    cases i with
    | zero => rw [natLe, List.getD_cons_zero, pow_zero, Nat.div_one]
    | succ i => rw [natLe, List.getD_cons_succ, ih _ (Nat.lt_of_succ_lt_succ h), Nat.div_div_eq_div_mul, pow_succ']

theorem leNat_div (l : List Byte) (n : Nat) : leNat l / 256 ^ n = leNat (l.drop n) := by
  induction n generalizing l with
  | zero => simp
  | succ n ih =>
    cases l with
    | nil => simp [leNat]
    | cons b l =>
      rw [List.drop_succ_cons, ← ih l, pow_succ', ← Nat.div_div_eq_div_mul, leNat]
      congr 1
      have hb := b.isLt
      omega

theorem ofNat_leNat (l : List Byte) : BitVec.ofNat 8 (leNat l) = l.getD 0 0 := by
  cases l with
  | nil => rfl
  | cons b l =>
    refine BitVec.eq_of_toNat_eq ?_
    rw [BitVec.toNat_ofNat, leNat, List.getD_cons_zero]
    have hb := b.isLt
    omega

theorem leNat_byte (l : List Byte) (n : Nat) : BitVec.ofNat 8 (leNat l / 256 ^ n) = l.getD n 0 := by
  rw [leNat_div, ofNat_leNat, List.getD_eq_getElem?_getD, List.getD_eq_getElem?_getD, List.getElem?_drop, Nat.add_zero]

theorem spanNat_div (l : List Word) (n : Nat) : spanNat l / 2 ^ (32 * n) = spanNat (l.drop n) := by
  induction n generalizing l with
  | zero => simp
  | succ n ih =>
    cases l with
    | nil => simp [spanNat]
    | cons w l =>
      rw [List.drop_succ_cons, ← ih l, Nat.mul_succ, pow_add, mul_comm, ← Nat.div_div_eq_div_mul, spanNat]
      congr 1
      have hw := w.isLt
      omega

theorem ofNat_spanNat (l : List Word) : BitVec.ofNat 32 (spanNat l) = l.getD 0 0 := by
  cases l with
  | nil => rfl
  | cons w l =>
    refine BitVec.eq_of_toNat_eq ?_
    rw [BitVec.toNat_ofNat, spanNat, List.getD_cons_zero]
    have hw := w.isLt
    omega

/-- A byte of a word, out of the number that the word is the low part of. -/
theorem byte_of_word (x i : Nat) (h : i < 4) : ((BitVec.ofNat 32 x) >>> (8 * i)).setWidth 8 = BitVec.ofNat 8 (x / 256 ^ i) := by
  refine BitVec.eq_of_toNat_eq ?_
  rw [BitVec.toNat_setWidth, BitVec.toNat_ushiftRight, BitVec.toNat_ofNat, BitVec.toNat_ofNat, Nat.shiftRight_eq_div_pow]
  obtain rfl | rfl | rfl | rfl : i = 0 ∨ i = 1 ∨ i = 2 ∨ i = 3 := by omega
  all_goals norm_num
  all_goals omega

theorem pow_256 (n : Nat) : 256 ^ (4 * n) = 2 ^ (32 * n) := by
  rw [show 256 = 2 ^ 8 from rfl, ← pow_mul]
  congr 1
  omega

theorem regsOf_val (tags : List Tag) (x k : Nat) (h : k < tags.length) :
    ((regsOf x tags).getD k {}).val = BitVec.ofNat 32 (x / 2 ^ (32 * k)) := by
  induction tags generalizing x k with
  | nil => exact absurd h (Nat.not_lt_zero _)
  | cons g tags ih =>
    cases k with
    | zero => rw [regsOf, List.getD_cons_zero, Nat.mul_zero, pow_zero, Nat.div_one]
    | succ k =>
      rw [regsOf, List.getD_cons_succ, ih _ _ (Nat.lt_of_succ_lt_succ h), Nat.div_div_eq_div_mul, Nat.mul_succ, pow_add, mul_comm]

/-- The bytes that a load puts into its registers. -/
theorem regsOf_byte (l : List Byte) (tags : List Tag) (k i : Nat) (hk : k < tags.length) (hi : i < 4) :
    (((regsOf (leNat l) tags).getD k {}).val >>> (8 * i)).setWidth 8 = l.getD (4 * k + i) 0 := by
  rw [regsOf_val _ _ _ hk, byte_of_word _ _ hi, ← pow_256, Nat.div_div_eq_div_mul, ← pow_add, leNat_byte]

theorem Thread.span_getD {t : Thread} {r : GReg} {n k : Nat} (h : k < n) : (t.span r n).getD k 0 = (t.reg (r.toNat + k)).val := by
  rw [Thread.span, List.getD_eq_getElem?_getD, List.getElem?_map, List.getElem?_range h]
  rfl

/-- The bytes that a store takes from its registers. -/
theorem storeBytes_byte (t : Thread) (b : GReg) (sz : MSize) {i : Nat} (h : i < sz.bytes) :
    (storeBytes t b sz).getD i 0 = ((t.reg (b.toNat + i / 4)).val >>> (8 * (i % 4))).setWidth 8 := by
  have hspan : i / 4 < sz.span := by
    cases sz <;> simp only [MSize.bytes, MSize.span] at h ⊢ <;> omega
  have hword : BitVec.ofNat 32 (spanNat (t.span b sz.span) / 2 ^ (32 * (i / 4))) = (t.reg (b.toNat + i / 4)).val := by
    rw [spanNat_div, ofNat_spanNat, List.getD_eq_getElem?_getD, List.getElem?_drop, ← List.getD_eq_getElem?_getD, Nat.add_zero,
      Thread.span_getD hspan]
  rw [storeBytes, natLe_getD _ h, ← hword, byte_of_word _ _ (Nat.mod_lt _ (by decide)), ← pow_256, Nat.div_div_eq_div_mul,
    ← pow_add, Nat.div_add_mod]

theorem storeBytes_length (t : Thread) (b : GReg) (sz : MSize) : (storeBytes t b sz).length = sz.bytes := natLe_length _ _

/-! ## Loads -/

theorem State.keeps_putLong (s : State) (i : Nat) (la : BitVec 4) (n : Nat) (l : List Reg) :
    s.Keeps (s.updThread i fun t => t.putLong la n l) :=
  State.keeps_updThread_of (fun t => Thread.putLong_keeps (·.pc) (fun _ _ _ => rfl) (fun _ _ => rfl) t la n l)
    fun t => Thread.putLong_keeps (·.tid) (fun _ _ _ => rfl) (fun _ _ => rfl) t la n l

/-- A load completes where its bytes can be read, and leaves no more than its sectors in the caches. -/
theorem does_load {i : Instr} {h h' : Hdr} (hh : i.hdr? = some h') {sz : MSize} {d : GReg} {fill : Thread → State → State}
    {read : Thread → State → Except Stop (List Byte)} {f : Thread → State → Option State}
    (he : ∀ s, exec i s = runLoad i s h sz d fill read) (hfill : ∀ t (s : State), s.Cached (fill t s))
    (hf : ∀ t s e, f t s = some e → ∃ l, read t s = .ok l ∧
      (fill t s).updThread t.tid (fun t => t.putLong h.la d.toNat (regsOf (leNat l) (sizeTags sz))) = e) : Does i f := by
  refine does_of hh he (fun t s e hs => ?_) fun t s e _ hs => ?_
  · obtain ⟨l, hl, rfl⟩ := hf t s e hs
    rw [hl]
  · obtain ⟨l, -, rfl⟩ := hf t s e hs
    exact (hfill t s).stored.keeps.trans (State.keeps_putLong ..)

theorem offAddr_toNat (o : Word) : (offAddr o).toNat = o.toNat := by
  rw [offAddr, BitVec.toNat_setWidth]
  exact Nat.mod_eq_of_lt (o.isLt.trans (by decide))

theorem offAddr_aligned {o : Word} {n : Nat} {acc : Acc} (h : o.toNat % n = 0) : aligned (offAddr o) n acc = .ok () :=
  aligned_ok (by rw [offAddr_toNat]; exact h)

theorem State.scratchKey_ok {s : State} {t : Thread} {off n : Nat} {acc : Acc} (h : off + n ≤ (s.allocOf t).2.2) :
    s.scratchKey t off n acc = .ok ((s.allocOf t).1 * 2 ^ 18 + (s.allocOf t).2.1 + off) := if_pos h

theorem localRange_ok {t : Thread} {o : Word} {n : Nat} {acc : Acc} (h : o.toNat + n ≤ t.localBytes) :
    localRange t o n acc = .ok () := if_pos h

theorem does_ld (h : Hdr) (sz : MSize) (ord : Ord4) (scope : Scope) (d a : GReg) (off : BitVec 8) :
    Does (.ld h sz ord scope d a off) fun t s =>
      if (globalAddr t a off sz.bytes).toNat % sz.bytes ≠ 0 then none
      else match s.dataLoad t (globalAddr t a off sz.bytes) sz.bytes h.ch.toNat with
        | .ok l => some ((s.loadFill t (globalAddr t a off sz.bytes) h.ch.toNat).updThread t.tid fun t =>
            t.putLong h.la d.toNat (regsOf (leNat l) (sizeTags sz)))
        | .error _ => none := by
  refine does_load rfl (fun _ => rfl) (fun t s => s.loadFill_cached ..) fun t s e hf => ?_
  split at hf
  · cases hf
  · next halign =>
    split at hf
    · next l hl => exact ⟨l, by simp only [aligned_ok (not_not.1 halign)]; exact hl, Option.some.inj hf⟩
    · cases hf

theorem does_lds (h : Hdr) (sz : MSize) (ord : Ord4) (scope : Scope) (d a : GReg) (off : BitVec 8) :
    Does (.lds h sz ord scope d a off) fun t s =>
      let o := localOff t a off sz.bytes
      let al := s.allocOf t
      if o.toNat % sz.bytes = 0 ∧ o.toNat + sz.bytes ≤ al.2.2 then
        some (s.updThread t.tid fun t => t.putLong h.la d.toNat
          (regsOf (leNat (takeBytes s.scratch (al.1 * 2 ^ 18 + al.2.1 + o.toNat) sz.bytes)) (sizeTags sz)))
      else none := by
  refine does_load rfl (fun _ => rfl) (fun t s => .refl s) fun t s e hf => ?_
  dsimp only at hf
  split at hf
  · next hok =>
    exact ⟨_, by simp only [offAddr_aligned hok.1, State.scratchKey_ok hok.2]; rfl, Option.some.inj hf⟩
  · cases hf

theorem does_ldl (h : Hdr) (sz : MSize) (ord : Ord4) (scope : Scope) (d a : GReg) (off : BitVec 8) :
    Does (.ldl h sz ord scope d a off) fun t s =>
      let o := localOff t a off sz.bytes
      if o.toNat % sz.bytes = 0 ∧ o.toNat + sz.bytes ≤ t.localBytes then
        match s.localLoad t o.toNat sz.bytes h.ch.toNat with
        | .ok l => some ((s.localFill t o.toNat h.ch.toNat).updThread t.tid fun t =>
            t.putLong h.la d.toNat (regsOf (leNat l) (sizeTags sz)))
        | .error _ => none
      else none := by
  refine does_load rfl (fun _ => rfl) (fun t s => s.localFill_cached ..) fun t s e hf => ?_
  dsimp only at hf
  split at hf
  · next hok =>
    split at hf
    · next l hl => exact ⟨l, by simp only [offAddr_aligned hok.1, localRange_ok hok.2]; exact hl, Option.some.inj hf⟩
    · cases hf
  · cases hf

theorem State.key_mem {s : State} {c key : Nat} {va : Dword} {acc : Acc} (h : s.locate c va acc true = .ok (.mem key)) :
    s.key c va acc = .ok key := by rw [State.key, h]

theorem State.dataKey_mem {s : State} {t : Thread} {va : Dword} {n key : Nat} {acc : Acc}
    (hloc : s.locate t.ctx va acc true = .ok (.mem key)) (hbp : s.bpHit t.ctx va n (bpKinds acc true) = none)
    (hread : s.unreadAt t va n = false) : s.dataKey t va n acc = .ok key := by
  unfold State.dataKey
  rw [State.key_mem hloc]
  simp only [hbp, hread]
  rfl

theorem State.bytes_length (s : State) (key n : Nat) : (s.bytes key n).length = n := by
  induction n generalizing key with
  | zero => rfl
  | succ n ih => rw [State.bytes, List.length_cons, ih]

theorem State.bytes_getD (s : State) (key : Nat) {n i : Nat} (h : i < n) : (s.bytes key n).getD i 0 = s.byte (key + i) := by
  induction n generalizing key i with
  | zero => exact absurd h (Nat.not_lt_zero _)
  | succ n ih =>
    cases i with
    | zero => rfl
    | succ i => rw [State.bytes, List.getD_cons_succ, ih _ (Nat.lt_of_succ_lt_succ h), Nat.add_right_comm, Nat.add_assoc]

theorem State.l1Bytes_length (s : State) (k key n : Nat) : (s.l1Bytes k key n).length = n := by
  induction n generalizing key with
  | zero => rfl
  | succ n ih => rw [State.l1Bytes, List.length_cons, ih]

theorem State.l1Byte_eq (s : State) (k key : Nat) :
    s.l1Byte k key = ((s.l1Old.find? fun x => x.1 == k && x.2.1 == key).map (·.2.2)).getD (s.byte key) := by
  unfold State.l1Byte
  split
  · next hempty => rw [List.isEmpty_iff.1 hempty]; rfl
  · split
    · next hx => rw [hx]; rfl
    · next hx => rw [hx]; rfl

theorem State.l1Bytes_getD (s : State) (k key : Nat) {n i : Nat} (h : i < n) :
    (s.l1Bytes k key n).getD i 0 = s.l1Byte k (key + i) := by
  induction n generalizing key i with
  | zero => exact absurd h (Nat.not_lt_zero _)
  | succ n ih =>
    cases i with
    | zero => rfl
    | succ i => rw [State.l1Bytes, List.getD_cons_succ, ih _ (Nat.lt_of_succ_lt_succ h), Nat.add_right_comm, Nat.add_assoc]

theorem State.threadBytes_length (s : State) (t : Thread) (key n ch : Nat) : (s.threadBytes t key n ch).length = n := by
  unfold State.threadBytes
  split
  · split
    · exact s.bytes_length ..
    · exact s.l1Bytes_length ..
  · exact s.bytes_length ..

theorem State.threadBytes_getD (s : State) (t : Thread) (key ch : Nat) {n i : Nat} (h : i < n) :
    (s.threadBytes t key n ch).getD i 0 =
      (if ch = 3 then s.byte (key + i)
       else match t.l1? with
        | some k => ((s.l1Old.find? fun x => x.1 == k && x.2.1 == key + i).map (·.2.2)).getD (s.byte (key + i))
        | none => s.byte (key + i)) := by
  unfold State.threadBytes
  cases t.l1? with
  | none =>
    dsimp only
    rw [s.bytes_getD key h]
    exact (ite_self _).symm
  | some k =>
    dsimp only
    split
    · exact s.bytes_getD key h
    · rw [s.l1Bytes_getD k key h, State.l1Byte_eq]

/-- Settles O12: the three loads, what they read, and what they leave in the caches. -/
theorem loadResults : Obligations.LoadResults := by
  refine ⟨does_ld, fun s t va n ch key hloc hbp hread hpoison =>
    ⟨?_, s.threadBytes_length .., fun i hi => s.threadBytes_getD t key ch hi⟩, ?_, does_lds, does_ldl, regsOf_byte⟩
  · unfold State.dataLoad
    rw [State.dataKey_mem hloc hbp hread]
    simp only [hpoison]
    rfl
  · intro s t va off ch e he
    simp only [List.mem_cons, List.not_mem_nil, or_false] at he
    obtain rfl | rfl := he
    · exact (s.loadFill_cached ..).eq
    · exact (s.localFill_cached ..).eq

/-! ## Stores -/

theorem does_st (h : Hdr) (sz : MSize) (ord : Ord4) (scope : Scope) (a b : GReg) (off : BitVec 8) :
    Does (.st h sz ord scope a b off) fun t s =>
      if (globalAddr t a off sz.bytes).toNat % sz.bytes ≠ 0 then none
      else match s.storeTarget t (globalAddr t a off sz.bytes) sz.bytes true with
        | .ok (.mem key) => some (s.threadStore t key (storeBytes t b sz) h.ch.toNat)
        | .ok (.kick k) => some (s.kick (k / 8) (BitVec.ofNat 32 (leNat (storeBytes t b sz))))
        | _ => none := by
  have hstore : ∀ t (s e : State), (if (globalAddr t a off sz.bytes).toNat % sz.bytes ≠ 0 then none
      else match s.storeTarget t (globalAddr t a off sz.bytes) sz.bytes true with
        | .ok (.mem key) => some (s.threadStore t key (storeBytes t b sz) h.ch.toNat)
        | .ok (.kick k) => some (s.kick (k / 8) (BitVec.ofNat 32 (leNat (storeBytes t b sz))))
        | _ => none) = some e → (globalAddr t a off sz.bytes).toNat % sz.bytes = 0 ∧
      s.dataStore t (globalAddr t a off sz.bytes) (storeBytes t b sz) true h.ch.toNat = .ok e := by
    intro t s e hf
    split at hf
    · cases hf
    · next halign =>
      refine ⟨not_not.1 halign, ?_⟩
      unfold State.dataStore
      rw [storeBytes_length]
      split at hf
      · next hx => rw [hx]; exact congrArg _ (Option.some.inj hf)
      · next hx => rw [hx]; exact congrArg _ (Option.some.inj hf)
      · cases hf
  refine does_of rfl (fun _ => rfl) (fun t s e hf => ?_) fun t s e _ hf => ?_
  · obtain ⟨halign, hs⟩ := hstore t s e hf
    simp only [aligned_ok halign]
    exact hs
  · exact (State.dataStore_stored (hstore t s e hf).2).keeps

theorem State.storeTarget_mem {s : State} {t : Thread} {va : Dword} {n key : Nat} {kicks : Bool}
    (hloc : s.locate t.ctx va .write true = .ok (.mem key)) (hbp : s.bpHit t.ctx va n [2, 3] = none)
    (hread : s.unreadAt t va n = false) : s.storeTarget t va n kicks = .ok (.mem key) := by
  unfold State.storeTarget
  rw [hloc]
  simp only [hbp, hread]
  rfl

theorem does_sts (h : Hdr) (sz : MSize) (ord : Ord4) (scope : Scope) (a b : GReg) (off : BitVec 8) :
    Does (.sts h sz ord scope a b off) fun t s =>
      let o := localOff t a off sz.bytes
      let al := s.allocOf t
      if o.toNat % sz.bytes = 0 ∧ o.toNat + sz.bytes ≤ al.2.2 then
        some (s.putScratch (al.1 * 2 ^ 18 + al.2.1 + o.toNat) (storeBytes t b sz))
      else none := by
  refine does_of rfl (fun _ => rfl) (fun t s e hf => ?_) fun t s e _ hf => ?_
  · dsimp only at hf
    split at hf
    · next hok =>
      simp only [offAddr_aligned hok.1, State.scratchKey_ok hok.2]
      exact congrArg _ (Option.some.inj hf)
    · cases hf
  · dsimp only at hf
    split at hf
    · obtain rfl := Option.some.inj hf
      exact .of_threads rfl rfl
    · cases hf

theorem does_stl (h : Hdr) (sz : MSize) (ord : Ord4) (scope : Scope) (a b : GReg) (off : BitVec 8) :
    Does (.stl h sz ord scope a b off) fun t s =>
      let o := localOff t a off sz.bytes
      if o.toNat % sz.bytes = 0 ∧ o.toNat + sz.bytes ≤ t.localBytes then
        match s.localStore t o.toNat (storeBytes t b sz) h.ch.toNat with
        | .ok e => some e
        | .error _ => none
      else none := by
  refine does_of rfl (fun _ => rfl) (fun t s e hf => ?_) fun t s e _ hf => ?_
  · dsimp only at hf
    split at hf
    · next hok =>
      split at hf
      · next hs =>
        simp only [offAddr_aligned hok.1, localRange_ok hok.2]
        rw [← Option.some.inj hf]
        exact hs
      · cases hf
    · cases hf
  · dsimp only at hf
    split at hf
    · split at hf
      · next hs => rw [← Option.some.inj hf]; exact (State.localStore_stored hs).keeps
      · cases hf
    · cases hf

/-- Memory after a store of bytes at a key. -/
theorem State.byte_of_mem {s e : State} {key : Nat} {l : List Byte} (hinv : s.Inv) (h : e.mem = putBytes s.mem key l) (x : Nat) :
    e.byte x = if key ≤ x ∧ x < key + l.length then l.getD (x - key) 0 else s.byte x := by
  rw [State.byte, h]
  exact get_putBytes l key x hinv.1

theorem State.localStore_section {s e : State} {t : Thread} {off ch c : Nat} {l : List Byte} (hplace : t.place = .lc c)
    (h : s.localStore t off l ch = .ok e) : e = s.threadStore t (s.sectionStack t.ctx c + off) l (t.localHint off ch) := by
  unfold State.localStore at h
  rw [hplace] at h
  exact (Except.ok.inj h).symm

theorem State.localStore_global {s : State} {t : Thread} {off ch : Nat} {l : List Byte} (hplace : ∀ c, t.place ≠ .lc c) :
    s.localStore t off l ch = s.dataStore t (t.tlsBase + BitVec.ofNat 64 off) l false (t.localHint off ch) := by
  unfold State.localStore
  split
  · next c hc => exact absurd hc (hplace c)
  · rfl

theorem State.dataStore_mem {s e : State} {t : Thread} {va : Dword} {l : List Byte} {kicks : Bool} {ch key : Nat}
    (htarget : s.storeTarget t va l.length kicks = .ok (.mem key)) (h : s.dataStore t va l kicks ch = .ok e) :
    e = s.threadStore t key l ch := by
  unfold State.dataStore at h
  rw [htarget] at h
  exact (Except.ok.inj h).symm

theorem State.storeTarget_no_kick {s : State} {t : Thread} {va : Dword} {n : Nat} {x : Target}
    (h : s.storeTarget t va n false = .ok x) : ∃ key, x = .mem key := by
  unfold State.storeTarget at h
  dsimp only at h
  generalize s.locate t.ctx va .write true = y at h
  match y, h with
  | .error _, h => cases h
  | .ok (.remote ..), h => cases h
  | .ok (.kick _), h => cases h
  | .ok (.mem key), h =>
    dsimp only at h
    split at h
    · cases h
    · split at h
      · cases h
      · exact ⟨key, (Except.ok.inj h).symm⟩

theorem State.localStore_bytes {s e : State} {t : Thread} {off ch : Nat} {l : List Byte} (x : Nat) (hinv : s.Inv)
    (h : s.localStore t off l ch = .ok e) : e.scratch = s.scratch ∧
    (∀ c, t.place = .lc c → e.byte x =
      (let key := s.sectionStack t.ctx c + off
       if key ≤ x ∧ x < key + l.length then l.getD (x - key) 0 else s.byte x)) ∧
    (∀ key, (∀ c, t.place ≠ .lc c) → s.storeTarget t (t.tlsBase + BitVec.ofNat 64 off) l.length false = .ok (.mem key) →
      e.byte x = if key ≤ x ∧ x < key + l.length then l.getD (x - key) 0 else s.byte x) := by
  refine ⟨(State.localStore_stored h).scratch, fun c hc => ?_, fun key hplace htarget => ?_⟩
  · rw [State.localStore_section hc h]
    exact State.byte_of_mem hinv (s.threadStore_mem ..) x
  · rw [State.localStore_global hplace] at h
    rw [State.dataStore_mem htarget h]
    exact State.byte_of_mem hinv (s.threadStore_mem ..) x

theorem State.localStore_none {s : State} {t : Thread} {off ch : Nat} {l : List Byte} (hplace : ∀ c, t.place ≠ .lc c)
    (hno : ∀ key, s.storeTarget t (t.tlsBase + BitVec.ofNat 64 off) l.length false ≠ .ok (.mem key)) (e : State) :
    s.localStore t off l ch ≠ .ok e := by
  rw [State.localStore_global hplace]
  unfold State.dataStore
  intro h
  cases htarget : s.storeTarget t (t.tlsBase + BitVec.ofNat 64 off) l.length false with
  | error x => rw [htarget] at h; cases h
  | ok x =>
    obtain ⟨key, rfl⟩ := State.storeTarget_no_kick htarget
    exact hno key htarget

/-! ## One store and one load of a free thread -/

theorem State.landed_storeTarget (s : State) (i : Instr) (tids : List Nat) (t : Thread) (va : Dword) (n : Nat) (kicks : Bool) :
    (s.landed i tids).storeTarget t va n kicks = s.storeTarget t va n kicks := by
  unfold State.storeTarget
  rw [(s.landed_sees i tids).locate, (s.landed_sees i tids).bpHit, State.landed_unreadAt]

theorem State.landed_dataKey (s : State) (i : Instr) (tids : List Nat) (t : Thread) (va : Dword) (n : Nat) (acc : Acc) (tested : Bool) :
    (s.landed i tids).dataKey t va n acc tested = s.dataKey t va n acc tested := by
  unfold State.dataKey
  rw [(s.landed_sees i tids).key, (s.landed_sees i tids).bpHit, State.landed_unreadAt]

theorem State.l1Bytes_congr {s e : State} (hmem : e.mem = s.mem) (hold : e.l1Old = s.l1Old) (k key n : Nat) :
    e.l1Bytes k key n = s.l1Bytes k key n := by
  induction n generalizing key with
  | zero => rfl
  | succ n ih => rw [State.l1Bytes, State.l1Bytes, ih, State.l1Byte, State.l1Byte, hold, State.byte, State.byte, hmem]

theorem State.landed_threadBytes (s : State) (i : Instr) (tids : List Nat) (t : Thread) (key n ch : Nat) :
    (s.landed i tids).threadBytes t key n ch = s.threadBytes t key n ch := by
  have hold : (s.landed i tids).l1Old = s.l1Old := by
    obtain ⟨_, _, _, _, _, _, he⟩ := s.landed_eq i tids
    rw [he]
  unfold State.threadBytes
  simp only [State.l1Bytes_congr (s.landed_mem i tids) hold, State.bytes_congr (s.landed_mem i tids)]

theorem State.landed_dataLoad (s : State) (i : Instr) (tids : List Nat) (t : Thread) (va : Dword) (n ch : Nat) :
    (s.landed i tids).dataLoad t va n ch = s.dataLoad t va n ch := by
  unfold State.dataLoad
  rw [State.landed_dataKey]
  simp only [(s.landed_sees i tids).poisoned, State.landed_threadBytes]

theorem State.acting_free {s : State} {i : Instr} {h : Hdr} {t : Thread} (hh : i.hdr? = some h)
    (ht : (s.landed i [t.tid]).thread? t.tid = some t) (hg : t.guards h = true) : s.acting i [t.tid] = [t.tid] := by
  unfold State.acting
  rw [hh]
  simp only [State.activeTids, List.filter_cons, ht, Option.any_some, hg, if_true, List.filter_nil]

/-- What an instruction does in the one thread of a free agent. -/
theorem Does.free {i : Instr} {h : Hdr} {f : Thread → State → Option State} (hf : Does i f) (hh : i.hdr? = some h) {s e : State}
    {t : Thread} (hi : s.issues i [t.tid] = true) (ht : (s.landed i [t.tid]).thread? t.tid = some t) (hg : t.guards h = true)
    (he : f t (s.landed i [t.tid]) = some e) : ∃ s', exec i s = .next s' ∧ e.retires s' [t.tid] := by
  refine hf s [t.tid] hi e ?_
  rw [State.acting_free hh ht hg]
  simp only [State.each, ht, Option.bind_some, he]

theorem State.retires_other {e s' : State} {j k : Nat} (h : e.retires s' [j]) (hk : k ≠ j) : s'.thread? k = e.thread? k := by
  rw [h.2 k]
  simp only [List.mem_singleton, hk, if_false, Option.map_id']

theorem State.landed_other (s : State) (i : Instr) {j k : Nat} (hk : k ≠ j) : (s.landed i [j]).thread? k = s.thread? k := by
  rw [State.landed_thread?]
  simp only [List.mem_singleton, hk, if_false, Option.map_id']

theorem State.retires_frame {e s' : State} {tids : List Nat} (h : e.retires s' tids) :
    s'.mem = e.mem ∧ s'.scratch = e.scratch ∧ s'.cells = e.cells := by
  rw [h.1]
  refine ⟨?_, ?_, ?_⟩
  · exact e.tallyIssue_mem tids
  · exact e.tallyIssue_scratch tids
  · rw [State.tallyIssue_eq]

theorem exec_st_free {h : Hdr} {sz : MSize} {ord : Ord4} {scope : Scope} {a b : GReg} {off : BitVec 8} {s : State} {t : Thread}
    {key : Nat} (hinv : s.Inv) (hi : s.issues (.st h sz ord scope a b off) [t.tid] = true)
    (ht : (s.landed (.st h sz ord scope a b off) [t.tid]).thread? t.tid = some t) (hg : t.guards h = true)
    (halign : (globalAddr t a off sz.bytes).toNat % sz.bytes = 0)
    (htarget : s.storeTarget t (globalAddr t a off sz.bytes) sz.bytes true = .ok (.mem key)) :
    ∃ s' u, exec (.st h sz ord scope a b off) s = .next s' ∧ s'.thread? t.tid = some u ∧
      u.regs = t.regs ∧ u.preds = t.preds ∧ u.pc = t.pc + 8 ∧ s'.scratch = s.scratch ∧ s'.cells = s.cells ∧
      (∀ k, k ≠ t.tid → s'.thread? k = s.thread? k) ∧
      ∀ x, s'.byte x = if key ≤ x ∧ x < key + sz.bytes then (storeBytes t b sz).getD (x - key) 0 else s.byte x := by
  obtain ⟨s', hs', hr⟩ := (does_st h sz ord scope a b off).free rfl hi ht hg (by
    rw [if_neg (not_not.2 halign), State.landed_storeTarget, htarget])
  have hstored := (s.landed (.st h sz ord scope a b off) [t.tid]).threadStore_stored t key (storeBytes t b sz) h.ch.toNat
  have hmem := (s.landed (.st h sz ord scope a b off) [t.tid]).threadStore_mem t key (storeBytes t b sz) h.ch.toNat
  generalize (s.landed (.st h sz ord scope a b off) [t.tid]).threadStore t key (storeBytes t b sz) h.ch.toNat = e at *
  obtain ⟨hm, hsc, hc⟩ := State.retires_frame hr
  refine ⟨s', Thread.windowStep { t with pc := t.pc + 8, age := e.tick }, hs', ?_, rfl, rfl, rfl, ?_, ?_, fun k hk => ?_, fun x => ?_⟩
  · rw [hr.2, hstored.thread?, ht, Option.map_some, if_pos (List.mem_singleton.2 rfl)]
  · rw [hsc, hstored.scratch, State.landed_scratch]
  · rw [hc, hstored.cells, State.landed_cells]
  · rw [State.retires_other hr hk, hstored.thread?, State.landed_other _ _ hk]
  · rw [← storeBytes_length t b sz]
    exact State.byte_of_mem hinv (by rw [hm, hmem, State.landed_mem]) x

theorem exec_ld_free {h : Hdr} {sz : MSize} {ord : Ord4} {scope : Scope} {d a : GReg} {off : BitVec 8} {s : State} {t : Thread}
    {l : List Byte} (hi : s.issues (.ld h sz ord scope d a off) [t.tid] = true)
    (ht : (s.landed (.ld h sz ord scope d a off) [t.tid]).thread? t.tid = some t) (hg : t.guards h = true)
    (halign : (globalAddr t a off sz.bytes).toNat % sz.bytes = 0)
    (hload : s.dataLoad t (globalAddr t a off sz.bytes) sz.bytes h.ch.toNat = .ok l) :
    ∃ s', exec (.ld h sz ord scope d a off) s = .next s' ∧ s'.mem = s.mem ∧ s'.scratch = s.scratch ∧
      s'.cells = s.cells ∧ ∀ k, k ≠ t.tid → s'.thread? k = s.thread? k := by
  obtain ⟨s', hs', hr⟩ := (does_ld h sz ord scope d a off).free rfl hi ht hg (by
    rw [if_neg (not_not.2 halign), State.landed_dataLoad, hload])
  have hcached := (s.landed (.ld h sz ord scope d a off) [t.tid]).loadFill_cached t (globalAddr t a off sz.bytes) h.ch.toNat
  generalize (s.landed (.ld h sz ord scope d a off) [t.tid]).loadFill t (globalAddr t a off sz.bytes) h.ch.toNat = e at *
  obtain ⟨hm, hsc, hc⟩ := State.retires_frame hr
  refine ⟨s', hs', ?_, ?_, ?_, fun k hk => ?_⟩
  · rw [hm, State.updThread_mem, hcached.mem, State.landed_mem]
  · rw [hsc, State.updThread_scratch, hcached.stored.scratch, State.landed_scratch]
  · rw [hc, State.updThread_cells, hcached.stored.cells, State.landed_cells]
  · rw [State.retires_other hr hk, State.thread?_updThread _ _ _ (fun u _ => ?_), hcached.stored.thread?, State.landed_other _ _ hk]
    · cases hu : s.thread? k with
      | none => rfl
      | some u => rw [Option.map_some, if_neg (State.thread?_tid hu ▸ hk)]
    · exact Thread.putLong_keeps (·.tid) (fun _ _ _ => rfl) (fun _ _ => rfl) u ..

/-- Settles O13: the stores, the bytes that they write, and what one leaves unchanged. -/
theorem storeResultsAndFrame : Obligations.StoreResultsAndFrame :=
  ⟨⟨does_st, fun _ _ _ _ _ => State.storeTarget_mem, does_sts, does_stl,
    fun t b sz => ⟨storeBytes_length t b sz, fun _ => storeBytes_byte t b sz⟩,
    fun _ key l x hinv => ⟨rfl, get_putBytes l key x hinv.2.1⟩, fun _ _ _ _ _ _ x hinv => State.localStore_bytes x hinv,
    fun _ _ _ _ _ => State.localStore_none⟩,
    fun _ _ _ _ _ _ _ _ _ _ hinv _ => exec_st_free hinv, fun _ _ _ _ _ _ _ _ _ _ _ => exec_ld_free⟩

end Sys2Proof.Machine
end

section
/-! Atomics, global and on the scratchpad (R277, R278). -/

namespace Sys2Proof.Machine

/-- The operand of a float operation carries its tag (R149, R277). -/
def Thread.atomReads (t : Thread) (op : AtomOp) (sz : MSize) (b : GReg) : Prop :=
  (op = .fadd ∨ op = .fmin ∨ op = .fmax) → if sz = .f64 then t.readsF64 b else t.reads b.toNat ((sizeTags sz).headD .raw)

theorem atomTyped_ok {t : Thread} {op : AtomOp} {sz : MSize} {b : GReg} (h : t.atomReads op sz b) : atomTyped t op sz b = .ok () := by
  have hfloat : (if sz = .f64 then t.readsF64 b else t.reads b.toNat ((sizeTags sz).headD .raw)) →
      (if sz = .f64 then t.typedF64 b 1 else t.typed b.toNat ((sizeTags sz).headD .raw) 1) = .ok () := by
    intro hr
    split at hr
    · next hsz => rw [if_pos hsz]; exact Thread.typedF64_ok hr
    · next hsz => rw [if_neg hsz]; exact Thread.typed_ok hr
  unfold atomTyped
  split
  · exact hfloat (h (.inl rfl))
  · exact hfloat (h (.inr (.inl rfl)))
  · exact hfloat (h (.inr (.inr rfl)))
  · rfl

theorem Thread.atomReads_of_int (t : Thread) {op : AtomOp} (sz : MSize) (b : GReg) (h : op ≠ .fadd ∧ op ≠ .fmin ∧ op ≠ .fmax) :
    t.atomReads op sz b := fun hop => by
  obtain ⟨h1, h2, h3⟩ := h
  obtain hop | hop | hop := hop
  · exact absurd hop h1
  · exact absurd hop h2
  · exact absurd hop h3

/-- The bytes that an atomic writes over an old value. -/
def atomBytes (t : Thread) (op : AtomOp) (sz : MSize) (b : GReg) (old : Nat) : List Byte :=
  natLe sz.bytes (atomNew op sz old (atomOperands t op sz b).1 (atomOperands t op sz b).2)

theorem State.readKey_ok {s : State} {key n : Nat} {va : Dword} {acc : Acc} (h : s.poisoned key n = false) :
    s.readKey key n va acc = .ok (s.bytes key n) := by
  unfold State.readKey
  rw [if_neg (Bool.eq_false_iff.1 h)]

theorem State.atomGlobal_ok {s : State} {t : Thread} {op : AtomOp} {sz : MSize} {a b : GReg} {key ch : Nat}
    (htyped : t.atomReads op sz b) (halign : (t.pair a).toNat % sz.bytes = 0)
    (hloc : s.locate t.ctx (t.pair a) .rmw true = .ok (.mem key)) (hbp : s.bpHit t.ctx (t.pair a) sz.bytes [2, 3] = none)
    (hread : s.unreadAt t (t.pair a) sz.bytes = false) (hpoison : s.poisoned key sz.bytes = false) :
    s.atomGlobal t op sz a b ch = .ok (leNat (s.bytes key sz.bytes),
      s.putMemAs (some t.ctx) (l2Keep ch) key (atomBytes t op sz b (leNat (s.bytes key sz.bytes)))) := by
  unfold State.atomGlobal
  simp only [atomTyped_ok htyped, aligned_ok halign, State.dataKey_mem hloc hbp hread, State.readKey_ok hpoison, ok_bind]
  rfl

theorem State.atomScratch_ok {s : State} {t : Thread} {op : AtomOp} {sz : MSize} {a b : GReg}
    (htyped : t.atomReads op sz b) (halign : (t.val a).toNat % sz.bytes = 0)
    (hroom : (t.val a).toNat + sz.bytes ≤ (s.allocOf t).2.2) :
    s.atomScratch t op sz a b =
      let key := (s.allocOf t).1 * 2 ^ 18 + (s.allocOf t).2.1 + (t.val a).toNat
      .ok (leNat (takeBytes s.scratch key sz.bytes), s.putScratch key (atomBytes t op sz b (leNat (takeBytes s.scratch key sz.bytes)))) := by
  unfold State.atomScratch
  simp only [atomTyped_ok htyped, offAddr_aligned halign, State.scratchKey_ok hroom]
  rfl

theorem State.atomGlobal_keeps {s e : State} {t : Thread} {op : AtomOp} {sz : MSize} {a b : GReg} {ch old : Nat}
    (h : s.atomGlobal t op sz a b ch = .ok (old, e)) : s.Keeps e := by
  unfold State.atomGlobal at h
  obtain ⟨_, -, h⟩ := bind_eq_ok h
  obtain ⟨_, -, h⟩ := bind_eq_ok h
  obtain ⟨key, -, h⟩ := bind_eq_ok h
  obtain ⟨l, -, h⟩ := bind_eq_ok h
  obtain ⟨-, rfl⟩ := Prod.mk.inj (Except.ok.inj h)
  exact (State.putMemAs_stored ..).keeps

theorem State.atomScratch_keeps {s e : State} {t : Thread} {op : AtomOp} {sz : MSize} {a b : GReg} {old : Nat}
    (h : s.atomScratch t op sz a b = .ok (old, e)) : s.Keeps e := by
  unfold State.atomScratch at h
  obtain ⟨_, -, h⟩ := bind_eq_ok h
  obtain ⟨_, -, h⟩ := bind_eq_ok h
  obtain ⟨key, -, h⟩ := bind_eq_ok h
  obtain ⟨-, rfl⟩ := Prod.mk.inj (Except.ok.inj h)
  exact .of_threads rfl rfl

/-- An atomic that answers its old value in a span. -/
theorem does_atom {i : Instr} {h h' : Hdr} (hh : i.hdr? = some h') {op : AtomOp} {sz : MSize} {d : GReg}
    {act : State → Thread → Except Stop (Nat × State)}
    (he : ∀ s, exec i s = runState i s fun t s => do
      let r ← act s t
      return r.2.atomResult t h op sz d r.1)
    (hk : ∀ s t old e, act s t = .ok (old, e) → s.Keeps e) : Does i fun t s =>
      match act s t with
      | .ok (old, e) => some (e.updThread t.tid fun t => t.putLong h.la d.toNat (regsOf old (atomTags op sz)))
      | .error _ => none := by
  refine does_of hh he (fun t s e hf => ?_) fun t s e _ hf => ?_
  · split at hf
    · next old m hact =>
      rw [← Option.some.inj hf]
      simp only [hact]
      rfl
    · cases hf
  · split at hf
    · next old m hact =>
      rw [← Option.some.inj hf]
      exact (hk s t old m hact).trans (State.keeps_putLong ..)
    · cases hf

/-- One that answers nothing. -/
theorem does_red {i : Instr} {h : Hdr} (hh : i.hdr? = some h) {act : State → Thread → Except Stop (Nat × State)}
    (he : ∀ s, exec i s = runState i s fun t s => do
      let r ← act s t
      return r.2)
    (hk : ∀ s t old e, act s t = .ok (old, e) → s.Keeps e) : Does i fun t s =>
      match act s t with
      | .ok (_, e) => some e
      | .error _ => none := by
  refine does_of hh he (fun t s e hf => ?_) fun t s e _ hf => ?_
  · split at hf
    · next old m hact =>
      rw [← Option.some.inj hf]
      simp only [hact]
      rfl
    · cases hf
  · split at hf
    · next old m hact => rw [← Option.some.inj hf]; exact hk s t old m hact
    · cases hf

theorem does_atomGlobal (h : Hdr) (op : AtomOp) (sz : MSize) (ord : Ord4) (scope : Scope) (d a b : GReg) :
    Does (.atom h op sz ord scope d a b) fun t s =>
      match s.atomGlobal t op sz a b h.ch.toNat with
      | .ok (old, e) => some (e.updThread t.tid fun t => t.putLong h.la d.toNat (regsOf old (atomTags op sz)))
      | .error _ => none :=
  does_atom rfl (act := fun s t => s.atomGlobal t op sz a b h.ch.toNat) (fun _ => rfl) fun _ _ _ _ => State.atomGlobal_keeps

theorem does_redGlobal (h : Hdr) (op : AtomOp) (sz : MSize) (ord : Ord4) (scope : Scope) (a b : GReg) :
    Does (.red h op sz ord scope a b) fun t s =>
      match s.atomGlobal t op sz a b h.ch.toNat with
      | .ok (_, e) => some e
      | .error _ => none :=
  does_red rfl (act := fun s t => s.atomGlobal t op sz a b h.ch.toNat) (fun _ => rfl) fun _ _ _ _ => State.atomGlobal_keeps

theorem does_atomScratch (h : Hdr) (op : AtomOp) (sz : MSize) (ord : Ord4) (scope : Scope) (d a b : GReg) :
    Does (.atomScratchpad h op sz ord scope d a b) fun t s =>
      match s.atomScratch t op sz a b with
      | .ok (old, e) => some (e.updThread t.tid fun t => t.putLong h.la d.toNat (regsOf old (atomTags op sz)))
      | .error _ => none :=
  does_atom rfl (act := fun s t => s.atomScratch t op sz a b) (fun _ => rfl) fun _ _ _ _ => State.atomScratch_keeps

theorem does_redScratch (h : Hdr) (op : AtomOp) (sz : MSize) (ord : Ord4) (scope : Scope) (a b : GReg) :
    Does (.redScratchpad h op sz ord scope a b) fun t s =>
      match s.atomScratch t op sz a b with
      | .ok (_, e) => some e
      | .error _ => none :=
  does_red rfl (act := fun s t => s.atomScratch t op sz a b) (fun _ => rfl) fun _ _ _ _ => State.atomScratch_keeps

/-! ## In a free thread -/

theorem State.landed_atomGlobal {s : State} {i : Instr} {tids : List Nat} {t : Thread} {op : AtomOp} {sz : MSize} {a b : GReg} {key ch : Nat}
    (htyped : t.atomReads op sz b) (halign : (t.pair a).toNat % sz.bytes = 0)
    (hloc : s.locate t.ctx (t.pair a) .rmw true = .ok (.mem key)) (hbp : s.bpHit t.ctx (t.pair a) sz.bytes [2, 3] = none)
    (hread : s.unreadAt t (t.pair a) sz.bytes = false) (hpoison : s.poisoned key sz.bytes = false) :
    (s.landed i tids).atomGlobal t op sz a b ch = .ok (leNat (s.bytes key sz.bytes),
      (s.landed i tids).putMemAs (some t.ctx) (l2Keep ch) key (atomBytes t op sz b (leNat (s.bytes key sz.bytes)))) := by
  have hsees := s.landed_sees i tids
  rw [State.atomGlobal_ok htyped halign (by rw [hsees.locate, hloc]) (by rw [hsees.bpHit, hbp])
    (by rw [State.landed_unreadAt, hread]) (by rw [hsees.poisoned, hpoison]), State.bytes_congr hsees.mem]

theorem State.landed_atomScratch {s : State} {i : Instr} {tids : List Nat} {t : Thread} {op : AtomOp} {sz : MSize} {a b : GReg}
    (htyped : t.atomReads op sz b) (halign : (t.val a).toNat % sz.bytes = 0)
    (hroom : (t.val a).toNat + sz.bytes ≤ (s.allocOf t).2.2) :
    (s.landed i tids).atomScratch t op sz a b =
      let key := (s.allocOf t).1 * 2 ^ 18 + (s.allocOf t).2.1 + (t.val a).toNat
      .ok (leNat (takeBytes s.scratch key sz.bytes),
        (s.landed i tids).putScratch key (atomBytes t op sz b (leNat (takeBytes s.scratch key sz.bytes)))) := by
  rw [State.atomScratch_ok htyped halign (by rw [State.landed_allocOf]; exact hroom), State.landed_allocOf, State.landed_scratch]

/-! ## The new values -/

theorem pickInt_unsigned {w a b : Nat} (ha : a < 2 ^ w) (hb : b < 2 ^ w) :
    pickInt w true false a b = min a b ∧ pickInt w true true a b = max a b := by
  unfold pickInt
  simp only [BitVec.ult, BitVec.toNat_ofNat, Nat.mod_eq_of_lt ha, Nat.mod_eq_of_lt hb, if_true]
  constructor
  · split <;> simp_all <;> omega
  · split <;> simp_all <;> omega

theorem pickInt_mem (w : Nat) (uns wantMax : Bool) (a b : Nat) : pickInt w uns wantMax a b = a ∨ pickInt w uns wantMax a b = b := by
  unfold pickInt
  dsimp only
  generalize ((if uns = true then _ else _) != wantMax) = less
  cases less
  · exact .inr rfl
  · exact .inl rfl

theorem pickInt_signed (w a b : Nat) :
    (BitVec.ofNat w (pickInt w false false a b)).toInt = min (BitVec.ofNat w a).toInt (BitVec.ofNat w b).toInt ∧
    (BitVec.ofNat w (pickInt w false true a b)).toInt = max (BitVec.ofNat w a).toInt (BitVec.ofNat w b).toInt := by
  unfold pickInt
  simp only [BitVec.slt, Bool.false_eq_true, if_false]
  constructor
  · split <;> simp_all <;> omega
  · split <;> simp_all <;> omega

theorem atomNew_int (sz : MSize) (old b cmp : Nat) (hold : old < 2 ^ (8 * sz.bytes)) (hb : b < 2 ^ (8 * sz.bytes)) :
    atomNew .minu sz old b cmp = min old b ∧ atomNew .maxu sz old b cmp = max old b ∧
    atomNew .and sz old b cmp = old &&& b ∧ atomNew .or sz old b cmp = old ||| b ∧ atomNew .xor sz old b cmp = old ^^^ b ∧
    atomNew .min sz old b cmp < 2 ^ (8 * sz.bytes) ∧ atomNew .max sz old b cmp < 2 ^ (8 * sz.bytes) ∧
    (BitVec.ofNat (8 * sz.bytes) (atomNew .min sz old b cmp)).toInt =
      min (BitVec.ofNat (8 * sz.bytes) old).toInt (BitVec.ofNat (8 * sz.bytes) b).toInt ∧
    (BitVec.ofNat (8 * sz.bytes) (atomNew .max sz old b cmp)).toInt =
      max (BitVec.ofNat (8 * sz.bytes) old).toInt (BitVec.ofNat (8 * sz.bytes) b).toInt := by
  have hbound : ∀ wantMax, pickInt (8 * sz.bytes) false wantMax old b < 2 ^ (8 * sz.bytes) := fun wantMax => by
    obtain h | h := pickInt_mem (8 * sz.bytes) false wantMax old b
    · rw [h]; exact hold
    · rw [h]; exact hb
  refine ⟨(pickInt_unsigned hold hb).1, (pickInt_unsigned hold hb).2, ?_, ?_, ?_, hbound _, hbound _, (pickInt_signed _ old b).1,
    (pickInt_signed _ old b).2⟩
  · simp only [atomNew, BitVec.toNat_and, BitVec.toNat_ofNat, Nat.mod_eq_of_lt hold, Nat.mod_eq_of_lt hb]
  · simp only [atomNew, BitVec.toNat_or, BitVec.toNat_ofNat, Nat.mod_eq_of_lt hold, Nat.mod_eq_of_lt hb]
  · simp only [atomNew, BitVec.toNat_xor, BitVec.toNat_ofNat, Nat.mod_eq_of_lt hold, Nat.mod_eq_of_lt hb]

theorem perElem_pair (f : FloatFmt → Nat → Nat → Nat) {lo lo' : Nat} (hi hi' : Nat) (h : lo < 2 ^ 16) (h' : lo' < 2 ^ 16) :
    perElem .bf16x2 f (lo + 2 ^ 16 * hi) (lo' + 2 ^ 16 * hi') = f Fmt.bf16.float lo lo' + 2 ^ 16 * f Fmt.bf16.float hi hi' ∧
    perElem .f16x2 f (lo + 2 ^ 16 * hi) (lo' + 2 ^ 16 * hi') = f Fmt.f16.float lo lo' + 2 ^ 16 * f Fmt.f16.float hi hi' := by
  have hlow : ∀ {x} y, x < 2 ^ 16 → (x + 2 ^ 16 * y) % 2 ^ 16 = x := fun y hx => by rw [Nat.add_mul_mod_self_left, Nat.mod_eq_of_lt hx]
  have hhigh : ∀ {x} y, x < 2 ^ 16 → (x + 2 ^ 16 * y) / 2 ^ 16 = y := fun y hx => by
    rw [Nat.add_mul_div_left _ _ (by decide), Nat.div_eq_of_lt hx, Nat.zero_add]
  constructor
  · rw [perElem, hlow _ h, hlow _ h', hhigh _ h, hhigh _ h']
  · rw [perElem, hlow _ h, hlow _ h', hhigh _ h, hhigh _ h']

/-- Settles O14: the four atomics, in a free thread and in any agent, and their new values. -/
theorem atomicResults : Obligations.AtomicResults := by
  refine ⟨fun h op sz ord scope d a b s t key x hx hcur hi ht hg htyped halign hloc hbp hread hpoison => ?_,
    fun h op sz ord scope d a b s t x hx hcur hi ht hg htyped halign hroom => ?_, does_atomGlobal, does_redGlobal,
    fun s t op sz a b key ch hop halign hloc hbp hread hpoison =>
      State.atomGlobal_ok (t.atomReads_of_int sz b hop) halign hloc hbp hread hpoison,
    does_atomScratch, does_redScratch,
    fun s t op sz a b hop halign hroom => State.atomScratch_ok (t.atomReads_of_int sz b hop) halign hroom,
    fun sz old b cmp => ⟨rfl, rfl, rfl⟩, fun sz _ old b cmp => atomNew_int sz old b cmp, fun op f hf cmp => ?_⟩
  · simp only [List.mem_cons, List.not_mem_nil, or_false] at hx
    obtain rfl | rfl := hx
    · exact (does_atomGlobal h op sz ord scope d a b).free rfl hi ht hg
        (by rw [State.landed_atomGlobal htyped halign hloc hbp hread hpoison]; rfl)
    · exact (does_redGlobal h op sz ord scope a b).free rfl hi ht hg
        (by rw [State.landed_atomGlobal htyped halign hloc hbp hread hpoison]; rfl)
  · simp only [List.mem_cons, List.not_mem_nil, or_false] at hx
    obtain rfl | rfl := hx
    · exact (does_atomScratch h op sz ord scope d a b).free rfl hi ht hg
        (by rw [State.landed_atomScratch htyped halign hroom]; rfl)
    · exact (does_redScratch h op sz ord scope a b).free rfl hi ht hg
        (by rw [State.landed_atomScratch htyped halign hroom]; rfl)
  · simp only [List.mem_cons, List.not_mem_nil, or_false, Prod.mk.injEq] at hf
    obtain ⟨rfl, rfl⟩ | ⟨rfl, rfl⟩ | ⟨rfl, rfl⟩ := hf
    · exact ⟨fun _ _ => ⟨rfl, rfl⟩, fun lo hi lo' hi' => perElem_pair (fun f x y => (fAdd f .rn (f.decode x) (f.decode y)).1) hi hi'⟩
    · exact ⟨fun _ _ => ⟨rfl, rfl⟩, fun lo hi lo' hi' => perElem_pair (fun f x y => (fMinMax f false x y).1) hi hi'⟩
    · exact ⟨fun _ _ => ⟨rfl, rfl⟩, fun lo hi lo' hi' => perElem_pair (fun f x y => (fMinMax f true x y).1) hi hi'⟩

end Sys2Proof.Machine
end

section
/-! Asynchronous copies, fences and cache control (R106, R124, R275, R276, R279, R280). -/

namespace Sys2Proof.Machine

/-- `e` differs from `s` in the caches and the counts of fills alone. -/
def State.Filled (s e : State) : Prop := ∃ l1 l1Old l2 lcL2 home counts windowCounts dieCounters,
  e = { s with l1, l1Old, l2, lcL2, home, counts, windowCounts, dieCounters }

theorem State.Filled.refl (s : State) : s.Filled s := ⟨_, _, _, _, _, _, _, _, rfl⟩

theorem State.Filled.trans {a b c : State} (h : a.Filled b) (g : b.Filled c) : a.Filled c := by
  obtain ⟨_, _, _, _, _, _, _, _, rfl⟩ := h
  obtain ⟨_, _, _, _, _, _, _, _, rfl⟩ := g
  exact ⟨_, _, _, _, _, _, _, _, rfl⟩

theorem State.Filled.cached {s e : State} (h : s.Filled e) : s.Cached e := by
  obtain ⟨_, _, _, _, _, _, _, _, rfl⟩ := h
  exact ⟨_, _, _, _, _, _, _, _, _, rfl⟩

theorem State.filled_foldl {α : Type} {f : State → α → State} (hf : ∀ (s : State) a, s.Filled (f s a)) (l : List α) (s : State) :
    s.Filled (l.foldl f s) := by
  induction l generalizing s with
  | nil => exact .refl s
  | cons a l ih => exact (hf s a).trans (ih _)

theorem State.dieRead_filled (s : State) (die : Nat) (c : Option Nat) (x keep : Nat) : s.Filled (s.dieRead die c x keep) :=
  ⟨_, _, _, _, _, _, _, _, rfl⟩

theorem State.l1Drop_filled (s : State) (k : Nat) (gone : Nat → Bool) : s.Filled (s.l1Drop k gone) :=
  ⟨_, _, _, _, _, _, _, _, rfl⟩

theorem State.l2Read_filled (s : State) (c : Option Nat) (key n keep : Nat) : s.Filled (s.l2Read c key n keep) :=
  ⟨_, _, _, _, _, _, _, _, rfl⟩

theorem State.copyFill_filled (s : State) (k : Option Nat) (c : LdaCopy) : s.Filled (s.copyFill k c) := by
  unfold State.copyFill
  split
  · split
    · dsimp only
      split
      · exact (State.filled_foldl (fun s x => s.dieRead_filled ..) _ s).trans (State.l1Drop_filled ..)
      · exact State.filled_foldl (fun s x => s.dieRead_filled ..) _ s
    · exact s.l2Read_filled ..
  · exact .refl s

/-! ## LDA (R106, R275) -/

theorem State.issueCopy_eq (s : State) (k : Option Nat) (c : LdaCopy) :
    s.issueCopy k c = { s with
      ldas := (s.issueCopy k c).ldas, l1 := (s.issueCopy k c).l1, l1Old := (s.issueCopy k c).l1Old, l2 := (s.issueCopy k c).l2
      lcL2 := (s.issueCopy k c).lcL2, home := (s.issueCopy k c).home, counts := (s.issueCopy k c).counts
      windowCounts := (s.issueCopy k c).windowCounts, dieCounters := (s.issueCopy k c).dieCounters } := by
  unfold State.issueCopy
  split
  · obtain ⟨_, _, _, _, _, _, _, _, hfill⟩ := s.copyFill_filled k c
    rw [hfill]
  · rfl

theorem State.issueCopy_ldas (s : State) (k : Option Nat) (c : LdaCopy) :
    (s.issueCopy k c).ldas = s.ldas ++ [{ c with got := match s.copySource c with
                                                 | .ok l => some l
                                                 | .error _ => none }] := by
  unfold State.issueCopy
  cases s.copySource c with
  | ok l =>
    obtain ⟨_, _, _, _, _, _, _, _, hfill⟩ := s.copyFill_filled k c
    rw [hfill]
  | error e => rfl

theorem State.issueCopy_keeps (s : State) (k : Option Nat) (c : LdaCopy) : s.Keeps (s.issueCopy k c) := by
  rw [State.issueCopy_eq]
  exact .of_threads rfl rfl

theorem State.tallyCore_with_nextId (s : State) (k src n m : Nat) :
    ({ s with nextId := m } : State).tallyCore k src n = { s.tallyCore k src n with nextId := m } := by
  unfold State.tallyCore
  by_cases h : (s.core k).perf.isEmpty = true
  · rw [if_pos h, if_pos (show (({ s with nextId := m } : State).core k).perf.isEmpty = true from h)]
  · rw [if_neg h, if_neg (show ¬ (({ s with nextId := m } : State).core k).perf.isEmpty = true from h)]
    rfl

/-- What LDA asks of its operands (R106, R275). -/
def State.ldaOk (s : State) (t : Thread) (sz : MSize) (tag : BitVec 3) (d a b : GReg) : Prop :=
  (t.val d).toNat % sz.bytes = 0 ∧ (t.pair a).toNat % sz.bytes = 0 ∧ (t.val d).toNat + sz.bytes ≤ (s.allocOf t).2.2 ∧
    (t.val b = 0 ∨ canonical (t.pair a) = true) ∧
    (min (t.val b).toNat sz.bytes = 0 ∨ s.bpHit t.ctx (t.pair a) (min (t.val b).toNat sz.bytes) [3] = none) ∧
    s.unreadAt t (t.pair a) (min (t.val b).toNat sz.bytes) = false ∧ s.tagCount t.tid tag.toNat < 63

theorem State.ldaSource_ok {s : State} {t : Thread} {sz : MSize} {tag : BitVec 3} {d a b : GReg} (h : s.ldaOk t sz tag d a b) :
    s.ldaSource t sz tag d a b = .ok ((s.allocOf t).1 * 2 ^ 18 + (s.allocOf t).2.1 + (t.val d).toNat, t.pair a,
      min (t.val b).toNat sz.bytes) := by
  obtain ⟨hdst, hsrc, hroom, hcanon, hbp, hread, htag⟩ := h
  have hbreak : (if min (t.val b).toNat sz.bytes = 0 then none
      else s.bpHit t.ctx (t.pair a) (min (t.val b).toNat sz.bytes) [3]) = none := by
    split
    · rfl
    · next hn => exact hbp.resolve_left hn
  have hcan : (t.val b != 0) = true → canon (t.pair a) = .ok () := fun hb => canon_ok (hcanon.resolve_left (by simpa using hb))
  unfold State.ldaSource
  simp only [offAddr_aligned hdst, aligned_ok hsrc, State.scratchKey_ok hroom, ok_bind, hbreak, State.readsDone, hread,
    Bool.false_eq_true, if_false, Nat.not_le.2 htag]
  by_cases hb : (t.val b != 0) = true
  · simp only [if_pos hb, hcan hb]
    rfl
  · simp only [if_neg hb]
    rfl

/-- The copy that LDA issues. -/
def State.ldaCopy (s : State) (h : Hdr) (t : Thread) (sz : MSize) (tag : BitVec 3) (d a b : GReg) : LdaCopy :=
  { id := s.nextId, seq := s.tick, tid := t.tid, ctx := t.ctx, tag := tag.toNat
    dst := (s.allocOf t).1 * 2 ^ 18 + (s.allocOf t).2.1 + (t.val d).toNat, size := sz.bytes, src := t.pair a
    n := min (t.val b).toNat sz.bytes, ch := h.ch.toNat }

theorem does_lda (h : Hdr) (sz : MSize) (tag : BitVec 3) (d a b : GReg) : Does (.lda h sz tag d a b) fun t s =>
    let n := sz.bytes
    let off := (t.val d).toNat
    let al := s.allocOf t
    if off % n = 0 ∧ (t.pair a).toNat % n = 0 ∧ off + n ≤ al.2.2 ∧ (t.val b = 0 ∨ canonical (t.pair a) = true) ∧
        (min (t.val b).toNat n = 0 ∨ s.bpHit t.ctx (t.pair a) (min (t.val b).toNat n) [3] = none) ∧
        s.unreadAt t (t.pair a) (min (t.val b).toNat n) = false ∧ s.tagCount t.tid tag.toNat < 63 then
      let c : LdaCopy :=
        { id := s.nextId, seq := s.tick, tid := t.tid, ctx := t.ctx, tag := tag.toNat
          dst := al.1 * 2 ^ 18 + al.2.1 + off, size := n, src := t.pair a, n := min (t.val b).toNat n, ch := h.ch.toNat }
      let m := match t.place.coreIdx? with
        | some k => s.tallyCore k 0x031 1
        | none => s
      some (({ m with nextId := s.nextId + 1, tick := s.tick + 1 } : State).issueCopy t.l1? c)
    else none := by
  refine does_of rfl (fun _ => rfl) (fun t s e hf => ?_) fun t s e _ hf => ?_
  · dsimp only at hf
    split at hf
    · next hok =>
      rw [← Option.some.inj hf, State.ldaSource_ok hok]
      cases t.place.coreIdx? with
      | none => rfl
      | some k =>
        have htick : (s.tallyCore k 0x031 1).tick = s.tick := by
          obtain ⟨_, _, _, _, _, hl⟩ := s.tallyCore_looked k 0x031 1
          rw [hl]
        simp only [ok_bind, State.freshId, State.tallyCore_with_nextId, htick]
        rfl
    · cases hf
  · dsimp only at hf
    split at hf
    · rw [← Option.some.inj hf]
      have hm : s.Keeps (match t.place.coreIdx? with
          | some k => s.tallyCore k 0x031 1
          | none => s) := by
        split
        · exact (State.tallyCore_serves ..).keeps
        · exact .refl s
      refine .trans ?_ (State.issueCopy_keeps _ _ _)
      exact hm.trans (.of_threads rfl rfl)
    · cases hf

theorem State.copySource_mem {s : State} {c : LdaCopy} {key : Nat} (hn : c.n ≠ 0)
    (hloc : s.locate c.ctx c.src .read true = .ok (.mem key)) (hpoison : s.poisoned key c.n = false) :
    s.copySource c = .ok (s.bytes key c.n) := by
  unfold State.copySource
  rw [if_neg hn, State.key_mem hloc]
  exact State.readKey_ok hpoison

theorem State.lookLate_cached (s : State) (c : LdaCopy) : s.Cached (s.lookLate c) := by
  unfold State.lookLate
  split
  · exact .refl s
  · exact (s.lookUp_looked ..).cached

theorem State.readLate_cached (s : State) (c : LdaCopy) : s.Cached (s.readLate c) := by
  unfold State.readLate
  split
  · exact .refl s
  · exact (s.copyFill_filled ..).cached

theorem State.Sees.copySource {s e : State} (h : s.Sees e) (c : LdaCopy) : e.copySource c = s.copySource c := by
  unfold State.copySource
  rw [h.key]
  simp only [State.readKey, h.poisoned, State.bytes_congr h.mem]

theorem State.Cached.ldas {s e : State} (h : s.Cached e) : e.ldas = s.ldas := by
  obtain ⟨_, _, _, _, _, _, _, _, _, rfl⟩ := h
  rfl

theorem State.landCopy_eq {s e : State} (c : LdaCopy) (l : List Byte) (h : e.ldas = s.ldas) :
    e.landCopy c l =
      let image := l ++ List.replicate (c.size - l.length) 0
      let m := if c.parts = [] then e.putScratch c.dst image
        else ((List.range ((c.size + 7) / 8)).filter fun p => !c.parts.contains p).foldl
          (fun s p => s.putScratch (c.dst + 8 * p) ((image.drop (8 * p)).take 8)) e
      (({ m with ldas := s.ldas.filter (·.id != c.id) } : State).sweepAllocs (c.dst / 2 ^ 18)).endAdoptions := by
  have hparts : ∀ (ps : List Nat) (e : State), (ps.foldl (fun s p => s.putPart c l p) e).ldas = e.ldas := by
    intro ps
    induction ps with
    | nil => exact fun _ => rfl
    | cons p ps ih => exact fun e => ih _
  unfold State.landCopy
  split
  · rw [← h]; rfl
  · dsimp only
    rw [hparts, h]
    rfl

/-- A copy lands (R106, R119). -/
theorem exec_ldaLand {s : State} {c : LdaCopy} {l : List Byte}
    (hc : (s.ldas.find? fun x => x.id == c.id && x.failed.isNone) = some c)
    (hl : c.got = some l ∨ c.got = none ∧ s.copySource c = .ok l) :
    exec (.ldaLand c.id) s = .next (((s.lookLate c).readLate c).landCopy c l) := by
  have hbytes : (s.lookLate c).copyBytes c = .ok l := by
    unfold State.copyBytes
    obtain hgot | ⟨hgot, hsrc⟩ := hl
    · rw [hgot]
    · rw [hgot]
      exact ((State.Sees.of_cached (s.lookLate_cached c)).copySource c).trans hsrc
  show execLdaLand c.id s = _
  unfold execLdaLand
  rw [hc]
  dsimp only
  rw [hbytes]

/-! ## WTAG (R107, R276) -/

theorem does_wtag (h : Hdr) (g : BitVec 3) (m : BitVec 6) : Does (.wtag h g m) fun t s =>
    if s.tagCount t.tid g.toNat ≤ m.toNat ∧
      (∀ l ∈ s.ldas, ¬(l.tid = t.tid ∧ l.tag = g.toNat ∧ l.failed.isSome = true)) then some s else none := by
  refine does_of_flow rfl (fun _ => rfl) (fun t s e hf => ?_) fun t s e _ hf => ?_
  · split at hf
    · next hok =>
      obtain ⟨hlimit, hnone⟩ := hok
      have hfailed : (s.ldas.filter fun l => l.tid == t.tid && l.tag == g.toNat && l.failed.isSome) = [] := by
        rw [List.filter_eq_nil_iff]
        intro l hl hfail
        simp only [Bool.and_eq_true, beq_iff_eq, and_assoc] at hfail
        exact hnone l hl hfail
      rw [← Option.some.inj hf]
      unfold State.wtag
      rw [if_neg (Nat.not_lt.2 hlimit), hfailed]
      rfl
    · cases hf
  · split at hf
    · rw [← Option.some.inj hf]; exact .refl s
    · cases hf

/-! ## Cache control (R280) -/

theorem does_pref (h : Hdr) (line : Bool) (a : GReg) (off : BitVec 8) : Does (.pref h line a off) fun t s => some
    (match t.l1? with
    | some k => (s.extentSectors t a off line).foldl (fun s x => s.readSector k x h.ch.toNat) s
    | none => s) := by
  refine does_of rfl (fun _ => rfl) (fun t s e hf => congrArg _ (Option.some.inj hf)) fun t s e _ hf => ?_
  rw [← Option.some.inj hf]
  split
  · exact (State.cached_foldl _ (fun s x => s.readSector_cached ..) _ s).stored.keeps
  · exact .refl s

theorem State.writeBack_keeps (s : State) (l : List Nat) : s.Keeps (s.writeBack l) := .of_threads rfl rfl

theorem State.setBehinds_keep {α : Type} (p : State → α) (hp : ∀ (s : State) mem l1Old, p { s with mem, l1Old } = p s)
    (l : List (Nat × Byte)) (s : State) : p (l.foldl (fun s x => s.setBehind x.1 x.2) s) = p s := by
  induction l generalizing s with
  | nil => rfl
  | cons x l ih => exact (ih _).trans (hp ..)

theorem State.dropSectors_keep {α : Type} (p : State → α) (hp : ∀ (s : State) mem l1Old, p { s with mem, l1Old } = p s)
    (hq : ∀ (s : State) shadow home l2, p { s with shadow, home, l2 } = p s) (s : State) (l : List Nat) :
    p (s.dropSectors l) = p s := by
  unfold State.dropSectors
  exact (hq ..).trans (State.setBehinds_keep p hp _ s)

theorem State.dropSectors_keeps (s : State) (l : List Nat) : s.Keeps (s.dropSectors l) :=
  .of_threads (State.dropSectors_keep (·.threads) (fun _ _ _ => rfl) (fun _ _ _ _ => rfl) s l)
    (State.dropSectors_keep (·.groups) (fun _ _ _ => rfl) (fun _ _ _ _ => rfl) s l)

theorem State.threadDrop_keeps (s : State) (t : Thread) (l : List Nat) : s.Keeps (s.threadDrop t l) := by
  unfold State.threadDrop
  split
  · exact .of_threads rfl rfl
  · exact .refl s

theorem does_cwb (h : Hdr) (line : Bool) (a : GReg) (off : BitVec 8) :
    Does (.cwb h line a off) fun t s => some (s.writeBack (s.extentSectors t a off line)) := by
  refine does_of rfl (fun _ => rfl) (fun t s e hf => congrArg _ (Option.some.inj hf)) fun t s e _ hf => ?_
  rw [← Option.some.inj hf]
  exact s.writeBack_keeps _

theorem does_cinv (h : Hdr) (line : Bool) (a : GReg) (off : BitVec 8) : Does (.cinv h line a off) fun t s =>
    some (((s.threadDrop t (s.extentSectors t a off line)).writeBack (s.extentSectors t a off line)).dropSectors
      (s.extentSectors t a off line)) := by
  refine does_of rfl (fun _ => rfl) (fun t s e hf => congrArg _ (Option.some.inj hf)) fun t s e _ hf => ?_
  rw [← Option.some.inj hf]
  exact ((s.threadDrop_keeps ..).trans (State.writeBack_keeps ..)).trans (State.dropSectors_keeps ..)

/-- A line that is invalidated is in the L1 of its core no more. -/
theorem State.cinv_l1 {s : State} {t : Thread} {l : List Nat} {k x : Nat} (hk : t.l1? = some k) (hx : x ∈ l) :
    (((s.threadDrop t l).writeBack l).dropSectors l).l1Holds k x = false := by
  have hl1 : (((s.threadDrop t l).writeBack l).dropSectors l).l1 = (s.l1Drop k l.contains).l1 := by
    rw [State.dropSectors_keep (·.l1) (fun _ _ _ => rfl) fun _ _ _ _ => rfl]
    show (s.threadDrop t l).l1 = _
    rw [State.threadDrop, hk]
  rw [State.l1Holds, hl1, State.l1Drop, List.any_filter, List.any_eq_false]
  intro y _ hy
  simp only [Bool.and_eq_true, Bool.not_eq_true', Bool.and_eq_false_iff, beq_eq_false_iff_ne, beq_iff_eq] at hy
  obtain ⟨hgone, hcore, hsector⟩ := hy
  obtain hne | hne := hgone
  · exact hne hcore
  · rw [hsector, Bool.eq_false_iff] at hne
    exact hne (List.contains_iff_mem.2 hx)

theorem State.writeBack_dirty (s : State) (l : List Nat) (x : Nat) : x ∈ (s.writeBack l).dirty ↔ x ∈ s.dirty ∧ x ∉ l := by
  simp [State.writeBack, List.mem_filter]

/-! ## A sector read into a cache (R84, R85, R87) -/

theorem cacheTake_any (room k sector keep : Nat) (owner : Option Nat) (l : List L1Sector) :
    (cacheTake room k sector keep owner l).any (fun x => x.core == k && x.sector == sector) = true := by
  unfold cacheTake
  split
  · assumption
  · simp

theorem homeTake_any (owner : Option Nat) (keep : Nat) (l : List HomeSector) (sector : Nat) :
    (homeTake owner keep false l sector).any (·.sector == sector) = true := by
  unfold homeTake
  split
  · next h => exact h
  · simp

theorem sectorsOf_sector (x : Nat) : sectorsOf (256 * x) 256 = [x] := by
  have hn : (256 * x + 256 - 1) / 256 - 256 * x / 256 + 1 = 1 := by omega
  have hx : 256 * x / 256 = x := by omega
  rw [sectorsOf, if_neg (by decide), hn, hx]
  rfl

/-- A sector read through the L2 is in its home slice, unless a copy of the die gave it. -/
theorem State.dieRead_homeHolds {s : State} {die : Nat} (c : Option Nat) {x : Nat} (keep : Nat)
    (h : homeDie x = die ∨ ∀ y ∈ s.l2, ¬(y.die = die ∧ y.sector = x)) : (s.dieRead die c x keep).homeHolds x = true := by
  have hheld : (!(homeDie x == die) && s.l2.any fun y => y.die == die && y.sector == x) = false := by
    obtain hd | hnone := h
    · simp [hd]
    · rw [Bool.and_eq_false_iff]
      refine .inr (List.any_eq_false.2 fun y hy hc => hnone y hy ?_)
      simpa using hc
  unfold State.dieRead State.homeHolds
  simp only [hheld, Bool.false_eq_true, if_false, State.l2Read, sectorsOf_sector, List.foldl_cons, List.foldl_nil]
  exact homeTake_any ..

theorem State.l1Counted_eq (s : State) (k x : Nat) : ∃ cores, s.l1Counted k x = { s with cores } := by
  unfold State.l1Counted
  split
  · unfold State.tallyCore
    split
    · exact ⟨s.cores, rfl⟩
    · exact ⟨_, rfl⟩
  · exact ⟨s.cores, rfl⟩

theorem State.readSector_l1Holds (s : State) (k x ch : Nat) : (s.readSector k x ch).l1Holds k x = decide (ch ≠ 3) := by
  unfold State.readSector
  split
  · next hch =>
    rw [State.l1Holds, State.l1Drop, List.any_filter]
    simp only [hch, ne_eq, not_true, decide_false, List.any_eq_false]
    intro y _ hy
    simp only [Bool.and_eq_true, Bool.not_eq_true', Bool.and_eq_false_iff, beq_eq_false_iff_ne, beq_iff_eq] at hy
    obtain ⟨hgone, hcore, hsector⟩ := hy
    exact hgone.elim (fun hne => hne hcore) fun hne => hne hsector
  · next hch =>
    rw [decide_eq_true hch]
    exact cacheTake_any ..

theorem State.readSector_homeHolds {s : State} {k x ch : Nat} (hasked : ch = 3 ∨ s.cacheHolds k x = false)
    (h : homeDie x = cacheDie k ∨ ∀ y ∈ s.l2, ¬(y.die = cacheDie k ∧ y.sector = x)) : (s.readSector k x ch).homeHolds x = true := by
  obtain ⟨cores, hcounted⟩ := s.l1Counted_eq k x
  unfold State.readSector
  split
  · rw [hcounted]
    exact State.dieRead_homeHolds (s := { s with cores }) s.actingCtx (l2Keep ch) h
  · next hch =>
    have hmiss : ({ s with cores } : State).cacheHolds k x = false := hasked.resolve_left hch
    show State.homeHolds (State.l1Fill ..) x = true
    unfold State.l1Fill
    rw [hcounted]
    simp only [hmiss, Bool.false_eq_true, if_false]
    exact State.dieRead_homeHolds (s := { s with cores }) s.actingCtx (l2Keep ch) h

/-- Settles O15: LDA, its landing, WTAG, the fences and the cache operations. -/
theorem copyFenceCacheResults : Obligations.CopyFenceCacheResults := by
  refine ⟨does_lda, fun s k c => ⟨s.issueCopy_eq k c, s.issueCopy_ldas k c⟩, fun s c key => State.copySource_mem,
    fun s c l hc hl => ?_, fun s c => ⟨?_, fun hgot => ?_⟩, does_wtag,
    fun _ _ _ => runs_of rfl (fun _ => rfl) (fun _ => ⟨rfl, rfl, rfl⟩) fun _ => rfl, does_pref,
    fun s k x ch => ⟨s.readSector_l1Holds k x ch, State.readSector_homeHolds, (s.readSector_cached k x ch).eq⟩, does_cwb, does_cinv,
    fun s t l k x => State.cinv_l1, fun s l => ⟨rfl, s.writeBack_dirty l⟩⟩
  · have hcached := (s.lookLate_cached c).trans (State.readLate_cached _ c)
    rw [exec_ldaLand hc hl, State.landCopy_eq c l hcached.ldas]
  · exact ((s.lookLate_cached c).trans (State.readLate_cached _ c)).eq
  · simp only [State.lookLate, State.readLate, hgot, true_or, if_true]

end Sys2Proof.Machine
end

section
/-! SPAWN, the start of a task, and WAIT (R30, R57, R281, R282). -/

namespace Sys2Proof.Machine

/-! ## Effects that are checked once -/

/-- `does_of`, for an effect of which the value and what it keeps are found together. -/
theorem does_of_both {i : Instr} {h : Hdr} (hh : i.hdr? = some h) {f : Thread → State → Option State}
    {g : Thread → State → Except Stop State} (hx : ∀ s, exec i s = runState i s g)
    (hg : ∀ t s e, f t s = some e → g t s = .ok e ∧ s.Keeps e) : Does i f :=
  does_of hh hx (fun t s e hf => (hg t s e hf).1) fun t s e _ hf => (hg t s e hf).2

/-- The same of an instruction that may park its thread. -/
theorem awaits_of {i : Instr} {h : Hdr} (hh : i.hdr? = some h) {f : Thread → State → Option (State × Option Status)}
    {g : Thread → State → Except Stop (State × Next)} (hx : ∀ s, exec i s = runFlow i s g)
    (hg : ∀ t s e c, f t s = some (e, c) →
      g t s = .ok (e, awaitNext c) ∧ s.Keeps e ∧ ∀ va l, c ≠ some (.parked (.future va l))) : Awaits i f :=
  runThreads_awaits hh hx (fun j t s1 s2 c ht hf => by simp only [ht, (hg t s1 s2 c hf).1]) (fun t s1 s2 c _ hf => (hg t s1 s2 c hf).2.1)
    fun t s1 s2 va l hf => (hg t s1 s2 _ hf).2.2 va l rfl

theorem of_ite_none {α : Type} {p : Prop} [Decidable p] {a b : α} (h : (if p then none else some a) = some b) : ¬p ∧ a = b := by
  split at h
  · cases h
  · exact ⟨‹_›, Option.some.inj h⟩

theorem of_ite_some {α : Type} {p : Prop} [Decidable p] {x : Option α} {b : α} (h : (if p then x else none) = some b) : p ∧ x = some b := by
  split at h
  · exact ⟨‹_›, h⟩
  · cases h

/-! ## SPAWN (R281) -/

theorem State.poolRecord_keeps {s e : State} {r : QRec} (h : s.poolRecord r = some e) : s.Keeps e := by
  unfold State.poolRecord at h
  split at h
  · cases h
  · split at h
    · obtain rfl := Option.some.inj h; exact (State.updCtx_serves ..).keeps
    · cases h

theorem State.queueRecord_keeps {s e : State} {k : Nat} {r : QRec} {p : RecPlace} (h : s.queueRecord k r = some (e, p)) : s.Keeps e := by
  unfold State.queueRecord at h
  dsimp only at h
  split at h
  · obtain ⟨rfl, -⟩ := Prod.mk.inj (Option.some.inj h); exact (State.updCore_serves ..).keeps
  · split at h
    · obtain ⟨rfl, -⟩ := Prod.mk.inj (Option.some.inj h); exact (State.updCore_serves ..).keeps
    · cases h

theorem State.placeSpawn_keeps {s e : State} {k : Nat} {r : QRec} {p : RecPlace} (h : s.placeSpawn k r = some (e, p)) : s.Keeps e := by
  unfold State.placeSpawn at h
  split at h
  · obtain ⟨m, hm, he⟩ := Option.map_eq_some_iff.1 h
    obtain ⟨rfl, -⟩ := Prod.mk.inj he
    exact State.poolRecord_keeps hm
  · exact State.queueRecord_keeps h

theorem State.keeps_setPred (s : State) (i : Nat) (q : PReg) (v : Bool) : s.Keeps (s.updThread i fun t => t.setPred q v) :=
  State.keeps_updThread_of (fun t => Thread.setPred_keeps (·.pc) (fun _ _ => rfl) t q v)
    fun t => Thread.setPred_keeps (·.tid) (fun _ _ => rfl) t q v

/-- The record of a spawned task. -/
def spawnRec (t : Thread) (nf : Bool) (n : Nat) (a b : GReg) (fut : Dword) (hdr : KHdr) : QRec :=
  { num := n, ctx := t.ctx, prio := t.prio, entry := t.pair a, args := t.span b 4, fut, hdr, owned := if nf then [] else [fut] }

/-- The end of SPAWN: the record placed, or no room for it (R281). -/
def State.spawnEnds (s : State) (t : Thread) (nf : Bool) (pd : PReg) (key n : Nat) : Option (State × RecPlace) → State
  | some (e, p) => (if nf then e else e.putOwner key (p.handle n)).updThread t.tid fun t => t.setPred pd true
  | none =>
    (match t.place.coreIdx? with
      | some k => s.tallyCore k 0x043 1
      | none => s).updThread t.tid fun t => t.setPred pd false

theorem State.spawnEnds_keeps (s : State) (t : Thread) (nf : Bool) (pd : PReg) (key n : Nat) {x : Option (State × RecPlace)}
    (h : ∀ e p, x = some (e, p) → s.Keeps e) : s.Keeps (s.spawnEnds t nf pd key n x) := by
  cases x with
  | none =>
    refine .trans ?_ (State.keeps_setPred _ _ _ _)
    split
    · exact (State.tallyCore_serves ..).keeps
    · exact .refl s
  | some x =>
    obtain ⟨e, p⟩ := x
    refine (h e p rfl).trans (.trans ?_ (State.keeps_setPred _ _ _ _))
    split
    · exact .refl e
    · exact (State.putMemAs_stored ..).keeps

theorem exec_spawn (h : Hdr) (nf : Bool) (pd : PReg) (a b c : GReg) (s : State) :
    exec (.spawn h nf pd a b c) s = runState (.spawn h nf pd a b c) s fun t s => s.spawn t nf pd a b c := rfl

/-- SPAWN where its operands pass. -/
theorem State.spawn_eq {s : State} {t : Thread} {nf : Bool} {pd : PReg} {a b c : GReg} {hdr : KHdr} {key : Nat}
    (hentry : (t.pair a).toNat % 8 = 0) (hfut : (if nf then 0 else t.pair c).toNat % 16 = 0)
    (hcanon : canonical (t.pair a) = true) (hcanon' : canonical (if nf then 0 else t.pair c) = true)
    (hread : s.readHdr t.ctx (t.pair a) = .ok (some hdr)) (hgang : hdr.gang = false)
    (hkey : (if nf then .ok 0 else s.key t.ctx (if nf then 0 else t.pair c) .write) = Except.ok key) :
    s.spawn t nf pd a b c = .ok (s.spawnEnds t nf pd key (s.freshRecord t.ctx).1
      ((if nf then (s.freshRecord t.ctx).2 else (s.freshRecord t.ctx).2.dropOwned t.ctx (if nf then 0 else t.pair c) key).placeSpawn
        (t.place.coreIdx?.getD 0) (spawnRec t nf (s.freshRecord t.ctx).1 a b (if nf then 0 else t.pair c) hdr))) := by
  unfold State.spawn
  simp only [aligned_ok hentry, aligned_ok hfut, canon_ok hcanon, canon_ok hcanon', hread, hgang, ok_bind, Bool.false_eq_true, if_false]
  cases nf with
  | true =>
    obtain rfl := Except.ok.inj hkey
    simp only [if_true, pure_bind]
    simp only [spawnRec, if_true]
    generalize State.placeSpawn _ _ _ = x
    cases x <;> rfl
  | false =>
    have hkey' : s.key t.ctx (t.pair c) .write = Except.ok key := hkey
    simp only [Bool.false_eq_true, if_false, hkey', ok_bind, spawnRec]
    generalize State.placeSpawn _ _ _ = x
    cases x <;> rfl

/-- The future's address in SPAWN, 0 where there is none. -/
def spawnFut (t : Thread) (nf : Bool) (c : GReg) : Dword := if nf then 0 else t.pair c

/-- What the future's part of a SPAWN leaves before the record is placed. -/
def State.spawnListed (s : State) (t : Thread) (nf : Bool) (fut : Dword) (key : Nat) : State :=
  if nf then (s.freshRecord t.ctx).2 else (s.freshRecord t.ctx).2.dropOwned t.ctx fut key

theorem State.spawnListed_keeps (s : State) (t : Thread) (nf : Bool) (fut : Dword) (key : Nat) : s.Keeps (s.spawnListed t nf fut key) := by
  have hfresh : s.Keeps (s.freshRecord t.ctx).2 := (State.updCtx_serves ..).keeps
  unfold State.spawnListed
  split
  · exact hfresh
  · exact hfresh.trans (State.dropOwned_serves ..).keeps

theorem Does.congr {i : Instr} {f g : Thread → State → Option State} (h : Does i f) (hfg : ∀ t s, f t s = g t s) : Does i g :=
  (funext fun t => funext fun s => hfg t s : f = g) ▸ h

/-- SPAWN wherever an agent may run it. -/
theorem does_spawn (h : Hdr) (nf : Bool) (pd : PReg) (a b c : GReg) : Does (.spawn h nf pd a b c) fun t s =>
    let fut := spawnFut t nf c
    if (t.pair a).toNat % 8 = 0 ∧ fut.toNat % 16 = 0 ∧ canonical (t.pair a) = true ∧ canonical fut = true then
      match s.readHdr t.ctx (t.pair a), (if nf then .ok 0 else s.key t.ctx fut .write) with
      | .ok (some hdr), .ok key =>
        if hdr.gang then none
        else some (s.spawnEnds t nf pd key (s.freshRecord t.ctx).1
          ((s.spawnListed t nf fut key).placeSpawn (t.place.coreIdx?.getD 0) (spawnRec t nf (s.freshRecord t.ctx).1 a b fut hdr)))
      | _, _ => none
    else none := by
  refine does_of_both (h := h) rfl (exec_spawn h nf pd a b c) fun t s e hf => ?_
  obtain ⟨⟨hentry, hfut, hcanon, hcanon'⟩, hf⟩ := of_ite_some hf
  split at hf
  · next hdr key hread hkey =>
    obtain ⟨hgang, rfl⟩ := of_ite_none hf
    exact ⟨State.spawn_eq hentry hfut hcanon hcanon' hread (Bool.eq_false_iff.2 hgang) hkey,
      State.spawnEnds_keeps _ _ _ _ _ _ fun e p hp => (State.spawnListed_keeps ..).trans (State.placeSpawn_keeps hp)⟩
  · cases hf

/-! ## Places of records (R57) -/

theorem State.placeSpawn_room {s : State} {k : Nat} {r : QRec} (hstop : (s.core k).stopping = false)
    (hroom : (s.core k).queue.length < 1024) (hspill : (s.core k).spill = []) :
    s.placeSpawn k r = some (s.updCore k fun c => { c with queue := c.queue ++ [r] }, .queue k) := by
  rw [State.placeSpawn, hstop, if_neg Bool.false_ne_true, State.queueRecord]
  have hroom' : (s.core k).queue.length < Config.queueRecords := hroom
  simp [hroom', hspill]

theorem State.placeSpawn_full {s : State} {k : Nat} {r : QRec} (hstop : (s.core k).stopping = false)
    (hfull : 1024 ≤ (s.core k).queue.length ∨ (s.core k).spill ≠ []) (hspill : ((s.ctx? r.ctx).map (·.spillrec)).getD 0 ≤ (s.core k).spill.length) :
    s.placeSpawn k r = none := by
  have hqueue : ¬((s.core k).queue.length < Config.queueRecords ∧ (s.core k).spill.isEmpty = true) := by
    rintro ⟨hlt, hempty⟩
    rcases hfull with hle | hne
    · exact absurd hlt (Nat.not_lt.2 hle)
    · exact hne (List.isEmpty_iff.1 hempty)
  rw [State.placeSpawn, hstop, if_neg Bool.false_ne_true, State.queueRecord, if_neg hqueue, if_neg (Nat.not_lt.2 hspill)]

/-! ## The start of a task's thread (R30) -/

theorem State.freshBits_nextId (s : State) : s.freshBits.2.nextId = s.nextId := rfl

theorem State.addCounts_nextId (s : State) (c : Nat) : (s.addCounts c).nextId = s.nextId := by
  unfold State.addCounts
  dsimp only
  split <;> rfl

theorem State.enterCtx_nextId (s : State) (k c : Nat) : (s.enterCtx k c).nextId = s.nextId := by
  unfold State.enterCtx
  split
  · rfl
  · show (match (s.core k).lastCtx with
      | some old => s.addCounts old
      | none => s).nextId = s.nextId
    split
    · exact State.addCounts_nextId s _
    · rfl

theorem startRegs_getElem? {n i : Nat} (args : List Word) (hi : i < n) : (startRegs n args)[i]? = some { val := args.getD i 0 } := by
  simp [startRegs, hi]

theorem State.start_thread {s e : State} {k : Nat} {r : QRec} {idx depth : Nat} {at' : Nat × Nat} {waiters : List Nat}
    (hgang : r.hdr.gang = false) (hbind : r.hdr.bind = 1) (hstart : s.start k r idx [at'] depth waiters = some e) :
    ∃ x id tls age, startThread x r id (s.nextId + 1) 0 k at' (0, 0, r.hdr.regs) tls age ∈ e.threads := by
  unfold State.start at hstart
  split at hstart
  · cases hstart
  · next x hx =>
    dsimp only at hstart
    split at hstart
    · next alloc areas halloc hareas =>
      have hgroup : (!r.hdr.gang && decide (2 ≤ r.hdr.bind)) = false := by rw [hbind]; simp
      have hroles : r.hdr.threads = [(0, 0, r.hdr.regs)] := by simp [KHdr.threads, hgang, hbind]
      rw [hgroup, hroles] at hstart
      obtain rfl := Option.some.inj hstart
      have hnext : (s.freshBits.2.enterCtx k r.ctx).freshId.2.nextId = s.nextId + 1 :=
        congrArg (· + 1) (State.enterCtx_nextId s.freshBits.2 k r.ctx)
      rw [← hnext]
      refine ⟨x, (s.freshBits.2.enterCtx k r.ctx).freshId.1, (areas[0]?).getD 0, (s.freshBits.2.enterCtx k r.ctx).freshId.2.tick, ?_⟩
      simp only [Bool.false_eq_true, if_false, State.updCore_threads, State.updCtx_threads]
      exact List.mem_append_right _ (List.mem_singleton.2 rfl)
    · cases hstart

/-- Settles O16: SPAWN is its record, its place and its predicate; the start makes the thread of its kernel's header. -/
theorem spawnAndTaskStart : Obligations.SpawnAndTaskStart := by
  refine ⟨⟨fun h nf pd a b c => ?_, fun s k r hstop hroom hspill => State.placeSpawn_room hstop hroom hspill,
    fun s k r hstop hfull hspill => State.placeSpawn_full hstop hfull hspill⟩, ?_⟩
  · refine (does_spawn h nf pd a b c).congr fun t s => if_congr Iff.rfl ?_ rfl
    unfold spawnFut
    generalize s.readHdr t.ctx (t.pair a) = hdr
    generalize (if nf = true then Except.ok 0 else s.key t.ctx (if nf = true then 0 else t.pair c) .write) = key
    rcases hdr with _ | _ | hdr
    · rfl
    · cases key <;> rfl
    cases key with
    | error => rfl
    | ok key =>
      by_cases hgang : hdr.gang = true
      · exact (if_pos hgang).trans (if_pos hgang).symm
      · refine (if_neg hgang).trans (.trans ?_ (if_neg hgang).symm)
        change some (State.spawnEnds _ _ _ _ _ _ (State.placeSpawn _ _ _)) = _
        dsimp only [spawnRec, State.spawnListed, State.freshRecord]
        generalize State.placeSpawn _ _ _ = x
        cases x <;> rfl
  · intro s e k r idx at' depth waiters hgang hbind hstart
    obtain ⟨x, id, tls, age, hmem⟩ := State.start_thread hgang hbind hstart
    refine ⟨_, hmem, rfl, ?_, by simp [startThread, startRegs], rfl, rfl, rfl, rfl, rfl, rfl, rfl, rfl, ?_, rfl⟩
    · simp [startThread]
    · exact fun i hi => startRegs_getElem? r.args hi

/-! ## WAIT of threads that share a number (R282) -/

/-- A WAIT of thread 0 on the future at address 0, which is EMPTY: its address and its timeout come from registers that hold 0. -/
def twinWait : Instr := .wait ⟨⟨false, 7⟩, ⟨false, 7⟩, 0, 0⟩ .dev 8 4 5 0

/-- Two threads with the number 0, of which the second has begun a WAIT before. -/
def twins : State :=
  { State.reset.placeWord 0 with
    cur := .thread 0, beamRest := [], threads := [placedThread, { placedThread with waitStart := some 5 }] }

/-- The beginnings of the WAITs of a state's threads, in the order of the table. -/
def State.waitStarts (s : State) : List (Option Nat) := s.threads.map (·.waitStart)

/-- What an outcome's next state answers. -/
def nextIs {α : Type} (f : State → α) (o : Out) : Option α :=
  match o with
  | .next s => some (f s)
  | _ => none

/-- The second twin keeps the beginning of its WAIT, as `startWait` does not begin again a WAIT that has begun. -/
theorem twins_wait : nextIs State.waitStarts (exec twinWait twins) = some [some 0, some 5] := by decide +kernel

/-- Refutes O17: where two threads have one number, WAIT begins anew in the one that executes, and not in its twin, which has begun
before; the statement has both begin now. -/
theorem not_futureObjectResults : ¬ Obligations.FutureObjectResults := by
  rintro ⟨⟨-, -, -, -, -, hparks, -⟩, -⟩
  have hwait := hparks ⟨⟨false, 7⟩, ⟨false, 7⟩, 0, 0⟩ .dev 8 4 5 0 twins placedThread 0 rfl (by decide +kernel) (by decide +kernel)
    (by decide +kernel) rfl rfl rfl (by decide +kernel) (by decide +kernel) (by decide +kernel) (by decide +kernel) (by decide +kernel)
    (by decide +kernel)
  have hstarts := twins_wait
  rw [twinWait, hwait] at hstarts
  revert hstarts
  decide +kernel

end Sys2Proof.Machine
end

section
/-! Membership group objects: JOIN, LEAVE, BAR, FSET.BIT and WAIT.BIT (R51 to R55, R286, R287). -/

namespace Sys2Proof.Machine

theorem State.readsDone_ok {s : State} {t : Thread} {va : Dword} {n : Nat} (h : s.unreadAt t va n = false) :
    s.readsDone t va n = .ok () := by
  rw [State.readsDone, if_neg (Bool.eq_false_iff.1 h)]

theorem State.putMem_keeps (s : State) (key : Nat) (l : List Byte) : s.Keeps (s.putMem key l) := (s.putMemAs_stored ..).keeps

theorem State.groupObj_ok {s : State} {t : Thread} {va : Dword} {acc : Acc} {key : Nat} (halign : va.toNat % 64 = 0)
    (hread : s.unreadAt t va 64 = false) (hkey : s.key t.ctx va acc = .ok key) (hpoison : s.poisoned key 64 = false)
    (hscope : s.num key 64 / 2 ^ 96 % 4 = 1 ∨ s.num key 64 / 2 ^ 96 % 4 = 2) :
    s.groupObj t va acc = .ok (key, s.num key 64, parseGroup (s.num key 64)) := by
  have hparse : (parseGroup (s.num key 64)).scope = s.num key 64 / 2 ^ 96 % 4 := rfl
  have hvalid : ¬((parseGroup (s.num key 64)).scope = 0 ∨ (parseGroup (s.num key 64)).scope = 3) := by rw [hparse]; omega
  simp only [State.groupObj, aligned_ok halign, State.readsDone_ok hread, hkey, State.readKey_ok hpoison, ok_bind]
  exact if_neg hvalid

theorem dieOk_ok {t : Thread} {g : GroupObj} {va : Dword} (h : ¬(g.scope = 1 ∧ g.dieValid = true ∧ g.die ≠ t.place.die)) :
    dieOk t g va = .ok () := if_neg h

/-! ## Members and arrivals -/

/-- The object after a JOIN by a thread of a die (R52). -/
def GroupObj.joined (g : GroupObj) (die : Nat) : GroupObj :=
  { g with
    members := g.members + 1
    dieValid := g.dieValid || g.scope == 1
    die := if g.scope = 1 ∧ g.dieValid = false then die else g.die }

theorem State.join_ok {s : State} {t : Thread} {va : Dword} {key x : Nat} {g : GroupObj} (hobj : s.groupObj t va .rmw = .ok (key, x, g))
    (hdie : ¬(g.scope = 1 ∧ g.dieValid = true ∧ g.die ≠ t.place.die)) :
    s.join t va = .ok (s.putGroup key x (g.joined t.place.die)) := by
  simp only [State.join, hobj, ok_bind, dieOk_ok hdie]
  refine congrArg (fun g => Except.ok (s.putGroup key x g)) ?_
  by_cases hfirst : g.scope = 1 ∧ g.dieValid = false
  · simp [GroupObj.joined, hfirst.1, hfirst.2]
  · have hvalid : (g.dieValid || g.scope == 1) = g.dieValid := by
      rcases hd : g.dieValid with _ | _
      · simpa [hd] using hfirst
      · rfl
    simp [GroupObj.joined, hfirst, hvalid]

/-- The object after a LEAVE, which may complete the open generation (R54). -/
def GroupObj.left (g : GroupObj) : GroupObj :=
  { g with
    members := g.members - 1
    arrived := if g.arrived ≠ 0 ∧ g.arrived = g.members - 1 then 0 else g.arrived
    gen := if g.arrived ≠ 0 ∧ g.arrived = g.members - 1 then g.gen + 1 else g.gen
    dieValid := if g.members = 1 then false else g.dieValid }

theorem word_sub_one_eq_zero (w : Word) : w - 1#32 = 0#32 ↔ w = 1#32 := by bv_omega

theorem State.leave_ok {s : State} {t : Thread} {va : Dword} {key x : Nat} {g : GroupObj}
    (hobj : s.groupObj t va .rmw = .ok (key, x, g)) (hdie : ¬(g.scope = 1 ∧ g.dieValid = true ∧ g.die ≠ t.place.die))
    (hsome : g.members ≠ 0) : s.leave t va = .ok (s.putGroup key x g.left) := by
  simp only [State.leave, hobj, ok_bind, dieOk_ok hdie]
  rw [if_neg hsome]
  refine congrArg (fun g => Except.ok (s.putGroup key x g)) ?_
  by_cases hopen : g.arrived = 0#32
  · by_cases hlast : g.members = 1#32 <;> simp [GroupObj.left, hopen, word_sub_one_eq_zero, hlast]
  · by_cases hfull : g.arrived = g.members - 1#32 <;> by_cases hlast : g.members = 1#32 <;>
      simp [GroupObj.left, GroupObj.settle, word_sub_one_eq_zero, hopen, hfull, hlast]

/-- The object after an arrival at its barrier (R53). -/
def GroupObj.barred (g : GroupObj) : GroupObj :=
  { g with
    arrived := if g.arrived + 1 = g.members then 0 else g.arrived + 1
    gen := if g.arrived + 1 = g.members then g.gen + 1 else g.gen }

theorem State.bar_ok {s : State} {t : Thread} {va : Dword} {key x : Nat} {g : GroupObj} (hobj : s.groupObj t va .rmw = .ok (key, x, g))
    (hdie : ¬(g.scope = 1 ∧ g.dieValid = true ∧ g.die ≠ t.place.die)) :
    s.bar t va = .ok (s.putGroup key x g.barred, .await (.parked (.barrier va g.gen))) := by
  simp only [State.bar, hobj, ok_bind, dieOk_ok hdie]
  refine congrArg (fun g' => Except.ok (s.putGroup key x g', Next.await (.parked (.barrier va g.gen)))) ?_
  by_cases hfull : g.arrived + 1#32 = g.members <;> simp [GroupObj.settle, GroupObj.barred, hfull]

/-! ## The completion bitmap -/

theorem State.bitmapDword_ok {s : State} {t : Thread} {va : Dword} {i key x : Nat} {g : GroupObj}
    (hobj : s.groupObj t va .read = .ok (key, x, g)) (hrange : i < g.bits) (halign : g.bmap.toNat % 8 = 0) :
    s.bitmapDword t va i = .ok (g.bmap + BitVec.ofNat 64 (8 * (i / 64))) := by
  simp only [State.bitmapDword, hobj, ok_bind, aligned_ok halign]
  rw [if_neg (Nat.not_le.2 hrange)]
  rfl

theorem State.fsetBit_ok {s : State} {t : Thread} {va w : Dword} {i key : Nat} (hw : s.bitmapDword t va i = .ok w)
    (hkey : s.key t.ctx w .rmw = .ok key) (hpoison : s.poisoned key 8 = false) :
    s.fsetBit t va i =
      .ok (s.putMem key (natLe 8 (BitVec.ofNat 64 (s.num key 8) ||| (1 : Dword) <<< (i % 64)).toNat)) := by
  simp only [State.fsetBit, hw, hkey, State.readKey_ok hpoison, ok_bind]
  rfl

theorem State.waitBit_ok {s : State} {t : Thread} {va w : Dword} {i key : Nat} (hw : s.bitmapDword t va i = .ok w)
    (hread : s.unreadAt t w 8 = false) (hkey : s.key t.ctx w .read = .ok key) (hpoison : s.poisoned key 8 = false) :
    s.waitBit t va i = .ok (s, awaitNext (if (s.num key 8).testBit (i % 64) then none else some (.parked (.bit w (i % 64))))) := by
  simp only [State.waitBit, hw, hkey, State.readKey_ok hpoison, State.readsDone_ok hread, ok_bind]
  rw [show leNat (s.bytes key 8) = s.num key 8 from rfl]
  cases (s.num key 8).testBit (i % 64) <;> rfl

/-! ## The statement -/

theorem exec_join (h : Hdr) (a : GReg) (s : State) : exec (.join h a) s = runState (.join h a) s fun t s => s.join t (t.pair a) := rfl
theorem exec_leave (h : Hdr) (a : GReg) (s : State) : exec (.leave h a) s = runState (.leave h a) s fun t s => s.leave t (t.pair a) := rfl
theorem exec_fsetBit (h : Hdr) (a b : GReg) (s : State) :
    exec (.fsetBit h a b) s = runState (.fsetBit h a b) s fun t s => s.fsetBit t (t.pair a) (t.val b).toNat := rfl

theorem exec_bar (h : Hdr) (a : GReg) (s : State) : exec (.bar h a) s = runFlow (.bar h a) s fun t s => s.bar t (t.pair a) := rfl
theorem exec_waitBit (h : Hdr) (a b : GReg) (s : State) :
    exec (.waitBit h a b) s = runFlow (.waitBit h a b) s fun t s => s.waitBit t (t.pair a) (t.val b).toNat := rfl

theorem does_join (h : Hdr) (a : GReg) : Does (.join h a) fun t s =>
    match s.groupObj t (t.pair a) .rmw with
    | .ok (key, x, g) =>
      if g.scope = 1 ∧ g.dieValid = true ∧ g.die ≠ t.place.die then none else some (s.putGroup key x (g.joined t.place.die))
    | .error _ => none := by
  refine does_of_both (h := h) rfl (exec_join h a) fun t s e hf => ?_
  split at hf
  · next key x g hobj =>
    obtain ⟨hdie, rfl⟩ := of_ite_none hf
    exact ⟨State.join_ok hobj hdie, State.putMem_keeps ..⟩
  · cases hf

theorem does_leave (h : Hdr) (a : GReg) : Does (.leave h a) fun t s =>
    match s.groupObj t (t.pair a) .rmw with
    | .ok (key, x, g) =>
      if (g.scope = 1 ∧ g.dieValid = true ∧ g.die ≠ t.place.die) ∨ g.members = 0 then none else some (s.putGroup key x g.left)
    | .error _ => none := by
  refine does_of_both (h := h) rfl (exec_leave h a) fun t s e hf => ?_
  split at hf
  · next key x g hobj =>
    obtain ⟨hok, rfl⟩ := of_ite_none hf
    obtain ⟨hdie, hsome⟩ := not_or.1 hok
    exact ⟨State.leave_ok hobj hdie hsome, State.putMem_keeps ..⟩
  · cases hf

theorem awaits_bar (h : Hdr) (a : GReg) : Awaits (.bar h a) fun t s =>
    match s.groupObj t (t.pair a) .rmw with
    | .ok (key, x, g) =>
      if g.scope = 1 ∧ g.dieValid = true ∧ g.die ≠ t.place.die then none
      else some (s.putGroup key x g.barred, some (.parked (.barrier (t.pair a) g.gen)))
    | .error _ => none := by
  refine awaits_of (h := h) rfl (exec_bar h a) fun t s e c hf => ?_
  split at hf
  · next key x g hobj =>
    obtain ⟨hdie, he⟩ := of_ite_none hf
    obtain ⟨rfl, rfl⟩ := Prod.mk.inj he
    exact ⟨State.bar_ok hobj hdie, State.putMem_keeps .., nofun⟩
  · cases hf

theorem does_fsetBit (h : Hdr) (a b : GReg) : Does (.fsetBit h a b) fun t s =>
    match s.groupObj t (t.pair a) .read with
    | .ok (_, _, g) =>
      let i := (t.val b).toNat
      let w := g.bmap + BitVec.ofNat 64 (8 * (i / 64))
      if i < g.bits ∧ g.bmap.toNat % 8 = 0 then
        match s.key t.ctx w .rmw with
        | .ok key => if s.poisoned key 8 then none else
            some (s.putMem key (natLe 8 (BitVec.ofNat 64 (s.num key 8) ||| (1 : Dword) <<< (i % 64)).toNat))
        | .error _ => none
      else none
    | .error _ => none := by
  refine does_of_both (h := h) rfl (exec_fsetBit h a b) fun t s e hf => ?_
  split at hf
  · next k x g hobj =>
    obtain ⟨⟨hrange, halign⟩, hf⟩ := of_ite_some hf
    split at hf
    · next key hkey =>
      obtain ⟨hpoison, rfl⟩ := of_ite_none hf
      exact ⟨State.fsetBit_ok (State.bitmapDword_ok hobj hrange halign) hkey (Bool.eq_false_iff.2 hpoison), State.putMem_keeps ..⟩
    · cases hf
  · cases hf

theorem awaits_waitBit (h : Hdr) (a b : GReg) : Awaits (.waitBit h a b) fun t s =>
    match s.groupObj t (t.pair a) .read with
    | .ok (_, _, g) =>
      let i := (t.val b).toNat
      let w := g.bmap + BitVec.ofNat 64 (8 * (i / 64))
      if i < g.bits ∧ g.bmap.toNat % 8 = 0 then
        match s.key t.ctx w .read with
        | .ok key =>
          if s.poisoned key 8 = true ∨ s.unreadAt t w 8 = true then none
          else some (s, if (s.num key 8).testBit (i % 64) then none else some (.parked (.bit w (i % 64))))
        | .error _ => none
      else none
    | .error _ => none := by
  refine awaits_of (h := h) rfl (exec_waitBit h a b) fun t s e c hf => ?_
  split at hf
  · next k x g hobj =>
    obtain ⟨⟨hrange, halign⟩, hf⟩ := of_ite_some hf
    split at hf
    · next key hkey =>
      obtain ⟨hok, he⟩ := of_ite_none hf
      obtain ⟨rfl, rfl⟩ := Prod.mk.inj he
      obtain ⟨hpoison, hread⟩ := not_or.1 hok
      refine ⟨State.waitBit_ok (State.bitmapDword_ok hobj hrange halign) (Bool.eq_false_iff.2 hread) hkey
        (Bool.eq_false_iff.2 hpoison), .refl _, fun va l => ?_⟩
      split <;> nofun
    · cases hf
  · cases hf

/-- Settles O18: each instruction writes the object that the rules of R52 to R55 give, or parks on it. -/
theorem membershipResults : Obligations.MembershipResults :=
  ⟨does_join, does_leave, awaits_bar, does_fsetBit, awaits_waitBit, fun _ _ _ _ _ halign hread hkey hpoison hscope =>
    State.groupObj_ok halign hread hkey hpoison hscope⟩

end Sys2Proof.Machine
end

section
/-! SRET of a section on a compute core (R175, R291). -/

namespace Sys2Proof.Machine

/-- The section of a SHIP.O that thread 1 has sent. -/
def strayRequest : ShipReq := { sender := .thread 1, ctx := 0, entry := 0, lock := 0, kind := .o, args := [], m := 0, task := 0 }

/-- The header of an instruction under true guards. -/
def alwaysHdr : Hdr := ⟨⟨false, 7⟩, ⟨false, 7⟩, 0, 0⟩

/-- A thread of core 0 that runs a section, on a core with a counter of issued instructions. -/
def stray : State :=
  ({ State.reset.placeWord 0 with
    cur := .thread 0, beamRest := [], threads := [{ placedThread with section_ := some ⟨strayRequest, 0⟩ }] } : State).updCore 0
      fun c => { c with perf := [(0, { ctrl := 0x80000004 })] }

/-- What the counters of core 0 hold. -/
def State.coreCounts (s : State) : List Dword := (s.core 0).perf.map (·.2.value)

/-- The core counts the SRET that it issues. -/
theorem stray_sret : nextIs State.coreCounts (exec (.sret alwaysHdr) stray) = some [1] := by decide +kernel

/-- Refutes O19: the core of a thread that runs a section without being on a latency core counts its SRET (R452), where the statement
has nothing but the end of the section. -/
theorem not_shipResults : ¬ Obligations.ShipResults := by
  rintro ⟨-, -, hsret, -⟩
  have hend := hsret alwaysHdr stray { placedThread with section_ := some ⟨strayRequest, 0⟩ } ⟨strayRequest, 0⟩ rfl
    (by decide +kernel) (by decide +kernel) rfl rfl
  have hcounts := stray_sret
  rw [hend] at hcounts
  revert hcounts
  decide +kernel

end Sys2Proof.Machine
end

section
/-! Queue objects: QPUSH, QPUSH.RSV, QPOP and QPOP.MIN (R292 to R297). -/

namespace Sys2Proof.Machine

/-- An instruction in two halves, of which each effect's value and what it keeps are found together. -/
theorem doesInTwo_of_both {i : Instr} {h : Hdr} (hh : i.hdr? = some h) {f g : Thread → State → Option State}
    {first : Thread → State → Except Stop State} {second : Thread → State → Except Stop (State × Next)}
    (hx : ∀ s, exec i s = runStaged i s
      (fun i s => match s.thread? i with
        | none => .ok s
        | some t => first t s)
      (fun i s => match s.thread? i with
        | none => .ok (s, .gone)
        | some t => second t s))
    (hf : ∀ t s e, f t s = some e → first t s = .ok e ∧ s.Keeps e)
    (hg : ∀ t s e, g t s = some e → second t s = .ok (e, .seq) ∧ s.Keeps e) : DoesInTwo i f g :=
  doesInTwo_of hh hx (fun j t s1 s2 ht h => by simp only [ht, (hf t s1 s2 h).1]) (fun j t s1 s2 ht h => by simp only [ht, (hg t s1 s2 h).1])
    (fun t s e _ h => (hf t s e h).2) fun t s e _ h => (hg t s e h).2

theorem State.claimOwned_keeps (s : State) (t : Thread) (va : Dword) : s.Keeps (s.claimOwned t va).2 := by
  unfold State.claimOwned
  split
  · split
    · exact .refl s
    · split
      · exact .refl s
      · exact .of_threads rfl rfl
  · exact .refl s

/-! ## The first half of a push (R294) -/

/-- The claim of a push, where its slot is free. -/
def State.pushed (s : State) (t : Thread) (obj : Dword) (b : Nat) (q : QObj) (k : Bucket) : State :=
  ((s.putBucket { k with free := k.free &&& ~~~((1 : Dword) <<< (k.tail.toNat % q.cap)), tail := k.tail + 1 }).putNonempty q b
    true).updThread t.tid fun t =>
      { t with pushClaim := some { pc := t.pc, obj, bucket := b, slot := k.tail.toNat % q.cap,
                                   entry := some (q.entry b (k.tail.toNat % q.cap)) } }

/-- The first half of a push on a bucket. -/
def State.pushClaims (s : State) (t : Thread) (obj : Dword) (b : Nat) (q : QObj) (k : Bucket) : Option State :=
  if k.free.getLsbD (k.tail.toNat % q.cap) then
    if canonical (q.entry b (k.tail.toNat % q.cap)) ∧ (s.entryOk t (q.entry b (k.tail.toNat % q.cap))).isOk then some (s.pushed t obj b q k)
    else none
  else some (s.updThread t.tid fun t => { t with pushClaim := some { pc := t.pc, obj } })

theorem ok_of_isOk {x : Except Stop Unit} (h : x.isOk = true) : x = .ok () := by
  cases x with
  | error _ => cases h
  | ok _ => rfl

theorem State.pushStep_ok {s e : State} {t : Thread} {obj : Dword} {b : Nat} {q : QObj} {k : Bucket} (hclaim : t.pushClaim = none)
    (hobj : s.queueObj t obj = .ok q) (hbucket : s.bucket t q obj b = .ok k) (he : s.pushClaims t obj b q k = some e) :
    s.pushStep t obj b = .ok e := by
  unfold State.pushClaims at he
  simp only [State.pushStep, hclaim, Option.any_none, Bool.false_eq_true, if_false, hobj, hbucket, ok_bind]
  split at he
  · next hfree =>
    obtain ⟨⟨-, hentry⟩, he⟩ := of_ite_some he
    obtain rfl := Option.some.inj he
    simp only [hfree, Bool.not_true, Bool.false_eq_true, if_false, ok_of_isOk hentry, ok_bind]
    rfl
  · next hfull =>
    obtain rfl := Option.some.inj he
    simp only [Bool.eq_false_iff.2 hfull, Bool.not_false, if_true]
    rfl

theorem State.keeps_pushClaim (s : State) (i : Nat) (c : Thread → Option QClaim) :
    s.Keeps (s.updThread i fun t => { t with pushClaim := c t }) := State.keeps_updThread_of (fun _ => rfl) fun _ => rfl

theorem State.pushClaims_keeps {s e : State} {t : Thread} {obj : Dword} {b : Nat} {q : QObj} {k : Bucket}
    (he : s.pushClaims t obj b q k = some e) : s.Keeps e := by
  unfold State.pushClaims at he
  split at he
  · obtain ⟨-, he⟩ := of_ite_some he
    obtain rfl := Option.some.inj he
    exact ((s.putMem_keeps _ _).trans (State.putMem_keeps _ _ _)).trans (State.keeps_pushClaim _ _ _)
  · obtain rfl := Option.some.inj he
    exact State.keeps_pushClaim _ _ _

/-- The first half of a push. -/
def State.pushes (s : State) (t : Thread) (obj : Dword) (n : Nat) : Option State :=
  match t.pushClaim, s.queueObj t obj with
  | none, .ok q =>
    match s.bucket t q obj n with
    | .ok k => s.pushClaims t obj n q k
    | .error _ => none
  | _, _ => none

theorem State.pushes_ok {s e : State} {t : Thread} {obj : Dword} {n : Nat} (he : s.pushes t obj n = some e) :
    s.pushStep t obj n = .ok e ∧ s.Keeps e := by
  unfold State.pushes at he
  split at he
  · next q hclaim hobj =>
    split at he
    · next k hbucket => exact ⟨State.pushStep_ok hclaim hobj hbucket he, State.pushClaims_keeps he⟩
    · cases he
  · cases he

/-! ## The second half of a push -/

/-- A thread that has no push under way, with its predicate. -/
def Thread.pushEnds (t : Thread) (pd : PReg) (ok : Bool) : Thread := { t.setPred pd ok with pushClaim := none }

theorem State.keeps_pushEnds (s : State) (i : Nat) (pd : PReg) (ok : Bool) : s.Keeps (s.updThread i fun t => t.pushEnds pd ok) :=
  State.keeps_updThread_of (fun t => Thread.setPred_keeps (·.pc) (fun _ _ => rfl) t pd ok)
    fun t => Thread.setPred_keeps (·.tid) (fun _ _ => rfl) t pd ok

/-- A value published in its entry. -/
def State.publishes (s : State) (t : Thread) (pd : PReg) (v : Dword) : Option State :=
  match t.pushClaim.bind (·.entry) with
  | none => some (s.updThread t.tid fun t => t.pushEnds pd false)
  | some e =>
    match s.key t.ctx e .rmw with
    | .ok key =>
      if s.poisoned key 16 then none
      else some (((s.putMem key (natLe 8 v.toNat ++ natLe 4 (s.pushHandle t).toNat ++ natLe 4 (s.num key 16 / 2 ^ 98 * 4 + 1))).dropOwned
        t.ctx e key).updThread t.tid fun t => t.pushEnds pd true)
    | .error _ => none

theorem State.publishes_ok {s e : State} {t : Thread} {pd : PReg} {v : Dword} (he : s.publishes t pd v = some e) :
    s.pushValue t pd v = .ok (e, .seq) ∧ s.Keeps e := by
  unfold State.publishes at he
  unfold State.pushValue
  rcases hentry : t.pushClaim.bind (·.entry) with _ | va <;> simp only [hentry] at he ⊢
  · obtain rfl := Option.some.inj he
    exact ⟨rfl, State.keeps_pushEnds _ _ _ _⟩
  · split at he
    · next key hkey =>
      obtain ⟨hpoison, rfl⟩ := of_ite_none he
      simp only [hkey, State.readKey_ok (Bool.eq_false_iff.2 hpoison), ok_bind]
      exact ⟨rfl, ((State.putMem_keeps _ _ _).trans (State.dropOwned_serves ..).keeps).trans (State.keeps_pushEnds _ _ _ _)⟩
    · cases he

/-- An entry reserved for the thread's task. -/
def State.reserves (s : State) (t : Thread) (pd : PReg) (d : GReg) : Option State :=
  match t.pushClaim.bind (·.entry) with
  | none => some (s.updThread t.tid fun t => t.pushEnds pd false)
  | some e =>
    match s.key t.ctx e .rmw with
    | .ok key =>
      if s.poisoned key 16 then none
      else some (((s.claimOwned t e).2.putMem (key + 8) (natLe 4 (s.claimOwned t e).1.toNat)).updThread t.tid fun t =>
        (t.putPair d e .i32 .i32).pushEnds pd true)
    | .error _ => none

theorem State.keeps_pairEnds (s : State) (i : Nat) (d : GReg) (v : Dword) (pd : PReg) :
    s.Keeps (s.updThread i fun t => (t.putPair d v .i32 .i32).pushEnds pd true) :=
  State.keeps_updThread_of (fun t => Thread.setPred_keeps (·.pc) (fun _ _ => rfl) _ pd true)
    fun t => Thread.setPred_keeps (·.tid) (fun _ _ => rfl) _ pd true

theorem State.reserves_ok {s e : State} {t : Thread} {pd : PReg} {d : GReg} (he : s.reserves t pd d = some e) :
    s.pushReserve t pd d = .ok (e, .seq) ∧ s.Keeps e := by
  unfold State.reserves at he
  unfold State.pushReserve
  rcases hentry : t.pushClaim.bind (·.entry) with _ | va <;> simp only [hentry] at he ⊢
  · obtain rfl := Option.some.inj he
    exact ⟨rfl, State.keeps_pushEnds _ _ _ _⟩
  · split at he
    · next key hkey =>
      obtain ⟨hpoison, rfl⟩ := of_ite_none he
      simp only [hkey, State.readKey_ok (Bool.eq_false_iff.2 hpoison), ok_bind]
      exact ⟨rfl, ((State.claimOwned_keeps ..).trans (State.putMem_keeps _ _ _)).trans (State.keeps_pairEnds _ _ _ _ _)⟩
    · cases he

/-! ## The first half of a pop (R296) -/

/-- The first half of a pop of a bucket. -/
def State.takes (s : State) (t : Thread) (obj : Dword) (b : Nat) (q : QObj) (k : Bucket) : Option State :=
  let e := q.entry b (k.head.toNat % q.cap)
  if k.head = k.tail then some (s.updThread t.tid fun t => t.claimPop { pc := t.pc, obj })
  else if canonical e ∧ (s.entryOk t e).isOk then
    let m := s.putBucket { k with head := k.head + 1 }
    some ((if k.head + 1 = k.tail then m.putNonempty q b false else m).updThread t.tid fun t =>
      t.claimPop { pc := t.pc, obj, bucket := b, slot := k.head.toNat % q.cap, entry := some e })
  else none

/-- The first half of a pop, of the bucket that `n` names, if it names one. -/
def State.pops (s : State) (t : Thread) (obj : Dword) (n : QObj → Thread → Option Nat) : Option State :=
  match t.popClaim, s.queueObj t obj with
  | none, .ok q =>
    match n q t with
    | none => if q.entries.toNat % 16 = 0 then some (s.updThread t.tid fun t => t.claimPop { pc := t.pc, obj }) else none
    | some b =>
      match s.bucket t q obj b with
      | .ok k => s.takes t obj b q k
      | .error _ => none
  | _, _ => none

theorem State.keeps_claimPop (s : State) (i : Nat) (c : Thread → QClaim) : s.Keeps (s.updThread i fun t => t.claimPop (c t)) :=
  State.keeps_updThread_of (fun _ => rfl) fun _ => rfl

theorem State.takes_keeps {s e : State} {t : Thread} {obj : Dword} {b : Nat} {q : QObj} {k : Bucket} (he : s.takes t obj b q k = some e) :
    s.Keeps e := by
  unfold State.takes at he
  dsimp only at he
  split at he
  · obtain rfl := Option.some.inj he
    exact State.keeps_claimPop _ _ _
  · obtain ⟨-, he⟩ := of_ite_some he
    obtain rfl := Option.some.inj he
    refine .trans ?_ (State.keeps_claimPop _ _ _)
    split
    · exact (State.putMem_keeps _ _ _).trans (State.putMem_keeps _ _ _)
    · exact State.putMem_keeps _ _ _

theorem State.pops_ok {s e : State} {t : Thread} {obj : Dword} {n : QObj → Thread → Option Nat} {b : Option Nat}
    (hb : ∀ q, b.or q.lowest = n q t) (he : s.pops t obj n = some e) : s.popStep t obj b = .ok e ∧ s.Keeps e := by
  unfold State.pops at he
  split at he
  · next q hclaim hobj =>
    simp only [State.popStep, hclaim, Option.isSome_none, Bool.false_eq_true, if_false, hobj, ok_bind, hb q]
    split at he
    · next hn =>
      obtain ⟨halign, he⟩ := of_ite_some he
      obtain rfl := Option.some.inj he
      simp only [hn, aligned_ok halign, ok_bind]
      exact ⟨rfl, State.keeps_claimPop _ _ _⟩
    · next bucket hn =>
      split at he
      · next k hbucket =>
        refine ⟨?_, State.takes_keeps he⟩
        simp only [hn, hbucket, ok_bind]
        unfold State.takes at he
        dsimp only at he
        split at he
        · next hempty =>
          obtain rfl := Option.some.inj he
          rw [if_pos hempty]
          rfl
        · next hsome =>
          obtain ⟨⟨-, hentry⟩, he⟩ := of_ite_some he
          obtain rfl := Option.some.inj he
          simp only [hsome, if_false, ok_of_isOk hentry, ok_bind]
          rfl
      · cases he
  · cases he

/-! ## The second half of a pop -/

/-- The second half of a pop. -/
def State.yields (s : State) (t : Thread) (pd : PReg) (d : GReg) : Option State :=
  match t.popClaim with
  | none => none
  | some c =>
    match c.entry with
    | none => some (s.updThread t.tid (popResult pd d 0 0 5 false))
    | some e =>
      let va := c.obj + BitVec.ofNat 64 (64 + 16 * c.bucket)
      match s.key t.ctx e .read, s.key t.ctx e .rmw, s.key t.ctx va .rmw with
      | .ok key, .ok key', .ok bk =>
        let x := s.num key 16
        let st := x / 2 ^ 96 % 4
        if s.poisoned key 16 ∨ s.poisoned bk 16 ∨ st = 0 ∨ t.ownerFaulted = true ∨ s.unreadAt t e 16 = true ∨ s.unreadAt t va 16 = true then
          none
        else
          some (((s.putFuture key' noOwner).putMem (bk + 8)
            (natLe 8 (BitVec.ofNat 64 (s.num bk 16 / 2 ^ 64) ||| (1 : Dword) <<< c.slot).toNat)).updThread t.tid
              (popResult pd d (joinWords (BitVec.ofNat 32 x) (BitVec.ofNat 32 (x / 2 ^ 32))) c.bucket (st - 1) true))
      | _, _, _ => none

theorem State.keeps_popResult (s : State) (i : Nat) (pd : PReg) (d : GReg) (v : Dword) (b st : Nat) (ok : Bool) :
    s.Keeps (s.updThread i (popResult pd d v b st ok)) :=
  State.keeps_updThread_of
    (fun t => (Thread.setPred_keeps (·.pc) (fun _ _ => rfl) _ pd ok).trans (Thread.putSpan_keeps (·.pc) (fun _ _ _ => rfl) _ t _))
    fun t => (Thread.setPred_keeps (·.tid) (fun _ _ => rfl) _ pd ok).trans (Thread.putSpan_keeps (·.tid) (fun _ _ _ => rfl) _ t _)

theorem State.waitOn_done {s : State} {t : Thread} {va : Dword} {key : Nat} (howner : t.ownerFaulted = false)
    (hread : s.unreadAt t va 16 = false) (hkey : s.key t.ctx va .read = .ok key) (hpoison : s.poisoned key 16 = false)
    (hst : s.num key 16 / 2 ^ 96 % 4 ≠ 0) :
    s.waitOn t va = .ok (some (s.num key 16 / 2 ^ 96 % 4 - 1, BitVec.ofNat 32 (s.num key 16),
      BitVec.ofNat 32 (s.num key 16 / 2 ^ 32))) := by
  simp only [State.waitOn, howner, Bool.false_eq_true, if_false, State.readsDone_ok hread, hkey, State.readKey_ok hpoison, ok_bind]
  exact if_pos hst

theorem State.yields_ok {s e : State} {t : Thread} {pd : PReg} {d : GReg} (he : s.yields t pd d = some e) :
    s.popEntry t pd d = .ok (e, .seq) ∧ s.Keeps e := by
  unfold State.yields at he
  rcases hclaim : t.popClaim with _ | c <;> rw [hclaim] at he
  · cases he
  dsimp only at he
  rcases hentry : c.entry with _ | va <;> rw [hentry] at he <;> dsimp only at he
  · obtain rfl := Option.some.inj he
    rw [State.popEntry, hclaim]
    dsimp only
    rw [hentry]
    exact ⟨rfl, State.keeps_popResult ..⟩
  split at he
  · next key key' bk hkey hkey' hbk =>
    obtain ⟨hok, rfl⟩ := of_ite_none he
    simp only [not_or, Bool.not_eq_true] at hok
    obtain ⟨hpoison, hpoison', hst, howner, hread, hread'⟩ := hok
    have hlt : s.num key 16 / 2 ^ 96 % 4 - 1 ≠ 3 := by omega
    refine ⟨?_, ((State.putMem_keeps _ _ _).trans (State.putMem_keeps _ _ _)).trans (State.keeps_popResult ..)⟩
    rw [State.popEntry, hclaim]
    dsimp only
    rw [hentry]
    dsimp only
    rw [State.waitOn_done howner hread hkey hpoison hst]
    simp only [ok_bind, hkey', State.readsDone_ok hread', hbk, State.readKey_ok hpoison']
    rfl
  · cases he

/-! ## The statement -/

theorem exec_qpush (h : Hdr) (pd : PReg) (a b c : GReg) (s : State) : exec (.qpush h pd a b c) s = execQpush h pd a b c s := rfl
theorem exec_qpushRsv (h : Hdr) (pd : PReg) (d a b : GReg) (s : State) : exec (.qpushRsv h pd d a b) s = execQpushRsv h pd d a b s := rfl
theorem exec_qpop (h : Hdr) (pd : PReg) (d a b : GReg) (s : State) : exec (.qpop h pd d a b) s = execQpop h pd d a b s := rfl
theorem exec_qpopMin (h : Hdr) (pd : PReg) (d a : GReg) (s : State) : exec (.qpopMin h pd d a) s = execQpopMin h pd d a s := rfl

theorem inTwo_qpush (h : Hdr) (pd : PReg) (a b c : GReg) :
    DoesInTwo (.qpush h pd a b c) (fun t s => s.pushes t (t.pair a) (t.val b).toNat) fun t s => s.publishes t pd (t.pair c) :=
  doesInTwo_of_both (h := h) rfl (exec_qpush h pd a b c) (fun _ _ _ => State.pushes_ok) fun _ _ _ => State.publishes_ok

theorem inTwo_qpushRsv (h : Hdr) (pd : PReg) (d a b : GReg) :
    DoesInTwo (.qpushRsv h pd d a b) (fun t s => s.pushes t (t.pair a) (t.val b).toNat) fun t s => s.reserves t pd d :=
  doesInTwo_of_both (h := h) rfl (exec_qpushRsv h pd d a b) (fun _ _ _ => State.pushes_ok) fun _ _ _ => State.reserves_ok

theorem inTwo_qpop (h : Hdr) (pd : PReg) (d a b : GReg) :
    DoesInTwo (.qpop h pd d a b) (fun t s => s.pops t (t.pair a) fun _ t => some (t.val b).toNat) fun t s => s.yields t pd d :=
  doesInTwo_of_both (h := h) rfl (exec_qpop h pd d a b) (fun _ _ _ => State.pops_ok fun _ => rfl) fun _ _ _ => State.yields_ok

theorem inTwo_qpopMin (h : Hdr) (pd : PReg) (d a : GReg) :
    DoesInTwo (.qpopMin h pd d a) (fun t s => s.pops t (t.pair a) fun q _ => q.lowest)
      fun t s => s.yields t pd d :=
  doesInTwo_of_both (h := h) rfl (exec_qpopMin h pd d a) (fun _ _ _ => State.pops_ok fun _ => rfl) fun _ _ _ => State.yields_ok

/-! ## States with the same threads -/

theorem State.Alike.putMem {s s' : State} (h : s.Alike s') (key : Nat) (l : List Byte) : (s.putMem key l).Alike (s'.putMem key l) := by
  obtain ⟨threads, rfl, hthread⟩ := h
  have hfun : ({ s with threads } : State).thread? = s.thread? := funext hthread
  have hacting : ({ s with threads } : State).actingCtx = s.actingCtx := by unfold State.actingCtx; rw [hfun]; rfl
  refine ⟨threads, ?_, hthread⟩
  rw [State.putMem, hacting]
  rfl

theorem State.Alike.sees {s s' : State} (h : s.Alike s') : s.Sees s' := by
  obtain ⟨threads, rfl, hthread⟩ := h
  refine ⟨rfl, rfl, rfl, rfl, ?_⟩
  have hfun : ({ s with threads } : State).thread? = s.thread? := funext hthread
  unfold State.tlbUnits
  rw [hfun]
  rfl

theorem State.Alike.ldas {s s' : State} (h : s.Alike s') : s'.ldas = s.ldas := by obtain ⟨threads, rfl, -⟩ := h; rfl

theorem State.Alike.unreadAt {s s' : State} (h : s.Alike s') (t : Thread) (va : Dword) (n : Nat) :
    s'.unreadAt t va n = s.unreadAt t va n := by
  rw [State.unreadAt, State.unreadAt, h.ldas]

theorem State.Sees.readKey {s s' : State} (h : s.Sees s') (key n : Nat) (va : Dword) (acc : Acc) :
    s'.readKey key n va acc = s.readKey key n va acc := by
  rw [State.readKey, State.readKey, h.poisoned, State.bytes_congr h.mem]

theorem State.Alike.readsDone {s s' : State} (h : s.Alike s') (t : Thread) (va : Dword) (n : Nat) :
    s'.readsDone t va n = s.readsDone t va n := by
  rw [State.readsDone, State.readsDone, h.unreadAt]

theorem State.Alike.queueObj {s s' : State} (h : s.Alike s') (t : Thread) (obj : Dword) : s'.queueObj t obj = s.queueObj t obj := by
  unfold State.queueObj
  simp only [h.readsDone, h.sees.key, h.sees.readKey]

theorem State.Alike.bucket {s s' : State} (h : s.Alike s') (t : Thread) (q : QObj) (obj : Dword) (b : Nat) :
    s'.bucket t q obj b = s.bucket t q obj b := by
  unfold State.bucket
  simp only [h.readsDone, h.sees.key, h.sees.readKey]

/-- An effect on a thread alone. -/
theorem State.Alike.changed {s s' : State} (h : s.Alike s') {i : Nat} {f : Thread → Thread} (hf : ∀ t, (f t).tid = t.tid) :
    (s.updThread i f).Alike (s'.updThread i f) := h.updThread (fun t _ => hf t) (fun t _ => hf t) fun _ _ => rfl

theorem State.Alike.takes {s s' e : State} (h : s.Alike s') {t : Thread} {obj : Dword} {b : Nat} {q : QObj} {k : Bucket}
    (he : s.takes t obj b q k = some e) : ∃ e', s'.takes t obj b q k = some e' ∧ e.Alike e' := by
  have hentry : ∀ va, s'.entryOk t va = s.entryOk t va := fun va => by
    rw [State.entryOk, State.entryOk, h.sees.locate]
  unfold State.takes at he ⊢
  dsimp only at he ⊢
  rw [hentry]
  split at he
  · obtain rfl := Option.some.inj he
    exact ⟨_, if_pos ‹_›, h.changed fun _ => rfl⟩
  · next hsome =>
    obtain ⟨hok, he⟩ := of_ite_some he
    obtain rfl := Option.some.inj he
    refine ⟨_, (if_neg hsome).trans (if_pos hok), State.Alike.changed ?_ fun _ => rfl⟩
    split
    · exact (h.putMem _ _).putMem _ _
    · exact h.putMem _ _

theorem State.Alike.yields {s s' e : State} (h : s.Alike s') {t : Thread} {pd : PReg} {d : GReg} (he : s.yields t pd d = some e) :
    ∃ e', s'.yields t pd d = some e' ∧ e.Alike e' := by
  have htid : ∀ v b st ok (t : Thread), (popResult pd d v b st ok t).tid = t.tid := fun v b st ok t =>
    (Thread.setPred_keeps (·.tid) (fun _ _ => rfl) _ pd ok).trans (Thread.putSpan_keeps (·.tid) (fun _ _ _ => rfl) _ t _)
  unfold State.yields at he ⊢
  split at he
  · cases he
  · split at he
    · obtain rfl := Option.some.inj he
      exact ⟨_, rfl, h.changed (htid _ _ _ _)⟩
    · simp only [h.sees.key, h.sees.poisoned, h.sees.num, h.unreadAt] at he ⊢
      split at he
      · next key key' bk hk hk' hbk =>
        obtain ⟨hok, rfl⟩ := of_ite_none he
        exact ⟨_, if_neg hok, ((h.putMem _ _).putMem _ _).changed (htid _ _ _ _)⟩
      · cases he

/-- The first half of QPOP.MIN as the statement has it: the address of an empty object's claim is read from the thread that takes it. -/
def State.popsLeast (s : State) (t : Thread) (a : GReg) : Option State :=
  match t.popClaim, s.queueObj t (t.pair a) with
  | none, .ok q =>
    match q.lowest with
    | none => if q.entries.toNat % 16 = 0 then some (s.updThread t.tid fun t => t.claimPop { pc := t.pc, obj := t.pair a }) else none
    | some b =>
      match s.bucket t q (t.pair a) b with
      | .ok k => s.takes t (t.pair a) b q k
      | .error _ => none
  | _, _ => none

theorem State.Alike.popsLeast {s s' e : State} (h : s.Alike s') {t : Thread} {a : GReg} (ht : s.thread? t.tid = some t)
    (he : s.popsLeast t a = some e) : ∃ e', s'.pops t (t.pair a) (fun q _ => q.lowest) = some e' ∧ e.Alike e' := by
  unfold State.popsLeast at he
  unfold State.pops
  rw [h.queueObj]
  split at he
  · next q hclaim hq =>
    dsimp only
    split at he
    · next hlow =>
      obtain ⟨halign, he⟩ := of_ite_some he
      obtain rfl := Option.some.inj he
      refine ⟨_, if_pos halign, h.updThread (fun _ _ => rfl) (fun _ _ => rfl) fun u hu => ?_⟩
      obtain rfl := Option.some.inj (ht.symm.trans hu)
      rfl
    · next b hlow =>
      rw [h.bucket]
      split at he
      · exact h.takes he
      · cases he
  · cases he

/-- An instruction in two halves, whose effects agree with others up to the list of threads. -/
theorem DoesInTwo.of_alike {i : Instr} {f g f' g' : Thread → State → Option State} (h : DoesInTwo i f' g')
    (hf : ∀ t s s' e, s.Alike s' → s.thread? t.tid = some t → f t s = some e → ∃ e', f' t s' = some e' ∧ e.Alike e')
    (hg : ∀ t s s' e, s.Alike s' → s.thread? t.tid = some t → g t s = some e → ∃ e', g' t s' = some e' ∧ e.Alike e') :
    DoesInTwo i f g := by
  intro s tids m e hi hm he
  obtain ⟨m', hm', ha⟩ := State.each_alike hf _ _ _ _ (.refl _) hm
  obtain ⟨e', he', ha'⟩ := State.each_alike hg _ _ _ _ ha he
  obtain ⟨s', hs', hr⟩ := h s tids m' e' hi hm' he'
  exact ⟨s', hs', ha'.retires hr⟩

theorem inTwo_popsLeast (h : Hdr) (pd : PReg) (d a : GReg) :
    DoesInTwo (.qpopMin h pd d a) (fun t s => s.popsLeast t a) fun t s => s.yields t pd d :=
  (inTwo_qpopMin h pd d a).of_alike (fun _ _ _ _ ha ht he => ha.popsLeast ht he) fun _ _ _ _ ha _ he => ha.yields he

/-- Settles O20: each half of each instruction has the effect of R294 or R296. -/
theorem queueObjectResults : Obligations.QueueObjectResults := by
  unfold Obligations.QueueObjectResults
  exact ⟨inTwo_qpush, inTwo_qpushRsv, inTwo_qpop, inTwo_popsLeast⟩

end Sys2Proof.Machine
end

section
/-! Collectives of tiles, of groups and of fragments, UNBIND, PART, GBAR and GFENCE (R309 to R316). -/

namespace Sys2Proof.Machine

theorem of_onlyIf {ok : Bool} {e e' : State} (h : onlyIf ok e = some e') : ok = true ∧ e = e' := by
  unfold onlyIf at h
  split at h
  · exact ⟨‹_›, Option.some.inj h⟩
  · cases h

theorem require_ok {ok : Bool} {cause : BitVec 8} (h : ok = true) : require ok cause = .ok () := by rw [require, if_pos h]

theorem Coll.whole_ok {c : Coll} (h : c.isWhole = true) : c.whole = .ok () := require_ok h

theorem Coll.tiles_ok {c : Coll} (h : c.isTiles = true) : c.tiles = .ok () := by
  refine require_ok ?_
  rw [← h, Coll.isTiles]
  rfl

/-- A collective of whole tiles. -/
theorem collects_tiles {i : Instr} {h : Hdr} (hh : i.hdr? = some h) {g : Coll → State → State}
    (he : ∀ s, exec i s = runColl i s fun c s => do
      c.tiles
      return g c s) : Collects i fun c s => onlyIf c.isTiles (g c s) :=
  runColl_collects hh he fun c s e hf => by
    obtain ⟨hok, rfl⟩ := of_onlyIf hf
    simp only [Coll.tiles_ok hok, ok_bind]
    rfl

/-- A collective of the whole group. -/
theorem collects_whole {i : Instr} {h : Hdr} (hh : i.hdr? = some h) {g : Coll → State → State}
    (he : ∀ s, exec i s = runColl i s fun c s => do
      c.whole
      return g c s) : Collects i fun c s => onlyIf c.isWhole (g c s) :=
  runColl_collects hh he fun c s e hf => by
    obtain ⟨hok, rfl⟩ := of_onlyIf hf
    simp only [Coll.whole_ok hok, ok_bind]
    rfl

/-- A collective of the whole group with one condition more. -/
theorem collects_wholeIf {i : Instr} {h : Hdr} (hh : i.hdr? = some h) {ok : Coll → Bool} {g : Coll → State → State}
    (he : ∀ s, exec i s = runColl i s fun c s => do
      c.whole
      require (ok c) cIllegalField
      return g c s) : Collects i fun c s => onlyIf (c.isWhole && ok c) (g c s) :=
  runColl_collects hh he fun c s e hf => by
    obtain ⟨hok, rfl⟩ := of_onlyIf hf
    obtain ⟨hwhole, hfield⟩ := Bool.and_eq_true_iff.1 hok
    simp only [Coll.whole_ok hwhole, require_ok hfield, ok_bind]
    rfl

/-! ## Votes, shuffles and moves (R311 to R314) -/

theorem exec_vote (h : Hdr) (op : VoteOp) (neg : Bool) (pd : PReg) (d : GReg) (q : PReg) (s : State) :
    exec (.vote h op neg pd d q) s = execVote h op neg pd d q s := rfl
theorem exec_shfl (h : Hdr) (mode : ShflMode) (pd : PReg) (d a b : GReg) (s : State) :
    exec (.shfl h mode pd d a b) s = execShfl h mode pd d a b s := rfl
theorem exec_gshfl (h : Hdr) (d a b : GReg) (s : State) : exec (.gshfl h d a b) s = execGshfl h d a b s := rfl
theorem exec_sbcast (h : Hdr) (b64 : Bool) (d a : GReg) (n : BitVec 5) (s : State) :
    exec (.sbcast h b64 d a n) s = execSbcast h b64 d a n s := rfl
theorem exec_smovRead (h : Hdr) (d : GReg) (r : SReg) (s : State) : exec (.smovRead h d r) s = execSmovRead h d r s := rfl
theorem exec_smovWrite (h : Hdr) (r : SReg) (a : GReg) (n : BitVec 5) (s : State) :
    exec (.smovWrite h r a n) s = execSmovWrite h r a n s := rfl
theorem exec_reduce (h : Hdr) (op : RedOp) (d a : GReg) (s : State) : exec (.reduce h op d a) s = execReduce h op d a s := rfl
theorem exec_scan (h : Hdr) (op : RedOp) (excl : Bool) (d a : GReg) (s : State) :
    exec (.scan h op excl d a) s = execScan h op excl d a s := rfl

/-- What the write form of SMOV does to its group. -/
def Coll.smov (c : Coll) (r : SReg) (a : GReg) (n : BitVec 5) (s : State) : State :=
  match c.active.find? (·.1 == n.toNat) with
  | none => s
  | some p => s.updGroup c.g.gid fun g => { g with sregs := g.sregs.set r.toNat (p.2.reg a.toNat) }

theorem collects_smovWrite (h : Hdr) (r : SReg) (a : GReg) (n : BitVec 5) : Collects (.smovWrite h r a n) fun c e =>
    onlyIf (c.isWhole && decide (n.toNat < c.g.members.length)) (c.smov r a n e) :=
  runColl_collects (h := h) rfl (exec_smovWrite h r a n) fun c s e hf => by
    obtain ⟨hok, rfl⟩ := of_onlyIf hf
    obtain ⟨hwhole, hfield⟩ := Bool.and_eq_true_iff.1 hok
    simp only [Coll.whole_ok hwhole, require_ok hfield, ok_bind]
    unfold Coll.smov
    generalize c.active.find? _ = sender
    cases sender <;> rfl

theorem collects_sbcast (h : Hdr) (b64 : Bool) (d a : GReg) (n : BitVec 5) : Collects (.sbcast h b64 d a n) fun c e =>
    onlyIf (c.isWhole && decide (n.toNat < c.g.members.length)) (e.updRanks c.active fun _ t =>
      if b64 then (t.setReg d.toNat (((c.rank? n.toNat).map (·.reg a.toNat)).getD {})).setReg (d.toNat + 1)
          (((c.rank? n.toNat).map (·.reg (a.toNat + 1))).getD {})
      else t.setReg d.toNat (((c.rank? n.toNat).map (·.reg a.toNat)).getD {})) :=
  collects_wholeIf (h := h) rfl (exec_sbcast h b64 d a n)

/-! ## Reductions and scans (R315) -/

theorem Coll.redTyped_ok {c : Coll} {op : RedOp} {a : GReg}
    (h : (!redFloat op || c.active.all fun p => p.2.tag a == .f32 || p.2.tag a == .raw) = true) : c.redTyped op a = .ok () := by
  unfold Coll.redTyped
  cases hfloat : redFloat op with
  | false => rfl
  | true =>
    rw [hfloat, Bool.not_true, Bool.false_or] at h
    have hnone : c.active.find? (fun p => !(p.2.tag a == .f32 || p.2.tag a == .raw)) = none :=
      List.find?_eq_none.2 fun p hp => by rw [List.all_eq_true.1 h p hp]; exact Bool.false_ne_true
    rw [if_pos rfl, hnone]

/-- A reduction or scan. -/
theorem collects_red {i : Instr} {h : Hdr} (hh : i.hdr? = some h) {op : RedOp} {a : GReg} {g : Coll → State → State}
    (he : ∀ s, exec i s = runColl i s fun c s => do
      c.tiles
      c.redTyped op a
      return g c s) :
    Collects i fun c s => onlyIf (c.isTiles && (!redFloat op || c.active.all fun p => p.2.tag a == .f32 || p.2.tag a == .raw)) (g c s) :=
  runColl_collects hh he fun c s e hf => by
    obtain ⟨hok, rfl⟩ := of_onlyIf hf
    obtain ⟨htiles, htyped⟩ := Bool.and_eq_true_iff.1 hok
    simp only [Coll.tiles_ok htiles, Coll.redTyped_ok htyped, ok_bind]
    rfl

/-- What SCAN gives a rank. -/
theorem Coll.scan_value (c : Coll) (op : RedOp) (excl : Bool) (a : GReg) (r : Nat) :
    (if excl then (if r % c.g.tile = 0 then redIdentity op else redWords op (c.terms op a r (r % c.g.tile)))
      else redWords op (c.terms op a r (r % c.g.tile + 1))) =
    if (if excl then r % c.g.tile else r % c.g.tile + 1) = 0 then redIdentity op
    else redWords op (c.terms op a r (if excl then r % c.g.tile else r % c.g.tile + 1)) := by
  cases excl with
  | true => rfl
  | false => rw [if_neg Bool.false_ne_true, if_neg Bool.false_ne_true, if_neg (Nat.succ_ne_zero _)]

theorem collects_scan (h : Hdr) (op : RedOp) (excl : Bool) (d a : GReg) : Collects (.scan h op excl d a) fun c e =>
    onlyIf (c.isTiles && (!redFloat op || c.active.all fun p => p.2.tag a == .f32 || p.2.tag a == .raw))
      (e.updRanks c.active fun r t =>
        let n := if excl then r % c.g.tile else r % c.g.tile + 1
        t.put d (if n = 0 then redIdentity op else redWords op (c.terms op a r n)) (redTag op)) :=
  collects_red (h := h) (op := op) (a := a) rfl fun s => by
    rw [exec_scan, execScan]
    simp only [Coll.scan_value]

/-- Settles O9: each collective gives every active rank the value of its table. -/
theorem groupCollectiveResults : Obligations.GroupCollectiveResults :=
  ⟨⟨fun h op neg pd d q => collects_tiles (h := h) rfl (exec_vote h op neg pd d q),
    fun h mode pd d a b => collects_tiles (h := h) rfl (exec_shfl h mode pd d a b),
    fun h d a b => collects_whole (h := h) rfl (exec_gshfl h d a b),
    fun h d a n => collects_sbcast h false d a n,
    fun h d a n => collects_sbcast h true d a n,
    fun h d r => runColl_collects (h := h) rfl (exec_smovRead h d r) fun _ _ _ hf => congrArg Except.ok (Option.some.inj hf),
    collects_smovWrite⟩,
    fun h op d a => collects_red (h := h) rfl (exec_reduce h op d a), collects_scan⟩

end Sys2Proof.Machine
end

section
/-! BIND, and the instructions on a whole group (R37, R308 to R310, R316). -/

namespace Sys2Proof.Machine

/-! ## An instruction of a free thread -/

theorem State.acting_one {s : State} {i : Instr} {h : Hdr} (hh : i.hdr? = some h) {t : Thread}
    (ht : (s.landed i [t.tid]).thread? t.tid = some t) (hg : t.guards h = true) : s.acting i [t.tid] = [t.tid] := by
  unfold State.acting
  rw [hh]
  show (s.landed i [t.tid]).activeTids h [t.tid] = [t.tid]
  simp only [State.activeTids, List.filter_cons, ht, Option.any_some, hg, if_true, List.filter_nil]

/-- The end of an instruction of one thread that goes on at the next. -/
theorem State.retires_one {e m : State} {tid : Nat} (hm : m = e.tallyIssue [tid]) :
    e.retires ((m.applyNext tid .seq).issued none [tid]) [tid] := by
  have htick : m.tick = e.tick := by rw [hm, State.tallyIssue_tick]
  have hthread : ∀ k, m.thread? k = e.thread? k := fun k => by rw [hm, State.tallyIssue_thread?]
  refine ⟨?_, fun k => ?_⟩
  · rw [← hm, ← htick]
    rfl
  · rw [State.issued_thread?]
    show ((m.updThread tid Thread.stepPc).thread? k).map (fun t =>
      if k ∈ [tid] then Thread.windowStep { t with age := m.tick } else t) = _
    rw [State.thread?_updThread _ _ _ (by intro t _; rfl), hthread, htick, Option.map_map]
    congr 1
    funext t
    by_cases hk : k = tid
    · subst hk
      simp only [Function.comp, if_true, List.mem_singleton]
      rfl
    · simp only [Function.comp, hk, if_false, List.mem_singleton]

/-- An instruction of a free thread that completes retires, whatever it does to the other threads. -/
theorem runThreads_free {i : Instr} {h : Hdr} (hh : i.hdr? = some h) {s e : State} {tid : Nat} {body : Body} (hcur : s.cur = .thread tid)
    (hi : s.issues i [tid] = true) (hact : s.acting i [tid] = [tid]) (hrun : body tid (s.landed i [tid]) = .ok (e, .seq))
    (hsome : (e.thread? tid).isSome = true) : ∃ s', runThreads i s body = .next s' ∧ e.retires s' [tid] := by
  obtain ⟨t0, h0, -⟩ := State.issues_thread hi (j := tid) (by simp)
  have hbodies : runBodies body (s.acting i [tid]) (s.landed i [tid]) = .ok (e, [(tid, .seq)]) := by
    rw [hact, runBodies, hrun]
    rfl
  obtain ⟨u, hu⟩ := Option.isSome_iff_exists.1 hsome
  have htally : e.tallyEnded (s.landed i [tid]) [tid] = e.tallyIssue [tid] := by
    simp only [State.tallyEnded, List.head?_cons, Option.bind_some, hu]
  rw [runThreads, runStaged_course hh hi h0 (runStage_ok _ _) hbodies rfl, if_neg (by simp [Next.isAwait]), hact, hcur]
  dsimp only
  rw [if_neg (by simp), htally]
  rw [State.fallThrough_self]
  exact ⟨_, rfl, State.retires_one rfl⟩

/-! ## BIND (R37, R308) -/

/-- The forming sets of a core with a thread's place in them. -/
def State.joinForming (s : State) (k : Nat) (x : Forming) : State :=
  s.updCore k fun c => { c with forming := c.forming.filter (·.tid != x.tid) ++ [x] }

/-- A forming set that has become a group: its other threads go on. -/
def State.formed (s : State) (t : Thread) (d c : Nat) (tids : List Nat) : State :=
  let others := tids.filter (· != t.tid)
  ((((s.updCore (coreIdx d c) fun x => { x with forming := x.forming.filter fun f => !tids.contains f.tid }).updThreads others
    fun u => { u with status := .ready, pc := u.pc + 8 }).refreshAge others)).formGroup t.ctx d c tids

/-- The threads of the forming set of a key and a size on a core. -/
def State.setTids (s : State) (k : Nat) (key : Word) (n : Nat) : List Nat := (formingSet (s.core k).forming key n).map (·.tid)

theorem State.bind_waits {s : State} {t : Thread} {d c lane slot n : Nat} {key : Word} (hmember : t.member = none)
    (hplace : t.place = .core d c lane slot)
    (hfew : ((s.joinForming (coreIdx d c) ⟨key, n, lane, t.tid⟩).setTids (coreIdx d c) key n).length < n) :
    s.bind t n key = .ok (s.joinForming (coreIdx d c) ⟨key, n, lane, t.tid⟩, .await (.parked .bind)) := by
  rw [State.setTids, List.length_map] at hfew
  unfold State.bind
  rw [hmember, hplace]
  exact if_pos hfew

theorem State.bind_forms {s : State} {t : Thread} {d c lane slot n : Nat} {key : Word} (hmember : t.member = none)
    (hplace : t.place = .core d c lane slot)
    (hall : n ≤ ((s.joinForming (coreIdx d c) ⟨key, n, lane, t.tid⟩).setTids (coreIdx d c) key n).length) :
    s.bind t n key = .ok ((s.joinForming (coreIdx d c) ⟨key, n, lane, t.tid⟩).formed t d c
      ((s.joinForming (coreIdx d c) ⟨key, n, lane, t.tid⟩).setTids (coreIdx d c) key n), .seq) := by
  rw [State.setTids, List.length_map] at hall
  unfold State.bind
  rw [hmember, hplace]
  exact if_neg (Nat.not_lt.2 hall)

theorem State.foldl_updThread_isSome {α : Type} {f : α → Thread → Thread} {g : α → Nat} (hf : ∀ a t, (f a t).tid = t.tid) (l : List α)
    (s : State) (j : Nat) : ((l.foldl (fun s a => s.updThread (g a) (f a)) s).thread? j).isSome = (s.thread? j).isSome := by
  induction l generalizing s with
  | nil => rfl
  | cons a l ih => rw [List.foldl_cons, ih, State.thread?_updThread _ _ _ (fun t _ => hf a t), Option.isSome_map]

theorem State.formGroup_isSome (s : State) (ctx d c : Nat) (tids : List Nat) (j : Nat) :
    ((s.formGroup ctx d c tids).thread? j).isSome = (s.thread? j).isSome :=
  State.foldl_updThread_isSome (f := fun (p : Nat × Nat) t => { t with member := some (s.nextId, p.2) }) (g := (·.1)) (fun _ _ => rfl) _ _ j

theorem State.formed_isSome (s : State) (t : Thread) (d c : Nat) (tids : List Nat) (j : Nat) :
    ((s.formed t d c tids).thread? j).isSome = (s.thread? j).isSome := by
  unfold State.formed
  dsimp only
  rw [State.formGroup_isSome, State.refreshAge_thread?, Option.isSome_map, State.thread?_updThreads _ _ _ (by intro t; rfl),
    Option.isSome_map]
  rfl

/-- BIND that waits, as an effect that may park. -/
def State.bindAwait (s : State) (t : Thread) (n : Nat) (key : Word) : Option (State × Option Status) :=
  match t.member, t.place with
  | none, .core d c lane _ =>
    if ((s.joinForming (coreIdx d c) ⟨key, n, lane, t.tid⟩).setTids (coreIdx d c) key n).length < n then
      some (s.joinForming (coreIdx d c) ⟨key, n, lane, t.tid⟩, some (.parked .bind))
    else none
  | _, _ => none

theorem State.bindAwait_waits {s : State} {t : Thread} {d c lane slot n : Nat} {key : Word} (hmember : t.member = none)
    (hplace : t.place = .core d c lane slot)
    (hfew : ((s.joinForming (coreIdx d c) ⟨key, n, lane, t.tid⟩).setTids (coreIdx d c) key n).length < n) :
    s.bindAwait t n key = some (s.joinForming (coreIdx d c) ⟨key, n, lane, t.tid⟩, some (.parked .bind)) := by
  unfold State.bindAwait
  rw [hmember, hplace]
  exact if_pos hfew

theorem exec_bind (h : Hdr) (n1 : BitVec 5) (a : GReg) (s : State) :
    exec (.bind h n1 a) s = runFlow (.bind h n1 a) s fun t s => s.bind t (n1.toNat + 1) (t.val a) := rfl

theorem awaits_bind (h : Hdr) (n1 : BitVec 5) (a : GReg) :
    Awaits (.bind h n1 a) fun t s => s.bindAwait t (n1.toNat + 1) (t.val a) := by
  refine awaits_of (h := h) rfl (exec_bind h n1 a) fun t s e c hf => ?_
  unfold State.bindAwait at hf
  split at hf
  · next d k lane slot hmember hplace =>
    obtain ⟨hfew, he⟩ := of_ite_some hf
    obtain ⟨rfl, rfl⟩ := Prod.mk.inj (Option.some.inj he)
    exact ⟨State.bind_waits hmember hplace hfew, (State.updCore_serves ..).keeps, nofun⟩
  · cases hf

/-- An agent of one thread that waits on a condition is parked on it. -/
theorem State.parksOn.parks {e s' : State} {tid : Nat} {c : Cond} (h : e.parksOn s' [tid] [(tid, some (.parked c))]) :
    e.parks s' tid c := by
  refine ⟨h.1, fun k => (h.2 k).trans ?_⟩
  congr 1
  funext t
  by_cases hk : k = tid
  · subst hk
    simp
  · simp [hk]

/-! ## The whole group -/

theorem exec_unbind (h : Hdr) (s : State) : exec (.unbind h) s = execUnbind h s := rfl
theorem exec_part (h : Hdr) (code : BitVec 3) (s : State) : exec (.part h code) s = execPart h code s := rfl
theorem exec_gbar (h : Hdr) (s : State) : exec (.gbar h) s = execGbar h s := rfl
theorem exec_gfence (h : Hdr) (scope : Scope) (s : State) : exec (.gfence h scope) s = execGfence h scope s := rfl

theorem Collects.congr {i : Instr} {f g : Coll → State → Option State} (h : Collects i f) (hfg : ∀ c s, f c s = g c s) : Collects i g :=
  (funext fun c => funext fun s => hfg c s : f = g) ▸ h

theorem collects_part (h : Hdr) (code : BitVec 3) : Collects (.part h code) fun c e =>
    onlyIf (c.isWhole && (decide (partSize code c.g.members.length ≤ c.g.members.length) &&
      c.g.members.length % partSize code c.g.members.length == 0))
      (e.updGroup c.g.gid fun g => { g with tile := partSize code c.g.members.length }) :=
  collects_wholeIf (h := h) rfl (exec_part h code)

/-- Settles O8: BIND is its place in the forming set, or the group of the set; the others act on a whole group. -/
theorem groupFormationAndControl : Obligations.GroupFormationAndControl := by
  refine ⟨?_, fun h => collects_whole (h := h) rfl (exec_unbind h), fun h code => ?_,
    fun h => collects_whole (h := h) rfl (exec_gbar h), fun h scope => collects_whole (h := h) rfl (exec_gfence h scope)⟩
  · rintro h n1 a s e t d c lane slot hcur hi ht hg hmember hplace hadopted rfl
    have hact := State.acting_one (h := h) (i := .bind h n1 a) rfl ht hg
    refine ⟨fun hall => ?_, fun hfew => ?_⟩
    · rw [exec_bind]
      refine runThreads_free (h := h) rfl hcur hi hact (e := State.formed _ t d c _) ?_ ?_
      · simp only [ht]
        exact State.bind_forms hmember hplace hall
      · rw [State.formed_isSome]
        exact Option.isSome_iff_exists.2 ⟨t, ht⟩
    · have heach : (s.landed (.bind h n1 a) [t.tid]).eachAwait (fun t s => s.bindAwait t (n1.toNat + 1) (t.val a))
          (s.acting (.bind h n1 a) [t.tid]) =
          some (State.joinForming (s.landed (.bind h n1 a) [t.tid]) (coreIdx d c) ⟨t.val a, n1.toNat + 1, lane, t.tid⟩,
            [(t.tid, some (.parked .bind))]) := by
        rw [hact]
        simp only [State.eachAwait, ht, Option.bind_some, State.bindAwait_waits hmember hplace hfew]
        rfl
      have hnone : ∀ k ∈ (State.joinForming (s.landed (.bind h n1 a) [t.tid]) (coreIdx d c) ⟨t.val a, n1.toNat + 1, lane, t.tid⟩).tasks,
          k.adoptedBy = [] := fun k hk => by
        obtain ⟨_, _, _, _, _, _, he⟩ := s.landed_eq (.bind h n1 a) [t.tid]
        rw [he] at hk
        exact hadopted k hk
      obtain ⟨s', hs', hparks⟩ := awaits_bind h n1 a s [t.tid] _ hi heach hnone
      exact ⟨s', hs', State.parksOn.parks hparks⟩
  · exact (collects_part h code).congr fun c e => by rw [← Bool.and_assoc]; rfl

end Sys2Proof.Machine
end

section
/-! The bank table and the commands of the matrix engines at issue (R98, R99, R318 to R327). -/

namespace Sys2Proof.Machine

/-! ## Banks (R98, R99) -/

theorem State.updCore_core_same {s : State} {k : Nat} {f : Core → Core} (hwf : SMap.wf {} s.cores) : (s.updCore k f).core k = f (s.core k) := by
  show SMap.get {} (SMap.set {} s.cores k _) k = _
  rw [SMap.get_set _ _ _ hwf, if_pos rfl]
  rfl

theorem State.updBanks_bank {s : State} {k eng b : Nat} {bs : List Nat} {f : Bank → Bank} (hwf : SMap.wf {} s.cores) (heng : eng < 3)
    (hb : b < 8) (hlen : (s.core k).banks.length = 24) :
    (s.updBanks k eng bs f).bank k eng b = if b ∈ bs then f (s.bank k eng b) else s.bank k eng b := by
  have hi : 8 * eng + b < (s.core k).banks.length := by omega
  unfold State.bank State.updBanks
  rw [State.updCore_core_same hwf]
  simp only [List.getElem?_map, List.getElem?_zipIdx, List.getElem?_eq_getElem hi, Option.map_some, Option.getD_some, Nat.zero_add]
  have hdiv : (8 * eng + b) / 8 = eng := by omega
  have hmod : (8 * eng + b) % 8 = b := by omega
  simp only [hdiv, hmod, true_and, List.contains_iff_mem]

theorem State.bankCheck_ok {s : State} {k eng num : Nat} {bs : List Nat} {lend : Bool} (h : s.banksOf k eng num bs lend = true) :
    s.bankCheck k eng num bs lend = .ok () := by
  unfold State.bankCheck
  dsimp only
  split
  · next c hc =>
    obtain ⟨b, hb, hc⟩ := List.exists_of_findSome?_eq_some hc
    have hbank := List.all_eq_true.1 h b hb
    cases howner : (s.bank k eng b).owner with
    | none => simp [howner] at hbank
    | some o =>
      have hmine : o = num ∨ lend = true ∧ (s.bank k eng b).lendee = some num := by simpa [howner] using hbank
      simp [howner, hmine] at hc
  · rfl

theorem State.ownsBanks_ok {s : State} {k eng num : Nat} {bs : List Nat} (h : s.banksOf k eng num bs false = true) :
    s.ownsBanks k eng num bs = .ok () := by
  refine if_pos ?_
  rw [← h, State.banksOf]
  simp

theorem exec_accAlloc (h : Hdr) (pd : PReg) (eng : BitVec 2) (mask : BitVec 8) (s : State) :
    exec (.accAlloc h pd eng mask) s = execAccAlloc h pd eng mask s := rfl
theorem exec_accFree (h : Hdr) (eng : BitVec 2) (mask : BitVec 8) (s : State) : exec (.accFree h eng mask) s = execAccFree h eng mask s := rfl
theorem exec_accLend (h : Hdr) (eng : BitVec 2) (mask : BitVec 8) (sa : SReg) (s : State) :
    exec (.accLend h eng mask sa) s = execAccLend h eng mask sa s := rfl

theorem collects_accFree (h : Hdr) (eng : BitVec 2) (mask : BitVec 8) : Collects (.accFree h eng mask) fun c s =>
    onlyIf (c.isWhole && s.banksOf c.k eng.toNat c.g.num (bankList mask) false) (s.updBanks c.k eng.toNat (bankList mask) fun _ => {}) :=
  runColl_collects (h := h) rfl (exec_accFree h eng mask) fun c s e hf => by
    obtain ⟨hok, rfl⟩ := of_onlyIf hf
    obtain ⟨hwhole, howns⟩ := Bool.and_eq_true_iff.1 hok
    simp only [Coll.whole_ok hwhole, State.ownsBanks_ok howns, ok_bind]
    rfl

/-- What ACC.LEND does to the bank table. -/
def State.lends (s : State) (k eng own n : Nat) (bs : List Nat) : State :=
  if n = own then s
  else (s.updBanks k eng ((List.range 8).filter fun b => !bs.contains b && s.bank k eng b == { owner := some own, lendee := some n })
    fun b => { b with lendee := none }).updBanks k eng bs fun b => { b with lendee := some n }

theorem collects_accLend (h : Hdr) (eng : BitVec 2) (mask : BitVec 8) (sa : SReg) : Collects (.accLend h eng mask sa) fun c s =>
    onlyIf (c.isWhole && s.banksOf c.k eng.toNat c.g.num (bankList mask) false && decide ((c.g.sreg sa.toNat).val.toNat < 1024) &&
      s.groups.any fun g => !g.saved && coreIdx g.die g.core == c.k && g.num == (c.g.sreg sa.toNat).val.toNat)
      (s.lends c.k eng.toNat c.g.num (c.g.sreg sa.toNat).val.toNat (bankList mask)) :=
  runColl_collects (h := h) rfl (exec_accLend h eng mask sa) fun c s e hf => by
    obtain ⟨hok, rfl⟩ := of_onlyIf hf
    simp only [Bool.and_eq_true] at hok
    obtain ⟨⟨⟨hwhole, howns⟩, hnum⟩, hgroup⟩ := hok
    simp only [Coll.whole_ok hwhole, State.ownsBanks_ok howns, require_ok (Bool.and_eq_true_iff.2 ⟨hnum, hgroup⟩), ok_bind]
    unfold State.lends
    split <;> rfl

/-! ## The order of an engine (R21) -/

theorem State.enqueue_ok {s e : State} {k eng : Nat} {m : MCmd} (h : s.joins k eng m = some e) : s.enqueue k eng m = .ok e := by
  unfold State.joins at h
  obtain ⟨hroom, he⟩ := of_ite_some h
  obtain rfl := Option.some.inj he
  exact if_neg (Nat.not_le.2 hroom)

theorem exec_accZero (h : Hdr) (eng : BitVec 2) (mask : BitVec 8) (s : State) : exec (.accZero h eng mask) s = execAccZero h eng mask s := rfl

theorem collects_accZero (h : Hdr) (eng : BitVec 2) (mask : BitVec 8) : Collects (.accZero h eng mask) fun c s =>
    if c.isWhole && s.banksOf c.k eng.toNat c.g.num (bankList mask) false then
      s.joins c.k eng.toNat (s.groupCmd c.g (.zero mask) 0 .core)
    else none :=
  runColl_collects (h := h) rfl (exec_accZero h eng mask) fun c s e hf => by
    obtain ⟨hok, hjoins⟩ := of_ite_some hf
    obtain ⟨hwhole, hbanks⟩ := Bool.and_eq_true_iff.1 hok
    simp only [Coll.whole_ok hwhole, State.bankCheck_ok hbanks, ok_bind, State.enqueue_ok hjoins]

/-! ## Cells (R321) -/

/-- The cell that a rank names is one of the core's, and its bank is the group's. -/
def Coll.cellsFit (x : Coll) (s : State) (eng : BitVec 2) (b c : GReg) (lend : Bool) : Bool :=
  x.active.all fun p =>
    decide ((p.2.val b).toNat < 128) && decide ((p.2.val c).toNat < 64) && s.banksOf x.k eng.toNat x.g.num [(p.2.val b).toNat / 16] lend

theorem cellsOf_ok {b c : GReg} {l : List (Nat × Thread)}
    (h : ∀ p ∈ l, (p.2.val b).toNat < 128 ∧ (p.2.val c).toNat < 64) :
    cellsOf b c l = .ok (l.map fun p => ((p.2.val b).toNat, (p.2.val c).toNat, p.2)) := by
  induction l with
  | nil => rfl
  | cons p l ih =>
    have hcell : cellOf p.2 b c = .ok ((p.2.val b).toNat, (p.2.val c).toNat) := if_pos (h p (.head _))
    simp only [cellsOf, hcell, ih fun q hq => h q (.tail _ hq), ok_bind]
    rfl

theorem State.cellBanks_ok {s : State} {k eng num : Nat} {lend : Bool} {l : List (Nat × Nat × Thread)}
    (h : ∀ c ∈ l, s.banksOf k eng num [c.1 / 16] lend = true) : s.cellBanks k eng num lend l = .ok () := by
  induction l with
  | nil => rfl
  | cons c l ih => rw [State.cellBanks, State.bankCheck_ok (h c (.head _)), ih fun d hd => h d (.tail _ hd)]

theorem Coll.cells_ok {x : Coll} {s : State} {eng : BitVec 2} {b c : GReg} {lend : Bool} (h : x.cellsFit s eng b c lend = true) :
    cellsOf b c x.active = .ok (x.active.map fun p => ((p.2.val b).toNat, (p.2.val c).toNat, p.2)) ∧
      s.cellBanks x.k eng.toNat x.g.num lend (x.active.map fun p => ((p.2.val b).toNat, (p.2.val c).toNat, p.2)) = .ok () := by
  have hall : ∀ p ∈ x.active, ((p.2.val b).toNat < 128 ∧ (p.2.val c).toNat < 64) ∧
      s.banksOf x.k eng.toNat x.g.num [(p.2.val b).toNat / 16] lend = true := fun p hp => by
    simpa using List.all_eq_true.1 h p hp
  refine ⟨cellsOf_ok fun p hp => (hall p hp).1, State.cellBanks_ok fun q hq => ?_⟩
  obtain ⟨p, hp, rfl⟩ := List.mem_map.1 hq
  exact (hall p hp).2

theorem exec_accLd (h : Hdr) (eng : BitVec 2) (a b c : GReg) (s : State) : exec (.accLd h eng a b c) s = execAccLd h eng a b c s := rfl
theorem exec_accRd (h : Hdr) (eng : BitVec 2) (f32 i96 : Bool) (d b c : GReg) (s : State) :
    exec (.accRd h eng f32 i96 d b c) s = execAccRd h eng f32 i96 d b c s := rfl

theorem collects_accLd (h : Hdr) (eng : BitVec 2) (a b c : GReg) : Collects (.accLd h eng a b c) fun x s =>
    if x.isWhole && x.cellsFit s eng b c false then
      s.joins x.k eng.toNat (s.groupCmd x.g (.ld (x.active.map fun p => ((p.2.val b).toNat, (p.2.val c).toNat,
        BitVec.ofNat 96 (spanNat ((List.range 3).map fun i => (p.2.reg (a.toNat + i)).val))))) 0 .core)
    else none :=
  runColl_collects (h := h) rfl (exec_accLd h eng a b c) fun x s e hf => by
    obtain ⟨hok, hjoins⟩ := of_ite_some hf
    obtain ⟨hwhole, hcells⟩ := Bool.and_eq_true_iff.1 hok
    obtain ⟨hof, hbanks⟩ := Coll.cells_ok hcells
    simp only [Coll.whole_ok hwhole, hof, hbanks, ok_bind, List.map_map]
    exact State.enqueue_ok hjoins

theorem collects_accRd (h : Hdr) (eng : BitVec 2) (f32 i96 : Bool) (d b c : GReg) : Collects (.accRd h eng f32 i96 d b c) fun x s =>
    if x.isWhole && x.cellsFit s eng b c true then
      (s.joins x.k eng.toNat (s.groupCmd x.g (.rd f32 i96 (x.active.map fun p =>
        { tid := p.2.tid, reg := d.toNat, row := (p.2.val b).toNat, col := (p.2.val c).toNat })) 0 .core)).map
          fun e => e.updRanks x.active fun _ t => t.awaitLong h.la d.toNat (if f32 then 1 else 4) s.tick
    else none :=
  runColl_collects (h := h) rfl (exec_accRd h eng f32 i96 d b c) fun x s e hf => by
    obtain ⟨hok, hjoins⟩ := of_ite_some hf
    obtain ⟨hwhole, hcells⟩ := Bool.and_eq_true_iff.1 hok
    obtain ⟨hof, hbanks⟩ := Coll.cells_ok hcells
    obtain ⟨m, hm, rfl⟩ := Option.map_eq_some_iff.1 hjoins
    simp only [Coll.whole_ok hwhole, hof, hbanks, ok_bind, List.map_map, Function.comp_def]
    rw [State.enqueue_ok hm]
    rfl

/-! ## Drains and products (R322 to R327) -/

theorem exec_accDrain (h : Hdr) (eng : BitVec 2) (bank : BitVec 3) (sa sc : SReg) (s : State) :
    exec (.accDrain h eng bank sa sc) s = execAccDrain h eng bank sa sc s := rfl
theorem exec_mma (h : Hdr) (fmt : Fmt) (eng : BitVec 2) (bank : BitVec 3) (sa sb sc : SReg) (s : State) :
    exec (.mma h fmt eng bank sa sb sc) s = execMma h fmt eng bank sa sb sc s := rfl
theorem exec_mmas (h : Hdr) (fmt : Fmt) (eng : BitVec 2) (bank : BitVec 3) (sa sb sc : SReg) (s : State) :
    exec (.mmas h fmt eng bank sa sb sc) s = execMmas h fmt eng bank sa sb sc s := rfl

/-- A word of a group's block or descriptor. -/
def Coll.word (c : Coll) (r : SReg) (i : Nat) : Word := (c.g.sreg (r.toNat + i)).val

/-- A drain at issue, where every check passes. -/
def Coll.drains (c : Coll) (s : State) (eng : BitVec 2) (bank : BitVec 3) (sa sc : SReg) : Option State :=
  let fut := c.g.spair (sc.toNat + 2)
  match parseDrain (16 * bank.toNat) (c.word sc 0) (c.word sc 1) (c.word sa 0) (c.word sa 1), s.initFuture c.g.ctx fut with
  | .ok (o, scope), .ok e =>
    let bs := rowsBanks o.row0 o.rows
    let place := if o.global then o.addr.toNat % 16 = 0 ∧ canonical o.addr = true
      else (o.desc.fits (s.groupAlloc c.g).2.2 0 o.rows (o.cols * drainBytes o.tfmt)).isOk = true
    if c.isWhole = true ∧ fut.toNat % 16 = 0 ∧ place ∧ s.banksOf c.k eng.toNat c.g.num bs true = true ∧
        (o.clr = true → s.banksOf c.k eng.toNat c.g.num bs false = true) then
      e.joins c.k eng.toNat (s.groupCmd c.g (.drain o) fut scope)
    else none
  | _, _ => none

theorem inAlloc_ok {size lo n : Nat} {acc acc' : Acc} (h : (inAlloc size lo n acc).isOk = true) : inAlloc size lo n acc' = .ok () := by
  unfold inAlloc at h ⊢
  split at h
  · exact if_pos ‹_›
  · cases h

theorem collects_accDrain (h : Hdr) (eng : BitVec 2) (bank : BitVec 3) (sa sc : SReg) :
    Collects (.accDrain h eng bank sa sc) fun c s => c.drains s eng bank sa sc :=
  runColl_collects (h := h) rfl (exec_accDrain h eng bank sa sc) fun c s e hf => by
    unfold Coll.drains at hf
    dsimp only at hf
    split at hf
    · next o scope m hparse hfut =>
      obtain ⟨⟨hwhole, halign, hplace, hbanks, hclr⟩, hjoins⟩ := of_ite_some hf
      unfold Coll.word at hparse
      have hqueue : (if o.clr = true then do
            s.ownsBanks c.k eng.toNat c.g.num (rowsBanks o.row0 o.rows)
            m.enqueue c.k eng.toNat (s.groupCmd c.g (.drain o) (c.g.spair (sc.toNat + 2)) scope)
          else m.enqueue c.k eng.toNat (s.groupCmd c.g (.drain o) (c.g.spair (sc.toNat + 2)) scope)) = .ok e := by
        split
        · simp only [State.ownsBanks_ok (hclr ‹_›), ok_bind, State.enqueue_ok hjoins]
        · exact State.enqueue_ok hjoins
      cases hglobal : o.global with
      | true =>
        rw [if_pos hglobal] at hplace
        simp only [Coll.whole_ok hwhole, hparse, hglobal, if_true, aligned_ok hplace.1, canon_ok hplace.2, futAligned, aligned_ok halign,
          Bool.not_true, Bool.false_eq_true, if_false, State.bankCheck_ok hbanks, hfut, ok_bind]
        exact hqueue
      | false =>
        rw [if_neg (Bool.eq_false_iff.1 hglobal)] at hplace
        have hfits : ∀ acc, o.desc.fits (s.groupAlloc c.g).2.2 0 o.rows (o.cols * drainBytes o.tfmt) acc = .ok () := fun _ =>
          inAlloc_ok hplace
        simp only [Coll.whole_ok hwhole, hparse, hglobal, Bool.false_eq_true, if_false, futAligned, aligned_ok halign, hfits,
          Bool.not_false, if_true, State.bankCheck_ok hbanks, hfut, ok_bind]
        exact hqueue
    · cases hf

/-- A product at issue, where every check passes. -/
def Coll.multiplies (c : Coll) (s : State) (f : Fmt) (eng : BitVec 2) (bank : BitVec 3) (sa sb sc : SReg) (sparse : Bool) : Option State :=
  let fut := c.g.spair (sc.toNat + 2)
  match parseMma f (16 * bank.toNat) (c.word sc 0) (c.word sc 1) (c.word sa 0) (c.word sa 1) (c.word sb 0) (c.word sb 1) sparse,
    s.initFuture c.g.ctx fut with
  | .ok (m, scope), .ok e =>
    if c.isWhole = true ∧ fut.toNat % 16 = 0 ∧ (tilesFit (s.groupAlloc c.g).2.2 m.tiles).isOk = true ∧
        s.banksOf c.k eng.toNat c.g.num (rowsBanks m.row0 m.rows) false = true then
      e.joins c.k eng.toNat (s.groupCmd c.g (.mma m) fut scope)
    else none
  | _, _ => none

theorem Coll.mma_ok {c : Coll} {s e : State} {f : Fmt} {eng : BitVec 2} {bank : BitVec 3} {sa sb sc : SReg} {sparse : Bool}
    (h : c.multiplies s f eng bank sa sb sc sparse = some e) : c.mma s f eng bank sa sb sc sparse = .ok e := by
  unfold Coll.multiplies at h
  dsimp only at h
  split at h
  · next m scope m' hparse hfut =>
    obtain ⟨⟨hwhole, halign, htiles, hbanks⟩, hjoins⟩ := of_ite_some h
    unfold Coll.word at hparse
    unfold Coll.mma
    simp only [Coll.whole_ok hwhole, hparse, futAligned, aligned_ok halign, ok_of_isOk htiles, State.bankCheck_ok hbanks, hfut, ok_bind]
    exact State.enqueue_ok hjoins
  · cases h

theorem require_eq_ok {ok : Bool} {cause : BitVec 8} {x : Unit} (h : require ok cause = .ok x) : ok = true := by
  unfold require at h
  split at h
  · assumption
  · cases h

/-- What the block of a product says. -/
theorem parseMma_fields {f : Fmt} {row0 : Nat} {edge ctrl a0 a1 b0 b1 : Word} {sparse : Bool} {m : MmaOp} {scope : Scope}
    (h : parseMma f row0 edge ctrl a0 a1 b0 b1 sparse = .ok (m, scope)) :
    m.rows = edge.toNat % 256 ∧ m.cols = edge.toNat / 2 ^ 8 % 256 ∧ m.k = edge.toNat / 2 ^ 16 % 256 ∧
    m.clr = ctrl.getLsbD 7 ∧ m.pat = ctrl.toNat / 2 ^ 9 % 4 ∧ 1 ≤ m.rows ∧ row0 + m.rows ≤ 128 ∧ 1 ≤ m.cols ∧ m.cols ≤ 64 ∧
    1 ≤ m.k ∧ kstepOf m.afmt = kstepOf m.bfmt ∧ intClass m.afmt = intClass m.bfmt := by
  unfold parseMma at h
  dsimp only at h
  split at h
  · split at h
    · cases h
    · next bfmt sa hfmt hsa sb hsb =>
      obtain ⟨_, hclass, h⟩ := bind_eq_ok h
      obtain ⟨_, -, h⟩ := bind_eq_ok h
      obtain ⟨_, -, h⟩ := bind_eq_ok h
      obtain ⟨_, hsize, h⟩ := bind_eq_ok h
      obtain ⟨_, -, h⟩ := bind_eq_ok h
      obtain ⟨da, -, h⟩ := bind_eq_ok h
      obtain ⟨db, -, h⟩ := bind_eq_ok h
      obtain ⟨rfl, -⟩ := Prod.mk.inj (Except.ok.inj h)
      obtain ⟨hrows, hlast, hcols, hcols', hk⟩ := of_decide_eq_true (require_eq_ok hsize)
      have hfmts := require_eq_ok hclass
      simp only [Bool.and_eq_true, beq_iff_eq] at hfmts
      obtain ⟨⟨-, hint⟩, hstep⟩ := hfmts
      refine ⟨?_, rfl, rfl, rfl, rfl, hrows, hlast, hcols, hcols', hk, hstep, hint⟩
      simp [bitsOf]
  · cases h

/-- Settles O21: the bank instructions are their entries in the bank table, the commands join their engine's order. -/
theorem bankAndMatrixIssueResults : Obligations.BankAndMatrixIssueResults := by
  refine ⟨⟨fun h pd eng mask => ?_, collects_accFree, collects_accLend, fun s k eng bs f b hwf heng hb hlen =>
      State.updBanks_bank hwf heng hb hlen⟩, collects_accZero, collects_accLd, collects_accRd, collects_accDrain, ?_,
    fun f row0 edge ctrl a0 a1 b0 b1 sparse m scope => parseMma_fields⟩
  · exact collects_whole (h := h) rfl (exec_accAlloc h pd eng mask)
  · intro h fmt eng bank sa sb sc x hx
    simp only [List.mem_cons, List.not_mem_nil, or_false] at hx
    rcases hx with rfl | rfl
    · exact runColl_collects (h := h) rfl (exec_mma h fmt eng bank sa sb sc) fun c s e hf => Coll.mma_ok hf
    · exact runColl_collects (h := h) rfl (exec_mmas h fmt eng bank sa sb sc) fun c s e hf => Coll.mma_ok hf

end Sys2Proof.Machine
end

section
/-! Bulk copies: BCPY, and the sectors of a copy (R110 to R112, R329, R330). -/

namespace Sys2Proof.Machine

/-! ## Computations whose results have a property -/

/-- Whatever state a computation gives has a property. -/
def Yields (P : State → Prop) (x : Except Stop State) : Prop := ∀ e, x = .ok e → P e

namespace Yields

variable {P : State → Prop}

theorem ok {s : State} (h : P s) : Yields P (.ok s) := fun _ he => Except.ok.inj he ▸ h

theorem bind {α : Type} {x : Except Stop α} {f : α → Except Stop State} (h : ∀ a, x = .ok a → Yields P (f a)) : Yields P (x >>= f) :=
  fun e he => by
    obtain ⟨a, ha, hf⟩ := bind_eq_ok he
    exact h a ha e hf

theorem ite_bind {α : Type} {c : Prop} [Decidable c] {x y : Except Stop α} {f : α → Except Stop State} (h : ∀ a, Yields P (f a)) :
    Yields P (if c then x >>= f else y >>= f) := by
  split
  · exact bind fun a _ => h a
  · exact bind fun a _ => h a

end Yields

theorem map_eq_ok {α β : Type} {f : α → β} {x : Except Stop α} {b : β} (h : x.map f = .ok b) : ∃ a, x = .ok a ∧ f a = b := by
  cases x with
  | error _ => cases h
  | ok a => exact ⟨a, rfl, Except.ok.inj h⟩

/-! ## BCPY (R329) -/

theorem State.threadFill_cached (s : State) (t : Thread) (va : Dword) (n ch : Nat) : s.Cached (s.threadFill t va n ch) := by
  have hread : s.Cached (s.readFill t.ctx va n (l2Keep ch)) := (s.readFill_looked ..).cached
  unfold State.threadFill
  dsimp only
  split
  · exact hread.trans (State.l1Drop_cached ..)
  · exact hread

theorem State.threadFill_eq (s : State) (t : Thread) (va : Dword) (n ch : Nat) : ∃ l1 l1Old lcL2 home counts windowCounts dieCounters cores,
    s.threadFill t va n ch = { s with l1, l1Old, lcL2, home, counts, windowCounts, dieCounters, cores } := by
  obtain ⟨home, counts, windowCounts, dieCounters, cores, hread⟩ := s.readFill_looked t.ctx va n (l2Keep ch)
  unfold State.threadFill
  dsimp only
  rw [hread]
  split
  · exact ⟨_, _, _, _, _, _, _, _, rfl⟩
  · exact ⟨_, _, _, _, _, _, _, _, rfl⟩

theorem State.initFuture_keeps {s e : State} {c : Nat} {fut : Dword} (h : s.initFuture c fut = .ok e) : s.Keeps e := by
  unfold State.initFuture at h
  split at h
  · exact Except.ok.inj h ▸ .refl s
  · obtain ⟨key, -, rfl⟩ := map_eq_ok h
    exact (State.lookUp_serves ..).keeps.trans (State.putMem_keeps _ _ _)

theorem State.addCopy_keeps (s : State) (b : BulkCopy) : s.Keeps (s.addCopy b) := .of_threads rfl rfl

/-- The end of BCPY: its futures, and the copy. -/
theorem State.copyIssued_keeps {s m : State} {a b : Except Stop Unit} {c : Nat} {fut fut' : Dword} {f : State → BulkCopy}
    (hm : s.Keeps m) : Yields s.Keeps (do
      a
      b
      let s ← m.initFuture c fut
      let s ← s.initFuture c fut'
      pure (s.addCopy (f s))) :=
  .bind fun _ _ => .bind fun _ _ => .bind fun _ h => .bind fun _ h' => .ok
    (((hm.trans (State.initFuture_keeps h)).trans (State.initFuture_keeps h')).trans (State.addCopy_keeps ..))

theorem State.bcpy_keeps (s : State) (t : Thread) (a fut : Dword) (ch : Nat) : Yields s.Keeps (s.bcpy t a fut ch) := by
  have hfill : s.Keeps (s.threadFill t a 128 ch) := (State.threadFill_cached ..).stored.keeps
  unfold State.bcpy
  refine .bind fun _ _ => .bind fun _ _ => .bind fun x _ => .bind fun d _ => .ite_bind fun chain => ?_
  refine .bind fun _ _ => .bind fun _ _ => .bind fun _ _ => ?_
  cases chain with
  | none =>
    dsimp only
    split
    · exact .bind fun _ _ => State.copyIssued_keeps hfill
    · exact State.copyIssued_keeps hfill
  | some c =>
    refine .bind fun _ _ => ?_
    dsimp only
    split
    · exact .bind fun _ _ => .bind fun _ _ => State.copyIssued_keeps hfill
    · exact .bind fun _ _ => State.copyIssued_keeps hfill

theorem State.bcpy_ok {s e : State} {t : Thread} {a fut : Dword} {ch x : Nat} {d : CopyDesc} (halign : a.toNat % 128 = 0)
    (hcanon : canonical a = true) (hread : s.loadNat t.ctx a 128 = .ok x) (hparse : parseCopy x = .ok (d, false))
    (hfut : fut.toNat % 16 = 0) (hsrc : sideFits d.src d.srot d.sstride d (s.allocOf t).2.2 .read = .ok ())
    (hdst : sideFits d.dst d.drot d.dstride d (s.allocOf t).2.2 .write = .ok ())
    (hring : ∀ n, d.dst = .ring n → (s.ring (t.place.coreIdx?.getD 0) n).owner = some t.task) (hsrc' : sideCanon .read d.src = .ok ())
    (hdst' : sideCanon .write d.dst = .ok ()) (hinit : (s.threadFill t a 128 ch).initFuture t.ctx fut = .ok e) :
    ∃ size, s.bcpy t a fut ch = .ok (e.addCopy
      { id := 0, seq := 0, ctx := t.ctx, die := t.place.die, unit := 0, desc := d, fut, core := (s.allocOf t).1
        base := (s.allocOf t).1 * 2 ^ 18 + (s.allocOf t).2.1, size, task := t.task, taskHandle := e.taskHandle t, chain := none, ch }) := by
  have hnone : e.initFuture t.ctx 0 = .ok e := rfl
  unfold State.bcpy
  simp only [aligned_ok halign, canon_ok hcanon, hread, hparse, futAligned, aligned_ok hfut, hsrc, hdst, hsrc', hdst', hinit,
    Bool.false_eq_true, if_false, ok_bind, pure_bind, Option.map_none, Option.getD_none, hnone]
  cases hd : d.dst with
  | ring n =>
    simp only [State.ownsRing, if_pos (hring n hd), ok_bind]
    exact ⟨_, rfl⟩
  | _ => exact ⟨_, rfl⟩

/-! ## Runs of bytes (R111, R330) -/

/-- The pairs of bytes of a run. -/
def Run.pairs (r : Run) : List (Nat × Nat) := (List.range r.n).map fun i => (r.src + i, r.dst + i)

theorem Run.pairs_succ (src dst n : Nat) : Run.pairs ⟨src, dst, n + 1⟩ = (src, dst) :: Run.pairs ⟨src + 1, dst + 1, n⟩ := by
  unfold Run.pairs
  rw [List.range_succ_eq_map, List.map_cons, List.map_map]
  simp only [Nat.add_zero, List.cons.injEq, true_and]
  refine List.map_congr_left fun i _ => ?_
  simp only [Function.comp, Nat.succ_eq_add_one, Prod.mk.injEq]
  omega

theorem toRuns_pairs (l : List (Nat × Nat)) : (toRuns l).flatMap Run.pairs = l := by
  have hone : ∀ p : Nat × Nat, Run.pairs ⟨p.1, p.2, 1⟩ = [p] := fun p => by rw [Run.pairs_succ]; rfl
  induction l with
  | nil => rfl
  | cons p l ih =>
    rw [toRuns]
    split
    · next r rest hr =>
      rw [hr, List.flatMap_cons] at ih
      split
      · next hnext =>
        obtain ⟨hsrc, hdst, -⟩ := hnext
        rw [List.flatMap_cons, Run.pairs_succ, ← hsrc, ← hdst, List.cons_append, ih]
      · rw [List.flatMap_cons, hone, List.flatMap_cons, ih]
        rfl
    · next hr =>
      rw [hr] at ih
      rw [List.flatMap_cons, hone, ← ih]
      rfl

theorem takeBytes_length (m : SMap Byte) (key n : Nat) : (takeBytes m key n).length = n := by
  induction n generalizing key with
  | zero => rfl
  | succ n ih => rw [takeBytes, List.length_cons, ih]

theorem takeBytes_getD (m : SMap Byte) (key : Nat) {n i : Nat} (hi : i < n) : (takeBytes m key n).getD i 0 = m.get 0 (key + i) := by
  induction n generalizing key i with
  | zero => omega
  | succ n ih =>
    cases i with
    | zero => rfl
    | succ i =>
      rw [takeBytes, List.getD_cons_succ, ih (key + 1) (by omega)]
      congr 1
      omega

/-- A run copied inside scratchpads. -/
def Run.within (base : Nat) (m : SMap Byte) (r : Run) : SMap Byte := putBytes m (base + r.dst) (takeBytes m (base + r.src) r.n)

theorem Run.within_wf {base : Nat} {m : SMap Byte} (r : Run) (h : Memory.wf m) : Memory.wf (r.within base m) := putBytes_wf _ _ h


theorem Run.get_within {base : Nat} {m : SMap Byte} (r : Run) (h : Memory.wf m) (a : Nat) :
    (r.within base m).get 0 a =
      if base + r.dst ≤ a ∧ a < base + r.dst + r.n then m.get 0 (base + r.src + (a - (base + r.dst))) else m.get 0 a := by
  rw [Run.within, get_putBytes _ _ _ h, takeBytes_length]
  split
  · exact takeBytes_getD m _ (by omega)
  · rfl

theorem Run.mem_pairs {r : Run} {q : Nat × Nat} : q ∈ r.pairs ↔ ∃ i < r.n, q = (r.src + i, r.dst + i) := by
  simp only [Run.pairs, List.mem_map, List.mem_range]
  constructor
  · rintro ⟨i, hi, rfl⟩
    exact ⟨i, hi, rfl⟩
  · rintro ⟨i, hi, rfl⟩
    exact ⟨i, hi, rfl⟩

/-- A byte of a run's destination is the byte of its source. -/
theorem Run.get_within_of_mem {base : Nat} {m : SMap Byte} {r : Run} (h : Memory.wf m) {q : Nat × Nat} (hq : q ∈ r.pairs) :
    (r.within base m).get 0 (base + q.2) = m.get 0 (base + q.1) := by
  obtain ⟨i, hi, rfl⟩ := Run.mem_pairs.1 hq
  rw [r.get_within h, if_pos (by dsimp only; omega)]
  congr 1
  dsimp only
  omega

/-- A byte that no pair of a run writes stays. -/
theorem Run.get_within_of_notMem {base : Nat} {m : SMap Byte} {r : Run} (h : Memory.wf m) {x : Nat} (hx : ∀ q ∈ r.pairs, q.2 ≠ x) :
    (r.within base m).get 0 (base + x) = m.get 0 (base + x) := by
  rw [r.get_within h, if_neg]
  rintro ⟨hlo, hhi⟩
  exact hx (r.src + (x - r.dst), r.dst + (x - r.dst)) (Run.mem_pairs.2 ⟨x - r.dst, by omega, rfl⟩) (by dsimp only; omega)

/-- Runs that write different bytes, none of which is a source, copy every byte. -/
theorem get_runs {base : Nat} (rs : List Run) {m : SMap Byte} (h : Memory.wf m) (hnodup : ((rs.flatMap Run.pairs).map (·.2)).Nodup)
    (hapart : ∀ q ∈ rs.flatMap Run.pairs, ∀ r ∈ rs.flatMap Run.pairs, q.1 ≠ r.2) :
    (∀ q ∈ rs.flatMap Run.pairs, (rs.foldl (Run.within base) m).get 0 (base + q.2) = m.get 0 (base + q.1)) ∧
    ∀ x, (∀ q ∈ rs.flatMap Run.pairs, q.2 ≠ x) → (rs.foldl (Run.within base) m).get 0 (base + x) = m.get 0 (base + x) := by
  induction rs generalizing m with
  | nil => exact ⟨fun q hq => absurd hq List.not_mem_nil, fun _ _ => rfl⟩
  | cons r rs ih =>
    rw [List.flatMap_cons] at hnodup hapart ⊢
    rw [List.map_append] at hnodup
    obtain ⟨-, hrest, hsep⟩ := List.nodup_append.1 hnodup
    obtain ⟨hcopied, hkept⟩ := ih (r.within_wf (base := base) h) hrest
      fun q hq p hp => hapart q (List.mem_append_right _ hq) p (List.mem_append_right _ hp)
    refine ⟨fun q hq => ?_, fun x hx => ?_⟩
    · rw [List.foldl_cons]
      rcases List.mem_append.1 hq with hq' | hq'
      · rw [hkept q.2 fun p hp hpq => hsep q.2 (List.mem_map.2 ⟨q, hq', rfl⟩) p.2 (List.mem_map.2 ⟨p, hp, rfl⟩) hpq.symm,
          Run.get_within_of_mem h hq']
      · rw [hcopied q hq', Run.get_within_of_notMem h fun p hp hpq => hapart q hq p (List.mem_append_left _ hp) hpq.symm]
    · rw [List.foldl_cons, hkept x fun q hq => hx q (List.mem_append_right _ hq),
        Run.get_within_of_notMem h fun q hq => hx q (List.mem_append_left _ hq)]

/-! ## A sector inside scratchpads -/

theorem anyRepeat_of_nodup {l : List Nat} (h : l.Nodup) : anyRepeat l = false := by
  induction l with
  | nil => rfl
  | cons a l ih =>
    obtain ⟨ha, hl⟩ := List.nodup_cons.1 h
    simp [anyRepeat, ha, ih hl]

theorem State.freeOrder_of_nodup {α : Type} {s : State} {dst : α → Nat} {l : List α} (h : (l.map dst).Nodup) : s.freeOrder dst l = (l, s) := by
  rw [State.freeOrder, anyRepeat_of_nodup h, if_neg Bool.false_ne_true]

theorem State.runEnds_scratch {s : State} {b : BulkCopy} {o p : Nat} (hsrc : b.desc.src = .scratch o) (hdst : b.desc.dst = .scratch p)
    (rs : List Run) :
    s.runEnds b rs = (rs.map fun r => (r, .scratch (b.base + r.src), .scratch (b.base + r.dst)), [], none) := by
  induction rs with
  | nil => rfl
  | cons r rs ih => simp only [State.runEnds, State.copyEnd, hsrc, hdst, ih, List.map_cons]

theorem State.copyRuns_scratch {b : BulkCopy} {x : Nat} (rs : List Run) (s : State) :
    ((rs.map fun r => (r, End.scratch (b.base + r.src), End.scratch (b.base + r.dst))).foldl (fun s p => s.copyRun b x p.1 p.2.1 p.2.2) s)
      = { s with scratch := rs.foldl (Run.within b.base) s.scratch } := by
  induction rs generalizing s with
  | nil => rfl
  | cons r rs ih =>
    rw [List.map_cons, List.foldl_cons, ih]
    rfl

theorem State.openFault_scratch (s : State) (c : Nat) (va : Dword) (acc : Acc) (r : FaultRec) : (s.openFault c va acc r).2.scratch = s.scratch := by
  unfold State.openFault
  split
  · rfl
  · dsimp only
    split <;> rfl

theorem State.lookUp_scratch (s : State) (c : Nat) (va : Dword) : (s.lookUp c va).scratch = s.scratch := by
  obtain ⟨_, _, _, _, _, he⟩ := s.lookUp_looked c va
  rw [he]

theorem State.devUpdate_progress_scratch (s : State) (c : Nat) (va : Dword) (w0 w1 : Word) (agent die unit : Nat) (task : Word) :
    (s.devUpdate c va (.progress w0 w1) agent die unit task).scratch = s.scratch := by
  unfold State.devUpdate
  dsimp only
  split
  · split
    · exact State.lookUp_scratch ..
    · unfold State.applyUpd
      split
      · exact State.lookUp_scratch ..
      · exact State.lookUp_scratch ..
  · exact (State.openFault_scratch ..).trans (State.lookUp_scratch ..)
  · exact State.lookUp_scratch ..
  · exact State.lookUp_scratch ..

theorem State.suspendCopy_scratch (s : State) (id : Nat) : (s.suspendCopy id).scratch = s.scratch := by
  unfold State.suspendCopy
  split
  · rfl
  · dsimp only
    split
    · rfl
    · exact State.devUpdate_progress_scratch ..

theorem State.sectorDone_scratch {s : State} {b : BulkCopy} {x p : Nat} (hdst : b.desc.dst = .scratch p) :
    (s.sectorDone b x).scratch = s.scratch := by
  unfold State.sectorDone
  rw [hdst]
  exact State.suspendCopy_scratch ..

theorem State.copySector_scratch {s : State} {b : BulkCopy} {x o p : Nat} (hinv : s.Inv) (hsrc : b.desc.src = .scratch o)
    (hdst : b.desc.dst = .scratch p) (hnodup : ((b.desc.pairs.filter fun q => q.2 / 256 == x).map (·.2)).Nodup)
    (hapart : ∀ q ∈ b.desc.pairs.filter fun q => q.2 / 256 == x, ∀ r ∈ b.desc.pairs.filter fun q => q.2 / 256 == x, q.1 ≠ r.2) :
    ∀ q ∈ b.desc.pairs.filter fun q => q.2 / 256 == x,
      (s.copySector b x).scratch.get 0 (b.base + q.2) = s.scratch.get 0 (b.base + q.1) := by
  intro q hq
  have hscratch : (s.copySector b x).scratch =
      (toRuns (b.desc.pairs.filter fun q => q.2 / 256 == x)).foldl (Run.within b.base) s.scratch := by
    unfold State.copySector
    simp only [State.freeOrder_of_nodup hnodup, State.runEnds_scratch hsrc hdst, ne_eq, not_true_eq_false, if_false,
      State.copyRuns_scratch]
    split
    · split
      · rfl
      · exact State.sectorDone_scratch hdst
    · rfl
  rw [hscratch]
  have hpairs := toRuns_pairs (b.desc.pairs.filter fun q => q.2 / 256 == x)
  exact (get_runs _ hinv.2.1 (by rw [hpairs]; exact hnodup) (by rw [hpairs]; exact hapart)).1 q (by rw [hpairs]; exact hq)

end Sys2Proof.Machine
end

section
/-! Rings: RCFG, RCFG.GET, RPUSH and RPOP, and the entries that copies take (R94 to R96, R332, R333). -/

namespace Sys2Proof.Machine

/-! ## Cores of a table that need not be in order -/

/-- A value other than the default is read back where it was stored, and no other changes, whatever the order of the entries. -/
theorem SMap.get_set_of_ne {α : Type} [DecidableEq α] {d v : α} (hv : v ≠ d) (m : SMap α) (i j : Nat) :
    SMap.get d (SMap.set d m i v) j = if j = i then v else SMap.get d m j := by
  induction m with
  | nil =>
    simp only [SMap.set, if_neg hv, SMap.get]
    split <;> simp
  | cons p m ih =>
    obtain ⟨k, w⟩ := p
    simp only [SMap.set, if_neg hv]
    by_cases hlt : i < k
    · simp only [if_pos hlt, SMap.get]
      by_cases hj : j = i
      · simp only [if_pos hj]
      · simp only [if_neg hj]
        by_cases hji : j < i
        · rw [if_pos hji, if_neg (by omega), if_pos (by omega)]
        · rw [if_neg hji]
    · simp only [if_neg hlt]
      by_cases hik : i = k
      · subst hik
        simp only [if_true, SMap.get]
        by_cases hj : j = i <;> simp [hj]
      · simp only [if_neg hik, SMap.get, ih]
        by_cases hj : j = k
        · subst hj
          rw [if_pos rfl, if_pos rfl, if_neg (Ne.symm hik)]
        · simp only [if_neg hj]
          by_cases hjk : j < k
          · rw [if_pos hjk, if_pos hjk, if_neg (by omega)]
          · rw [if_neg hjk, if_neg hjk]

theorem State.updCore_core {s : State} {k : Nat} {f : Core → Core} (hf : f (s.core k) ≠ {}) (j : Nat) :
    (s.updCore k f).core j = if j = k then f (s.core k) else s.core j := SMap.get_set_of_ne hf s.cores k j

/-! ## Configuration (R332) -/

theorem exec_rcfg (h : Hdr) (n : BitVec 4) (a : GReg) (s : State) :
    exec (.rcfg h n a) s = runState (.rcfg h n a) s fun t s => s.rcfg t n.toNat (t.val a).toNat := rfl

theorem exec_rcfgGet (h : Hdr) (n : BitVec 4) (d : GReg) (s : State) : exec (.rcfgGet h n d) s = execRcfgGet h n d s := rfl

theorem State.rcfg_ok {s : State} {t : Thread} {n x : Nat} (hx : x < 2 ^ 26)
    (hfits : 512 * (x % 2 ^ 9) + 256 * (x / 2 ^ 9 % 2 ^ 9 + 1) * (x / 2 ^ 18 % 2 ^ 8 + 1) ≤
      (((s.task? (s.ringTask t)).bind (·.alloc)).getD (0, 0)).2)
    (howner : (s.ring (t.place.coreIdx?.getD 0) n).owner = none ∨ (s.ring (t.place.coreIdx?.getD 0) n).owner = some (s.ringTask t))
    (hwriting : (s.ring (t.place.coreIdx?.getD 0) n).writing = 0) (hfilled : (s.ring (t.place.coreIdx?.getD 0) n).filled = 0)
    (htaken : (s.ring (t.place.coreIdx?.getD 0) n).taken = 0)
    (hcopies : (s.ring (t.place.coreIdx?.getD 0) n).owner = none ∨ s.ringCopies (s.ringTask t) n = []) :
    s.rcfg t n x = .ok (s.updRing (t.place.coreIdx?.getD 0) n fun _ =>
      { owner := some (s.ringTask t), base := x % 2 ^ 9, esize := x / 2 ^ 9 % 2 ^ 9, count := x / 2 ^ 18 % 2 ^ 8,
        free := x / 2 ^ 18 % 2 ^ 8 + 1 }) := by
  have hbase : bitsOf x 8 0 = x % 2 ^ 9 := by simp [bitsOf]
  have htop : (bitsOf x 31 26 == 0) = true := by
    have hhigh : x / 67108864 = 0 := Nat.div_eq_of_lt hx
    simp [bitsOf, hhigh]
  have hfree : ¬(((s.ring (t.place.coreIdx?.getD 0) n).owner.isSome = true ∧
      (s.ring (t.place.coreIdx?.getD 0) n).owner ≠ some (s.ringTask t)) ∨ (s.ring (t.place.coreIdx?.getD 0) n).writing ≠ 0 ∨
      (s.ring (t.place.coreIdx?.getD 0) n).filled ≠ 0 ∨ (s.ring (t.place.coreIdx?.getD 0) n).taken ≠ 0 ∨
      ((s.ring (t.place.coreIdx?.getD 0) n).owner.isSome = true ∧ s.ringCopies (s.ringTask t) n ≠ [])) := by
    rcases howner with howner | howner <;> rcases hcopies with hcopies | hcopies <;> simp_all
  have halloc : inAlloc (((s.task? (s.ringTask t)).bind (·.alloc)).getD (0, 0)).2 (512 * bitsOf x 8 0)
      (256 * (bitsOf x 17 9 + 1) * (bitsOf x 25 18 + 1)) = .ok () := by
    rw [hbase]
    exact if_pos hfits
  unfold State.rcfg
  simp only [require_ok htop, halloc, ok_bind]
  rw [if_neg hfree, hbase]
  rfl

theorem State.updRing_keeps (s : State) (k n : Nat) (f : Ring → Ring) : s.Keeps (s.updRing k n f) := (State.updCore_serves ..).keeps

theorem does_rcfg (h : Hdr) (n : BitVec 4) (a : GReg) : Does (.rcfg h n a) fun t s =>
    let x := (t.val a).toNat
    let task := s.ringTask t
    let k := t.place.coreIdx?.getD 0
    let r := s.ring k n.toNat
    let base := x % 2 ^ 9
    let esize := x / 2 ^ 9 % 2 ^ 9
    let count := x / 2 ^ 18 % 2 ^ 8
    let size := (((s.task? task).bind (·.alloc)).getD (0, 0)).2
    if x < 2 ^ 26 ∧ 512 * base + 256 * (esize + 1) * (count + 1) ≤ size ∧ (r.owner = none ∨ r.owner = some task) ∧
        r.writing = 0 ∧ r.filled = 0 ∧ r.taken = 0 ∧ (r.owner = none ∨ s.ringCopies task n.toNat = []) then
      some (s.updRing k n.toNat fun _ => { owner := some task, base, esize, count, free := count + 1 })
    else none :=
  does_of_both (h := h) rfl (exec_rcfg h n a) fun t s e hf => by
    obtain ⟨⟨hx, hfits, howner, hwriting, hfilled, htaken, hcopies⟩, he⟩ := of_ite_some hf
    obtain rfl := Option.some.inj he
    exact ⟨State.rcfg_ok hx hfits howner hwriting hfilled htaken hcopies, State.updRing_keeps ..⟩

theorem State.ownsRing_ok {s : State} {t : Thread} {task n : Nat} (h : (s.ring (t.place.coreIdx?.getD 0) n).owner = some task) :
    s.ownsRing t task n = .ok () := if_pos h

theorem does_rcfgGet (h : Hdr) (n : BitVec 4) (d : GReg) : Does (.rcfgGet h n d) fun t s =>
    let r := s.ring (t.place.coreIdx?.getD 0) n.toNat
    if r.owner = some (s.ringTask t) then
      some (s.updThread t.tid fun t => t.putPair d (BitVec.ofNat 64 (r.base + r.esize * 2 ^ 9 + r.count * 2 ^ 18 +
        r.free * 2 ^ 28 + r.filled * 2 ^ 37 + r.taken * 2 ^ 46 + r.writing * 2 ^ 55)) .i32 .i32)
    else none := by
  have hmodel : Does (.rcfgGet h n d) fun t s =>
      if (s.ring (t.place.coreIdx?.getD 0) n.toNat).owner = some (s.ringTask t) then
        some (s.updThread t.tid fun t => t.putPair d (s.ring (t.place.coreIdx?.getD 0) n.toNat).word .i32 .i32)
      else none :=
    does_of_both (h := h) rfl (exec_rcfgGet h n d) fun t s e hf => by
      obtain ⟨howner, he⟩ := of_ite_some hf
      obtain rfl := Option.some.inj he
      simp only [State.ownsRing_ok howner, ok_bind]
      exact ⟨rfl, State.keeps_updThread_of (fun _ => rfl) fun _ => rfl⟩
  refine hmodel.of_alike fun t s s' e ha ht hf => ?_
  obtain ⟨howner, he⟩ := of_ite_some hf
  obtain rfl := Option.some.inj he
  have hring : ∀ k n, s'.ring k n = s.ring k n := by obtain ⟨threads, rfl, -⟩ := ha; exact fun _ _ => rfl
  have htask : s'.ringTask t = s.ringTask t := by
    obtain ⟨threads, rfl, hthread⟩ := ha
    unfold State.ringTask
    rw [show ({ s with threads } : State).thread? = s.thread? from funext hthread]
    rfl
  refine ⟨s'.updThread t.tid fun u => u.putPair d (s.ring (u.place.coreIdx?.getD 0) n.toNat).word .i32 .i32, ?_,
    ha.updThread (fun _ _ => rfl) (fun _ _ => rfl) fun u hu => ?_⟩
  · rw [htask]
    simp only [hring]
    exact if_pos howner
  obtain rfl := Option.some.inj (ht.symm.trans hu)
  rfl

/-! ## RPUSH (R95, R333) -/

theorem exec_rpush (h : Hdr) (n : BitVec 4) (s : State) : exec (.rpush h n) s = execRpush h n s := rfl
theorem exec_rpop (h : Hdr) (n : BitVec 4) (d : GReg) (s : State) : exec (.rpop h n d) s = execRpop h n d s := rfl

/-- The entry at the consumer side given back. -/
def State.pushed' (s : State) (k n : Nat) : State := s.updRing k n fun r => { r with taken := r.taken - 1, free := r.free + 1 }

theorem State.rpush_ok {s : State} {t : Thread} {n : Nat} (howner : (s.ring (t.place.coreIdx?.getD 0) n).owner = some (s.ringTask t))
    (htaken : (s.ring (t.place.coreIdx?.getD 0) n).taken ≠ 0) :
    s.rpush t n = .ok (s.pushed' (t.place.coreIdx?.getD 0) n) := by
  unfold State.rpush
  simp only [State.ownsRing_ok howner, ok_bind]
  exact if_neg htaken

/-- An instruction that looks nothing up changes no more than its threads before it begins. -/
theorem State.lookUps_none {i : Instr} (h : ∀ t, lookedUp t i = []) (s : State) (tids : List Nat) : s.lookUps i tids = s := by
  refine List.foldl_fixed' (fun j => ?_) tids
  split
  · rw [h, List.foldl_nil, ite_self]
  · rfl

theorem State.landed_cores {i : Instr} (h : ∀ t, lookedUp t i = []) (s : State) (tids : List Nat) : (s.landed i tids).cores = s.cores := by
  rw [State.landed, State.lookUps_none h]
  rfl

theorem State.ring_of_cores {s e : State} (h : e.cores = s.cores) (k n : Nat) : e.ring k n = s.ring k n := by
  rw [State.ring, State.ring, State.core, State.core, h]

/-- The bank-less group number and task of a ring's users depend on the threads' tasks alone. -/
theorem State.ringTask_of_tasks {s e : State} (hgroups : e.groups = s.groups)
    (htask : ∀ k, (e.thread? k).map (·.task) = (s.thread? k).map (·.task)) (t : Thread) : e.ringTask t = s.ringTask t := by
  have hgroup : ∀ gid, e.group? gid = s.group? gid := fun gid => by rw [State.group?, State.group?, hgroups]
  unfold State.ringTask
  cases t.member with
  | none => rfl
  | some m =>
    simp only [Option.bind_some, hgroup]
    cases s.group? m.1 with
    | none => rfl
    | some g =>
      simp only [Option.bind_some]
      cases g.members.head? with
      | none => rfl
      | some j =>
        simp only [Option.bind_some]
        rw [htask]

theorem State.landed_ring {i : Instr} (h : ∀ t, lookedUp t i = []) (s : State) (tids : List Nat) (k n : Nat) :
    (s.landed i tids).ring k n = s.ring k n := State.ring_of_cores (State.landed_cores h s tids) k n

theorem State.landed_ringTask (i : Instr) (s : State) (tids : List Nat) (t : Thread) : (s.landed i tids).ringTask t = s.ringTask t := by
  refine State.ringTask_of_tasks (State.landed_groups ..) (fun k => ?_) t
  rw [State.landed_thread?, Option.map_map]
  congr 1
  funext t
  simp only [Function.comp]
  split <;> rfl

/-- An instruction that acts once, in a free thread. -/
theorem runOnce_one {i : Instr} {h : Hdr} (hh : i.hdr? = some h) {s e : State} {j : Nat} {free : State → Except Stop State}
    {f : Coll → State → Except Stop (State × Bool)} (hcur : s.cur = .thread j) (hi : s.issues i [j] = true)
    (hact : s.acting i [j] = [j]) (hfree : free (s.landed i [j]) = .ok e) : ∃ s', runOnce i s free f = .next s' ∧ e.retires s' [j] := by
  obtain ⟨hat, -, -, hsk, -, hw⟩ := State.issues_agent hi
  have hactive : ((s.landDue i [j]).lookUps i [j]).activeTids h [j] = [j] := by
    rw [State.acting, hh] at hact
    exact hact
  refine ⟨_, ?_, State.retires_idle e [j]⟩
  unfold runOnce
  rw [hat]
  simp only [hw, Bool.false_eq_true, if_false, State.issues_agentStop hi, hh, hactive, hcur]
  rw [hcur] at hsk
  rw [show (s.landDue i [j]).lookUps i [j] = s.landed i [j] from rfl, hfree, hsk]
  rfl

theorem rpush_free {h : Hdr} {n : BitVec 4} {s : State} {j : Nat} {t : Thread} (hcur : s.cur = .thread j)
    (hi : s.issues (.rpush h n) [j] = true) (ht : (s.landed (.rpush h n) [j]).thread? j = some t) (hg : t.guards h = true)
    (howner : (s.ring (t.place.coreIdx?.getD 0) n.toNat).owner = some (s.ringTask t))
    (htaken : (s.ring (t.place.coreIdx?.getD 0) n.toNat).taken ≠ 0) :
    ∃ s', exec (.rpush h n) s = .next s' ∧ ((s.landed (.rpush h n) [j]).pushed' (t.place.coreIdx?.getD 0) n.toNat).retires s' [j] := by
  have htid : t.tid = j := State.thread?_tid ht
  have hact : s.acting (.rpush h n) [j] = [j] := by
    rw [← htid] at ht ⊢
    exact State.acting_one rfl ht hg
  rw [exec_rpush, execRpush]
  refine runOnce_one (h := h) rfl hcur hi hact ?_
  have hthread : (s.landed (.rpush h n) [j]).curThread = some t := by
    rw [State.curThread, show (s.landed (.rpush h n) [j]).actorTids (s.landed (.rpush h n) [j]).cur = [j] from ?_]
    · exact ht
    · rw [show (s.landed (.rpush h n) [j]).cur = s.cur from State.landed_cur .., hcur]
      rfl
  rw [hthread]
  refine State.rpush_ok ?_ ?_
  · rw [State.landed_ring (fun _ => rfl), State.landed_ringTask]
    exact howner
  · rw [State.landed_ring (fun _ => rfl)]
    exact htaken

/-- RPUSH of a fragment acts for its first active thread. -/
theorem collects_rpush (h : Hdr) (n : BitVec 4) : Collects (.rpush h n) fun c s =>
    match c.active with
    | p :: _ =>
      let k := p.2.place.coreIdx?.getD 0
      if (s.ring k n.toNat).owner = some (s.ringTask p.2) ∧ (s.ring k n.toNat).taken ≠ 0 then
        some (s.updRing k n.toNat fun r => { r with taken := r.taken - 1, free := r.free + 1 })
      else none
    | [] => none := by
  intro s tids c e hi hc ha hf
  rw [exec_rpush, execRpush]
  refine runOnce_does (h := h) rfl hi hc ha ?_
  rw [Coll.firstActive]
  dsimp only at hf
  rcases hactive : c.active with _ | ⟨p, rest⟩ <;> rw [hactive] at hf
  · cases hf
  · obtain ⟨⟨howner, htaken⟩, he⟩ := of_ite_some hf
    obtain rfl := Option.some.inj he
    rw [List.head?_cons, Option.map_some]
    dsimp only
    rw [State.rpush_ok howner htaken]
    rfl

/-! ## RPOP (R95, R333) -/

/-- The entry at the consumer index taken. -/
def State.popped (s : State) (k n : Nat) : State :=
  s.updRing k n fun r => { r with filled := r.filled - 1, taken := r.taken + 1, cons := (r.cons + 1) % (r.count + 1) }

/-- The offset of an entry in its destination. -/
def Thread.putOffset (d : GReg) (off : Word) (t : Thread) : Thread := t.put d off .raw

theorem Thread.putOffset_tid (d : GReg) (off : Word) (t : Thread) : (t.putOffset d off).tid = t.tid := rfl

/-- A default core has default rings, so a core with another ring is no default. -/
theorem Core.ne_default_of_ring {c : Core} {n : Nat} (h : ((c.rings[n]?).getD {}).taken ≠ 0) : c ≠ {} := by
  rintro rfl
  refine h ?_
  rw [List.getElem?_replicate]
  split <;> rfl

/-- A ring with entries is taken from, and no other ring changes. -/
theorem State.popped_ring {s : State} {k n : Nat} (hfilled : (s.ring k n).filled ≠ 0) (j m : Nat) :
    ((s.popped k n).ring j m).owner = (s.ring j m).owner := by
  have hrings : ∀ i, ((((s.core k).rings.zipIdx.map fun p => if p.2 = n then
      ({ p.1 with filled := p.1.filled - 1, taken := p.1.taken + 1, cons := (p.1.cons + 1) % (p.1.count + 1) } : Ring) else p.1)[i]?).getD {}) =
      if i = n ∧ i < (s.core k).rings.length then
        { s.ring k i with filled := (s.ring k i).filled - 1, taken := (s.ring k i).taken + 1, cons := ((s.ring k i).cons + 1) % ((s.ring k i).count + 1) }
      else s.ring k i := by
    intro i
    rw [List.getElem?_map, List.getElem?_zipIdx, State.ring]
    by_cases hi : i < (s.core k).rings.length
    · rw [List.getElem?_eq_getElem hi]
      by_cases hn : i = n
      · subst hn
        simp [hi]
      · simp [hn]
    · rw [List.getElem?_eq_none (Nat.le_of_not_lt hi), if_neg fun h => hi h.2]
      rfl
  have hlt : n < (s.core k).rings.length := by
    refine Nat.lt_of_not_le fun hle => hfilled ?_
    rw [State.ring, List.getElem?_eq_none hle]
    rfl
  have hne := Core.ne_default_of_ring (n := n) (c := { s.core k with rings := _ }) (by
    rw [hrings n, if_pos ⟨rfl, hlt⟩]
    exact Nat.succ_ne_zero _)
  rw [State.ring, State.popped, State.updRing, State.updCore_core hne]
  by_cases hj : j = k
  · subst hj
    rw [if_pos rfl, hrings m]
    split <;> rfl
  · rw [if_neg hj]
    rfl

/-- What RPOP does in a thread. -/
def State.rpop' (lead n : Nat) (d : GReg) (off : Word) (t : Thread) (s : State) : Option State :=
  if (s.ring (t.place.coreIdx?.getD 0) n).owner = some (s.ringTask t) ∧ (t.tid = lead → (s.ring (t.place.coreIdx?.getD 0) n).filled ≠ 0) then
    some ((if t.tid = lead then s.popped (t.place.coreIdx?.getD 0) n else s).updThread t.tid (Thread.putOffset d off))
  else none

theorem State.rpop_ok {s e : State} {t : Thread} {lead n : Nat} {d : GReg} {off : Word} (h : State.rpop' lead n d off t s = some e) :
    s.rpop t n d (some t.tid == some lead) off = .ok (e, .seq) := by
  obtain ⟨⟨howner, hfilled⟩, he⟩ := of_ite_some h
  obtain rfl := Option.some.inj he
  unfold State.rpop
  simp only [State.ownsRing_ok howner, ok_bind]
  by_cases hlead : t.tid = lead
  · simp only [hlead, beq_self_eq_true, if_true, hfilled hlead, and_false, if_false]
    rfl
  · have hfirst : (some t.tid == some lead) = false := by simpa using hlead
    simp only [hfirst, hlead, Bool.false_eq_true, false_and, if_false]
    rfl

theorem State.rpop'_keeps {s e : State} {t : Thread} {lead n : Nat} {d : GReg} {off : Word} (h : State.rpop' lead n d off t s = some e) :
    s.Keeps e := by
  obtain ⟨-, he⟩ := of_ite_some h
  obtain rfl := Option.some.inj he
  refine State.Keeps.trans ?_ (State.keeps_updThread_of (fun _ => rfl) fun _ => rfl)
  split
  · exact State.updRing_keeps ..
  · exact .refl _

/-- The rings that a thread reaches after others have received their offsets. -/
theorem State.putOffset_owns {s : State} {n k : Nat} {d : GReg} {off : Word} {t : Thread}
    (h : (s.ring (t.place.coreIdx?.getD 0) n).owner = some (s.ringTask t)) :
    ((s.updThread k (Thread.putOffset d off)).ring (t.place.coreIdx?.getD 0) n).owner =
      some ((s.updThread k (Thread.putOffset d off)).ringTask t) := by
  rw [State.ringTask_of_tasks (e := s.updThread k (Thread.putOffset d off)) (s := s) rfl fun j => ?_]
  · exact h
  · rw [State.thread?_updThread _ _ _ fun t _ => Thread.putOffset_tid d off t, Option.map_map]
    congr 1
    funext u
    simp only [Function.comp]
    split <;> rfl

theorem State.Alike.trans {a b c : State} (h : a.Alike b) (g : b.Alike c) : a.Alike c := by
  obtain ⟨l, rfl, hl⟩ := h
  obtain ⟨m, rfl, hm⟩ := g
  exact ⟨m, rfl, fun k => (hm k).trans (hl k)⟩

/-- Threads changed together, or one and then the rest. -/
theorem State.updThreads_cons_alike {s : State} {j : Nat} {l : List Nat} {f : Thread → Thread} (hf : ∀ t, (f t).tid = t.tid) (hj : j ∉ l) :
    (s.updThreads (j :: l) f).Alike ((s.updThread j f).updThreads l f) := by
  refine ⟨_, rfl, fun k => ?_⟩
  rw [State.thread?_updThreads _ _ _ hf, State.thread?_updThreads _ _ _ hf, State.thread?_updThread _ _ _ fun t _ => hf t, Option.map_map]
  congr 1
  funext t
  by_cases hk : k = j
  · subst hk
    simp [hj]
  · simp [hk]

/-- The threads after the first receive the offset. -/
theorem State.each_rest {lead n : Nat} {d : GReg} {off : Word} (l : List Nat) : ∀ s : State, l.Nodup → lead ∉ l →
    (∀ j ∈ l, ∃ u, s.thread? j = some u ∧ (s.ring (u.place.coreIdx?.getD 0) n).owner = some (s.ringTask u)) →
    ∃ e, s.each (State.rpop' lead n d off) l = some e ∧ (s.updThreads l (Thread.putOffset d off)).Alike e := by
  induction l with
  | nil =>
    intro s _ _ _
    refine ⟨s, rfl, s.threads, rfl, fun k => ?_⟩
    rw [State.thread?_updThreads _ _ _ (Thread.putOffset_tid d off)]
    simp
  | cons j l ih =>
    intro s hnodup hlead hown
    obtain ⟨hj, hnodup⟩ := List.nodup_cons.1 hnodup
    obtain ⟨u, hu, howner⟩ := hown j (by simp)
    have htid : u.tid = j := State.thread?_tid hu
    have hne : u.tid ≠ lead := by
      rintro rfl
      exact hlead (by simp [htid])
    have hstep : State.rpop' lead n d off u s = some (s.updThread j (Thread.putOffset d off)) := by
      rw [State.rpop', if_pos ⟨howner, fun h => absurd h hne⟩, if_neg hne, htid]
    obtain ⟨e, he, halike⟩ := ih (s.updThread j (Thread.putOffset d off)) hnodup (fun h => hlead (by simp [h])) fun i hi => by
      obtain ⟨v, hv, hvown⟩ := hown i (by simp [hi])
      refine ⟨v, ?_, State.putOffset_owns hvown⟩
      rw [State.thread?_updThread _ _ _ fun t _ => Thread.putOffset_tid d off t, hv, Option.map_some, if_neg]
      rintro rfl
      exact hj hi
    refine ⟨e, ?_, (State.updThreads_cons_alike (Thread.putOffset_tid d off) hj).trans halike⟩
    rw [State.each, hu, Option.bind_some, hstep]
    exact he

theorem rpop_completes {h : Hdr} {n : BitVec 4} {d : GReg} {s : State} {tids : List Nat} {lead : Nat} {rest : List Nat} {t : Thread}
    (hi : s.issues (.rpop h n d) tids = true) (hact : s.acting (.rpop h n d) tids = lead :: rest) (ht : s.thread? lead = some t)
    (hown : ∀ j ∈ lead :: rest, ∀ u, (s.landed (.rpop h n d) tids).thread? j = some u →
      (s.ring (u.place.coreIdx?.getD 0) n.toNat).owner = some ((s.landed (.rpop h n d) tids).ringTask u))
    (hfilled : (s.ring (t.place.coreIdx?.getD 0) n.toNat).filled ≠ 0) :
    ∃ s', exec (.rpop h n d) s = .next s' ∧
      (((s.landed (.rpop h n d) tids).popped (t.place.coreIdx?.getD 0) n.toNat).updThreads (lead :: rest)
        (Thread.putOffset d (s.ring (t.place.coreIdx?.getD 0) n.toNat).offset)).retires s' tids := by
  have hring := State.landed_ring (i := .rpop h n d) (fun _ => rfl) s tids
  obtain ⟨hagent, -, hnodup, -⟩ := State.issues_agent hi
  have hactnodup : (lead :: rest).Nodup := hact ▸ (State.acting_sublist ..).nodup hnodup
  obtain ⟨hlead, hrest⟩ := List.nodup_cons.1 hactnodup
  have hlanded : ∀ j ∈ lead :: rest, ∃ u, (s.landed (.rpop h n d) tids).thread? j = some u := by
    intro j hj
    obtain ⟨u, hu, -⟩ := State.issues_thread hi ((State.acting_sublist ..).subset (hact ▸ hj))
    rw [State.landed_thread?, hu]
    exact ⟨_, rfl⟩
  have hactive : s.activeTids h tids = lead :: rest := by
    rw [← hact]
    refine List.filter_congr fun j _ => ?_
    rw [State.landed_thread?]
    cases s.thread? j with
    | none => rfl
    | some u =>
      rw [Option.map_some, Option.any_some, Option.any_some]
      split <;> rfl
  obtain ⟨u, hu⟩ := hlanded lead (by simp)
  have hplace : u.place = t.place := by
    rw [State.landed_thread?, ht, Option.map_some] at hu
    rw [← Option.some.inj hu]
    split <;> rfl
  have huid : u.tid = lead := State.thread?_tid hu
  generalize hoff : (s.ring (t.place.coreIdx?.getD 0) n.toNat).offset = off
  have hfirst : State.rpop' lead n.toNat d off u (s.landed (.rpop h n d) tids) =
      some (((s.landed (.rpop h n d) tids).popped (t.place.coreIdx?.getD 0) n.toNat).updThread lead (Thread.putOffset d off)) := by
    rw [State.rpop', if_pos, if_pos huid, huid, hplace]
    rw [hring]
    exact ⟨hown lead (by simp) u hu, fun _ => by rw [hplace]; exact hfilled⟩
  obtain ⟨e, he, halike⟩ := State.each_rest (n := n.toNat) (d := d) (off := off) rest
    (((s.landed (.rpop h n d) tids).popped (t.place.coreIdx?.getD 0) n.toNat).updThread lead (Thread.putOffset d off)) hrest hlead
    fun j hj => by
      obtain ⟨v, hv⟩ := hlanded j (by simp [hj])
      refine ⟨v, ?_, State.putOffset_owns ?_⟩
      · rw [State.thread?_updThread _ _ _ fun t _ => Thread.putOffset_tid d off t]
        show Option.map _ ((s.landed (.rpop h n d) tids).thread? j) = _
        rw [hv, Option.map_some, if_neg]
        rintro rfl
        exact hlead hj
      · rw [State.popped_ring (by rw [hring]; exact hfilled), hring]
        exact hown j (by simp [hj]) v hv
  have heach : (s.landed (.rpop h n d) tids).each (State.rpop' lead n.toNat d off) (s.acting (.rpop h n d) tids) = some e := by
    rw [hact, State.each, hu, Option.bind_some, hfirst]
    exact he
  have hcourse := runThreads_does (i := .rpop h n d) (h := h) rfl hi
    (body := fun j s => match s.thread? j with
      | none => .ok (s, .gone)
      | some t => s.rpop t n.toNat d (some t.tid == some lead) off)
    (fun j t s1 s2 ht hf => by simp only [ht, State.rpop_ok hf]) (fun t s1 s2 _ hf => State.rpop'_keeps hf) heach
  obtain ⟨s', hs', hret⟩ := hcourse
  refine ⟨s', ?_, State.Alike.retires ((State.updThreads_cons_alike (Thread.putOffset_tid d off) hlead).trans halike) hret⟩
  rw [exec_rpop, execRpop, hagent, hactive, List.head?_cons, Option.bind_some, ht, Option.map_some, Option.getD_some, hoff]
  exact hs'

/-! ## The copies -/

theorem okOf_eq_some {x : Except Stop State} {e : State} (h : okOf x = some e) : x = .ok e := by
  cases x with
  | error _ => cases h
  | ok m => rw [show m = e from Option.some.inj h]

theorem exec_bcpy (h : Hdr) (nf : Bool) (a c : GReg) (s : State) :
    exec (.bcpy h nf a c) s = runState (.bcpy h nf a c) s fun t s => s.bcpy t (t.pair a) (if nf then 0 else t.pair c) h.ch.toNat := rfl

theorem does_bcpy (h : Hdr) (nf : Bool) (a c : GReg) :
    Does (.bcpy h nf a c) fun t s => okOf (s.bcpy t (t.pair a) (if nf then 0 else t.pair c) h.ch.toNat) :=
  does_of_both (h := h) rfl (exec_bcpy h nf a c) fun t s e hf => by
    have hok := okOf_eq_some hf
    exact ⟨hok, State.bcpy_keeps _ _ _ _ _ _ hok⟩

theorem State.threadFill_frame (s : State) (t : Thread) (va : Dword) (n ch : Nat) :
    let e := s.threadFill t va n ch
    e = { s with l1 := e.l1, l1Old := e.l1Old, lcL2 := e.lcL2, home := e.home, counts := e.counts
                 windowCounts := e.windowCounts, dieCounters := e.dieCounters, cores := e.cores } := by
  obtain ⟨l1, l1Old, lcL2, home, counts, windowCounts, dieCounters, cores, h⟩ := s.threadFill_eq t va n ch
  simp only [h]

theorem exec_bulkCopySector {s : State} {id : Nat} {b : BulkCopy} (k : Nat) (hb : s.copies.find? (·.id == id) = some b) :
    exec (.bulkCopySector id k) s =
      match (s.openSectors b)[k]? with
      | some x => .next (s.copySector b x)
      | none => if s.copyEnds b then .next (s.copyDone b) else .next s := by
  show execBulkCopySector id k s = _
  rw [execBulkCopySector, hb] <;> rfl

/-! ## A ring entry taken for one of two copies with one number (R95) -/

/-- A copy from global memory into ring 0 of core 0, which has taken no entry. -/
def ringCopy : BulkCopy :=
  { id := 0, seq := 0, ctx := 0, die := 0, unit := 0, fut := 0
    desc := { src := .global 0, dst := .ring 0, srot := 0, drot := 0, size0 := 256, sizes := [], sstride := [], dstride := [], scope := .dev } }

/-- Two copies with the number 0, on cores 0 and 1; the producer index of core 0's ring is 1. -/
def twinCopies : State :=
  { State.reset with
    copies := [ringCopy, { ringCopy with core := 1 }]
    cores := [(0, { rings := [{ owner := some 0, count := 1, free := 1, prod := 1 }] })] }

/-- The ring entries that the copies have taken. -/
def State.entriesTaken (s : State) : List (List Nat) := s.copies.map (·.slots)

/-- The entry that the first copy takes is given to its twin too. -/
theorem twinCopies_take : nextIs State.entriesTaken (exec (.ringEntryTake 0) twinCopies) = some [[1], [1]] := by decide +kernel

/-- Refutes O23: where two copies have one number, both take the producer index of the first one's ring; the statement has each take
that of its own core's ring. -/
theorem not_bulkCopyAndRingResults : ¬ Obligations.BulkCopyAndRingResults := by
  intro h
  obtain ⟨⟨-, -, -, -, -, -, htake⟩, -⟩ := h
  have hnext := congrArg (nextIs State.entriesTaken) (htake twinCopies 0 ringCopy 0 rfl rfl rfl (by decide) (by decide +kernel))
  rw [twinCopies_take] at hnext
  exact absurd hnext (by decide +kernel)

end Sys2Proof.Machine
end

section
/-! The descent engine at issue: DSC.CFG, DSC.RUN, DSC.PATH and DSC.GRAD (R182 to R185, R192, R334 to R337). -/

namespace Sys2Proof.Machine

/-! ## What counting leaves of a core -/

/-- Every core of `e` is that of `s` but for its counters. -/
structure State.Counted (s e : State) : Prop where
  core : ∀ k, ∃ perf, e.core k = { s.core k with perf }

theorem State.Counted.refl (s : State) : s.Counted s := ⟨fun _ => ⟨_, rfl⟩⟩

theorem State.Counted.trans {a b c : State} (h : a.Counted b) (g : b.Counted c) : a.Counted c := ⟨fun k => by
  obtain ⟨p, hp⟩ := h.core k
  obtain ⟨q, hq⟩ := g.core k
  exact ⟨q, by rw [hq, hp]⟩⟩

theorem State.Counted.of_cores {s e : State} (h : e.cores = s.cores) : s.Counted e :=
  ⟨fun k => ⟨(s.core k).perf, by rw [State.core, State.core, h]⟩⟩

theorem State.counted_foldl {α : Type} (f : State → α → State) (hf : ∀ (s : State) a, s.Counted (f s a)) (l : List α) (s : State) :
    s.Counted (l.foldl f s) := by
  induction l generalizing s with
  | nil => exact .refl s
  | cons a l ih => exact (hf s a).trans (ih _)

theorem State.Counted.descent {s e : State} (h : s.Counted e) (k : Nat) : (e.core k).descent = (s.core k).descent := by
  obtain ⟨p, hp⟩ := h.core k
  rw [hp]

theorem Core.ne_default_of_perf {c : Core} (h : c.perf ≠ []) : c ≠ {} := fun hc => h (by rw [hc])

theorem State.tallyCore_counted (s : State) (k src n : Nat) : s.Counted (s.tallyCore k src n) := by
  unfold State.tallyCore
  by_cases hperf : (s.core k).perf.isEmpty = true
  · rw [if_pos hperf]
    exact .refl s
  · rw [if_neg hperf]
    refine ⟨fun j => ?_⟩
    rw [State.updCore_core (Core.ne_default_of_perf (by simpa using hperf))]
    by_cases hj : j = k
    · subst hj
      exact ⟨_, if_pos rfl⟩
    · exact ⟨_, if_neg hj⟩

theorem State.walkFill_counted (s : State) (die : Option Nat) (c : Nat) (va : Dword) : s.Counted (s.walkFill die c va) := by
  unfold State.walkFill
  cases s.ctx? c with
  | none => exact .refl s
  | some x =>
    have hwalk : ∀ (l : List Nat) (w : Option Nat) (m : State), m.Counted (l.foldl (fun s k => s.l2Read w k 8 1) m) :=
      fun l w m => State.counted_foldl (fun s k => s.l2Read w k 8 1) (fun _ _ => .of_cores rfl) l m
    cases die with
    | none => exact hwalk _ _ s
    | some d =>
      have htally : s.Counted (s.tallyDie d 0x104 1 (some c)) := .of_cores rfl
      exact htally.trans (hwalk _ _ _)

theorem State.lookUp_counted (s : State) (c : Nat) (va : Dword) : s.Counted (s.lookUp c va) := by
  have hmiss : ∀ l : List Nat, s.Counted (l.foldl (fun s u => s.tlbMiss c u) s) := fun l =>
    State.counted_foldl _ (fun s u => by
      unfold State.tlbMiss
      split
      · exact s.tallyCore_counted ..
      · exact .of_cores rfl) l s
  unfold State.lookUp
  split
  · exact .refl s
  · dsimp only
    split
    · exact hmiss _
    · exact (hmiss _).trans (State.walkFill_counted ..)

theorem State.readFill_counted (s : State) (c : Nat) (va : Dword) (n keep : Nat) : s.Counted (s.readFill c va n keep) := by
  unfold State.readFill
  split
  · exact (s.lookUp_counted c va).trans (.of_cores rfl)
  · exact s.lookUp_counted c va

theorem State.readFill_frame (s : State) (c : Nat) (va : Dword) (n : Nat) :
    let e := s.readFill c va n
    e = { s with home := e.home, counts := e.counts, windowCounts := e.windowCounts, dieCounters := e.dieCounters
                 cores := e.cores } := by
  obtain ⟨home, counts, windowCounts, dieCounters, cores, h⟩ := s.readFill_looked c va n 1
  simp only [h]

/-! ## The holder and its tree (R182, R183, R334) -/

theorem exec_dscCfg (h : Hdr) (a : GReg) (s : State) : exec (.dscCfg h a) s = execDscCfg h a s := rfl
theorem exec_dscRun (h : Hdr) (sa sc : SReg) (s : State) : exec (.dscRun h sa sc) s = execDscRun h sa sc s := rfl
theorem exec_dscPath (h : Hdr) (d b : GReg) (s : State) : exec (.dscPath h d b) s = execDscPath h d b s := rfl
theorem exec_dscGrad (h : Hdr) (sa sb sc : SReg) (s : State) : exec (.dscGrad h sa sb sc) s = execDscGrad h sa sb sc s := rfl

theorem Coll.holds_ok {c : Coll} {s : State} (h : (s.core c.k).descent.holder = some c.g.gid) : c.holds s = .ok () :=
  require_ok (by rw [h]; exact beq_self_eq_true _)

theorem Coll.config_ok {c : Coll} {s : State} {t : TreeCfg} (h : (s.core c.k).descent.holder = some c.g.gid)
    (ht : (s.core c.k).descent.cfg = some t) : c.config s = .ok (some t) := by
  rw [Coll.config, if_pos h, ht]

/-- The fields of a tree descriptor. -/
theorem parseTree_fields {x : Nat} {t : TreeCfg} (h : parseTree x = .ok t) :
    t.dim = 64 * (x / 2 ^ 200 % 64 + 1) ∧ t.depth = x / 2 ^ 192 % 32 ∧ 1 ≤ t.depth ∧ t.depth ≤ 20 ∧
      t.nstride = x / 2 ^ 128 % 2 ^ 32 ∧ t.lstride = x / 2 ^ 160 % 2 ^ 32 ∧ t.nstride % 16 = 0 ∧ t.nodeBase.toNat % 256 = 0 := by
  unfold parseTree at h
  dsimp only at h
  split at h
  · cases h
  · split at h
    · cases h
    · next hfields =>
      simp only [not_or, not_not, Nat.not_lt] at hfields
      obtain ⟨-, -, -, -, hdepth, hdepth', hstride, -, hbase⟩ := hfields
      obtain rfl := Except.ok.inj h
      refine ⟨rfl, rfl, Nat.pos_of_ne_zero hdepth, hdepth', rfl, rfl, hstride, ?_⟩
      simp only [bitsOf] at hbase ⊢
      simp only [BitVec.toNat_ofNat]
      omega

theorem collects_dscCfg (h : Hdr) (a : GReg) : Collects (.dscCfg h a) fun c s =>
    let va := c.pair a
    let d := (s.core c.k).descent
    if va = 0 then
      if d.holder = none then onlyIf c.isWhole s
      else onlyIf (c.isWhole && d.holder == some c.g.gid) (s.updDescent c.k fun d => { d with holder := none, cfg := none })
    else
      match (s.loadNat c.g.ctx va 64).bind parseTree with
      | .ok cfg =>
        onlyIf (c.isWhole && decide (va.toNat % 64 = 0) && canonical va && (d.holder.isNone || d.holder == some c.g.gid) &&
            canonical cfg.nodeBase && canonical cfg.leafBase)
          ((s.readFill c.g.ctx va 64).updDescent c.k fun d => { d with holder := some c.g.gid, cfg := some cfg })
      | .error _ => none :=
  runColl_collects (h := h) rfl (exec_dscCfg h a) fun c s e hf => by
    dsimp only at hf ⊢
    by_cases hva : c.pair a = 0
    · rw [if_pos hva] at hf
      by_cases hnone : (s.core c.k).descent.holder = none
      · rw [if_pos hnone] at hf
        obtain ⟨hwhole, rfl⟩ := of_onlyIf hf
        simp only [Coll.whole_ok hwhole, ok_bind, hva, hnone, Option.isNone_none, if_true]
        rfl
      · rw [if_neg hnone] at hf
        obtain ⟨hok, rfl⟩ := of_onlyIf hf
        obtain ⟨hwhole, hholder⟩ := Bool.and_eq_true_iff.1 hok
        have hheld : (s.core c.k).descent.holder = some c.g.gid := by simpa using hholder
        simp only [Coll.whole_ok hwhole, Coll.holds_ok hheld, ok_bind, hva, hheld, Option.isNone_some, Bool.false_eq_true, if_true, if_false]
        rfl
    · rw [if_neg hva] at hf
      rcases hread : s.loadNat c.g.ctx (c.pair a) 64 with _ | x <;> rw [hread] at hf
      · cases hf
      rcases htree : parseTree x with _ | cfg
      · rw [show (Except.ok x : Except Stop Nat).bind parseTree = parseTree x from rfl, htree] at hf
        cases hf
      rw [show (Except.ok x : Except Stop Nat).bind parseTree = parseTree x from rfl, htree] at hf
      obtain ⟨hok, rfl⟩ := of_onlyIf hf
      simp only [Bool.and_eq_true, decide_eq_true_eq, Bool.or_eq_true] at hok
      obtain ⟨⟨⟨⟨⟨hwhole, halign⟩, hcanon⟩, hholder⟩, hnode⟩, hleaf⟩ := hok
      have hkept : ((s.readFill c.g.ctx (c.pair a) 64).core c.k).descent = (s.core c.k).descent := (State.readFill_counted ..).descent c.k
      simp only [Coll.whole_ok hwhole, aligned_ok halign, canon_ok hcanon, canon_ok hnode, canon_ok hleaf, htree, ok_bind, if_neg hva]
      rcases hheld : (s.core c.k).descent.holder with _ | g
      · rfl
      · rw [hheld] at hholder
        have hg : some g = some c.g.gid := by simpa using hholder
        rw [Option.isSome_some, if_pos rfl, Coll.holds_ok (by rw [hkept, hheld, hg])]
        rfl

/-! ## Commands (R185, R335, R337) -/

theorem bitsOf_zero_of_lt {x hi lo : Nat} (h : x < 2 ^ lo) : (bitsOf x hi lo == 0) = true := by
  simp [bitsOf, Nat.div_eq_of_lt h]

theorem fits_ok {t : OpDesc} {size i n k : Nat} (h : (t.fits size i n k).isOk = true) : t.fits size i n k = .ok () := by
  cases hf : t.fits size i n k with
  | ok _ => rfl
  | error _ => rw [hf] at h; cases h

theorem collects_dscRun (h : Hdr) (sa sc : SReg) : Collects (.dscRun h sa sc) fun c s =>
    let w := fun (r : SReg) (i : Nat) => (c.g.sreg (r.toNat + i)).val
    let n := (w sc 0).toNat
    let x := (w sc 1).toNat
    let out := x % 2 ^ 18
    let d := (s.core c.k).descent
    let fut := c.g.spair (sc.toNat + 2)
    let size := (s.groupAlloc c.g).2.2
    match d.cfg, parseDesc (w sa 0) (w sa 1), s.initFuture c.g.ctx fut with
    | some t, .ok tile, .ok e =>
      if c.isWhole = true ∧ d.holder = some c.g.gid ∧ 1 ≤ n ∧ n ≤ 256 ∧ x < 2 ^ 20 ∧ out % 512 = 0 ∧ fut.toNat % 16 = 0 ∧
          (tile.fits size 0 n (2 * t.dim)).isOk = true ∧ out + 6144 ≤ size then
        some ((c.submit e (.run n tile out) t fut ((Scope.ofCode (BitVec.ofNat 2 (x / 2 ^ 18))).getD .core)).updDescent c.k
          fun d => { d with n })
      else none
    | _, _, _ => none :=
  runColl_collects (h := h) rfl (exec_dscRun h sa sc) fun c s e hf => by
    dsimp only at hf ⊢
    rcases hcfg : (s.core c.k).descent.cfg with _ | t <;> rw [hcfg] at hf
    · cases hf
    rcases hdesc : parseDesc (c.g.sreg (sa.toNat + 0)).val (c.g.sreg (sa.toNat + 1)).val with _ | tile <;> rw [hdesc] at hf
    · cases hf
    rcases hinit : s.initFuture c.g.ctx (c.g.spair (sc.toNat + 2)) with _ | m <;> rw [hinit] at hf
    · cases hf
    obtain ⟨⟨hwhole, hholder, hpos, hmax, hx, hout, hfut, hfits, hroom⟩, he⟩ := of_ite_some hf
    obtain rfl := Option.some.inj he
    have hbits : bitsOf (c.g.sreg (sc.toNat + 1)).val.toNat 17 0 = (c.g.sreg (sc.toNat + 1)).val.toNat % 2 ^ 18 := by simp [bitsOf]
    have halign : (BitVec.ofNat 64 ((c.g.sreg (sc.toNat + 1)).val.toNat % 2 ^ 18)).toNat % 512 = 0 := by
      rw [BitVec.toNat_ofNat]
      omega
    have hcount : (decide (1 ≤ (c.g.sreg (sc.toNat + 0)).val.toNat ∧ (c.g.sreg (sc.toNat + 0)).val.toNat ≤ 256) &&
        bitsOf (c.g.sreg (sc.toNat + 1)).val.toNat 31 20 == 0) = true := by
      rw [bitsOf_zero_of_lt hx, Bool.and_true]
      exact decide_eq_true ⟨hpos, hmax⟩
    have hinAlloc : inAlloc (s.groupAlloc c.g).2.2 ((c.g.sreg (sc.toNat + 1)).val.toNat % 2 ^ 18) 6144 .write = .ok () := if_pos hroom
    simp only [Coll.whole_ok hwhole, Coll.config_ok hholder hcfg, require_ok hcount, hbits, aligned_ok halign,
      futAligned, aligned_ok hfut, fits_ok hfits, hinAlloc, Coll.holds_ok hholder, ok_bind]
    have hscope : bitsOf (c.g.sreg (sc.toNat + 1)).val.toNat 19 18 = (c.g.sreg (sc.toNat + 1)).val.toNat / 2 ^ 18 :=
      Nat.mod_eq_of_lt (Nat.div_lt_of_lt_mul (by omega))
    rw [hscope]
    rfl

/-- DSC.PATH's path words are among the 256 of the engine. -/
theorem pathIndices_ok {b : GReg} {l : List (Nat × Thread)} (h : (l.all fun p => decide ((p.2.val b).toNat + p.1 ≤ 255)) = true) :
    pathIndices b l = .ok () := by
  induction l with
  | nil => rfl
  | cons p l ih =>
    obtain ⟨hp, hl⟩ := Bool.and_eq_true_iff.1 (List.all_cons ▸ h)
    have hindex : pathIndex b p = .ok ((p.2.val b).toNat + p.1) := if_pos (of_decide_eq_true hp)
    rw [pathIndices, hindex, ok_bind]
    exact ih hl

theorem collects_dscPath (h : Hdr) (d b : GReg) : Collects (.dscPath h d b) fun c s =>
    let x := (s.core c.k).descent
    onlyIf (c.isWhole && x.holder == some c.g.gid && x.cmds.isEmpty && c.active.all fun p => decide ((p.2.val b).toNat + p.1 ≤ 255))
      (s.updRanks c.active fun r t =>
        t.putLong h.la d.toNat [{ val := x.path.get 0 ((t.val b).toNat + r), tag := .i32 }]) :=
  runColl_collects (h := h) rfl (exec_dscPath h d b) fun c s e hf => by
    obtain ⟨hok, rfl⟩ := of_onlyIf hf
    simp only [Bool.and_eq_true, beq_iff_eq, List.isEmpty_iff] at hok
    obtain ⟨⟨⟨hwhole, hholder⟩, hempty⟩, hindices⟩ := hok
    simp only [Coll.whole_ok hwhole, pathIndices_ok hindices, Coll.holds_ok hholder, hempty, ne_eq, not_true_eq_false, if_false, ok_bind]
    rfl

theorem collects_dscGrad (h : Hdr) (sa sb sc : SReg) : Collects (.dscGrad h sa sb sc) fun c s =>
    let w := fun (r : SReg) (i : Nat) => (c.g.sreg (r.toNat + i)).val
    let x := (w sc 0).toNat
    let y := (w sc 1).toNat
    let d := (s.core c.k).descent
    let base := c.g.spair sb.toNat
    let fut := c.g.spair (sc.toNat + 2)
    let size := (s.groupAlloc c.g).2.2
    match d.cfg, parseDesc (w sa 0) (w sa 1), s.initFuture c.g.ctx fut with
    | some t, .ok tile, .ok e =>
      if c.isWhole = true ∧ d.holder = some c.g.gid ∧ x < 2 ^ 18 ∧ y < 4 ∧ 4 * t.dim + 4 ≤ t.nstride ∧ x % 16 = 0 ∧
          base.toNat % 256 = 0 ∧ fut.toNat % 16 = 0 ∧ (tile.fits size 0 d.n (2 * t.dim)).isOk = true ∧ x + 80 * d.n ≤ size ∧
          canonical base = true then
        some (c.submit e (.grad d.n tile x base) t fut ((Scope.ofCode (BitVec.ofNat 2 y)).getD .core))
      else none
    | _, _, _ => none :=
  runColl_collects (h := h) rfl (exec_dscGrad h sa sb sc) fun c s e hf => by
    dsimp only at hf ⊢
    rcases hcfg : (s.core c.k).descent.cfg with _ | t <;> rw [hcfg] at hf
    · cases hf
    rcases hdesc : parseDesc (c.g.sreg (sa.toNat + 0)).val (c.g.sreg (sa.toNat + 1)).val with _ | tile <;> rw [hdesc] at hf
    · cases hf
    rcases hinit : s.initFuture c.g.ctx (c.g.spair (sc.toNat + 2)) with _ | m <;> rw [hinit] at hf
    · cases hf
    obtain ⟨⟨hwhole, hholder, hx, hy, hstride, hx', hbase, hfut, hfits, hroom, hcanon⟩, he⟩ := of_ite_some hf
    obtain rfl := Option.some.inj he
    have halign : (BitVec.ofNat 64 (c.g.sreg (sc.toNat + 0)).val.toNat).toNat % 16 = 0 := by
      rw [BitVec.toNat_ofNat]
      omega
    have hfields : (bitsOf (c.g.sreg (sc.toNat + 0)).val.toNat 31 18 == 0 && bitsOf (c.g.sreg (sc.toNat + 1)).val.toNat 31 2 == 0 &&
        (some t).all fun t => decide (4 * t.dim + 4 ≤ t.nstride)) = true := by
      rw [bitsOf_zero_of_lt hx, bitsOf_zero_of_lt hy]
      exact decide_eq_true hstride
    have hinAlloc : inAlloc (s.groupAlloc c.g).2.2 (c.g.sreg (sc.toNat + 0)).val.toNat (80 * (s.core c.k).descent.n) = .ok () := if_pos hroom
    simp only [Coll.whole_ok hwhole, Coll.config_ok hholder hcfg, require_ok hfields, aligned_ok halign, aligned_ok hbase, futAligned,
      aligned_ok hfut, fits_ok hfits, hinAlloc, Coll.holds_ok hholder, canon_ok hcanon, ok_bind]
    rfl

end Sys2Proof.Machine
end

section
/-! The descent engine at work: a level of a descent and a gradient (R186 to R193). -/

namespace Sys2Proof.Machine

/-! ## Loads of states that translate alike -/

namespace State.Sees

variable {s e : State}

theorem loadOne (h : s.Sees e) (c : Nat) (va : Dword) (n : Nat) (acc : Acc) : e.loadOne c va n acc = s.loadOne c va n acc := by
  unfold State.loadOne
  rw [h.key]
  simp only [h.poisoned, State.bytes_congr h.mem]

theorem loadPages (h : s.Sees e) (c fuel : Nat) (va : Dword) (n : Nat) : e.loadPages c fuel va n = s.loadPages c fuel va n := by
  induction fuel generalizing va n with
  | zero => rfl
  | succ fuel ih =>
    unfold State.loadPages
    simp only [h.loadOne, ih]

theorem levelRows (h : s.Sees e) (hscratch : e.scratch = s.scratch) (m : DCmd) (input : OpDesc) (d : Nat) (l : List Row) (i : Nat) :
    e.levelRows m input d i l = s.levelRows m input d i l := by
  have hrow : ∀ i, e.inputRow m.base input m.cfg.dim i = s.inputRow m.base input m.cfg.dim i := fun i => by
    unfold State.inputRow State.elem
    rw [hscratch]
  induction l generalizing i with
  | nil => rfl
  | cons r l ih =>
    unfold State.levelRows
    simp only [h.loadPages, hrow, ih]

end State.Sees

/-! ## A level (R186, R187) -/

/-- The path words of the rows, from index `n` on. -/
theorem get_paths (l : List Word) (n : Nat) (p : SMap Word) (hp : SMap.wf 0 p) (i : Nat) :
    SMap.get 0 ((l.zipIdx n).foldl (fun (p : SMap Word) x => SMap.set 0 p x.2 x.1) p) i =
      if n ≤ i then (l[i - n]?).getD (SMap.get 0 p i) else SMap.get 0 p i := by
  induction l generalizing n p with
  | nil => simp
  | cons w l ih =>
    rw [List.zipIdx_cons, List.foldl_cons, ih (n + 1) _ (SMap.set_wf n w hp), SMap.get_set _ _ _ hp]
    rcases Nat.lt_trichotomy i n with hlt | rfl | hgt
    · rw [if_neg (by omega), if_neg (by omega), if_neg (by omega)]
    · rw [if_neg (by omega), if_pos rfl, if_pos le_rfl, Nat.sub_self]
      rfl
    · rw [if_pos (by omega), if_neg (by omega), if_pos (by omega), show i - n = i - (n + 1) + 1 by omega, List.getElem?_cons_succ]

/-- The path words of the rows in the registers of an engine. -/
def State.putPaths (s : State) (k : Nat) (rows : List Row) : State :=
  s.updDescent k fun d => { d with path := (rows.map (·.path)).zipIdx.foldl (fun (p : SMap Word) x => p.set 0 x.2 x.1) [] }

theorem Core.ne_default_of_cmds {c : Core} (h : c.descent.cmds ≠ []) : c ≠ {} := fun hc => h (by rw [hc])

theorem State.putPaths_path {s : State} {k i : Nat} {rows : List Row} {r : Row} (hcmds : (s.core k).descent.cmds ≠ [])
    (hr : rows[i]? = some r) : ((s.putPaths k rows).core k).descent.path.get 0 i = r.path := by
  have hcore := State.updCore_core (s := s) (k := k) (f := fun x => { x with
    descent := { x.descent with path := (rows.map (·.path)).zipIdx.foldl (fun (p : SMap Word) x => p.set 0 x.2 x.1) [] } })
    (Core.ne_default_of_cmds hcmds) k
  rw [if_pos rfl] at hcore
  rw [show (s.putPaths k rows).core k = _ from hcore]
  refine (get_paths (rows.map (·.path)) 0 [] rfl i).trans ?_
  rw [if_pos (Nat.zero_le i), Nat.sub_zero, List.getElem?_map, hr]
  rfl

theorem State.fillNodes_looked (s : State) (m : DCmd) (rows : List Row) : s.Looked (s.fillNodes m rows) :=
  State.looked_foldl _ (fun s n => s.readFill_looked m.ctx (m.cfg.node n) (biasOff m.cfg.fmt m.cfg.dim + 4) 1) _ s

theorem State.fillNodes_counted (s : State) (m : DCmd) (rows : List Row) : s.Counted (s.fillNodes m rows) :=
  State.counted_foldl _ (fun s n => s.readFill_counted m.ctx (m.cfg.node n) (biasOff m.cfg.fmt m.cfg.dim + 4) 1) _ s

theorem State.countDescent_counted (s : State) (k : Nat) (m : DCmd) (n levels : Nat) : s.Counted (s.countDescent k m n levels) := by
  have hcount : ∀ f, s.Counted (s.stallCycles.2.count m.ctx f) := fun _ => .of_cores rfl
  exact (hcount _).trans (State.tallyCore_counted _ k 0x023 _)

theorem State.countDescent_frame (s : State) (k : Nat) (m : DCmd) (n levels : Nat) :
    (s.countDescent k m n levels).mem = s.mem ∧ (s.countDescent k m n levels).scratch = s.scratch ∧
      (s.countDescent k m n levels).threads = s.threads := by
  unfold State.countDescent
  obtain ⟨home, counts, windowCounts, dieCounters, cores, htally⟩ := (s.stallCycles.2.count m.ctx fun u =>
    { u with debusy := u.debusy + ((n + 15) / 16 * levels * m.cfg.dim / 64 + s.stallCycles.1) }).tallyCore_looked k 0x023
      ((n + 15) / 16 * levels * m.cfg.dim / 64 + s.stallCycles.1)
  dsimp only
  rw [htally]
  exact ⟨rfl, rfl, rfl⟩

/-- A command of an engine is ready once nothing that it reads is still to land. -/
theorem DCmd.ready {m : DCmd} {s : State} {n : Nat} (hfids : m.fids = []) (hready : m.started = true ∨ (m.reads n).any (s.pendingAt m.seq) = false) :
    ¬(m.fids ≠ [] ∨ (!m.started) = true ∧ (m.reads n).any (s.pendingAt m.seq) = true) := by
  rcases hready with h | h <;> simp [hfids, h]

theorem exec_dscLevel {s : State} {die core : Nat} {m : DCmd} {rest : List DCmd} {n : Nat} {input : OpDesc} {out : Nat} {rows : List Row}
    (hcmds : (s.core (coreIdx die core)).descent.cmds = m :: rest) (hop : m.op = .run n input out) (hfids : m.fids = [])
    (hready : m.started = true ∨ (m.reads n).any (s.pendingAt m.seq) = false)
    (hrows : s.levelRows m input m.level 0 (m.rows n (s.core (coreIdx die core)).descent.path) = .ok rows) :
    ∃ e : State, e.mem = s.mem ∧ e.scratch = s.scratch ∧ e.threads = s.threads ∧
      (∀ i r, rows[i]? = some r → (e.core (coreIdx die core)).descent.path.get 0 i = r.path) ∧
      exec (.dscLevel die core) s = .next (if m.level + 1 = m.cfg.depth then e.descentDone die core m out rows
        else e.updDHead (coreIdx die core) fun m =>
          { m with started := true, inLevel := false, level := m.level + 1, node := rows.map (·.node), live := rows.map (·.live) }) := by
  have hlooked := s.fillNodes_looked m (m.rows n (s.core (coreIdx die core)).descent.path)
  have hcounted := s.fillNodes_counted m (m.rows n (s.core (coreIdx die core)).descent.path)
  generalize hold : m.rows n (s.core (coreIdx die core)).descent.path = old at hrows hlooked hcounted
  have hfilled : (s.fillNodes m old).mem = s.mem ∧ (s.fillNodes m old).scratch = s.scratch ∧ (s.fillNodes m old).threads = s.threads := by
    obtain ⟨_, _, _, _, _, h⟩ := hlooked
    rw [h]
    exact ⟨rfl, rfl, rfl⟩
  obtain ⟨hmem, hscratch, hthreads⟩ := hfilled
  obtain ⟨hmem', hscratch', hthreads'⟩ := ((s.fillNodes m old).putPaths (coreIdx die core) rows).countDescent_frame (coreIdx die core) m
    (old.filter (·.live)).length 1
  refine ⟨_, hmem'.trans hmem, hscratch'.trans hscratch, hthreads'.trans hthreads, fun i r hr => ?_, ?_⟩
  · rw [(State.countDescent_counted ..).descent]
    refine State.putPaths_path ?_ hr
    rw [hcounted.descent, hcmds]
    exact List.cons_ne_nil _ _
  · have hrows' : (s.fillNodes m old).levelRows m input m.level 0 old = .ok rows := by
      rw [(State.Sees.of_cached hlooked.cached).levelRows hscratch]
      exact hrows
    show execDscLevel die core s = _
    unfold execDscLevel
    simp only [hcmds, hop, if_neg (DCmd.ready hfids hready), hold, hrows']
    split <;> rfl

/-- A row's step (R187). -/
theorem Row.step_node (r : Row) (d : Nat) (v : Exact) :
    (r.step d v).node = (if v.isNan then r.node else if v.isZero ∨ v.neg then 2 * r.node + 1 else 2 * r.node + 2) ∧
      (r.step d v).live = (r.live && !v.isNan) := by
  unfold Row.step
  by_cases hnan : v.isNan = true
  · simp [hnan]
  · by_cases hleft : (v.isZero : Prop) ∨ v.neg = true
    · simp [hnan, hleft]
    · simp [hnan, hleft]

/-! ## The prism order (R188) -/

/-- Pairs in the order of a prism: by leaf, and by row where the leaves are the same. -/
def prismBefore (x y : Nat × Nat) : Prop := x.1 < y.1 ∨ (x.1 = y.1 ∧ x.2 < y.2)

theorem prismBefore.trans {x y z : Nat × Nat} (h : prismBefore x y) (g : prismBefore y z) : prismBefore x z := by
  unfold prismBefore at *
  omega

theorem mem_insertRow {x y : Nat × Nat} {l : List (Nat × Nat)} : y ∈ insertRow x l ↔ y = x ∨ y ∈ l := by
  induction l with
  | nil => simp [insertRow]
  | cons a l ih =>
    unfold insertRow
    split
    · exact List.mem_cons
    · rw [List.mem_cons, ih, List.mem_cons]
      exact or_left_comm

/-- A row after all others of the list takes its place behind those of its leaf. -/
theorem insertRow_sorted {x : Nat × Nat} {l : List (Nat × Nat)} (hl : l.Pairwise prismBefore) (hx : ∀ y ∈ l, y.2 < x.2) :
    (insertRow x l).Pairwise prismBefore := by
  induction l with
  | nil => exact List.pairwise_singleton ..
  | cons a l ih =>
    obtain ⟨ha, hl'⟩ := List.pairwise_cons.1 hl
    unfold insertRow
    split
    · next hlt =>
      refine List.pairwise_cons.2 ⟨fun y hy => ?_, hl⟩
      rcases List.mem_cons.1 hy with rfl | hy
      · exact .inl hlt
      · exact prismBefore.trans (.inl hlt) (ha y hy)
    · next hge =>
      refine List.pairwise_cons.2 ⟨fun y hy => ?_, ih hl' fun y hy => hx y (.tail _ hy)⟩
      rcases mem_insertRow.1 hy with rfl | hy
      · have hrow := hx a (.head _)
        unfold prismBefore
        omega
      · exact ha y hy

theorem foldl_insertRow_sorted (leaves : List Nat) (n : Nat) (l : List (Nat × Nat)) (hl : l.Pairwise prismBefore)
    (hn : ∀ y ∈ l, y.2 < n) : ((leaves.zipIdx n).foldl (fun l x => insertRow x l) l).Pairwise prismBefore := by
  induction leaves generalizing n l with
  | nil => exact hl
  | cons a leaves ih =>
    rw [List.zipIdx_cons, List.foldl_cons]
    refine ih (n + 1) _ (insertRow_sorted hl hn) fun y hy => ?_
    rcases mem_insertRow.1 hy with rfl | hy
    · exact Nat.lt_succ_self n
    · exact Nat.lt_succ_of_lt (hn y hy)

theorem prism_sorted (leaves : List Nat) : (prism leaves).Pairwise prismBefore :=
  foldl_insertRow_sorted leaves 0 [] .nil (by simp)

/-! ## A gradient (R193) -/

theorem leNat_natLe (n x : Nat) : leNat (natLe n x) = x % 256 ^ n := by
  induction n generalizing x with
  | zero => rw [natLe, leNat, pow_zero, Nat.mod_one]
  | succ n ih => rw [natLe, leNat, ih, BitVec.toNat_ofNat, show 256 ^ (n + 1) = 256 * 256 ^ n from pow_succ' .., Nat.mod_mul] <;> rfl

/-- Rounding to F32 gives 32 bits. -/
theorem convertF32_lt (rnd : Rnd) (sat : Bool) (x : Exact) : (convert .f32 rnd sat false x).1 < 256 ^ 4 := by
  have hsign : ∀ neg code, code ≤ 2 ^ 31 - 1 → (Fmt.float .f32).withSign neg code < 256 ^ 4 := fun neg code h => by
    show (if neg then code + 2 ^ 31 else code) < 256 ^ 4
    split <;> omega
  have hmax : (Fmt.float .f32).maxFinite ≤ 2 ^ 31 - 1 := by decide
  have hinf : (Fmt.float .f32).infinity ≤ 2 ^ 31 - 1 := by decide
  show (roundTo (Fmt.float .f32) rnd sat x).1 < 256 ^ 4
  cases x with
  | nan _ => exact (by decide : (Fmt.float .f32).nanCode < 256 ^ 4)
  | inf n =>
    refine hsign _ _ ?_
    split
    · exact hmax
    · exact hinf
  | fin n m e =>
    unfold roundTo
    dsimp only
    split
    · refine hsign _ _ ?_
      split
      · exact hinf
      · exact hmax
    · next hle => exact hsign _ _ ((Nat.le_of_not_lt hle).trans hmax)

theorem State.num_of_bytes {s e : State} {a n : Nat} (h : ∀ i < n, e.byte (a + i) = s.byte (a + i)) : e.num a n = s.num a n := by
  rw [State.num, State.num]
  congr 1
  refine List.ext_getElem (by rw [State.bytes_length, State.bytes_length]) fun i hi _ => ?_
  rw [State.bytes_length] at hi
  have hbyte := h i hi
  rw [← State.bytes_getD e a hi, ← State.bytes_getD s a hi] at hbyte
  simpa [List.getD_eq_getElem?_getD, State.bytes_length, hi] using hbyte

theorem State.bytes_of_mem {s e : State} {a : Nat} {l : List Byte} (hwf : Memory.wf s.mem) (h : e.mem = putBytes s.mem a l) :
    e.bytes a l.length = l := by
  refine List.ext_getElem (State.bytes_length ..) fun i hi hi' => ?_
  have hbyte := State.bytes_getD e a hi'
  rw [State.byte, h, get_putBytes l a (a + i) hwf, if_pos ⟨Nat.le_add_right .., by omega⟩, Nat.add_sub_cancel_left] at hbyte
  simpa [List.getD_eq_getElem?_getD, State.bytes_length, hi'] using hbyte

/-- An element of a gradient tree added to, and the bits of the sum. -/
def addedBits (x : Nat) (v : Exact) : Nat := (convert .f32 .rn false false (sumExact false [Fmt.f32.dec x, v]).1).1

def State.addElem (c key : Nat) (cell : Nat × Nat × Nat → Exact) (s : State) (y : Nat × Nat × Nat) : State :=
  s.putFor c (key + y.1 % 256) (natLe 4 (addedBits (s.num (key + y.1 % 256) 4) (cell y)))

theorem State.addElem_mem (c key : Nat) (cell : Nat × Nat × Nat → Exact) (s : State) (y : Nat × Nat × Nat) :
    (s.addElem c key cell y).mem = putBytes s.mem (key + y.1 % 256) (natLe 4 (addedBits (s.num (key + y.1 % 256) 4) (cell y))) := rfl

/-- Elements of one sector that do not overlap are added to one after another. -/
theorem State.addElems {c key : Nat} {cell : Nat × Nat × Nat → Exact} (l : List (Nat × Nat × Nat)) (s : State) (hwf : Memory.wf s.mem)
    (hapart : l.Pairwise fun x y => x.1 % 256 + 4 ≤ y.1 % 256 ∨ y.1 % 256 + 4 ≤ x.1 % 256) :
    (∀ y ∈ l, (l.foldl (State.addElem c key cell) s).num (key + y.1 % 256) 4 = addedBits (s.num (key + y.1 % 256) 4) (cell y)) ∧
      (∀ a, (∀ y ∈ l, a < key + y.1 % 256 ∨ key + y.1 % 256 + 4 ≤ a) → (l.foldl (State.addElem c key cell) s).byte a = s.byte a) ∧
      (l.foldl (State.addElem c key cell) s).scratch = s.scratch ∧ (l.foldl (State.addElem c key cell) s).threads = s.threads := by
  induction l generalizing s with
  | nil => exact ⟨fun y hy => absurd hy List.not_mem_nil, fun _ _ => rfl, rfl, rfl⟩
  | cons x l ih =>
    obtain ⟨hx, hl⟩ := List.pairwise_cons.1 hapart
    have hwf' : Memory.wf (s.addElem c key cell x).mem := putBytes_wf _ _ hwf
    obtain ⟨hnum, hbyte, hscratch, hthreads⟩ := ih (s.addElem c key cell x) hwf' hl
    have hone : ∀ a, a < key + x.1 % 256 ∨ key + x.1 % 256 + 4 ≤ a → (s.addElem c key cell x).byte a = s.byte a := by
      intro a ha
      rw [State.byte, State.addElem_mem, get_putBytes _ _ _ hwf, natLe_length, if_neg (by omega)]
      rfl
    rw [List.foldl_cons]
    refine ⟨fun y hy => ?_, fun a ha => ?_, hscratch, hthreads⟩
    · rcases List.mem_cons.1 hy with rfl | hy
      · have hbytes := State.bytes_of_mem hwf (State.addElem_mem c key cell s y)
        rw [natLe_length] at hbytes
        rw [State.num_of_bytes (s := s.addElem c key cell y) fun i hi => hbyte _ fun z hz => by have hz' := hx z hz; omega,
          State.num, hbytes, leNat_natLe]
        exact Nat.mod_eq_of_lt (convertF32_lt ..)
      · rw [hnum y hy, State.num_of_bytes (s := s) fun i hi => hone _ ?_]
        have hy' := hx y hy
        omega
    · rw [hbyte a fun z hz => ha z (.tail _ hz), hone a (ha x (.head _))]

/-- A pass over a list does nothing where all is done. -/
theorem foldl_done {R : Type} {f : R → Nat → R} {done : R → List Nat} (hskip : ∀ r y, y ∈ done r → f r y = r) (l : List Nat) (r : R)
    (hl : ∀ y ∈ l, y ∈ done r) : l.foldl f r = r := by
  induction l with
  | nil => rfl
  | cons a l ih => rw [List.foldl_cons, hskip r a (hl a (.head _)), ih fun y hy => hl y (.tail _ hy)]

/-- A pass over a list that acts on what is not done, where that is one element. -/
theorem foldl_undone {R : Type} {f : R → Nat → R} {done : R → List Nat} (hskip : ∀ r y, y ∈ done r → f r y = r) {x : Nat} (l : List Nat)
    (r : R) (hl : l.filter (fun y => !(done r).contains y) = [x]) (hdone : ∀ y ∈ done r, y ∈ done (f r x)) : l.foldl f r = f r x := by
  induction l with
  | nil => cases hl
  | cons a l ih =>
    rw [List.foldl_cons]
    by_cases ha : a ∈ done r
    · rw [hskip r a ha]
      rw [List.filter_cons, if_neg (by simpa using ha)] at hl
      exact ih hl
    · rw [List.filter_cons, if_pos (by simpa using ha)] at hl
      obtain ⟨rfl, hrest⟩ := List.cons.inj hl
      exact foldl_done hskip l _ fun y hy => hdone y (by simpa using List.filter_eq_nil_iff.1 hrest y hy)

/-- The elements of one sector, each at its own word. -/
theorem elems_apart {elems : List (Nat × Nat × Nat)} (x : Nat) (halign : ∀ y ∈ elems, y.1 % 4 = 0) (hnodup : (elems.map (·.1)).Nodup) :
    (elems.filter fun y => y.1 / 256 == x).Pairwise fun x y => x.1 % 256 + 4 ≤ y.1 % 256 ∨ y.1 % 256 + 4 ≤ x.1 % 256 := by
  have hne : elems.Pairwise fun x y => x.1 ≠ y.1 := List.pairwise_map.1 hnodup
  refine (hne.filter _).imp_of_mem fun {y z} hy hz hyz => ?_
  obtain ⟨hy, hyx⟩ := List.mem_filter.1 hy
  obtain ⟨hz, hzx⟩ := List.mem_filter.1 hz
  have hya := halign y hy
  have hza := halign z hz
  have hyx : y.1 / 256 = x := by simpa using hyx
  have hzx : z.1 / 256 = x := by simpa using hzx
  omega

theorem exec_dscGradRun {s : State} {die core : Nat} {m : DCmd} {rest : List DCmd} {n g x key : Nat} {input : OpDesc} {tree : Dword}
    {terms elems : List (Nat × Nat × Nat)} (hinv : s.Inv) (hcmds : (s.core (coreIdx die core)).descent.cmds = m :: rest)
    (hop : m.op = .grad n input g tree) (hfids : m.fids = [])
    (hready : m.started = true ∨ (m.reads n).any (s.pendingAt m.seq) = false)
    (hterms : gradTerms n (s.core (coreIdx die core)).descent.path = terms)
    (helems : m.gradElems n tree (s.core (coreIdx die core)).descent.path = elems)
    (hleft : ((elems.map (·.1 / 256)).eraseDups.filter fun y => !m.done.contains y) = [x]) (halign : ∀ y ∈ elems, y.1 % 4 = 0)
    (hnodup : (elems.map (·.1)).Nodup) (hkey : s.key m.ctx (BitVec.ofNat 64 (256 * x)) .rmw = .ok key)
    (hpoison : s.poisoned key 256 = false) :
    ∃ e : State, e.scratch = s.scratch ∧ e.threads = s.threads ∧
      (∀ y ∈ elems, y.1 / 256 = x → e.num (key + y.1 % 256) 4 = (convert .f32 .rn false false
        (sumExact false [Fmt.f32.dec (s.num (key + y.1 % 256) 4), s.gradCell m input g terms y.2.1 y.2.2]).1).1) ∧
      (∀ a, (∀ y ∈ elems, y.1 / 256 = x → a < key + y.1 % 256 ∨ key + y.1 % 256 + 4 ≤ a) → e.byte a = s.byte a) ∧
      exec (.dscGradRun die core) s = .next ((((((e.updDescent (coreIdx die core) fun d => { d with cmds := d.cmds.tail }).countDescent
        (coreIdx die core) m n m.cfg.depth).fulfil m.ctx m.fut 1 (BitVec.ofNat 32 ((terms.map (·.1)).eraseDups).length) 0 4 die core
          m.taskHandle).sweepAllocs (coreIdx die core))).endAdoptions) := by
  have hlooked := s.lookUp_looked m.ctx (BitVec.ofNat 64 (256 * x))
  have hsees : s.Sees (s.lookUp m.ctx (BitVec.ofNat 64 (256 * x))) := .of_cached hlooked.cached
  have hsame : (s.lookUp m.ctx (BitVec.ofNat 64 (256 * x))).scratch = s.scratch ∧
      (s.lookUp m.ctx (BitVec.ofNat 64 (256 * x))).threads = s.threads := by
    obtain ⟨_, _, _, _, _, h⟩ := hlooked
    rw [h]
    exact ⟨rfl, rfl⟩
  obtain ⟨hnum, hbyte, hscratch, hthreads⟩ := State.addElems (c := m.ctx) (key := key)
    (cell := fun e => s.gradCell m input g terms e.2.1 e.2.2) (elems.filter fun y => y.1 / 256 == x)
    (s.lookUp m.ctx (BitVec.ofNat 64 (256 * x))) (by rw [hsees.mem]; exact hinv.1) (elems_apart x halign hnodup)
  refine ⟨_, hscratch.trans hsame.1, hthreads.trans hsame.2, fun y hy hyx => ?_, fun a ha => ?_, ?_⟩
  · rw [hnum y (List.mem_filter.2 ⟨hy, by simpa using hyx⟩), hsees.num]
    rfl
  · rw [hbyte a fun y hy => ?_, State.byte, hsees.mem, State.byte]
    obtain ⟨hy, hyx⟩ := List.mem_filter.1 hy
    exact ha y hy (by simpa using hyx)
  · show execDscGradRun die core s = _
    unfold execDscGradRun
    simp only [hcmds, hop, if_neg (DCmd.ready hfids hready), hterms, helems]
    have hkey' := (hsees.key m.ctx (BitVec.ofNat 64 (256 * x)) .rmw).trans hkey
    have hpoison' := (hsees.poisoned key 256).trans hpoison
    have hx : ¬((none : Option Failure).isSome = true ∨ m.done.contains x = true) := by
      have hmem : x ∈ (elems.map (·.1 / 256)).eraseDups.filter fun y => !m.done.contains y := by rw [hleft]; exact .head _
      simpa using (List.mem_filter.1 hmem).2
    rw [foldl_undone (done := DrainRun.done) (x := x) _ _ _ hleft]
    · simp only [if_neg hx, hkey', hpoison', Bool.false_eq_true, if_false]
      rfl
    · intro y hy
      simp only [if_neg hx, hkey', hpoison', Bool.false_eq_true, if_false]
      exact List.mem_append_left _ hy
    · exact fun r y hy => if_pos (.inr (by simpa using hy))

/-- Settles O24: the engine's commands join its order; a level sends each live row to a child, and a gradient adds to each element of its
sector once. -/
theorem descentResults : Obligations.DescentResults := by
  unfold Obligations.DescentResults
  refine ⟨⟨collects_dscCfg, State.readFill_frame, fun x t => parseTree_fields, collects_dscRun, collects_dscPath, collects_dscGrad⟩,
    fun s die core m rest n input out rows _ => exec_dscLevel, Row.step_node, prism_sorted, ?_⟩
  intro s die core m rest n input g tree x key hinv hcmds hop hfids hready terms elems
  exact exec_dscGradRun hinv hcmds hop hfids hready rfl rfl

end Sys2Proof.Machine
end

section
/-! The refinement controller: its instructions, its loop, its actions and its test (R194 to R200, R338, R339). -/

namespace Sys2Proof.Machine

/-! ## Instructions (R338, R339) -/

theorem exec_rfbStart (h : Hdr) (a c : GReg) (s : State) : exec (.rfbStart h a c) s = execRfbStart h a c s := rfl
theorem exec_rfbStat (h : Hdr) (d a : GReg) (s : State) : exec (.rfbStat h d a) s = execRfbStat h d a s := rfl
theorem exec_rfbAbort (h : Hdr) (pd : PReg) (a : GReg) (s : State) : exec (.rfbAbort h pd a) s = execRfbAbort h pd a s := rfl

theorem State.initFuture_tasks {s e : State} {c : Nat} {fut : Dword} (h : s.initFuture c fut = .ok e) : e.tasks = s.tasks := by
  unfold State.initFuture at h
  split at h
  · rw [Except.ok.inj h]
  · obtain ⟨key, -, he⟩ := map_eq_ok h
    rw [← he]
    obtain ⟨_, _, _, _, _, hlooked⟩ := s.lookUp_looked c fut
    rw [State.putFuture, State.putMem_tasks, hlooked]

theorem State.taskHandle_of_tasks {s e : State} (h : e.tasks = s.tasks) (t : Thread) : e.taskHandle t = s.taskHandle t := by
  unfold State.taskHandle State.task?
  rw [h]

theorem collects_rfbStart (h : Hdr) (a c : GReg) : Collects (.rfbStart h a c) fun x s =>
    match s.initFuture x.g.ctx (x.pair c) with
    | .ok e =>
      onlyIf (x.isWhole && decide ((x.pair a).toNat % 256 = 0) && decide ((x.pair c).toNat % 16 = 0))
        (e.addRfb x.g.die x.g.ctx ((x.firstActive.map (·.prio)).getD 0) (x.pair a) (x.pair c)
          ((x.firstActive.map e.taskHandle).getD noOwner) none)
    | .error _ => none :=
  runColl_collects (h := h) rfl (exec_rfbStart h a c) fun x s e hf => by
    dsimp only at hf ⊢
    rcases hinit : s.initFuture x.g.ctx (x.pair c) with _ | m <;> rw [hinit] at hf
    · cases hf
    obtain ⟨hok, rfl⟩ := of_onlyIf hf
    simp only [Bool.and_eq_true, decide_eq_true_eq] at hok
    obtain ⟨⟨hwhole, haddr⟩, hfut⟩ := hok
    rw [show m.taskHandle = s.taskHandle from funext (State.taskHandle_of_tasks (State.initFuture_tasks hinit))]
    simp only [Coll.whole_ok hwhole, aligned_ok haddr, futAligned, aligned_ok hfut, ok_bind]
    rfl

/-- The view of a block (R339). -/
theorem rfbView_eq (x : Option Rfb) : rfbView x = match x with
    | none => [2, 0, 0, 0]
    | some b => [if b.phase = RfbPhase.waiting then 0 else 1, BitVec.ofNat 32 (b.rung + 256 * b.rungAt.2.2), BitVec.ofNat 32 b.j,
        BitVec.ofNat 32 b.total] := by
  cases x <;> rfl

/-- What RFB.STAT does. -/
def Coll.statRfb (c : Coll) (s : State) (d a : GReg) : State :=
  s.updRanks c.active fun _ t => t.putSpan d.toNat ((rfbView (s.rfbAt c.g.die c.g.ctx (c.pair a))).map fun w => { val := w, tag := .i32 })

theorem collects_rfbStat (h : Hdr) (d a : GReg) : Collects (.rfbStat h d a) fun c s =>
    onlyIf (c.isWhole && canonical (c.pair a)) (c.statRfb s d a) := by
  refine runColl_collects (h := h) rfl (exec_rfbStat h d a) fun c s e hf => ?_
  obtain ⟨hok, rfl⟩ := of_onlyIf hf
  obtain ⟨hwhole, hcanon⟩ := Bool.and_eq_true_iff.1 hok
  simp only [Coll.whole_ok hwhole, canon_ok hcanon, ok_bind]
  rfl

theorem collects_rfbAbort (h : Hdr) (pd : PReg) (a : GReg) : Collects (.rfbAbort h pd a) fun c s =>
    match s.rfbAt c.g.die c.g.ctx (c.pair a) with
    | none => onlyIf (c.isWhole && canonical (c.pair a)) (s.updRanks c.active fun _ t => t.setPred pd false)
    | some b => onlyIf (c.isWhole && canonical (c.pair a)) ((s.stopRfb c.g.die b).updRanks c.active fun _ t => t.setPred pd true) :=
  runColl_collects (h := h) rfl (exec_rfbAbort h pd a) fun c s e hf => by
    rcases hat : s.rfbAt c.g.die c.g.ctx (c.pair a) with _ | b <;> rw [hat] at hf
    all_goals
      obtain ⟨hok, rfl⟩ := of_onlyIf hf
      obtain ⟨hwhole, hcanon⟩ := Bool.and_eq_true_iff.1 hok
      simp only [Coll.whole_ok hwhole, canon_ok hcanon, ok_bind]
      rfl

/-! ## The loop (R194, R197) -/

theorem exec_rfbBlockStart {s : State} {die : Nat} {b : Rfb} (hb : ((s.die die).rfbs.find? fun b => b.phase == RfbPhase.waiting) = some b)
    (hroom : ((s.die die).rfbs.filter fun b => b.phase != RfbPhase.waiting).length < 16) :
    exec (.rfbBlockStart die) s = .next ((s.putRfb die { b with phase := .read }).driveRfb die b.id 9) := by
  show execRfbBlockStart die s = _
  simp only [execRfbBlockStart, hb]
  exact if_neg (Nat.not_le.2 hroom)

theorem exec_rfbBlockStart_idle {s : State} {die : Nat} (h : ((s.die die).rfbs.find? fun b => b.phase == RfbPhase.waiting) = none ∨
    16 ≤ ((s.die die).rfbs.filter fun b => b.phase != RfbPhase.waiting).length) : exec (.rfbBlockStart die) s = .next s := by
  show execRfbBlockStart die s = _
  rcases hb : (s.die die).rfbs.find? fun b => b.phase == RfbPhase.waiting with _ | b
  · simp only [execRfbBlockStart, hb]
  · rw [hb] at h
    simp only [execRfbBlockStart, hb, if_pos (h.resolve_left nofun)]

theorem State.driveRfb_none {s : State} {die id : Nat} (n : Nat) (h : ((s.die die).rfbs.find? fun b => b.id == id) = none) :
    s.driveRfb die id (n + 1) = s := by
  rw [State.driveRfb, h]

theorem State.driveRfb_some {s : State} {die id : Nat} {b : Rfb} (n : Nat) (h : ((s.die die).rfbs.find? fun b => b.id == id) = some b) :
    s.driveRfb die id (n + 1) = if (((s.actRfb die b).die die).rfbs.find? fun b => b.id == id) = some b then s.actRfb die b
      else (s.actRfb die b).driveRfb die id n := by
  rw [State.driveRfb, h]

/-! ## Aborts (R200) -/

theorem State.actRfb_abort {s : State} {die : Nat} {b : Rfb} (h : b.abort = true)
    (hended : b.phase ≠ .run ∨ ∃ v, b.ended = some v ∧ b.fid = none) : s.actRfb die b = s.endRfb die b 3 5 0 := by
  unfold State.actRfb
  by_cases hrun : b.phase = .run
  · obtain ⟨v, hv, hfid⟩ := hended.resolve_left (fun hne => hne hrun)
    simp only [h, hrun, hfid, hv, ne_eq, not_true_eq_false, and_false, if_false, Option.isSome_none, Bool.false_eq_true, if_true]
    rfl
  · rw [if_pos ⟨h, hrun⟩]
    rfl

theorem State.stopRfb_idle {s : State} {die : Nat} {b : Rfb} (h : b.phase ≠ .run) :
    s.stopRfb die b = (s.putRfb die { b with abort := true }).driveRfb die b.id 1 := if_neg h

theorem State.stopRfb_running {s : State} {die : Nat} {b : Rfb} (h : b.phase = .run)
    (hrec : (s.putRfb die { b with abort := true }).findRecord b.ctx b.rec_ = none) :
    s.stopRfb die b = s.putRfb die { b with abort := true } := by
  rw [State.stopRfb]
  simp only [if_pos h, hrec]

theorem State.stopRfb_placed {s : State} {die : Nat} {b : Rfb} {p : RecPlace} {r : QRec} (h : b.phase = .run)
    (hrec : (s.putRfb die { b with abort := true }).findRecord b.ctx b.rec_ = some (p, r)) (hr : r.rfb = some b.id) :
    s.stopRfb die b = ((s.putRfb die { b with abort := true }).setRecord p b.ctx b.rec_ fun _ => none).endRfb die b 3 5 0 := by
  rw [State.stopRfb]
  simp only [if_pos h, hrec, if_pos hr]
  rfl

/-! ## One action (R195 to R198) -/

section
variable {s : State} {die : Nat} {b : Rfb} (hfid : b.fid = none) (habort : b.abort = false)
include hfid habort

theorem State.actRfb_waits (h : b.phase = .waiting ∨ (b.phase = .run ∧ b.ended = none)) : s.actRfb die b = s := by
  unfold State.actRfb
  rcases h with h | ⟨h, he⟩
  · simp [h, hfid, habort]
  · simp [h, he, hfid, habort]

theorem State.actRfb_read (h : b.phase = .read) : s.actRfb die b = s.readRfb die b := by
  unfold State.actRfb
  simp [h, hfid, habort]

theorem State.actRfb_place (h : b.phase = .place) : s.actRfb die b = s.placeStep die b := by
  unfold State.actRfb
  simp [h, hfid, habort]

theorem State.actRfb_zero {e : State} (h : b.phase = .zero) (hstore : s.store b.ctx b.status (natLe 64 0) = .ok e) :
    s.actRfb die b = e.putRfb die { b with phase := .place, step := if b.rungAt.2.1 = 0 then .resid else .refactor } := by
  unfold State.actRfb
  simp only [h, hfid, habort, Bool.false_eq_true, false_and, if_false, Option.isSome_none, State.writeStatus, hstore]
  split <;> rfl

theorem State.actRfb_run {v : Dword} (h : b.phase = .run) (hended : b.ended = some (v, none)) :
    s.actRfb die b = s.putRfb die (b.afterTask v) := by
  unfold State.actRfb
  simp [h, hfid, habort, hended]

theorem State.actRfb_faulted {v : Dword} {hd : Word} {c : BitVec 8} (h : b.phase = .run) (hended : b.ended = some (v, some (hd, c))) :
    s.actRfb die b = s.putRfb die { b with
      phase := .write, fault := joinWords hd (c.setWidth 32), outcome := some (2, 1, BitVec.ofNat 32 (c.toNat + 256 * b.rung)) } := by
  have hstopped : s.actRfb die b = s.putRfb die (b.stopped hd c 1 (BitVec.ofNat 32 (c.toNat + 256 * b.rung))) := by
    unfold State.actRfb
    simp [h, hfid, habort, hended]
  exact hstopped

theorem State.actRfb_write {e : State} (h : b.phase = .write) (hstore : s.store b.ctx b.status (b.record s.time) = .ok e) :
    (∀ st w0 w1, b.outcome = some (st, w0, w1) → s.actRfb die b = e.endRfb die b st w0 w1) ∧
      (b.outcome = none → s.actRfb die b = e.putRfb die b.afterWrite) := by
  unfold State.actRfb
  simp only [h, hfid, habort, Bool.false_eq_true, false_and, if_false, Option.isSome_none, State.writeStatus, hstore]
  exact ⟨fun st w0 w1 hout => by rw [hout], fun hout => by rw [hout]⟩

end

/-! ## The read of the block, and the step's task (R195, R196, R461) -/

theorem State.Sees.load {s e : State} (h : s.Sees e) (c : Nat) (va : Dword) (n : Nat) : e.load c va n = s.load c va n := by
  unfold State.load
  simp only [h.loadOne]

theorem State.Sees.loadNat {s e : State} (h : s.Sees e) (c : Nat) (va : Dword) (n : Nat) : e.loadNat c va n = s.loadNat c va n := by
  rw [State.loadNat, State.loadNat, h.load]

theorem State.readFill_sees (s : State) (c : Nat) (va : Dword) (n : Nat) : s.Sees (s.readFill c va n) :=
  .of_cached (s.readFill_looked c va n 1).cached

theorem State.readFill_time (s : State) (c : Nat) (va : Dword) (n : Nat) : (s.readFill c va n).time = s.time := by
  obtain ⟨_, _, _, _, _, h⟩ := s.readFill_looked c va n 1
  rw [h]

theorem State.readFill_dies (s : State) (c : Nat) (va : Dword) (n : Nat) : (s.readFill c va n).dies = s.dies := by
  obtain ⟨_, _, _, _, _, h⟩ := s.readFill_looked c va n 1
  rw [h]

/-- A block that is read, at an aligned address. -/
theorem State.readRfb_eq {s : State} {die x : Nat} {b : Rfb} (haddr : b.addr.toNat % 256 = 0) (hread : s.loadNat b.ctx b.addr 256 = .ok x) :
    s.readRfb die b =
      if rfbFieldsOk x = false then (s.readFill b.ctx b.addr 256).failRfb die b { cause := 2, addr := b.addr } 0
      else if x / 2 ^ 576 % 64 ≠ 0 then (s.readFill b.ctx b.addr 256).failRfb die b { cause := 4, addr := b.addr } 0
      else (s.readFill b.ctx b.addr 256).putRfb die (b.fill x s.time) := by
  have hstatus : bitsOf x 639 576 % 64 = x / 2 ^ 576 % 64 := by
    show x / 2 ^ 576 % 2 ^ 64 % 64 = x / 2 ^ 576 % 64
    omega
  unfold State.readRfb
  simp only [if_pos haddr, (State.readFill_sees ..).loadNat, hread, hstatus, State.readFill_time, Bool.not_eq_true']
  rfl

/-- A step with a header that launches a gang stops the block (R196). -/
theorem State.placeStep_gang {s : State} {die : Nat} {b : Rfb} {h : KHdr} (hhdr : s.stepHdr b = .ok (some h)) (hgang : h.gang = true) :
    s.placeStep die b = (s.readFill b.ctx (b.entry - 64) 64).putRfb die
      { b with phase := .write, fault := 0x2FFFFFFFF, outcome := some (2, 2, BitVec.ofNat 32 (256 * b.rung)) } := by
  have hhdr' : (s.readFill b.ctx (b.entry - 64) 64).stepHdr b = .ok (some h) := by
    rw [← hhdr, State.stepHdr, State.stepHdr, State.readHdr, State.readHdr, (State.readFill_sees ..).loadNat]
  unfold State.placeStep
  simp only [hhdr', hgang, if_true]
  rfl

theorem State.firstHeld_of_none {s : State} {die : Nat} {b : Rfb} (h : b.heldRec = none) : s.firstHeld die b = true := by
  unfold State.firstHeld
  rw [List.all_eq_true]
  intro x _
  rw [h]
  cases x.heldRec <;> simp

/-- A step's task that has room is placed (R196). -/
theorem State.placeStep_placed {s e : State} {die : Nat} {b : Rfb} {h : KHdr} {p : RecPlace} (hhdr : s.stepHdr b = .ok (some h))
    (hgang : h.gang = false) (hheld : b.heldRec = none) (hnone : s.holdsRec die b.ctx = false)
    (hplace : ((s.readFill b.ctx (b.entry - 64) 64).freshRecord b.ctx).2.placeLaunch
      (b.task ((s.readFill b.ctx (b.entry - 64) 64).freshRecord b.ctx).1 h) (some die) = some (e, p)) :
    s.placeStep die b = e.putRfb die
      { b with phase := .run, rec_ := ((s.readFill b.ctx (b.entry - 64) 64).freshRecord b.ctx).1, ended := none } := by
  have hhdr' : (s.readFill b.ctx (b.entry - 64) 64).stepHdr b = .ok (some h) := by
    rw [← hhdr, State.stepHdr, State.stepHdr, State.readHdr, State.readHdr, (State.readFill_sees ..).loadNat]
  have hnone' : ((s.readFill b.ctx (b.entry - 64) 64).freshRecord b.ctx).2.holdsRec die b.ctx = false := by
    rw [← hnone, State.holdsRec, State.holdsRec, State.die, State.die]
    congr 3
    exact State.readFill_dies ..
  unfold State.placeStep
  simp only [hhdr', hgang, Bool.false_eq_true, if_false, hnone', State.placeRec, State.firstHeld_of_none hheld, if_true, hplace]
  congr 1
  cases b
  cases hheld
  rfl

/-! ## The end of a block (R195, R199) -/

theorem State.endRfb_plain {s : State} {die st : Nat} {b : Rfb} {w0 w1 : Word} (hlaunch : b.launch = none) (hlost : b.lost = none) :
    s.endRfb die b st w0 w1 = (s.updRfbs die fun l => l.filter (·.id != b.id)).fulfil b.ctx b.fut st w0 w1 7 die 0 b.taskHandle := by
  unfold State.endRfb State.rfbLost
  rw [hlost, hlaunch] <;> rfl

theorem State.failRfb_plain {s : State} {die c : Nat} {b : Rfb} (hlaunch : b.launch = none) (hlost : b.lost = none) (hfut : b.fut ≠ 0)
    (hc : c ≠ 0x11) : s.failRfb die b { cause := c, addr := b.addr } 0 =
      (s.updRfbs die fun l => l.filter (·.id != b.id)).fulfil b.ctx b.fut 2 (BitVec.ofNat 32 c) 0 7 die 0 b.taskHandle := by
  have hcause : c ≠ cUncorrectable.toNat := hc
  unfold State.failRfb State.rfbLost State.commandFails State.poisonCheck
  simp only [hlost, hlaunch, hfut, hcause, ne_eq, not_false_eq_true, if_true, if_false, Bool.false_eq_true]
  rfl

/-! ## The record (R198) -/

theorem leNat_append (l r : List Byte) : leNat (l ++ r) = leNat l + 256 ^ l.length * leNat r := by
  induction l with
  | nil => simp [leNat]
  | cons b l ih => rw [List.cons_append, leNat, leNat, ih, List.length_cons, pow_succ']; ring

theorem Rfb.record_fields (b : Rfb) (now : Dword) : leNat (b.record now) = b.exit % 2 ^ 32 + b.rung % 2 ^ 8 * 2 ^ 32 +
    b.rungAt.2.2 % 2 ^ 8 * 2 ^ 40 + b.run % 2 ^ 16 * 2 ^ 48 + b.j % 2 ^ 32 * 2 ^ 64 + b.total % 2 ^ 32 * 2 ^ 96 + b.n.toNat * 2 ^ 128 +
    b.nprev.toNat * 2 ^ 192 + b.tstart.toNat * 2 ^ 256 + (if b.outcome.isSome then now.toNat else 0) * 2 ^ 320 + b.fault.toNat * 2 ^ 384 := by
  have hword : ∀ x : Dword, x.toNat % 256 ^ 8 = x.toNat := fun x => Nat.mod_eq_of_lt x.isLt
  have htime : (if b.outcome.isSome then now.toNat else 0) % 256 ^ 8 = if b.outcome.isSome then now.toNat else 0 := by
    split
    · exact hword now
    · rfl
  unfold Rfb.record
  simp only [leNat_append, leNat_natLe, natLe_length, List.length_append, hword, htime]
  rw [show 2 ^ 320 = 2 ^ 160 * 2 ^ 160 by rw [← pow_add], show 2 ^ 384 = 2 ^ 192 * 2 ^ 192 by rw [← pow_add]]
  ring_nf

/-! ## After a task (R197) -/

theorem Rfb.afterTask_refactor {b : Rfb} {v : Dword} (h : b.step = .refactor) :
    (b.rung = 0 → b.afterTask v = { b with phase := .place, step := .resid }) ∧
      (b.rung ≠ 0 → b.afterTask v = { b with phase := .place, step := .solve, j := 1, run := 0, total := b.total + 1 }) := by
  unfold Rfb.afterTask
  rw [h]
  exact ⟨fun h => if_pos h, fun h => if_neg h⟩

/-- The test changes nothing but the stagnation run. -/
theorem Rfb.test_run (b : Rfb) : ∃ run, b.test.2 = { b with run } := by
  unfold Rfb.test
  dsimp only
  split_ifs
  all_goals exact ⟨_, rfl⟩

/-- A block with its stagnation run counted by the ratio of its norms (R197). -/
def Rfb.ratioed (b : Rfb) : Rfb := { b with run := if exceeds (f64Div b.n b.nprev) (f64 b.rstag) then b.run + 1 else 0 }

/-- The test of a norm that is a number (R197). -/
theorem Rfb.test_finite {b : Rfb} (hnan : (f64 b.n).isNan = false) (hinf : (f64 b.n).isInf = false) :
    b.test =
      if exceeds (f64 b.n) (f64Mul b.tol b.bnorm) = false then (1, b)
      else if b.j = 0 then (0, b)
      else if exceeds (f64Div b.n b.nprev) (f64 b.rdiv) = true then (3, b)
      else if b.ratioed.run = b.stagcnt then (2, b.ratioed)
      else if b.j = b.iterlim then (5, b.ratioed)
      else (0, b.ratioed) := by
  unfold Rfb.test
  simp only [hnan, hinf, Bool.false_eq_true, or_self, if_false, Bool.not_eq_true']
  rfl

theorem Rfb.test_cases (b : Rfb) :
    let n := f64 b.n
    let q := f64Div b.n b.nprev
    let x : Rfb := { b with run := if exceeds q (f64 b.rstag) then b.run + 1 else 0 }
    (n.isNan = true ∨ n.isInf = true → b.test = (3, b)) ∧
    (n.isNan = false → n.isInf = false → (exceeds n (f64Mul b.tol b.bnorm) = false → b.test = (1, b)) ∧
      (exceeds n (f64Mul b.tol b.bnorm) = true → (b.j = 0 → b.test = (0, b)) ∧
        (b.j ≠ 0 → (exceeds q (f64 b.rdiv) = true → b.test = (3, b)) ∧
          (exceeds q (f64 b.rdiv) = false → (x.run = b.stagcnt → b.test = (2, x)) ∧
            (x.run ≠ b.stagcnt → b.j = b.iterlim → b.test = (5, x)) ∧
            (x.run ≠ b.stagcnt → b.j ≠ b.iterlim → b.test = (0, x)))))) := by
  refine ⟨fun h => ?_, fun hnan hinf => ?_⟩
  · rw [Rfb.test]
    exact if_pos h
  · rw [Rfb.test_finite hnan hinf, ← Rfb.ratioed]
    refine ⟨fun h => if_pos h, fun h => ?_⟩
    rw [if_neg fun hle => Bool.noConfusion (h.symm.trans hle)]
    refine ⟨fun h => if_pos h, fun h => ?_⟩
    rw [if_neg h]
    refine ⟨fun h => if_pos h, fun h => ?_⟩
    rw [if_neg (Bool.eq_false_iff.1 h)]
    refine ⟨fun h => if_pos h, fun h => ?_, fun h => ?_⟩
    · rw [if_neg h]
      exact fun hj => if_pos hj
    · rw [if_neg h]
      exact fun hj => if_neg hj

/-- What follows the test (R197, R199). -/
theorem Rfb.judge_cases (b : Rfb) :
    let e := b.test.1
    let x := b.test.2
    let escalates := (e = 2 ∧ b.stagact = false) ∨ (e = 3 ∧ b.divact = false);
    (e = 0 → b.judge = { x with phase := .write }) ∧
    (escalates → b.rung + 1 ≠ b.rungs → b.judge = { x with phase := .write, escalate := true }) ∧
    (escalates → b.rung + 1 = b.rungs → b.judge = x.finish 4) ∧ (e ≠ 0 → ¬escalates → b.judge = x.finish e) := by
  obtain ⟨run, hrun⟩ := b.test_run
  have hstag : b.test.2.stagact = b.stagact := by rw [hrun]
  have hdiv : b.test.2.divact = b.divact := by rw [hrun]
  have hrung : b.test.2.rung = b.rung := by rw [hrun]
  have hrungs : b.test.2.rungs = b.rungs := by rw [hrun]
  have hjudge : b.judge =
      if (b.test.1 = 2 ∧ b.stagact = false) ∨ (b.test.1 = 3 ∧ b.divact = false) then
        if b.rung + 1 = b.rungs then b.test.2.finish 4 else { b.test.2 with phase := .write, escalate := true }
      else if b.test.1 ≠ 0 then b.test.2.finish b.test.1
      else { b.test.2 with phase := .write } := by
    unfold Rfb.judge
    simp only [hstag, hdiv, hrung, hrungs, Bool.not_eq_true']
  intro e x escalates
  rw [hjudge]
  refine ⟨fun h => ?_, fun h hr => ?_, fun h hr => ?_, fun h hn => ?_⟩
  · have hn : ¬escalates := by
      rintro (⟨he, -⟩ | ⟨he, -⟩) <;> omega
    rw [if_neg hn, if_neg (not_not.2 h)]
  · rw [if_pos h, if_neg hr]
  · rw [if_pos h, if_pos hr]
  · rw [if_neg hn, if_pos h]

theorem Rfb.finish_cases (b : Rfb) (e : Nat) :
    let traps := (e = 2 ∧ b.stagact = true) ∨ (e = 3 ∧ b.divact = true) ∨ (e = 4 ∧ b.traplad = true) ∨ (e = 5 ∧ b.traplim = true);
    (traps → b.finish e = { b with
      exit := e, phase := .write, outcome := some (2, BitVec.ofNat 32 (0x12 + 256 * e), BitVec.ofNat 32 b.rung) }) ∧
    (¬traps → b.finish e = { b with
      exit := e, phase := .write, outcome := some (1, BitVec.ofNat 32 e, BitVec.ofNat 32 b.rung) }) := by
  intro traps
  have htraps : ((e == 2 && b.stagact) || (e == 3 && b.divact) || (e == 4 && b.traplad) || (e == 5 && b.traplim)) = true ↔ traps := by
    simp only [Bool.or_eq_true, Bool.and_eq_true, beq_iff_eq, or_assoc, traps]
  unfold Rfb.finish
  dsimp only
  refine ⟨fun h => ?_, fun h => ?_⟩
  · rw [if_pos (htraps.2 h)]
  · rw [if_neg fun hb => h (htraps.1 hb)]

theorem Rfb.afterWrite_cases (b : Rfb) :
    let x : Rfb := { b with escalate := false, rung := b.rung + 1 }
    (b.escalate = false → b.afterWrite = { b with phase := .place, step := .solve, j := b.j + 1, total := b.total + 1 }) ∧
    (b.escalate = true → x.rungAt.2.1 ≠ 0 → b.afterWrite = { x with phase := .place, step := .refactor }) ∧
    (b.escalate = true → x.rungAt.2.1 = 0 → b.afterWrite =
      { x with phase := .place, step := .solve, j := 1, run := 0, total := b.total + 1 }) := by
  intro x
  unfold Rfb.afterWrite
  refine ⟨fun h => ?_, fun h hr => ?_, fun h hr => ?_⟩
  · exact if_neg (by rw [h]; exact Bool.false_ne_true)
  · rw [if_pos h]
    exact if_neg hr
  · rw [if_pos h]
    exact if_pos hr

/-- A block at the end of its controller's order (R194). -/
theorem State.addRfb_die {s : State} (die ctx prio : Nat) (addr fut : Dword) (handle : Word) (l : Option (Nat × Nat)) (hwf : SMap.wf {} s.dies) :
    (s.addRfb die ctx prio addr fut handle l).die die = { s.die die with
      rfbs := (s.die die).rfbs ++ [{ id := s.nextId, addr, ctx, prio, fut, taskHandle := handle, launch := l }] } := by
  refine (SMap.get_set die die _ hwf).trans ?_
  rw [if_pos rfl]
  rfl

/-- Settles O25: the controller's loop goes on while its action changes the block, and each phase has one action. -/
theorem refineResults : Obligations.RefineResults := by
  unfold Obligations.RefineResults
  refine ⟨collects_rfbStart, fun h d a => (collects_rfbStat h d a).congr fun c s => ?_, collects_rfbAbort,
    fun s die b => exec_rfbBlockStart, fun s die => exec_rfbBlockStart_idle, fun s die id => rfl,
    fun s die id => ⟨rfl, fun n => ⟨State.driveRfb_none n, fun b hb => ?_⟩⟩,
    fun s die b => State.actRfb_abort, fun s die b => ⟨State.stopRfb_idle, State.stopRfb_running, fun p r => State.stopRfb_placed⟩,
    ?_, fun s die b st w0 w1 => State.endRfb_plain, fun s die b c => State.failRfb_plain, Rfb.record_fields, ?_, Rfb.test_cases,
    Rfb.judge_cases, Rfb.finish_cases, Rfb.afterWrite_cases, fun s => State.addRfb_die⟩
  · rw [Coll.statRfb, rfbView_eq] <;> rfl
  · rw [State.driveRfb_some n hb]
    exact ⟨fun h => if_pos h, fun h => if_neg h⟩
  · intro s die b hfid habort
    refine ⟨State.actRfb_waits hfid habort, fun x hphase haddr hread => ?_, fun e => State.actRfb_zero hfid habort, fun h hphase hhdr => ?_,
      fun v => State.actRfb_run hfid habort, fun v hd c => State.actRfb_faulted hfid habort, fun e hphase hstore => ?_⟩
    · rw [State.actRfb_read hfid habort hphase, State.readRfb_eq haddr hread]
      refine ⟨fun h => if_pos h, fun h hs => ?_, fun h hs => ?_⟩
      · rw [if_neg (fun hf => Bool.noConfusion (h.symm.trans hf)), if_pos hs]
      · rw [if_neg (fun hf => Bool.noConfusion (h.symm.trans hf)), if_neg (not_not.2 hs)]
    · rw [State.actRfb_place hfid habort hphase]
      exact ⟨State.placeStep_gang hhdr, fun e p hgang hheld hnone => State.placeStep_placed hhdr hgang hheld hnone⟩
    · exact State.actRfb_write hfid habort hphase hstore
  · intro b v
    refine ⟨fun h => (Rfb.afterTask_refactor h).1, fun h => (Rfb.afterTask_refactor h).2, fun h => ?_, fun h => ?_⟩
    · rw [Rfb.afterTask, h]
    · rw [Rfb.afterTask, h]

end Sys2Proof.Machine
end

section
/-! RMA.PUT of poisoned bytes (R340, R432). -/

namespace Sys2Proof.Machine

/-- The descriptor of 8 bytes from the address 0x1000 to the remote window at 2^32. -/
def lostDescriptor : List Byte := natLe 8 0x1000 ++ natLe 8 0x100000000 ++ natLe 8 8

/-- An RMA.PUT of thread 0 with the descriptor at address 0: its address comes from registers that hold 0. -/
def lostPut : Instr := .rmaPut alwaysHdr true 8 0

/-- A thread of core 0 whose bytes to send are poisoned, with a remote window in its TLB, on a core with a counter of issued
instructions. -/
def lostSource : State :=
  ({ State.reset.placeWord 0 with
    cur := .thread 0, beamRest := [], threads := [placedThread], poison := [16]
    tlb := [{ unit := 0, ctx := 0, va := 0x100000000, size := 4096, leaf := 0x7F }] } : State).updCore 0
      fun c => { c with perf := [(0, { ctrl := 0x80000004 })] }

/-- The same with the descriptor in memory. -/
def lostState : State := { lostSource with mem := putBytes lostSource.mem 0 lostDescriptor }

/-- What RMA.PUT does in a thread. -/
def putEffect (t : Thread) (s : State) : Option State := okOf (s.rma t true (t.pair 8) 0 0)

/-- The context of a poisoned read ends, and its thread with it. -/
theorem lost_effect : ((lostState.landed lostPut [0]).each putEffect (lostState.acting lostPut [0])).map
    (fun e => ((e.thread? 0).isNone, e.coreCounts)) = some (true, [0]) := by decide +kernel

/-- The core counts the instruction that it issues. -/
theorem lost_exec : nextIs State.coreCounts (exec lostPut lostState) = some [1] := by decide +kernel

theorem State.tallyIssue_absent {s : State} {tid : Nat} (h : s.thread? tid = none) : s.tallyIssue [tid] = s := by
  simp only [State.tallyIssue, List.head?_cons, Option.bind_some, h, Option.bind_none]

/-- Refutes O26: RMA.PUT of bytes that are poisoned ends the context of its own thread (R432) in the step that issues it; the core
counts the instruction all the same (R452), where the statement, whose thread is gone, counts nothing. -/
theorem not_remoteAccessResults : ¬ Obligations.RemoteAccessResults := by
  rintro ⟨hput, -⟩
  obtain ⟨e, he, hlost⟩ := Option.map_eq_some_iff.1 lost_effect
  obtain ⟨hgone, hcounts⟩ := Prod.mk.inj hlost
  have hdoes := hput alwaysHdr true 8 0 (lostPut, true) (.head _)
  obtain ⟨s', hs', hretires, -⟩ := hdoes lostState [0] (by decide +kernel) e he
  rw [State.tallyIssue_absent (Option.isNone_iff_eq_none.1 hgone)] at hretires
  have hexec := lost_exec
  rw [hs'] at hexec
  have hsame : s'.coreCounts = e.coreCounts := by rw [hretires]; rfl
  have hone : s'.coreCounts = [1] := Option.some.inj hexec
  rw [hsame, hcounts] at hone
  exact absurd hone (by decide)

end Sys2Proof.Machine
end

section
/-! The words of queue programs (R406, R407). -/

namespace Sys2Proof.Machine

/-! ## The queue processor's own registers -/

/-- A word that changes the queue's own registers, run by the processor of `q`. -/
theorem runQueue_of_cur {s : State} {q : Nat} (h : s.cur = .queue q) (f : Queue → Queue) : runQueue s f = .next (s.updQueue q f) := by
  rw [runQueue, onQueue, h]

theorem onQueue_of_cur {s : State} {q : Nat} (h : s.cur = .queue q) (f : Nat → Queue → State) : onQueue s f = .next (f q (s.queue q)) := by
  rw [onQueue, h]

theorem Queue.reg_eq (x : Queue) (a : BitVec 4) : x.reg a = x.x.getD a.toNat 0 := by
  rw [Queue.reg, List.getD_eq_getElem?_getD]

/-- A skip on a condition. -/
theorem Queue.skip_eq (x : Queue) (k : BitVec 16) (c : Bool) (p : Prop) [Decidable p] (h : c = true ↔ p) :
    x.skip k c = { x with pc := x.pc + 1 + if p then k.toNat else 0 } := by
  unfold Queue.skip
  by_cases hp : p
  · rw [if_pos hp, if_pos (h.2 hp)]
  · rw [if_neg hp, if_neg fun hc => hp (h.1 hc)]

theorem Queue.endLoop_eq (x : Queue) : x.endLoop = match x.loops with
    | (first, n) :: l => if 1 < n then { x with pc := first, loops := (first, n - 1) :: l } else { x with pc := x.pc + 1, loops := l }
    | [] => { x with pc := x.pc + 1 } := by
  unfold Queue.endLoop
  rcases x.loops with _ | ⟨⟨first, n⟩, l⟩ <;> rfl

/-! ## LDW and STW (R406, R407) -/

theorem exec_qpLdw {s : State} {q : Nat} {w : BitVec 3} {b a : BitVec 4} {va : Dword} {l : List Byte} (hcur : s.cur = .queue q)
    (hwindow : (s.queue q).window w ((s.queue q).reg b) = some va) (hread : s.loadOne (s.queue q).ctx va 8 .read = .ok l) :
    exec (.qpLdw w b a) s = .next (s.updQueue q fun x => { x with x := x.x.set a.toNat (BitVec.ofNat 64 (leNat l)), pc := x.pc + 1 }) := by
  show execQpLdw w b a s = _
  rw [execQpLdw, onQueue_of_cur hcur]
  simp only [hwindow, hread]
  rfl

theorem exec_qpStw {s e : State} {q : Nat} {w : BitVec 3} {b a : BitVec 4} {va : Dword} (hcur : s.cur = .queue q)
    (hwindow : (s.queue q).window w ((s.queue q).reg b) = some va)
    (hstore : s.store (s.queue q).ctx va (natLe 8 ((s.queue q).reg a).toNat) = .ok e) :
    exec (.qpStw w b a) s = .next (e.updQueue q fun x => { x with pc := x.pc + 1 }) := by
  show execQpStw w b a s = _
  rw [execQpStw, onQueue_of_cur hcur]
  simp only [hwindow, hstore]

theorem exec_outside {s : State} {q : Nat} {w : BitVec 3} {b a : BitVec 4} (hcur : s.cur = .queue q)
    (hwindow : (s.queue q).window w ((s.queue q).reg b) = none) :
    exec (.qpLdw w b a) s = .next (s.rejectPacket q 3 none) ∧ exec (.qpStw w b a) s = .next (s.rejectPacket q 3 none) := by
  refine ⟨?_, ?_⟩
  · show execQpLdw w b a s = _
    rw [execQpLdw, onQueue_of_cur hcur]
    simp only [hwindow]
  · show execQpStw w b a s = _
    rw [execQpStw, onQueue_of_cur hcur]
    simp only [hwindow]

theorem Queue.window_eq {x : Queue} {p : Prog} {w : BitVec 3} {off base : Dword} {len : Nat} {z : Bool} (himage : x.image = some p)
    (hw : p.windows[w.toNat]? = some (base, len, z)) :
    x.window w off = if off.toNat % 8 = 0 ∧ off.toNat + 8 ≤ len then some (base + off) else none := by
  simp only [Queue.window, himage, Option.bind_some, hw]

/-- Settles O31: each word changes its queue's own registers, and LDW and STW access a dword of a window. -/
theorem queueWordResults : Obligations.QueueWordResults := by
  unfold Obligations.QueueWordResults
  refine ⟨fun s q hcur => ⟨fun i imm n k a b => ?_, ?_, ?_⟩, fun s q w b a va l => exec_qpLdw, fun s q w b a va e => exec_qpStw,
    fun x p w off base len z => Queue.window_eq, fun s q w b a => exec_outside⟩
  · intro put at' p hp
    have hreg : ∀ x r, at' x r = x.reg r := fun x r => (x.reg_eq r).symm
    have hput : ∀ v x, put v x = x.setReg a v := fun _ _ => rfl
    simp only [hreg, hput, List.mem_cons, List.not_mem_nil, or_false] at hp
    have hrun : ∀ f, runQueue s f = .next (s.updQueue q f) := runQueue_of_cur hcur
    rcases hp with rfl | rfl | rfl | rfl | rfl | rfl | rfl | rfl | rfl | rfl | rfl | rfl
    · exact hrun _
    · exact hrun _
    · exact hrun _
    · exact hrun _
    · exact hrun _
    · exact hrun _
    · exact hrun _
    · exact (hrun _).trans (by simp only [Queue.skip_eq _ _ _ _ beq_iff_eq])
    · exact (hrun _).trans (by simp only [Queue.skip_eq _ _ _ _ bne_iff_ne])
    · exact (hrun _).trans (by simp only [Queue.skip_eq _ _ _ _ decide_eq_true_iff])
    · exact hrun _
    · exact hrun _
  · exact (runQueue_of_cur hcur _).trans (congrArg (fun f => Host.Outcome.next (s.updQueue q f)) (funext Queue.endLoop_eq))
  · show execQpEnd s = _
    rw [execQpEnd, onQueue_of_cur hcur]

end Sys2Proof.Machine
end

section
/-! The actions of queue programs (R407, R461). -/

namespace Sys2Proof.Machine

/-! ## What an action comes to -/

section
variable {s e : State} {q : Nat} {f : Nat → Queue → Action} (hcur : s.cur = .queue q)
include hcur

/-- An action that is done: the queue goes on. -/
theorem onAction_done (hf : f q (s.queue q) = .done e) : onAction s f = .next (e.updQueue q fun x => { x with pc := x.pc + 1 }) := by
  rw [onAction, onQueue_of_cur hcur, hf]

/-- An action that blocks its queue. -/
theorem onAction_block {b : QBlock} (hf : f q (s.queue q) = .block b e) :
    onAction s f = .next (e.updQueue q fun x => { x with state := .blocked, block := some b }) := by
  rw [onAction, onQueue_of_cur hcur, hf]

end

theorem exec_actNop {s : State} {q : Nat} (hcur : s.cur = .queue q) :
    exec .actNop s = .next (s.updQueue q fun x => { x with pc := x.pc + 1 }) := by
  show execActNop s = _
  exact onAction_done hcur rfl

theorem exec_actLaunch {s e : State} {q : Nat} (hcur : s.cur = .queue q) (h : s.launch q (s.queue q) = .done e) :
    exec .actLaunch s = .next (e.updQueue q fun x => { x with pc := x.pc + 1 }) := by
  show execActLaunch s = _
  exact onAction_done hcur h

theorem exec_actSignal {s : State} {q key : Nat} (hcur : s.cur = .queue q) (halign : ((s.queue q).stage 0).toNat % 8 = 0)
    (hkey : s.key (s.queue q).ctx ((s.queue q).stage 0) .rmw = .ok key) (hpoison : s.poisoned key 8 = false) :
    exec .actSignal s = .next ((s.putFor (s.queue q).ctx key (natLe 8
      (if ((s.queue q).stage 2).getLsbD 0 then BitVec.ofNat 64 (s.num key 8) + (s.queue q).stage 1 else (s.queue q).stage 1).toNat)).updQueue q
        fun x => { x with pc := x.pc + 1 }) := by
  show execActSignal s = _
  refine onAction_done hcur ?_
  dsimp only
  rw [if_neg (not_not.2 halign), hkey]
  dsimp only
  rw [hpoison]
  exact if_neg Bool.false_ne_true

theorem exec_actWaitsig {s : State} {q key : Nat} (hcur : s.cur = .queue q) (halign : ((s.queue q).stage 0).toNat % 8 = 0)
    (hcond : ((s.queue q).stage 2).toNat % 4 ≠ 3) (hat : s.locate (s.queue q).ctx ((s.queue q).stage 0) .read true = .ok (.mem key))
    (hpoison : s.poisoned key 8 = false) :
    exec .actWaitsig s = .next (
      if sigHolds (((s.queue q).stage 2).toNat % 4) (BitVec.ofNat 64 (s.num key 8)) ((s.queue q).stage 1) then
        s.updQueue q fun x => { x with pc := x.pc + 1 }
      else s.updQueue q fun x => { x with
        state := .blocked
        block := some (.signal ((s.queue q).stage 0) ((s.queue q).stage 1) (((s.queue q).stage 2).toNat % 4)) }) := by
  show execActWaitsig s = _
  by_cases hholds : sigHolds (((s.queue q).stage 2).toNat % 4) (BitVec.ofNat 64 (s.num key 8)) ((s.queue q).stage 1) = true
  · rw [if_pos hholds]
    refine onAction_done hcur ?_
    simp only [if_neg (not_not.2 halign), if_neg hcond, hat, hpoison, Bool.false_eq_true, if_false, if_pos hholds]
  · rw [if_neg hholds]
    refine onAction_block hcur ?_
    simp only [if_neg (not_not.2 halign), if_neg hcond, hat, hpoison, Bool.false_eq_true, if_false, if_neg hholds]

theorem exec_actWaitsig_remote {s : State} {q node exp off : Nat} (hcur : s.cur = .queue q) (halign : ((s.queue q).stage 0).toNat % 8 = 0)
    (hcond : ((s.queue q).stage 2).toNat % 4 ≠ 3)
    (hat : s.locate (s.queue q).ctx ((s.queue q).stage 0) .read true = .ok (.remote node exp off)) :
    exec .actWaitsig s = .next ((s.sendFor (s.queue q).ctx node (.signal exp off (s.queue q).ctx q ((s.queue q).stage 1)
      (((s.queue q).stage 2).toNat % 4) false)).updQueue q fun x => { x with
        state := .blocked, block := some (.remoteSignal node exp off ((s.queue q).stage 1) (((s.queue q).stage 2).toNat % 4)) }) := by
  show execActWaitsig s = _
  refine onAction_block hcur ?_
  simp only [if_neg (not_not.2 halign), if_neg hcond, hat]

theorem exec_actCopy {s e : State} {q : Nat} {d : CopyDesc} (hcur : s.cur = .queue q) (hcopy : s.queueCopy (s.queue q) = .ok (d, e)) :
    exec .actCopy s = .next (((e.trackFuture q (s.queue q).ctx ((s.queue q).stage 1)).addCopy
      { id := 0, seq := 0, ctx := (s.queue q).ctx, die := (s.queue q).die, unit := 0, desc := d, fut := (s.queue q).stage 1
        launch := if (s.queue q).stage 1 = 0 then some (q, (s.queue q).serial) else none }).updQueue q fun x => { x with pc := x.pc + 1 }) := by
  show execActCopy s = _
  refine onAction_done hcur ?_
  simp only [hcopy]

theorem exec_actRfb {s e : State} {q : Nat} (hcur : s.cur = .queue q) (haddr : ((s.queue q).stage 0).toNat % 256 = 0)
    (hfut : ((s.queue q).stage 1).toNat % 16 = 0) (hinit : s.initFuture (s.queue q).ctx ((s.queue q).stage 1) = .ok e) :
    exec .actRfb s = .next (((e.trackFuture q (s.queue q).ctx ((s.queue q).stage 1)).addRfb (s.queue q).die (s.queue q).ctx (s.queue q).prio
      ((s.queue q).stage 0) ((s.queue q).stage 1) noOwner (if (s.queue q).stage 1 = 0 then some (q, (s.queue q).serial) else none)).updQueue q
        fun x => { x with pc := x.pc + 1 }) := by
  show execActRfb s = _
  refine onAction_done hcur ?_
  have hchecks : s.queueRfb (s.queue q) = .ok e := by
    simp only [State.queueRfb, aligned_ok haddr, futAligned, aligned_ok hfut, ok_bind, hinit]
  simp only [hchecks]

theorem exec_actChain {s : State} {q : Nat} (hcur : s.cur = .queue q) :
    exec .actChain s = .next (
      if ((s.queue q).stage 0).toNat / 2 ^ 32 % 65536 = 0xFFFF then
        (if ((s.queue (((s.queue q).stage 0).toNat % 65536)).ccount - ((s.queue q).stage 1).setWidth 32).toNat < 2 ^ 31 then
          s.updQueue q fun x => { x with pc := x.pc + 1 }
        else s.updQueue q fun x => { x with
          state := .blocked, block := some (.chain (((s.queue q).stage 0).toNat % 65536) (((s.queue q).stage 1).setWidth 32)) })
      else (s.sendFor (s.queue q).ctx (((s.queue q).stage 0).toNat / 2 ^ 32 % 65536) (.chainReg (((s.queue q).stage 0).toNat % 65536) q
        (((s.queue q).stage 1).setWidth 32))).updQueue q fun x => { x with
          state := .blocked
          block := some (.remoteChain (((s.queue q).stage 0).toNat / 2 ^ 32 % 65536) (((s.queue q).stage 0).toNat % 65536)
            (((s.queue q).stage 1).setWidth 32)) }) := by
  show execActChain s = _
  by_cases hnode : ((s.queue q).stage 0).toNat / 2 ^ 32 % 65536 = 0xFFFF
  · rw [if_pos hnode]
    by_cases hholds : ((s.queue (((s.queue q).stage 0).toNat % 65536)).ccount - ((s.queue q).stage 1).setWidth 32).toNat < 2 ^ 31
    · rw [if_pos hholds]
      refine onAction_done hcur ?_
      dsimp only
      rw [if_pos hnode]
      exact if_pos (decide_eq_true hholds)
    · rw [if_neg hholds]
      refine onAction_block hcur ?_
      dsimp only
      rw [if_pos hnode]
      exact if_neg fun h => hholds (of_decide_eq_true h)
  · rw [if_neg hnode]
    refine onAction_block hcur ?_
    dsimp only
    exact if_neg hnode

/-! ## LAUNCH (R56, R407, R461) -/

theorem launchRecord_single {x : Queue} {num raw : Nat} {h : KHdr} {tracked : Option (Nat × Nat)} (hfut : raw / 2 ^ 192 % 2 ^ 64 = 0)
    (hkind : raw / 2 ^ 59 % 4 = 0) (hcount : raw / 2 ^ 320 % 2 ^ 32 ≠ 0) (hgang : h.gang = false) :
    launchRecord x num raw h tracked = some
      { num, ctx := x.ctx, kind := .single, prio := x.prio, entry := (BitVec.ofNat 57 raw).signExtend 64
        args := (List.range 4).map fun i => BitVec.ofNat 32 (raw / 2 ^ (64 + 32 * i)), fut := 0
        baseIdx := BitVec.ofNat 64 (raw / 2 ^ 256), count := raw / 2 ^ 320 % 2 ^ 32, hdr := h, stop := 1, launch := tracked } := by
  have hfut' : bitsOf raw 255 192 = 0 := by rw [bitsOf]; exact hfut
  have hkind' : bitsOf raw 60 59 = 0 := by rw [bitsOf]; exact hkind
  have hcount' : bitsOf raw 351 320 = raw / 2 ^ 320 % 2 ^ 32 := by rw [bitsOf]
  have hbase : BitVec.ofNat 64 (bitsOf raw 319 256) = BitVec.ofNat 64 (raw / 2 ^ 256) := by
    refine BitVec.eq_of_toNat_eq ?_
    rw [BitVec.toNat_ofNat, BitVec.toNat_ofNat, bitsOf, Nat.mod_mod]
  unfold launchRecord
  rw [hfut', hkind', hcount', hbase, hgang]
  generalize raw / 2 ^ 320 % 2 ^ 32 = count at hcount ⊢
  rw [if_neg (by simp [hcount])]
  rfl

theorem State.addSet_plain {s : State} {r : QRec} (h : r.kind ≠ .range) : s.addSet r = (r, s) := if_neg h

theorem State.launch_single {s e : State} {q : Nat} {x : Queue} {h : KHdr} {p : RecPlace} {raw : Nat}
    (hraw : ((List.range 8).map fun i => (x.stage i).toNat * 2 ^ (64 * i)).sum = raw)
    (hfut : raw / 2 ^ 192 % 2 ^ 64 = 0) (hkind : raw / 2 ^ 59 % 4 = 0) (hcount : raw / 2 ^ 320 % 2 ^ 32 ≠ 0)
    (halign : ((BitVec.ofNat 57 raw).signExtend 64).toNat % 8 = 0)
    (hhdr : s.readHdr x.ctx ((BitVec.ofNat 57 raw).signExtend 64) = .ok (some h)) (hgang : h.gang = false)
    (hplace : (((s.updCtx x.ctx fun c => { c with nextRec := (c.nextRec + 1) % 2 ^ 21 }).packetWork q none).placeLaunch
      { num := ((s.ctx? x.ctx).map (·.nextRec)).getD 0, ctx := x.ctx, kind := .single, prio := x.prio
        entry := (BitVec.ofNat 57 raw).signExtend 64
        args := (List.range 4).map fun i => BitVec.ofNat 32 (raw / 2 ^ (64 + 32 * i)), fut := 0
        baseIdx := BitVec.ofNat 64 (raw / 2 ^ 256), count := raw / 2 ^ 320 % 2 ^ 32, hdr := h, stop := 1
        launch := some (q, x.serial) } none) = some (e, p)) :
    s.launch q x = .done e := by
  have hzero : BitVec.ofNat 64 (bitsOf raw 255 192) = 0 := by
    rw [show bitsOf raw 255 192 = 0 by rw [bitsOf]; exact hfut]
    rfl
  unfold State.launch
  rw [hraw]
  simp only [hzero]
  rw [if_neg (by simp [halign]), hhdr]
  simp only [launchRecord_single hfut hkind hcount hgang, if_true]
  rw [State.addSet_plain (by exact nofun), show s.freshRecord x.ctx = (((s.ctx? x.ctx).map (·.nextRec)).getD 0,
    s.updCtx x.ctx fun c => { c with nextRec := (c.nextRec + 1) % 2 ^ 21 }) from rfl]
  simp only [hplace]

/-- Settles O32: each action goes on or blocks its queue, by what it comes to. -/
theorem queueActionResults : Obligations.QueueActionResults := by
  unfold Obligations.QueueActionResults
  refine ⟨?_, ?_⟩
  · intro goesOn blocks s q hcur x
    refine ⟨exec_actNop hcur, fun e => exec_actLaunch hcur, fun key => exec_actSignal hcur, fun key => exec_actWaitsig hcur,
      fun node exp off => exec_actWaitsig_remote hcur, fun d e => exec_actCopy hcur, fun e => exec_actRfb hcur, exec_actChain hcur,
      fun cur val => ⟨rfl, rfl, rfl⟩⟩
  · intro s q x h r e p raw entry hfut hkind hcount halign hhdr hgang hr hplace
    subst hr
    exact State.launch_single rfl hfut hkind hcount halign hhdr hgang hplace

end Sys2Proof.Machine
end

section
/-! The registers of queues, the reading of packets, and what blocked queues wait for (R401, R402, R405, R407 to R411). -/

namespace Sys2Proof.Machine

/-! ## The registers (R401, R402, R410, R411) -/

section
variable {s : State} {func q : Nat} (hreach : s.reaches func q = true)
include hreach

theorem exec_queueEnable (henable : (s.queue q).enable = false) (hready : s.queueReady (s.queue q) = true) :
    exec (.queueEnable func q) s = .next (s.updQueue q fun x =>
      { x with
        enable := true, rdidx := 0, kickv := 0, ccount := 0, state := .idle, x := List.replicate 16 0
        image := if x.prog = 0 then none else (s.ctx? x.ctx).bind fun c => c.progs.find? (·.num == x.prog) }) := by
  show execQueueEnable func q s = _
  simp only [execQueueEnable, hreach, henable, hready, Bool.not_true, Bool.or_self, Bool.false_eq_true, if_false, if_true]

theorem exec_queueEnable_refused (henable : (s.queue q).enable = false) (hready : s.queueReady (s.queue q) = false) :
    exec (.queueEnable func q) s = .next (s.updQueue q fun x => { x with fcode := 1 }) := by
  show execQueueEnable func q s = _
  simp only [execQueueEnable, hreach, henable, hready, Bool.not_true, Bool.or_self, Bool.false_eq_true, if_false]

theorem exec_queueDisable (henable : (s.queue q).enable = true) : exec (.queueDisable func q) s = .next (s.updQueue q Queue.destroy) := by
  show execQueueDisable func q s = _
  simp only [execQueueDisable, hreach, henable, Bool.and_self, if_true]

theorem exec_queueResume (hstate : (s.queue q).state = .faulted) :
    exec (.queueResume func q) s = .next (s.updQueue q fun x => { x with state := .idle }) := by
  show execQueueResume func q s = _
  simp only [execQueueResume, hreach, hstate, beq_self_eq_true, Bool.and_self, if_true]

theorem exec_kick (val : Dword) : exec (.kick func q val) s = .next (s.kick q (val.setWidth 32)) := by
  show execKick func q val s = _
  rw [execKick, if_pos hreach]
  rfl

end

theorem exec_queue_unreached {s : State} {func q : Nat} (h : s.reaches func q = false) :
    ∀ i ∈ [Instr.queueEnable func q, .queueDisable func q, .queueResume func q, .kick func q 0], exec i s = .next s := by
  intro i hi
  simp only [List.mem_cons, List.not_mem_nil, or_false] at hi
  rcases hi with rfl | rfl | rfl | rfl
  · show execQueueEnable func q s = _
    simp only [execQueueEnable, h, Bool.not_false, Bool.true_or, if_true]
  · show execQueueDisable func q s = _
    simp only [execQueueDisable, h, Bool.false_and, Bool.false_eq_true, if_false]
  · show execQueueResume func q s = _
    simp only [execQueueResume, h, Bool.false_and, Bool.false_eq_true, if_false]
  · show execKick func q 0 s = _
    rw [execKick, h] <;> rfl

/-! ## Loads of a context whose record changes (R420) -/

theorem State.walk_congr {s e : State} (hmem : e.mem = s.mem) (hpoison : e.poison = s.poison) (va : Nat) (l : List Nat) (table level : Nat) :
    e.walk va table level l = s.walk va table level l := by
  have hnum : ∀ key n, e.num key n = s.num key n := fun key n => by rw [State.num, State.num, State.bytes_congr hmem]
  have hpoisoned : ∀ key n, e.poisoned key n = s.poisoned key n := fun key n => by rw [State.poisoned, State.poisoned, hpoison]
  induction l generalizing table level with
  | nil => rfl
  | cons sh l ih =>
    rw [State.walk, State.walk]
    simp only [hnum, hpoisoned, ih]

theorem State.updCtx_ctx? {s : State} {c : Nat} {f : Ctx → Ctx} {x : Ctx} (h : s.ctx? c = some x) (d : Nat) :
    (s.updCtx c f).ctx? d = if d = c then some (f x) else s.ctx? d := by
  have hget : (s.ctxs.get none c).map f = some (f x) := congrArg (Option.map f) h
  have hne : (s.ctxs.get none c).map f ≠ none := by rw [hget]; exact nofun
  refine (SMap.get_set_of_ne (v := (s.ctxs.get none c).map f) hne s.ctxs c d).trans ?_
  rw [hget]
  rfl

/-- An address that is not mapped has no key. -/
theorem State.key_of_invalid {s : State} {c : Nat} {va : Dword} (h : s.leaf c va = .invalid) (acc : Acc) (key : Nat) :
    s.key c va acc ≠ .ok key := by
  unfold State.key State.locate
  rw [h]
  by_cases hcanon : (!canonical va) = true
  · rw [if_pos hcanon]
    exact nofun
  · rw [if_neg hcanon]
    by_cases hrecov : ((s.ctx? c).any (·.recov)) = true
    · rw [if_pos hrecov]
      exact nofun
    · rw [if_neg hrecov]
      exact nofun

/-- What a mapped address leads to depends on its leaf alone. -/
theorem State.key_of_leaf {s e : State} {c : Nat} {va : Dword} (h : e.leaf c va = s.leaf c va) (hne : s.leaf c va ≠ .invalid) (acc : Acc) :
    e.key c va acc = s.key c va acc := by
  unfold State.key State.locate
  rw [h]
  cases hleaf : s.leaf c va with
  | invalid => exact absurd hleaf hne
  | poison | denied | malformed | leaf => rfl

/-- A context's translations do not depend on the rest of its record: one that leads somewhere leads there still. -/
theorem State.key_updCtx {s : State} {c key : Nat} {f : Ctx → Ctx} (hf : ∀ x, (f x).ptroot = x.ptroot) {va : Dword} {acc : Acc}
    (h : s.key c va acc = .ok key) : (s.updCtx c f).key c va acc = .ok key := by
  have hne : s.leaf c va ≠ .invalid := fun hinvalid => State.key_of_invalid hinvalid acc key h
  rw [← h]
  refine State.key_of_leaf ?_ hne acc
  unfold State.leaf at hne ⊢
  rw [show (s.updCtx c f).tlbFind (s.updCtx c f).tlbUnits c va = s.tlbFind s.tlbUnits c va from rfl]
  rcases hfind : s.tlbFind s.tlbUnits c va with _ | t
  · rw [hfind] at hne
    rcases hx : s.ctx? c with _ | x
    · exact absurd (by rw [State.walkNow, hx]) hne
    · show (s.updCtx c f).walkNow c va = s.walkNow c va
      rw [State.walkNow, State.walkNow, State.updCtx_ctx? hx, if_pos rfl, hx]
      dsimp only
      rw [hf]
      exact State.walk_congr rfl rfl ..
  · rfl

theorem State.loadOne_updCtx {s : State} {c n : Nat} {f : Ctx → Ctx} (hf : ∀ x, (f x).ptroot = x.ptroot) {va : Dword} {acc : Acc}
    {l : List Byte} (h : s.loadOne c va n acc = .ok l) : (s.updCtx c f).loadOne c va n acc = .ok l := by
  unfold State.loadOne at h ⊢
  rcases hkey : s.key c va acc with _ | key <;> rw [hkey] at h
  · cases h
  · rw [State.key_updCtx hf hkey, ← h]
    dsimp only
    rw [State.bytes_congr (s := s) (e := s.updCtx c f) rfl]
    rfl

/-! ## The reading of a packet (R402, R405, R408) -/

theorem exec_packetRead {s : State} {q : Nat} {l : List Byte} (hready : s.boot.state = .ready) (henable : (s.queue q).enable = true)
    (hidle : (s.queue q).state = .idle) (hpending : (s.queue q).rdidx ≠ (s.queue q).kickv) (hfree : s.ctxBusy (s.queue q).ctx = false)
    (hnext : s.nextQueue (s.queue q).ctx = some q) (hroom : ((s.queue q).kickv - (s.queue q).rdidx).toNat ≤ 2 ^ (s.queue q).log2size)
    (hread : s.loadOne (s.queue q).ctx ((s.queue q).ringbase + BitVec.ofNat 64 (64 * ((s.queue q).rdidx.toNat % 2 ^ (s.queue q).log2size)))
      64 .read = .ok l) :
    exec (.packetRead q) s = .next (((s.updCtx (s.queue q).ctx fun c => { c with lastQueue := c.lastQueue.set (s.queue q).prio q }).tallyIo
      0 q 0x201 (some (s.queue q).ctx)).startPacket q ((List.range 8).map fun i => BitVec.ofNat 64 (leNat l / 2 ^ (64 * i)))) := by
  have hturn : s.boot.state = .ready ∧ (s.queue q).pending = true ∧ (!s.ctxBusy (s.queue q).ctx) = true ∧
      s.nextQueue (s.queue q).ctx = some q := by
    refine ⟨hready, ?_, by rw [hfree]; rfl, hnext⟩
    simp [Queue.pending, henable, hidle, hpending]
  show execPacketRead q s = _
  simp only [execPacketRead, if_pos hturn, State.readPacket, if_neg (Nat.not_lt.2 hroom),
    State.loadOne_updCtx (f := fun c => { c with lastQueue := c.lastQueue.set (s.queue q).prio q }) (fun _ => rfl) hread]

theorem State.updQueue_queue {s : State} {q : Nat} {f : Queue → Queue} (hwf : SMap.wf {} s.queues) (k : Nat) :
    (s.updQueue q f).queue k = if k = q then f (s.queue q) else s.queue k := SMap.get_set q k _ hwf

theorem State.startPacket_queue {s : State} {q : Nat} {l : List Dword} {p : Prog} (hwf : SMap.wf {} s.queues)
    (himage : (s.queue q).image = some p) :
    let y := (s.startPacket q l).queue q
    y.state = .running ∧ y.packet = l ∧ y.pc = 0 ∧ y.rdidx = (s.queue q).rdidx + 1 ∧ y.staging = List.replicate 16 0 ∧
      y.x = List.replicate 12 0 ++ (s.queue q).x.drop 12 := by
  unfold State.startPacket
  simp only [State.updQueue_queue hwf, if_true, himage, Option.isSome_some, and_self]

/-! ## Blocked queues and host waiters (R407, R409) -/

theorem exec_waitsigSatisfied {s : State} {q cond key : Nat} {va val : Dword} (hblock : (s.queue q).block = some (.signal va val cond))
    (hkey : s.key (s.queue q).ctx va .read = .ok key) (hpoison : s.poisoned key 8 = false)
    (hholds : sigHolds cond (BitVec.ofNat 64 (s.num key 8)) val = true) :
    exec (.waitsigSatisfied q) s = .next (s.updQueue q fun x => { x with state := .running, block := none, pc := x.pc + 1 }) := by
  show execWaitsigSatisfied q s = _
  simp only [execWaitsigSatisfied, hblock, hkey, hpoison, hholds, Bool.false_eq_true, if_false, if_true]

theorem exec_chainSatisfied {s : State} {q target : Nat} {count : Word} (hblock : (s.queue q).block = some (.chain target count))
    (hholds : ((s.queue target).ccount - count).toNat < 2 ^ 31) :
    exec (.chainSatisfied q) s = .next (s.updQueue q fun x => { x with state := .running, block := none, pc := x.pc + 1 }) := by
  show execChainSatisfied q s = _
  simp only [execChainSatisfied, hblock, chainHolds, hholds, decide_true, if_true]

theorem exec_sigwaitArm {s : State} {func idx key : Nat} {e : SigWait} (he : (s.func func).sigs.get ({} : SigWait) idx = e) (hidx : idx < 256)
    (hfunc : func < 128) (hready : s.boot.state = .ready) (hcond : e.cond ≠ 3) (halign : e.addr.toNat % 8 = 0)
    (hat : s.locate e.ctx e.addr .read true = .ok (.mem key)) (hkey : key < Config.deviceBytes) :
    exec (.sigwaitArm func idx) s = .next ((s.updFunc func fun f =>
      { f with sigs := f.sigs.set {} idx { e with armed := true, home := key } }).testSig func idx) := by
  have hok : ¬(256 ≤ idx ∨ 128 ≤ func ∨ s.boot.state ≠ .ready ∨ e.cond = 3 ∨ e.addr.toNat % 8 ≠ 0) := by
    simp [hready, hcond, halign]
    omega
  show execSigwaitArm func idx s = _
  simp only [execSigwaitArm, he, if_neg hok, hat, if_pos hkey]

/-- Settles O33: a register of a queue acts where its function reaches it, and a packet is read in its queue's turn. -/
theorem queueRegisterAndEventResults : Obligations.QueueRegisterAndEventResults := by
  unfold Obligations.QueueRegisterAndEventResults
  refine ⟨⟨fun s func q => exec_queueEnable, fun s func q => exec_queueEnable_refused, fun s func q => exec_queueDisable,
    fun s func q => exec_queueResume, fun s func q val hreach => exec_kick hreach val, fun s func q => exec_queue_unreached⟩,
    fun s q l => exec_packetRead, fun s q l p => State.startPacket_queue, fun s q va val cond key => exec_waitsigSatisfied,
    fun s q target count => exec_chainSatisfied, fun s func idx key => exec_sigwaitArm rfl⟩

end Sys2Proof.Machine
end

section
/-! Parked threads that go on, and the admission, the stealing and the saving of tasks (R47, R57 to R61, R68, R69, R80, R429, R431). -/

namespace Sys2Proof.Machine

/-! ## Parked threads (R47, R69, R80) -/

theorem State.updThread_released (s : State) (j : Nat) (done : Bool) :
    (s.updThread j fun t => { t with status := .parked (.unit done) }).updThreads [j] Thread.released =
      s.updThread j fun t => { t with status := .ready, pc := if done then t.pc + 8 else t.pc } := by
  have hmap : ∀ l : List Thread,
      (l.map fun t : Thread => if t.tid = j then { t with status := .parked (.unit done) } else t).map
          (fun t => if [j].contains t.tid then t.released else t) =
        l.map fun t => if t.tid = j then { t with status := .ready, pc := if done then t.pc + 8 else t.pc } else t := by
    intro l
    rw [List.map_map]
    refine List.map_congr_left fun t _ => ?_
    by_cases h : t.tid = j
    · simp [h, Thread.released]
    · simp [h]
  exact congrArg (fun l => { s with threads := l }) (hmap s.threads)

theorem State.condDone_free {s : State} {j : Nat} {t : Thread} {done : Bool} (ht : s.thread? j = some t) (hm : t.member = none) :
    s.condDone j done =
      (s.updThread j fun t => { t with status := .ready, pc := if done then t.pc + 8 else t.pc }).refreshAge [j] := by
  have hmet : ((s.updThread j fun t => { t with status := .parked (.unit done) }).thread? j).all (·.met) = true := by
    rw [State.thread?_updThread, ht]
    · simp [Thread.met]
    · exact fun _ _ => rfl
  simp only [State.condDone, ht, State.release, State.actorOf, hm, State.actorTids, State.thread?_tid ht, List.all_cons, List.all_nil,
    hmet, Bool.and_self, if_true, State.updThread_released]

theorem State.condDone_member {s : State} {j : Nat} {t : Thread} (done : Bool) (ht : s.thread? j = some t) :
    let m := s.updThread j fun t => { t with status := .parked (.unit done) }
    let tids := m.actorTids (m.actorOf t)
    s.condDone j done = if tids.all fun i => (m.thread? i).all (·.met) then (m.updThreads tids Thread.released).refreshAge tids
      else m := by
  simp only [State.condDone, ht]
  rfl

theorem State.wakeThread_met {s : State} {j : Nat} {t : Thread} {c : Cond} (ht : s.thread? j = some t) (hst : t.status = .parked c)
    (hmet : s.condMet t c = true) : s.wakeThread j = s.condDone j c.completes := by
  simp only [State.wakeThread, ht, hst, hmet, if_true]

theorem State.wakeThread_waits {s : State} {j : Nat} {t : Thread} (ht : s.thread? j = some t)
    (hwaits : ∀ c, t.status = .parked c → s.condMet t c = false) : s.wakeThread j = s := by
  simp only [State.wakeThread, ht]
  split
  case h_1 c hst => rw [hwaits c hst]; rfl
  case h_2 => rfl

theorem exec_threadWake (s : State) (j : Nat) : exec (.threadWake (.thread j)) s = .next (s.wakeThread j) := rfl

theorem Thread.met_iff (t : Thread) : t.met = true ↔ ∃ done, t.status = .parked (.unit done) := by
  unfold Thread.met
  split
  case h_1 done h => exact iff_of_true rfl ⟨done, h⟩
  case h_2 hne => exact iff_of_false (by simp) fun ⟨done, h⟩ => hne done h

theorem Thread.released_of_unit {t : Thread} {done : Bool} (h : t.status = .parked (.unit done)) :
    t.released = { t with status := .ready, pc := if done then t.pc + 8 else t.pc } := by
  simp only [Thread.released, h]

theorem Thread.released_of_not_met {t : Thread} (h : t.met = false) : t.released = t := by
  unfold Thread.released
  split
  case h_1 done hst => simp [Thread.met, hst] at h
  case h_2 => rfl

/-! ## What a parked thread waits for (R69) -/

section
variable {s : State} {t : Thread} {va : Dword} {key : Nat} (hkey : s.key t.ctx va .read = .ok key)
include hkey

theorem State.condMet_future (limit : Option Nat) : s.condMet t (.future va limit) = (s.num (key + 12) 4 % 4 != 0) := by
  simp only [State.condMet, hkey, State.futureState]

theorem State.condMet_barrier (gen : Word) : s.condMet t (.barrier va gen) = (BitVec.ofNat 32 (s.num (key + 8) 4) != gen) := by
  simp only [State.condMet, hkey]

theorem State.condMet_bit (n : Nat) : s.condMet t (.bit va n) = (s.num key 8).testBit n := by
  simp only [State.condMet, hkey]

end

theorem State.waitExpired_of {s : State} {t : Thread} {va : Dword} {limit key : Nat} (hst : t.status = .parked (.future va (some limit)))
    (hlimit : limit ≤ s.elapsed) (hkey : s.key t.ctx va .read = .ok key) (hempty : s.num (key + 12) 4 % 4 = 0) :
    s.waitExpired t = true := by
  simp [State.waitExpired, hst, hlimit, State.condMet_future hkey, hempty]

theorem State.updThreads_updThread (s : State) (j : Nat) (f g : Thread → Thread) (hf : ∀ t, (f t).tid = t.tid) :
    (s.updThreads [j] f).updThread j g = s.updThreads [j] fun t => g (f t) := by
  have hmap : (s.threads.map fun t => if [j].contains t.tid then f t else t).map (fun t => if t.tid = j then g t else t) =
      s.threads.map fun t => if [j].contains t.tid then g (f t) else t := by
    rw [List.map_map]
    refine List.map_congr_left fun t _ => ?_
    by_cases h : t.tid = j
    · simp [h, hf]
    · simp [h]
  exact congrArg (fun l => { s with threads := l }) hmap

theorem exec_waitTimeout {s : State} {t : Thread} (ht : s.thread? t.tid = some t) (hm : t.member = none)
    (hexpired : s.waitExpired t = true) :
    exec (.waitTimeout (.thread t.tid)) s = .next ((s.updThreads [t.tid] fun t =>
      { t with status := .ready, timedOut := true }).refreshAge [t.tid]) := by
  have hany : (s.thread? t.tid).any s.waitExpired = true := by rw [ht]; exact hexpired
  have hlate : (s.updThreads [t.tid] fun t => { t with timedOut := true }).thread? t.tid = some { t with timedOut := true } := by
    rw [State.thread?_updThreads, ht]
    · simp
    · exact fun _ => rfl
  show execWaitTimeout _ s = _
  simp only [execWaitTimeout, State.actorTids, List.filter_cons, hany, if_true, List.filter_nil, List.foldl_cons, List.foldl_nil]
  rw [State.condDone_free hlate hm, State.updThreads_updThread]
  · rfl
  · exact fun _ => rfl

/-! ## Admission (R57 to R61, R431) -/

theorem exec_taskAdmit_head {s : State} {die core : Nat} {r : QRec} {rest : List QRec} {e : State}
    (hadmits : s.admits (coreIdx die core) = true) (hpool : s.placePool (coreIdx die core) = none)
    (hheld : s.heldRecord (coreIdx die core) = none) (hqueue : (s.core (coreIdx die core)).queue = r :: rest)
    (hstart : s.startQueued (coreIdx die core) r = some e) : exec (.taskAdmit die core) s = .next e := by
  show execTaskAdmit die core s = _
  simp only [execTaskAdmit, hadmits, hpool, hheld, hqueue, List.take_succ_cons, State.admitFrom, hstart, Bool.not_true,
    Bool.false_eq_true, if_false]

theorem exec_taskPlace {s e : State} {die core : Nat} (hpool : s.placePool (coreIdx die core) = some e) :
    exec (.taskPlace die core) s = .next e := by
  show execTaskPlace die core s = _
  simp only [execTaskPlace, hpool, Option.getD_some]

theorem exec_taskAdmit_pool {s e : State} {die core : Nat} (hpool : s.placePool (coreIdx die core) = some e)
    (hadmits : s.admits (coreIdx die core) = true) : exec (.taskAdmit die core) s = .next e := by
  show execTaskAdmit die core s = _
  simp only [execTaskAdmit, hadmits, hpool, Bool.not_true, Bool.false_eq_true, if_false]

theorem exec_heldAdmission {s : State} {die core : Nat} {r : QRec}
    (hlate : ((s.core (coreIdx die core)).queue.find? fun r => r.passed.any fun t => decide (t + 64000 ≤ s.elapsed)) = some r)
    (hheld : s.heldRecord (coreIdx die core) = none) : exec (.heldAdmission die core) s =
      .next (s.setRecord (.queue (coreIdx die core)) r.ctx r.num fun r => some { r with heldAt := some s.elapsed }) := by
  show execHeldAdmission die core s = _
  simp only [execHeldAdmission, hlate, hheld, Option.isSome_none, Bool.false_eq_true, if_false]

theorem exec_gangBoundExpiry {s : State} {die core start : Nat} {r : QRec} (hheld : s.heldRecord (coreIdx die core) = some r)
    (hgang : r.kind = .gang) (hstart : r.heldAt = some start)
    (hbound : start + 1000 * ((s.ctx? r.ctx).map (·.gangb)).getD 0 ≤ s.elapsed)
    (hfits : s.startQueued (coreIdx die core) r = none) :
    exec (.gangBoundExpiry die core) s = .next (s.dropGang (coreIdx die core) r) := by
  show execGangBoundExpiry die core s = _
  simp only [execGangBoundExpiry, hheld]
  exact if_pos ⟨hgang, by rw [hstart]; exact decide_eq_true hbound, by rw [hfits]; rfl⟩

theorem exec_spillRefill {s : State} {die core : Nat} {r : QRec} {rest : List QRec} (hspill : (s.core (coreIdx die core)).spill = r :: rest)
    (hroom : (s.core (coreIdx die core)).queue.length < 512) : exec (.spillRefill die core) s =
      .next (s.updCore (coreIdx die core) fun c => { c with queue := c.queue ++ [r], spill := rest }) := by
  show execSpillRefill die core s = _
  simp only [execSpillRefill, hspill, hroom, if_true]

theorem exec_taskSteal {s : State} {die core victim : Nat} {r : QRec} (hother : coreIdx die core ≠ coreIdx die victim)
    (hthief : s.admits (coreIdx die core) = true) (hvictim : s.admits (coreIdx die victim) = true)
    (hctx : s.coreCtx (coreIdx die core) = s.coreCtx (coreIdx die victim)) (hidle : s.hasReady (coreIdx die core) = false)
    (hempty : (s.core (coreIdx die core)).queue = [])
    (hlast : ((s.core (coreIdx die victim)).queue.filter fun r => r.kind != .gang).getLast? = some r) :
    exec (.taskSteal die core victim) s =
      .next ((s.steal (coreIdx die core) (coreIdx die victim) r).tallyCore (coreIdx die core) 0x044 1) := by
  show execTaskSteal die core victim s = _
  simp only [execTaskSteal, hlast]
  exact if_neg (by simp [hother, hthief, hvictim, ← hctx, hidle, hempty])

theorem exec_preemptSave {s : State} {die core c : Nat} (hctx : s.coreCtx (coreIdx die core) = some c)
    (hstop : (s.core (coreIdx die core)).stopping = true)
    (hready : ∀ t ∈ s.tasksOn (coreIdx die core), s.saveReady t.id = true) :
    exec (.preemptSave die core) s = .next (s.vacate c (coreIdx die core)) := by
  show execPreemptSave die core s = _
  simp only [execPreemptSave, hctx, hstop, List.all_eq_true.2 hready, Bool.not_true, Bool.false_eq_true, if_false, if_true]

/-- Settles O34: an agent goes on by `condDone`, and each event of the scheduler is the branch of its function that the hypotheses
choose. -/
theorem wakeAndSchedulerResults : Obligations.WakeAndSchedulerResults := by
  refine ⟨⟨?wakes, ?wakesRank, fun t => ⟨t.met_iff, fun _ => Thread.released_of_unit, Thread.released_of_not_met⟩, ?waits, fun _ _ => rfl,
    ?timeout, fun s t va key hkey => ⟨State.condMet_future hkey, State.condMet_barrier hkey, State.condMet_bit hkey⟩⟩,
    fun _ _ _ _ _ _ => exec_taskAdmit_head, fun _ _ _ _ h => ⟨exec_taskPlace h, exec_taskAdmit_pool h⟩,
    fun _ _ _ _ => exec_heldAdmission, fun _ _ _ _ _ => exec_gangBoundExpiry, fun _ _ _ _ _ => exec_spillRefill,
    fun _ _ _ _ _ => exec_taskSteal, fun _ _ _ _ => exec_preemptSave⟩
  case wakes =>
    intro s t c ht hst hmet hm
    rw [exec_threadWake, State.wakeThread_met ht hst hmet, State.condDone_free ht hm]
  case wakesRank =>
    intro s t gid r c ht _ hst hmet
    rw [exec_threadWake, State.wakeThread_met ht hst hmet]
    exact congrArg Host.Outcome.next (State.condDone_member _ ht)
  case waits =>
    intro s t ht hwaits
    rw [exec_threadWake, State.wakeThread_waits ht hwaits]
  case timeout =>
    intro s t va limit key ht hm hst hlimit hkey hempty
    exact exec_waitTimeout ht hm (State.waitExpired_of hst hlimit hkey hempty)

end Sys2Proof.Machine
end

section
/-! The latency cores: requests accepted and refused, and sections that start and run out of time (R169 to R172, R178). -/

namespace Sys2Proof.Machine

/-! ## Requests (R166, R169, R170) -/

@[simp] theorem State.updLc_thread? (s : State) (lc : Nat) (f : Lc → Lc) (j : Nat) : (s.updLc lc f).thread? j = s.thread? j := rfl

@[simp] theorem State.tallyDie_thread? (s : State) (d src n : Nat) (c : Option Nat) (j : Nat) :
    (s.tallyDie d src n c).thread? j = s.thread? j := rfl

theorem State.updLc_lc {s : State} (h : SMap.wf {} s.lcs = true) (lc : Nat) (f : Lc → Lc) : (s.updLc lc f).lc lc = f (s.lc lc) := by
  show (s.lcs.set {} lc (f (s.lcs.get {} lc))).get {} lc = _
  rw [SMap.get_set _ _ _ h, if_pos rfl]
  rfl

theorem exec_shipArrival {s : State} {lc : Nat} {r : ShipReq} {rest : List ShipReq} (hwf : SMap.wf {} s.lcs = true)
    (hoffers : (s.lc lc).offers = r :: rest) : exec (.shipArrival lc) s = .next (let e := s.updLc lc fun l => { l with offers := rest }
      if (s.lc lc).room && (s.lc lc).refused.isEmpty then e.acceptShip lc r else e.refuseShip lc r) := by
  show execShipArrival lc s = _
  simp only [execShipArrival, hoffers, State.updLc_lc hwf]
  split <;> rename_i h
  · exact congrArg Host.Outcome.next (if_pos h).symm
  · exact congrArg Host.Outcome.next (if_neg h).symm

theorem exec_shipGrant {s : State} {lc : Nat} {r : ShipReq} {rest : List ShipReq} (hrefused : (s.lc lc).refused = r :: rest)
    (hroom : (s.lc lc).room = true) :
    exec (.shipGrant lc) s = .next ((s.updLc lc fun l => { l with refused := rest }).acceptShip lc r) := by
  show execShipGrant lc s = _
  simp only [execShipGrant, hrefused, hroom, if_true]

section
variable {s : State} {lc : Nat} {r : ShipReq} {t : Thread} (hsender : r.sender = .thread t.tid) (ht : s.thread? t.tid = some t)
  (hunsent : t.unsent = true)
include hsender ht hunsent

theorem State.acceptShip_goesOn (hm : t.member = none) (hkind : r.kind ≠ .w) : s.acceptShip lc r =
    ((s.updLc lc fun l => { l with queue := l.queue ++ [r] }).updThread t.tid fun t =>
      { t with status := .ready, pc := t.pc + 8 }).refreshAge [t.tid] := by
  simp only [State.acceptShip, hsender, State.shipIssued, State.updLc_thread?, ht, Option.any_some, hunsent, if_true, if_neg hkind]
  exact State.condDone_free ht hm

theorem State.acceptShip_parks (hkind : r.kind = .w) : s.acceptShip lc r =
    ((s.updLc lc fun l => { l with queue := l.queue ++ [r] }).updThread t.tid fun t =>
      { t with status := .parked .shipRun }).endAdoptions := by
  simp only [State.acceptShip, hsender, State.shipIssued, State.updLc_thread?, ht, Option.any_some, hunsent, if_true, if_pos hkind]

end

theorem State.refuseShip_thread {s : State} {lc : Nat} {r : ShipReq} {t : Thread} (hsender : r.sender = .thread t.tid)
    (ht : s.thread? t.tid = some t) (hsection : t.section_ = none) : s.refuseShip lc r =
      (((s.tallyDie (lc / 8) 0x111 1 (some r.ctx)).updLc lc fun l => { l with refused := l.refused ++ [r] }).updThread
        t.tid fun t => if t.unsent then { t with status := .parked (.refused lc) } else t).endAdoptions := by
  simp only [State.refuseShip, hsender, State.tallyDie_thread?, ht, hsection, State.shipRefused]

/-! ## Sections (R171, R172, R178) -/

theorem exec_sectionStart {s : State} {lc : Nat} {r : ShipReq} {rest : List ShipReq} (hidle : (s.lc lc).running = none)
    (hqueue : (s.lc lc).queue = r :: rest) (halign : r.entry.toNat % 8 = 0) : exec (.sectionStart lc) s =
      .next ((({ s.freshId.2 with threads := s.threads ++ [sectionThread s lc s.nextId r] } : State).updLc lc fun l =>
        { l with queue := rest, running := some s.nextId }).tallyDie (lc / 8) 0x110 1 (some r.ctx)) := by
  show execSectionStart lc s = _
  unfold execSectionStart
  rw [hidle, hqueue]
  exact if_pos halign

theorem State.thread?_append {s e : State} {t : Thread} (hthreads : e.threads = s.threads ++ [t]) (j : Nat) :
    e.thread? j = (s.thread? j).or (if t.tid = j then some t else none) := by
  show e.threads.find? (·.tid == j) = (s.threads.find? (·.tid == j)).or _
  rw [hthreads, List.find?_append]
  by_cases h : t.tid = j <;> simp [h]

theorem sectionRegs_length (r : ShipReq) : (sectionRegs r).length = 255 := by
  rw [sectionRegs, List.length_append, List.length_replicate, List.length_map]
  rfl

theorem sectionRegs_arg (r : ShipReq) {i : Nat} (hi : i < 6) : (((sectionRegs r)[i]?).getD {}).val = r.args.getD i 0 := by
  have h : (sectionRegs r)[i]? = some { val := (r.args[i]?).getD 0 } := by
    rw [sectionRegs, List.getElem?_append_left (by simp; omega), List.getElem?_map, List.getElem?_append_left (by simpa using hi),
      List.getElem?_map, List.getElem?_range hi]
    rfl
  rw [h, List.getD_eq_getElem?_getD]
  rfl

theorem sectionThread_reg (s : State) (lc tid : Nat) (r : ShipReq) {n : Nat} (hn : n ≠ 255) :
    (sectionThread s lc tid r).reg n = ((sectionRegs r)[n]?).getD {} := if_neg hn

theorem joinWords_halves (x : Dword) : joinWords (loWord x) (hiWord x) = x := by
  apply BitVec.eq_of_toNat_eq
  simp only [joinWords, loWord, hiWord, BitVec.toNat_append, BitVec.truncate_eq_setWidth, BitVec.toNat_setWidth,
    BitVec.toNat_ushiftRight, Nat.shiftRight_eq_div_pow]
  rw [Nat.mod_eq_of_lt (a := x.toNat / 2 ^ 32) (by omega), ← Nat.shiftLeft_add_eq_or_of_lt (by omega), Nat.shiftLeft_eq]
  omega

theorem sectionThread_lock (s : State) (lc tid : Nat) (r : ShipReq) : (sectionThread s lc tid r).pair 6 = r.lock := by
  show joinWords (loWord r.lock) (hiWord r.lock) = r.lock
  exact joinWords_halves r.lock

theorem exec_sectionTimeLimit {s : State} {lc tid : Nat} {t : Thread} {x : SectionInfo} (hrun : (s.lc lc).running = some tid)
    (ht : s.thread? tid = some t) (hsection : t.section_ = some x)
    (hlate : x.start + 1000 * ((s.ctx? t.ctx).map (·.tlim)).getD 0 ≤ s.elapsed) :
    exec (.sectionTimeLimit lc) s = .next (s.sectionFault t x { cause := 0x10, detail0 := 1 }) := by
  show execSectionTimeLimit lc s = _
  simp only [execSectionTimeLimit, hrun, Option.bind_some, ht, hsection, if_pos hlate]
  rfl

/-- Settles O35: requests by the branch of `acceptShip` and `refuseShip` that the sender chooses, and a section by the thread that
`execSectionStart` appends. -/
theorem latencyCoreResults : Obligations.LatencyCoreResults := by
  refine ⟨fun _ _ _ _ => exec_shipArrival, fun _ _ _ _ => exec_shipGrant,
    fun _ _ _ _ hsender ht hm hunsent =>
      ⟨State.acceptShip_goesOn hsender ht hunsent hm, State.acceptShip_parks hsender ht hunsent⟩,
    fun _ _ _ _ hsender ht hsection _ => State.refuseShip_thread hsender ht hsection, ?starts, fun _ _ _ _ _ => exec_sectionTimeLimit⟩
  case starts =>
    intro s lc r rest hidle hqueue halign hnew
    have hthread := State.thread?_append (s := s) (t := sectionThread s lc s.nextId r) (e :=
      (({ s.freshId.2 with threads := s.threads ++ [sectionThread s lc s.nextId r] } : State).updLc lc fun l =>
        { l with queue := rest, running := some s.nextId }).tallyDie (lc / 8) 0x110 1 (some r.ctx)) rfl
    refine ⟨_, sectionThread s lc s.nextId r, exec_sectionStart hidle hqueue halign, ?_, rfl, fun k hk => ?_, rfl, rfl, rfl, rfl, rfl,
      sectionRegs_length r, fun i hi => ?_, sectionThread_lock _ _ _ _, rfl, rfl⟩
    · rw [hthread, hnew, if_pos (show (sectionThread s lc s.nextId r).tid = s.nextId from rfl)]
      rfl
    · rw [hthread, if_neg (show (sectionThread s lc s.nextId r).tid ≠ k from Ne.symm hk), Option.or_none]
    · rw [sectionThread_reg _ _ _ _ (by omega), sectionRegs_arg r hi]

end Sys2Proof.Machine
end

section
/-! Fault records written and routed, and what an uncorrectable error ends (R423, R424, R432). -/

namespace Sys2Proof.Machine

/-! ## Fault records (R423, R424) -/

theorem State.writeRecord_head {s : State} {c : Nat} {x : Ctx} {r : FaultRec} {rest : List FaultRec} (hctx : s.ctx? c = some x)
    (hheld : x.heldRecs = r :: rest)
    (hroom : (s.num x.cmbase 4 + 2 ^ 32 - s.num (x.cmbase + 8) 4) % 2 ^ 32 < 2 ^ x.fqlog2) :
    let tail := s.num x.cmbase 4
    s.writeRecord c = (((((s.putFor c (x.cmbase + 64 + 32 * (tail % 2 ^ x.fqlog2)) (natLe 32 r.toNat)).putFor c x.cmbase
      (natLe 4 (tail + 1))).updCtx c fun x => { x with heldRecs := rest }).routeRecord c x r tail).tallyIo 2 c 0x20A (some c)) := by
  unfold State.writeRecord
  rw [hctx]
  dsimp only
  rw [hheld]
  exact if_neg (Nat.not_le.2 hroom)

theorem exec_routingTimeout {s : State} {c seq : Nat} {x : Ctx} {k : Claim} (hctx : s.ctx? c = some x)
    (hclaim : (x.claims.find? fun y => y.seq == seq) = some k) (hhost : k.host = true) (hlate : k.since + 100000 ≤ s.elapsed) :
    exec (.routingTimeout c seq) s =
      .next ((s.updCtx c fun x => { x with claims := x.claims.filter (·.seq != seq) }).interrupt x.func x.fvec) := by
  have hany : (((s.ctx? c).map (·.claims)).getD [] |>.any fun k =>
      k.seq == seq && k.host && decide (k.since + 100000 ≤ s.elapsed)) = true := by
    rw [hctx]
    exact List.any_eq_true.2 ⟨k, List.mem_of_find?_eq_some hclaim, by simp [List.find?_some hclaim, hhost, hlate]⟩
  show execRoutingTimeout c seq s = _
  unfold execRoutingTimeout
  rw [if_pos hany, State.claimToHost, hctx]
  dsimp only
  rw [hclaim]
  exact congrArg Host.Outcome.next (if_pos hhost)

/-! ## Uncorrectable errors (R432) -/

theorem exec_scrubEntry {s : State} {x : ArrayEntry} {o : Option Nat} (howner : s.entryOwner x = some o) :
    exec (.scrubUncorrectable none (some x)) s = .next (({ s with uncorr := s.uncorr + 1 } : State).entryLost o) := by
  have h : ({ s with uncorr := s.uncorr + 1 } : State).entryOwner x = some o := howner
  show execScrubUncorrectable none (some x) s = _
  simp only [execScrubUncorrectable, h]

theorem exec_scrubEmpty {s : State} {x : ArrayEntry} (howner : s.entryOwner x = none) :
    exec (.scrubUncorrectable none (some x)) s = .next { s with uncorr := s.uncorr + 1 } := by
  have h : ({ s with uncorr := s.uncorr + 1 } : State).entryOwner x = none := howner
  show execScrubUncorrectable none (some x) s = _
  simp only [execScrubUncorrectable, h]

theorem exec_scrubStops {s : State} {o : Option ArrayEntry} (howner : ∀ x, o = some x → s.entryOwner x = some none) :
    exec (.scrubUncorrectable none o) s = .next (({ s with uncorr := s.uncorr + 1 } : State).stopDevice) := by
  cases o with
  | none => rfl
  | some x => exact exec_scrubEntry (howner x rfl)

theorem State.entryOwner_home {s : State} {x : Nat} {h : HomeSector} (hfind : (s.home.find? fun y => y.sector == x) = some h) :
    s.entryOwner (.home x) = some h.owner := congrArg (Option.map HomeSector.owner) hfind

theorem State.entryOwner_l1 {s : State} {k x : Nat} {h : L1Sector}
    (hfind : (s.l1.find? fun y => y.core == k && y.sector == x) = some h) : s.entryOwner (.l1 k x) = some h.owner :=
  congrArg (Option.map L1Sector.owner) hfind

/-- Settles O36: a held record by the full queue's test, an uncorrectable error by the owner of its entry. -/
theorem faultEventResults : Obligations.FaultEventResults :=
  ⟨fun _ _ => rfl, fun _ _ _ _ _ => State.writeRecord_head, fun _ _ _ _ _ => exec_routingTimeout, fun _ _ _ => rfl, fun _ _ => rfl,
    fun _ _ _ => exec_scrubEntry, fun _ _ => exec_scrubEmpty, fun _ _ howner => ⟨_, exec_scrubStops howner, rfl, rfl⟩,
    fun _ _ _ => State.entryOwner_home, fun _ _ _ _ => State.entryOwner_l1, fun _ _ _ => rfl⟩

end Sys2Proof.Machine
end

section
/-! Host accesses through the apertures and CXL.mem, and host snoops (R85, R396 to R398, R435). -/

namespace Sys2Proof.Machine

/-! ## Reads of bytes -/

theorem State.readBytes_of_fixed {s : State} {f : State → Nat → Byte × State} {g : Nat → Byte} {pa n : Nat}
    (hf : ∀ i, i < n → f s (pa + i) = (g (pa + i), s)) :
    s.readBytes f pa n = ((List.range n).map fun i => g (pa + i), s) := by
  induction n generalizing pa with
  | zero => rfl
  | succ n ih =>
    have hfirst : f s pa = (g pa, s) := hf 0 (Nat.succ_pos n)
    have hrest := ih (pa := pa + 1) fun i hi => by rw [Nat.add_assoc, Nat.add_comm 1 i]; exact hf (i + 1) (Nat.succ_lt_succ hi)
    have hshift : (List.range n).map (fun i => g (pa + 1 + i)) = (List.range n).map ((fun i => g (pa + i)) ∘ Nat.succ) :=
      List.map_congr_left fun i _ => congrArg g (by omega)
    rw [State.readBytes, hfirst, hrest, List.range_succ_eq_map, List.map_cons, List.map_map, ← hshift]
    rfl

theorem State.readBytes_free {f : State → Nat → Byte × State} (hf : ∀ (s : State) k, ∃ n, (f s k).2 = { s with free := n })
    (s : State) (pa n : Nat) :
    (s.readBytes f pa n).1.length = n ∧ (s.readBytes f pa n).2 = { s with free := (s.readBytes f pa n).2.free } := by
  induction n generalizing s pa with
  | zero => exact ⟨rfl, rfl⟩
  | succ n ih =>
    obtain ⟨k, hk⟩ := hf s pa
    obtain ⟨hlength, hstate⟩ := ih (f s pa).2 (pa + 1)
    refine ⟨congrArg Nat.succ hlength, ?_⟩
    show (State.readBytes _ f (pa + 1) n).2 = { s with free := (State.readBytes _ f (pa + 1) n).2.free }
    rw [hk] at hstate ⊢
    exact hstate

theorem State.hostByte_clear {s : State} {pa : Nat} (hrange : pa < Config.usageBase) (hpoison : pa / 256 ∉ s.poison)
    (howned : s.deviceOwned pa = false) : s.hostByte pa = (s.byte pa, s) := by
  rw [State.hostByte, if_neg (Nat.not_le.2 hrange), if_neg]
  simp [hpoison, howned]

theorem State.hostByte_free (s : State) (pa : Nat) : ∃ n, (s.hostByte pa).2 = { s with free := n } := by
  unfold State.hostByte
  split
  · exact ⟨s.free, rfl⟩
  · split
    · exact ⟨s.free + 1, rfl⟩
    · exact ⟨s.free, rfl⟩

theorem State.directByte_free (s : State) (pa : Nat) : ∃ n, (s.directByte pa).2 = { s with free := n } := by
  unfold State.directByte
  split
  · exact ⟨s.free, rfl⟩
  · split
    · exact ⟨s.free + 1, rfl⟩
    · exact s.hostByte_free pa

/-! ## Accesses at the home slice (R396, R398) -/

theorem State.homeAccess_write {s : State} {pa : Nat} {a : HostAccess} {l : List Byte} (hwr : a.wr = some l)
    (hrange : pa + a.len ≤ Config.usageBase) : s.homeAccess pa a = s.putMem pa (l.take a.len) := by
  simp only [State.homeAccess, hwr]
  rw [Nat.min_eq_left (by omega)]

theorem State.homeAccess_read {s : State} {pa : Nat} {a : HostAccess} (hwr : a.wr = none) (hrange : pa + a.len ≤ Config.usageBase)
    (hclear : ∀ i, i < a.len → (pa + i) / 256 ∉ s.poison ∧ s.deviceOwned (pa + i) = false) :
    s.homeAccess pa a = { s with hostRead := (List.range a.len).map fun i => s.byte (pa + i) } := by
  simp only [State.homeAccess, hwr]
  rw [State.readBytes_of_fixed fun i hi => State.hostByte_clear (by omega) (hclear i hi).1 (hclear i hi).2]

theorem apertures_ready {s : State} {func : Nat} (hready : s.boot.state = .ready) (hfunc : func = 0 ∨ func = 64) :
    s.apertures func = true := by
  obtain rfl | rfl := hfunc <;> simp [State.apertures, portOf, hready]

theorem apertures_closed {s : State} {func : Nat} (hboot : s.boot.state = .booting ∨ s.boot.state = .recovery) :
    s.apertures func = false := by
  obtain h | h := hboot <;> simp [State.apertures, h]

theorem exec_hostCoherentAccess {s : State} {a : HostAccess} (hopen : s.apertures a.func = true) (hrange : a.off + a.len ≤ 2 ^ 35) :
    exec (.hostCoherentAccess a) s = .next (s.homeAccess ((s.func a.func).capbase * 2 ^ 30 + a.off) a) := by
  show execHostCoherentAccess a s = _
  unfold execHostCoherentAccess
  rw [hopen]
  exact if_pos hrange

theorem exec_cxlMemAccess {s : State} {a : HostAccess} (hopen : s.apertures 0 = true) (hfunc : a.func = 0) (hfrom : s.hdm.1 ≤ a.off)
    (hto : a.off + a.len ≤ s.hdm.1 + s.hdm.2) : exec (.cxlMemAccess a) s = .next (s.homeAccess a.off a) :=
  if_pos (c := s.apertures 0 = true ∧ a.func = 0 ∧ s.hdm.1 ≤ a.off ∧ a.off + a.len ≤ s.hdm.1 + s.hdm.2) ⟨hopen, hfunc, hfrom, hto⟩

theorem exec_cxlMemAccess_outside {s : State} {a : HostAccess} (hout : a.off < s.hdm.1 ∨ s.hdm.1 + s.hdm.2 < a.off + a.len) :
    exec (.cxlMemAccess a) s = .next s :=
  if_neg (c := s.apertures 0 = true ∧ a.func = 0 ∧ s.hdm.1 ≤ a.off ∧ a.off + a.len ≤ s.hdm.1 + s.hdm.2)
    fun ⟨_, _, hfrom, hto⟩ => by omega

theorem exec_hostAccess_closed {s : State} {a : HostAccess} (hclosed : s.apertures a.func = false) :
    ∀ i ∈ [Instr.hostCoherentAccess a, .hostDirectAccess a], exec i s = .next (s.closedAccess a) := by
  have hnot : (!s.apertures a.func) = true := by rw [hclosed]; rfl
  intro i hi
  simp only [List.mem_cons, List.not_mem_nil, or_false] at hi
  obtain rfl | rfl := hi
  · exact if_pos hnot
  · exact if_pos hnot

theorem State.closedAccess_write {s : State} {a : HostAccess} (hwr : a.wr.isSome = true) : s.closedAccess a = s := by
  obtain ⟨l, hl⟩ := Option.isSome_iff_exists.1 hwr
  simp only [State.closedAccess, hl]

theorem State.closedAccess_read {s : State} {a : HostAccess} (hwr : a.wr = none) :
    s.closedAccess a = { s with hostRead := List.replicate a.len 0 } := by
  simp only [State.closedAccess, hwr]

/-! ## The direct aperture (R396) -/

/-- The bytes written past the L2 once a direct write has gone behind it. -/
def State.shadowed (s : State) (pa : Nat) (l : List Byte) : State :=
  { s with
    shadow := s.shadow.filter (fun p => !(decide (pa ≤ p.1) && decide (p.1 < pa + l.length))) ++ l.zipIdx.map fun p => (pa + p.2, p.1) }

theorem find_zipIdx_at (l : List Byte) (pa start i : Nat) (hi : i < l.length) :
    (((l.zipIdx start).map fun p => (pa + p.2, p.1)).find? fun p => p.1 == pa + start + i) = some (pa + start + i, l[i]) := by
  induction l generalizing start i with
  | nil => simp at hi
  | cons b l ih =>
    rw [List.zipIdx_cons, List.map_cons, List.find?_cons]
    cases i with
    | zero => simp
    | succ i =>
      have hne : (pa + start == pa + start + (i + 1)) = false := by simp
      have hnext := ih (start + 1) i (by simpa using hi)
      rw [← Nat.add_assoc, Nat.add_assoc (pa + start) 1 i, Nat.add_comm 1 i] at hnext
      rw [hne]
      exact hnext

theorem State.directByte_shadowed (s : State) (pa : Nat) (l : List Byte) {i : Nat} (hi : i < l.length) :
    ((s.shadowed pa l).directByte (pa + i)).1 = l[i] := by
  have hold : ((s.shadow.filter fun p => !(decide (pa ≤ p.1) && decide (p.1 < pa + l.length))).find? fun p => p.1 == pa + i) = none := by
    refine List.find?_eq_none.2 fun p hp heq => ?_
    obtain ⟨-, hout⟩ := List.mem_filter.1 hp
    rw [beq_iff_eq] at heq
    simp only [Bool.not_eq_true', Bool.and_eq_false_iff, decide_eq_false_iff_not] at hout
    omega
  have hfind : ((s.shadowed pa l).shadow.find? fun p => p.1 == pa + i) = some (pa + i, l[i]) := by
    show List.find? _ (_ ++ _) = _
    rw [List.find?_append, hold]
    exact find_zipIdx_at l pa 0 i hi
  rw [State.directByte, hfind]

theorem State.mem_shadowed {s : State} {pa : Nat} {l : List Byte} {p : Nat × Byte} (hp : p ∈ s.shadow)
    (hout : p.1 < pa ∨ pa + l.length ≤ p.1) : p ∈ (s.shadowed pa l).shadow := by
  refine List.mem_append_left _ (List.mem_filter.2 ⟨hp, ?_⟩)
  simp only [Bool.not_eq_true', Bool.and_eq_false_iff, decide_eq_false_iff_not]
  omega

section
variable {s : State} {a : HostAccess} (hopen : s.apertures a.func = true) (hrange : a.off + a.len ≤ 2 ^ 35)
include hopen hrange

theorem exec_hostDirectAccess_write {l : List Byte} (hwr : a.wr = some l)
    (hdevice : (s.func a.func).dapbase * 2 ^ 30 + a.off + a.len ≤ Config.usageBase) :
    exec (.hostDirectAccess a) s = .next (s.shadowed ((s.func a.func).dapbase * 2 ^ 30 + a.off) (l.take a.len)) := by
  have hmin : min a.len (Config.usageBase - ((s.func a.func).dapbase * 2 ^ 30 + a.off)) = a.len := Nat.min_eq_left (by omega)
  show execHostDirectAccess a s = _
  unfold execHostDirectAccess
  rw [hopen, hwr]
  simp only [hmin, if_pos hrange]
  rfl

theorem exec_hostDirectAccess_read (hwr : a.wr = none) : exec (.hostDirectAccess a) s =
    let r := s.readBytes State.directByte ((s.func a.func).dapbase * 2 ^ 30 + a.off) a.len
    .next { r.2 with hostRead := r.1 } := by
  show execHostDirectAccess a s = _
  unfold execHostDirectAccess
  rw [hopen, hwr]
  exact if_pos hrange

end

/-! ## Snoops (R85) -/

theorem cxSector_not_inHbm {line x : Nat} (hx : x ∈ sectorsOf (Config.cxKey + line / 1024 * 1024) 1024) : inHbm x = false := by
  have hbase : Config.deviceBytes ≤ Config.cxKey - 256 := by decide
  obtain ⟨i, -, rfl⟩ := List.mem_map.1 (show x ∈ List.map _ _ from hx)
  have hkey : Config.cxKey = 256 * (Config.cxKey / 256) := by decide
  rw [inHbm, decide_eq_false_iff_not]
  omega

/-- What a snoop writes back is in no HBM, so nobody's HBM traffic is counted. -/
theorem State.writeBack_outsideHbm {s : State} {l : List Nat} (hl : ∀ x ∈ l, inHbm x = false) :
    s.writeBack l = { s with dirty := (s.writeBack l).dirty, shadow := (s.writeBack l).shadow } := by
  have hnone : s.dirtyOf l = [] := by
    refine List.filter_eq_nil_iff.2 fun x _ hx => ?_
    simp only [Bool.and_eq_true, List.contains_iff_mem] at hx
    obtain ⟨⟨hmem, -⟩, hhbm⟩ := hx
    rw [hl _ hmem] at hhbm
    exact Bool.false_ne_true hhbm
  simp only [State.writeBack, hnone, List.foldl_nil]

theorem State.setBehinds_frame (l : List (Nat × Byte)) (s : State) :
    let e := l.foldl (fun s x => s.setBehind x.1 x.2) s
    e = { s with mem := e.mem, l1Old := e.l1Old } := by
  induction l generalizing s with
  | nil => rfl
  | cons x l ih => exact ih (s.setBehind x.1 x.2)

theorem State.setBehinds_byte (l : List (Nat × Byte)) {s : State} (hwf : SMap.wf 0 s.mem = true) {k : Nat} (hk : ∀ x ∈ l, x.1 ≠ k) :
    (l.foldl (fun s x => s.setBehind x.1 x.2) s).byte k = s.byte k := by
  induction l generalizing s with
  | nil => rfl
  | cons x l ih =>
    have hnext : (s.setBehind x.1 x.2).byte k = s.byte k := by
      show (s.mem.set 0 x.1 x.2).get 0 k = s.mem.get 0 k
      rw [SMap.get_set _ _ _ hwf, if_neg (Ne.symm (hk x List.mem_cons_self))]
    exact (ih (s := s.setBehind x.1 x.2) (SMap.set_wf _ _ hwf) fun y hy => hk y (List.mem_cons_of_mem _ hy)).trans hnext

theorem State.dropSectors_frame (s : State) (l : List Nat) : let e := s.dropSectors l
    e = { s with shadow := e.shadow, mem := e.mem, l1Old := e.l1Old, l2 := e.l2, home := e.home } := by
  have h := State.setBehinds_frame (s.shadow.filter fun p => l.contains (p.1 / 256)) s
  simp only [State.dropSectors] at h ⊢
  rw [h]

theorem State.dropSectors_byte {s : State} (hwf : SMap.wf 0 s.mem = true) {l : List Nat} {k : Nat} (hk : k / 256 ∉ l) :
    (s.dropSectors l).byte k = s.byte k := by
  refine State.setBehinds_byte (s.shadow.filter fun p => l.contains (p.1 / 256)) hwf fun x hx heq => ?_
  obtain ⟨-, hin⟩ := List.mem_filter.1 hx
  rw [List.contains_iff_mem, heq] at hin
  exact hk hin

theorem State.dropSectors_dirty (s : State) (l : List Nat) : (s.dropSectors l).dirty = s.dirty :=
  State.dropSectors_keep (·.dirty) (fun _ _ _ => rfl) (fun _ _ _ _ => rfl) s l

theorem mem_filter_contains {α : Type} {m : List α} {l : List Nat} {f : α → Nat} {x : α} :
    x ∈ (m.filter fun x => !l.contains (f x)) ↔ x ∈ m ∧ f x ∉ l := by
  simp [List.mem_filter]

theorem State.dropSectors_l2 {s : State} {l : List Nat} {x : L2Copy} : x ∈ (s.dropSectors l).l2 ↔ x ∈ s.l2 ∧ x.sector ∉ l := by
  have h : (s.dropSectors l).l2 = s.l2.filter fun x => !l.contains x.sector :=
    congrArg (List.filter fun x : L2Copy => !l.contains x.sector) (State.setBehinds_keep (·.l2) (fun _ _ _ => rfl) _ s)
  rw [h]
  exact mem_filter_contains

theorem State.dropSectors_home {s : State} {l : List Nat} {x : HomeSector} :
    x ∈ (s.dropSectors l).home ↔ x ∈ s.home ∧ x.sector ∉ l := by
  have h : (s.dropSectors l).home = s.home.filter fun x => !l.contains x.sector :=
    congrArg (List.filter fun x : HomeSector => !l.contains x.sector) (State.setBehinds_keep (·.home) (fun _ _ _ => rfl) _ s)
  rw [h]
  exact mem_filter_contains

theorem exec_hostSnoop (s : State) (line : Nat) (inv : Bool) : exec (.hostSnoop line inv) s =
    let l := sectorsOf (Config.cxKey + line / 1024 * 1024) 1024
    .next (if inv then (s.writeBack l).dropSectors l else s.writeBack l) := rfl

theorem State.dropped_frame {s b e : State} (hback : b = { s with dirty := b.dirty, shadow := b.shadow })
    (hdrop : e = { b with shadow := e.shadow, mem := e.mem, l1Old := e.l1Old, l2 := e.l2, home := e.home }) :
    e = { s with dirty := e.dirty, shadow := e.shadow, mem := e.mem, l1Old := e.l1Old, l2 := e.l2, home := e.home } := by
  obtain ⟨dirty, shadow, rfl⟩ : ∃ dirty shadow, b = { s with dirty, shadow } := ⟨_, _, hback⟩
  obtain ⟨shadow, mem, l1Old, l2, home, rfl⟩ : ∃ shadow mem l1Old l2 home,
      e = { s with dirty, shadow, mem, l1Old, l2, home } := ⟨_, _, _, _, _, hdrop⟩
  rfl

/-- What a snoop of the sectors `l` of one line of host memory leaves, with and without invalidation. -/
theorem snooped {s : State} {l : List Nat} {inv : Bool} (hwf : SMap.wf 0 s.mem = true)
    (hback : s.writeBack l = { s with dirty := (s.writeBack l).dirty, shadow := (s.writeBack l).shadow }) :
    let e := if inv then (s.writeBack l).dropSectors l else s.writeBack l
    e = { s with dirty := e.dirty, shadow := e.shadow, mem := e.mem, l1Old := e.l1Old, l2 := e.l2, home := e.home } ∧
      (∀ x, x ∈ e.dirty ↔ x ∈ s.dirty ∧ x ∉ l) ∧
      (inv = false → e.mem = s.mem ∧ e.l1Old = s.l1Old ∧ e.l2 = s.l2 ∧ e.home = s.home) ∧
      (inv = true → (∀ x ∈ e.l2, x ∈ s.l2 ∧ x.sector ∉ l) ∧ ∀ x, x ∈ e.home ↔ x ∈ s.home ∧ x.sector ∉ l) ∧
      (∀ k, k / 256 ∉ l → e.byte k = s.byte k) := by
  cases inv with
  | false =>
    exact ⟨hback, s.writeBack_dirty l, fun _ => ⟨rfl, rfl, rfl, rfl⟩, fun h => absurd h (by decide), fun _ _ => rfl⟩
  | true =>
    have hdrop := (s.writeBack l).dropSectors_frame l
    refine ⟨?_, fun x => ?_, fun h => absurd h (by decide), fun _ => ⟨fun x => State.dropSectors_l2.1, fun x => State.dropSectors_home⟩,
      fun k hk => State.dropSectors_byte (s := s.writeBack l) hwf hk⟩
    · exact State.dropped_frame hback hdrop
    · show x ∈ ((s.writeBack l).dropSectors l).dirty ↔ _
      rw [State.dropSectors_dirty]
      exact s.writeBack_dirty l x

/-- Settles O43: an access at the home slice reads or stores its bytes, a direct write puts them behind the L2, and a snoop writes back
and drops the sectors of its line. -/
theorem hostAccessResults : Obligations.HostAccessResults := by
  refine ⟨?apertures, ?closed, fun _ _ _ _ _ => exec_cxlMemAccess_outside, ?cxl, ?snoop⟩
  case apertures =>
    intro s a hready hfunc hrange
    have hopen := apertures_ready hready hfunc
    refine ⟨fun l hwr hdevice => ?_, fun hwr hdevice hclear => ?_, fun l hwr hdevice => ?_, fun hwr => ?_⟩
    · rw [exec_hostCoherentAccess hopen hrange, State.homeAccess_write hwr hdevice]
    · rw [exec_hostCoherentAccess hopen hrange, State.homeAccess_read hwr hdevice hclear]
    · have hlength : (l.take a.len).length ≤ a.len := List.length_take_le _ _
      refine ⟨_, exec_hostDirectAccess_write hopen hrange hwr hdevice, rfl, fun i b hi hb => ?_,
        fun p hp hout => State.mem_shadowed hp (by omega)⟩
      obtain ⟨hlt, rfl⟩ := List.getElem?_eq_some_iff.1 hb
      rw [State.directByte_shadowed _ _ _ (by rw [List.length_take]; omega), List.getElem_take]
    · obtain ⟨hlength, hstate⟩ := s.readBytes_free State.directByte_free ((s.func a.func).dapbase * 2 ^ 30 + a.off) a.len
      refine ⟨_, exec_hostDirectAccess_read hopen hrange hwr, hlength, ?_⟩
      rw [hstate]
  case closed =>
    intro s a hboot i hi
    rw [exec_hostAccess_closed (apertures_closed hboot) i hi]
    exact ⟨fun hwr => by rw [State.closedAccess_write hwr], fun hwr => by rw [State.closedAccess_read hwr]⟩
  case cxl =>
    intro s a hready hfunc hrange hfrom hto
    rw [exec_cxlMemAccess (apertures_ready hready (.inl rfl)) hfunc hfrom hto]
    exact ⟨fun l hwr => by rw [State.homeAccess_write hwr hrange], fun hwr hclear => by rw [State.homeAccess_read hwr hrange hclear]⟩
  case snoop =>
    intro s line inv hinv
    exact ⟨_, rfl, snooped hinv.1 (s.writeBack_outsideHbm fun x => cxSector_not_inHbm)⟩

end Sys2Proof.Machine
end

section
/-! PFT messages received: in order, again, and before their turn (R412 to R415). -/

namespace Sys2Proof.Machine

/-! ## Flows (R413) -/

theorem Net.flow_node (x : Net) (node : Nat) : (x.flow node).node = node := by
  unfold Net.flow
  cases h : x.flows.find? (·.node == node) with
  | none => rfl
  | some f => exact beq_iff_eq.1 (List.find?_some h :)

theorem Net.setFlow_flow (x : Net) {f : Flow} {node : Nat} (hnode : f.node = node) : (x.setFlow f).flow node = f := by
  subst hnode
  have hold : (x.flows.filter (·.node != f.node)).find? (·.node == f.node) = none := by
    refine List.find?_eq_none.2 fun g hg hnode => ?_
    simpa [beq_iff_eq.1 hnode] using (List.mem_filter.1 hg).2
  show ((x.flows.filter (·.node != f.node) ++ [f]).find? (·.node == f.node)).getD _ = f
  rw [List.find?_append, hold, Option.none_or, List.find?_cons_of_pos (by simp)]
  rfl

theorem Flow.not_seen_expect {f : Flow} (hgot : f.got = []) : f.seen f.expect = false := by
  simp [Flow.seen, hgot]

theorem Flow.advance_expect {f : Flow} (hgot : f.got = []) :
    ({ f with got := f.got ++ [f.expect] } : Flow).advance (f.got.length + 1) = { f with expect := (f.expect + 1) % 2 ^ 32 } := by
  have hadvance : ({ f with got := [f.expect] } : Flow).advance 1 = { f with expect := (f.expect + 1) % 2 ^ 32, got := [] } := by
    simp [Flow.advance]
  rw [hgot]
  exact hadvance.trans (by rw [← hgot])

theorem Flow.advance_early {f : Flow} {seq : Nat} (hgot : f.got = []) (hearly : f.expect ≠ seq) :
    ({ f with got := f.got ++ [seq] } : Flow).advance (f.got.length + 1) = { f with got := [seq] } := by
  rw [hgot]
  exact if_neg (by simpa using hearly)

/-! ## Messages (R412, R413) -/

section
variable {s : State} {node seq : Nat} {m : NetMsg} (hready : s.boot.state = .ready)
include hready

/-- A message with a number not seen yet, with the flow `g` that its arrival leaves. -/
theorem State.receive_new {g : Flow} (hseen : (s.net.flow node).seen seq = false)
    (hg : ({ s.net.flow node with got := (s.net.flow node).got ++ [seq] } : Flow).advance ((s.net.flow node).got.length + 1) = g) :
    let z := s.tallyIo 3 node 0x204 none
    (m.inOrder = true → g.got.contains seq = true → s.receive node seq m =
      ({ z with net := s.net.setFlow { g with held := insertHeld g.expect (seq, m) g.held } } : State).releaseHeld node) ∧
    (g.got.contains seq = false →
      s.receive node seq m = (({ z with net := s.net.setFlow g } : State).applyMsg node seq m).releaseHeld node) := by
  subst hg
  have hnet : (s.tallyIo 3 node 0x204 none).net = s.net := rfl
  rw [State.receive, if_neg (by simp [hready])]
  simp only [hnet, hseen, Bool.false_eq_true, if_false]
  exact ⟨fun horder hgot => by simp only [horder, hgot, Bool.and_self, if_true],
    fun hgot => by simp only [hgot, Bool.and_false, Bool.false_eq_true, if_false]⟩

theorem State.receive_inTurn (hexpect : (s.net.flow node).expect = seq) (hgot : (s.net.flow node).got = []) :
    s.receive node seq m = ((({ s.tallyIo 3 node 0x204 none with
      net := s.net.setFlow { s.net.flow node with expect := (seq + 1) % 2 ^ 32 } } : State).applyMsg node seq m).releaseHeld node) := by
  subst hexpect
  exact (State.receive_new hready (Flow.not_seen_expect hgot) (Flow.advance_expect hgot)).2 (by rw [hgot]; rfl)

theorem State.receive_again (hseen : (s.net.flow node).seen seq = true) :
    s.receive node seq m = (s.tallyIo 3 node 0x204 none).receiveAgain node seq := by
  rw [State.receive, if_neg (by simp [hready])]
  exact if_pos hseen

theorem State.receive_early (hseen : (s.net.flow node).seen seq = false) (hearly : (s.net.flow node).expect ≠ seq)
    (hgot : (s.net.flow node).got = []) (hheld : (s.net.flow node).held = []) (horder : m.inOrder = true) :
    let f : Flow := { s.net.flow node with got := [seq], held := [(seq, m)] }
    s.receive node seq m = { s.tallyIo 3 node 0x204 none with net := (s.net.setFlow f).setFlow f } := by
  intro f
  have hwait : (s.net.setFlow f).flow node = f := s.net.setFlow_flow (s.net.flow_node node)
  have hnew := (State.receive_new (m := m) hready hseen (Flow.advance_early hgot hearly)).1 horder (by simp)
  rw [hheld] at hnew
  rw [hnew]
  show State.releaseHeld { s.tallyIo 3 node 0x204 none with net := s.net.setFlow f } node = _
  simp only [State.releaseHeld, hwait]
  simp [f]

end

/-! ## A message that arrives again (R413, R415) -/

section
variable {s : State} {node seq : Nat}

theorem State.receiveAgain_refused (hnacked : seq ∈ (s.net.flow node).nacked) :
    s.receiveAgain node seq = s.reply node (.nack seq true) :=
  if_pos (List.contains_iff_mem.2 hnacked)

variable (hnacked : seq ∉ (s.net.flow node).nacked)
include hnacked

theorem State.receiveAgain_full (hfull : seq ∈ (s.net.flow node).full) :
    s.receiveAgain node seq = s.reply node (.nack seq false) := by
  rw [State.receiveAgain, if_neg (by simpa using hnacked), if_pos (by simpa using hfull)]

variable (hfull : seq ∉ (s.net.flow node).full)
include hfull

theorem State.receiveAgain_held (hheld : ∃ h ∈ (s.net.flow node).held, h.1 = seq) : s.receiveAgain node seq = s := by
  rw [State.receiveAgain, if_neg (by simpa using hnacked), if_neg (by simpa using hfull), if_pos (by simpa using hheld)]

theorem State.receiveAgain_answered (hheld : ∀ h ∈ (s.net.flow node).held, h.1 ≠ seq) :
    (s.shipWaits node seq = some true → s.receiveAgain node seq = s.reply node (.nack seq false)) ∧
    (s.shipWaits node seq = some false → s.receiveAgain node seq = s) ∧
    (s.shipWaits node seq = none → s.receiveAgain node seq = s.reply node (.ack [seq])) := by
  rw [State.receiveAgain, if_neg (by simpa using hnacked), if_neg (by simpa using hfull), if_neg (by simpa using fun x hmem => hheld (seq, x) hmem rfl)]
  exact ⟨fun h => by rw [h], fun h => by rw [h], fun h => by rw [h]⟩

end

/-- Settles O44: each message is `receive` of its content, which its number in the flow sends to one of three branches. -/
theorem pftReceiptResults : Obligations.PftReceiptResults := by
  intro s src seq op exp off len add val entry lock kind m task args ok out results queue cond fire target chain count data hready
    node z f req p hp
  have hexec : exec p.1 s = .next (s.receive node seq p.2) := by
    simp only [List.mem_cons, List.not_mem_nil, or_false] at hp
    obtain rfl | rfl | rfl | rfl | rfl | rfl | rfl | rfl | rfl := hp <;> rfl
  rw [hexec]
  refine ⟨fun hexpect hgot => by rw [State.receive_inTurn hready hexpect hgot], fun hseen hnacked => ?_,
    fun hseen hnacked hfull => ?_, fun hseen hnacked hfull hheld => ?_, fun hseen hnacked hfull hheld => ?_,
    fun hseen hearly hgot hheld horder => ?_⟩
  · rw [State.receive_again hready hseen, State.receiveAgain_refused (s := z) hnacked]
  · rw [State.receive_again hready hseen, State.receiveAgain_full (s := z) hnacked hfull]
  · obtain ⟨hrefused, hoffered, hdone⟩ := State.receiveAgain_answered (s := z) hnacked hfull hheld
    rw [State.receive_again hready hseen]
    have hwaits : z.shipWaits node seq = s.shipWaits node seq := rfl
    rcases h : s.shipWaits node seq with _ | _ | _
    · exact congrArg _ (hdone (hwaits.trans h))
    · exact congrArg _ (hoffered (hwaits.trans h))
    · exact congrArg _ (hrefused (hwaits.trans h))
  · rw [State.receive_again hready hseen, State.receiveAgain_held (s := z) hnacked hfull hheld]
  · have hset := Net.setFlow_flow (s.net.setFlow { f with got := [seq], held := [(seq, p.2)] })
      (f := { f with got := [seq], held := [(seq, p.2)] }) (s.net.flow_node node)
    refine ⟨_, congrArg _ (State.receive_early hready hseen hearly hgot hheld horder), rfl, ?_, ?_⟩
    · exact congrArg (·.held) hset
    · exact congrArg (·.expect) hset

end Sys2Proof.Machine
end

section
/-! Windows of the energy accounting and the management port (R444 to R451, R456). -/

namespace Sys2Proof.Machine

/-! ## The shares of a window (R447) -/

theorem insertShare_perm (x : Share) (l : List Share) : (insertShare x l).Perm (x :: l) := by
  induction l with
  | nil => exact .refl _
  | cons y l ih =>
    unfold insertShare
    split
    · exact .refl _
    · exact (ih.cons y).trans (.swap x y l)

theorem sortShares_perm (l acc : List Share) : (l.foldl (fun l x => insertShare x l) acc).Perm (l ++ acc) := by
  induction l generalizing acc with
  | nil => exact .refl _
  | cons x l ih => exact ((ih _).trans ((insertShare_perm x acc).append_left l)).trans List.perm_middle

/-- The shares before the remainder is given out. -/
def shareRows (d : Nat) (est : List (Nat × Nat)) : List Share :=
  est.map fun p => { ctx := p.1, share := d * p.2 / (est.map (·.2)).sum, rem := d * p.2 % (est.map (·.2)).sum }

theorem shareRows_ctx (d : Nat) (est : List (Nat × Nat)) : (shareRows d est).map (·.ctx) = est.map (·.1) := by
  rw [shareRows, List.map_map]
  rfl

theorem sum_share_add_rem (d total : Nat) (est : List (Nat × Nat)) :
    total * (est.map fun p => d * p.2 / total).sum + (est.map fun p => d * p.2 % total).sum = d * (est.map (·.2)).sum := by
  induction est with
  | nil => rfl
  | cons p est ih =>
    have hp := Nat.div_add_mod (d * p.2) total
    simp only [List.map_cons, List.sum_cons, Nat.mul_add]
    omega

theorem sum_rem_le (d : Nat) {total : Nat} (htotal : 0 < total) (est : List (Nat × Nat)) :
    (est.map fun p => d * p.2 % total).sum ≤ total * est.length := by
  induction est with
  | nil => exact Nat.zero_le _
  | cons p est ih =>
    have hp := Nat.mod_lt (d * p.2) htotal
    simp only [List.map_cons, List.sum_cons, List.length_cons, Nat.mul_add]
    omega

/-- What the whole shares leave is at most one unit for each context. -/
theorem shareRows_rest (d : Nat) {est : List (Nat × Nat)} (htotal : 0 < (est.map (·.2)).sum) :
    ((shareRows d est).map (·.share)).sum ≤ d ∧ d - ((shareRows d est).map (·.share)).sum ≤ est.length := by
  have hsum : ((shareRows d est).map (·.share)).sum = (est.map fun p => d * p.2 / (est.map (·.2)).sum).sum := by
    rw [shareRows, List.map_map]
    rfl
  have hall := sum_share_add_rem d (est.map (·.2)).sum est
  have hrem := sum_rem_le d htotal est
  rw [hsum]
  generalize (est.map (·.2)).sum = total at *
  generalize (est.map fun p => d * p.2 / total).sum = given at *
  generalize (est.map fun p => d * p.2 % total).sum = rem at *
  rw [Nat.mul_comm d total] at hall
  have hle : given ≤ d := Nat.le_of_mul_le_mul_left (by omega) htotal
  refine ⟨hle, Nat.le_of_mul_le_mul_left (c := total) ?_ htotal⟩
  rw [Nat.mul_sub]
  omega

/-- One more for each row of a list of some contexts adds the number of those contexts. -/
theorem sum_map_contains {rows : List Share} {more : List Nat} (hmore : more.Nodup) (hrows : (rows.map (·.ctx)).Nodup)
    (hsub : more ⊆ rows.map (·.ctx)) :
    (rows.map fun r => if more.contains r.ctx then 1 else 0).sum = more.length := by
  have hcount : (rows.map fun r => if more.contains r.ctx then 1 else 0).sum =
      ((rows.map (·.ctx)).filter more.contains).length := by
    rw [← List.countP_eq_length_filter, List.countP_map]
    clear hrows hsub
    induction rows with
    | nil => rfl
    | cons r rows ih =>
      rw [List.map_cons, List.sum_cons, ih, List.countP_cons, Nat.add_comm]
      rfl
  rw [hcount]
  refine (List.Perm.length_eq ?_)
  rw [List.perm_ext_iff_of_nodup (hrows.filter _) hmore]
  intro c
  rw [List.mem_filter, List.contains_iff_mem]
  exact ⟨fun h => h.2, fun h => ⟨hsub h, h⟩⟩

theorem windowShares_ctx (d : Nat) (est : List (Nat × Nat)) : (windowShares d est).map (·.1) = est.map (·.1) := by
  simp only [windowShares, List.map_map]
  rfl

theorem windowShares_sum (d : Nat) {est : List (Nat × Nat)} (hnodup : (est.map (·.1)).Nodup) (htotal : 0 < (est.map (·.2)).sum) :
    ((windowShares d est).map (·.2)).sum = d := by
  obtain ⟨hle, hrest⟩ := shareRows_rest d htotal
  let sorted := (shareRows d est).foldl (fun l x => insertShare x l) []
  let more := (sorted.take (d - ((shareRows d est).map (·.share)).sum)).map (·.ctx)
  have hperm : (sorted.map (·.ctx)).Perm (est.map (·.1)) := by
    rw [← shareRows_ctx d]
    exact ((sortShares_perm (shareRows d est) []).trans (by rw [List.append_nil])).map _
  have hprefix : more.Sublist (sorted.map (·.ctx)) := (List.take_sublist _ _).map _
  have hmore : more.length = d - ((shareRows d est).map (·.share)).sum := by
    have hlength := hperm.length_eq
    rw [List.length_map, List.length_map] at hlength
    rw [List.length_map, List.length_take]
    omega
  have hones := sum_map_contains (rows := shareRows d est) (more := more) (hprefix.nodup (hperm.nodup_iff.2 hnodup))
    (by rw [shareRows_ctx]; exact hnodup) (by rw [shareRows_ctx]; exact fun c hc => hperm.subset (hprefix.subset hc))
  have hsplit : ((windowShares d est).map (·.2)).sum =
      ((shareRows d est).map (·.share)).sum + ((shareRows d est).map fun r => if more.contains r.ctx then 1 else 0).sum := by
    rw [← List.sum_map_add]
    show (((shareRows d est).map fun r => (r.ctx, r.share + if more.contains r.ctx then 1 else 0)).map (·.2)).sum = _
    rw [List.map_map]
    rfl
  omega

/-! ## The posting of a window (R447) -/

/-- Energy posted to contexts. -/
def State.postRows (s : State) (rows : List (Nat × Nat)) : State :=
  rows.foldl (fun s p =>
    if p.2 = 0 then s
    else { s with usage := s.usage.upd {} p.1 fun u => { u with energy := u.energy + p.2, updtime := s.time.toNat } }) s

theorem State.postRows_frame (rows : List (Nat × Nat)) (s : State) : s.postRows rows = { s with usage := (s.postRows rows).usage } := by
  induction rows generalizing s with
  | nil => rfl
  | cons p rows ih =>
    show State.postRows (if p.2 = 0 then s else _) rows = { s with usage := (State.postRows (if p.2 = 0 then s else _) rows).usage }
    split
    · exact ih s
    · exact ih _

theorem State.postWindow_eq (s : State) (e st : Nat) :
    let est := s.windowCounts.map fun p => (p.1, p.2.estimate)
    let idle := e ≤ st ∨ (est.map (·.2)).sum = 0
    s.postWindow e st = ({ s with
      idleuj := s.idleuj + (if idle then e else st), pkguj := s.pkguj + e, windowCounts := [] } : State).postRows
        (if idle then [] else windowShares (e - st) est) := rfl

theorem State.postWindow_result (s : State) (e st : Nat) : let t := s.postWindow e st
    t.pkguj = s.pkguj + e ∧ t.windowCounts = [] ∧ (e ≤ st → t.idleuj = s.idleuj + e ∧ t.usage = s.usage) ∧
      (st < e → (s.windowCounts.map fun p => p.2.estimate).sum ≠ 0 → t.idleuj = s.idleuj + st) := by
  intro t
  have heq := s.postWindow_eq e st
  have hest : (s.windowCounts.map fun p => (p.1, p.2.estimate)).map (·.2) = s.windowCounts.map fun p => p.2.estimate := by
    rw [List.map_map]
    rfl
  dsimp only at heq
  rw [hest] at heq
  refine ⟨?_, ?_, fun hle => ?_, fun hlt hactive => ?_⟩
  · rw [show t = _ from heq, State.postRows_frame]
  · rw [show t = _ from heq, State.postRows_frame]
  · rw [show t = _ from heq, if_pos (.inl hle), if_pos (.inl hle)]
    exact ⟨rfl, rfl⟩
  · rw [show t = _ from heq, State.postRows_frame, if_neg (not_or.2 ⟨Nat.not_le.2 hlt, hactive⟩)]

/-! ## The management port (R450, R451) -/

theorem exec_reconciliationWindow {s : State} (r : WindowReading) (hready : s.boot.state = .ready) (hend : s.windowEnd ≤ s.time.toNat) :
    exec (.reconciliationWindow r) s =
      .next ((((s.settleWindow r.energy r.static).createPending.takeSnapshot).takeHealth r).nextWindow) :=
  if_pos (c := s.boot.state = .ready ∧ s.windowEnd ≤ s.time.toNat) ⟨hready, hend⟩

theorem exec_reconciliationWindow_early {s : State} (r : WindowReading)
    (hearly : s.boot.state ≠ .ready ∨ s.time.toNat < s.windowEnd) : exec (.reconciliationWindow r) s = .next s :=
  if_neg (c := s.boot.state = .ready ∧ s.windowEnd ≤ s.time.toNat) fun ⟨hready, hend⟩ =>
    hearly.elim (fun h => h hready) (Nat.not_lt.2 hend)

section
variable {s : State} (hpower : s.boot.power = true) (good : Nat) (l : List Byte)
include hpower

theorem State.answer_ready (hboot : s.boot.state = .ready) : s.answer good l = { s with
    mgmt := some { code := good, bytes := natLe 8 s.snapshot.seq ++ natLe 8 s.snapshot.wtime ++ if good = 0 then l else [] } } := by
  rw [State.answer, hpower, hboot]
  rfl

theorem State.answer_recovery (hboot : s.boot.state = .recovery) :
    s.answer good l = { s with mgmt := some { code := 2, bytes := natLe 8 s.snapshot.seq ++ natLe 8 s.snapshot.wtime } } := by
  rw [State.answer, hpower, hboot]
  rfl

theorem State.answer_stopped (hboot : s.boot.state = .stopped) : s.answer good l = { s with
    mgmt := some { code := 2, bytes := natLe 8 s.snapshot.seq ++ natLe 8 s.snapshot.wtime ++ if good = 0 then l else [] } } := by
  rw [State.answer, hpower, hboot]
  rfl

theorem State.answer_booting (hboot : s.boot.state = .booting) : s.answer good l = { s with mgmt := none } := by
  rw [State.answer, hpower, hboot]
  rfl

end

theorem exec_getUsage_inRange {s : State} {first count : Nat} (hcount : 1 ≤ count) (hmost : count ≤ 8) (hend : first + count ≤ 1024) :
    exec (.getUsage first count) s = .next (s.answer 0 ((List.range count).flatMap fun i =>
      natLe 128 (s.snapshot.records.get ({} : Usage) (first + i)).toNat)) := by
  have hok : (decide (first ≤ 1023) && decide (1 ≤ count) && decide (count ≤ 8) && decide (first + count ≤ 1024)) = true := by
    simp only [Bool.and_eq_true, decide_eq_true_eq]
    omega
  show execGetUsage first count s = _
  rw [execGetUsage, hok, Nat.min_eq_left hmost]
  rfl

theorem exec_getUsage_outside {s : State} {first count : Nat} (hout : count = 0 ∨ 8 < count ∨ 1024 < first + count) :
    exec (.getUsage first count) s = .next (s.answer 1 ((List.range (min count 8)).flatMap fun i =>
      natLe 128 (s.snapshot.records.get ({} : Usage) (first + i)).toNat)) := by
  have hok : (decide (first ≤ 1023) && decide (1 ≤ count) && decide (count ≤ 8) && decide (first + count ≤ 1024)) = false := by
    rw [Bool.eq_false_iff]
    simp only [ne_eq, Bool.and_eq_true, decide_eq_true_eq]
    omega
  show execGetUsage first count s = _
  rw [execGetUsage, hok]
  rfl

/-- The usage messages are answers of the management port. -/
theorem exec_usageMessage (s : State) (first count : Nat) :
    ∀ i ∈ [Instr.getUsageHeader, .getHealth, .getUsage first count], ∃ good l, exec i s = .next (s.answer good l) := by
  intro i hi
  simp only [List.mem_cons, List.not_mem_nil, or_false] at hi
  obtain rfl | rfl | rfl := hi
  · exact ⟨_, _, rfl⟩
  · exact ⟨_, _, rfl⟩
  · exact ⟨_, _, rfl⟩

/-- The two usage messages whose answer needs no operand. -/
theorem exec_usagePair (s : State) :
    ∀ p ∈ [(Instr.getUsageHeader, natLe 64 s.snapshot.header), (.getHealth, natLe 64 s.health.toNat)],
      exec p.1 s = .next (s.answer 0 p.2) := by
  intro p hp
  simp only [List.mem_cons, List.not_mem_nil, or_false] at hp
  obtain rfl | rfl := hp
  · rfl
  · rfl

/-- Settles O47: the shares of a window by the rule of largest remainders, an answer of the management port by the boot state. -/
theorem accountingAndManagementResults : Obligations.AccountingAndManagementResults := by
  refine ⟨⟨fun _ => exec_reconciliationWindow, fun _ => exec_reconciliationWindow_early, fun _ => rfl,
    fun d est hnodup htotal => ⟨windowShares_sum d hnodup htotal, windowShares_ctx d est⟩, State.postWindow_result⟩, ?_⟩
  intro s first count hpower head usage pairs
  refine ⟨fun hboot => ⟨fun p hp => ?_, fun hcount hmost hend => ?_, fun hout => ?_, ?_⟩, fun hboot i hi => ?_, fun hboot p hp => ?_,
    fun hboot i hi => ?_⟩
  · rw [exec_usagePair s p hp, State.answer_ready hpower _ _ hboot]
    rfl
  · rw [exec_getUsage_inRange hcount hmost hend, State.answer_ready hpower _ _ hboot]
    rfl
  · rw [exec_getUsage_outside hout, State.answer_ready hpower _ _ hboot, if_neg (by decide), List.append_nil]
  · rw [State.unknownCommand, State.answer_ready hpower _ _ hboot, if_neg (by decide), List.append_nil]
  · obtain ⟨good, l, hexec⟩ := exec_usageMessage s first count i hi
    rw [hexec, State.answer_recovery hpower _ _ hboot]
  · rw [exec_usagePair s p hp, State.answer_stopped hpower _ _ hboot]
    rfl
  · obtain ⟨good, l, hexec⟩ := exec_usageMessage s first count i hi
    rw [hexec, State.answer_booting hpower _ _ hboot]

end Sys2Proof.Machine
end

section
/-! The SPDM responder, device time and the ports (R413, R435, R441, R442, R457). -/

namespace Sys2Proof.Machine

/-! ## The SPDM responder (R441, R442) -/

theorem State.spdmAnswer_ready {s : State} (hready : s.boot.state = .ready) (code : Nat) (l : List Byte) :
    s.spdmAnswer code l = .next { s with spdm := some { code, bytes := l } } := if_pos hready

theorem State.spdmAnswer_silent {s : State} (hready : s.boot.state ≠ .ready) (code : Nat) (l : List Byte) :
    s.spdmAnswer code l = .next s := if_neg hready

theorem exec_getCertificate {s : State} {off : Nat} (hoff : off ≤ s.certChain.length) (len : Nat) :
    let part := (s.certChain.drop off).take len
    exec (.getCertificate 0 off len) s =
      s.spdmAnswer 0 (natLe 2 part.length ++ natLe 2 (s.certChain.length - off - part.length) ++ part) :=
  if_pos (c := 0 = 0 ∧ off ≤ s.certChain.length) ⟨rfl, hoff⟩

theorem exec_getCertificate_none {s : State} {slot off : Nat} (hnone : slot ≠ 0 ∨ s.certChain.length < off) (len : Nat) :
    exec (.getCertificate slot off len) s = s.spdmAnswer 1 [] :=
  if_neg (c := slot = 0 ∧ off ≤ s.certChain.length) fun ⟨hslot, hoff⟩ => hnone.elim (fun h => h hslot) (Nat.not_lt.2 hoff)

/-- A measurement block: the index, and what it measures. -/
def State.measured (s : State) (l : List Nat) : List Byte := l.flatMap fun i => (BitVec.ofNat 8 i : Byte) :: s.measurement i

theorem exec_getMeasurements_all (s : State) (nonce : List Byte) : exec (.getMeasurements 0xFF nonce) s =
    s.spdmAnswer 0 (s.measured [1, 2, 3, 4, 5] ++ s.sign (s.measured [1, 2, 3, 4, 5] ++ nonce)) := rfl

theorem exec_getMeasurements_count (s : State) (nonce : List Byte) :
    exec (.getMeasurements 0 nonce) s = s.spdmAnswer 0 ([5] ++ s.sign ([5] ++ nonce)) := rfl

theorem exec_getMeasurements_one (s : State) {i : Nat} (hfirst : 1 ≤ i) (hlast : i ≤ 5) (nonce : List Byte) :
    exec (.getMeasurements i nonce) s = s.spdmAnswer 0 (s.measured [i] ++ s.sign (s.measured [i] ++ nonce)) := by
  show execGetMeasurements i nonce s = _
  have hall : i ≠ 0xFF := by omega
  have hzero : i ≠ 0 := by omega
  simp only [execGetMeasurements, if_neg hall, if_pos (show 1 ≤ i ∧ i ≤ 5 from ⟨hfirst, hlast⟩), if_neg hzero]
  exact if_pos (.inr (List.cons_ne_nil _ _))

theorem exec_getMeasurements_none (s : State) {i : Nat} (hfirst : 6 ≤ i) (hall : i ≠ 0xFF) (nonce : List Byte) :
    exec (.getMeasurements i nonce) s = s.spdmAnswer 1 [] := by
  show execGetMeasurements i nonce s = _
  have hzero : i ≠ 0 := by omega
  simp only [execGetMeasurements, if_neg hall, if_neg (show ¬(1 ≤ i ∧ i ≤ 5) by omega), if_neg hzero]
  exact if_neg fun h => h.elim hzero fun hne => hne rfl

/-- The requests that the statement names are each an answer of the responder. -/
theorem exec_spdmRequest (s : State) (nonce : List Byte) :
    ∀ i ∈ [Instr.getVersion, .getCapabilities, .negotiateAlgorithms, .getDigests, .getCertificate 0 0 1, .challenge nonce,
      .getMeasurements 0 nonce], ∃ code l, exec i s = s.spdmAnswer code l := by
  intro i hi
  simp only [List.mem_cons, List.not_mem_nil, or_false] at hi
  obtain rfl | rfl | rfl | rfl | rfl | rfl | rfl := hi
  · exact ⟨_, _, rfl⟩
  · exact ⟨_, _, rfl⟩
  · exact ⟨_, _, rfl⟩
  · exact ⟨_, _, rfl⟩
  · exact ⟨_, _, exec_getCertificate (Nat.zero_le _) 1⟩
  · exact ⟨_, _, rfl⟩
  · exact ⟨_, _, exec_getMeasurements_count s nonce⟩

/-- Settles O48: each request is one answer of the responder, which a device that is not ready does not give. -/
theorem attestationResults : Obligations.AttestationResults := by
  intro s nonce chain tells sign
  have tell : s.boot.state = .ready → ∀ code l, s.spdmAnswer code l = tells code l := fun hready => State.spdmAnswer_ready hready
  refine ⟨rfl, rfl, fun hready => ⟨tell hready _ _, ?_, ?_, tell hready _ _, tell hready _ _, fun off len hoff => ?_,
    fun slot off len hnone => ?_, tell hready _ _, ?_, fun i hfirst hlast => ?_, ?_, fun i hfirst hall => ?_⟩, fun hready i hi => ?_⟩
  · exact tell hready _ _
  · exact tell hready _ _
  · rw [exec_getCertificate hoff]
    exact tell hready _ _
  · rw [exec_getCertificate_none hnone]
    exact tell hready _ _
  · rw [exec_getMeasurements_count]
    exact tell hready _ _
  · rw [exec_getMeasurements_one s hfirst hlast, State.measured, List.flatMap_singleton]
    exact tell hready _ _
  · rw [exec_getMeasurements_all]
    exact tell hready _ _
  · rw [exec_getMeasurements_none s hfirst hall]
    exact tell hready _ _
  · obtain ⟨code, l, hexec⟩ := exec_spdmRequest s nonce i hi
    rw [hexec, State.spdmAnswer_silent hready]

/-! ## Device time (R457) -/

section
variable {s : State} {t : Dword} (hready : s.boot.state = .ready) (hoff : s.ptp.enabled = false)
include hready hoff

theorem exec_ptpEnable_behind (hbehind : t.toNat ≤ s.time.toNat) : exec (.ptpEnable t) s =
    .next { s with ptp := { s.ptp with enabled := true, offset := (t.toNat : Int) - s.time.toNat } } := by
  show execPtpEnable t s = _
  rw [execPtpEnable, if_neg (by simp [hready, hoff])]
  exact if_neg (Nat.not_lt.2 hbehind)

theorem exec_ptpEnable_ahead (hahead : s.time.toNat < t.toNat) : exec (.ptpEnable t) s = .next { s with
    time := t, windowEnd := min s.windowEnd s.time.toNat, windowFrom := t.toNat
    ptp := { s.ptp with enabled := true, offset := 0 } } := by
  show execPtpEnable t s = _
  rw [execPtpEnable, if_neg (by simp [hready, hoff])]
  exact if_pos hahead

end

theorem exec_ptpEnable_again {s : State} (t : Dword) (hon : s.ptp.enabled = true) : exec (.ptpEnable t) s = .next s :=
  if_pos (c := s.boot.state ≠ .ready ∨ s.ptp.enabled) (.inr hon)

theorem exec_ptpMessage {s : State} {port : Nat} (hready : s.boot.state = .ready) (hon : s.ptp.enabled = true)
    (hactive : s.net.ports[port]? = some true) (offset : Int) (best : Bool) : exec (.ptpMessage port offset best) s =
      (let p : Ptp := if best then { s.ptp with port := some port } else s.ptp
      .next { s with ptp := if p.port = some port then { p with offset } else p }) :=
  if_pos (c := s.boot.state = .ready ∧ s.ptp.enabled ∧ s.net.ports[port]? = some true) ⟨hready, hon, hactive⟩

theorem Ptp.steer_off {p : Ptp} (hoff : p.enabled = false) (e n : Nat) : p.steer e n = 0 := by
  rw [Ptp.steer, hoff]
  rfl

theorem Ptp.steer_bounds (p : Ptp) (e n : Nat) : (p.steer e n).natAbs ≤ (e + n) / 2000 - e / 2000 ∧
    (p.steer e n).natAbs ≤ p.offset.natAbs ∧ (0 ≤ p.offset → 0 ≤ p.steer e n) ∧ (p.offset ≤ 0 → p.steer e n ≤ 0) := by
  unfold Ptp.steer
  split
  · dsimp only
    omega
  · simp

section
variable {β : Type} (p : State → β)

/-- Counting for contexts keeps what does not read their counts. -/
theorem State.counts_keep (hp : ∀ (s : State) counts windowCounts, p { s with counts, windowCounts } = p s) {α : Type} (ctx : α → Nat)
    (f : α → Usage → Usage) (l : List α) (s : State) : p (l.foldl (fun s x => s.count (ctx x) (f x)) s) = p s := by
  induction l generalizing s with
  | nil => rfl
  | cons x l ih => exact (ih (s.count (ctx x) (f x))).trans (hp ..)

theorem State.passCounters_keep (hp : ∀ (s : State) free cores dieCounters, p { s with free, cores, dieCounters } = p s) (s : State)
    (a b : Nat) : p (s.passCounters a b) = p s := by
  unfold State.passCounters
  split
  · rfl
  · exact hp ..

end

theorem State.elapse_clock (s : State) (n : Nat) : (s.elapse n).elapsed = s.elapsed + n ∧
    (s.elapse n).time = s.time + BitVec.ofNat 64 ((n : Int) + s.ptp.steer s.elapsed n).toNat ∧
    (s.elapse n).ptp.offset = s.ptp.offset - s.ptp.steer s.elapsed n := by
  simp only [State.elapse, State.passCounters_keep State.elapsed fun _ _ _ _ => rfl,
    State.passCounters_keep State.time fun _ _ _ _ => rfl, State.passCounters_keep State.ptp fun _ _ _ _ => rfl,
    State.counts_keep State.elapsed fun _ _ _ => rfl, State.counts_keep State.time fun _ _ _ => rfl,
    State.counts_keep State.ptp fun _ _ _ => rfl, and_self]

/-! ## The ports (R413, R435) -/

/-- Settles O49: PTP by the branch of its instruction, steering by the bound that clips it. -/
theorem timeAndPortResults : Obligations.TimeAndPortResults := by
  refine ⟨fun s t hready hoff => ⟨exec_ptpEnable_behind hready hoff, exec_ptpEnable_ahead hready hoff⟩,
    fun _ _ => exec_ptpEnable_again _, fun s port offset hready hon hactive => ⟨?_, ?_⟩,
    fun p e n => ⟨fun hoff => p.steer_off hoff e n, p.steer_bounds e n⟩, State.elapse_clock, fun _ _ _ => rfl,
    fun s port => ⟨fun hboot => if_pos hboot, fun hboot => ⟨_, if_neg hboot, natLe_length _ _, rfl⟩⟩⟩
  · rw [exec_ptpMessage hready hon hactive]
    exact congrArg Host.Outcome.next (congrArg (fun p => { s with ptp := p }) (if_pos rfl))
  · rw [exec_ptpMessage hready hon hactive]
    by_cases hport : s.ptp.port = some port
    · rw [if_pos hport]
      exact congrArg Host.Outcome.next (congrArg (fun p => { s with ptp := p }) (if_pos hport))
    · rw [if_neg hport]
      exact congrArg Host.Outcome.next (congrArg (fun p => { s with ptp := p }) (if_neg hport))

end Sys2Proof.Machine
end

section
/-! The mailbox, and its operations on queue programs, contexts, core sets and translations (R399, R406, R416 to R418, R422, R429,
R433, R446). -/

namespace Sys2Proof.Machine

/-! ## The mailbox (R416) -/

section
variable {s : State} {func : Nat} (htakes : s.takesCommand func)
include htakes

theorem State.mailbox_of_takes : (s.boot.state == .recovery && func == 0) = false ∧
    (128 ≤ func || !(s.boot.state == .ready || false) || (s.func func).stat == 1) = false := by
  obtain ⟨hfunc, hready, hstat⟩ := htakes
  exact ⟨by simp [hready], by simp [hready, hstat, hfunc]⟩

theorem State.mailbox_done (fw : Bool) (e : State) : s.mailbox func fw (.ok (e, false)) = e.setStat func 2 0 0 := by
  obtain ⟨hrecovery, hopen⟩ := State.mailbox_of_takes htakes
  simp only [State.mailbox, hrecovery, hopen, Bool.false_and, Bool.false_eq_true, if_false]

theorem State.mailbox_stays (fw : Bool) (e : State) : s.mailbox func fw (.ok (e, true)) = e.setStat func 1 0 0 := by
  obtain ⟨hrecovery, hopen⟩ := State.mailbox_of_takes htakes
  simp only [State.mailbox, hrecovery, hopen, Bool.false_and, Bool.false_eq_true, if_false, if_true]

theorem State.mailbox_rejects (fw : Bool) (reason word : Nat) :
    s.mailbox func fw (.error (reason, word)) = s.setStat func 3 reason word := by
  obtain ⟨hrecovery, hopen⟩ := State.mailbox_of_takes htakes
  simp only [State.mailbox, hrecovery, hopen, Bool.false_and, Bool.false_eq_true, if_false]

end

theorem State.mailbox_busy {s : State} {func : Nat} (hstat : (s.func func).stat = 1) (fw : Bool) (r : Mailbox) :
    s.mailbox func fw r = s := if_pos (by simp [hstat])

theorem State.takes_of_ready {s : State} {func : Nat} (hfunc : func < 128) (hready : s.boot.state = .ready)
    (hstat : (s.func func).stat ≠ 1) : s.takesCommand func := ⟨hfunc, hready, hstat⟩

/-! ## The tests of the operations (R399, R416) -/

theorem passed_bind {α β : Type} (a : α) (f : α → Except (Nat × Nat) β) : (Except.ok a >>= f) = f a := rfl

theorem rejected_bind {α β : Type} (e : Nat × Nat) (f : α → Except (Nat × Nat) β) : (Except.error e >>= f) = .error e := rfl

theorem demand_ok {ok : Bool} (h : ok = true) (reason : Nat) : demand ok reason = .ok () := if_pos h

theorem demand_fails {ok : Bool} (h : ok = false) (reason : Nat) : demand ok reason = .error (reason, 0) := if_neg (by simp [h])

theorem State.owned_ok {s : State} {func ctx : Nat} {x : Ctx} (hctx : s.ctx? ctx = some x) (hfunc : x.func = func) :
    s.owned func ctx = .ok x := by
  rw [State.owned, hctx]
  exact if_pos hfunc

theorem State.owned_absent {s : State} {func ctx : Nat} (hctx : s.ctx? ctx = none) : s.owned func ctx = .error (1, 0) := by
  rw [State.owned, hctx]

theorem State.owned_foreign {s : State} {func ctx : Nat} {x : Ctx} (hctx : s.ctx? ctx = some x) (hfunc : x.func ≠ func) :
    s.owned func ctx = .error (3, 0) := by
  rw [State.owned, hctx]
  exact if_neg hfunc

theorem State.forHolder_ok {s : State} {func ctx : Nat} {x : Ctx} (hsem : s.holdsSem func = true) (hctx : s.ctx? ctx = some x) :
    s.forHolder func ctx = .ok x := by
  rw [State.forHolder, demand_ok hsem, hctx]
  rfl

theorem State.coreMask_ok {s : State} {pa : Nat} (hpa : pa + 64 ≤ Config.usageBase) :
    s.coreMask pa = .ok ((List.range 512).filter fun i => (s.num pa 64).testBit i) := by
  rw [State.coreMask, demand_ok (decide_eq_true hpa)]
  rfl

theorem portOf_isSome {func : Nat} : (portOf func).isSome = true ↔ func = 0 ∨ func = 64 := by
  unfold portOf
  split
  · exact iff_of_true rfl (.inl ‹_›)
  · split
    · exact iff_of_true rfl (.inr ‹_›)
    · exact iff_of_false (by decide) (not_or.2 ⟨‹_›, ‹_›⟩)

/-! ## Queue programs (R406) -/

section
variable {s : State} {func ctx : Nat} {x : Ctx} (hctx : s.ctx? ctx = some x)
include hctx

theorem State.loadProgram_ok (hfunc : x.func = func) {prog head : Nat} {va : Dword} {l : List Byte}
    {ws : List (Dword × Nat × Bool)} (hfirst : 1 ≤ prog) (hlast : prog ≤ 4095) (hhead : s.loadNat ctx va 136 = .ok head)
    (hsome : 1 ≤ head % 2 ^ 16) (hmost : head % 2 ^ 16 ≤ 1024) (hload : s.load ctx (va + 136) (4 * (head % 2 ^ 16)) = .ok l)
    (hverify : verifyImage head ((List.range (head % 2 ^ 16)).map fun i => BitVec.ofNat 32 (leNat l / 2 ^ (32 * i))) = .ok ws) :
    s.loadProgram func prog ctx va = .ok (s.updCtx ctx fun c =>
      { c with
        progs := c.progs.filter (·.num != prog) ++ [{
          num := prog, words := (List.range (head % 2 ^ 16)).map fun i => BitVec.ofNat 32 (leNat l / 2 ^ (32 * i)), windows := ws }] },
      false) := by
  have hrange : (decide (1 ≤ prog) && decide (prog ≤ 4095)) = true := by simp [hfirst, hlast]
  have hwords : bitsOf head 15 0 = head % 2 ^ 16 := by simp [bitsOf]
  simp only [State.loadProgram, State.owned_ok hctx hfunc, passed_bind, demand_ok hrange, hhead, hwords,
    if_neg (show ¬(head % 2 ^ 16 = 0 ∨ 1024 < head % 2 ^ 16) by omega), hload, hverify]
  rfl

theorem State.freeProgram_ok (hfunc : x.func = func) {prog : Nat} (hfirst : 1 ≤ prog) (hloaded : x.progs.any (·.num == prog) = true) :
    s.freeProgram func prog ctx = .ok (s.updCtx ctx fun c => { c with progs := c.progs.filter (·.num != prog) }, false) := by
  have hok : (decide (1 ≤ prog) && x.progs.any (·.num == prog)) = true := by simp [hfirst, hloaded]
  simp only [State.freeProgram, State.owned_ok hctx hfunc, passed_bind, demand_ok hok]
  rfl

/-! ## Contexts (R417, R418, R422, R429, R433, R446) -/

theorem State.destroyCtx_ok (hfunc : x.func = func ∨ func = 0 ∨ func = 64) :
    s.destroyCtx func ctx = .ok (s.endContext ctx, false) := by
  rw [State.destroyCtx, hctx]
  exact if_pos (hfunc.imp_right portOf_isSome.2)

theorem State.setCores_ok {pa : Nat} (hsem : s.holdsSem func = true) (hpa : pa + 64 ≤ Config.usageBase) :
    let mask := (List.range 512).filter fun i => (s.num pa 64).testBit i
    let new := mask.filter fun k => !x.cores.contains k
    (∀ k ∈ new, ∀ p ∈ s.ctxs, ∀ y, p.2 = some y → k ∉ y.cores) →
    (new = [] ∨ x.cores ≠ [] ∨ (s.ctxs.filter fun p => p.2.any fun y => !y.cores.isEmpty).length < 64) →
    x.layoutBytes (new.foldl keyInsert x.cores).length (new.foldl keyInsert x.everCores).length ≤ x.cmsize →
    s.setCores func ctx pa = .ok (s.updCtx ctx fun c =>
      { c with cores := new.foldl keyInsert c.cores, everCores := new.foldl keyInsert x.everCores }, false) := by
  intro mask new hfree hroom hsize
  have htaken : (!(new.any fun k => s.ctxs.any fun p => p.2.any fun y => y.cores.contains k)) = true := by
    rw [Bool.not_eq_true', List.any_eq_false]
    intro k hk hany
    obtain ⟨p, hp, hy⟩ := List.any_eq_true.1 hany
    obtain ⟨y, hy, hin⟩ := (Option.any_eq_true _ _).1 hy
    exact hfree k hk p hp y hy (List.contains_iff_mem.1 hin)
  have hresident : (new.isEmpty || !x.cores.isEmpty ||
      decide ((s.ctxs.filter fun p => p.2.any fun y => !y.cores.isEmpty).length < 64)) = true := by
    simpa [List.isEmpty_iff, or_assoc] using hroom
  simp only [State.setCores, State.forHolder_ok hsem hctx, State.coreMask_ok hpa, passed_bind]
  rw [demand_ok htaken, passed_bind, demand_ok hresident, passed_bind, demand_ok (decide_eq_true hsize)]
  rfl

theorem State.preemptCores_ok {pa : Nat} (hsem : s.holdsSem func = true) (hpa : pa + 64 ≤ Config.usageBase) :
    let mask := (List.range 512).filter fun i => (s.num pa 64).testBit i
    mask ≠ [] → (∀ k ∈ mask, k ∈ x.cores) → x.preempting = [] →
    s.preemptCores func ctx pa = .ok ((mask.foldl (fun s k => s.stopCore ctx k) s).updCtx ctx fun x =>
      { x with preempting := mask, preemptFunc := func }, true) := by
  intro mask hsome hmine hidle
  have hcores : mask.all x.cores.contains = true := List.all_eq_true.2 fun k hk => List.contains_iff_mem.2 (hmine k hk)
  have hnone : x.preempting.isEmpty = true := by rw [hidle]; rfl
  have hbusy : (!mask.isEmpty) = true := by simpa [List.isEmpty_iff] using hsome
  simp only [State.preemptCores, State.forHolder_ok hsem hctx, State.coreMask_ok hpa, passed_bind]
  rw [demand_ok hcores, passed_bind, demand_ok hnone, passed_bind, hbusy]
  rfl

theorem State.tlbInvalidate_ok (hfunc : x.func = func) (va len : Dword) : s.tlbInvalidate func ctx va len =
    .ok ({ s with tlb := s.tlb.filter fun t =>
      !(t.ctx == ctx && (len == 0 || (decide (t.va < va.toNat + len.toNat) && decide (va.toNat < t.va + t.size)))) }, false) := by
  rw [State.tlbInvalidate, State.owned_ok hctx hfunc]
  rfl

end

section
variable {s : State} {func ctx pa : Nat} {x : Ctx} (hnum : ctx < 1024) (hctx : s.ctx? ctx = none) (hpa : pa + 64 ≤ Config.usageBase)
  (hparse : parseCtx func (s.num pa 64) = some x)
include hnum hctx hpa hparse

theorem State.createCtx_ok (hended : (s.usage.get ({} : Usage) ctx).ending = false) :
    s.createCtx func ctx pa = .ok (s.newContext ctx x, false) := by
  have hok : (decide (ctx < 1024) && (s.ctx? ctx).isNone && decide (pa + 64 ≤ Config.usageBase)) = true := by simp [hnum, hctx, hpa]
  simp only [State.createCtx, demand_ok hok, passed_bind, hparse, hended, Bool.false_eq_true, if_false]
  rfl

theorem State.createCtx_waits (hending : (s.usage.get ({} : Usage) ctx).ending = true) :
    s.createCtx func ctx pa = .ok (s.updFunc func fun f => { f with pending := some (ctx, x) }, true) := by
  have hok : (decide (ctx < 1024) && (s.ctx? ctx).isNone && decide (pa + 64 ≤ Config.usageBase)) = true := by simp [hnum, hctx, hpa]
  simp only [State.createCtx, demand_ok hok, passed_bind, hparse, hending, if_true]
  rfl

end

/-- Settles O37: each operation passes its tests one after the other, and the mailbox takes over its state. -/
theorem mailboxContextResults : Obligations.MailboxContextResults := by
  intro s func ctx htakes
  refine ⟨?load, ?free, ?create, ?destroy, ?setcores, ?preempt, ?tlbinv⟩
  case load =>
    intro x prog va head l ws hctx hfunc hfirst hlast hhead n hsome hmost hload words hverify
    show Host.Outcome.next (s.mailbox func false ((s.loadProgram func prog ctx va).map _)) = _
    rw [State.loadProgram_ok hctx hfunc hfirst hlast hhead hsome hmost hload hverify]
    exact congrArg _ (State.mailbox_done htakes false _)
  case free =>
    intro x prog hctx hfunc hfirst hloaded
    show Host.Outcome.next (s.mailbox func false (s.freeProgram func prog ctx)) = _
    rw [State.freeProgram_ok hctx hfunc hfirst hloaded, State.mailbox_done htakes]
    rfl
  case create =>
    intro x pa hnum hctx hpa hparse
    show Host.Outcome.next (s.mailbox func false (s.createCtx func ctx pa)) = _
    cases hending : (s.usage.get ({} : Usage) ctx).ending with
    | true => rw [State.createCtx_waits hnum hctx hpa hparse hending, State.mailbox_stays htakes, if_pos rfl]
    | false =>
      rw [State.createCtx_ok hnum hctx hpa hparse hending, State.mailbox_done htakes, if_neg (by decide)]
      rfl
  case destroy =>
    intro x hctx hfunc
    show Host.Outcome.next (s.mailbox func false (s.destroyCtx func ctx)) = _
    rw [State.destroyCtx_ok hctx hfunc, State.mailbox_done htakes]
    rfl
  case setcores =>
    intro x pa hsem hctx hpa mask new hfree hroom hsize
    show Host.Outcome.next (s.mailbox func false (s.setCores func ctx pa)) = _
    rw [State.setCores_ok hctx hsem hpa hfree hroom hsize, State.mailbox_done htakes]
    rfl
  case preempt =>
    intro x pa hsem hctx hpa mask hsome hmine hidle
    show Host.Outcome.next (s.mailbox func false (s.preemptCores func ctx pa)) = _
    rw [State.preemptCores_ok hctx hsem hpa hsome hmine hidle, State.mailbox_stays htakes]
  case tlbinv =>
    intro x va len hctx hfunc
    show Host.Outcome.next (s.mailbox func false (s.tlbInvalidate func ctx va len)) = _
    rw [State.tlbInvalidate_ok hctx hfunc, State.mailbox_done htakes]
    rfl

end Sys2Proof.Machine
end

section
/-! Fault resolution, exports and firmware by the mailbox, and the commands that it turns away (R399, R416, R419, R426, R427, R440). -/

namespace Sys2Proof.Machine

/-! ## RESOLVE, EXPORT, UNEXPORT, FWWRITE and FWACTIVATE (R419, R426, R427, R440) -/

section
variable {s : State} {ctx : Nat} {x : Ctx} (hctx : s.ctx? ctx = some x)
include hctx

theorem State.resolveFault_ok {fid : Nat} {f : FidEnt} {func : Option Nat} (hfunc : func.all (· == x.func) = true)
    (hfid : (x.fids.find? fun f => f.fid == fid) = some f) (fail : Bool) :
    let freed := s.updCtx ctx fun x =>
      { x with fids := x.fids.filter (·.fid != fid), claims := x.claims.filter fun k => k.fid != fid || k.fid == 0 }
    s.resolveFault func fid ctx fail =
      .ok ((if fail then freed.failFault ctx f else freed.retryFault ctx fid).endAdoptions, false) := by
  intro freed
  simp only [State.resolveFault, hctx, demand_ok hfunc, passed_bind, hfid]
  rfl

theorem State.addExport_ok {func pa : Nat} {e : Export} (hfunc : x.func = func) (hpa : pa + 32 ≤ Config.usageBase)
    (hparse : parseExport ctx (s.num pa 32) = some e) (hroom : s.exports.length < 4096) (hnew : ∀ y ∈ s.exports, y.num ≠ e.num) :
    s.addExport func ctx pa = .ok ({ s with exports := s.exports ++ [e] }, false) := by
  have hok : (decide (s.exports.length < 4096) && !(s.exports.any (·.num == e.num))) = true := by simpa [hroom] using hnew
  simp only [State.addExport, State.owned_ok hctx hfunc, passed_bind, demand_ok (decide_eq_true hpa), hparse, demand_ok hok]
  rfl

theorem State.dropExport_ok {func num : Nat} {y : Export} (hfunc : x.func = func) (hy : y ∈ s.exports) (hnum : y.num = num)
    (hyctx : y.ctx = ctx) : s.dropExport func num ctx = .ok ({ s with exports := s.exports.filter (·.num != num) }, false) := by
  have hok : (s.exports.any fun e => e.num == num && e.ctx == ctx) = true := List.any_eq_true.2 ⟨y, hy, by simp [hnum, hyctx]⟩
  simp only [State.dropExport, State.owned_ok hctx hfunc, passed_bind, demand_ok hok]
  rfl

end

theorem State.fwBegin_ok {s : State} {func addr len : Nat} (hready : s.boot.state = .ready) (hsem : s.holdsSem func = true)
    (haddr : addr + min len (32 * 2 ^ 20) ≤ Config.usageBase) :
    s.fwBegin func addr len = .ok ({ s with boot := { s.boot with fw := some { func, addr, len } } }, true) := by
  have hrecovery : s.boot.state ≠ .recovery := by rw [hready]; decide
  have hlen : addr + fwLen len ≤ Config.usageBase := haddr
  rw [State.fwBegin, demand_ok hsem, passed_bind, if_neg hrecovery, demand_ok (decide_eq_true hlen)]
  rfl

theorem State.fwActivate_ok {s : State} {func : Nat} {i : FwImage} (hsem : s.holdsSem func = true)
    (himage : (s.boot.flash[1 - s.boot.slot]?).join = some i) (hgood : i.fail = 0) :
    s.fwActivate func = .ok ({ s with boot := { s.boot with activate := true } }, false) := by
  have hok : (((s.boot.flash[1 - s.boot.slot]?).join).any fun i => i.fail == 0) = true := by rw [himage]; simp [hgood]
  rw [State.fwActivate, demand_ok hsem, passed_bind, demand_ok hok]
  rfl

theorem exec_resolve_service {s e : State} {fid ctx : Nat} {fail busy : Bool} (hready : s.boot.state = .ready)
    (hok : s.resolveFault none fid ctx fail = .ok (e, busy)) : exec (.resolve none fid ctx fail) s = .next e := by
  show execResolve none fid ctx fail s = _
  simp only [execResolve, hok]
  exact if_pos hready

/-- Settles O38: each operation passes its tests, and the mailbox takes over its state. -/
theorem mailboxServiceResults : Obligations.MailboxServiceResults := by
  refine ⟨?_, fun s func htakes => ⟨?_, ?_, ?_, ?_⟩⟩
  · intro s ctx x fid f fail hctx hfid freed e
    refine ⟨fun hready => ?_, fun htakes => ?_⟩
    · exact exec_resolve_service hready (State.resolveFault_ok hctx rfl hfid fail)
    · show Host.Outcome.next (s.mailbox x.func false (s.resolveFault (some x.func) fid ctx fail)) = _
      rw [State.resolveFault_ok hctx (by simp) hfid fail, State.mailbox_done htakes]
      rfl
  · intro ctx x pa e hctx hfunc hpa hparse hroom hnew
    show Host.Outcome.next (s.mailbox func false (s.addExport func ctx pa)) = _
    rw [State.addExport_ok hctx hfunc hpa hparse hroom hnew, State.mailbox_done htakes]
    rfl
  · intro ctx x num y hctx hfunc hy hnum hyctx
    show Host.Outcome.next (s.mailbox func false (s.dropExport func num ctx)) = _
    rw [State.dropExport_ok hctx hfunc hy hnum hyctx, State.mailbox_done htakes]
    rfl
  · intro addr len hsem haddr
    show Host.Outcome.next (s.mailbox func true (s.fwBegin func addr len)) = _
    rw [State.fwBegin_ok htakes.2.1 hsem haddr, State.mailbox_stays htakes]
  · intro i hsem himage hgood
    show Host.Outcome.next (s.mailbox func true (s.fwActivate func)) = _
    rw [State.fwActivate_ok hsem himage hgood, State.mailbox_done htakes]
    rfl

/-! ## Commands turned away (R399, R416) -/

/-- `i` is a command of a function's mailbox, and fails with `e` where `fails` holds. -/
def State.Commands (s : State) (func : Nat) (i : Instr) (fails : Nat × Nat → Prop) : Prop :=
  ∃ fw r, exec i s = .next (s.mailbox func fw r) ∧ ∀ e, fails e → r = .error e

theorem State.Commands.busy {s : State} {func : Nat} {i : Instr} {fails : Nat × Nat → Prop} (h : s.Commands func i fails)
    (hstat : (s.func func).stat = 1) : exec i s = .next s := by
  obtain ⟨fw, r, hexec, -⟩ := h
  rw [hexec, State.mailbox_busy hstat]

theorem State.Commands.rejects {s : State} {func : Nat} {i : Instr} {fails : Nat × Nat → Prop} (h : s.Commands func i fails)
    (htakes : s.takesCommand func) {reason word : Nat} (hfails : fails (reason, word)) :
    exec i s = .next (s.setStat func 3 reason word) := by
  obtain ⟨fw, r, hexec, hr⟩ := h
  rw [hexec, hr _ hfails, State.mailbox_rejects htakes]

/-- The commands on a context of the function itself: they fail with the test of that context. -/
theorem State.commands_owned (s : State) (func ctx prog : Nat) (va : Dword) (pa num : Nat) (pl : DbgPlace) (next : Bool) (idx : Nat)
    (val : Dword) (on : Bool) (len : Dword) :
    ∀ i ∈ [Instr.load func prog ctx va, .free func prog ctx, .tlbinv func va ctx len, .exportCtx func ctx pa, .unexportCtx func num ctx,
      .attach func ctx on, .stopctx func ctx on, .debugResume func ctx pl next, .wrbp func ctx idx val, .rdframe func ctx pl pa,
      .rdstate func ctx pl pa, .wrstate func ctx pl pa], s.Commands func i fun e => s.owned func ctx = .error e := by
  have hthread : ∀ e, s.owned func ctx = .error e → s.debugThread func ctx pl = .error e := fun e h => by
    rw [State.debugThread, h]
    rfl
  intro i hi
  simp only [List.mem_cons, List.not_mem_nil, or_false] at hi
  obtain rfl | rfl | rfl | rfl | rfl | rfl | rfl | rfl | rfl | rfl | rfl | rfl := hi
  · exact ⟨_, _, rfl, fun e h => by rw [State.loadProgram, h]; rfl⟩
  · exact ⟨_, _, rfl, fun e h => by rw [State.freeProgram, h]; rfl⟩
  · exact ⟨_, _, rfl, fun e h => by rw [State.tlbInvalidate, h]; rfl⟩
  · exact ⟨_, _, rfl, fun e h => by rw [State.addExport, h]; rfl⟩
  · exact ⟨_, _, rfl, fun e h => by rw [State.dropExport, h]; rfl⟩
  · exact ⟨_, _, rfl, fun e h => by rw [State.debugAttach, h]; rfl⟩
  · exact ⟨_, _, rfl, fun e h => by rw [State.debugStop, h]; rfl⟩
  · exact ⟨_, _, rfl, fun e h => by rw [State.debugResumeAt, h]; rfl⟩
  · exact ⟨_, _, rfl, fun e h => by rw [State.writeBp, h]; rfl⟩
  · exact ⟨_, _, rfl, fun e h => by rw [State.readFrame, hthread e h]; rfl⟩
  · exact ⟨_, _, rfl, fun e h => by rw [State.readThread, hthread e h]; rfl⟩
  · exact ⟨_, _, rfl, fun e h => by rw [State.writeThread, hthread e h]; rfl⟩

theorem State.commands_resolve (s : State) (func fid ctx : Nat) (fail : Bool) : s.Commands func (.resolve (some func) fid ctx fail)
    fun e => (s.ctx? ctx = none ∧ e = (5, 0)) ∨ ∃ x, s.ctx? ctx = some x ∧ x.func ≠ func ∧ e = (3, 0) := by
  refine ⟨_, _, rfl, fun e h => ?_⟩
  obtain ⟨hctx, rfl⟩ | ⟨x, hctx, hfunc, rfl⟩ := h
  · rw [State.resolveFault, hctx]
    rfl
  · have hforeign : (some func).all (· == x.func) = false := by simpa using Ne.symm hfunc
    simp only [State.resolveFault, hctx, demand_fails hforeign]
    rfl

/-- The commands that need the semaphore. -/
theorem State.commands_held (s : State) (func ctx pa len : Nat) :
    ∀ i ∈ [Instr.setcores func ctx pa, .preempt func ctx pa, .fwwrite func pa len, .fwactivate func],
      s.Commands func i fun e => s.holdsSem func = false ∧ e = (3, 0) := by
  have hholder : s.holdsSem func = false → s.forHolder func ctx = .error (3, 0) := fun h => by
    rw [State.forHolder, demand_fails h]
    rfl
  intro i hi
  simp only [List.mem_cons, List.not_mem_nil, or_false] at hi
  obtain rfl | rfl | rfl | rfl := hi
  · exact ⟨_, _, rfl, fun e ⟨h, he⟩ => by rw [he, State.setCores, hholder h]; rfl⟩
  · exact ⟨_, _, rfl, fun e ⟨h, he⟩ => by rw [he, State.preemptCores, hholder h]; rfl⟩
  · exact ⟨_, _, rfl, fun e ⟨h, he⟩ => by rw [he, State.fwBegin, demand_fails h]; rfl⟩
  · exact ⟨_, _, rfl, fun e ⟨h, he⟩ => by rw [he, State.fwActivate, demand_fails h]; rfl⟩

theorem State.commands_create (s : State) (func ctx pa : Nat) : s.Commands func (.create func ctx pa) fun _ => False :=
  ⟨_, _, rfl, fun _ h => h.elim⟩

theorem State.commands_destroy (s : State) (func ctx : Nat) :
    s.Commands func (.destroy func ctx) fun e => s.ctx? ctx = none ∧ e = (1, 0) :=
  ⟨_, _, rfl, fun e ⟨h, he⟩ => by rw [he, State.destroyCtx, h]⟩

/-- The commands on the state of a thread. -/
theorem State.commands_thread (s : State) (func ctx : Nat) (pl : DbgPlace) (pa : Nat) :
    ∀ i ∈ [Instr.rdframe func ctx pl pa, .rdstate func ctx pl pa, .wrstate func ctx pl pa],
      s.Commands func i fun e => s.debugThread func ctx pl = .error e := by
  intro i hi
  simp only [List.mem_cons, List.not_mem_nil, or_false] at hi
  obtain rfl | rfl | rfl := hi
  · exact ⟨_, _, rfl, fun e h => by rw [State.readFrame, h]; rfl⟩
  · exact ⟨_, _, rfl, fun e h => by rw [State.readThread, h]; rfl⟩
  · exact ⟨_, _, rfl, fun e h => by rw [State.writeThread, h]; rfl⟩

theorem State.debugThread_absent {s : State} {func ctx : Nat} {x : Ctx} {pl : DbgPlace} (hctx : s.ctx? ctx = some x)
    (hfunc : x.func = func) (hnone : s.threadAt ctx pl = none) : s.debugThread func ctx pl = .error (0x0D, 0) := by
  simp only [State.debugThread, State.owned_ok hctx hfunc, passed_bind, hnone]
  rfl

theorem State.debugThread_runs {s : State} {func ctx : Nat} {x : Ctx} {pl : DbgPlace} {t : Thread} (hctx : s.ctx? ctx = some x)
    (hfunc : x.func = func) (ht : s.threadAt ctx pl = some t) (hruns : s.stoppedAt t = false) :
    s.debugThread func ctx pl = .error (0x0C, 0) := by
  simp only [State.debugThread, State.owned_ok hctx hfunc, passed_bind, ht, demand_fails hruns]
  rfl

theorem State.debugThread_ok {s : State} {func ctx : Nat} {x : Ctx} {pl : DbgPlace} {t : Thread} (hctx : s.ctx? ctx = some x)
    (hfunc : x.func = func) (ht : s.threadAt ctx pl = some t) (hstopped : s.stoppedAt t = true) :
    s.debugThread func ctx pl = .ok t := by
  simp only [State.debugThread, State.owned_ok hctx hfunc, passed_bind, ht, demand_ok hstopped]
  rfl

/-- Settles O40: each command is a use of the mailbox, whose operation fails at the first test that does not hold. -/
theorem mailboxRejections : Obligations.MailboxRejections := by
  intro s func ctx hfunc hready named plain held
  have hnamed : ∀ i, named i → s.Commands func i fun e => s.owned func ctx = .error e := fun i hi => by
    obtain ⟨prog, va, pa, num, pl, next, idx, val, on, len, hi⟩ := hi
    exact s.commands_owned func ctx prog va pa num pl next idx val on len i hi
  have hheld : ∀ i, held i → s.Commands func i fun e => s.holdsSem func = false ∧ e = (3, 0) := fun i hi => by
    obtain ⟨pa, len, hi⟩ := hi
    exact s.commands_held func ctx pa len i hi
  refine ⟨fun hstat i hi => ?_, fun hstat => ?_⟩
  · obtain (hi | ⟨fid, fail, rfl⟩) | hi | ⟨pa, rfl⟩ | rfl := hi
    · exact (hnamed i hi).busy hstat
    · exact (s.commands_resolve func fid ctx fail).busy hstat
    · exact (hheld i hi).busy hstat
    · exact (s.commands_create func ctx pa).busy hstat
    · exact (s.commands_destroy func ctx).busy hstat
  · have htakes := State.takes_of_ready hfunc hready hstat
    refine ⟨fun hctx i hi => ?_, fun hctx fid fail => ?_, fun x hctx hforeign i hi => ?_, fun hsem i hi => ?_,
      fun x hctx hown pl pa i hi => ⟨fun hnone => ?_, fun t ht hruns => ?_⟩⟩
    · obtain hi | rfl := hi
      · exact (hnamed i hi).rejects htakes (State.owned_absent hctx)
      · exact (s.commands_destroy func ctx).rejects htakes ⟨hctx, rfl⟩
    · exact (s.commands_resolve func fid ctx fail).rejects htakes (.inl ⟨hctx, rfl⟩)
    · obtain hi | ⟨fid, fail, rfl⟩ := hi
      · exact (hnamed i hi).rejects htakes (State.owned_foreign hctx hforeign)
      · exact (s.commands_resolve func fid ctx fail).rejects htakes (.inr ⟨x, hctx, hforeign, rfl⟩)
    · exact (hheld i hi).rejects htakes ⟨hsem, rfl⟩
    · exact (s.commands_thread func ctx pl pa i hi).rejects htakes (State.debugThread_absent hctx hown hnone)
    · exact (s.commands_thread func ctx pl pa i hi).rejects htakes (State.debugThread_runs hctx hown ht hruns)

end Sys2Proof.Machine
end

section
/-! The sub-operations of DEBUG for the function that created the context (R353 to R355). -/

namespace Sys2Proof.Machine

section
variable {s : State} {ctx func : Nat} {x : Ctx} (hctx : s.ctx? ctx = some x) (hfunc : x.func = func)
include hctx hfunc

theorem State.debugAttach_ok (on : Bool) : s.debugAttach func ctx on = .ok (
    let e := s.updCtx ctx fun x => { x with attached := on }
    if on then e else ((e.atDebugger ctx).foldl State.leaveDebugger e).endAdoptions, false) := by
  rw [State.debugAttach, State.owned_ok hctx hfunc]
  rfl

theorem State.debugStop_ok (on : Bool) : s.debugStop func ctx on = .ok (
    let e := s.updCtx ctx fun x => { x with stop := on }
    if on then e.haltContext ctx { cause := cBreak } else e.resumeContext ctx, false) := by
  rw [State.debugStop, State.owned_ok hctx hfunc]
  rfl

theorem State.debugResumeAt_ok {pl : DbgPlace} {t : Thread} {next : Bool} (ht : s.threadAt ctx pl = some t)
    (htrapped : t.status = .trapped true) (hpass : firstStop s (tretStop next) (s.actorTids (s.actorOf t)) = none) :
    s.debugResumeAt func ctx pl next = .ok (
      let e := (s.trapReturn (s.actorOf t) next).splitAfter (s.actorOf t)
      if x.stop then e.resumeContext ctx else e, false) := by
  have hstatus : (t.status == .trapped true) = true := beq_iff_eq.2 htrapped
  simp only [State.debugResumeAt, State.owned_ok hctx hfunc, passed_bind, ht, demand_ok hstatus, hpass]
  rfl

theorem State.writeBp_ok {idx : Nat} {val : Dword} (hok : (decide (idx ≤ 4) && (idx != 0 || loWord val &&& 0xE0E0E0E0 == 0)) = true) :
    s.writeBp func ctx idx val = .ok (s.updCtx ctx fun x =>
      if idx = 0 then { x with bpctl := loWord val } else { x with bpa := x.bpa.set (idx - 1) val }, false) := by
  rw [State.writeBp, State.owned_ok hctx hfunc, passed_bind, demand_ok hok]
  rfl

section
variable {pl : DbgPlace} {t : Thread} {pa : Nat} (ht : s.threadAt ctx pl = some t) (hstopped : s.stoppedAt t = true)
include ht hstopped

theorem State.readFrame_ok (hpa : devicePa pa 64 64 = true) :
    s.readFrame func ctx pl pa = .ok (s.putMem pa (natLe 64 t.frame.toNat), false) := by
  rw [State.readFrame, State.debugThread_ok hctx hfunc ht hstopped, passed_bind, demand_ok hpa]
  rfl

theorem State.readThread_ok (hpa : devicePa pa (imageBytes t.regs.length) 256 = true) :
    s.readThread func ctx pl pa = .ok (s.putMem pa (t.image (s.haltedAt t)), false) := by
  rw [State.readThread, State.debugThread_ok hctx hfunc ht hstopped, passed_bind, demand_ok hpa]
  rfl

theorem State.writeThread_ok (hpa : devicePa pa (imageBytes t.regs.length) 256 = true) {regs : List Reg}
    (hregs : imageRegs (s.num pa (imageBytes t.regs.length)) t.regs.length = some regs) :
    let raw := s.num pa (imageBytes t.regs.length)
    s.writeThread func ctx pl pa = .ok (s.updThread t.tid fun u => u.replace regs (BitVec.ofNat 7 (raw / 2 ^ (36 * t.regs.length)))
      (BitVec.ofNat 64 (raw / 2 ^ (36 * t.regs.length) / 2 ^ 643 * 8)) (u.inTrap || s.haltedAt u), false) := by
  simp only [State.writeThread, State.debugThread_ok hctx hfunc ht hstopped, passed_bind, demand_ok hpa, hregs]
  rfl

end

end

theorem tretStop_none {t : Thread} {next : Bool} (halign : (t.tretTarget next).toNat % 8 = 0)
    (hcanon : canonical (t.tretTarget next) = true) : tretStop next t = none := by
  rw [tretStop, branchOk_ok halign hcanon]

theorem devicePa_of {pa n align : Nat} (halign : pa % align = 0) (hrange : pa + n ≤ Config.usageBase) : devicePa pa n align = true := by
  simp [devicePa, halign, hrange]

/-- Settles O39: each sub-operation passes its tests, and the mailbox takes over its state. -/
theorem debugResults : Obligations.DebugResults := by
  intro s ctx x hctx func htakes
  have hdone : ∀ fw e, (.next (s.mailbox func fw (.ok (e, false))) : Out) = e.commandDone func :=
    fun fw e => congrArg Host.Outcome.next (State.mailbox_done htakes fw e)
  refine ⟨?_, ?_, ?_, ?_, fun pl t next ht htrapped htargets => ?_, fun val hval => ?_, fun idx val hfirst hlast => ?_,
    fun pl t pa ht hstopped => ⟨fun halign hrange => ?_, fun halign hrange => ⟨?_, fun regs hregs => ?_⟩⟩⟩
  · show Host.Outcome.next (s.mailbox func false (s.debugAttach func ctx true)) = _
    rw [State.debugAttach_ok hctx rfl]
    exact hdone ..
  · show Host.Outcome.next (s.mailbox func false (s.debugAttach func ctx false)) = _
    rw [State.debugAttach_ok hctx rfl]
    exact hdone ..
  · show Host.Outcome.next (s.mailbox func false (s.debugStop func ctx true)) = _
    rw [State.debugStop_ok hctx rfl]
    exact hdone ..
  · show Host.Outcome.next (s.mailbox func false (s.debugStop func ctx false)) = _
    rw [State.debugStop_ok hctx rfl]
    exact hdone ..
  · show Host.Outcome.next (s.mailbox func false (s.debugResumeAt func ctx pl next)) = _
    rw [State.debugResumeAt_ok hctx rfl ht htrapped (firstStop_eq_none_iff.2 fun i hi u hu =>
      tretStop_none (htargets i hi u hu).1 (htargets i hi u hu).2)]
    exact hdone ..
  · have hok : (decide (0 ≤ 4) && (0 != 0 || loWord val &&& 0xE0E0E0E0 == 0)) = true := beq_iff_eq.2 hval
    show Host.Outcome.next (s.mailbox func false (s.writeBp func ctx 0 val)) = _
    rw [State.writeBp_ok hctx rfl hok]
    exact hdone ..
  · have hzero : idx ≠ 0 := by omega
    have hok : (decide (idx ≤ 4) && (idx != 0 || loWord val &&& 0xE0E0E0E0 == 0)) = true := by simp [hlast, hzero]
    show Host.Outcome.next (s.mailbox func false (s.writeBp func ctx idx val)) = _
    rw [State.writeBp_ok hctx rfl hok]
    simp only [if_neg hzero]
    exact hdone ..
  · show Host.Outcome.next (s.mailbox func false (s.readFrame func ctx pl pa)) = _
    rw [State.readFrame_ok hctx rfl ht hstopped (devicePa_of halign hrange)]
    exact hdone ..
  · show Host.Outcome.next (s.mailbox func false (s.readThread func ctx pl pa)) = _
    rw [State.readThread_ok hctx rfl ht hstopped (devicePa_of halign hrange)]
    exact hdone ..
  · show Host.Outcome.next (s.mailbox func false (s.writeThread func ctx pl pa)) = _
    rw [State.writeThread_ok hctx rfl ht hstopped (devicePa_of halign hrange) hregs]
    exact hdone ..

end Sys2Proof.Machine
end

section
/-! The semaphore, the global controls, resets and power (R399, R400, R424, R434, R451 to R455). -/

namespace Sys2Proof.Machine

/-! ## The semaphore (R399, R400) -/

theorem State.portOpen_ready {s : State} {port : Nat} (hready : s.boot.state = .ready) (hport : port < 4) : s.portOpen port = true := by
  simp only [State.portOpen, hready, decide_eq_true hport, Bool.and_self]

theorem State.holder_some {s : State} {p : Nat} (h : s.holder = some p) :
    s.sem.owner = p ∧ s.sem.held = true ∧ s.elapsed < s.sem.since + 100000000 := by
  unfold State.holder at h
  split at h
  · next hheld => exact ⟨Option.some.inj h, hheld⟩
  · cases h

/-- What SEMTAS answers while `p` holds the semaphore. -/
theorem State.semWord_held {s : State} {p : Nat} (h : s.holder = some p) (granted : Bool) : s.semWord granted =
    (if granted then 2 ^ 32 else 0) + (s.sem.since + 100000000 - s.elapsed) / 100000 * 2 ^ 16 + p * 16 + 1 := by
  simp only [State.semWord, h, Option.isSome_some, if_true, (State.holder_some h).1]

theorem State.elapsed_ite {c : Prop} [Decidable c] {a b : State} {n : Nat} (ha : a.elapsed = n) (hb : b.elapsed = n) :
    (if c then a else b).elapsed = n := by
  split
  · exact ha
  · exact hb

theorem State.fwFinish_elapsed (s : State) : s.fwFinish.elapsed = s.elapsed := by
  unfold State.fwFinish
  split
  · rfl
  · exact State.elapsed_ite rfl rfl

theorem State.fwLeaseCheck_elapsed (s : State) : s.fwLeaseCheck.elapsed = s.elapsed := by
  unfold State.fwLeaseCheck
  split
  · split
    · rfl
    · exact s.fwFinish_elapsed
  · rfl

theorem State.fwLeaseCheck_of_none {s : State} (h : s.boot.fw = none) : s.fwLeaseCheck = s := by rw [State.fwLeaseCheck, h]

theorem State.fwLeaseCheck_of_some {s : State} {w : FwWrite} (h : s.boot.fw = some w) :
    s.fwLeaseCheck = if s.holdsSem w.func then s else s.fwFinish := by rw [State.fwLeaseCheck, h]

section
variable {s : State} {port : Nat} (hready : s.boot.state = .ready) (hport : port < 4)
include hready hport

theorem exec_semtas_granted (hfree : s.holder = none ∨ s.holder = some port) : exec (.semtas port) s = .next { s.fwLeaseCheck with
    sem := { held := true, owner := port, since := s.elapsed }, hostRead := natLe 8 (2 ^ 32 + 1000 * 2 ^ 16 + port * 16 + 1) } := by
  have hall : s.holder.all (· == port) = true := by obtain h | h := hfree <;> simp [h]
  have hholder : ({ s.fwLeaseCheck with sem := { held := true, owner := port, since := s.elapsed } } : State).holder = some port := by
    refine if_pos ⟨rfl, ?_⟩
    show s.fwLeaseCheck.elapsed < s.elapsed + 100000000
    rw [State.fwLeaseCheck_elapsed]
    omega
  have hword : ({ s.fwLeaseCheck with sem := { held := true, owner := port, since := s.elapsed } } : State).semWord true =
      2 ^ 32 + 1000 * 2 ^ 16 + port * 16 + 1 := by
    rw [State.semWord_held hholder]
    show 2 ^ 32 + (s.elapsed + 100000000 - s.fwLeaseCheck.elapsed) / 100000 * 2 ^ 16 + port * 16 + 1 = _
    rw [State.fwLeaseCheck_elapsed]
    omega
  show execSemtas port s = _
  simp only [execSemtas, State.portOpen_ready hready hport, Bool.not_true, Bool.false_eq_true, if_false, hall, if_true, hword]

theorem exec_semtas_refused {p : Nat} (hholder : s.holder = some p) (hother : p ≠ port) : exec (.semtas port) s =
    .next { s with hostRead := natLe 8 ((s.sem.since + 100000000 - s.elapsed) / 100000 * 2 ^ 16 + p * 16 + 1) } := by
  have hall : s.holder.all (· == port) = false := by simp [hholder, hother]
  show execSemtas port s = _
  simp only [execSemtas, State.portOpen_ready hready hport, Bool.not_true, Bool.false_eq_true, if_false, hall,
    State.semWord_held hholder, Nat.zero_add]

theorem exec_semrel {val : Dword} (hbit : val.getLsbD 0 = true) (hholder : s.holder = some port) :
    exec (.semrel port val) s = .next ({ s with sem := {} } : State).fwLeaseCheck :=
  if_pos (c := (s.portOpen port && val.getLsbD 0 && s.holder == some port) = true)
    (by simp [State.portOpen_ready hready hport, hbit, hholder])

omit hready hport in
theorem exec_semrel_ignored {val : Dword} (hnot : val.getLsbD 0 = false ∨ s.holder ≠ some port) :
    exec (.semrel port val) s = .next s :=
  if_neg (c := (s.portOpen port && val.getLsbD 0 && s.holder == some port) = true)
    fun hall => by
      simp only [Bool.and_eq_true, beq_iff_eq] at hall
      obtain ⟨⟨-, hbit⟩, hholder⟩ := hall
      exact hnot.elim (fun h => Bool.false_ne_true (h.symm.trans hbit)) fun h => h hholder

/-! ## The global controls (R399, R434, R452, R453) -/

theorem State.holderWrite_mine (hholder : s.holder = some port) (f : State → State) : s.holderWrite port f = f s := by
  have hopen : (!s.portOpen port || s.boot.state == .recovery && decide (port < 2)) = false := by
    simp [State.portOpen_ready hready hport, hready]
  simp only [State.holderWrite, hopen, Bool.false_eq_true, if_false, hholder, beq_self_eq_true, if_true]

theorem State.holderWrite_other (hholder : s.holder ≠ some port) (f : State → State) :
    s.holderWrite port f = { s with semviol := s.semviol + 1 } := by
  have hopen : (!s.portOpen port || s.boot.state == .recovery && decide (port < 2)) = false := by
    simp [State.portOpen_ready hready hport, hready]
  have hnot : (s.holder == some port) = false := beq_eq_false_iff_ne.2 hholder
  simp only [State.holderWrite, hopen, Bool.false_eq_true, if_false, hnot]
  rfl

end

/-- The writes of the global controls that the semaphore guards. -/
theorem exec_control (s : State) (port off : Nat) (val : Dword) (c : Word) :
    ∀ i ∈ [Instr.reset port val, .powerlim port val, .eventCounterControl port off c], ∃ f, exec i s = .next (s.holderWrite port f) := by
  intro i hi
  simp only [List.mem_cons, List.not_mem_nil, or_false] at hi
  obtain rfl | rfl | rfl := hi
  · exact ⟨_, rfl⟩
  · exact ⟨_, rfl⟩
  · exact ⟨_, rfl⟩

theorem Boot.restart_result (b : Boot) (stage : Nat) (warm : Bool) : (b.restart stage warm).state = .booting ∧
    (b.restart stage warm).stage = stage ∧ (b.restart stage warm).warm = warm ∧ (b.restart stage warm).failcode = 0 :=
  ⟨rfl, rfl, rfl, rfl⟩

theorem State.warmReset_result (s : State) : s.warmReset.boot.state = .booting ∧ s.warmReset.boot.stage = 1 ∧
    s.warmReset.boot.warm = true ∧ s.warmReset.boot.failcode = 0 ∧ s.warmReset.beamRest = [] := ⟨rfl, rfl, rfl, rfl, rfl⟩

theorem State.setControl_core (s : State) {k n : Nat} (hk : k < 512) (hn : n < 8) (c : Word) :
    s.setControl (0x4000 + 32 * k + 4 * n) c =
      s.updCore k fun x => { x with perf := x.perf.set {} n { ctrl := c &&& 0xFFF00FFF } } := by
  have hdword : (0x4000 + 32 * k + 4 * n) % 32 / 4 = n := by omega
  have hcore : (0x4000 + 32 * k + 4 * n - 0x4000) / 32 = k := by omega
  rw [State.setControl, if_neg (by omega), if_pos (by omega), hdword, hcore]
  rfl

theorem State.setControl_die (s : State) {n : Nat} (hn : n < 160) (c : Word) :
    s.setControl (0xC000 + 4 * n) c = { s with dieCounters := s.dieCounters.set {} n { ctrl := c &&& 0xFFF00FFF } } := by
  rw [State.setControl, if_neg (by omega), if_neg (by omega)]
  by_cases hdie : n < 128
  · have hnum : (0xC000 + 4 * n - 0xC000) / 4 = n := by omega
    rw [if_pos (by omega), hnum]
    rfl
  · have hnum : 128 + (0xC000 + 4 * n - 0xC200) / 4 = n := by omega
    rw [if_neg (by omega), if_pos (by omega), hnum]
    rfl

/-! ## Resets and declines (R424, R434) -/

theorem exec_functionLevelReset (s : State) (func : Nat) : exec (.functionLevelReset func) s =
    .next (if func = 0 ∨ func = 64 ∨ 128 ≤ func then s else s.updFunc func fun _ => {}) := by
  show execFunctionLevelReset func s = _
  simp only [execFunctionLevelReset, portOf_isSome, or_assoc]
  split <;> rfl

theorem exec_serviceFirmwareDecline {s : State} {ctx seq : Nat} {x : Ctx} {k : Claim} (hctx : s.ctx? ctx = some x)
    (hclaim : (x.claims.find? fun k => k.seq == seq) = some k) : exec (.serviceFirmwareDecline ctx seq) s =
      .next (let e := s.updCtx ctx fun x => { x with claims := x.claims.filter (·.seq != seq) }
        if k.host then e.interrupt x.func x.fvec else e) := by
  show Host.Outcome.next (s.claimToHost ctx seq) = _
  simp only [State.claimToHost, hctx, hclaim]

/-- Settles O41: the semaphore by its holder, the controls by `holderWrite`, resets by what each sets. -/
theorem semaphoreAndControlResults : Obligations.SemaphoreAndControlResults := by
  refine ⟨fun s port hready hport => ⟨exec_semtas_granted hready hport, fun p => exec_semtas_refused hready hport,
    fun val => exec_semrel hready hport, fun val => exec_semrel_ignored, fun hheld => ?_, State.fwLeaseCheck_of_none,
    fun w => State.fwLeaseCheck_of_some, fun hholder off val c i hi => ?_⟩, ⟨fun s port val hready hport hholder => ?_, ?_⟩⟩
  · show execSemaphoreLeaseExpiry s = _
    rw [execSemaphoreLeaseExpiry]
    simp only [hheld, true_and]
    split <;> rfl
  · obtain ⟨f, hexec⟩ := exec_control s port off val c i hi
    rw [hexec, State.holderWrite_other hready hport hholder]
  · have hwrite := State.holderWrite_mine hready hport hholder
    refine ⟨congrArg Host.Outcome.next (hwrite _), fun hbit => ?_, fun hbit => ⟨s.warmReset, ?_, s.warmReset_result⟩,
      fun k n c hk hn => ?_, fun n c hn => ?_⟩
    · exact congrArg Host.Outcome.next ((hwrite _).trans (if_neg (by rw [hbit]; decide)))
    · exact congrArg Host.Outcome.next ((hwrite _).trans (if_pos hbit))
    · exact congrArg Host.Outcome.next ((hwrite _).trans (s.setControl_core hk hn c))
    · exact congrArg Host.Outcome.next ((hwrite _).trans (s.setControl_die hn c))
  · exact ⟨fun s level hlevel => if_pos hlevel, fun s => ⟨rfl, rfl, rfl⟩,
      fun s => ⟨rfl, rfl, rfl, rfl, rfl, rfl, rfl, rfl, rfl, rfl, rfl, rfl, rfl, rfl, rfl⟩, exec_functionLevelReset,
      fun s ctx x seq k => exec_serviceFirmwareDecline⟩

end Sys2Proof.Machine
end

section
/-! Registers written and read through BAR0 and BAR2 (R6, R395 to R402, R409, R416, R424, R436, R449). -/

namespace Sys2Proof.Machine

theorem bitsOf_eq (x hi lo : Nat) : bitsOf x hi lo = x / 2 ^ lo % 2 ^ (hi - lo + 1) := rfl

theorem portOf_pf {func : Nat} (hpf : func = 0 ∨ func = 64) : portOf func = some (func / 64) := by
  obtain rfl | rfl := hpf <;> rfl

theorem portOf_vf {func : Nat} (hha : func ≠ 0) (hhb : func ≠ 64) : portOf func = none := by
  rw [portOf, if_neg hha, if_neg hhb]

/-! ## Where a write goes (R395) -/

section
variable {s : State} {func : Nat} {v : Dword} (hfunc : func < 128)
include hfunc

theorem exec_registerWrite_kick (q : Nat) : exec (.registerWrite func 2 (8 * q) v) s = exec (.kick func q v) s := by
  have hq : 8 * q / 8 = q := by omega
  show execRegisterWrite func 2 (8 * q) v s = execKick func q v s
  unfold execRegisterWrite
  dsimp only
  rw [if_neg (by omega), if_pos rfl, if_pos (by omega), hq]

theorem exec_registerWrite_global (hpf : func = 0 ∨ func = 64) {off : Nat} (hoff : off < 0x10000) :
    exec (.registerWrite func 0 off v) s = s.writeGlobal (func / 64) off v := by
  show execRegisterWrite func 0 off v s = _
  unfold execRegisterWrite
  dsimp only
  rw [if_neg (by omega), if_neg (by decide), if_neg (by decide), if_neg (by decide), if_pos hoff, portOf_pf hpf]

variable (hup : s.boot.state = .ready ∨ s.boot.state = .stopped)
include hup

omit hfunc in
theorem State.up : (s.boot.state == .ready || s.boot.state == .stopped) = true := by
  obtain h | h := hup <;> simp [h]

theorem exec_registerWrite_mailbox {off : Nat} (hoff : off < 0x1000) :
    exec (.registerWrite func 0 (0x10000 + off) v) s = s.writeMailbox func off v := by
  have hsub : 0x10000 + off - 0x10000 = off := by omega
  show execRegisterWrite func 0 (0x10000 + off) v s = _
  unfold execRegisterWrite
  dsimp only
  rw [if_neg (by omega), if_neg (by decide), if_neg (by decide), if_neg (by decide), if_neg (by omega), if_pos (by omega), State.up hup,
    if_pos (by rfl), hsub]

theorem exec_registerWrite_sig {idx i : Nat} (hidx : idx < 256) (hi : i < 4) :
    exec (.registerWrite func 0 (0x20000 + 32 * idx + 8 * i) v) s = s.writeSig func idx i v := by
  have hentry : (0x20000 + 32 * idx + 8 * i - 0x20000) / 32 = idx := by omega
  have hdword : (0x20000 + 32 * idx + 8 * i) % 32 / 8 = i := by omega
  show execRegisterWrite func 0 (0x20000 + 32 * idx + 8 * i) v s = _
  unfold execRegisterWrite
  dsimp only
  rw [if_neg (by omega), if_neg (by decide), if_neg (by decide), if_neg (by decide), if_neg (by omega), if_neg (by omega), State.up hup,
    if_neg (by decide), if_pos (by omega), hentry, hdword]

theorem exec_registerWrite_queue {q i : Nat} (hq : q < 2 ^ 16) (hi : i < 8) :
    exec (.registerWrite func 0 (0x400000 + 64 * q + 8 * i) v) s = s.writeQueue func q i v := by
  have hentry : (0x400000 + 64 * q + 8 * i - 0x400000) / 64 = q := by omega
  have hdword : (0x400000 + 64 * q + 8 * i) % 64 / 8 = i := by omega
  show execRegisterWrite func 0 (0x400000 + 64 * q + 8 * i) v s = _
  unfold execRegisterWrite
  dsimp only
  rw [if_neg (by omega), if_neg (by decide), if_neg (by decide), if_neg (by decide), if_neg (by omega), if_neg (by omega), State.up hup,
    if_neg (by decide), if_neg (by omega), if_neg (by omega), if_neg (by omega), if_pos (by omega), hentry, hdword]

variable (hpf : func = 0 ∨ func = 64)
include hpf

theorem exec_registerWrite_capbase : exec (.registerWrite func 0 0x30000 v) s =
    .next (s.updFunc func fun f => { f with capbase := v.toNat / 2 ^ 30 % 2 ^ 10 }) := by
  show execRegisterWrite func 0 0x30000 v s = _
  unfold execRegisterWrite
  dsimp only
  rw [if_neg (by omega), if_neg (by decide), if_neg (by decide), if_neg (by decide), if_neg (by decide), if_neg (by decide), State.up hup,
    if_neg (by decide), if_neg (by decide), if_pos ⟨portOf_isSome.2 hpf, rfl⟩]
  rfl

theorem exec_registerWrite_dapbase : exec (.registerWrite func 0 0x30008 v) s =
    .next (s.updFunc func fun f => { f with dapbase := v.toNat / 2 ^ 30 % 2 ^ 10 }) := by
  show execRegisterWrite func 0 0x30008 v s = _
  unfold execRegisterWrite
  dsimp only
  rw [if_neg (by omega), if_neg (by decide), if_neg (by decide), if_neg (by decide), if_neg (by decide), if_neg (by decide), State.up hup,
    if_neg (by decide), if_neg (by decide), if_neg (by simp), if_pos ⟨portOf_isSome.2 hpf, rfl⟩]
  rfl

end

/-! ## Commands of the mailbox (R354, R416) -/

section
variable {s : State} {func : Nat} {v : Dword} (hfunc : func < 128) (hup : s.boot.state = .ready ∨ s.boot.state = .stopped)
include hfunc hup

theorem exec_registerWrite_cmd :
    exec (.registerWrite func 0 0x10000 v) s = s.mailboxCommand func (v.toNat % 256) :=
  exec_registerWrite_mailbox hfunc hup (off := 0) (by decide)

end

/-- The operations of CMD that its number alone names. -/
theorem State.mailboxCommand_op (s : State) (func : Nat) :
    let a0 := (s.func func).arg0
    let ctx := (s.func func).arg1.toNat
    let a2 := (s.func func).arg2
    let n := a0.toNat
    ∀ p ∈ [(1, Instr.load func n ctx a2), (2, .free func n ctx), (3, .create func n a2.toNat), (4, .destroy func ctx),
      (5, .setcores func ctx a2.toNat), (6, .preempt func ctx a2.toNat), (7, .tlbinv func a0 ctx a2),
      (9, .fwwrite func n a2.toNat), (10, .fwactivate func), (11, .exportCtx func ctx a2.toNat),
      (12, .unexportCtx func n ctx)], s.mailboxCommand func p.1 = exec p.2 s := by
  intro a0 ctx a2 n p hp
  simp only [List.mem_cons, List.not_mem_nil, or_false] at hp
  obtain rfl | rfl | rfl | rfl | rfl | rfl | rfl | rfl | rfl | rfl | rfl := hp <;> rfl

theorem State.mailboxCommand_resolve {s : State} {func : Nat} (harg : (s.func func).arg2.toNat ≤ 1) : s.mailboxCommand func 8 =
    exec (.resolve (some func) (s.func func).arg0.toNat (s.func func).arg1.toNat ((s.func func).arg2 == 1)) s :=
  if_neg (Nat.not_lt.2 harg)

/-- The slot that ARG0 names. -/
def slotOf (n : Nat) : DbgPlace :=
  { die := n / 2 ^ 8 % 8, core := n / 2 ^ 11 % 64, lane := n / 2 ^ 17 % 32, slot := n / 2 ^ 22 % 64 }

theorem State.mailboxCommand_debug {s : State} {func : Nat} (harg : (s.func func).arg0.toNat < 2 ^ 32) :
    let n := (s.func func).arg0.toNat
    let ctx := (s.func func).arg1.toNat
    let a2 := (s.func func).arg2
    ∀ p ∈ [(1, Instr.attach func ctx (a2.getLsbD 0)), (2, .stopctx func ctx (a2.getLsbD 0)),
      (3, .debugResume func ctx (slotOf n) (a2.getLsbD 0)), (4, .wrbp func ctx (n / 2 ^ 28 % 16) a2),
      (5, .rdframe func ctx (slotOf n) a2.toNat), (6, .rdstate func ctx (slotOf n) a2.toNat),
      (7, .wrstate func ctx (slotOf n) a2.toNat)], n % 256 = p.1 → s.mailboxCommand func 13 = exec p.2 s := by
  intro n ctx a2 p hp hsub
  have hlow : ¬(s.func func).arg0.toNat / 2 ^ 32 ≠ 0 := by omega
  show s.debugCommand func ctx (s.func func).arg0 a2 = _
  unfold State.debugCommand
  dsimp only
  rw [if_neg hlow]
  simp only [List.mem_cons, List.not_mem_nil, or_false] at hp
  obtain rfl | rfl | rfl | rfl | rfl | rfl | rfl := hp <;> rw [show (s.func func).arg0.toNat % 256 = _ from hsub] <;> rfl

theorem State.debugCommand_bad {s : State} {func ctx : Nat} {a0 a2 : Dword}
    (hbad : 2 ^ 32 ≤ a0.toNat ∨ a0.toNat % 256 = 0 ∨ 7 < a0.toNat % 256) :
    s.debugCommand func ctx a0 a2 = .next (s.mailbox func false (.error (1, 0))) := by
  unfold State.debugCommand
  dsimp only
  split
  · rfl
  · have hsub : a0.toNat % 256 = 0 ∨ 7 < a0.toNat % 256 := by omega
    generalize a0.toNat % 256 = sub at hsub
    obtain rfl | hlarge := hsub
    · rfl
    · obtain ⟨k, rfl⟩ : ∃ k, sub = k + 8 := ⟨sub - 8, by omega⟩
      rfl

theorem State.mailboxCommand_bad {s : State} {func op : Nat}
    (hbad : op = 0 ∨ 13 < op ∨ (op = 8 ∧ 1 < (s.func func).arg2.toNat) ∨ (op = 13 ∧ (2 ^ 32 ≤ (s.func func).arg0.toNat ∨
      (s.func func).arg0.toNat % 256 = 0 ∨ 7 < (s.func func).arg0.toNat % 256))) :
    s.mailboxCommand func op = .next (s.mailbox func false (.error (1, 0))) := by
  obtain rfl | hop | ⟨rfl, harg⟩ | ⟨rfl, harg⟩ := hbad
  · rfl
  · obtain ⟨k, rfl⟩ : ∃ k, op = k + 14 := ⟨op - 14, by omega⟩
    rfl
  · exact if_pos harg
  · exact State.debugCommand_bad harg

/-! ## Entries of queues and signal waits (R401, R409) -/

section
variable {s : State} {func q : Nat} {v : Dword} (hreach : s.reaches func q = true)
include hreach

theorem State.writeQueue_reached (i : Nat) : s.writeQueue func q i v =
    if i = 0 then
      if v.getLsbD 0 then
        if (s.queue q).enable then (if v.getLsbD 1 then execQueueResume func q s else .next s) else execQueueEnable func q s
      else execQueueDisable func q s
    else .next (s.updQueue q fun x => x.write func i v) := if_neg (by simp [hreach])

theorem State.writeQueue_control : s.writeQueue func q 0 v =
    if v.getLsbD 0 = false then exec (.queueDisable func q) s
    else if (s.queue q).enable = false then exec (.queueEnable func q) s
    else if v.getLsbD 1 = true then exec (.queueResume func q) s else .next s := by
  rw [State.writeQueue_reached hreach, if_pos rfl]
  cases v.getLsbD 0 <;> cases (s.queue q).enable <;> rfl

theorem State.writeQueue_fixed (henable : (s.queue q).enable = true) {i : Nat} (hi : 1 ≤ i) :
    s.writeQueue func q i v = .next (s.updQueue q id) := by
  have hsame : (s.queue q).write func i v = s.queue q := if_pos henable
  rw [State.writeQueue_reached hreach, if_neg (by omega)]
  show Host.Outcome.next ({ s with queues := s.queues.set {} q ((s.queue q).write func i v) } : State) = _
  rw [hsame]
  rfl

theorem State.writeQueue_ringbase :
    s.writeQueue func q 3 v = .next (s.updQueue q fun x => if x.enable then x else { x with ringbase := v }) := by
  rw [State.writeQueue_reached hreach]
  rfl

theorem State.writeQueue_config : let w := v.toNat
    let to' := w / 2 ^ 44 % 256
    s.writeQueue func q 4 v = .next (s.updQueue q fun x => if x.enable then x else
      { x with
        func := if (func = 0 ∨ func = 64) ∧ to' / 64 = func / 64 then to' else x.func
        prog := w / 2 ^ 32 % 2 ^ 12, ctx := w / 2 ^ 16 % 2 ^ 10, die := w / 2 ^ 13 % 8, prio := w / 2 ^ 11 % 4
        log2size := w % 32 }) := by
  intro w to'
  have hsize : fieldOf v 4 0 = w % 32 := congrArg (· % 32) (Nat.div_one w)
  have hpf : ((portOf func).isSome && fieldOf v 51 44 / 64 == func / 64) = true ↔
      (func = 0 ∨ func = 64) ∧ to' / 64 = func / 64 := by
    rw [Bool.and_eq_true, portOf_isSome, beq_iff_eq]
    rfl
  have hwrite : (fun x : Queue => x.write func 4 v) = fun x => if x.enable then x else
      { x with
        func := if (func = 0 ∨ func = 64) ∧ to' / 64 = func / 64 then to' else x.func
        prog := w / 2 ^ 32 % 2 ^ 12, ctx := w / 2 ^ 16 % 2 ^ 10, die := w / 2 ^ 13 % 8, prio := w / 2 ^ 11 % 4
        log2size := w % 32 } := by
    funext x
    simp only [Queue.write, hpf, hsize]
    rfl
  rw [State.writeQueue_reached hreach, if_neg (by decide), hwrite]

end

theorem State.writeSig_control (s : State) (func idx : Nat) (v : Dword) :
    let e := (s.func func).sigs.get ({} : SigWait) idx
    let m := s.updFunc func fun f => { f with sigs := f.sigs.upd {} idx fun e =>
      { e with
        vector := v.toNat / 2 ^ 48 % 2 ^ 16, cond := v.toNat / 4 % 4, fired := e.fired && !v.getLsbD 1
        armed := e.armed && v.getLsbD 0 } }
    s.writeSig func idx 0 v = if v.getLsbD 0 = true ∧ e.armed = false then exec (.sigwaitArm func idx) m else .next m := by
  intro e m
  have hiff : (v.getLsbD 0 && !e.armed) = true ↔ v.getLsbD 0 = true ∧ e.armed = false := by simp
  show (if (v.getLsbD 0 && !e.armed) = true then execSigwaitArm func idx m else .next m) = _
  simp only [hiff]
  rfl

theorem State.writeSig_ctx (s : State) (func idx : Nat) (v : Dword) : s.writeSig func idx 1 v =
    .next (s.updFunc func fun f => { f with sigs := f.sigs.upd {} idx fun e => { e with ctx := v.toNat % 1024 } }) := by
  have hctx : fieldOf v 9 0 = v.toNat % 1024 := congrArg (· % 1024) (Nat.div_one _)
  rw [← hctx]
  rfl

/-! ## Reads (R6, R395) -/

/-- A read of one dword that answers `x` and changes nothing but what the host has read. -/
def State.Answers (s : State) (func bar off x : Nat) : Prop :=
  s.registerRead func bar off 8 = .next { s with hostRead := natLe 8 (x % 2 ^ 64) }

theorem State.answers_of_dword {s : State} {func bar off x : Nat} (halign : off % 8 = 0)
    (hsem : portOf func = none ∨ bar ≠ 0 ∨ off ≠ 0) (hdword : s.barDword func bar off = (BitVec.ofNat 64 x, s)) :
    s.Answers func bar off x := by
  have hoff : off / 8 * 8 = off := by omega
  have hone : (off % 8 + 8 + 7) / 8 = 1 := by omega
  have hgo : State.registerRead.go s func bar off 8 = .next { s with hostRead := natLe 8 (x % 2 ^ 64) } := by
    unfold State.registerRead.go
    rw [hoff, hone, halign]
    simp only [State.barBytes, hdword, List.append_nil, List.drop_zero, BitVec.toNat_ofNat]
    rw [List.take_of_length_le (by rw [natLe_length])]
  unfold State.Answers State.registerRead
  rcases hp : portOf func with _ | p
  · exact hgo
  · refine (if_neg fun h => ?_).trans hgo
    obtain hnone | hbar | hne := hsem
    · rw [hp] at hnone
      cases hnone
    · exact hbar h.1
    · omega

section
variable {s : State} {func : Nat} (hfunc : func < 128) (hup : s.boot.state = .ready ∨ s.boot.state = .stopped)
include hfunc hup

theorem State.barDword_bar0 (off : Nat) : s.barDword func 0 off = s.bar0Dword func off := by
  unfold State.barDword
  dsimp only
  rw [if_neg (by omega), if_neg (by decide), if_neg (by decide)]
  obtain h | h := hup <;> rw [h]

theorem State.answers_bar0 {off x : Nat} (halign : off % 8 = 0) (hsem : portOf func = none ∨ off ≠ 0)
    (hdword : s.bar0Dword func off = (BitVec.ofNat 64 x, s)) : s.Answers func 0 off x :=
  State.answers_of_dword halign (hsem.imp_right .inr) ((State.barDword_bar0 hfunc hup off).trans hdword)

theorem State.answers_global (hpf : func = 0 ∨ func = 64) {off x : Nat} (halign : off % 8 = 0) (hne : off ≠ 0) (hoff : off < 0x10000)
    (hx : s.globalDword off = x) : s.Answers func 0 off x := by
  refine State.answers_bar0 hfunc hup halign (.inr hne) ?_
  rw [State.bar0Dword, if_pos hoff, portOf_pf hpf, ← hx]
  rfl

theorem State.answers_hidden (hha : func ≠ 0) (hhb : func ≠ 64) {off : Nat} (halign : off % 8 = 0) (hoff : off < 0x10000) :
    s.Answers func 0 off 0 := by
  refine State.answers_bar0 hfunc hup halign (.inl (portOf_vf hha hhb)) ?_
  rw [State.bar0Dword, if_pos hoff, portOf_vf hha hhb]
  rfl

theorem State.answers_mailbox {off x : Nat} (halign : off % 8 = 0) (hoff : off < 0x1000) (hx : (s.func func).mailboxDword off = x) :
    s.Answers func 0 (0x10000 + off) x := by
  have hsub : 0x10000 + off - 0x10000 = off := by omega
  refine State.answers_bar0 hfunc hup (by omega) (.inr (by omega)) ?_
  rw [State.bar0Dword, if_neg (by omega), if_pos (by omega), hsub, hx]

theorem State.answers_sig {idx i : Nat} (hidx : idx < 256) (hi : i < 4) : s.Answers func 0 (0x20000 + 32 * idx + 8 * i)
    (dwordOf ((s.func func).sigs.get ({} : SigWait) idx).toNat i) := by
  have hentry : (0x20000 + 32 * idx + 8 * i - 0x20000) / 32 = idx := by omega
  have hdword : (0x20000 + 32 * idx + 8 * i) % 32 / 8 = i := by omega
  refine State.answers_bar0 hfunc hup (by omega) (.inr (by omega)) ?_
  rw [State.bar0Dword, if_neg (by omega), if_neg (by omega), if_pos (by omega), hentry, hdword]

theorem State.answers_snapshot {off : Nat} (halign : off % 8 = 0) (hoff : off < 0x40 + 1024 * 128) :
    s.Answers func 0 (0x100000 + off) (s.snapshotDword func off) := by
  have hsub : 0x100000 + off - 0x100000 = off := by omega
  refine State.answers_bar0 hfunc hup (by omega) (.inr (by omega)) ?_
  rw [State.bar0Dword, if_neg (by omega), if_neg (by omega), if_neg (by omega), if_neg (by omega), if_neg (by omega), if_neg (by omega),
    if_neg (by omega), if_neg (by omega), if_neg (by omega), if_pos (by omega), hsub]

theorem State.answers_queue {q i : Nat} (hq : q < 2 ^ 16) (hi : i < 8) (hreach : s.reaches func q = true) :
    s.Answers func 0 (0x400000 + 64 * q + 8 * i) (dwordOf (s.queue q).toNat i) := by
  have hentry : (0x400000 + 64 * q + 8 * i - 0x400000) / 64 = q := by omega
  have hdword : (0x400000 + 64 * q + 8 * i) % 64 / 8 = i := by omega
  refine State.answers_bar0 hfunc hup (by omega) (.inr (by omega)) ?_
  rw [State.bar0Dword, if_neg (by omega), if_neg (by omega), if_neg (by omega), if_neg (by omega), if_neg (by omega), if_neg (by omega),
    if_neg (by omega), if_neg (by omega), if_neg (by omega), if_neg (by omega), if_pos (by omega), hentry, hdword]
  simp only [hreach, if_true]

theorem State.answers_kick {q : Nat} (hq : q < 2 ^ 16) :
    s.Answers func 2 (8 * q) (if s.reaches func q then (s.queue q).kickv.toNat else 0) := by
  have hentry : 8 * q / 8 = q := by omega
  refine State.answers_of_dword (by omega) (.inr (.inl (by decide))) ?_
  unfold State.barDword
  dsimp only
  rw [if_neg (by omega), if_pos rfl, hentry]
  by_cases hreach : s.reaches func q = true
  · rw [if_pos ⟨hup, by omega, hreach⟩, if_pos hreach]
    exact Prod.ext (BitVec.eq_of_toNat_eq (by simp)) rfl
  · rw [if_neg fun h => hreach h.2.2, if_neg hreach]
    rfl

end

/-! ## Fields of the registers (R400, R401, R409, R436, R448, R449) -/

theorem SigWait.dword_addr (e : SigWait) : dwordOf e.toNat 2 = e.addr.toNat := by
  have haddr := e.addr.isLt
  have harmed : (if e.armed then 1 else 0) ≤ 1 := by split <;> decide
  have hfired : (if e.fired then 2 else 0) ≤ 2 := by split <;> decide
  simp only [dwordOf, SigWait.toNat]
  omega

theorem SigWait.dword_value (e : SigWait) : dwordOf e.toNat 3 = e.value.toNat := by
  have haddr := e.addr.isLt
  have hvalue := e.value.isLt
  have harmed : (if e.armed then 1 else 0) ≤ 1 := by split <;> decide
  have hfired : (if e.fired then 2 else 0) ≤ 2 := by split <;> decide
  simp only [dwordOf, SigWait.toNat]
  omega

theorem Queue.dword_ringbase (x : Queue) : dwordOf x.toNat 3 = x.ringbase.toNat := by
  have hbase := x.ringbase.isLt
  have henable : (if x.enable then 1 else 0) ≤ 1 := by split <;> decide
  simp only [dwordOf, Queue.toNat]
  omega

theorem Boot.stat_up {b : Boot} (hup : b.state = .ready ∨ b.state = .stopped) : b.stat = (if b.state = .ready then 2 else 4)
    + b.stage % 256 * 2 ^ 16 + (if b.stage = 0 then 0 else b.slot % 2 * 2 ^ 24) + b.failcode % 256 * 2 ^ 40 + b.svn % 2 ^ 16 * 2 ^ 48 := by
  have hslot : (if b.stage = 0 then 0 else b.slot % 2) * 2 ^ 24 = if b.stage = 0 then 0 else b.slot % 2 * 2 ^ 24 := by
    split
    · rfl
    · rfl
  rw [Boot.stat, hslot]
  generalize (if b.stage = 0 then 0 else b.slot % 2 * 2 ^ 24) = slot
  obtain h | h := hup
  · simp only [h, if_true]
    ac_rfl
  · simp only [h, reduceCtorEq, if_false]
    ac_rfl

theorem State.snapshotDword_header (s : State) (func i : Nat) :
    s.snapshotDword func (8 * (i % 8)) = s.snapshot.header / 2 ^ (64 * (i % 8)) % 2 ^ 64 := by
  have hdword : 8 * (i % 8) / 8 = i % 8 := by omega
  rw [State.snapshotDword, if_pos (by omega), hdword]
  rfl

theorem State.snapshotDword_record (s : State) (func : Nat) {i : Nat} (hi : i < 16) (c : Nat) :
    let u := s.snapshot.records.get ({} : Usage) c
    s.snapshotDword func (0x40 + 128 * c + 8 * i) =
      if func = 0 ∨ func = 64 ∨ (u.valid = true ∧ u.creator = func) then u.toNat / 2 ^ (64 * i) % 2 ^ 64 else 0 := by
  have hrecord : (0x40 + 128 * c + 8 * i - 0x40) / 128 = c := by omega
  have hdword : (0x40 + 128 * c + 8 * i - 0x40) % 128 / 8 = i := by omega
  intro u
  have hiff : ((portOf func).isSome || u.valid && u.creator == func) = true ↔
      func = 0 ∨ func = 64 ∨ (u.valid = true ∧ u.creator = func) := by
    rw [Bool.or_eq_true, portOf_isSome, Bool.and_eq_true, beq_iff_eq, or_assoc]
  rw [State.snapshotDword, if_neg (by omega), hrecord, hdword]
  simp only [show s.snapshot.records.get ({} : Usage) c = u from rfl, hiff]
  rfl

/-- Settles O42: a write or a read goes where its offset lies, and what is there takes it or answers. -/
theorem registerWriteResults : Obligations.RegisterWriteResults := by
  intro s func v hfunc hup
  have hanswers : ∀ {bar off x y : Nat}, s.Answers func bar off x → x % 2 ^ 64 = y % 2 ^ 64 → s.Answers func bar off y :=
    fun h heq => by rw [State.Answers, ← heq]; exact h
  refine ⟨exec_registerWrite_mailbox hfunc hup (off := 0x10) (by decide), exec_registerWrite_mailbox hfunc hup (off := 0x18) (by decide),
    exec_registerWrite_mailbox hfunc hup (off := 0x20) (by decide), ?commands, fun q _ => exec_registerWrite_kick hfunc q, ?pf, ?ringbase, ?queue,
    fun q i hq hi hreach => ?unreached, ?sig, ?reads⟩
  case commands =>
    intro a0 ctx a2 n pl op
    have hcmd := exec_registerWrite_cmd (v := v) hfunc hup
    refine ⟨fun p hp hop => ?_, fun hop harg => ?_, fun hop harg p hp hsub => ?_, fun hready hstat hbad => ?_⟩
    · rw [hcmd, show v.toNat % 256 = p.1 from hop]
      exact s.mailboxCommand_op func p hp
    · rw [hcmd, show v.toNat % 256 = 8 from hop]
      exact State.mailboxCommand_resolve harg
    · rw [hcmd, show v.toNat % 256 = 13 from hop]
      exact State.mailboxCommand_debug harg p hp hsub
    · rw [hcmd, State.mailboxCommand_bad hbad, State.mailbox_rejects (State.takes_of_ready hfunc hready hstat)]
  case pf =>
    intro hpf
    refine ⟨exec_registerWrite_capbase hfunc hup hpf, exec_registerWrite_dapbase hfunc hup hpf,
      exec_registerWrite_global hfunc hpf (off := 0x48) (by decide), exec_registerWrite_global hfunc hpf (off := 0x50) (by decide),
      fun hholder => ?_⟩
    have hport : s.portOpen (func / 64) = true := by
      have hlt : func / 64 < 4 := by omega
      obtain h | h := hup <;> simp [State.portOpen, h, hlt]
    have hclosed : (!s.portOpen (func / 64) || s.boot.state == .recovery && decide (func / 64 < 2)) = false := by
      obtain h | h := hup <;> simp [hport, h]
    rw [exec_registerWrite_global hfunc hpf (off := 0x100) (by decide)]
    show Host.Outcome.next (s.holderWrite (func / 64) _) = _
    simp only [State.holderWrite, hclosed, Bool.false_eq_true, if_false, hholder, beq_self_eq_true, if_true]
    rfl
  case ringbase =>
    intro q hq hreach _
    rw [exec_registerWrite_queue hfunc hup hq (i := 3) (by decide), State.writeQueue_ringbase hreach]
  case queue =>
    intro q hq hreach
    refine ⟨?_, fun _ => ?_, fun henable i hfirst hlast => ?_⟩
    · rw [← State.writeQueue_control hreach]
      exact exec_registerWrite_queue hfunc hup hq (i := 0) (by decide)
    · rw [exec_registerWrite_queue hfunc hup hq (i := 4) (by decide), State.writeQueue_config hreach]
    · rw [exec_registerWrite_queue hfunc hup hq hlast, State.writeQueue_fixed hreach henable hfirst]
  case unreached =>
    rw [exec_registerWrite_queue hfunc hup hq hi]
    exact if_pos (by simp [hreach])
  case sig =>
    intro idx hidx
    refine ⟨?_, exec_registerWrite_sig hfunc hup hidx (i := 2) (by decide), exec_registerWrite_sig hfunc hup hidx (i := 3) (by decide), ?_⟩
    · exact (exec_registerWrite_sig hfunc hup hidx (i := 0) (by decide)).trans (s.writeSig_control func idx v)
    · exact (exec_registerWrite_sig hfunc hup hidx (i := 1) (by decide)).trans (s.writeSig_ctx func idx v)
  case reads =>
    refine ⟨State.answers_mailbox hfunc hup (off := 0) (by decide) (by decide) rfl,
      State.answers_mailbox hfunc hup (off := 0x10) (by decide) (by decide) rfl,
      State.answers_mailbox hfunc hup (off := 0x18) (by decide) (by decide) rfl,
      State.answers_mailbox hfunc hup (off := 0x20) (by decide) (by decide) rfl,
      State.answers_mailbox hfunc hup (off := 0x08) (by decide) (by decide) rfl,
      fun q hq => ⟨State.answers_kick hfunc hup hq, fun hreach => ?_⟩, fun idx hidx => ⟨?_, ?_⟩, fun hpf => ?_,
      fun hha hhb off => State.answers_hidden hfunc hup hha hhb, fun i c hi hc => ⟨?_, ?_⟩⟩
    · have h := State.answers_queue hfunc hup hq (i := 3) (by decide) hreach
      rwa [Queue.dword_ringbase] at h
    · have h := State.answers_sig hfunc hup hidx (i := 2) (by decide)
      rwa [SigWait.dword_addr] at h
    · have h := State.answers_sig hfunc hup hidx (i := 3) (by decide)
      rwa [SigWait.dword_value] at h
    · have hglobal := fun {off x : Nat} => State.answers_global (x := x) (off := off) hfunc hup hpf
      refine ⟨hglobal (by decide) (by decide) (by decide) rfl, hglobal (by decide) (by decide) (by decide) rfl,
        hglobal (by decide) (by decide) (by decide) rfl, hglobal (by decide) (by decide) (by decide) (Boot.stat_up hup), ?_⟩
      unfold State.registerRead
      rw [portOf_pf hpf]
      rfl
    · exact hanswers (State.answers_snapshot hfunc hup (by omega) (by omega))
        (by rw [State.snapshotDword_header, Nat.mod_mod])
    · have h := State.answers_snapshot hfunc hup (off := 0x40 + 128 * c + 8 * i) (by omega) (by omega)
      rw [State.snapshotDword_record s func hi c, ← Nat.add_assoc, ← Nat.add_assoc] at h
      refine hanswers h ?_
      split
      · exact Nat.mod_mod _ _
      · rfl

end Sys2Proof.Machine
end

section
/-! What the requests of other devices and their answers do (R170, R341, R407, R409, R413, R415, R419). -/

namespace Sys2Proof.Machine

/-! ## Exports (R419) -/

theorem State.exportFor_some {s : State} {node ctx exp off n : Nat} {ok : Export → Bool} {e : Export}
    (h : s.exportFor node ctx exp off n ok = some e) : e ∈ s.exports ∧ e.num = exp ∧ e.node = node ∧ e.rctx = ctx ∧ ok e = true ∧
      1 ≤ n ∧ n ≤ 4096 ∧ off + n ≤ 4096 * e.pages := by
  obtain ⟨hfind, hok⟩ := Option.filter_eq_some_iff.1 h
  simp only [Bool.and_eq_true, beq_iff_eq, decide_eq_true_eq] at hok
  obtain ⟨⟨⟨⟨⟨hnode, hctx⟩, hkind⟩, hfirst⟩, hmost⟩, hpages⟩ := hok
  exact ⟨List.mem_of_find?_eq_some hfind, beq_iff_eq.1 (List.find?_some hfind :), hnode, hctx, hkind, hfirst, hmost, hpages⟩

theorem State.exportFor_none {s : State} {exp : Nat} (h : s.exports.find? (·.num == exp) = none) (node ctx off n : Nat)
    (ok : Export → Bool) : s.exportFor node ctx exp off n ok = none := by
  rw [State.exportFor, h]
  rfl

theorem State.exportLook_looked (s : State) (e : Export) (off n : Nat) : s.Looked (s.exportLook e off n) := by
  unfold State.exportLook
  dsimp only
  split
  · exact s.lookUp_looked ..
  · exact (s.lookUp_looked ..).trans (State.lookUp_looked ..)

theorem State.exportLook_frame (s : State) (e : Export) (off n : Nat) : let u := s.exportLook e off n
    u = { s with home := u.home, counts := u.counts, windowCounts := u.windowCounts, dieCounters := u.dieCounters
                 cores := u.cores } := by
  obtain ⟨_, _, _, _, _, h⟩ := s.exportLook_looked e off n
  rw [h]

theorem State.exportLook_sees (s : State) (e : Export) (off n : Nat) : s.Sees (s.exportLook e off n) :=
  .of_cached (s.exportLook_looked e off n).cached

theorem State.exportLook_net (s : State) (e : Export) (off n : Nat) : (s.exportLook e off n).net = s.net := by
  rw [s.exportLook_frame e off n]

theorem State.Sees.exportKeys {s u : State} (h : s.Sees u) (e : Export) (off n : Nat) (acc : Acc) :
    u.exportKeys e off n acc = s.exportKeys e off n acc := by
  simp only [State.exportKeys, h.key]

/-! ## Requests (R170, R341, R409, R413) -/

section
variable {s : State} {node seq ctx exp off : Nat} {e : Export}

theorem State.applyPut_exported {l : List Byte} {ks : List (Nat × Nat)} (hexp : s.exportFor node ctx exp off l.length (·.xw) = some e)
    (hkeys : s.exportKeys e off l.length .write = some ks) : s.applyPut node seq ctx exp off l =
      (((s.exportLook e off l.length).putRanges e.ctx ks l).received e.ctx l.length).reply node (.ack [seq]) := by
  simp only [State.applyPut, hexp, (s.exportLook_sees e off l.length).exportKeys, hkeys]

theorem State.applyGet_exported {op n : Nat} {ks : List (Nat × Nat)} (hexp : s.exportFor node ctx exp off n (·.xr) = some e)
    (hkeys : s.exportKeys e off n .read = some ks) (hclean : ∀ k ∈ ks, s.poisoned k.1 k.2 = false) :
    s.applyGet node seq op ctx exp off n =
      ((ks.foldl (fun s k => s.l2Read (some e.ctx) k.1 k.2 1) (s.exportLook e off n)).reply node (.ack [seq])).sendFor e.ctx node
        (.getResp op off (ks.flatMap fun k => s.bytes k.1 k.2)) := by
  have hsees := s.exportLook_sees e off n
  have hany : (ks.any fun k => s.poisoned k.1 k.2) = false := List.any_eq_false.2 fun k hk => by rw [hclean k hk]; decide
  simp only [State.applyGet, hexp, hsees.exportKeys, hkeys, hsees.poisoned, hany, State.bytes_congr hsees.mem, Bool.false_eq_true, if_false]

section
variable {v : Dword} {k : Nat} (hexp : s.exportFor node ctx exp off 8 (·.xw) = some e)
include hexp

theorem State.applyFlag_write (hkeys : s.exportKeys e off 8 .write = some [(k, 8)]) : s.applyFlag node seq ctx exp off false v =
    (((s.exportLook e off 8).putFor e.ctx k (natLe 8 v.toNat)).received e.ctx 8).reply node (.ack [seq]) := by
  simp only [State.applyFlag, hexp, (s.exportLook_sees e off 8).exportKeys, hkeys, Bool.false_eq_true, if_false, Bool.false_and]

theorem State.applyFlag_add (hkeys : s.exportKeys e off 8 .rmw = some [(k, 8)]) (hclean : s.poisoned k 8 = false) :
    s.applyFlag node seq ctx exp off true v = (((s.exportLook e off 8).putFor e.ctx k
      (natLe 8 (BitVec.ofNat 64 (s.num k 8) + v).toNat)).received e.ctx 8).reply node (.ack [seq]) := by
  have hsees := s.exportLook_sees e off 8
  simp only [State.applyFlag, hexp, hsees.exportKeys, hkeys, if_true, hsees.poisoned, hclean, Bool.and_false, Bool.false_eq_true,
    if_false, hsees.num]

end

theorem State.applyShip_exported {op k : Nat} {r : ShipReq} (hexp : s.exportFor node ctx exp off 1 (·.xship) = some e)
    (hkey : s.locate e.ctx (e.base + BitVec.ofNat 64 off) .read false = .ok (.mem k)) :
    s.applyShip node seq op ctx exp off r = (s.updLc (homeOf (k % 2 ^ 52)) fun l =>
      { l with offers := l.offers ++ [{ r with sender := .remote node op seq, ctx := e.ctx }] }).received e.ctx
        (20 + 4 * r.args.length) := by
  simp only [State.applyShip, hexp, hkey]
  rfl

theorem State.applySignal_exported {q k cond : Nat} {val : Dword} (hexp : s.exportFor node ctx exp off 8 (·.xr) = some e)
    (hkeys : s.exportKeys e off 8 .read = some [(k, 8)]) : s.applySignal node seq ctx exp off q val cond =
      (({ s.exportLook e off 8 with
        net := { s.net with waits := s.net.waits ++ [.signal node q e.ctx exp off k val cond] } } : State).fireRemote).reply
          node (.ack [seq]) := by
  simp only [State.applySignal, hexp, (s.exportLook_sees e off 8).exportKeys, hkeys, s.exportLook_net e off 8]

end

/-- A request that names no exported range. -/
theorem State.applyMsg_unexported {s : State} {node seq ctx exp off op tid : Nat} {add : Bool} {val : Dword} {r : ShipReq}
    {q cond : Nat} {l : List Byte} {n : Nat} (hnone : (s.exports.find? (·.num == exp)) = none) :
    ∀ m ∈ [NetMsg.put op exp off ctx tid l, .getReq op exp off n ctx tid, .flag exp off ctx tid add val, .ship op exp off ctx tid r,
      .signal exp off ctx q val cond false], s.applyMsg node seq m = s.refuseMsg node seq := by
  have hexp := State.exportFor_none hnone
  intro m hm
  simp only [List.mem_cons, List.not_mem_nil, or_false] at hm
  obtain rfl | rfl | rfl | rfl | rfl := hm
  · show s.applyPut node seq ctx exp off l = _
    simp only [State.applyPut, hexp]
  · show s.applyGet node seq op ctx exp off n = _
    simp only [State.applyGet, hexp]
  · show s.applyFlag node seq ctx exp off add val = _
    simp only [State.applyFlag, hexp]
  · show s.applyShip node seq op ctx exp off r = _
    simp only [State.applyShip, hexp]
  · show s.applySignal node seq ctx exp off q val cond = _
    simp only [State.applySignal, hexp]

/-! ## A SHIP that a home of this device holds (R170) -/

section
variable {s : State} {node seq op lc : Nat} {r : ShipReq} (hsender : r.sender = .remote node op seq)
include hsender

theorem State.acceptShip_remote :
    s.acceptShip lc r = (s.updLc lc fun l => { l with queue := l.queue ++ [r] }).reply node (.ack [seq]) := by
  simp only [State.acceptShip, hsender]

theorem State.refuseShip_remote : s.refuseShip lc r = (let e := s.tallyDie (lc / 8) 0x111 1 (some r.ctx)
    if r.waits then e.updLc lc fun l => { l with refused := l.refused ++ [r] }
    else { e with net := s.net.setFlow { s.net.flow node with full := (s.net.flow node).full ++ [seq] } }).reply node
      (.nack seq false) := by
  simp only [State.refuseShip, hsender]
  rfl

end

theorem State.applyWithdraw_held {s : State} {node seq op : Nat}
    (hheld : ∃ p ∈ s.lcs, ∃ r ∈ p.2.offers ++ p.2.refused, r.remoteOp node op = true) : ∃ e : State,
      s.applyWithdraw node seq op = e.reply node (.ack [seq]) ∧ e = { s with lcs := e.lcs } ∧
        ∀ p ∈ e.lcs, ∀ r ∈ p.2.offers ++ p.2.refused, r.remoteOp node op = false := by
  obtain ⟨p, hp, r, hr, hop⟩ := hheld
  have hany : (s.lcs.any fun p => (p.2.offers ++ p.2.refused).any (·.remoteOp node op)) = true :=
    List.any_eq_true.2 ⟨p, hp, List.any_eq_true.2 ⟨r, hr, hop⟩⟩
  refine ⟨_, if_pos hany, rfl, fun p hp r hr => ?_⟩
  obtain ⟨p, -, rfl⟩ := List.mem_map.1 (List.mem_filter.1 hp).1
  obtain hr | hr := List.mem_append.1 hr
  · simpa using (List.mem_filter.1 hr).2
  · simpa using (List.mem_filter.1 hr).2

theorem State.applyWithdraw_accepted {s : State} {node seq op : Nat}
    (hnone : ∀ p ∈ s.lcs, ∀ r ∈ p.2.offers ++ p.2.refused, r.remoteOp node op = false) :
    s.applyWithdraw node seq op = s.refuseMsg node seq := by
  refine if_neg fun hany => ?_
  obtain ⟨p, hp, hp'⟩ := List.any_eq_true.1 hany
  obtain ⟨r, hr, hop⟩ := List.any_eq_true.1 hp'
  rw [hnone p hp r hr] at hop
  exact Bool.false_ne_true hop

/-! ## Answers to requests of this device (R407, R409, R413) -/

theorem State.unblockQueue_pos {s : State} {q : Nat} {b : Queue → Bool} (h : b (s.queue q) = true) :
    s.unblockQueue q b = s.updQueue q fun x => { x with state := .running, block := none, pc := x.pc + 1 } := if_pos h

theorem State.unblockQueue_neg {s : State} {q : Nat} {b : Queue → Bool} (h : b (s.queue q) = false) : s.unblockQueue q b = s :=
  if_neg (by rw [h]; decide)

theorem State.applyMsg_signal {s : State} {node seq ctx exp off q cond : Nat} {val : Dword} : s.applyMsg node seq
    (.signal exp off ctx q val cond true) =
      (s.unblockQueue q fun x => x.block == some (.remoteSignal node exp off val cond)).reply node (.ack [seq]) := rfl

/-- Whether a queue waits for the chain of a notice. -/
def Queue.awaitsChain (node : Nat) (c : ChainRef) (cc : Word) (x : Queue) : Bool :=
  match x.block with
  | some (.remoteChain n target count) => n == node && target == c.target && chainHolds cc count
  | _ => false

theorem State.applyMsg_notify {s : State} {node seq : Nat} {c : ChainRef} {cc : Word} : s.applyMsg node seq (.chainNotify c cc) =
    (s.unblockQueue c.queue (Queue.awaitsChain node c cc)).reply node (.ack [seq]) := rfl

theorem Queue.awaitsChain_of {x : Queue} {node target : Nat} {c : ChainRef} {cc count : Word}
    (hblock : x.block = some (.remoteChain node target count)) (htarget : target = c.target) (hcount : (cc - count).toNat < 2 ^ 31) : x.awaitsChain node c cc = true := by
  simp only [Queue.awaitsChain, hblock, htarget, beq_self_eq_true, chainHolds, decide_eq_true hcount, Bool.and_self]

theorem Queue.not_awaitsChain {x : Queue} {node : Nat} {c : ChainRef} {cc : Word}
    (hblock : ∀ count, x.block ≠ some (.remoteChain node c.target count)) : x.awaitsChain node c cc = false := by
  unfold Queue.awaitsChain
  split
  · next n target count h =>
    have hne : ¬(n = node ∧ target = c.target) := fun ⟨hn, ht⟩ => hblock count (by rw [h, hn, ht])
    rw [Bool.and_eq_false_iff]
    exact .inl (by simpa using hne)
  · rfl

theorem State.applyResult_found {s : State} {node op : Nat} {ok : Bool} {cause : Nat} {out : Option SectionEnd} {results : List Word}
    {r : ShipReq} (hfind : (s.net.ships.find? fun x => x.1 == op && x.2.1 == node) = some (op, node, r)) :
    s.applyResult node op ok cause out results =
      ((s.shipAnswered node op).received r.ctx (4 * results.length)).shipOutcome r ok cause out results := by
  simp only [State.applyResult, hfind]

/-- Whether a message is the SHIP of an operation. -/
def NetMsg.isShip (op : Nat) : NetMsg → Bool
  | .ship op' .. => op' == op
  | _ => false

theorem NetMsg.isShip_iff {op : Nat} {m : NetMsg} : m.isShip op = true ↔ ∃ exp off c t q, m = .ship op exp off c t q := by
  constructor
  · intro h
    unfold NetMsg.isShip at h
    split at h
    · obtain rfl := beq_iff_eq.1 h
      exact ⟨_, _, _, _, _, rfl⟩
    · cases h
  · rintro ⟨exp, off, c, t, q, rfl⟩
    exact beq_self_eq_true op

theorem State.shipAnswered_out {s : State} {node op : Nat} {o : OutMsg} : o ∈ (s.shipAnswered node op).net.out ↔
    o ∈ s.net.out ∧ ¬(o.node = node ∧ ∃ exp off c t q, o.msg = .ship op exp off c t q) := by
  have hout : (s.shipAnswered node op).net.out = s.net.out.filter fun o => !(o.node == node && o.msg.isShip op) := rfl
  rw [hout, List.mem_filter, Bool.not_eq_true', Bool.and_eq_false_iff, beq_eq_false_iff_ne, not_and_or, ← NetMsg.isShip_iff,
    Bool.not_eq_true]

/-- Settles O45: a request by its exported range and the ranges that its pages translate to, an answer by the request that it names. -/
theorem pftRequestEffects : Obligations.PftRequestEffects := by
  refine ⟨fun s node ctx exp off ok e n => State.exportFor_some, fun s node seq ctx exp off tid op l e ks => State.applyPut_exported,
    State.exportLook_frame, fun s node seq ctx exp off tid op n e ks => State.applyGet_exported,
    fun s node seq ctx exp off tid v e k hexp => ⟨State.applyFlag_write hexp, State.applyFlag_add hexp⟩,
    fun s node seq op ctx exp off tid r e k => State.applyShip_exported,
    fun s node seq op lc r hsender => ⟨State.acceptShip_remote hsender, State.refuseShip_remote hsender⟩,
    fun s node seq op => ⟨State.applyWithdraw_held, State.applyWithdraw_accepted⟩,
    fun s node seq ctx exp off q val cond e k => State.applySignal_exported, fun _ _ _ _ _ _ => rfl,
    fun s node seq ctx exp off q val cond hblock => ?_, fun s node seq q cc target count hblock hcount => ?_,
    fun s node seq ctx exp off val cond cc c m hm hsignal hchain => ?_, fun s node seq op off l r p hrma => ?_,
    fun s node seq op ok out results r hfind => ⟨s.shipAnswered node op, ?_, rfl, fun o => State.shipAnswered_out⟩,
    fun s node seq ctx exp off op tid add val r q cond l n => State.applyMsg_unexported, fun _ _ _ => rfl⟩
  · rw [State.applyMsg_signal, State.unblockQueue_pos (by rw [hblock]; exact beq_self_eq_true _)]
  · rw [State.applyMsg_notify, State.unblockQueue_pos (Queue.awaitsChain_of hblock rfl hcount)]
  · obtain rfl | rfl := hm
    · have hother : ((s.queue c.queue).block == some (.remoteSignal node exp off val cond)) = false := beq_eq_false_iff_ne.2 hsignal
      rw [State.applyMsg_signal, State.unblockQueue_neg hother]
    · rw [State.applyMsg_notify, State.unblockQueue_neg (Queue.not_awaitsChain hchain)]
  · show (s.applyData node op l).reply node (.ack [seq]) = _
    rw [State.applyData, hrma]
  · exact congrArg (fun u : State => u.reply node (.ack [seq])) (State.applyResult_found hfind)

end Sys2Proof.Machine
end

section
/-! Acknowledgement, refusal and retransmission, and what goes on the wire (R170, R413 to R415). -/

namespace Sys2Proof.Machine

/-! ## The wire (R413, R414) -/

theorem Net.portOf_active {x : Net} {n p : Nat} (h : x.portOf n = some p) : x.ports[p]? = some true := by
  obtain ⟨-, hactive⟩ := List.mem_filter.1 (List.mem_of_getElem? h)
  cases hp : x.ports[p]? with
  | none => rw [hp] at hactive; cases hactive
  | some up => rw [hp] at hactive; exact congrArg some hactive

theorem Net.portOf_isSome {x : Net} (h : ∃ p : Nat, x.ports[p]? = some true) (n : Nat) : (x.portOf n).isSome = true := by
  obtain ⟨p, hp⟩ := h
  have hmem : p ∈ x.active :=
    List.mem_filter.2 ⟨List.mem_range.2 (List.getElem?_eq_some_iff.1 hp).1, by rw [hp]; rfl⟩
  rw [Net.portOf, List.getElem?_eq_getElem (Nat.mod_lt n (List.length_pos_of_mem hmem))]
  rfl

theorem Net.transmit_sent {x : Net} {o : OutMsg} {p : Nat} (hreach : x.reaches o.node = true) (hport : x.portOf o.seq = some p) :
    x.transmit o = { x with wire := { o with port := some p } :: x.wire } := by
  simp only [Net.transmit, hreach, if_true, hport]

theorem Net.transmit_not {x : Net} {o : OutMsg} (h : x.portOf o.seq = none ∨ x.reaches o.node = false) : x.transmit o = x := by
  obtain h | h := h
  · cases hreach : x.reaches o.node <;> simp [Net.transmit, hreach, h]
  · simp [Net.transmit, h]

theorem Net.transmit_out (x : Net) (o : OutMsg) : (x.transmit o).out = x.out := by
  unfold Net.transmit
  split <;> rfl

theorem State.tallySent_frame (s : State) (node seq src : Nat) (c : Option Nat) :
    s.tallySent node seq src c = { s with dieCounters := (s.tallySent node seq src c).dieCounters } := by
  unfold State.tallySent
  split <;> rfl

theorem State.reply_frame (s : State) (node : Nat) (m : NetMsg) : let e := s.reply node m
    e = { s with net := s.net.transmit { node, seq := 0, msg := m, sent := s.elapsed }, dieCounters := e.dieCounters } :=
  State.tallySent_frame _ node 0 0x203 none

theorem State.send_out (s : State) (node : Nat) (m : NetMsg) (r : Option FaultRec) (c : Option Nat) :
    ∃ o : OutMsg, (s.send node m r c).net.out = s.net.out ++ [o] ∧
      o.node = node ∧ o.seq = (s.net.flow node).next ∧ o.msg = m ∧ o.refusal = r ∧ o.tries = 0 ∧ o.sent = s.elapsed := by
  refine ⟨{
    node, seq := (s.net.flow node).next, msg := m, sent := s.elapsed, refusal := r
    port := (s.net.setFlow { s.net.flow node with next := ((s.net.flow node).next + 1) % 2 ^ 32 }).portOf (s.net.flow node).next },
    ?_, rfl, rfl, rfl, rfl, rfl, rfl⟩
  unfold State.send
  rw [State.tallySent_frame]
  exact Net.transmit_out _ _

theorem State.transmit_counted {s : State} {out : List OutMsg} {o : OutMsg} {p : Nat} (hsame : o.port = some p)
    (hreach : s.net.reaches o.node = true) (hport : s.net.portOf o.seq = some p) :
    ({ s with net := { s.net with out }.transmit o } : State).tallySent o.node o.seq 0x205 none =
      ({ s with net := { s.net with out, wire := o :: s.net.wire } } : State).tallyIo 1 p 0x205 none := by
  have hsent : ({ s.net with out } : Net).transmit o = { s.net with out, wire := o :: s.net.wire } := by
    have h := Net.transmit_sent (x := { s.net with out }) hreach hport
    rwa [← hsame] at h
  have hreach' : ({ s.net with out, wire := o :: s.net.wire } : Net).reaches o.node = true := hreach
  have hport' : ({ s.net with out, wire := o :: s.net.wire } : Net).portOf o.seq = some p := hport
  rw [hsent]
  simp only [State.tallySent, hreach', if_true, hport']

theorem State.resend_sent {s : State} {o : OutMsg} {p : Nat} (hreach : s.net.reaches o.node = true) (hport : s.net.portOf o.seq = some p) :
    s.resend o = (let o' : OutMsg := { o with port := some p, tries := o.tries + 1, sent := s.elapsed }
      ({ s with net := { s.net with
        out := s.net.out.map fun x => if x.node = o'.node ∧ x.seq = o'.seq then o' else x
        wire := o' :: s.net.wire } } : State).tallyIo 1 p 0x205 none) := by
  unfold State.resend
  dsimp only
  rw [hport]
  exact State.transmit_counted (s := s) rfl hreach hport

/-! ## Messages retired (R170, R413, R415) -/

theorem exec_pftAck_one (s : State) (node seq : Nat) :
    exec (.pftAck node [seq]) s = .next ((s.tallyIo 3 node 0x204 none).acked node seq) := rfl

section
variable {s : State} {node seq : Nat}

theorem State.acked_unreached (hreach : s.net.reaches node = false) : s.acked node seq = s := by
  simp only [State.acked, hreach, Bool.false_eq_true, if_false]

theorem exec_pftNack_unreached (hreach : s.net.reaches node = false) (refused : Bool) :
    exec (.pftNack node seq refused) s = .next (s.tallyIo 3 node 0x204 none) := by
  have hreach' : (s.tallyIo 3 node 0x204 none).net.reaches node = false := hreach
  show execPftNack node seq refused s = _
  simp only [execPftNack, hreach', Bool.false_eq_true, if_false]

variable {o : OutMsg} (hout : s.outMsg node seq = some o) (hreach : s.net.reaches node = true)
include hout hreach

theorem State.acked_put {op exp off ctx tid : Nat} {l : List Byte} {r : Rma} {p : RmaPart} (hmsg : o.msg = .put op exp off ctx tid l)
    (hrma : (s.retire node seq).rmaOf node op = some (r, p)) : s.acked node seq = (s.retire node seq).rmaPartDone r p := by
  simp only [State.acked, hreach, if_true, hout, hmsg, hrma]

theorem State.acked_ship {op exp off ctx tid : Nat} {r : ShipReq} (hmsg : o.msg = .ship op exp off ctx tid r) :
    s.acked node seq = (s.retire node seq).shipAnswer node op true := by
  simp only [State.acked, hreach, if_true, hout, hmsg]

theorem State.acked_other (hput : ∀ op exp off ctx tid l, o.msg ≠ .put op exp off ctx tid l)
    (hship : ∀ op exp off ctx tid r, o.msg ≠ .ship op exp off ctx tid r) (hwithdraw : ∀ op, o.msg ≠ .shipWithdraw op) :
    s.acked node seq = s.retire node seq := by
  simp only [State.acked, hreach, if_true, hout]

/-- The state before the message is looked up: the receipt is counted. -/
theorem exec_pftNack_refused : exec (.pftNack node seq true) s =
    .next (((s.tallyIo 3 node 0x204 none).retire node seq).msgRefused node o) := by
  have hreach' : (s.tallyIo 3 node 0x204 none).net.reaches node = true := hreach
  have hout' : (s.tallyIo 3 node 0x204 none).outMsg node seq = some o := hout
  show execPftNack node seq true s = _
  simp only [execPftNack, hreach', if_true, hout']

theorem exec_pftNack_ship {op exp off ctx tid : Nat} {r : ShipReq} (hmsg : o.msg = .ship op exp off ctx tid r) :
    exec (.pftNack node seq false) s = .next (((s.tallyIo 3 node 0x204 none).answered o).shipAnswer node op false) := by
  have hreach' : (s.tallyIo 3 node 0x204 none).net.reaches node = true := hreach
  have hout' : (s.tallyIo 3 node 0x204 none).outMsg node seq = some o := hout
  show execPftNack node seq false s = _
  simp only [execPftNack, hreach', if_true, hout', Bool.false_eq_true, if_false, hmsg]

theorem exec_pftNack_again (hship : ∀ op exp off ctx tid r, o.msg ≠ .ship op exp off ctx tid r) :
    exec (.pftNack node seq false) s = .next ((s.tallyIo 3 node 0x204 none).resend o) := by
  have hreach' : (s.tallyIo 3 node 0x204 none).net.reaches node = true := hreach
  have hout' : (s.tallyIo 3 node 0x204 none).outMsg node seq = some o := hout
  show execPftNack node seq false s = _
  simp only [execPftNack, hreach', if_true, hout', Bool.false_eq_true, if_false]

theorem exec_pftRetransmit_again (hlate : o.sent + s.net.rtx ≤ s.elapsed) (htries : o.tries < 16) :
    exec (.pftRetransmit node seq) s = .next (s.resend o) := by
  show execPftRetransmit node seq s = _
  simp only [execPftRetransmit, hout, if_neg (Nat.not_lt.2 hlate), if_pos (show o.tries < 16 ∧ s.net.reaches node = true from ⟨htries, hreach⟩)]

omit hreach

theorem exec_pftRetransmit_early (hearly : s.elapsed < o.sent + s.net.rtx) : exec (.pftRetransmit node seq) s = .next s := by
  show execPftRetransmit node seq s = _
  simp only [execPftRetransmit, hout, if_pos hearly]

theorem exec_pftRetransmit_lost (hlate : o.sent + s.net.rtx ≤ s.elapsed) (htries : 16 ≤ o.tries) :
    exec (.pftRetransmit node seq) s = .next (s.losePeer node) := by
  show execPftRetransmit node seq s = _
  simp only [execPftRetransmit, hout, if_neg (Nat.not_lt.2 hlate), if_neg fun h : o.tries < 16 ∧ s.net.reaches node = true =>
    Nat.not_lt.2 htries h.1]

end

/-! ## The answers of a SHIP (R170) -/

section
variable {s : State} {node op sender : Nat} {q : ShipReq}
  (hfind : (s.net.ships.find? fun x => x.1 == op && x.2.1 == node) = some (op, node, q)) (hsender : q.sender = .thread sender)
include hfind hsender

theorem State.shipAnswer_accepted : s.shipAnswer node op true = s.shipIssued sender q.kind := by
  obtain ⟨_, _, _, _, _, _, _, _, _, _, _, _, _⟩ := q
  obtain rfl := hsender
  simp only [State.shipAnswer, hfind, if_true]

theorem State.shipAnswer_full :
    s.shipAnswer node op false = if q.waits then s.shipRefused sender 64 else s.takenBack node op := by
  obtain ⟨_, _, _, _, _, _, _, _, _, _, _, _, waits⟩ := q
  obtain rfl := hsender
  cases waits <;> simp [State.shipAnswer, hfind]

end

/-- Settles O46: an acknowledgement or a refusal by the message of its number that is kept, a retransmission by its time and its
count, and what is sent by the port of its number. -/
theorem pftDeliveryResults : Obligations.PftDeliveryResults := by
  refine ⟨fun _ _ _ => rfl, fun s node seq refused hreach => ⟨?_, exec_pftNack_unreached hreach refused⟩,
    fun s node seq o hout hreach => ?_, State.send_out, fun s o p => State.resend_sent, fun _ _ _ _ _ => rfl,
    fun x n => ⟨fun p => Net.portOf_active, fun h => Net.portOf_isSome h n⟩,
    fun x o => ⟨fun p => Net.transmit_sent, Net.transmit_not⟩, State.reply_frame⟩
  · rw [exec_pftAck_one, State.acked_unreached (s := s.tallyIo 3 node 0x204 none) hreach]
  · intro z e
    have hout' : z.outMsg node seq = some o := hout
    have hreach' : z.net.reaches node = true := hreach
    have hretire : z.retire node seq = e := rfl
    refine ⟨fun op exp off ctx tid l r p hmsg hrma => ?_, fun hput hship hwithdraw => ?_,
      fun op exp off ctx tid r q sender hmsg hfind hsender => ⟨?_, z.answered o, ?_, rfl⟩,
      fun op exp off n ctx tid r p hmsg hrma => ?_, fun op exp off ctx tid l r p hmsg hrma => ?_,
      fun exp off ctx tid add val r hmsg hrefusal => ?_, exec_pftNack_again hout hreach, exec_pftRetransmit_early hout,
      exec_pftRetransmit_again hout hreach, exec_pftRetransmit_lost hout⟩
    · rw [exec_pftAck_one, State.acked_put hout' hreach' hmsg hrma]
      rfl
    · rw [exec_pftAck_one, State.acked_other hout' hreach' hput hship hwithdraw]
      rfl
    · rw [exec_pftAck_one, State.acked_ship hout' hreach' hmsg]
      exact congrArg _ (State.shipAnswer_accepted (s := e) hfind hsender)
    · rw [exec_pftNack_ship hout hreach hmsg]
      exact congrArg _ (State.shipAnswer_full (s := z.answered o) hfind hsender)
    · rw [exec_pftNack_refused hout hreach, hretire]
      simp only [State.msgRefused, hmsg, hrma]
    · rw [exec_pftNack_refused hout hreach, hretire]
      simp only [State.msgRefused, hmsg, hrma]
    · rw [exec_pftNack_refused hout hreach, hretire]
      simp only [State.msgRefused, hmsg, hrefusal]

end Sys2Proof.Machine
end

section
/-! The canonical form of the memories through results: what a computation that ends with a state, an outcome or a move must show
for the form to be kept. -/

namespace Sys2Proof.Machine

/-- Where the computation succeeds, the state in its result has its memories in canonical form. -/
def OkInv {ε α : Type} (p : α → State) : Except ε α → Prop
  | .ok a => (p a).Inv
  | .error _ => True

/-- Where there is a result, the state in it has its memories in canonical form. -/
def SomeInv {α : Type} (p : α → State) : Option α → Prop
  | some a => (p a).Inv
  | none => True

/-- Where the outcome is a state, its memories are in canonical form. -/
def Out.Inv : Out → Prop
  | .next s => s.Inv
  | _ => True

/-- The state that the move leaves to its instruction, or ends with, has its memories in canonical form. -/
def Move.Inv : Move → Prop
  | .run _ s => s.Inv
  | .settle s => s.Inv

section
variable {ε α β : Type} {p : α → State} {q : β → State}

theorem OkInv.of_eq {r : Except ε α} {a : α} (h : OkInv p r) (heq : r = .ok a) : (p a).Inv := by
  subst heq
  exact h

theorem SomeInv.of_eq {r : Option α} {a : α} (h : SomeInv p r) (heq : r = some a) : (p a).Inv := by
  subst heq
  exact h

theorem OkInv.andThen {x : Except ε α} {k : α → Except ε β} (h : OkInv p x) (hk : ∀ a, (p a).Inv → OkInv q (k a)) :
    OkInv q (x >>= k) := by
  cases x with
  | error => trivial
  | ok a => exact hk a h

theorem OkInv.seq {x : Except ε α} {k : α → Except ε β} (hk : ∀ a, OkInv q (k a)) : OkInv q (x >>= k) := by
  cases x with
  | error => trivial
  | ok a => exact hk a

theorem SomeInv.map {o : Option α} {f : α → β} (h : SomeInv p o) (hf : ∀ a, (p a).Inv → (q (f a)).Inv) : SomeInv q (o.map f) := by
  cases o with
  | none => trivial
  | some a => exact hf a h

theorem OkInv.mapAny {x : Except ε α} {f : α → β} (hf : ∀ a, (q (f a)).Inv) : OkInv q (x.map f) := by
  cases x with
  | error => trivial
  | ok a => exact hf a

theorem OkInv.map {x : Except ε α} {f : α → β} (h : OkInv p x) (hf : ∀ a, (p a).Inv → (q (f a)).Inv) : OkInv q (x.map f) := by
  cases x with
  | error => trivial
  | ok a => exact hf a h

end

namespace State.Inv

variable {s : State}

theorem ite {c : Prop} [Decidable c] {a b : State} (ha : a.Inv) (hb : b.Inv) : (if c then a else b).Inv := by
  split
  · exact ha
  · exact hb

theorem getD {o : Option State} (ho : SomeInv id o) (h : s.Inv) : (o.getD s).Inv := by
  cases o with
  | none => exact h
  | some e => exact ho

theorem foldl {α : Type} {f : State → α → State} {l : List α} (hf : ∀ s a, s.Inv → (f s a).Inv) (h : s.Inv) : (l.foldl f s).Inv := by
  induction l generalizing s with
  | nil => exact h
  | cons a l ih => exact ih (hf s a h)

end State.Inv

theorem State.Cached.inv {s e : State} (h : s.Cached e) : s.Inv → e.Inv := (State.Serves.of_cached h).inv

theorem State.Looked.inv {s e : State} (h : s.Looked e) : s.Inv → e.Inv := h.cached.inv

end Sys2Proof.Machine
end

section
/-! What ends contexts, sections and commands, and what halts threads, keeps the canonical form (R47, R112, R176, R354, R432). -/

namespace Sys2Proof.Machine

variable {s : State}

theorem State.Inv.updThreads {tids : List Nat} {f : Thread → Thread} (h : s.Inv) : (s.updThreads tids f).Inv :=
  h

theorem State.Inv.trapWaits {a : Actor} (h : s.Inv) : (s.trapWaits a).Inv := by
  unfold State.trapWaits
  exact .updThreads h

theorem State.Inv.tallyDie {d src n : Nat} {c : Option Nat} (h : s.Inv) : (s.tallyDie d src n c).Inv :=
  h

theorem State.Inv.freshBits (h : s.Inv) : (s.freshBits).2.Inv :=
  h

theorem State.Inv.scrambleDrain {m : MCmd} {o : DrainOp} {done : List Nat} (h : s.Inv) : (s.scrambleDrain m o done).Inv := by
  unfold State.scrambleDrain
  exact .ite ((State.scramble_serves ..).inv h) ((State.freeScratch_serves ..).inv h)

theorem State.Inv.scrambleGrad {m : DCmd} {elems : List (Nat × Nat × Nat)} {done : List Nat} (h : s.Inv) :
    (s.scrambleGrad m elems done).Inv := by
  unfold State.scrambleGrad
  exact (State.scramble_serves ..).inv h

theorem State.Inv.scrambleDescent {d : Descent} {m : DCmd} (h : s.Inv) : (s.scrambleDescent d m).Inv := by
  unfold State.scrambleDescent
  split
  · exact (State.freeScratch_serves ..).inv h
  · exact .scrambleGrad h

theorem State.Inv.scrambleSaved {d : Descent} {m : DCmd} (h : s.Inv) : (s.scrambleSaved d m).Inv := by
  unfold State.scrambleSaved
  split
  · exact h
  · exact .scrambleGrad h

theorem State.Inv.scrambleRma {r : Rma} (h : s.Inv) : (s.scrambleRma r).Inv := by
  unfold State.scrambleRma
  exact .ite h (.ite ((State.freeScratch_serves ..).inv h) ((State.scramble_serves ..).inv h))

theorem State.Inv.scrambleCtx {c : Nat} (h : s.Inv) : (s.scrambleCtx c).Inv := by
  unfold State.scrambleCtx
  extract_lets s₁ s₂ s₃
  have h₁ : s₁.Inv := .foldl (fun _ _ h' => (State.scrambleCopy_serves ..).inv h') h
  have h₂ : s₂.Inv := by
    dsimp only [s₂]
    refine .foldl ?_ h₁
    intro _ _ h'
    refine .foldl (fun _ _ h₂ => .scrambleDescent h₂) ?_
    refine .foldl ?_ h'
    intro _ _ h₂
    split
    · exact .scrambleDrain h₂
    · exact h₂
  have h₃ : s₃.Inv := .foldl (fun _ _ h' => .foldl (fun _ _ h₃ => .scrambleSaved h₃) h') h₂
  exact .foldl (fun _ _ h' => .scrambleRma h') h₃

theorem State.Inv.updCore {k : Nat} {f : Core → Core} (h : s.Inv) : (s.updCore k f).Inv :=
  h

theorem State.Inv.tlbMiss {c unit : Nat} (h : s.Inv) : (s.tlbMiss c unit).Inv := by
  unfold State.tlbMiss
  exact .ite ((State.tallyCore_serves ..).inv h) (.tallyDie h)

theorem State.Inv.l2Read {c : Option Nat} {key n keep : Nat} (h : s.Inv) : (s.l2Read c key n keep).Inv :=
  h

theorem State.Inv.updCtx {c : Nat} {f : Ctx → Ctx} (h : s.Inv) : (s.updCtx c f).Inv :=
  h

theorem State.Inv.updQueue {q : Nat} {f : Queue → Queue} (h : s.Inv) : (s.updQueue q f).Inv :=
  h

theorem State.Inv.dropOwned {c : Nat} {va : Dword} {key : Nat} (h : s.Inv) : (s.dropOwned c va key).Inv :=
  h

theorem State.Inv.cancel {c : Nat} {va : Dword} (h : s.Inv) : (s.cancel c va).Inv := by
  unfold State.cancel
  exact (State.fulfil_serves ..).inv h

theorem State.Inv.teardown {c : Nat} {cancels : Bool} (h : s.Inv) : (s.teardown c cancels).Inv := by
  unfold State.teardown
  extract_lets gids nums s₁ s₂ s₃ owned
  have h₁ : s₁.Inv := h
  have h₂ : s₂.Inv := (State.askBack_serves ..).inv (.scrambleCtx h₁)
  have h₃ : s₃.Inv := .ite (.foldl (fun _ _ h' => .cancel h') h₂) h₂
  exact h₃

theorem State.Inv.interrupt {func vector : Nat} (h : s.Inv) : (s.interrupt func vector).Inv :=
  h

theorem State.Inv.stopDevice (h : s.Inv) : s.stopDevice.Inv := by
  unfold State.stopDevice
  exact .interrupt (.interrupt (.of_eq (.foldl (fun _ _ h' => .teardown h') h) rfl rfl rfl))

theorem State.Inv.endContext {c : Nat} (h : s.Inv) : (s.endContext c).Inv := by
  unfold State.endContext
  exact .teardown h

theorem State.Inv.routeRecord {c : Nat} {x : Ctx} {r : FaultRec} {seq : Nat} (h : s.Inv) : (s.routeRecord c x r seq).Inv := by
  unfold State.routeRecord
  exact .ite (.updCtx h) (.ite (.interrupt h) h)

theorem State.Inv.writeRecord {c : Nat} (h : s.Inv) : (s.writeRecord c).Inv := by
  unfold State.writeRecord
  split
  · exact h
  · split
    · exact h
    · exact .ite h ((State.tallyIo_serves ..).inv (.routeRecord (.updCtx ((State.putFor_serves ..).inv ((State.putFor_serves
        ..).inv h)))))

theorem State.Inv.writeRecords {c : Nat} (h : s.Inv) : (s.writeRecords c).Inv := by
  unfold State.writeRecords
  exact .foldl (fun _ _ h' => .writeRecord h') h

theorem State.Inv.poisonEnds {c : Nat} {r : FaultRec} (h : s.Inv) : (s.poisonEnds c r).Inv := by
  unfold State.poisonEnds
  exact .ite (.stopDevice h) (.endContext (.writeRecords ((State.postRecord_serves ..).inv h)))

theorem State.Inv.updLc {n : Nat} {f : Lc → Lc} (h : s.Inv) : (s.updLc n f).Inv :=
  h

theorem State.Inv.count {ctx : Nat} {f : Usage → Usage} (h : s.Inv) : (s.count ctx f).Inv :=
  h

theorem State.Inv.freeBlock {ctx : Nat} {va : Dword} {n : Nat} (h : s.Inv) : (s.freeBlock ctx va n).Inv := by
  unfold State.freeBlock
  split
  · exact .foldl (fun _ _ h' => (State.freeByte_serves ..).inv h') h
  · exact h

theorem OkInv.store {c : Nat} {va : Dword} {l : List Byte} (h : s.Inv) : OkInv id (s.store c va l) := by
  unfold State.store
  split
  · trivial
  · exact (State.putFor_serves ..).inv ((State.lookUp_serves ..).inv h)

theorem State.Inv.fulfilToken {req : ShipReq} {ok : Bool} {cause : BitVec 8} {results : List Word} {lc : Nat} {pc : Dword}
    (h : s.Inv) : (s.fulfilToken req ok cause results lc pc).Inv := by
  unfold State.fulfilToken
  dsimp only
  split
  · exact (State.fulfil_serves ..).inv (.ite h (.freeBlock h))
  · split
    · exact (State.fulfil_serves ..).inv h
    · split
      · rename_i he'
        have h' := OkInv.of_eq (.store h) he'
        exact (State.fulfil_serves ..).inv h'
      · exact (State.fulfil_serves ..).inv ((State.postRecord_serves ..).inv h)

theorem State.Inv.updThread {tid : Nat} {f : Thread → Thread} (h : s.Inv) : (s.updThread tid f).Inv :=
  h

theorem State.Inv.condDone {tid : Nat} {done : Bool} (h : s.Inv) : (s.condDone tid done).Inv := by
  unfold State.condDone
  split
  · exact h
  · exact (State.release_sheds ..).inv (.updThread h)

theorem State.Inv.deliverShipW {tid : Nat} {req : ShipReq} {words : List Word} {ok : Bool} (h : s.Inv) :
    (s.deliverShipW tid req words ok).Inv := by
  unfold State.deliverShipW
  exact .condDone (.updThread h)

theorem State.Inv.endSection {t : Thread} {x : SectionInfo} {fault : Option Trap} (h : s.Inv) : (s.endSection t x fault).Inv := by
  unfold State.endSection
  extract_lets lc results s₁ s₂
  have h₁ : s₁.Inv := h
  have h₂ : s₂.Inv := .updLc h₁
  split
  · exact (State.sendFor_serves ..).inv h₂
  · split
    · exact h₂
    · exact .fulfilToken h₂
    · split <;> exact .deliverShipW h₂

theorem State.Inv.sectionFault {t : Thread} {x : SectionInfo} {f : Trap} (h : s.Inv) : (s.sectionFault t x f).Inv := by
  unfold State.sectionFault
  dsimp only
  refine .endSection ?_
  split
  · exact (State.postRecord_serves ..).inv h
  · exact h

theorem State.Inv.haltFrames {tids : List Nat} {x : Trap} {frank skid : Nat} (h : s.Inv) :
    (s.haltFrames tids x frank skid).Inv := by
  unfold State.haltFrames
  exact .updThreads h

theorem State.Inv.updGroup {gid : Nat} {f : Group → Group} (h : s.Inv) : (s.updGroup gid f).Inv :=
  h

theorem State.Inv.haltSiblings {gid fid : Nat} {x : Trap} {frank : Nat} {all : Bool} (h : s.Inv) :
    (s.haltSiblings gid fid x frank all).Inv := by
  unfold State.haltSiblings
  split
  · exact h
  · exact .foldl (fun _ _ h' => .ite h' (.ite (.updGroup h') (.ite h' (.ite (.updGroup (.haltFrames h')) (.updGroup h'))))) h

theorem State.Inv.haltContext {c : Nat} {x : Trap} (h : s.Inv) : (s.haltContext c x).Inv := by
  unfold State.haltContext
  exact .foldl (fun _ _ h' => .haltSiblings h') (.foldl (fun _ _ h' => .ite h' (.ite (.updThread h') (.updThread
    (.haltFrames h')))) h)

end Sys2Proof.Machine
end

section
/-! Records, tasks, adoption, traps, parking and the caches keep the canonical form (R30, R47, R65 to R76, R351, R430). -/

namespace Sys2Proof.Machine

variable {s : State}

theorem State.Inv.freshRecord {c : Nat} (h : s.Inv) : (s.freshRecord c).2.Inv := by
  unfold State.freshRecord
  exact .updCtx h

theorem State.Inv.withdraw {tids : List Nat} (h : s.Inv) : (s.withdraw tids).Inv := by
  unfold State.withdraw
  exact .updThreads ((State.dropRequests_serves ..).inv h)

theorem State.Inv.updTask {id : Nat} {f : Task → Task} (h : s.Inv) : (s.updTask id f).Inv :=
  h

theorem State.Inv.rewriteTask {id : Nat} (h : s.Inv) : (s.rewriteTask id).Inv := by
  unfold State.rewriteTask
  split
  · exact h
  · extract_lets at' s₁
    have h₁ : s₁.Inv := (State.rewriteOwned_serves ..).inv h
    split
    · exact .ite ((State.devUpdate_serves ..).inv h₁) h₁
    · exact h₁

theorem State.Inv.saveTask {id : Nat} {lends : Bool} {lendSet : Option Nat} (h : s.Inv) : (s.saveTask id lends lendSet).Inv := by
  unfold State.saveTask
  split
  · exact h
  · split
    · exact h
    · extract_lets n groups nums banks mine cells kept num s₁ rings eng held own s₂ image s₃ s₄ s₅ s₆
      have hnum : num.2.Inv := by
        dsimp only [num]
        exact .freshRecord h
      have h₁ : s₁.Inv := hnum
      have h₂ : s₂.Inv := .withdraw h₁
      have h₃ : s₃.Inv := .updTask h₂
      have h₄ : s₄.Inv := h₃
      have h₅ : s₅.Inv := h₄
      have h₆ : s₆.Inv := .updCore h₅
      exact .rewriteTask h₆

theorem State.Inv.endAdoption {id : Nat} {faulted : Bool} (h : s.Inv) : (s.endAdoption id faulted).Inv := by
  unfold State.endAdoption
  split
  · exact h
  · exact .ite h (.ite ((State.askBack_serves ..).inv h) ((State.restoreFrames_sheds ..).inv (.updCtx (.saveTask h))))

theorem State.Inv.endAdoptions (h : s.Inv) : s.endAdoptions.Inv := by
  unfold State.endAdoptions
  exact .foldl (fun _ _ h' => .ite h' (.endAdoption h')) h

theorem State.Inv.enterHandler {tids : List Nat} (h : s.Inv) : (s.enterHandler tids).Inv := by
  unfold State.enterHandler
  exact (State.refreshAge_sheds ..).inv (.updThreads h)

theorem State.Inv.nextHandler {gid : Nat} (h : s.Inv) : (s.nextHandler gid).Inv := by
  unfold State.nextHandler
  split
  · exact h
  · split
    · exact h
    · dsimp only
      split
      · exact h
      · exact .enterHandler (.updGroup h)

theorem State.Inv.tallyTrap {tid : Nat} (h : s.Inv) : (s.tallyTrap tid).Inv := by
  unfold State.tallyTrap
  split
  · exact (State.tallyCore_serves ..).inv h
  · exact h

theorem State.Inv.addCounts {c : Nat} (h : s.Inv) : (s.addCounts c).Inv := by
  unfold State.addCounts
  exact .ite h h

theorem State.Inv.l1Drop {k : Nat} {gone : Nat → Bool} (h : s.Inv) : (s.l1Drop k gone).Inv :=
  h

theorem State.Inv.freshId (h : s.Inv) : (s.freshId).2.Inv :=
  h

theorem State.Inv.formGroup {ctx d c : Nat} {tids : List Nat} (h : s.Inv) : (s.formGroup ctx d c tids).Inv := by
  unfold State.formGroup
  exact .foldl (fun _ _ h' => .updThread h') (.of_eq (.freshId h) rfl rfl rfl)

theorem State.Inv.setRecord {p : RecPlace} {c num : Nat} {f : QRec → Option QRec} (h : s.Inv) : (s.setRecord p c num f).Inv := by
  unfold State.setRecord
  dsimp only
  split
  · exact .updCore h
  · exact .updCore h
  · exact .updCtx h

theorem State.Inv.takeIndex {p : RecPlace} {r : QRec} {top : Bool} (h : s.Inv) : (s.takeIndex p r top).Inv := by
  unfold State.takeIndex
  exact .ite (.of_eq (.setRecord h) rfl rfl rfl) (.setRecord h)

theorem State.Inv.toFrames {tids : List Nat} (h : s.Inv) : (s.toFrames tids).Inv := by
  unfold State.toFrames
  exact .updThreads h

theorem State.Inv.enterHandlers {ids : List Nat} (h : s.Inv) : (s.enterHandlers ids).Inv := by
  unfold State.enterHandlers
  dsimp only
  refine .foldl ?_ h
  intro _ _ h'
  split
  · exact .enterHandler h'
  · exact .nextHandler h'

theorem State.Inv.freshBelow {n : Nat} (h : s.Inv) : (s.freshBelow n).2.Inv :=
  h

theorem State.Inv.tokenHome {a : ShipHome} (h : s.Inv) : (s.tokenHome a).2.Inv := by
  unfold State.tokenHome
  split
  · exact h
  · exact .freshBelow h

theorem State.Inv.offerShip {t : Thread} {r : ShipReq} {a : ShipHome} (h : s.Inv) : (s.offerShip t r a).Inv := by
  unfold State.offerShip
  split
  · exact .updLc h
  · exact .of_eq ((State.sendFor_serves ..).inv (.freshId h)) rfl rfl rfl

theorem State.Inv.slotHandles {ids : List Nat} (h : s.Inv) : (s.slotHandles ids).Inv := by
  unfold State.slotHandles
  refine .foldl ?_ h
  intro _ _ h'
  dsimp only
  split
  · exact .rewriteTask (.updTask h')
  · exact h'

theorem State.Inv.parkRest {tids but : List Nat} {done : Bool} (h : s.Inv) : (s.parkRest tids but done).Inv := by
  unfold State.parkRest
  exact .updThreads h

theorem State.Inv.icMiss {core : Nat} (h : s.Inv) : (s.icMiss core).Inv := by
  unfold State.icMiss
  exact .ite ((State.tallyCore_serves ..).inv h) h

theorem State.Inv.writeBack {sectors : List Nat} (h : s.Inv) : (s.writeBack sectors).Inv :=
  h

theorem State.Inv.enterCtx {k c : Nat} (h : s.Inv) : (s.enterCtx k c).Inv := by
  unfold State.enterCtx
  split
  · exact h
  · extract_lets s₁ s₂
    have h₂ : s₂.Inv := by
      refine .updCore ?_
      dsimp only [s₁]
      split
      · exact .addCounts h
      · exact h
    obtain ⟨hmem, hscratch, hcells⟩ := h₂
    exact ⟨hmem, SMap.filter_wf _ hscratch, SMap.filter_wf _ hcells⟩

theorem State.Inv.setBehind {key : Nat} {b : Byte} (h : s.Inv) : (s.setBehind key b).Inv :=
  ⟨SMap.set_wf _ _ h.1, h.2⟩

theorem SMap.foldl_wf {α β : Type} [DecidableEq α] {d : α} {f : SMap α → β → SMap α} {l : List β} {m : SMap α}
    (hf : ∀ m b, SMap.wf d m → SMap.wf d (f m b)) (h : SMap.wf d m) : SMap.wf d (l.foldl f m) := by
  induction l generalizing m with
  | nil => exact h
  | cons b l ih => exact ih (hf m b h)

theorem State.Inv.restoreImage {id n : Nat} {alloc : Option (Nat × Nat)} (h : s.Inv) : (s.restoreImage id n alloc).Inv := by
  unfold State.restoreImage
  split
  · exact h
  · next k _ =>
    obtain ⟨hmem, hscratch, hcells⟩ : (s.enterCtx n k.ctx).Inv := .enterCtx h
    exact ⟨hmem, putBytes_wf _ _ hscratch, SMap.foldl_wf (fun _ _ hm => SMap.set_wf _ _ hm) (SMap.filter_wf _ hcells)⟩

theorem State.Inv.endTask {id : Nat} {fault : Option (BitVec 8)} (h : s.Inv) : (s.endTask id fault).Inv := by
  cases hk : s.task? id with
  | none =>
    unfold State.endTask
    rw [hk]
    exact h
  | some k => exact (State.endTask_sheds hk fault).inv h

theorem SomeInv.start {k : Nat} {r : QRec} {idx depth : Nat} {slots : List (Nat × Nat)} {w : List Nat} (h : s.Inv) :
    SomeInv id (s.start k r idx slots depth w) := by
  unfold State.start
  split
  · trivial
  · extract_lets ch s₁ id s₂ roles first h' inSet
    have h₁ : s₁.Inv := .enterCtx (State.Inv.of_eq h rfl rfl rfl)
    split
    · extract_lets mk tids t s₃ s₄ s₅ s₆ s₇
      have h₅ : s₅.Inv := h₁
      have h₆ : s₆.Inv := .ite (.formGroup h₅) h₅
      exact h₆
    · trivial

theorem State.Inv.raise {a : Actor} {first : Nat} {x : Trap} {iword : Dword} (h : s.Inv) : (s.raise a first x iword).Inv := by
  unfold State.raise
  split
  · exact h
  · split
    · exact .poisonEnds h
    · split
      · exact .sectionFault h
      · extract_lets tids frank s₁ debug halt inH ending s₂ tids' s₃ s₄ s₅ s₆
        have hhalt : ∀ {e : State}, e.Inv → (halt e).Inv := fun h => .ite (.haltContext h) h
        have h₂ : s₂.Inv := .foldl (fun _ _ h => .endTask ((State.postRecord_serves ..).inv h)) (.updThreads h)
        have h₄ : s₄.Inv := .ite ((State.postRecord_serves ..).inv (.updThreads h₂)) (.updThreads h₂)
        have h₅ : s₅.Inv := by
          dsimp only [s₅]
          split
          · exact .haltSiblings (.updGroup h₄)
          · exact h₄
        have h₆ : s₆.Inv := hhalt h₅
        split
        · exact .endAdoptions (hhalt h₂)
        · split
          · exact .endAdoptions h₆
          · split
            · exact h₆
            · split
              · exact .nextHandler h₆
              · exact .enterHandler h₆

theorem SomeInv.startFrom {p : RecPlace} {r : QRec} {k : Nat} {slots : List (Nat × Nat)} {top : Bool} {depth : Nat}
    {waiters : List Nat} (h : s.Inv) : SomeInv id (s.startFrom p r k slots top depth waiters) := by
  unfold State.startFrom
  split
  · trivial
  · rename_i he'
    have h' := SomeInv.of_eq (.start h) he'
    extract_lets s₁
    have h₁ : s₁.Inv := .takeIndex h'
    show State.Inv _
    split
    · exact .rewriteTask h₁
    · exact h₁

theorem State.Inv.resendOne {tid : Nat} (h : s.Inv) : (s.resendOne tid).Inv := by
  unfold State.resendOne
  split
  · exact h
  · split
    · exact h
    · split
      · exact .updThread (.offerShip (.ite ((State.devUpdate_serves ..).inv (.tokenHome h)) (.tokenHome h)))
      · exact .updThread ((State.openFault_serves ..).inv h)
      · exact .raise (.tallyTrap (.updThread h))
      · exact h

theorem State.Inv.resendAll {tids : List Nat} (h : s.Inv) : (s.resendAll tids).Inv := by
  unfold State.resendAll
  exact .foldl (fun _ _ h' => .resendOne h') h

theorem SomeInv.restore {ids : List Nat} {n : Nat} {at' : Thread → Option (Nat × Nat)} (h : s.Inv) :
    SomeInv id (s.restore ids n at') := by
  unfold State.restore
  extract_lets ch
  have hch : ch.2.Inv := by
    dsimp only [ch]
    exact .freshBits h
  split
  · trivial
  · extract_lets s₁ mine s₂ ctxs s₃ tids
    have h₁ : s₁.Inv := .foldl (fun _ _ h' => .restoreImage h') hch
    have h₂ : s₂.Inv := by
      dsimp only [s₂]
      refine .foldl ?_ h₁
      intro _ _ h'
      split
      · exact .updThread h'
      · exact h'
    have h₃ : s₃.Inv := .foldl (fun _ _ h' => .updCtx h') h₂
    exact .enterHandlers (.endAdoptions ((State.refreshAge_sheds ..).inv (.resendAll (.slotHandles h₃))))

theorem State.Inv.dropSectors {sectors : List Nat} (h : s.Inv) : (s.dropSectors sectors).Inv := by
  unfold State.dropSectors
  exact .of_eq (.foldl (fun _ _ h' => .setBehind h') h) rfl rfl rfl

theorem SomeInv.adopt {ts : List Thread} {n : Nat} {w : Word} (h : s.Inv) : SomeInv id (s.adopt ts n w) := by
  unfold State.adopt
  dsimp only
  split
  · trivial
  · split
    · trivial
    · split
      · trivial
      · exact .startFrom (.toFrames h)
    · split
      · trivial
      · split
        · trivial
        · split
          · trivial
          · split
            · trivial
            · exact .restore (.updTask (.toFrames h))

theorem SomeInv.tryAdopt {tids : List Nat} (h : s.Inv) : SomeInv id (s.tryAdopt tids) := by
  unfold State.tryAdopt
  split
  · trivial
  · split
    · trivial
    · split
      · split
        · trivial
        · exact .map (.adopt h) (fun _ h' => (State.tallyCore_serves ..).inv h')
      · trivial

theorem State.Inv.parkCheck {tids : List Nat} (h : s.Inv) : (s.parkCheck tids).Inv := by
  unfold State.parkCheck
  split
  · rename_i he'
    have h' := SomeInv.of_eq (.tryAdopt h) he'
    exact h'
  · exact .endAdoptions h

theorem State.Inv.homeDrop {sector : Nat} (h : s.Inv) : (s.homeDrop sector).Inv := by
  unfold State.homeDrop
  exact .dropSectors (.writeBack h)

theorem State.Inv.trimSlice {slice : Nat} (h : s.Inv) : (s.trimSlice slice).Inv := by
  unfold State.trimSlice
  dsimp only
  split
  · exact h
  · split
    · exact .homeDrop h
    · exact h

theorem State.Inv.trimDie {die : Nat} (h : s.Inv) : (s.trimDie die).Inv := by
  unfold State.trimDie
  dsimp only
  split
  · exact h
  · split <;> exact h

theorem State.Inv.trim (h : s.Inv) : s.trim.Inv := by
  unfold State.trim
  exact .ite h (.foldl (fun _ _ h' => .trimDie h') (.foldl (fun _ _ h' => .trimSlice h') h))

end Sys2Proof.Machine
end

section
/-! Futures, groups, queue objects, stores, the messages of other nodes and the caches keep the canonical form (R65 to R67, R84, R85,
R273, R296, R413). -/

namespace Sys2Proof.Machine

variable {s : State}

theorem OkInv.wait {t : Thread} {d : GReg} {va : Dword} {us : Nat} (h : s.Inv) : OkInv Prod.fst (s.wait t d va us) := by
  unfold State.wait
  refine .seq fun _ => ?_
  refine .seq fun _ => ?_
  split
  · dsimp only
    split
    · exact .seq fun _ => h
    · exact h
  · dsimp only
    split
    · exact .seq fun _ => .updThread h
    · exact .updThread h

theorem OkInv.waitBit {t : Thread} {va : Dword} {i : Nat} (h : s.Inv) : OkInv Prod.fst (s.waitBit t va i) :=
  .seq fun _ => .seq fun _ => .seq fun _ => .seq fun _ => h

theorem State.Inv.claimOwned {t : Thread} {va : Dword} (h : s.Inv) : (s.claimOwned t va).2.Inv := by
  unfold State.claimOwned
  split
  · split
    · exact h
    · split
      · exact h
      · exact .updTask h
  · exact h

theorem State.Inv.putFuture {key : Nat} {w : Word} (h : s.Inv) : (s.putFuture key w).Inv := by
  unfold State.putFuture
  exact State.putMem_inv _ _ h

theorem OkInv.fnew {t : Thread} {none_ : Bool} {va : Dword} (h : s.Inv) : OkInv id (s.fnew t none_ va) := by
  unfold State.fnew
  refine .seq fun _ => ?_
  refine .seq fun _ => ?_
  refine .seq fun _ => ?_
  extract_lets o
  have ho : o.2.Inv := by
    dsimp only [o]
    split
    · exact h
    · exact .claimOwned h
  exact .putFuture ho

theorem State.Inv.putGroup {key x : Nat} {g : GroupObj} (h : s.Inv) : (s.putGroup key x g).Inv := by
  unfold State.putGroup
  exact State.putMem_inv _ _ h

theorem OkInv.join {t : Thread} {va : Dword} (h : s.Inv) : OkInv id (s.join t va) :=
  .seq fun _ => .seq fun _ => .putGroup h

theorem OkInv.leave {t : Thread} {va : Dword} (h : s.Inv) : OkInv id (s.leave t va) := by
  unfold State.leave
  refine .seq fun _ => ?_
  refine .seq fun _ => ?_
  dsimp only
  split
  · exact .seq fun _ => .putGroup h
  · exact .putGroup h

theorem State.Inv.putBucket {b : Bucket} (h : s.Inv) : (s.putBucket b).Inv := by
  unfold State.putBucket
  exact State.putMem_inv _ _ h

theorem State.Inv.putNonempty {q : QObj} {b : Nat} {v : Bool} (h : s.Inv) : (s.putNonempty q b v).Inv := by
  unfold State.putNonempty
  exact State.putMem_inv _ _ h

theorem OkInv.popStep {t : Thread} {obj : Dword} {b : Option Nat} (h : s.Inv) : OkInv id (s.popStep t obj b) := by
  unfold State.popStep
  split
  · exact h
  · refine .seq fun _ => ?_
    extract_lets empty
    have hempty : empty.Inv := .updThread h
    split
    · exact .seq fun _ => hempty
    · refine .seq fun _ => ?_
      split
      · exact hempty
      · exact .seq fun _ => .updThread (.ite (.putNonempty (.putBucket h)) (.putBucket h))

theorem OkInv.popEntry {t : Thread} {pd : PReg} {d : GReg} (h : s.Inv) : OkInv Prod.fst (s.popEntry t pd d) := by
  unfold State.popEntry
  split
  · exact h
  · split
    · exact .updThread h
    · refine .seq fun _ => ?_
      split
      · dsimp only
        split
        · exact .seq fun _ => h
        · exact h
      · exact .updThread h
      · exact .seq fun _ => .seq fun _ => .seq fun _ => .seq fun _ => .updThread (State.putMem_inv _ _ (.putFuture h))

theorem State.Inv.kick {q : Nat} {w : Word} (h : s.Inv) : (s.kick q w).Inv := by
  unfold State.kick
  exact .ite ((State.tallyIo_serves ..).inv (.updQueue h)) h

theorem OkInv.atomGlobal {t : Thread} {op : AtomOp} {sz : MSize} {a b : GReg} {ch : Nat} (h : s.Inv) :
    OkInv Prod.snd (s.atomGlobal t op sz a b ch) :=
  .seq fun _ => .seq fun _ => .seq fun _ => .seq fun _ => (State.putMemAs_serves ..).inv h

theorem State.Inv.passCounters {from_ to' : Nat} (h : s.Inv) : (s.passCounters from_ to').Inv := by
  unfold State.passCounters
  exact .ite h h

theorem State.Inv.elapse {ns : Nat} (h : s.Inv) : (s.elapse ns).Inv := by
  unfold State.elapse
  exact .of_eq (.passCounters (.foldl (fun _ _ h' => .count h') (.foldl (fun _ _ h' => .count h') h))) rfl rfl rfl

theorem State.Inv.tlbFill {unit c : Nat} {va : Dword} (h : s.Inv) : (s.tlbFill unit c va).Inv := by
  unfold State.tlbFill
  split
  · exact h
  · dsimp only
    split
    · exact .of_eq (.tlbMiss h) rfl rfl rfl
    · split
      · exact .of_eq ((State.walkFill_looked ..).inv (.ite (.tlbMiss (.tlbMiss h)) (.tlbMiss h))) rfl rfl rfl
      · exact (State.walkFill_looked ..).inv (.ite (.tlbMiss (.tlbMiss h)) (.tlbMiss h))

theorem State.Inv.tlbDrop {unit c : Nat} {va : Dword} (h : s.Inv) : (s.tlbDrop unit c va).Inv :=
  h

theorem State.Inv.icDrop {core key : Nat} (h : s.Inv) : (s.icDrop core key).Inv :=
  h

theorem State.Inv.prefetchNext {tid : Nat} (h : s.Inv) : (s.prefetchNext tid).Inv := by
  unfold State.prefetchNext
  extract_lets s₁
  have h₁ : s₁.Inv := h
  split
  · exact h₁
  · dsimp only
    split
    · exact h₁
    · split
      · exact .updThread ((State.fetchFill_looked ..).inv h₁)
      · exact h₁

theorem State.Inv.l2Evict {sector : Nat} (h : s.Inv) : (s.l2Evict sector).Inv := by
  unfold State.l2Evict
  exact .ite (.homeDrop h) h

theorem State.Inv.pruneOld {core : Nat} (h : s.Inv) : (s.pruneOld core).Inv :=
  h

theorem State.Inv.lcL2Evict {lc sector : Nat} (h : s.Inv) : (s.lcL2Evict lc sector).Inv := by
  unfold State.lcL2Evict
  exact .ite (.pruneOld h) h

theorem State.Inv.l1Evict {core sector : Nat} (h : s.Inv) : (s.l1Evict core sector).Inv := by
  unfold State.l1Evict
  exact .ite (.pruneOld h) h

theorem State.Inv.copyEvict {die sector : Nat} (h : s.Inv) : (s.copyEvict die sector).Inv := by
  unfold State.copyEvict
  exact .ite h h

theorem State.Inv.putPart {c : LdaCopy} {l : List Byte} {p : Nat} (h : s.Inv) : (s.putPart c l p).Inv := by
  unfold State.putPart
  exact State.putScratch_inv _ _ h

theorem State.Inv.landPart {id p : Nat} (h : s.Inv) : (s.landPart id p).Inv := by
  unfold State.landPart
  split
  · exact h
  · split
    · exact .ite (.of_eq (.putPart h) rfl rfl rfl) h
    · exact h

theorem State.Inv.updFunc {n : Nat} {f : Func → Func} (h : s.Inv) : (s.updFunc n f).Inv :=
  h

theorem State.Inv.setStat {func stat reason word : Nat} (h : s.Inv) : (s.setStat func stat reason word).Inv := by
  unfold State.setStat
  exact .updFunc h

theorem State.Inv.fwFinish (h : s.Inv) : s.fwFinish.Inv := by
  unfold State.fwFinish
  split
  · exact h
  · exact .ite (.setStat h) (.setStat h)

theorem State.Inv.fwLeaseCheck (h : s.Inv) : s.fwLeaseCheck.Inv := by
  unfold State.fwLeaseCheck
  split
  · exact .ite h (.fwFinish h)
  · exact h

theorem State.Inv.violate (h : s.Inv) : s.violate.Inv :=
  h

theorem State.Inv.postWindow {e st : Nat} (h : s.Inv) : (s.postWindow e st).Inv := by
  unfold State.postWindow
  exact .foldl (fun _ _ h' => .ite h' h') h

theorem State.Inv.settleWindow {e st : Nat} (h : s.Inv) : (s.settleWindow e st).Inv := by
  unfold State.settleWindow
  exact .of_eq (.foldl (fun _ _ h' => .addCounts h') (.postWindow h)) rfl rfl rfl

theorem State.Inv.postPartial (h : s.Inv) : s.postPartial.Inv := by
  unfold State.postPartial
  exact .settleWindow (.freshBits (.freshBits h))

theorem State.Inv.warmReset (h : s.Inv) : s.warmReset.Inv := by
  unfold State.warmReset
  extract_lets s₁ s₂ s₃ s₄
  have h₁ : s₁.Inv := .fwFinish h
  have h₂ : s₂.Inv := .foldl (fun _ _ h' => .endContext h') h₁
  have h₃ : s₃.Inv := h₂
  have h₄ : s₄.Inv := .postPartial h₃
  exact h₄

theorem State.Inv.setControl {off : Nat} {val : Word} (h : s.Inv) : (s.setControl off val).Inv := by
  unfold State.setControl
  exact .ite h (.ite (.updCore h) (.ite h (.ite h h)))

theorem State.Inv.receiveAgain {node seq : Nat} (h : s.Inv) : (s.receiveAgain node seq).Inv := by
  unfold State.receiveAgain
  dsimp only
  split
  · exact (State.reply_serves ..).inv h
  · split
    · exact (State.reply_serves ..).inv h
    · split
      · exact h
      · split
        · exact (State.reply_serves ..).inv h
        · exact h
        · exact (State.reply_serves ..).inv h

theorem State.Inv.refuseMsg {node seq : Nat} (h : s.Inv) : (s.refuseMsg node seq).Inv := by
  unfold State.refuseMsg
  exact (State.reply_serves ..).inv h

theorem State.Inv.received {ctx n : Nat} (h : s.Inv) : (s.received ctx n).Inv := by
  unfold State.received
  exact .count h

theorem State.Inv.poisonedExport {e : Export} {off : Nat} {acc : Acc} (h : s.Inv) : (s.poisonedExport e off acc).Inv := by
  unfold State.poisonedExport
  exact .poisonEnds (.freshBelow (.freshBelow h))

theorem State.Inv.applyGet {node seq op ctx exp off n : Nat} (h : s.Inv) : (s.applyGet node seq op ctx exp off n).Inv := by
  unfold State.applyGet
  split
  · exact .refuseMsg h
  · extract_lets s₁
    have h₁ : s₁.Inv := (State.exportLook_looked ..).inv h
    split
    · exact .refuseMsg h₁
    · exact .ite (.poisonedExport h₁) ((State.sendFor_serves ..).inv ((State.reply_serves ..).inv (.foldl (fun _ _ h' =>
        .l2Read h') h₁)))

theorem State.Inv.applyFlag {node seq ctx exp off : Nat} {add : Bool} {v : Dword} (h : s.Inv) :
    (s.applyFlag node seq ctx exp off add v).Inv := by
  unfold State.applyFlag
  split
  · exact .refuseMsg h
  · extract_lets s₁
    have h₁ : s₁.Inv := (State.exportLook_looked ..).inv h
    split
    · exact .ite (.poisonedExport h₁) ((State.reply_serves ..).inv (.received ((State.putFor_serves ..).inv h₁)))
    · exact .refuseMsg h₁

theorem State.Inv.applyShip {node seq op ctx exp off : Nat} {r : ShipReq} (h : s.Inv) :
    (s.applyShip node seq op ctx exp off r).Inv := by
  unfold State.applyShip
  split
  · exact .refuseMsg h
  · dsimp only
    split
    · exact .refuseMsg h
    · exact .received (.updLc h)

theorem State.Inv.unblockQueue {q : Nat} {b : Queue → Bool} (h : s.Inv) : (s.unblockQueue q b).Inv := by
  unfold State.unblockQueue
  exact .ite (.updQueue h) h

theorem State.Inv.fireRemote (h : s.Inv) : s.fireRemote.Inv := by
  unfold State.fireRemote
  dsimp only
  refine .foldl ?_ h
  intro _ _ h'
  split
  · exact (State.send_serves ..).inv h'
  · exact h'

theorem State.Inv.applySignal {node seq ctx exp off q : Nat} {val : Dword} {cond : Nat} (h : s.Inv) :
    (s.applySignal node seq ctx exp off q val cond).Inv := by
  unfold State.applySignal
  split
  · exact .refuseMsg h
  · extract_lets s₁
    have h₁ : s₁.Inv := (State.exportLook_looked ..).inv h
    split
    · exact (State.reply_serves ..).inv (.fireRemote h₁)
    · exact .refuseMsg h₁

theorem State.Inv.applyChain {node seq target q : Nat} {count : Word} (h : s.Inv) :
    (s.applyChain node seq target q count).Inv := by
  unfold State.applyChain
  exact (State.reply_serves ..).inv ((State.notifyChains_serves ..).inv h)

theorem OkInv.rmaWrite {r : Rma} {off : Nat} {l : List Byte} (h : s.Inv) : OkInv id (s.rmaWrite r off l) := by
  unfold State.rmaWrite
  split
  · dsimp only
    split
    · exact .updTask h
    · exact State.putScratch_inv _ _ h
  · exact .store h

theorem State.Inv.rmaEnds {r : Rma} (h : s.Inv) : (s.rmaEnds r).Inv := by
  unfold State.rmaEnds
  exact .ite ((State.sweepAllocs_serves ..).inv h) h

theorem State.Inv.rmaCheck {id : Nat} (h : s.Inv) : (s.rmaCheck id).Inv := by
  unfold State.rmaCheck
  split
  · exact h
  · exact .ite ((State.fulfil_serves ..).inv (.rmaEnds h)) h

theorem State.Inv.updRma {id : Nat} {f : Rma → Rma} (h : s.Inv) : (s.updRma id f).Inv :=
  h

theorem State.Inv.rmaPartDone {r : Rma} {p : RmaPart} (h : s.Inv) : (s.rmaPartDone r p).Inv := by
  unfold State.rmaPartDone
  exact .rmaCheck (.updRma h)

theorem State.Inv.poisonCheck {ctx : Nat} {x : Failure} {agent die unit : Nat} {task : Word} (h : s.Inv) :
    (s.poisonCheck ctx x agent die unit task).Inv := by
  unfold State.poisonCheck
  exact .ite (.poisonEnds h) h

theorem State.Inv.rmaFails {r : Rma} {x : Failure} (h : s.Inv) : (s.rmaFails r x).Inv := by
  unfold State.rmaFails
  exact .poisonCheck ((State.commandFails_serves ..).inv (.rmaEnds h))

theorem State.Inv.rmaStops {r : Rma} {a : Stop} (h : s.Inv) : (s.rmaStops r a).Inv := by
  unfold State.rmaStops
  split
  · exact .updRma ((State.openFault_serves ..).inv h)
  · exact .rmaFails h
  · exact h

theorem State.Inv.rmaData {r : Rma} {p : RmaPart} {l : List Byte} (h : s.Inv) : (s.rmaData r p l).Inv := by
  unfold State.rmaData
  split
  · rename_i he'
    have h' := OkInv.of_eq (.rmaWrite h) he'
    exact .rmaPartDone h'
  · exact .rmaStops (.updRma h)

theorem State.Inv.updCopy {id : Nat} {f : BulkCopy → BulkCopy} (h : s.Inv) : (s.updCopy id f).Inv :=
  h

theorem State.Inv.suspendCopy {id : Nat} (h : s.Inv) : (s.suspendCopy id).Inv := by
  unfold State.suspendCopy
  split
  · exact h
  · exact .ite h ((State.devUpdate_serves ..).inv h)

theorem State.Inv.updRing {k n : Nat} {f : Ring → Ring} (h : s.Inv) : (s.updRing k n f).Inv := by
  unfold State.updRing
  exact .updCore h

theorem State.Inv.landEntry {b : BulkCopy} {n x : Nat} (h : s.Inv) : (s.landEntry b n x).Inv := by
  unfold State.landEntry
  dsimp only
  split
  · exact .ite (.updRing h) h
  · exact h

theorem State.Inv.putEnd {b : BulkCopy} {sector dst : Nat} {l : List Byte} {a : End} (h : s.Inv) :
    (s.putEnd b sector dst l a).Inv := by
  unfold State.putEnd
  split
  · exact (State.putFor_serves ..).inv h
  · exact State.putScratch_inv _ _ h
  · exact .updCopy ((State.sendFor_serves ..).inv (.freshId h))

theorem State.Inv.copyStops {b : BulkCopy} {x : Failure} (h : s.Inv) : (s.copyStops b x).Inv := by
  unfold State.copyStops
  exact .endAdoptions (.poisonCheck ((State.copyFails_serves ..).inv h))

theorem State.Inv.remoteFault {r : ShipReq} {cause : Nat} {out : Option SectionEnd} (h : s.Inv) :
    (s.remoteFault r cause out).Inv := by
  unfold State.remoteFault
  dsimp only
  split
  · exact (State.postRecord_serves ..).inv h
  · exact (State.postRecord_serves ..).inv (.freshBits (.freshBelow (.freshBelow h)))

theorem State.Inv.storeMem {k c keep key : Nat} {l : List Byte} (h : s.Inv) : (s.storeMem k c keep key l).Inv := by
  unfold State.storeMem
  extract_lets __src
  have h__src : __src.Inv := (State.putMemAs_serves ..).inv h
  exact h__src

theorem State.Inv.threadStore {t : Thread} {key : Nat} {l : List Byte} {ch : Nat} (h : s.Inv) :
    (s.threadStore t key l ch).Inv := by
  unfold State.threadStore
  split
  · exact .storeMem h
  · exact (State.putMemAs_serves ..).inv h

theorem OkInv.dataStore {t : Thread} {va : Dword} {l : List Byte} {kicks : Bool} {ch : Nat} (h : s.Inv) :
    OkInv id (s.dataStore t va l kicks ch) := by
  unfold State.dataStore
  split
  · trivial
  · exact .threadStore h
  · exact .kick h
  · trivial

theorem OkInv.localStore {t : Thread} {off : Nat} {l : List Byte} {ch : Nat} (h : s.Inv) :
    OkInv id (s.localStore t off l ch) := by
  unfold State.localStore
  split
  · exact .threadStore h
  · exact .dataStore h

theorem OkInv.pushReturn {t : Thread} {ret : Dword} (h : s.Inv) : OkInv id (s.pushReturn t ret) := by
  unfold State.pushReturn
  split
  · exact .updThread h
  · split
    · trivial
    · split
      · trivial
      · split
        · trivial
        · rename_i he'
          have h' := OkInv.of_eq (.localStore h) he'
          exact .updThread h'

theorem State.Inv.noteStalls {d c : Nat} (h : s.Inv) : (s.noteStalls d c).Inv := by
  unfold State.noteStalls
  exact .ite (.updThreads h) h

theorem State.Inv.icFill {core key : Nat} (h : s.Inv) : (s.icFill core key).Inv := by
  unfold State.icFill
  exact .ite (.of_eq (.icMiss h) rfl rfl rfl) h

theorem Out.Inv.semtas {port : Nat} (h : s.Inv) : Out.Inv (execSemtas port s) := by
  unfold execSemtas
  split
  · exact h
  · split
    · exact .of_eq (.fwLeaseCheck h) rfl rfl rfl
    · exact h

theorem Out.Inv.semrel {port : Nat} {val : Dword} (h : s.Inv) : Out.Inv (execSemrel port val s) := by
  unfold execSemrel
  split
  · exact .fwLeaseCheck h
  · exact h

theorem State.Inv.stop {a : Actor} {tid : Nat} {iword : Dword} {why : Stop} (h : s.Inv) : (s.stop a tid iword why).Inv := by
  unfold State.stop
  split
  · exact .ite (.trapWaits h) (.raise (.tallyTrap h))
  · split
    · exact h
    · split
      · exact .trapWaits h
      · extract_lets r tids s₁
        have hr : r.2.Inv := by
          dsimp only [r]
          exact (State.openFault_serves ..).inv h
        have h₁ : s₁.Inv := .parkCheck (.parkRest (.updThread hr))
        split
        · exact (State.tallyCore_serves ..).inv h₁
        · exact h₁
  · exact h

theorem Move.Inv.queueMove {q : Nat} (h : s.Inv) : Move.Inv (s.queueMove q) := by
  unfold State.queueMove
  dsimp only
  split <;> split <;> exact h

theorem Move.Inv.agentMove {a : Actor} (h : s.Inv) : Move.Inv (s.agentMove a) := by
  unfold State.agentMove
  extract_lets s₁
  have h₁ : s₁.Inv := h
  split
  · exact h₁
  · split
    · exact .queueMove h₁
    · split
      · exact h₁
      · split
        · exact h₁
        · split
          · exact .stop h₁
          · extract_lets s₂
            have h₂ : s₂.Inv := .updThreads ((State.fetchFill_looked ..).inv h₁)
            split
            · exact h₂
            · exact .stop h₂

theorem Move.Inv.beamMove {d c : Nat} {mem : Bool} (h : s.Inv) : Move.Inv (s.beamMove d c mem) := by
  unfold State.beamMove
  extract_lets s₁
  have h₁ : s₁.Inv := .noteStalls h
  split
  · exact h₁
  · exact .agentMove ((State.tallyCore_serves ..).inv h₁)

end Sys2Proof.Machine
end

section
/-! Registers, received messages, bulk copies and boot keep the canonical form (R110 to R114, R402, R413, R441). -/

namespace Sys2Proof.Machine

variable {s : State}

theorem State.bar0Dword_snd (s : State) (func off : Nat) : (s.bar0Dword func off).2 = s := by
  unfold State.bar0Dword
  extract_lets pf val
  have hval : ∀ n, (val n).2 = s := fun _ => rfl
  simp only [apply_ite Prod.snd, hval, ite_self]

theorem State.barDword_snd (s : State) (func bar off : Nat) : (s.barDword func bar off).2 = s := by
  unfold State.barDword
  extract_lets none'
  have hnone : none'.2 = s := rfl
  split
  · rfl
  · split
    · simp only [apply_ite Prod.snd, hnone, ite_self]
    · split
      · rfl
      · split <;> simp only [apply_ite Prod.snd, State.bar0Dword_snd, hnone, ite_self]

theorem State.Inv.barBytes {func bar off n : Nat} (h : s.Inv) : (s.barBytes func bar off n).2.Inv := by
  induction n generalizing s off with
  | zero => exact h
  | succ n ih =>
    refine ih ?_
    rw [State.barDword_snd]
    exact h

theorem Out.Inv.registerRead {func bar off len : Nat} (h : s.Inv) : Out.Inv (s.registerRead func bar off len) := by
  have hgo : Out.Inv (State.registerRead.go s func bar off len) := State.Inv.of_eq (.barBytes h) rfl rfl rfl
  unfold State.registerRead
  split
  · split
    · exact .semtas h
    · exact hgo
  · exact hgo

theorem State.Inv.holderWrite {port : Nat} {f : State → State} (hf : ∀ s, s.Inv → (f s).Inv) (h : s.Inv) :
    (s.holderWrite port f).Inv := .ite h (.ite (hf s h) (.violate h))

theorem State.Inv.putRanges {c : Nat} {l : List (Nat × Nat)} {x : List Byte} (h : s.Inv) : (s.putRanges c l x).Inv := by
  induction l generalizing s x with
  | nil => exact h
  | cons p l ih => exact ih ((State.putFor_serves ..).inv h)

theorem State.Inv.fillRing {k task n fuel : Nat} (h : s.Inv) : (s.fillRing k task n fuel).Inv := by
  induction fuel generalizing s with
  | zero => exact h
  | succ fuel ih =>
    unfold State.fillRing
    exact .ite (ih (.updRing h)) h

theorem Move.Inv.ofOut {o : Out} (ho : Out.Inv o) (h : s.Inv) : Move.Inv (Move.ofOut s o) := by
  cases o with
  | next => exact ho
  | _ => exact h

theorem Out.Inv.reset {port : Nat} {val : Dword} (h : s.Inv) : Out.Inv (execReset port val s) :=
  .holderWrite (fun _ h' => .ite (.warmReset h') h') h

theorem Out.Inv.powerlim {port : Nat} {val : Dword} (h : s.Inv) : Out.Inv (execPowerlim port val s) :=
  .holderWrite (fun _ h' => .ite h' h') h

theorem Out.Inv.eventCounterControl {port off : Nat} {val : Word} (h : s.Inv) :
    Out.Inv (execEventCounterControl port off val s) :=
  .holderWrite (fun _ h' => .setControl h') h

theorem Out.Inv.writeGlobal {port off : Nat} {v : Dword} (h : s.Inv) : Out.Inv (s.writeGlobal port off v) := by
  unfold State.writeGlobal
  split
  · exact .semrel h
  · split
    · exact .reset h
    · split
      · exact .powerlim h
      · split
        · exact .holderWrite (fun _ h' => h') h
        · split
          · exact .eventCounterControl h
          · exact h

theorem State.Inv.applyPut {node seq ctx exp off : Nat} {l : List Byte} (h : s.Inv) :
    (s.applyPut node seq ctx exp off l).Inv := by
  unfold State.applyPut
  split
  · exact .refuseMsg h
  · extract_lets s₁
    have h₁ : s₁.Inv := (State.exportLook_looked ..).inv h
    split
    · exact .refuseMsg h₁
    · exact (State.reply_serves ..).inv (.received (.putRanges h₁))

theorem State.Inv.sectorDone {b : BulkCopy} {x : Nat} (h : s.Inv) : (s.sectorDone b x).Inv := by
  unfold State.sectorDone
  extract_lets s₁ s₂ s₃
  have h₁ : s₁.Inv := .count (.updCopy h)
  have h₂ : s₂.Inv := .tallyDie h₁
  have h₃ : s₃.Inv := .suspendCopy h₂
  split
  · exact .fillRing (.landEntry h₃)
  · exact h₃

theorem State.Inv.netDone {b : BulkCopy} {r : NetRun} (h : s.Inv) : (s.netDone b r).Inv := by
  unfold State.netDone
  extract_lets s₁
  have h₁ : s₁.Inv := .updCopy h
  split
  · exact .ite h₁ (.sectorDone h₁)
  · exact h₁

theorem State.Inv.netData {b : BulkCopy} {r : NetRun} {l : List Byte} (h : s.Inv) : (s.netData b r l).Inv := by
  unfold State.netData
  split
  · exact .netDone (.putEnd h)
  · exact .copyStops h
  · exact .suspendCopy (.updCopy ((State.openFault_serves ..).inv h))
  · exact h

theorem State.Inv.applyData {node op : Nat} {l : List Byte} (h : s.Inv) : (s.applyData node op l).Inv := by
  unfold State.applyData
  split
  · exact .rmaData (.received h)
  · split
    · exact .netData (.received h)
    · exact h

theorem State.Inv.shipIssued {tid : Nat} {kind : ShipKind} (h : s.Inv) : (s.shipIssued tid kind).Inv := by
  unfold State.shipIssued
  exact .ite (.ite (.endAdoptions (.updThread h)) (.condDone h)) h

theorem State.Inv.shipOutcome {r : ShipReq} {ok : Bool} {cause : Nat} {out : Option SectionEnd} {results : List Word}
    (h : s.Inv) : (s.shipOutcome r ok cause out results).Inv := by
  unfold State.shipOutcome
  extract_lets s₁ lc
  have h₁ : s₁.Inv := .ite h (.remoteFault h)
  split
  · exact .ite (.deliverShipW h₁) (.deliverShipW h₁)
  · exact .shipIssued (.fulfilToken h₁)
  · exact .shipIssued h₁
  · exact h₁

theorem State.Inv.shipAnswered {node op : Nat} (h : s.Inv) : (s.shipAnswered node op).Inv :=
  h

theorem State.Inv.applyResult {node op : Nat} {ok : Bool} {cause : Nat} {out : Option SectionEnd} {results : List Word}
    (h : s.Inv) : (s.applyResult node op ok cause out results).Inv := by
  unfold State.applyResult
  split
  · exact h
  · exact .shipOutcome (.received (.shipAnswered h))

theorem State.Inv.applyWithdraw {node seq op : Nat} (h : s.Inv) : (s.applyWithdraw node seq op).Inv := by
  unfold State.applyWithdraw
  exact .ite ((State.reply_serves ..).inv h) (.refuseMsg h)

theorem State.Inv.applyMsg {node seq : Nat} {m : NetMsg} (h : s.Inv) : (s.applyMsg node seq m).Inv := by
  unfold State.applyMsg
  split
  · exact .applyPut h
  · exact .applyGet h
  · exact .applyFlag h
  · exact .applyShip h
  · exact .ite ((State.reply_serves ..).inv (.unblockQueue h)) (.applySignal h)
  · exact .applyChain h
  · exact (State.reply_serves ..).inv (.unblockQueue h)
  · exact (State.reply_serves ..).inv (.applyData h)
  · exact (State.reply_serves ..).inv (.applyResult h)
  · exact .applyWithdraw h
  · exact h
  · exact h

theorem State.Inv.releaseHeld {node : Nat} (h : s.Inv) : (s.releaseHeld node).Inv := by
  unfold State.releaseHeld
  exact .foldl (fun _ _ h' => .applyMsg h') h

theorem State.Inv.receive {node seq : Nat} {m : NetMsg} (h : s.Inv) : (s.receive node seq m).Inv := by
  unfold State.receive
  exact .ite h (.ite (.receiveAgain ((State.tallyIo_serves ..).inv h)) (.releaseHeld (.ite h (.applyMsg h))))

theorem State.Inv.answer {good : Nat} {l : List Byte} (h : s.Inv) : (s.answer good l).Inv := by
  unfold State.answer
  dsimp only
  split
  · exact h
  · split <;> exact h

theorem State.Inv.unknownCommand (h : s.Inv) : s.unknownCommand.Inv := by
  unfold State.unknownCommand
  exact .answer h

theorem Out.Inv.spdmAnswer {code : Nat} {l : List Byte} (h : s.Inv) : Out.Inv (s.spdmAnswer code l) := by
  unfold State.spdmAnswer
  split <;> exact h

theorem Out.Inv.spdmUnsupported (h : s.Inv) : Out.Inv s.spdmUnsupported :=
  .spdmAnswer h

theorem State.Inv.testSig {func idx : Nat} (h : s.Inv) : (s.testSig func idx).Inv := by
  unfold State.testSig
  exact .ite (.interrupt (.updFunc h)) h

theorem State.Inv.fireSignals (h : s.Inv) : s.fireSignals.Inv := by
  unfold State.fireSignals
  exact .fireRemote (.foldl (fun _ _ h' => .testSig h') h)

theorem State.Inv.haltNow {a : Actor} {tids : List Nat} {n : Nat} (h : s.Inv) : (s.haltNow a tids n).Inv := by
  unfold State.haltNow
  split
  · exact .updGroup (.haltFrames h)
  · exact .updThread (.haltFrames h)
  · exact h

theorem State.Inv.wakeThread {tid : Nat} (h : s.Inv) : (s.wakeThread tid).Inv := by
  unfold State.wakeThread
  split
  · exact h
  · split
    · exact .ite (.condDone h) h
    · exact h

theorem Out.Inv.threadWake {a : Actor} (h : s.Inv) : Out.Inv (execThreadWake a s) :=
  .foldl (fun _ _ h' => .wakeThread h') h

theorem Out.Inv.waitTimeout {a : Actor} (h : s.Inv) : Out.Inv (execWaitTimeout a s) :=
  .foldl (fun _ _ h' => .condDone h') (.updThreads h)

theorem State.Inv.landCopy {c : LdaCopy} {l : List Byte} (h : s.Inv) : (s.landCopy c l).Inv := by
  unfold State.landCopy
  exact .endAdoptions ((State.sweepAllocs_serves ..).inv (.of_eq (.ite (State.putScratch_inv _ _ h) (.foldl (fun _ _ h' =>
    .putPart h') h)) rfl rfl rfl))

theorem State.Inv.dieRead {die : Nat} {c : Option Nat} {sector keep : Nat} (h : s.Inv) : (s.dieRead die c sector keep).Inv :=
  h

theorem State.Inv.copyFill {k : Option Nat} {c : LdaCopy} (h : s.Inv) : (s.copyFill k c).Inv := by
  unfold State.copyFill
  split
  · split
    · exact .ite (.l1Drop (.foldl (fun _ _ h' => .dieRead h') h)) (.foldl (fun _ _ h' => .dieRead h') h)
    · exact .l2Read h
  · exact h

theorem Out.Inv.ringEntryTake {id : Nat} (h : s.Inv) : Out.Inv (execRingEntryTake id s) := by
  unfold execRingEntryTake
  split
  · exact h
  · split
    · dsimp only
      split
      · exact .updRing (.updCopy h)
      · exact h
    · exact h

theorem State.Inv.freeOrder {dst : α → Nat} {l : List α} (h : s.Inv) : (s.freeOrder dst l).2.Inv := by
  unfold State.freeOrder
  split
  · extract_lets r
    have hr : r.2.Inv := by
      dsimp only [r]
      exact .freshBelow h
    exact hr
  · exact h

theorem State.Inv.endLook {b : BulkCopy} {va : Nat} {e26 : End} (h : s.Inv) : (s.endLook b va e26).Inv := by
  unfold State.endLook
  split
  · exact h
  · exact (State.lookUp_serves ..).inv h

theorem State.Inv.endFill {b : BulkCopy} {va n : Nat} {e28 : End} (h : s.Inv) : (s.endFill b va n e28).Inv := by
  unfold State.endFill
  split
  · exact .ite (.l1Drop (.l2Read ((State.lookUp_serves ..).inv h))) (.l2Read ((State.lookUp_serves ..).inv h))
  · exact h

theorem State.Inv.copyRun {b : BulkCopy} {sector : Nat} {r : Run} {src dst : End} (h : s.Inv) :
    (s.copyRun b sector r src dst).Inv := by
  unfold State.copyRun
  split
  · exact .updCopy ((State.send_serves ..).inv (.freshId h))
  · exact .putEnd (.endLook (.endFill h))

theorem State.Inv.copySector {b : BulkCopy} {x : Nat} (h : s.Inv) : (s.copySector b x).Inv := by
  unfold State.copySector
  dsimp only
  split
  · exact .copyStops (.freeOrder h)
  · split
    · exact .suspendCopy (.foldl (fun _ _ h' => .updCopy ((State.openFault_serves ..).inv h')) (.freeOrder h))
    · split
      · exact .ite (.foldl (fun _ _ h' => .copyRun h') (.freeOrder h)) (.sectorDone (.foldl (fun _ _ h' => .copyRun h')
          (.freeOrder h)))
      · exact .foldl (fun _ _ h' => .copyRun h') (.freeOrder h)

theorem State.Inv.nextSeq (h : s.Inv) : (s.nextSeq).2.Inv :=
  h

theorem State.Inv.updEngine {k e : Nat} {f : List MCmd → List MCmd} (h : s.Inv) : (s.updEngine k e f).Inv := by
  unfold State.updEngine
  exact .updCore h

theorem State.Inv.joinChain {b : BulkCopy} {e : Nat} {m : MCmd} (h : s.Inv) : (s.joinChain b e m).Inv := by
  unfold State.joinChain
  dsimp only
  split
  · exact (State.commandFails_serves ..).inv h
  · exact .updEngine (.nextSeq h)

theorem State.Inv.copyDone {b : BulkCopy} (h : s.Inv) : (s.copyDone b).Inv := by
  unfold State.copyDone
  extract_lets s₁ c s₂ s₃
  have h₁ : s₁.Inv := h
  have h₂ : s₂.Inv := (State.fulfil_serves ..).inv h₁
  have h₃ : s₃.Inv := by
    dsimp only [s₃]
    split
    · exact .joinChain h₂
    · exact h₂
  exact .endAdoptions ((State.sweepAllocs_serves ..).inv ((State.workEnded_serves ..).inv h₃))

theorem State.Inv.zeroArrays (h : s.Inv) : s.zeroArrays.Inv := by
  unfold State.zeroArrays
  refine State.Inv.ite ?_ ?_ <;> exact ⟨SMap.filter_wf _ h.1, rfl, rfl⟩

theorem State.Inv.bootStage (h : s.Inv) : s.bootStage.Inv := by
  have hzero : s.zeroArrays.Inv := .zeroArrays h
  unfold State.bootStage
  dsimp only
  split
  · exact h
  · repeat' split
    all_goals exact h
  · split <;> exact h
  · exact hzero
  · exact h

theorem State.Inv.freshBytes {n : Nat} (h : s.Inv) : (s.freshBytes n).2.Inv := by
  induction n generalizing s with
  | zero => exact h
  | succ n ih => exact ih (s := s.freshBits.2) h

theorem State.Inv.bootTurn (h : s.Inv) : s.bootTurn.Inv := by
  unfold State.bootTurn
  exact .ite (.bootStage h) h

theorem Move.Inv.turn {e0 : Turn} (h : s.Inv) : Move.Inv (s.turn e0) := by
  unfold State.turn
  split
  · exact .beamMove h
  · split
    · exact .agentMove h
    · exact h
  · exact .agentMove h
  · split <;> exact h
  · exact .elapse h
  · exact .tlbFill h
  · exact .tlbDrop h
  · exact .icFill h
  · exact .icDrop h
  · exact .prefetchNext h
  · exact .ite (.l2Read h) h
  · exact .l2Evict h
  · exact .lcL2Evict h
  · exact .l1Evict h
  · exact .copyEvict h
  · exact .landPart h
  · exact .ofOut (.registerRead h) h
  · split
    · exact .ofOut (.writeGlobal h) h
    · exact h
  · exact .receive h
  · exact .unknownCommand h
  · exact .ofOut (.spdmUnsupported h) h
  · exact h
  · exact .fireSignals h
  · exact .fwFinish h
  · exact .bootTurn h
  · split
    · split
      · exact .haltNow h
      · exact h
    · exact h

theorem State.Inv.failCopy {c : LdaCopy} {cause : BitVec 8} {malformed : Bool} (h : s.Inv) :
    (s.failCopy c cause malformed).Inv := by
  unfold State.failCopy
  exact .endAdoptions ((State.sweepAllocs_serves ..).inv (.of_eq (State.putScratch_inv _ _ (.freshBytes h)) rfl rfl rfl))

theorem Out.Inv.ldaLand {id : Nat} (h : s.Inv) : Out.Inv (execLdaLand id s) := by
  unfold execLdaLand
  split
  · exact h
  · extract_lets s₁
    have h₁ : s₁.Inv := (State.lookLate_cached ..).inv h
    split
    · exact .landCopy ((State.readLate_cached ..).inv h₁)
    · exact .of_eq ((State.openFault_serves ..).inv ((State.lookLate_cached ..).inv h)) rfl rfl rfl
    · exact .failCopy h₁
    · exact h₁

theorem Out.Inv.bulkCopySector {id sector : Nat} (h : s.Inv) : Out.Inv (execBulkCopySector id sector s) := by
  unfold execBulkCopySector
  split
  · exact h
  · split
    · exact .copySector h
    · split
      · exact .copyDone h
      · exact h

end Sys2Proof.Machine
end

section
/-! The engines, the refinement controller, the scheduler and the latency cores keep the canonical form (R158, R182, R194, R321). -/

namespace Sys2Proof.Machine

variable {s : State}

theorem State.Inv.stallCycles (h : s.Inv) : (s.stallCycles).2.Inv := by
  unfold State.stallCycles
  extract_lets r
  have hr : r.2.Inv := by
    dsimp only [r]
    exact .freshBits h
  exact hr

theorem State.Inv.occupancy {m : MCmd} (h : s.Inv) : (s.occupancy m).2.Inv := by
  unfold State.occupancy
  split
  · exact h
  · exact h
  · exact h
  · extract_lets r
    have hr : r.2.Inv := by
      dsimp only [r]
      exact .stallCycles h
    exact hr

theorem State.Inv.countMatrix {k e : Nat} {m : MCmd} (h : s.Inv) : (s.countMatrix k e m).Inv := by
  unfold State.countMatrix
  exact (State.tallyCore_serves ..).inv (.count (.occupancy h))

theorem State.Inv.dequeue {k e : Nat} (h : s.Inv) : (s.dequeue k e).Inv := by
  unfold State.dequeue
  extract_lets s₁
  have h₁ : s₁.Inv := by
    dsimp only [s₁]
    split
    · exact .countMatrix h
    · exact h
  exact .endAdoptions ((State.sweepAllocs_serves ..).inv (.updEngine h₁))

theorem State.Inv.drainFails {die core eng : Nat} {m : MCmd} {o : DrainOp} {done : List Nat} {x : Failure} (h : s.Inv) :
    (s.drainFails die core eng m o done x).Inv := by
  unfold State.drainFails
  exact .poisonCheck ((State.commandFails_serves ..).inv (.dequeue (.scrambleDrain h)))

theorem State.Inv.updDescent {k : Nat} {f : Descent → Descent} (h : s.Inv) : (s.updDescent k f).Inv := by
  unfold State.updDescent
  exact .updCore h

theorem State.Inv.updDHead {k : Nat} {f : DCmd → DCmd} (h : s.Inv) : (s.updDHead k f).Inv := by
  unfold State.updDHead
  exact .updDescent h

theorem State.Inv.descentFails {die core : Nat} {m : DCmd} {x : Failure} {n : Nat} (h : s.Inv) :
    (s.descentFails die core m x n).Inv := by
  unfold State.descentFails
  exact .endAdoptions (.poisonCheck ((State.sweepAllocs_serves ..).inv ((State.commandFails_serves ..).inv (.updDescent h))))

theorem State.Inv.countDescent {k : Nat} {m : DCmd} {n levels : Nat} (h : s.Inv) : (s.countDescent k m n levels).Inv := by
  unfold State.countDescent
  exact (State.tallyCore_serves ..).inv (.count (.stallCycles h))

theorem State.Inv.descentDone {die core : Nat} {m : DCmd} {out : Nat} {rows : List Row} (h : s.Inv) :
    (s.descentDone die core m out rows).Inv := by
  unfold State.descentDone
  exact .endAdoptions ((State.sweepAllocs_serves ..).inv ((State.fulfil_serves ..).inv (.updDescent (State.putScratch_inv _ _
    (State.putScratch_inv _ _ (State.putScratch_inv _ _ (State.putScratch_inv _ _ h)))))))

theorem Out.Inv.dscLevel {die core : Nat} (h : s.Inv) : Out.Inv (execDscLevel die core s) := by
  unfold execDscLevel
  dsimp only
  split
  · exact h
  · split
    · exact h
    · split
      · exact h
      · split
        · exact .updDHead (.updDescent ((State.openFault_serves ..).inv ((State.fillNodes_looked ..).inv h)))
        · exact .descentFails (.updDescent ((State.fillNodes_looked ..).inv h))
        · exact (State.fillNodes_looked ..).inv h
        · split
          · exact .descentDone (.countDescent (.updDescent ((State.fillNodes_looked ..).inv h)))
          · exact .updDHead (.countDescent (.updDescent ((State.fillNodes_looked ..).inv h)))

theorem State.Inv.gradFails {die core : Nat} {m : DCmd} {elems : List (Nat × Nat × Nat)} {done : List Nat} {x : Failure}
    (h : s.Inv) : (s.gradFails die core m elems done x).Inv := by
  unfold State.gradFails
  exact .descentFails (.scrambleGrad h)

theorem State.Inv.updDie {d : Nat} {f : Die → Die} (h : s.Inv) : (s.updDie d f).Inv :=
  h

theorem State.Inv.updRfbs {die : Nat} {f : List Rfb → List Rfb} (h : s.Inv) : (s.updRfbs die f).Inv := by
  unfold State.updRfbs
  exact .updDie h

theorem State.Inv.rfbLost {die : Nat} {b : Rfb} (h : s.Inv) : (s.rfbLost die b).Inv := by
  unfold State.rfbLost
  split
  · exact .poisonCheck h
  · exact h

theorem State.Inv.endRfb {die : Nat} {b : Rfb} {st : Nat} {w0 w1 : Word} (h : s.Inv) : (s.endRfb die b st w0 w1).Inv := by
  unfold State.endRfb
  exact .rfbLost ((State.workEnded_serves ..).inv ((State.fulfil_serves ..).inv (.updRfbs h)))

theorem State.Inv.abortRfb {die : Nat} {b : Rfb} (h : s.Inv) : (s.abortRfb die b).Inv := by
  unfold State.abortRfb
  exact .endRfb h

theorem State.Inv.putRfb {die : Nat} {b : Rfb} (h : s.Inv) : (s.putRfb die b).Inv := by
  unfold State.putRfb
  exact .updRfbs h

theorem State.Inv.suspendRfb {die : Nat} {b : Rfb} {va : Dword} {acc : Acc} (h : s.Inv) : (s.suspendRfb die b va acc).Inv := by
  unfold State.suspendRfb
  exact .putRfb ((State.openFault_serves ..).inv h)

theorem State.Inv.failRfb {die : Nat} {b : Rfb} {x : Failure} {w1 : Nat} (h : s.Inv) : (s.failRfb die b x w1).Inv := by
  unfold State.failRfb
  exact .rfbLost (.poisonCheck ((State.workEnded_serves ..).inv ((State.commandFails_serves ..).inv (.updRfbs h))))

theorem State.Inv.readRfb {die : Nat} {b : Rfb} (h : s.Inv) : (s.readRfb die b).Inv := by
  unfold State.readRfb
  extract_lets s₁
  have h₁ : s₁.Inv := (State.readFill_serves ..).inv h
  split
  · exact .suspendRfb h₁
  · exact .failRfb h₁
  · exact h₁
  · exact .ite (.failRfb h₁) (.ite (.failRfb h₁) (.putRfb h₁))

theorem State.Inv.stepLost {die : Nat} {b : Rfb} {t : Trap} (h : s.Inv) : (s.stepLost die b t).Inv := by
  unfold State.stepLost
  exact .putRfb (.ite ((State.postRecord_serves ..).inv h) h)

theorem SomeInv.poolRecord {r : QRec} (h : s.Inv) : SomeInv id (s.poolRecord r) := by
  unfold State.poolRecord
  split
  · trivial
  · split
    · exact .updCtx h
    · trivial

theorem SomeInv.queueRecord {k : Nat} {r : QRec} (h : s.Inv) : SomeInv Prod.fst (s.queueRecord k r) := by
  unfold State.queueRecord
  dsimp only
  split
  · exact .updCore h
  · split
    · exact .updCore h
    · trivial

theorem SomeInv.placeLaunch {r : QRec} {die : Option Nat} (h : s.Inv) : SomeInv Prod.fst (s.placeLaunch r die) := by
  unfold State.placeLaunch
  dsimp only
  split
  · exact .map (.poolRecord h) (fun _ h' => h')
  · split
    · rename_i he'
      have h' := SomeInv.of_eq (.queueRecord h) he'
      exact h'
    · exact .map (.poolRecord h) (fun _ h' => h')

theorem Out.Inv.faultRecordWrite {c : Nat} (h : s.Inv) : Out.Inv (execFaultRecordWrite c s) :=
  .writeRecord h

theorem State.Inv.orphanToHost {c seq : Nat} (h : s.Inv) : (s.orphanToHost c seq).Inv := by
  unfold State.orphanToHost
  split
  · exact h
  · exact .interrupt h

theorem State.Inv.claimToHost {c seq : Nat} (h : s.Inv) : (s.claimToHost c seq).Inv := by
  unfold State.claimToHost
  split
  · exact .orphanToHost h
  · split
    · exact .orphanToHost h
    · exact .ite (.interrupt (.updCtx h)) (.updCtx h)

theorem Out.Inv.routingTimeout {c seq : Nat} (h : s.Inv) : Out.Inv (execRoutingTimeout c seq s) := by
  unfold execRoutingTimeout
  dsimp only
  split
  · exact .claimToHost h
  · split
    · exact .orphanToHost h
    · exact h

theorem SomeInv.startQueued {k : Nat} {r : QRec} (h : s.Inv) : SomeInv id (s.startQueued k r) := by
  unfold State.startQueued
  split
  · trivial
  · exact .map (.startFrom h) (fun _ h' => .setRecord h')

theorem State.Inv.passOver {k : Nat} {r : QRec} (h : s.Inv) : (s.passOver k r).Inv := by
  unfold State.passOver
  exact .setRecord h

theorem Out.Inv.heldAdmission {die core : Nat} (h : s.Inv) : Out.Inv (execHeldAdmission die core s) := by
  unfold execHeldAdmission
  dsimp only
  split
  · split
    · exact h
    · exact .setRecord h
  · exact h

theorem State.Inv.dropGang {k : Nat} {r : QRec} (h : s.Inv) : (s.dropGang k r).Inv := by
  unfold State.dropGang
  exact (State.workEnded_serves ..).inv ((State.rewriteOwned_serves ..).inv ((State.fulfil_serves ..).inv (.setRecord h)))

theorem Out.Inv.gangBoundExpiry {die core : Nat} (h : s.Inv) : Out.Inv (execGangBoundExpiry die core s) := by
  unfold execGangBoundExpiry
  dsimp only
  split
  · split
    · exact .dropGang h
    · exact h
  · exact h

theorem State.Inv.rewriteRecord {r : QRec} {w : Word} (h : s.Inv) : (s.rewriteRecord r w).Inv := by
  unfold State.rewriteRecord
  extract_lets at' s₁
  have h₁ : s₁.Inv := (State.rewriteOwned_serves ..).inv h
  split
  · exact .ite ((State.devUpdate_serves ..).inv h₁) h₁
  · exact h₁

theorem State.Inv.steal {thief victim : Nat} {r : QRec} (h : s.Inv) : (s.steal thief victim r).Inv := by
  unfold State.steal
  exact .ite (.updCore (.setRecord (.freshRecord h))) (.rewriteRecord (.updCore (.setRecord h)))

theorem Out.Inv.taskSteal {die core victim : Nat} (h : s.Inv) : Out.Inv (execTaskSteal die core victim s) := by
  unfold execTaskSteal
  dsimp only
  split
  · exact h
  · split
    · exact (State.tallyCore_serves ..).inv (.steal h)
    · exact h

theorem Out.Inv.spillRefill {die core : Nat} (h : s.Inv) : Out.Inv (execSpillRefill die core s) := by
  unfold execSpillRefill
  dsimp only
  split
  · split
    · exact .updCore h
    · exact h
  · exact h

theorem State.Inv.vacate {c k : Nat} (h : s.Inv) : (s.vacate c k).Inv := by
  unfold State.vacate
  extract_lets ts sets s₁ s₂ s₃
  have h₁ : s₁.Inv := .l1Drop (.addCounts (.foldl (fun _ _ h' => .saveTask h') h))
  have h₂ : s₂.Inv := .updCore h₁
  have h₃ : s₃.Inv := .updCtx h₂
  split
  · exact .ite (.updFunc h₃) h₃
  · exact h₃

theorem Out.Inv.preemptSave {die core : Nat} (h : s.Inv) : Out.Inv (execPreemptSave die core s) := by
  unfold execPreemptSave
  dsimp only
  split
  · split
    · exact h
    · split
      · exact .vacate h
      · exact (State.askBack_serves ..).inv h
  · exact h

theorem State.Inv.acceptShip {lc : Nat} {r : ShipReq} (h : s.Inv) : (s.acceptShip lc r).Inv := by
  unfold State.acceptShip
  extract_lets s₁
  have h₁ : s₁.Inv := .updLc h
  split
  · exact (State.reply_serves ..).inv h₁
  · exact .shipIssued h₁

theorem Out.Inv.shipGrant {lc : Nat} (h : s.Inv) : Out.Inv (execShipGrant lc s) := by
  unfold execShipGrant
  split
  · exact h
  · split
    · exact .acceptShip (.updLc h)
    · exact h

theorem State.Inv.noteFull {node seq : Nat} (h : s.Inv) : (s.noteFull node seq).Inv :=
  h

theorem State.Inv.shipRefused {tid lc : Nat} (h : s.Inv) : (s.shipRefused tid lc).Inv := by
  unfold State.shipRefused
  exact .endAdoptions (.updThread h)

theorem State.Inv.shipWaitEnds {t : Thread} {x : SectionInfo} {r : ShipReq} (h : s.Inv) : (s.shipWaitEnds t x r).Inv := by
  unfold State.shipWaitEnds
  exact .sectionFault (.ite ((State.fulfil_serves ..).inv h) h)

theorem State.Inv.refuseShip {lc : Nat} {r : ShipReq} (h : s.Inv) : (s.refuseShip lc r).Inv := by
  unfold State.refuseShip
  extract_lets s₁ wait
  have h₁ : s₁.Inv := .tallyDie h
  have hwait : wait.Inv := .updLc h₁
  split
  · exact (State.reply_serves ..).inv (.ite hwait (.noteFull h₁))
  · split
    · exact h₁
    · split
      · exact .shipRefused hwait
      · exact .shipWaitEnds h₁

/-- A fold whose accumulator holds a state, and keeps the canonical form at each element. -/
theorem foldl_inv {α β : Type} {p : β → State} {f : β → α → β} {l : List α} {b : β} (hf : ∀ b a, (p b).Inv → (p (f b a)).Inv)
    (h : (p b).Inv) : (p (l.foldl f b)).Inv := by
  induction l generalizing b with
  | nil => exact h
  | cons a l ih => exact ih (hf b a h)

theorem State.Inv.with_cells {m : SMap (BitVec 96)} (h : s.Inv) (hm : SMap.wf 0 m) : ({ s with cells := m } : State).Inv :=
  ⟨h.1, h.2.1, hm⟩

theorem State.Inv.drainElems {k eng ctx : Nat} {o : DrainOp} {keyOf : Nat → Nat} {l : List (Nat × Nat × Nat)}
    (h : s.Inv) : (s.drainElems k eng ctx o keyOf l).Inv := by
  refine .foldl (fun s e h => ?_) h
  extract_lets ck old v s₁
  have h₁ : s₁.Inv := .ite ((State.putFor_serves ..).inv h) (State.putScratch_inv _ _ h)
  clear_value s₁
  exact .ite (.with_cells h₁ (SMap.set_wf _ _ h₁.2.2)) h₁

theorem DrainRun.sector_inv {r : DrainRun} {die core eng x : Nat} {m : MCmd} {o : DrainOp} (h : r.s.Inv) :
    (r.sector die core eng m o x).s.Inv := by
  unfold DrainRun.sector
  split
  · exact h
  · extract_lets k r₁ l
    have h₁ : r₁.s.Inv := by
      dsimp only [r₁]
      split
      · exact (State.lookUp_serves ..).inv h
      · exact h
    have hl : l.2.Inv := .freeOrder h₁
    clear_value l r₁
    split
    · exact State.Inv.drainElems (s := l.2) hl
    · split
      · dsimp only
        exact .drainElems hl
      · exact (State.openFault_serves ..).inv h₁
      · exact h₁
      · exact h₁

theorem Out.Inv.drainRun {die core eng : Nat} (h : s.Inv) : Out.Inv (execDrainRun die core eng s) := by
  unfold execDrainRun
  extract_lets k
  split
  · exact h
  · next m _ _ =>
    split
    · next o _ =>
      split
      · exact h
      · extract_lets n sectors r
        have hr : r.s.Inv := foldl_inv (p := DrainRun.s) (fun _ _ => DrainRun.sector_inv) h
        split
        · exact State.Inv.drainFails hr
        · split
          · exact (State.fulfil_serves ..).inv (.dequeue hr)
          · exact State.Inv.ite (.updEngine hr) ((State.devUpdate_serves ..).inv (.updEngine hr))
    · exact h

theorem State.Inv.runMma {k eng : Nat} {m : MCmd} {op : MmaOp} (h : s.Inv) : (s.runMma k eng m op).Inv := by
  exact .with_cells h (SMap.foldl_wf (fun _ _ hm => SMap.set_wf _ _ hm) h.2.2)

theorem State.Inv.runCells {k eng : Nat} {m : MCmd} (h : s.Inv) : (s.runCells k eng m).Inv := by
  unfold State.runCells
  split
  · exact .with_cells h (SMap.filter_wf _ h.2.2)
  · exact .with_cells h (SMap.foldl_wf (fun _ _ hm => SMap.set_wf _ _ hm) h.2.2)
  · exact .foldl (fun _ _ h => .updThread h) h
  · exact .runMma h
  · exact h

theorem Out.Inv.dscGradRun {die core : Nat} (h : s.Inv) : Out.Inv (execDscGradRun die core s) := by
  unfold execDscGradRun
  extract_lets k
  split
  · exact h
  · next m _ _ =>
    split
    · exact h
    · next n input g tree _ =>
      split
      · exact h
      · extract_lets terms nodes elems sectors one r
        have hone : ∀ (r : DrainRun) x, r.s.Inv → (one r x).s.Inv := by
          intro r x h
          dsimp only [one]
          split
          · exact h
          · have hlook : (r.s.lookUp m.ctx (BitVec.ofNat 64 (256 * x))).Inv := (State.lookUp_serves ..).inv h
            split
            · exact (State.openFault_serves ..).inv hlook
            · exact hlook
            · exact hlook
            · split
              · exact hlook
              · exact .foldl (fun _ _ h => (State.putFor_serves ..).inv h) hlook
        have hr : r.s.Inv := foldl_inv (p := DrainRun.s) hone h
        split
        · exact State.Inv.gradFails hr
        · split
          · exact State.Inv.endAdoptions ((State.sweepAllocs_serves ..).inv ((State.fulfil_serves ..).inv (.countDescent
              (.updDescent hr))))
          · exact State.Inv.ite (.updDHead hr) ((State.devUpdate_serves ..).inv (.updDHead hr))

theorem State.Inv.writeStatus {die : Nat} {b : Rfb} {l : List Byte} {k : State → State}
    (hk : ∀ s, s.Inv → (k s).Inv) (h : s.Inv) : (s.writeStatus die b l k).Inv := by
  unfold State.writeStatus
  split
  · rename_i he
    exact hk _ (OkInv.of_eq (.store h) he)
  · exact .suspendRfb h
  · exact .failRfb h
  · exact h

theorem State.Inv.placeRec {die : Nat} {b : Rfb} {r : QRec} (h : s.Inv) : (s.placeRec die b r).Inv := by
  have hplace : SomeInv Prod.fst (if s.firstHeld die b then s.placeLaunch r (some die) else none) := by
    split
    · exact .placeLaunch h
    · trivial
  unfold State.placeRec
  split
  · rename_i he
    exact .putRfb (SomeInv.of_eq hplace he)
  · exact .ite h (.putRfb h)

theorem SomeInv.findSome? {α : Type} {f : α → Option State} {l : List α} (hf : ∀ a, SomeInv id (f a)) :
    SomeInv id (l.findSome? f) := by
  cases he : l.findSome? f with
  | none => trivial
  | some e =>
    obtain ⟨a, -, ha⟩ := List.exists_of_findSome?_eq_some he
    exact SomeInv.of_eq (hf a) ha

theorem SomeInv.placeSaved {i n : Nat} (h : s.Inv) : SomeInv id (s.placeSaved i n) := by
  unfold State.placeSaved
  extract_lets ids bottom
  split
  · trivial
  · split
    · trivial
    · exact .restore h

theorem SomeInv.placeEntry {k : Nat} {p : PoolEnt} (h : s.Inv) : SomeInv id (s.placeEntry k p) := by
  unfold State.placeEntry
  split
  · exact .placeSaved h
  · split
    · exact .startFrom h
    · trivial

theorem SomeInv.placePool {k : Nat} (h : s.Inv) : SomeInv id (s.placePool k) := by
  unfold State.placePool
  split
  · trivial
  · split
    · trivial
    · exact .findSome? fun _ => .placeEntry h

theorem State.Inv.admitFrom {k : Nat} {l : List QRec} (h : s.Inv) : (s.admitFrom k l).Inv := by
  induction l generalizing s with
  | nil => exact h
  | cons r l ih =>
    unfold State.admitFrom
    split
    · rename_i he
      exact SomeInv.of_eq (.startQueued h) he
    · exact ih (.passOver h)

theorem Out.Inv.matrixCommandRun {die core eng : Nat} (h : s.Inv) : Out.Inv (execMatrixCommandRun die core eng s) := by
  unfold Machine.execMatrixCommandRun
  dsimp only
  split
  · exact h
  · split
    · exact h
    · split
      · exact h
      · exact (State.fulfil_serves ..).inv (.dequeue (.runCells h))

theorem State.Inv.placeStep {die : Nat} {b : Rfb} (h : s.Inv) : (s.placeStep die b).Inv := by
  unfold State.placeStep
  dsimp only
  split
  · exact .suspendRfb ((State.readFill_serves ..).inv h)
  · exact .stepLost ((State.readFill_serves ..).inv h)
  · exact (State.readFill_serves ..).inv h
  · split
    · exact .ite (.putRfb ((State.readFill_serves ..).inv h)) (.ite (.putRfb (.of_eq ((State.readFill_serves
        ..).inv h) rfl rfl rfl)) (.placeRec (.freshRecord ((State.readFill_serves ..).inv h))))
    · exact .putRfb ((State.readFill_serves ..).inv h)

theorem State.Inv.actRfb {die : Nat} {b : Rfb} (h : s.Inv) : (s.actRfb die b).Inv := by
  unfold State.actRfb
  split
  · exact .abortRfb h
  · split
    · exact h
    · split
      · exact h
      · exact .writeStatus (fun _ h' => .putRfb h') h
      · exact .readRfb h
      · exact .placeStep h
      · split
        · exact .placeRec h
        · exact h
      · split
        · exact h
        · split
          · exact .abortRfb h
          · split <;> exact .putRfb h
      · refine .writeStatus ?_ h
        intro _ h'
        split
        · exact .endRfb h'
        · exact .putRfb h'

theorem Out.Inv.taskAdmit {die core : Nat} (h : s.Inv) : Out.Inv (execTaskAdmit die core s) := by
  unfold Machine.execTaskAdmit
  dsimp only
  split
  · exact h
  · split
    · rename_i he'
      have h' := SomeInv.of_eq (.placePool h) he'
      exact h'
    · split
      · exact .getD (.startQueued h) h
      · exact .admitFrom h

theorem Out.Inv.shipArrival {lc : Nat} (h : s.Inv) : Out.Inv (execShipArrival lc s) := by
  unfold Machine.execShipArrival
  split
  · exact h
  · extract_lets s₁
    have h₁ : s₁.Inv := .updLc h
    split
    · exact .acceptShip h₁
    · exact .refuseShip h₁

theorem Out.Inv.sectionStart {lc : Nat} (h : s.Inv) : Out.Inv (execSectionStart lc s) := by
  unfold Machine.execSectionStart
  split
  · dsimp only
    split
    · exact .tallyDie (.updLc h)
    · split
      · exact .sectionFault (.tallyDie (.updLc h))
      · exact .tallyDie (.updLc h)
  · exact h

theorem Out.Inv.sectionTimeLimit {lc : Nat} (h : s.Inv) : Out.Inv (execSectionTimeLimit lc s) := by
  unfold Machine.execSectionTimeLimit
  split
  · split
    · dsimp only
      split
      · exact .sectionFault h
      · exact h
    · exact h
  · exact h

end Sys2Proof.Machine
end

section
/-! Queue processors and the course of an instruction keep the canonical form where its effect does (R235, R405). -/

namespace Sys2Proof.Machine

variable {s : State}

theorem State.Inv.queueRecord4 {q fcode : Nat} {cause : Option (Nat × Acc)} (h : s.Inv) : (s.queueRecord4 q fcode cause).Inv := by
  unfold State.queueRecord4
  extract_lets x d u c
  have hd : d.2.Inv := by
    dsimp only [d]
    exact .freshBelow h
  have hu : u.2.Inv := by
    dsimp only [u]
    exact .freshBelow hd
  have hc : c.2.Inv := by
    dsimp only [c]
    split
    · exact hu
    · exact .freshBelow hu
  exact (State.postRecord_serves ..).inv hc

theorem State.Inv.faultQueue {q fcode : Nat} {cause : Option (Nat × Acc)} (h : s.Inv) : (s.faultQueue q fcode cause).Inv := by
  unfold State.faultQueue
  exact .updQueue (.queueRecord4 h)

theorem State.Inv.rejectPacket {q fcode : Nat} {cause : Option (Nat × Acc)} (h : s.Inv) : (s.rejectPacket q fcode cause).Inv := by
  unfold State.rejectPacket
  exact (State.settleQueue_serves ..).inv (.updQueue (.queueRecord4 h))

theorem State.Inv.startPacket {q : Nat} {l : List Dword} (h : s.Inv) : (s.startPacket q l).Inv := by
  unfold State.startPacket
  extract_lets s₁ x
  have h₁ : s₁.Inv := .updQueue h
  split
  · exact h₁
  · split
    · exact .rejectPacket h₁
    · exact .ite (.rejectPacket h₁) (.updQueue h₁)

theorem State.Inv.blockQueue {q : Nat} {va : Dword} {acc : Acc} (h : s.Inv) : (s.blockQueue q va acc).Inv := by
  unfold State.blockQueue
  exact .updQueue ((State.openFault_serves ..).inv (.freshBelow (.freshBelow h)))

theorem State.Inv.queuePoison {ctx : Nat} {va : Dword} {acc : Acc} (h : s.Inv) : (s.queuePoison ctx va acc).Inv := by
  unfold State.queuePoison
  exact .poisonEnds (.freshBelow (.freshBelow h))

theorem State.Inv.readPacket {q : Nat} (h : s.Inv) : (s.readPacket q).Inv := by
  unfold State.readPacket
  extract_lets x s₁
  have h₁ : s₁.Inv := .updCtx h
  split
  · exact .faultQueue h₁
  · split
    · exact .startPacket ((State.tallyIo_serves ..).inv h₁)
    · exact .blockQueue h₁
    · exact .ite (.queuePoison h₁) (.faultQueue h₁)
    · exact h₁

theorem Out.Inv.packetRead {q : Nat} (h : s.Inv) : Out.Inv (execPacketRead q s) := by
  unfold Machine.execPacketRead
  dsimp only
  split
  · exact .readPacket h
  · exact h

theorem State.Inv.queueStop {q fcode : Nat} {why : Stop} (h : s.Inv) : (s.queueStop q fcode why).Inv := by
  unfold State.queueStop
  split
  · exact .blockQueue h
  · exact .ite (.queuePoison h) (.rejectPacket h)
  · exact h

theorem Out.Inv.waitsigSatisfied {q : Nat} (h : s.Inv) : Out.Inv (execWaitsigSatisfied q s) := by
  unfold Machine.execWaitsigSatisfied
  dsimp only
  split
  · split
    · split
      · exact .queuePoison h
      · split
        · exact .updQueue h
        · exact h
    · exact .queueStop h
  · exact h

theorem Out.Inv.chainSatisfied {q : Nat} (h : s.Inv) : Out.Inv (execChainSatisfied q s) := by
  unfold Machine.execChainSatisfied
  split
  · split
    · exact .updQueue h
    · exact h
  · exact h

theorem Out.Inv.semaphoreLeaseExpiry (h : s.Inv) : Out.Inv (execSemaphoreLeaseExpiry s) := by
  unfold Machine.execSemaphoreLeaseExpiry
  split
  · exact .fwLeaseCheck h
  · exact h

theorem State.Inv.landDue {i : Instr} {tids : List Nat} (h : s.Inv) : (s.landDue i tids).Inv := by
  unfold State.landDue
  exact .updThreads h

theorem State.Inv.applyNext {i : Nat} {e10 : Next} (h : s.Inv) : (s.applyNext i e10).Inv := by
  unfold State.applyNext
  split
  · exact .updThread h
  · exact .updThread h
  · exact .updThread h
  · exact .updThread h
  · exact h

theorem State.Inv.applyWhere {p : Next → Bool} {ns : List (Nat × Next)} (h : s.Inv) : (s.applyWhere p ns).Inv := by
  unfold State.applyWhere
  exact .foldl (fun _ _ h' => .applyNext h') h

theorem State.Inv.skidOne {n : Nat} {a : Actor} (h : s.Inv) : (s.skidOne n a).Inv := by
  unfold State.skidOne
  dsimp only
  split
  · exact .haltNow h
  · split
    · exact .updGroup h
    · exact .updThread h
    · exact h

theorem State.Inv.skidAll {skid : Option Nat} {tids : List Nat} (h : s.Inv) : (s.skidAll skid tids).Inv := by
  unfold State.skidAll
  split
  · exact h
  · exact .foldl (fun _ _ h' => .skidOne h') h

theorem State.Inv.issued {skid : Option Nat} {tids : List Nat} (h : s.Inv) : (s.issued skid tids).Inv := by
  unfold State.issued
  exact .skidAll h

theorem State.Inv.tallyIssue {tids : List Nat} (h : s.Inv) : (s.tallyIssue tids).Inv := by
  unfold State.tallyIssue
  split
  · exact (State.tallyCore_serves ..).inv h
  · exact h

theorem State.Inv.fallThrough {tids active : List Nat} (h : s.Inv) : (s.fallThrough tids active).Inv := by
  unfold State.fallThrough
  exact .updThreads h

theorem State.Inv.tallyEnded {e : State} {tids : List Nat} (h : e.Inv) : (e.tallyEnded s tids).Inv := by
  unfold State.tallyEnded
  split
  · exact .tallyIssue h
  · split
    · exact (State.tallyCore_serves ..).inv h
    · exact h

theorem State.Inv.split {gid fid : Nat} {fall : Dword} (h : s.Inv) : (s.split gid fid fall).Inv := by
  unfold State.split
  split
  · exact h
  · split
    · exact h
    · dsimp only
      split
      · exact h
      · exact h
      · exact .updGroup h

theorem State.Inv.driveRfb {die i fuel : Nat} (h : s.Inv) : (s.driveRfb die i fuel).Inv := by
  induction fuel generalizing s with
  | zero => exact h
  | succ fuel ih =>
    unfold State.driveRfb
    split
    · exact h
    · exact .ite (.actRfb h) (ih (.actRfb h))

theorem OkInv.runStage {stage : Nat → State → Except Stop State} {l : List Nat}
    (hf : ∀ i s, s.Inv → OkInv id (stage i s)) (h : s.Inv) : OkInv id (runStage stage l s) := by
  induction l generalizing s with
  | nil => exact h
  | cons i l ih =>
    unfold Machine.runStage
    split
    · trivial
    · rename_i he
      exact ih (OkInv.of_eq (hf i s h) he)

theorem OkInv.runBodies {body : Body} {l : List Nat} (hf : ∀ i s, s.Inv → OkInv Prod.fst (body i s)) (h : s.Inv) :
    OkInv Prod.fst (runBodies body l s) := by
  induction l generalizing s with
  | nil => exact h
  | cons i l ih =>
    unfold Machine.runBodies
    split
    · trivial
    · rename_i he
      have h' := OkInv.of_eq (hf i s h) he
      split
      · trivial
      · rename_i he
        have h'' := OkInv.of_eq (ih h') he
        exact h''

theorem Out.Inv.runStaged {i : Instr} {stage : Nat → State → Except Stop State} {body : Body}
    (hstage : ∀ i s, s.Inv → OkInv id (stage i s)) (hbody : ∀ i s, s.Inv → OkInv Prod.fst (body i s)) (h : s.Inv) :
    Out.Inv (runStaged i s stage body) := by
  unfold Machine.runStaged
  split
  · trivial
  · extract_lets a tids skid s₁ s₂ active fall
    have h₁ : s₁.Inv := .landDue h
    have h₂ : s₂.Inv := (State.lookUps_looked ..).inv h₁
    split
    · exact h
    · split
      · exact State.Inv.stop h₁
      · split
        · exact State.Inv.stop h₂
        · rename_i he
          have h₃ := OkInv.of_eq (.runStage hstage h₂) he
          split
          · exact State.Inv.stop h₃
          · rename_i he
            have h₄ := OkInv.of_eq (.runBodies hbody h₃) he
            extract_lets s₅ s₆ s₇
            split
            · exact State.Inv.parkCheck (.parkRest (.applyWhere h₃))
            · split
              · exact State.Inv.parkCheck (.issued (.parkRest (.applyWhere (.tallyIssue h₄))))
              · have h₅ : s₅.Inv := .fallThrough (.foldl (fun _ _ h => .applyNext h) (.tallyEnded h₄))
                have h₆ : s₆.Inv := by
                  dsimp only [s₆]
                  clear_value a
                  split
                  · exact .split h₅
                  · exact h₅
                have h₇ : s₇.Inv := .issued h₆
                exact State.Inv.ite (.parkCheck h₇) h₇

theorem Out.Inv.runThreads {i : Instr} {body : Body} (hbody : ∀ i s, s.Inv → OkInv Prod.fst (body i s)) (h : s.Inv) :
    Out.Inv (runThreads i s body) := .runStaged (fun _ _ h => h) hbody h

theorem Out.Inv.runReg {i : Instr} {f : Thread → Except Stop Thread} (h : s.Inv) : Out.Inv (runReg i s f) := by
  refine .runThreads (fun j s h => ?_) h
  unfold onThread
  split
  · exact h
  · split
    · trivial
    · exact h

theorem Out.Inv.runFlow {i : Instr} {f : Thread → State → Except Stop (State × Next)}
    (hf : ∀ t s, s.Inv → OkInv Prod.fst (f t s)) (h : s.Inv) : Out.Inv (runFlow i s f) := by
  refine .runThreads (fun j s h => ?_) h
  split
  · exact h
  · exact hf _ _ h

theorem Out.Inv.runState {i : Instr} {f : Thread → State → Except Stop State}
    (hf : ∀ t s, s.Inv → OkInv id (f t s)) (h : s.Inv) : Out.Inv (runState i s f) := by
  refine .runThreads (fun j s h => ?_) h
  split
  · exact h
  · split
    · trivial
    · rename_i he
      have h' := OkInv.of_eq (hf _ _ h) he
      exact h'

theorem Out.Inv.runLoad {i : Instr} {hdr : Hdr} {sz : MSize} {d : GReg} {fill : Thread → State → State}
    {read : Thread → State → Except Stop (List Byte)} (hfill : ∀ t s, s.Inv → (fill t s).Inv) (h : s.Inv) :
    Out.Inv (runLoad i s hdr sz d fill read) := by
  refine .runState (fun t s h => ?_) h
  split
  · trivial
  · exact State.Inv.updThread (hfill t s h)

theorem Out.Inv.runOnce {i : Instr} {free : State → Except Stop State} {f : Coll → State → Except Stop (State × Bool)}
    (hfree : ∀ s, s.Inv → OkInv id (free s)) (hf : ∀ c s, s.Inv → OkInv Prod.fst (f c s)) (h : s.Inv) :
    Out.Inv (runOnce i s free f) := by
  unfold Machine.runOnce
  split
  · trivial
  · extract_lets a tids skid s₁ s₂ active done acts
    have h₁ : s₁.Inv := .landDue h
    have h₂ : s₂.Inv := (State.lookUps_looked ..).inv h₁
    have hdone : ∀ e placed, e.Inv → Out.Inv (done e placed) := by
      intro e placed h
      dsimp only [done]
      split
      · exact State.Inv.endAdoptions (.issued (.tallyIssue h))
      · exact State.Inv.issued (.updThreads (.tallyIssue h))
    split
    · exact h
    · split
      · exact State.Inv.stop h₁
      · split
        · exact hdone _ _ h₂
        · clear_value a
          split
          · split
            · trivial
            · dsimp only
              split
              · exact State.Inv.stop h₂
              · rename_i he
                exact hdone _ _ (OkInv.of_eq (hf _ _ h₂) he)
          · split
            · exact State.Inv.stop h₂
            · rename_i he
              exact hdone _ _ (OkInv.of_eq (hfree _ h₂) he)

theorem Out.Inv.runColl {i : Instr} {f : Coll → State → Except Stop State} (hf : ∀ c s, s.Inv → OkInv id (f c s))
    (h : s.Inv) : Out.Inv (runColl i s f) :=
  .runOnce (fun _ _ => trivial) (fun c s h => .map (hf c s h) fun _ h => h) h

/-- Where the action ends with a state, its memories are in canonical form. -/
def Action.Inv : Action → Prop
  | .done s => s.Inv
  | .block _ s => s.Inv
  | _ => True

theorem Out.Inv.onQueue {f : Nat → Queue → State} (hf : ∀ q x, (f q x).Inv) : Out.Inv (onQueue s f) := by
  unfold Machine.onQueue
  split
  · exact hf _ _
  · trivial

theorem Out.Inv.runQueue {f : Queue → Queue} (h : s.Inv) : Out.Inv (runQueue s f) := .onQueue fun _ _ => .updQueue h

theorem Out.Inv.rfbBlockStart {die : Nat} (h : s.Inv) : Out.Inv (execRfbBlockStart die s) := by
  unfold Machine.execRfbBlockStart
  dsimp only
  split
  · exact h
  · split
    · exact h
    · exact .driveRfb (.putRfb h)

theorem Out.Inv.rfbStepDone {die id : Nat} (h : s.Inv) : Out.Inv (execRfbStepDone die id s) :=
  .driveRfb h

theorem Out.Inv.runI32Flag {i : Instr} {pd : PReg} {d : GReg} {f : Thread → Word × Bool} (h : s.Inv) :
    Out.Inv (runI32Flag i s pd d f) :=
  .runReg h

theorem Out.Inv.runI32 {i : Instr} {d : GReg} {f : Thread → Word} (h : s.Inv) : Out.Inv (runI32 i s d f) :=
  .runReg h

theorem Out.Inv.runI64Flag {i : Instr} {pd : PReg} {d : GReg} {f : Thread → Dword × Bool} (h : s.Inv) :
    Out.Inv (runI64Flag i s pd d f) :=
  .runReg h

theorem Out.Inv.runI64 {i : Instr} {d : GReg} {f : Thread → Dword} (h : s.Inv) : Out.Inv (runI64 i s d f) :=
  .runReg h

end Sys2Proof.Machine
end

section
/-! The effects of the instructions keep the canonical form. -/

namespace Sys2Proof.Machine

variable {s : State}

theorem OkInv.branchTo {target : Dword} (h : s.Inv) : OkInv Prod.fst (branchTo s target) := by
  unfold Machine.branchTo
  split
  · trivial
  · exact h

theorem Out.Inv.bra {hdr : Hdr} {imm : BitVec 24} (h : s.Inv) : Out.Inv (execBra hdr imm s) :=
  .runFlow (fun _ _ h' => .branchTo h') h

theorem Out.Inv.brx {hdr : Hdr} {a : GReg} (h : s.Inv) : Out.Inv (execBrx hdr a s) :=
  .runFlow (fun _ _ h' => .branchTo h') h

theorem OkInv.callTo {t : Thread} {target : Dword} (h : s.Inv) : OkInv Prod.fst (callTo t s target) := by
  unfold Machine.callTo
  exact .seq fun _ => .andThen (.pushReturn h) fun _ h' => h'

theorem Out.Inv.call {hdr : Hdr} {imm : BitVec 24} (h : s.Inv) : Out.Inv (execCall hdr imm s) :=
  .runFlow (fun _ _ h' => .callTo h') h

theorem Out.Inv.callx {hdr : Hdr} {a : GReg} (h : s.Inv) : Out.Inv (execCallx hdr a s) :=
  .runFlow (fun _ _ h' => .callTo h') h

theorem Out.Inv.ret {hdr : Hdr} (h : s.Inv) : Out.Inv (execRet hdr s) :=
  .runFlow (fun _ _ h' => .seq fun _ => .seq fun _ => .updThread (.ite ((State.localFill_cached ..).inv h') h')) h

theorem Out.Inv.exit {hdr : Hdr} (h : s.Inv) : Out.Inv (execExit hdr s) := by
  unfold Machine.execExit
  refine .runFlow ?_ h
  intro _ _ h'
  refine .seq fun _ => ?_
  show State.Inv _
  split
  · exact (State.exitThread_sheds ..).inv h'
  · exact h'

theorem OkInv.mset {c : Coll} {pc : Dword} (h : s.Inv) : OkInv id (Coll.mset c s pc) := by
  unfold Coll.mset
  split
  · trivial
  · exact .updGroup h

theorem Out.Inv.mset {hdr : Hdr} {imm : BitVec 24} (h : s.Inv) : Out.Inv (execMset hdr imm s) :=
  .runOnce (fun _ h' => h') (fun _ _ h' => .map (.mset h') (fun _ h₁ => h₁)) h

theorem State.Inv.meet {c : Coll} (h : s.Inv) : (Coll.meet c s).1.Inv := by
  unfold Coll.meet
  split
  · exact h
  · exact (State.settle_sheds ..).inv (.updThreads (.updGroup h))

theorem Out.Inv.meet {hdr : Hdr} (h : s.Inv) : Out.Inv (execMeet hdr s) :=
  .runOnce (fun _ h' => h') (fun _ _ h' => .meet h') h

theorem Out.Inv.longLatencyResult {tid reg : Nat} (h : s.Inv) : Out.Inv (execLongLatencyResult tid reg s) :=
  .updThread h

theorem Out.Inv.unbind {hdr : Hdr} (h : s.Inv) : Out.Inv (execUnbind hdr s) :=
  .runColl (fun _ _ h' => .seq fun _ => (State.endGroup_sheds ..).inv h') h

theorem Out.Inv.part {hdr : Hdr} {code : BitVec 3} (h : s.Inv) : Out.Inv (execPart hdr code s) :=
  .runColl (fun _ _ h' => .seq fun _ => .seq fun _ => .updGroup h') h

theorem State.Inv.updRanks {l : List (Nat × Thread)} {f : Nat → Thread → Thread} (h : s.Inv) : (s.updRanks l f).Inv := by
  unfold State.updRanks
  exact .foldl (fun _ _ h' => .updThread h') h

theorem Out.Inv.vote {hdr : Hdr} {op : VoteOp} {neg : Bool} {pd : PReg} {d : GReg} {q : PReg} (h : s.Inv) :
    Out.Inv (execVote hdr op neg pd d q s) :=
  .runColl (fun _ _ h' => .seq fun _ => .updRanks h') h

theorem Out.Inv.shfl {hdr : Hdr} {mode : ShflMode} {pd : PReg} {d a b : GReg} (h : s.Inv) :
    Out.Inv (execShfl hdr mode pd d a b s) :=
  .runColl (fun _ _ h' => .seq fun _ => .updRanks h') h

theorem Out.Inv.gshfl {hdr : Hdr} {d a b : GReg} (h : s.Inv) : Out.Inv (execGshfl hdr d a b s) :=
  .runColl (fun _ _ h' => .seq fun _ => .updRanks h') h

theorem Out.Inv.sbcast {hdr : Hdr} {b64 : Bool} {d a : GReg} {n : BitVec 5} (h : s.Inv) : Out.Inv (execSbcast hdr b64 d a n s) :=
  .runColl (fun _ _ h' => .seq fun _ => .seq fun _ => .updRanks h') h

theorem Out.Inv.smovRead {hdr : Hdr} {d : GReg} {r : SReg} (h : s.Inv) : Out.Inv (execSmovRead hdr d r s) :=
  .runColl (fun _ _ h' => .updRanks h') h

theorem Out.Inv.smovWrite {hdr : Hdr} {r : SReg} {a : GReg} {n : BitVec 5} (h : s.Inv) : Out.Inv (execSmovWrite hdr r a n s) := by
  unfold Machine.execSmovWrite
  refine .runColl ?_ h
  intro _ _ h'
  refine .seq fun _ => ?_
  refine .seq fun _ => ?_
  split
  · exact h'
  · exact .updGroup h'

theorem Out.Inv.reduce {hdr : Hdr} {op : RedOp} {d a : GReg} (h : s.Inv) : Out.Inv (execReduce hdr op d a s) :=
  .runColl (fun _ _ h' => .seq fun _ => .seq fun _ => .updRanks h') h

theorem Out.Inv.scan {hdr : Hdr} {op : RedOp} {excl : Bool} {d a : GReg} (h : s.Inv) : Out.Inv (execScan hdr op excl d a s) :=
  .runColl (fun _ _ h' => .seq fun _ => .seq fun _ => .updRanks h') h

theorem Out.Inv.gbar {hdr : Hdr} (h : s.Inv) : Out.Inv (execGbar hdr s) :=
  .runColl (fun _ _ h' => .seq fun _ => h') h

theorem Out.Inv.gfence {hdr : Hdr} {scope : Scope} (h : s.Inv) : Out.Inv (execGfence hdr scope s) :=
  .runColl (fun _ _ h' => .seq fun _ => h') h

theorem Out.Inv.ld {hdr : Hdr} {sz : MSize} {ord : Ord4} {scope : Scope} {d a : GReg} {off : BitVec 8} (h : s.Inv) :
    Out.Inv (execLd hdr sz ord scope d a off s) :=
  .runLoad (fun _ _ h' => (State.loadFill_cached ..).inv h') h

theorem Out.Inv.st {hdr : Hdr} {sz : MSize} {ord : Ord4} {scope : Scope} {a b : GReg} {off : BitVec 8} (h : s.Inv) :
    Out.Inv (execSt hdr sz ord scope a b off s) :=
  .runState (fun _ _ h' => .seq fun _ => .dataStore h') h

theorem Out.Inv.lds {hdr : Hdr} {sz : MSize} {ord : Ord4} {scope : Scope} {d a : GReg} {off : BitVec 8} (h : s.Inv) :
    Out.Inv (execLds hdr sz ord scope d a off s) :=
  .runLoad (fun _ _ h' => h') h

theorem Out.Inv.sts {hdr : Hdr} {sz : MSize} {ord : Ord4} {scope : Scope} {a b : GReg} {off : BitVec 8} (h : s.Inv) :
    Out.Inv (execSts hdr sz ord scope a b off s) :=
  .runState (fun _ _ h' => .seq fun _ => .seq fun _ => State.putScratch_inv _ _ h') h

theorem Out.Inv.ldl {hdr : Hdr} {sz : MSize} {ord : Ord4} {scope : Scope} {d a : GReg} {off : BitVec 8} (h : s.Inv) :
    Out.Inv (execLdl hdr sz ord scope d a off s) :=
  .runLoad (fun _ _ h' => (State.localFill_cached ..).inv h') h

theorem Out.Inv.stl {hdr : Hdr} {sz : MSize} {ord : Ord4} {scope : Scope} {a b : GReg} {off : BitVec 8} (h : s.Inv) :
    Out.Inv (execStl hdr sz ord scope a b off s) :=
  .runState (fun _ _ h' => .seq fun _ => .seq fun _ => .localStore h') h

theorem State.Inv.issueCopy {k : Option Nat} {c : LdaCopy} (h : s.Inv) : (s.issueCopy k c).Inv := by
  unfold State.issueCopy
  split
  · exact .of_eq (.copyFill h) rfl rfl rfl
  · exact h

theorem Out.Inv.lda {hdr : Hdr} {sz : MSize} {tag : BitVec 3} {d a b : GReg} (h : s.Inv) :
    Out.Inv (execLda hdr sz tag d a b s) := by
  unfold Machine.execLda
  refine .runState ?_ h
  intro _ _ h'
  refine .seq fun _ => ?_
  extract_lets id s₁
  have hid : id.2.Inv := by
    dsimp only [id]
    exact .freshId h'
  have h₁ : s₁.Inv := by
    dsimp only [s₁]
    split
    · exact (State.tallyCore_serves ..).inv hid
    · exact hid
  exact .issueCopy h₁

theorem OkInv.wtag {t : Thread} {tag m : Nat} (h : s.Inv) : OkInv Prod.fst (s.wtag t tag m) := by
  unfold State.wtag
  split
  · exact h
  · dsimp only
    split
    · trivial
    · exact h

theorem Out.Inv.wtag {hdr : Hdr} {t : BitVec 3} {m : BitVec 6} (h : s.Inv) : Out.Inv (execWtag hdr t m s) :=
  .runFlow (fun _ _ h' => .wtag h') h

theorem State.Inv.atomResult {t : Thread} {hdr : Hdr} {op : AtomOp} {sz : MSize} {d : GReg} {old : Nat} (h : s.Inv) :
    (s.atomResult t hdr op sz d old).Inv := by
  unfold State.atomResult
  exact .updThread h

theorem Out.Inv.atom {hdr : Hdr} {op : AtomOp} {sz : MSize} {ord : Ord4} {scope : Scope} {d a b : GReg} (h : s.Inv) :
    Out.Inv (execAtom hdr op sz ord scope d a b s) :=
  .runState (fun _ _ h' => .andThen (.atomGlobal h') fun _ h₁ => .atomResult h₁) h

theorem Out.Inv.red {hdr : Hdr} {op : AtomOp} {sz : MSize} {ord : Ord4} {scope : Scope} {a b : GReg} (h : s.Inv) :
    Out.Inv (execRed hdr op sz ord scope a b s) :=
  .runState (fun _ _ h' => .andThen (.atomGlobal h') fun _ h₁ => h₁) h

theorem OkInv.atomScratch {t : Thread} {op : AtomOp} {sz : MSize} {a b : GReg} (h : s.Inv) :
    OkInv Prod.snd (s.atomScratch t op sz a b) := by
  unfold State.atomScratch
  exact .seq fun _ => .seq fun _ => .seq fun _ => State.putScratch_inv _ _ h

theorem Out.Inv.atomScratchpad {hdr : Hdr} {op : AtomOp} {sz : MSize} {ord : Ord4} {scope : Scope} {d a b : GReg} (h : s.Inv) :
    Out.Inv (execAtomScratchpad hdr op sz ord scope d a b s) :=
  .runState (fun _ _ h' => .andThen (.atomScratch h') fun _ h₁ => .atomResult h₁) h

theorem Out.Inv.redScratchpad {hdr : Hdr} {op : AtomOp} {sz : MSize} {ord : Ord4} {scope : Scope} {a b : GReg} (h : s.Inv) :
    Out.Inv (execRedScratchpad hdr op sz ord scope a b s) :=
  .runState (fun _ _ h' => .andThen (.atomScratch h') fun _ h₁ => h₁) h

theorem Out.Inv.pref {hdr : Hdr} {line : Bool} {a : GReg} {off : BitVec 8} (h : s.Inv) : Out.Inv (execPref hdr line a off s) := by
  unfold Machine.execPref
  refine .runState ?_ h
  intro _ _ h'
  show State.Inv _
  split
  · exact .foldl (fun _ _ h₁ => (State.readSector_cached ..).inv h₁) h'
  · exact h'

theorem Out.Inv.cwb {hdr : Hdr} {line : Bool} {a : GReg} {off : BitVec 8} (h : s.Inv) : Out.Inv (execCwb hdr line a off s) :=
  .runState (fun _ _ h' => .writeBack h') h

theorem State.Inv.threadDrop {t : Thread} {l : List Nat} (h : s.Inv) : (s.threadDrop t l).Inv := by
  unfold State.threadDrop
  split
  · exact .l1Drop h
  · exact h

theorem Out.Inv.cinv {hdr : Hdr} {line : Bool} {a : GReg} {off : BitVec 8} (h : s.Inv) : Out.Inv (execCinv hdr line a off s) :=
  .runState (fun _ _ h' => .dropSectors (.writeBack (.threadDrop h'))) h

theorem SomeInv.placeSpawn {k : Nat} {r : QRec} (h : s.Inv) : SomeInv Prod.fst (s.placeSpawn k r) := by
  unfold State.placeSpawn
  split
  · exact .map (.poolRecord h) (fun _ h' => h')
  · exact .queueRecord h

theorem State.Inv.putOwner {key : Nat} {w : Word} (h : s.Inv) : (s.putOwner key w).Inv := by
  unfold State.putOwner
  exact State.putMem_inv _ _ h

theorem OkInv.spawn {t : Thread} {nf : Bool} {pd : PReg} {a b c : GReg} (h : s.Inv) : OkInv id (s.spawn t nf pd a b c) := by
  unfold State.spawn
  dsimp only
  refine .seq fun _ => ?_
  refine .seq fun _ => ?_
  refine .seq fun _ => ?_
  refine .seq fun _ => ?_
  refine .seq fun _ => ?_
  split
  · trivial
  · split
    · refine .seq fun _ => ?_
      split
      · refine .seq fun _ => ?_
        split
        · rename_i he'
          have h' := SomeInv.of_eq (.placeSpawn (.freshRecord h)) he'
          exact .updThread h'
        · show State.Inv _
          refine .updThread ?_
          split
          · exact (State.tallyCore_serves ..).inv h
          · exact h
      · refine .seq fun _ => ?_
        split
        · rename_i he'
          have h' := SomeInv.of_eq (.placeSpawn (.dropOwned (.freshRecord h))) he'
          exact .updThread (.putOwner h')
        · show State.Inv _
          refine .updThread ?_
          split
          · exact (State.tallyCore_serves ..).inv h
          · exact h
    · split
      · refine .seq fun _ => ?_
        split
        · rename_i he'
          have h' := SomeInv.of_eq (.placeSpawn (.freshRecord h)) he'
          exact .updThread h'
        · show State.Inv _
          refine .updThread ?_
          split
          · exact (State.tallyCore_serves ..).inv h
          · exact h
      · refine .seq fun _ => ?_
        split
        · rename_i he'
          have h' := SomeInv.of_eq (.placeSpawn (.dropOwned (.freshRecord h))) he'
          exact .updThread (.putOwner h')
        · show State.Inv _
          refine .updThread ?_
          split
          · exact (State.tallyCore_serves ..).inv h
          · exact h

theorem Out.Inv.spawn {hdr : Hdr} {nf : Bool} {pd : PReg} {a b c : GReg} (h : s.Inv) : Out.Inv (execSpawn hdr nf pd a b c s) :=
  .runState (fun _ _ h' => .spawn h') h

theorem OkInv.startWait {i : Nat} (h : s.Inv) : OkInv id (startWait i s) := by
  unfold Machine.startWait
  exact .updThread h

theorem Out.Inv.wait {hdr : Hdr} {scope : Scope} {d a b : GReg} {off : BitVec 8} (h : s.Inv) :
    Out.Inv (execWait hdr scope d a b off s) := by
  unfold Machine.execWait
  refine .runStaged (fun _ _ h' => .startWait h') ?_ h
  intro _ _ h'
  split
  · exact h'
  · exact .wait h'

theorem OkInv.fset {t : Thread} {pd : PReg} {va : Dword} {st : Nat} {w0 w1 : Word} (h : s.Inv) :
    OkInv id (s.fset t pd va st w0 w1) := by
  unfold State.fset
  exact .seq fun _ => .seq fun _ => .seq fun _ => .updThread ((State.applyUpd_serves ..).inv h)

theorem Out.Inv.fset {hdr : Hdr} {scope : Scope} {pd : PReg} {a b : GReg} {off : BitVec 8} (h : s.Inv) :
    Out.Inv (execFset hdr scope pd a b off s) :=
  .runState (fun _ _ h' => .fset h') h

theorem Out.Inv.fsetFault {hdr : Hdr} {scope : Scope} {pd : PReg} {a b : GReg} {off : BitVec 8} (h : s.Inv) :
    Out.Inv (execFsetFault hdr scope pd a b off s) :=
  .runState (fun _ _ h' => .fset h') h

theorem Out.Inv.fsetCancel {hdr : Hdr} {scope : Scope} {pd : PReg} {a b : GReg} {off : BitVec 8} (h : s.Inv) :
    Out.Inv (execFsetCancel hdr scope pd a b off s) :=
  .runState (fun _ _ h' => .fset h') h

theorem Out.Inv.fnew {hdr : Hdr} {ownerless : Bool} {a : GReg} (h : s.Inv) : Out.Inv (execFnew hdr ownerless a s) :=
  .runState (fun _ _ h' => .fnew h') h

theorem Out.Inv.join {hdr : Hdr} {a : GReg} (h : s.Inv) : Out.Inv (execJoin hdr a s) :=
  .runState (fun _ _ h' => .join h') h

theorem Out.Inv.leave {hdr : Hdr} {a : GReg} (h : s.Inv) : Out.Inv (execLeave hdr a s) :=
  .runState (fun _ _ h' => .leave h') h

theorem OkInv.bar {t : Thread} {va : Dword} (h : s.Inv) : OkInv Prod.fst (s.bar t va) := by
  unfold State.bar
  exact .seq fun _ => .seq fun _ => .putGroup h

theorem Out.Inv.bar {hdr : Hdr} {a : GReg} (h : s.Inv) : Out.Inv (execBar hdr a s) :=
  .runFlow (fun _ _ h' => .bar h') h

theorem OkInv.fsetBit {t : Thread} {va : Dword} {i : Nat} (h : s.Inv) : OkInv id (s.fsetBit t va i) := by
  unfold State.fsetBit
  exact .seq fun _ => .seq fun _ => .seq fun _ => State.putMem_inv _ _ h

theorem Out.Inv.fsetBit {hdr : Hdr} {a b : GReg} (h : s.Inv) : Out.Inv (execFsetBit hdr a b s) :=
  .runState (fun _ _ h' => .fsetBit h') h

theorem Out.Inv.waitBit {hdr : Hdr} {a b : GReg} (h : s.Inv) : Out.Inv (execWaitBit hdr a b s) :=
  .runFlow (fun _ _ h' => .waitBit h') h

theorem OkInv.initToken {t : Thread} {kind : ShipKind} {token : Dword} {lc : Nat} (h : s.Inv) :
    OkInv id (s.initToken t kind token lc) := by
  unfold State.initToken
  split
  · exact .mapAny (fun _ => .putFuture h)
  · exact h

theorem OkInv.ship {t : Thread} {r : ShipReq} (h : s.Inv) : OkInv Prod.fst (s.ship t r) := by
  unfold State.ship
  exact .seq fun _ => .seq fun _ => .andThen (.initToken (.tokenHome h)) fun _ h' => .offerShip h'

theorem Out.Inv.shipW {hdr : Hdr} {pd : PReg} {m n : BitVec 3} {a b c : GReg} (h : s.Inv) :
    Out.Inv (execShipW hdr pd m n a b c s) :=
  .runFlow (fun _ _ h' => .ship h') h

theorem Out.Inv.shipC {hdr : Hdr} {m n : BitVec 3} {d a b c : GReg} (h : s.Inv) : Out.Inv (execShipC hdr m n d a b c s) :=
  .runFlow (fun _ _ h' => .ship h') h

theorem Out.Inv.shipO {hdr : Hdr} {n : BitVec 3} {a b c : GReg} (h : s.Inv) : Out.Inv (execShipO hdr n a b c s) :=
  .runFlow (fun _ _ h' => .ship h') h

theorem Out.Inv.sret {hdr : Hdr} (h : s.Inv) : Out.Inv (execSret hdr s) := by
  unfold Machine.execSret
  refine .runFlow ?_ h
  intro _ _ h'
  split
  · exact .endSection h'
  · trivial

theorem OkInv.pushStep {t : Thread} {obj : Dword} {b : Nat} (h : s.Inv) : OkInv id (s.pushStep t obj b) := by
  unfold State.pushStep
  split
  · exact h
  · refine .seq fun _ => ?_
    refine .seq fun _ => ?_
    dsimp only
    split
    · exact .updThread h
    · exact .seq fun _ => .updThread (.putNonempty (.putBucket h))

theorem OkInv.pushValue {t : Thread} {pd : PReg} {v : Dword} (h : s.Inv) : OkInv Prod.fst (s.pushValue t pd v) := by
  unfold State.pushValue
  split
  · exact .updThread h
  · exact .seq fun _ => .seq fun _ => .updThread (.dropOwned (State.putMem_inv _ _ h))

theorem Out.Inv.qpush {hdr : Hdr} {pd : PReg} {a b c : GReg} (h : s.Inv) : Out.Inv (execQpush hdr pd a b c s) := by
  unfold Machine.execQpush
  refine .runStaged ?_ ?_ h
  · intro _ _ h'
    split
    · exact h'
    · exact .pushStep h'
  · intro _ _ h'
    split
    · exact h'
    · exact .pushValue h'

theorem OkInv.pushReserve {t : Thread} {pd : PReg} {d : GReg} (h : s.Inv) : OkInv Prod.fst (s.pushReserve t pd d) := by
  unfold State.pushReserve
  split
  · exact .updThread h
  · exact .seq fun _ => .seq fun _ => .updThread (.putOwner (.claimOwned h))

theorem Out.Inv.qpushRsv {hdr : Hdr} {pd : PReg} {d a b : GReg} (h : s.Inv) : Out.Inv (execQpushRsv hdr pd d a b s) := by
  unfold Machine.execQpushRsv
  refine .runStaged ?_ ?_ h
  · intro _ _ h'
    split
    · exact h'
    · exact .pushStep h'
  · intro _ _ h'
    split
    · exact h'
    · exact .pushReserve h'

theorem Out.Inv.qpop {hdr : Hdr} {pd : PReg} {d a b : GReg} (h : s.Inv) : Out.Inv (execQpop hdr pd d a b s) := by
  unfold Machine.execQpop
  refine .runStaged ?_ ?_ h
  · intro _ _ h'
    split
    · exact h'
    · exact .popStep h'
  · intro _ _ h'
    split
    · exact h'
    · exact .popEntry h'

theorem Out.Inv.qpopMin {hdr : Hdr} {pd : PReg} {d a : GReg} (h : s.Inv) : Out.Inv (execQpopMin hdr pd d a s) := by
  unfold Machine.execQpopMin
  refine .runStaged ?_ ?_ h
  · intro _ _ h'
    split
    · exact h'
    · exact .popStep h'
  · intro _ _ h'
    split
    · exact h'
    · exact .popEntry h'

theorem State.Inv.updBanks {k eng : Nat} {bs : List Nat} {f : Bank → Bank} (h : s.Inv) : (s.updBanks k eng bs f).Inv := by
  unfold State.updBanks
  exact .updCore h

theorem Out.Inv.accAlloc {hdr : Hdr} {pd : PReg} {eng : BitVec 2} {mask : BitVec 8} (h : s.Inv) :
    Out.Inv (execAccAlloc hdr pd eng mask s) :=
  .runColl (fun _ _ h' => .seq fun _ => .updRanks (.ite (.updBanks h') h')) h

theorem Out.Inv.accFree {hdr : Hdr} {eng : BitVec 2} {mask : BitVec 8} (h : s.Inv) : Out.Inv (execAccFree hdr eng mask s) :=
  .runColl (fun _ _ h' => .seq fun _ => .seq fun _ => .updBanks h') h

theorem Out.Inv.accLend {hdr : Hdr} {eng : BitVec 2} {mask : BitVec 8} {sa : SReg} (h : s.Inv) :
    Out.Inv (execAccLend hdr eng mask sa s) := by
  unfold Machine.execAccLend
  refine .runColl ?_ h
  intro _ _ h'
  refine .seq fun _ => ?_
  dsimp only
  refine .seq fun _ => ?_
  refine .seq fun _ => ?_
  split
  · exact h'
  · exact .updBanks (.updBanks h')

theorem OkInv.enqueue {k e : Nat} {m : MCmd} (h : s.Inv) : OkInv id (s.enqueue k e m) := by
  unfold State.enqueue
  split
  · trivial
  · exact .updEngine (.nextSeq h)

theorem Out.Inv.accZero {hdr : Hdr} {eng : BitVec 2} {mask : BitVec 8} (h : s.Inv) : Out.Inv (execAccZero hdr eng mask s) :=
  .runColl (fun _ _ h' => .seq fun _ => .seq fun _ => .enqueue h') h

theorem Out.Inv.accLd {hdr : Hdr} {eng : BitVec 2} {a b c : GReg} (h : s.Inv) : Out.Inv (execAccLd hdr eng a b c s) :=
  .runColl (fun _ _ h' => .seq fun _ => .seq fun _ => .seq fun _ => .enqueue h') h

theorem Out.Inv.accRd {hdr : Hdr} {eng : BitVec 2} {f32 i96 : Bool} {d b c : GReg} (h : s.Inv) :
    Out.Inv (execAccRd hdr eng f32 i96 d b c s) :=
  .runColl (fun _ _ h' => .seq fun _ => .seq fun _ => .seq fun _ => .andThen (.enqueue h') fun _ h₁ => .updRanks h₁) h

theorem OkInv.initFuture {ctx : Nat} {fut : Dword} (h : s.Inv) : OkInv id (s.initFuture ctx fut) := by
  unfold State.initFuture
  split
  · exact h
  · exact .mapAny (fun _ => .putFuture ((State.lookUp_serves ..).inv h))

theorem OkInv.mma {c : Coll} {f : Fmt} {eng : BitVec 2} {bank : BitVec 3} {sa sb sc : SReg} {sparse : Bool} (h : s.Inv) :
    OkInv id (Coll.mma c s f eng bank sa sb sc sparse) := by
  unfold Coll.mma
  exact .seq fun _ => .seq fun _ => .seq fun _ => .seq fun _ => .seq fun _ => .andThen (.initFuture h) fun _ h' => .enqueue h'

theorem Out.Inv.mma {hdr : Hdr} {fmt : Fmt} {eng : BitVec 2} {bank : BitVec 3} {sa sb sc : SReg} (h : s.Inv) :
    Out.Inv (execMma hdr fmt eng bank sa sb sc s) :=
  .runColl (fun _ _ h' => .mma h') h

theorem Out.Inv.mmas {hdr : Hdr} {fmt : Fmt} {eng : BitVec 2} {bank : BitVec 3} {sa sb sc : SReg} (h : s.Inv) :
    Out.Inv (execMmas hdr fmt eng bank sa sb sc s) :=
  .runColl (fun _ _ h' => .mma h') h

theorem Out.Inv.accDrain {hdr : Hdr} {eng : BitVec 2} {bank : BitVec 3} {sa sc : SReg} (h : s.Inv) :
    Out.Inv (execAccDrain hdr eng bank sa sc s) := by
  unfold Machine.execAccDrain
  refine .runColl ?_ h
  intro _ _ h'
  refine .seq fun _ => ?_
  dsimp only
  refine .seq fun _ => ?_
  split
  · refine .seq fun _ => ?_
    refine .seq fun _ => ?_
    split
    · refine .seq fun _ => ?_
      refine .seq fun _ => ?_
      split
      · exact .seq fun _ => .seq fun _ => .andThen (.initFuture h') fun _ h₁ => .enqueue h₁
      · exact .seq fun _ => .andThen (.initFuture h') fun _ h₁ => .enqueue h₁
    · refine .seq fun _ => ?_
      split
      · exact .seq fun _ => .seq fun _ => .andThen (.initFuture h') fun _ h₁ => .enqueue h₁
      · exact .seq fun _ => .andThen (.initFuture h') fun _ h₁ => .enqueue h₁
  · refine .seq fun _ => ?_
    split
    · refine .seq fun _ => ?_
      refine .seq fun _ => ?_
      split
      · exact .seq fun _ => .andThen (.initFuture h') fun _ h₁ => .enqueue h₁
      · exact .andThen (.initFuture h') fun _ h₁ => .enqueue h₁
    · refine .seq fun _ => ?_
      split
      · exact .seq fun _ => .andThen (.initFuture h') fun _ h₁ => .enqueue h₁
      · exact .andThen (.initFuture h') fun _ h₁ => .enqueue h₁

theorem State.Inv.addCopy {b : BulkCopy} (h : s.Inv) : (s.addCopy b).Inv :=
  h

theorem OkInv.bcpy {t : Thread} {a fut : Dword} {ch : Nat} (h : s.Inv) : OkInv id (s.bcpy t a fut ch) := by
  unfold State.bcpy
  refine .seq fun _ => ?_
  refine .seq fun _ => ?_
  refine .seq fun _ => ?_
  refine .seq fun _ => ?_
  dsimp only
  split
  · refine .seq fun _ => ?_
    refine .seq fun _ => ?_
    refine .seq fun _ => ?_
    refine .seq fun _ => ?_
    split
    · refine .seq fun _ => ?_
      split
      · refine .seq fun _ => ?_
        split
        · exact .seq fun _ => .seq fun _ => .seq fun _ => .andThen (.initFuture ((State.threadFill_cached ..).inv h)) fun _ h' =>
            .andThen (.initFuture h') fun _ h₁ => .addCopy h₁
        · exact .seq fun _ => .seq fun _ => .andThen (.initFuture ((State.threadFill_cached ..).inv h)) fun _ h' => .andThen
            (.initFuture h') fun _ h₁ => .addCopy h₁
      · split
        · exact .seq fun _ => .seq fun _ => .seq fun _ => .andThen (.initFuture ((State.threadFill_cached ..).inv h)) fun _ h' =>
            .andThen (.initFuture h') fun _ h₁ => .addCopy h₁
        · exact .seq fun _ => .seq fun _ => .andThen (.initFuture ((State.threadFill_cached ..).inv h)) fun _ h' => .andThen
            (.initFuture h') fun _ h₁ => .addCopy h₁
    · split
      · refine .seq fun _ => ?_
        split
        · exact .seq fun _ => .seq fun _ => .seq fun _ => .andThen (.initFuture ((State.threadFill_cached ..).inv h)) fun _ h' =>
            .andThen (.initFuture h') fun _ h₁ => .addCopy h₁
        · exact .seq fun _ => .seq fun _ => .andThen (.initFuture ((State.threadFill_cached ..).inv h)) fun _ h' => .andThen
            (.initFuture h') fun _ h₁ => .addCopy h₁
      · split
        · exact .seq fun _ => .seq fun _ => .seq fun _ => .andThen (.initFuture ((State.threadFill_cached ..).inv h)) fun _ h' =>
            .andThen (.initFuture h') fun _ h₁ => .addCopy h₁
        · exact .seq fun _ => .seq fun _ => .andThen (.initFuture ((State.threadFill_cached ..).inv h)) fun _ h' => .andThen
            (.initFuture h') fun _ h₁ => .addCopy h₁
  · refine .seq fun _ => ?_
    refine .seq fun _ => ?_
    refine .seq fun _ => ?_
    refine .seq fun _ => ?_
    split
    · refine .seq fun _ => ?_
      split
      · refine .seq fun _ => ?_
        split
        · exact .seq fun _ => .seq fun _ => .seq fun _ => .andThen (.initFuture ((State.threadFill_cached ..).inv h)) fun _ h' =>
            .andThen (.initFuture h') fun _ h₁ => .addCopy h₁
        · exact .seq fun _ => .seq fun _ => .andThen (.initFuture ((State.threadFill_cached ..).inv h)) fun _ h' => .andThen
            (.initFuture h') fun _ h₁ => .addCopy h₁
      · split
        · exact .seq fun _ => .seq fun _ => .seq fun _ => .andThen (.initFuture ((State.threadFill_cached ..).inv h)) fun _ h' =>
            .andThen (.initFuture h') fun _ h₁ => .addCopy h₁
        · exact .seq fun _ => .seq fun _ => .andThen (.initFuture ((State.threadFill_cached ..).inv h)) fun _ h' => .andThen
            (.initFuture h') fun _ h₁ => .addCopy h₁
    · split
      · refine .seq fun _ => ?_
        split
        · exact .seq fun _ => .seq fun _ => .seq fun _ => .andThen (.initFuture ((State.threadFill_cached ..).inv h)) fun _ h' =>
            .andThen (.initFuture h') fun _ h₁ => .addCopy h₁
        · exact .seq fun _ => .seq fun _ => .andThen (.initFuture ((State.threadFill_cached ..).inv h)) fun _ h' => .andThen
            (.initFuture h') fun _ h₁ => .addCopy h₁
      · split
        · exact .seq fun _ => .seq fun _ => .seq fun _ => .andThen (.initFuture ((State.threadFill_cached ..).inv h)) fun _ h' =>
            .andThen (.initFuture h') fun _ h₁ => .addCopy h₁
        · exact .seq fun _ => .seq fun _ => .andThen (.initFuture ((State.threadFill_cached ..).inv h)) fun _ h' => .andThen
            (.initFuture h') fun _ h₁ => .addCopy h₁

theorem Out.Inv.bcpy {hdr : Hdr} {nf : Bool} {a c : GReg} (h : s.Inv) : Out.Inv (execBcpy hdr nf a c s) :=
  .runState (fun _ _ h' => .bcpy h') h

theorem OkInv.rcfg {t : Thread} {n x : Nat} (h : s.Inv) : OkInv id (s.rcfg t n x) := by
  unfold State.rcfg
  dsimp only
  refine .seq fun _ => ?_
  refine .seq fun _ => ?_
  split
  · exact .seq fun _ => .updRing h
  · exact .updRing h

theorem Out.Inv.rcfg {hdr : Hdr} {n : BitVec 4} {a : GReg} (h : s.Inv) : Out.Inv (execRcfg hdr n a s) :=
  .runState (fun _ _ h' => .rcfg h') h

theorem Out.Inv.rcfgGet {hdr : Hdr} {n : BitVec 4} {d : GReg} (h : s.Inv) : Out.Inv (execRcfgGet hdr n d s) :=
  .runState (fun _ _ h' => .seq fun _ => .updThread h') h

theorem OkInv.rpush {t : Thread} {n : Nat} (h : s.Inv) : OkInv id (s.rpush t n) := by
  unfold State.rpush
  refine .seq fun _ => ?_
  dsimp only
  split
  · exact .seq fun _ => .updRing h
  · exact .updRing h

theorem Out.Inv.rpush {hdr : Hdr} {n : BitVec 4} (h : s.Inv) : Out.Inv (execRpush hdr n s) := by
  unfold Machine.execRpush
  refine .runOnce ?_ ?_ h
  · intro _ h'
    split
    · exact .rpush h'
    · exact h'
  · intro _ _ h'
    split
    · exact .map (.rpush h') (fun _ h₁ => h₁)
    · exact h'

theorem OkInv.rpop {t : Thread} {n : Nat} {d : GReg} {first : Bool} {off : Word} (h : s.Inv) :
    OkInv Prod.fst (s.rpop t n d first off) := by
  unfold State.rpop
  refine .seq fun _ => ?_
  dsimp only
  split
  · exact h
  · exact .updThread (.ite (.updRing h) h)

theorem Out.Inv.rpop {hdr : Hdr} {n : BitVec 4} {d : GReg} (h : s.Inv) : Out.Inv (execRpop hdr n d s) :=
  .runFlow (fun _ _ h' => .rpop h') h

theorem Out.Inv.dscCfg {hdr : Hdr} {a : GReg} (h : s.Inv) : Out.Inv (execDscCfg hdr a s) := by
  unfold Machine.execDscCfg
  refine .runColl ?_ h
  intro _ _ h'
  refine .seq fun _ => ?_
  dsimp only
  split
  · split
    · exact h'
    · exact .seq fun _ => .updDescent h'
  · refine .seq fun _ => ?_
    refine .seq fun _ => ?_
    refine .seq fun _ => ?_
    refine .seq fun _ => ?_
    split
    · exact .seq fun _ => .seq fun _ => .seq fun _ => .updDescent ((State.readFill_serves ..).inv h')
    · exact .seq fun _ => .seq fun _ => .updDescent ((State.readFill_serves ..).inv h')

theorem State.Inv.submit {c : Coll} {op : DOp} {cfg : TreeCfg} {fut : Dword} {scope : Scope} (h : s.Inv) :
    (Coll.submit c s op cfg fut scope).Inv := by
  unfold Coll.submit
  exact .updDescent (.nextSeq h)

theorem Out.Inv.dscRun {hdr : Hdr} {sa sc : SReg} (h : s.Inv) : Out.Inv (execDscRun hdr sa sc s) := by
  unfold Machine.execDscRun
  refine .runColl ?_ h
  intro _ _ h'
  refine .seq fun _ => ?_
  dsimp only
  refine .seq fun _ => ?_
  refine .seq fun _ => ?_
  refine .seq fun _ => ?_
  refine .seq fun _ => ?_
  refine .seq fun _ => ?_
  split
  · refine .seq fun _ => ?_
    refine .seq fun _ => ?_
    refine .seq fun _ => ?_
    split
    · trivial
    · exact .andThen (.initFuture h') fun _ h₁ => .updDescent (.submit h₁)
  · refine .seq fun _ => ?_
    refine .seq fun _ => ?_
    split
    · trivial
    · exact .andThen (.initFuture h') fun _ h₁ => .updDescent (.submit h₁)

theorem Out.Inv.dscPath {hdr : Hdr} {d b : GReg} (h : s.Inv) : Out.Inv (execDscPath hdr d b s) := by
  unfold Machine.execDscPath
  refine .runColl ?_ h
  intro _ _ h'
  refine .seq fun _ => ?_
  refine .seq fun _ => ?_
  refine .seq fun _ => ?_
  dsimp only
  split
  · exact .seq fun _ => .updRanks h'
  · exact .updRanks h'

theorem Out.Inv.dscGrad {hdr : Hdr} {sa sb sc : SReg} (h : s.Inv) : Out.Inv (execDscGrad hdr sa sb sc s) := by
  unfold Machine.execDscGrad
  refine .runColl ?_ h
  intro _ _ h'
  refine .seq fun _ => ?_
  dsimp only
  refine .seq fun _ => ?_
  refine .seq fun _ => ?_
  refine .seq fun _ => ?_
  refine .seq fun _ => ?_
  refine .seq fun _ => ?_
  refine .seq fun _ => ?_
  split
  · refine .seq fun _ => ?_
    refine .seq fun _ => ?_
    refine .seq fun _ => ?_
    refine .seq fun _ => ?_
    split
    · trivial
    · exact .andThen (.initFuture h') fun _ h₁ => .submit h₁
  · refine .seq fun _ => ?_
    refine .seq fun _ => ?_
    refine .seq fun _ => ?_
    split
    · trivial
    · exact .andThen (.initFuture h') fun _ h₁ => .submit h₁

theorem State.Inv.addRfb {die ctx prio : Nat} {addr fut : Dword} {handle : Word} {launch : Option (Nat × Nat)} (h : s.Inv) :
    (s.addRfb die ctx prio addr fut handle launch).Inv := by
  unfold State.addRfb
  exact .updRfbs (.freshId h)

theorem Out.Inv.rfbStart {hdr : Hdr} {a c : GReg} (h : s.Inv) : Out.Inv (execRfbStart hdr a c s) :=
  .runColl (fun _ _ h' => .seq fun _ => .seq fun _ => .seq fun _ => .andThen (.initFuture h') fun _ h₁ => .addRfb h₁) h

theorem Out.Inv.rfbStat {hdr : Hdr} {d a : GReg} (h : s.Inv) : Out.Inv (execRfbStat hdr d a s) :=
  .runColl (fun _ _ h' => .seq fun _ => .seq fun _ => .updRanks h') h

theorem State.Inv.stopRfb {die : Nat} {b : Rfb} (h : s.Inv) : (s.stopRfb die b).Inv := by
  unfold State.stopRfb
  extract_lets s₁
  have h₁ : s₁.Inv := .putRfb h
  split
  · split
    · exact .ite (.abortRfb (.setRecord h₁)) h₁
    · exact h₁
  · exact .driveRfb h₁

theorem Out.Inv.rfbAbort {hdr : Hdr} {pd : PReg} {a : GReg} (h : s.Inv) : Out.Inv (execRfbAbort hdr pd a s) := by
  unfold Machine.execRfbAbort
  refine .runColl ?_ h
  intro _ _ h'
  refine .seq fun _ => ?_
  refine .seq fun _ => ?_
  split
  · exact .updRanks h'
  · exact .updRanks (.stopRfb h')

theorem State.Inv.rmaSend {id : Nat} (h : s.Inv) : (s.rmaSend id).Inv := by
  unfold State.rmaSend
  split
  · exact h
  · split
    · dsimp only
      split
      · exact .rmaStops (.freshId h)
      · exact .updRma ((State.sendFor_serves ..).inv (.ite ((State.readFill_serves ..).inv (.freshId h)) (.freshId h)))
    · exact h

theorem State.Inv.rmaGo {id : Nat} (h : s.Inv) : (s.rmaGo id).Inv := by
  unfold State.rmaGo
  exact .foldl (fun _ _ h' => .rmaSend h') h

theorem OkInv.rma {t : Thread} {put : Bool} {a fut : Dword} {ch : Nat} (h : s.Inv) : OkInv id (s.rma t put a fut ch) := by
  unfold State.rma
  refine .seq fun _ => ?_
  refine .seq fun _ => ?_
  refine .seq fun _ => ?_
  refine .seq fun _ => ?_
  refine .seq fun _ => ?_
  dsimp only
  split
  · refine .seq fun _ => ?_
    split
    · refine .seq fun _ => ?_
      refine .seq fun _ => ?_
      split
      · exact .andThen (.initFuture ((State.threadFill_cached ..).inv h)) fun _ h' => .rmaGo h'
      · trivial
    · refine .seq fun _ => ?_
      split
      · exact .andThen (.initFuture ((State.threadFill_cached ..).inv h)) fun _ h' => .rmaGo h'
      · trivial
  · split
    · refine .seq fun _ => ?_
      refine .seq fun _ => ?_
      split
      · exact .andThen (.initFuture ((State.threadFill_cached ..).inv h)) fun _ h' => .rmaGo h'
      · trivial
    · refine .seq fun _ => ?_
      split
      · exact .andThen (.initFuture ((State.threadFill_cached ..).inv h)) fun _ h' => .rmaGo h'
      · trivial

theorem Out.Inv.rmaPut {hdr : Hdr} {nf : Bool} {a c : GReg} (h : s.Inv) : Out.Inv (execRmaPut hdr nf a c s) :=
  .runState (fun _ _ h' => .rma h') h

theorem Out.Inv.rmaGet {hdr : Hdr} {nf : Bool} {a c : GReg} (h : s.Inv) : Out.Inv (execRmaGet hdr nf a c s) :=
  .runState (fun _ _ h' => .rma h') h

theorem OkInv.rmaFlag {t : Thread} {add : Bool} {va v : Dword} (h : s.Inv) : OkInv id (s.rmaFlag t add va v) := by
  unfold State.rmaFlag
  dsimp only
  refine .seq fun _ => ?_
  refine .seq fun _ => ?_
  split
  · split
    · exact .seq fun _ => (State.sendFor_serves ..).inv h
    · exact (State.sendFor_serves ..).inv h
  · trivial

theorem Out.Inv.rmaFlag {hdr : Hdr} {add : Bool} {a b : GReg} (h : s.Inv) : Out.Inv (execRmaFlag hdr add a b s) :=
  .runState (fun _ _ h' => .rmaFlag h') h

theorem Out.Inv.srd {hdr : Hdr} {d : GReg} {r : SysReg} (h : s.Inv) : Out.Inv (execSrd hdr d r s) :=
  .runState (fun _ _ h' => .updThread h') h

theorem OkInv.swr {t : Thread} {r : SysReg} {a : GReg} (h : s.Inv) : OkInv id (s.swr t r a) := by
  unfold State.swr
  split
  · exact .updThread h
  · exact .updThread h
  · split
    · trivial
    · exact .updCtx h
  · exact .updCtx h
  · trivial

theorem Out.Inv.swr {hdr : Hdr} {r : SysReg} {a : GReg} (h : s.Inv) : Out.Inv (execSwr hdr r a s) :=
  .runState (fun _ _ h' => .swr h') h

theorem Out.Inv.trap {hdr : Hdr} {imm : BitVec 24} (h : s.Inv) : Out.Inv (execTrap hdr imm s) :=
  .runState (fun _ _ h' => trivial) h

theorem State.Inv.splitAfter {e0 : Actor} (h : s.Inv) : (s.splitAfter e0).Inv := by
  unfold State.splitAfter
  split
  · exact .split h
  · exact h

theorem State.Inv.resumeSiblings {gid : Nat} (h : s.Inv) : (s.resumeSiblings gid).Inv := by
  unfold State.resumeSiblings
  split
  · exact h
  · exact .ite h h

theorem State.Inv.trapReturn {a : Actor} {next : Bool} (h : s.Inv) : (s.trapReturn a next).Inv := by
  unfold State.trapReturn
  extract_lets tids s₁
  have h₁ : s₁.Inv := h
  split
  · exact .resumeSiblings (.nextHandler (.updGroup h₁))
  · exact h₁

theorem Out.Inv.tret {hdr : Hdr} {next : Bool} (h : s.Inv) : Out.Inv (execTret hdr next s) := by
  unfold Machine.execTret
  split
  · trivial
  · dsimp only
    split
    · exact h
    · split
      · exact .stop (.landDue h)
      · exact .issued (.splitAfter (.trapReturn (.tallyIssue (.landDue h))))

theorem Out.Inv.bpt {hdr : Hdr} {imm : BitVec 24} (h : s.Inv) : Out.Inv (execBpt hdr imm s) :=
  .runState (fun _ _ h' => trivial) h

theorem State.Inv.icinv {c : Nat} {va : Dword} {n : Nat} (h : s.Inv) : (s.icinv c va n).Inv :=
  h

theorem Out.Inv.icinv {hdr : Hdr} {a b : GReg} (h : s.Inv) : Out.Inv (execIcinv hdr a b s) :=
  .runState (fun _ _ h' => .icinv h') h

theorem Out.Inv.clk {hdr : Hdr} {cyc : Bool} {d : GReg} (h : s.Inv) : Out.Inv (execClk hdr cyc d s) := by
  unfold Machine.execClk
  refine .runState ?_ h
  intro _ _ h'
  split
  · trivial
  · exact .updThread h'

theorem State.Inv.perfRd {t : Thread} {d : GReg} {n : Nat} (h : s.Inv) : (s.perfRd t d n).Inv := by
  unfold State.perfRd
  exact .updThread h

theorem Out.Inv.perfRd {hdr : Hdr} {d : GReg} {n : BitVec 3} (h : s.Inv) : Out.Inv (execPerfRd hdr d n s) :=
  .runState (fun _ _ h' => .perfRd h') h

theorem Out.Inv.perfCfg {hdr : Hdr} {n : BitVec 3} {a : GReg} (h : s.Inv) : Out.Inv (execPerfCfg hdr n a s) :=
  .runState (fun _ _ h' => trivial) h

theorem Out.Inv.unassignedOpcode {w : Dword} (h : s.Inv) : Out.Inv (execUnassignedOpcode w s) :=
  .runState (fun _ _ h' => trivial) h

theorem OkInv.bind {t : Thread} {n : Nat} {key : Word} (h : s.Inv) : OkInv Prod.fst (s.bind t n key) := by
  unfold State.bind
  split
  · extract_lets k s₁ set tids s₂ others s₃
    have h₃ : s₃.Inv := (State.refreshAge_sheds ..).inv (.updThreads (.updCore (.updCore h)))
    split
    · exact State.Inv.updCore h
    · exact State.Inv.formGroup h₃
  · trivial

theorem Out.Inv.onAction {f : Nat → Queue → Action} (hf : ∀ q x, Action.Inv (f q x)) (h : s.Inv) :
    Out.Inv (onAction s f) := by
  refine .onQueue fun q x => ?_
  have hqx := hf q x
  split
  · rename_i he
    rw [he] at hqx
    exact .updQueue hqx
  · exact .rejectPacket h
  · exact .queueStop h
  · rename_i he
    rw [he] at hqx
    exact .updQueue hqx

end Sys2Proof.Machine
end

section
/-! Queue actions, mailbox commands and the accesses of the host keep the canonical form (R399, R407, R416, R442). -/

namespace Sys2Proof.Machine

variable {s : State}

theorem State.Inv.mailbox {func : Nat} {fw : Bool} {r : Mailbox} (hr : OkInv Prod.fst r) (h : s.Inv) :
    (s.mailbox func fw r).Inv := by
  unfold State.mailbox
  extract_lets recovery
  split
  · exact h
  · split
    · exact .setStat h
    · split
      · exact .setStat h
      · exact .setStat hr

theorem Out.Inv.qpLdw {w : BitVec 3} {b a : BitVec 4} (h : s.Inv) : Out.Inv (execQpLdw w b a s) := by
  unfold Machine.execQpLdw
  refine .onQueue ?_
  intro _ _
  split
  · exact .rejectPacket h
  · split
    · exact .updQueue h
    · exact .queueStop h

theorem Out.Inv.qpStw {w : BitVec 3} {b a : BitVec 4} (h : s.Inv) : Out.Inv (execQpStw w b a s) := by
  unfold Machine.execQpStw
  refine .onQueue ?_
  intro _ _
  split
  · exact .rejectPacket h
  · split
    · rename_i he'
      have h' := OkInv.of_eq (.store h) he'
      exact .updQueue h'
    · exact .queueStop h

theorem Out.Inv.qpEnd (h : s.Inv) : Out.Inv (execQpEnd s) :=
  .onQueue (fun _ _ => (State.settleQueue_serves ..).inv (.updQueue h))

theorem Out.Inv.actNop (h : s.Inv) : Out.Inv (execActNop s) :=
  .onAction (fun _ _ => h) h

theorem State.Inv.packetWork {q : Nat} {fut : Option (Nat × Dword × Nat)} (h : s.Inv) : (s.packetWork q fut).Inv := by
  unfold State.packetWork
  exact .updQueue h

theorem State.Inv.addSet {r : QRec} (h : s.Inv) : (s.addSet r).2.Inv := by
  unfold State.addSet
  split
  · dsimp only
    exact h
  · exact h

theorem Out.Inv.actSignal (h : s.Inv) : Out.Inv (execActSignal s) := by
  unfold Machine.execActSignal
  refine .onAction ?_ h
  intro _ _
  dsimp only
  split
  · trivial
  · split
    · trivial
    · split
      · trivial
      · exact (State.putFor_serves ..).inv h

theorem Out.Inv.actWaitsig (h : s.Inv) : Out.Inv (execActWaitsig s) := by
  unfold Machine.execActWaitsig
  refine .onAction ?_ h
  intro _ _
  dsimp only
  split
  · trivial
  · split
    · trivial
    · split
      · trivial
      · trivial
      · split
        · trivial
        · split <;> exact h
      · exact (State.sendFor_serves ..).inv h

theorem OkInv.queueCopy {x : Queue} (h : s.Inv) : OkInv Prod.snd (s.queueCopy x) := by
  unfold State.queueCopy
  exact .seq fun _ => .seq fun _ => .seq fun _ => .seq fun _ => .seq fun _ => .seq fun _ => .seq fun _ => .seq fun _ => .andThen
    (.initFuture h) fun _ h' => h'

theorem State.Inv.trackFuture {q ctx : Nat} {fut : Dword} (h : s.Inv) : (s.trackFuture q ctx fut).Inv := by
  unfold State.trackFuture
  split
  · exact .packetWork h
  · split
    · exact .packetWork h
    · exact h

theorem Out.Inv.actCopy (h : s.Inv) : Out.Inv (execActCopy s) := by
  unfold Machine.execActCopy
  refine .onAction ?_ h
  intro _ _
  split
  · trivial
  · rename_i he'
    have h' := OkInv.of_eq (.queueCopy h) he'
    exact .addCopy (.trackFuture h')

theorem OkInv.queueRfb {x : Queue} (h : s.Inv) : OkInv id (s.queueRfb x) := by
  unfold State.queueRfb
  exact .seq fun _ => .seq fun _ => .initFuture h

theorem Out.Inv.actRfb (h : s.Inv) : Out.Inv (execActRfb s) := by
  unfold Machine.execActRfb
  refine .onAction ?_ h
  intro _ _
  split
  · trivial
  · rename_i he'
    have h' := OkInv.of_eq (.queueRfb h) he'
    exact .addRfb (.trackFuture h')

theorem Out.Inv.actChain (h : s.Inv) : Out.Inv (execActChain s) := by
  unfold Machine.execActChain
  refine .onAction ?_ h
  intro _ _
  dsimp only
  split
  · split <;> exact h
  · exact (State.sendFor_serves ..).inv h

theorem Out.Inv.taskPlace {die core : Nat} (h : s.Inv) : Out.Inv (execTaskPlace die core s) :=
  .getD (.placePool h) h

theorem State.Inv.entryLost {e0 : Option Nat} (h : s.Inv) : (s.entryLost e0).Inv := by
  unfold State.entryLost
  split
  · exact .endContext (.writeRecords ((State.postRecord_serves ..).inv h))
  · exact .stopDevice h

theorem Out.Inv.scrubUncorrectable {hbm : Option Nat} {entry : Option ArrayEntry} (h : s.Inv) :
    Out.Inv (execScrubUncorrectable hbm entry s) := by
  unfold Machine.execScrubUncorrectable
  extract_lets s₁
  have h₁ : s₁.Inv := h
  split
  · exact h₁
  · split
    · exact .entryLost h₁
    · exact h₁
  · exact .stopDevice h₁

theorem OkInv.loadProgram {func prog ctx : Nat} {va : Dword} (h : s.Inv) : OkInv Prod.fst (s.loadProgram func prog ctx va) := by
  unfold State.loadProgram
  refine .seq fun _ => ?_
  refine .seq fun _ => ?_
  split
  · trivial
  · dsimp only
    split
    · refine .seq fun _ => ?_
      split
      · trivial
      · split
        · trivial
        · exact .updCtx h
    · split
      · trivial
      · split
        · trivial
        · exact .updCtx h

theorem Out.Inv.load {func prog ctx : Nat} {va : Dword} (h : s.Inv) : Out.Inv (execLoad func prog ctx va s) :=
  .mailbox (.map (.loadProgram h) (fun _ h' => .of_eq h' rfl rfl rfl)) h

theorem OkInv.freeProgram {func prog ctx : Nat} (h : s.Inv) : OkInv Prod.fst (s.freeProgram func prog ctx) := by
  unfold State.freeProgram
  exact .seq fun _ => .seq fun _ => .updCtx h

theorem Out.Inv.free {func prog ctx : Nat} (h : s.Inv) : Out.Inv (execFree func prog ctx s) :=
  .mailbox (.freeProgram h) h

theorem State.Inv.newContext {ctx : Nat} {x : Ctx} (h : s.Inv) : (s.newContext ctx x).Inv :=
  h

theorem OkInv.createCtx {func ctx pa : Nat} (h : s.Inv) : OkInv Prod.fst (s.createCtx func ctx pa) := by
  unfold State.createCtx
  refine .seq fun _ => ?_
  split
  · trivial
  · split
    · exact .updFunc h
    · exact .newContext h

theorem Out.Inv.create {func ctx pa : Nat} (h : s.Inv) : Out.Inv (execCreate func ctx pa s) :=
  .mailbox (.createCtx h) h

theorem OkInv.destroyCtx {func ctx : Nat} (h : s.Inv) : OkInv Prod.fst (s.destroyCtx func ctx) := by
  unfold State.destroyCtx
  split
  · trivial
  · split
    · exact .endContext h
    · trivial

theorem Out.Inv.destroy {func ctx : Nat} (h : s.Inv) : Out.Inv (execDestroy func ctx s) :=
  .mailbox (.destroyCtx h) h

theorem OkInv.setCores {func ctx pa : Nat} (h : s.Inv) : OkInv Prod.fst (s.setCores func ctx pa) := by
  unfold State.setCores
  exact .seq fun _ => .seq fun _ => .seq fun _ => .seq fun _ => .seq fun _ => .updCtx h

theorem Out.Inv.setcores {func ctx pa : Nat} (h : s.Inv) : Out.Inv (execSetcores func ctx pa s) :=
  .mailbox (.setCores h) h

theorem State.Inv.stopCore {ctx k : Nat} (h : s.Inv) : (s.stopCore ctx k).Inv := by
  unfold State.stopCore
  exact .foldl (fun _ _ h' => .rewriteRecord h') (.updCtx (.updCore h))

theorem OkInv.preemptCores {func ctx pa : Nat} (h : s.Inv) : OkInv Prod.fst (s.preemptCores func ctx pa) := by
  unfold State.preemptCores
  exact .seq fun _ => .seq fun _ => .seq fun _ => .seq fun _ => .updCtx (.foldl (fun _ _ h' => .stopCore h') h)

theorem Out.Inv.preempt {func ctx pa : Nat} (h : s.Inv) : Out.Inv (execPreempt func ctx pa s) :=
  .mailbox (.preemptCores h) h

theorem OkInv.tlbInvalidate {func ctx : Nat} {va len : Dword} (h : s.Inv) : OkInv Prod.fst (s.tlbInvalidate func ctx va len) := by
  unfold State.tlbInvalidate
  exact .seq fun _ => h

theorem Out.Inv.tlbinv {func : Nat} {va : Dword} {ctx : Nat} {len : Dword} (h : s.Inv) : Out.Inv (execTlbinv func va ctx len s) :=
  .mailbox (.tlbInvalidate h) h

theorem State.Inv.failMatrixFault {k e : Nat} {m : MCmd} {f : FidEnt} (h : s.Inv) : (s.failMatrixFault k e m f).Inv := by
  unfold State.failMatrixFault
  split
  · exact .drainFails h
  · exact h

theorem State.Inv.failDescentFault {k : Nat} {m : DCmd} {f : FidEnt} (h : s.Inv) : (s.failDescentFault k m f).Inv := by
  unfold State.failDescentFault
  split
  · exact .descentFails h
  · exact .gradFails h

theorem State.Inv.failSavedDescent {k : Task} {m : DCmd} {f : FidEnt} (h : s.Inv) : (s.failSavedDescent k m f).Inv := by
  unfold State.failSavedDescent
  exact (State.commandFails_serves ..).inv (.updTask h)

theorem State.Inv.failRfbFault {die : Nat} {b : Rfb} (h : s.Inv) : (s.failRfbFault die b).Inv := by
  unfold State.failRfbFault
  split
  · exact .failRfb h
  · exact .failRfb h
  · exact .putRfb h
  · exact .failRfb h

theorem State.Inv.takeUpdates {ctx fid : Nat} (h : s.Inv) : (s.takeUpdates ctx fid).2.Inv := by
  unfold State.takeUpdates
  exact .updCtx h

theorem State.Inv.failFault {ctx : Nat} {f : FidEnt} (h : s.Inv) : (s.failFault ctx f).Inv := by
  unfold State.failFault
  extract_lets fid ts s₁ s₂ s₃ s₄ s₅ s₆ s₇ s₈ ups s₉
  have h₁ : s₁.Inv := by
    dsimp only [s₁]
    refine .foldl ?_ h
    intro _ _ h'
    split
    · split
      · exact .raise (.tallyTrap (.updThread h'))
      · exact h'
    · exact h'
  have h₂ : s₂.Inv := .foldl (fun _ _ h' => .failCopy h') h₁
  have h₃ : s₃.Inv := .foldl (fun _ _ h' => (State.copyFails_serves ..).inv h') h₂
  have h₄ : s₄.Inv := .foldl (fun _ _ h' => .failMatrixFault h') h₃
  have h₅ : s₅.Inv := .foldl (fun _ _ h' => .ite (.failDescentFault h') h') h₄
  have h₆ : s₆.Inv := by
    dsimp only [s₆]
    refine .foldl ?_ h₅
    intro _ _ h'
    split
    · exact .ite (.failSavedDescent h') h'
    · exact h'
  have h₇ : s₇.Inv := .foldl (fun _ _ h' => .foldl (fun _ _ h₇ => .failRfbFault h₇) h') h₆
  have h₈ : s₈.Inv := .foldl (fun _ _ h' => .faultQueue h') h₇
  have hups : ups.2.Inv := by
    dsimp only [ups]
    exact .takeUpdates h₈
  have h₉ : s₉.Inv := .foldl (fun _ _ h' => (State.postRecord_serves ..).inv h') hups
  exact .foldl (fun _ _ h' => .rmaFails h') h₉

theorem State.Inv.retryThread {t : Thread} (h : s.Inv) : (s.retryThread t).Inv := by
  unfold State.retryThread
  exact .ite (.condDone h) (.ite (.resendOne (.updThread h)) (.updThread h))

theorem State.Inv.retryWork {ctx fid : Nat} (h : s.Inv) : (s.retryWork ctx fid).Inv :=
  h

theorem State.Inv.retryFault {ctx fid : Nat} (h : s.Inv) : (s.retryFault ctx fid).Inv := by
  unfold State.retryFault
  exact .foldl (fun _ _ h' => .rmaGo (.updRma h')) (.foldl (fun _ _ h' => (State.devUpdate_serves ..).inv h') (.takeUpdates
    (.retryWork (.foldl (fun _ _ h' => .retryThread h') h))))

theorem OkInv.resolveFault {func : Option Nat} {fid ctx : Nat} {fail : Bool} (h : s.Inv) :
    OkInv Prod.fst (s.resolveFault func fid ctx fail) := by
  unfold State.resolveFault
  split
  · trivial
  · refine .seq fun _ => ?_
    split
    · trivial
    · exact .endAdoptions (.ite (.failFault (.updCtx h)) (.retryFault (.updCtx h)))

theorem Out.Inv.resolve {func : Option Nat} {fid ctx : Nat} {fail : Bool} (h : s.Inv) :
    Out.Inv (execResolve func fid ctx fail s) := by
  unfold Machine.execResolve
  split
  · exact .mailbox (.resolveFault h) h
  · split
    · rename_i he'
      have h' := OkInv.of_eq (.resolveFault h) he'
      split
      · exact h'
      · exact h
    · exact h

theorem OkInv.fwBegin {func addr len : Nat} (h : s.Inv) : OkInv Prod.fst (s.fwBegin func addr len) := by
  unfold State.fwBegin
  exact .seq fun _ => .seq fun _ => h

theorem Out.Inv.fwwrite {func addr len : Nat} (h : s.Inv) : Out.Inv (execFwwrite func addr len s) :=
  .mailbox (.fwBegin h) h

theorem OkInv.fwActivate {func : Nat} (h : s.Inv) : OkInv Prod.fst (s.fwActivate func) := by
  unfold State.fwActivate
  exact .seq fun _ => .seq fun _ => h

theorem Out.Inv.fwactivate {func : Nat} (h : s.Inv) : Out.Inv (execFwactivate func s) :=
  .mailbox (.fwActivate h) h

theorem OkInv.addExport {func ctx pa : Nat} (h : s.Inv) : OkInv Prod.fst (s.addExport func ctx pa) := by
  unfold State.addExport
  refine .seq fun _ => ?_
  refine .seq fun _ => ?_
  split
  · trivial
  · exact .seq fun _ => h

theorem Out.Inv.exportCtx {func ctx pa : Nat} (h : s.Inv) : Out.Inv (execExportCtx func ctx pa s) :=
  .mailbox (.addExport h) h

theorem OkInv.dropExport {func num ctx : Nat} (h : s.Inv) : OkInv Prod.fst (s.dropExport func num ctx) := by
  unfold State.dropExport
  exact .seq fun _ => .seq fun _ => h

theorem Out.Inv.unexportCtx {func num ctx : Nat} (h : s.Inv) : Out.Inv (execUnexportCtx func num ctx s) :=
  .mailbox (.dropExport h) h

theorem State.Inv.leaveDebugger {a : Actor} (h : s.Inv) : (s.leaveDebugger a).Inv := by
  unfold State.leaveDebugger
  extract_lets ts inH ending s₁ tids s₂
  have h₁ : s₁.Inv := .foldl (fun _ _ h' => .endTask ((State.postRecord_serves ..).inv h')) h
  have h₂ : s₂.Inv := .updThreads h₁
  split
  · exact h₂
  · split
    · exact h₂
    · split
      · exact .nextHandler h₂
      · exact .enterHandler h₂

theorem OkInv.debugAttach {func ctx : Nat} {on : Bool} (h : s.Inv) : OkInv Prod.fst (s.debugAttach func ctx on) := by
  unfold State.debugAttach
  exact .seq fun _ => .ite (.updCtx h) (.endAdoptions (.foldl (fun _ _ h' => .leaveDebugger h') (.updCtx h)))

theorem Out.Inv.attach {func ctx : Nat} {on : Bool} (h : s.Inv) : Out.Inv (execAttach func ctx on s) :=
  .mailbox (.debugAttach h) h

theorem State.Inv.resumeContext {ctx : Nat} (h : s.Inv) : (s.resumeContext ctx).Inv :=
  h

theorem OkInv.debugStop {func ctx : Nat} {on : Bool} (h : s.Inv) : OkInv Prod.fst (s.debugStop func ctx on) := by
  unfold State.debugStop
  exact .seq fun _ => .ite (.haltContext (.updCtx h)) (.resumeContext (.updCtx h))

theorem Out.Inv.stopctx {func ctx : Nat} {on : Bool} (h : s.Inv) : Out.Inv (execStopctx func ctx on s) :=
  .mailbox (.debugStop h) h

theorem OkInv.debugResumeAt {func ctx : Nat} {pl : DbgPlace} {next : Bool} (h : s.Inv) :
    OkInv Prod.fst (s.debugResumeAt func ctx pl next) := by
  unfold State.debugResumeAt
  refine .seq fun _ => ?_
  split
  · trivial
  · refine .seq fun _ => ?_
    dsimp only
    split
    · exact .endAdoptions (.raise (.tallyTrap h))
    · exact .ite (.resumeContext (.splitAfter (.trapReturn h))) (.splitAfter (.trapReturn h))

theorem Out.Inv.debugResume {func ctx : Nat} {pl : DbgPlace} {next : Bool} (h : s.Inv) :
    Out.Inv (execDebugResume func ctx pl next s) :=
  .mailbox (.debugResumeAt h) h

theorem OkInv.writeBp {func ctx idx : Nat} {val : Dword} (h : s.Inv) : OkInv Prod.fst (s.writeBp func ctx idx val) := by
  unfold State.writeBp
  exact .seq fun _ => .seq fun _ => .updCtx h

theorem Out.Inv.wrbp {func ctx idx : Nat} {val : Dword} (h : s.Inv) : Out.Inv (execWrbp func ctx idx val s) :=
  .mailbox (.writeBp h) h

theorem OkInv.readFrame {func ctx : Nat} {pl : DbgPlace} {pa : Nat} (h : s.Inv) :
    OkInv Prod.fst (s.readFrame func ctx pl pa) := by
  unfold State.readFrame
  exact .seq fun _ => .seq fun _ => State.putMem_inv _ _ h

theorem Out.Inv.rdframe {func ctx : Nat} {pl : DbgPlace} {pa : Nat} (h : s.Inv) : Out.Inv (execRdframe func ctx pl pa s) :=
  .mailbox (.readFrame h) h

theorem OkInv.readThread {func ctx : Nat} {pl : DbgPlace} {pa : Nat} (h : s.Inv) :
    OkInv Prod.fst (s.readThread func ctx pl pa) := by
  unfold State.readThread
  exact .seq fun _ => .seq fun _ => State.putMem_inv _ _ h

theorem Out.Inv.rdstate {func ctx : Nat} {pl : DbgPlace} {pa : Nat} (h : s.Inv) : Out.Inv (execRdstate func ctx pl pa s) :=
  .mailbox (.readThread h) h

theorem OkInv.writeThread {func ctx : Nat} {pl : DbgPlace} {pa : Nat} (h : s.Inv) :
    OkInv Prod.fst (s.writeThread func ctx pl pa) := by
  unfold State.writeThread
  refine .seq fun _ => ?_
  dsimp only
  refine .seq fun _ => ?_
  split
  · trivial
  · exact .updThread h

theorem Out.Inv.wrstate {func ctx : Nat} {pl : DbgPlace} {pa : Nat} (h : s.Inv) : Out.Inv (execWrstate func ctx pl pa s) :=
  .mailbox (.writeThread h) h

theorem Out.Inv.functionLevelReset {func : Nat} (h : s.Inv) : Out.Inv (execFunctionLevelReset func s) := by
  unfold Machine.execFunctionLevelReset
  split
  · exact h
  · exact .updFunc h

theorem Out.Inv.throttleLevel {level : Nat} (h : s.Inv) : Out.Inv (execThrottleLevel level s) := by
  unfold Machine.execThrottleLevel
  split <;> exact h

theorem Out.Inv.kick {func q : Nat} {val : Dword} (h : s.Inv) : Out.Inv (execKick func q val s) := by
  unfold Machine.execKick
  split
  · exact State.Inv.kick h
  · exact h

theorem State.Inv.writeNet {off : Nat} {v : Dword} (h : s.Inv) : (s.writeNet off v).Inv := by
  unfold State.writeNet
  exact .ite h (.ite (.ite h h) (.ite h (.ite h (.ite h (.ite h h)))))

theorem Out.Inv.debugCommand {func ctx : Nat} {a0 a2 : Dword} (h : s.Inv) : Out.Inv (s.debugCommand func ctx a0 a2) := by
  unfold State.debugCommand
  extract_lets pl bad
  have hbad : bad.Inv := .mailbox trivial h
  split
  · exact hbad
  · split
    · exact .attach h
    · exact .stopctx h
    · exact .debugResume h
    · exact .wrbp h
    · exact .rdframe h
    · exact .rdstate h
    · exact .wrstate h
    · exact hbad

theorem Out.Inv.mailboxCommand {func op : Nat} (h : s.Inv) : Out.Inv (s.mailboxCommand func op) := by
  unfold State.mailboxCommand
  dsimp only
  split
  · exact .load h
  · exact .free h
  · exact .create h
  · exact .destroy h
  · exact .setcores h
  · exact .preempt h
  · exact .tlbinv h
  · split
    · exact .mailbox trivial h
    · exact .resolve h
  · exact .fwwrite h
  · exact .fwactivate h
  · exact .exportCtx h
  · exact .unexportCtx h
  · exact .debugCommand h
  · exact .mailbox trivial h

theorem Out.Inv.writeMailbox {func off : Nat} {v : Dword} (h : s.Inv) : Out.Inv (s.writeMailbox func off v) := by
  unfold State.writeMailbox
  split
  · exact .mailboxCommand h
  · exact .updFunc h
  · exact .updFunc h
  · exact .updFunc h
  · exact h

theorem Out.Inv.sigwaitArm {func idx : Nat} (h : s.Inv) : Out.Inv (execSigwaitArm func idx s) := by
  unfold Machine.execSigwaitArm
  dsimp only
  split
  · exact h
  · split
    · split
      · exact .testSig (.updFunc h)
      · exact h
    · exact h

theorem Out.Inv.writeSig {func idx i : Nat} {v : Dword} (h : s.Inv) : Out.Inv (s.writeSig func idx i v) := by
  unfold State.writeSig
  dsimp only
  split
  · split
    · exact .sigwaitArm (.updFunc h)
    · exact .updFunc h
  · exact .updFunc h
  · exact .updFunc h
  · exact .updFunc h

theorem Out.Inv.queueResume {func q : Nat} (h : s.Inv) : Out.Inv (execQueueResume func q s) := by
  unfold Machine.execQueueResume
  split
  · exact .updQueue h
  · exact h

theorem Out.Inv.queueEnable {func q : Nat} (h : s.Inv) : Out.Inv (execQueueEnable func q s) := by
  unfold Machine.execQueueEnable
  dsimp only
  split
  · exact h
  · split <;> exact .updQueue h

theorem Out.Inv.queueDisable {func q : Nat} (h : s.Inv) : Out.Inv (execQueueDisable func q s) := by
  unfold Machine.execQueueDisable
  split
  · exact .updQueue h
  · exact h

theorem Out.Inv.writeQueue {func q i : Nat} {v : Dword} (h : s.Inv) : Out.Inv (s.writeQueue func q i v) := by
  unfold State.writeQueue
  split
  · exact h
  · split
    · split
      · split
        · split
          · exact .queueResume h
          · exact h
        · exact .queueEnable h
      · exact .queueDisable h
    · exact .updQueue h

theorem State.Inv.closedAccess {a : HostAccess} (h : s.Inv) : (s.closedAccess a).Inv := by
  unfold State.closedAccess
  split <;> exact h

theorem State.Inv.hostByte {pa : Nat} (h : s.Inv) : (s.hostByte pa).2.Inv := by
  unfold State.hostByte
  split
  · exact h
  · split
    · extract_lets r
      have hr : r.2.Inv := by
        dsimp only [r]
        exact .freshBits h
      exact hr
    · exact h

theorem State.Inv.directByte {pa : Nat} (h : s.Inv) : (s.directByte pa).2.Inv := by
  unfold State.directByte
  split
  · exact h
  · split
    · extract_lets r
      have hr : r.2.Inv := by
        dsimp only [r]
        exact .freshBits h
      exact hr
    · exact .hostByte h

theorem Out.Inv.pftPut {src : PftPeer} {seq exp off : Nat} {data : List Byte} (h : s.Inv) :
    Out.Inv (execPftPut src seq exp off data s) :=
  .receive h

theorem Out.Inv.pftGetRequest {src : PftPeer} {seq op exp off len : Nat} (h : s.Inv) :
    Out.Inv (execPftGetRequest src seq op exp off len s) :=
  .receive h

theorem Out.Inv.pftGetResponse {node seq op off : Nat} {data : List Byte} (h : s.Inv) :
    Out.Inv (execPftGetResponse node seq op off data s) :=
  .receive h

theorem Out.Inv.pftFlag {src : PftPeer} {seq exp off : Nat} {add : Bool} {val : Dword} (h : s.Inv) :
    Out.Inv (execPftFlag src seq exp off add val s) :=
  .receive h

theorem Out.Inv.pftShipRequest {src : PftPeer} {seq op exp off : Nat} {entry lock : Dword} {kind m : Nat} {task : Word}
    {args : List Word} (h : s.Inv) : Out.Inv (execPftShipRequest src seq op exp off entry lock kind m task args s) :=
  .receive h

theorem Out.Inv.pftShipResult {node seq op : Nat} {ok : Bool} {out : SectionEnd} {results : List Word} (h : s.Inv) :
    Out.Inv (execPftShipResult node seq op ok out results s) :=
  .receive h

theorem Out.Inv.pftSignal {src : PftPeer} {seq exp off queue : Nat} {val : Dword} {cond : Nat} {fire : Bool} (h : s.Inv) :
    Out.Inv (execPftSignal src seq exp off queue val cond fire s) :=
  .receive h

theorem Out.Inv.pftChainRegister {node seq remoteQueue queue : Nat} {count : Word} (h : s.Inv) :
    Out.Inv (execPftChainRegister node seq remoteQueue queue count s) :=
  .receive h

theorem Out.Inv.pftChainNotify {node seq : Nat} {chain : ChainRef} {count : Word} (h : s.Inv) :
    Out.Inv (execPftChainNotify node seq chain count s) :=
  .receive h

theorem State.Inv.retire {node seq : Nat} (h : s.Inv) : (s.retire node seq).Inv :=
  h

theorem State.Inv.takenBack {node op : Nat} (h : s.Inv) : (s.takenBack node op).Inv := by
  unfold State.takenBack
  split
  · extract_lets s₁
    have h₁ : s₁.Inv := .shipAnswered h
    split
    · split
      · exact .ite (.shipWaitEnds h₁) h₁
      · exact .endAdoptions (.updThread h₁)
    · exact h₁
  · exact .shipAnswered h

theorem State.Inv.shipAnswer {node op : Nat} {accepted : Bool} (h : s.Inv) : (s.shipAnswer node op accepted).Inv := by
  unfold State.shipAnswer
  split
  · exact .ite (.shipIssued h) (.ite (.takenBack h) (.shipRefused h))
  · exact h

theorem State.Inv.acked {node seq : Nat} (h : s.Inv) : (s.acked node seq).Inv := by
  unfold State.acked
  split
  · exact h
  · extract_lets s₁
    have h₁ : s₁.Inv := .retire h
    split
    · split
      · exact .rmaPartDone h₁
      · split
        · exact .netDone h₁
        · exact h₁
    · exact .shipAnswer h₁
    · exact .ite (.takenBack h₁) h₁
    · exact h₁

theorem Out.Inv.pftAck {node : Nat} {seqs : List Nat} (h : s.Inv) : Out.Inv (execPftAck node seqs s) :=
  .foldl (fun _ _ h' => .acked h') ((State.tallyIo_serves ..).inv h)

theorem State.Inv.msgRefused {node : Nat} {o : OutMsg} (h : s.Inv) : (s.msgRefused node o).Inv := by
  unfold State.msgRefused
  dsimp only
  split
  · split
    · exact .rmaFails h
    · split
      · exact .endAdoptions ((State.copyFails_serves ..).inv h)
      · exact h
  · split
    · exact .rmaFails h
    · split
      · exact .endAdoptions ((State.copyFails_serves ..).inv h)
      · exact h
  · split
    · exact (State.postRecord_serves ..).inv h
    · exact h
  · exact .applyResult h
  · split
    · exact .shipAnswer (.retire h)
    · exact h
  · exact .ite (.rejectPacket h) h
  · exact h

theorem State.Inv.answered {o : OutMsg} (h : s.Inv) : (s.answered o).Inv :=
  h

theorem State.Inv.resend {o : OutMsg} (h : s.Inv) : (s.resend o).Inv := by
  unfold State.resend
  exact (State.tallySent_serves ..).inv h

theorem Out.Inv.pftNack {node seq : Nat} {refused : Bool} (h : s.Inv) : Out.Inv (execPftNack node seq refused s) := by
  unfold Machine.execPftNack
  extract_lets s₁
  have h₁ : s₁.Inv := (State.tallyIo_serves ..).inv h
  split
  · exact h₁
  · split
    · exact .msgRefused (.retire h₁)
    · split
      · exact .shipAnswer (.answered h₁)
      · exact .resend h₁

theorem State.Inv.losePeer {node : Nat} (h : s.Inv) : (s.losePeer node).Inv := by
  unfold State.losePeer
  dsimp only
  refine .foldl (fun _ _ h' => .faultQueue h') ?_
  refine .foldl ?_ (.endAdoptions (.foldl (fun _ _ h' => (State.copyFails_serves ..).inv h') (.foldl (fun _ _ h' =>
    .rmaFails h') h)))
  intro _ _ h'
  split
  · exact .shipIssued h'
  · exact .shipOutcome h'

theorem Out.Inv.pftRetransmit {node seq : Nat} (h : s.Inv) : Out.Inv (execPftRetransmit node seq s) := by
  unfold Machine.execPftRetransmit
  split
  · exact h
  · split
    · exact h
    · split
      · exact .resend h
      · exact .losePeer h

theorem State.Inv.nextWindow (h : s.Inv) : s.nextWindow.Inv :=
  h

theorem State.Inv.takeHealth {r : WindowReading} (h : s.Inv) : (s.takeHealth r).Inv :=
  h

theorem State.Inv.takeSnapshot (h : s.Inv) : s.takeSnapshot.Inv :=
  h

theorem State.Inv.createPending (h : s.Inv) : s.createPending.Inv := by
  unfold State.createPending
  refine .foldl ?_ h
  intro _ _ h'
  split
  · exact .ite h' (.ite (.setStat (.updFunc h')) (.setStat (.newContext (.updFunc h'))))
  · exact h'

theorem Out.Inv.reconciliationWindow {r : WindowReading} (h : s.Inv) : Out.Inv (execReconciliationWindow r s) := by
  unfold Machine.execReconciliationWindow
  split
  · exact .nextWindow (.takeHealth (.takeSnapshot (.createPending (.settleWindow h))))
  · exact h

theorem Out.Inv.getUsageHeader (h : s.Inv) : Out.Inv (execGetUsageHeader s) :=
  .answer h

theorem Out.Inv.getUsage {first count : Nat} (h : s.Inv) : Out.Inv (execGetUsage first count s) :=
  .answer h

theorem Out.Inv.getHealth (h : s.Inv) : Out.Inv (execGetHealth s) :=
  .answer h

theorem Out.Inv.getVersion (h : s.Inv) : Out.Inv (execGetVersion s) :=
  .spdmAnswer h

theorem Out.Inv.getCapabilities (h : s.Inv) : Out.Inv (execGetCapabilities s) :=
  .spdmAnswer h

theorem Out.Inv.negotiateAlgorithms (h : s.Inv) : Out.Inv (execNegotiateAlgorithms s) :=
  .spdmAnswer h

theorem Out.Inv.getDigests (h : s.Inv) : Out.Inv (execGetDigests s) :=
  .spdmAnswer h

theorem Out.Inv.getCertificate {slot off len : Nat} (h : s.Inv) : Out.Inv (execGetCertificate slot off len s) := by
  unfold Machine.execGetCertificate
  dsimp only
  split <;> exact .spdmAnswer h

theorem Out.Inv.challenge {nonce : List Byte} (h : s.Inv) : Out.Inv (execChallenge nonce s) :=
  .spdmAnswer h

theorem Out.Inv.getMeasurements {index : Nat} {nonce : List Byte} (h : s.Inv) : Out.Inv (execGetMeasurements index nonce s) := by
  unfold Machine.execGetMeasurements
  dsimp only
  split
  · split <;> exact .spdmAnswer h
  · split <;> split <;> exact .spdmAnswer h

theorem Out.Inv.ptpEnable {time : Dword} (h : s.Inv) : Out.Inv (execPtpEnable time s) := by
  unfold Machine.execPtpEnable
  split
  · exact h
  · dsimp only
    split <;> exact h

theorem Out.Inv.hostSnoop {line : Nat} {inv : Bool} (h : s.Inv) : Out.Inv (execHostSnoop line inv s) :=
  .ite (.dropSectors (.writeBack h)) (.writeBack h)

theorem Out.Inv.ptpMessage {port : Nat} {offset : ℤ} {best : Bool} (h : s.Inv) : Out.Inv (execPtpMessage port offset best s) := by
  unfold Machine.execPtpMessage
  split <;> exact h

theorem Out.Inv.configurationRequest {_port : Nat} (h : s.Inv) : Out.Inv (execConfigurationRequest _port s) := by
  unfold Machine.execConfigurationRequest
  split <;> exact h

theorem Out.Inv.serviceFirmwareDecline {ctx seq : Nat} (h : s.Inv) : Out.Inv (execServiceFirmwareDecline ctx seq s) :=
  .claimToHost h

theorem State.Inv.loseAll (h : s.Inv) : s.loseAll.Inv := ⟨SMap.filter_wf _ h.1, rfl, rfl⟩

theorem State.Inv.readBytes {f : State → Nat → Byte × State} {pa n : Nat} (hf : ∀ s k, s.Inv → (f s k).2.Inv)
    (h : s.Inv) : (s.readBytes f pa n).2.Inv := by
  induction n generalizing s pa with
  | zero => exact h
  | succ n ih => exact ih (hf s pa h)

theorem State.Inv.homeAccess {pa : Nat} {a : HostAccess} (h : s.Inv) : (s.homeAccess pa a).Inv := by
  unfold State.homeAccess
  split
  · exact State.putMem_inv _ _ h
  · exact .of_eq (.readBytes (fun _ _ h => .hostByte h) h) rfl rfl rfl

theorem Out.Inv.hostDirectAccess {acc : HostAccess} (h : s.Inv) : Out.Inv (execHostDirectAccess acc s) := by
  unfold execHostDirectAccess
  split
  · exact State.Inv.closedAccess h
  · split
    · extract_lets pa
      split
      · exact h
      · exact State.Inv.of_eq (.readBytes (fun _ _ h => .directByte h) h) rfl rfl rfl
    · exact h

theorem Action.Inv.launch {q : Nat} {x : Queue} (h : s.Inv) : Action.Inv (s.launch q x) := by
  -- the raw number stays a name: its powers are not to be evaluated
  obtain ⟨raw, hraw⟩ : ∃ raw, ((List.range 8).map fun i => (x.stage i).toNat * 2 ^ (64 * i)).sum = raw := ⟨_, rfl⟩
  unfold State.launch
  rw [hraw]
  extract_lets entry fut num
  split
  · trivial
  · split
    · trivial
    · trivial
    · split
      · trivial
      · split
        · trivial
        · extract_lets w rs
          have hrs : rs.2.Inv := .addSet (.packetWork (.freshRecord h))
          split
          · trivial
          · rename_i he
            have h' := SomeInv.of_eq (.placeLaunch hrs) he
            exact State.Inv.ite h' ((State.putFor_serves ..).inv h')

theorem Out.Inv.ite {c : Prop} [Decidable c] {a b : Out} (ha : Out.Inv a) (hb : Out.Inv b) : Out.Inv (if c then a else b) := by
  split
  · exact ha
  · exact hb

theorem Out.Inv.registerWrite {func bar off : Nat} {val : Dword} (h : s.Inv) :
    Out.Inv (execRegisterWrite func bar off val s) := by
  unfold execRegisterWrite
  extract_lets up
  refine .ite h (.ite (.ite (.kick h) h) (.ite (.ite (State.Inv.writeNet h) h) (.ite h (.ite ?_ (.ite (.ite ?_ h)
    (.ite h (.ite ?_ (.ite (State.Inv.updFunc h) (.ite (State.Inv.updFunc h) (.ite ?_ h))))))))))
  · split
    · exact .writeGlobal h
    · exact h
  · generalize off - 0x10000 = n
    exact .writeMailbox h
  · generalize off - 0x20000 = n
    exact .writeSig h
  · generalize off - 0x400000 = n
    exact .writeQueue h

theorem Out.Inv.bind {hdr : Hdr} {n1 : BitVec 5} {a : GReg} (h : s.Inv) : Out.Inv (execBind hdr n1 a s) := by
  unfold Machine.execBind
  refine .runThreads ?_ h
  intro _ _ h'
  split
  · exact h'
  · exact .bind h'

theorem Out.Inv.actLaunch (h : s.Inv) : Out.Inv (execActLaunch s) :=
  .onAction (fun _ _ => .launch h) h

theorem Out.Inv.coldReset (h : s.Inv) : Out.Inv (execColdReset s) :=
  .of_eq (.loseAll h) rfl rfl rfl

theorem Out.Inv.thermalTrip (h : s.Inv) : Out.Inv (execThermalTrip s) :=
  .loseAll h

theorem Out.Inv.hostCoherentAccess {acc : HostAccess} (h : s.Inv) : Out.Inv (execHostCoherentAccess acc s) := by
  unfold Machine.execHostCoherentAccess
  split
  · exact .closedAccess h
  · split
    · exact .homeAccess h
    · exact h

theorem Out.Inv.cxlMemAccess {acc : HostAccess} (h : s.Inv) : Out.Inv (execCxlMemAccess acc s) := by
  unfold Machine.execCxlMemAccess
  split
  · exact .homeAccess h
  · exact h

theorem Out.Inv.powerGoodLoss (h : s.Inv) : Out.Inv (execPowerGoodLoss s) :=
  .of_eq (.loseAll h) rfl rfl rfl

end Sys2Proof.Machine
end

section
/-! Every instruction and event, every move, and so every step keeps the canonical form of the memories. -/

namespace Sys2Proof.Machine

variable {s : State}

theorem Out.Inv.exec {i : Instr} (h : s.Inv) : Out.Inv (exec i s) := by
  cases i with
  | iadd | isub => exact .runI32Flag h
  | imul | imulh | imad | imin | imax | iabs | iaddImm | andImm | orImm | xorImm | and | or | xor | andn | shl | shr | sar
  | rot | shlImm | shrImm | sarImm | rotImm | popc | clz | ctz | brev | bfe | bfi | pmovGet => exact .runI32 h
  | iadd64 | isub64 => exact .runI64Flag h
  | shl64 | shr64 | lea => exact .runI64 h
  | perm | sel | mov | movi | movhi | naddr | icmp | icmp64 | pset | pmovPut | cvt | pack | unpack | qscale | fmtset | fmtget
  | nop | yield | fadd | fmul | ffma | fmin | fmax | fcmp | fadd64 | fmul64 | ffma64 | fmin64 | fmax64 | fcmp64 | hadd2
  | hmul2 | hfma2 | dot4 | dot8 | frcp | frsq | fsqrt | fexp2 | flog2 | fsin | fcos | ftanh | fence | ifence => exact .runReg h
  | bra => exact .bra h
  | brx => exact .brx h
  | call => exact .call h
  | callx => exact .callx h
  | ret => exact .ret h
  | exit => exact .exit h
  | mset => exact .mset h
  | meet => exact .meet h
  | longLatencyResult => exact .longLatencyResult h
  | bind => exact .bind h
  | unbind => exact .unbind h
  | part => exact .part h
  | vote => exact .vote h
  | shfl => exact .shfl h
  | gshfl => exact .gshfl h
  | sbcast => exact .sbcast h
  | smovRead => exact .smovRead h
  | smovWrite => exact .smovWrite h
  | reduce => exact .reduce h
  | scan => exact .scan h
  | gbar => exact .gbar h
  | gfence => exact .gfence h
  | ld => exact .ld h
  | st => exact .st h
  | lds => exact .lds h
  | sts => exact .sts h
  | ldl => exact .ldl h
  | stl => exact .stl h
  | lda => exact .lda h
  | ldaLand => exact .ldaLand h
  | wtag => exact .wtag h
  | atom => exact .atom h
  | red => exact .red h
  | atomScratchpad => exact .atomScratchpad h
  | redScratchpad => exact .redScratchpad h
  | pref => exact .pref h
  | cwb => exact .cwb h
  | cinv => exact .cinv h
  | spawn => exact .spawn h
  | wait => exact .wait h
  | fset => exact .fset h
  | fsetFault => exact .fsetFault h
  | fsetCancel => exact .fsetCancel h
  | fnew => exact .fnew h
  | join => exact .join h
  | leave => exact .leave h
  | bar => exact .bar h
  | fsetBit => exact .fsetBit h
  | waitBit => exact .waitBit h
  | shipW => exact .shipW h
  | shipC => exact .shipC h
  | shipO => exact .shipO h
  | sret => exact .sret h
  | qpush => exact .qpush h
  | qpushRsv => exact .qpushRsv h
  | qpop => exact .qpop h
  | qpopMin => exact .qpopMin h
  | accAlloc => exact .accAlloc h
  | accFree => exact .accFree h
  | accLend => exact .accLend h
  | accZero => exact .accZero h
  | accLd => exact .accLd h
  | accRd => exact .accRd h
  | mma => exact .mma h
  | mmas => exact .mmas h
  | accDrain => exact .accDrain h
  | matrixCommandRun => exact .matrixCommandRun h
  | drainRun => exact .drainRun h
  | bcpy => exact .bcpy h
  | bulkCopySector => exact .bulkCopySector h
  | ringEntryTake => exact .ringEntryTake h
  | rcfg => exact .rcfg h
  | rcfgGet => exact .rcfgGet h
  | rpush => exact .rpush h
  | rpop => exact .rpop h
  | dscCfg => exact .dscCfg h
  | dscRun => exact .dscRun h
  | dscLevel => exact .dscLevel h
  | dscPath => exact .dscPath h
  | dscGrad => exact .dscGrad h
  | dscGradRun => exact .dscGradRun h
  | rfbStart => exact .rfbStart h
  | rfbBlockStart => exact .rfbBlockStart h
  | rfbStepDone => exact .rfbStepDone h
  | rfbStat => exact .rfbStat h
  | rfbAbort => exact .rfbAbort h
  | rmaPut => exact .rmaPut h
  | rmaGet => exact .rmaGet h
  | rmaFlag => exact .rmaFlag h
  | srd => exact .srd h
  | swr => exact .swr h
  | trap => exact .trap h
  | tret => exact .tret h
  | bpt => exact .bpt h
  | icinv => exact .icinv h
  | clk => exact .clk h
  | perfRd => exact .perfRd h
  | perfCfg => exact .perfCfg h
  | unassignedOpcode => exact .unassignedOpcode h
  | qpPkt | qpMovi | qpShli | qpShri | qpAdd | qpAnd | qpOr | qpBeq | qpBne | qpBltu | qpLoop | qpEndl
  | qpStg => exact .runQueue h
  | qpLdw => exact .qpLdw h
  | qpStw => exact .qpStw h
  | qpEnd => exact .qpEnd h
  | actNop => exact .actNop h
  | actLaunch => exact .actLaunch h
  | actSignal => exact .actSignal h
  | actWaitsig => exact .actWaitsig h
  | actCopy => exact .actCopy h
  | actRfb => exact .actRfb h
  | actChain => exact .actChain h
  | threadWake => exact .threadWake h
  | waitTimeout => exact .waitTimeout h
  | taskAdmit => exact .taskAdmit h
  | heldAdmission => exact .heldAdmission h
  | gangBoundExpiry => exact .gangBoundExpiry h
  | taskSteal => exact .taskSteal h
  | spillRefill => exact .spillRefill h
  | taskPlace => exact .taskPlace h
  | shipArrival => exact .shipArrival h
  | shipGrant => exact .shipGrant h
  | sectionStart => exact .sectionStart h
  | sectionTimeLimit => exact .sectionTimeLimit h
  | preemptSave => exact .preemptSave h
  | faultRecordWrite => exact .faultRecordWrite h
  | routingTimeout => exact .routingTimeout h
  | scrubUncorrectable => exact .scrubUncorrectable h
  | load => exact .load h
  | free => exact .free h
  | create => exact .create h
  | destroy => exact .destroy h
  | setcores => exact .setcores h
  | preempt => exact .preempt h
  | tlbinv => exact .tlbinv h
  | resolve => exact .resolve h
  | fwwrite => exact .fwwrite h
  | fwactivate => exact .fwactivate h
  | exportCtx => exact .exportCtx h
  | unexportCtx => exact .unexportCtx h
  | attach => exact .attach h
  | stopctx => exact .stopctx h
  | debugResume => exact .debugResume h
  | wrbp => exact .wrbp h
  | rdframe => exact .rdframe h
  | rdstate => exact .rdstate h
  | wrstate => exact .wrstate h
  | semtas => exact .semtas h
  | semrel => exact .semrel h
  | semaphoreLeaseExpiry => exact .semaphoreLeaseExpiry h
  | reset => exact .reset h
  | coldReset => exact .coldReset h
  | functionLevelReset => exact .functionLevelReset h
  | powerlim => exact .powerlim h
  | throttleLevel => exact .throttleLevel h
  | thermalTrip => exact .thermalTrip h
  | eventCounterControl => exact .eventCounterControl h
  | registerWrite => exact .registerWrite h
  | queueEnable => exact .queueEnable h
  | queueDisable => exact .queueDisable h
  | queueResume => exact .queueResume h
  | kick => exact .kick h
  | packetRead => exact .packetRead h
  | waitsigSatisfied => exact .waitsigSatisfied h
  | chainSatisfied => exact .chainSatisfied h
  | sigwaitArm => exact .sigwaitArm h
  | hostCoherentAccess => exact .hostCoherentAccess h
  | hostDirectAccess => exact .hostDirectAccess h
  | cxlMemAccess => exact .cxlMemAccess h
  | pftPut => exact .pftPut h
  | pftGetRequest => exact .pftGetRequest h
  | pftGetResponse => exact .pftGetResponse h
  | pftFlag => exact .pftFlag h
  | pftShipRequest => exact .pftShipRequest h
  | pftShipResult => exact .pftShipResult h
  | pftSignal => exact .pftSignal h
  | pftChainRegister => exact .pftChainRegister h
  | pftChainNotify => exact .pftChainNotify h
  | pftAck => exact .pftAck h
  | pftNack => exact .pftNack h
  | pftRetransmit => exact .pftRetransmit h
  | reconciliationWindow => exact .reconciliationWindow h
  | getUsageHeader => exact .getUsageHeader h
  | getUsage => exact .getUsage h
  | getHealth => exact .getHealth h
  | getVersion => exact .getVersion h
  | getCapabilities => exact .getCapabilities h
  | negotiateAlgorithms => exact .negotiateAlgorithms h
  | getDigests => exact .getDigests h
  | getCertificate => exact .getCertificate h
  | challenge => exact .challenge h
  | getMeasurements => exact .getMeasurements h
  | ptpEnable => exact .ptpEnable h
  | hostSnoop => exact .hostSnoop h
  | ptpMessage => exact .ptpMessage h
  | activePortChange => exact h
  | configurationRequest port => exact .configurationRequest (_port := port) h
  | serviceFirmwareDecline => exact .serviceFirmwareDecline h
  | powerGoodLoss => exact .powerGoodLoss h

/-- Each event of the list keeps the canonical form. -/
def EachInv {α : Type} (q : α → State → Out) (l : List α) : Prop := ∀ a ∈ l, ∀ s, s.Inv → Out.Inv (q a s)

namespace EachInv

variable {α β : Type} {q : α → State → Out}

theorem nil : EachInv q [] := fun _ ha => nomatch ha

theorem cons {a : α} {l : List α} (ha : ∀ s, s.Inv → Out.Inv (q a s)) (hl : EachInv q l) : EachInv q (a :: l) :=
  List.forall_mem_cons.2 ⟨ha, hl⟩

theorem append {l m : List α} (hl : EachInv q l) (hm : EachInv q m) : EachInv q (l ++ m) := List.forall_mem_append.2 ⟨hl, hm⟩

theorem map {f : β → α} {l : List β} (hf : ∀ b s, s.Inv → Out.Inv (q (f b) s)) : EachInv q (l.map f) :=
  List.forall_mem_map.2 fun b _ => hf b

theorem flatMap {f : β → List α} {l : List β} (hf : ∀ b, EachInv q (f b)) : EachInv q (l.flatMap f) := fun a ha =>
  have ⟨b, _, hb⟩ := List.mem_flatMap.1 ha
  hf b a hb

theorem ite {c : Prop} [Decidable c] {l m : List α} (hl : EachInv q l) (hm : EachInv q m) : EachInv q (if c then l else m) := by
  split
  · exact hl
  · exact hm

theorem dueAt {a : Actor} {l : List (State → Out)} (h : EachInv (fun f => f) l) : EachInv Prod.snd (dueAt a l) :=
  List.forall_mem_map.2 h

end EachInv

theorem EachInv.dueThread {t : Thread} : EachInv Prod.snd (s.dueThread t) := by
  unfold State.dueThread
  split
  · exact .dueAt (.ite (.cons (fun _ h => .threadWake h) .nil) (.ite (.cons (fun _ h => .waitTimeout h) .nil) .nil))
  · exact .nil

theorem EachInv.dueCommand {k eng : Nat} {m : MCmd} : EachInv Prod.snd (dueCommand k eng m) := by
  refine .dueAt (.cons (fun s h => ?_) .nil)
  cases m.op with
  | drain => exact .drainRun h
  | _ => exact .matrixCommandRun h

theorem EachInv.dueDescent {k : Nat} {m : DCmd} : EachInv Prod.snd (dueDescent k m) := by
  refine .dueAt (.cons (fun s h => ?_) .nil)
  cases m.op with
  | run => exact .dscLevel h
  | grad => exact .dscGradRun h

theorem EachInv.dueWork : EachInv Prod.snd s.dueWork := by
  unfold State.dueWork
  simp only [List.flatten_cons, List.flatten_nil]
  refine .append (.flatMap fun _ => .dueThread) (.append (.flatMap fun _ => .dueAt (.cons (fun _ h => .ldaLand h) .nil))
    (.append (.flatMap fun _ => .dueAt (.cons (fun _ h => .ringEntryTake h) (.cons (fun _ h => .bulkCopySector h) .nil)))
    (.append (.flatMap fun _ => .dueCommand) (.append (.flatMap fun _ => .flatMap fun _ => .dueDescent)
    (.append (.flatMap fun _ => .dueAt (.cons (fun _ h => .rfbBlockStart h) (.map fun _ _ h => .rfbStepDone h))) .nil)))))

theorem EachInv.dueCore {x : Ctx} {k : Nat} : EachInv (fun f => f) (s.dueCore x k) := by
  unfold State.dueCore
  refine .append (.append (.append (.ite .nil ?_) (.ite (.map fun _ _ h => .taskSteal h) .nil))
    (.ite .nil (.cons (fun _ h => .spillRefill h) .nil))) (.ite (.cons (fun _ h => .preemptSave h) .nil) .nil)
  exact .cons (fun _ h => .taskAdmit h) (.cons (fun _ h => .heldAdmission h) (.cons (fun _ h => .gangBoundExpiry h) .nil))

theorem EachInv.dueCtx {c : Nat} {x : Ctx} : EachInv Prod.snd (s.dueCtx c x) := by
  unfold State.dueCtx
  exact .append (.dueAt (.append (.ite .nil (.cons (fun _ h => .faultRecordWrite h) .nil)) (.map fun _ _ h => .routingTimeout h)))
    (.flatMap fun _ => .dueAt .dueCore)

theorem EachInv.dueLc {n : Nat} {x : Lc} : EachInv Prod.snd (dueLc n x) :=
  .dueAt (.append (.append (.append (.ite .nil (.cons (fun _ h => .shipGrant h) .nil))
    (.ite .nil (.cons (fun _ h => .shipArrival h) .nil))) (.ite .nil (.cons (fun _ h => .sectionStart h) .nil)))
    (.ite (.cons (fun _ h => .sectionTimeLimit h) .nil) .nil))

theorem EachInv.dueQueue {n : Nat} {x : Queue} : EachInv Prod.snd (dueQueue n x) := by
  refine .dueAt (.append (.ite (.cons (fun _ h => .packetRead h) .nil) .nil) ?_)
  split
  · exact .cons (fun _ h => .waitsigSatisfied h) .nil
  · exact .cons (fun _ h => .chainSatisfied h) .nil
  · exact .nil

theorem EachInv.dueService : EachInv Prod.snd s.dueService := by
  unfold State.dueService
  simp only [List.flatten_cons, List.flatten_nil]
  exact .append (.flatMap fun _ => .flatMap fun _ => .dueCtx) (.append (.dueAt (.map fun _ _ h => .routingTimeout h))
    (.append (.flatMap fun _ => .dueLc) (.append (.flatMap fun _ => .dueQueue)
    (.append (.dueAt (.ite (.cons (fun _ h => .semaphoreLeaseExpiry h) .nil) .nil)) .nil))))

theorem Move.Inv.due {a : Actor} {f : State → Out} (hf : ∀ s, s.Inv → Out.Inv (f s)) (h : s.Inv) :
    Move.Inv (s.due a f) := .ofOut (hf _ h) h

theorem Move.Inv.dueMove (h : s.Inv) : Move.Inv s.dueMove := by
  unfold State.dueMove
  extract_lets l
  split
  · rename_i he
    exact .due (EachInv.append EachInv.dueWork EachInv.dueService _ (List.mem_of_getElem? he)) h
  · exact State.Inv.of_eq (.elapse h) rfl rfl rfl

theorem Move.Inv.defaultMove (h : s.Inv) : Move.Inv s.defaultMove := by
  unfold State.defaultMove
  split
  · exact .bootStage h
  · split
    · exact .dueMove h
    · split
      · exact .agentMove h
      · split
        · exact .agentMove h
        · extract_lets s₁
          have h₁ : s₁.Inv := .foldl (fun _ _ h' => .noteStalls h') h
          split
          · exact .beamMove h₁
          · exact .dueMove h₁

theorem Move.Inv.move (h : s.Inv) : Move.Inv s.move := by
  unfold State.move
  split
  · exact .agentMove h
  · extract_lets s₁
    have h₁ : s₁.Inv := .trim h
    split
    · exact .turn h₁
    · exact .defaultMove h₁

theorem Out.Inv.step (h : s.Inv) : Out.Inv (step s) := by
  have hmove := Move.Inv.move h
  unfold Machine.step
  split
  · rename_i he
    rw [he] at hmove
    exact .exec hmove
  · rename_i he
    rw [he] at hmove
    exact hmove

/-- Settles O60: what moves next keeps the canonical form, and so does what it runs. -/
theorem everyStepKeepsMemoriesCanonical : Obligations.EveryStepKeepsMemoriesCanonical := by
  intro s s' h hstep
  have hkept : Out.Inv (step s) := .step h
  rw [hstep] at hkept
  exact hkept

end Sys2Proof.Machine
end
